-- ==== Sys2Proof/Word.lean ====
section
/-! DEFINITION. The word types: bytes, 32-bit register words, 64-bit addresses and lane masks, and
the plainest arithmetic on them (R82, R83). -/

namespace Sys2Proof

/-- One byte of memory. -/
abbrev Byte := BitVec 8
/-- One lane of a vector register (R82), and one instruction word (R127). -/
abbrev Word := BitVec 32
/-- A 64-bit value: a register pair, an address before its canonical check (R104). -/
abbrev DWord := BitVec 64
/-- A set of lanes: bit l is lane l (R21). -/
abbrev Mask := BitVec 64

/-- Two's-complement clamp of an exact integer to a signed 32-bit word: `Sat()` of R83. -/
def satS32 (x : Int) : Word :=
  BitVec.ofInt 32 (max (-2147483648) (min 2147483647 x))

/-- Clamp of an exact integer to an unsigned 32-bit word: `Sat()` of R83. -/
def satU32 (x : Int) : Word :=
  BitVec.ofInt 32 (max 0 (min 4294967295 x))

end Sys2Proof
end

