-- ==== Sys2Proof/Machine/Fp.lean ====
section
/-! DEFINITION. Number formats and exact arithmetic (R84 to R96, R99, R101): values are exact dyadic numbers, and every
rounding is one application of `roundF`. -/

namespace Sys2Proof.Machine

/-- A floating format (R84): exponent and fraction widths, bias, and how the all-ones exponent reads. -/
inductive FKind where
  | ieee | e4m3 | e2m1
  deriving DecidableEq, Repr

structure Fmt where
  eb : Nat
  fb : Nat
  bias : Nat
  kind : FKind
  deriving DecidableEq, Repr

def f16 : Fmt := ⟨5, 10, 15, .ieee⟩
def bf16 : Fmt := ⟨8, 7, 127, .ieee⟩
def f32 : Fmt := ⟨8, 23, 127, .ieee⟩
def f64 : Fmt := ⟨11, 52, 1023, .ieee⟩
def e4m3 : Fmt := ⟨4, 3, 7, .e4m3⟩
def e5m2 : Fmt := ⟨5, 2, 15, .ieee⟩
def e2m1 : Fmt := ⟨2, 1, 1, .e2m1⟩
def a40 : Fmt := ⟨10, 29, 511, .ieee⟩

/-- Rounding modes (R88, R89), round-to-odd among them. -/
inductive RMode where
  | rne | rz | ru | rd | odd
  deriving DecidableEq, Repr

/-- The mode a prefix's rm field selects, with the instruction's default (R88). -/
def rmode (rm : Nat) (dflt : RMode) : RMode :=
  match rm with
  | 1 => .rne
  | 2 => .rz
  | 3 => .ru
  | 4 => .rd
  | _ => dflt

/-- A value: a NaN with its sign, its fraction in `fb` bits and whether it is signalling; an infinity; or the exact
number (−1)^neg × m × 2^e. -/
inductive FVal where
  | nan (neg : Bool) (frac fb : Nat) (snan : Bool)
  | inf (neg : Bool)
  | fin (neg : Bool) (m : Nat) (e : Int)
  deriving DecidableEq, Repr

/-- The flags of R91. -/
abbrev Flags := BitVec 5
def flNX : Flags := 16
def flUF : Flags := 8
def flOF : Flags := 4
def flDZ : Flags := 2
def flNV : Flags := 1

def signBit (f : Fmt) (neg : Bool) : Nat := if neg then 2 ^ (f.eb + f.fb) else 0

/-- The value of an encoding (R84, R85). -/
def decodeF (f : Fmt) (x : Nat) : FVal :=
  let neg := x.testBit (f.eb + f.fb)
  let e := x / 2 ^ f.fb % 2 ^ f.eb
  let fr := x % 2 ^ f.fb
  let ones := 2 ^ f.eb - 1
  if e = ones ∧ f.kind = .ieee then
    if fr = 0 then .inf neg else .nan neg fr f.fb (!fr.testBit (f.fb - 1))
  else if e = ones ∧ f.kind = .e4m3 ∧ fr = 7 then .nan neg 7 f.fb false
  else if e = 0 then .fin neg fr (1 - (f.bias : Int) - f.fb)
  else .fin neg (2 ^ f.fb + fr) ((e : Int) - f.bias - f.fb)

/-- The encoding of the largest finite magnitude (R85). -/
def maxBits (f : Fmt) : Nat :=
  match f.kind with
  | .ieee => (2 ^ f.eb - 1) * 2 ^ f.fb - 1
  | .e4m3 => 0x7E
  | .e2m1 => 7

/-- The encoding that stands for infinity: the NaN where the format has none (R89). -/
def infBits (f : Fmt) : Nat :=
  match f.kind with
  | .ieee => (2 ^ f.eb - 1) * 2 ^ f.fb
  | .e4m3 => 0x7F
  | .e2m1 => 7

/-- The canonical NaN (R85). -/
def canonNaN (f : Fmt) : FVal := .nan false (2 ^ (f.fb - 1)) f.fb false

/-- A NaN in a format: sign kept, made quiet, the top fraction bits carried (R94). -/
def nanBits (f : Fmt) (neg : Bool) (frac fb : Nat) : Nat :=
  match f.kind with
  | .ieee =>
    let q := frac ||| 2 ^ (fb - 1)
    let fr := if fb ≤ f.fb then q * 2 ^ (f.fb - fb) else q / 2 ^ (fb - f.fb)
    signBit f neg + (2 ^ f.eb - 1) * 2 ^ f.fb + fr
  | _ => signBit f neg + 0x7F

/-- `m / 2 ^ sh` rounded, and whether it was inexact. -/
def roundShift (mode : RMode) (neg : Bool) (m sh : Nat) : Nat × Bool :=
  let q := m / 2 ^ sh
  let r := m % 2 ^ sh
  if r = 0 then (q, false)
  else
    let h := 2 ^ sh
    match mode with
    | .rne => (if 2 * r > h ∨ (2 * r = h ∧ q % 2 = 1) then q + 1 else q, true)
    | .rz => (q, true)
    | .ru => (if neg then q else q + 1, true)
    | .rd => (if neg then q + 1 else q, true)
    | .odd => (if q % 2 = 0 then q + 1 else q, true)

/-- `m × 2 ^ e` as a multiple of `2 ^ q`, rounded. -/
def roundAt (mode : RMode) (neg : Bool) (m : Nat) (e q : Int) : Nat × Bool :=
  if q ≤ e then (m * 2 ^ (e - q).toNat, false) else roundShift mode neg m (q - e).toNat

/-- Round an exact non-zero number into a format (R86, R89, R90, R92): its encoding and the flags raised. -/
def roundFin (f : Fmt) (mode : RMode) (sat : Bool) (neg : Bool) (m : Nat) (e : Int) : Nat × Flags :=
  let ex : Int := (Nat.log2 m : Int) + e
  let qmin : Int := 1 - (f.bias : Int) - f.fb
  let q : Int := max (ex - f.fb) qmin
  let r := roundAt mode neg m e q
  let b := r.1 + (q - qmin).toNat * 2 ^ f.fb
  if b > maxBits f then
    let out :=
      if sat then maxBits f
      else match mode with
        | .rne => infBits f
        | .rz => maxBits f
        | .odd => maxBits f
        | .ru => if neg then maxBits f else infBits f
        | .rd => if neg then infBits f else maxBits f
    (signBit f neg + out, flOF ||| flNX)
  else
    let u := roundAt mode neg m e (ex - f.fb)
    let tiny := decide ((Nat.log2 u.1 : Int) + (ex - f.fb) < 1 - (f.bias : Int))
    (signBit f neg + b, if r.2 then (if tiny then flUF ||| flNX else flNX) else 0)

/-- Round a value into a format (R89, R90, R94). -/
def roundF (f : Fmt) (mode : RMode) (sat : Bool) (x : FVal) : Nat × Flags :=
  match x with
  | .nan neg fr fb _ => (nanBits f neg fr fb, 0)
  | .inf neg => if sat then (signBit f neg + maxBits f, flNX) else (signBit f neg + infBits f, 0)
  | .fin neg m e => if m = 0 then (signBit f neg, 0) else roundFin f mode sat neg m e

/-- A signalling operand raises NV (R92). -/
def FVal.snan : FVal → Bool
  | .nan _ _ _ sg => sg
  | _ => false
def FVal.isNaN : FVal → Bool
  | .nan _ _ _ _ => true
  | _ => false
def FVal.isInf : FVal → Bool
  | .inf _ => true
  | _ => false
def FVal.isZero : FVal → Bool
  | .fin _ m _ => m == 0
  | _ => false
def FVal.neg : FVal → Bool
  | .nan n _ _ _ => n
  | .inf n => n
  | .fin n _ _ => n
def FVal.flip : FVal → FVal
  | .nan n a b c => .nan (!n) a b c
  | .inf n => .inf (!n)
  | .fin n m e => .fin (!n) m e

/-- The first NaN of a list, if there is one, and NV if any is signalling (R92, R93). -/
def nanOf (xs : List FVal) : Option FVal × Flags :=
  (xs.find? FVal.isNaN, if xs.any FVal.snan then flNV else 0)

/-- The exact signed integer of a number at a common exponent. -/
def atExp (neg : Bool) (m : Nat) (e lo : Int) : Int :=
  let v : Int := (m * 2 ^ (e - lo).toNat : Nat)
  if neg then -v else v

/-- The exact sum of two numbers that are no NaN, with the zero rule of R89 and NV for ∞ − ∞. -/
def addV (f : Fmt) (mode : RMode) (x y : FVal) : FVal × Flags :=
  match x, y with
  | .inf a, .inf b => if a = b then (.inf a, 0) else (canonNaN f, flNV)
  | .inf a, _ => (.inf a, 0)
  | _, .inf b => (.inf b, 0)
  | .fin na ma ea, .fin nb mb eb =>
    if ma = 0 ∧ mb = 0 then (.fin (if na = nb then na else decide (mode = .rd)) 0 0, 0)
    else
      let lo := min ea eb
      let v := atExp na ma ea lo + atExp nb mb eb lo
      if v = 0 then (.fin (decide (mode = .rd)) 0 0, 0)
      else (.fin (decide (v < 0)) v.natAbs lo, 0)
  | x, _ => (x, 0)

/-- The exact product of two values that are no NaN, with NV for 0 × ∞. -/
def mulV (f : Fmt) (x y : FVal) : FVal × Flags :=
  match x, y with
  | .fin na ma ea, .fin nb mb eb => (.fin (na != nb) (ma * mb) (ea + eb), 0)
  | .inf a, y => if y.isZero then (canonNaN f, flNV) else (.inf (a != y.neg), 0)
  | x, .inf b => if x.isZero then (canonNaN f, flNV) else (.inf (b != x.neg), 0)
  | x, _ => (x, 0)

/-- A result of a rounding operation: NaN rules first (R93), then the exact value rounded. -/
def finishF (f : Fmt) (mode : RMode) (sat : Bool) (ops : List FVal) (v : FVal × Flags) : Nat × Flags :=
  match nanOf ops with
  | (some n, fl) => ((roundF f mode sat n).1, fl ||| v.2)
  | (none, _) => let r := roundF f mode sat v.1; (r.1, r.2 ||| v.2)

def addF (f : Fmt) (mode : RMode) (sat : Bool) (a b : Nat) : Nat × Flags :=
  let x := decodeF f a; let y := decodeF f b
  finishF f mode sat [x, y] (if x.isNaN || y.isNaN then (x, 0) else addV f mode x y)
def subF (f : Fmt) (mode : RMode) (sat : Bool) (a b : Nat) : Nat × Flags :=
  let x := decodeF f a; let y := decodeF f b
  finishF f mode sat [x, y] (if x.isNaN || y.isNaN then (x, 0) else addV f mode x y.flip)
def mulF (f : Fmt) (mode : RMode) (sat : Bool) (a b : Nat) : Nat × Flags :=
  let x := decodeF f a; let y := decodeF f b
  finishF f mode sat [x, y] (if x.isNaN || y.isNaN then (x, 0) else mulV f x y)

/-- The exact a × b + c (R92, R93): 0 × ∞ raises NV whatever c is. -/
def fmaV (f : Fmt) (mode : RMode) (x y z : FVal) : FVal × Flags :=
  if x.isNaN || y.isNaN then (x, 0)
  else
    let p := mulV f x y
    if z.isNaN || p.1.isNaN then p else let r := addV f mode p.1 z; (r.1, r.2 ||| p.2)
def fmaF (f : Fmt) (mode : RMode) (sat : Bool) (a b c : Nat) : Nat × Flags :=
  let x := decodeF f a; let y := decodeF f b; let z := decodeF f c
  finishF f mode sat [x, y, z] (fmaV f mode x y z)

/-- A quotient or root with guard bits: exact unless the last bit, a sticky bit, is set; correctly rounded in every
mode. -/
def divV (f : Fmt) (x y : FVal) : FVal × Flags :=
  match x, y with
  | .inf a, .inf _ => let _ := a; (canonNaN f, flNV)
  | .inf a, .fin b _ _ => (.inf (a != b), 0)
  | .fin a _ _, .inf b => (.fin (a != b) 0 0, 0)
  | .fin a ma ea, .fin b mb eb =>
    if mb = 0 then (if ma = 0 then (canonNaN f, flNV) else (.inf (a != b), flDZ))
    else if ma = 0 then (.fin (a != b) 0 0, 0)
    else
      let k := f.fb + 4 + (Nat.log2 mb + 1)
      let q := ma * 2 ^ k / mb
      let r := ma * 2 ^ k % mb
      (.fin (a != b) (2 * q + (if r = 0 then 0 else 1)) (ea - eb - k - 1), 0)
  | x, _ => (x, 0)
def divF (f : Fmt) (mode : RMode) (sat : Bool) (a b : Nat) : Nat × Flags :=
  let x := decodeF f a; let y := decodeF f b
  finishF f mode sat [x, y] (if x.isNaN || y.isNaN then (x, 0) else divV f x y)

/-- Integer square root of `n`, bit by bit from bit `k − 1` down. -/
def isqrt (n : Nat) : Nat → Nat → Nat
  | 0, r => r
  | k + 1, r => isqrt n k (if (r + 2 ^ k) * (r + 2 ^ k) ≤ n then r + 2 ^ k else r)

def sqrtV (f : Fmt) (x : FVal) : FVal × Flags :=
  match x with
  | .fin neg m e =>
    if m = 0 then (x, 0)
    else if neg then (canonNaN f, flNV)
    else
      let m' := if e % 2 = 0 then m else 2 * m
      let e' := if e % 2 = 0 then e else e - 1
      let n := m' * 2 ^ (2 * (f.fb + 4))
      let r := isqrt n (Nat.log2 n / 2 + 1) 0
      (.fin false (2 * r + (if r * r = n then 0 else 1)) (e' / 2 - (f.fb + 4 : Nat) - 1), 0)
  | .inf neg => if neg then (canonNaN f, flNV) else (x, 0)
  | x => (x, 0)
def sqrtF (f : Fmt) (mode : RMode) (sat : Bool) (a : Nat) : Nat × Flags :=
  let x := decodeF f a
  finishF f mode sat [x] (sqrtV f x)

/-- A conversion between formats (R94, R96): one rounding, NV for a signalling NaN. -/
def cvtF (src dst : Fmt) (mode : RMode) (sat : Bool) (a : Nat) : Nat × Flags :=
  let x := decodeF src a
  finishF dst mode sat [x] (x, 0)

/-- The order of two values that are no NaN: −1, 0, 1; −0 equals +0 (R95). -/
def cmpV (x y : FVal) : Int :=
  match x, y with
  | .inf a, .inf b => if a = b then 0 else if a then -1 else 1
  | .inf a, _ => if a then -1 else 1
  | _, .inf b => if b then 1 else -1
  | .fin na ma ea, .fin nb mb eb =>
    let lo := min ea eb
    let a := atExp na ma ea lo
    let b := atExp nb mb eb lo
    if a < b then -1 else if b < a then 1 else 0
  | _, _ => 0

/-- minimumNumber and maximumNumber (R95): −0 below +0, a on equality. -/
def minmaxF (f : Fmt) (isMax : Bool) (a b : Nat) : Nat × Flags :=
  let x := decodeF f a; let y := decodeF f b
  let fl : Flags := if x.snan || y.snan then flNV else 0
  match x.isNaN, y.isNaN with
  | true, true => ((roundF f .rne false x).1, fl)
  | true, false => (b, fl)
  | false, true => (a, fl)
  | false, false =>
    let c := cmpV x y
    let less := if c = 0 then (if x.neg = y.neg then false else x.neg) else decide (c < 0)
    let eq := decide (c = 0) && x.neg == y.neg
    (if eq then a else if less != isMax then a else b, fl)

/-- The reduction minimum and maximum propagate NaNs (R97). `true` in the second place: the right operand won. -/
def minmaxRed (isMax : Bool) (a b : Nat) : Nat × Bool × Flags :=
  let x := decodeF f32 a; let y := decodeF f32 b
  let fl : Flags := if x.snan || y.snan then flNV else 0
  if x.isNaN then ((roundF f32 .rne false x).1, false, fl)
  else if y.isNaN then ((roundF f32 .rne false y).1, true, fl)
  else
    let c := cmpV x y
    let less := if c = 0 then (if x.neg = y.neg then false else x.neg) else decide (c < 0)
    let eq := decide (c = 0) && x.neg == y.neg
    if eq || (less != isMax) then (a, false, fl) else (b, true, fl)

/-- The compares of R95: the relation on values that are no NaN, false on a NaN; NV for a signalling NaN. -/
def cmpF (f : Fmt) (rel : Int → Bool) (a b : Nat) : Bool × Flags :=
  let x := decodeF f a; let y := decodeF f b
  let fl : Flags := if x.snan || y.snan then flNV else 0
  if x.isNaN || y.isNaN then (false, fl) else (rel (cmpV x y), fl)
/-- Unordered (R95). -/
def cmpUn (f : Fmt) (a b : Nat) : Bool × Flags :=
  let x := decodeF f a; let y := decodeF f b
  (x.isNaN || y.isNaN, if x.snan || y.snan then flNV else 0)

/-- A number rounded to an integer, and whether a fraction was discarded. -/
def roundInt (mode : RMode) (neg : Bool) (m : Nat) (e : Int) : Int × Bool :=
  let r := roundAt mode neg m e 0
  (if neg then -(r.1 : Int) else r.1, r.2)

/-- `frnd.f32`: to an integral value in the same format. -/
def frndF (f : Fmt) (mode : RMode) (a : Nat) : Nat × Flags :=
  let x := decodeF f a
  match x with
  | .fin neg m e =>
    let r := roundAt mode neg m e 0
    ((roundF f mode false (.fin neg r.1 0)).1, if r.2 then flNX else 0)
  | .inf _ => (a, 0)
  | .nan _ _ _ sg => ((roundF f mode false x).1, if sg then flNV else 0)

/-- Binary32 to an integer range (R96). -/
def cvtIntF (lo hi : Int) (mode : RMode) (a : Nat) : Int × Flags :=
  match decodeF f32 a with
  | .nan _ _ _ _ => (0, flNV)
  | .inf neg => (if neg then lo else hi, flNV)
  | .fin neg m e =>
    let r := roundInt mode neg m e
    if r.1 < lo then (lo, flNV) else if hi < r.1 then (hi, flNV) else (r.1, if r.2 then flNX else 0)

/-- An integer to binary32 (R96). -/
def cvtFromInt (mode : RMode) (v : Int) : Nat × Flags :=
  roundF f32 mode false (.fin (decide (v < 0)) v.natAbs 0)

/-- `qpk`: the exact product, rounded once and clamped (R96); a product 0 × ∞ is a NaN of the product's sign (R181). -/
def quantF (f : Fmt) (mode : RMode) (a scale : Nat) : Nat × Flags :=
  let x := decodeF f32 a; let y := decodeF f32 scale
  let p := mulV f x y
  finishF f mode true [x, y]
    (if x.isNaN || y.isNaN then (x, 0)
     else if p.1.isNaN then (.nan (x.neg != y.neg) (2 ^ (f.fb - 1)) f.fb false, p.2) else p)

/-- `dq`: an 8-bit value times a binary32 scale, rounded to binary32 (R96). -/
def dequantF (f : Fmt) (mode : RMode) (sat : Bool) (a scale : Nat) : Nat × Flags :=
  let x := decodeF f a; let y := decodeF f32 scale
  finishF f32 mode sat [x, y] (if x.isNaN || y.isNaN then (x, 0) else mulV f32 x y)

/-- A format window's element (R103): the E2M1 code, its E8 block exponent, the binary32 scale. -/
def windowElem (code e8 scale : Nat) : Nat :=
  let sign := code.testBit 3
  let nan := signBit e4m3 sign + 0x7F
  match decodeF f32 scale, decodeF e2m1 code with
  | .fin false m e, .fin neg mc ec =>
    if e8 = 0xFF ∨ m = 0 ∨ m ≠ 2 ^ Nat.log2 m then nan
    else (roundF e4m3 .rne true (.fin neg mc (ec + ((e8 : Int) - 127) - (e + Nat.log2 m)))).1
  | _, _ => nan

/-- RoundOdd40 of an exact sum of two A40 patterns; a NaN passes, the left operand's first (R99, R94). -/
def add40 (a b : Nat) : Nat := (addF a40 .odd false a b).1
/-- A value into A40 by round-to-odd. -/
def to40 (x : FVal) : Nat := (roundF a40 .odd false x).1

/-- An exact product of two elements, in A40 (R99): a NaN operand's payload carried, the A operand first. -/
def prod40 (fa fb : Fmt) (a b : Nat) : Nat :=
  let x := decodeF fa a; let y := decodeF fb b
  match nanOf [x, y] with
  | (some n, _) => to40 n
  | (none, _) => to40 (mulV a40 x y).1

/-- A40 times two scales, rounded once (R99). DESIGN CHOICE (log 108): of several NaNs the sum's passes, then A's scale, then B's. -/
def scale40 (p sa sb : Nat) : Nat :=
  let x := decodeF a40 p; let y := decodeF f32 sa; let z := decodeF f32 sb
  match nanOf [x, y, z] with
  | (some n, _) => to40 n
  | (none, _) =>
    let t := (mulV a40 y z).1
    if t.isNaN then to40 t else to40 (mulV a40 x t).1

/-- The tree of R99 over a list of 2^k products: neighbours are added level by level. -/
def pairAdd : List Nat → List Nat
  | a :: b :: t => add40 a b :: pairAdd t
  | xs => xs
def tree40 : Nat → List Nat → Nat
  | 0, xs => xs.headD 0
  | k + 1, xs => tree40 k (pairAdd xs)

end Sys2Proof.Machine
end

