-- ==== Sys2Proof/Syntax.lean ====
section
/-! DEFINITION. The abstract syntax: one constructor for every row of the opcode table.
The first 229 are instruction words (their arguments are the fields R127 to R142 give the word);
the others are the whole steps of the device's other agents that the table lists (chapter
"What each step holds"), their arguments naming the agent, unit, line, element or value the step
is about (assumption log 2). -/

namespace Sys2Proof

/-- One row of the opcode table. -/
inductive Instr where
  /-- R149 ADD_W: Adds two word registers lane by lane, modulo 2^32 -/
  | addW (b a d : BitVec 7)
  /-- R149 SUB_W: Subtracts two word registers lane by lane, modulo 2^32 -/
  | subW (b a d : BitVec 7)
  /-- R149 ADDS_SW: Signed saturating word addition -/
  | addsSw (b a d : BitVec 7)
  /-- R149 ADDS_UW: Unsigned saturating word addition -/
  | addsUw (b a d : BitVec 7)
  /-- R149 SUBS_SW: Signed saturating word subtraction -/
  | subsSw (b a d : BitVec 7)
  /-- R149 SUBS_UW: Unsigned saturating word subtraction, flooring at 0 -/
  | subsUw (b a d : BitVec 7)
  /-- R149 MUL_W: Low 32 bits of the product of two words -/
  | mulW (b a d : BitVec 7)
  /-- R149 MULHI_SW: High 32 bits of the signed word product -/
  | mulhiSw (b a d : BitVec 7)
  /-- R149 MULHI_UW: High 32 bits of the unsigned word product -/
  | mulhiUw (b a d : BitVec 7)
  /-- R150 MAD_W: Multiplies two words and adds the fourth operand, modulo 2^32 -/
  | madW (b a d : BitVec 7)
  /-- R149 MIN_SW: Signed word minimum -/
  | minSw (b a d : BitVec 7)
  /-- R149 MIN_UW: Unsigned word minimum -/
  | minUw (b a d : BitVec 7)
  /-- R149 MAX_SW: Signed word maximum -/
  | maxSw (b a d : BitVec 7)
  /-- R149 MAX_UW: Unsigned word maximum -/
  | maxUw (b a d : BitVec 7)
  /-- R151 ABS_SW: Signed absolute value, optionally saturating at 0x8000_0000 -/
  | absSw (a d : BitVec 7)
  /-- R151 NEG_W: Two's-complement negation modulo 2^32 -/
  | negW (a d : BitVec 7)
  /-- R152 ADD_D: 64-bit addition of register pairs -/
  | addD (b a d : BitVec 7)
  /-- R152 SUB_D: 64-bit subtraction of register pairs -/
  | subD (b a d : BitVec 7)
  /-- R152 ADDW_D: Adds a sign-extended word to a 64-bit pair -/
  | addwD (b a d : BitVec 7)
  /-- R152 MUL_SWD: Full signed 64-bit product of two words into a pair -/
  | mulSwd (b a d : BitVec 7)
  /-- R152 MUL_UWD: Full unsigned 64-bit product of two words into a pair -/
  | mulUwd (b a d : BitVec 7)
  /-- R153 IDOT4_SB: Signed four-byte dot product accumulated into the fourth operand -/
  | idot4Sb (b a d : BitVec 7)
  /-- R153 IDOT4_UB: Unsigned four-byte dot product accumulated into the fourth operand -/
  | idot4Ub (b a d : BitVec 7)
  /-- R154 AND: Bitwise AND -/
  | and (b a d : BitVec 7)
  /-- R154 OR: Bitwise OR -/
  | or (b a d : BitVec 7)
  /-- R154 XOR: Bitwise exclusive OR -/
  | xor (b a d : BitVec 7)
  /-- R154 ANDN: Bitwise a AND NOT b -/
  | andn (b a d : BitVec 7)
  /-- R155 SHL: Logical left shift by an unsigned register count -/
  | shl (b a d : BitVec 7)
  /-- R155 SHR: Logical right shift by an unsigned register count -/
  | shr (b a d : BitVec 7)
  /-- R155 SRA: Arithmetic right shift by an unsigned register count -/
  | sra (b a d : BitVec 7)
  /-- R155 ROTL: Rotates left by the count modulo 32 -/
  | rotl (b a d : BitVec 7)
  /-- R156 CLZ: Counts leading zero bits -/
  | clz (a d : BitVec 7)
  /-- R156 POPC: Counts set bits -/
  | popc (a d : BitVec 7)
  /-- R156 BREV: Reverses the bit order of a word -/
  | brev (a d : BitVec 7)
  /-- R157 BFX_UW: Extracts an unsigned bit field -/
  | bfxUw (b a d : BitVec 7)
  /-- R157 BFX_SW: Extracts a sign-extended bit field -/
  | bfxSw (b a d : BitVec 7)
  /-- R157 BFI: Inserts a bit field into the fourth operand -/
  | bfi (b a d : BitVec 7)
  /-- R158 PERM: Builds each result byte from a byte selector in the fourth operand -/
  | perm (b a d : BitVec 7)
  /-- R154 MOV: Copies a register, keeping lineage -/
  | mov (a d : BitVec 7)
  /-- R165 FADD_F32: Binary32 addition with one rounding -/
  | faddF32 (b a d : BitVec 7)
  /-- R165 FSUB_F32: Binary32 subtraction with one rounding -/
  | fsubF32 (b a d : BitVec 7)
  /-- R165 FMUL_F32: Binary32 multiplication with one rounding -/
  | fmulF32 (b a d : BitVec 7)
  /-- R165 FFMA_F32: Binary32 fused multiply-add with one rounding -/
  | ffmaF32 (b a d : BitVec 7)
  /-- R167 FMIN_F32: Binary32 minimumNumber -/
  | fminF32 (b a d : BitVec 7)
  /-- R167 FMAX_F32: Binary32 maximumNumber -/
  | fmaxF32 (b a d : BitVec 7)
  /-- R168 FABS_F32: Clears the sign bit -/
  | fabsF32 (a d : BitVec 7)
  /-- R168 FNEG_F32: Inverts the sign bit -/
  | fnegF32 (a d : BitVec 7)
  /-- R170 FRCP_F32: Approximate reciprocal -/
  | frcpF32 (a d : BitVec 7)
  /-- R170 FRSQ_F32: Approximate reciprocal square root -/
  | frsqF32 (a d : BitVec 7)
  /-- R166 FSQRT_F32: Correctly rounded binary32 square root, interlocked -/
  | fsqrtF32 (a d : BitVec 7)
  /-- R166 FDIV_F32: Correctly rounded binary32 division, interlocked -/
  | fdivF32 (b a d : BitVec 7)
  /-- R170 FEX2_F32: Approximate 2^x -/
  | fex2F32 (a d : BitVec 7)
  /-- R170 FLG2_F32: Approximate base-2 logarithm -/
  | flg2F32 (a d : BitVec 7)
  /-- R170 FSINPI_F32: Approximate sin(pi x) -/
  | fsinpiF32 (a d : BitVec 7)
  /-- R170 FCOSPI_F32: Approximate cos(pi x) -/
  | fcospiF32 (a d : BitVec 7)
  /-- R170 FTANH_F32: Approximate tanh x -/
  | ftanhF32 (a d : BitVec 7)
  /-- R169 FRND_F32: Rounds to an integral binary32 value -/
  | frndF32 (a d : BitVec 7)
  /-- R172 HADD2_F16: Packed binary16 addition per half -/
  | hadd2F16 (b a d : BitVec 7)
  /-- R172 HMUL2_F16: Packed binary16 multiplication per half -/
  | hmul2F16 (b a d : BitVec 7)
  /-- R172 HFMA2_F16: Packed binary16 fused multiply-add per half -/
  | hfma2F16 (b a d : BitVec 7)
  /-- R172 HADD2_BF16: Packed bfloat16 addition per half -/
  | hadd2Bf16 (b a d : BitVec 7)
  /-- R172 HMUL2_BF16: Packed bfloat16 multiplication per half -/
  | hmul2Bf16 (b a d : BitVec 7)
  /-- R172 HFMA2_BF16: Packed bfloat16 fused multiply-add per half -/
  | hfma2Bf16 (b a d : BitVec 7)
  /-- R173 HMIN2_BF16: Packed bfloat16 minimumNumber per half -/
  | hmin2Bf16 (b a d : BitVec 7)
  /-- R173 HMAX2_BF16: Packed bfloat16 maximumNumber per half -/
  | hmax2Bf16 (b a d : BitVec 7)
  /-- R174 FDOT2_BF16: Two-term bfloat16 dot product into binary32 with one rounding -/
  | fdot2Bf16 (b a d : BitVec 7)
  /-- R175 DADD: Binary64 addition -/
  | dadd (b a d : BitVec 7)
  /-- R175 DMUL: Binary64 multiplication -/
  | dmul (b a d : BitVec 7)
  /-- R175 DFMA: Binary64 fused multiply-add -/
  | dfma (b a d : BitVec 7)
  /-- R175 DMIN: Binary64 minimumNumber -/
  | dmin (b a d : BitVec 7)
  /-- R175 DMAX: Binary64 maximumNumber -/
  | dmax (b a d : BitVec 7)
  /-- R176 DDIV: Correctly rounded binary64 division, interlocked -/
  | ddiv (b a d : BitVec 7)
  /-- R176 DSQRT: Correctly rounded binary64 square root, interlocked -/
  | dsqrt (a d : BitVec 7)
  /-- R177 CVT_F32_SW: Signed word to binary32 -/
  | cvtF32Sw (a d : BitVec 7)
  /-- R177 CVT_F32_UW: Unsigned word to binary32 -/
  | cvtF32Uw (a d : BitVec 7)
  /-- R177 CVT_SW_F32: Binary32 to saturated signed word -/
  | cvtSwF32 (a d : BitVec 7)
  /-- R177 CVT_UW_F32: Binary32 to saturated unsigned word -/
  | cvtUwF32 (a d : BitVec 7)
  /-- R178 PK_F16: Packs two binary32 values into binary16 halves -/
  | pkF16 (b a d : BitVec 7)
  /-- R178 PK_BF16: Packs two binary32 values into bfloat16 halves -/
  | pkBf16 (b a d : BitVec 7)
  /-- R179 CVT_F32_F16: Widens the selected binary16 half to binary32 -/
  | cvtF32F16 (i a d : BitVec 7)
  /-- R179 CVT_F32_BF16: Widens the selected bfloat16 half to binary32 -/
  | cvtF32Bf16 (i a d : BitVec 7)
  /-- R180 CVT_F64_F32: Widens binary32 to binary64 exactly -/
  | cvtF64F32 (a d : BitVec 7)
  /-- R180 CVT_F32_F64: Narrows binary64 to binary32 -/
  | cvtF32F64 (a d : BitVec 7)
  /-- R181 QPK_E4M3: Quantises four scaled binary32 values to E4M3 bytes -/
  | qpkE4m3 (b a d : BitVec 7)
  /-- R181 QPK_E5M2: Quantises four scaled binary32 values to E5M2 bytes -/
  | qpkE5m2 (b a d : BitVec 7)
  /-- R182 DQ_E4M3: Dequantises four E4M3 bytes to scaled binary32 values -/
  | dqE4m3 (b a d : BitVec 7)
  /-- R182 DQ_E5M2: Dequantises four E5M2 bytes to scaled binary32 values -/
  | dqE5m2 (b a d : BitVec 7)
  /-- R186 SHFL_IDX: Reads a register from an indexed lane and sets p1 -/
  | shflIdx (b a d : BitVec 7)
  /-- R186 SHFL_UP: Reads a register from lane l - n and sets p1 -/
  | shflUp (b a d : BitVec 7)
  /-- R186 SHFL_DN: Reads a register from lane l + n and sets p1 -/
  | shflDn (b a d : BitVec 7)
  /-- R186 SHFL_XOR: Reads a register from lane l xor n and sets p1 -/
  | shflXor (b a d : BitVec 7)
  /-- R186 SHFL_REL: Reads a register from a relatively rotated lane and sets p1 -/
  | shflRel (b a d : BitVec 7)
  /-- R187 VOTE_ANY: Sets a predicate if any lane of M has the source predicate -/
  | voteAny (a d : BitVec 7)
  /-- R187 VOTE_ALL: Sets a predicate if every lane of M has the source predicate -/
  | voteAll (a d : BitVec 7)
  /-- R187 BALLOT: Writes the 64-bit mask of lanes with the predicate set -/
  | ballot (a d : BitVec 7)
  /-- R188 REDX: Reduces a register over the lanes by the fixed tree -/
  | redx (i a d : BitVec 7)
  /-- R188 REDXI: Reduction returning the extreme value and its lowest lane index -/
  | redxi (i a d : BitVec 7)
  /-- R188 SCAN: Inclusive prefix scan over the lanes by the fixed tree -/
  | scan (i a d : BitVec 7)
  /-- R187 MATCH: Writes the mask of lanes holding the same value -/
  | matchW (a d : BitVec 7)
  /-- R161 CMP_EQ_W: Sets a predicate where two words are equal -/
  | cmpEqW (b a d : BitVec 7)
  /-- R161 CMP_NE_W: Sets a predicate where two words differ -/
  | cmpNeW (b a d : BitVec 7)
  /-- R161 CMP_LT_SW: Signed less-than compare into a predicate -/
  | cmpLtSw (b a d : BitVec 7)
  /-- R161 CMP_LE_SW: Signed less-or-equal compare into a predicate -/
  | cmpLeSw (b a d : BitVec 7)
  /-- R161 CMP_LT_UW: Unsigned less-than compare into a predicate -/
  | cmpLtUw (b a d : BitVec 7)
  /-- R161 CMP_LE_UW: Unsigned less-or-equal compare into a predicate -/
  | cmpLeUw (b a d : BitVec 7)
  /-- R162 FCMP_EQ_F32: Ordered binary32 equality compare -/
  | fcmpEqF32 (b a d : BitVec 7)
  /-- R162 FCMP_LT_F32: Ordered binary32 less-than compare -/
  | fcmpLtF32 (b a d : BitVec 7)
  /-- R162 FCMP_LE_F32: Ordered binary32 less-or-equal compare -/
  | fcmpLeF32 (b a d : BitVec 7)
  /-- R162 FCMP_UN_F32: Sets a predicate where either binary32 operand is a NaN -/
  | fcmpUnF32 (b a d : BitVec 7)
  /-- R162 DCMP_LT: Ordered binary64 less-than compare -/
  | dcmpLt (b a d : BitVec 7)
  /-- R162 DCMP_EQ: Ordered binary64 equality compare -/
  | dcmpEq (b a d : BitVec 7)
  /-- R163 PAND: Predicate AND -/
  | pand (b a d : BitVec 7)
  /-- R163 POR: Predicate OR -/
  | por (b a d : BitVec 7)
  /-- R163 PXOR: Predicate exclusive OR -/
  | pxor (b a d : BitVec 7)
  /-- R163 PANDN: Predicate a AND NOT b -/
  | pandn (b a d : BitVec 7)
  /-- R164 PMOV_V: Sets a predicate where a register is non-zero -/
  | pmovV (a d : BitVec 7)
  /-- R164 VMOV_P: Writes 1 or 0 from a predicate into a register -/
  | vmovP (a d : BitVec 7)
  /-- R164 PCNT: Counts lanes of M with the predicate set -/
  | pcnt (a d : BitVec 7)
  /-- R190 LD_SB: Loads a sign-extended byte -/
  | ldSb (b a d : BitVec 7)
  /-- R190 LD_UB: Loads a zero-extended byte -/
  | ldUb (b a d : BitVec 7)
  /-- R190 LD_SH: Loads a sign-extended halfword -/
  | ldSh (b a d : BitVec 7)
  /-- R190 LD_UH: Loads a zero-extended halfword -/
  | ldUh (b a d : BitVec 7)
  /-- R190 LD_W: Loads a word with a register offset -/
  | ldW (b a d : BitVec 7)
  /-- R190 LD_D: Loads a doubleword pair with a register offset -/
  | ldD (b a d : BitVec 7)
  /-- R190 LD_Q: Loads a 16-byte quad with a register offset -/
  | ldQ (b a d : BitVec 7)
  /-- R191 ST_B: Stores a byte into the lane's store queue -/
  | stB (b a d : BitVec 7)
  /-- R191 ST_H: Stores a halfword -/
  | stH (b a d : BitVec 7)
  /-- R191 ST_W: Stores a word with a register offset -/
  | stW (b a d : BitVec 7)
  /-- R191 ST_D: Stores a pair with a register offset -/
  | stD (b a d : BitVec 7)
  /-- R191 ST_Q: Stores a quad with a register offset -/
  | stQ (b a d : BitVec 7)
  /-- R193 LDM_W: Loads a word and post-increments the address through a modulo register -/
  | ldmW (k : BitVec 4) (a d : BitVec 7)
  /-- R193 LDM_D: Loads a pair with modulo post-increment -/
  | ldmD (k : BitVec 4) (a d : BitVec 7)
  /-- R193 LDM_Q: Loads a quad with modulo post-increment -/
  | ldmQ (k : BitVec 4) (a d : BitVec 7)
  /-- R193 STM_W: Stores a word with modulo post-increment -/
  | stmW (k : BitVec 4) (a d : BitVec 7)
  /-- R193 STM_D: Stores a pair with modulo post-increment -/
  | stmD (k : BitVec 4) (a d : BitVec 7)
  /-- R193 STM_Q: Stores a quad with modulo post-increment -/
  | stmQ (k : BitVec 4) (a d : BitVec 7)
  /-- R194 LDACQ_W: Loads a word as an acquire at the given scope, promoting first with rmt -/
  | ldacqW (r : BitVec 1) (s : BitVec 3) (a d : BitVec 7)
  /-- R194 LDACQ_D: Loads a pair as an acquire at the given scope -/
  | ldacqD (r : BitVec 1) (s : BitVec 3) (a d : BitVec 7)
  /-- R194 STREL_W: Stores a word as a release at the given scope -/
  | strelW (s : BitVec 3) (a d : BitVec 7)
  /-- R194 STREL_D: Stores a pair as a release at the given scope -/
  | strelD (s : BitVec 3) (a d : BitVec 7)
  /-- R195 ATOM_ADD_W: Atomic word add returning the old value -/
  | atomAddW (b a d : BitVec 7)
  /-- R195 ATOM_MIN_SW: Atomic signed word minimum -/
  | atomMinSw (b a d : BitVec 7)
  /-- R195 ATOM_MIN_UW: Atomic unsigned word minimum -/
  | atomMinUw (b a d : BitVec 7)
  /-- R195 ATOM_MAX_SW: Atomic signed word maximum -/
  | atomMaxSw (b a d : BitVec 7)
  /-- R195 ATOM_MAX_UW: Atomic unsigned word maximum -/
  | atomMaxUw (b a d : BitVec 7)
  /-- R195 ATOM_AND_W: Atomic word AND -/
  | atomAndW (b a d : BitVec 7)
  /-- R195 ATOM_OR_W: Atomic word OR -/
  | atomOrW (b a d : BitVec 7)
  /-- R195 ATOM_XOR_W: Atomic word exclusive OR -/
  | atomXorW (b a d : BitVec 7)
  /-- R195 ATOM_EXCH_W: Atomic word exchange -/
  | atomExchW (b a d : BitVec 7)
  /-- R195 ATOM_CAS_W: Atomic word compare-and-swap, always writing -/
  | atomCasW (b a d : BitVec 7)
  /-- R195 ATOM_FADD_F32: Atomic binary32 add with RNE -/
  | atomFaddF32 (b a d : BitVec 7)
  /-- R195 ATOM_ADD_D: Atomic 64-bit add -/
  | atomAddD (b a d : BitVec 7)
  /-- R195 ATOM_EXCH_D: Atomic 64-bit exchange -/
  | atomExchD (b a d : BitVec 7)
  /-- R195 ATOM_CAS_D: Atomic 64-bit compare-and-swap -/
  | atomCasD (b a d : BitVec 7)
  /-- R196 PF_L1: Prefetches lines into the core view -/
  | pfL1 (b a : BitVec 7)
  /-- R196 PF_L2: Prefetches lines into the home slice and remote-data cache -/
  | pfL2 (b a : BitVec 7)
  /-- R200 JMP: Branches each lane to its own register target -/
  | jmp (a : BitVec 7)
  /-- R200 CALLR: Writes the link and branches to a per-lane register target -/
  | callr (a d : BitVec 7)
  /-- R200 RET: Returns to a per-lane link target -/
  | ret (a : BitVec 7)
  /-- R201 BAR_ARR: Arrives on a named barrier without waiting, as a release -/
  | barArr (b a : BitVec 7)
  /-- R201 BAR_WAIT: Arrives on a named barrier and waits for the phase to complete -/
  | barWait (b a : BitVec 7)
  /-- R201 BAR_SYNC: Arrives and waits until every live thread of the block has arrived -/
  | barSync (a : BitVec 7)
  /-- R204 PBWAIT: Waits while a phase-bit barrier word holds the given phase, then acquires -/
  | pbwait (i a : BitVec 7)
  /-- R203 PBARR: Arrives on a phase-bit barrier word atomically, as a release -/
  | pbarr (b a : BitVec 7)
  /-- R207 XW: Issues each distinct per-lane instruction word once, as groups -/
  | xw (a : BitVec 7)
  /-- R207 XWP: Issues each distinct per-lane word and prefix pair once -/
  | xwp (b a : BitVec 7)
  /-- R81 UNTAG: Copies a register without lineage -/
  | untag (a d : BitVec 7)
  /-- R81 LNKILL: Removes the context's lineage entries (mode 0) or kills watches on one line (mode 1) -/
  | lnkill (i a : BitVec 7)
  /-- R211 MFS: Reads a special register into each lane -/
  | mfs (i d : BitVec 7)
  /-- R212 MTS: Writes a special register from the lowest lane, or FPFLAGS per lane -/
  | mts (i a : BitVec 7)
  /-- R81 LNQ: Reports a register's lineage, entry, watch and count -/
  | lnq (a d : BitVec 7)
  /-- R226 BCOPY: Releases at device scope and starts a copy record on a block-transfer engine, returning a ticket -/
  | bcopy (a d : BitVec 7)
  /-- R230 COLL: Releases and starts a collective record on a block-transfer engine -/
  | coll (a : BitVec 7)
  /-- R229 EWAIT: Waits until a ticket completes or stops, then acquires at device scope -/
  | ewait (a : BitVec 7)
  /-- R229 EPOLL: Returns a ticket's status without waiting -/
  | epoll (a d : BitVec 7)
  /-- R231 GPOST: Releases and appends a graph node to a launch queue -/
  | gpost (b a : BitVec 7)
  /-- R234 OFSUB: Submits an order-first transaction from a declaration record -/
  | ofsub (a d : BitVec 7)
  /-- R233 OFWAIT: Waits until the warp's submitted transaction is admitted -/
  | ofwait
  /-- R238 OFCOMMIT: Releases and commits the held writes of the transaction in one step -/
  | ofcommit
  /-- R233 OFINFO: Returns the transaction's postmark -/
  | ofinfo (d : BitVec 7)
  /-- R240 ACCRD: Reads a half-row of an accumulator tile rounded to binary32 -/
  | accrd (a d : BitVec 7)
  /-- R240 ACCWR: Writes a half-row of an accumulator tile exactly -/
  | accwr (a d : BitVec 7)
  /-- R242 ACALLOC: Allocates a run of accumulator tiles -/
  | acalloc (a d : BitVec 7)
  /-- R242 ACFREE: Frees accumulator tiles after their posted commands complete -/
  | acfree (b a : BitVec 7)
  /-- R245 MSLOT: Loads a slot with a tensor record snapshot and tile position -/
  | mslot (b a s : BitVec 7)
  /-- R245 MMAC: Posts a pass accumulating a scaled tile product and steps the slots -/
  | mmac (b a d : BitVec 7)
  /-- R245 MTRANS: Posts a pass adding the transpose of a slot tile -/
  | mtrans (a d : BitVec 7)
  /-- R245 MPERM: Posts a pass adding a row-permuted slot tile -/
  | mperm (b a d : BitVec 7)
  /-- R245 MRSUM: Posts a pass adding row sums of a slot tile -/
  | mrsum (a d : BitVec 7)
  /-- R245 MZERO: Posts a command that zeros an accumulator tile -/
  | mzero (d : BitVec 7)
  /-- R246 VCNT: Sets the valid counts M, N and K for later passes -/
  | vcnt (b a : BitVec 7)
  /-- R247 MWAIT: Waits until every command the context posted has completed -/
  | mwait
  /-- R247 MPOST: Posts a barrier arrival after earlier commands on a tile complete -/
  | mpost (b a d : BitVec 7)
  /-- R248 MDRAIN: Posts a drain of an accumulator tile through a drain record -/
  | mdrain (a d : BitVec 7)
  /-- R249 PPOINT: Marks a pre-emption point, saving live tiles if pre-emption is pending -/
  | ppoint (a : BitVec 7)
  /-- R159 ADDI_W: Adds a sign-extended 12-bit immediate -/
  | addiW (i : BitVec 12) (a d : BitVec 7)
  /-- R159 ANDI: ANDs a zero-extended immediate -/
  | andi (i : BitVec 12) (a d : BitVec 7)
  /-- R159 ORI: ORs a zero-extended immediate -/
  | ori (i : BitVec 12) (a d : BitVec 7)
  /-- R159 XORI: XORs a zero-extended immediate -/
  | xori (i : BitVec 12) (a d : BitVec 7)
  /-- R159 SHLI: Left shift by an immediate count -/
  | shli (i : BitVec 5) (a d : BitVec 7)
  /-- R159 SHRI: Logical right shift by an immediate count -/
  | shri (i : BitVec 5) (a d : BitVec 7)
  /-- R159 SRAI: Arithmetic right shift by an immediate count -/
  | srai (i : BitVec 5) (a d : BitVec 7)
  /-- R161 CMPI_EQ: Compares a word with a sign-extended immediate for equality -/
  | cmpiEq (i : BitVec 12) (a d : BitVec 7)
  /-- R161 CMPI_LT_SW: Signed less-than compare with an immediate -/
  | cmpiLtSw (i : BitVec 12) (a d : BitVec 7)
  /-- R161 CMPI_LT_UW: Unsigned less-than compare with a zero-extended immediate -/
  | cmpiLtUw (i : BitVec 12) (a d : BitVec 7)
  /-- R190 LDI_W: Loads a word with an immediate offset -/
  | ldiW (i : BitVec 12) (a d : BitVec 7)
  /-- R191 STI_W: Stores a word with an immediate offset -/
  | stiW (i : BitVec 12) (a d : BitVec 7)
  /-- R190 LDI_D: Loads a pair with an immediate offset -/
  | ldiD (i : BitVec 12) (a d : BitVec 7)
  /-- R191 STI_D: Stores a pair with an immediate offset -/
  | stiD (i : BitVec 12) (a d : BitVec 7)
  /-- R190 LDI_Q: Loads a quad with an immediate offset -/
  | ldiQ (i : BitVec 12) (a d : BitVec 7)
  /-- R191 STI_Q: Stores a quad with an immediate offset -/
  | stiQ (i : BitVec 12) (a d : BitVec 7)
  /-- R199 BRA: PC-relative branch taken by the lanes of M, splitting the frontier as needed -/
  | bra (i : BitVec 18)
  /-- R199 CALL: Writes the link pair and branches PC-relative -/
  | call (i : BitVec 18) (d : BitVec 7)
  /-- R160 MOVI: Sets a register to a sign-extended 18-bit constant -/
  | movi (i : BitVec 18) (d : BitVec 7)
  /-- R160 MOVU: Sets the upper 18 bits of a register, keeping the low 14 -/
  | movu (i : BitVec 18) (d : BitVec 7)
  /-- R29 JOIN: Waits until every live lane of the warp has arrived, then reconverges -/
  | join
  /-- R215 NOP: Does nothing -/
  | nop
  /-- R215 EXIT: Ends the lanes of M; their queued stores still drain -/
  | exit
  /-- R215 TRAP: Takes cause 0x30 with the given code -/
  | trap (c : BitVec 20)
  /-- R215 BRK: Stops for the debug service, or takes a breakpoint trap -/
  | brk
  /-- R215 ERET: Returns the handler's lanes to TRAPPC -/
  | eret
  /-- R197 FENCE: Acts as release and acquire at a scope, optionally waiting for engine writes or ordering stores only -/
  | fence (t e : BitVec 1) (s : BitVec 3)
  /-- R198 SDRAIN: Holds issue until earlier stores are translated and their fault records delivered -/
  | sdrain
  /-- R217 WBASE: Sets the register window base to 32n -/
  | wbase (n : BitVec 4)
  /-- R217 SLEEP: Makes the issuing entry wait for n front-end cycles -/
  | sleep (n : BitVec 20)
  /-- R217 YIELD: Lets another warp issue and sets the fairness count to 64 -/
  | yield
  /-- R81 LNON: Sets the warp's lineage switch on -/
  | lnon
  /-- R81 LNOFF: Sets the warp's lineage switch off -/
  | lnoff
  /-- R216 BEXIT: Ends the whole block, recording the first error at ERRADDR -/
  | bexit (c : BitVec 20)
  /-- R32 FAIRNESS_TURN: When the backward-branch count reaches 64, the longest-waiting ready entry issues instead of the head -/
  | fairnessTurn (u : Nat)
  /-- R268 STORE_FAULT_DELIVERY: A queued store-fault record is delivered at the warp's next instruction boundary as cause 0x20 -/
  | storeFaultDelivery (u : Nat)
  /-- R239 TRANSACTION_OVERRUN_TRAP: The pending overrun trap is taken by the head at an instruction boundary -/
  | transactionOverrunTrap (u : Nat)
  /-- R244 PASS_FAULT_DELIVERY: A program-class fault of a pass is delivered to the tile context at its next boundary -/
  | passFaultDelivery (u : Nat)
  /-- R70 PRODUCER_COMPLETE: A pending value-store entry's producer completes and the entry becomes Live or Retained -/
  | producerComplete (core eid : Nat)
  /-- R109 DRAIN: The oldest entry of a thread's store queue leaves toward the core view or merge stage -/
  | drain (u lane : Nat)
  /-- R109 PROPAGATE: A dirty line's bytes leave a core view into the home merge stage -/
  | propagate (core line : Nat)
  /-- R109 APPLY: The winning merge-stage write to a byte is written to the home view, dropping copies -/
  | apply (pa : Nat)
  /-- R109 REFRESH: A clean copy is dropped from a core view by eviction or an acquire -/
  | refresh (core line : Nat)
  /-- R109 ENGINE_READ: An engine command reads source bytes from the home view -/
  | engineRead (eng k : Nat)
  /-- R109 ENGINE_WRITE: An engine command's write enters the merge stage with the engine's identifier -/
  | engineWrite (eng k : Nat)
  /-- R30 JOIN_DEADLOCK_RELEASE: A warp stuck at several joins completes the group at the lowest join address -/
  | joinDeadlockRelease (u : Nat)
  /-- R204 PBWAIT_RELEASE: A lane waiting on a phase-bit barrier is released after the flip and acquires -/
  | pbwaitRelease (u lane : Nat)
  /-- R217 SLEEP_EXPIRY: A sleeping entry's cycle count expires and it becomes ready -/
  | sleepExpiry (u pc : Nat)
  /-- R296 PAGE_WALK: A page-table walk completes with a translation, a driver-class fault or protection -/
  | pageWalk (u w : Nat)
  /-- R302 FAULT_RECORD_WRITE: A driver-class fault record is written to the fault-queue ring and FQTAIL advances -/
  | faultRecordWrite (p : Nat)
  /-- R107 COLLAPSE: The collapse engine removes replicas of a written replicated page and makes it homed -/
  | collapse (p ctx page : Nat)
  /-- R226 ENGINE_COMMAND_START: A block-transfer engine takes its next queued command -/
  | engineCommandStart (eng : Nat)
  /-- R227 SCOUT: The engine's scout translates pages ahead of the copy -/
  | scout (eng k : Nat)
  /-- R228 COPY_COMPLETION: A copy completes or stops, its ranges leave the table and it arrives on DONE -/
  | copyCompletion (eng : Nat)
  /-- R230 COLLECTIVE_COMPLETION: A collective completes or stops, writes STATUS and makes its DONE arrival -/
  | collectiveCompletion (eng cause : Nat)
  /-- R234 ORDER_SEQUENCER_ARRIVAL: A submission reaches its die's order sequencer and takes a seat in the open beat -/
  | orderSequencerArrival (h : Nat)
  /-- R234 BEAT_SEAL: At each beat boundary a die seals its batch of submissions -/
  | beatSeal (die : Nat)
  /-- R235 BATCH_EXCHANGE: Sealed batches are exchanged and transactions enter their granules' queues -/
  | batchExchange (beat : Nat)
  /-- R236 TRANSACTION_ADMISSION: A transaction whose granules are granted and capacity reserved is admitted as a device-scope acquire -/
  | transactionAdmission (h : Nat)
  /-- R239 TRANSACTION_OVERRUN: An admitted transaction reaches OFBUDGET and becomes overrun -/
  | transactionOverrun (h : Nat)
  /-- R244 PASS_GRANT: The matrix engine grants the next pass by priority then post order -/
  | passGrant (cl : Nat)
  /-- R244 OPERAND_FETCH: A pass reads A and B operands from the home view or scratchpad banks -/
  | operandFetch (cl cmd which k : Nat)
  /-- R241 CHUNK_APPLIED: A pass's chunk is accumulated into the tile sub-block by sub-block -/
  | chunkApplied (cl sb : Nat)
  /-- R247 MPOST_ARRIVAL: After earlier commands on the tile complete, the engine arrives on the barrier -/
  | mpostArrival (cl cmd : Nat)
  /-- R248 TILE_DRAIN: The engine runs a posted drain: writes, absmax atomic, zeroing and DONE arrival -/
  | tileDrain (cl cmd : Nat)
  /-- R243 ACCUMULATOR_SPILL: With every holder waiting in acalloc, the youngest waiter's tiles are spilled and requests regranted -/
  | accumulatorSpill (cl : Nat)
  /-- R243 ACALLOC_GRANT: A waiting overcommit acalloc is granted oldest first when tiles fit -/
  | acallocGrant (cl : Nat)
  /-- R242 ACFREE_EFFECT: Freed tile indices become free once earlier commands on them complete -/
  | acfreeEffect (cl cmd : Nat)
  /-- R249 PREEMPTION_TIMEOUT: No ppoint within the timeout: the engine saves all tiles at the next pass boundary -/
  | preemptionTimeout (blk : Nat)
  /-- R276 QPOST: A 64-bit write appends a node address to a launch queue, or sets OVF -/
  | qpost (fn q size : Nat) (node : BitVec 64)
  /-- R276 QUEUE_RESUME: Clears HALT, QERR and QERRNODE so the queue dispatches again -/
  | queueResume (fn q : Nat)
  /-- R276 FLUSH: Discards every undispatched node of the queue's ring -/
  | flush (fn q : Nat)
  /-- R276 ABORT: Ends every block of the halted launch and completes its node as faulted -/
  | abort (fn q : Nat)
  /-- R280 NODE_DISPATCH: The walker dispatches the highest-priority ready node by its kind -/
  | nodeDispatch (p : Nat)
  /-- R281 NODE_COMPLETION: A node completes: ranges are written back or dropped and successors' PRED decremented -/
  | nodeCompletion (n : Nat)
  /-- R283 BLOCK_ADMISSION: The dispatcher admits the next block of a launch onto a core that fits -/
  | blockAdmission (l : Nat)
  /-- R283 ADMISSION_RESERVATION: After a block waits 1 ms, the next core to fall free enough is reserved for it -/
  | admissionReservation (l core : Nat)
  /-- R264 BLOCK_RETIREMENT: A block retires once its warps, tile context and posted commands have ended -/
  | blockRetirement (blk : Nat)
  /-- R288 LAUNCH_END: When all blocks retire and commands complete, chunks close, the flush runs and the signal is written -/
  | launchEnd (l : Nat)
  /-- R286 LATTICE_TIMESLICE: A shared physical core switches between its two logical cores every 100 us -/
  | latticeTimeslice (die phys : Nat)
  /-- R273 REPLAY_GATE_TIMEOUT: The current chunk's requester fails to arrive within 1 ms and the replay diverges -/
  | replayGateTimeout (l u : Nat)
  /-- R293 MEASUREMENT_PASS: A measurement pass ends: counts are written, captured pages restored and caches invalidated -/
  | measurementPass (l : Nat)
  /-- R277 CONTEXT_DESTROY: Clearing a descriptor's bit 0 purges lineage, tears down transactions and destroys keys -/
  | contextDestroy (p ctx : Nat)
  /-- R300 SHOOTDOWN: SDCTL.GO starts a translation shootdown over a range or context -/
  | shootdown (p : Nat)
  /-- R300 SHOOTDOWN_COMPLETE: The shootdown finishes across the partition and BUSY clears -/
  | shootdownComplete (p : Nat)
  /-- R303 FQRES_RESUME: Action 1 releases every parked entry and paused unit faulted on the page -/
  | fqresResume (p page : Nat)
  /-- R303 FQRES_REJECT: Action 2 turns the page's outstanding faults into protection faults -/
  | fqresReject (p page : Nat)
  /-- R314 HALT: Puts the context under hold and stops its warps and tile contexts -/
  | halt (p : Nat)
  /-- R314 RESUME: Lets the held context run while it stays held -/
  | resume (p : Nat)
  /-- R316 STEP: Issues one instruction of the warp's chosen entry -/
  | step (p : Nat)
  /-- R316 STEPALL: Issues once every entry of the warp that was ready at the step's start -/
  | stepall (p : Nat)
  /-- R314 SNAP: Writes an image of a block with REASON 2, leaving it on its core -/
  | snap (p seqno : Nat)
  /-- R314 POKE: Loads registers and frontier from an image into a halted block -/
  | poke (p : Nat)
  /-- R310 PREEMPT: Saves a block to an image and frees its resources -/
  | preempt (p seqno : Nat)
  /-- R311 RESTORE: Restores a block from an image, or returns BADIMAGE, ORDER or CAPACITY -/
  | restore (p : Nat)
  /-- R314 RELEASE: Ends the debug hold on the context -/
  | release (p : Nat)
  /-- R318 HOST_ACCESS: A host read or write through BAR2 or HDM is judged by the firewall -/
  | hostAccess (wr cxl : Bool) (pa n : Nat) (data : List (BitVec 8))
  /-- R321 INBOUND_ACCESS: A peer access through an aperture is translated, checked and performed or logged -/
  | inboundAccess (port peer off acc n : Nat) (data : List (BitVec 8))
  /-- R321 INBOUND_TIMEOUT: A driver-class fault on an inbound access waits past ITIMEOUT and fails with 0x18 -/
  | inboundTimeout (p k : Nat)
  /-- R320 REMOTE_TIMEOUT: No completion within FTIMEOUT gives remote timeout -/
  | remoteTimeout (r : Nat)
  /-- R320 PEER_COMPLETION: A peer-window access completes, or an error completion gives remote error -/
  | peerCompletion (r err : Nat) (data : List (BitVec 8))
  /-- R319 FLIT_REPLAY: A flit failing CRC or tag is resent from the replay buffer -/
  | flitReplay (port dir : Nat)
  /-- R319 LINK_RETRAIN: A link that loses training retrains while traffic reroutes -/
  | linkRetrain (port : Nat)
  /-- R329 HEARTBEAT: A valid heartbeat message updates LASTHB and reactivates a lapsed session -/
  | heartbeat (p ctr key : Nat) (fresh : Bool)
  /-- R329 SESSION_BIND: Binding a secured session to a partition sets SSTATE active -/
  | sessionBind (p key : Nat)
  /-- R330 SESSION_LAPSE: At LASTHB + HBPERIOD the partition lapses, traffic is held and blocks are pre-empted -/
  | sessionLapse (p : Nat)
  /-- R330 SESSION_HALT: At the grace's end every unsaved block is saved and engines pause -/
  | sessionHalt (p : Nat)
  /-- R330 SESSION_SCRUB: At the retention's end the partition is scrubbed and released -/
  | sessionScrub (p : Nat)
  /-- R333 GET_MEASUREMENTS: Returns the measurement blocks, ACTSEQ and STAGED in effect at composition -/
  | getMeasurements (idx : Nat)
  /-- R332 STAGE: The MSP verifies and stages a firmware image, setting STAGED -/
  | stage (comps vals : List Nat) (digest secver sig : Nat)
  /-- R332 ACTIVATE: Starts switching the staged image's components in ascending index -/
  | activate
  /-- R332 COMPONENT_SWITCH: A component switches at its quiescent point and ACTSEQ rises -/
  | componentSwitch
  /-- R323 CREATE: The MSP creates a partition from cluster and slice-group masks -/
  | create (p clusters groups : Nat) (conf : Bool × Nat)
  /-- R323 PARTITION_RELEASE: The MSP scrubs a partition and frees its units -/
  | partitionRelease (p : Nat)
  /-- R328 HANDOFF: Moves a buffer's key and ownership to another context in one step -/
  | handoff (p rec ctx : Nat)
  /-- R326 ALLOCATION_RECORD_WRITE: The MSP writes an allocation record at the driver's request -/
  | allocationRecordWrite (p rec base len ctx keyid slevel key : Nat) (valid : Bool)
  /-- R325 LEVEL_LOWER: Security firmware lowers a level at a verifier's request -/
  | levelLower (p kind who addr level : Nat)
  /-- R335 CLOCK_SWITCH: A cluster changes ratio or frequency at a quiet point -/
  | clockSwitch (cl : Nat)
  /-- R336 POWER_INTERVAL: Every 1 ms the power controller adjusts GRANTS and PWRCAP -/
  | powerInterval (watts : Nat)
  /-- R337 DROOP: A droop detection stretches the next cycle and raises DROOPCNT -/
  | droop (cl : Nat)
  /-- R338 BROWNOUT_WARNING: The brown-out input asserts and clocks go to the hold point -/
  | brownoutWarning
  /-- R338 BROWNOUT_CLEAR: The warning clears within 20 ms and clocks return to their votes -/
  | brownoutClear
  /-- R338 BROWNOUT_TIMEOUT: The warning lasts 20 ms and the emergency save begins -/
  | brownoutTimeout
  /-- R339 THERMAL_INTERVAL: Periodically lowers or raises a die's THCAP by its sensors -/
  | thermalInterval (die temp : Nat)
  /-- R339 THERMAL_CRITICAL: A sensor reaches 105 C and the emergency save begins -/
  | thermalCritical (die temp : Nat)
  /-- R339 THERMAL_TRIP: At 115 C an analog circuit removes module power -/
  | thermalTrip (die temp : Nat)
  /-- R340 EMERGENCY_SAVE: Holds clocks and saves blocks one by one to the host save region -/
  | emergencySave
  /-- R340 EMERGENCY_IMAGE_WRITE: The next block's image is written once the previous COMPLETE is written -/
  | emergencyImageWrite (seqno : Nat)
  /-- R341 OPVOTE: A partition's operating-point vote changes its rails' target voltage -/
  | opvote (p op : Nat)
  /-- R341 RAIL_HOLD_EXPIRY: After a lowered vote the 2 ms hold ends and the rail slews down -/
  | railHoldExpiry (die r : Nat)
  /-- R341 RAIL_VOLTAGE_REACHED: A rising rail reaches the vote's voltage and clusters take the new frequency -/
  | railVoltageReached (die r : Nat)
  /-- R342 ENERGY_UPDATE: ENERGY is updated at the end of each EPERIOD -/
  | energyUpdate (p uj : Nat)
  /-- R345 BUDGET_PERIOD: A new 10 us budget period begins and waiting transfers proceed -/
  | budgetPeriod
  /-- R346 PATROL_SCRUB: The patrol scrub reads memory within its budget -/
  | patrolScrub (n : Nat)
  /-- R348 UNCORRECTABLE_ERROR: An uncorrectable read traps with data loss, retires the line and raises UECOUNT -/
  | uncorrectableError (pa : Nat)
  /-- R349 RETIRECORE: Moves a logical core's blocks to a spare or shared physical core -/
  | retirecore
  /-- R349 SPARECH: Copies a memory channel to a spare channel -/
  | sparech
  /-- R349 ROWREP: Repairs a DRAM row with its lines held aside -/
  | rowrep
  /-- R349 LANESPARE: Retrains a link with a spare lane -/
  | lanespare
  /-- R351 TSEAL: Records transport baselines and sets SEALED -/
  | tseal
  /-- R350 SWAPOUT: Migrates every partition to a destination device for hot swap -/
  | swapout
  /-- R351 TRANSPORT_SELF_TEST: At power-up with SEALED set, runs the self-test, repairs and writes the delta report -/
  | transportSelfTest (cores chans lanes : List Nat)
  /-- R226 DEVICE_RESET: Device reset returns registers and sequence counters to their reset values -/
  | deviceReset
  /-- R7 REGISTER_WRITE: A write to a register with no behaviour of its own stores its fields by their access codes -/
  | registerWrite (fn off size : Nat) (val : BitVec 64)
  /-- R112 HOST_COMPLETION: A device-issued read or write to host memory completes at the host, returning data or ending a system-scope wait -/
  | hostCompletion (r : Nat) (data : List (BitVec 8))
  /-- R319 LINK_RETRAINED: A Hylis link finishes retraining from its replay buffers and traffic returns to it -/
  | linkRetrained (port : Nat)
  /-- R230 COLLECTIVE_INBOUND_WRITE: An inbound collective write from a peer rank arrives over the fabric and enters the merge stage with writer identifier 1,024 plus the port -/
  | collectiveInboundWrite (eng port e : Nat) (vals : List Nat)
  deriving DecidableEq, Repr

/-- What the machine does next: one issue attempt of a unit (at its chosen entry, or at the ready
entry with the given PC, which STEPALL uses), or one event step. -/
inductive Choice where
  | issue (u : Nat)
  | issueAt (u pc : Nat)
  | event (i : Instr)
  deriving DecidableEq, Repr, Inhabited

end Sys2Proof
end

