-- ==== Sys2Proof/Machine/OpMap.lean ====
section
/-! DEFINITION. The opcode map (R139 to R142) as data: for each instruction its operands, the prefix fields it
accepts, whether `xw` may issue it, what it is on a tile context, its lineage class and its fixed latency (R135);
and the legality of its fields (R128, R130, R139). -/

namespace Sys2Proof

/-- An operand: its position (0 the a field, 1 the b field, 2 the c field of the prefix, 3 the d field, as R137
numbers them), its field, for registers how many it names, and whether it is read and written. -/
inductive Use where
  | reg (pos f n : Nat) (rd wr : Bool)
  | pred (pos f : Nat) (rd wr : Bool)
  deriving DecidableEq, Repr

/-- The accepted prefix fields, by the letters of R131. -/
structure Px where
  mask : Bool
  zero : Bool
  fourth : Bool
  round : Bool
  sat : Bool
  scope : Bool
  any : Bool
  deriving DecidableEq, Repr

def pxNone : Px := ⟨false, false, false, false, false, false, false⟩
def pxM : Px := ⟨true, true, false, false, false, false, true⟩
def pxMC : Px := ⟨true, true, true, false, false, false, true⟩
def pxMS : Px := ⟨true, true, false, false, true, false, true⟩
def pxMF : Px := ⟨true, true, false, true, false, false, true⟩
def pxMFS : Px := ⟨true, true, false, true, true, false, true⟩
def pxMFSC : Px := ⟨true, true, true, true, true, false, true⟩
def pxMO : Px := ⟨true, true, false, false, false, true, true⟩
def pxMOC : Px := ⟨true, true, true, false, false, true, true⟩
def pxG : Px := ⟨true, false, false, false, false, false, true⟩
def pxO : Px := ⟨false, false, false, false, false, true, true⟩
def pxC : Px := ⟨false, false, true, false, false, false, true⟩

/-- Whether `xw` may issue the word (R140): never, always, or only from an outer `xw`. -/
inductive XwUse where
  | no | yes | inner
  deriving DecidableEq, Repr

/-- The word on a tile context (R140). -/
inductive TileUse where
  | yes | only | illegal | nothing
  deriving DecidableEq, Repr

/-- The lineage class (R61); `ld` is L under R72. -/
inductive Cls where
  | l | r | n | ld
  deriving DecidableEq, Repr

/-- A row of the opcode map: operands in the order a, b, d; latency 0 stands for a tracked result (R136); `fourth`
is the width of the fourth operand, 0 without one. -/
structure Row where
  uses : List Use
  px : Px
  xw : XwUse
  tile : TileUse
  cls : Cls
  lat : Nat
  fourth : Nat
  deriving DecidableEq, Repr

/-- R61: an `mfs` is class R for LANEID, WARPW, PARAMLO, PARAMHI and HSIZE0–7. -/
def mfsClass (n : Nat) : Cls :=
  if n = 0 ∨ n = 1 ∨ n = 4 ∨ n = 5 ∨ (24 ≤ n ∧ n ≤ 31) then .r else .n

/-- A row of no word: the whole steps of other agents. -/
def rowEvent : Row := ⟨[], pxNone, .no, .yes, .n, 0, 0⟩

/-- The row of the opcode map (R140, R141, R142). -/
def Instr.row : Instr → Row
  | .addW b a d => ⟨[.reg 0 a.toNat 1 true false, .reg 1 b.toNat 1 true false, .reg 3 d.toNat 1 false true], pxM, .yes, .yes, .l, 4, 0⟩
  | .subW b a d => ⟨[.reg 0 a.toNat 1 true false, .reg 1 b.toNat 1 true false, .reg 3 d.toNat 1 false true], pxM, .yes, .yes, .l, 4, 0⟩
  | .addsSw b a d => ⟨[.reg 0 a.toNat 1 true false, .reg 1 b.toNat 1 true false, .reg 3 d.toNat 1 false true], pxM, .yes, .yes, .l, 4, 0⟩
  | .addsUw b a d => ⟨[.reg 0 a.toNat 1 true false, .reg 1 b.toNat 1 true false, .reg 3 d.toNat 1 false true], pxM, .yes, .yes, .l, 4, 0⟩
  | .subsSw b a d => ⟨[.reg 0 a.toNat 1 true false, .reg 1 b.toNat 1 true false, .reg 3 d.toNat 1 false true], pxM, .yes, .yes, .l, 4, 0⟩
  | .subsUw b a d => ⟨[.reg 0 a.toNat 1 true false, .reg 1 b.toNat 1 true false, .reg 3 d.toNat 1 false true], pxM, .yes, .yes, .l, 4, 0⟩
  | .mulW b a d => ⟨[.reg 0 a.toNat 1 true false, .reg 1 b.toNat 1 true false, .reg 3 d.toNat 1 false true], pxM, .yes, .yes, .l, 4, 0⟩
  | .mulhiSw b a d => ⟨[.reg 0 a.toNat 1 true false, .reg 1 b.toNat 1 true false, .reg 3 d.toNat 1 false true], pxM, .yes, .yes, .l, 4, 0⟩
  | .mulhiUw b a d => ⟨[.reg 0 a.toNat 1 true false, .reg 1 b.toNat 1 true false, .reg 3 d.toNat 1 false true], pxM, .yes, .yes, .l, 4, 0⟩
  | .madW b a d => ⟨[.reg 0 a.toNat 1 true false, .reg 1 b.toNat 1 true false, .reg 3 d.toNat 1 false true], pxMC, .yes, .yes, .l, 4, 1⟩
  | .minSw b a d => ⟨[.reg 0 a.toNat 1 true false, .reg 1 b.toNat 1 true false, .reg 3 d.toNat 1 false true], pxM, .yes, .yes, .l, 4, 0⟩
  | .minUw b a d => ⟨[.reg 0 a.toNat 1 true false, .reg 1 b.toNat 1 true false, .reg 3 d.toNat 1 false true], pxM, .yes, .yes, .l, 4, 0⟩
  | .maxSw b a d => ⟨[.reg 0 a.toNat 1 true false, .reg 1 b.toNat 1 true false, .reg 3 d.toNat 1 false true], pxM, .yes, .yes, .l, 4, 0⟩
  | .maxUw b a d => ⟨[.reg 0 a.toNat 1 true false, .reg 1 b.toNat 1 true false, .reg 3 d.toNat 1 false true], pxM, .yes, .yes, .l, 4, 0⟩
  | .absSw a d => ⟨[.reg 0 a.toNat 1 true false, .reg 3 d.toNat 1 false true], pxMS, .yes, .yes, .l, 4, 0⟩
  | .negW a d => ⟨[.reg 0 a.toNat 1 true false, .reg 3 d.toNat 1 false true], pxM, .yes, .yes, .l, 4, 0⟩
  | .addD b a d => ⟨[.reg 0 a.toNat 2 true false, .reg 1 b.toNat 2 true false, .reg 3 d.toNat 2 false true], pxM, .yes, .yes, .l, 4, 0⟩
  | .subD b a d => ⟨[.reg 0 a.toNat 2 true false, .reg 1 b.toNat 2 true false, .reg 3 d.toNat 2 false true], pxM, .yes, .yes, .l, 4, 0⟩
  | .addwD b a d => ⟨[.reg 0 a.toNat 2 true false, .reg 1 b.toNat 1 true false, .reg 3 d.toNat 2 false true], pxM, .yes, .yes, .l, 4, 0⟩
  | .mulSwd b a d => ⟨[.reg 0 a.toNat 1 true false, .reg 1 b.toNat 1 true false, .reg 3 d.toNat 2 false true], pxM, .yes, .yes, .l, 4, 0⟩
  | .mulUwd b a d => ⟨[.reg 0 a.toNat 1 true false, .reg 1 b.toNat 1 true false, .reg 3 d.toNat 2 false true], pxM, .yes, .yes, .l, 4, 0⟩
  | .idot4Sb b a d => ⟨[.reg 0 a.toNat 1 true false, .reg 1 b.toNat 1 true false, .reg 3 d.toNat 1 false true], pxMC, .yes, .yes, .l, 4, 1⟩
  | .idot4Ub b a d => ⟨[.reg 0 a.toNat 1 true false, .reg 1 b.toNat 1 true false, .reg 3 d.toNat 1 false true], pxMC, .yes, .yes, .l, 4, 1⟩
  | .and b a d => ⟨[.reg 0 a.toNat 1 true false, .reg 1 b.toNat 1 true false, .reg 3 d.toNat 1 false true], pxM, .yes, .yes, .l, 4, 0⟩
  | .or b a d => ⟨[.reg 0 a.toNat 1 true false, .reg 1 b.toNat 1 true false, .reg 3 d.toNat 1 false true], pxM, .yes, .yes, .l, 4, 0⟩
  | .xor b a d => ⟨[.reg 0 a.toNat 1 true false, .reg 1 b.toNat 1 true false, .reg 3 d.toNat 1 false true], pxM, .yes, .yes, .l, 4, 0⟩
  | .andn b a d => ⟨[.reg 0 a.toNat 1 true false, .reg 1 b.toNat 1 true false, .reg 3 d.toNat 1 false true], pxM, .yes, .yes, .l, 4, 0⟩
  | .shl b a d => ⟨[.reg 0 a.toNat 1 true false, .reg 1 b.toNat 1 true false, .reg 3 d.toNat 1 false true], pxM, .yes, .yes, .l, 4, 0⟩
  | .shr b a d => ⟨[.reg 0 a.toNat 1 true false, .reg 1 b.toNat 1 true false, .reg 3 d.toNat 1 false true], pxM, .yes, .yes, .l, 4, 0⟩
  | .sra b a d => ⟨[.reg 0 a.toNat 1 true false, .reg 1 b.toNat 1 true false, .reg 3 d.toNat 1 false true], pxM, .yes, .yes, .l, 4, 0⟩
  | .rotl b a d => ⟨[.reg 0 a.toNat 1 true false, .reg 1 b.toNat 1 true false, .reg 3 d.toNat 1 false true], pxM, .yes, .yes, .l, 4, 0⟩
  | .clz a d => ⟨[.reg 0 a.toNat 1 true false, .reg 3 d.toNat 1 false true], pxM, .yes, .yes, .l, 4, 0⟩
  | .popc a d => ⟨[.reg 0 a.toNat 1 true false, .reg 3 d.toNat 1 false true], pxM, .yes, .yes, .l, 4, 0⟩
  | .brev a d => ⟨[.reg 0 a.toNat 1 true false, .reg 3 d.toNat 1 false true], pxM, .yes, .yes, .l, 4, 0⟩
  | .bfxUw b a d => ⟨[.reg 0 a.toNat 1 true false, .reg 1 b.toNat 1 true false, .reg 3 d.toNat 1 false true], pxM, .yes, .yes, .l, 4, 0⟩
  | .bfxSw b a d => ⟨[.reg 0 a.toNat 1 true false, .reg 1 b.toNat 1 true false, .reg 3 d.toNat 1 false true], pxM, .yes, .yes, .l, 4, 0⟩
  | .bfi b a d => ⟨[.reg 0 a.toNat 1 true false, .reg 1 b.toNat 1 true false, .reg 3 d.toNat 1 false true], pxMC, .yes, .yes, .l, 4, 1⟩
  | .perm b a d => ⟨[.reg 0 a.toNat 1 true false, .reg 1 b.toNat 1 true false, .reg 3 d.toNat 1 false true], pxMC, .yes, .yes, .l, 4, 1⟩
  | .mov a d => ⟨[.reg 0 a.toNat 1 true false, .reg 3 d.toNat 1 false true], pxM, .yes, .yes, .l, 4, 0⟩
  | .faddF32 b a d => ⟨[.reg 0 a.toNat 1 true false, .reg 1 b.toNat 1 true false, .reg 3 d.toNat 1 false true], pxMFS, .yes, .yes, .l, 4, 0⟩
  | .fsubF32 b a d => ⟨[.reg 0 a.toNat 1 true false, .reg 1 b.toNat 1 true false, .reg 3 d.toNat 1 false true], pxMFS, .yes, .yes, .l, 4, 0⟩
  | .fmulF32 b a d => ⟨[.reg 0 a.toNat 1 true false, .reg 1 b.toNat 1 true false, .reg 3 d.toNat 1 false true], pxMFS, .yes, .yes, .l, 4, 0⟩
  | .ffmaF32 b a d => ⟨[.reg 0 a.toNat 1 true false, .reg 1 b.toNat 1 true false, .reg 3 d.toNat 1 false true], pxMFSC, .yes, .yes, .l, 4, 1⟩
  | .fminF32 b a d => ⟨[.reg 0 a.toNat 1 true false, .reg 1 b.toNat 1 true false, .reg 3 d.toNat 1 false true], pxM, .yes, .yes, .l, 4, 0⟩
  | .fmaxF32 b a d => ⟨[.reg 0 a.toNat 1 true false, .reg 1 b.toNat 1 true false, .reg 3 d.toNat 1 false true], pxM, .yes, .yes, .l, 4, 0⟩
  | .fabsF32 a d => ⟨[.reg 0 a.toNat 1 true false, .reg 3 d.toNat 1 false true], pxM, .yes, .yes, .l, 4, 0⟩
  | .fnegF32 a d => ⟨[.reg 0 a.toNat 1 true false, .reg 3 d.toNat 1 false true], pxM, .yes, .yes, .l, 4, 0⟩
  | .frcpF32 a d => ⟨[.reg 0 a.toNat 1 true false, .reg 3 d.toNat 1 false true], pxMS, .yes, .yes, .l, 12, 0⟩
  | .frsqF32 a d => ⟨[.reg 0 a.toNat 1 true false, .reg 3 d.toNat 1 false true], pxMS, .yes, .yes, .l, 12, 0⟩
  | .fsqrtF32 a d => ⟨[.reg 0 a.toNat 1 true false, .reg 3 d.toNat 1 false true], pxMFS, .yes, .yes, .l, 0, 0⟩
  | .fdivF32 b a d => ⟨[.reg 0 a.toNat 1 true false, .reg 1 b.toNat 1 true false, .reg 3 d.toNat 1 false true], pxMFS, .yes, .yes, .l, 0, 0⟩
  | .fex2F32 a d => ⟨[.reg 0 a.toNat 1 true false, .reg 3 d.toNat 1 false true], pxMS, .yes, .yes, .l, 12, 0⟩
  | .flg2F32 a d => ⟨[.reg 0 a.toNat 1 true false, .reg 3 d.toNat 1 false true], pxMS, .yes, .yes, .l, 12, 0⟩
  | .fsinpiF32 a d => ⟨[.reg 0 a.toNat 1 true false, .reg 3 d.toNat 1 false true], pxMS, .yes, .yes, .l, 12, 0⟩
  | .fcospiF32 a d => ⟨[.reg 0 a.toNat 1 true false, .reg 3 d.toNat 1 false true], pxMS, .yes, .yes, .l, 12, 0⟩
  | .ftanhF32 a d => ⟨[.reg 0 a.toNat 1 true false, .reg 3 d.toNat 1 false true], pxMS, .yes, .yes, .l, 12, 0⟩
  | .frndF32 a d => ⟨[.reg 0 a.toNat 1 true false, .reg 3 d.toNat 1 false true], pxMF, .yes, .yes, .l, 4, 0⟩
  | .hadd2F16 b a d => ⟨[.reg 0 a.toNat 1 true false, .reg 1 b.toNat 1 true false, .reg 3 d.toNat 1 false true], pxMFS, .yes, .yes, .l, 4, 0⟩
  | .hmul2F16 b a d => ⟨[.reg 0 a.toNat 1 true false, .reg 1 b.toNat 1 true false, .reg 3 d.toNat 1 false true], pxMFS, .yes, .yes, .l, 4, 0⟩
  | .hfma2F16 b a d => ⟨[.reg 0 a.toNat 1 true false, .reg 1 b.toNat 1 true false, .reg 3 d.toNat 1 false true], pxMFSC, .yes, .yes, .l, 4, 1⟩
  | .hadd2Bf16 b a d => ⟨[.reg 0 a.toNat 1 true false, .reg 1 b.toNat 1 true false, .reg 3 d.toNat 1 false true], pxMFS, .yes, .yes, .l, 4, 0⟩
  | .hmul2Bf16 b a d => ⟨[.reg 0 a.toNat 1 true false, .reg 1 b.toNat 1 true false, .reg 3 d.toNat 1 false true], pxMFS, .yes, .yes, .l, 4, 0⟩
  | .hfma2Bf16 b a d => ⟨[.reg 0 a.toNat 1 true false, .reg 1 b.toNat 1 true false, .reg 3 d.toNat 1 false true], pxMFSC, .yes, .yes, .l, 4, 1⟩
  | .hmin2Bf16 b a d => ⟨[.reg 0 a.toNat 1 true false, .reg 1 b.toNat 1 true false, .reg 3 d.toNat 1 false true], pxM, .yes, .yes, .l, 4, 0⟩
  | .hmax2Bf16 b a d => ⟨[.reg 0 a.toNat 1 true false, .reg 1 b.toNat 1 true false, .reg 3 d.toNat 1 false true], pxM, .yes, .yes, .l, 4, 0⟩
  | .fdot2Bf16 b a d => ⟨[.reg 0 a.toNat 1 true false, .reg 1 b.toNat 1 true false, .reg 3 d.toNat 1 false true], pxMFSC, .yes, .yes, .l, 4, 1⟩
  | .dadd b a d => ⟨[.reg 0 a.toNat 2 true false, .reg 1 b.toNat 2 true false, .reg 3 d.toNat 2 false true], pxMFS, .yes, .yes, .l, 8, 0⟩
  | .dmul b a d => ⟨[.reg 0 a.toNat 2 true false, .reg 1 b.toNat 2 true false, .reg 3 d.toNat 2 false true], pxMFS, .yes, .yes, .l, 8, 0⟩
  | .dfma b a d => ⟨[.reg 0 a.toNat 2 true false, .reg 1 b.toNat 2 true false, .reg 3 d.toNat 2 false true], pxMFSC, .yes, .yes, .l, 8, 2⟩
  | .dmin b a d => ⟨[.reg 0 a.toNat 2 true false, .reg 1 b.toNat 2 true false, .reg 3 d.toNat 2 false true], pxM, .yes, .yes, .l, 8, 0⟩
  | .dmax b a d => ⟨[.reg 0 a.toNat 2 true false, .reg 1 b.toNat 2 true false, .reg 3 d.toNat 2 false true], pxM, .yes, .yes, .l, 8, 0⟩
  | .ddiv b a d => ⟨[.reg 0 a.toNat 2 true false, .reg 1 b.toNat 2 true false, .reg 3 d.toNat 2 false true], pxMFS, .yes, .yes, .l, 0, 0⟩
  | .dsqrt a d => ⟨[.reg 0 a.toNat 2 true false, .reg 3 d.toNat 2 false true], pxMFS, .yes, .yes, .l, 0, 0⟩
  | .cvtF32Sw a d => ⟨[.reg 0 a.toNat 1 true false, .reg 3 d.toNat 1 false true], pxMF, .yes, .yes, .l, 5, 0⟩
  | .cvtF32Uw a d => ⟨[.reg 0 a.toNat 1 true false, .reg 3 d.toNat 1 false true], pxMF, .yes, .yes, .l, 5, 0⟩
  | .cvtSwF32 a d => ⟨[.reg 0 a.toNat 1 true false, .reg 3 d.toNat 1 false true], pxMF, .yes, .yes, .l, 5, 0⟩
  | .cvtUwF32 a d => ⟨[.reg 0 a.toNat 1 true false, .reg 3 d.toNat 1 false true], pxMF, .yes, .yes, .l, 5, 0⟩
  | .pkF16 b a d => ⟨[.reg 0 a.toNat 1 true false, .reg 1 b.toNat 1 true false, .reg 3 d.toNat 1 false true], pxMFS, .yes, .yes, .l, 5, 0⟩
  | .pkBf16 b a d => ⟨[.reg 0 a.toNat 1 true false, .reg 1 b.toNat 1 true false, .reg 3 d.toNat 1 false true], pxMFS, .yes, .yes, .l, 5, 0⟩
  | .cvtF32F16 _ a d => ⟨[.reg 0 a.toNat 1 true false, .reg 3 d.toNat 1 false true], pxM, .yes, .yes, .l, 5, 0⟩
  | .cvtF32Bf16 _ a d => ⟨[.reg 0 a.toNat 1 true false, .reg 3 d.toNat 1 false true], pxM, .yes, .yes, .l, 5, 0⟩
  | .cvtF64F32 a d => ⟨[.reg 0 a.toNat 1 true false, .reg 3 d.toNat 2 false true], pxM, .yes, .yes, .l, 5, 0⟩
  | .cvtF32F64 a d => ⟨[.reg 0 a.toNat 2 true false, .reg 3 d.toNat 1 false true], pxMFS, .yes, .yes, .l, 5, 0⟩
  | .qpkE4m3 b a d => ⟨[.reg 0 a.toNat 4 true false, .reg 1 b.toNat 1 true false, .reg 3 d.toNat 1 false true], pxMFS, .yes, .yes, .l, 5, 0⟩
  | .qpkE5m2 b a d => ⟨[.reg 0 a.toNat 4 true false, .reg 1 b.toNat 1 true false, .reg 3 d.toNat 1 false true], pxMFS, .yes, .yes, .l, 5, 0⟩
  | .dqE4m3 b a d => ⟨[.reg 0 a.toNat 1 true false, .reg 1 b.toNat 1 true false, .reg 3 d.toNat 4 false true], pxMFS, .yes, .yes, .l, 5, 0⟩
  | .dqE5m2 b a d => ⟨[.reg 0 a.toNat 1 true false, .reg 1 b.toNat 1 true false, .reg 3 d.toNat 4 false true], pxMFS, .yes, .yes, .l, 5, 0⟩
  | .shflIdx b a d => ⟨[.reg 0 a.toNat 1 true false, .reg 1 b.toNat 1 true false, .reg 3 d.toNat 1 false true], pxM, .no, .yes, .n, 8, 0⟩
  | .shflUp b a d => ⟨[.reg 0 a.toNat 1 true false, .reg 1 b.toNat 1 true false, .reg 3 d.toNat 1 false true], pxM, .no, .yes, .n, 8, 0⟩
  | .shflDn b a d => ⟨[.reg 0 a.toNat 1 true false, .reg 1 b.toNat 1 true false, .reg 3 d.toNat 1 false true], pxM, .no, .yes, .n, 8, 0⟩
  | .shflXor b a d => ⟨[.reg 0 a.toNat 1 true false, .reg 1 b.toNat 1 true false, .reg 3 d.toNat 1 false true], pxM, .no, .yes, .n, 8, 0⟩
  | .shflRel b a d => ⟨[.reg 0 a.toNat 1 true false, .reg 1 b.toNat 1 true false, .reg 3 d.toNat 1 false true], pxM, .no, .yes, .n, 8, 0⟩
  | .voteAny a d => ⟨[.pred 0 a.toNat true false, .pred 3 d.toNat false true], pxM, .no, .yes, .n, 8, 0⟩
  | .voteAll a d => ⟨[.pred 0 a.toNat true false, .pred 3 d.toNat false true], pxM, .no, .yes, .n, 8, 0⟩
  | .ballot a d => ⟨[.pred 0 a.toNat true false, .reg 3 d.toNat 2 false true], pxM, .no, .yes, .n, 8, 0⟩
  | .redx _ a d => ⟨[.reg 0 a.toNat 1 true false, .reg 3 d.toNat 1 false true], pxMF, .no, .yes, .n, 14, 0⟩
  | .redxi _ a d => ⟨[.reg 0 a.toNat 1 true false, .reg 3 d.toNat 2 false true], pxM, .no, .yes, .n, 14, 0⟩
  | .scan _ a d => ⟨[.reg 0 a.toNat 1 true false, .reg 3 d.toNat 1 false true], pxMF, .no, .yes, .n, 14, 0⟩
  | .matchW a d => ⟨[.reg 0 a.toNat 1 true false, .reg 3 d.toNat 2 false true], pxM, .no, .yes, .n, 8, 0⟩
  | .cmpEqW b a d => ⟨[.reg 0 a.toNat 1 true false, .reg 1 b.toNat 1 true false, .pred 3 d.toNat false true], pxM, .yes, .yes, .n, 3, 0⟩
  | .cmpNeW b a d => ⟨[.reg 0 a.toNat 1 true false, .reg 1 b.toNat 1 true false, .pred 3 d.toNat false true], pxM, .yes, .yes, .n, 3, 0⟩
  | .cmpLtSw b a d => ⟨[.reg 0 a.toNat 1 true false, .reg 1 b.toNat 1 true false, .pred 3 d.toNat false true], pxM, .yes, .yes, .n, 3, 0⟩
  | .cmpLeSw b a d => ⟨[.reg 0 a.toNat 1 true false, .reg 1 b.toNat 1 true false, .pred 3 d.toNat false true], pxM, .yes, .yes, .n, 3, 0⟩
  | .cmpLtUw b a d => ⟨[.reg 0 a.toNat 1 true false, .reg 1 b.toNat 1 true false, .pred 3 d.toNat false true], pxM, .yes, .yes, .n, 3, 0⟩
  | .cmpLeUw b a d => ⟨[.reg 0 a.toNat 1 true false, .reg 1 b.toNat 1 true false, .pred 3 d.toNat false true], pxM, .yes, .yes, .n, 3, 0⟩
  | .fcmpEqF32 b a d => ⟨[.reg 0 a.toNat 1 true false, .reg 1 b.toNat 1 true false, .pred 3 d.toNat false true], pxM, .yes, .yes, .n, 3, 0⟩
  | .fcmpLtF32 b a d => ⟨[.reg 0 a.toNat 1 true false, .reg 1 b.toNat 1 true false, .pred 3 d.toNat false true], pxM, .yes, .yes, .n, 3, 0⟩
  | .fcmpLeF32 b a d => ⟨[.reg 0 a.toNat 1 true false, .reg 1 b.toNat 1 true false, .pred 3 d.toNat false true], pxM, .yes, .yes, .n, 3, 0⟩
  | .fcmpUnF32 b a d => ⟨[.reg 0 a.toNat 1 true false, .reg 1 b.toNat 1 true false, .pred 3 d.toNat false true], pxM, .yes, .yes, .n, 3, 0⟩
  | .dcmpLt b a d => ⟨[.reg 0 a.toNat 2 true false, .reg 1 b.toNat 2 true false, .pred 3 d.toNat false true], pxM, .yes, .yes, .n, 3, 0⟩
  | .dcmpEq b a d => ⟨[.reg 0 a.toNat 2 true false, .reg 1 b.toNat 2 true false, .pred 3 d.toNat false true], pxM, .yes, .yes, .n, 3, 0⟩
  | .pand b a d => ⟨[.pred 0 a.toNat true false, .pred 1 b.toNat true false, .pred 3 d.toNat false true], pxM, .yes, .yes, .n, 3, 0⟩
  | .por b a d => ⟨[.pred 0 a.toNat true false, .pred 1 b.toNat true false, .pred 3 d.toNat false true], pxM, .yes, .yes, .n, 3, 0⟩
  | .pxor b a d => ⟨[.pred 0 a.toNat true false, .pred 1 b.toNat true false, .pred 3 d.toNat false true], pxM, .yes, .yes, .n, 3, 0⟩
  | .pandn b a d => ⟨[.pred 0 a.toNat true false, .pred 1 b.toNat true false, .pred 3 d.toNat false true], pxM, .yes, .yes, .n, 3, 0⟩
  | .pmovV a d => ⟨[.reg 0 a.toNat 1 true false, .pred 3 d.toNat false true], pxM, .yes, .yes, .n, 3, 0⟩
  | .vmovP a d => ⟨[.pred 0 a.toNat true false, .reg 3 d.toNat 1 false true], pxM, .yes, .yes, .n, 3, 0⟩
  | .pcnt a d => ⟨[.pred 0 a.toNat true false, .reg 3 d.toNat 1 false true], pxM, .yes, .yes, .n, 3, 0⟩
  | .ldSb b a d => ⟨[.reg 0 a.toNat 2 true false, .reg 1 b.toNat 1 true false, .reg 3 d.toNat 1 false true], pxM, .yes, .yes, .ld, 0, 0⟩
  | .ldUb b a d => ⟨[.reg 0 a.toNat 2 true false, .reg 1 b.toNat 1 true false, .reg 3 d.toNat 1 false true], pxM, .yes, .yes, .ld, 0, 0⟩
  | .ldSh b a d => ⟨[.reg 0 a.toNat 2 true false, .reg 1 b.toNat 1 true false, .reg 3 d.toNat 1 false true], pxM, .yes, .yes, .ld, 0, 0⟩
  | .ldUh b a d => ⟨[.reg 0 a.toNat 2 true false, .reg 1 b.toNat 1 true false, .reg 3 d.toNat 1 false true], pxM, .yes, .yes, .ld, 0, 0⟩
  | .ldW b a d => ⟨[.reg 0 a.toNat 2 true false, .reg 1 b.toNat 1 true false, .reg 3 d.toNat 1 false true], pxM, .yes, .yes, .ld, 0, 0⟩
  | .ldD b a d => ⟨[.reg 0 a.toNat 2 true false, .reg 1 b.toNat 1 true false, .reg 3 d.toNat 2 false true], pxM, .yes, .yes, .ld, 0, 0⟩
  | .ldQ b a d => ⟨[.reg 0 a.toNat 2 true false, .reg 1 b.toNat 1 true false, .reg 3 d.toNat 4 false true], pxM, .yes, .yes, .ld, 0, 0⟩
  | .stB b a d => ⟨[.reg 0 a.toNat 2 true false, .reg 1 b.toNat 1 true false, .reg 3 d.toNat 1 true false], pxG, .yes, .yes, .n, 0, 0⟩
  | .stH b a d => ⟨[.reg 0 a.toNat 2 true false, .reg 1 b.toNat 1 true false, .reg 3 d.toNat 1 true false], pxG, .yes, .yes, .n, 0, 0⟩
  | .stW b a d => ⟨[.reg 0 a.toNat 2 true false, .reg 1 b.toNat 1 true false, .reg 3 d.toNat 1 true false], pxG, .yes, .yes, .n, 0, 0⟩
  | .stD b a d => ⟨[.reg 0 a.toNat 2 true false, .reg 1 b.toNat 1 true false, .reg 3 d.toNat 2 true false], pxG, .yes, .yes, .n, 0, 0⟩
  | .stQ b a d => ⟨[.reg 0 a.toNat 2 true false, .reg 1 b.toNat 1 true false, .reg 3 d.toNat 4 true false], pxG, .yes, .yes, .n, 0, 0⟩
  | .ldmW _ a d => ⟨[.reg 0 a.toNat 2 true true, .reg 3 d.toNat 1 false true], pxM, .no, .yes, .n, 0, 0⟩
  | .ldmD _ a d => ⟨[.reg 0 a.toNat 2 true true, .reg 3 d.toNat 2 false true], pxM, .no, .yes, .n, 0, 0⟩
  | .ldmQ _ a d => ⟨[.reg 0 a.toNat 2 true true, .reg 3 d.toNat 4 false true], pxM, .no, .yes, .n, 0, 0⟩
  | .stmW _ a d => ⟨[.reg 0 a.toNat 2 true true, .reg 3 d.toNat 1 true false], pxG, .no, .yes, .n, 0, 0⟩
  | .stmD _ a d => ⟨[.reg 0 a.toNat 2 true true, .reg 3 d.toNat 2 true false], pxG, .no, .yes, .n, 0, 0⟩
  | .stmQ _ a d => ⟨[.reg 0 a.toNat 2 true true, .reg 3 d.toNat 4 true false], pxG, .no, .yes, .n, 0, 0⟩
  | .ldacqW _ _ a d => ⟨[.reg 0 a.toNat 2 true false, .reg 3 d.toNat 1 false true], pxM, .no, .yes, .n, 0, 0⟩
  | .ldacqD _ _ a d => ⟨[.reg 0 a.toNat 2 true false, .reg 3 d.toNat 2 false true], pxM, .no, .yes, .n, 0, 0⟩
  | .strelW _ a d => ⟨[.reg 0 a.toNat 2 true false, .reg 3 d.toNat 1 true false], pxG, .no, .yes, .n, 0, 0⟩
  | .strelD _ a d => ⟨[.reg 0 a.toNat 2 true false, .reg 3 d.toNat 2 true false], pxG, .no, .yes, .n, 0, 0⟩
  | .atomAddW b a d => ⟨[.reg 0 a.toNat 2 true false, .reg 1 b.toNat 1 true false, .reg 3 d.toNat 1 false true], pxMO, .yes, .yes, .n, 0, 0⟩
  | .atomMinSw b a d => ⟨[.reg 0 a.toNat 2 true false, .reg 1 b.toNat 1 true false, .reg 3 d.toNat 1 false true], pxMO, .yes, .yes, .n, 0, 0⟩
  | .atomMinUw b a d => ⟨[.reg 0 a.toNat 2 true false, .reg 1 b.toNat 1 true false, .reg 3 d.toNat 1 false true], pxMO, .yes, .yes, .n, 0, 0⟩
  | .atomMaxSw b a d => ⟨[.reg 0 a.toNat 2 true false, .reg 1 b.toNat 1 true false, .reg 3 d.toNat 1 false true], pxMO, .yes, .yes, .n, 0, 0⟩
  | .atomMaxUw b a d => ⟨[.reg 0 a.toNat 2 true false, .reg 1 b.toNat 1 true false, .reg 3 d.toNat 1 false true], pxMO, .yes, .yes, .n, 0, 0⟩
  | .atomAndW b a d => ⟨[.reg 0 a.toNat 2 true false, .reg 1 b.toNat 1 true false, .reg 3 d.toNat 1 false true], pxMO, .yes, .yes, .n, 0, 0⟩
  | .atomOrW b a d => ⟨[.reg 0 a.toNat 2 true false, .reg 1 b.toNat 1 true false, .reg 3 d.toNat 1 false true], pxMO, .yes, .yes, .n, 0, 0⟩
  | .atomXorW b a d => ⟨[.reg 0 a.toNat 2 true false, .reg 1 b.toNat 1 true false, .reg 3 d.toNat 1 false true], pxMO, .yes, .yes, .n, 0, 0⟩
  | .atomExchW b a d => ⟨[.reg 0 a.toNat 2 true false, .reg 1 b.toNat 1 true false, .reg 3 d.toNat 1 false true], pxMO, .yes, .yes, .n, 0, 0⟩
  | .atomCasW b a d => ⟨[.reg 0 a.toNat 2 true false, .reg 1 b.toNat 1 true false, .reg 3 d.toNat 1 false true], pxMOC, .yes, .yes, .n, 0, 1⟩
  | .atomFaddF32 b a d => ⟨[.reg 0 a.toNat 2 true false, .reg 1 b.toNat 1 true false, .reg 3 d.toNat 1 false true], pxMO, .yes, .yes, .n, 0, 0⟩
  | .atomAddD b a d => ⟨[.reg 0 a.toNat 2 true false, .reg 1 b.toNat 2 true false, .reg 3 d.toNat 2 false true], pxMO, .yes, .yes, .n, 0, 0⟩
  | .atomExchD b a d => ⟨[.reg 0 a.toNat 2 true false, .reg 1 b.toNat 2 true false, .reg 3 d.toNat 2 false true], pxMO, .yes, .yes, .n, 0, 0⟩
  | .atomCasD b a d => ⟨[.reg 0 a.toNat 2 true false, .reg 1 b.toNat 2 true false, .reg 3 d.toNat 2 false true], pxMOC, .yes, .yes, .n, 0, 2⟩
  | .pfL1 b a => ⟨[.reg 0 a.toNat 2 true false, .reg 1 b.toNat 1 true false], pxG, .no, .yes, .n, 0, 0⟩
  | .pfL2 b a => ⟨[.reg 0 a.toNat 2 true false, .reg 1 b.toNat 1 true false], pxG, .no, .yes, .n, 0, 0⟩
  | .jmp a => ⟨[.reg 0 a.toNat 2 true false], pxG, .no, .yes, .n, 0, 0⟩
  | .callr a d => ⟨[.reg 0 a.toNat 2 true false, .reg 3 d.toNat 2 false true], pxG, .no, .yes, .n, 0, 0⟩
  | .ret a => ⟨[.reg 0 a.toNat 2 true false], pxG, .no, .yes, .n, 0, 0⟩
  | .barArr b a => ⟨[.reg 0 a.toNat 1 true false, .reg 1 b.toNat 1 true false], pxNone, .no, .illegal, .n, 0, 0⟩
  | .barWait b a => ⟨[.reg 0 a.toNat 1 true false, .reg 1 b.toNat 1 true false], pxNone, .no, .illegal, .n, 0, 0⟩
  | .barSync a => ⟨[.reg 0 a.toNat 1 true false], pxNone, .no, .illegal, .n, 0, 0⟩
  | .pbwait _ a => ⟨[.reg 0 a.toNat 2 true false], pxO, .no, .yes, .n, 0, 0⟩
  | .pbarr b a => ⟨[.reg 0 a.toNat 2 true false, .reg 1 b.toNat 1 true false], pxO, .no, .yes, .n, 0, 0⟩
  | .xw a => ⟨[.reg 0 a.toNat 1 true false], pxG, .inner, .yes, .n, 0, 0⟩
  | .xwp b a => ⟨[.reg 0 a.toNat 1 true false, .reg 1 b.toNat 1 true false], pxG, .inner, .yes, .n, 0, 0⟩
  | .untag a d => ⟨[.reg 0 a.toNat 1 true false, .reg 3 d.toNat 1 false true], pxM, .no, .yes, .n, 4, 0⟩
  | .lnkill i a => ⟨if i = 1 then [.reg 0 a.toNat 2 true false] else [], pxG, .no, .nothing, .n, 0, 0⟩
  | .mfs i d => ⟨[.reg 3 d.toNat 1 false true], pxM, .no, .yes, (mfsClass i.toNat), 3, 0⟩
  | .mts _ a => ⟨[.reg 0 a.toNat 1 true false], pxG, .no, .yes, .n, 0, 0⟩
  | .lnq a d => ⟨[.reg 0 a.toNat 1 true false, .reg 3 d.toNat 1 false true], pxG, .no, .yes, .n, 3, 0⟩
  | .bcopy a d => ⟨[.reg 0 a.toNat 2 true false, .reg 3 d.toNat 1 false true], pxG, .no, .yes, .n, 0, 0⟩
  | .coll a => ⟨[.reg 0 a.toNat 2 true false], pxG, .no, .yes, .n, 0, 0⟩
  | .ewait a => ⟨[.reg 0 a.toNat 1 true false], pxNone, .no, .yes, .n, 0, 0⟩
  | .epoll a d => ⟨[.reg 0 a.toNat 1 true false, .reg 3 d.toNat 1 false true], pxG, .no, .yes, .n, 0, 0⟩
  | .gpost b a => ⟨[.reg 0 a.toNat 2 true false, .reg 1 b.toNat 1 true false], pxG, .no, .yes, .n, 0, 0⟩
  | .ofsub a d => ⟨[.reg 0 a.toNat 2 true false, .reg 3 d.toNat 1 false true], pxG, .no, .illegal, .n, 0, 0⟩
  | .ofwait => ⟨[], pxNone, .no, .illegal, .n, 0, 0⟩
  | .ofcommit => ⟨[], pxNone, .no, .illegal, .n, 0, 0⟩
  | .ofinfo d => ⟨[.reg 3 d.toNat 2 false true], pxNone, .no, .illegal, .n, 0, 0⟩
  | .accrd a d => ⟨[.reg 0 a.toNat 1 true false, .reg 3 d.toNat 1 false true], pxM, .no, .illegal, .n, 0, 0⟩
  | .accwr a d => ⟨[.reg 0 a.toNat 1 true false, .reg 3 d.toNat 1 true false], pxG, .no, .illegal, .n, 0, 0⟩
  | .acalloc a d => ⟨[.reg 0 a.toNat 1 true false, .reg 3 d.toNat 1 false true], pxNone, .no, .only, .n, 0, 0⟩
  | .acfree b a => ⟨[.reg 0 a.toNat 1 true false, .reg 1 b.toNat 1 true false], pxNone, .no, .only, .n, 0, 0⟩
  | .mslot b a _ => ⟨[.reg 0 a.toNat 2 true false, .reg 1 b.toNat 1 true false], pxNone, .no, .only, .n, 0, 0⟩
  | .mmac _ _ d => ⟨[.reg 3 d.toNat 1 true false], pxNone, .no, .only, .n, 0, 0⟩
  | .mtrans _ d => ⟨[.reg 3 d.toNat 1 true false], pxNone, .no, .only, .n, 0, 0⟩
  | .mperm b _ d => ⟨[.reg 1 b.toNat 2 true false, .reg 3 d.toNat 1 true false], pxNone, .no, .only, .n, 0, 0⟩
  | .mrsum _ d => ⟨[.reg 3 d.toNat 1 true false], pxNone, .no, .only, .n, 0, 0⟩
  | .mzero d => ⟨[.reg 3 d.toNat 1 true false], pxNone, .no, .only, .n, 0, 0⟩
  | .vcnt b a => ⟨[.reg 0 a.toNat 1 true false, .reg 1 b.toNat 1 true false], pxC, .no, .only, .n, 0, 1⟩
  | .mwait => ⟨[], pxNone, .no, .only, .n, 0, 0⟩
  | .mpost b a d => ⟨[.reg 0 a.toNat 2 true false, .reg 1 b.toNat 1 true false, .reg 3 d.toNat 1 true false], pxNone, .no, .only, .n, 0, 0⟩
  | .mdrain a d => ⟨[.reg 0 a.toNat 2 true false, .reg 3 d.toNat 1 true false], pxNone, .no, .only, .n, 0, 0⟩
  | .ppoint a => ⟨[.reg 0 a.toNat 1 true false], pxNone, .no, .only, .n, 0, 0⟩
  | .addiW _ a d => ⟨[.reg 0 a.toNat 1 true false, .reg 3 d.toNat 1 false true], pxM, .yes, .yes, .l, 4, 0⟩
  | .andi _ a d => ⟨[.reg 0 a.toNat 1 true false, .reg 3 d.toNat 1 false true], pxM, .yes, .yes, .l, 4, 0⟩
  | .ori _ a d => ⟨[.reg 0 a.toNat 1 true false, .reg 3 d.toNat 1 false true], pxM, .yes, .yes, .l, 4, 0⟩
  | .xori _ a d => ⟨[.reg 0 a.toNat 1 true false, .reg 3 d.toNat 1 false true], pxM, .yes, .yes, .l, 4, 0⟩
  | .shli _ a d => ⟨[.reg 0 a.toNat 1 true false, .reg 3 d.toNat 1 false true], pxM, .yes, .yes, .l, 4, 0⟩
  | .shri _ a d => ⟨[.reg 0 a.toNat 1 true false, .reg 3 d.toNat 1 false true], pxM, .yes, .yes, .l, 4, 0⟩
  | .srai _ a d => ⟨[.reg 0 a.toNat 1 true false, .reg 3 d.toNat 1 false true], pxM, .yes, .yes, .l, 4, 0⟩
  | .cmpiEq _ a d => ⟨[.reg 0 a.toNat 1 true false, .pred 3 d.toNat false true], pxM, .yes, .yes, .n, 3, 0⟩
  | .cmpiLtSw _ a d => ⟨[.reg 0 a.toNat 1 true false, .pred 3 d.toNat false true], pxM, .yes, .yes, .n, 3, 0⟩
  | .cmpiLtUw _ a d => ⟨[.reg 0 a.toNat 1 true false, .pred 3 d.toNat false true], pxM, .yes, .yes, .n, 3, 0⟩
  | .ldiW _ a d => ⟨[.reg 0 a.toNat 2 true false, .reg 3 d.toNat 1 false true], pxM, .yes, .yes, .ld, 0, 0⟩
  | .stiW _ a d => ⟨[.reg 0 a.toNat 2 true false, .reg 3 d.toNat 1 true false], pxG, .yes, .yes, .n, 0, 0⟩
  | .ldiD _ a d => ⟨[.reg 0 a.toNat 2 true false, .reg 3 d.toNat 2 false true], pxM, .yes, .yes, .ld, 0, 0⟩
  | .stiD _ a d => ⟨[.reg 0 a.toNat 2 true false, .reg 3 d.toNat 2 true false], pxG, .yes, .yes, .n, 0, 0⟩
  | .ldiQ _ a d => ⟨[.reg 0 a.toNat 2 true false, .reg 3 d.toNat 4 false true], pxM, .yes, .yes, .ld, 0, 0⟩
  | .stiQ _ a d => ⟨[.reg 0 a.toNat 2 true false, .reg 3 d.toNat 4 true false], pxG, .yes, .yes, .n, 0, 0⟩
  | .bra _ => ⟨[], pxG, .no, .yes, .n, 0, 0⟩
  | .call _ d => ⟨[.reg 3 d.toNat 2 false true], pxG, .no, .yes, .n, 0, 0⟩
  | .movi _ d => ⟨[.reg 3 d.toNat 1 false true], pxM, .yes, .yes, .r, 2, 0⟩
  | .movu _ d => ⟨[.reg 3 d.toNat 1 true true], pxM, .yes, .yes, .l, 2, 0⟩
  | .join => ⟨[], pxG, .no, .yes, .n, 0, 0⟩
  | .nop => ⟨[], pxNone, .no, .yes, .n, 0, 0⟩
  | .exit => ⟨[], pxG, .no, .yes, .n, 0, 0⟩
  | .trap _ => ⟨[], pxG, .no, .yes, .n, 0, 0⟩
  | .brk => ⟨[], pxNone, .no, .yes, .n, 0, 0⟩
  | .eret => ⟨[], pxNone, .no, .yes, .n, 0, 0⟩
  | .fence _ _ _ => ⟨[], pxNone, .no, .yes, .n, 0, 0⟩
  | .sdrain => ⟨[], pxNone, .no, .yes, .n, 0, 0⟩
  | .wbase _ => ⟨[], pxNone, .no, .yes, .n, 0, 0⟩
  | .sleep _ => ⟨[], pxNone, .no, .yes, .n, 0, 0⟩
  | .yield => ⟨[], pxNone, .no, .yes, .n, 0, 0⟩
  | .lnon => ⟨[], pxNone, .no, .nothing, .n, 0, 0⟩
  | .lnoff => ⟨[], pxNone, .no, .nothing, .n, 0, 0⟩
  | .bexit _ => ⟨[], pxNone, .no, .yes, .n, 0, 0⟩
  | .fairnessTurn _ => rowEvent
  | .storeFaultDelivery _ => rowEvent
  | .transactionOverrunTrap _ => rowEvent
  | .passFaultDelivery _ => rowEvent
  | .producerComplete _ _ => rowEvent
  | .drain _ _ => rowEvent
  | .propagate _ _ => rowEvent
  | .apply _ => rowEvent
  | .refresh _ _ => rowEvent
  | .engineRead _ _ => rowEvent
  | .engineWrite _ _ => rowEvent
  | .joinDeadlockRelease _ => rowEvent
  | .pbwaitRelease _ _ => rowEvent
  | .sleepExpiry _ _ => rowEvent
  | .pageWalk _ _ => rowEvent
  | .faultRecordWrite _ => rowEvent
  | .collapse _ _ _ => rowEvent
  | .engineCommandStart _ => rowEvent
  | .scout _ _ => rowEvent
  | .copyCompletion _ => rowEvent
  | .collectiveCompletion _ _ => rowEvent
  | .orderSequencerArrival _ => rowEvent
  | .beatSeal _ => rowEvent
  | .batchExchange _ => rowEvent
  | .transactionAdmission _ => rowEvent
  | .transactionOverrun _ => rowEvent
  | .passGrant _ => rowEvent
  | .operandFetch _ _ _ _ => rowEvent
  | .chunkApplied _ _ => rowEvent
  | .mpostArrival _ _ => rowEvent
  | .tileDrain _ _ => rowEvent
  | .accumulatorSpill _ => rowEvent
  | .acallocGrant _ => rowEvent
  | .acfreeEffect _ _ => rowEvent
  | .preemptionTimeout _ => rowEvent
  | .qpost _ _ _ _ => rowEvent
  | .queueResume _ _ => rowEvent
  | .flush _ _ => rowEvent
  | .abort _ _ => rowEvent
  | .nodeDispatch _ => rowEvent
  | .nodeCompletion _ => rowEvent
  | .blockAdmission _ => rowEvent
  | .admissionReservation _ _ => rowEvent
  | .blockRetirement _ => rowEvent
  | .launchEnd _ => rowEvent
  | .latticeTimeslice _ _ => rowEvent
  | .replayGateTimeout _ _ => rowEvent
  | .measurementPass _ => rowEvent
  | .contextDestroy _ _ => rowEvent
  | .shootdown _ => rowEvent
  | .shootdownComplete _ => rowEvent
  | .fqresResume _ _ => rowEvent
  | .fqresReject _ _ => rowEvent
  | .halt _ => rowEvent
  | .resume _ => rowEvent
  | .step _ => rowEvent
  | .stepall _ => rowEvent
  | .snap _ _ => rowEvent
  | .poke _ => rowEvent
  | .preempt _ _ => rowEvent
  | .restore _ => rowEvent
  | .release _ => rowEvent
  | .hostAccess _ _ _ _ _ => rowEvent
  | .inboundAccess _ _ _ _ _ _ => rowEvent
  | .inboundTimeout _ _ => rowEvent
  | .remoteTimeout _ => rowEvent
  | .peerCompletion _ _ _ => rowEvent
  | .flitReplay _ _ => rowEvent
  | .linkRetrain _ => rowEvent
  | .heartbeat _ _ _ _ => rowEvent
  | .sessionBind _ _ => rowEvent
  | .sessionLapse _ => rowEvent
  | .sessionHalt _ => rowEvent
  | .sessionScrub _ => rowEvent
  | .getMeasurements _ => rowEvent
  | .stage _ _ _ _ _ => rowEvent
  | .activate => rowEvent
  | .componentSwitch => rowEvent
  | .create _ _ _ _ => rowEvent
  | .partitionRelease _ => rowEvent
  | .handoff _ _ _ => rowEvent
  | .allocationRecordWrite _ _ _ _ _ _ _ _ _ => rowEvent
  | .levelLower _ _ _ _ _ => rowEvent
  | .clockSwitch _ => rowEvent
  | .powerInterval _ => rowEvent
  | .droop _ => rowEvent
  | .brownoutWarning => rowEvent
  | .brownoutClear => rowEvent
  | .brownoutTimeout => rowEvent
  | .thermalInterval _ _ => rowEvent
  | .thermalCritical _ _ => rowEvent
  | .thermalTrip _ _ => rowEvent
  | .emergencySave => rowEvent
  | .emergencyImageWrite _ => rowEvent
  | .opvote _ _ => rowEvent
  | .railHoldExpiry _ _ => rowEvent
  | .railVoltageReached _ _ => rowEvent
  | .energyUpdate _ _ => rowEvent
  | .budgetPeriod => rowEvent
  | .patrolScrub _ => rowEvent
  | .uncorrectableError _ => rowEvent
  | .retirecore => rowEvent
  | .sparech => rowEvent
  | .rowrep => rowEvent
  | .lanespare => rowEvent
  | .tseal => rowEvent
  | .swapout => rowEvent
  | .transportSelfTest _ _ _ => rowEvent
  | .deviceReset => rowEvent
  | .registerWrite _ _ _ _ => rowEvent
  | .hostCompletion _ _ => rowEvent
  | .linkRetrained _ => rowEvent
  | .collectiveInboundWrite _ _ _ _ => rowEvent

/-- Whether the row has a word (R127), as against a whole step of another agent. -/
def Instr.isWord : Instr → Bool
  | .addW _ _ _ => true
  | .subW _ _ _ => true
  | .addsSw _ _ _ => true
  | .addsUw _ _ _ => true
  | .subsSw _ _ _ => true
  | .subsUw _ _ _ => true
  | .mulW _ _ _ => true
  | .mulhiSw _ _ _ => true
  | .mulhiUw _ _ _ => true
  | .madW _ _ _ => true
  | .minSw _ _ _ => true
  | .minUw _ _ _ => true
  | .maxSw _ _ _ => true
  | .maxUw _ _ _ => true
  | .absSw _ _ => true
  | .negW _ _ => true
  | .addD _ _ _ => true
  | .subD _ _ _ => true
  | .addwD _ _ _ => true
  | .mulSwd _ _ _ => true
  | .mulUwd _ _ _ => true
  | .idot4Sb _ _ _ => true
  | .idot4Ub _ _ _ => true
  | .and _ _ _ => true
  | .or _ _ _ => true
  | .xor _ _ _ => true
  | .andn _ _ _ => true
  | .shl _ _ _ => true
  | .shr _ _ _ => true
  | .sra _ _ _ => true
  | .rotl _ _ _ => true
  | .clz _ _ => true
  | .popc _ _ => true
  | .brev _ _ => true
  | .bfxUw _ _ _ => true
  | .bfxSw _ _ _ => true
  | .bfi _ _ _ => true
  | .perm _ _ _ => true
  | .mov _ _ => true
  | .faddF32 _ _ _ => true
  | .fsubF32 _ _ _ => true
  | .fmulF32 _ _ _ => true
  | .ffmaF32 _ _ _ => true
  | .fminF32 _ _ _ => true
  | .fmaxF32 _ _ _ => true
  | .fabsF32 _ _ => true
  | .fnegF32 _ _ => true
  | .frcpF32 _ _ => true
  | .frsqF32 _ _ => true
  | .fsqrtF32 _ _ => true
  | .fdivF32 _ _ _ => true
  | .fex2F32 _ _ => true
  | .flg2F32 _ _ => true
  | .fsinpiF32 _ _ => true
  | .fcospiF32 _ _ => true
  | .ftanhF32 _ _ => true
  | .frndF32 _ _ => true
  | .hadd2F16 _ _ _ => true
  | .hmul2F16 _ _ _ => true
  | .hfma2F16 _ _ _ => true
  | .hadd2Bf16 _ _ _ => true
  | .hmul2Bf16 _ _ _ => true
  | .hfma2Bf16 _ _ _ => true
  | .hmin2Bf16 _ _ _ => true
  | .hmax2Bf16 _ _ _ => true
  | .fdot2Bf16 _ _ _ => true
  | .dadd _ _ _ => true
  | .dmul _ _ _ => true
  | .dfma _ _ _ => true
  | .dmin _ _ _ => true
  | .dmax _ _ _ => true
  | .ddiv _ _ _ => true
  | .dsqrt _ _ => true
  | .cvtF32Sw _ _ => true
  | .cvtF32Uw _ _ => true
  | .cvtSwF32 _ _ => true
  | .cvtUwF32 _ _ => true
  | .pkF16 _ _ _ => true
  | .pkBf16 _ _ _ => true
  | .cvtF32F16 _ _ _ => true
  | .cvtF32Bf16 _ _ _ => true
  | .cvtF64F32 _ _ => true
  | .cvtF32F64 _ _ => true
  | .qpkE4m3 _ _ _ => true
  | .qpkE5m2 _ _ _ => true
  | .dqE4m3 _ _ _ => true
  | .dqE5m2 _ _ _ => true
  | .shflIdx _ _ _ => true
  | .shflUp _ _ _ => true
  | .shflDn _ _ _ => true
  | .shflXor _ _ _ => true
  | .shflRel _ _ _ => true
  | .voteAny _ _ => true
  | .voteAll _ _ => true
  | .ballot _ _ => true
  | .redx _ _ _ => true
  | .redxi _ _ _ => true
  | .scan _ _ _ => true
  | .matchW _ _ => true
  | .cmpEqW _ _ _ => true
  | .cmpNeW _ _ _ => true
  | .cmpLtSw _ _ _ => true
  | .cmpLeSw _ _ _ => true
  | .cmpLtUw _ _ _ => true
  | .cmpLeUw _ _ _ => true
  | .fcmpEqF32 _ _ _ => true
  | .fcmpLtF32 _ _ _ => true
  | .fcmpLeF32 _ _ _ => true
  | .fcmpUnF32 _ _ _ => true
  | .dcmpLt _ _ _ => true
  | .dcmpEq _ _ _ => true
  | .pand _ _ _ => true
  | .por _ _ _ => true
  | .pxor _ _ _ => true
  | .pandn _ _ _ => true
  | .pmovV _ _ => true
  | .vmovP _ _ => true
  | .pcnt _ _ => true
  | .ldSb _ _ _ => true
  | .ldUb _ _ _ => true
  | .ldSh _ _ _ => true
  | .ldUh _ _ _ => true
  | .ldW _ _ _ => true
  | .ldD _ _ _ => true
  | .ldQ _ _ _ => true
  | .stB _ _ _ => true
  | .stH _ _ _ => true
  | .stW _ _ _ => true
  | .stD _ _ _ => true
  | .stQ _ _ _ => true
  | .ldmW _ _ _ => true
  | .ldmD _ _ _ => true
  | .ldmQ _ _ _ => true
  | .stmW _ _ _ => true
  | .stmD _ _ _ => true
  | .stmQ _ _ _ => true
  | .ldacqW _ _ _ _ => true
  | .ldacqD _ _ _ _ => true
  | .strelW _ _ _ => true
  | .strelD _ _ _ => true
  | .atomAddW _ _ _ => true
  | .atomMinSw _ _ _ => true
  | .atomMinUw _ _ _ => true
  | .atomMaxSw _ _ _ => true
  | .atomMaxUw _ _ _ => true
  | .atomAndW _ _ _ => true
  | .atomOrW _ _ _ => true
  | .atomXorW _ _ _ => true
  | .atomExchW _ _ _ => true
  | .atomCasW _ _ _ => true
  | .atomFaddF32 _ _ _ => true
  | .atomAddD _ _ _ => true
  | .atomExchD _ _ _ => true
  | .atomCasD _ _ _ => true
  | .pfL1 _ _ => true
  | .pfL2 _ _ => true
  | .jmp _ => true
  | .callr _ _ => true
  | .ret _ => true
  | .barArr _ _ => true
  | .barWait _ _ => true
  | .barSync _ => true
  | .pbwait _ _ => true
  | .pbarr _ _ => true
  | .xw _ => true
  | .xwp _ _ => true
  | .untag _ _ => true
  | .lnkill _ _ => true
  | .mfs _ _ => true
  | .mts _ _ => true
  | .lnq _ _ => true
  | .bcopy _ _ => true
  | .coll _ => true
  | .ewait _ => true
  | .epoll _ _ => true
  | .gpost _ _ => true
  | .ofsub _ _ => true
  | .ofwait => true
  | .ofcommit => true
  | .ofinfo _ => true
  | .accrd _ _ => true
  | .accwr _ _ => true
  | .acalloc _ _ => true
  | .acfree _ _ => true
  | .mslot _ _ _ => true
  | .mmac _ _ _ => true
  | .mtrans _ _ => true
  | .mperm _ _ _ => true
  | .mrsum _ _ => true
  | .mzero _ => true
  | .vcnt _ _ => true
  | .mwait => true
  | .mpost _ _ _ => true
  | .mdrain _ _ => true
  | .ppoint _ => true
  | .addiW _ _ _ => true
  | .andi _ _ _ => true
  | .ori _ _ _ => true
  | .xori _ _ _ => true
  | .shli _ _ _ => true
  | .shri _ _ _ => true
  | .srai _ _ _ => true
  | .cmpiEq _ _ _ => true
  | .cmpiLtSw _ _ _ => true
  | .cmpiLtUw _ _ _ => true
  | .ldiW _ _ _ => true
  | .stiW _ _ _ => true
  | .ldiD _ _ _ => true
  | .stiD _ _ _ => true
  | .ldiQ _ _ _ => true
  | .stiQ _ _ _ => true
  | .bra _ => true
  | .call _ _ => true
  | .movi _ _ => true
  | .movu _ _ => true
  | .join => true
  | .nop => true
  | .exit => true
  | .trap _ => true
  | .brk => true
  | .eret => true
  | .fence _ _ _ => true
  | .sdrain => true
  | .wbase _ => true
  | .sleep _ => true
  | .yield => true
  | .lnon => true
  | .lnoff => true
  | .bexit _ => true
  | .fairnessTurn _ => false
  | .storeFaultDelivery _ => false
  | .transactionOverrunTrap _ => false
  | .passFaultDelivery _ => false
  | .producerComplete _ _ => false
  | .drain _ _ => false
  | .propagate _ _ => false
  | .apply _ => false
  | .refresh _ _ => false
  | .engineRead _ _ => false
  | .engineWrite _ _ => false
  | .joinDeadlockRelease _ => false
  | .pbwaitRelease _ _ => false
  | .sleepExpiry _ _ => false
  | .pageWalk _ _ => false
  | .faultRecordWrite _ => false
  | .collapse _ _ _ => false
  | .engineCommandStart _ => false
  | .scout _ _ => false
  | .copyCompletion _ => false
  | .collectiveCompletion _ _ => false
  | .orderSequencerArrival _ => false
  | .beatSeal _ => false
  | .batchExchange _ => false
  | .transactionAdmission _ => false
  | .transactionOverrun _ => false
  | .passGrant _ => false
  | .operandFetch _ _ _ _ => false
  | .chunkApplied _ _ => false
  | .mpostArrival _ _ => false
  | .tileDrain _ _ => false
  | .accumulatorSpill _ => false
  | .acallocGrant _ => false
  | .acfreeEffect _ _ => false
  | .preemptionTimeout _ => false
  | .qpost _ _ _ _ => false
  | .queueResume _ _ => false
  | .flush _ _ => false
  | .abort _ _ => false
  | .nodeDispatch _ => false
  | .nodeCompletion _ => false
  | .blockAdmission _ => false
  | .admissionReservation _ _ => false
  | .blockRetirement _ => false
  | .launchEnd _ => false
  | .latticeTimeslice _ _ => false
  | .replayGateTimeout _ _ => false
  | .measurementPass _ => false
  | .contextDestroy _ _ => false
  | .shootdown _ => false
  | .shootdownComplete _ => false
  | .fqresResume _ _ => false
  | .fqresReject _ _ => false
  | .halt _ => false
  | .resume _ => false
  | .step _ => false
  | .stepall _ => false
  | .snap _ _ => false
  | .poke _ => false
  | .preempt _ _ => false
  | .restore _ => false
  | .release _ => false
  | .hostAccess _ _ _ _ _ => false
  | .inboundAccess _ _ _ _ _ _ => false
  | .inboundTimeout _ _ => false
  | .remoteTimeout _ => false
  | .peerCompletion _ _ _ => false
  | .flitReplay _ _ => false
  | .linkRetrain _ => false
  | .heartbeat _ _ _ _ => false
  | .sessionBind _ _ => false
  | .sessionLapse _ => false
  | .sessionHalt _ => false
  | .sessionScrub _ => false
  | .getMeasurements _ => false
  | .stage _ _ _ _ _ => false
  | .activate => false
  | .componentSwitch => false
  | .create _ _ _ _ => false
  | .partitionRelease _ => false
  | .handoff _ _ _ => false
  | .allocationRecordWrite _ _ _ _ _ _ _ _ _ => false
  | .levelLower _ _ _ _ _ => false
  | .clockSwitch _ => false
  | .powerInterval _ => false
  | .droop _ => false
  | .brownoutWarning => false
  | .brownoutClear => false
  | .brownoutTimeout => false
  | .thermalInterval _ _ => false
  | .thermalCritical _ _ => false
  | .thermalTrip _ _ => false
  | .emergencySave => false
  | .emergencyImageWrite _ => false
  | .opvote _ _ => false
  | .railHoldExpiry _ _ => false
  | .railVoltageReached _ _ => false
  | .energyUpdate _ _ => false
  | .budgetPeriod => false
  | .patrolScrub _ => false
  | .uncorrectableError _ => false
  | .retirecore => false
  | .sparech => false
  | .rowrep => false
  | .lanespare => false
  | .tseal => false
  | .swapout => false
  | .transportSelfTest _ _ _ => false
  | .deviceReset => false
  | .registerWrite _ _ _ _ => false
  | .hostCompletion _ _ => false
  | .linkRetrained _ => false
  | .collectiveInboundWrite _ _ _ _ => false

/-- The immediates and fields R139 limits (and R81, R113, R193, R244); `rm` is the prefix's rounding field. -/
def Instr.immOk (rm : Nat) : Instr → Bool
  | .addW _ _ _ => true
  | .subW _ _ _ => true
  | .addsSw _ _ _ => true
  | .addsUw _ _ _ => true
  | .subsSw _ _ _ => true
  | .subsUw _ _ _ => true
  | .mulW _ _ _ => true
  | .mulhiSw _ _ _ => true
  | .mulhiUw _ _ _ => true
  | .madW _ _ _ => true
  | .minSw _ _ _ => true
  | .minUw _ _ _ => true
  | .maxSw _ _ _ => true
  | .maxUw _ _ _ => true
  | .absSw _ _ => true
  | .negW _ _ => true
  | .addD _ _ _ => true
  | .subD _ _ _ => true
  | .addwD _ _ _ => true
  | .mulSwd _ _ _ => true
  | .mulUwd _ _ _ => true
  | .idot4Sb _ _ _ => true
  | .idot4Ub _ _ _ => true
  | .and _ _ _ => true
  | .or _ _ _ => true
  | .xor _ _ _ => true
  | .andn _ _ _ => true
  | .shl _ _ _ => true
  | .shr _ _ _ => true
  | .sra _ _ _ => true
  | .rotl _ _ _ => true
  | .clz _ _ => true
  | .popc _ _ => true
  | .brev _ _ => true
  | .bfxUw _ _ _ => true
  | .bfxSw _ _ _ => true
  | .bfi _ _ _ => true
  | .perm _ _ _ => true
  | .mov _ _ => true
  | .faddF32 _ _ _ => true
  | .fsubF32 _ _ _ => true
  | .fmulF32 _ _ _ => true
  | .ffmaF32 _ _ _ => true
  | .fminF32 _ _ _ => true
  | .fmaxF32 _ _ _ => true
  | .fabsF32 _ _ => true
  | .fnegF32 _ _ => true
  | .frcpF32 _ _ => true
  | .frsqF32 _ _ => true
  | .fsqrtF32 _ _ => true
  | .fdivF32 _ _ _ => true
  | .fex2F32 _ _ => true
  | .flg2F32 _ _ => true
  | .fsinpiF32 _ _ => true
  | .fcospiF32 _ _ => true
  | .ftanhF32 _ _ => true
  | .frndF32 _ _ => true
  | .hadd2F16 _ _ _ => true
  | .hmul2F16 _ _ _ => true
  | .hfma2F16 _ _ _ => true
  | .hadd2Bf16 _ _ _ => true
  | .hmul2Bf16 _ _ _ => true
  | .hfma2Bf16 _ _ _ => true
  | .hmin2Bf16 _ _ _ => true
  | .hmax2Bf16 _ _ _ => true
  | .fdot2Bf16 _ _ _ => true
  | .dadd _ _ _ => true
  | .dmul _ _ _ => true
  | .dfma _ _ _ => true
  | .dmin _ _ _ => true
  | .dmax _ _ _ => true
  | .ddiv _ _ _ => true
  | .dsqrt _ _ => true
  | .cvtF32Sw _ _ => true
  | .cvtF32Uw _ _ => true
  | .cvtSwF32 _ _ => true
  | .cvtUwF32 _ _ => true
  | .pkF16 _ _ _ => true
  | .pkBf16 _ _ _ => true
  | .cvtF32F16 i _ _ => decide (i.toNat ≤ 1)
  | .cvtF32Bf16 i _ _ => decide (i.toNat ≤ 1)
  | .cvtF64F32 _ _ => true
  | .cvtF32F64 _ _ => true
  | .qpkE4m3 _ _ _ => true
  | .qpkE5m2 _ _ _ => true
  | .dqE4m3 _ _ _ => true
  | .dqE5m2 _ _ _ => true
  | .shflIdx _ _ _ => true
  | .shflUp _ _ _ => true
  | .shflDn _ _ _ => true
  | .shflXor _ _ _ => true
  | .shflRel _ _ _ => true
  | .voteAny _ _ => true
  | .voteAll _ _ => true
  | .ballot _ _ => true
  | .redx i _ _ => decide (i.toNat ≤ 10 ∧ (rm = 0 ∨ i.toNat = 8))
  | .redxi i _ _ => decide ((1 ≤ i.toNat ∧ i.toNat ≤ 4) ∨ i.toNat = 9 ∨ i.toNat = 10)
  | .scan i _ _ => decide (i.toNat ≤ 10 ∧ (rm = 0 ∨ i.toNat = 8))
  | .matchW _ _ => true
  | .cmpEqW _ _ _ => true
  | .cmpNeW _ _ _ => true
  | .cmpLtSw _ _ _ => true
  | .cmpLeSw _ _ _ => true
  | .cmpLtUw _ _ _ => true
  | .cmpLeUw _ _ _ => true
  | .fcmpEqF32 _ _ _ => true
  | .fcmpLtF32 _ _ _ => true
  | .fcmpLeF32 _ _ _ => true
  | .fcmpUnF32 _ _ _ => true
  | .dcmpLt _ _ _ => true
  | .dcmpEq _ _ _ => true
  | .pand _ _ _ => true
  | .por _ _ _ => true
  | .pxor _ _ _ => true
  | .pandn _ _ _ => true
  | .pmovV _ _ => true
  | .vmovP _ _ => true
  | .pcnt _ _ => true
  | .ldSb _ _ _ => true
  | .ldUb _ _ _ => true
  | .ldSh _ _ _ => true
  | .ldUh _ _ _ => true
  | .ldW _ _ _ => true
  | .ldD _ _ _ => true
  | .ldQ _ _ _ => true
  | .stB _ _ _ => true
  | .stH _ _ _ => true
  | .stW _ _ _ => true
  | .stD _ _ _ => true
  | .stQ _ _ _ => true
  | .ldmW _ a d => decide (d.toNat + 1 ≤ a.toNat ∨ a.toNat + 2 ≤ d.toNat)
  | .ldmD _ a d => decide (d.toNat + 2 ≤ a.toNat ∨ a.toNat + 2 ≤ d.toNat)
  | .ldmQ _ a d => decide (d.toNat + 4 ≤ a.toNat ∨ a.toNat + 2 ≤ d.toNat)
  | .stmW _ _ _ => true
  | .stmD _ _ _ => true
  | .stmQ _ _ _ => true
  | .ldacqW r s _ _ => decide (s.toNat ≤ 5 ∧ (r = 0 ∨ 2 ≤ s.toNat))
  | .ldacqD r s _ _ => decide (s.toNat ≤ 5 ∧ (r = 0 ∨ 2 ≤ s.toNat))
  | .strelW s _ _ => decide (s.toNat ≤ 5)
  | .strelD s _ _ => decide (s.toNat ≤ 5)
  | .atomAddW _ _ _ => true
  | .atomMinSw _ _ _ => true
  | .atomMinUw _ _ _ => true
  | .atomMaxSw _ _ _ => true
  | .atomMaxUw _ _ _ => true
  | .atomAndW _ _ _ => true
  | .atomOrW _ _ _ => true
  | .atomXorW _ _ _ => true
  | .atomExchW _ _ _ => true
  | .atomCasW _ _ _ => true
  | .atomFaddF32 _ _ _ => true
  | .atomAddD _ _ _ => true
  | .atomExchD _ _ _ => true
  | .atomCasD _ _ _ => true
  | .pfL1 _ _ => true
  | .pfL2 _ _ => true
  | .jmp _ => true
  | .callr _ _ => true
  | .ret _ => true
  | .barArr _ _ => true
  | .barWait _ _ => true
  | .barSync _ => true
  | .pbwait i _ => decide (i.toNat ≤ 1)
  | .pbarr _ _ => true
  | .xw _ => true
  | .xwp _ _ => true
  | .untag _ _ => true
  | .lnkill i a => decide (i.toNat = 1 ∨ (i.toNat = 0 ∧ a = 0))
  | .mfs i _ => decide (i.toNat ≤ 46 ∨ 64 ≤ i.toNat)
  | .mts i _ => decide (i.toNat ≤ 46 ∨ 64 ≤ i.toNat)
  | .lnq _ _ => true
  | .bcopy _ _ => true
  | .coll _ => true
  | .ewait _ => true
  | .epoll _ _ => true
  | .gpost _ _ => true
  | .ofsub _ _ => true
  | .ofwait => true
  | .ofcommit => true
  | .ofinfo _ => true
  | .accrd _ _ => true
  | .accwr _ _ => true
  | .acalloc _ _ => true
  | .acfree _ _ => true
  | .mslot _ _ s => decide (s.toNat ≤ 7)
  | .mmac b a _ => decide (a.toNat ≤ 7 ∧ b.toNat ≤ 7)
  | .mtrans a _ => decide (a.toNat ≤ 7)
  | .mperm _ a _ => decide (a.toNat ≤ 7)
  | .mrsum a _ => decide (a.toNat ≤ 7)
  | .mzero _ => true
  | .vcnt _ _ => true
  | .mwait => true
  | .mpost _ _ _ => true
  | .mdrain _ _ => true
  | .ppoint _ => true
  | .addiW _ _ _ => true
  | .andi _ _ _ => true
  | .ori _ _ _ => true
  | .xori _ _ _ => true
  | .shli _ _ _ => true
  | .shri _ _ _ => true
  | .srai _ _ _ => true
  | .cmpiEq _ _ _ => true
  | .cmpiLtSw _ _ _ => true
  | .cmpiLtUw _ _ _ => true
  | .ldiW _ _ _ => true
  | .stiW _ _ _ => true
  | .ldiD _ _ _ => true
  | .stiD _ _ _ => true
  | .ldiQ _ _ _ => true
  | .stiQ _ _ _ => true
  | .bra _ => true
  | .call _ _ => true
  | .movi _ _ => true
  | .movu _ _ => true
  | .join => true
  | .nop => true
  | .exit => true
  | .trap _ => true
  | .brk => true
  | .eret => true
  | .fence _ _ s => decide (s.toNat ≤ 5)
  | .sdrain => true
  | .wbase _ => true
  | .sleep _ => true
  | .yield => true
  | .lnon => true
  | .lnoff => true
  | .bexit _ => true
  | .fairnessTurn _ => true
  | .storeFaultDelivery _ => true
  | .transactionOverrunTrap _ => true
  | .passFaultDelivery _ => true
  | .producerComplete _ _ => true
  | .drain _ _ => true
  | .propagate _ _ => true
  | .apply _ => true
  | .refresh _ _ => true
  | .engineRead _ _ => true
  | .engineWrite _ _ => true
  | .joinDeadlockRelease _ => true
  | .pbwaitRelease _ _ => true
  | .sleepExpiry _ _ => true
  | .pageWalk _ _ => true
  | .faultRecordWrite _ => true
  | .collapse _ _ _ => true
  | .engineCommandStart _ => true
  | .scout _ _ => true
  | .copyCompletion _ => true
  | .collectiveCompletion _ _ => true
  | .orderSequencerArrival _ => true
  | .beatSeal _ => true
  | .batchExchange _ => true
  | .transactionAdmission _ => true
  | .transactionOverrun _ => true
  | .passGrant _ => true
  | .operandFetch _ _ _ _ => true
  | .chunkApplied _ _ => true
  | .mpostArrival _ _ => true
  | .tileDrain _ _ => true
  | .accumulatorSpill _ => true
  | .acallocGrant _ => true
  | .acfreeEffect _ _ => true
  | .preemptionTimeout _ => true
  | .qpost _ _ _ _ => true
  | .queueResume _ _ => true
  | .flush _ _ => true
  | .abort _ _ => true
  | .nodeDispatch _ => true
  | .nodeCompletion _ => true
  | .blockAdmission _ => true
  | .admissionReservation _ _ => true
  | .blockRetirement _ => true
  | .launchEnd _ => true
  | .latticeTimeslice _ _ => true
  | .replayGateTimeout _ _ => true
  | .measurementPass _ => true
  | .contextDestroy _ _ => true
  | .shootdown _ => true
  | .shootdownComplete _ => true
  | .fqresResume _ _ => true
  | .fqresReject _ _ => true
  | .halt _ => true
  | .resume _ => true
  | .step _ => true
  | .stepall _ => true
  | .snap _ _ => true
  | .poke _ => true
  | .preempt _ _ => true
  | .restore _ => true
  | .release _ => true
  | .hostAccess _ _ _ _ _ => true
  | .inboundAccess _ _ _ _ _ _ => true
  | .inboundTimeout _ _ => true
  | .remoteTimeout _ => true
  | .peerCompletion _ _ _ => true
  | .flitReplay _ _ => true
  | .linkRetrain _ => true
  | .heartbeat _ _ _ _ => true
  | .sessionBind _ _ => true
  | .sessionLapse _ => true
  | .sessionHalt _ => true
  | .sessionScrub _ => true
  | .getMeasurements _ => true
  | .stage _ _ _ _ _ => true
  | .activate => true
  | .componentSwitch => true
  | .create _ _ _ _ => true
  | .partitionRelease _ => true
  | .handoff _ _ _ => true
  | .allocationRecordWrite _ _ _ _ _ _ _ _ _ => true
  | .levelLower _ _ _ _ _ => true
  | .clockSwitch _ => true
  | .powerInterval _ => true
  | .droop _ => true
  | .brownoutWarning => true
  | .brownoutClear => true
  | .brownoutTimeout => true
  | .thermalInterval _ _ => true
  | .thermalCritical _ _ => true
  | .thermalTrip _ _ => true
  | .emergencySave => true
  | .emergencyImageWrite _ => true
  | .opvote _ _ => true
  | .railHoldExpiry _ _ => true
  | .railVoltageReached _ _ => true
  | .energyUpdate _ _ => true
  | .budgetPeriod => true
  | .patrolScrub _ => true
  | .uncorrectableError _ => true
  | .retirecore => true
  | .sparech => true
  | .rowrep => true
  | .lanespare => true
  | .tseal => true
  | .swapout => true
  | .transportSelfTest _ _ _ => true
  | .deviceReset => true
  | .registerWrite _ _ _ _ => true
  | .hostCompletion _ _ => true
  | .linkRetrained _ => true
  | .collectiveInboundWrite _ _ _ _ => true

/-- R128: pairs are even, quads multiples of 4. -/
def Use.aligned : Use → Bool
  | .reg _ f n _ _ => f % n == 0
  | .pred _ _ _ _ => true

/-- A prefix word's fields (R129). -/
structure PxF where
  mp : Nat
  mn : Bool
  zp : Bool
  rm : Nat
  c : Nat
  cv : Bool
  st : Bool
  ms : Nat
  rsv : Nat
  deriving DecidableEq, Repr

/-- The fields of a prefix word (R129). -/
def pxFields (w : Nat) : PxF :=
  { mp := w / 2 ^ 21 % 128, mn := w.testBit 20, zp := w.testBit 19, rm := w / 2 ^ 16 % 8, c := w / 2 ^ 9 % 128,
    cv := w.testBit 8, st := w.testBit 7, ms := w / 16 % 8, rsv := w % 16 }

/-- The fields when no prefix is present: mask p0, nothing overridden. -/
def pxAbsent : PxF := ⟨0, false, false, 0, 0, false, false, 0, 0⟩

/-- R130, R131: the instruction accepts the prefix. -/
def Row.accepts (r : Row) (p : PxF) : Bool :=
  r.px.any && (r.px.mask || (p.mp == 0 && !p.mn)) && (r.px.zero || !p.zp) && (r.px.round || p.rm == 0) &&
  (r.px.fourth || (p.c == 0 && !p.cv)) && (r.px.sat || !p.st) && (r.px.scope || p.ms == 0) &&
  decide (p.rm ≤ 4) && decide (p.ms ≤ 6) && p.rsv == 0

/-- The instruction word is legal by itself (R128, R139); `p` gives the rounding field and the fourth operand. -/
def Instr.legalWord (i : Instr) (p : PxF) : Bool :=
  i.isWord && i.row.uses.all Use.aligned && i.immOk p.rm && (!p.cv || i.row.fourth == 0 || p.c % i.row.fourth == 0)

/-- The instruction is legal on the kind of unit (R33, R140). -/
def Instr.legalOn (i : Instr) (tile : Bool) : Bool :=
  match i.row.tile with
  | .yes => true
  | .nothing => true
  | .only => tile
  | .illegal => !tile

end Sys2Proof
end

