-- ==== Sys2Proof/Config.lean ====
section
/-! DEFINITION. What the specification leaves open, as constants with no body: nothing can be proved of their
values, so a statement holds whatever they are. Each is named in the assumption log. -/

namespace Sys2Proof.Config

/-- Which enabled step comes next when nothing is laid down (R109, R36): log 3. -/
opaque schedule : Nat → Choice
/-- Nanoseconds of the device timebase that one step takes (R213): log 3. -/
opaque stepNs : Nat → Nat
/-- Front-end cycles by which other work delays a gathering (R134): log 3. -/
opaque delay : Nat → Nat
/-- Whether a ready unit's word cannot issue in this cycle, by step and unit: its operands, its gap or its fetch (R287): log 3. -/
opaque pausing : Nat → Nat → Bool
/-- Whether a too-early reader sees the new value, by step, register and lane (R137): log 7. -/
opaque seesNew : Nat → Nat → Nat → Bool
/-- Whether an `accrd` that began while a chunk was under way sees the chunk, by step and sub-block (R241): log 100. -/
opaque chunkSeen : Nat → Nat → Bool
/-- The fixed function the SFU computes, by operation and operand, inside the bound of R170: log 8. -/
opaque sfu : Nat → Word → Word

/-- The size of an element of an all-gather or a broadcast, as a power of two, by KIND (R230): log 11. -/
opaque collSize : Nat → Nat

/-- The slice groups that the MSP owns as protected memory, as a mask (R323): log 121. -/
opaque protectedGroups : Nat
/-- The base and size of a partition's driver pools, by partition and kind (R285): log 12. -/
opaque pool : Nat → Nat → Nat × Nat
/-- The count of a measured event whose occurrence is timing alone, by step, core and code (R293): log 13. -/
opaque eventCount : Nat → Nat → Nat → Nat
/-- Where the image of a block saved without a driver's address lies, by partition, launch sequence and block (R330): log 14. -/
opaque imageAt : Nat → Nat → Nat → Nat
/-- What an image does not hold of a restored block, by step and item: levels of predicates and tiles (R309): log 15. -/
opaque restored : Nat → Nat → Nat

/-- AES-256-XTS of the ports (R327): for a key, a tweak, a place in the data unit and a length in bytes, the permutation of the values
there, as exchanges of two values one after another: log 9. -/
opaque xts : Nat → Nat → Nat → Nat → List (Nat × Nat)
/-- AES Key Wrap under the key of a context, and its inverse, by partition, context and key (R326, R328): log 9. -/
opaque keyWrap : Nat → Nat → Nat → Nat
opaque keyUnwrap : Nat → Nat → Nat → Nat
/-- A value of the debug service that nothing states, by step and item: the RESULT of a command whose block is not resident, DPC and
BPIDX after HALT (R313): log 18. -/
opaque debugValue : Nat → Nat → Nat
/-- The SRC of a fault record of an inbound access, by port (R302): log 16. -/
opaque inboundSrc : Nat → Nat

/-- The 256-byte transfers that an activity asked for in the period that ends, or an exchange of the order sequencers in this step, by
step and budget (R345): log 13. -/
opaque transfers : Nat → Nat → Nat
/-- What an uncorrectable error's pattern calls for, by step and address: 1 a row repair, 2 a channel sparing (R348): log 13. -/
opaque errorPattern : Nat → Nat → Nat
/-- Errors that ECC corrected on a die, by step and die (R348): log 13. -/
opaque corrected : Nat → Nat → Nat
/-- The bytes of a transport delta report (R351): log 21. -/
opaque deltaReport : List (Nat × Nat × Nat) → List Byte
/-- The measurement of a firmware block at shipment (R331): log 9. -/
opaque firmware : Nat → Nat
/-- The digest of the partition, firewall and aperture configuration (R331): log 9. -/
opaque cfgDigest : List Nat → Nat
/-- A signature over an image's digest verifies (R332): log 9. -/
opaque verifies : Nat → Nat → Bool

end Sys2Proof.Config
end

