-- ==== Sys2Proof/Machine/Maps.lean ====
section
/-! DEFINITION. Sparse data by key: sorted association lists, and the same with a default value that
is never listed, so that equal contents are equal lists (memory, register files, tables). -/

namespace Sys2Proof.Machine

/-- A table keyed by natural numbers. -/
abbrev KMap (α : Type) := List (Nat × α)

/-- The value listed under a key. -/
def kget {α : Type} : KMap α → Nat → Option α
  | [], _ => none
  | (k', v) :: t, k => if k' = k then some v else kget t k

/-- Insert or replace, keeping the keys rising. -/
def kput {α : Type} : KMap α → Nat → α → KMap α
  | [], k, v => [(k, v)]
  | (k', v') :: t, k, v =>
    if k = k' then (k, v) :: t
    else if k < k' then (k, v) :: (k', v') :: t
    else (k', v') :: kput t k v

/-- Remove a key. -/
def kdel {α : Type} : KMap α → Nat → KMap α
  | [], _ => []
  | (k', v') :: t, k => if k' = k then kdel t k else (k', v') :: kdel t k

/-- Change the value under a key, if it is listed. -/
def kmod {α : Type} (m : KMap α) (k : Nat) (f : α → α) : KMap α :=
  match kget m k with
  | some v => kput m k (f v)
  | none => m

/-- Read with a default for keys that are not listed. -/
def sget {α : Type} (dflt : α) (m : KMap α) (k : Nat) : α :=
  (kget m k).getD dflt

/-- Write; a value equal to the default is not listed. -/
def sset {α : Type} [DecidableEq α] (dflt : α) (m : KMap α) (k : Nat) (v : α) : KMap α :=
  if v = dflt then kdel m k else kput m k v

/-- Several writes, first to last. -/
def ssets {α : Type} [DecidableEq α] (dflt : α) (m : KMap α) : List (Nat × α) → KMap α
  | [] => m
  | (k, v) :: t => ssets dflt (sset dflt m k v) t

/-- The keys of a table. -/
def kkeys {α : Type} (m : KMap α) : List Nat := m.map (·.1)
/-- The values of a table. -/
def kvals {α : Type} (m : KMap α) : List α := m.map (·.2)

/-- The keys rise strictly from above `lo`. -/
def risesFrom {α : Type} : Option Nat → KMap α → Bool
  | _, [] => true
  | none, (k, _) :: t => risesFrom (some k) t
  | some lo, (k, _) :: t => decide (lo < k) && risesFrom (some k) t

/-- The canonical form of sparse data: keys strictly rising, no entry equal to the default. -/
def canonical {α : Type} [DecidableEq α] (dflt : α) (m : KMap α) : Bool :=
  risesFrom none m && m.all (fun e => decide (e.2 ≠ dflt))

/-- The lanes of a mask, ascending. -/
def lanesOf (m : Mask) : List Nat :=
  (List.range 64).filter (fun l => m.getLsbD l)

/-- The lowest lane of a mask. -/
def lowestLane (m : Mask) : Option Nat := (lanesOf m).head?

/-- The mask of one lane. -/
def laneBit (l : Nat) : Mask := BitVec.ofNat 64 (2 ^ l)

/-- The mask of the lanes in a list. -/
def maskOf (ls : List Nat) : Mask := ls.foldl (fun m l => m ||| laneBit l) 0

/-- First element satisfying a test, with its index. -/
def findIdxD {α : Type} (p : α → Bool) : List α → Nat → Option (Nat × α)
  | [], _ => none
  | x :: t, i => if p x then some (i, x) else findIdxD p t (i + 1)

/-- The element of least key, the first on a tie. -/
def leastBy {α : Type} (key : α → Nat) : List α → Option α
  | [] => none
  | x :: t =>
    match leastBy key t with
    | none => some x
    | some y => if key y < key x then some y else some x

/-- Replace list elements that satisfy a test. -/
def replaceIf {α : Type} (p : α → Bool) (f : α → α) (xs : List α) : List α :=
  xs.map (fun x => if p x then f x else x)

/-- The bytes of a number, little-endian (R6). -/
def bytesLE : Nat → Nat → List Byte
  | 0, _ => []
  | n + 1, v => BitVec.ofNat 8 v :: bytesLE n (v / 256)

/-- A number from its bytes, little-endian (R6). -/
def natLE : List Byte → Nat
  | [] => 0
  | b :: t => b.toNat + 256 * natLE t

/-- Bits [hi:lo] of a number. -/
def bits (v hi lo : Nat) : Nat := v / 2 ^ lo % 2 ^ (hi - lo + 1)

/-- A number with bits [hi:lo] replaced. -/
def setBits (v hi lo x : Nat) : Nat :=
  v - bits v hi lo * 2 ^ lo + (x % 2 ^ (hi - lo + 1)) * 2 ^ lo

/-- Distinct elements, keeping the first of each. -/
def dedup {α : Type} [DecidableEq α] : List α → List α
  | [] => []
  | x :: t => x :: (dedup t).filter (· ≠ x)

end Sys2Proof.Machine
end

