-- ==== Sys2Proof/Machine/Regs.lean ====
section
/-! DEFINITION. The memory-mapped registers by name, with their widths and reset values
(R276, R278, R286, R291, R292, R301, R313, R321, R325, R342, R343, R346, R348). -/

namespace Sys2Proof.Machine

/-- The registers of a launch queue (R276). FREE is computed from the ring. -/
inductive QReg where
  | part | prio | en | ctx | halt | ovf | qerr | qerrNode
  deriving DecidableEq, Repr

/-- The registers of a partition: measurement (R291), format windows (R292), translation (R301),
debug (R313), apertures (R321), security (R325), power (R342), budgets (R346). -/
inductive PReg where
  | beatp | nevt | evt (i : Nat) | capBase | capSize | resBase | done | mismatch | capFull
  | fwView (w : Nat) | fwEn (w : Nat) | fwElems (w : Nat) | fwRowLen (w : Nat) | fwScaleG (w : Nat)
  | fwStore (w : Nat) | fwScale (w : Nat)
  | ctxTab | ctxCount | fqBase | fqSize | fqHead | fqTail | fqVec | fqrCtx
  | sdVa | sdLen | sdCtx | sdAll | sdBusy
  | dcmd | dseq | dctx | dblock | dwarp | daddr | dstate | dresult | dstop | dbpIdx | dpc
  | dbpEn (i : Nat) | dbpPc (i : Nat)
  | apObase (a : Nat) | apEn (a : Nat) | apPerm (a : Nat) | apLevel (a : Nat) | apOlen (a : Nat)
  | apVabase (a : Nat) | apCtx (a : Nat)
  | conf | sstate | peerLevel | hbPeriod | hbGrace | hbRetain | lastHb | hBase | hLen
  | iflBase | iflSize | iflTail | iflHead | iflLost | fwRefused
  | opVote | energy | ePeriod
  | d2d | hylis | host | d2dStall | hylisStall | hostStall
  deriving DecidableEq, Repr

/-- The registers of the device: power (R343), budgets (R346), service (R348), lattice map (R286), the
fabric's time-out (R319). -/
inductive DReg where
  | plimit | grants | temp (d : Nat) | thCap (d : Nat) | pwrCap | railMv (k : Nat) | droopCnt
  | saveBase | saveLen | saveDone | brownout
  | collapse | scrub | bist | ofx
  | svcCmd | svcArg | svcNow | svcState | svcResult | sealed | testing | delta | repBase
  | ceCount (d : Nat) | ueCount (d : Nat) | coreSpares (d : Nat) | chSpares (s : Nat) | rowReps (s : Nat)
  | lanesLeft (k : Nat) | retrains
  | lmPhys (l : Nat) | lmShared (l : Nat)
  | fTimeout
  deriving DecidableEq, Repr

/-- Every register of the device. -/
inductive Reg where
  | q (i : Nat) (f : QReg)
  | p (n : Nat) (f : PReg)
  | d (f : DReg)
  | ntfBase (fn : Nat)
  | ratio (cl : Nat)
  deriving DecidableEq, Repr

/-- The reset value of a partition's register. -/
def PReg.reset : PReg → Nat
  | .beatp => 2
  | .hbPeriod => 1000
  | .hbGrace => 50
  | .hbRetain => 10
  | .opVote => 7
  | .ePeriod => 10
  | .d2d | .hylis | .host => 0xFFFFFFFF
  | _ => 0

/-- The reset value of a device register. TEMP, RAILMV, CORESPARES, and the lattice map are set at shipment
or have none: DESIGN CHOICE, log 5. FTIMEOUT is 20 ms, held in nanoseconds. -/
def DReg.reset : DReg → Nat
  | .plimit => 1800
  | .grants => 32
  | .thCap _ => 7
  | .pwrCap => 7
  | .collapse => 1024
  | .scrub => 256
  | .bist => 128
  | .ofx => 512
  | .chSpares _ => 8
  | .rowReps _ => 64
  | .lanesLeft k => if k < 20 then 2 else 4
  | .lmPhys l => l % 192
  | .railMv k => if k % 5 = 4 then 0 else 860
  | .fTimeout => 20000000
  | _ => 0

/-- The reset value of every register. -/
def Reg.reset : Reg → Nat
  | .q _ _ => 0
  | .p _ f => f.reset
  | .d f => f.reset
  | .ntfBase _ => 0
  | .ratio _ => 1

/-- The register file: the registers that do not hold their reset value. -/
abbrev RegFile := List (Reg × Nat)

/-- Read a register. -/
def RegFile.get : RegFile → Reg → Nat
  | [], r => r.reset
  | (r', v) :: t, r => if r' = r then v else RegFile.get t r

/-- Drop a register from the list, back to its reset value. -/
def RegFile.drop : RegFile → Reg → RegFile
  | [], _ => []
  | (r', v) :: t, r => if r' = r then RegFile.drop t r else (r', v) :: RegFile.drop t r

/-- Write a register. A register at its reset value is not listed. -/
def RegFile.set (f : RegFile) (r : Reg) (v : Nat) : RegFile :=
  if v = r.reset then f.drop r else (r, v) :: f.drop r

end Sys2Proof.Machine
end

