-- ==== Sys2Proof/Machine/Types.lean ====
section
/-! DEFINITION. The pieces of state as plain data: frontier entries, warps, blocks, launches, cores,
engines, transactions, matrix commands, dispatcher nodes, partitions and the device's services. -/

namespace Sys2Proof.Machine

/-- Where a byte lives: physical memory (device or host bus, R323), a block's scratchpad, or a peer (R104). -/
inductive Loc where
  | mem (pa : Nat)
  | spad (blk off : Nat)
  | peer (n off : Nat)
  deriving DecidableEq, Repr

/-- Why an entry waits (R21, R26): the instruction that waits, with what it waits for. -/
inductive WaitCause where
  | join
  | bar (id : Nat)
  | pbwait (a : Nat) (ph : Bool) (scope : Nat)
  | ewait (ticket : Word)
  | ofwait
  | ofinfo
  | mwait
  | sleep (wake : Nat)
  | acalloc (d n : Nat)
  | ppoint (mask : Nat)
  | ext (r : Nat)
  deriving DecidableEq, Repr

/-- Why an entry is parked (R27, R273). -/
inductive ParkCause where
  | driver (page acc : Nat)
  | handler
  | diverged
  deriving DecidableEq, Repr

inductive EntSt where
  | ready
  | waiting (c : WaitCause)
  | parked (c : ParkCause)
  deriving DecidableEq, Repr

/-- A frontier entry (R21). -/
structure Entry where
  pc : DWord
  mask : Mask
  st : EntSt
  /-- when it last issued, for the fairness turn (R32) -/
  stamp : Nat
  /-- the next issue at this PC does not match a breakpoint (R315) -/
  bpSkip : Bool
  /-- where a waiting entry becomes ready when its wait ends (R26); for lanes parked on a driver-class fault, the
  address at fault -/
  next : DWord
  deriving DecidableEq, Repr

/-- One byte of a pending write; `loc` is none while its translation is open (R118). Bytes of one `unit` are written whole, in one
step (R115). -/
structure QByte where
  va : Nat
  loc : Option Loc
  val : Byte
  cls : Nat
  unit : Nat
  deriving DecidableEq, Repr

/-- An entry of a store queue Q[t] (R108): bytes, the scope of a release, or a stores-only fence (no bytes). -/
structure QEntry where
  bytes : List QByte
  rel : Option Nat
  walk : Option Nat
  level : Nat
  pc : DWord
  /-- the instruction it belongs to: one record reports its failures (R306) -/
  iid : Nat
  /-- the `xw` whose group that is, 0 outside one (R209) -/
  run : Nat
  deriving DecidableEq, Repr

/-- A store whose translation is open (R118, R306). -/
structure Posted where
  id : Nat
  pc : DWord
  vas : KMap Nat
  width : Nat
  need : Bool
  level : KMap Nat
  /-- pages the driver has refused it (R303) -/
  rejected : List Nat
  deriving DecidableEq, Repr

/-- A result that its fixed latency has not delivered yet (R134, R137): the register, or a predicate by `predKey`. `ready` is
the cycle from which a covered reader may gather; `avail` the one an interlocked reader waits for, earlier where the result was
attached (R68, R135). -/
structure Hazard where
  reg : Nat
  ready : Nat
  avail : Nat
  old : KMap Word
  deriving DecidableEq, Repr

/-- The value-store entry a register is mapped to (R69, R81). -/
structure LinMap where
  eid : Nat
  member : Nat
  attached : Bool
  deriving DecidableEq, Repr

/-- A group of an issue-register instruction (R207). -/
structure XwGroup where
  word : Word
  pfx : Word
  mask : Mask
  depth : Nat
  deriving DecidableEq, Repr

/-- An `xw` in progress (R207, R209): groups still to issue, bad lanes and their words. -/
structure XwRun where
  id : Nat
  pc : DWord
  npc : DWord
  mask : Mask
  groups : List XwGroup
  bad : Mask
  badWord : Word
  deriving DecidableEq, Repr

/-- A warp, or a tile context as a warp of one lane (R11, R33). -/
structure Warp where
  blk : Nat
  tile : Bool
  wid : Nat
  role : Nat
  slot : Nat
  quarter : Nat
  budget : Nat
  frontier : List Entry
  wbase : Nat
  mods : KMap Word
  lnOn : Bool
  fair : Nat
  turn : Option Nat
  trap : KMap Word
  hlanes : Mask
  regs : KMap Word
  preds : KMap Mask
  flags : KMap (BitVec 5)
  lin : KMap LinMap
  written : KMap Bool
  rlev : KMap Nat
  plev : KMap Nat
  clk : Nat
  queues : KMap (List QEntry)
  posted : List Posted
  sdrain : Bool
  xw : Option XwRun
  gather : Nat
  haz : List Hazard
  /-- the next instruction is interlocked, whatever covers it (R136) -/
  locked : Bool
  tx : Option Nat
  postmark : Option Nat
  overrunTrap : Bool
  passFaults : List (Nat × Nat × Nat × Nat)
  ended : Bool
  deriving DecidableEq, Repr

/-- A named barrier (R201, R309). -/
structure Bar where
  arrived : Nat
  expect : Nat
  sync : Bool
  deriving DecidableEq, Repr

/-- A tensor record's fields (R219). -/
structure Tensor where
  base : Nat
  fmt : Nat
  rank : Nat
  scaleg : Nat
  order : Nat
  dims : List Nat
  strides : List Nat
  scaleBase : Nat
  scaleStride : Nat
  deriving DecidableEq, Repr

/-- An accumulator tile of a block (R240, R242, R243, R248). -/
structure Tile where
  data : KMap (BitVec 40)
  level : Nat
  freeing : Bool
  spilled : Bool
  /-- the elements that the chunk applied last has changed, as they were before it, and the `accrd`s that began meanwhile: unit and
  when its entry last issued (R241) -/
  back : KMap (BitVec 40)
  readers : List (Nat × Nat)
  deriving DecidableEq, Repr

/-- A matrix slot (R245). -/
structure Slot where
  t : Tensor
  row : Nat
  col : Nat
  deriving DecidableEq, Repr

structure Block where
  launch : Nat
  bid : Nat
  core : Nat
  spadBase : Nat
  privBase : Nat
  warps : List Nat
  tctx : Option Nat
  spad : KMap Byte
  spLev0 : Nat
  spLev : KMap Nat
  bars : KMap Bar
  tiles : KMap Tile
  slots : KMap Slot
  vm : Nat
  vn : Nat
  vk : Nat
  accWait : Option Nat
  ended : Bool
  /-- the compare-and-swap of a `bexit` that waits for the driver: the page and the code (R216, R302) -/
  errWait : Option (Nat × Nat)
  /-- the code of a `bexit` whose compare-and-swap waits at the replay gate (R273) -/
  errGate : Option Nat
  stopped : Bool
  /-- a pre-emption is pending (R310), since when, and whether the tile context is taken without a `ppoint` (R249) -/
  preempt : Bool
  preemptAt : Nat
  tileStop : Bool
  /-- its accumulator save area (R243, R285) -/
  saveBase : Nat
  deriving DecidableEq, Repr

/-- A level of the launch hierarchy (R13). -/
structure Level where
  size : Nat
  domain : Nat
  scope : Nat
  deriving DecidableEq, Repr

/-- A role of a launch (R18). -/
structure Role where
  warps : Nat
  budget : Nat
  entryOff : Nat
  deriving DecidableEq, Repr

/-- The launch record (R274). -/
structure LaunchRec where
  entry : Nat
  tentry : Nat
  param : Nat
  levels : List Level
  det : Bool
  replay : Bool
  record : Bool
  overcommit : Bool
  checkstall : Bool
  measure : Bool
  prio : Nat
  roles : List Role
  spad : Nat
  priv : Nat
  bars : Nat
  accmax : Nat
  frspill : Nat
  ofbudget : Nat
  sigaddr : Nat
  sigval : Nat
  erraddr : Nat
  trapentry : Nat
  logbase : Nat
  logsize : Nat
  deriving DecidableEq, Repr

/-- An open chunk of atomic order (R271). -/
structure Chunk where
  loc : Nat
  va : Nat
  lcore : Nat
  warp : Nat
  run : Nat
  deriving DecidableEq, Repr

/-- An element that a hash takes: the walk and lane it waits for, how many elements it counts, its address and data words. -/
abbrev HashItem := Option Nat × Nat × List (Nat × Nat)

/-- A retired-store hash, of one launch on one core (R272, R290): folded prefix, count, and the items
behind a store whose translation is open, instruction by instruction. -/
structure Hash where
  h : Word
  count : Nat
  items : List (List HashItem)
  deriving DecidableEq, Repr

/-- Where a block's areas lie in the driver's pools: frontier spill, private windows, accumulator save area; the
block that has them now (R285, R288). -/
structure Area where
  spill : Nat
  priv : Nat
  save : Nat
  bid : Option Nat
  deriving DecidableEq, Repr

/-- What the device keeps of a saved block beside its image (R310): the identities of the block, its warps and tile context, and
the pass faults that have not been delivered (R244). -/
structure SavedBlk where
  blk : Nat
  us : List Nat
  tctx : Option Nat
  passFaults : List (Nat × Nat × Nat × Nat)
  deriving DecidableEq, Repr

structure Launch where
  part : Nat
  ctx : Nat
  recAddr : Nat
  lr : LaunchRec
  seq : Nat
  node : Option Nat
  nextBlk : Nat
  retired : Nat
  /-- its saved blocks, by linear identifier (R310) -/
  saved : KMap SavedBlk
  waitFrom : Option Nat
  reserved : Option Nat
  beat0 : Option Nat
  beatLen : Nat
  diverged : Bool
  overflow : List Nat
  chunks : KMap (List Chunk)
  cursor : KMap Nat
  /-- atomics that wait at a replay gate, by unit: since when, the die, the location (R273) -/
  gates : KMap (Nat × Nat × Nat)
  aborted : Bool
  pass : Nat
  captured : List Nat
  counters : KMap Nat
  oldHash : KMap Word
  /-- the first pass's hash of old values at each block's retirement (R293) -/
  oldHash1 : KMap Word
  /-- its areas in the driver's pools (R285, R288) -/
  areas : List Area
  /-- the units its blocks have had (R288) -/
  units : List Nat
  /-- the capture area filled in its first pass (R293) -/
  capFull : Bool
  /-- the request that carries its signal (R288) -/
  sig : Option Nat
  /-- the die of each die-domain unit that has had a block (R15, R284) -/
  unitDies : KMap Nat
  ended : Bool
  deriving DecidableEq, Repr

/-- Where a dirty byte comes from: its launch, warp and virtual address, for the order log (R116, R289), and the unit it is
written whole with, 0 for none (R115). -/
structure ByteOrig where
  launch : Option Nat
  warp : Nat
  va : Nat
  unit : Nat
  deriving DecidableEq, Repr

/-- A line of a core view (R108): present and dirty bits per byte, the data, the origins of dirty bytes, the page class. -/
structure CvLine where
  present : BitVec 128
  dirty : BitVec 128
  data : BitVec 1024
  orig : KMap ByteOrig
  cls : Nat
  ctx : Nat
  deriving DecidableEq, Repr

/-- A line of a die's remote-data cache (R108). -/
structure RcLine where
  data : BitVec 1024
  deriving DecidableEq, Repr

/-- A lineage key (R63). Each source is the entry number of a register read. -/
structure LinKey where
  part : Nat
  ctx : Nat
  level : Nat
  word : Word
  pfx : Word
  mask : Mask
  root : Word
  sources : List Nat
  deriving DecidableEq, Repr

/-- A value-store entry (R70). -/
structure VsEntry where
  num : Nat
  key : LinKey
  pending : Bool
  inLookup : Bool
  members : Nat
  flags : KMap (BitVec 5)
  root : BitVec 64
  stamp : Nat
  deriving DecidableEq, Repr

/-- A watch slot: its context and the 128-byte lines or scratchpad units it covers (R73). -/
structure Watch where
  part : Nat
  ctx : Nat
  lines : List Nat
  units : List Nat
  deriving DecidableEq, Repr

/-- A store-fault record (R306). -/
structure SfRec where
  pc : DWord
  va : Nat
  lanes : Mask
  u : Nat
  cause : Nat
  seq : Nat
  /-- some of its lanes have taken its trap, so the others take it too (R268) -/
  begun : Bool
  deriving DecidableEq, Repr

structure Core where
  cv : KMap CvLine
  vs : KMap VsEntry
  watches : KMap Watch
  sfq : List SfRec
  sfSeq : Nat
  hashes : KMap Hash
  /-- shared lines that a waiting cluster-scope release found dirty: other views of the cluster still owe their refresh (R112) -/
  owed : List Nat
  deriving DecidableEq, Repr

/-- The place of a translation cache (R299). -/
inductive TlbAt where
  | core (c : Nat)
  | cluster (k : Nat)
  | fetch (k : Nat)
  | engine (e : Nat)
  /-- a die's walk cache: table entries -/
  | walk (d : Nat)
  /-- no cache: the translations used since the last shootdown of their pages (model's own, R300; log 6) -/
  | used
  deriving DecidableEq, Repr

/-- A cached translation: virtual base, size in bits, the leaf; in a walk cache a table entry and the span it maps. -/
structure TlbEntry where
  at_ : TlbAt
  part : Nat
  ctx : Nat
  base : Nat
  szBits : Nat
  pte : Nat
  pteAt : Nat
  deriving DecidableEq, Repr

/-- A write in a merge stage (R108, R116), oldest first in its list. -/
structure MsWrite where
  pa : Nat
  val : Byte
  wid : Nat
  warp : Nat
  va : Nat
  launch : Option Nat
  eng : Bool
  unit : Nat
  deriving DecidableEq, Repr

/-- An entry of a range-lock table (R120). -/
structure RlEntry where
  part : Nat
  ctx : Nat
  lo : Nat
  hi : Nat
  dst : Bool
  cmd : Nat
  deriving DecidableEq, Repr

/-- An access outstanding at a peer or at the host (R320, R112). `answer` holds the bytes or the error. -/
structure ExtReq where
  u : Nat
  part : Nat
  /-- the launch it belongs to (R288) -/
  launch : Option Nat
  peer : Option Nat
  wr : Bool
  off : Nat
  data : List Byte
  n : Nat
  since : Nat
  pc : DWord
  lane : Nat
  va : Nat
  iid : Nat
  held : Bool
  answer : Option (Nat × List Byte)
  deriving DecidableEq, Repr

/-- An engine command (R220, R223, R226, R230). -/
structure Cmd where
  id : Nat
  coll : Bool
  ticket : Nat
  part : Nat
  ctx : Nat
  core : Nat
  launch : Option Nat
  node : Option Nat
  blk : Option Nat
  /-- the unit that issued it -/
  u : Option Nat
  src : Tensor
  dst : Tensor
  origin : List Nat
  extent : List Nat
  dorigin : List Nat
  mode : Nat
  scout : Nat
  done : Nat
  doneCount : Nat
  gather : Nat
  ckind : Nat
  root : Nat
  nranks : Nat
  myrank : Nat
  csrc : Nat
  cdst : Nat
  count : Nat
  group : List Nat
  status : Nat
  rd : KMap (Nat × Nat)
  idx : KMap Nat
  wrote : List Nat
  scouted : List Nat
  paused : Option Nat
  /-- pages the driver has refused it (R303) -/
  rejected : List Nat
  stop : Option (Nat × Nat × Nat)
  /-- when it started, for the fabric's time-out (R230) -/
  since : Nat
  deriving DecidableEq, Repr

/-- A finished command, for `ewait` and `epoll` (R229). -/
structure Finished where
  part : Nat
  ctx : Nat
  ticket : Nat
  status : Nat
  cause : Nat
  addr : Nat
  info : Nat
  deriving DecidableEq, Repr

structure Engine where
  queue : List Cmd
  run : Option Cmd
  seq : Nat
  fin : List Finished
  deriving DecidableEq, Repr

inductive TxSt where
  | flight
  | seated
  | sealed
  | queued
  | admitted
  | overrun
  deriving DecidableEq, Repr

/-- An order-first transaction (R233–R239). -/
structure Tx where
  part : Nat
  ctx : Nat
  launch : Nat
  bid : Nat
  wid : Nat
  u : Nat
  lcore : Nat
  decl : Nat
  tag : Nat
  wr : List Nat
  rd : List Nat
  /-- the same granules by physical address, for the home slices (R236) -/
  wrP : List Nat
  rdP : List Nat
  die : Nat
  /-- the handle (R234), by which an image names the transaction (R309) -/
  handle : Nat
  seat : Nat
  beat : Nat
  start : Nat
  /-- the overrun trap became due while the warp was saved (R239); so did the acquire of its admission (R236) -/
  trapDue : Bool
  acqDue : Bool
  st : TxSt
  since : Nat
  held : KMap Byte
  deriving DecidableEq, Repr

/-- A die's order sequencer (R234, R267): its submission count, and for each partition and beat length
(`beatKey`) the start of the open beat in nanoseconds of the timebase and the next seat in it. -/
structure DieSeq where
  count : Nat
  openAt : KMap Nat
  seats : KMap Nat
  deriving DecidableEq, Repr

inductive MKind where
  | mmac
  | mtrans
  | mperm
  | mrsum
  | mzero
  | mpost
  | mdrain
  | acfree
  deriving DecidableEq, Repr

/-- A command of a matrix engine's reservation table (R244–R248). -/
structure MCmd where
  id : Nat
  blk : Nat
  u : Nat
  kind : MKind
  tile : Nat
  tiles : List Nat
  prio : Nat
  pc : DWord
  a : Option Slot
  b : Option Slot
  m : Nat
  n : Nat
  k : Nat
  perm : List Nat
  fa : KMap Nat
  fb : KMap Nat
  sa : KMap Nat
  sb : KMap Nat
  sub : List Nat
  /-- the highest level of the operands read (R248) -/
  lev : Nat
  granted : Bool
  void : Bool
  paused : Option Nat
  /-- pages the driver has refused it (R303) -/
  rejected : List Nat
  addr : Nat
  cnt : Nat
  out : Tensor
  trow : Nat
  tcol : Nat
  scale : Word
  amax : Bool
  scope : Nat
  zero : Bool
  absmax : Nat
  done : Nat
  deriving DecidableEq, Repr

structure MEngine where
  table : List MCmd
  deriving DecidableEq, Repr

/-- A dependence-graph node in flight (R224, R280–R282). -/
structure Node where
  addr : Nat
  q : Nat
  prio : Nat
  order : Nat
  posted : Bool
  running : Bool
  /-- its declared ranges, as its record held them when it entered; none until the record can be read (R282) -/
  ranges : Option (List (Nat × Nat × Bool))
  kind : Nat
  target : Nat
  value : Nat
  queue : Nat
  /-- of a sub-graph: the nodes reached that have not completed, by context and address (R281) -/
  reach : List (Nat × Nat)
  finished : Bool
  faulted : Bool
  stopCode : Nat
  deriving DecidableEq, Repr

/-- A driver-class fault outstanding on a page (R302). -/
structure Outst where
  ctx : Nat
  page : Nat
  va : Nat
  kind : Nat
  acc : Nat
  src : Nat
  unit : Nat
  recorded : Bool
  deriving DecidableEq, Repr

/-- An allocation record (R326). -/
structure AllocRec where
  base : Nat
  len : Nat
  ctx : Nat
  keyid : Nat
  slevel : Nat
  valid : Bool
  wrap : Nat
  deriving DecidableEq, Repr

/-- An inbound access waiting for the driver (R321). -/
structure Inb where
  id : Nat
  port : Nat
  peer : Nat
  off : Nat
  acc : Nat
  n : Nat
  data : List Byte
  ap : Nat
  /-- the page it waits for; none while it waits for the host -/
  page : Option Nat
  since : Nat
  deriving DecidableEq, Repr

/-- A driver pool (R285): base and size. -/
structure Pool where
  base : Nat
  size : Nat
  deriving DecidableEq, Repr

/-- A partition's state beside its registers. -/
structure Part where
  created : Bool
  clusters : Nat
  groups : Nat
  outst : List Outst
  faultSeq : Nat
  lseq : Nat
  held : List Nat
  running : List Nat
  key : Option Nat
  lastCtr : Nat
  inb : List Inb
  spill : Pool
  privPool : Pool
  save : Pool
  allocs : KMap AllocRec
  stepping : List (Nat × Nat × Mask)
  /-- blocks saved because the session lapsed: launch, linear identifier (R330) -/
  lapseSaved : List (Nat × Nat)
  deriving DecidableEq, Repr

/-- Rail state (R341): target in mV, end of the 2 ms hold, start of the slew. -/
structure Rail where
  target : Nat
  holdTill : Option Nat
  since : Nat
  deriving DecidableEq, Repr

/-- Power, clock and thermal state beside the registers (R334–R344). -/
structure Power where
  /-- the ratio and operating point that each cluster's clocks run at (R334, R335) -/
  effRatio : KMap Nat
  effOp : KMap Nat
  /-- core rails, by 5 × die + rail -/
  rails : KMap Rail
  /-- every clock stands at the hold point (R338, R340) -/
  holdPoint : Bool
  /-- since when the brown-out warning has lasted -/
  brownSince : Option Nat
  /-- since when every sensor of a die reads below 90 °C, or since its cap last rose (R339) -/
  cool : KMap Nat
  /-- an emergency save runs or has run, the bytes of the images written, the blocks left out, its end (R340) -/
  emerg : Bool
  nextImage : Nat
  skipped : List Nat
  halted : Bool
  /-- when power was last measured, when a die's cap was last lowered, when a partition's ENERGY was last updated -/
  powerAt : Nat
  thermAt : KMap Nat
  energyAt : KMap Nat
  deriving DecidableEq, Repr

/-- Firmware activation and measurement state (R331–R333). -/
structure Firmware where
  actseq : Nat
  /-- the secured session of the physical function: its tenant key (R329) -/
  session : Option Nat
  /-- the staged image: components with their new measurements, its digest, its security version -/
  staged : Option (List (Nat × Nat) × Nat × Nat)
  /-- measurements that differ from those at shipment -/
  running : KMap Nat
  secver : Nat
  /-- the components still to switch, in order -/
  switching : List (Nat × Nat)
  /-- the responses sent: index, blocks, ACTSEQ, STAGED -/
  replies : List (Nat × List Nat × Nat × Nat)
  deriving DecidableEq, Repr

/-- Fabric state (R319): own number, routes, links out of training, flits sent again. -/
structure Fabric where
  me : Nat
  routes : KMap Nat
  down : List Nat
  replays : KMap Nat
  deriving DecidableEq, Repr

/-- Fleet services (R345–R352). -/
structure Fleet where
  /-- when the running budget period began; by budget (`budgetReg`), the limits in it and the transfers asked for; where the patrol
  scrub stands (R345, R346) -/
  period : Nat
  budgets : KMap Nat
  used : KMap Nat
  scrubAt : Nat
  /-- lines whose data is lost and which are retired (R348) -/
  lost : List Nat
  /-- repairs: what (1 core, 2 channel, 3 row, 4 lane), where, which (R349) -/
  repaired : List (Nat × Nat × Nat)
  /-- channels and lanes that spares stand in for (R349) -/
  moved : KMap Nat
  laneMap : KMap Nat
  /-- the transport baselines: lanes, repairs, the lattice map (R351) -/
  baseline : Option (List (Nat × Nat) × List (Nat × Nat × Nat) × List Nat)
  /-- logical cores switched out of a shared physical core, and when each such core last switched, by die × 192 + PHYS (R286) -/
  inactive : List Nat
  sliceAt : KMap Nat
  /-- blocks that a core's retirement or a swap has saved: launch, linear identifier; the logical cores that keep their resources for
  them (R349) -/
  retired : List (Nat × Nat)
  retiring : List Nat
  /-- a swap: 0 none, 1 copy, 2 stop, 3 switched; its destination (R350) -/
  swapPhase : Nat
  swapTo : Option Nat
  /-- the transport delta report: what, which, whether it was repaired (R351) -/
  report : List (Nat × Nat × Nat)
  deriving DecidableEq, Repr

/-- Answers the device gives to the outside: completions to the host and to peers, raised vectors. -/
structure Outbox where
  /-- completions to the host: poison or abort, the bytes -/
  host : List (Bool × List Byte)
  /-- to a peer: its number, the code or element, the bytes -/
  peers : List (Nat × Nat × List Byte)
  msix : List (Nat × Nat)
  errIrq : List Nat
  /-- the indexes of allocation records that the MSP has returned to the driver (R326) -/
  msp : List Nat
  /-- what a swap has sent to another device: its number, the partition, the bytes (R350) -/
  bus : List (Nat × Nat × List Byte)
  deriving DecidableEq, Repr

/-- The issue latch: the word being issued (R22), its prefix, its place and its active mask. -/
structure Issue where
  u : Nat
  pc : DWord
  wpc : DWord
  npc : DWord
  word : Word
  pfx : Option Word
  mask : Mask
  count : Option Nat
  depth : Nat
  /-- what an attempt that does not issue gives back: when the entry last issued, and the interlock (R32, R136) -/
  stamp : Nat
  locked : Bool
  deriving DecidableEq, Repr

end Sys2Proof.Machine
end

