-- ==== Sys2Proof/Machine/State.lean ====
section
/-! DEFINITION. The state of the machine as plain data, the reasons a step can stop, and the state after
reset. -/

namespace Sys2Proof.Machine

/-- The state of the device and of every agent of it. -/
structure State where
  /-- which steps come next; when empty the schedule is free (model's own, log 3) -/
  agenda : List Choice
  /-- steps taken (model's own, log 3) -/
  stepNo : Nat
  /-- the next unused identity (model's own, log 3) -/
  nextUid : Nat
  /-- module power (R339, R344) -/
  powered : Bool
  /-- device timebase in nanoseconds (R213) -/
  timebase : Nat
  /-- the issue latch (R22; log 4) -/
  cur : Option Issue
  /-- warps and tile contexts (R11, R33), by identity -/
  warps : KMap Warp
  /-- blocks (R14), by identity -/
  blocks : KMap Block
  /-- launches (R274), by identity -/
  launches : KMap Launch
  /-- logical cores (R3), by number; an unlisted core is empty -/
  cores : KMap Core
  /-- the home view H: device and host memory (R108, R323), by physical address -/
  mem : List Host.Cell
  /-- remote-data caches RC of the four dies (R108): die, then line -/
  rc : KMap (KMap RcLine)
  /-- merge stages MS (R108), in order of arrival -/
  ms : List MsWrite
  /-- range-lock tables RL (R120), by die, then entry 0–255 -/
  rl : KMap (KMap RlEntry)
  /-- release owner of a line (R113) -/
  relOwner : KMap Nat
  /-- accesses outstanding at peers and at the host (R320, R112) -/
  ext : KMap ExtReq
  /-- translation caches (R299) -/
  tlb : List TlbEntry
  /-- block-transfer engines (R225), by number -/
  engines : KMap Engine
  /-- order-first transactions (R233), by identity -/
  txs : KMap Tx
  /-- order sequencers (R234), by die -/
  seqs : KMap DieSeq
  /-- matrix engines (R244), by cluster -/
  mengs : KMap MEngine
  /-- dependence-graph nodes in flight (R280), by identity -/
  nodes : KMap Node
  /-- rings of the launch queues (R276), by queue -/
  rings : KMap (List Nat)
  /-- memory-mapped registers (R276 to R348) -/
  regs : RegFile
  /-- partitions, by number -/
  parts : KMap Part
  /-- power, clocks and thermal control (R334 to R344) -/
  power : Power
  /-- firmware activation and measurement (R331 to R333) -/
  fw : Firmware
  /-- the Hylis fabric (R319) -/
  fabric : Fabric
  /-- fleet services (R345 to R352) -/
  fleet : Fleet
  /-- what the device has sent to the outside -/
  out : Outbox
  deriving DecidableEq, Repr

/-- Why the machine stops with a fault. -/
inductive Fault where
  /-- Raised by `step` alone, when a step other than a device reset is due without module power (R339, R344):
  safe, the hardware does nothing then. -/
  | powerOff
  deriving DecidableEq, Repr

/-- Why the model refuses. -/
inductive Refusal where
  /-- Raised by an arm of `exec` for an instruction without a meaning: safe. -/
  | notModelled (mnemonic : String)
  deriving DecidableEq, Repr

/-- The machine right after reset: no partition, no launch, empty queues and caches, every register at its
reset value (log 5 names the values the specification does not give). -/
def State.reset : State where
  agenda := []
  stepNo := 0
  nextUid := 0
  powered := true
  timebase := 0
  cur := none
  warps := []
  blocks := []
  launches := []
  cores := []
  mem := []
  rc := []
  ms := []
  rl := []
  relOwner := []
  ext := []
  tlb := []
  engines := []
  txs := []
  seqs := []
  mengs := []
  nodes := []
  rings := []
  regs := []
  parts := []
  power := { effRatio := [], effOp := [], rails := [], holdPoint := false, brownSince := none, cool := [],
             emerg := false, nextImage := 0, skipped := [], halted := false, powerAt := 0, thermAt := [], energyAt := [] }
  fw := { actseq := 0, session := none, staged := none, running := [], secver := 0, switching := [], replies := [] }
  fabric := { me := 0, routes := [], down := [], replays := [] }
  fleet := { period := 0, budgets := [], used := [], scrubAt := 0, lost := [], repaired := [], moved := [], laneMap := [],
             baseline := none, inactive := [], sliceAt := [], retired := [], retiring := [], swapPhase := 0, swapTo := none, report := [] }
  out := { host := [], peers := [], msix := [], errIrq := [], msp := [], bus := [] }

end Sys2Proof.Machine
end

