-- ==== Sys2Proof/Machine/Access.lean ====
section
/-! DEFINITION. Reading and writing the pieces of the state; the geometry of the device (R2, R3, R323); the bytes of
memory. -/

namespace Sys2Proof.Machine

abbrev Out := Host.Outcome State Fault Refusal

def State.reg (s : State) (r : Reg) : Nat := s.regs.get r
def State.setReg (s : State) (r : Reg) (v : Nat) : State := { s with regs := s.regs.set r v }
/-- A register of a partition. -/
def State.preg (s : State) (n : Nat) (f : PReg) : Nat := s.regs.get (.p n f)
def State.setPreg (s : State) (n : Nat) (f : PReg) (v : Nat) : State := s.setReg (.p n f) v
/-- The state of a partition's session now (R330): what SSTATE holds, or what the time since the last heartbeat has made of it, whether
or not the MSP has come to it yet. -/
def State.sess (s : State) (p : Nat) : Nat :=
  let st := s.preg p .sstate
  let l := s.preg p .lastHb + s.preg p .hbPeriod * 1000000
  if st = 0 ∨ 4 ≤ st ∨ s.timebase < l then st
  else if s.timebase < l + s.preg p .hbGrace * 1000000 then max st 2
  else max st 3
def State.dreg (s : State) (f : DReg) : Nat := s.regs.get (.d f)
def State.setDreg (s : State) (f : DReg) (v : Nat) : State := s.setReg (.d f) v

def State.setWarp (s : State) (u : Nat) (w : Warp) : State := { s with warps := kput s.warps u w }
def State.modWarp (s : State) (u : Nat) (f : Warp → Warp) : State := { s with warps := kmod s.warps u f }
def State.setBlock (s : State) (b : Nat) (x : Block) : State := { s with blocks := kput s.blocks b x }
def State.modBlock (s : State) (b : Nat) (f : Block → Block) : State := { s with blocks := kmod s.blocks b f }
def State.setLaunch (s : State) (l : Nat) (x : Launch) : State := { s with launches := kput s.launches l x }
def State.modLaunch (s : State) (l : Nat) (f : Launch → Launch) : State := { s with launches := kmod s.launches l f }
def State.setCur (s : State) (c : Option Issue) : State := { s with cur := c }

/-- A core with nothing in it. -/
def Core.empty : Core :=
  { cv := [], vs := [], watches := [], sfq := [], sfSeq := 0, hashes := [], owed := [] }
def State.core (s : State) (c : Nat) : Core := sget Core.empty s.cores c
def State.setCore (s : State) (c : Nat) (x : Core) : State := { s with cores := sset Core.empty s.cores c x }
def State.modCore (s : State) (c : Nat) (f : Core → Core) : State := s.setCore c (f (s.core c))

def Engine.empty : Engine := { queue := [], run := none, seq := 0, fin := [] }
def State.engine (s : State) (e : Nat) : Engine := sget Engine.empty s.engines e
def State.setEngine (s : State) (e : Nat) (x : Engine) : State := { s with engines := sset Engine.empty s.engines e x }

def DieSeq.empty : DieSeq := { count := 0, openAt := [], seats := [] }
def State.seq (s : State) (d : Nat) : DieSeq := sget DieSeq.empty s.seqs d
def State.setSeq (s : State) (d : Nat) (x : DieSeq) : State := { s with seqs := sset DieSeq.empty s.seqs d x }

def MEngine.empty : MEngine := { table := [] }
def State.meng (s : State) (cl : Nat) : MEngine := sget MEngine.empty s.mengs cl
def State.setMeng (s : State) (cl : Nat) (x : MEngine) : State := { s with mengs := sset MEngine.empty s.mengs cl x }

/-- A partition nobody has created. -/
def Part.empty : Part :=
  { created := false, clusters := 0, groups := 0, outst := [], faultSeq := 0, lseq := 0, held := [], running := [],
    key := none, lastCtr := 0, inb := [], spill := ⟨0, 0⟩, privPool := ⟨0, 0⟩, save := ⟨0, 0⟩, allocs := [],
    stepping := [], lapseSaved := [] }
def State.part (s : State) (n : Nat) : Part := sget Part.empty s.parts n
def State.setPart (s : State) (n : Nat) (x : Part) : State := { s with parts := sset Part.empty s.parts n x }
def State.modPart (s : State) (n : Nat) (f : Part → Part) : State := s.setPart n (f (s.part n))

/-- A fresh identity, and the state with the counter advanced. -/
def State.fresh (s : State) : Nat × State := (s.nextUid, { s with nextUid := s.nextUid + 1 })

/-- The bytes a memory line has (R2). -/
def lineBytes : Nat := 128
/-- The device's memory ends here: 512 GiB (R323). -/
def devTop : Nat := 2 ^ 39
/-- The host bus begins here (R323). -/
def hostBase : Nat := 2 ^ 50

/-- The home die of a device address (R323); host addresses have none. -/
def homeDie (pa : Nat) : Option Nat := if pa < devTop then some (pa / 2 ^ 33 / 16) else none
/-- The home slice of a device address, 0–639 (R323). -/
def homeSlice (pa : Nat) : Nat := pa / 2 ^ 33 * 10 + pa / 256 % 2 ^ 25 % 10

/-- The view of a party (R107, R116): a core by its number, a tile context by 768 + its cluster. -/
def viewDie (v : Nat) : Nat := if v < 768 then v / 192 else (v - 768) / 48
def viewCluster (v : Nat) : Nat := if v < 768 then v / 4 else v - 768

/-- The byte the home view holds (R108). An unlisted byte reads 0x00 (log 1). -/
def State.hByte (s : State) (pa : Nat) : Byte := sget 0 s.mem pa
/-- Write a byte of the home view. -/
def State.setH (s : State) (pa : Nat) (v : Byte) : State := { s with mem := sset 0 s.mem pa v }
/-- Write bytes of the home view from an address up. -/
def State.setHs (s : State) (pa : Nat) : List Byte → State
  | [] => s
  | b :: t => (s.setH pa b).setHs (pa + 1) t
/-- A little-endian number of `n` bytes in the home view. -/
def State.hNat (s : State) (pa n : Nat) : Nat :=
  natLE ((List.range n).map (fun k => s.hByte (pa + k)))
/-- Write a little-endian number of `n` bytes into the home view. -/
def State.setHNat (s : State) (pa n v : Nat) : State := s.setHs pa (bytesLE n v)

/-- Every entry of memory is in the canonical form: addresses rising, no listed byte equal to an unlisted one. -/
def Memory.wf (m : List Host.Cell) : Bool := canonical (0 : Byte) m

/-- The warps resident on a core. -/
def State.warpsOn (s : State) (c : Nat) : List (Nat × Warp) :=
  s.warps.filter (fun e => !e.2.tile && !e.2.ended && match kget s.blocks e.2.blk with
    | some b => b.core == c
    | none => false)

end Sys2Proof.Machine
end

