-- ==== Sys2Proof/Machine/Walk.lean ====
section
/-! DEFINITION. The page table, its walk, the partition firewall and the translation caches
(R294 to R299, R323). -/

namespace Sys2Proof.Machine

/-- What an access wants of a page (R296). -/
inductive Acc where
  | load | store | atomic | fetch | pf
  deriving DecidableEq, Repr

/-- The ACCESS code of a fault record (R302). -/
def Acc.code : Acc → Nat
  | .load => 0
  | .pf => 0
  | .store => 1
  | .fetch => 2
  | .atomic => 3

/-- A context's descriptor word, 0 when the context has none (R294). -/
def State.descriptor (s : State) (p ctx : Nat) : Nat :=
  if ctx < s.preg p .ctxCount then s.hNat (s.preg p .ctxTab + 64 * ctx) 8 else 0
def State.ctxExists (s : State) (p ctx : Nat) : Bool := (s.descriptor p ctx).testBit 0
/-- CURLEVEL of a context (R294, R325). -/
def State.curLevel (s : State) (p ctx : Nat) : Nat := bits (s.descriptor p ctx) 7 4

/-- The firewall (R323): the slice group belongs to the partition, a host address lies in its window, and in a
confidential partition no other context's allocation record covers the address. -/
def State.firewall (s : State) (p ctx pa : Nat) : Bool :=
  (if pa < devTop then (s.part p).groups.testBit (pa / 2 ^ 33)
   else decide (hostBase ≤ pa ∧ pa < 2 * hostBase) &&
     decide (s.preg p .hBase ≤ pa - hostBase ∧ pa - hostBase < s.preg p .hBase + s.preg p .hLen)) &&
  (s.preg p .conf == 0 ||
    (s.part p).allocs.all (fun e => !(e.2.valid && e.2.ctx != ctx && decide (e.2.base ≤ pa ∧ pa < e.2.base + e.2.len))))

/-- Bytes lie in slice groups that a partition owns (R323): its fault and inbound-fault rings do (R301, R325). -/
def State.ownsRange (s : State) (p pa n : Nat) : Bool :=
  [pa, pa + n - 1].all (fun a => decide (a < devTop) && (s.part p).groups.testBit (a / 2 ^ 33))

/-- How a walk ends (R296): a leaf with the bits of its page's size and the address of its entry, a driver-class
fault with its KIND (R302), or protection. -/
inductive WalkRes where
  | leaf (pte szBits at_ : Nat)
  | driver (kind : Nat)
  | prot
  deriving DecidableEq, Repr

/-- The fields of an entry (R295). -/
def pteClass (e : Nat) : Nat := bits e 7 5
def pteLevel (e : Nat) : Nat := bits e 11 8
def pteFrame (e : Nat) : Nat := bits e 51 14 * 2 ^ 14
def pteOwner (e : Nat) : Nat := bits e 61 52

/-- Walk down from the table at a level: `lev` is the level plus one (R294, R296). -/
def State.walkFrom (s : State) (p ctx va : Nat) : Nat → Nat → WalkRes
  | 0, _ => .prot
  | lev + 1, table =>
    let sh := 14 + 11 * lev
    let idx := va / 2 ^ sh % 2 ^ 11
    let at_ := table + 8 * idx
    if !s.firewall p ctx at_ then .prot
    else
      let e := s.hNat at_ 8
      if !e.testBit 0 then .driver (if e.testBit 62 then 2 else 1)
      else if e.testBit 63 || bits e 13 12 != 0 then .prot
      else if e.testBit 4 then
        if lev == 3 || pteClass e > 4 || pteFrame e % 2 ^ sh != 0 then .prot
        else .leaf e sh at_
      else if lev == 0 || bits e 3 1 != 0 || pteClass e > 4 then .prot
      else s.walkFrom p ctx va lev (pteFrame e)

/-- A whole walk from a context's root frame (R294). Root entries 1,024 and above are never read. -/
def State.walk (s : State) (p ctx va : Nat) : WalkRes :=
  if va / 2 ^ 47 < 1024 then
    if s.ctxExists p ctx then s.walkFrom p ctx va 4 (pteFrame (s.descriptor p ctx)) else .prot
  else .prot

/-- The table entries a walk passes on its way down: the bits of the span each maps, the entry, its address. -/
def State.walkTables (s : State) (va : Nat) : Nat → Nat → List (Nat × Nat × Nat)
  | 0, _ => []
  | lev + 1, table =>
    let sh := 14 + 11 * lev
    let at_ := table + 8 * (va / 2 ^ sh % 2 ^ 11)
    let e := s.hNat at_ 8
    if e.testBit 0 && !e.testBit 4 then (sh, e, at_) :: s.walkTables va lev (pteFrame e) else []

/-- The permission an access needs (R296). -/
def permitted (pte : Nat) : Acc → Bool
  | .load => pte.testBit 1
  | .pf => pte.testBit 1
  | .store => pte.testBit 2
  | .atomic => pte.testBit 1 && pte.testBit 2
  | .fetch => pte.testBit 3

/-- The access is a write that the page's permission allows and its class collapses (R107, R296). -/
def collapses (pte : Nat) (acc : Acc) : Bool :=
  pteClass pte == 2 && (acc == .store || acc == .atomic) && permitted pte acc

/-- The physical address of a translated byte. -/
def paOf (pte szBits va : Nat) : Nat := pteFrame pte + va % 2 ^ szBits

/-- An entry is a translation: not a table entry of a walk cache. -/
def TlbEntry.isLeaf (e : TlbEntry) : Bool := match e.at_ with
  | .walk _ => false
  | _ => true

def TlbEntry.covers (e : TlbEntry) (p ctx va : Nat) : Bool :=
  e.part == p && e.ctx == ctx && va / 2 ^ e.szBits == e.base / 2 ^ e.szBits

/-- The entry of a cache, or of a list of caches in order, that translates an address (R299). -/
def State.tlbFind (s : State) (places : List TlbAt) (p ctx va : Nat) : Option TlbEntry :=
  places.findSome? (fun a => s.tlb.find? (fun e => decide (e.at_ = a) && e.covers p ctx va))

/-- How many entries compete for a place of a cache (R299): a core's, a fetch unit's and an engine's are fully associative, a
cluster's 4,096 are 8-way. -/
def TlbAt.ways : TlbAt → Nat
  | .core _ => 128
  | .cluster _ => 8
  | .fetch _ => 512
  | .engine _ => 64
  | .walk _ => 256
  | .used => 2 ^ 64

/-- Two entries compete for a place; a cluster's set is the page's number modulo 512 (log 6). -/
def TlbEntry.competes (e x : TlbEntry) : Bool :=
  decide (e.at_ = x.at_) && (match e.at_ with
    | .cluster _ => e.base / 2 ^ 14 % 512 == x.base / 2 ^ 14 % 512
    | _ => true)

/-- Keep the first `n` of some entries in a list that holds the newest first. -/
def tlbTrim (hit : TlbEntry → Bool) : Nat → List TlbEntry → List TlbEntry
  | _, [] => []
  | n, e :: t =>
    if hit e then
      match n with
      | 0 => tlbTrim hit 0 t
      | n + 1 => e :: tlbTrim hit n t
    else e :: tlbTrim hit n t

/-- Fill a cache with a walk's result. The oldest entry leaves a full set (log 6). -/
def State.tlbFill (s : State) (a : TlbAt) (p ctx va pte szBits pteAt : Nat) : State :=
  let e : TlbEntry := { at_ := a, part := p, ctx := ctx, base := va / 2 ^ szBits * 2 ^ szBits, szBits := szBits,
                        pte := pte, pteAt := pteAt }
  { s with tlb := tlbTrim e.competes a.ways (e :: s.tlb.filter (fun x => decide (x ≠ e))) }

/-- The die whose walk cache serves a place (R299). -/
def TlbAt.walkDie : TlbAt → Nat
  | .core c => c / 192
  | .cluster k => k / 48
  | .fetch k => k / 48
  | .engine e => e / 16
  | .walk d => d
  | .used => 0

/-- The table entry of a die's walk cache that is nearest to the leaf. -/
def State.walkFind (s : State) (d p ctx va : Nat) : Option TlbEntry :=
  [25, 36, 47].findSome? (fun sz => s.tlb.find? (fun e => decide (e.at_ = .walk d) && e.szBits == sz && e.covers p ctx va))

/-- A walk that begins at the table entry the die's walk cache holds, else at the root, and the table entries it passes (R299). -/
def State.walkVia (s : State) (d p ctx va : Nat) : WalkRes × List (Nat × Nat × Nat) :=
  match s.walkFind d p ctx va with
  | some e => (s.walkFrom p ctx va ((e.szBits - 14) / 11) (pteFrame e.pte), s.walkTables va ((e.szBits - 14) / 11) (pteFrame e.pte))
  | none => (s.walk p ctx va, s.walkTables va 4 (pteFrame (s.descriptor p ctx)))

/-- What caches and page table say of an address: the leaf, whether it was cached, and the table entries a walk has passed. -/
def State.leafOf (s : State) (places : List TlbAt) (p ctx va : Nat) : WalkRes × Bool × List (Nat × Nat × Nat) :=
  match s.tlbFind places p ctx va with
  | some e => (.leaf e.pte e.szBits e.pteAt, true, [])
  | none =>
    match places with
    | [] => (s.walk p ctx va, false, [])
    | a :: _ => let r := s.walkVia a.walkDie p ctx va; (r.1, false, r.2)

/-- Translate through caches, filling them after a walk that gives the access a translation (R296, R299). -/
def State.translate (s : State) (places : List TlbAt) (p ctx va : Nat) (acc : Acc) : State × WalkRes :=
  match s.leafOf places p ctx va with
  | (.leaf pte sz at_, false, ts) =>
    if permitted pte acc && !collapses pte acc then
      let s := ts.foldl (fun st x => st.tlbFill (.walk ((places.head?).elim 0 TlbAt.walkDie)) p ctx va x.2.1 x.1 x.2.2) s
      ((places ++ [TlbAt.used]).foldl (fun st a => st.tlbFill a p ctx va pte sz at_) s, .leaf pte sz at_)
    else (s, .leaf pte sz at_)
  | (r, _) => (s, r)

/-- The caches of a unit forget a page, so that its next walk begins at the root (R297). -/
def State.tlbForget (s : State) (places : List TlbAt) (p ctx va : Nat) : State :=
  { s with tlb := s.tlb.filter (fun e => !(e.covers p ctx va && (places.contains e.at_ || places.any (fun a => decide (e.at_ = .walk a.walkDie))))) }

/-- The hardware's compare-and-swap of a leaf (R297), kept in the caches that hold it. Before one that would fail the walk has begun
again at the root (State.checkElem). -/
def State.swapPte (s : State) (at_ old new : Nat) : State :=
  if s.hNat at_ 8 = old then
    let s := s.setHNat at_ 8 new
    { s with tlb := replaceIf (fun e => e.pteAt == at_) (fun e => { e with pte := new }) s.tlb }
  else s

/-- An address of a launch's own structures: translated in its context, none when it does not translate or breaks
the firewall. -/
def State.vaToPa (s : State) (p ctx va : Nat) : Option Nat :=
  match s.walk p ctx va with
  | .leaf pte sz _ => let pa := paOf pte sz va; if s.firewall p ctx pa then some pa else none
  | _ => none

/-- The rest of a launch's structures are read and written through its context's page table. -/
def State.vRead (s : State) (p ctx va n : Nat) : Option Nat :=
  match (List.range n).mapM (fun k => (s.vaToPa p ctx (va + k)).map s.hByte) with
  | some bs => some (natLE bs)
  | none => none

def State.vWrite (s : State) (p ctx va : Nat) : List Byte → State
  | [] => s
  | b :: t =>
    (match s.vaToPa p ctx va with
     | some pa => s.setH pa b
     | none => s).vWrite p ctx (va + 1) t

end Sys2Proof.Machine
end

