-- ==== Sys2Proof/Machine/Cipher.lean ====
section
/-! DEFINITION. The buffer cipher of the ports (R326, R327): which record's key enciphers a byte that crosses a port. -/

namespace Sys2Proof.Machine

/-- The allocation record with a buffer cipher that covers an address (R326, R327). -/
def State.recAt (s : State) (p pa : Nat) : Option AllocRec :=
  ((s.part p).allocs.map (·.2)).find? (fun a => a.valid && a.keyid != 0 && decide (a.base ≤ pa ∧ pa < a.base + a.len))

/-- Two values below a bound are exchanged. -/
def exchange (n : Nat) (e : Nat × Nat) (x : Nat) : Nat :=
  if n ≤ e.1 ∨ n ≤ e.2 then x else if x = e.1 then e.2 else if x = e.2 then e.1 else x

/-- The bytes of an access in one data unit, enciphered or deciphered with a key, a tweak and their place in the unit: a permutation of
their values, or the same backwards. -/
def xtsUnit (enc : Bool) (key tweak at_ : Nat) (bs : List Byte) : List Byte :=
  let es := Config.xts key tweak at_ bs.length
  let n := 2 ^ (8 * bs.length)
  bytesLE bs.length ((if enc then es else es.reverse).foldl (fun x e => exchange n e x) (natLE bs))

/-- The bytes from an offset of a record up, data unit by data unit of 256 bytes (R327). -/
def xtsFrom (enc : Bool) (key keyid : Nat) : Nat → Nat → List Byte → List Byte
  | 0, _, bs => bs
  | fuel + 1, off, bs =>
    if bs.isEmpty then []
    else
      let n := 256 - off % 256
      xtsUnit enc key (keyid * 2 ^ 40 + off / 256) (off % 256) (bs.take n) ++ xtsFrom enc key keyid fuel (off + n) (bs.drop n)

/-- Encipher or decipher bytes that lie from an address up, by the record that covers it (R327; log 9): with no record, or
KEYID 0, they pass as they are. -/
def State.cipher (s : State) (p : Nat) (enc : Bool) (pa : Nat) (bs : List Byte) : List Byte :=
  match s.recAt p pa with
  | none => bs
  | some r => xtsFrom enc (Config.keyUnwrap p r.ctx r.wrap) r.keyid bs.length (pa - r.base) bs

end Sys2Proof.Machine
end

