-- ==== Sys2Proof/Machine/OrderLog.lean ====
section
/-! DEFINITION. The order log, the chunks of atomic order and the retired-store hash (R270 to R273, R289, R290). -/

namespace Sys2Proof.Machine

/-- The entry's two words (R289). -/
def logWords (kind va lcore warp run data : Nat) : Nat × Nat :=
  (va % 2 ^ 57 + kind * 2 ^ 57, lcore % 1024 + warp % 64 * 2 ^ 10 + run % 65536 * 2 ^ 16 + data % 2 ^ 32 * 2 ^ 32)

/-- The base of a die's log region (R270). -/
def Launch.logAt (l : Launch) (die : Nat) : Nat := l.lr.logbase + die * l.lr.logsize

/-- Write an entry into a die's region of a recording launch (R270). -/
def State.logEntry (s : State) (lid die kind va lcore warp run data : Nat) : State :=
  match kget s.launches lid with
  | none => s
  | some l =>
    if !l.lr.record || l.overflow.contains die then s
    else
      let a := l.logAt die
      let n := (s.vRead l.part l.ctx a 4).getD 0
      if 16 + 16 * (n + 1) ≤ l.lr.logsize then
        let w := logWords kind va lcore warp run data
        ((s.vWrite l.part l.ctx (a + 16 + 16 * n) (bytesLE 8 w.1 ++ bytesLE 8 w.2)).vWrite l.part l.ctx a
          (bytesLE 4 (n + 1)))
      else
        (s.vWrite l.part l.ctx (a + 4) (bytesLE 4 1)).setLaunch lid { l with overflow := die :: l.overflow }

/-- Entry n of a die's region (R270, R289). -/
def State.logRead (s : State) (l : Launch) (die n : Nat) : Nat × Nat :=
  ((s.vRead l.part l.ctx (l.logAt die + 16 + 16 * n) 8).getD 0,
   (s.vRead l.part l.ctx (l.logAt die + 24 + 16 * n) 8).getD 0)
def State.logCount (s : State) (l : Launch) (die : Nat) : Nat := (s.vRead l.part l.ctx (l.logAt die) 4).getD 0

/-- Close a chunk: its entry is written (R271). -/
def State.closeChunk (s : State) (lid die : Nat) (c : Chunk) : State :=
  s.logEntry lid die 0 c.va c.lcore c.warp c.run 0

/-- An atomic instruction is performed at a location: it joins or opens a chunk (R271). -/
def State.chunkAtomic (s : State) (lid die loc va lcore warp : Nat) : State :=
  match kget s.launches lid with
  | none => s
  | some l =>
    if !l.lr.record then s
    else
      let cs := sget [] l.chunks die
      match cs.find? (fun c => c.loc == loc) with
      | some c =>
        if c.va == va && c.lcore == lcore && c.warp == warp then
          let c' := { c with run := c.run + 1 }
          if c'.run ≥ 65535 then
            (s.setLaunch lid { l with chunks := sset [] l.chunks die (cs.filter (fun x => x.loc != loc)) }).closeChunk lid die c'
          else s.setLaunch lid { l with chunks := sset [] l.chunks die (replaceIf (fun x => x.loc == loc) (fun _ => c') cs) }
        else
          let s := s.closeChunk lid die c
          let cs' := replaceIf (fun x : Chunk => x.loc == loc) (fun _ => ⟨loc, va, lcore, warp, 1⟩) cs
          s.modLaunch lid (fun l => { l with chunks := sset [] l.chunks die cs' })
      | none => s.setLaunch lid { l with chunks := sset [] l.chunks die (cs ++ [⟨loc, va, lcore, warp, 1⟩]) }

/-- Measured events of a launch on a core (R293). -/
def State.bumpBy (s : State) (lid core code n : Nat) : State :=
  match kget s.launches lid with
  | none => s
  | some l =>
    if l.lr.measure then s.setLaunch lid { l with counters := kput l.counters (core * 16 + code) (sget 0 l.counters (core * 16 + code) + n) }
    else s

/-- One measured event. -/
def State.bump (s : State) (lid core code : Nat) : State := s.bumpBy lid core code 1

/-- Before the first write of a measured launch's first pass to a 16 KiB page is applied, the page's bytes go to the capture
area; a full area sets CAPFULL (R293). -/
def State.capture (s : State) (lid pa : Nat) : State :=
  match kget s.launches lid with
  | none => s
  | some l =>
    let page := pa / 2 ^ 14 * 2 ^ 14
    if !l.lr.measure || l.pass != 0 || l.captured.contains page then s
    else
      let k := l.captured.length
      if 2 ^ 14 * (k + 1) ≤ s.preg l.part .capSize then
        (s.setHs (s.preg l.part .capBase + 2 ^ 14 * k) ((List.range (2 ^ 14)).map (fun j => s.hByte (page + j)))).setLaunch lid
          { l with captured := l.captured ++ [page] }
      else (s.setPreg l.part .capFull 1).setLaunch lid { l with capFull := true }

/-- A write of a party is about to be applied: captured for its launch, or for the measured launches that have had blocks on the
writing core (R293). -/
def State.captureBy (s : State) (launch : Option Nat) (wid pa : Nat) : State :=
  if s.launches.all (fun l => !l.2.lr.measure) then s
  else
    match launch with
    | some lid => s.capture lid pa
    | none => s.launches.foldl (fun st l => if (kget (s.core wid).hashes l.1).isSome then st.capture l.1 pa else st) s

/-- Insert into a list that rises by a key. -/
def insertBy {α : Type} (key : α → Nat) (x : α) : List α → List α
  | [] => [x]
  | y :: t => if key x < key y then x :: y :: t else y :: insertBy key x t

/-- Sort by a key, keeping the order of equal keys. -/
def sortByKey {α : Type} (key : α → Nat) (xs : List α) : List α := xs.foldl (fun acc x => insertBy key x acc) []

/-- Close every open chunk of a launch, in ascending VA (R271). -/
def State.closeAllChunks (s : State) (lid : Nat) : State :=
  match kget s.launches lid with
  | none => s
  | some l =>
    let s := l.chunks.foldl (fun st e =>
      (sortByKey (fun c : Chunk => c.va) e.2).foldl (fun st c => st.closeChunk lid e.1 c) st) s
    s.modLaunch lid (fun l => { l with chunks := [] })

/-- Merge-stage race (R116, R289 KIND 2): the winner of a byte and how many writes it beat. -/
def State.logRace (s : State) (w : MsWrite) (n : Nat) : State :=
  match w.launch, homeDie w.pa with
  | some lid, some die =>
    if n = 0 then s
    else s.logEntry lid die 2 w.va (if w.wid < 768 then w.wid else 0x3FF) (if w.wid < 768 then w.warp else 0) n w.wid
  | _, _ => s

/-- The start of the retired-store hash (R290). -/
def hashInit : Nat := 0x811C9DC5

/-- One step of the hash: an address word, then a data word (R290). -/
def hashWord (h : Word) (addr data : Nat) : Word :=
  ((((h ^^^ BitVec.ofNat 32 addr) * 0x01000193#32) ^^^ BitVec.ofNat 32 data) * 0x01000193#32)

/-- The words of an element: address and value (R290). -/
def hashElement (va : Nat) (bs : List Byte) : List (Nat × Nat) :=
  if bs.length < 4 then [(va, natLE bs)]
  else (List.range (bs.length / 4)).map (fun j => (va + 4 * j, natLE ((bs.drop (4 * j)).take 4)))

def hashOf (c : Core) (lid : Nat) : Hash := (kget c.hashes lid).getD ⟨BitVec.ofNat 32 hashInit, 0, []⟩

/-- A hash with the elements of an instruction taken (R272, R290). -/
def hashItems (h : Word) (xs : List HashItem) : Word := xs.foldl (fun h i => i.2.2.foldl (fun h w => hashWord h w.1 w.2) h) h
/-- How many lane elements that is. -/
def itemCount (xs : List HashItem) : Nat := xs.foldl (fun n i => n + i.2.1) 0

/-- A faulted node halts its queue: the code and node of the first fault stay, and the partition's error interrupt is raised
(R279). -/
def State.haltQueue (s : State) (q code addr part : Nat) : State :=
  let s := s.setReg (.q q .halt) 1
  let s := if s.reg (.q q .qerr) = 0 then (s.setReg (.q q .qerr) code).setReg (.q q .qerrNode) addr else s
  { s with out := { s.out with errIrq := s.out.errIrq ++ [part] } }

/-- The launch halts, every block of it parked where it stands, and its divergence is marked (R273). -/
def State.diverge (s : State) (lid die : Nat) : State :=
  match kget s.launches lid with
  | none => s
  | some l =>
    if l.diverged then s
    else
      let f := (s.vRead l.part l.ctx (l.logAt die + 4) 4).getD 0
      let s := s.vWrite l.part l.ctx (l.logAt die + 4) (bytesLE 4 (setBits f 1 1 1))
      let s := s.modLaunch lid (fun l => { l with diverged := true })
      match l.node.bind (kget s.nodes) with
      | some n => s.haltQueue n.q 6 n.addr l.part
      | none => { s with out := { s.out with errIrq := s.out.errIrq ++ [l.part] } }

/-- A checkpoint of a core's hash: recorded, or compared with the log of its die (R272, R273). -/
def State.checkpoint (s : State) (lid core : Nat) : State :=
  match kget s.launches lid with
  | none => s
  | some l =>
    let h := hashOf (s.core core) lid
    if l.lr.record then s.logEntry lid (core / 192) 3 h.count core 0 0 h.h.toNat
    else if l.lr.replay && !l.lr.measure then
      let die := core / 192
      let es := (List.range (s.logCount l die)).map (s.logRead l die)
      let ok := es.any (fun e => bits e.1 59 57 == 3 && bits e.2 9 0 == core && bits e.1 56 0 == h.count % 2 ^ 57
        && bits e.2 63 32 == h.h.toNat)
      if ok then s else s.diverge lid die
    else s

/-- Set a hash. -/
def State.putHash (s : State) (lid core : Nat) (h : Hash) : State :=
  s.modCore core (fun c => { c with hashes := kput c.hashes lid h })

/-- A hash takes the instructions whose walks have closed, in order, and each checkpoint that one of them reaches is taken after it
(R272); the others stay. -/
def State.hashSet (s : State) (lid core : Nat) : List (List HashItem) → State
  | [] => s.putHash lid core { hashOf (s.core core) lid with items := [] }
  | xs :: t =>
    let h := hashOf (s.core core) lid
    if xs.all (fun i => i.1.isNone) then
      let n := h.count + itemCount xs
      let s := s.putHash lid core ⟨hashItems h.h xs, n, t⟩
      (if n / 4096 != h.count / 4096 then s.checkpoint lid core else s).hashSet lid core t
    else s.putHash lid core { h with items := xs :: t }

/-- An instruction's hashed elements (the walk and lane they wait for, address, bytes) join the hash of its launch on
its core (R272, R290). -/
def State.hashAdd (s : State) (lid core : Nat) (elems : List (Option Nat × Nat × List Byte)) : State :=
  if elems.isEmpty then s
  else s.hashSet lid core ((hashOf (s.core core) lid).items ++ [elems.map (fun e => (e.1, 1, hashElement e.2.1 e.2.2))])

/-- The walks of a posted store's lanes close: each element counts, or is left out (R118, R290). -/
def State.hashClose (s : State) (lid core : Nat) (keys : List (Nat × Bool)) : State :=
  s.hashSet lid core ((hashOf (s.core core) lid).items.map (fun xs => xs.map (fun i =>
    match keys.find? (fun k => i.1 == some k.1) with
    | some k => if k.2 then (none, i.2) else (none, 0, [])
    | none => i)))

/-- The old values an atomic returned join the core's hash of them in a measured launch (R293). -/
def State.oldHashAdd (s : State) (lid core : Nat) (elems : List (Nat × List Byte)) : State :=
  s.modLaunch lid (fun l => if l.lr.measure then
      { l with oldHash := kput l.oldHash core ((elems.flatMap (fun e => hashElement e.1 e.2)).foldl (fun h w => hashWord h w.1 w.2)
          ((kget l.oldHash core).getD (BitVec.ofNat 32 hashInit))) } else l)

/-- STOREHASH as a warp reads it (R213): the stores that have not been removed. -/
def storeHash (c : Core) (lid : Nat) : Word :=
  let h := hashOf c lid
  h.items.foldl hashItems h.h

end Sys2Proof.Machine
end

