-- ==== Sys2Proof/Machine/Views.lean ====
section
/-! DEFINITION. The value store's watches, the core views, remote copies, merge stages and the home view: the parts of
the ordering machine and its steps Propagate, Apply, Refresh and Drain (R108 to R117, R123). -/

namespace Sys2Proof.Machine

/-! ### Watches (R73 to R75) -/

/-- Remove entries from lookup; watch slots no entry in lookup is rooted on become free (R71, R73). -/
def Core.dropEntries (c : Core) (p : VsEntry → Bool) : Core :=
  if c.vs.isEmpty then c
  else
    let vs := c.vs.map (fun e => if p e.2 then (e.1, { e.2 with inLookup := false }) else e)
    let live := vs.foldl (fun m e => if e.2.inLookup then m ||| e.2.root else m) (0 : BitVec 64)
    { c with vs := vs, watches := c.watches.filter (fun w => live.getLsbD w.1) }

/-- Kill watches: every entry rooted on them leaves lookup and the slots are freed (R74). -/
def Core.killWatches (c : Core) (p : Watch → Bool) : Core :=
  let dead := maskOf ((c.watches.filter (fun w => p w.2)).map (·.1))
  if dead = 0 then c
  else
    let c := c.dropEntries (fun e => (e.root &&& dead) != 0)
    { c with watches := c.watches.filter (fun w => !dead.getLsbD w.1) }

/-- Kill a core's watches on a memory line. -/
def State.killLine (s : State) (core line : Nat) : State :=
  if (s.core core).watches.isEmpty then s
  else s.modCore core (fun c => c.killWatches (fun w => w.lines.contains line))
/-- A 128-byte unit of the scratchpad of a block's core, numbered over all cores (R72). -/
def Block.unitAt (b : Block) (off : Nat) : Nat := b.core * 2 ^ 13 + (b.spadBase + off) / 128
/-- Kill a core's watches on a scratchpad unit. -/
def State.killUnit (s : State) (core unit : Nat) : State :=
  if (s.core core).watches.isEmpty then s
  else s.modCore core (fun c => c.killWatches (fun w => w.units.contains unit))

/-! ### Lines of a view (R108) -/

def CvLine.byteAt (l : CvLine) (k : Nat) : Byte := l.data.extractLsb' (8 * k) 8
def setByteOf (d : BitVec 1024) (k : Nat) (v : Byte) : BitVec 1024 :=
  (d &&& ~~~((255#1024) <<< (8 * k))) ||| ((v.setWidth 1024) <<< (8 * k))

/-- A byte's copy in a view, if there is one. -/
def State.cvByte (s : State) (v pa : Nat) : Option Byte :=
  match kget (s.core v).cv (pa / lineBytes) with
  | some l => if l.present.getLsbD (pa % lineBytes) then some (l.byteAt (pa % lineBytes)) else none
  | none => none

/-- Put a dirty byte into a view. -/
def State.cvPut (s : State) (v pa : Nat) (b : Byte) (cls ctx : Nat) (o : ByteOrig) : State :=
  s.modCore v (fun c =>
    let l := (kget c.cv (pa / lineBytes)).getD ⟨0, 0, 0, [], cls, ctx⟩
    let bit := BitVec.ofNat 128 (2 ^ (pa % lineBytes))
    let l' : CvLine := { present := l.present ||| bit, dirty := l.dirty ||| bit, data := setByteOf l.data (pa % lineBytes) b,
                         orig := kput l.orig (pa % lineBytes) o, cls := cls, ctx := ctx }
    { c with cv := kput c.cv (pa / lineBytes) l' })

/-- Update a copy that exists with a written-through byte; it stays clean where it was clean (R109 Drain). -/
def State.cvUpdate (s : State) (v pa : Nat) (b : Byte) : State :=
  match kget (s.core v).cv (pa / lineBytes) with
  | some l =>
    if l.present.getLsbD (pa % lineBytes) then
      let l' := { l with data := setByteOf l.data (pa % lineBytes) b }
      s.modCore v (fun c => { c with cv := kput c.cv (pa / lineBytes) l' })
    else s
  | none => s

/-- Drop a view's line; a dropped line kills the core's watches on it (R75). -/
def State.cvDrop (s : State) (v line : Nat) : State :=
  (s.modCore v (fun c => { c with cv := kdel c.cv line })).killLine v line

/-- The dirty bytes of a line: offset and value. -/
def CvLine.dirtyBytes (l : CvLine) : List (Nat × Byte) :=
  ((List.range 128).filter (fun k => l.dirty.getLsbD k)).map (fun k => (k, l.byteAt k))

/-- A dirty byte of a view on its way to the home (R109, R116). -/
def CvLine.staged (l : CvLine) (v line : Nat) (e : Nat × Byte) : MsWrite :=
  let o := (kget l.orig e.1).getD ⟨none, 0, line * lineBytes + e.1, 0⟩
  { pa := line * lineBytes + e.1, val := e.2, wid := v, warp := o.warp, va := o.va, launch := o.launch, eng := false, unit := o.unit }

/-- One byte of a view is propagated (R109, R112). -/
def State.propagateByte (s : State) (v pa : Nat) : State :=
  match kget (s.core v).cv (pa / lineBytes) with
  | none => s
  | some l =>
    let k := pa % lineBytes
    if !l.dirty.getLsbD k then s
    else
      let s := { s with ms := s.ms ++ [l.staged v (pa / lineBytes) (k, l.byteAt k)] }
      let l' := { l with dirty := l.dirty &&& ~~~(BitVec.ofNat 128 (2 ^ k)), orig := kdel l.orig k }
      s.modCore v (fun c => { c with cv := kput c.cv (pa / lineBytes) l' })

/-- Propagate (R109): a line's dirty bytes enter the merge stage and the copy becomes clean. -/
def State.propagate (s : State) (v line : Nat) : State :=
  match kget (s.core v).cv line with
  | none => s
  | some l =>
    if l.dirty = 0 then s
    else
      let s := { s with ms := s.ms ++ l.dirtyBytes.map (l.staged v line) }
      s.modCore v (fun c => { c with cv := kput c.cv line { l with dirty := 0, orig := [] } })

/-- The views that hold a copy of a line. -/
def State.viewsOf (s : State) (line : Nat) : List Nat :=
  (s.cores.filter (fun e => (kget e.2.cv line).isSome)).map (·.1)

/-- Drop the remote copies of a line (R109 Apply, Commit). -/
def State.rcDrop (s : State) (line : Nat) : State :=
  if s.rc.isEmpty then s else { s with rc := s.rc.map (fun e => (e.1, kdel e.2 line)) }

/-- Propagate and drop every copy of a line in every view (R109, R114). -/
def State.cvDropAll (s : State) (line : Nat) : State :=
  (s.viewsOf line).foldl (fun st v => (st.propagate v line).cvDrop v line) s

/-- The write of highest identifier, the latest among equals (R116). -/
def msWinner : List MsWrite → Option MsWrite
  | [] => none
  | w :: t =>
    match msWinner t with
    | none => some w
    | some x => if w.wid > x.wid then some w else some x

/-- The unit of byte k of an element that an atomic or an engine writes in this step (R115): an aligned one whole, up to 8 bytes; 0
for a byte by itself. -/
def State.unitNow (s : State) (va n k : Nat) : Nat := if va % n = 0 then (s.stepNo * 2 ^ 57 + va + k / 8 * 8) * 2 + 1 else 0

/-- Apply for one byte (R109, R116): the winner is written to H, the others discarded and logged, copies dropped. -/
def State.applyByte (s : State) (pa : Nat) : State :=
  match msWinner (s.ms.filter (fun w => w.pa == pa)) with
  | none => s
  | some w0 =>
    let s := if w0.eng then s.cvDropAll (pa / lineBytes) else s
    let mine := s.ms.filter (fun w => w.pa == pa)
    match msWinner mine with
    | none => s
    | some w =>
      let s := State.captureBy { s with ms := s.ms.filter (fun x => x.pa != pa) } w.launch w.wid pa
      let s := (s.setH pa w.val).rcDrop (pa / lineBytes)
      s.logRace w (mine.length - 1)

/-- The bytes that an Apply of a byte takes with it: those of the unit its winner is written whole with (R115). -/
def State.unitOf (s : State) (pa : Nat) : List Nat :=
  match msWinner (s.ms.filter (fun w => w.pa == pa)) with
  | none => []
  | some w => if w.unit = 0 then [pa] else dedup ((s.ms.filter (fun x => x.unit == w.unit)).map (·.pa))

/-- Apply (R109, R115, R116). -/
def State.apply (s : State) (pa : Nat) : State := (s.unitOf pa).foldl (fun st a => st.applyByte a) s

/-- Apply every write to a line (in the order of its bytes). -/
def State.applyLine (s : State) (line : Nat) : State :=
  (dedup ((s.ms.filter (fun w => w.pa / lineBytes == line)).map (·.pa))).foldl (fun st pa => st.apply pa) s

/-- Refresh (R109): a clean copy is dropped. Copies are per byte (R108): of a line with dirty bytes the clean ones go. -/
def State.refresh (s : State) (v line : Nat) : State :=
  match kget (s.core v).cv line with
  | some l =>
    if l.dirty = 0 then s.cvDrop v line
    else if l.present &&& ~~~l.dirty = 0 then s
    else (s.modCore v (fun c => { c with cv := kput c.cv line { l with present := l.dirty } })).killLine v line
  | none => s

/-! ### Reading through the views -/

/-- The format window that decodes a physical address (R292): partition and index. -/
def State.windowOf (s : State) (pa : Nat) : Option (Nat × Nat) :=
  s.regs.findSome? (fun e =>
    match e.1 with
    | .p n (.fwEn w) =>
      let v := s.preg n (.fwView w)
      let g := s.preg n (.fwScaleG w)
      if e.2 = 1 ∧ (g = 1 ∨ g = 2) ∧ v ≤ pa ∧ pa < v + s.preg n (.fwElems w) then some (n, w) else none
    | _ => none)

/-- A decoded element (R100, R102, R103, R292). -/
def State.windowByte (s : State) (n w pa : Nat) : Byte :=
  let k := pa - s.preg n (.fwView w)
  let st := s.preg n (.fwStore w)
  let rl := s.preg n (.fwRowLen w)
  let code := bits (s.hByte (st + k / 2)).toNat (if k % 2 = 0 then 3 else 7) (if k % 2 = 0 then 0 else 4)
  let e8 := (s.hByte (st + s.preg n (.fwElems w) / 2 + k / 32)).toNat
  let row := k / rl
  let col := k % rl
  let stride := 4 * (rl / 128)
  let sa := s.preg n (.fwScale w) +
    (if s.preg n (.fwScaleG w) = 1 then row * stride + 4 * (col / 128) else row / 128 * stride + 4 * (col / 128))
  BitVec.ofNat 8 (windowElem code e8 (s.hNat sa 4))

/-- A byte as the home gives it: decoded inside a format window. -/
def State.homeByte (s : State) (pa : Nat) : Byte :=
  match s.windowOf pa with
  | some (n, w) => s.windowByte n w pa
  | none => s.hByte pa

/-- A line as the home gives it. -/
def State.homeLine (s : State) (line : Nat) : BitVec 1024 :=
  BitVec.ofNat 1024 (natLE ((List.range 128).map (fun k => s.homeByte (line * lineBytes + k))))

/-- The remote copy a die holds (R108). -/
def State.rcLine (s : State) (die line : Nat) : Option RcLine := kget (sget [] s.rc die) line

/-- A line as a die reads it: its remote copy, else the home (R109 Issue). A read of a line homed on another die fills the
die's remote-data cache for the classes R106 lets it. -/
def State.dieLine (s : State) (die line cls : Nat) : State × BitVec 1024 :=
  match s.rcLine die line with
  | some l => (s, l.data)
  | none =>
    let d := s.homeLine line
    match homeDie (line * lineBytes) with
    | some h =>
      if h != die && (cls == 0 || cls == 1 || cls == 3) then
        ({ s with rc := kput s.rc die (kput (sget [] s.rc die) line ⟨d⟩) }, d)
      else (s, d)
    | none => (s, d)

/-- Fill a view's line with a clean copy, keeping the bytes it has (R109 Issue). -/
def State.cvFill (s : State) (v line cls ctx : Nat) (d : BitVec 1024) : State :=
  s.modCore v (fun c =>
    let l := (kget c.cv line).getD ⟨0, 0, 0, [], cls, ctx⟩
    let data := (List.range 128).foldl (fun (a : BitVec 1024) k =>
      if l.present.getLsbD k then setByteOf a k (l.byteAt k) else a) d
    { c with cv := kput c.cv line { l with present := -1, data := data, cls := cls, ctx := ctx } })

/-- Whether a class may be copied into core views (R106). -/
def cvClass (cls : Nat) : Bool := cls ≤ 2

/-- Read a byte of a page through a view (R109 Issue): the view's copy, else the die's remote copy, else the home, with a
fill for classes 0–2. -/
def State.readByte (s : State) (v pa cls ctx : Nat) : State × Byte :=
  match s.cvByte v pa with
  | some b => (s, b)
  | none =>
    let r := s.dieLine (viewDie v) (pa / lineBytes) cls
    let b := r.2.extractLsb' (8 * (pa % lineBytes)) 8
    if cvClass cls then (r.1.cvFill v (pa / lineBytes) cls ctx r.2, b) else (r.1, b)

/-! ### Scratchpads (R104, R115) -/

def State.spadByte (s : State) (b off : Nat) : Byte :=
  match kget s.blocks b with
  | some x => sget 0 x.spad off
  | none => 0

/-- A write of a bank kills the watches on the unit in every core that may watch it, those of its cluster (R72, R75, R123). -/
def State.killBank (s : State) (b : Block) (off : Nat) : State :=
  (List.range 4).foldl (fun st k => st.killUnit (b.core / 4 * 4 + k) (b.unitAt off)) s

/-- Write a scratchpad byte (R75, R123). -/
def State.spadWrite (s : State) (b off : Nat) (v : Byte) : State :=
  match kget s.blocks b with
  | some x => (s.setBlock b { x with spad := sset 0 x.spad off v }).killBank x off
  | none => s

/-! ### Releases and acquires (R112, R113) -/

/-- A view's shared lines that are dirty. -/
def State.dirtyShared (s : State) (v : Nat) : List Nat :=
  ((s.core v).cv.filter (fun e => e.2.cls == 1 && e.2.dirty != 0)).map (·.1)

/-- Every dirty shared line of the view has been propagated and applied. -/
def State.sharedClean (s : State) (v : Nat) : Bool :=
  (s.dirtyShared v).isEmpty && s.ms.all (fun w => w.wid != v)

/-- No write of the unit to the host or a peer is still on its way (R112 system scope). -/
def State.outsideDone (s : State) (u : Nat) : Bool :=
  s.ext.all (fun e => !(e.2.u == u && e.2.wr && e.2.answer.isNone))

/-- The release condition of a scope, apart from the thread's own queue (R112). -/
def State.releaseMet (s : State) (u v scope : Nat) : Bool :=
  (scope ≤ 1 || s.sharedClean v) && (scope != 5 || s.outsideDone u)

/-- A release is tried (R112): whether its condition holds. At cluster scope the shared lines found dirty are owed a refresh
in the other core views of the cluster, which they get when the condition holds. -/
def State.relTry (s : State) (u v scope : Nat) : State × Bool :=
  let ok := s.releaseMet u v scope
  if scope != 2 then (s, ok)
  else if ok then
    let ls := (s.core v).owed
    let s := ls.foldl (fun st l => ((st.viewsOf l).filter (fun x => x != v && viewCluster x == viewCluster v)).foldl
      (fun st x => st.refresh x l) st) s
    (if ls.isEmpty then s else s.modCore v (fun c => { c with owed := [] }), true)
  else (s.modCore v (fun c => { c with owed := dedup (c.owed ++ s.dirtyShared v) }), false)

/-- The acquire actions of a scope (R112): at die scope and wider, refresh every clean shared copy of the view. -/
def State.acquire (s : State) (v scope : Nat) : State :=
  if scope ≤ 2 then s
  else (((s.core v).cv.filter (fun e => e.2.cls == 1)).map (·.1)).foldl (fun st l => st.refresh v l) s

/-- Refresh a line in the other views of a cluster (R112 cluster scope). -/
def State.refreshCluster (s : State) (v line : Nat) : State :=
  ((s.viewsOf line).filter (fun x => x != v && viewCluster x == viewCluster v)).foldl (fun st x => st.refresh x line) s

/-! ### Drain (R109) -/

/-- A request leaves for a peer or the host; while the partition's session has lapsed the port holds it (R330). -/
def State.extNew (s : State) (r : ExtReq) : State × Nat :=
  let (k, s) := s.fresh
  ({ s with ext := kput s.ext k { r with held := decide (2 ≤ s.sess r.part) } }, k)

/-- The partition, context, view, launch and warp number of a unit. -/
structure Who where
  part : Nat
  ctx : Nat
  view : Nat
  core : Nat
  blk : Nat
  launch : Nat
  wid : Nat
  tile : Bool
  deriving DecidableEq, Repr

/-- Who a unit is (R33, R107, R116). -/
def State.who (s : State) (u : Nat) : Option Who :=
  match kget s.warps u with
  | none => none
  | some w =>
    match kget s.blocks w.blk with
    | none => none
    | some b =>
      match kget s.launches b.launch with
      | none => none
      | some l =>
        some { part := l.part, ctx := l.ctx, view := if w.tile then 768 + b.core / 4 else b.core, core := b.core, blk := w.blk,
               launch := b.launch, wid := if w.tile then 0x3F else w.wid, tile := w.tile }

/-- The translation caches of a unit (R299). -/
def Who.places (p : Who) : List TlbAt :=
  if p.tile then [.cluster (p.core / 4)] else [.core p.core, .cluster (p.core / 4)]

/-- A transaction's hold buffer takes a byte (R109 Hold); without the transaction the byte is discarded (R122). -/
def State.hold (s : State) (u pa : Nat) (v : Byte) : State :=
  match (kget s.warps u).bind (·.tx) with
  | some t => { s with txs := kmod s.txs t (fun x => { x with held := kput x.held pa v }) }
  | none => s

/-- The class of a byte's page at its Drain (R109): as the unit's caches hold it, else as the page table does; outside the page table,
and where the page has another frame by now, the class at Issue. -/
def State.classNow (s : State) (p : Who) (b : QByte) (pa : Nat) : Nat :=
  if b.cls > 3 || 2 ^ 56 ≤ b.va then b.cls
  else
    match (s.leafOf p.places p.part p.ctx b.va).1 with
    | .leaf pte sz _ => if paOf pte sz b.va = pa && pteClass pte ≤ 3 then pteClass pte else b.cls
    | _ => b.cls

/-- One byte of a draining store reaches its place (R109, R112): the scratchpad bank, the core view, or the merge stage
of its home with a copy in the view updated; a byte of an order-first page takes its Hold step (R237). The core's watches on what
the Drain overwrites die (R123). -/
def State.drainByte (s : State) (p : Who) (u : Nat) (rel : Option Nat) (b : QByte) : State :=
  match b.loc with
  | some (.spad blk off) => s.spadWrite blk off b.val
  | some (.mem pa) =>
    if b.cls = 4 then s.hold u pa b.val
    else if pa ≥ devTop then (s.cvUpdate p.view pa b.val).killLine p.view (pa / lineBytes)
    else
    let v := p.view
    let cls := s.classNow p b pa
    let toMs := cls == 3 || (cls == 1 && homeDie pa != some (viewDie v))
    let m : MsWrite := ⟨pa, b.val, v, p.wid, b.va, some p.launch, false, b.unit⟩
    let s := if toMs then State.cvUpdate { s with ms := s.ms ++ [m] } v pa b.val
      else s.cvPut v pa b.val cls p.ctx ⟨some p.launch, p.wid, b.va, b.unit⟩
    let s := s.killLine v (pa / lineBytes)
    let s := if cls == 1 && rel == some 1 then { s with relOwner := kput s.relOwner (pa / lineBytes) v } else s
    match rel with
    | some k =>
      if k ≥ 2 then
        let s := if toMs then s else s.propagateByte v pa
        if k == 2 then s.refreshCluster v (pa / lineBytes) else s
      else s
    | none => s
  | some (.peer _ _) => s
  | none => s

/-- Two queue bytes are one byte of memory (R117). -/
def sameByte (a b : QByte) : Bool :=
  match a.loc, b.loc with
  | some x, some y => decide (x = y)
  | _, _ => a.va == b.va

/-- An entry stands behind another lane's: one of its instruction whose translation is open, for only then is it known which lane a
byte is left to (R117), or an earlier group's of its `xw` that holds one of its bytes or may (R209). -/
def Warp.behind (w : Warp) (lane : Nat) (e : QEntry) : Bool :=
  w.queues.any (fun q => q.1 != lane && q.2.any (fun x =>
    (x.iid == e.iid && x.bytes.any (fun b => b.loc.isNone)) ||
      (e.run != 0 && x.run == e.run && decide (x.iid < e.iid) && x.bytes.any (fun b => b.loc.isNone || e.bytes.any (sameByte b)))))

/-- The peer and host bytes of a draining store leave as one request to the target (R112, R320): the peer, the offset or
host address, the virtual address, the byte. -/
def outsideBytes (bs : List QByte) : List (Option Nat × Nat × Nat × Byte) :=
  bs.filterMap (fun b => match b.loc with
    | some (.peer n off) => some (some n, off, b.va, b.val)
    | some (.mem pa) => if pa ≥ devTop then some (none, pa, b.va, b.val) else none
    | _ => none)

/-- A store-fault record joins the core's queue (R306). -/
def State.sfRecord (s : State) (core u : Nat) (pc : DWord) (va : Nat) (lanes : Mask) (cause : Nat) : State :=
  s.modCore core (fun c => { c with sfq := c.sfq ++ [⟨pc, va, lanes, u, cause, c.sfSeq % 65536, false⟩], sfSeq := c.sfSeq + 1 })

/-- A request of a store has failed: once the last request of that instruction has ended, one record reports its failures (R306). -/
def State.storeFailed (s : State) (core r : Nat) (x : ExtReq) (cause : Nat) : State :=
  let same (e : Nat × ExtReq) : Bool := e.2.u == x.u && e.2.wr && e.2.iid == x.iid
  let s := { s with ext := kput s.ext r { x with answer := some (cause, []) } }
  let mine := s.ext.filter same
  if mine.any (fun e => e.2.answer.isNone) then s
  else
    match leastBy (fun e => e.2.lane) mine with
    | some e =>
      State.sfRecord { s with ext := s.ext.filter (fun y => !same y) } core x.u x.pc e.2.va (maskOf (mine.map (·.2.lane)))
        ((e.2.answer.map (·.1)).getD cause)
    | none => s

/-- The oldest entry of a queue tries to leave (R112): its walk has closed, no other lane's comes first, and its release condition
holds. -/
def State.leaveTry (s : State) (u v : Nat) (w : Warp) (lane : Nat) (e : QEntry) : State × Bool :=
  if e.bytes.all (fun b => b.loc.isSome) && !w.behind lane e then
    match e.rel with
    | some k => s.relTry u v k
    | none => (s, true)
  else (s, false)

/-- The bytes of an entry that are written in one step, and the others (R115). -/
def QEntry.firstUnit (e : QEntry) : List QByte × List QByte :=
  match e.bytes with
  | [] => ([], [])
  | b :: _ => e.bytes.partition (fun x => x.unit == b.unit)

/-- Drain (R109): the oldest entry of a thread's queue leaves, if it may: an element of several units one unit in each step
(R115). A store to a peer without a route fails at once (R320). -/
def State.drain (s : State) (u lane : Nat) : State :=
  match kget s.warps u, s.who u with
  | some w, some p =>
    match sget [] w.queues lane with
    | [] => s
    | e :: t =>
      let r := s.leaveTry u p.view w lane e
      let s := r.1
      if r.2 then
        let bs := e.firstUnit
        let s := s.setWarp u { w with queues := sset [] w.queues lane (if bs.2.isEmpty then t else { e with bytes := bs.2 } :: t) }
        let s := bs.1.foldl (fun st b => st.drainByte p u e.rel b) s
        match outsideBytes bs.1 with
        | [] => s
        | (n, off, va, b) :: r =>
          let data := b :: r.map (·.2.2.2)
          let x : ExtReq := { u := u, part := p.part, launch := some p.launch, peer := n, wr := true, off := off,
                              data := if n.isNone then s.cipher p.part true off data else data, n := data.length, since := s.timebase,
                              pc := e.pc, lane := lane, va := va, iid := e.iid, held := false, answer := none }
          let r := s.extNew x
          if n.any (fun k => (kget s.fabric.routes k).isNone) then r.1.storeFailed p.core r.2 x 0x17 else r.1
      else s
  | _, _ => s

/-- Drain a thread's queue as far as it goes, at most `n` entries. -/
def State.drainN (s : State) (u lane : Nat) : Nat → State
  | 0 => s
  | n + 1 => (s.drain u lane).drainN u lane n

/-- Promote is tried (R113): the threads of the release owner's view drain up to their last core-scope release, and once they
have, every dirty shared line of the view is propagated and applied; whether it is done. -/
def State.promote (s : State) (line v : Nat) : State × Bool :=
  match kget s.relOwner line with
  | none => (s, true)
  | some o =>
    if o == v then (s, true)
    else
      let ws := s.warps.filter (fun e => (s.who e.1).any (fun q => q.view == o))
      let owes (st : State) : Bool := ws.any (fun e => (kget st.warps e.1).any (fun w => w.queues.any (fun q => q.2.any (fun x => x.rel == some 1))))
      let s := ws.foldl (fun st e =>
        e.2.queues.foldl (fun st q =>
          let last := (List.range q.2.length).foldl (fun k i =>
            if ((q.2[i]?).bind (·.rel)) == some 1 then i + 1 else k) 0
          st.drainN e.1 q.1 ((q.2.take last).foldl (fun n x => n + max 1 x.bytes.length) 0)) st) s
      if owes s then (s, false)
      else
      let ls := s.dirtyShared o
      let s := ls.foldl (fun st l => st.propagate o l) s
      ((dedup (s.ms.map (·.pa / lineBytes))).foldl (fun st l => st.applyLine l) s, true)

/-- Every queue of the lanes of a mask is empty (R112 warp scope). -/
def Warp.drained (w : Warp) (m : Mask) : Bool :=
  w.queues.all (fun q => !m.getLsbD q.1 || q.2.isEmpty)

end Sys2Proof.Machine
end

