-- ==== Sys2Proof/Machine/Elem.lean ====
section
/-! DEFINITION. The checks of one element of an access, in the order of R185: canonical address, alignment, window
bounds, range lock, translation, class and permission, level, data (R104 to R107, R120, R122, R202, R237, R325). -/

namespace Sys2Proof.Machine

/-- A byte an access may touch: its place, its class (0–4 a page's, 5 a scratchpad, 6 a peer), the level of its page,
and whether a watch may cover it (R72). -/
structure PByte where
  va : Nat
  loc : Loc
  cls : Nat
  lev : Nat
  watch : Bool
  deriving DecidableEq, Repr

/-- What the checks say of an element. -/
inductive Res where
  | ok (bs : List PByte)
  | prog (cause info : Nat)
  | driver (kind page : Nat)
  | posted
  deriving DecidableEq, Repr

def top57 : Nat := 2 ^ 57

/-- The windows of R104. -/
inductive Window where
  | global | peer (n off : Nat) | own (off : Nat) | alias_ (core off : Nat) | priv (off : Nat) | none
  deriving DecidableEq, Repr

def windowAt (va : Nat) : Window :=
  if va < 2 ^ 56 then .global
  else if va < 0x0110000000000000 then .peer (va / 2 ^ 44 % 256) (va % 2 ^ 44)
  else if va / 2 ^ 48 = 0x1F0 then .own (va % 2 ^ 48)
  else if va / 2 ^ 48 = 0x1F1 then (if va % 2 ^ 48 < 2 ^ 22 then .alias_ (va / 2 ^ 20 % 4) (va % 2 ^ 20) else .none)
  else if va / 2 ^ 48 = 0x1F2 then .priv (va % 2 ^ 48)
  else .none

def isSpad (va : Nat) : Bool := va / 2 ^ 48 == 0x1F0 || va / 2 ^ 48 == 0x1F1

/-- The block that the cluster alias reaches on core k (R104). -/
def State.aliasBlock (s : State) (p : Who) (k : Nat) : Option Nat :=
  let core := p.core / 4 * 4 + k
  if core = p.core then some p.blk
  else
    let here := s.blocks.filter (fun e => e.2.core == core && !e.2.stopped)
    let same := here.filter (fun e => e.2.launch == p.launch)
    let ctx := here.filter (fun e => match kget s.launches e.2.launch with
      | some l => l.part == p.part && l.ctx == p.ctx
      | none => false)
    let seqOf (e : Nat × Block) : Nat := match kget s.launches e.2.launch with
      | some l => l.seq * 2 ^ 64 + e.2.bid
      | none => e.2.bid
    match leastBy (fun e => e.2.bid) same with
    | some e => some e.1
    | none => (leastBy seqOf ctx).map (·.1)

/-- SPAD and PRIV of a launch (R12). -/
def State.lrOf (s : State) (l : Nat) : Option LaunchRec := (kget s.launches l).map (·.lr)

/-- The level of a scratchpad unit of 256 bytes (R324). -/
def Block.levAt (b : Block) (off : Nat) : Nat := sget b.spLev0 b.spLev (off / 256)

/-- The index of a lane's thread in its block, the tile context last (R298). -/
def threadIndex (s : State) (u lane : Nat) : Nat :=
  match kget s.warps u with
  | some w =>
    if w.tile then (match kget s.blocks w.blk with
      | some b => 64 * b.warps.length
      | none => 0)
    else 64 * w.wid + lane
  | none => 0

/-- A scratchpad byte of a block. -/
def spadP (s : State) (blk va off : Nat) : Option PByte :=
  match kget s.blocks blk with
  | none => none
  | some b =>
    match s.lrOf b.launch with
    | some lr => if off < lr.spad then some ⟨va, .spad blk off, 5, b.levAt off, true⟩ else none
    | none => none

/-- Resolve a byte outside the global window; `none` is protection. A private byte passes the firewall as every physical access does
(R323). -/
def State.winByte (s : State) (p : Who) (u lane va : Nat) : Option PByte :=
  match windowAt va with
  | .global => none
  | .peer n off => if n = s.fabric.me then none else some ⟨va, .peer n off, 6, s.preg p.part .peerLevel, false⟩
  | .own off => spadP s p.blk va off
  | .alias_ k off =>
    match s.aliasBlock p k with
    | some b => spadP s b va off
    | none => none
  | .priv off =>
    match s.lrOf p.launch, kget s.blocks p.blk with
    | some lr, some b =>
      if off < lr.priv ∧ s.firewall p.part p.ctx (b.privBase + threadIndex s u lane * lr.priv + off) then
        some ⟨va, .mem (b.privBase + threadIndex s u lane * lr.priv + off), 0, s.curLevel p.part p.ctx, false⟩
      else none
    | _, _ => none
  | .none => none

/-- The range-lock entry a byte hits (R120): die and index. Of several the lowest die's, then the lowest entry (log 117). -/
def State.lockHit (s : State) (p : Who) (acc : Acc) (va : Nat) : Option (Nat × Nat) :=
  s.rl.findSome? (fun t => t.2.findSome? (fun e =>
    if e.2.part == p.part && e.2.ctx == p.ctx && decide (e.2.lo ≤ va ∧ va < e.2.hi) &&
      (e.2.dst || acc == .store || acc == .atomic) then some (t.1, e.1) else none))

/-- The physical lines of a leaf that lie in a view. -/
def CvLine.inPage (line pte sz : Nat) : Bool :=
  decide (pteFrame pte ≤ line * lineBytes ∧ line * lineBytes < pteFrame pte + 2 ^ sz)

/-- Propagate, apply and drop every line of a page in every view (R107). -/
def State.dropPage (s : State) (pte sz : Nat) : State :=
  s.cores.foldl (fun st c =>
    (c.2.cv.filter (fun l => CvLine.inPage l.1 pte sz)).foldl (fun st l =>
      ((st.propagate c.1 l.1).cvDrop c.1 l.1).applyLine l.1) st) s

/-- First touch and second core (R107, R297): the class a party sees of a private page after its access. -/
def State.ownPage (s : State) (p : Who) (pte sz at_ : Nat) : State × Nat :=
  if pteClass pte != 0 then (s, pteClass pte)
  else if !p.tile && pteOwner pte == p.core then (s, 0)
  else if !p.tile && pteOwner pte == 0x3FF then
    (s.swapPte at_ pte (setBits pte 61 52 p.core), 0)
  else
    ((s.dropPage pte sz).swapPte at_ pte (setBits pte 7 5 1), 1)

/-- The transaction a unit runs admitted (R233), with its declared granules. -/
def State.txOf (s : State) (u : Nat) : Option Tx :=
  match kget s.warps u with
  | some w =>
    match w.tx with
    | some t =>
      match kget s.txs t with
      | some x => if x.st = .admitted ∨ x.st = .overrun then some x else none
      | none => none
    | none => none
  | none => none

/-- An order-first element is declared for the access (R122, R237). -/
def State.declared (s : State) (u : Nat) (acc : Acc) (va n : Nat) : Bool :=
  match s.txOf u with
  | some x =>
    let g := va / 256
    g == (va + n - 1) / 256 &&
      (if acc = .load ∨ acc = .pf then x.wr.contains g || x.rd.contains g else x.wr.contains g)
  | none => false

def wInfo : Acc → Nat
  | .store => 1
  | .atomic => 1
  | .fetch => 2
  | _ => 0

/-- Translate the pages of an element: each page's leaf, or the first failure. -/
def State.xlatPages (s : State) (places : List TlbAt) (p : Who) (acc : Acc) (post : Bool) : List Nat → State × Except Res (List (Nat × Nat × Nat × Nat))
  | [] => (s, .ok [])
  | page :: t =>
    if post && acc == .store && (s.tlbFind places p.part p.ctx page).isNone then (s, .error .posted)
    else
      let r := s.translate places p.part p.ctx page acc
      match r.2 with
      | .driver k => (r.1, .error (.driver k page))
      | .prot => (r.1, .error (.prog 0x11 (wInfo acc)))
      | .leaf pte sz at_ =>
        if collapses pte acc then (r.1, .error (.driver 3 page))
        else
          let q := State.xlatPages r.1 places p acc post t
          match q.2 with
          | .ok ls => (q.1, .ok ((page, pte, sz, at_) :: ls))
          | .error e => (q.1, .error e)

/-- Check 6 for one page (R106, R122, R292, R296, R323, R325). -/
def State.pageOk (s : State) (p : Who) (u : Nat) (acc : Acc) (va n : Nat) (l : Nat × Nat × Nat × Nat) : Option Res :=
  let pte := l.2.1
  let pa := paOf pte l.2.2.1 l.1
  if !permitted pte acc || !s.firewall p.part p.ctx pa then some (.prog 0x11 (wInfo acc))
  else if acc != .store && pteLevel pte > s.curLevel p.part p.ctx then some (.prog 0x11 (wInfo acc))
  else if pteClass pte == 4 && acc != .fetch && !s.declared u acc va n then some (.prog 0x14 0)
  else none

/-- The class each page has for the access once its owner is settled (R107): page, leaf, size, class. -/
def State.classPages (s : State) (p : Who) (acc : Acc) : List (Nat × Nat × Nat × Nat) → State × List (Nat × Nat × Nat × Nat)
  | [] => (s, [])
  | l :: t =>
    let o := if acc == .fetch then (s, pteClass l.2.1) else s.ownPage p l.2.1 l.2.2.1 l.2.2.2
    let q := o.1.classPages p acc t
    (q.1, (l.1, l.2.1, l.2.2.1, o.2) :: q.2)

/-- The bytes of an element, each in its page or window. -/
def State.placeBytes (s : State) (p : Who) (u lane : Nat) (ls : List (Nat × Nat × Nat × Nat)) (vas : List Nat) : List PByte :=
  vas.filterMap (fun a =>
    if windowAt a == .global then
      (ls.find? (fun l => l.1 == a / 2 ^ 14 * 2 ^ 14)).map (fun l =>
        let pa := paOf l.2.1 l.2.2.1 a
        ⟨a, .mem pa, l.2.2.2, pteLevel l.2.1, (l.2.2.2 == 0 || l.2.2.2 == 1) && (s.windowOf pa).isNone && decide (pa < devTop)⟩)
    else s.winByte p u lane a)

/-- Checks 7 and 8: the level of the data stored (R325), lost data, a peer without a route (R320). -/
def State.checkBytes (s : State) (acc : Acc) (lev : Nat) (bs : List PByte) : Res :=
  match if acc == .store || acc == .atomic then bs.find? (fun b => lev > b.lev) else none with
  | some b => .prog 0x12 (lev + 16 * b.lev)
  | none =>
    if acc != .store && bs.any (fun b => match b.loc with
        | .mem pa => s.fleet.lost.contains (pa / lineBytes)
        | _ => false) then .prog 0x19 0
    else
      match bs.findSome? (fun b => match b.loc with
        | .peer k _ => if acc != .store && (kget s.fabric.routes k).isNone then some k else none
        | _ => none) with
      | some k => .prog 0x17 k
      | none => .ok bs

/-- Checks 6 to 8 of an element whose pages are translated. -/
def State.checkPages (s : State) (p : Who) (u lane : Nat) (acc : Acc) (lev va n : Nat) (ls : List (Nat × Nat × Nat × Nat)) : State × Res :=
  let vas := (List.range n).map (fun k => va + k)
  let written (l : Nat × Nat × Nat × Nat) : Bool := vas.any (fun a =>
    windowAt a == .global && a / 2 ^ 14 * 2 ^ 14 == l.1 && (s.windowOf (paOf l.2.1 l.2.2.1 a)).isSome)
  match ls.findSome? (s.pageOk p u acc va n) with
  | some e => (s, e)
  | none =>
    if (acc == .store || acc == .atomic) && ls.any written then (s, .prog 0x11 1)
    else if acc == .pf && ls.any (fun l => pteClass l.2.1 == 0 && (p.tile || pteOwner l.2.1 != p.core)) then (s, .prog 0x11 0)
    else
      let q := s.classPages p acc ls
      (q.1, q.1.checkBytes acc lev (q.1.placeBytes p u lane q.2 vas))

/-- An access changes a leaf (R107, R297): it sets the owner of a private page, or makes it shared. -/
def swaps (p : Who) (acc : Acc) (pte : Nat) : Bool :=
  pteClass pte == 0 && (p.tile || pteOwner pte != p.core) && (acc == .load || acc == .store || acc == .atomic)

/-- A leaf that the access would change is no longer what memory holds, so that its compare-and-swap fails (R297). -/
def State.stale (s : State) (p : Who) (acc : Acc) (ls : List (Nat × Nat × Nat × Nat)) : Bool :=
  ls.any (fun l => swaps p acc l.2.1 && s.hNat l.2.2.2 8 != l.2.1)

/-- The pages of an element in the global window. -/
def pagesOf (va n : Nat) : List Nat :=
  dedup ((((List.range n).map (fun k => va + k)).filter (fun a => windowAt a == .global)).map (fun a => a / 2 ^ 14 * 2 ^ 14))

/-- All checks of one element (R185). A fetch needs X, which only a leaf of the page table gives, so none reaches a window
(R296, R298; log 103). `lev` is the level of the data stored, `need` whether natural alignment is
required, `post` whether a store may be posted before its translation (R118). Where the compare-and-swap of a leaf would fail, the
walk restarts from the root (R297). -/
def State.checkElem (s : State) (p : Who) (u lane : Nat) (acc : Acc) (need post : Bool) (lev : Nat) (addr : DWord) (n : Nat) :
    State × Res :=
  let va := addr.toNat
  let vas := (List.range n).map (fun k => va + k)
  if va ≥ top57 then (s, .prog 0x05 0)
  else if (need || isSpad va) && va % n != 0 then (s, .prog 0x05 0)
  else if vas.any (fun a => windowAt a != .global && (acc == .fetch || (s.winByte p u lane a).isNone)) then (s, .prog 0x11 (wInfo acc))
  else
    match vas.findSome? (s.lockHit p acc) with
    | some (die, k) => (s, .prog 0x13 (k + die * 256))
    | none =>
      match s.xlatPages p.places p acc post (pagesOf va n) with
      | (s, .error e) => (s, e)
      | (s, .ok ls) =>
        if s.stale p acc ls && (ls.findSome? (s.pageOk p u acc va n)).isNone then
          let s := (pagesOf va n).foldl (fun st a => st.tlbForget p.places p.part p.ctx a) s
          match s.xlatPages p.places p acc false (pagesOf va n) with
          | (s, .error e) => (s, e)
          | (s, .ok ls) => s.checkPages p u lane acc lev va n ls
        else s.checkPages p u lane acc lev va n ls

end Sys2Proof.Machine
end

