-- ==== Sys2Proof/Machine/Frontier.lean ====
section
/-! DEFINITION. The frontier of a warp (R21 to R32): inserting, removing and merging entries, the head and the fairness
turn. -/

namespace Sys2Proof.Machine

def Entry.isReady (e : Entry) : Bool := decide (e.st = .ready)

/-- Take lanes out of every entry; an entry left empty goes. -/
def fRemove (m : Mask) (fr : List Entry) : List Entry :=
  (fr.map (fun e => { e with mask := e.mask &&& ~~~m })).filter (fun e => e.mask != 0)

/-- Insert an entry (R23, R26): a ready one in PC order, merging with a ready entry of its PC; a waiting or parked one
after the ready ones, merging with an entry of its PC and cause. DESIGN CHOICE (log 101): the merged entry has waited since the
older of the two issues, and two sleeps that end at different times are two causes. -/
def fInsert (n : Entry) : List Entry → List Entry
  | [] => [n]
  | e :: t =>
    if e.pc = n.pc ∧ e.st = n.st then
      { e with mask := e.mask ||| n.mask, stamp := min e.stamp n.stamp, bpSkip := e.bpSkip && n.bpSkip } :: t
    else if n.isReady then
      if e.isReady && decide (e.pc.toNat < n.pc.toNat) then e :: fInsert n t
      else n :: e :: t
    else e :: fInsert n t

/-- Move lanes to a PC and a state, from wherever they stand. -/
def fMove (m : Mask) (pc : DWord) (st : EntSt) (stamp : Nat) (fr : List Entry) : List Entry :=
  if m = 0 then fr else fInsert ⟨pc, m, st, stamp, false, pc⟩ (fRemove m fr)

/-- The live lanes (R28). -/
def Warp.live (w : Warp) : Mask := w.frontier.foldl (fun m e => m ||| e.mask) 0

/-- The head (R22): the ready entry of lowest PC. -/
def headOf (fr : List Entry) : Option Entry := fr.find? Entry.isReady

/-- The ready entry that has waited longest since it last issued, the lower PC on a tie (R32). -/
def longestWaiting (fr : List Entry) : Option Entry :=
  leastBy (fun e => e.stamp * 2 ^ 64 + e.pc.toNat) (fr.filter Entry.isReady)

/-- The ready entry that goes on with a turn: its lanes, or those of them that are left (R32). -/
def turnEntry (fr : List Entry) (m : Mask) : Option Entry :=
  fr.find? (fun e => e.isReady && e.mask != 0 && (e.mask &&& ~~~m) == 0)

/-- The head is the one it was (R32): of the same lanes, or without some that are ready nowhere else, so that neither a split
nor a merge has changed its mask (log 102). -/
def sameHead (old : Option Entry) (fr : List Entry) : Bool :=
  match old, headOf fr with
  | some o, some e => (e.mask &&& ~~~o.mask) == 0 && fr.all (fun x => !x.isReady || (x.mask &&& (o.mask &&& ~~~e.mask)) == 0)
  | none, none => true
  | _, _ => false

/-- Give the warp a new frontier (R32): another head, or a head that a split or a merge has changed, clears the fairness count;
a turn goes on with what is left of its entry, and ends when nothing of it is ready by itself. -/
def Warp.setFrontier (w : Warp) (fr : List Entry) : Warp :=
  match w.turn with
  | some m =>
    match turnEntry fr (BitVec.ofNat 64 m) with
    | some e => { w with frontier := fr, turn := some e.mask.toNat }
    | none => { w with frontier := fr, turn := none, fair := 0 }
  | none => { w with frontier := fr, fair := if sameHead (headOf w.frontier) fr then w.fair else 0 }

/-- Lanes that take a trap leave the turn; without any it is over (R32). -/
def Warp.leaveTurn (w : Warp) (m : Mask) : Warp :=
  match w.turn with
  | some t => if (BitVec.ofNat 64 t &&& ~~~m) = 0 then { w with turn := none, fair := 0 } else { w with turn := some (BitVec.ofNat 64 t &&& ~~~m).toNat }
  | none => w

/-- Move lanes of a warp. -/
def Warp.move (w : Warp) (m : Mask) (pc : DWord) (st : EntSt) : Warp :=
  if m = 0 then w
  else w.setFrontier (fMove m pc st ((w.frontier.find? (fun e => (e.mask &&& m) != 0)).elim 0 (·.stamp)) w.frontier)

/-- Lanes start to wait where they stand, and become ready at `next` when the wait ends (R23, R26). -/
def Warp.hold (w : Warp) (m : Mask) (pc next : DWord) (c : WaitCause) : Warp :=
  if m = 0 then w
  else
    let stamp := (w.frontier.find? (fun e => (e.mask &&& m) != 0)).elim 0 (·.stamp)
    w.setFrontier (fInsert ⟨pc, m, .waiting c, stamp, false, next⟩ (fRemove m w.frontier))

/-- The waits of some entries end: each becomes ready at its next instruction (R26), and the warp's next instruction is
interlocked (R136). -/
def Warp.wake (w : Warp) (p : Entry → Bool) : Warp :=
  (w.frontier.filter p).foldl (fun w e => { w.move e.mask e.next .ready with locked := true }) w

/-- The entry a mask's lanes stand in. -/
def Warp.entryOf (w : Warp) (m : Mask) : Option Entry := w.frontier.find? (fun e => (e.mask &&& m) != 0)

/-- A turn ends when its entry issues a branch (R32). -/
def Warp.branchEndsTurn (w : Warp) (m : Mask) : Warp :=
  match w.turn with
  | some t => if (BitVec.ofNat 64 t &&& m) = 0 then w else { w with turn := none, fair := 0 }
  | none => w

/-- A backward branch of the head, taken by lanes that stand at a PC, is counted while another ready entry exists (R32). -/
def Warp.countBackward (w : Warp) (m : Mask) (pc : DWord) : Warp :=
  if w.turn.isNone && (headOf w.frontier).any (fun e => e.pc == pc && (e.mask &&& m) != 0) &&
      decide (1 < (w.frontier.filter Entry.isReady).length) then { w with fair := min 64 (w.fair + 1) } else w

/-- The fairness turn (R32). -/
def Warp.giveTurn (w : Warp) : Warp :=
  match longestWaiting w.frontier with
  | some e => { w with turn := some e.mask.toNat }
  | none => { w with fair := 0 }

end Sys2Proof.Machine
end

