-- ==== Sys2Proof/Machine/Ops.lean ====
section
/-! DEFINITION. The named operations over registers and memory: vector registers and predicates, the bytes a thread reads,
atomic read-modify-write, the end of a block, taking a trap and returning from one. -/

namespace Sys2Proof.Machine

/-! ### Registers (R11, R82, R144) -/

def Warp.reg (w : Warp) (r lane : Nat) : Word := sget 0 w.regs (r * 64 + lane)
def Warp.setReg (w : Warp) (r lane : Nat) (v : Word) : Warp := { w with regs := sset 0 w.regs (r * 64 + lane) v }
/-- P[0] reads true (R144). -/
def Warp.pred (w : Warp) (p : Nat) : Mask := if p = 0 then -1 else sget 0 w.preds p
/-- A write to p0 is discarded (R144). -/
def Warp.setPred (w : Warp) (p : Nat) (m : Mask) : Warp := if p = 0 then w else { w with preds := sset 0 w.preds p m }
def Warp.flagsOf (w : Warp) (lane : Nat) : BitVec 5 := sget 0 w.flags lane
def Warp.orFlags (w : Warp) (lane : Nat) (f : BitVec 5) : Warp :=
  if f = 0 then w else { w with flags := sset 0 w.flags lane (w.flagsOf lane ||| f) }
/-- RLEVEL of a register and level of a predicate (R324). -/
def Warp.regLevel (w : Warp) (r : Nat) : Nat := sget 0 w.rlev r
def Warp.predLevel (w : Warp) (p : Nat) : Nat := if p = 0 then 0 else sget 0 w.plev p
/-- A trap register by its special number 34–43 (R213). -/
def Warp.trapReg (w : Warp) (n : Nat) : Word := sget 0 w.trap n
def Warp.setTrapReg (w : Warp) (n : Nat) (v : Word) : Warp := { w with trap := sset 0 w.trap n v }
/-- Two trap registers, low and high. -/
def Warp.setTrap64 (w : Warp) (n v : Nat) : Warp :=
  (w.setTrapReg n (BitVec.ofNat 32 v)).setTrapReg (n + 1) (BitVec.ofNat 32 (v / 2 ^ 32))
def Warp.trap64 (w : Warp) (n : Nat) : Nat := (w.trapReg n).toNat + (w.trapReg (n + 1)).toNat * 2 ^ 32

/-! ### Bytes (R109, R114, R237) -/

/-- The youngest entry of a thread's queue that holds a byte (R109). -/
def qFind (q : List QEntry) (b : PByte) : Option Byte :=
  q.reverse.findSome? (fun e => (e.bytes.find? (fun x => match x.loc with
    | some l => decide (l = b.loc)
    | none => x.va == b.va)).map (·.val))

/-- A transaction's held byte, else H (R237). -/
def State.heldByte (s : State) (u pa : Nat) : Byte :=
  match (s.txOf u).bind (fun x => kget x.held pa) with
  | some v => v
  | none => s.hByte pa

/-- Read one byte for a thread (R109 Issue): its queue, then the place the byte lives in. Bytes of a peer, and of host
memory that no view holds, come from outside: none. -/
def State.loadByte (s : State) (p : Who) (u lane : Nat) (b : PByte) : State × Option Byte :=
  match (kget s.warps u).bind (fun w => qFind (sget [] w.queues lane) b) with
  | some v => (s, some v)
  | none =>
    match b.loc with
    | .spad blk off => (s, some (s.spadByte blk off))
    | .peer _ _ => (s, none)
    | .mem pa =>
      if b.cls = 4 then (s, some (s.heldByte u pa))
      else if pa ≥ devTop && (s.cvByte p.view pa).isNone then (s, none)
      else let r := s.readByte p.view pa b.cls p.ctx; (r.1, some r.2)

def State.loadBytes (s : State) (p : Who) (u lane : Nat) : List PByte → State × List (Option Byte)
  | [] => (s, [])
  | b :: t =>
    let r := s.loadByte p u lane b
    let q := r.1.loadBytes p u lane t
    (q.1, r.2 :: q.2)

/-- Where an atomic is performed (R114). -/
inductive Point where
  | spad | view | home | held | peer (n : Nat)
  deriving DecidableEq, Repr

/-- The performance point of an atomic by its scope code 0–5 (R114). -/
def pointOf (p : Who) (scope : Nat) (bs : List PByte) : Point :=
  match bs with
  | [] => .home
  | b :: _ =>
    match b.loc with
    | .spad _ _ => .spad
    | .peer n _ => .peer n
    | .mem pa => if b.cls = 4 then .held else if b.cls = 0 ∧ scope ≤ 1 ∧ !p.tile ∧ pa < devTop then .view else .home

/-- Before an atomic at H (R114): every dirty copy of its lines is propagated, the writes to its bytes then in MS applied,
and every copy dropped. -/
def State.toHome (s : State) (bs : List PByte) : State :=
  let pas := bs.filterMap (fun b => match b.loc with
    | .mem pa => some pa
    | _ => none)
  let s := (dedup (pas.map (· / lineBytes))).foldl (fun st l => st.cvDropAll l) s
  pas.foldl (fun st pa => st.apply pa) s

/-- Read the bytes at a performance point. -/
def State.pointRead (s : State) (p : Who) (u : Nat) (pt : Point) : List PByte → State × List Byte
  | [] => (s, [])
  | b :: t =>
    let r : State × Byte := match b.loc with
      | .spad blk off => (s, s.spadByte blk off)
      | .peer _ _ => (s, 0)
      | .mem pa =>
        match pt with
        | .held => (s, s.heldByte u pa)
        | .view => s.readByte p.view pa b.cls p.ctx
        | _ => (s, s.hByte pa)
    let q := r.1.pointRead p u pt t
    (q.1, r.2 :: q.2)

/-- Write the bytes at a performance point, as one unit (R115). -/
def State.pointWrite (s : State) (p : Who) (u : Nat) (pt : Point) (unit : Nat) : List (PByte × Byte) → State
  | [] => s
  | (b, v) :: t =>
    (match b.loc with
     | .spad blk off => s.spadWrite blk off v
     | .peer _ _ => s
     | .mem pa =>
       match pt with
       | .held => s.hold u pa v
       | .view => s.cvPut p.view pa v b.cls p.ctx ⟨some p.launch, p.wid, b.va, unit⟩
       | _ => ((s.captureBy (some p.launch) p.core pa).setH pa v).rcDrop (pa / lineBytes)).pointWrite p u pt unit t

/-- Read, modify and write in one step (R114): the new state, the old value and the value written. -/
def State.rmw (s : State) (p : Who) (u scope : Nat) (bs : List PByte) (f : Nat → Nat) : State × Nat × Nat :=
  let pt := pointOf p scope bs
  let s := if pt = .home then s.toHome bs else s
  let r := s.pointRead p u pt bs
  let old := natLE r.2
  let new := f old % 2 ^ (8 * bs.length)
  (r.1.pointWrite p u pt (s.unitNow ((bs.head?).elim 0 (·.va)) bs.length 0) (bs.zip (bytesLE bs.length new)), old, new)

/-- The location an atomic is performed on, as one number, and its home die (R271). -/
def locKey (s : State) (bs : List PByte) : Nat × Nat :=
  match bs with
  | [] => (0, 0)
  | b :: _ =>
    match b.loc with
    | .mem pa => (pa, (homeDie pa).getD 0)
    | .spad blk off =>
      match kget s.blocks blk with
      | some x => (2 ^ 60 + x.core * 2 ^ 24 + x.spadBase + off, x.core / 192)
      | none => (2 ^ 60, 0)
    | .peer n off => (2 ^ 61 + n * 2 ^ 44 + off, 0)

/-- An atomic instruction is performed at a location: recorded, or counted against the log (R271, R273). -/
def State.countAtomic (s : State) (p : Who) (va : Nat) (bs : List PByte) : State :=
  let k := locKey s bs
  let s := s.chunkAtomic p.launch k.2 k.1 va p.core p.wid
  s.modLaunch p.launch (fun l => if l.lr.replay then
      { l with cursor := kput l.cursor k.1 (sget 0 l.cursor k.1 + 1), gates := l.gates.filter (fun g => g.2.2.2 != k.1) } else l)

/-- Watches of the issuing core die at the address generation of a store or atomic (R75, R123). -/
def State.killAt (s : State) (p : Who) (va n : Nat) : State :=
  if p.tile || (s.core p.core).watches.isEmpty || va ≥ top57 then s
  else
    [va, va + n - 1].foldl (fun st a =>
      match windowAt a with
      | .global =>
        match (st.leafOf p.places p.part p.ctx a).1 with
        | .leaf pte sz _ => st.killLine p.core (paOf pte sz a / lineBytes)
        | _ => st
      | .own off =>
        match kget st.blocks p.blk with
        | some b => st.killUnit p.core (b.unitAt off)
        | none => st
      | .alias_ k off =>
        match (st.aliasBlock p k).bind (kget st.blocks) with
        | some b => st.killUnit p.core (b.unitAt off)
        | none => st
      | _ => st) s

/-! ### Faults that wait for the driver (R27, R302) -/

/-- A driver-class fault is outstanding on a page; the first of a context and page waits to be recorded, with the first address of
the access in that page (R302). -/
def State.outstanding (s : State) (p ctx page va kind acc src unit : Nat) : State :=
  s.modPart p (fun x =>
    if x.outst.any (fun o => o.ctx == ctx && o.page == page) then x
    else { x with outst := x.outst ++ [⟨ctx, page, max va page, kind, acc, src, unit, false⟩] })

/-- Lanes park at a PC on a driver-class fault (R27). -/
def State.park (s : State) (u : Nat) (m : Mask) (pc : DWord) (page va kind acc : Nat) : State :=
  match s.who u with
  | some p =>
    (s.outstanding p.part p.ctx page va kind acc (if p.tile then 1 else 0) p.core).modWarp u
      (fun w => if w.ended || m == 0 then w else w.setFrontier (fInsert ⟨pc, m, .parked (.driver page acc),
        (w.entryOf m).elim 0 (·.stamp), false, BitVec.ofNat 64 va⟩ (fRemove m w.frontier)))
  | none => s

/-! ### The end of a block (R216) -/

/-- A transaction is torn down (R122, R239): its held writes are discarded, its granules and capacity released. -/
def State.txDrop (s : State) (t : Nat) : State := { s with txs := kdel s.txs t }

/-- How the replay gate answers an atomic (R273). -/
inductive Gate where
  | pass | wait | diverge
  deriving DecidableEq, Repr

/-- The chunk of a location that is current after `n` atomics: va, core, warp. -/
def chunkAt : Nat → List (Nat × Nat) → Option (Nat × Nat × Nat)
  | _, [] => none
  | n, e :: t =>
    let run := bits e.2 31 16
    if n < run then some (bits e.1 56 0, bits e.2 9 0, bits e.2 15 10) else chunkAt (n - run) t

/-- Whether a chunk that the log gives at a virtual address, for a core and warp, is one of a location that a party reaches at `va`. The
log names no block and no lane: a scratchpad address is that of the party's own block, or of the launch's lowest block on another core,
and in a private window a warp's chunks at one address belong to each of its lanes (log 115). -/
def State.chunkHere (s : State) (p : Who) (loc va cva core warp : Nat) : Bool :=
  match windowAt cva with
  | .global => s.vaToPa p.part p.ctx cva == some loc
  | .priv _ => cva == va && core == p.core && warp == p.wid
  | _ =>
    let blk := if core = p.core then some p.blk else
      (leastBy (fun b => b.2.bid) (s.blocks.filter (fun b => b.2.core == core && b.2.launch == p.launch))).map (·.1)
    match blk with
    | some k => (s.winByte { p with core := core, blk := k } 0 0 cva).any (fun b => (locKey s [b]).1 == loc)
    | none => false

/-- The logged chunks of a location (R271, R273). -/
def State.chunksOf (s : State) (p : Who) (l : Launch) (die loc va : Nat) : List (Nat × Nat) :=
  ((List.range (s.logCount l die)).map (s.logRead l die)).filter (fun e =>
    bits e.1 59 57 == 0 && s.chunkHere p loc va (bits e.1 56 0) (bits e.2 9 0) (bits e.2 15 10))

/-- The gate of a replaying launch (R273). -/
def State.gate (s : State) (p : Who) (va : Nat) (bs : List PByte) : Gate :=
  match kget s.launches p.launch with
  | none => .pass
  | some l =>
    if !l.lr.replay then .pass
    else
      let k := locKey s bs
      match chunkAt (sget 0 l.cursor k.1) (s.chunksOf p l k.2 k.1 va) with
      | none => .diverge
      | some (cva, core, warp) => if cva = va ∧ core = p.core ∧ warp = p.wid then .pass else .wait

/-- An atomic starts to wait at the gate of a location and die (R273). -/
def State.gateWait (s : State) (lid u : Nat) (k : Nat × Nat) : State :=
  s.modLaunch lid (fun l => if (kget l.gates u).isSome then l else { l with gates := kput l.gates u (s.timebase, k.2, k.1) })

/-- A launch's own answer of the gate: a halted launch's blocks pass (R276). -/
def State.errGateOf (s : State) (p : Who) (l : Launch) (bs : List PByte) : Gate :=
  if l.diverged then .pass else s.gate p l.lr.erraddr bs

/-- The compare-and-swap of `bexit` on a word in the peer window (R216): the peer performs it; until it has answered the block waits
before it retires, and then the value written is hashed. -/
def State.errPeer (s : State) (p : Who) (u code val n off va : Nat) : State :=
  let done (st : State) : State := st.modBlock p.blk (fun b => { b with errGate := none })
  match s.ext.find? (fun e => e.2.u == u && e.2.lane == 64) with
  | none =>
    (s.extNew { u := u, part := p.part, launch := some p.launch, peer := some n, wr := false, off := off,
                data := bytesLE 8 val ++ bytesLE 8 0, n := 8, since := s.timebase, pc := 0, lane := 64, va := va, iid := 0, held := false,
                answer := none }).1.modBlock p.blk (fun b => { b with errGate := some code })
  | some e =>
    match e.2.answer with
    | none => s
    | some (0, vs) =>
      let old := natLE ((List.range 8).map (fun j => vs.getD j 0))
      done (State.hashAdd { s with ext := kdel s.ext e.1 } p.launch p.core [(none, va, bytesLE 8 (if old = 0 then val else old))])
    | some _ => done { s with ext := kdel s.ext e.1 }

/-- The compare-and-swap of `bexit` on ERRADDR (R216), hashed, counted and gated (R271, R273, R290). A driver-class fault waits for
the answer; a program-class fault leaves it unperformed; at a gate the block waits before it retires. -/
def State.errSwap (s : State) (u : Nat) (code : Nat) : State :=
  match s.who u with
  | none => s
  | some p =>
    match kget s.launches p.launch, kget s.blocks p.blk with
    | some l, some b =>
      if l.lr.erraddr = 0 then s
      else
        let r := s.checkElem p u 0 .atomic true false 0 (BitVec.ofNat 64 l.lr.erraddr) 8
        match r.2 with
        | .ok bs =>
          let val := code * 2 ^ 32 + b.bid
          match bs, r.1.errGateOf p l bs with
          | ⟨_, .peer n off, _, _, _⟩ :: _, _ => r.1.errPeer p u code val n off l.lr.erraddr
          | _, .wait =>
            (r.1.gateWait p.launch u (locKey r.1 bs)).modBlock p.blk (fun b => { b with errGate := some code })
          | _, .diverge =>
            (r.1.diverge p.launch (locKey r.1 bs).2).modBlock p.blk (fun b => { b with errGate := some code })
          | _, .pass =>
            let q := r.1.rmw p u 4 bs (fun old => if old = 0 then val else old)
            ((q.1.countAtomic p l.lr.erraddr bs).hashAdd p.launch p.core
              [(none, l.lr.erraddr, bytesLE 8 q.2.2)]).modBlock p.blk (fun b => { b with errGate := none })
        | .driver kind page =>
          (r.1.outstanding p.part p.ctx page l.lr.erraddr kind 3 0 p.core).modBlock p.blk
            (fun b => { b with errWait := some (page, code) })
        | _ => r.1
    | _, _ => s

/-- End every thread of a block at once (R216): the compare-and-swap on ERRADDR, then every warp and the tile context stop,
an open transaction is torn down and the named barriers are freed. The queues drain on; the block retires by
BLOCK_RETIREMENT once its posted matrix commands have completed. -/
def State.endBlock (s : State) (blk : Nat) : State :=
  match kget s.blocks blk with
  | none => s
  | some b =>
    let us := b.warps ++ b.tctx.toList
    let s := us.foldl (fun st v =>
      match kget st.warps v with
      | some w =>
        let st := match w.tx with
          | some t => st.txDrop t
          | none => st
        st.setWarp v { w with frontier := [], ended := true, tx := none, xw := none, hlanes := 0, turn := none, fair := 0 }
      | none => st) s
    s.modBlock blk (fun b => { b with bars := [], stopped := true, accWait := none })

def State.bexit (s : State) (u code : Nat) : State :=
  match kget s.warps u with
  | some w => (s.errSwap u code).endBlock w.blk
  | none => s

/-! ### Taking an exception and returning (R27, R304, R305) -/

/-- A program-class trap: its cause and detail (R214), TRAPADDR, TRAPPC, and TRAPSPC where the cause writes it. -/
structure Trap where
  cause : Nat
  info : Nat
  addr : Nat
  pc : DWord
  spc : Option Nat
  deriving DecidableEq, Repr

/-- The trap registers after a trap (R304). -/
def Warp.trapState (w : Warp) (m : Mask) (t : Trap) : Warp :=
  let w := ((w.setTrapReg 34 (BitVec.ofNat 32 t.cause)).setTrapReg 35 (BitVec.ofNat 32 t.info)).setTrap64 36 t.pc.toNat
  let w := (w.setTrap64 38 t.addr).setTrap64 40 m.toNat
  match t.spc with
  | some a => w.setTrap64 42 a
  | none => w

/-- Take a program-class trap on some lanes of a warp that stand at `at_` (R27): with TRAPENTRY 0 the block ends with the
cause as its code; a fault of lanes that run the handler ends it with 0xF_FFFF; while a handler runs the lanes park
where they stand; otherwise the trap registers are written and the lanes go to TRAPENTRY, where the next instruction is
interlocked (R136). -/
def State.takeTrap (s : State) (u : Nat) (m : Mask) (at_ : DWord) (t : Trap) : State :=
  match kget s.warps u, (s.who u).bind (fun p => kget s.launches p.launch) with
  | some w, some l =>
    if m = 0 || w.ended then s
    else if l.lr.trapentry = 0 then s.bexit u t.cause
    else if (w.hlanes &&& m) != 0 then s.bexit u 0xFFFFF
    else if w.hlanes != 0 then s.setWarp u (w.move m at_ (.parked .handler))
    else
      let w := { (w.trapState m t).leaveTurn m with hlanes := m, locked := true }
      s.setWarp u (w.move m (BitVec.ofNat 64 l.lr.trapentry) .ready)
  | _, _ => s

/-- Lanes leave the handler; when none remains, what parked for it becomes ready (R305). -/
def Warp.leaveHandler (w : Warp) (m : Mask) : Warp :=
  let h := w.hlanes &&& ~~~m
  if h = 0 ∧ w.hlanes ≠ 0 then
    let ps := w.frontier.filter (fun e => decide (e.st = .parked .handler))
    ps.foldl (fun w e => w.move e.mask e.pc .ready) { w with hlanes := 0, locked := w.locked || !ps.isEmpty }
  else { w with hlanes := h }

/-- TRAPPC as `eret` takes it: bits [1:0] and [63:57] are ignored (R213). -/
def Warp.resumePc (w : Warp) : DWord := BitVec.ofNat 64 (w.trap64 36 % top57 / 4 * 4)

/-- `eret` (R215, R305): the lanes move to TRAPPC and leave the handler; their first issue there matches no breakpoint
(R315). -/
def Warp.eret (w : Warp) (m : Mask) : Warp :=
  let w' := (({ w with locked := true }).move m w.resumePc .ready).leaveHandler m
  { w' with frontier := replaceIf (fun e => e.isReady && e.mask == m) (fun e => { e with bpSkip := true }) w'.frontier }

end Sys2Proof.Machine
end

