-- ==== Sys2Proof/Machine/Lineage.lean ====
section
/-! DEFINITION. Lineage and the value store (R60 to R81): the key of a result, lookup, attachment, installation, and
the watches of loads. A stored result is never read back: by R60 it equals the executed one, so the model always
computes the value and the value store decides only names, counts and flags that agree with it. -/

namespace Sys2Proof.Machine

/-- How many registers of the core's resident warps map to a member of an entry (R69). -/
def State.linCount (s : State) (core eid member : Nat) : Nat :=
  (s.warpsOn core).foldl (fun n e => n + (e.2.lin.filter (fun l => l.2.eid == eid && l.2.member == member)).length) 0

/-- Whether any register maps to an entry. -/
def State.linUsed (s : State) (core eid : Nat) : Bool :=
  (s.warpsOn core).any (fun e => e.2.lin.any (fun l => l.2.eid == eid))

/-- The entry in lookup that a register maps to (R62, R71). -/
def State.linOf (s : State) (core : Nat) (w : Warp) (r : Nat) : Option (LinMap × VsEntry) :=
  match kget w.lin r with
  | some m =>
    match kget (s.core core).vs m.eid with
    | some e => if e.inLookup then some (m, e) else none
    | none => none
  | none => none

/-- The architectural registers an instruction reads, in the order a, b, c, old destination (R63, R64). -/
def srcRegs (row : Row) (px : PxF) (wbase : Nat) (whole : Bool) : List Nat :=
  let span (f n : Nat) : List Nat := (List.range n).map (fun j => wbase + f + j)
  let ab := row.uses.flatMap (fun u => match u with
    | .reg pos f n rd _ => if rd ∧ pos < 3 then span f n else []
    | .pred _ _ _ _ => [])
  let c := if px.cv ∧ row.fourth ≠ 0 then span px.c row.fourth else []
  let d := row.uses.flatMap (fun u => match u with
    | .reg 3 f n rd wr => if rd ∨ (wr ∧ (!whole ∨ (row.fourth ≠ 0 ∧ !px.cv))) then span f n else []
    | _ => [])
  ab ++ c ++ d

/-- The destination registers (field and count), if the instruction writes vector registers. -/
def Row.dest (r : Row) : Option (Nat × Nat) :=
  r.uses.findSome? (fun u => match u with
    | .reg 3 f n _ true => some (f, n)
    | _ => none)

/-- The canonical instruction word (R64). -/
def canonWord (row : Row) (w : Word) : Word :=
  row.uses.foldl (fun a u => match u with
    | .reg 0 _ _ _ _ => a &&& ~~~(0x3F80#32)
    | .reg 1 _ _ _ _ => a &&& ~~~(0x1FC000#32)
    | .reg 3 _ _ _ _ => a &&& ~~~(0x7F#32)
    | _ => a) w

/-- The set a key belongs to (R65). -/
def keySet (k : LinKey) : Nat :=
  let w := k.word.toNat
  let s0 := k.sources.headD 0
  ((w % 256) ^^^ (w / 2 ^ 8 % 256) ^^^ (w / 2 ^ 16 % 256) ^^^ (w / 2 ^ 24) ^^^ s0) % 128

/-- Entries in lookup with no register mapped and no producer running are retained (R70). -/
def State.retained (s : State) (core : Nat) (e : Nat × VsEntry) : Bool :=
  e.2.inLookup && !e.2.pending && !s.linUsed core e.1

/-- Registers owned by the resident warps of a core (R19). -/
def State.quota (s : State) (core : Nat) : Nat := (s.warpsOn core).foldl (fun n e => n + 32 * e.2.budget) 0

/-- Reclaim the least recently used retained values while registers are short (R19, R70), at most `n` of them. -/
def State.vsReclaim (s : State) (core : Nat) : Nat → State
  | 0 => s
  | n + 1 =>
    let rs := (s.core core).vs.filter (s.retained core)
    if rs.foldl (fun n e => n + e.2.members) 0 + s.quota core ≤ 4096 then s
    else
      match leastBy (fun e => e.2.stamp) rs with
      | some v => (s.modCore core (fun c => c.dropEntries (fun e => e.num == v.2.num))).vsReclaim core n
      | none => s

/-- Drop dead entries, and reclaim retained values while registers are short (R19, R70). -/
def State.vsSweep (s : State) (core : Nat) : State :=
  if (s.core core).vs.isEmpty then s
  else
    let live (s : State) : State := s.modCore core (fun c =>
      { c with vs := c.vs.filter (fun e => e.2.inLookup || e.2.pending || s.linUsed core e.1) })
    live ((live s).vsReclaim core (s.core core).vs.length)

/-- A free way of a set, or the way of the least recently used retained entry (R65). -/
def State.findWay (s : State) (core set : Nat) : Option (Nat × Option Nat) :=
  let c := s.core core
  let used := (c.vs.filter (fun e => e.2.inLookup)).map (fun e => e.2.num)
  match ((List.range 8).map (fun k => set * 8 + k)).find? (fun n => !used.contains n) with
  | some n => some (n, none)
  | none =>
    match leastBy (fun e => e.2.stamp) (c.vs.filter (fun e => s.retained core e && e.2.num / 8 == set)) with
    | some e => some (e.2.num, some e.2.num)
    | none => none

/-- What decides a result's lineage. -/
structure LinUse where
  key : LinKey
  /-- the cycle after its gathering, from which an attached result may be read (R66, R135) -/
  at1 : Nat
  root : BitVec 64
  /-- the lines or scratchpad units a load reads (R73): none for an instruction that is no load -/
  watch : Option (List Nat × List Nat)
  deriving DecidableEq, Repr

/-- Map destination registers, or take their mapping away. -/
def Warp.mapRegs (w : Warp) (r n : Nat) (m : Option (Nat × Bool)) : Warp :=
  (List.range n).foldl (fun w j => match m with
    | some (eid, att) => { w with lin := kput w.lin (r + j) ⟨eid, j, att⟩ }
    | none => { w with lin := kdel w.lin (r + j) }) w

/-- The entry a way held leaves lookup (R65, R70). -/
def State.evict (s : State) (core : Nat) : Option Nat → State
  | some v => s.modCore core (fun c => c.dropEntries (fun e => e.num == v))
  | none => s

/-- A watch takes a slot (R73). -/
def State.putWatch (s : State) (core : Nat) (k : LinKey) : Option Nat → Option (List Nat × List Nat) → State
  | some i, some (ls, us) => s.modCore core (fun c => { c with watches := kput c.watches i ⟨k.part, k.ctx, ls, us⟩ })
  | _, _ => s

/-- The entry in lookup that has a key (R63, R66). -/
def Core.lookup (c : Core) (k : LinKey) : Option (Nat × VsEntry) := c.vs.find? (fun e => e.2.inLookup && decide (e.2.key = k))

/-- A result that is looked up attaches. -/
def State.linHit (s : State) (core : Nat) (k : Option LinUse) : Bool := k.any (fun k => ((s.core core).lookup k.key).isSome)

/-- An attached result is ready one cycle after its gathering (R66, R135); the stall counts are judged by the executed latency
still (R68). -/
def Warp.readyAt1 (w : Warp) (r n at1 : Nat) : Warp :=
  { w with haz := w.haz.map (fun h => if r ≤ h.reg ∧ h.reg < r + n then { h with avail := min h.avail at1 } else h) }

/-- Lookup, then attach or install (R66, R67, R73): the register's mapping afterwards. DESIGN CHOICE (log 107): on a miss the way is
chosen before the old mapping of the destination is taken away, so the entry that only the destination maps is not yet evictable. -/
def State.linResult (s : State) (core u r n : Nat) (flags : KMap (BitVec 5)) (k : Option LinUse) : State :=
  match k with
  | none => (s.modWarp u (fun w => w.mapRegs r n none)).vsSweep core
  | some k =>
    let lid := (s.who u).elim 0 (·.launch)
    let s := s.bump lid core 0x03
    match (s.core core).lookup k.key with
    | some e =>
      (((s.bump lid core 0x04).modCore core (fun c => { c with vs := kput c.vs e.1 { e.2 with stamp := s.stepNo } })).modWarp u
        (fun w => (if e.2.pending then w else w.readyAt1 r n k.at1).mapRegs r n (some (e.1, true)))).vsSweep core
    | none =>
      let slot : Option (Option Nat) := match k.watch with
        | none => some none
        | some _ => (((List.range 64).find? (fun i => (kget (s.core core).watches i).isNone)).map some)
      match slot, s.findWay core (keySet k.key) with
      | some sl, some (num, victim) =>
        let (eid, s) := s.fresh
        let s := s.evict core victim
        let root := match sl with
          | some i => k.root ||| laneBit i
          | none => k.root
        let e : VsEntry := { num := num, key := k.key, pending := true, inLookup := true, members := n, flags := flags,
                             root := root, stamp := s.stepNo }
        let s := s.modCore core (fun c => { c with vs := kput c.vs eid e })
        let s := s.putWatch core k.key sl k.watch
        (s.modWarp u (fun w => w.mapRegs r n (some (eid, false)))).vsSweep core
      | _, _ => (s.modWarp u (fun w => w.mapRegs r n none)).vsSweep core

/-- A context's entries and watches on a core are purged (R78). -/
def State.purge (s : State) (core part ctx : Nat) : State :=
  if (s.core core).vs.isEmpty && (s.core core).watches.isEmpty then s
  else s.modCore core (fun c =>
    let c := c.dropEntries (fun e => e.key.part == part && e.key.ctx == ctx)
    { c with watches := c.watches.filter (fun w => !(w.2.part == part && w.2.ctx == ctx)) })

/-- The producer of a pending entry completes (R67, R70). -/
def State.producerDone (s : State) (core eid : Nat) : State :=
  match kget (s.core core).vs eid with
  | some e =>
    if e.pending then
      (s.modCore core (fun c => { c with vs := kput c.vs eid { e with pending := false } })).vsSweep core
    else s
  | none => s

end Sys2Proof.Machine
end

