-- ==== Sys2Proof/Machine/Front.lean ====
section
/-! DEFINITION. What every instruction shares before and after its own effect: the legality checks (R128 to R139), the
register window (R20), gathering and stall counts (R133 to R138), the execution mask (R132), writing results (R144,
R145), levels (R324), lineage (R62, R66) and the advance of the issuing entry (R23). -/

namespace Sys2Proof.Machine

/-- An instruction that has passed its front-end checks: its unit, the latch, the warp after gathering, who the unit is,
the launch record, the prefix, the execution mask, the opcode map's row, and the results it reads too early (R137). -/
structure Ctx where
  u : Nat
  is : Issue
  w : Warp
  p : Who
  lr : LaunchRec
  px : PxF
  m : Mask
  row : Row
  early : List Hazard
  step : Nat
  deriving DecidableEq, Repr

inductive Front where
  | stop (s : State)
  | go (c : Ctx) (s : State)
  deriving DecidableEq, Repr

/-- A predicate among the results under way. -/
def predKey (p : Nat) : Nat := 1024 + p

/-- An attempt gives back what it took: the entry has not issued (R32), the interlock still holds (R136). -/
def Warp.unissue (is : Issue) (w : Warp) : Warp :=
  { w with locked := is.locked,
           frontier := replaceIf (fun e => e.isReady && (e.mask &&& is.mask) != 0) (fun e => { e with stamp := is.stamp }) w.frontier }

/-- The instruction does not take its Issue step now; its entry stands where it is. -/
def State.retry (s : State) : State :=
  { s with cur := none, warps := match s.cur with
      | some is => kmod s.warps is.u (Warp.unissue is)
      | none => s.warps }

/-- A group of an `xw` is done: the next group is due, and lanes that left are no longer the run's (R207, R209). -/
def Warp.groupDone (w : Warp) (gone : Mask) : Warp :=
  match w.xw with
  | some r => { w with xw := some { r with groups := r.groups.tail, mask := r.mask &&& ~~~gone } }
  | none => w

/-- Entries of a debug step are over; the command is done when nothing is left to step (R316). -/
def State.stepOver (s : State) (p u pc : Nat) (gone : Nat × Nat × Mask → Bool) : State :=
  if (s.part p).stepping.isEmpty then s
  else
    let s := s.modPart p (fun x => { x with stepping := x.stepping.filter (fun e => !gone e) })
    if (s.part p).stepping.isEmpty then
      let at_ := ((kget s.warps u).bind (fun w => headOf w.frontier)).elim pc (·.pc.toNat)
      (((s.setPreg p .dstate 2).setPreg p .dresult 0).setPreg p .dstop 4).setPreg p .dpc at_
    else s

/-- A stepped unit has issued (R316). A single step names no mask, and is done wherever the unit issued. -/
def State.stepDone (s : State) (p u pc : Nat) : State :=
  s.stepOver p u pc (fun e => e.1 == u && (e.2.1 == pc || e.2.2 == 0))

/-- Nothing of a unit is left to step. -/
def State.stepEnd (s : State) (p u pc : Nat) : State := s.stepOver p u pc (fun e => e.1 == u)

/-- The instruction is done: the lanes that stayed move to the next instruction (R23); a group of an `xw` hands on to the
next group. -/
def State.done (s : State) (c : Ctx) (stay : Mask) : State :=
  let s := State.bump { s with cur := none } c.p.launch c.p.core 0x02
  match kget s.warps c.u with
  | none => s
  | some w =>
    if w.ended then s.stepEnd c.p.part c.u c.is.pc.toNat
    else if c.is.depth = 0 then (s.setWarp c.u (w.move stay c.is.npc .ready)).stepDone c.p.part c.u c.is.pc.toNat
    else s.setWarp c.u (w.groupDone (c.is.mask &&& ~~~stay))

/-- A program-class trap of some lanes; the others of the issue go on (R27). -/
def State.trapLanes (s : State) (c : Ctx) (m : Mask) (cause info addr : Nat) : State :=
  s.takeTrap c.u m c.is.pc ⟨cause, info, addr, c.is.pc, none⟩

/-- A trap of the whole issuing sub-group before any effect. -/
def State.trapAll (s : State) (c : Ctx) (cause info addr : Nat) : State :=
  (s.trapLanes c c.is.mask cause info addr).done c 0

/-- The register operands a row reads or writes, with the prefix's fourth operand in its place (R137). -/
def regUses (row : Row) (px : PxF) : List (Nat × Nat × Nat) :=
  let us := row.uses.filterMap (fun u => match u with
    | .reg pos f n _ _ => some (pos, f, n)
    | .pred _ _ _ _ => none)
  us.filter (fun x => x.1 < 3) ++ (if px.cv && row.fourth != 0 then [(2, px.c, row.fourth)] else []) ++
    us.filter (fun x => x.1 == 3)

/-- The operands whose vector registers are read, the old destination where it matters (R137). -/
def readUses (row : Row) (px : PxF) (whole : Bool) : List (Nat × Nat × Nat) :=
  let d := row.uses.filterMap (fun u => match u with
    | .reg 3 f n rd wr => if rd || (wr && (!whole || (row.fourth != 0 && !px.cv))) then some (3, f, n) else none
    | _ => none)
  (row.uses.filterMap (fun u => match u with
    | .reg pos f n true _ => if pos < 3 then some (pos, f, n) else none
    | _ => none)) ++ (if px.cv && row.fourth != 0 then [(2, px.c, row.fourth)] else []) ++ d

/-- The budget B of a warp (R19, R33). -/
def Warp.space (w : Warp) : Nat := if w.tile then 128 else 32 * w.budget

/-- The first operand past the budget (R20). -/
def windowBad (w : Warp) (row : Row) (px : PxF) : Option (Nat × Nat) :=
  ((regUses row px).find? (fun x => decide (w.wbase + x.2.1 + x.2.2 > w.space))).map (fun x => (x.1, x.2.1))

/-- Whether the cluster's ratio makes every word interlocked: ½ (R138). -/
def State.halfRatio (s : State) (cl : Nat) : Bool := sget 1 s.power.effRatio cl == 0

/-- The predicates an instruction reads: its mask predicate and its predicate operands. -/
def predReads (row : Row) (px : PxF) : List Nat :=
  px.mp :: row.uses.filterMap (fun u => match u with
    | .pred _ f true _ => some f
    | _ => none)

/-- The cycle a word begins gathering, and the reads that come too early, if its counts apply (R134, R137). Predicates are
interlocked always; vector registers when no count covers the word. -/
def gatherAt (s : State) (w : Warp) (covered : Bool) (reads : List (Nat × Nat × Nat)) (preds : List Nat) : Nat × List Hazard :=
  match w.haz with
  | [] => (w.gather, [])
  | hz =>
    let g := (hz.filter (fun h => preds.any (fun p => h.reg == predKey p))).foldl (fun g h => max g h.avail) (w.gather + Config.delay s.stepNo)
    let hit := hz.filter (fun h => reads.any (fun x => decide (w.wbase + x.2.1 ≤ h.reg ∧ h.reg < w.wbase + x.2.1 + x.2.2)))
    if covered then (g, hit.filter (fun h => decide (g < h.ready)))
    else (hit.foldl (fun g h => max g h.avail) g, [])

/-- The operand CHECKSTALL reports: field, position, cycles short (R137). -/
def stallInfo (w : Warp) (g : Nat) (early : List Hazard) (reads : List (Nat × Nat × Nat)) : Nat :=
  match reads.findSome? (fun x => (early.find? (fun h => decide (w.wbase + x.2.1 ≤ h.reg ∧ h.reg < w.wbase + x.2.1 + x.2.2))).map
      (fun h => (x, h))) with
  | some (x, h) => (h.reg - w.wbase) % 128 + x.1 * 2 ^ 7 + (h.ready - g) % 128 * 2 ^ 9
  | none => 0

/-- The execution mask (R132). -/
def execMask (w : Warp) (px : PxF) (a : Mask) : Mask :=
  let e := w.pred px.mp
  a &&& (if px.mn then ~~~e else e)

/-- The fields of the prefix of the latched instruction (R129), or their values without one. -/
def Issue.px (is : Issue) : PxF :=
  match is.pfx with
  | some x => pxFields x.toNat
  | none => pxAbsent

/-- The checks every instruction passes before its own effect, in the order illegal instruction, window overflow, stall
count; each traps the whole issuing sub-group (R20, R130, R137, R139). -/
def front (i : Instr) (s : State) : Front :=
  match s.cur with
  | none => .stop s
  | some is =>
    match kget s.warps is.u, s.who is.u with
    | some w, some p =>
      match s.lrOf p.launch with
      | none => .stop s.retry
      | some lr =>
        if w.ended || is.mask == 0 then .stop s.retry
        else
          let row := i.row
          let px := is.px
          let c0 : Ctx := ⟨is.u, is, w, p, lr, px, 0, row, [], s.stepNo⟩
          if is.pfx.isSome && !row.accepts px then .stop (s.trapAll c0 0x01 (is.pfx.getD 0).toNat 0)
          else if !(i.legalWord px && i.legalOn w.tile) then .stop (s.trapAll c0 0x01 is.word.toNat 0)
          else
            match windowBad w row px with
            | some (pos, f) => .stop (s.trapAll c0 0x04 (f + pos * 2 ^ 7) 0)
            | none =>
              let m := execMask w px is.mask
              let reads := readUses row px (m == -1 || w.tile)
              let covered := is.count.isSome && is.depth == 0 && !w.locked && !s.halfRatio (p.core / 4)
              let g := gatherAt s w covered reads (predReads row px)
              if lr.checkstall && !g.2.isEmpty then .stop (s.trapAll c0 0x03 (stallInfo w g.1 g.2 reads) 0)
              else
                let w := { w with gather := g.1 + 1 + is.count.getD 0, locked := false,
                                  haz := w.haz.filter (fun h => decide (g.1 < h.ready)) }
                .go ⟨is.u, is, w, p, lr, px, m, row, g.2, s.stepNo⟩ (s.setWarp is.u w)
    | _, _ => .stop s.retry

/-! ### Operands (R132, R144) -/

/-- A register of the window in a lane, as this instruction reads it (R20, R137). -/
def Ctx.rd (c : Ctx) (f lane : Nat) : Word :=
  let r := c.w.wbase + f
  match c.early with
  | [] => c.w.reg r lane
  | hs =>
    match hs.find? (fun h => h.reg == r) with
    | some h => if Config.seesNew c.step r lane then c.w.reg r lane else (kget h.old lane).getD (c.w.reg r lane)
    | none => c.w.reg r lane

/-- A pair (R144). -/
def Ctx.rd64 (c : Ctx) (f lane : Nat) : DWord := c.rd (f + 1) lane ++ c.rd f lane
/-- The fourth operand: V[c] with cv = 1, else the old destination (R132). -/
def Ctx.fourth (c : Ctx) (d lane : Nat) : Word := if c.px.cv then c.rd c.px.c lane else c.rd d lane
def Ctx.fourth64 (c : Ctx) (d lane : Nat) : DWord := if c.px.cv then c.rd64 c.px.c lane else c.rd64 d lane
/-- The lowest lane of M (R184). -/
def Ctx.low (c : Ctx) : Nat := (lowestLane c.m).getD 0
/-- All lanes execute: M is the whole width (R64). -/
def Ctx.whole (c : Ctx) : Bool := c.m == -1 || c.w.tile

/-! ### Results -/

/-- Some lane keeps the old destination (R145, R324). -/
def Ctx.keeps (c : Ctx) : Bool := !c.w.tile && (if c.px.zp then c.is.mask != -1 else c.m != -1)

/-- The level of a result (R324): its register and predicate sources, the mask predicate, the old destination where lanes
keep it, and what it read from memory. -/
def Ctx.level (c : Ctx) (mem : Nat) : Nat :=
  let keeps := c.keeps
  let regs := (srcRegs c.row c.px c.w.wbase (!keeps)).map c.w.regLevel
  let preds := c.row.uses.map (fun u => match u with
    | .pred _ f true _ => c.w.predLevel f
    | .pred _ f _ true => if keeps then c.w.predLevel f else 0
    | _ => 0)
  (regs ++ preds).foldl max (max (c.w.predLevel c.px.mp) mem)

/-- Write the lanes of a group of registers: each lane's words from register `r` up. -/
def Warp.writeLanes (w : Warp) (r : Nat) : List (Nat × List Word) → Warp
  | [] => w
  | (lane, vs) :: t =>
    (((List.range vs.length).zip vs).foldl (fun w x => w.setReg (r + x.1) lane x.2) w).writeLanes r t

def Warp.orLanes (w : Warp) : List (Nat × BitVec 5) → Warp
  | [] => w
  | (lane, f) :: t => (w.orFlags lane f).orLanes t

/-- The lanes of A outside M. -/
def Ctx.rest (c : Ctx) : Mask := c.is.mask &&& ~~~c.m

/-- With zp = 1 the other active lanes receive 0 (R145). -/
def Ctx.zeros (c : Ctx) (n : Nat) : List (Nat × List Word) :=
  if c.px.zp then (lanesOf c.rest).map (fun l => (l, List.replicate n (0 : Word))) else []

/-- Lanes that keep an old value read too early keep what they read (R137). -/
def Ctx.kept (c : Ctx) (d n : Nat) : List (Nat × List Word) :=
  match c.early with
  | [] => []
  | _ => (lanesOf (if c.px.zp then ~~~c.is.mask else ~~~c.m)).map (fun l => (l, (List.range n).map (fun j => c.rd (d + j) l)))

/-- The lanes a destination writes and their words. -/
def Ctx.lanesIn (c : Ctx) (d n : Nat) (vals : List (Nat × List Word)) : List (Nat × List Word) :=
  c.kept d n ++ vals ++ c.zeros n

/-- The level of written registers, and a tile context's written set (R324). -/
def Warp.markWritten (w : Warp) (r n lev : Nat) : Warp :=
  { w with rlev := (List.range n).foldl (fun m j => sset 0 m (r + j) lev) w.rlev,
           written := if w.tile then (List.range n).foldl (fun m j => sset false m (r + j) true) w.written else w.written }

/-- The cycle at which this instruction's fixed-latency result is there (R134, R135). -/
def Ctx.readyAt (c : Ctx) (w : Warp) : Nat := w.gather - 1 - c.is.count.getD 0 + c.row.lat

/-- Results of a fixed latency are under way (R134, R137). A result the hardware tracks is waited for by every reader, so what
was under way to its registers is over (R136, R147). -/
def Ctx.underWay (c : Ctx) (w : Warp) (r n : Nat) (all : List (Nat × List Word)) : Warp :=
  let hz := if c.row.lat = 0 then [] else (List.range n).map (fun j =>
    ({ reg := r + j, ready := c.readyAt w, avail := c.readyAt w, old := all.map (fun x => (x.1, c.w.reg (r + j) x.1)) } : Hazard))
  { w with haz := hz ++ w.haz.filter (fun h => !(decide (r ≤ h.reg ∧ h.reg < r + n))) }

/-- Write a destination of `n` registers at field `d` (R145): the lanes of M their results, with zp = 1 the other active
lanes 0; latency, levels and the written set of a tile context follow. -/
def Ctx.put (c : Ctx) (d n : Nat) (vals : List (Nat × List Word)) (lev : Nat) : Warp :=
  let r := c.w.wbase + d
  let all := c.lanesIn d n vals
  let w := c.w.writeLanes r all
  let w := if !vals.isEmpty || !(c.zeros n).isEmpty then w.markWritten r n lev else w
  c.underWay w r n all

/-- The lineage of a result (R62 to R64): none when it is not looked up. -/
def Ctx.linUse (c : Ctx) (s : State) (cls : Cls) (lev : Nat) (root : Word) (watch : Option (List Nat × List Nat)) : Option LinUse :=
  if !c.w.lnOn || c.w.tile || (c.px.zp && c.m != c.is.mask) || cls = .n then none
  else
    let srcs := srcRegs c.row c.px c.w.wbase c.whole
    match srcs.mapM (s.linOf c.p.core c.w) with
    | none => none
    | some es =>
      some { key := { part := c.p.part, ctx := c.p.ctx, level := lev, word := canonWord c.row c.is.word,
                      pfx := match c.is.pfx with
                        | some x => x &&& ~~~(0xFE00#32)
                        | none => 0,
                      mask := c.m, root := root, sources := es.map (·.2.num) },
             at1 := c.w.gather - c.is.count.getD 0, root := es.foldl (fun m e => m ||| e.2.root) 0, watch := watch }

/-- An instruction that reads operands too early and attaches takes the version that its key names (R137). -/
def Ctx.attached (c : Ctx) (s : State) (cls : Cls) (root : Word) : Ctx :=
  if !c.early.isEmpty && s.linHit c.p.core (c.linUse s cls (c.level 0) root none) then { c with early := [] } else c

/-- Finish an instruction that writes registers: results, flags, level, lineage, advance. -/
def Ctx.finishReg (c : Ctx) (s : State) (d n : Nat) (f : Nat → List Word × BitVec 5) (cls : Cls) (root : Word) : State :=
  let rs := (lanesOf c.m).map (fun l => (l, f l))
  let lev := c.level 0
  let w := (c.put d n (rs.map (fun x => (x.1, x.2.1))) lev).orLanes (rs.map (fun x => (x.1, x.2.2)))
  let flags := rs.foldl (fun m x => sset 0 m x.1 x.2.2) ([] : KMap (BitVec 5))
  let k := c.linUse s cls lev root none
  let s := (s.setWarp c.u w)
  (if c.m = 0 && !c.px.zp then s else s.linResult c.p.core c.u (c.w.wbase + d) n flags k).done c c.is.mask

/-- Finish an instruction that writes a predicate. -/
def Ctx.putPred (c : Ctx) (w : Warp) (d : Nat) (v : Mask) (zp : Bool) (lev : Nat) : Warp :=
  let old := w.pred d
  let keep := if zp then old &&& ~~~c.is.mask else old &&& ~~~c.m
  if c.m = 0 && !zp then w
  else
    let w := w.setPred d (keep ||| (v &&& c.m))
    if d = 0 then w
    else
      let hz : List Hazard := if c.row.lat = 0 then [] else [⟨predKey d, c.readyAt w, c.readyAt w, []⟩]
      { w with plev := sset 0 w.plev d lev, haz := hz ++ w.haz.filter (fun h => h.reg != predKey d) }

def Ctx.finishPred (c : Ctx) (s : State) (d : Nat) (f : Nat → Bool × BitVec 5) : State :=
  let rs := (lanesOf c.m).map (fun l => (l, f l))
  let v := maskOf ((rs.filter (fun x => x.2.1)).map (·.1))
  let w := (c.putPred c.w d v c.px.zp (c.level 0)).orLanes (rs.map (fun x => (x.1, x.2.2)))
  (s.setWarp c.u w).done c c.is.mask

/-- An instruction that computes registers from registers. -/
def regOp (i : Instr) (s : State) (d : BitVec 7) (n : Nat) (f : Ctx → Nat → List Word × BitVec 5) : Out :=
  match front i s with
  | .stop t => .next t
  | .go c t => let c := c.attached t c.row.cls 0; .next (c.finishReg t d.toNat n (f c) c.row.cls 0)

/-- An instruction that computes a predicate. -/
def predOp (i : Instr) (s : State) (d : BitVec 7) (f : Ctx → Nat → Bool × BitVec 5) : Out :=
  match front i s with
  | .stop t => .next t
  | .go c t => .next (c.finishPred t d.toNat (f c))

/-- An instruction that changes the state as a whole. -/
def warpOp (i : Instr) (s : State) (f : Ctx → State → State) : Out :=
  match front i s with
  | .stop t => .next t
  | .go c t => .next (f c t)

end Sys2Proof.Machine
end

