-- ==== Sys2Proof/Machine/Mem.lean ====
section
/-! DEFINITION. The memory operations (R185, R189 to R196): loads, stores and atomics over the lanes of the execution
mask, with the faults of some lanes, posted stores, and accesses that wait for a peer or the host. -/

namespace Sys2Proof.Machine

/-- One lane's element after its checks. -/
structure LaneRes where
  lane : Nat
  va : Nat
  r : Res
  deriving DecidableEq, Repr

/-- Check the element of every lane (R125, R185), lanes ascending. -/
def State.checkLanes (s : State) (c : Ctx) (acc : Acc) (need post : Bool) (n : Nat) (addr : Nat → DWord) (lev : Nat → Nat) :
    List Nat → State × List LaneRes
  | [] => (s, [])
  | l :: t =>
    let r := s.checkElem c.p c.u l acc need post (lev l) (addr l) n
    let q := r.1.checkLanes c acc need post n addr lev t
    (q.1, ⟨l, (addr l).toNat, r.2⟩ :: q.2)

def LaneRes.isOk (r : LaneRes) : Bool := match r.r with
  | .ok _ => true
  | _ => false
def LaneRes.bytes (r : LaneRes) : List PByte := match r.r with
  | .ok bs => bs
  | _ => []
def LaneRes.cause (r : LaneRes) : Option Nat := match r.r with
  | .prog k _ => some k
  | _ => none
def LaneRes.isFault (r : LaneRes) : Bool := match r.r with
  | .prog _ _ => true
  | .driver _ _ => true
  | _ => false

def maskOfRes (rs : List LaneRes) : Mask := maskOf (rs.map (·.lane))

/-- The lanes of one cause take the trap (R125, R185), lowest codes first; the next causes meet a running handler. -/
def State.trapCauses (s : State) (c : Ctx) : List Nat → List LaneRes → State
  | [], _ => s
  | k :: t, rs =>
    match rs.filter (fun r => r.cause == some k) with
    | [] => s.trapCauses c t rs
    | r :: more =>
      let info := match r.r with
        | .prog _ i => i
        | _ => 0
      (s.trapLanes c (maskOfRes (r :: more)) k info r.va).trapCauses c t rs

/-- An element in the peer window. -/
def isPeer (r : LaneRes) : Bool := r.bytes.any (fun b => match b.loc with
  | .peer _ _ => true
  | _ => false)

/-- An element that a peer or the host performs atomics on; the bytes of an order-first page are held here. -/
def isOut (r : LaneRes) : Bool := r.bytes.any (fun b => match b.loc with
  | .peer _ _ => true
  | .mem pa => decide (devTop ≤ pa) && b.cls != 4
  | .spad _ _ => false)

/-- The pages of the driver-class faults park their lanes (R27). -/
def State.parkLanes (s : State) (c : Ctx) (acc : Acc) : List LaneRes → State
  | [] => s
  | r :: t =>
    (match r.r with
     | .driver kind page => s.park c.u (laneBit r.lane) c.is.pc page r.va kind acc.code
     | _ => s).parkLanes c acc t

/-- Every faulting lane leaves (R27), the lowest first (R185). -/
def State.settle (s : State) (c : Ctx) (acc : Acc) (rs : List LaneRes) : State :=
  let fs := sortByKey (·.lane) (rs.filter LaneRes.isFault)
  let s := s.parkLanes c acc fs
  s.trapCauses c (sortByKey (fun k => k) (dedup (fs.filterMap LaneRes.cause))) fs

/-! ### Accesses that leave the device (R112, R320) -/

/-- The answered request of a lane at this instruction, if there is one. -/
def State.answerOf (s : State) (c : Ctx) (lane : Nat) : Option (Nat × Nat × List Byte) :=
  s.ext.findSome? (fun e =>
    if e.2.u == c.u && !e.2.wr && e.2.lane == lane && e.2.pc == c.is.pc then
      e.2.answer.map (fun a => (e.1, a.1, a.2))
    else none)

/-- Some lanes send one request, in the name of one lane, and wait for its answer at this instruction. -/
def State.askOutside (s : State) (c : Ctx) (m : Mask) (lane va : Nat) (bs : List PByte) (data : List Byte) : State :=
  match bs with
  | [] => s
  | b :: _ =>
    let (peer, off) : Option Nat × Nat := match b.loc with
      | .peer n o => (some n, o)
      | .mem pa => (none, pa)
      | .spad _ o => (none, o)
    let data := if peer.isNone then s.cipher c.p.part true off data else data
    let (s, r) := s.extNew { u := c.u, part := c.p.part, launch := some c.p.launch, peer := peer, wr := false, off := off, data := data, n := bs.length,
                             since := s.timebase, pc := c.is.pc, lane := lane, va := va, iid := 0, held := false, answer := none }
    s.modWarp c.u (fun w => if w.ended then w else w.move m c.is.pc (.waiting (.ext r)))

/-- What a lane's read gives: its bytes, a fault of check 8, or a wait. -/
inductive Got where
  | bytes (bs : List Byte)
  | prog (cause info : Nat)
  | outside
  deriving DecidableEq, Repr

/-- Read a lane's element (R109 Issue). -/
def State.readLane (s : State) (c : Ctx) (r : LaneRes) : State × Got :=
  let q := s.loadBytes c.p c.u r.lane r.bytes
  match q.2.mapM id with
  | some bs => (q.1, .bytes bs)
  | none =>
    match s.answerOf c r.lane with
    | some (k, err, bs) =>
      let s := { s with ext := kdel s.ext k }
      if err = 0 then (s, .bytes ((List.range r.bytes.length).map (fun j => bs.getD j 0)))
      else (s, .prog (if err = 1 then 0x17 else 0x18) (match r.bytes with
        | ⟨_, .peer n _, _, _, _⟩ :: _ => n
        | _ => 0))
    | none => (s, .outside)

def State.readLanes (s : State) (c : Ctx) : List LaneRes → State × List (LaneRes × Got)
  | [] => (s, [])
  | r :: t =>
    let q := s.readLane c r
    let z := q.1.readLanes c t
    (z.1, (r, q.2) :: z.2)

/-! ### Loads -/

/-- The lines and scratchpad units a load reads, if a watch may cover them: units of the core's own scratchpad, or of a sibling's
through the cluster alias (R72). -/
def watchOf (s : State) (c : Ctx) (rs : List LaneRes) : Option (List Nat × List Nat) :=
  let bs := rs.flatMap LaneRes.bytes
  if bs.all (fun b => b.watch) then
    let ls := dedup (bs.filterMap (fun b => match b.loc with
      | .mem pa => some (pa / lineBytes)
      | _ => none))
    let us := dedup (bs.filterMap (fun b => match b.loc with
      | .spad k off => (kget s.blocks k).map (fun x => x.unitAt off)
      | _ => none))
    if ls.length + us.length ≤ 4 then some (ls, us) else none
  else none

/-- How a load acquires (R194): not at all, or its scope code and whether it promotes. -/
abbrev AcqUse := Option (Nat × Bool)

/-- The lane cycles of a scratchpad access beyond one per phase (R192, R293): in a phase the most bank words that its lanes ask of one
bank; the lanes of an atomic each ask for their own. -/
def spadExtra (atom : Bool) (n : Nat) (rs : List LaneRes) : Nat :=
  let per := if n ≤ 4 then 64 else 256 / n
  (List.range (64 / per)).foldl (fun t k =>
    let asks := (rs.filter (fun r => r.lane / per == k)).flatMap (fun r => dedup (r.bytes.filterMap (fun b => match b.loc with
      | .spad blk off => some (blk, off / 4)
      | _ => none)))
    let words := if atom then asks else dedup asks
    t + ((List.range 64).foldl (fun m j => max m (words.filter (fun w => w.2 % 64 == j)).length) 0 - 1)) 0

/-- Promote on some lines (R113): whether it is done on every one. -/
def State.promoteAll (s : State) (v : Nat) : List Nat → State × Bool
  | [] => (s, true)
  | l :: t =>
    let r := s.promote l v
    let q := r.1.promoteAll v t
    (q.1, r.2 && q.2)

/-- Before an acquiring read: Promote on the lines (R113), then the refresh of the lines read (R112). The acquire waits while a
Promote is not done. -/
def State.preAcquire (s : State) (c : Ctx) (a : AcqUse) (rs : List LaneRes) : State × Bool :=
  match a with
  | none => (s, true)
  | some (scope, rmt) =>
    let ls := dedup ((rs.flatMap LaneRes.bytes).filterMap (fun b => match b.loc with
      | .mem pa => if b.cls ≤ 3 then some (pa / lineBytes) else none
      | _ => none))
    let r := if rmt then s.promoteAll c.p.view ls else (s, true)
    (if r.2 && decide (scope ≥ 3) then ls.foldl (fun st l => st.refresh c.p.view l) r.1 else r.1, r.2)

/-- A load: its address, width and alignment rule, how its bytes become words, its post-increment, and how it acquires. -/
structure LoadForm where
  addr : Ctx → Nat → DWord
  bytes : Nat
  need : Bool
  words : List Byte → List Word
  acq : AcqUse
  step : Option (Nat × Nat)
  deriving Inhabited

/-- The stepped address of a post-increment form (R193). -/
def stepAddr (w : Warp) (k : Nat) (a : DWord) : DWord :=
  let base : Nat := (sget 0 w.mods (64 + 4 * k)).toNat + (sget 0 w.mods (65 + 4 * k)).toNat * 2 ^ 32
  let len : Nat := (sget 0 w.mods (66 + 4 * k)).toNat
  let step : Int := (sget 0 w.mods (67 + 4 * k)).toInt
  if len = 0 then a + BitVec.ofInt 64 step
  else
    let off : Int := (a - BitVec.ofNat 64 base).toInt
    BitVec.ofNat 64 base + BitVec.ofInt 64 ((off + step).emod len)

/-- The words of a 64-bit value, low first. -/
def words64 (v : DWord) : List Word := [v.extractLsb' 0 32, v.extractLsb' 32 32]

/-- Step the address pairs of the lanes that completed (R193): their lineage goes, and they carry the highest of the levels of the
pair and of the mask predicate (R324). -/
def State.stepLanes (s : State) (c : Ctx) (st : Option (Nat × Nat)) (lanes : List Nat) : State :=
  match st with
  | none => s
  | some (a, k) =>
    if lanes.isEmpty then s
    else s.modWarp c.u (fun w =>
      ((w.writeLanes (c.w.wbase + a) (lanes.map (fun l => (l, words64 (stepAddr c.w k (c.rd64 a l)))))).markWritten (c.w.wbase + a) 2
        (max (c.w.predLevel c.px.mp) (max (c.w.regLevel (c.w.wbase + a)) (c.w.regLevel (c.w.wbase + a + 1))))).mapRegs (c.w.wbase + a) 2 none)

/-- The level a load's result carries (R324). -/
def loadLevel (c : Ctx) (oks : List LaneRes) : Nat := c.level ((oks.flatMap LaneRes.bytes).foldl (fun m b => max m b.lev) 0)

/-- The lookup of a load whose lanes have all passed (R66, R72). -/
def loadUse (c : Ctx) (s : State) (oks : List LaneRes) : Option LinUse :=
  match watchOf s c oks with
  | some wt => c.linUse s (match c.row.cls with
      | .ld => .l
      | k => k) (loadLevel c oks) 0 (some wt)
  | none => none

/-- A load that reads operands too early and attaches: it takes the version that its key names (R137). -/
def loadCtx (f : LoadForm) (c : Ctx) (s : State) : Ctx :=
  if c.early.isEmpty then c
  else
    let c0 := { c with early := [] }
    let r := s.checkLanes c0 .load f.need false f.bytes (f.addr c0) (fun _ => 0) (lanesOf c.m)
    if r.2.all LaneRes.isOk && s.linHit c.p.core (loadUse c0 r.1 r.2) then c0 else c

/-- The effect of a load after its front-end checks (R109, R125, R190). -/
def loadGo (f : LoadForm) (d n : Nat) (c1 : Ctx) (s : State) : State :=
  let c := loadCtx f c1 s
  let ls := lanesOf c.m
  let r := s.checkLanes c .load f.need false f.bytes (f.addr c) (fun _ => 0) ls
  let oks := r.2.filter LaneRes.isOk
  let a := r.1.preAcquire c f.acq oks
  if !a.2 then a.1.retry
  else
  let s := a.1
  let g := s.readLanes c oks
  let vals := g.2.filterMap (fun x => match x.2 with
    | .bytes bs => some (x.1.lane, f.words bs)
    | _ => none)
  let bad := r.2.filter LaneRes.isFault ++ g.2.filterMap (fun x => match x.2 with
    | .prog k i => some { x.1 with r := .prog k i }
    | _ => none)
  let out := (g.2.filter (fun x => x.2 == .outside)).map (·.1)
  let s := g.1
  let use := if bad.isEmpty && out.isEmpty then loadUse c s oks else none
  let s := (s.bumpBy c.p.launch c.p.core 7 (spadExtra false f.bytes oks)).setWarp c.u (c.put d n vals (loadLevel c oks))
  let s := if vals.isEmpty && !(c.px.zp && c.rest != 0) then s else s.linResult c.p.core c.u (c.w.wbase + d) n [] use
  let s := s.stepLanes c f.step (vals.map (·.1))
  let s := match f.acq with
    | some (scope, _) => if vals.isEmpty then s else s.acquire c.p.view scope
    | none => s
  let s := out.foldl (fun st x => st.askOutside c (laneBit x.lane) x.lane x.va x.bytes []) s
  (s.settle c .load bad).done c (c.is.mask &&& ~~~(maskOfRes bad ||| maskOfRes out))

def loadOp (i : Instr) (s : State) (d : BitVec 7) (n : Nat) (f : LoadForm) : Out :=
  warpOp i s (loadGo f d.toNat n)

/-! ### Stores -/

/-- A queue entry has bytes for a peer. -/
def QEntry.toPeer (e : QEntry) : Bool := e.bytes.any (fun b => match b.loc with
  | some (.peer _ _) => true
  | _ => false)

/-- Store-fault records and posted stores of a core, each posted store counted once: those whose walks are open, and those to peers
until the target has acknowledged them (R306). -/
def State.postedOn (s : State) (core : Nat) : Nat :=
  let open_ := (s.warpsOn core).flatMap (fun e => e.2.posted.map (fun x => (e.1, x.id)))
  let queued := (s.warpsOn core).flatMap (fun e => e.2.queues.flatMap (fun q => (q.2.filter QEntry.toPeer).map (fun x => (e.1, x.iid))))
  let sent := (s.ext.filter (fun e => e.2.wr && e.2.peer.isSome && e.2.answer.isNone && (s.warpsOn core).any (fun w => w.1 == e.2.u))).map
    (fun e => (e.2.u, e.2.iid))
  (s.core core).sfq.length + (dedup (open_ ++ queued ++ sent)).length

/-- A store: its address, width, alignment rule, data, release scope, post-increment. -/
structure StoreForm where
  addr : Ctx → Nat → DWord
  bytes : Nat
  need : Bool
  data : Ctx → Nat → List Byte
  rel : Option Nat
  step : Option (Nat × Nat)
  deriving Inhabited

/-- The unit that byte k of a lane's element is written with (R115): an aligned element whole, up to 8 bytes; a misaligned one byte
by byte. -/
def storeUnit (iid lane va n k : Nat) : Nat := 2 * ((iid * 64 + lane) * 16 + (if va % n = 0 then k / 8 else k) + 1)

/-- One lane's bytes as queue bytes: placed, or waiting for their translation (R118). -/
def qBytes (iid lane va : Nat) (bs : List PByte) (data : List Byte) : List QByte :=
  ((List.range data.length).zip data).map (fun x =>
    let b : QByte := match bs[x.1]? with
      | some y => ⟨y.va, some y.loc, x.2, y.cls, 0⟩
      | none => ⟨va + x.1, none, x.2, 0, 0⟩
    { b with unit := storeUnit iid lane va data.length x.1 })

/-- Leave each byte to the highest lane that writes it (R117). -/
def trimLanes : List (Nat × List QByte) → List (Nat × List QByte)
  | [] => []
  | (l, bs) :: t => (l, bs.filter (fun b => !(t.any (fun x => x.2.any (sameByte b))))) :: trimLanes t

/-- Append an entry to a thread's queue. -/
def Warp.enqueue (w : Warp) (lane : Nat) (e : QEntry) : Warp :=
  { w with queues := sset [] w.queues lane (sget [] w.queues lane ++ [e]) }

/-- A byte of an order-first page may take its Hold step at once: no earlier store of the lane waits to take one (R109, R110, R122). -/
def holdsNow (q : List QEntry) : Bool := q.all (fun e => e.bytes.all (fun b => b.loc.isSome && b.cls != 4))

/-- The lanes' entries join their queues (R109); bytes of an order-first page are held at once, or, behind a store that may be to
one, when they leave the queue (R110, R122, R237). -/
def State.storeLane (s : State) (c : Ctx) (rel walk : Option Nat) (iid lev : Nat) (now : Bool) (lane : Nat) (bs : List QByte) : State :=
  let now := now && holdsNow (((kget s.warps c.u).map (fun w => sget [] w.queues lane)).getD [])
  let held := bs.filter (fun b => now && b.cls == 4)
  let s := held.foldl (fun st b => match b.loc with
    | some (.mem pa) => st.hold c.u pa b.val
    | _ => st) s
  let q := bs.filter (fun b => !(now && b.cls == 4))
  if q.isEmpty && (rel.isNone || !held.isEmpty) then s
  else s.modWarp c.u (fun w => w.enqueue lane ⟨q, rel, walk, lev, c.is.pc, iid, (c.w.xw).elim 0 (fun r => r.id + 1)⟩)

/-- A release of a mask of lanes at a scope is tried (R112): their queues have drained, and its condition holds. -/
def State.releaseTry (s : State) (c : Ctx) (m : Mask) (scope : Nat) : State × Bool :=
  if c.w.drained m then s.relTry c.u c.p.view scope else (s, false)

/-- A release of held bytes first meets its condition for the lane's earlier stores (R237). -/
def holdTry (s : State) (c : Ctx) (rel : Option Nat) (oks : List LaneRes) : State × Bool :=
  match rel with
  | none => (s, true)
  | some k =>
    let hs := oks.filter (fun r => r.bytes.any (fun b => b.cls == 4))
    if hs.isEmpty then (s, true) else s.releaseTry c (maskOfRes hs) k

/-- The effect of a store after its front-end checks (R109, R117, R118, R191, R290). -/
def storeGo (f : StoreForm) (dataLev : Ctx → Nat) (c : Ctx) (s0 : State) : State :=
  let ls := lanesOf c.m
  let s := ls.foldl (fun st l => st.killAt c.p (f.addr c l).toNat f.bytes) s0
  let r := s.checkLanes c .store f.need (decide (s.postedOn c.p.core < 16)) f.bytes (f.addr c) (fun _ => dataLev c) ls
  let oks := r.2.filter LaneRes.isOk
  let rel := holdTry r.1 c f.rel oks
  if !rel.2 then (holdTry s0 c f.rel oks).1.retry
  else if oks.any isPeer && decide (16 ≤ s.postedOn c.p.core) then s0.retry
  else
    let bad := r.2.filter LaneRes.isFault
    let live := r.2.filter (fun x => !x.isFault)
    let posted := live.filter (fun x => !x.isOk)
    let (walk, s) := rel.1.fresh
    let key (x : LaneRes) : Option Nat := if x.isOk then none else some (walk * 64 + x.lane)
    let qs := trimLanes (live.map (fun x => (x.lane, qBytes walk x.lane x.va x.bytes (f.data c x.lane))))
    let s := (live.zip qs).foldl (fun st x =>
      st.storeLane c f.rel (if x.1.isOk then none else some walk) walk (dataLev c) posted.isEmpty x.2.1 x.2.2) s
    let s := if posted.isEmpty then s else s.modWarp c.u (fun w => { w with posted := w.posted ++ [
      ⟨walk, c.is.pc, posted.foldl (fun m x => kput m x.lane x.va) [], f.bytes, f.need,
       posted.foldl (fun m x => sset 0 m x.lane (dataLev c)) [], []⟩] })
    let s := s.bumpBy c.p.launch c.p.core 7 (spadExtra false f.bytes oks)
    let s := s.hashAdd c.p.launch c.p.core (live.map (fun x => (key x, x.va, f.data c x.lane)))
    let s := s.stepLanes c f.step (live.map (·.lane))
    (s.settle c .store bad).done c (c.is.mask &&& ~~~(maskOfRes bad))

/-- The level of a store's data (R324). -/
def dataLevel (d n : Nat) (c : Ctx) : Nat :=
  (List.range n).foldl (fun m j => max m (c.w.regLevel (c.w.wbase + d + j))) 0

def storeOp (i : Instr) (s : State) (d : BitVec 7) (n : Nat) (f : StoreForm) : Out :=
  warpOp i s (storeGo f (dataLevel d.toNat n))

/-! ### Atomics -/

/-- Whether a queue holds a byte of an element (R110). -/
def qOverlaps (q : List QEntry) (r : LaneRes) : Bool :=
  q.any (fun e => e.bytes.any (fun b => r.bytes.any (fun x => match b.loc with
    | some l => decide (l = x.loc)
    | none => b.va == x.va)))

/-- A lane's atomic: the bytes, the scope, and the function of the old value. Its result is the old value's bytes. -/
def State.atomLane (s : State) (c : Ctx) (scope : Nat) (r : LaneRes) (g : Nat → Nat) : State × List Byte × List Byte :=
  let q := s.rmw c.p c.u scope r.bytes g
  (q.1, bytesLE r.bytes.length q.2.1, bytesLE r.bytes.length q.2.2)

/-- An atomic: its width, the new value from the old one in a lane, the flags it raises. -/
structure AtomForm where
  bytes : Nat
  op : Ctx → Nat → Nat → Nat
  fl : Ctx → Nat → Nat → BitVec 5
  data : Ctx → Nat → List Byte
  deriving Inhabited

/-- The scope of an atomic: the prefix's, default device (R129, R195). The prefix codes 1–6 name scopes 0–5. -/
def scopeOf (px : PxF) (dflt : Nat) : Nat := if px.ms = 0 then dflt else px.ms - 1

/-- Perform the lanes in ascending order (R114): each lane's old bytes and the bytes it wrote. -/
def State.atomLanes (s : State) (c : Ctx) (f : AtomForm) : List LaneRes → State × List (LaneRes × List Byte × List Byte)
  | [] => (s, [])
  | r :: t =>
    let q := s.atomLane c (scopeOf c.px 4) r (f.op c r.lane)
    let z := q.1.atomLanes c f t
    (z.1, (r, q.2) :: z.2)

/-- Words of bytes, four at a time. -/
def wordsOf (bs : List Byte) : List Word :=
  (List.range (bs.length / 4)).map (fun j => BitVec.ofNat 32 (natLE ((bs.drop (4 * j)).take 4)))

/-- The effect of an atomic after its front-end checks (R109, R110, R114, R195, R273). -/
def atomGo (f : AtomForm) (a d n : Nat) (lev : Ctx → Nat) (c : Ctx) (s0 : State) : State :=
  let ls := lanesOf c.m
  let addr := fun l => c.rd64 a l
  let s := ls.foldl (fun st l => st.killAt c.p (addr l).toNat f.bytes) s0
  let r := s.checkLanes c .atomic true false f.bytes addr (fun _ => lev c) ls
  let oks := r.2.filter LaneRes.isOk
  let gates := oks.map (fun x => if isOut x then .pass else r.1.gate c.p x.va x.bytes)
  if oks.any (fun x => qOverlaps (sget [] c.w.queues x.lane) x) then s0.retry
  else if gates.any (· == .diverge) then
    (s0.diverge c.p.launch (match (oks.zip gates).find? (fun x => x.2 == .diverge) with
      | some x => (locKey r.1 x.1.bytes).2
      | none => 0)).retry
  else if gates.any (· == .wait) then
    (s0.gateWait c.p.launch c.u (match (oks.zip gates).find? (fun x => x.2 == .wait) with
      | some x => locKey r.1 x.1.bytes
      | none => (0, 0))).retry
  else
    let mine := oks.filter (fun x => !isOut x)
    let peers := oks.filter isOut
    let q := r.1.atomLanes c f mine
    let firsts := mine.foldl (fun (acc : List LaneRes) x =>
      if acc.any (fun y => (locKey r.1 y.bytes).1 == (locKey r.1 x.bytes).1) then acc else acc ++ [x]) []
    let s := firsts.foldl (fun st x => st.countAtomic c.p x.va x.bytes) q.1
    let g := s.readLanes c peers
    let pvals := g.2.filterMap (fun x => match x.2 with
      | .bytes bs => some (x.1, bs, bytesLE bs.length (f.op c x.1.lane (natLE bs)))
      | _ => none)
    let bad := r.2.filter LaneRes.isFault ++ g.2.filterMap (fun x => match x.2 with
      | .prog k i => some { x.1 with r := .prog k i }
      | _ => none)
    let out := (g.2.filter (fun x => x.2 == .outside)).map (·.1)
    let all := sortByKey (fun x => x.1.lane) (q.2 ++ pvals)
    let s := g.1.bumpBy c.p.launch c.p.core 7 (spadExtra true f.bytes mine)
    let s := s.hashAdd c.p.launch c.p.core (all.map (fun x => (none, x.1.va, x.2.2)))
    let s := s.oldHashAdd c.p.launch c.p.core (all.map (fun x => (x.1.va, x.2.1)))
    let memLev := (all.flatMap (fun x => x.1.bytes)).foldl (fun m b => max m b.lev) 0
    let keep := max (c.w.predLevel c.px.mp) (if c.keeps then dataLevel d n c else 0)
    let vals := all.map (fun x => (x.1.lane, wordsOf x.2.1))
    let w := (c.put d n vals (max memLev keep)).orLanes (all.map (fun x => (x.1.lane, f.fl c x.1.lane (natLE x.2.1))))
    let s := s.setWarp c.u w
    let s := if vals.isEmpty && !(c.px.zp && c.rest != 0) then s else s.linResult c.p.core c.u (c.w.wbase + d) n [] none
    let s := out.foldl (fun st x => st.askOutside c (laneBit x.lane) x.lane x.va x.bytes (f.data c x.lane)) s
    (s.settle c .atomic bad).done c (c.is.mask &&& ~~~(maskOfRes bad ||| maskOfRes out))

/-- The level of an atomic's data: its b operand and fourth operand (R324, R325). -/
def atomLevel (b n : Nat) (c : Ctx) : Nat :=
  (srcRegs { c.row with uses := [.reg 1 b n true false] } c.px c.w.wbase true).foldl (fun m r => max m (c.w.regLevel r)) 0

def atomOp (i : Instr) (s : State) (b a d : BitVec 7) (n : Nat) (f : AtomForm) : Out :=
  warpOp i s (atomGo f a.toNat d.toNat n (atomLevel b.toNat n))

end Sys2Proof.Machine
end

