-- ==== Sys2Proof/Machine/Operands.lean ====
section
/-! DEFINITION. The operand forms of the register instructions (R144, R149 to R164): one, two and three word operands, pairs,
immediates and predicates, and the plain functions of words they share. -/

namespace Sys2Proof.Machine

/-! ### Functions of words -/

def sext12 (i : BitVec 12) : Word := i.signExtend 32
def zext12 (i : BitVec 12) : Word := i.setWidth 32

/-- The shifts of R155: a count of 32 or more shifts every bit out. -/
def shlW (a n : Word) : Word := a <<< n.toNat
def shrW (a n : Word) : Word := a >>> n.toNat
def sraW (a n : Word) : Word := a.sshiftRight n.toNat

/-- The larger and smaller of two words, compared by a key; the first on equality (R149). -/
def minBy (key : Word → Int) (a b : Word) : Word := if key b < key a then b else a
def maxBy (key : Word → Int) (a b : Word) : Word := if key a < key b then b else a
def keyS (a : Word) : Int := a.toInt
def keyU (a : Word) : Int := a.toNat

/-- Leading zero bits, population and reversal (R156). -/
def clzW (a : Word) : Word := BitVec.ofNat 32 (if a = 0 then 32 else 31 - Nat.log2 a.toNat)
def popcW (a : Word) : Word := BitVec.ofNat 32 ((List.range 32).filter (fun k => a.getLsbD k)).length
def brevW (a : Word) : Word := a.reverse

/-- The field V[b] gives (R157): position and clipped length. -/
def fieldOf (b : Word) : Nat × Nat :=
  let pos := bits b.toNat 4 0
  (pos, min (bits b.toNat 13 8) (32 - pos))
def bfxU (a b : Word) : Word :=
  let f := fieldOf b
  BitVec.ofNat 32 (a.toNat / 2 ^ f.1 % 2 ^ f.2)
def bfxS (a b : Word) : Word :=
  let f := fieldOf b
  let v := a.toNat / 2 ^ f.1 % 2 ^ f.2
  if f.2 = 0 then 0 else if v.testBit (f.2 - 1) then BitVec.ofInt 32 ((v : Int) - (2 ^ f.2 : Nat)) else BitVec.ofNat 32 v
def bfiW (a b c : Word) : Word :=
  let f := fieldOf b
  let mask : Word := BitVec.ofNat 32 (2 ^ f.2 - 1)
  (c &&& ~~~(mask <<< f.1)) ||| ((a &&& mask) <<< f.1)

/-- A byte of a word. -/
def byteOf (a : Word) (k : Nat) : BitVec 8 := a.extractLsb' (8 * k) 8
/-- A word from its four bytes. -/
def wordOfBytes (f : Nat → BitVec 8) : Word := f 3 ++ f 2 ++ f 1 ++ f 0

/-- Four byte products added to a word (R153). -/
def idot4 (ext : BitVec 8 → Int) (a b c : Word) : Word :=
  BitVec.ofInt 32 ((List.range 4).foldl (fun s k => s + ext (byteOf a k) * ext (byteOf b k)) (c.toNat : Int))

/-- A byte of a byte permute (R158): its control picks a byte of the two words, and what becomes of it. -/
def permByte (a b c : Word) (i : Nat) : BitVec 8 :=
  let ctl := c.toNat / 2 ^ (5 * i) % 32
  let k := ctl % 8
  let x := if k < 4 then byteOf a k else byteOf b (k - 4)
  match ctl / 8 with
  | 0 => x
  | 1 => if x.msb then 0xFF else 0
  | 2 => 0
  | _ => 0xFF
def permW (a b c : Word) : Word := wordOfBytes (permByte a b c)

/-! ### Operand forms -/

/-- `vd, va` (R144). -/
def wordOp1 (i : Instr) (s : State) (a d : BitVec 7) (f : Word → Word) : Out :=
  regOp i s d 1 (fun c l => ([f (c.rd a.toNat l)], 0))
/-- `vd, va, vb`. -/
def wordOp2 (i : Instr) (s : State) (b a d : BitVec 7) (f : Word → Word → Word) : Out :=
  regOp i s d 1 (fun c l => ([f (c.rd a.toNat l) (c.rd b.toNat l)], 0))
/-- `vd, va, vb, vc`, the fourth operand by R132. -/
def wordOp3 (i : Instr) (s : State) (b a d : BitVec 7) (f : Word → Word → Word → Word) : Out :=
  regOp i s d 1 (fun c l => ([f (c.rd a.toNat l) (c.rd b.toNat l) (c.fourth d.toNat l)], 0))
/-- A pair as a destination. -/
def pairOp (i : Instr) (s : State) (d : BitVec 7) (f : Ctx → Nat → DWord) : Out :=
  regOp i s d 2 (fun c l => let v := f c l; ([v.extractLsb' 0 32, v.extractLsb' 32 32], 0))
/-- A compare of two words into a predicate (R161). -/
def cmpOp2 (i : Instr) (s : State) (b a d : BitVec 7) (f : Word → Word → Bool) : Out :=
  predOp i s d (fun c l => (f (c.rd a.toNat l) (c.rd b.toNat l), 0))
/-- A compare of a word and an immediate. -/
def cmpOp1 (i : Instr) (s : State) (a d : BitVec 7) (f : Word → Bool) : Out :=
  predOp i s d (fun c l => (f (c.rd a.toNat l), 0))
/-- An operation of two predicates (R163). -/
def predOp2 (i : Instr) (s : State) (b a d : BitVec 7) (f : Bool → Bool → Bool) : Out :=
  predOp i s d (fun c l => (f ((c.w.pred a.toNat).getLsbD l) ((c.w.pred b.toNat).getLsbD l), 0))

end Sys2Proof.Machine
end

