-- ==== Sys2Proof/Machine/LoadStore.lean ====
section
/-! DEFINITION. Loads, stores, post-increment forms, acquires, releases and prefetches (R189 to R196). -/

namespace Sys2Proof.Machine

/-! ### Addresses and shapes (R189) -/

def addrR (b a : BitVec 7) (c : Ctx) (l : Nat) : DWord := c.rd64 a.toNat l + (c.rd b.toNat l).signExtend 64
def addrI (i : BitVec 12) (a : BitVec 7) (c : Ctx) (l : Nat) : DWord := c.rd64 a.toNat l + i.signExtend 64
def addr0 (a : BitVec 7) (c : Ctx) (l : Nat) : DWord := c.rd64 a.toNat l

/-- A number of bytes extended into a word (R190). -/
def sextBytes (n : Nat) (bs : List Byte) : List Word :=
  let v := natLE bs
  [if v.testBit (8 * n - 1) then BitVec.ofInt 32 ((v : Int) - (2 ^ (8 * n) : Nat)) else BitVec.ofNat 32 v]
def zextBytes (bs : List Byte) : List Word := [BitVec.ofNat 32 (natLE bs)]

/-- The low bytes of a data register, pair or quad (R191). -/
def dataOf (d : BitVec 7) (n : Nat) (c : Ctx) (l : Nat) : List Byte :=
  ((List.range 4).flatMap (fun j => if 4 * j < n then bytesLE 4 (c.rd (d.toNat + j) l).toNat else [])).take n

def plainLoad (addr : Ctx → Nat → DWord) (n : Nat) (words : List Byte → List Word) : LoadForm :=
  { addr := addr, bytes := n, need := false, words := words, acq := none, step := none }
def plainStore (addr : Ctx → Nat → DWord) (d : BitVec 7) (n : Nat) : StoreForm :=
  { addr := addr, bytes := n, need := false, data := dataOf d n, rel := none, step := none }

/-! ### Loads (R190) -/

def execLdSb (b a d : BitVec 7) (s : State) : Out := loadOp (.ldSb b a d) s d 1 (plainLoad (addrR b a) 1 (sextBytes 1))
def execLdUb (b a d : BitVec 7) (s : State) : Out := loadOp (.ldUb b a d) s d 1 (plainLoad (addrR b a) 1 zextBytes)
def execLdSh (b a d : BitVec 7) (s : State) : Out := loadOp (.ldSh b a d) s d 1 (plainLoad (addrR b a) 2 (sextBytes 2))
def execLdUh (b a d : BitVec 7) (s : State) : Out := loadOp (.ldUh b a d) s d 1 (plainLoad (addrR b a) 2 zextBytes)
def execLdW (b a d : BitVec 7) (s : State) : Out := loadOp (.ldW b a d) s d 1 (plainLoad (addrR b a) 4 wordsOf)
def execLdD (b a d : BitVec 7) (s : State) : Out := loadOp (.ldD b a d) s d 2 (plainLoad (addrR b a) 8 wordsOf)
def execLdQ (b a d : BitVec 7) (s : State) : Out := loadOp (.ldQ b a d) s d 4 (plainLoad (addrR b a) 16 wordsOf)
def execLdiW (i : BitVec 12) (a d : BitVec 7) (s : State) : Out := loadOp (.ldiW i a d) s d 1 (plainLoad (addrI i a) 4 wordsOf)
def execLdiD (i : BitVec 12) (a d : BitVec 7) (s : State) : Out := loadOp (.ldiD i a d) s d 2 (plainLoad (addrI i a) 8 wordsOf)
def execLdiQ (i : BitVec 12) (a d : BitVec 7) (s : State) : Out := loadOp (.ldiQ i a d) s d 4 (plainLoad (addrI i a) 16 wordsOf)

/-! ### Stores (R191) -/

def execStB (b a d : BitVec 7) (s : State) : Out := storeOp (.stB b a d) s d 1 (plainStore (addrR b a) d 1)
def execStH (b a d : BitVec 7) (s : State) : Out := storeOp (.stH b a d) s d 1 (plainStore (addrR b a) d 2)
def execStW (b a d : BitVec 7) (s : State) : Out := storeOp (.stW b a d) s d 1 (plainStore (addrR b a) d 4)
def execStD (b a d : BitVec 7) (s : State) : Out := storeOp (.stD b a d) s d 2 (plainStore (addrR b a) d 8)
def execStQ (b a d : BitVec 7) (s : State) : Out := storeOp (.stQ b a d) s d 4 (plainStore (addrR b a) d 16)
def execStiW (i : BitVec 12) (a d : BitVec 7) (s : State) : Out := storeOp (.stiW i a d) s d 1 (plainStore (addrI i a) d 4)
def execStiD (i : BitVec 12) (a d : BitVec 7) (s : State) : Out := storeOp (.stiD i a d) s d 2 (plainStore (addrI i a) d 8)
def execStiQ (i : BitVec 12) (a d : BitVec 7) (s : State) : Out := storeOp (.stiQ i a d) s d 4 (plainStore (addrI i a) d 16)

/-! ### Post-increment (R193) -/

def stepLoad (k : BitVec 4) (a : BitVec 7) (n : Nat) : LoadForm :=
  { addr := addr0 a, bytes := n, need := true, words := wordsOf, acq := none, step := some (a.toNat, k.toNat) }
def stepStore (k : BitVec 4) (a d : BitVec 7) (n : Nat) : StoreForm :=
  { addr := addr0 a, bytes := n, need := true, data := dataOf d n, rel := none, step := some (a.toNat, k.toNat) }

def execLdmW (k : BitVec 4) (a d : BitVec 7) (s : State) : Out := loadOp (.ldmW k a d) s d 1 (stepLoad k a 4)
def execLdmD (k : BitVec 4) (a d : BitVec 7) (s : State) : Out := loadOp (.ldmD k a d) s d 2 (stepLoad k a 8)
def execLdmQ (k : BitVec 4) (a d : BitVec 7) (s : State) : Out := loadOp (.ldmQ k a d) s d 4 (stepLoad k a 16)
def execStmW (k : BitVec 4) (a d : BitVec 7) (s : State) : Out := storeOp (.stmW k a d) s d 1 (stepStore k a d 4)
def execStmD (k : BitVec 4) (a d : BitVec 7) (s : State) : Out := storeOp (.stmD k a d) s d 2 (stepStore k a d 8)
def execStmQ (k : BitVec 4) (a d : BitVec 7) (s : State) : Out := storeOp (.stmQ k a d) s d 4 (stepStore k a d 16)

/-! ### Acquires and releases (R194) -/

def acqLoad (r : BitVec 1) (sc : BitVec 3) (a : BitVec 7) (n : Nat) : LoadForm :=
  { addr := addr0 a, bytes := n, need := true, words := wordsOf, acq := some (sc.toNat, r == 1), step := none }
def relStore (sc : BitVec 3) (a d : BitVec 7) (n : Nat) : StoreForm :=
  { addr := addr0 a, bytes := n, need := true, data := dataOf d n, rel := some sc.toNat, step := none }

def execLdacqW (r : BitVec 1) (sc : BitVec 3) (a d : BitVec 7) (s : State) : Out :=
  loadOp (.ldacqW r sc a d) s d 1 (acqLoad r sc a 4)
def execLdacqD (r : BitVec 1) (sc : BitVec 3) (a d : BitVec 7) (s : State) : Out :=
  loadOp (.ldacqD r sc a d) s d 2 (acqLoad r sc a 8)
def execStrelW (sc : BitVec 3) (a d : BitVec 7) (s : State) : Out := storeOp (.strelW sc a d) s d 1 (relStore sc a d 4)
def execStrelD (sc : BitVec 3) (a d : BitVec 7) (s : State) : Out := storeOp (.strelD sc a d) s d 2 (relStore sc a d 8)

/-! ### Prefetches (R196) -/

/-- Bring the lines of the checked lanes closer, each line once; only a range-lock hit is a fault. -/
def pfGo (bring : State → Ctx → PByte → State) (b a : BitVec 7) (c : Ctx) (s : State) : State :=
  let r := s.checkLanes c .pf false false 1 (addrR b a c) (fun _ => 0) (lanesOf c.m)
  let bad := r.2.filter (fun x => x.cause == some 0x13)
  let s := (r.2.flatMap LaneRes.bytes).foldl (fun st x => bring st c x) r.1
  (s.settle c .pf bad).done c (c.is.mask &&& ~~~(maskOfRes bad))

def execPfL1 (b a : BitVec 7) (s : State) : Out :=
  warpOp (.pfL1 b a) s (pfGo (fun s c x => match x.loc with
    | .mem pa => if x.cls ≤ 2 ∧ pa < devTop then (s.readByte c.p.view pa x.cls c.p.ctx).1 else s
    | _ => s) b a)
def execPfL2 (b a : BitVec 7) (s : State) : Out :=
  warpOp (.pfL2 b a) s (pfGo (fun s c x => match x.loc with
    | .mem pa => if pa < devTop then (s.dieLine (viewDie c.p.view) (pa / lineBytes) x.cls).1 else s
    | _ => s) b a)

end Sys2Proof.Machine
end

