-- ==== Sys2Proof/Machine/Atomic.lean ====
section
/-! DEFINITION. The atomics (R114, R195). -/

namespace Sys2Proof.Machine

/-- A word atomic: the new word from the old one and the operand. -/
def atomW (i : Instr) (s : State) (b a d : BitVec 7) (f : Word → Word → Word) : Out :=
  atomOp i s b a d 1 { bytes := 4, op := fun c l old => (f (BitVec.ofNat 32 old) (c.rd b.toNat l)).toNat,
                       fl := fun _ _ _ => 0, data := dataOf b 4 }
/-- A doubleword atomic. -/
def atomD (i : Instr) (s : State) (b a d : BitVec 7) (f : DWord → DWord → DWord) : Out :=
  atomOp i s b a d 2 { bytes := 8, op := fun c l old => (f (BitVec.ofNat 64 old) (c.rd64 b.toNat l)).toNat,
                       fl := fun _ _ _ => 0, data := dataOf b 8 }

def execAtomAddW (b a d : BitVec 7) (s : State) : Out := atomW (.atomAddW b a d) s b a d (fun o x => o + x)
def execAtomMinSw (b a d : BitVec 7) (s : State) : Out := atomW (.atomMinSw b a d) s b a d (minBy keyS)
def execAtomMinUw (b a d : BitVec 7) (s : State) : Out := atomW (.atomMinUw b a d) s b a d (minBy keyU)
def execAtomMaxSw (b a d : BitVec 7) (s : State) : Out := atomW (.atomMaxSw b a d) s b a d (maxBy keyS)
def execAtomMaxUw (b a d : BitVec 7) (s : State) : Out := atomW (.atomMaxUw b a d) s b a d (maxBy keyU)
def execAtomAndW (b a d : BitVec 7) (s : State) : Out := atomW (.atomAndW b a d) s b a d (fun o x => o &&& x)
def execAtomOrW (b a d : BitVec 7) (s : State) : Out := atomW (.atomOrW b a d) s b a d (fun o x => o ||| x)
def execAtomXorW (b a d : BitVec 7) (s : State) : Out := atomW (.atomXorW b a d) s b a d (fun o x => o ^^^ x)
def execAtomExchW (b a d : BitVec 7) (s : State) : Out := atomW (.atomExchW b a d) s b a d (fun _ x => x)
/-- Compare with the fourth operand; always a write (R195). -/
def execAtomCasW (b a d : BitVec 7) (s : State) : Out :=
  atomOp (.atomCasW b a d) s b a d 1
    { bytes := 4, op := fun c l old => if BitVec.ofNat 32 old = c.fourth d.toNat l then (c.rd b.toNat l).toNat else old,
      fl := fun _ _ _ => 0, data := fun c l => dataOf b 4 c l ++ bytesLE 4 (c.fourth d.toNat l).toNat }
/-- RNE, the old value as operand a; its flags go to the lane (R195). -/
def execAtomFaddF32 (b a d : BitVec 7) (s : State) : Out :=
  atomOp (.atomFaddF32 b a d) s b a d 1
    { bytes := 4, op := fun c l old => (addF f32 .rne false old (c.rd b.toNat l).toNat).1,
      fl := fun c l old => (addF f32 .rne false old (c.rd b.toNat l).toNat).2, data := dataOf b 4 }
def execAtomAddD (b a d : BitVec 7) (s : State) : Out := atomD (.atomAddD b a d) s b a d (fun o x => o + x)
def execAtomExchD (b a d : BitVec 7) (s : State) : Out := atomD (.atomExchD b a d) s b a d (fun _ x => x)
def execAtomCasD (b a d : BitVec 7) (s : State) : Out :=
  atomOp (.atomCasD b a d) s b a d 2
    { bytes := 8, op := fun c l old => if BitVec.ofNat 64 old = c.fourth64 d.toNat l then (c.rd64 b.toNat l).toNat else old,
      fl := fun _ _ _ => 0, data := fun c l => dataOf b 8 c l ++ bytesLE 8 (c.fourth64 d.toNat l).toNat }

end Sys2Proof.Machine
end

