-- ==== Sys2Proof/Machine/Clocks.lean ====
section
/-! DEFINITION. What time alone fixes: the voltage of a rail, the clocks of a cluster (R334, R341, R343), and the activity budgets of
a period (R345, R346). -/

namespace Sys2Proof.Machine

/-! ### Rails and clocks (R334, R341, R343) -/

/-- The rail voltage of an operating point, in mV, and its front-end frequency, in MHz (R334). -/
def opMv (op : Nat) : Nat := [600, 630, 660, 700, 740, 780, 820, 860].getD op 860
def opMhz (op : Nat) : Nat := [350, 450, 550, 650, 750, 850, 950, 1050].getD op 1050

/-- The highest operating point that a voltage carries; 0 below every one. -/
def mvOp (mv : Nat) : Nat := ((List.range 8).filter (fun op => decide (opMv op ≤ mv))).foldl max 0

def railKey (die r : Nat) : Nat := 5 * die + r
/-- A core rail's movement; one that has never moved stands at its voltage. -/
def State.rail (s : State) (die r : Nat) : Rail :=
  (kget s.power.rails (railKey die r)).getD ⟨s.dreg (.railMv (railKey die r)), none, 0⟩

/-- The voltage at a time, from the one the movement began at: 1 mV/µs, downward only once the hold has ended (R341). -/
def Rail.at_ (x : Rail) (mv0 now : Nat) : Nat :=
  let d := (now - x.holdTill.getD x.since) / 1000
  if x.target ≤ mv0 then max x.target (mv0 - d) else min x.target (mv0 + d)

/-- The voltage of a core rail now (R343). The register holds the one that its movement began at. -/
def State.railMv (s : State) (die r : Nat) : Nat := (s.rail die r).at_ (s.dreg (.railMv (railKey die r))) s.timebase

/-- The operating point a cluster's clocks run at (R334, R341): the one last switched to, as far as the rail carries it. -/
def State.runsOp (s : State) (cl : Nat) : Nat := min (sget 7 s.power.effOp cl) (mvOp (s.railMv (cl / 48) (cl % 48 / 12)))

/-- The front-end frequency at an operating point and a ratio code (0 for ½, 1, 2), in MHz (R334): min(f(OP), 1.05 GHz ÷ ratio). -/
def frontMhz (op ratio : Nat) : Nat := min (opMhz op) (if ratio = 0 then 2100 else 1050 / ratio)
/-- The lane clock: the front-end clock times the ratio. -/
def laneMhz (op ratio : Nat) : Nat := if ratio = 0 then frontMhz op 0 / 2 else frontMhz op ratio * ratio

def State.clusterMhz (s : State) (cl : Nat) : Nat := frontMhz (s.runsOp cl) (sget 1 s.power.effRatio cl)
/-- The clock of the L2 slices, in MHz (R334, R338). -/
def State.sliceMhz (s : State) : Nat := if s.power.holdPoint then 350 else 1050

/-- The least time that n front-end cycles of a cluster take, in nanoseconds. -/
def State.cyclesNs (s : State) (cl n : Nat) : Nat := n * 1000 / s.clusterMhz cl

/-! ### Budgets (R345, R346) -/

/-- No limit (R346). -/
def noLimit : Nat := 2 ^ 32 - 1

/-- The register of a budget: partition p's D2D, HYLIS and HOST under 4p, 4p + 1 and 4p + 2; COLLAPSE 64, SCRUB 65, BIST 66, OFX 67. -/
def budgetReg (k : Nat) : Reg :=
  if k < 64 then .p (k / 4) (if k % 4 = 0 then .d2d else if k % 4 = 1 then .hylis else .host)
  else .d (if k = 64 then .collapse else if k = 65 then .scrub else if k = 66 then .bist else .ofx)

/-- The limit of a budget in the running period: its register's value when the period began. -/
def State.budget (s : State) (k : Nat) : Nat := sget (budgetReg k).reset s.fleet.budgets k
/-- The activity has spent its budget for the running period: its next transfer waits (R345). -/
def State.spent (s : State) (k : Nat) : Bool := s.budget k != noLimit && decide (s.budget k ≤ sget 0 s.fleet.used k)
/-- n transfers of an activity. -/
def State.spend (s : State) (k n : Nat) : State :=
  { s with fleet := { s.fleet with used := sset 0 s.fleet.used k (sget 0 s.fleet.used k + n) } }

end Sys2Proof.Machine
end

