-- ==== Sys2Proof/Decode.lean ====
section
/-! DEFINITION. The decoder of instruction words, total on any word and rejecting by name, and the encoder, both
from the formats and tables of R127 and R140 to R142. -/

namespace Sys2Proof

/-- Why a word is no instruction by its bits (R128, R139). -/
inductive DecodeErr where
  | unallocated
  | mustBeZero
  | isPrefix
  | isStall
  deriving DecidableEq, Repr

/-- Must-be-zero bits are zero. -/
def mbz (c : Bool) (i : Instr) : Except DecodeErr Instr :=
  if c then .ok i else .error .mustBeZero

/-- F-R opcodes 0x000 to 0x01F. -/
def decFR0 (n : Nat) (b a d : BitVec 7) : Except DecodeErr Instr :=
  match n with
  | 0 => .ok (.addW b a d)
  | 1 => .ok (.subW b a d)
  | 2 => .ok (.addsSw b a d)
  | 3 => .ok (.addsUw b a d)
  | 4 => .ok (.subsSw b a d)
  | 5 => .ok (.subsUw b a d)
  | 6 => .ok (.mulW b a d)
  | 7 => .ok (.mulhiSw b a d)
  | 8 => .ok (.mulhiUw b a d)
  | 9 => .ok (.madW b a d)
  | 10 => .ok (.minSw b a d)
  | 11 => .ok (.minUw b a d)
  | 12 => .ok (.maxSw b a d)
  | 13 => .ok (.maxUw b a d)
  | 14 => mbz (b == 0) (.absSw a d)
  | 15 => mbz (b == 0) (.negW a d)
  | 16 => .ok (.addD b a d)
  | 17 => .ok (.subD b a d)
  | 18 => .ok (.addwD b a d)
  | 19 => .ok (.mulSwd b a d)
  | 20 => .ok (.mulUwd b a d)
  | 21 => .ok (.idot4Sb b a d)
  | 22 => .ok (.idot4Ub b a d)
  | _ => .error .unallocated

/-- F-R opcodes 0x020 to 0x03F. -/
def decFR1 (n : Nat) (b a d : BitVec 7) : Except DecodeErr Instr :=
  match n with
  | 0 => .ok (.and b a d)
  | 1 => .ok (.or b a d)
  | 2 => .ok (.xor b a d)
  | 3 => .ok (.andn b a d)
  | 4 => .ok (.shl b a d)
  | 5 => .ok (.shr b a d)
  | 6 => .ok (.sra b a d)
  | 7 => .ok (.rotl b a d)
  | 8 => mbz (b == 0) (.clz a d)
  | 9 => mbz (b == 0) (.popc a d)
  | 10 => mbz (b == 0) (.brev a d)
  | 11 => .ok (.bfxUw b a d)
  | 12 => .ok (.bfxSw b a d)
  | 13 => .ok (.bfi b a d)
  | 14 => .ok (.perm b a d)
  | 15 => mbz (b == 0) (.mov a d)
  | _ => .error .unallocated

/-- F-R opcodes 0x040 to 0x05F. -/
def decFR2 (n : Nat) (b a d : BitVec 7) : Except DecodeErr Instr :=
  match n with
  | 0 => .ok (.faddF32 b a d)
  | 1 => .ok (.fsubF32 b a d)
  | 2 => .ok (.fmulF32 b a d)
  | 3 => .ok (.ffmaF32 b a d)
  | 4 => .ok (.fminF32 b a d)
  | 5 => .ok (.fmaxF32 b a d)
  | 6 => mbz (b == 0) (.fabsF32 a d)
  | 7 => mbz (b == 0) (.fnegF32 a d)
  | 8 => mbz (b == 0) (.frcpF32 a d)
  | 9 => mbz (b == 0) (.frsqF32 a d)
  | 10 => mbz (b == 0) (.fsqrtF32 a d)
  | 11 => .ok (.fdivF32 b a d)
  | 12 => mbz (b == 0) (.fex2F32 a d)
  | 13 => mbz (b == 0) (.flg2F32 a d)
  | 14 => mbz (b == 0) (.fsinpiF32 a d)
  | 15 => mbz (b == 0) (.fcospiF32 a d)
  | 16 => mbz (b == 0) (.ftanhF32 a d)
  | 17 => mbz (b == 0) (.frndF32 a d)
  | _ => .error .unallocated

/-- F-R opcodes 0x060 to 0x07F. -/
def decFR3 (n : Nat) (b a d : BitVec 7) : Except DecodeErr Instr :=
  match n with
  | 0 => .ok (.hadd2F16 b a d)
  | 1 => .ok (.hmul2F16 b a d)
  | 2 => .ok (.hfma2F16 b a d)
  | 3 => .ok (.hadd2Bf16 b a d)
  | 4 => .ok (.hmul2Bf16 b a d)
  | 5 => .ok (.hfma2Bf16 b a d)
  | 6 => .ok (.hmin2Bf16 b a d)
  | 7 => .ok (.hmax2Bf16 b a d)
  | 8 => .ok (.fdot2Bf16 b a d)
  | _ => .error .unallocated

/-- F-R opcodes 0x080 to 0x09F. -/
def decFR4 (n : Nat) (b a d : BitVec 7) : Except DecodeErr Instr :=
  match n with
  | 0 => .ok (.dadd b a d)
  | 1 => .ok (.dmul b a d)
  | 2 => .ok (.dfma b a d)
  | 3 => .ok (.dmin b a d)
  | 4 => .ok (.dmax b a d)
  | 5 => .ok (.ddiv b a d)
  | 6 => mbz (b == 0) (.dsqrt a d)
  | _ => .error .unallocated

/-- F-R opcodes 0x0A0 to 0x0BF. -/
def decFR5 (n : Nat) (b a d : BitVec 7) : Except DecodeErr Instr :=
  match n with
  | 0 => mbz (b == 0) (.cvtF32Sw a d)
  | 1 => mbz (b == 0) (.cvtF32Uw a d)
  | 2 => mbz (b == 0) (.cvtSwF32 a d)
  | 3 => mbz (b == 0) (.cvtUwF32 a d)
  | 4 => .ok (.pkF16 b a d)
  | 5 => .ok (.pkBf16 b a d)
  | 6 => .ok (.cvtF32F16 b a d)
  | 7 => .ok (.cvtF32Bf16 b a d)
  | 8 => mbz (b == 0) (.cvtF64F32 a d)
  | 9 => mbz (b == 0) (.cvtF32F64 a d)
  | 10 => .ok (.qpkE4m3 b a d)
  | 11 => .ok (.qpkE5m2 b a d)
  | 12 => .ok (.dqE4m3 b a d)
  | 13 => .ok (.dqE5m2 b a d)
  | _ => .error .unallocated

/-- F-R opcodes 0x0C0 to 0x0DF. -/
def decFR6 (n : Nat) (b a d : BitVec 7) : Except DecodeErr Instr :=
  match n with
  | 0 => .ok (.shflIdx b a d)
  | 1 => .ok (.shflUp b a d)
  | 2 => .ok (.shflDn b a d)
  | 3 => .ok (.shflXor b a d)
  | 4 => .ok (.shflRel b a d)
  | 5 => mbz (b == 0) (.voteAny a d)
  | 6 => mbz (b == 0) (.voteAll a d)
  | 7 => mbz (b == 0) (.ballot a d)
  | 8 => .ok (.redx b a d)
  | 9 => .ok (.redxi b a d)
  | 10 => .ok (.scan b a d)
  | 11 => mbz (b == 0) (.matchW a d)
  | _ => .error .unallocated

/-- F-R opcodes 0x0E0 to 0x0FF. -/
def decFR7 (n : Nat) (b a d : BitVec 7) : Except DecodeErr Instr :=
  match n with
  | 0 => .ok (.cmpEqW b a d)
  | 1 => .ok (.cmpNeW b a d)
  | 2 => .ok (.cmpLtSw b a d)
  | 3 => .ok (.cmpLeSw b a d)
  | 4 => .ok (.cmpLtUw b a d)
  | 5 => .ok (.cmpLeUw b a d)
  | 6 => .ok (.fcmpEqF32 b a d)
  | 7 => .ok (.fcmpLtF32 b a d)
  | 8 => .ok (.fcmpLeF32 b a d)
  | 9 => .ok (.fcmpUnF32 b a d)
  | 10 => .ok (.dcmpLt b a d)
  | 11 => .ok (.dcmpEq b a d)
  | 12 => .ok (.pand b a d)
  | 13 => .ok (.por b a d)
  | 14 => .ok (.pxor b a d)
  | 15 => .ok (.pandn b a d)
  | 16 => mbz (b == 0) (.pmovV a d)
  | 17 => mbz (b == 0) (.vmovP a d)
  | 18 => mbz (b == 0) (.pcnt a d)
  | _ => .error .unallocated

/-- F-R opcodes 0x100 to 0x11F. -/
def decFR8 (n : Nat) (b a d : BitVec 7) : Except DecodeErr Instr :=
  match n with
  | 0 => .ok (.ldSb b a d)
  | 1 => .ok (.ldUb b a d)
  | 2 => .ok (.ldSh b a d)
  | 3 => .ok (.ldUh b a d)
  | 4 => .ok (.ldW b a d)
  | 5 => .ok (.ldD b a d)
  | 6 => .ok (.ldQ b a d)
  | 8 => .ok (.stB b a d)
  | 9 => .ok (.stH b a d)
  | 10 => .ok (.stW b a d)
  | 11 => .ok (.stD b a d)
  | 12 => .ok (.stQ b a d)
  | 16 => mbz (decide (b.toNat < 16)) (.ldmW (b.extractLsb' 0 4) a d)
  | 17 => mbz (decide (b.toNat < 16)) (.ldmD (b.extractLsb' 0 4) a d)
  | 18 => mbz (decide (b.toNat < 16)) (.ldmQ (b.extractLsb' 0 4) a d)
  | 20 => mbz (decide (b.toNat < 16)) (.stmW (b.extractLsb' 0 4) a d)
  | 21 => mbz (decide (b.toNat < 16)) (.stmD (b.extractLsb' 0 4) a d)
  | 22 => mbz (decide (b.toNat < 16)) (.stmQ (b.extractLsb' 0 4) a d)
  | 24 => mbz (decide (b.toNat < 16)) (.ldacqW (b.extractLsb' 3 1) (b.extractLsb' 0 3) a d)
  | 25 => mbz (decide (b.toNat < 16)) (.ldacqD (b.extractLsb' 3 1) (b.extractLsb' 0 3) a d)
  | 26 => mbz (decide (b.toNat < 8)) (.strelW (b.extractLsb' 0 3) a d)
  | 27 => mbz (decide (b.toNat < 8)) (.strelD (b.extractLsb' 0 3) a d)
  | _ => .error .unallocated

/-- F-R opcodes 0x120 to 0x13F. -/
def decFR9 (n : Nat) (b a d : BitVec 7) : Except DecodeErr Instr :=
  match n with
  | 0 => .ok (.atomAddW b a d)
  | 1 => .ok (.atomMinSw b a d)
  | 2 => .ok (.atomMinUw b a d)
  | 3 => .ok (.atomMaxSw b a d)
  | 4 => .ok (.atomMaxUw b a d)
  | 5 => .ok (.atomAndW b a d)
  | 6 => .ok (.atomOrW b a d)
  | 7 => .ok (.atomXorW b a d)
  | 8 => .ok (.atomExchW b a d)
  | 9 => .ok (.atomCasW b a d)
  | 10 => .ok (.atomFaddF32 b a d)
  | 11 => .ok (.atomAddD b a d)
  | 12 => .ok (.atomExchD b a d)
  | 13 => .ok (.atomCasD b a d)
  | 16 => mbz (d == 0) (.pfL1 b a)
  | 17 => mbz (d == 0) (.pfL2 b a)
  | _ => .error .unallocated

/-- F-R opcodes 0x140 to 0x15F. -/
def decFR10 (n : Nat) (b a d : BitVec 7) : Except DecodeErr Instr :=
  match n with
  | 0 => mbz (b == 0 && d == 0) (.jmp a)
  | 1 => mbz (b == 0) (.callr a d)
  | 2 => mbz (b == 0 && d == 0) (.ret a)
  | 3 => mbz (d == 0) (.barArr b a)
  | 4 => mbz (d == 0) (.barWait b a)
  | 5 => mbz (b == 0 && d == 0) (.barSync a)
  | 6 => mbz (d == 0) (.pbwait b a)
  | 7 => mbz (d == 0) (.pbarr b a)
  | _ => .error .unallocated

/-- F-R opcodes 0x160 to 0x17F. -/
def decFR11 (n : Nat) (b a d : BitVec 7) : Except DecodeErr Instr :=
  match n with
  | 0 => mbz (b == 0 && d == 0) (.xw a)
  | 1 => mbz (d == 0) (.xwp b a)
  | 2 => mbz (b == 0) (.untag a d)
  | 3 => mbz (d == 0) (.lnkill b a)
  | 4 => mbz (a == 0) (.mfs b d)
  | 5 => mbz (d == 0) (.mts b a)
  | 6 => mbz (b == 0) (.lnq a d)
  | _ => .error .unallocated

/-- F-R opcodes 0x180 to 0x19F. -/
def decFR12 (n : Nat) (b a d : BitVec 7) : Except DecodeErr Instr :=
  match n with
  | 0 => mbz (b == 0) (.bcopy a d)
  | 1 => mbz (b == 0 && d == 0) (.coll a)
  | 2 => mbz (b == 0 && d == 0) (.ewait a)
  | 3 => mbz (b == 0) (.epoll a d)
  | 4 => mbz (d == 0) (.gpost b a)
  | 5 => mbz (b == 0) (.ofsub a d)
  | 6 => mbz (b == 0 && a == 0 && d == 0) (.ofwait)
  | 7 => mbz (b == 0 && a == 0 && d == 0) (.ofcommit)
  | 8 => mbz (b == 0 && a == 0) (.ofinfo d)
  | 9 => mbz (b == 0) (.accrd a d)
  | 10 => mbz (b == 0) (.accwr a d)
  | _ => .error .unallocated

/-- F-R opcodes 0x1C0 to 0x1DF. -/
def decFR14 (n : Nat) (b a d : BitVec 7) : Except DecodeErr Instr :=
  match n with
  | 0 => mbz (b == 0) (.acalloc a d)
  | 1 => mbz (d == 0) (.acfree b a)
  | 2 => .ok (.mslot b a d)
  | 3 => .ok (.mmac b a d)
  | 4 => mbz (b == 0) (.mtrans a d)
  | 5 => .ok (.mperm b a d)
  | 6 => mbz (b == 0) (.mrsum a d)
  | 7 => mbz (b == 0 && a == 0) (.mzero d)
  | 8 => mbz (d == 0) (.vcnt b a)
  | 9 => mbz (b == 0 && a == 0 && d == 0) (.mwait)
  | 10 => .ok (.mpost b a d)
  | 11 => mbz (b == 0) (.mdrain a d)
  | 12 => mbz (b == 0 && d == 0) (.ppoint a)
  | _ => .error .unallocated

/-- The F-R map (R140): op10 selects, b, a and d are the fields. -/
def decFR (op : Nat) (b a d : BitVec 7) : Except DecodeErr Instr :=
  match op / 32 with
  | 0 => decFR0 (op % 32) b a d
  | 1 => decFR1 (op % 32) b a d
  | 2 => decFR2 (op % 32) b a d
  | 3 => decFR3 (op % 32) b a d
  | 4 => decFR4 (op % 32) b a d
  | 5 => decFR5 (op % 32) b a d
  | 6 => decFR6 (op % 32) b a d
  | 7 => decFR7 (op % 32) b a d
  | 8 => decFR8 (op % 32) b a d
  | 9 => decFR9 (op % 32) b a d
  | 10 => decFR10 (op % 32) b a d
  | 11 => decFR11 (op % 32) b a d
  | 12 => decFR12 (op % 32) b a d
  | 14 => decFR14 (op % 32) b a d
  | _ => .error .unallocated

/-- The F-I map (R141). -/
def decFI (op : Nat) (i : BitVec 12) (a d : BitVec 7) : Except DecodeErr Instr :=
  match op with
  | 0 => .ok (.addiW i a d)
  | 1 => .ok (.andi i a d)
  | 2 => .ok (.ori i a d)
  | 3 => .ok (.xori i a d)
  | 4 => mbz (decide (i.toNat < 32)) (.shli (i.extractLsb' 0 5) a d)
  | 5 => mbz (decide (i.toNat < 32)) (.shri (i.extractLsb' 0 5) a d)
  | 6 => mbz (decide (i.toNat < 32)) (.srai (i.extractLsb' 0 5) a d)
  | 7 => .ok (.cmpiEq i a d)
  | 8 => .ok (.cmpiLtSw i a d)
  | 9 => .ok (.cmpiLtUw i a d)
  | 10 => .ok (.ldiW i a d)
  | 11 => .ok (.stiW i a d)
  | 12 => .ok (.ldiD i a d)
  | 13 => .ok (.stiD i a d)
  | 14 => .ok (.ldiQ i a d)
  | 15 => .ok (.stiQ i a d)
  | _ => .error .unallocated

/-- The F-L map (R141). -/
def decFL (op : Nat) (i : BitVec 18) (d : BitVec 7) : Except DecodeErr Instr :=
  match op with
  | 0 => mbz (d == 0) (.bra i)
  | 1 => .ok (.call i d)
  | 2 => .ok (.movi i d)
  | 3 => .ok (.movu i d)
  | 4 => mbz (i == 0 && d == 0) (.join)
  | _ => .error .unallocated

/-- The F-S map (R142), without the stall word. -/
def decFS (op : Nat) (x : BitVec 20) : Except DecodeErr Instr :=
  match op with
  | 0 => mbz (x == 0) (.nop)
  | 1 => mbz (x == 0) (.exit)
  | 2 => .ok (.trap x)
  | 3 => mbz (x == 0) (.brk)
  | 4 => mbz (x == 0) (.eret)
  | 5 => mbz (decide (x.toNat < 32)) (.fence (x.extractLsb' 4 1) (x.extractLsb' 3 1) (x.extractLsb' 0 3))
  | 6 => mbz (x == 0) (.sdrain)
  | 7 => mbz (decide (x.toNat < 16)) (.wbase (x.extractLsb' 0 4))
  | 8 => .ok (.sleep x)
  | 9 => mbz (x == 0) (.yield)
  | 10 => mbz (x == 0) (.lnon)
  | 11 => mbz (x == 0) (.lnoff)
  | 15 => .ok (.bexit x)
  | 16 => .error .isStall
  | _ => .error .unallocated

/-- The five formats (R127), by the leading bits of the word. -/
def decode (w : Word) : Except DecodeErr Instr :=
  if w.extractLsb' 31 1 = 0 then
    decFR (w.extractLsb' 21 10).toNat (w.extractLsb' 14 7) (w.extractLsb' 7 7) (w.extractLsb' 0 7)
  else if w.extractLsb' 30 2 = 2 then
    decFI (w.extractLsb' 26 4).toNat (w.extractLsb' 14 12) (w.extractLsb' 7 7) (w.extractLsb' 0 7)
  else if w.extractLsb' 29 3 = 6 then
    decFL (w.extractLsb' 25 4).toNat (w.extractLsb' 7 18) (w.extractLsb' 0 7)
  else if w.extractLsb' 28 4 = 14 then .error .isPrefix
  else decFS (w.extractLsb' 20 8).toNat (w.extractLsb' 0 20)

/-- An F-R word. -/
def encFR (op : Nat) (b a d : BitVec 7) : Word :=
  0#1 ++ BitVec.ofNat 10 op ++ b ++ a ++ d
/-- An F-I word. -/
def encFI (op : Nat) (i : BitVec 12) (a d : BitVec 7) : Word :=
  2#2 ++ BitVec.ofNat 4 op ++ i ++ a ++ d
/-- An F-L word. -/
def encFL (op : Nat) (i : BitVec 18) (d : BitVec 7) : Word :=
  6#3 ++ BitVec.ofNat 4 op ++ i ++ d
/-- An F-S word. -/
def encFS (op : Nat) (x : BitVec 20) : Word :=
  15#4 ++ BitVec.ofNat 8 op ++ x

/-- The word of an instruction (R143, R183); the events have none. -/
def encode : Instr → Option Word
  | .addW b a d => some (encFR 0x000 b a d)
  | .subW b a d => some (encFR 0x001 b a d)
  | .addsSw b a d => some (encFR 0x002 b a d)
  | .addsUw b a d => some (encFR 0x003 b a d)
  | .subsSw b a d => some (encFR 0x004 b a d)
  | .subsUw b a d => some (encFR 0x005 b a d)
  | .mulW b a d => some (encFR 0x006 b a d)
  | .mulhiSw b a d => some (encFR 0x007 b a d)
  | .mulhiUw b a d => some (encFR 0x008 b a d)
  | .madW b a d => some (encFR 0x009 b a d)
  | .minSw b a d => some (encFR 0x00A b a d)
  | .minUw b a d => some (encFR 0x00B b a d)
  | .maxSw b a d => some (encFR 0x00C b a d)
  | .maxUw b a d => some (encFR 0x00D b a d)
  | .absSw a d => some (encFR 0x00E 0 a d)
  | .negW a d => some (encFR 0x00F 0 a d)
  | .addD b a d => some (encFR 0x010 b a d)
  | .subD b a d => some (encFR 0x011 b a d)
  | .addwD b a d => some (encFR 0x012 b a d)
  | .mulSwd b a d => some (encFR 0x013 b a d)
  | .mulUwd b a d => some (encFR 0x014 b a d)
  | .idot4Sb b a d => some (encFR 0x015 b a d)
  | .idot4Ub b a d => some (encFR 0x016 b a d)
  | .and b a d => some (encFR 0x020 b a d)
  | .or b a d => some (encFR 0x021 b a d)
  | .xor b a d => some (encFR 0x022 b a d)
  | .andn b a d => some (encFR 0x023 b a d)
  | .shl b a d => some (encFR 0x024 b a d)
  | .shr b a d => some (encFR 0x025 b a d)
  | .sra b a d => some (encFR 0x026 b a d)
  | .rotl b a d => some (encFR 0x027 b a d)
  | .clz a d => some (encFR 0x028 0 a d)
  | .popc a d => some (encFR 0x029 0 a d)
  | .brev a d => some (encFR 0x02A 0 a d)
  | .bfxUw b a d => some (encFR 0x02B b a d)
  | .bfxSw b a d => some (encFR 0x02C b a d)
  | .bfi b a d => some (encFR 0x02D b a d)
  | .perm b a d => some (encFR 0x02E b a d)
  | .mov a d => some (encFR 0x02F 0 a d)
  | .faddF32 b a d => some (encFR 0x040 b a d)
  | .fsubF32 b a d => some (encFR 0x041 b a d)
  | .fmulF32 b a d => some (encFR 0x042 b a d)
  | .ffmaF32 b a d => some (encFR 0x043 b a d)
  | .fminF32 b a d => some (encFR 0x044 b a d)
  | .fmaxF32 b a d => some (encFR 0x045 b a d)
  | .fabsF32 a d => some (encFR 0x046 0 a d)
  | .fnegF32 a d => some (encFR 0x047 0 a d)
  | .frcpF32 a d => some (encFR 0x048 0 a d)
  | .frsqF32 a d => some (encFR 0x049 0 a d)
  | .fsqrtF32 a d => some (encFR 0x04A 0 a d)
  | .fdivF32 b a d => some (encFR 0x04B b a d)
  | .fex2F32 a d => some (encFR 0x04C 0 a d)
  | .flg2F32 a d => some (encFR 0x04D 0 a d)
  | .fsinpiF32 a d => some (encFR 0x04E 0 a d)
  | .fcospiF32 a d => some (encFR 0x04F 0 a d)
  | .ftanhF32 a d => some (encFR 0x050 0 a d)
  | .frndF32 a d => some (encFR 0x051 0 a d)
  | .hadd2F16 b a d => some (encFR 0x060 b a d)
  | .hmul2F16 b a d => some (encFR 0x061 b a d)
  | .hfma2F16 b a d => some (encFR 0x062 b a d)
  | .hadd2Bf16 b a d => some (encFR 0x063 b a d)
  | .hmul2Bf16 b a d => some (encFR 0x064 b a d)
  | .hfma2Bf16 b a d => some (encFR 0x065 b a d)
  | .hmin2Bf16 b a d => some (encFR 0x066 b a d)
  | .hmax2Bf16 b a d => some (encFR 0x067 b a d)
  | .fdot2Bf16 b a d => some (encFR 0x068 b a d)
  | .dadd b a d => some (encFR 0x080 b a d)
  | .dmul b a d => some (encFR 0x081 b a d)
  | .dfma b a d => some (encFR 0x082 b a d)
  | .dmin b a d => some (encFR 0x083 b a d)
  | .dmax b a d => some (encFR 0x084 b a d)
  | .ddiv b a d => some (encFR 0x085 b a d)
  | .dsqrt a d => some (encFR 0x086 0 a d)
  | .cvtF32Sw a d => some (encFR 0x0A0 0 a d)
  | .cvtF32Uw a d => some (encFR 0x0A1 0 a d)
  | .cvtSwF32 a d => some (encFR 0x0A2 0 a d)
  | .cvtUwF32 a d => some (encFR 0x0A3 0 a d)
  | .pkF16 b a d => some (encFR 0x0A4 b a d)
  | .pkBf16 b a d => some (encFR 0x0A5 b a d)
  | .cvtF32F16 i a d => some (encFR 0x0A6 i a d)
  | .cvtF32Bf16 i a d => some (encFR 0x0A7 i a d)
  | .cvtF64F32 a d => some (encFR 0x0A8 0 a d)
  | .cvtF32F64 a d => some (encFR 0x0A9 0 a d)
  | .qpkE4m3 b a d => some (encFR 0x0AA b a d)
  | .qpkE5m2 b a d => some (encFR 0x0AB b a d)
  | .dqE4m3 b a d => some (encFR 0x0AC b a d)
  | .dqE5m2 b a d => some (encFR 0x0AD b a d)
  | .shflIdx b a d => some (encFR 0x0C0 b a d)
  | .shflUp b a d => some (encFR 0x0C1 b a d)
  | .shflDn b a d => some (encFR 0x0C2 b a d)
  | .shflXor b a d => some (encFR 0x0C3 b a d)
  | .shflRel b a d => some (encFR 0x0C4 b a d)
  | .voteAny a d => some (encFR 0x0C5 0 a d)
  | .voteAll a d => some (encFR 0x0C6 0 a d)
  | .ballot a d => some (encFR 0x0C7 0 a d)
  | .redx i a d => some (encFR 0x0C8 i a d)
  | .redxi i a d => some (encFR 0x0C9 i a d)
  | .scan i a d => some (encFR 0x0CA i a d)
  | .matchW a d => some (encFR 0x0CB 0 a d)
  | .cmpEqW b a d => some (encFR 0x0E0 b a d)
  | .cmpNeW b a d => some (encFR 0x0E1 b a d)
  | .cmpLtSw b a d => some (encFR 0x0E2 b a d)
  | .cmpLeSw b a d => some (encFR 0x0E3 b a d)
  | .cmpLtUw b a d => some (encFR 0x0E4 b a d)
  | .cmpLeUw b a d => some (encFR 0x0E5 b a d)
  | .fcmpEqF32 b a d => some (encFR 0x0E6 b a d)
  | .fcmpLtF32 b a d => some (encFR 0x0E7 b a d)
  | .fcmpLeF32 b a d => some (encFR 0x0E8 b a d)
  | .fcmpUnF32 b a d => some (encFR 0x0E9 b a d)
  | .dcmpLt b a d => some (encFR 0x0EA b a d)
  | .dcmpEq b a d => some (encFR 0x0EB b a d)
  | .pand b a d => some (encFR 0x0EC b a d)
  | .por b a d => some (encFR 0x0ED b a d)
  | .pxor b a d => some (encFR 0x0EE b a d)
  | .pandn b a d => some (encFR 0x0EF b a d)
  | .pmovV a d => some (encFR 0x0F0 0 a d)
  | .vmovP a d => some (encFR 0x0F1 0 a d)
  | .pcnt a d => some (encFR 0x0F2 0 a d)
  | .ldSb b a d => some (encFR 0x100 b a d)
  | .ldUb b a d => some (encFR 0x101 b a d)
  | .ldSh b a d => some (encFR 0x102 b a d)
  | .ldUh b a d => some (encFR 0x103 b a d)
  | .ldW b a d => some (encFR 0x104 b a d)
  | .ldD b a d => some (encFR 0x105 b a d)
  | .ldQ b a d => some (encFR 0x106 b a d)
  | .stB b a d => some (encFR 0x108 b a d)
  | .stH b a d => some (encFR 0x109 b a d)
  | .stW b a d => some (encFR 0x10A b a d)
  | .stD b a d => some (encFR 0x10B b a d)
  | .stQ b a d => some (encFR 0x10C b a d)
  | .ldmW k a d => some (encFR 0x110 (0#3 ++ k) a d)
  | .ldmD k a d => some (encFR 0x111 (0#3 ++ k) a d)
  | .ldmQ k a d => some (encFR 0x112 (0#3 ++ k) a d)
  | .stmW k a d => some (encFR 0x114 (0#3 ++ k) a d)
  | .stmD k a d => some (encFR 0x115 (0#3 ++ k) a d)
  | .stmQ k a d => some (encFR 0x116 (0#3 ++ k) a d)
  | .ldacqW r s a d => some (encFR 0x118 (0#3 ++ r ++ s) a d)
  | .ldacqD r s a d => some (encFR 0x119 (0#3 ++ r ++ s) a d)
  | .strelW s a d => some (encFR 0x11A (0#4 ++ s) a d)
  | .strelD s a d => some (encFR 0x11B (0#4 ++ s) a d)
  | .atomAddW b a d => some (encFR 0x120 b a d)
  | .atomMinSw b a d => some (encFR 0x121 b a d)
  | .atomMinUw b a d => some (encFR 0x122 b a d)
  | .atomMaxSw b a d => some (encFR 0x123 b a d)
  | .atomMaxUw b a d => some (encFR 0x124 b a d)
  | .atomAndW b a d => some (encFR 0x125 b a d)
  | .atomOrW b a d => some (encFR 0x126 b a d)
  | .atomXorW b a d => some (encFR 0x127 b a d)
  | .atomExchW b a d => some (encFR 0x128 b a d)
  | .atomCasW b a d => some (encFR 0x129 b a d)
  | .atomFaddF32 b a d => some (encFR 0x12A b a d)
  | .atomAddD b a d => some (encFR 0x12B b a d)
  | .atomExchD b a d => some (encFR 0x12C b a d)
  | .atomCasD b a d => some (encFR 0x12D b a d)
  | .pfL1 b a => some (encFR 0x130 b a 0)
  | .pfL2 b a => some (encFR 0x131 b a 0)
  | .jmp a => some (encFR 0x140 0 a 0)
  | .callr a d => some (encFR 0x141 0 a d)
  | .ret a => some (encFR 0x142 0 a 0)
  | .barArr b a => some (encFR 0x143 b a 0)
  | .barWait b a => some (encFR 0x144 b a 0)
  | .barSync a => some (encFR 0x145 0 a 0)
  | .pbwait i a => some (encFR 0x146 i a 0)
  | .pbarr b a => some (encFR 0x147 b a 0)
  | .xw a => some (encFR 0x160 0 a 0)
  | .xwp b a => some (encFR 0x161 b a 0)
  | .untag a d => some (encFR 0x162 0 a d)
  | .lnkill i a => some (encFR 0x163 i a 0)
  | .mfs i d => some (encFR 0x164 i 0 d)
  | .mts i a => some (encFR 0x165 i a 0)
  | .lnq a d => some (encFR 0x166 0 a d)
  | .bcopy a d => some (encFR 0x180 0 a d)
  | .coll a => some (encFR 0x181 0 a 0)
  | .ewait a => some (encFR 0x182 0 a 0)
  | .epoll a d => some (encFR 0x183 0 a d)
  | .gpost b a => some (encFR 0x184 b a 0)
  | .ofsub a d => some (encFR 0x185 0 a d)
  | .ofwait => some (encFR 0x186 0 0 0)
  | .ofcommit => some (encFR 0x187 0 0 0)
  | .ofinfo d => some (encFR 0x188 0 0 d)
  | .accrd a d => some (encFR 0x189 0 a d)
  | .accwr a d => some (encFR 0x18A 0 a d)
  | .acalloc a d => some (encFR 0x1C0 0 a d)
  | .acfree b a => some (encFR 0x1C1 b a 0)
  | .mslot b a s => some (encFR 0x1C2 b a s)
  | .mmac b a d => some (encFR 0x1C3 b a d)
  | .mtrans a d => some (encFR 0x1C4 0 a d)
  | .mperm b a d => some (encFR 0x1C5 b a d)
  | .mrsum a d => some (encFR 0x1C6 0 a d)
  | .mzero d => some (encFR 0x1C7 0 0 d)
  | .vcnt b a => some (encFR 0x1C8 b a 0)
  | .mwait => some (encFR 0x1C9 0 0 0)
  | .mpost b a d => some (encFR 0x1CA b a d)
  | .mdrain a d => some (encFR 0x1CB 0 a d)
  | .ppoint a => some (encFR 0x1CC 0 a 0)
  | .addiW i a d => some (encFI 0 i a d)
  | .andi i a d => some (encFI 1 i a d)
  | .ori i a d => some (encFI 2 i a d)
  | .xori i a d => some (encFI 3 i a d)
  | .shli i a d => some (encFI 4 (0#7 ++ i) a d)
  | .shri i a d => some (encFI 5 (0#7 ++ i) a d)
  | .srai i a d => some (encFI 6 (0#7 ++ i) a d)
  | .cmpiEq i a d => some (encFI 7 i a d)
  | .cmpiLtSw i a d => some (encFI 8 i a d)
  | .cmpiLtUw i a d => some (encFI 9 i a d)
  | .ldiW i a d => some (encFI 10 i a d)
  | .stiW i a d => some (encFI 11 i a d)
  | .ldiD i a d => some (encFI 12 i a d)
  | .stiD i a d => some (encFI 13 i a d)
  | .ldiQ i a d => some (encFI 14 i a d)
  | .stiQ i a d => some (encFI 15 i a d)
  | .bra i => some (encFL 0 i 0)
  | .call i d => some (encFL 1 i d)
  | .movi i d => some (encFL 2 i d)
  | .movu i d => some (encFL 3 i d)
  | .join => some (encFL 4 0 0)
  | .nop => some (encFS 0x00 0)
  | .exit => some (encFS 0x01 0)
  | .trap c => some (encFS 0x02 c)
  | .brk => some (encFS 0x03 0)
  | .eret => some (encFS 0x04 0)
  | .fence t e s => some (encFS 0x05 (0#15 ++ t ++ e ++ s))
  | .sdrain => some (encFS 0x06 0)
  | .wbase n => some (encFS 0x07 (0#16 ++ n))
  | .sleep n => some (encFS 0x08 n)
  | .yield => some (encFS 0x09 0)
  | .lnon => some (encFS 0x0A 0)
  | .lnoff => some (encFS 0x0B 0)
  | .bexit c => some (encFS 0x0F c)
  | .fairnessTurn _ => none
  | .storeFaultDelivery _ => none
  | .transactionOverrunTrap _ => none
  | .passFaultDelivery _ => none
  | .producerComplete _ _ => none
  | .drain _ _ => none
  | .propagate _ _ => none
  | .apply _ => none
  | .refresh _ _ => none
  | .engineRead _ _ => none
  | .engineWrite _ _ => none
  | .joinDeadlockRelease _ => none
  | .pbwaitRelease _ _ => none
  | .sleepExpiry _ _ => none
  | .pageWalk _ _ => none
  | .faultRecordWrite _ => none
  | .collapse _ _ _ => none
  | .engineCommandStart _ => none
  | .scout _ _ => none
  | .copyCompletion _ => none
  | .collectiveCompletion _ _ => none
  | .orderSequencerArrival _ => none
  | .beatSeal _ => none
  | .batchExchange _ => none
  | .transactionAdmission _ => none
  | .transactionOverrun _ => none
  | .passGrant _ => none
  | .operandFetch _ _ _ _ => none
  | .chunkApplied _ _ => none
  | .mpostArrival _ _ => none
  | .tileDrain _ _ => none
  | .accumulatorSpill _ => none
  | .acallocGrant _ => none
  | .acfreeEffect _ _ => none
  | .preemptionTimeout _ => none
  | .qpost _ _ _ _ => none
  | .queueResume _ _ => none
  | .flush _ _ => none
  | .abort _ _ => none
  | .nodeDispatch _ => none
  | .nodeCompletion _ => none
  | .blockAdmission _ => none
  | .admissionReservation _ _ => none
  | .blockRetirement _ => none
  | .launchEnd _ => none
  | .latticeTimeslice _ _ => none
  | .replayGateTimeout _ _ => none
  | .measurementPass _ => none
  | .contextDestroy _ _ => none
  | .shootdown _ => none
  | .shootdownComplete _ => none
  | .fqresResume _ _ => none
  | .fqresReject _ _ => none
  | .halt _ => none
  | .resume _ => none
  | .step _ => none
  | .stepall _ => none
  | .snap _ _ => none
  | .poke _ => none
  | .preempt _ _ => none
  | .restore _ => none
  | .release _ => none
  | .hostAccess _ _ _ _ _ => none
  | .inboundAccess _ _ _ _ _ _ => none
  | .inboundTimeout _ _ => none
  | .remoteTimeout _ => none
  | .peerCompletion _ _ _ => none
  | .flitReplay _ _ => none
  | .linkRetrain _ => none
  | .heartbeat _ _ _ _ => none
  | .sessionBind _ _ => none
  | .sessionLapse _ => none
  | .sessionHalt _ => none
  | .sessionScrub _ => none
  | .getMeasurements _ => none
  | .stage _ _ _ _ _ => none
  | .activate => none
  | .componentSwitch => none
  | .create _ _ _ _ => none
  | .partitionRelease _ => none
  | .handoff _ _ _ => none
  | .allocationRecordWrite _ _ _ _ _ _ _ _ _ => none
  | .levelLower _ _ _ _ _ => none
  | .clockSwitch _ => none
  | .powerInterval _ => none
  | .droop _ => none
  | .brownoutWarning => none
  | .brownoutClear => none
  | .brownoutTimeout => none
  | .thermalInterval _ _ => none
  | .thermalCritical _ _ => none
  | .thermalTrip _ _ => none
  | .emergencySave => none
  | .emergencyImageWrite _ => none
  | .opvote _ _ => none
  | .railHoldExpiry _ _ => none
  | .railVoltageReached _ _ => none
  | .energyUpdate _ _ => none
  | .budgetPeriod => none
  | .patrolScrub _ => none
  | .uncorrectableError _ => none
  | .retirecore => none
  | .sparech => none
  | .rowrep => none
  | .lanespare => none
  | .tseal => none
  | .swapout => none
  | .transportSelfTest _ _ _ => none
  | .deviceReset => none
  | .registerWrite _ _ _ _ => none
  | .hostCompletion _ _ => none
  | .linkRetrained _ => none
  | .collectiveInboundWrite _ _ _ _ => none

/-- The decoder on a word numbered as the opcode table numbers its bits: one 32-bit little-endian word, its
missing high bits zero. -/
def decodeTableWord (_nbits w : Nat) : Option Instr :=
  match decode (BitVec.ofNat 32 w) with
  | .ok i => some i
  | .error _ => none

end Sys2Proof
end

