-- ==== Sys2Proof/Machine/Issue.lean ====
section
/-! DEFINITION. Choosing and fetching an instruction: instruction boundaries, the traps due there, breakpoints, fetch,
prefix and stall words, and the groups of an `xw` (R22, R26, R32, R41, R130, R133, R198, R207, R239, R244, R268, R305,
R314 to R316). -/

namespace Sys2Proof.Machine

/-- What a step of a unit comes to: done by itself, or an instruction to execute. -/
inductive Prep where
  | done (s : State)
  | run (i : Instr) (s : State)
  deriving DecidableEq, Repr

/-! ### Traps due at an instruction boundary -/

/-- An entry whose lanes take a record's trap now: one that does not wait, and does not stand parked for the handler (R268). -/
def Entry.takesRecord (e : Entry) : Bool :=
  match e.st with
  | .ready => true
  | .parked (.driver _ _) => true
  | _ => false

/-- The first record of a warp, in SEQ order, that has something to do now: lanes standing in an entry that takes it, or no live
lane left (R268, R305). While the handler runs only a record that has begun has: its lanes park (R27). -/
def sfNext (c : Core) (u : Nat) (w : Warp) : Option SfRec :=
  leastBy (fun r => r.seq) (c.sfq.filter (fun r => r.u == u && (w.hlanes == 0 || r.begun) &&
    (((r.lanes &&& w.live) == 0 && w.hlanes == 0) ||
      w.frontier.any (fun e => e.takesRecord && (e.mask &&& r.lanes &&& ~~~w.hlanes) != 0))))

/-- A store-fault record may be delivered (R268, R305). -/
def State.sfDue (s : State) (u : Nat) (w : Warp) : Bool :=
  match kget s.blocks w.blk with
  | some b => !w.ended && !(s.core b.core).sfq.isEmpty && (sfNext (s.core b.core) u w).isSome
  | none => false

/-- The lanes of a mask that stand in an entry that takes a record park for the handler, each where it stands (R27, R268). -/
def Warp.parkForHandler (w : Warp) (m : Mask) : Warp :=
  (w.frontier.filter (fun x => x.takesRecord && (x.mask &&& m) != 0)).foldl (fun w x => w.move (x.mask &&& m) x.pc (.parked .handler)) w

/-- Deliver a store-fault record (R268): lanes that ended are dropped; the live lanes in the entry of the lowest of them
that does not wait trap with cause 0x20; those in other such entries park, and the record waits for them and for the lanes that
still wait. While the handler runs, lanes of a record that has begun park as their waits end. -/
def State.sfDeliver (s : State) (u : Nat) : State :=
  match kget s.warps u, (kget s.warps u).bind (fun w => kget s.blocks w.blk) with
  | some w, some b =>
    match sfNext (s.core b.core) u w with
    | none => s
    | some r =>
      let live := r.lanes &&& w.live &&& ~~~w.hlanes
      let ready := (w.frontier.filter Entry.takesRecord).foldl (fun m e => m ||| (e.mask &&& live)) (0 : Mask)
      if w.hlanes != 0 then s.modWarp u (fun w => w.parkForHandler live)
      else
      match lowestLane ready with
      | none => s.modCore b.core (fun c => { c with sfq := c.sfq.filter (fun x => !(x.u == u && x.seq == r.seq)) })
      | some l =>
        match w.entryOf (laneBit l) with
        | none => s
        | some e =>
          let m := e.mask &&& live
          let left := live &&& ~~~m
          let mine (x : SfRec) : Bool := x.u == u && x.seq == r.seq
          let upd (q : List SfRec) : List SfRec :=
            if left = 0 then q.filter (fun x => !mine x) else replaceIf mine (fun x => { x with lanes := left, begun := true }) q
          let s := s.modCore b.core (fun c => { c with sfq := upd c.sfq })
          let s := s.takeTrap u m e.pc ⟨0x20, r.cause, r.va, e.pc, some r.pc.toNat⟩
          s.modWarp u (fun w => w.parkForHandler left)
  | _, _ => s

/-- The pending overrun trap may be taken (R239, R305). -/
def Warp.overrunDue (w : Warp) : Bool := w.overrunTrap && w.hlanes == 0 && !w.ended && (headOf w.frontier).isSome
/-- A pass fault may be delivered (R244, R305). -/
def Warp.passDue (w : Warp) : Bool := !w.passFaults.isEmpty && w.hlanes == 0 && !w.ended && (headOf w.frontier).isSome

/-- Take the overrun trap on the head (R239). -/
def State.overrunTake (s : State) (u : Nat) : State :=
  match kget s.warps u, (s.who u).bind (fun p => s.lrOf p.launch) with
  | some w, some lr =>
    if !w.overrunDue then s
    else
      match headOf w.frontier with
      | some e => (s.setWarp u { w with overrunTrap := false }).takeTrap u e.mask e.pc ⟨0x15, lr.ofbudget, 0, e.pc, none⟩
      | none => s
  | _, _ => s

/-- Deliver a pass fault to the tile context (R244): cause, TRAPINFO, TRAPADDR, and TRAPSPC the faulting command (log 104: R244
has TRAPSPC written, R304 has it written for cause 0x20 alone). -/
def State.passTake (s : State) (u : Nat) : State :=
  match kget s.warps u with
  | some w =>
    if !w.passDue then s
    else
      match w.passFaults, headOf w.frontier with
      | (cause, info, addr, pc) :: t, some e =>
        (s.setWarp u { w with passFaults := t }).takeTrap u e.mask e.pc ⟨cause, info, addr, e.pc, some pc⟩
      | _, _ => s
  | none => s

/-! ### Holds -/

/-- The partition lets its units issue: no lapse (R330), no debug hold (R314) unless the unit is being stepped,
no pre-emption of its block (R35, R310). -/
def State.mayIssue (s : State) (u : Nat) (w : Warp) (p : Who) : Bool :=
  let x := s.part p.part
  let st := s.sess p.part
  (decide (st < 2) || (w.tile && st == 2)) && !s.power.halted && !s.fleet.inactive.contains p.core &&
  (!x.held.contains p.ctx || x.running.contains p.ctx || x.stepping.any (fun e => e.1 == u)) &&
  (match kget s.launches p.launch with
   | some l => !l.diverged
   | none => false) &&
  (match kget s.blocks w.blk with
   | some b => !b.stopped && !(if w.tile then b.tileStop else b.preempt)
   | none => false)

/-- An instruction that has begun goes on to its end: a hold or a pre-emption acts at the next boundary (R35, R310, R314). -/
def State.mayFinish (s : State) (w : Warp) (p : Who) : Bool :=
  !s.power.halted && !s.fleet.inactive.contains p.core && (kget s.blocks w.blk).any (fun b => !b.stopped) &&
    (kget s.launches p.launch).any (fun l => !l.diverged)

/-- Every store, `strel` and atomic the warp issued has been translated and is accepted or recorded (R198). -/
def State.sdJudged (s : State) (u : Nat) (w : Warp) : Bool := w.posted.isEmpty && s.outsideDone u

/-- And every record has been delivered (R198). -/
def State.sdrained (s : State) (u : Nat) (w : Warp) : Bool :=
  s.sdJudged u w && (match kget s.blocks w.blk with
    | some b => (s.core b.core).sfq.all (fun r => r.u != u)
    | none => true)

/-- The lanes that may issue: all, but under an `sdrain` that waits none, or, once its stores are judged, those that run the
handler of a record, without whom the next could not be delivered (R198, R268; log 105). -/
def State.issueLanes (s : State) (u : Nat) (w : Warp) : Mask :=
  if !w.sdrain || s.sdrained u w then -1
  else if s.sdJudged u w then w.hlanes
  else 0

/-- Whether breakpoints are off for the unit: it is being stepped (R316). -/
def State.stepped (s : State) (p u : Nat) : Bool := (s.part p).stepping.any (fun e => e.1 == u)

/-- The breakpoint that matches a PC (R315). -/
def State.bpMatch (s : State) (p ctx : Nat) (pc : DWord) : Option Nat :=
  if s.regs.isEmpty then none
  else (List.range 4).find? (fun i => s.preg p (.dbpEn i) == 1 && s.preg p .dctx == ctx && s.preg p (.dbpPc i) == pc.toNat)

/-- Stop a held context (R314, R315): why, where; the first issue of each ready entry afterwards matches no breakpoint. -/
def State.stopContext (s : State) (p ctx why idx : Nat) (pc : Nat) : State :=
  let s := s.modPart p (fun x => { x with running := x.running.filter (· != ctx) })
  let s := ((s.setPreg p .dstop why).setPreg p .dbpIdx idx).setPreg p .dpc pc
  { s with warps := s.warps.map (fun e => match s.who e.1 with
      | some q => if q.part = p ∧ q.ctx = ctx then
          (e.1, { e.2 with frontier := e.2.frontier.map (fun x => { x with bpSkip := true }) }) else e
      | none => e) }

/-! ### Fetch -/

/-- Fetch a word (R104, R296): its value, or the failure of its address. -/
def State.fetchWord (s : State) (p : Who) (u : Nat) (pc : DWord) : State × Except Res Word :=
  let r := s.checkElem p u 0 .fetch true false 0 pc 4
  match r.2 with
  | .ok bs => (r.1, .ok (BitVec.ofNat 32 (natLE (bs.map (fun b => match b.loc with
      | .mem pa => r.1.hByte pa
      | _ => 0)))))
  | e => (r.1, .error e)

def isPrefixW (w : Word) : Bool := w.extractLsb' 28 4 == 14
def isStallW (w : Word) : Bool := w.extractLsb' 20 12 == 0xF10

/-- A word at an address, for finding the stall word that covers an instruction. -/
def State.peek (s : State) (p : Who) (va : Nat) : Option Word :=
  (s.vaToPa p.part p.ctx va).map (fun pa => BitVec.ofNat 32 (s.hNat pa 4))

/-- The count of a word (R133): walk back over at most six covered words to the nearest stall word, whatever prefixes stand
between. DESIGN CHOICE (log 106): a stall word that is itself illegal, with [19:18] set, still has its counts and ends the run
before it. -/
def State.countAt (s : State) (p : Who) : Nat → Nat → Nat → Option Nat
  | 0, _, _ => none
  | fuel + 1, va, k =>
    if va < 4 then none
    else
      match s.peek p (va - 4) with
      | none => none
      | some w =>
        if isStallW w then some (bits w.toNat (3 * k + 2) (3 * k))
        else if isPrefixW w then s.countAt p fuel (va - 4) k
        else if 5 ≤ k then none
        else s.countAt p fuel (va - 4) (k + 1)

/-- Pass over stall words (R133): the address of the first word that is none, or a failure there. -/
def State.skipStalls (s : State) (p : Who) (u : Nat) : Nat → DWord → State × DWord × Except Res Word
  | 0, pc => (s, pc, .ok 0)
  | fuel + 1, pc =>
    let r := s.fetchWord p u pc
    match r.2 with
    | .ok w => if isStallW w && w.extractLsb' 18 2 == 0 then r.1.skipStalls p u fuel (pc + 4) else (r.1, pc, .ok w)
    | .error e => (r.1, pc, .error e)

/-- A fetch of the word at `va` fails: protection traps the lanes at their instruction, a driver-class fault parks them there
(R200, R302, R304). -/
def State.fetchFault (s : State) (u : Nat) (m : Mask) (pc va : DWord) (e : Res) : State :=
  match e with
  | .prog k i => s.takeTrap u m pc ⟨k, i, va.toNat, pc, none⟩
  | .driver kind page => s.park u m pc page va.toNat kind 2
  | _ => s

/-- Mark an entry as issuing: its stamp (R32). -/
def Warp.stampEntry (w : Warp) (m : Mask) (n : Nat) : Warp :=
  { w with frontier := replaceIf (fun e => e.isReady && (e.mask &&& m) != 0) (fun e => { e with stamp := n }) w.frontier }

/-- The instruction of a word's opcode, with every field 0. -/
def opcodeOf (w : Word) : Option Instr :=
  let m : Word := if w.extractLsb' 31 1 = 0 then 0xFFE00000 else if w.extractLsb' 30 2 = 2 then 0xFC000000
    else if w.extractLsb' 29 3 = 6 then 0xFE000000 else 0xFFF00000
  match decode (w &&& m) with
  | .ok i => some i
  | .error _ => none

/-- An instruction word with its prefix at hand: decode it, or take the illegal-instruction trap (R130, R139). A prefix that the
word's opcode does not accept decides over a must-be-zero bit of the word. -/
def State.latch (s : State) (is : Issue) : Prep :=
  let s := s.setCur (some is)
  let ill (info : Word) : Prep :=
    .done ((s.takeTrap is.u is.mask is.pc ⟨0x01, info.toNat, 0, is.pc, none⟩).setCur none)
  match is.pfx with
  | some x =>
    let f := pxFields x.toNat
    if isPrefixW is.word || isStallW is.word || f.rm > 4 || f.ms > 6 || f.rsv != 0 then ill x
    else
      match decode is.word with
      | .ok i => .run i s
      | .error _ => ill (if (opcodeOf is.word).any (fun i => !i.row.accepts f) then x else is.word)
  | none =>
    match decode is.word with
    | .ok i => .run i s
    | .error _ => ill is.word

/-- Fetch and latch the instruction of a ready entry (R22, R41, R133). -/
def State.fetchEntry (s : State) (u : Nat) (p : Who) (e : Entry) : Prep :=
  let r := s.skipStalls p u (top57 / 4) e.pc
  match r.2.2 with
  | .error x => .done (r.1.fetchFault u e.mask r.2.1 r.2.1 x)
  | .ok w =>
    let s := r.1
    let pc := r.2.1
    let s := if pc = e.pc then s else s.modWarp u (fun w => w.move e.mask pc .ready)
    match (kget s.warps u).bind (fun w => w.entryOf e.mask) with
    | none => .done s
    | some e =>
      let hit := if e.bpSkip || s.stepped p.part u then none else s.bpMatch p.part p.ctx pc
      match hit with
      | some i =>
        if (s.part p.part).held.contains p.ctx then .done (s.stopContext p.part p.ctx 3 i pc.toNat)
        else
          let s := s.takeTrap u e.mask pc ⟨0x31, i, 0, pc, none⟩
          .done s
      | none =>
        let locked := (kget s.warps u).any (·.locked)
        let n := s.countAt p (pc.toNat / 4 + 1) pc.toNat 0
        let s := s.modWarp u (fun w => w.stampEntry e.mask s.stepNo)
        if isPrefixW w then
          let q := s.fetchWord p u (pc + 4)
          match q.2 with
          | .error x => .done (q.1.fetchFault u e.mask pc (pc + 4) x)
          | .ok w2 => q.1.latch ⟨u, pc, pc + 4, pc + 8, w2, some w, e.mask, n, 0, e.stamp, locked⟩
        else s.latch ⟨u, pc, pc, pc + 4, w, none, e.mask, n, 0, e.stamp, locked⟩

/-! ### The groups of an issue-register instruction (R207, R209) -/

/-- The next group of a run, or its end: the bad lanes trap, the others move on. -/
def State.runGroup (s : State) (u : Nat) (w : Warp) (p : Who) (r : XwRun) : Prep :=
  match r.groups with
  | g :: _ =>
    let m := g.mask &&& r.mask
    if m = 0 then .done (s.setWarp u { w with xw := some { r with groups := r.groups.tail } })
    else s.latch ⟨u, r.pc, r.pc, r.npc, g.word, if g.pfx = 0 then none else some g.pfx, m, none, g.depth,
      (w.entryOf m).elim 0 (·.stamp), w.locked⟩
  | [] =>
    let good := r.mask &&& ~~~r.bad
    let s := s.setWarp u (({ w with xw := none }).move good r.npc .ready)
    .done ((s.takeTrap u (r.bad &&& r.mask) r.pc ⟨0x02, r.badWord.toNat, 0, r.pc, none⟩).stepDone p.part u r.pc.toNat)

/-- A unit its scheduler may pick: it may issue, and has an entry ready (R22, R33, R287). -/
def State.pickable (s : State) (u : Nat) (w : Warp) (p : Who) : Bool :=
  !w.ended && s.mayIssue u w p && (w.xw.isSome || w.frontier.any (fun e => e.isReady && (e.mask &&& s.issueLanes u w) != 0))

/-- Two units have one scheduler: warps of a quarter, tile contexts of a cluster (R33, R287). -/
def sameScheduler (w w' : Warp) (p p' : Who) : Bool :=
  w.tile == w'.tile && (if w.tile then p.core / 4 == p'.core / 4 else p.core == p'.core && w.quarter == w'.quarter)

/-- A unit's place in its scheduler's order: launch PRIO, highest first, then admission order (R33, R287). -/
def State.rank (s : State) (u : Nat) (p : Who) : Nat := (15 - (s.lrOf p.launch).elim 0 (·.prio)) * 2 ^ 64 + u

/-- The scheduler picks another unit: one before this in its order that is ready, and whose word can issue in this cycle (R33,
R287). Whether a ready unit's word can, its operands, gap and fetch permitting, is timing, a free value (log 3). -/
def State.outranked (s : State) (u : Nat) (w : Warp) (p : Who) : Bool :=
  s.warps.any (fun v => v.1 != u && match s.who v.1 with
    | some q => sameScheduler w v.2 p q && decide (s.rank v.1 q < s.rank u p) && s.pickable v.1 v.2 q && !Config.pausing s.stepNo v.1
    | none => false)

/-- One issue attempt of a unit at an instruction boundary. `at_` names the ready entry STEPALL chose. -/
def State.prepare (s : State) (u : Nat) (at_ : Option Nat) : Prep :=
  let s := s.setCur none
  match kget s.warps u, s.who u with
  | some w, some p =>
    if w.ended || !(s.mayIssue u w p || (w.xw.isSome && s.mayFinish w p)) then .done s
    else if !s.stepped p.part u && s.outranked u w p then .done s
    else
      match w.xw with
      | some r => s.runGroup u w p r
      | none =>
        if s.sfDue u w then .run (.storeFaultDelivery u) s
        else if s.issueLanes u w = 0 then .done s
        else if w.overrunDue then .run (.transactionOverrunTrap u) s
        else if w.passDue then .run (.passFaultDelivery u) s
        else if w.turn.isNone && decide (64 ≤ w.fair) && at_.isNone then .run (.fairnessTurn u) s
        else
          let may := s.issueLanes u w
          let s := if w.sdrain && may == -1 then s.setWarp u { w with sdrain := false } else s
          let due := (s.part p.part).stepping.filter (fun x => x.1 == u)
          let at_ := at_.orElse (fun _ => (due.find? (fun x => x.2.2 != 0)).map (·.2.1))
          let pick : Option Entry := match at_ with
            | some pc => w.frontier.find? (fun e => e.isReady && e.pc.toNat == pc && (e.mask &&& may) != 0)
            | none =>
              match w.turn with
              | some m => w.frontier.find? (fun e => e.isReady && e.mask == BitVec.ofNat 64 m && (e.mask &&& may) != 0)
              | none => w.frontier.find? (fun e => e.isReady && (e.mask &&& may) != 0)
          match pick with
          | none => .done (match at_ with
            | some pc => s.stepDone p.part u pc
            | none => s)
          | some e =>
            let pend := due.foldl (fun m x => m ||| x.2.2) (0 : Mask)
            if at_.isSome && (e.mask &&& ~~~pend) != 0 then .done (s.stepDone p.part u e.pc.toNat)
            else
              match s.fetchEntry u p e with
              | .done t => .done (t.stepDone p.part u e.pc.toNat)
              | .run i t => .run i t
  | _, _ => .done s

end Sys2Proof.Machine
end

