-- ==== Sys2Proof/Machine/Control.lean ====
section
/-! DEFINITION. Branches, joins, ends, traps, fences and pacing (R197 to R200, R215 to R217, R29). -/

namespace Sys2Proof.Machine

/-! ### Branches (R23, R199, R200) -/

/-- The distinct targets of some lanes, each with its lanes. -/
def byTarget (taken : List (Nat × DWord)) : List (DWord × Mask) :=
  (dedup (taken.map (·.2))).map (fun t => (t, maskOf ((taken.filter (fun x => x.2 = t)).map (·.1))))

/-- The frontier change of a branch (R23): one ready entry per distinct target, and the lanes that stay at the next
instruction. Backward branches of the head are counted, and a turn ends (R32). -/
def State.branch (s : State) (c : Ctx) (taken : List (Nat × DWord)) (stay : Mask) : State :=
  (({ s with cur := none }).modWarp c.u (fun w =>
    let w := if taken.any (fun x => decide (x.2.toNat ≤ c.is.wpc.toNat)) then w.countBackward c.is.mask c.is.pc else w
    let w := w.branchEndsTurn c.is.mask
    let stamp := ((w.entryOf c.is.mask).elim 0 (·.stamp))
    let fr := fRemove (maskOf (taken.map Prod.fst) ||| stay) w.frontier
    let fr := if stay = 0 then fr else fInsert ⟨c.is.npc, stay, .ready, stamp, false, c.is.npc⟩ fr
    w.setFrontier ((byTarget taken).foldl (fun (fr : List Entry) (t : DWord × Mask) => fInsert ⟨t.1, t.2, .ready, stamp, false, t.1⟩ fr) fr))).stepDone c.p.part c.u c.is.pc.toNat

/-- The target of a direct branch (R199). -/
def directTarget (c : Ctx) (i : BitVec 18) : DWord := c.is.wpc + (i.signExtend 64) * 4

/-- Write the link into the lanes that call (R199, R200). -/
def State.link (s : State) (c : Ctx) (d : BitVec 7) (m : Mask) : State :=
  let c' := { c with m := m }
  let w := c'.put d.toNat 2 ((lanesOf m).map (fun l => (l, words64 (c.is.wpc + 4)))) (c'.level 0)
  let s := s.setWarp c.u w
  if m = 0 then s else s.linResult c.p.core c.u (c.w.wbase + d.toNat) 2 [] none

def execBra (i : BitVec 18) (s : State) : Out :=
  warpOp (.bra i) s (fun c t => t.branch c ((lanesOf c.m).map (fun l => (l, directTarget c i))) c.rest)
def execCall (i : BitVec 18) (d : BitVec 7) (s : State) : Out :=
  warpOp (.call i d) s (fun c t =>
    (t.link c d c.m).branch c ((lanesOf c.m).map (fun l => (l, directTarget c i))) c.rest)

/-- A register branch: lanes whose target is misaligned or not canonical trap at the branch (R200). -/
def regBranch (a : BitVec 7) (link : Option (BitVec 7)) (c : Ctx) (s : State) : State :=
  let tgt := (lanesOf c.m).map (fun l => (l, c.rd64 a.toNat l))
  let ok (t : DWord) : Bool := t.toNat % 4 == 0 && decide (t.toNat < top57)
  let good := tgt.filter (fun x => ok x.2)
  let bad := tgt.filter (fun x => !ok x.2)
  let s := match link with
    | some d => s.link c d (maskOf (good.map Prod.fst))
    | none => s
  let s := match bad with
    | [] => s
    | x :: _ => s.trapLanes c (maskOf (bad.map Prod.fst)) 0x05 0 x.2.toNat
  match kget s.warps c.u with
  | some w => if w.ended then s.retry else s.branch c good c.rest
  | none => s.retry

def execJmp (a : BitVec 7) (s : State) : Out := warpOp (.jmp a) s (regBranch a none)
def execCallr (a d : BitVec 7) (s : State) : Out := warpOp (.callr a d) s (regBranch a (some d))
def execRet (a : BitVec 7) (s : State) : Out := warpOp (.ret a) s (regBranch a none)

/-! ### Join and exit (R28 to R30, R215) -/

def Entry.atJoin (e : Entry) : Bool := decide (e.st = .waiting .join)

/-- A join whose lanes are all the live lanes completes (R29). -/
def Warp.judgeJoin (w : Warp) : Warp := w.wake (fun e => e.atJoin && e.mask == w.live)

/-- `join`: the arrival is a release at warp scope, so it waits until the arriving lanes' queues have drained (R29, R112). -/
def execJoin (s : State) : Out :=
  warpOp .join s (fun c t =>
    if c.w.drained c.m then
      (t.modWarp c.u (fun w => (w.hold c.m c.is.pc c.is.npc .join).judgeJoin)).done c c.rest
    else t.retry)

/-- R30: the group at the lowest join address completes with its own lanes. -/
def Warp.joinDeadlock (w : Warp) : Warp :=
  let js := w.frontier.filter Entry.atJoin
  if js.length == w.frontier.length && decide (2 ≤ js.length) then
    match leastBy (fun e => e.pc.toNat) js with
    | some j => w.wake (fun e => e.atJoin && e.pc == j.pc)
    | none => w
  else w

/-- The live threads of a block's warps (R201). -/
def State.liveThreads (s : State) (b : Block) : Nat :=
  b.warps.foldl (fun n u => n + (kget s.warps u).elim 0 (fun w => (lanesOf w.live).length)) 0

/-- The scope of a block's named barriers (R16): the SCOPE of its core-domain level, warp scope without one. -/
def LaunchRec.blockScope (lr : LaunchRec) : Nat := (lr.levels.find? (fun l => l.domain == 2)).elim 0 (·.scope)

/-- A barrier phase that is complete releases its waiters, each an acquire, and returns to idle (R201). -/
def State.barJudge (s : State) (blk id : Nat) : State :=
  match kget s.blocks blk with
  | none => s
  | some b =>
    match kget b.bars id with
    | none => s
    | some x =>
      if x.arrived ≥ (if x.sync then s.liveThreads b else x.expect) then
        let scope := (s.lrOf b.launch).elim 0 LaunchRec.blockScope
        let s := s.acquire b.core scope
        let s := b.warps.foldl (fun st u => st.modWarp u (fun w => w.wake (fun e => decide (e.st = .waiting (.bar id))))) s
        s.modBlock blk (fun b => { b with bars := kdel b.bars id })
      else s

/-- Every `bar.sync` phase of a block is judged again (R201). -/
def State.barJudgeAll (s : State) (blk : Nat) : State :=
  match kget s.blocks blk with
  | none => s
  | some b => (b.bars.filter (fun x => x.2.sync)).foldl (fun st x => st.barJudge blk x.1) s

/-- Lanes stop being live (R23, R28): they leave the handler, a waiting join is judged again, and so are the block's
barriers. A warp with no live lane keeps no register mapped. -/
def State.exitLanes (s : State) (u : Nat) (m : Mask) : State :=
  let s := s.modWarp u (fun w =>
    let w := ((w.setFrontier (fRemove m w.frontier)).leaveHandler m).judgeJoin
    if w.live = 0 then { w with lin := [] } else w)
  match kget s.warps u with
  | some w => ((kget s.blocks w.blk).elim s (fun b => if w.tile then s else s.vsSweep b.core)).barJudgeAll w.blk
  | none => s

/-- A tile context that ends with an undelivered pass fault ends its block (R244). -/
def State.tileEnd (s : State) (u : Nat) : State :=
  match kget s.warps u with
  | some w =>
    match w.passFaults with
    | (cause, _) :: _ => if w.tile && w.live == 0 && !w.ended then s.bexit u cause else s
    | [] => s
  | none => s

def execExit (s : State) : Out :=
  warpOp .exit s (fun c t => (((t.exitLanes c.u c.m).done c c.rest).tileEnd c.u))

/-! ### Traps, breakpoints and returns (R215) -/

def execNop (s : State) : Out := warpOp .nop s (fun c t => t.done c c.is.mask)
def execTrap (code : BitVec 20) (s : State) : Out :=
  warpOp (.trap code) s (fun c t => (t.takeTrap c.u c.m c.is.pc ⟨0x30, code.toNat, 0, c.is.npc, none⟩).done c c.rest)
/-- `brk`: under hold the context stops here and continues at the next word; otherwise cause 0x31 (R215, R315). -/
def execBrk (s : State) : Out :=
  warpOp .brk s (fun c t =>
    if (t.part c.p.part).held.contains c.p.ctx then (t.done c c.is.mask).stopContext c.p.part c.p.ctx 2 0 c.is.pc.toNat
    else (t.takeTrap c.u c.m c.is.pc ⟨0x31, 4, 0, c.is.npc, none⟩).done c c.rest)
/-- `eret`: the handler's lanes move to TRAPPC; for lanes that run no handler it is an illegal instruction (R215). -/
def execEret (s : State) : Out :=
  warpOp .eret s (fun c t =>
    let h := c.m &&& c.w.hlanes
    let t := if h = 0 then t else t.modWarp c.u (fun w => w.eret h)
    (t.trapLanes c (c.m &&& ~~~h) 0x01 c.is.word.toNat 0).done c 0)
/-- The gate of a `bexit`'s compare-and-swap in replay, and its location (R273). -/
def State.bexitGate (s : State) (c : Ctx) : Gate × Nat × Nat :=
  if c.lr.erraddr = 0 ∨ !c.lr.replay then (.pass, 0, 0)
  else
    match (s.checkElem c.p c.u 0 .atomic true false 0 (BitVec.ofNat 64 c.lr.erraddr) 8).2 with
    | .ok bs => if bs.any (fun b => match b.loc with
        | .peer _ _ => true
        | _ => false) then (.pass, 0, 0) else (s.gate c.p c.lr.erraddr bs, locKey s bs)
    | _ => (.pass, 0, 0)

def execBexit (code : BitVec 20) (s : State) : Out :=
  warpOp (.bexit code) s (fun c t =>
    match t.bexitGate c with
    | (.pass, _) => (((t.bump c.p.launch c.p.core 0x02).bexit c.u code.toNat).stepEnd c.p.part c.u c.is.pc.toNat).retry
    | (.wait, k) => (t.gateWait c.p.launch c.u k).retry
    | (.diverge, k) => (t.diverge c.p.launch k.2).retry)

/-! ### Fences and store drains (R112, R197, R198) -/

/-- Every engine command the unit issued has completed; on a tile context its drains as well (R197). -/
def State.enginesDone (s : State) (u : Nat) : Bool :=
  s.engines.all (fun e => (e.2.queue ++ e.2.run.toList).all (fun c => c.u != some u)) &&
  s.mengs.all (fun e => e.2.table.all (fun c => !(c.u == u && c.kind == .mdrain)))

/-- A stores-only fence: the later stores of each lane drain after its release condition (R112). -/
def Warp.storesFence (w : Warp) (m : Mask) (scope : Nat) (pc : DWord) : Warp :=
  (lanesOf m).foldl (fun w l => w.enqueue l ⟨[], some scope, none, 0, pc, 0, 0⟩) w

def execFence (t e : BitVec 1) (sc : BitVec 3) (s : State) : Out :=
  warpOp (.fence t e sc) s (fun c st =>
    if e = 1 ∧ !st.enginesDone c.u then st.retry
    else if t = 1 then
      let st := if e = 1 then st.acquire c.p.view sc.toNat else st
      (st.modWarp c.u (fun w => w.storesFence c.m sc.toNat c.is.pc)).done c c.is.mask
    else
      let r := st.releaseTry c c.m sc.toNat
      if r.2 then (r.1.acquire c.p.view sc.toNat).done c c.is.mask else r.1.retry)

/-- `sdrain`: the warp issues nothing more until its stores are judged and their records delivered (R198). -/
def execSdrain (s : State) : Out :=
  warpOp .sdrain s (fun c t => (t.modWarp c.u (fun w => { w with sdrain := true })).done c c.is.mask)

/-! ### Window and pacing (R20, R217) -/

def execWbase (n : BitVec 4) (s : State) : Out :=
  warpOp (.wbase n) s (fun c t =>
    if c.w.space ≤ 32 * n.toNat then t.trapAll c 0x04 n.toNat 0
    else (t.modWarp c.u (fun w => { w with wbase := 32 * n.toNat })).done c c.is.mask)

def execSleep (n : BitVec 20) (s : State) : Out :=
  warpOp (.sleep n) s (fun c t =>
    if n = 0 then t.done c c.is.mask
    else
      let wake := t.timebase + t.cyclesNs (c.p.core / 4) n.toNat
      (t.modWarp c.u (fun w => w.hold c.m c.is.pc c.is.npc (.sleep wake))).done c c.rest)

/-- `yield` by the head sets the fairness count to 64 while another ready entry exists (R217). -/
def execYield (s : State) : Out :=
  warpOp .yield s (fun c t =>
    (t.done c c.is.mask).modWarp c.u (fun w =>
      if c.w.turn.isNone && decide (1 < (w.frontier.filter Entry.isReady).length) then { w with fair := 64 } else w))

end Sys2Proof.Machine
end

