-- ==== Sys2Proof/Machine/Barrier.lean ====
section
/-! DEFINITION. Named barriers and phase-bit barriers (R201 to R205). -/

namespace Sys2Proof.Machine

/-- The unit runs an admitted transaction (R205, R233). -/
def State.inTx (s : State) (u : Nat) : Bool := (s.txOf u).isSome

/-! ### Named barriers (R201) -/

/-- |M| threads arrive: the first arrival of a phase fixes its expected count. -/
def State.barArrive (s : State) (blk id count n : Nat) (sync : Bool) : State :=
  (s.modBlock blk (fun b =>
    let x := (kget b.bars id).getD ⟨0, count, sync⟩
    { b with bars := kput b.bars id { x with arrived := x.arrived + n } })).barJudge blk id

/-- `bar.arr`, `bar.wait` and `bar.sync`: checks, the arrival's release at the block level's scope, the arrival, the wait. -/
def barOp (i : Instr) (s : State) (a : BitVec 7) (count : Option (BitVec 7)) (waits : Bool) : Out :=
  warpOp i s (fun c t =>
    let id := (c.rd a.toNat c.low).toNat
    let n := match count with
      | some b => (c.rd b.toNat c.low).toNat
      | none => 1
    if id ≥ c.lr.bars ∨ n = 0 ∨ n > 4096 then t.trapAll c 0x01 c.is.word.toNat 0
    else if t.inTx c.u then t.trapAll c 0x16 1 0
    else
      let r := t.releaseTry c c.m c.lr.blockScope
      if r.2 then
        let t := if waits then r.1.modWarp c.u (fun w => w.hold c.m c.is.pc c.is.npc (.bar id)) else r.1
        (t.barArrive c.p.blk id n (lanesOf c.m).length count.isNone).done c (if waits then c.rest else c.is.mask)
      else r.1.retry)

def execBarArr (b a : BitVec 7) (s : State) : Out := barOp (.barArr b a) s a (some b) false
def execBarWait (b a : BitVec 7) (s : State) : Out := barOp (.barWait b a) s a (some b) true
def execBarSync (a : BitVec 7) (s : State) : Out := barOp (.barSync a) s a none true

/-! ### Phase-bit barriers (R202 to R204) -/

/-- An arrival of n on a barrier word (R203). -/
def pbArrive (n w : Nat) : Nat :=
  let flip (w : Nat) : Nat := setBits (setBits w 31 31 (1 - bits w 31 31)) 14 0 (bits w 30 16)
  if n = 0 then w
  else if n > bits w 14 0 then flip (setBits w 15 15 1)
  else
    let w := setBits w 14 0 (bits w 14 0 - n)
    if bits w 14 0 = 0 then flip w else w

/-- The first byte's class is order-first. -/
def orderFirst (bs : List PByte) : Bool := bs.any (fun b => b.cls == 4)

/-- The word of a barrier lies on an order-first page, whatever else its access meets there (R202). -/
def State.wordOrderFirst (s : State) (p : Who) (va : Nat) (r : Res) : Bool :=
  match r with
  | .prog k _ => (k == 0x12 || k == 0x19) && (match (s.leafOf p.places p.part p.ctx va).1 with
    | .leaf pte _ _ => windowAt va == .global && pteClass pte == 4
    | _ => false)
  | _ => false

/-- Settle a warp-level access that fails: the whole sub-group traps or parks (R184, R185). -/
def State.failAll (s : State) (c : Ctx) (acc : Acc) (va : Nat) (r : Res) : State :=
  match r with
  | .prog k i => s.trapAll c k i va
  | .driver kind page => (s.park c.u c.is.mask c.is.pc page va kind acc.code).done c 0
  | _ => s.retry

/-- `pbarr`: a release, then the update in one step; gated and counted as an atomic (R114, R203, R273). -/
def execPbarr (b a : BitVec 7) (s : State) : Out :=
  warpOp (.pbarr b a) s (fun c t =>
    if c.m = 0 then t.done c c.is.mask
    else
      let addr := c.rd64 a.toNat c.low
      let n := (c.rd b.toNat c.low).toNat
      let scope := scopeOf c.px 1
      let r := t.checkElem c.p c.u c.low .atomic true false (c.w.regLevel (c.w.wbase + b.toNat)) addr 4
      match r.2 with
      | .ok bs =>
        if orderFirst bs then t.trapAll c 0x14 0 addr.toNat
        else
          let q := r.1.releaseTry c c.m scope
          if !q.2 then (t.releaseTry c c.m scope).1.retry
          else
            match bs with
            | ⟨_, .peer _ _, _, _, _⟩ :: _ =>
              match q.1.answerOf c c.low with
              | some (k, err, vs) =>
                let t := { q.1 with ext := kdel q.1.ext k }
                if err = 0 then
                  (t.hashAdd c.p.launch c.p.core [(none, addr.toNat, bytesLE 4 (pbArrive n (natLE vs)))]).done c c.is.mask
                else t.trapAll c (if err = 1 then 0x17 else 0x18) (addr.toNat / 2 ^ 44 % 256) addr.toNat
              | none => (q.1.askOutside c c.is.mask c.low addr.toNat bs (bytesLE 4 n)).done c 0
            | _ =>
              match q.1.gate c.p addr.toNat bs with
              | .diverge => (t.diverge c.p.launch (locKey t bs).2).retry
              | .wait => (t.gateWait c.p.launch c.u (locKey t bs)).retry
              | .pass =>
                let z := (q.1.killAt c.p addr.toNat 4).rmw c.p c.u scope bs (pbArrive n)
                ((z.1.countAtomic c.p addr.toNat bs).hashAdd c.p.launch c.p.core
                  [(none, addr.toNat, bytesLE 4 z.2.2)]).done c c.is.mask
      | e => if r.1.wordOrderFirst c.p addr.toNat e then t.trapAll c 0x14 0 addr.toNat else r.1.failAll c .atomic addr.toNat e)

/-- A lane's read of a barrier word, where its updates are performed (R204). -/
def State.phaseRead (s : State) (c : Ctx) (r : LaneRes) : State × Got :=
  match r.bytes with
  | [] => (s, .outside)
  | b :: _ =>
    match b.loc with
    | .peer _ _ => s.readLane c r
    | .mem pa =>
      if pa ≥ devTop then s.readLane c r
      else
        let q := s.pointRead c.p c.u (if b.cls = 0 ∧ !c.p.tile then .view else .home) r.bytes
        (q.1, .bytes q.2)
    | .spad _ _ =>
      let q := s.pointRead c.p c.u .spad r.bytes
      (q.1, .bytes q.2)

def State.phaseReads (s : State) (c : Ctx) : List LaneRes → State × List (LaneRes × Got)
  | [] => (s, [])
  | r :: t =>
    let q := s.phaseRead c r
    let z := q.1.phaseReads c t
    (z.1, (r, q.2) :: z.2)

/-- The PHASE bit of a word's bytes. -/
def phaseOf (bs : List Byte) : Bool := (natLE bs).testBit 31

def execPbwait (i a : BitVec 7) (s : State) : Out :=
  warpOp (.pbwait i a) s (fun c t =>
    if t.inTx c.u then t.trapAll c 0x16 2 0
    else
      let ph := decide (i.toNat = 1)
      let scope := scopeOf c.px 1
      let r := t.checkLanes c .load true false 4 (addr0 a c) (fun _ => 0) (lanesOf c.m)
      let oks := r.2.filter LaneRes.isOk
      let g := r.1.phaseReads c oks
      let bad := r.2.filter LaneRes.isFault ++ g.2.filterMap (fun x => match x.2 with
        | .prog k i => some { x.1 with r := .prog k i }
        | _ => none)
      let out := (g.2.filter (fun x => x.2 == .outside)).map (·.1)
      let same := (g.2.filter (fun x => match x.2 with
        | .bytes bs => phaseOf bs == ph
        | _ => false)).map (·.1)
      let st := g.1
      let passed := maskOfRes (g.2.map (·.1)) &&& ~~~(maskOfRes same ||| maskOfRes out ||| maskOfRes bad)
      let st := if passed = 0 then st else st.acquire c.p.view scope
      let st := same.foldl (fun st x => st.modWarp c.u (fun w =>
        w.hold (laneBit x.lane) c.is.pc c.is.npc (.pbwait x.va ph scope))) st
      let st := out.foldl (fun st x => st.askOutside c (laneBit x.lane) x.lane x.va x.bytes []) st
      (st.settle c .load bad).done c (c.is.mask &&& ~~~(maskOfRes bad ||| maskOfRes out ||| maskOfRes same)))

end Sys2Proof.Machine
end

