-- ==== Sys2Proof/Machine/Flags.lean ====
section
/-! DEFINITION. The floating operand forms with the flags they raise (R88, R90 to R95, R165 to R182). -/

namespace Sys2Proof.Machine

/-- The rounding mode of an instruction whose default is RNE (R88). -/
def Ctx.mode (c : Ctx) : RMode := rmode c.px.rm .rne
/-- The saturation bit st (R90). -/
def Ctx.sat (c : Ctx) : Bool := c.px.st

def w32 (n : Nat) : Word := BitVec.ofNat 32 n
def w64 (n : Nat) : List Word := [BitVec.ofNat 32 n, BitVec.ofNat 32 (n / 2 ^ 32)]

/-- A half of a word: 0 low, 1 high. -/
def halfOf (a : Word) (h : Nat) : Nat := a.toNat / 2 ^ (16 * h) % 65536

/-- `vd, va` in binary32. -/
def fOp1 (i : Instr) (s : State) (a d : BitVec 7) (f : RMode → Bool → Nat → Nat × Flags) : Out :=
  regOp i s d 1 (fun c l => let r := f c.mode c.sat (c.rd a.toNat l).toNat; ([w32 r.1], r.2))
/-- `vd, va, vb` in binary32. -/
def fOp2 (i : Instr) (s : State) (b a d : BitVec 7) (f : RMode → Bool → Nat → Nat → Nat × Flags) : Out :=
  regOp i s d 1 (fun c l =>
    let r := f c.mode c.sat (c.rd a.toNat l).toNat (c.rd b.toNat l).toNat
    ([w32 r.1], r.2))
/-- `vd, va, vb, vc` in binary32. -/
def fOp3 (i : Instr) (s : State) (b a d : BitVec 7) (f : RMode → Bool → Nat → Nat → Nat → Nat × Flags) : Out :=
  regOp i s d 1 (fun c l =>
    let r := f c.mode c.sat (c.rd a.toNat l).toNat (c.rd b.toNat l).toNat (c.fourth d.toNat l).toNat
    ([w32 r.1], r.2))

/-- Both halves, their flags joined (R172). -/
def halves (f : Nat → Nat × Flags) : List Word × Flags :=
  let lo := f 0
  let hi := f 1
  ([w32 (lo.1 + hi.1 * 65536)], lo.2 ||| hi.2)

def hOp2 (i : Instr) (s : State) (b a d : BitVec 7) (f : RMode → Bool → Nat → Nat → Nat × Flags) : Out :=
  regOp i s d 1 (fun c l =>
    halves (fun h => f c.mode c.sat (halfOf (c.rd a.toNat l) h) (halfOf (c.rd b.toNat l) h)))
def hOp3 (i : Instr) (s : State) (b a d : BitVec 7) (f : RMode → Bool → Nat → Nat → Nat → Nat × Flags) : Out :=
  regOp i s d 1 (fun c l =>
    halves (fun h => f c.mode c.sat (halfOf (c.rd a.toNat l) h) (halfOf (c.rd b.toNat l) h) (halfOf (c.fourth d.toNat l) h)))

/-- Binary64 pairs. -/
def dOp1 (i : Instr) (s : State) (a d : BitVec 7) (f : RMode → Bool → Nat → Nat × Flags) : Out :=
  regOp i s d 2 (fun c l => let r := f c.mode c.sat (c.rd64 a.toNat l).toNat; (w64 r.1, r.2))
def dOp2 (i : Instr) (s : State) (b a d : BitVec 7) (f : RMode → Bool → Nat → Nat → Nat × Flags) : Out :=
  regOp i s d 2 (fun c l =>
    let r := f c.mode c.sat (c.rd64 a.toNat l).toNat (c.rd64 b.toNat l).toNat
    (w64 r.1, r.2))
def dOp3 (i : Instr) (s : State) (b a d : BitVec 7) (f : RMode → Bool → Nat → Nat → Nat → Nat × Flags) : Out :=
  regOp i s d 2 (fun c l =>
    let r := f c.mode c.sat (c.rd64 a.toNat l).toNat (c.rd64 b.toNat l).toNat (c.fourth64 d.toNat l).toNat
    (w64 r.1, r.2))

/-- A floating compare into a predicate (R162). -/
def fcmpOp (i : Instr) (s : State) (b a d : BitVec 7) (f : Nat → Nat → Bool × Flags) : Out :=
  predOp i s d (fun c l => f (c.rd a.toNat l).toNat (c.rd b.toNat l).toNat)
def dcmpOp (i : Instr) (s : State) (b a d : BitVec 7) (f : Nat → Nat → Bool × Flags) : Out :=
  predOp i s d (fun c l => f (c.rd64 a.toNat l).toNat (c.rd64 b.toNat l).toNat)

/-- Two bfloat16 products and a binary32 term, one rounding (R174). -/
def fdot2 (mode : RMode) (sat : Bool) (a b c : Nat) : Nat × Flags :=
  let al := decodeF bf16 (a % 65536)
  let ah := decodeF bf16 (a / 65536)
  let bl := decodeF bf16 (b % 65536)
  let bh := decodeF bf16 (b / 65536)
  let x := decodeF f32 c
  let p := mulV f32 al bl
  let q := mulV f32 ah bh
  let ops := [al, ah, bl, bh, x]
  let nanp := al.isNaN || bl.isNaN
  let nanq := ah.isNaN || bh.isNaN
  let fl : Flags := (if nanp then 0 else p.2) ||| (if nanq then 0 else q.2)
  if ops.any FVal.isNaN then finishF f32 mode sat ops (x, fl)
  else if p.1.isNaN || q.1.isNaN then finishF f32 mode sat ops (canonNaN f32, flNV)
  else
    let infs := [x, p.1, q.1].filter FVal.isInf
    if infs.any FVal.neg && infs.any (fun v => !v.neg) then finishF f32 mode sat ops (canonNaN f32, flNV)
    else
      match infs with
      | v :: _ => finishF f32 mode sat ops (v, 0)
      | [] =>
        let zs := [x, p.1, q.1].all FVal.isZero
        let same := (x.neg == p.1.neg) && (x.neg == q.1.neg)
        if zs && same then finishF f32 mode sat ops (x, 0)
        else
          let t := addV f32 mode p.1 q.1
          let u := addV f32 mode x t.1
          finishF f32 mode sat ops (if u.1.isZero then .fin (decide (mode = .rd)) 0 0 else u.1, 0)

end Sys2Proof.Machine
end

