-- ==== Sys2Proof/Machine/Compare.lean ====
section
/-! DEFINITION. Compares and predicate operations (R161 to R164). -/

namespace Sys2Proof.Machine

def execCmpEqW (b a d : BitVec 7) (s : State) : Out := cmpOp2 (.cmpEqW b a d) s b a d (fun x y => x == y)
def execCmpNeW (b a d : BitVec 7) (s : State) : Out := cmpOp2 (.cmpNeW b a d) s b a d (fun x y => x != y)
def execCmpLtSw (b a d : BitVec 7) (s : State) : Out := cmpOp2 (.cmpLtSw b a d) s b a d (fun x y => x.slt y)
def execCmpLeSw (b a d : BitVec 7) (s : State) : Out := cmpOp2 (.cmpLeSw b a d) s b a d (fun x y => x.sle y)
def execCmpLtUw (b a d : BitVec 7) (s : State) : Out := cmpOp2 (.cmpLtUw b a d) s b a d (fun x y => x.ult y)
def execCmpLeUw (b a d : BitVec 7) (s : State) : Out := cmpOp2 (.cmpLeUw b a d) s b a d (fun x y => x.ule y)
def execCmpiEq (i : BitVec 12) (a d : BitVec 7) (s : State) : Out := cmpOp1 (.cmpiEq i a d) s a d (fun x => x == sext12 i)
def execCmpiLtSw (i : BitVec 12) (a d : BitVec 7) (s : State) : Out := cmpOp1 (.cmpiLtSw i a d) s a d (fun x => x.slt (sext12 i))
def execCmpiLtUw (i : BitVec 12) (a d : BitVec 7) (s : State) : Out := cmpOp1 (.cmpiLtUw i a d) s a d (fun x => x.ult (zext12 i))

/-! ### Floating compares (R162) -/

def relEq (c : Int) : Bool := decide (c = 0)
def relLt (c : Int) : Bool := decide (c < 0)
def relLe (c : Int) : Bool := decide (c ≤ 0)

def execFcmpEqF32 (b a d : BitVec 7) (s : State) : Out := fcmpOp (.fcmpEqF32 b a d) s b a d (cmpF f32 relEq)
def execFcmpLtF32 (b a d : BitVec 7) (s : State) : Out := fcmpOp (.fcmpLtF32 b a d) s b a d (cmpF f32 relLt)
def execFcmpLeF32 (b a d : BitVec 7) (s : State) : Out := fcmpOp (.fcmpLeF32 b a d) s b a d (cmpF f32 relLe)
def execFcmpUnF32 (b a d : BitVec 7) (s : State) : Out := fcmpOp (.fcmpUnF32 b a d) s b a d (cmpUn f32)
def execDcmpLt (b a d : BitVec 7) (s : State) : Out := dcmpOp (.dcmpLt b a d) s b a d (cmpF f64 relLt)
def execDcmpEq (b a d : BitVec 7) (s : State) : Out := dcmpOp (.dcmpEq b a d) s b a d (cmpF f64 relEq)

/-! ### Predicate operations and moves (R163, R164) -/

def execPand (b a d : BitVec 7) (s : State) : Out := predOp2 (.pand b a d) s b a d (fun x y => x && y)
def execPor (b a d : BitVec 7) (s : State) : Out := predOp2 (.por b a d) s b a d (fun x y => x || y)
def execPxor (b a d : BitVec 7) (s : State) : Out := predOp2 (.pxor b a d) s b a d (fun x y => x != y)
def execPandn (b a d : BitVec 7) (s : State) : Out := predOp2 (.pandn b a d) s b a d (fun x y => x && !y)
def execPmovV (a d : BitVec 7) (s : State) : Out := cmpOp1 (.pmovV a d) s a d (fun x => x != 0)
def execVmovP (a d : BitVec 7) (s : State) : Out :=
  regOp (.vmovP a d) s d 1 (fun c l => ([if (c.w.pred a.toNat).getLsbD l then 1 else 0], 0))
/-- R164: the lanes of M whose predicate is set. -/
def execPcnt (a d : BitVec 7) (s : State) : Out :=
  regOp (.pcnt a d) s d 1 (fun c _ => ([BitVec.ofNat 32 (lanesOf (c.m &&& c.w.pred a.toNat)).length], 0))

end Sys2Proof.Machine
end

