-- ==== Sys2Proof/Machine/Convert.lean ====
section
/-! DEFINITION. Conversions, quantisation and dequantisation (R177 to R182). -/

namespace Sys2Proof.Machine

def execCvtF32Sw (a d : BitVec 7) (s : State) : Out :=
  fOp1 (.cvtF32Sw a d) s a d (fun m _ x => cvtFromInt m (BitVec.ofNat 32 x).toInt)
def execCvtF32Uw (a d : BitVec 7) (s : State) : Out := fOp1 (.cvtF32Uw a d) s a d (fun m _ x => cvtFromInt m x)

/-- Binary32 to an integer: the default mode is RZ (R177). -/
def cvtWordOp (i : Instr) (s : State) (a d : BitVec 7) (lo hi : Int) : Out :=
  regOp i s d 1 (fun c l =>
    let r := cvtIntF lo hi (rmode c.px.rm .rz) (c.rd a.toNat l).toNat
    ([BitVec.ofInt 32 r.1], r.2))
def execCvtSwF32 (a d : BitVec 7) (s : State) : Out := cvtWordOp (.cvtSwF32 a d) s a d (-2147483648) 2147483647
def execCvtUwF32 (a d : BitVec 7) (s : State) : Out := cvtWordOp (.cvtUwF32 a d) s a d 0 4294967295

/-- Two binary32 values, each rounded into a half (R178). -/
def packOp (i : Instr) (s : State) (b a d : BitVec 7) (f : Fmt) : Out :=
  regOp i s d 1 (fun c l => halves (fun h =>
    cvtF f32 f c.mode c.sat (c.rd (if h = 0 then a.toNat else b.toNat) l).toNat))
def execPkF16 (b a d : BitVec 7) (s : State) : Out := packOp (.pkF16 b a d) s b a d f16
def execPkBf16 (b a d : BitVec 7) (s : State) : Out := packOp (.pkBf16 b a d) s b a d bf16

/-- A half widened (R179); the b field selects it. -/
def widenOp (ins : Instr) (s : State) (i a d : BitVec 7) (f : Fmt) : Out :=
  regOp ins s d 1 (fun c l =>
    let r := cvtF f f32 .rne false (halfOf (c.rd a.toNat l) i.toNat)
    ([w32 r.1], r.2))
def execCvtF32F16 (i a d : BitVec 7) (s : State) : Out := widenOp (.cvtF32F16 i a d) s i a d f16
def execCvtF32Bf16 (i a d : BitVec 7) (s : State) : Out := widenOp (.cvtF32Bf16 i a d) s i a d bf16

def execCvtF64F32 (a d : BitVec 7) (s : State) : Out :=
  regOp (.cvtF64F32 a d) s d 2 (fun c l => let r := cvtF f32 f64 .rne false (c.rd a.toNat l).toNat; (w64 r.1, r.2))
def execCvtF32F64 (a d : BitVec 7) (s : State) : Out :=
  regOp (.cvtF32F64 a d) s d 1 (fun c l =>
    let r := cvtF f64 f32 c.mode c.sat (c.rd64 a.toNat l).toNat
    ([w32 r.1], r.2))

/-- Four scaled values quantised into bytes (R181). -/
def qpkOp (i : Instr) (s : State) (b a d : BitVec 7) (f : Fmt) : Out :=
  regOp i s d 1 (fun c l =>
    let rs := (List.range 4).map (fun k => quantF f c.mode (c.rd (a.toNat + k) l).toNat (c.rd b.toNat l).toNat)
    ([BitVec.ofNat 32 (natLE (rs.map (fun r => BitVec.ofNat 8 r.1)))], rs.foldl (fun m r => m ||| r.2) 0))
def execQpkE4m3 (b a d : BitVec 7) (s : State) : Out := qpkOp (.qpkE4m3 b a d) s b a d e4m3
def execQpkE5m2 (b a d : BitVec 7) (s : State) : Out := qpkOp (.qpkE5m2 b a d) s b a d e5m2

/-- Four bytes dequantised (R182). -/
def dqOp (i : Instr) (s : State) (b a d : BitVec 7) (f : Fmt) : Out :=
  regOp i s d 4 (fun c l =>
    let rs := (List.range 4).map (fun k => dequantF f c.mode c.sat (byteOf (c.rd a.toNat l) k).toNat (c.rd b.toNat l).toNat)
    (rs.map (fun r => w32 r.1), rs.foldl (fun m r => m ||| r.2) 0))
def execDqE4m3 (b a d : BitVec 7) (s : State) : Out := dqOp (.dqE4m3 b a d) s b a d e4m3
def execDqE5m2 (b a d : BitVec 7) (s : State) : Out := dqOp (.dqE5m2 b a d) s b a d e5m2

end Sys2Proof.Machine
end

