-- ==== Sys2Proof/Machine/CrossLane.lean ====
section
/-! DEFINITION. Cross-lane operations: shuffles, votes, match, and the fixed tree of reductions and scans (R97, R98, R186 to
R188). Each writes the validity predicate p1 in the lanes of M. -/

namespace Sys2Proof.Machine

/-- The width a unit's cross-lane instructions see (R33). -/
def Ctx.width (c : Ctx) : Nat := if c.w.tile then 1 else 64

/-- The level of p1 after a cross-lane instruction (R324): its sources', the mask predicate's, and its own where lanes keep it. -/
def Ctx.validLevel (c : Ctx) : Nat :=
  let preds := c.row.uses.map (fun u => match u with
    | .pred _ f true _ => c.w.predLevel f
    | _ => 0)
  (((srcRegs c.row c.px c.w.wbase true).map c.w.regLevel) ++ preds).foldl max
    (max (c.w.predLevel c.px.mp) (if c.whole then 0 else c.w.predLevel 1))

/-- Finish a cross-lane instruction that writes `n` registers: results, p1, the flags of every lane of M. -/
def Ctx.finishCross (c : Ctx) (s : State) (d n : Nat) (f : Nat → List Word) (valid : Nat → Bool) (fl : Flags) : State :=
  let ls := lanesOf c.m
  let lev := c.level 0
  let w := (c.put d n (ls.map (fun l => (l, f l))) lev).orLanes (ls.map (fun l => (l, fl)))
  let w := c.putPred w 1 (maskOf (ls.filter valid)) false c.validLevel
  let s := s.setWarp c.u w
  (if c.m = 0 && !c.px.zp then s else s.linResult c.p.core c.u (c.w.wbase + d) n [] none).done c c.is.mask

def crossOp (i : Instr) (s : State) (d : BitVec 7) (n : Nat) (f : Ctx → Nat → List Word) (valid : Ctx → Nat → Bool)
    (fl : Ctx → Flags) : Out :=
  warpOp i s (fun c t => c.finishCross t d.toNat n (f c) (valid c) (fl c))

/-! ### Shuffles (R186) -/

/-- A shuffle: the source lane of a lane and its count, none when it is out of range. -/
def shflOp (i : Instr) (s : State) (b a d : BitVec 7) (src : Nat → Nat → Nat → Option Nat) : Out :=
  let from_ (c : Ctx) (l : Nat) : Option Nat :=
    match src c.width l (c.rd b.toNat l).toNat with
    | some k => if c.m.getLsbD k then some k else none
    | none => none
  crossOp i s d 1 (fun c l => [c.rd a.toNat ((from_ c l).getD l)]) (fun c l => (from_ c l).isSome) (fun _ => 0)

def inWidth (w k : Nat) : Option Nat := if k < w then some k else none

def execShflIdx (b a d : BitVec 7) (s : State) : Out := shflOp (.shflIdx b a d) s b a d (fun w _ n => inWidth w n)
def execShflUp (b a d : BitVec 7) (s : State) : Out :=
  shflOp (.shflUp b a d) s b a d (fun _ l n => if n > l then none else some (l - n))
def execShflDn (b a d : BitVec 7) (s : State) : Out := shflOp (.shflDn b a d) s b a d (fun w l n => inWidth w (l + n))
def execShflXor (b a d : BitVec 7) (s : State) : Out := shflOp (.shflXor b a d) s b a d (fun w l n => inWidth w (l ^^^ n))
def execShflRel (b a d : BitVec 7) (s : State) : Out :=
  shflOp (.shflRel b a d) s b a d (fun w l n => some ((l + n * w / 256) % w))

/-! ### Votes and match (R187) -/

/-- A vote: its predicate, and p1 unless p1 is its destination. DESIGN CHOICE (log 110): with zp = 1 a vote to p1 writes false in the
lanes of A outside M, by R132, where the introduction of file 08 has lanes outside M keep p1. -/
def voteOp (i : Instr) (s : State) (a d : BitVec 7) (f : Mask → Mask → Bool) : Out :=
  warpOp i s (fun c t =>
    let lev := c.level 0
    let w := if d.toNat = 1 then c.w else c.putPred c.w 1 c.m false c.validLevel
    let w := c.putPred w d.toNat (if f c.m (c.w.pred a.toNat) then c.m else 0) c.px.zp lev
    (t.setWarp c.u w).done c c.is.mask)

def execVoteAny (a d : BitVec 7) (s : State) : Out := voteOp (.voteAny a d) s a d (fun m p => (m &&& p) != 0)
def execVoteAll (a d : BitVec 7) (s : State) : Out := voteOp (.voteAll a d) s a d (fun m p => (m &&& ~~~p) == 0)
def execBallot (a d : BitVec 7) (s : State) : Out :=
  crossOp (.ballot a d) s d 2 (fun c _ =>
    let v := c.m &&& c.w.pred a.toNat
    [v.extractLsb' 0 32, v.extractLsb' 32 32]) (fun _ _ => true) (fun _ => 0)
def execMatchW (a d : BitVec 7) (s : State) : Out :=
  crossOp (.matchW a d) s d 2 (fun c l =>
    let v := maskOf ((lanesOf c.m).filter (fun k => c.rd a.toNat k == c.rd a.toNat l))
    [v.extractLsb' 0 32, v.extractLsb' 32 32]) (fun _ _ => true) (fun _ => 0)

/-! ### The fixed tree (R97, R98) -/

/-- A node: absent, or a value with the lane it came from. -/
abbrev Node1 := Option (Word × Nat)

/-- The operator of a selector (R97): the value, whether the right operand's index is taken, the flags. -/
def redOp (sel : Nat) (mode : RMode) (x y : Word) : Word × Bool × Flags :=
  match sel with
  | 0 => (x + y, false, 0)
  | 1 => (minBy keyS x y, decide (keyS y < keyS x), 0)
  | 2 => (maxBy keyS x y, decide (keyS x < keyS y), 0)
  | 3 => (minBy keyU x y, decide (keyU y < keyU x), 0)
  | 4 => (maxBy keyU x y, decide (keyU x < keyU y), 0)
  | 5 => (x &&& y, false, 0)
  | 6 => (x ||| y, false, 0)
  | 7 => (x ^^^ y, false, 0)
  | 8 => let r := addF f32 mode false x.toNat y.toNat; (w32 r.1, false, r.2)
  | 9 => let r := minmaxRed false x.toNat y.toNat; (w32 r.1, r.2)
  | _ => let r := minmaxRed true x.toNat y.toNat; (w32 r.1, r.2)

def comb (sel : Nat) (mode : RMode) (x y : Node1) : Node1 × Flags :=
  match x, y with
  | none, y => (y, 0)
  | x, none => (x, 0)
  | some a, some b =>
    let r := redOp sel mode a.1 b.1
    (some (r.1, if r.2.1 then b.2 else a.2), r.2.2)

/-- One level of the tree: neighbours combined. -/
def combPairs (sel : Nat) (mode : RMode) : List Node1 → List Node1 × Flags
  | a :: b :: t =>
    let r := comb sel mode a b
    let q := combPairs sel mode t
    (r.1 :: q.1, r.2 ||| q.2)
  | xs => (xs, 0)

/-- The levels of the tree from the leaves up, and every flag raised at a node. -/
def combTree (sel : Nat) (mode : RMode) : Nat → List Node1 → List (List Node1) × Flags
  | 0, xs => ([xs], 0)
  | k + 1, xs =>
    let r := combPairs sel mode xs
    let q := combTree sel mode k r.1
    (xs :: q.1, r.2 ||| q.2)

/-- The leaves: the lanes of M. -/
def Ctx.leaves (c : Ctx) (a : Nat) : List Node1 :=
  (List.range 64).map (fun l => if c.m.getLsbD l then some (c.rd a l, l) else none)

/-- The root of the tree. -/
def Ctx.redRoot (c : Ctx) (sel a : Nat) : Node1 × Flags :=
  let t := combTree sel c.mode 6 (c.leaves a)
  (((t.1.getLastD []).headD none), t.2)

/-- The nodes that cover lanes 0 to `l`, combined left to right (R98), highest power of two first. -/
def scanLane (sel : Nat) (mode : RMode) (levels : List (List Node1)) (n : Nat) : Nat → Nat → Node1 × Flags → Node1 × Flags
  | 0, _, acc => acc
  | j + 1, pos, acc =>
    if n.testBit j then
      let r := comb sel mode acc.1 ((levels.getD j []).getD (pos / 2 ^ j) none)
      scanLane sel mode levels n j (pos + 2 ^ j) (r.1, acc.2 ||| r.2)
    else scanLane sel mode levels n j pos acc

def nodeVal (x : Node1) : Word := x.elim 0 (·.1)

def execRedx (i a d : BitVec 7) (s : State) : Out :=
  crossOp (.redx i a d) s d 1 (fun c _ => [nodeVal (c.redRoot i.toNat a.toNat).1]) (fun _ _ => true)
    (fun c => (c.redRoot i.toNat a.toNat).2)
def execRedxi (i a d : BitVec 7) (s : State) : Out :=
  crossOp (.redxi i a d) s d 2 (fun c _ =>
    let r := (c.redRoot i.toNat a.toNat).1
    [nodeVal r, w32 (r.elim 0 (·.2))]) (fun _ _ => true) (fun c => (c.redRoot i.toNat a.toNat).2)

/-- A scan: its tree and each lane's result. DESIGN CHOICE (log 109): beside the nodes, the combinations that raise flags are those of
the lanes of M, which alone are written (R98). -/
def Ctx.scanOf (c : Ctx) (sel a l : Nat) : Node1 × Flags :=
  scanLane sel c.mode (combTree sel c.mode 6 (c.leaves a)).1 (l + 1) 7 0 (none, 0)
def execScan (i a d : BitVec 7) (s : State) : Out :=
  crossOp (.scan i a d) s d 1 (fun c l => [nodeVal (c.scanOf i.toNat a.toNat l).1]) (fun _ _ => true)
    (fun c => (lanesOf c.m).foldl (fun m l => m ||| (c.scanOf i.toNat a.toNat l).2)
      (combTree i.toNat c.mode 6 (c.leaves a.toNat)).2)

end Sys2Proof.Machine
end

