-- ==== Sys2Proof/Machine/Records.lean ====
section
/-! DEFINITION. The records of R218 to R223: reading them, checking their fields in ascending offset, and the check of the
completion words a command names (R353). -/

namespace Sys2Proof.Machine

/-- Why the reading of a record gives none (R218): a field at fault, a misaligned record address, a fault of its own bytes,
or bytes that a peer or the host must answer. -/
inductive RecErr where
  | field (at_ : Nat)
  | misaligned (at_ : Nat)
  | elem (acc : Acc) (va : Nat) (r : Res)
  | outside (va : Nat) (bs : List PByte)
  deriving DecidableEq, Repr

/-- What a reading comes to. -/
abbrev Rd (α : Type) := State × Except RecErr α

/-- Go on after a reading that gave something. -/
def rdThen {α β : Type} (x : Rd α) (f : State → α → Rd β) : Rd β :=
  match x.2 with
  | .ok a => f x.1 a
  | .error e => (x.1, .error e)

/-- Who reads a record: the lanes of an instruction, or the graph walker in a context (R277, R280). -/
inductive Reader where
  | warp (c : Ctx)
  | walker (part ctx : Nat)
  deriving DecidableEq, Repr

/-- The answer for a read of `va` by a lane at this instruction, if it has come. -/
def State.answerAt (s : State) (c : Ctx) (lane va : Nat) : Option (Nat × List Byte) :=
  s.ext.findSome? (fun e =>
    if e.2.u == c.u && !e.2.wr && e.2.lane == lane && e.2.pc == c.is.pc && e.2.va == va then e.2.answer else none)

/-- The answers this instruction has had are used up. -/
def State.dropAnswers (s : State) (c : Ctx) : State :=
  { s with ext := s.ext.filter (fun e => !(e.2.u == c.u && !e.2.wr && e.2.pc == c.is.pc && e.2.answer.isSome)) }

/-- The peer an element's bytes are at. -/
def peerOf (bs : List PByte) : Nat := match bs with
  | ⟨_, .peer n _, _, _, _⟩ :: _ => n
  | _ => 0

/-- The lines of an element, for a read at device scope. -/
def linesOf (bs : List PByte) : List Nat := dedup (bs.filterMap (fun b => match b.loc with
  | .mem pa => if b.cls ≤ 3 then some (pa / lineBytes) else none
  | _ => none))

/-- A plain read at device scope by the lowest lane of an instruction (R218). -/
def State.readWarp (s : State) (c : Ctx) (va n : Nat) : Rd Nat :=
  let r := s.checkElem c.p c.u c.low .load false false 0 (BitVec.ofNat 64 va) n
  match r.2 with
  | .ok bs =>
    let s := (linesOf bs).foldl (fun st l => st.refresh c.p.view l) r.1
    let q := s.loadBytes c.p c.u c.low bs
    match q.2.mapM id with
    | some vs => (q.1, .ok (natLE vs))
    | none =>
      match s.answerAt c c.low va with
      | some (err, vs) =>
        if err = 0 then (s, .ok (natLE ((List.range n).map (fun j => vs.getD j 0))))
        else (s, .error (.elem .load va (.prog (if err = 1 then 0x17 else 0x18) (peerOf bs))))
      | none => (s, .error (.outside va bs))
  | e => (r.1, .error (.elem .load va e))

/-- Why an address of a context's structures does not translate: a driver-class fault, else protection. -/
def State.walkRes (s : State) (p ctx va : Nat) : Res :=
  match s.walk p ctx va with
  | .driver k => .driver k (va / 2 ^ 14 * 2 ^ 14)
  | _ => .prog 0x11 0

/-- The walker's read through a context's page table (R277). -/
def State.readWalk (s : State) (p ctx va n : Nat) : Rd Nat :=
  match s.vRead p ctx va n with
  | some v => (s, .ok v)
  | none =>
    match ((List.range n).map (va + ·)).find? (fun a => (s.vaToPa p ctx a).isNone) with
    | some a => (s, .error (.elem .load a (s.walkRes p ctx a)))
    | none => (s, .error (.elem .load va (.prog 0x11 0)))

/-- Read `n` bytes of a record. -/
def State.readRec (s : State) (rd : Reader) (va n : Nat) : Rd Nat :=
  match rd with
  | .warp c => s.readWarp c va n
  | .walker p ctx => s.readWalk p ctx va n

/-- Read a record that must be aligned (R218). -/
def State.readAligned (s : State) (rd : Reader) (va n align : Nat) : Rd Nat :=
  if va % align != 0 then (s, .error (.misaligned va)) else s.readRec rd va n

/-- Bits [hi:lo] of the word at a byte offset of a record. -/
def fld (v off hi lo : Nat) : Nat := bits (v / 2 ^ (8 * off)) hi lo

/-- The first field at fault in a list that rises by offset. -/
def firstBad (base : Nat) (fs : List (Nat × Bool)) : Option RecErr :=
  (fs.find? (fun f => !f.2)).map (fun f => .field (base + f.1))

/-! ### Tensor records (R219) -/

/-- The size of an element, by FMT. -/
def fmtSize (f : Nat) : Nat := if f = 0 ∨ f = 1 ∨ f = 5 then 1 else if f = 2 ∨ f = 3 then 2 else 4

/-- What the record that names a tensor asks of it. -/
structure TensorReq where
  fmtMax : Nat
  minRank : Nat
  matrix : Bool
  noScale : Bool
  noPriv : Bool
  deriving DecidableEq, Repr

/-- `bcopy` asks nothing of the tiles; a private-window address is a record error (R226). -/
def TensorReq.copy : TensorReq := ⟨5, 1, false, false, true⟩
/-- `mslot` (R245). -/
def TensorReq.slot : TensorReq := ⟨3, 2, true, false, false⟩
/-- The output of a drain record (R221). -/
def TensorReq.out : TensorReq := ⟨4, 2, true, true, false⟩

/-- The fields of a tensor record, each with whether it keeps its map. -/
def tensorFields (q : TensorReq) (v : Nat) : List (Nat × Bool) :=
  let fmt := fld v 0x08 7 0
  let rank := fld v 0x08 10 8
  let sg := fld v 0x08 13 12
  let size := fmtSize fmt
  [(0x00, fld v 0 63 0 % size == 0 && !(q.noPriv && fld v 0 63 0 / 2 ^ 48 == 0x1F2)),
   (0x08, decide (fmt ≤ q.fmtMax)),
   (0x09, decide (1 ≤ rank ∧ rank ≤ 5 ∧ q.minRank ≤ rank) && fld v 0x08 11 11 == 0 && sg != 3 && !(q.noScale && sg != 0) &&
     fld v 0x08 31 15 == 0),
   (0x0C, !q.matrix || fld v 0x0C 15 0 == 128), (0x0E, !q.matrix || fld v 0x0C 31 16 == 128)] ++
  (List.range 5).map (fun k => (0x10 + 4 * k, decide (k < rank) || fld v (0x10 + 4 * k) 31 0 == 1)) ++
  [(0x24, fld v 0x24 31 0 == 0)] ++
  (List.range 4).map (fun k => (0x28 + 8 * k, fld v (0x28 + 8 * k) 63 0 % size == 0)) ++
  [(0x48, sg == 0 || fld v 0x48 63 0 % 4 == 0), (0x58, fld v 0x58 319 0 == 0)]

/-- A tensor record's value. -/
def tensorOf (v : Nat) : Tensor :=
  { base := fld v 0 63 0, fmt := fld v 0x08 7 0, rank := fld v 0x08 10 8, scaleg := fld v 0x08 13 12, order := fld v 0x08 14 14,
    dims := (List.range 5).map (fun k => fld v (0x10 + 4 * k) 31 0),
    strides := (List.range 4).map (fun k => fld v (0x28 + 8 * k) 63 0),
    scaleBase := fld v 0x48 63 0, scaleStride := fld v 0x50 63 0 }

/-- Read and check a tensor record (R218, R219). -/
def State.readTensor (s : State) (rd : Reader) (q : TensorReq) (va : Nat) : Rd Tensor :=
  rdThen (s.readAligned rd va 128 128) (fun s v =>
    match firstBad va (tensorFields q v) with
    | some e => (s, .error e)
    | none => (s, .ok (tensorOf v)))

/-- The address of an element (R219). -/
def Tensor.addr (t : Tensor) (x : List Nat) : Nat :=
  (t.base + fmtSize t.fmt * x.getD 0 0 +
    (List.range 4).foldl (fun n k => n + t.strides.getD k 0 * x.getD (k + 1) 0) 0) % 2 ^ 64

/-- An element is in bounds (R219). -/
def Tensor.inBounds (t : Tensor) (x : List Nat) : Bool :=
  (List.range 5).all (fun k => decide (x.getD k 0 < t.dims.getD k 1))

/-! ### Completion words (R353) -/

/-- The form of a completion word's address. -/
def wordForm (va : Nat) : Bool := va == 0 || (decide (va < top57) && va % 4 == 0)

/-- A completion word translates as the write it will receive: its failure, if it has one. -/
def State.wordCheck (s : State) (p : Who) (places : List TlbAt) (acc : Acc) (va : Nat) : State × Option Res :=
  let no : Option Res := some (.prog 0x11 1)
  if va = 0 then (s, none)
  else
    match windowAt va with
    | .global =>
      let page := va / 2 ^ 14 * 2 ^ 14
      let r := s.translate places p.part p.ctx page acc
      match r.2 with
      | .driver k => (r.1, some (.driver k page))
      | .prot => (r.1, no)
      | .leaf pte sz _ =>
        let pa := paOf pte sz va
        if !permitted pte acc || !r.1.firewall p.part p.ctx pa || pteClass pte == 4 || (r.1.windowOf pa).isSome then (r.1, no)
        else if collapses pte acc then (r.1, some (.driver 3 page))
        else (r.1, none)
    | .priv _ => (s, no)
    | _ => (s, if (s.winByte p 0 0 va).isSome then none else no)

/-- Several completion words, in the order of their fields. -/
def State.wordChecks (s : State) (p : Who) (places : List TlbAt) : List (Acc × Nat) → Rd Unit
  | [] => (s, .ok ())
  | (acc, va) :: t =>
    let r := s.wordCheck p places acc va
    match r.2 with
    | some e => (r.1, .error (.elem acc va e))
    | none => r.1.wordChecks p places t

/-! ### Copy records (R220, R226, R227) -/

/-- A command with nothing in it. -/
def Cmd.blank : Cmd :=
  let t : Tensor := ⟨0, 0, 1, 0, 0, [], [], 0, 0⟩
  { id := 0, coll := false, ticket := 0, part := 0, ctx := 0, core := 0, launch := none, node := none, blk := none, u := none,
    src := t, dst := t, origin := [], extent := [], dorigin := [], mode := 0, scout := 0, done := 0, doneCount := 0, gather := 0,
    ckind := 0, root := 0, nranks := 0, myrank := 0, csrc := 0, cdst := 0, count := 0, group := [], status := 0, rd := [],
    idx := [], wrote := [], scouted := [], paused := none, rejected := [], stop := none, since := 0 }

/-- The fields of a copy record that stand by themselves. -/
def copyFields (v : Nat) : List (Nat × Bool) :=
  let mode := fld v 0x28 1 0
  let g := fld v 0x38 63 0
  [(0x1C, mode != 1 || decide (fld v 0x1C 15 0 ≤ 1)), (0x1E, mode != 1 || decide (fld v 0x1E 15 0 ≤ 1)),
   (0x28, mode != 3 && fld v 0x28 3 3 == 0), (0x29, fld v 0x28 31 12 == 0), (0x2E, fld v 0x2E 15 0 == 0),
   (0x30, wordForm (fld v 0x30 63 0)), (0x38, if mode == 1 then g % 4 == 0 else g == 0)]

/-- The fields of a copy record that depend on the ranks of its tensors (R220). -/
def copyRanks (v sr dr : Nat) : List (Nat × Bool) :=
  (List.range 4).map (fun k => (0x10 + 2 * k, decide (k < sr) || fld v (0x10 + 2 * k) 15 0 == 0)) ++
  (List.range 4).map (fun k => (0x18 + 2 * k, decide (k < sr ∧ k < dr) || decide (fld v (0x18 + 2 * k) 15 0 ≤ 1))) ++
  (List.range 4).map (fun k => (0x20 + 2 * k, decide (k < dr) || fld v (0x20 + 2 * k) 15 0 == 0))

/-- The formats a copy may convert between (R226). -/
def copyFmts (a b : Nat) : Bool := a == b || (decide (2 ≤ a ∧ a ≤ 4) && decide (2 ≤ b ∧ b ≤ 4))

/-- EXTENT counted with the meaning of R220. -/
def extentOf (e k sr dr : Nat) : Nat := if k ≥ max sr dr ∧ e = 0 then 1 else e

/-- Read and check a copy record and all it names (R218, R220); whether it locks. -/
def State.readCopy (s : State) (rd : Reader) (va : Nat) : Rd (Cmd × Bool) :=
  rdThen (s.readAligned rd va 64 64) (fun s v =>
    match firstBad va (copyFields v) with
    | some e => (s, .error e)
    | none =>
      rdThen (s.readTensor rd .copy (fld v 0x00 63 0)) (fun s src =>
        rdThen (s.readTensor rd .copy (fld v 0x08 63 0)) (fun s dst =>
          match firstBad va (copyRanks v src.rank dst.rank) with
          | some e => (s, .error e)
          | none =>
            if !copyFmts src.fmt dst.fmt then (s, .error (.field (fld v 0x08 63 0 + 0x08)))
            else
              let q4 (o : Nat) : List Nat := (List.range 4).map (fun k => fld v (o + 2 * k) 15 0)
              let mode := fld v 0x28 1 0
              let sc := fld v 0x28 11 4
              (s, .ok ({ Cmd.blank with
                  src := src, dst := dst, origin := q4 0x10,
                  extent := (List.range 4).map (fun k => extentOf (fld v (0x18 + 2 * k) 15 0) k src.rank dst.rank),
                  dorigin := q4 0x20, mode := mode, scout := if sc = 0 then 8 else sc, done := fld v 0x30 63 0,
                  doneCount := fld v 0x2C 15 0, gather := fld v 0x38 63 0 },
                fld v 0x28 2 2 == 1 && mode != 2)))))

/-- The bounding interval of the in-bounds elements with indices from `o` for `n` in each dimension (R226). -/
def Tensor.span (t : Tensor) (o n : List Nat) : Nat × Nat :=
  let lim (k : Nat) : Nat := min (o.getD k 0 + n.getD k 1) (t.dims.getD k 1)
  if (List.range 5).any (fun k => decide (lim k ≤ o.getD k 0)) then (t.base, t.base)
  else
    let step (k : Nat) : Int := if k = 0 then fmtSize t.fmt else (BitVec.ofNat 64 (t.strides.getD (k - 1) 0)).toInt
    let lo : Int := (List.range 5).foldl (fun (a : Int) k => a + min (step k * (o.getD k 0 : Nat)) (step k * ((lim k - 1 : Nat) : Int))) t.base
    let hi : Int := (List.range 5).foldl (fun (a : Int) k => a + max (step k * (o.getD k 0 : Nat)) (step k * ((lim k - 1 : Nat) : Int))) t.base
    (lo.toNat, hi.toNat + fmtSize t.fmt)

/-- The two ranges a copy locks (R226): source, then destination. -/
def Cmd.ranges (c : Cmd) : (Nat × Nat) × (Nat × Nat) :=
  let n := c.extent ++ [1]
  let src := if c.mode = 1 then
      c.src.span [c.origin.getD 0 0, 0, c.origin.getD 2 0, c.origin.getD 3 0, 0]
        [n.getD 0 1, c.src.dims.getD 1 1, 1, 1, 1]
    else c.src.span (c.origin ++ [0]) n
  (src, c.dst.span (c.dorigin ++ [0]) n)

/-! ### Collective records (R223, R230) -/

/-- The size of a collective's elements, by KIND (R223): all-gather and broadcast have none stated (log 11). -/
def collBytes (kind : Nat) : Nat :=
  if kind = 0 ∨ kind = 3 then 4 else if kind = 1 ∨ kind = 4 then 2 else 2 ^ (Config.collSize kind % 3)

def collFields (v : Nat) : List (Nat × Bool) :=
  let kind := fld v 0 3 0
  let n := fld v 0x04 15 0
  let count := fld v 0x18 63 0
  [(0x00, decide (kind ≤ 5) && fld v 0 7 4 == 0),
   (0x01, if kind == 5 then decide (fld v 0x01 7 0 < n) else fld v 0x01 7 0 == 0), (0x02, fld v 0x02 15 0 == 0),
   (0x04, decide (2 ≤ n ∧ n ≤ 256)), (0x06, decide (fld v 0x06 15 0 < n)), (0x08, fld v 0x08 63 0 % collBytes kind == 0),
   (0x10, decide (kind ≤ 1) || kind == 5 || fld v 0x10 63 0 != fld v 0x08 63 0),
   (0x18, decide (1 ≤ count ∧ count ≤ 2 ^ 40) && !((kind == 3 || kind == 4) && count % n != 0)),
   (0x28, wordForm (fld v 0x28 63 0)), (0x32, fld v 0x32 47 0 == 0), (0x38, wordForm (fld v 0x38 63 0))]

/-- Read and check the rank table (R223). -/
def State.readGroup (s : State) (rd : Reader) (va : Nat) : Nat → Rd (List Nat)
  | 0 => (s, .ok [])
  | n + 1 =>
    rdThen (s.readGroup rd va n) (fun s g =>
      rdThen (s.readRec rd (va + 8 * n) 8) (fun s v =>
        if v / 256 = 0 then (s, .ok (g ++ [v])) else (s, .error (.field (va + 8 * n + 1)))))

def State.readColl (s : State) (rd : Reader) (va : Nat) : Rd Cmd :=
  rdThen (s.readAligned rd va 64 64) (fun s v =>
    match firstBad va (collFields v) with
    | some e => (s, .error e)
    | none =>
      rdThen (s.readGroup rd (fld v 0x20 63 0) (fld v 0x04 15 0)) (fun s g =>
        (s, .ok { Cmd.blank with
          coll := true, ckind := fld v 0 3 0, root := fld v 0x01 7 0, nranks := fld v 0x04 15 0, myrank := fld v 0x06 15 0,
          csrc := fld v 0x08 63 0, cdst := fld v 0x10 63 0, count := fld v 0x18 63 0, group := g, done := fld v 0x28 63 0,
          doneCount := fld v 0x30 15 0, status := fld v 0x38 63 0 })))

/-! ### Drain records (R221) -/

/-- A drain record's value. -/
structure DrainRec where
  out : Tensor
  trow : Nat
  tcol : Nat
  scale : Word
  amax : Bool
  scope : Nat
  zero : Bool
  absmax : Nat
  done : Nat
  count : Nat
  deriving DecidableEq, Repr

def drainFields (v : Nat) : List (Nat × Bool) :=
  let a := fld v 0x18 63 0
  [(0x0C, fld v 0x0C 31 0 == 0), (0x14, decide (fld v 0x14 3 1 ≤ 5) && fld v 0x14 31 5 == 0),
   (0x18, if fld v 0x14 0 0 == 1 then wordForm a else a == 0), (0x20, wordForm (fld v 0x20 63 0)),
   (0x2A, fld v 0x2A 175 0 == 0)]

def State.readDrain (s : State) (rd : Reader) (va : Nat) : Rd DrainRec :=
  rdThen (s.readAligned rd va 64 64) (fun s v =>
    match firstBad va (drainFields v) with
    | some e => (s, .error e)
    | none =>
      rdThen (s.readTensor rd .out (fld v 0x00 63 0)) (fun s t =>
        (s, .ok { out := t, trow := fld v 0x08 15 0, tcol := fld v 0x08 31 16, scale := BitVec.ofNat 32 (fld v 0x10 31 0),
                  amax := fld v 0x14 0 0 == 1, scope := fld v 0x14 3 1, zero := fld v 0x14 4 4 == 1, absmax := fld v 0x18 63 0,
                  done := fld v 0x20 63 0, count := fld v 0x28 15 0 })))

/-! ### Declaration records (R222) -/

/-- A declaration record's value: tag, write granules and read granules by virtual address. -/
structure DeclRec where
  tag : Nat
  wr : List Nat
  rd : List Nat
  deriving DecidableEq, Repr

/-- Read the granule entries (R222). -/
def State.readGranules (s : State) (rd : Reader) (va : Nat) : Nat → Rd (List Nat)
  | 0 => (s, .ok [])
  | n + 1 =>
    rdThen (s.readGranules rd va n) (fun s g =>
      let at_ := va + 8 + 8 * n
      rdThen (s.readRec rd at_ 8) (fun s v =>
        match firstBad at_ [(0, bits v 7 0 == 0), (7, bits v 63 57 == 0)] with
        | some e => (s, .error e)
        | none => (s, .ok (g ++ [v / 256]))))

def State.readDecl (s : State) (rd : Reader) (va : Nat) : Rd DeclRec :=
  rdThen (s.readAligned rd va 8 8) (fun s v =>
    let nw := bits v 7 0
    let nr := bits v 15 8
    match firstBad va [(0, decide (nw ≤ 16)), (1, decide (nr ≤ 48)), (2, bits v 31 16 == 0)] with
    | some e => (s, .error e)
    | none =>
      rdThen (s.readGranules rd va (nw + nr)) (fun s g =>
        let w := dedup (g.take nw)
        (s, .ok ⟨bits v 63 32, w, (dedup (g.drop nw)).filter (fun x => !w.contains x)⟩)))

/-! ### How an instruction ends on a record (R218) -/

/-- The issuing sub-group takes what the reading found. -/
def State.recFail (s : State) (c : Ctx) (e : RecErr) : State :=
  match e with
  | .field a => (s.dropAnswers c).trapAll c 0x01 c.is.word.toNat a
  | .misaligned a => (s.dropAnswers c).trapAll c 0x05 0 a
  | .elem _ va (.prog k i) => (s.dropAnswers c).trapAll c k i va
  | .elem acc va (.driver kind page) =>
    ((s.dropAnswers c).park c.u c.is.mask c.is.pc page va kind acc.code).done c 0
  | .elem _ _ _ => s.retry
  | .outside va bs => (s.askOutside c c.is.mask c.low va bs []).done c 0

end Sys2Proof.Machine
end

