-- ==== Sys2Proof/Machine/Matrix.lean ====
section
/-! DEFINITION. Accumulator tiles and the matrix commands as a warp or tile context issues them (R240 to R249). -/

namespace Sys2Proof.Machine

/-! ### Tiles (R240, R242) -/

/-- An allocated tile holding +0 in every element (R242). -/
def Tile.fresh : Tile := ⟨[], 0, false, false, [], []⟩
/-- An element of a tile: row i, column j. -/
def Tile.at_ (t : Tile) (i j : Nat) : BitVec 40 := sget 0 t.data (128 * i + j)
def Tile.set (t : Tile) (i j : Nat) (v : BitVec 40) : Tile := { t with data := sset 0 t.data (128 * i + j) v }

/-- The block of an instruction. -/
def State.blockOf (s : State) (c : Ctx) : Option Block := kget s.blocks c.p.blk

/-- A read of a half-row (R240): the lowest lane of M names tile, row and half. An unallocated tile traps; a spilled one is
waited for. An empty M makes no access (R132): `none_` is what is left then. -/
def accOp (i : Instr) (s : State) (a : BitVec 7) (wr : Bool) (none_ : Ctx → State → State) (f : Ctx → State → Tile → Nat → Nat → Nat → State) : Out :=
  warpOp i s (fun c t =>
    if c.m = 0 then none_ c t
    else
      let v := (c.rd a.toNat c.low).toNat
      match (t.blockOf c).bind (fun b => kget b.tiles (bits v 3 0)) with
      | none => t.trapAll c 0x11 (if wr then 1 else 0) 0
      | some x => if x.spilled then t.retry else f c t x (bits v 3 0) (bits v 10 4) (bits v 11 11))

/-- A chunk is under way on a tile of a block: some sub-blocks have taken it, others not (R241). -/
def State.inChunk (s : State) (cl blk k : Nat) : Bool :=
  (s.meng cl).table.any (fun x => x.granted && x.blk == blk && x.tile == k && !x.sub.isEmpty)

/-- What an `accrd` finds in an element. One that began while the last chunk was under way may find each 8×8 sub-block as it was
before the chunk (R241; log 100). -/
def Tile.seen (t : Tile) (began : Bool) (n i j : Nat) : BitVec 40 :=
  if began && !Config.chunkSeen n (16 * (i / 8) + j / 8) then (kget t.back (128 * i + j)).getD (t.at_ i j) else t.at_ i j

/-- One reader of a chunk is done; with the last one the old elements go. -/
def Tile.readDone (t : Tile) (r : Nat × Nat) : Tile :=
  let rs := t.readers.filter (· != r)
  { t with readers := rs, back := if rs.isEmpty then [] else t.back }

/-- `accrd` (R240). One that finds a chunk under way has begun, and ends after it (R241). -/
def execAccrd (a d : BitVec 7) (s : State) : Out :=
  accOp (.accrd a d) s a false (fun c t => c.finishReg t d.toNat 1 (fun _ => ([], 0)) .n 0) (fun c t x k i h =>
    let me := (c.u, c.is.stamp)
    let put (y : Tile) : State := t.modBlock c.p.blk (fun b => { b with tiles := kput b.tiles k y })
    if t.inChunk (c.p.core / 4) c.p.blk k then (put { x with readers := dedup (me :: x.readers) }).retry
    else
      let rs := (lanesOf c.m).map (fun l =>
        let r := cvtF a40 f32 .rne false (x.seen (x.readers.contains me) t.stepNo i (64 * h + l)).toNat
        (l, BitVec.ofNat 32 r.1, r.2))
      let w := (c.put d.toNat 1 (rs.map (fun r => (r.1, [r.2.1]))) (c.level x.level)).orLanes (rs.map (fun r => (r.1, r.2.2)))
      let t := if x.readers.contains me then put (x.readDone me) else t
      ((t.setWarp c.u w).linResult c.p.core c.u (c.w.wbase + d.toNat) 1 [] none).done c c.is.mask)

/-- DESIGN CHOICE (log 111): a signalling NaN that `accwr` widens raises no NV: R101 and R240 name flags for `accrd` alone. -/
def execAccwr (a d : BitVec 7) (s : State) : Out :=
  accOp (.accwr a d) s a true (fun c t => t.done c c.is.mask) (fun c t x k i h =>
    let x := (lanesOf c.m).foldl (fun (x : Tile) l =>
      x.set i (64 * h + l) (BitVec.ofNat 40 (cvtF f32 a40 .rne false (c.rd d.toNat l).toNat).1)) x
    let x := { x with level := max x.level (c.w.regLevel (c.w.wbase + d.toNat)),
                      back := (lanesOf c.m).foldl (fun m l => kdel m (128 * i + 64 * h + l)) x.back }
    (t.modBlock c.p.blk (fun b => { b with tiles := kput b.tiles k x })).done c c.is.mask)

/-- The lowest free run of n local indices (R242). -/
def Block.freeRun (b : Block) (n : Nat) : Option Nat :=
  (List.range 16).find? (fun f => decide (f + n ≤ 16) && (List.range n).all (fun j => (kget b.tiles (f + j)).isNone))

/-- The tiles of a block that stand in its save area, and the block with them back (R243). -/
def Block.spilledTiles (b : Block) : Nat := (b.tiles.filter (fun t => t.2.spilled)).length
def Block.unspill (b : Block) : Block :=
  { b with tiles := b.tiles.map (fun (t : Nat × Tile) => (t.1, { t.2 with spilled := false })) }

/-- Allocate n tiles from f up. -/
def Block.allocTiles (b : Block) (f n : Nat) : Block :=
  { b with tiles := (List.range n).foldl (fun m j => kput m (f + j) Tile.fresh) b.tiles }

/-- The launch of a block runs with OVERCOMMIT. -/
def State.overcommits (s : State) (b : Block) : Bool := (s.lrOf b.launch).elim false (·.overcommit)

/-- The tiles a block takes of its engine: what admission reserved, or with OVERCOMMIT what it holds (R243). -/
def State.tilesHeld (s : State) (b : Block) : Nat :=
  if b.tctx.isNone then 0
  else if s.overcommits b then (b.tiles.filter (fun t => !t.2.spilled)).length
  else (s.lrOf b.launch).elim 0 (·.accmax)

/-- Free tiles of a cluster's engine (R243). -/
def State.tilesFree (s : State) (cl : Nat) : Nat :=
  64 - (s.blocks.filter (fun b => b.2.core / 4 == cl)).foldl (fun n b => n + s.tilesHeld b.2) 0

/-- The age of a block's request: launch sequence, then block id (R243). -/
def State.reqAge (s : State) (b : Block) : Nat := (kget s.launches b.launch).elim 0 (·.seq) * 2 ^ 64 + b.bid

/-- What a block's request needs: its new tiles, and its old ones when they are spilled (R243). -/
def Block.reqTiles (b : Block) : Nat := b.accWait.getD 0 + b.spilledTiles

/-- The blocks of a cluster that wait in `acalloc`, oldest first. -/
def State.accWaiters (s : State) (cl : Nat) : List (Nat × Block) :=
  sortByKey (fun b => s.reqAge b.2) (s.blocks.filter (fun b => b.2.core / 4 == cl && b.2.accWait.isSome))

def execAcalloc (a d : BitVec 7) (s : State) : Out :=
  warpOp (.acalloc a d) s (fun c t =>
    let n := (c.rd a.toNat 0).toNat
    match t.blockOf c with
    | none => t.retry
    | some b =>
      if n = 0 ∨ n > 16 ∨ b.tiles.length + n > c.lr.accmax then t.trapAll c 0x1A n 0
      else
        match b.freeRun n with
        | none => t.trapAll c 0x1A n 0
        | some f =>
          let older := (t.accWaiters (c.p.core / 4)).any (fun x => decide (t.reqAge x.2 < t.reqAge b))
          if c.lr.overcommit ∧ (older ∨ t.tilesFree (c.p.core / 4) < n + b.spilledTiles) then
            let r := c.w.wbase + d.toNat
            let t := t.modBlock c.p.blk (fun b => { b with accWait := some n })
            (t.modWarp c.u (fun w =>
              ({ w with rlev := sset 0 w.rlev r (c.level 0), written := sset false w.written r true }).hold c.m c.is.pc c.is.npc
                (.acalloc r n))).done c 0
          else
            c.finishReg (t.modBlock c.p.blk (fun b => b.unspill.allocTiles f n)) d.toNat 1 (fun _ => ([BitVec.ofNat 32 f], 0)) c.row.cls 0)

/-! ### Posting (R244) -/

/-- A matrix command with nothing in it. -/
def MCmd.blank : MCmd :=
  { id := 0, blk := 0, u := 0, kind := .mzero, tile := 0, tiles := [], prio := 0, pc := 0, a := none, b := none, m := 128, n := 128,
    k := 128, perm := [], fa := [], fb := [], sa := [], sb := [], sub := [], lev := 0, granted := false, void := false, paused := none, rejected := [],
    addr := 0, cnt := 0, out := Cmd.blank.src, trow := 0, tcol := 0, scale := 0, amax := false, scope := 0, zero := false,
    absmax := 0, done := 0 }

/-- The table holds 64 posted commands; an `acfree` that waits takes no place. -/
def MEngine.full (e : MEngine) : Bool := decide (64 ≤ (e.table.filter (fun k => k.kind != .acfree)).length)

/-- Post a command of this context with the block's valid counts (R246): it takes its identity. -/
def State.enter (s : State) (c : Ctx) (b : Block) (k : MCmd) : State :=
  let (id, s) := s.fresh
  let e := s.meng (c.p.core / 4)
  s.setMeng (c.p.core / 4) { e with table := e.table ++ [{ k with id := id, blk := c.p.blk, u := c.u, prio := c.lr.prio,
                                                                  pc := c.is.pc, m := b.vm, n := b.vn, k := b.vk }] }

/-- Post a command that has passed its checks, or hold it unissued while the table is full; the slots change with it. -/
def State.postCmd (s : State) (c : Ctx) (b : Block) (k : MCmd) (slots : KMap Slot) : State :=
  if (s.meng (c.p.core / 4)).full then s.retry
  else ((s.enter c b k).modBlock c.p.blk (fun b => { b with slots := slots })).done c c.is.mask

/-- A tile that a command may name: allocated, and not being freed (R242, R244). -/
def Block.tileOk (b : Block) (t : Nat) : Bool := (kget b.tiles t).any (fun x => !x.freeing)

/-- A command on the tile that V[d] names: `pre` is the check that comes first, the illegal instruction. -/
def tileCmd (i : Instr) (s : State) (d : BitVec 7) (pre : Block → Bool) (f : Ctx → State → Block → Nat → State) : Out :=
  warpOp i s (fun c t =>
    match t.blockOf c with
    | none => t.retry
    | some b =>
      let k := bits (c.rd d.toNat 0).toNat 3 0
      if !pre b then t.trapAll c 0x01 c.is.word.toNat 0
      else if !b.tileOk k then t.trapAll c 0x11 0 0
      else f c t b k)

def execAcfree (b a : BitVec 7) (s : State) : Out :=
  warpOp (.acfree b a) s (fun c t =>
    let f := (c.rd a.toNat 0).toNat
    let n := (c.rd b.toNat 0).toNat
    match t.blockOf c with
    | none => t.retry
    | some x =>
      let ts := (List.range 16).filter (fun k => decide (f ≤ k ∧ k < f + n) && x.tileOk k)
      let busy := ((t.meng (c.p.core / 4)).table.any (fun k => k.blk == c.p.blk && ts.contains k.tile))
      if ts.isEmpty then t.done c c.is.mask
      else if busy then
        let t := t.enter c x { MCmd.blank with kind := .acfree, tiles := ts, tile := 16 }
        (t.modBlock c.p.blk (fun b => { b with tiles := ts.foldl (fun m k => kmod m k (fun y => { y with freeing := true })) b.tiles })).done
          c c.is.mask
      else (t.modBlock c.p.blk (fun b => { b with tiles := ts.foldl kdel b.tiles })).done c c.is.mask)

/-! ### Slots and passes (R245) -/

def execMslot (b a sl : BitVec 7) (s : State) : Out :=
  warpOp (.mslot b a sl) s (fun c t =>
    let r := t.readTensor (.warp c) .slot (c.rd64 a.toNat 0).toNat
    match r.2 with
    | .error e => r.1.recFail c e
    | .ok x =>
      let v := (c.rd b.toNat 0).toNat
      ((r.1.dropAnswers c).modBlock c.p.blk (fun b => { b with slots := kput b.slots sl.toNat ⟨x, bits v 15 0, bits v 31 16⟩ })).done
        c c.is.mask)

/-- The formats of two slots may be multiplied (R245): both FP8, both BF16 or both FP16, and B has no row scales. -/
def mmacFmts (a b : Slot) : Bool :=
  ((decide (a.t.fmt ≤ 1) && decide (b.t.fmt ≤ 1)) || (a.t.fmt == b.t.fmt && (a.t.fmt == 2 || a.t.fmt == 3))) && b.t.scaleg != 1

def execMmac (b a d : BitVec 7) (s : State) : Out :=
  tileCmd (.mmac b a d) s d (fun x => match kget x.slots a.toNat, kget x.slots b.toNat with
      | some sa, some sb => mmacFmts sa sb
      | _, _ => false)
    (fun c t x k =>
      let slots := kmod (kmod x.slots a.toNat (fun y => { y with col := y.col + 1 })) b.toNat (fun y => { y with row := y.row + 1 })
      t.postCmd c x { MCmd.blank with kind := .mmac, tile := k, a := kget x.slots a.toNat, b := kget x.slots b.toNat } slots)

/-- A pass over one slot's tile and a constant matrix. -/
def oneSlot (i : Instr) (s : State) (a d : BitVec 7) (kind : MKind) : Out :=
  tileCmd i s d (fun x => (kget x.slots a.toNat).isSome) (fun c t x k =>
    t.postCmd c x { MCmd.blank with kind := kind, tile := k, a := kget x.slots a.toNat } x.slots)

def execMtrans (a d : BitVec 7) (s : State) : Out := oneSlot (.mtrans a d) s a d .mtrans
def execMrsum (a d : BitVec 7) (s : State) : Out := oneSlot (.mrsum a d) s a d .mrsum
def execMperm (b a d : BitVec 7) (s : State) : Out :=
  tileCmd (.mperm b a d) s d (fun x => (kget x.slots a.toNat).isSome) (fun c t x k =>
    let r := t.readAligned (.warp c) (c.rd64 b.toNat 0).toNat 128 128
    match r.2 with
    | .error e => r.1.recFail c e
    | .ok v =>
      (r.1.dropAnswers c).postCmd c x { MCmd.blank with kind := .mperm, tile := k, a := kget x.slots a.toNat,
                                                        perm := (bytesLE 128 v).map (·.toNat) } x.slots)

def execMzero (d : BitVec 7) (s : State) : Out :=
  tileCmd (.mzero d) s d (fun _ => true) (fun c t x k => t.postCmd c x { MCmd.blank with kind := .mzero, tile := k } x.slots)

/-- `vcnt` (R246). -/
def execVcnt (b a : BitVec 7) (s : State) : Out :=
  warpOp (.vcnt b a) s (fun c t =>
    let m := (c.rd a.toNat 0).toNat
    let n := (c.rd b.toNat 0).toNat
    let k := if c.px.cv then (c.rd c.px.c 0).toNat else 128
    let ok (x : Nat) : Bool := decide (1 ≤ x ∧ x ≤ 128)
    if ok m && ok n && ok k then
      (t.modBlock c.p.blk (fun b => { b with vm := m, vn := n, vk := k })).done c c.is.mask
    else t.trapAll c 0x01 c.is.word.toNat 0)

/-! ### Waiting, arrivals and drains (R247 to R249) -/

/-- Every command a context posted has completed (R247). -/
def State.postedDone (s : State) (u : Nat) : Bool :=
  s.mengs.all (fun e => e.2.table.all (fun k => !(k.u == u && k.kind != .acfree)))

def execMwait (s : State) : Out :=
  warpOp .mwait s (fun c t =>
    if t.postedDone c.u then t.done c c.is.mask
    else (t.modWarp c.u (fun w => w.hold c.m c.is.pc c.is.npc .mwait)).done c 0)

def execMpost (b a d : BitVec 7) (s : State) : Out :=
  tileCmd (.mpost b a d) s d (fun _ => true) (fun c t x k =>
    let addr := (c.rd64 a.toNat 0).toNat
    if !wordForm addr then t.trapAll c 0x05 0 addr
    else
      let r := t.wordCheck c.p c.p.places .atomic addr
      match r.2 with
      | some e => r.1.failAll c .atomic addr e
      | none =>
        r.1.postCmd c x { MCmd.blank with kind := .mpost, tile := k, addr := addr, cnt := (c.rd b.toNat 0).toNat,
                                          lev := c.w.regLevel (c.w.wbase + b.toNat) } x.slots)

def execMdrain (a d : BitVec 7) (s : State) : Out :=
  tileCmd (.mdrain a d) s d (fun _ => true) (fun c t x k =>
    let r := rdThen (t.readDrain (.warp c) (c.rd64 a.toNat 0).toNat) (fun t y =>
      rdThen (t.wordChecks c.p c.p.places [(.atomic, y.absmax), (.atomic, y.done)]) (fun t _ => (t, .ok y)))
    match r.2 with
    | .error e => r.1.recFail c e
    | .ok y =>
      (r.1.dropAnswers c).postCmd c x { MCmd.blank with
        kind := .mdrain, tile := k, out := y.out, trow := y.trow, tcol := y.tcol, scale := y.scale, amax := y.amax, scope := y.scope,
        zero := y.zero, absmax := y.absmax, addr := y.done, cnt := y.count } x.slots)

/-- `ppoint` (R249): with a pre-emption pending the context waits here to be saved; a lapse of the session is one (R330). -/
def execPpoint (a : BitVec 7) (s : State) : Out :=
  warpOp (.ppoint a) s (fun c t =>
    if (t.blockOf c).any (·.preempt) || decide (2 ≤ t.sess c.p.part) then
      (t.modWarp c.u (fun w => w.hold c.m c.is.pc c.is.npc (.ppoint ((c.rd a.toNat 0).toNat % 2 ^ 16)))).done c 0
    else t.done c c.is.mask)

end Sys2Proof.Machine
end

