-- ==== Sys2Proof/Machine/EngineOps.lean ====
section
/-! DEFINITION. The engine instructions: copies, collectives, tickets and posts (R120, R121, R225 to R231). -/

namespace Sys2Proof.Machine

/-! ### Starting a command (R226) -/

/-- The commands an engine holds, the running one included. -/
def Engine.load (e : Engine) : Nat := e.queue.length + e.run.toList.length

/-- The engine of a die that a command goes to: the fewest commands, the lowest number on a tie; none while every queue is
full. -/
def State.pickEngine (s : State) (die : Nat) : Option Nat :=
  leastBy (fun e => (s.engine e).load) (((List.range 16).map (fun n => 16 * die + n)).filter (fun e =>
    decide ((s.engine e).queue.length < 64)))

/-- The two entries of a die's range-lock table that a command takes: the lowest free ones (R120; log 116). -/
def State.freeLocks (s : State) (die : Nat) : Option (Nat × Nat) :=
  match (List.range 256).filter (fun k => (kget (sget [] s.rl die) k).isNone) with
  | a :: b :: _ => some (a, b)
  | _ => none

/-- Register a range. -/
def State.putLock (s : State) (die k : Nat) (e : RlEntry) : State :=
  { s with rl := kput s.rl die (kput (sget [] s.rl die) k e) }

/-- A ticket: the engine number, the die rank, the sequence number (R226). -/
def ticketOf (e seq : Nat) : Nat := e % 16 + e / 16 * 2 ^ 4 + seq * 2 ^ 6

/-- Put a command behind an engine's others: it takes its identity and its ticket. -/
def State.queueCmd (s : State) (e : Nat) (c : Cmd) : State × Nat :=
  let (id, s) := s.fresh
  let x := s.engine e
  let t := ticketOf e x.seq
  (s.setEngine e { x with queue := x.queue ++ [{ c with id := id, ticket := t }], seq := (x.seq + 1) % 2 ^ 26,
                          fin := x.fin.filter (fun f => f.ticket != t) }, t)

/-- Start a checked command on an engine of a die, with its ranges registered when it locks; none while it cannot. -/
def State.startCmd (s : State) (die : Nat) (c : Cmd) (lock : Bool) : Option (State × Nat) :=
  match s.pickEngine die with
  | none => none
  | some e =>
    if lock then
      match s.freeLocks die with
      | none => none
      | some (i, j) =>
        let r := c.ranges
        let s1 := s.putLock die i ⟨c.part, c.ctx, r.1.1, r.1.2, false, s.nextUid⟩
        some ((s1.putLock die j ⟨c.part, c.ctx, r.2.1, r.2.2, true, s.nextUid⟩).queueCmd e c)
    else some (s.queueCmd e c)

/-- A command as a unit issues it. -/
def Ctx.ownCmd (c : Ctx) (x : Cmd) : Cmd :=
  { x with part := c.p.part, ctx := c.p.ctx, core := c.p.core, launch := some c.p.launch, blk := some c.p.blk, u := some c.u }

/-- The completion words of a command: the DONE arrival, and a collective's STATUS (R353). -/
def Cmd.words (c : Cmd) : List (Acc × Nat) := (.atomic, c.done) :: (if c.coll then [(.store, c.status)] else [])

/-- A warp-level engine instruction: with no lane in M it does nothing; it releases at device scope first (R226, R230,
R231). -/
def relOp (i : Instr) (s : State) (f : Ctx → State → State) : Out :=
  warpOp i s (fun c t =>
    if c.m = 0 then t.done c c.is.mask
    else
      let r := t.releaseTry c c.m 4
      if r.2 then f c r.1 else r.1.retry)

def execBcopy (a d : BitVec 7) (s : State) : Out :=
  relOp (.bcopy a d) s (fun c t =>
    let r := rdThen (t.readCopy (.warp c) (c.rd64 a.toNat c.low).toNat) (fun t x =>
      rdThen (t.wordChecks c.p c.p.places x.1.words) (fun t _ => (t, .ok x)))
    match r.2 with
    | .error e => r.1.recFail c e
    | .ok (x, lock) =>
      match (r.1.dropAnswers c).startCmd (c.p.core / 192) (c.ownCmd x) lock with
      | none => r.1.retry
      | some (t, ticket) => c.finishReg t d.toNat 1 (fun _ => ([BitVec.ofNat 32 ticket], 0)) c.row.cls 0)

def execColl (a : BitVec 7) (s : State) : Out :=
  relOp (.coll a) s (fun c t =>
    let r := rdThen (t.readColl (.warp c) (c.rd64 a.toNat c.low).toNat) (fun t x =>
      rdThen (t.wordChecks c.p c.p.places x.words) (fun t _ => (t, .ok x)))
    match r.2 with
    | .error e => r.1.recFail c e
    | .ok x =>
      match (r.1.dropAnswers c).startCmd (c.p.core / 192) (c.ownCmd x) false with
      | none => r.1.retry
      | some (t, _) => t.done c c.is.mask)

/-! ### Tickets (R229) -/

/-- The status of a ticket of a context, 0 while the command is queued or runs, and what stopped it. A ticket of another
die's engine, or that no command of the context received, reads 1. -/
def State.ticketStatus (s : State) (p : Who) (t : Word) : Nat × Option Finished :=
  let e := p.core / 192 * 16 + t.toNat % 16
  if bits t.toNat 5 4 ≠ p.core / 192 then (1, none)
  else
    let x := s.engine e
    if (x.queue ++ x.run.toList).any (fun c => c.ticket == t.toNat && c.part == p.part && c.ctx == p.ctx) then (0, none)
    else
      match x.fin.find? (fun f => f.ticket == t.toNat && f.part == p.part && f.ctx == p.ctx) with
      | some f => (f.status, some f)
      | none => (1, none)

def execEwait (a : BitVec 7) (s : State) : Out :=
  warpOp (.ewait a) s (fun c t =>
    let k := c.rd a.toNat c.low
    match t.ticketStatus c.p k with
    | (0, _) => (t.modWarp c.u (fun w => w.hold c.m c.is.pc c.is.npc (.ewait k))).done c c.rest
    | (2, some f) => (t.acquire c.p.view 4).trapAll c f.cause f.info f.addr
    | _ => (t.acquire c.p.view 4).done c c.is.mask)

def execEpoll (a d : BitVec 7) (s : State) : Out :=
  warpOp (.epoll a d) s (fun c t =>
    if c.m = 0 then t.done c c.is.mask
    else
      let st := (t.ticketStatus c.p (c.rd a.toNat c.low)).1
      let t := if st = 0 then t else t.acquire c.p.view 4
      c.finishReg t d.toNat 1 (fun _ => ([BitVec.ofNat 32 st], 0)) c.row.cls 0)

/-! ### Node records (R224) -/

/-- A register of a queue. -/
def State.qreg (s : State) (q : Nat) (f : QReg) : Nat := s.reg (.q q f)

/-- What the walker finds of a node: its 128 bytes; nothing it can use; or a page that the driver must bring. -/
inductive NodeRead where
  | fields (v : Nat)
  | bad
  | wait (va kind page : Nat)
  deriving DecidableEq, Repr

/-- Read a node in a context (R277, R279). -/
def State.readNode (s : State) (p ctx addr : Nat) : NodeRead :=
  if addr % 128 != 0 || addr ≥ top57 || !s.ctxExists p ctx then .bad
  else
    match (s.readWalk p ctx addr 128).2 with
    | .ok v => .fields v
    | .error (.elem _ va (.driver kind page)) => .wait va kind page
    | .error _ => .bad

/-- A node's fields. -/
def nodeKind (v : Nat) : Nat := fld v 0 3 0
def nodePred (v : Nat) : Nat := fld v 0x04 31 0
def nodeTarget (v : Nat) : Nat := fld v 0x08 63 0
def nodeQueue (v : Nat) : Nat := fld v 0x79 7 0
def nodePrio (v : Nat) : Nat := fld v 0x7A 2 0
def nodeValue (v : Nat) : Nat := fld v 0x7C 31 0
/-- KIND 6–15 or a reserved bit set is a node error (R224, R279). -/
def nodeOk (v : Nat) : Bool :=
  decide (nodeKind v ≤ 5) && fld v 0 31 4 == 0 && fld v 0x7A 7 3 == 0 && fld v 0x7B 7 0 == 0

/-- The declared ranges, rounded out to 256 bytes, each with whether it is written (R282). -/
def nodeRanges (v : Nat) : List (Nat × Nat × Bool) :=
  (List.range 4).filterMap (fun k =>
    let base := fld v (0x48 + 8 * k) 63 0
    let len := fld v (0x68 + 4 * k) 31 0
    if (fld v 0x78 7 4).testBit k && len != 0 then
      some (base / 256 * 256, (base + len + 255) / 256 * 256, (fld v 0x78 3 0).testBit k)
    else none)

/-! ### Posting a node (R231, R276) -/

/-- The declared ranges that the walker finds in a record; none while the driver has not brought its page. -/
def State.rangesAt (s : State) (p ctx addr : Nat) : Option (List (Nat × Nat × Bool)) :=
  match s.readNode p ctx addr with
  | .fields v => some (nodeRanges v)
  | .bad => some []
  | .wait _ _ _ => none

/-- A node enters the tail of a queue (R276, R281); its identity tells the order in which nodes entered, and with its ranges the
implicit edges it receives (R282). -/
def State.enterNode (s : State) (q addr : Nat) (posted : Bool) : State :=
  let found := s.rangesAt (s.qreg q .part) (s.qreg q .ctx) addr
  let (id, s) := s.fresh
  let n : Node := { addr := addr, q := q, prio := 0, order := id, posted := posted, running := false,
                    ranges := found, kind := 0, target := 0, value := 0, queue := 0,
                    reach := [], finished := false, faulted := false, stopCode := 0 }
  { s with nodes := kput s.nodes id n, rings := sset [] s.rings q (sget [] s.rings q ++ [id]) }

/-- Free entries of a queue's ring. -/
def State.ringFree (s : State) (q : Nat) : Nat := 1024 - (sget [] s.rings q).length

def execGpost (b a : BitVec 7) (s : State) : Out :=
  relOp (.gpost b a) s (fun c t =>
    let q := (c.rd b.toNat c.low).toNat
    if q > 255 ∨ t.reg (.q q .part) ≠ c.p.part ∨ t.reg (.q q .en) ≠ 1 then t.trapAll c 0x11 0 0
    else if t.ringFree q = 0 then t.retry
    else (t.enterNode q (c.rd64 a.toNat c.low).toNat true).done c c.is.mask)

end Sys2Proof.Machine
end

