-- ==== Sys2Proof/Machine/OrderEvents.lean ====
section
/-! DEFINITION. The steps of the ordering machine and of a warp's waits, and the traps due at an instruction boundary
(R30, R32, R70, R107 to R113, R204, R217, R239, R244, R268). A step that is not enabled changes nothing (log 2). -/

namespace Sys2Proof.Machine

/-- The unit stands at an instruction boundary and may issue: an `xw` with all its groups is one instruction. -/
def State.atBoundary (s : State) (u : Nat) : Bool :=
  match kget s.warps u, s.who u with
  | some w, some p => !w.ended && s.mayIssue u w p && w.xw.isNone
  | _, _ => false

/-- FAIRNESS_TURN (R32). -/
def execFairnessTurn (u : Nat) (s : State) : Out :=
  .next (s.modWarp u (fun w => if s.atBoundary u && w.turn.isNone && decide (64 ≤ w.fair) then w.giveTurn else w))

/-- STORE_FAULT_DELIVERY (R268). -/
def execStoreFaultDelivery (u : Nat) (s : State) : Out :=
  .next (if s.atBoundary u && (kget s.warps u).any (s.sfDue u) then s.sfDeliver u else s)

/-- TRANSACTION_OVERRUN_TRAP (R239). -/
def execTransactionOverrunTrap (u : Nat) (s : State) : Out :=
  .next (if s.atBoundary u then s.overrunTake u else s)

/-- PASS_FAULT_DELIVERY (R244). -/
def execPassFaultDelivery (u : Nat) (s : State) : Out :=
  .next (if s.atBoundary u then s.passTake u else s)

/-- PRODUCER_COMPLETE (R67, R70). -/
def execProducerComplete (core eid : Nat) (s : State) : Out := .next (s.producerDone core eid)

/-- DRAIN (R109). -/
def execDrain (u lane : Nat) (s : State) : Out := .next (s.drain u lane)
/-- PROPAGATE (R109). -/
def execPropagate (core line : Nat) (s : State) : Out := .next (s.propagate core line)
/-- APPLY (R109, R116). -/
def execApply (pa : Nat) (s : State) : Out := .next (s.apply pa)
/-- REFRESH by eviction (R109). -/
def execRefresh (core line : Nat) (s : State) : Out := .next (s.refresh core line)

/-- JOIN_DEADLOCK_RELEASE (R30). -/
def execJoinDeadlockRelease (u : Nat) (s : State) : Out := .next (s.modWarp u Warp.joinDeadlock)

/-- SLEEP_EXPIRY (R217): the entries that sleep at a PC and whose time has passed. -/
def execSleepExpiry (u pc : Nat) (s : State) : Out :=
  .next (s.modWarp u (fun w => w.wake (fun e => e.pc.toNat == pc && match e.st with
    | .waiting (.sleep t) => decide (t ≤ s.timebase)
    | _ => false)))

/-- A barrier word read where its updates are performed (R204); none where a peer or the host holds it. -/
def State.phaseBytes (s : State) (p : Who) (u : Nat) (bs : List PByte) : Option (State × List Byte) :=
  match bs with
  | [] => none
  | b :: _ =>
    match b.loc with
    | .peer _ _ => none
    | .spad _ _ => some (s.pointRead p u .spad bs)
    | .mem pa => if pa ≥ devTop then none else some (s.pointRead p u (if b.cls = 0 ∧ !p.tile then .view else .home) bs)

/-- PBWAIT_RELEASE (R26, R204): the barrier word that lanes wait for at one instruction is read again; after the flip they go on
together and acquire. In the private window each lane has a word of its own (R298). A word that faults, or that a peer or the host
holds, is read by the instruction itself again. -/
def execPbwaitRelease (u lane : Nat) (s : State) : Out :=
  .next (match kget s.warps u, s.who u with
    | some w, some p =>
      match w.entryOf (laneBit lane) with
      | some e =>
        match e.st with
        | .waiting (.pbwait a ph scope) =>
          let m : Mask := match windowAt a with
            | .priv _ => laneBit lane
            | _ => e.mask
          let again : State := s.setWarp u { w.move m e.pc .ready with locked := true }
          let r := s.checkElem p u lane .load true false 0 (BitVec.ofNat 64 a) 4
          match r.2 with
          | .ok bs =>
            match r.1.phaseBytes p u bs with
            | some (t, v) =>
              if phaseOf v = ph then t
              else (t.modWarp u (fun w => { w.move m e.next .ready with locked := true })).acquire p.view scope
            | none => again
          | _ => again
        | _ => s
      | none => s
    | _, _ => s)

/-! ### Walks of posted stores (R118, R296, R306) -/

/-- The outcome of every lane of a posted store, without the range locks that were registered after its Issue (R120). -/
def State.postedLanes (s : State) (p : Who) (u : Nat) (x : Posted) : List (Nat × Nat) → State × List LaneRes
  | [] => (s, [])
  | (lane, va) :: t =>
    let r : State × Res := if x.rejected.any (fun g => decide (g < va + x.width ∧ va < g + 2 ^ 14)) then ({ s with rl := [] }, .prog 0x11 1)
      else State.checkElem { s with rl := [] } p u lane .store x.need false (sget 0 x.level lane) (BitVec.ofNat 64 va) x.width
    let q := ({ r.1 with rl := s.rl }).postedLanes p u x t
    (q.1, ⟨lane, va, r.2⟩ :: q.2)

/-- Place the bytes of a lane's posted entries, or take the entries away. -/
def placeWalk (walk : Nat) (r : LaneRes) (q : List QEntry) : List QEntry :=
  if r.isOk then q.map (fun e => if e.walk = some walk then
      { e with walk := none, bytes := (e.bytes.map (fun b => match r.bytes.find? (fun x => x.va == b.va) with
        | some x => { b with loc := some x.loc, cls := x.cls }
        | none => b)) } else e)
  else q.filter (fun e => e.walk != some walk)

/-- The walks of an instruction have closed: each byte is left to the highest lane that writes it, whatever address it writes it
by (R117). -/
def Warp.retrim (w : Warp) (iid : Nat) : Warp :=
  let above (lane : Nat) (b : QByte) : Bool :=
    w.queues.any (fun z => decide (lane < z.1) && z.2.any (fun x => x.iid == iid && x.bytes.any (sameByte b)))
  { w with queues := w.queues.map (fun q => (q.1, (q.2.map (fun e =>
      if e.iid = iid then { e with bytes := e.bytes.filter (fun b => !above q.1 b) } else e)).filter
        (fun e => e.iid != iid || !e.bytes.isEmpty || e.rel.isSome))) }

/-- The walks of a posted store have closed: bytes placed, faulting entries removed with one record, and the hash's items
settled (R118, R272, R290, R306). -/
def State.closePosted (s : State) (p : Who) (u : Nat) (x : Posted) (rs : List LaneRes) : State :=
  let s := rs.foldl (fun st r => st.modWarp u (fun w =>
    { w with queues := sset [] w.queues r.lane (placeWalk x.id r (sget [] w.queues r.lane)) })) s
  let s := s.modWarp u (·.retrim x.id)
  let s := s.hashClose p.launch p.core (rs.map (fun r => (x.id * 64 + r.lane, r.isOk)))
  let s := s.modWarp u (fun w => { w with posted := w.posted.filter (fun y => y.id != x.id) })
  match rs.filter (fun r => !r.isOk) with
  | [] => s
  | r :: t => s.sfRecord p.core u x.pc r.va (maskOfRes (r :: t)) (r.cause.getD 0x11)

/-- PAGE_WALK (R296): the walks of a posted store end. While a page of it waits for the driver they stay open. -/
def execPageWalk (u w : Nat) (s : State) : Out :=
  .next (match kget s.warps u, s.who u with
    | some x, some p =>
      match x.posted.find? (fun y => y.id == w) with
      | none => s
      | some y =>
        let r := s.postedLanes p u y y.vas
        match r.2.findSome? (fun q => match q.r with
            | .driver k page => some (q.va, k, page)
            | _ => none) with
        | some (va, k, page) => r.1.outstanding p.part p.ctx page va k 1 (if p.tile then 1 else 0) p.core
        | none => r.1.closePosted p u y r.2
    | _, _ => s)

/-! ### The fault queue (R302) and collapse (R107) -/

/-- The function of a partition (R318): virtual functions follow the physical one. -/
def functionOf (p : Nat) : Nat := p + 1

/-- The record of a driver-class fault (R302). -/
def Outst.record (o : Outst) (seq : Nat) : List Byte :=
  bytesLE 8 (o.va % top57) ++ bytesLE 8 (o.ctx + o.kind * 2 ^ 16 + o.acc * 2 ^ 20 + o.src * 2 ^ 24 + o.unit * 2 ^ 32) ++
    bytesLE 8 seq ++ bytesLE 8 0

/-- FAULT_RECORD_WRITE (R302): the oldest record that waits, while the ring has room. A ring outside the partition's memory takes none
(R301, R323; log 120). -/
def execFaultRecordWrite (p : Nat) (s : State) : Out :=
  let x := s.part p
  let size := s.preg p .fqSize
  let tail := s.preg p .fqTail
  .next (match x.outst.find? (fun o => !o.recorded) with
    | none => s
    | some o =>
      if size = 0 ∨ (tail + 1) % size = s.preg p .fqHead % size ∨ !s.ownsRange p (s.preg p .fqBase + 32 * tail) 32 then s
      else
        let s := s.setHs (s.preg p .fqBase + 32 * tail) (o.record x.faultSeq)
        let s := s.setPreg p .fqTail ((tail + 1) % size)
        let mark (z : Outst) : Outst := if z.ctx = o.ctx ∧ z.page = o.page then { z with recorded := true } else z
        let s := s.modPart p (fun y => { y with faultSeq := y.faultSeq + 1, outst := y.outst.map mark })
        { s with out := { s.out with msix := s.out.msix ++ [(functionOf p, s.preg p .fqVec)] } })

/-- The units of a context: every entry parked on a page becomes ready at its PC (R303). -/
def State.unpark (s : State) (p ctx page : Nat) : State :=
  s.warps.foldl (fun st e =>
    match st.who e.1 with
    | some q =>
      if q.part = p ∧ q.ctx = ctx then
        st.modWarp e.1 (fun w => (w.frontier.filter (fun x => match x.st with
          | .parked (.driver g _) => g == page
          | _ => false)).foldl (fun w x => { w.move x.mask x.pc .ready with locked := true }) w)
      else st
    | none => st) s

/-- Paused engines and matrix commands of a page go on (R303). -/
def State.unpause (s : State) (p ctx page : Nat) : State :=
  let s := s.engines.foldl (fun st e => match e.2.run with
    | some c => if c.part = p ∧ c.ctx = ctx ∧ c.paused = some page then
        st.setEngine e.1 { e.2 with run := some { c with paused := none } } else st
    | none => st) s
  s.mengs.foldl (fun st e => st.setMeng e.1 { e.2 with table := replaceIf (fun k =>
    k.paused == some page && (st.who k.u).any (fun q => q.part == p && q.ctx == ctx)) (fun k => { k with paused := none }) e.2.table }) s

/-- The cached translations of a page go, with the watches on its lines (R75, R300). -/
def State.tlbDrop (s : State) (p : Nat) (hit : TlbEntry → Bool) : State :=
  let gone := s.tlb.filter (fun e => e.part == p && hit e && e.isLeaf)
  let s := { s with tlb := s.tlb.filter (fun e => !(e.part == p && hit e)) }
  gone.foldl (fun st e => st.cores.foldl (fun st c => st.modCore c.1 (fun x => x.killWatches (fun w =>
    w.part == p && w.lines.any (fun l => CvLine.inPage l e.pte e.szBits)))) st) s

end Sys2Proof.Machine
end

