-- ==== Sys2Proof/Machine/Units.lean ====
section
/-! DEFINITION. Accesses of units that are no warp: block-transfer engines, tile fetch units and drains (R106, R114, R121,
R226, R228, R244, R248, R325). They pass no range lock and change no page's owner or class. -/

namespace Sys2Proof.Machine

/-- A byte such a unit may touch outside the global window: never the private window (R226). -/
def State.unitByte (s : State) (p : Who) (va : Nat) : Option PByte :=
  match windowAt va with
  | .priv _ => none
  | _ => s.winByte p 0 0 va

/-- One page of such an access: permission, firewall, level read, order-first class (`c4`: its cause), decoded view written. -/
def State.unitPage (s : State) (p : Who) (c4 : Nat) (acc : Acc) (pte pa : Nat) : Option Res :=
  if !permitted pte acc || !s.firewall p.part p.ctx pa || (acc != .store && pteLevel pte > s.curLevel p.part p.ctx) then
    some (.prog 0x11 (wInfo acc))
  else if pteClass pte == 4 then some (.prog c4 (if c4 = 0x11 then wInfo acc else 0))
  else if acc != .load && (s.windowOf pa).isSome then some (.prog 0x11 1)
  else none

/-- The checks of an element of such a unit. -/
def State.unitCheck (s : State) (places : List TlbAt) (p : Who) (c4 : Nat) (acc : Acc) (va n : Nat) : State × Res :=
  let vas := (List.range n).map (va + ·)
  let glob := vas.filter (fun a => windowAt a == .global)
  if va + n > top57 || (vas.filter (fun a => windowAt a != .global)).any (fun a => (s.unitByte p a).isNone) then
    (s, .prog 0x11 (wInfo acc))
  else
    let r := s.xlatPages places p acc false (dedup (glob.map (fun a => a / 2 ^ 14 * 2 ^ 14)))
    match r.2 with
    | .error e => (r.1, e)
    | .ok ls =>
      match ls.findSome? (fun l => r.1.unitPage p c4 acc l.2.1 (paOf l.2.1 l.2.2.1 (max va l.1))) with
      | some e => (r.1, e)
      | none =>
        let bs := vas.filterMap (fun a =>
          if windowAt a == .global then
            (ls.find? (fun l => l.1 == a / 2 ^ 14 * 2 ^ 14)).map (fun l =>
              (⟨a, .mem (paOf l.2.1 l.2.2.1 a), pteClass l.2.1, pteLevel l.2.1, false⟩ : PByte))
          else r.1.unitByte p a)
        if acc != .store && bs.any (fun b => match b.loc with
            | .mem pa => r.1.fleet.lost.contains (pa / lineBytes)
            | _ => false) then (r.1, .prog 0x19 0)
        else
          match bs.findSome? (fun b => match b.loc with
            | .peer k _ => if (kget r.1.fabric.routes k).isNone then some k else none
            | _ => none) with
          | some k => (r.1, .prog 0x17 k)
          | none => (r.1, .ok bs)

/-- The checks of an element of a command that the driver has refused pages (R303). -/
def State.unitCheckRej (s : State) (rej : List Nat) (places : List TlbAt) (p : Who) (c4 : Nat) (acc : Acc) (va n : Nat) : State × Res :=
  if rej.any (fun g => decide (g < va + n ∧ va < g + 2 ^ 14)) then (s, .prog 0x11 (wInfo acc))
  else s.unitCheck places p c4 acc va n

/-- Whether bytes lie at a peer or at the host. -/
def isOutside (bs : List PByte) : Bool := bs.any (fun b => match b.loc with
  | .peer _ _ => true
  | .mem pa => decide (pa ≥ devTop)
  | .spad _ _ => false)

/-- The ports take no more of a partition's accesses: from the halt of its session (R330). -/
def State.portHeld (s : State) (p : Nat) : Bool := decide (3 ≤ s.sess p)

/-- The peer and offset, or the host address, of bytes outside. -/
def outsideAt (bs : List PByte) : Option Nat × Nat :=
  match bs with
  | ⟨_, .peer n o, _, _, _⟩ :: _ => (some n, o)
  | ⟨_, .mem pa, _, _, _⟩ :: _ => (none, pa)
  | ⟨_, .spad _ o, _, _, _⟩ :: _ => (none, o)
  | [] => (none, 0)

/-- A request of such a unit to a peer or the host; `id` and `lane` say whose it is. -/
def State.unitSend (s : State) (p : Who) (id lane : Nat) (wr : Bool) (bs : List PByte) (data : List Byte) : State :=
  let a := outsideAt bs
  (s.extNew { u := id, part := p.part, launch := some p.launch, peer := a.1, wr := wr, off := a.2, data := data, n := bs.length, since := s.timebase,
              pc := 0, lane := lane, va := (bs.head?).elim 0 (·.va), iid := 0, held := false, answer := none }).1

/-- The same with the data enciphered by the record of the destination (R327). -/
def State.unitAsk (s : State) (p : Who) (id lane : Nat) (wr : Bool) (bs : List PByte) (data : List Byte) : State :=
  let a := outsideAt bs
  s.unitSend p id lane wr bs (if a.1.isNone then s.cipher p.part true a.2 data else data)

/-- A read of such a unit (an atomic with data to send): the bytes as the home view, the scratchpad bank or the target gives
them. -/
def State.unitReadWith (s : State) (p : Who) (id lane : Nat) (data : List Byte) (bs : List PByte) : State × Got :=
  if isOutside bs then
    match s.ext.find? (fun e => e.2.u == id && e.2.lane == lane && !e.2.wr) with
    | none => (s.unitAsk p id lane false bs data, .outside)
    | some e =>
      match e.2.answer with
      | none => (s, .outside)
      | some (0, vs) => ({ s with ext := kdel s.ext e.1 }, .bytes ((List.range bs.length).map (fun j => vs.getD j 0)))
      | some (err, _) => ({ s with ext := kdel s.ext e.1 }, .prog (if err = 1 then 0x17 else 0x18) (peerOf bs))
  else (s, .bytes (bs.map (fun b => match b.loc with
    | .mem pa => s.homeByte pa
    | .spad blk o => s.spadByte blk o
    | .peer _ _ => 0)))

/-- An Engine-read (R109). -/
def State.unitRead (s : State) (p : Who) (id lane : Nat) (bs : List PByte) : State × Got := s.unitReadWith p id lane [] bs

/-- An Engine-write (R109, R116): bytes enter the merge stage under a writer identifier, the scratchpad bank, or leave. A drain writes
under its tile context's, so its Apply drops no clean copy (R251). -/
def State.unitWrite (s : State) (p : Who) (id lane wid : Nat) (launch : Option Nat) (bs : List PByte) (vs : List Byte) : State :=
  if isOutside bs then s.unitAsk p id lane true bs vs
  else (bs.zip vs).foldl (fun st b => match b.1.loc with
    | .mem pa => { st with ms := st.ms ++ [⟨pa, b.2, wid, 0, b.1.va, launch, decide (960 ≤ wid),
        st.unitNow ((bs.head?).elim 0 (·.va)) bs.length (b.1.va - (bs.head?).elim 0 (·.va))⟩] }
    | .spad blk o => st.spadWrite blk o b.2
    | .peer _ _ => st) s

/-- No write under an identifier waits in a merge stage, and none of a command waits at its target. -/
def State.unitApplied (s : State) (id wid : Nat) : Bool :=
  s.ms.all (fun w => w.wid != wid) && s.ext.all (fun e => !(e.2.u == id && e.2.wr && e.2.answer.isNone))

/-- An arrival of n on a barrier word (R114, R203), or why it cannot be made. No address or no count makes no arrival. -/
def State.arriveAt (s : State) (rej : List Nat) (places : List TlbAt) (p : Who) (id va n : Nat) : State × Option Res :=
  if va = 0 ∨ n = 0 then (s, none)
  else
    let r := s.unitCheckRej rej places p 0x11 .atomic va 4
    match r.2 with
    | .ok bs =>
      if isOutside bs then
        (if s.portHeld p.part then (r.1, some .posted) else (r.1.unitAsk p id (2 ^ 64) true bs (bytesLE 4 n), none))
      else ((r.1.rmw p 0 4 bs (pbArrive n)).1, none)
    | e => (r.1, some e)

end Sys2Proof.Machine
end

