-- ==== Sys2Proof/Machine/Engines.lean ====
section
/-! DEFINITION. The steps of the block-transfer engines: copies and collectives (R109, R121, R226 to R230, R353). -/

namespace Sys2Proof.Machine

/-! ### The elements of a command (R219, R227) -/

def cmdExt (c : Cmd) (k : Nat) : Nat := c.extent.getD k 1
/-- How many elements a copy moves. -/
def Cmd.elems (c : Cmd) : Nat := cmdExt c 0 * cmdExt c 1 * cmdExt c 2 * cmdExt c 3

/-- The index vector of element k, dimension 0 first. -/
def Cmd.vec (c : Cmd) (k : Nat) : List Nat :=
  let a := max (cmdExt c 0) 1
  let b := max (cmdExt c 1) 1
  let d := max (cmdExt c 2) 1
  [k % a, k / a % b, k / (a * b) % d, k / (a * b * d)]

/-- Two index vectors added. -/
def vadd (a b : List Nat) : List Nat := (List.range 4).map (fun k => a.getD k 0 + b.getD k 0)

/-- The source index of element k; none in gather-rows mode while its row is not read yet. -/
def Cmd.srcAt (c : Cmd) (k : Nat) : Option (List Nat) :=
  let x := c.vec k
  if c.mode = 1 then
    (kget c.idx (x.getD 1 0)).map (fun r => [c.origin.getD 0 0 + x.getD 0 0, r, c.origin.getD 2 0, c.origin.getD 3 0, 0])
  else some (vadd c.origin x ++ [0])

/-- The destination index of element k. -/
def Cmd.dstAt (c : Cmd) (k : Nat) : List Nat := vadd c.dorigin (c.vec k) ++ [0]

/-- The elements a copy touches for element k: which access, address, size. -/
def Cmd.touches (c : Cmd) (k : Nat) : List (Acc × Nat × Nat) :=
  (match c.srcAt k with
   | some x => if c.src.inBounds x then [(Acc.load, c.src.addr x, fmtSize c.src.fmt)] else []
   | none => []) ++
  (if c.dst.inBounds (c.dstAt k) then [(Acc.store, c.dst.addr (c.dstAt k), fmtSize c.dst.fmt)] else [])

/-- The pages of the global window that element k touches. -/
def Cmd.pagesAt (c : Cmd) (k : Nat) : List Nat :=
  dedup (((c.touches k).filter (fun t => windowAt t.2.1 == .global)).map (fun t => t.2.1 / 2 ^ 14))

/-- The first element that is not done. -/
def Cmd.firstLeft (c : Cmd) : Option Nat := (List.range c.elems).find? (fun k => !c.wrote.contains k)
/-- Every element before k is done. -/
def Cmd.doneBefore (c : Cmd) (k : Nat) : Bool := (List.range k).all (fun j => c.wrote.contains j)
/-- No data moves behind a page that has not been scouted (R227). -/
def Cmd.scoutedTo (c : Cmd) (k : Nat) : Bool := (c.pagesAt k).all (fun g => c.scouted.contains g)

/-- The format of a tensor element. -/
def fmtOf (f : Nat) : Fmt :=
  if f = 0 then e4m3 else if f = 1 then e5m2 else if f = 2 then bf16 else if f = 3 then f16 else f32

/-- The conversion of R226. -/
def convertElem (a b v : Nat) : Nat := if a = b then v else (cvtF (fmtOf a) (fmtOf b) .rne false v).1

/-! ### The party a command is -/

/-- A command as a party of the checks. -/
def State.cmdWho (s : State) (e : Nat) (c : Cmd) : Who :=
  { part := c.part, ctx := c.ctx, view := 0, core := c.core, blk := c.blk.getD s.nextUid, launch := c.launch.getD s.nextUid,
    wid := 960 + e, tile := true }

/-- The engine of a command, and the command, when it may take a step: it runs and it waits for no page (R228). After the halt of
its partition's session it goes on up to its next port access (R330). -/
def State.running (s : State) (e : Nat) : Option (Engine × Cmd) :=
  match (s.engine e).run with
  | some c => if c.paused.isNone && decide (s.sess c.part < 4) && !s.power.halted then some (s.engine e, c) else none
  | none => none

def State.putRun (s : State) (e : Nat) (c : Cmd) : State := s.setEngine e { s.engine e with run := some c }

/-- A driver-class fault of an engine: the command pauses on the page (R228, R302). -/
def State.pauseRun (s : State) (e : Nat) (c : Cmd) (acc : Acc) (va kind page : Nat) : State :=
  (s.outstanding c.part c.ctx page va kind acc.code (if c.coll then 4 else 2) e).putRun e { c with paused := some page }

/-- What a failed check of element k does: the command pauses, or it stops once every earlier element is done (R228). -/
def State.cmdFail (s : State) (e : Nat) (c : Cmd) (before : Bool) (acc : Acc) (va : Nat) (r : Res) : State :=
  match r with
  | .driver kind page => s.pauseRun e c acc va kind page
  | .prog cause info => if before then s.putRun e { c with stop := some (cause, va, info) } else s
  | _ => s

/-- ENGINE_COMMAND_START (R226): the next queued command runs. -/
def execEngineCommandStart (eng : Nat) (s : State) : Out :=
  let x := s.engine eng
  .next (match x.run, x.queue with
    | none, c :: t =>
      if s.sess c.part < 4 ∧ !s.power.halted then s.setEngine eng { x with run := some { c with since := s.timebase }, queue := t } else s
    | _, _ => s)

/-! ### Copies -/

/-- The pages ahead of the data that a scout of element k would have translated (R227). -/
def Cmd.ahead (c : Cmd) (k : Nat) : Nat :=
  let w := c.firstLeft.getD k
  let here := c.pagesAt w
  ((dedup (((List.range (k + 1 - w)).map (w + ·)).flatMap c.pagesAt)).filter (fun g => !here.contains g)).length

/-- The scout checks the touches of an element in turn. -/
def State.scoutAll (s : State) (e : Nat) (c : Cmd) (k : Nat) : List (Acc × Nat × Nat) → State
  | [] =>
    let c := { c with scouted := dedup (c.scouted ++ c.pagesAt k) }
    s.putRun e (if c.mode = 2 then { c with wrote := c.wrote ++ [k] } else c)
  | (acc, va, n) :: t =>
    let r := s.unitCheckRej c.rejected [.engine e] (s.cmdWho e c) 0x11 acc va n
    match r.2 with
    | .ok _ => r.1.scoutAll e c k t
    | f => r.1.cmdFail e c (c.doneBefore k) acc va f

/-- SCOUT (R227, R228): the pages of element k are translated, in the order of the walk. -/
def execScout (eng k : Nat) (s : State) : Out :=
  .next (match s.running eng with
    | some (_, c) =>
      if !c.coll && c.stop.isNone && decide (k < c.elems) && (c.srcAt k).isSome && !c.wrote.contains k &&
          (List.range k).all c.scoutedTo && decide (c.ahead k ≤ c.scout) then s.scoutAll eng c k (c.touches k)
      else s
    | none => s)

/-- Read an element's bytes for a command: the value and its level, a fault, or a wait. -/
def State.cmdRead (s : State) (e : Nat) (c : Cmd) (lane va n : Nat) : State × Except Res (Nat × Nat) :=
  let p := s.cmdWho e c
  let r := s.unitCheckRej c.rejected [.engine e] p 0x11 .load va n
  match r.2 with
  | .ok bs =>
    if s.portHeld c.part && isOutside bs then (s, .error .posted)
    else
    let q := r.1.unitRead p c.id lane bs
    match q.2 with
    | .bytes vs => (q.1, .ok (natLE vs, bs.foldl (fun m b => max m b.lev) 0))
    | .prog k i => (q.1, .error (.prog k i))
    | .outside => (q.1, .error .posted)
  | f => (r.1, .error f)

/-- An element of a copy is read: +0 where the source does not hold it (R227). Keys from `elems` up are index rows. -/
def State.copyRead (s : State) (e : Nat) (c : Cmd) (k : Nat) : State :=
  let n := c.elems
  if k < n then
    match c.srcAt k with
    | some x =>
      if (kget c.rd k).isSome || !c.scoutedTo k then s
      else if !c.src.inBounds x then s.putRun e { c with rd := kput c.rd k (0, 0) }
      else
        let va := c.src.addr x
        let r := s.cmdRead e c k va (fmtSize c.src.fmt)
        match r.2 with
        | .ok v => r.1.putRun e { c with rd := kput c.rd k v }
        | .error f => r.1.cmdFail e c (c.doneBefore k) .load va f
    | none => s
  else
    let j := k - n
    if c.mode != 1 || j ≥ cmdExt c 1 || (kget c.idx j).isSome then s
    else
      let va := (c.gather + 4 * j) % 2 ^ 64
      let r := s.cmdRead e c k va 4
      match r.2 with
      | .ok v => r.1.putRun e { c with idx := kput c.idx j v.1 }
      | .error f => r.1.cmdFail e c (c.doneBefore (j * cmdExt c 0)) .load va f

/-- Data that a command sends off the device, enciphered by the record of its device source, if it has one (R327). -/
def State.sealFrom (s : State) (c : Cmd) (src : Option Nat) (vs : List Byte) : List Byte :=
  match src.bind (s.vaToPa c.part c.ctx) with
  | some pa => if pa < devTop then s.cipher c.part true pa vs else vs
  | none => vs

/-- A write of a command: its level against the destination's (R325), then the merge stage, or the port. -/
def State.cmdWrite (s : State) (e : Nat) (c : Cmd) (lane wid va lev : Nat) (src : Option Nat) (vs : List Byte) : State × Option Res :=
  let p := s.cmdWho e c
  let r := s.unitCheckRej c.rejected [.engine e] p 0x11 .store va vs.length
  match r.2 with
  | .ok bs =>
    match bs.find? (fun b => decide (lev > b.lev)) with
    | some b => (r.1, some (.prog 0x12 (lev + 16 * b.lev)))
    | none =>
      if isOutside bs then
        (if s.portHeld c.part then (s, some .posted) else (r.1.unitSend p c.id lane true bs (r.1.sealFrom c src vs), none))
      else (r.1.unitWrite p c.id lane wid c.launch bs vs, none)
  | f => (r.1, some f)

/-- An element of a copy is written, converted (R226); where the destination does not hold it nothing is written. -/
def State.copyWrite (s : State) (e : Nat) (c : Cmd) (k : Nat) : State :=
  match kget c.rd k with
  | none => s
  | some (v, lev) =>
    if k ≥ c.elems || c.mode = 2 || c.wrote.contains k || !c.scoutedTo k then s
    else
      let c' := { c with wrote := c.wrote ++ [k] }
      if !c.dst.inBounds (c.dstAt k) then s.putRun e c'
      else
        let va := c.dst.addr (c.dstAt k)
        let src := (c.srcAt k).bind (fun x => if c.src.inBounds x then some (c.src.addr x) else none)
        let r := s.cmdWrite e c k (960 + e) va lev src (bytesLE (fmtSize c.dst.fmt) (convertElem c.src.fmt c.dst.fmt v))
        match r.2 with
        | none => r.1.putRun e c'
        | some f => r.1.cmdFail e c (c.doneBefore k) .store va f

/-! ### Collectives (R230) -/

/-- Elements the rank's DST receives. -/
def Cmd.collOut (c : Cmd) : Nat :=
  if c.ckind = 2 then c.count * c.nranks else if c.ckind = 3 ∨ c.ckind = 4 then c.count / max c.nranks 1 else c.count

/-- The rank sends its SRC: every rank but the receivers of a broadcast. -/
def Cmd.sends (c : Cmd) : Bool := c.ckind != 5 || c.root == c.myrank

/-- The element of the rank's own SRC that DST element e holds unchanged: in all-gather its own part, in a broadcast the
root's. -/
def Cmd.ownElem (c : Cmd) (e : Nat) : Option Nat :=
  if c.ckind = 2 then (if e / max c.count 1 = c.myrank then some (e % max c.count 1) else none)
  else if c.ckind = 5 then (if c.root = c.myrank then some e else none)
  else none

/-- The sum of the ranks' elements in ascending rank, RNE in the KIND's format (R230). -/
def collSum (kind : Nat) : List Nat → Nat
  | [] => 0
  | x :: t => t.foldl (fun a b => (addF (if kind = 1 ∨ kind = 4 then bf16 else f32) .rne false a b).1) x

/-- An own SRC element is read; it is sent to every other rank, for which its level must not exceed PEERLEVEL (R325). -/
def State.collRead (s : State) (e : Nat) (c : Cmd) (k : Nat) : State :=
  if k ≥ c.count || !c.sends || (kget c.rd k).isSome then s
  else
    let n := collBytes c.ckind
    let va := (c.csrc + n * k) % 2 ^ 64
    let r := s.cmdRead e c k va n
    match r.2 with
    | .ok (v, lev) =>
      if lev > s.preg c.part .peerLevel then r.1.cmdFail e c true .load va (.prog 0x12 (lev + 16 * s.preg c.part .peerLevel))
      else if decide (2 ≤ s.sess c.part) then s
      else
        let outs := (((List.range c.nranks).filter (· != c.myrank)).map (fun q => (c.group.getD q 0, k, s.sealFrom c (some va) (bytesLE n v))))
        let s := { r.1 with out := { r.1.out with peers := r.1.out.peers ++ outs } }
        s.putRun e { c with rd := kput c.rd k (v, lev) }
    | .error f => r.1.cmdFail e c true .load va f

/-- A DST element is written with a value. -/
def State.collPut (s : State) (e : Nat) (c : Cmd) (k wid v lev : Nat) : State :=
  let n := collBytes c.ckind
  let va := (c.cdst + n * k) % 2 ^ 64
  let r := s.cmdWrite e c (2 ^ 44 + k) wid va lev (some ((c.csrc + n * k) % 2 ^ 64)) (bytesLE n v)
  match r.2 with
  | none => r.1.putRun e { c with wrote := c.wrote ++ [k] }
  | some f => r.1.cmdFail e c true .store va f

/-- A DST element that depends on the rank's own data alone is written by the engine. -/
def State.collWrite (s : State) (e : Nat) (c : Cmd) (k : Nat) : State :=
  match (c.ownElem k).bind (kget c.rd) with
  | some (v, lev) => if k < c.collOut ∧ !c.wrote.contains k then s.collPut e c k (960 + e) v lev else s
  | none => s

/-- COLLECTIVE_INBOUND_WRITE (R116, R230): element e of DST arrives over a port; `vals` holds the value each rank sent, the
own rank's place being filled with what the engine has read. -/
def execCollectiveInboundWrite (eng port e : Nat) (vals : List Nat) (s : State) : Out :=
  .next (match s.running eng with
    | some (_, c) =>
      if !c.coll || c.stop.isSome || e ≥ c.collOut || c.wrote.contains e || (c.ownElem e).isSome || port ≥ 20 ||
          s.fabric.down.contains port then s
      else
        let peerLev := s.preg c.part .peerLevel
        let n := collBytes c.ckind
        let val (q : Nat) : Nat :=
          let vs := bytesLE n (vals.getD q 0)
          match s.vaToPa c.part c.ctx ((c.cdst + n * e) % 2 ^ 64) with
          | some pa => if pa < devTop then natLE (s.cipher c.part false pa vs) else natLE vs
          | none => natLE vs
        if c.ckind = 2 then s.collPut eng c e (1024 + port) (val (e / max c.count 1)) peerLev
        else if c.ckind = 5 then s.collPut eng c e (1024 + port) (val c.root) peerLev
        else
          let own := if c.ckind = 3 ∨ c.ckind = 4 then c.myrank * (c.count / max c.nranks 1) + e else e
          match kget c.rd own with
          | none => s
          | some (v, lev) =>
            let xs := (List.range c.nranks).map (fun q => if q = c.myrank then v else val q)
            s.collPut eng c e (1024 + port) (collSum c.ckind xs) (max lev peerLev)
    | none => s)

/-- ENGINE_READ (R109). -/
def execEngineRead (eng k : Nat) (s : State) : Out :=
  .next (match s.running eng with
    | some (_, c) => if c.stop.isSome then s else if c.coll then s.collRead eng c k else s.copyRead eng c k
    | none => s)

/-- ENGINE_WRITE (R109). -/
def execEngineWrite (eng k : Nat) (s : State) : Out :=
  .next (match s.running eng with
    | some (_, c) => if c.stop.isSome then s else if c.coll then s.collWrite eng c k else s.copyWrite eng c k
    | none => s)

/-! ### Completion (R121, R228 to R230, R353) -/

/-- The entries that wait for a ticket go on: an acquire, and with status 2 the stopped command's cause (R229). -/
def State.wakeTicket (s : State) (c : Cmd) (status cause addr info : Nat) : State :=
  s.warps.foldl (fun st w =>
    match st.who w.1 with
    | some p =>
      if p.part = c.part ∧ p.ctx = c.ctx then
        (w.2.frontier.filter (fun x => match x.st with
          | .waiting (.ewait t) => t.toNat == c.ticket
          | _ => false)).foldl (fun st x =>
            let st := st.acquire p.view 4
            if status = 2 then st.takeTrap w.1 x.mask x.pc ⟨cause, info, addr, x.pc, none⟩
            else st.modWarp w.1 (fun y => { y.move x.mask x.next .ready with locked := true })) st
      else st
    | none => st) s

/-- The ranges of a command leave the range-lock table (R121). -/
def State.unlock (s : State) (id : Nat) : State :=
  { s with rl := s.rl.map (fun (d : Nat × KMap RlEntry) => (d.1, d.2.filter (fun k => k.2.cmd != id))) }

/-- A command leaves its engine: its ranges leave the table, its ticket has its status, its waiters go on, and its node may
complete. -/
def State.retireCmd (s : State) (e : Nat) (c : Cmd) (status cause addr info : Nat) : State :=
  let x := s.engine e
  let f : Finished := ⟨c.part, c.ctx, c.ticket, status, cause, addr, info⟩
  let s := s.setEngine e { x with run := none, fin := f :: x.fin.filter (fun y => y.ticket != c.ticket) }
  let s := s.unlock c.id
  let s := { s with ext := s.ext.filter (fun y => y.2.u != c.id || y.2.wr),
                    nodes := match c.node with
                      | some n => kmod s.nodes n (fun y => { y with finished := true, faulted := status == 2,
                                                                    stopCode := if status = 2 then (if c.coll then 5 else 4) else 0 })
                      | none => s.nodes }
  s.wakeTicket c status cause addr info

/-- COPY_COMPLETION (R121, R228): every element is done or the command has stopped, and every write is applied: the ranges leave
the table, then the arrival on DONE, then the end. -/
def execCopyCompletion (eng : Nat) (s : State) : Out :=
  .next (match s.running eng with
    | some (_, c) =>
      if c.coll || !(c.stop.isSome || c.firstLeft.isNone) || !s.unitApplied c.id (960 + eng) then s
      else
        let s := s.unlock c.id
        let r := s.arriveAt c.rejected [.engine eng] (s.cmdWho eng c) c.id c.done c.doneCount
        match r.2, c.stop with
        | some (.driver kind page), _ => r.1.pauseRun eng c .atomic c.done kind page
        | some .posted, _ => s
        | _, some (cause, addr, info) => r.1.retireCmd eng c 2 cause addr info
        | some (.prog cause info), none => r.1.retireCmd eng c 2 cause c.done info
        | _, none => r.1.retireCmd eng c 1 0 0 0
    | none => s)

/-- Every element this rank sends has been read and every element of DST written. -/
def Cmd.collDone (c : Cmd) : Bool :=
  (!c.sends || (List.range c.count).all (fun k => (kget c.rd k).isSome)) && (List.range c.collOut).all (fun k => c.wrote.contains k)

/-- The STATUS word: written and applied, or why not (R230). -/
def State.writeStatus (s : State) (e : Nat) (c : Cmd) (v : Nat) : State × Option Res :=
  if c.status = 0 then (s, none)
  else
    let p := s.cmdWho e c
    let r := s.unitCheckRej c.rejected [.engine e] p 0x11 .store c.status 4
    match r.2 with
    | .ok bs =>
      if s.portHeld c.part && isOutside bs then (s, some .posted)
      else
      let s := r.1.unitWrite p c.id (2 ^ 64 + 1) (960 + e) c.launch bs (bytesLE 4 v)
      (bs.foldl (fun st b => match b.loc with
        | .mem pa => st.apply pa
        | _ => st) s, none)
    | f => (r.1, some f)

/-- The end of a collective: STATUS, then the arrival on DONE (R230, R353). -/
def State.collEnd (s : State) (e : Nat) (c : Cmd) (status cause addr info : Nat) : State :=
  let a := (s.unlock c.id).writeStatus e c (status + cause * 256)
  match a.2 with
  | some (.driver kind page) => a.1.pauseRun e c .store c.status kind page
  | some .posted => s
  | _ =>
    let b := a.1.arriveAt c.rejected [.engine e] (a.1.cmdWho e c) c.id c.done c.doneCount
    match b.2 with
    | some (.driver kind page) => b.1.pauseRun e c .atomic c.done kind page
    | some .posted => s
    | some (.prog k i) =>
      if status = 1 then ((b.1.writeStatus e c (2 + k * 256)).1).retireCmd e c 2 k c.done i else b.1.retireCmd e c status cause addr info
    | _ => b.1.retireCmd e c status cause addr info

/-- COLLECTIVE_COMPLETION (R230): `cause` 0 is the end of its own work; 0x17 is a rank whose record differs, 0x18 a peer that
has not answered within the fabric's time-out. -/
def execCollectiveCompletion (eng cause : Nat) (s : State) : Out :=
  .next (match s.running eng with
    | some (_, c) =>
      if !c.coll || !s.unitApplied c.id (960 + eng) || (List.range 20).any (fun p => s.ms.any (fun w => w.wid == 1024 + p && w.eng)) then s
      else
        match c.stop with
        | some (k, addr, info) => s.collEnd eng c 2 k addr info
        | none =>
          if cause = 0x17 ∨ (cause = 0x18 ∧ c.since + s.dreg .fTimeout ≤ s.timebase) then s.collEnd eng c 2 cause 0 0
          else if cause = 0 ∧ c.collDone then s.collEnd eng c 1 0 0 0
          else s
    | none => s)

end Sys2Proof.Machine
end

