-- ==== Sys2Proof/Machine/Queues.lean ====
section
/-! DEFINITION. Launch queues and the graph walker's view of them: posts, node records, readiness and what the completion of a
node does (R224, R276 to R282). -/

namespace Sys2Proof.Machine

/-! ### Launch queues (R276) -/

def State.setQreg (s : State) (q : Nat) (f : QReg) (v : Nat) : State := s.setReg (.q q f) v

/-- A function sees a queue: the physical one every queue, a virtual one those bound to its partition. -/
def State.seesQueue (s : State) (fn q : Nat) : Bool := decide (q < 256) && (fn == 0 || functionOf (s.qreg q .part) == fn)

/-- A node is posted to a queue: while the ring is full or the queue accepts none it is discarded with OVF set (R276). -/
def State.postNode (s : State) (q addr : Nat) (posted : Bool) : State :=
  if s.ringFree q = 0 ∨ s.qreg q .en ≠ 1 then s.setQreg q .ovf 1 else s.enterNode q addr posted

/-- QPOST (R276): an 8-byte write appends a node address; a shorter one is ignored. -/
def execQpost (fn q size : Nat) (node : BitVec 64) (s : State) : Out :=
  .next (if s.seesQueue fn q && size == 8 then s.postNode q node.toNat true else s)

/-- QUEUE_RESUME (R276): HALT, QERR and QERRNODE are cleared. -/
def execQueueResume (fn q : Nat) (s : State) : Out :=
  .next (if s.seesQueue fn q then ((s.setQreg q .halt 0).setQreg q .qerr 0).setQreg q .qerrNode 0 else s)

/-- FLUSH (R276): the nodes of the ring that have not been dispatched are discarded. -/
def execFlush (fn q : Nat) (s : State) : Out :=
  .next (if s.seesQueue fn q then
      { s with nodes := s.nodes.filter (fun n => !(sget [] s.rings q).contains n.1), rings := kdel s.rings q }
    else s)

/-! ### Edges and readiness (R280, R282) -/

/-- Two ranges overlap and one of them is written (R282). -/
def rangesMeet (a b : Nat × Nat × Bool) : Bool := decide (a.1 < b.2.1 ∧ b.1 < a.2.1) && (a.2.2 || b.2.2)

/-- The partition and context of a node's queue (R277). -/
def State.nodePart (s : State) (n : Node) : Nat := s.qreg n.q .part
def State.nodeCtx (s : State) (n : Node) : Nat := s.qreg n.q .ctx

/-- The ranges of a node: as its record held them when it entered, or where it could not be read then as it holds them now. -/
def State.rangesOf (s : State) (n : Node) : Option (List (Nat × Nat × Bool)) :=
  match n.ranges with
  | some r => some r
  | none => s.rangesAt (s.nodePart n) (s.nodeCtx n) n.addr

/-- An implicit edge still holds a node: an earlier node of its queue that has not completed conflicts, or its ranges cannot be read yet
(R282; log 118). -/
def State.edgeHeld (s : State) (n : Node) (rs : List (Nat × Nat × Bool)) : Bool :=
  s.nodes.any (fun e => e.2.q == n.q && decide (e.2.order < n.order) &&
    match s.rangesOf e.2 with
    | some as => as.any (fun a => rs.any (rangesMeet a))
    | none => true)

/-- The priority at which a node may be dispatched, when it is ready (R280). A node that waits for the driver's page is not
offered again meanwhile. -/
def State.nodeReady (s : State) (n : Node) : Option Nat :=
  let part := s.nodePart n
  let ctx := s.nodeCtx n
  match s.readNode part ctx n.addr with
  | .fields v =>
    if nodePred v = 0 ∧ !s.edgeHeld n ((s.rangesOf n).getD []) then some (if n.posted then s.qreg n.q .prio else nodePrio v) else none
  | .bad => some (s.qreg n.q .prio)
  | .wait _ _ page => if (s.part part).outst.any (fun o => o.ctx == ctx && o.page == page) then none else some (s.qreg n.q .prio)

/-- The nodes of a partition's queues that the walker may dispatch (R279, R280, R330). -/
def State.readyNodes (s : State) (p : Nat) : List (Nat × Nat × Node) :=
  s.nodes.filterMap (fun e =>
    if (sget [] s.rings e.2.q).contains e.1 && s.qreg e.2.q .part == p && s.qreg e.2.q .halt == 0 &&
        decide (s.sess p < 2) && !s.power.emerg then
      (s.nodeReady e.2).map (fun k => (k, e.1, e.2))
    else none)

/-- The node the walker dispatches next: the highest priority, then the order of entry (R280). -/
def State.nextNode (s : State) (p : Nat) : Option (Nat × Node) :=
  (leastBy (fun e => (7 - e.1) * 2 ^ 64 + e.2.2.order) (s.readyNodes p)).map (fun e => e.2)

/-! ### The walker's own accesses -/

/-- The lowest logical core of a partition. -/
def State.firstCore (s : State) (p : Nat) : Nat :=
  (((List.range 192).find? (fun k => (s.part p).clusters.testBit k)).getD 0) * 4

/-- The walker and the dispatcher as a party of the checks. -/
def State.walkWho (s : State) (p ctx : Nat) : Who :=
  { part := p, ctx := ctx, view := 0, core := s.firstCore p, blk := s.nextUid, launch := s.nextUid, wid := 0, tile := true }

/-- A write at the target at once: every copy of the line is propagated and dropped, the waiting writes of the byte applied,
then the byte (R114). -/
def State.homePut (s : State) (pa : Nat) (v : Byte) : State :=
  (((s.cvDropAll (pa / lineBytes)).apply pa).setH pa v).rcDrop (pa / lineBytes)

/-- A release at system scope writes bytes in a context (R280, R288): its failure, if it has one. Bytes for the host or a peer
leave as a request under an identity. -/
def State.releaseWrite (s : State) (p ctx id va : Nat) (vs : List Byte) : State × Option Res :=
  let w := s.walkWho p ctx
  let r := s.unitCheck [] w 0x11 .store va vs.length
  match r.2 with
  | .ok bs =>
    if isOutside bs then (r.1.unitAsk w id 0 true bs vs, none)
    else ((bs.zip vs).foldl (fun st b => match b.1.loc with
      | .mem pa => st.homePut pa b.2
      | .spad blk o => st.spadWrite blk o b.2
      | .peer _ _ => st) r.1, none)
  | e => (r.1, some e)

/-! ### Completion (R281) -/

/-- The core views of a partition. -/
def State.viewsIn (s : State) (p : Nat) : List Nat :=
  (s.cores.map (·.1)).filter (fun v => (s.part p).clusters.testBit (viewCluster v))

/-- The physical pages of a range, with the part of each the range covers. -/
def State.rangePages (s : State) (p ctx lo hi : Nat) : List (Nat × Nat) :=
  (List.range ((hi + 2 ^ 14 - 1) / 2 ^ 14 - lo / 2 ^ 14)).filterMap (fun k =>
    let page := (lo / 2 ^ 14 + k) * 2 ^ 14
    (s.vaToPa p ctx page).map (fun pa => (pa + (max lo page - page), pa + (min hi (page + 2 ^ 14) - page))))

/-- A line lies in a part of physical memory. -/
def lineIn (ps : List (Nat × Nat)) (line : Nat) : Bool :=
  ps.any (fun x => decide (x.1 < (line + 1) * lineBytes ∧ line * lineBytes < x.2))

/-- Propagate and apply a view's dirty line. -/
def State.writeBack (s : State) (v line : Nat) : State := (s.propagate v line).applyLine line

/-- The task boundary (R281): dirty lines of the written ranges are propagated and applied, clean copies of the read ranges
dropped. -/
def State.nodeBoundary (s : State) (p ctx : Nat) (rs : List (Nat × Nat × Bool)) : State :=
  let at_ (w : Bool) : List (Nat × Nat) := (rs.filter (fun r => r.2.2 == w)).flatMap (fun r => s.rangePages p ctx r.1 r.2.1)
  let ws := at_ true
  let ds := at_ false
  (s.viewsIn p).foldl (fun st v =>
    let ls := (st.core v).cv.map (·.1)
    let st := (ls.filter (lineIn ws)).foldl (fun st l => st.writeBack v l) st
    (ls.filter (lineIn ds)).foldl (fun st l => st.refresh v l) st) s

/-- The successor list of a node and its continuations (R224). -/
def State.succs (s : State) (p ctx : Nat) : Nat → Nat → List Nat
  | 0, _ => []
  | fuel + 1, at_ =>
    let xs := (List.range 6).map (fun k => (s.vRead p ctx (at_ + 0x10 + 8 * k) 8).getD 0)
    let here := xs.takeWhile (· != 0)
    if here.length < 6 then here
    else
      let next := (s.vRead p ctx (at_ + 0x40) 8).getD 0
      if next = 0 then here else here ++ s.succs p ctx fuel next

/-- One successor (R281): PRED is decremented atomically; at 0 it enters the queue. A PRED already 0 is a node error; so is a
queue of another partition, and an address that cannot be used has its own code. -/
def State.release1 (s : State) (n : Node) (p ctx : Nat) (a : Nat) : State :=
  if a % 128 != 0 || a ≥ top57 then s.haltQueue n.q 1 n.addr p
  else
    let r := s.unitCheck [] (s.walkWho p ctx) 0x11 .atomic (a + 4) 4
    match r.2 with
    | .ok bs =>
      let q := r.1.rmw (s.walkWho p ctx) 0 4 bs (fun v => if v = 0 then 0 else v - 1)
      if q.2.1 = 0 then q.1.haltQueue n.q 2 n.addr p
      else if q.2.1 = 1 then
        (if q.1.qreg n.queue .part = p then q.1.postNode n.queue a false else q.1.haltQueue n.q 2 n.addr p)
      else q.1
    | _ => r.1.haltQueue n.q 1 n.addr p

/-- A node that a sub-graph has reached completes, and its successors are reached: with nothing left the sub-graph completes (R281). -/
def Node.reached (n : Node) (k : Nat × Nat) (next : List (Nat × Nat)) : Node :=
  if n.running && n.reach.contains k then
    let r := (dedup (n.reach ++ next)).filter (· != k)
    { n with reach := r, finished := n.finished || r.isEmpty }
  else n

/-- A node of a partition has completed, for every sub-graph that has reached it. -/
def State.reachDone (s : State) (p : Nat) (k : Nat × Nat) (next : List (Nat × Nat)) : State :=
  { s with nodes := s.nodes.map (fun (e : Nat × Node) => (e.1, if s.nodePart e.2 = p then e.2.reached k next else e.2)) }

/-- A node completes (R281), as faulted with a code other than 0 (R279). -/
def State.completeNode (s : State) (id : Nat) (n : Node) (code : Nat) : State :=
  let p := s.nodePart n
  let ctx := s.nodeCtx n
  let s := s.nodeBoundary p ctx (n.ranges.getD [])
  let next := if code = 0 then s.succs p ctx 65536 n.addr else []
  let s := if code = 0 then next.foldl (fun st a => st.release1 n p ctx a) s else s.haltQueue n.q code n.addr p
  State.reachDone { s with nodes := kdel s.nodes id } p (ctx, n.addr) (next.map (fun a => (s.qreg n.queue .ctx, a)))

/-- A page of a node's successor list or of a successor's PRED that the driver must bring first (R302). -/
def State.succWait (s : State) (n : Node) : Option (Nat × Nat × Nat) :=
  let p := s.nodePart n
  let ctx := s.nodeCtx n
  let wait (va : Nat) : Option (Nat × Nat × Nat) :=
    match s.walk p ctx va with
    | .driver k => some (va, k, va / 2 ^ 14 * 2 ^ 14)
    | _ => none
  match wait n.addr with
  | some x => some x
  | none => (s.succs p ctx 65536 n.addr).findSome? (fun a => wait (a + 4))

/-- NODE_COMPLETION (R281): a node whose work is done completes. -/
def execNodeCompletion (n : Nat) (s : State) : Out :=
  .next (match kget s.nodes n with
    | some x =>
      let sent := x.running && x.kind == 3 && s.ext.all (fun e => !(e.2.u == n && e.2.wr && e.2.answer.isNone))
      if !(x.finished || sent) then s
      else if x.faulted then s.completeNode n x x.stopCode
      else
        match s.succWait x with
        | some (va, k, page) => s.outstanding (s.nodePart x) (s.nodeCtx x) page va k 3 5 0
        | none => s.completeNode n x 0
    | none => s)

end Sys2Proof.Machine
end

