-- ==== Sys2Proof/Machine/Setup.lean ====
section
/-! DEFINITION. The smallest partition, launch and block that run one given word: what a driver's loads amount to before a program's
first instruction (log 10). -/

namespace Sys2Proof.Machine

/-- A launch record for one warp of one block, with a handler at 0x2_0000. -/
def LaunchRec.small (tile : Bool) : LaunchRec :=
  { entry := 0x10000, tentry := if tile then 0x10000 else 0, param := 0x30000, levels := [⟨1, 0, 0⟩, ⟨64, 1, 0⟩, ⟨1, 2, 1⟩],
    det := false, replay := false, record := false, overcommit := false, checkstall := false, measure := false, prio := 0,
    roles := [⟨1, 4, 0⟩], spad := 4096, priv := 4096, bars := 16, accmax := 4, frspill := 0, ofbudget := 0, sigaddr := 0,
    sigval := 0, erraddr := 0, trapentry := 0x20000, logbase := 0, logsize := 0 }

/-- A warp, or tile context, with its initial state (R11) standing at a PC. -/
def Warp.initial (blk : Nat) (tile : Bool) (wid role slot budget : Nat) (pc : DWord) : Warp :=
  { blk := blk, tile := tile, wid := wid, role := role, slot := slot, quarter := slot % 4, budget := budget,
    frontier := [⟨pc, if tile then 1 else -1, .ready, 0, false, pc⟩], wbase := 0, mods := [], lnOn := true, fair := 0, turn := none,
    trap := [], hlanes := 0, regs := [], preds := [], flags := [], lin := [], written := [], rlev := [], plev := [], clk := 0,
    queues := [], posted := [], sdrain := false, xw := none, gather := 0, haz := [], locked := false, tx := none, postmark := none,
    overrunTrap := false, passFaults := [], ended := false }

def Block.initial (launch bid core : Nat) : Block :=
  { launch := launch, bid := bid, core := core, spadBase := 0, privBase := 0, warps := [], tctx := none, spad := [], spLev0 := 0,
    spLev := [], bars := [], tiles := [], slots := [], vm := 128, vn := 128, vk := 128, accWait := none, ended := false,
    errWait := none, errGate := none, stopped := false, preempt := false, preemptAt := 0, tileStop := false, saveBase := 0 }

def Launch.initial (part ctx : Nat) (recAddr : Nat) (lr : LaunchRec) (seq : Nat) (node : Option Nat) : Launch :=
  { part := part, ctx := ctx, recAddr := recAddr, lr := lr, seq := seq, node := node, nextBlk := 0, retired := 0, saved := [],
    waitFrom := none, reserved := none, beat0 := none, beatLen := 500, diverged := false, overflow := [], chunks := [],
    cursor := [], gates := [], aborted := false, pass := 0, captured := [], counters := [], oldHash := [], oldHash1 := [], areas := [], units := [], capFull := false, sig := none, unitDies := [],
    ended := false }

/-- Partition 0 with slice group 0, context 0 with one 64 GiB page that maps virtual to physical addresses one to one,
readable, writable, executable and shared. -/
def State.mapOne (s : State) : State :=
  let s := s.setPart 0 { s.part 0 with created := true, clusters := 1, groups := 1 }
  let s := (s.setPreg 0 .ctxTab 0x1000).setPreg 0 .ctxCount 1
  ((s.setHNat 0x1000 8 0x4001).setHNat 0x4000 8 0x8001).setHNat 0x8000 8 63

/-- Place a word where the next step fetches it: a resident warp (a tile context when the word runs only there) whose PC is
the word's address, and that warp's issue next on the agenda. -/
def State.placeWord (s : State) (w : Nat) : State :=
  let tile := match decode (BitVec.ofNat 32 w) with
    | .ok i => decide (i.row.tile = .only)
    | .error _ => false
  let l := s.nextUid
  let b := s.nextUid + 1
  let u := s.nextUid + 2
  let s := s.mapOne.setHNat 0x10000 4 w
  let s := s.setLaunch l { Launch.initial 0 0 0x40000 (LaunchRec.small tile) 0 none with nextBlk := 1 }
  let blk := Block.initial l 0 0
  let s := s.setBlock b (if tile then { blk with tctx := some u } else { blk with warps := [u] })
  let s := s.setWarp u (Warp.initial b tile 0 (if tile then 4 else 0) 0 4 0x10000)
  { s with nextUid := s.nextUid + 3, agenda := [.issue u] }

end Sys2Proof.Machine
end

