-- ==== Sys2Proof/Machine/Special.lean ====
section
/-! DEFINITION. The special registers (R17, R211 to R213). -/

namespace Sys2Proof.Machine

/-- SIZE of a level as HSIZE reads it (R17). -/
def LaunchRec.hsize (lr : LaunchRec) (k : Nat) : Nat := (lr.levels[k]?).elim 1 (·.size)

/-- Warps of a block (R14): the product of SIZE from level 2 to the core-domain level, 1 without one. -/
def LaunchRec.blockWarps (lr : LaunchRec) : Nat :=
  match findIdxD (fun l => l.domain == 2) lr.levels 0 with
  | some (k, _) => ((lr.levels.take (k + 1)).drop 2).foldl (fun n l => n * l.size) 1
  | none => 1

/-- HCOORDk of a thread of a block (R17), for a warp of the block and a lane. -/
def LaunchRec.hcoord (lr : LaunchRec) (bid wid lane k : Nat) : Nat :=
  if k + 1 ≥ lr.levels.length then 0
  else
    let lin := (bid * lr.blockWarps + wid) * 64 + lane
    let below := ((lr.levels.take (k + 1)).drop 1).foldl (fun n l => n * l.size) 1
    lin / below % lr.hsize (k + 1)

/-- The current beat of a launch (R213, R267). -/
def State.ofBeat (s : State) (l : Launch) : Nat := s.timebase / l.beatLen - l.beat0.getD (s.timebase / l.beatLen)

/-- The value a special register has in a lane (R33, R213). HCOORD1 of a tile context is 0, as R33 says, also where no level is bound to
the core domain (log 113). -/
def State.special (s : State) (c : Ctx) (n lane : Nat) : Word :=
  let w := c.w
  let l := kget s.launches c.p.launch
  let bid := (kget s.blocks c.p.blk).elim 0 (·.bid)
  if 64 ≤ n then sget 0 w.mods n
  else if 34 ≤ n ∧ n ≤ 43 then w.trapReg n
  else if 24 ≤ n ∧ n ≤ 31 then BitVec.ofNat 32 (c.lr.hsize (n - 24))
  else if 16 ≤ n ∧ n ≤ 23 then 
    (if w.tile ∧ n ≤ 17 then 0 else BitVec.ofNat 32 (c.lr.hcoord bid (if w.tile then 0 else w.wid) (if w.tile then 0 else lane) (n - 16)))
  else match n with
  | 0 => BitVec.ofNat 32 (if w.tile then 0 else lane)
  | 1 => if w.tile then 1 else 64
  | 2 => BitVec.ofNat 32 (if w.tile then 0 else w.wid)
  | 3 => BitVec.ofNat 32 w.role
  | 4 => BitVec.ofNat 32 c.lr.param
  | 5 => BitVec.ofNat 32 (c.lr.param / 2 ^ 32)
  | 6 => BitVec.ofNat 32 c.p.core
  | 7 => BitVec.ofNat 32 (c.p.core / 192 * 192 + s.dreg (.lmPhys c.p.core))
  | 8 => BitVec.ofNat 32 (c.p.core / 4)
  | 9 => BitVec.ofNat 32 (c.p.core / 192)
  | 10 => BitVec.ofNat 32 c.p.ctx
  | 11 => BitVec.ofNat 32 s.timebase
  | 12 => BitVec.ofNat 32 (w.clk / 2 ^ 32)
  | 13 => BitVec.ofNat 32 w.wbase
  | 14 => c.is.mask.extractLsb' 0 32
  | 15 => c.is.mask.extractLsb' 32 32
  | 32 => (w.flagsOf lane).setWidth 32
  | 33 => BitVec.ofNat 32 (s.curLevel c.p.part c.p.ctx)
  | 44 => BitVec.ofNat 32 ((s.core c.p.core).sfq.filter (fun r => r.u == c.u)).length
  | 45 => storeHash (s.core c.p.core) c.p.launch
  | 46 => BitVec.ofNat 32 (l.elim 0 s.ofBeat)
  | _ => 0

/-- The root value of a lineage key (R63). -/
def rootValue (n : Nat) (v : Word) : Word := if n = 4 ∨ n = 5 ∨ (24 ≤ n ∧ n ≤ 31) then v else 0

/-- `mfs` (R211): reading CLKLO captures the timebase for the warp. -/
def execMfs (i d : BitVec 7) (s : State) : Out :=
  match front (.mfs i d) s with
  | .stop t => .next t
  | .go c t =>
    let n := i.toNat
    let c' := if n = 11 ∧ c.m ≠ 0 then { c with w := { c.w with clk := t.timebase } } else c
    .next (c'.finishReg t d.toNat 1 (fun l => ([t.special c n l], 0)) c.row.cls (rootValue n (t.special c n c.low)))

/-- Write a warp's special register (R212, R213): read-only registers keep their value. -/
def Warp.writeSpecial (w : Warp) (n : Nat) (v : Word) : Warp :=
  if 64 ≤ n ∧ n < 128 then { w with mods := sset 0 w.mods n v }
  else if n = 34 then w.setTrapReg n (v &&& 0xFF)
  else if 35 ≤ n ∧ n ≤ 43 then w.setTrapReg n v
  else w

/-- `mts` (R212): FPFLAGS lane by lane, every other register from the lowest lane of M. -/
def execMts (i a : BitVec 7) (s : State) : Out :=
  warpOp (.mts i a) s (fun c t =>
    let n := i.toNat
    let w := if c.m = 0 then c.w
      else if n = 32 then (lanesOf c.m).foldl (fun w l =>
        { w with flags := sset 0 w.flags l ((c.rd a.toNat l).extractLsb' 0 5) }) c.w
      else c.w.writeSpecial n (c.rd a.toNat c.low)
    (t.setWarp c.u w).done c c.is.mask)

end Sys2Proof.Machine
end

