-- ==== Sys2Proof/Machine/Launches.lean ====
section
/-! DEFINITION. Launch records, their refusal, and the walker's dispatch of a node (R13 to R15, R18, R270, R274, R275, R278 to
R280, R291, R293). -/

namespace Sys2Proof.Machine

/-! ### Launch records (R274) -/

/-- The launch record in 256 bytes. -/
def LaunchRec.of (v : Nat) : LaunchRec :=
  let flag (k : Nat) : Bool := (fld v 0x18 13 8).testBit k
  { entry := fld v 0x00 63 0, tentry := fld v 0x08 63 0, param := fld v 0x10 63 0,
    levels := (List.range (min 8 (fld v 0x18 3 0))).map (fun k =>
      ⟨fld v (0x20 + 8 * k) 31 0, fld v (0x20 + 8 * k) 35 32, fld v (0x20 + 8 * k) 39 36⟩),
    det := flag 0, replay := flag 1, record := flag 2, overcommit := flag 3, checkstall := flag 4, measure := flag 5,
    prio := fld v 0x1C 2 0,
    roles := (List.range 4).map (fun r => ⟨fld v (0x60 + 8 * r) 7 0, fld v (0x60 + 8 * r) 15 8, fld v (0x60 + 8 * r) 63 32⟩),
    spad := fld v 0x80 31 0, priv := fld v 0x84 31 0, bars := fld v 0x88 15 0, accmax := fld v 0x8A 7 0, frspill := fld v 0x8B 7 0,
    ofbudget := fld v 0x8C 15 0, sigaddr := fld v 0x90 63 0, sigval := fld v 0x98 31 0, erraddr := fld v 0xA0 63 0,
    trapentry := fld v 0xA8 63 0, logbase := fld v 0xB0 63 0, logsize := fld v 0xB8 63 0 }

/-- The reserved bits of a launch record are 0 (R274), and the entries of unused levels (R13). -/
def launchRsv (v : Nat) : Bool :=
  fld v 0x18 7 4 == 0 && fld v 0x18 31 14 == 0 && fld v 0x1C 31 3 == 0 && fld v 0x8E 15 0 == 0 && fld v 0x98 63 32 == 0 &&
    fld v 0xC0 511 0 == 0 && (List.range 4).all (fun r => fld v (0x60 + 8 * r) 31 16 == 0) &&
    (List.range 8).all (fun k => fld v (0x20 + 8 * k) 63 40 == 0 && (decide (k < fld v 0x18 3 0) || fld v (0x20 + 8 * k) 63 0 == 0))

/-- The fields of a launch record keep their table (R274). -/
def LaunchRec.fieldsOk (l : LaunchRec) : Bool :=
  decide (l.entry < top57) && l.entry % 4 == 0 && l.roles.all (fun r => r.entryOff % 4 == 0) && decide (l.spad ≤ 2 ^ 20) &&
    l.priv % 16 == 0 && decide (l.priv ≤ 2 ^ 20) && decide (l.bars ≤ 512) && decide (l.accmax ≤ 16) &&
    (l.tentry != 0 || l.accmax == 0) && decide (l.frspill ≤ 120) && l.sigaddr % 4 == 0 && l.erraddr % 8 == 0 && l.logbase % 16 == 0

/-- The narrowest SCOPE a DOMAIN allows (R13). -/
def domainScope (d : Nat) : Nat := if d ≤ 1 then 0 else if d ≤ 4 then d - 1 else 4

/-- Domains never decrease along the levels (R13). -/
def domainsRise : List Level → Bool
  | a :: b :: t => decide (a.domain ≤ b.domain) && domainsRise (b :: t)
  | _ => true

/-- The hierarchy keeps R13. -/
def levelsOk (ls : List Level) : Bool :=
  decide (2 ≤ ls.length ∧ ls.length ≤ 8) && ls[0]? == some ⟨1, 0, 0⟩ && ls[1]? == some ⟨64, 1, 0⟩ &&
    ls.all (fun l => decide (1 ≤ l.size ∧ l.domain ≤ 6 ∧ l.scope ≤ 5 ∧ domainScope l.domain ≤ l.scope)) && domainsRise ls &&
    decide ((ls.filter (fun l => l.domain == 2)).length ≤ 1)

/-- The roles share out the block's warps (R18). -/
def LaunchRec.rolesOk (l : LaunchRec) : Bool :=
  l.roles.foldl (fun n r => n + r.warps) 0 == l.blockWarps && decide (l.blockWarps ≤ 64) &&
    l.roles.all (fun r => r.warps == 0 || decide (1 ≤ r.budget ∧ r.budget ≤ 16))

/-- Where the levels above the block begin (R14). -/
def LaunchRec.above (l : LaunchRec) : Nat := match findIdxD (fun x => x.domain == 2) l.levels 0 with
  | some (k, _) => k + 1
  | none => 2
/-- Blocks in one unit of the levels up to index k. -/
def LaunchRec.blocksTo (l : LaunchRec) (k : Nat) : Nat := ((l.levels.take (k + 1)).drop l.above).foldl (fun n x => n * x.size) 1
/-- Blocks of the grid. -/
def LaunchRec.grid (l : LaunchRec) : Nat := l.blocksTo 8
/-- The blocks of a unit of the highest level of a domain (R15). -/
def LaunchRec.unitOf (l : LaunchRec) (dom : Nat) : Option Nat :=
  match ((List.range l.levels.length).filter (fun k => (l.levels[k]?).any (fun x => x.domain == dom))).getLast? with
  | some k => some (l.blocksTo k)
  | none => none
/-- Registers a block takes of the quota (R19, R285). -/
def LaunchRec.regs (l : LaunchRec) : Nat := l.roles.foldl (fun n r => n + r.warps * 32 * r.budget) 0
/-- Tiles admission reserves (R243, R285). -/
def LaunchRec.tiles (l : LaunchRec) : Nat := if l.overcommit then 0 else l.accmax

/-- n blocks fit an empty core (R285). -/
def LaunchRec.fitsEmpty (l : LaunchRec) (n : Nat) : Bool :=
  decide (n * l.blockWarps ≤ 64 ∧ n * l.regs ≤ 3840 ∧ n * l.spad ≤ 2 ^ 20 ∧ n * l.bars ≤ 512 ∧ n * l.tiles ≤ 64 ∧
    (l.tentry = 0 ∨ n ≤ 16))

/-- The blocks of a cluster-domain unit that one core takes at most (R284). -/
def LaunchRec.onOneCore (l : LaunchRec) : Nat := match l.unitOf 3 with
  | some n => (n + 3) / 4
  | none => 1

/-- The log region keeps R270, and a replay's log did not overflow. -/
def State.logOk (s : State) (p ctx : Nat) (l : LaunchRec) : Bool :=
  decide (32 ≤ l.logsize) && l.logsize % 16 == 0 &&
    (!l.replay || (List.range 4).all (fun d => ((s.vRead p ctx (l.logbase + d * l.logsize + 4) 4).getD 0) % 2 == 0))

/-- A launch is refused (R275). -/
def State.refused (s : State) (p ctx : Nat) (v : Nat) : Bool :=
  let l := LaunchRec.of v
  !(launchRsv v && l.fieldsOk && decide (2 ≤ fld v 0x18 3 0 ∧ fld v 0x18 3 0 ≤ 8) && levelsOk l.levels && l.rolesOk &&
    !(l.replay && (l.record || l.measure)) && (!(l.record || l.replay || l.measure) || s.logOk p ctx l) && l.fitsEmpty 1 &&
    l.fitsEmpty l.onOneCore)

/-- The event codes of a partition's measurement session (R291). -/
def State.events (s : State) (p : Nat) : List Nat := (List.range (min 16 (s.preg p .nevt))).map (fun k => s.preg p (.evt k))
/-- A measured launch finds a session (R293). -/
def State.sessionOk (s : State) (p : Nat) : Bool :=
  !(s.events p).isEmpty && (s.events p).all (fun e => decide (1 ≤ e ∧ e ≤ 10))

/-! ### Dispatch (R280) -/

/-- The log unit empties the regions of a recording launch (R270). -/
def State.logStart (s : State) (p ctx : Nat) (l : LaunchRec) : State :=
  if l.record then (List.range 4).foldl (fun st d => st.vWrite p ctx (l.logbase + d * l.logsize) (bytesLE 8 0)) s else s

/-- A launch starts: its sequence number, its beat length, its log (R270, R283, R291, R293). The first pass of a measured launch
runs as RECORD. -/
def State.startLaunch (s : State) (p ctx target node : Nat) (v : Nat) : State :=
  let l0 := LaunchRec.of v
  let lr := if l0.measure then { l0 with record := true } else l0
  let x := s.part p
  let s := s.setPart p { x with lseq := x.lseq + 1 }
  let (id, s) := s.fresh
  let len := s.preg p .beatp * 250
  (s.setLaunch id { Launch.initial p ctx target lr x.lseq (some node) with beatLen := max len 1, waitFrom := some s.timebase }).logStart p ctx lr

/-- The node leaves its ring and is in flight. -/
def State.leaveRing (s : State) (id : Nat) (n : Node) : State :=
  { s with rings := sset [] s.rings n.q ((sget [] s.rings n.q).filter (· != id)), nodes := kput s.nodes id n }

/-- The code and completion of a node whose target record cannot be used, or the wait for its page (R218, R279). -/
def State.targetFail (s : State) (id : Nat) (n : Node) (src : Nat) (e : RecErr) : State :=
  match e with
  | .elem acc va (.driver kind page) => s.outstanding (s.nodePart n) (s.nodeCtx n) page va kind acc.code src 0
  | _ => (s.leaveRing id n).completeNode id n 2

/-- A kernel launch (R274, R275). -/
def State.dispatchKernel (s : State) (id : Nat) (n : Node) : State :=
  let p := s.nodePart n
  let ctx := s.nodeCtx n
  let r := s.readAligned (.walker p ctx) n.target 256 256
  match r.2 with
  | .error e => s.targetFail id n 6 e
  | .ok v =>
    let t := s.leaveRing id n
    if s.refused p ctx v then t.completeNode id n 3
    else if (LaunchRec.of v).measure && !s.sessionOk p then t.completeNode id n 7
    else t.startLaunch p ctx n.target id v

/-- A copy or a collective (R280): as `bcopy` and `coll` issue it, on the die of the partition's lowest cluster. While no engine or
no range-lock entry is free the node stays. -/
def State.dispatchCmd (s : State) (id : Nat) (n : Node) (coll : Bool) : State :=
  let p := s.nodePart n
  let ctx := s.nodeCtx n
  let w := s.walkWho p ctx
  let r : Rd (Cmd × Bool) :=
    rdThen (if coll then rdThen (s.readColl (.walker p ctx) n.target) (fun t x => (t, .ok (x, false)))
      else s.readCopy (.walker p ctx) n.target) (fun t x => rdThen (t.wordChecks w [] x.1.words) (fun t _ => (t, .ok x)))
  match r.2 with
  | .error e => s.targetFail id n 5 e
  | .ok (x, lock) =>
    match s.startCmd (w.core / 192) { x with part := p, ctx := ctx, core := w.core, node := some id } lock with
    | none => s
    | some (t, _) => t.leaveRing id n

/-- The interrupt vector and the notify word of a function (R278). -/
def State.notify (s : State) (fn v value : Nat) : State :=
  let base := s.reg (.ntfBase fn)
  let s := if base = 0 then s else s.setHs (hostBase + base % hostBase + 4 * v) (bytesLE 4 value)
  { s with out := { s.out with msix := s.out.msix ++ [(fn, v)] } }

/-- NODE_DISPATCH (R280): the walker dispatches the ready node of highest priority, the earliest on a tie. -/
def execNodeDispatch (p : Nat) (s : State) : Out :=
  .next (match s.nextNode p with
    | none => s
    | some (id, n0) =>
      let ctx := s.nodeCtx n0
      match s.readNode p ctx n0.addr with
      | .wait va kind page => s.outstanding p ctx page va kind 0 5 0
      | .bad => (s.leaveRing id n0).completeNode id n0 1
      | .fields v =>
        let n := { n0 with running := true, kind := nodeKind v, target := nodeTarget v, value := nodeValue v, queue := nodeQueue v,
                           ranges := some (n0.ranges.getD (nodeRanges v)) }
        let t := s.leaveRing id n
        if !nodeOk v then t.completeNode id n 2
        else
          match n.kind with
          | 0 => s.dispatchKernel id n
          | 1 => s.dispatchCmd id n false
          | 2 => s.dispatchCmd id n true
          | 3 =>
            if n.target % 4 != 0 then t.completeNode id n 2
            else
              let r := t.releaseWrite p ctx id n.target (bytesLE 4 n.value)
              match r.2 with
              | some (.driver kind page) => s.outstanding p ctx page n.target kind 1 5 0
              | some _ => t.completeNode id n 2
              | none => r.1
          | 4 =>
            if bits n.target 11 0 ≥ 2048 then t.completeNode id n 2
            else
              let t := t.notify (functionOf p) (bits n.target 11 0) n.value
              { t with nodes := kput t.nodes id { n with finished := true } }
          | _ =>
            if t.qreg n.queue .part = p then
              State.postNode { t with nodes := kput t.nodes id { n with reach := [(t.qreg n.queue .ctx, n.target)] } } n.queue n.target false
            else t.completeNode id n 2)

end Sys2Proof.Machine
end

