-- ==== Sys2Proof/Machine/Dispatcher.lean ====
section
/-! DEFINITION. Admission and placement of blocks, their retirement and the end of a launch (R11, R15, R18, R37, R263, R264,
R267, R272, R273, R283 to R286, R288, R293). -/

namespace Sys2Proof.Machine

/-! ### Resources (R285) -/

/-- The blocks resident on a core. -/
def State.blocksOn (s : State) (core : Nat) : List Block := (s.blocks.map (·.2)).filter (fun b => b.core == core)
/-- What the blocks in a list use of a resource. -/
def State.uses (s : State) (bs : List Block) (f : LaunchRec → Nat) : Nat :=
  bs.foldl (fun n b => n + (s.lrOf b.launch).elim 0 f) 0

/-- n more blocks of a launch fit a core, beside its cluster's tile contexts and tiles. -/
def State.fitsCore (s : State) (l : LaunchRec) (core n : Nat) : Bool :=
  let bs := s.blocksOn core
  decide (n * l.blockWarps + s.uses bs LaunchRec.blockWarps ≤ 64 ∧ n * l.regs + s.uses bs LaunchRec.regs ≤ 3840 ∧
    n * l.spad + s.uses bs (·.spad) ≤ 2 ^ 20 ∧ n * l.bars + s.uses bs (·.bars) ≤ 512)

/-- Tiles of a cluster's engine that no resident block has a claim on: ACCMAX of each, none of one with OVERCOMMIT (R285; log 114). -/
def State.tilesFit (s : State) (cl : Nat) : Nat :=
  64 - s.uses ((s.blocks.map (·.2)).filter (fun b => b.core / 4 == cl)) LaunchRec.tiles

/-- n more blocks of a launch fit a cluster's tile control core and matrix engine. -/
def State.fitsEngine (s : State) (l : LaunchRec) (cl n : Nat) : Bool :=
  (l.tentry == 0 || decide (n + ((s.blocks.filter (fun b => b.2.core / 4 == cl && b.2.tctx.isSome)).length) ≤ 16)) &&
    decide (n * l.tiles ≤ s.tilesFit cl)

/-- The lowest place for n bytes in a pool that meets no used range. -/
def gapFrom (used : List (Nat × Nat)) (hi n : Nat) : Nat → Nat → Option Nat
  | 0, _ => none
  | fuel + 1, at_ =>
    if at_ + n > hi then none
    else
      match used.find? (fun u => decide (u.1 < at_ + n ∧ at_ < u.1 + u.2)) with
      | none => some at_
      | some u => gapFrom used hi n fuel (u.1 + u.2)

/-- The sizes of a block's areas: frontier spill, private windows, accumulator save area (R25, R243, R285). The private windows
take in the tile context's (R33). -/
def LaunchRec.spillSize (l : LaunchRec) : Nat := 16 * max l.frspill 56 * l.blockWarps
def LaunchRec.privSize (l : LaunchRec) : Nat := l.priv * (64 * l.blockWarps + if l.tentry = 0 then 0 else 1)
def LaunchRec.saveSize (l : LaunchRec) : Nat := if l.overcommit then 131072 * l.accmax else 0

/-- The used ranges of a partition's pool. -/
def State.poolUsed (s : State) (p : Nat) (at_ : Area → Nat) (size : LaunchRec → Nat) : List (Nat × Nat) :=
  (s.launches.filter (fun l => l.2.part == p)).flatMap (fun l => l.2.areas.map (fun a => (at_ a, size l.2.lr)))

/-- A place in a pool. -/
def Pool.place (x : Pool) (used : List (Nat × Nat)) (n : Nat) : Option Nat :=
  gapFrom used (x.base + x.size) n (used.length + 1) x.base

/-- A block's areas: one the launch has kept, or new places in the three pools (R285, R288). -/
def State.takeArea (s : State) (lid bid : Nat) : Option (State × Area) :=
  match kget s.launches lid with
  | none => none
  | some l =>
    match l.areas.find? (fun a => a.bid.isNone) with
    | some a =>
      let a' := { a with bid := some bid }
      some (s.setLaunch lid { l with areas := a' :: l.areas.erase a }, a')
    | none =>
      let x := s.part l.part
      match x.spill.place (s.poolUsed l.part (·.spill) LaunchRec.spillSize) l.lr.spillSize,
            x.privPool.place (s.poolUsed l.part (·.priv) LaunchRec.privSize) l.lr.privSize,
            x.save.place (s.poolUsed l.part (·.save) LaunchRec.saveSize) l.lr.saveSize with
      | some a, some b, some c => some (s.setLaunch lid { l with areas := ⟨a, b, c, some bid⟩ :: l.areas }, ⟨a, b, c, some bid⟩)
      | _, _, _ => none

/-- The pools have areas for n more blocks. -/
def State.areasFor (s : State) (lid : Nat) : Nat → Bool
  | 0 => true
  | n + 1 =>
    match s.takeArea lid n with
    | some (t, _) => t.areasFor lid n
    | none => false

/-! ### Placement (R15, R284) -/

def State.clustersOf (s : State) (p : Nat) : List Nat := (List.range 192).filter (fun k => (s.part p).clusters.testBit k)
/-- The partition's logical cores, ascending. -/
def State.coresOf (s : State) (p : Nat) : List Nat := (s.clustersOf p).flatMap (fun k => [4 * k, 4 * k + 1, 4 * k + 2, 4 * k + 3])
def State.diesOf (s : State) (p : Nat) : List Nat := dedup ((s.coresOf p).map (· / 192))

/-- One launch comes before another: priority, then launch sequence number (R283). -/
def Launch.ahead (a b : Launch) : Bool := decide (b.lr.prio < a.lr.prio) || (a.lr.prio == b.lr.prio && decide (a.seq < b.seq))

/-- A core is kept for a launch that comes before this one (R283). -/
def State.keptFor (s : State) (l : Launch) (core : Nat) : Bool :=
  s.launches.any (fun h => h.2.part == l.part && h.2.ahead l && h.2.reserved == some core) || s.fleet.retiring.any (· / 4 == core / 4)

/-- One block of a launch fits a core, and the core is free for it. -/
def State.fitsHere (s : State) (l : Launch) (core : Nat) : Bool := s.fitsCore l.lr core 1 && s.fitsEngine l.lr (core / 4) 1
def State.fits1 (s : State) (l : Launch) (core : Nat) : Bool := s.fitsHere l core && !s.keptFor l core

/-- The cores of a unit of n blocks in a cluster: block j on core j mod 4. -/
def unitCores (cl n : Nat) : List Nat := (List.range n).map (fun j => 4 * cl + j % 4)

/-- A unit of n blocks fits a cluster at once. -/
def State.fitsUnit (s : State) (l : Launch) (n cl : Nat) : Bool :=
  s.fitsEngine l.lr cl n && (List.range 4).all (fun j =>
    let k := (unitCores cl n).filter (· == 4 * cl + j)
    k.isEmpty || (s.fitsCore l.lr (4 * cl + j) k.length && !s.keptFor l (4 * cl + j)))

/-- The die a block must go to, if its unit is bound to one (R15, R284). -/
def State.unitDieOf (s : State) (l : Launch) (bid : Nat) : Option Nat :=
  match l.lr.unitOf 4 with
  | none => none
  | some n =>
    let ds := s.diesOf l.part
    if l.lr.det then ds[bid / max n 1 % max ds.length 1]? else kget l.unitDies (bid / max n 1)

/-- A block's die-domain unit is bound to the die of the first core that one of its blocks has. -/
def Launch.bindDie (l : Launch) (bid core : Nat) : Launch :=
  match l.lr.unitOf 4 with
  | none => l
  | some n => if (kget l.unitDies (bid / max n 1)).isSome then l else { l with unitDies := kput l.unitDies (bid / max n 1) (core / 192) }

/-- The position of the next block among those of its die-domain unit. -/
def Launch.inDieUnit (l : Launch) : Nat := match l.lr.unitOf 4 with
  | some n => l.nextBlk % max n 1
  | none => l.nextBlk

/-- The cores for the next blocks of a launch that are admitted together (R284). -/
def State.place (s : State) (l : Launch) : Option (List Nat) :=
  let die := s.unitDieOf l l.nextBlk
  let inDie (c : Nat) : Bool := die.all (fun d => c / 192 == d)
  match l.lr.unitOf 3 with
  | some n =>
    let cs := (s.clustersOf l.part).filter (fun k => inDie (4 * k))
    let pick := if l.lr.det then (cs[l.inDieUnit / max n 1 % max cs.length 1]?).toList else cs
    (pick.find? (s.fitsUnit l n)).map (fun k => unitCores k n)
  | none =>
    let ps := (s.coresOf l.part).filter inDie
    let pick := if l.lr.det then (ps[l.inDieUnit % max ps.length 1]?).toList else ps
    (pick.find? (s.fits1 l)).map (fun c => [c])

/-- A launch may have a block admitted now (R273, R310, R330, R340). -/
def State.admissible (s : State) (l : Launch) : Bool :=
  !l.ended && !l.diverged && !l.aborted && l.saved.isEmpty && decide (l.nextBlk < l.lr.grid) && decide (s.sess l.part < 2) &&
    !s.power.emerg && !s.power.halted

/-- The cores a launch takes now: it is admissible, they fit, and the pools have its areas. -/
def State.offer (s : State) (lid : Nat) (l : Launch) : Option (List Nat) :=
  if s.admissible l then
    match s.place l with
    | some cs => if s.areasFor lid cs.length then some cs else none
    | none => none
  else none

/-! ### Admission (R11, R283) -/

/-- Bytes of memory return to 0x00, and every copy of them goes. -/
def State.zeroRange (s : State) (lo n : Nat) : State :=
  let out (pa : Nat) : Bool := decide (pa < lo) || decide (lo + n ≤ pa)
  if n = 0 then s
  else
    let hit (line : Nat) : Bool := decide (lo < (line + 1) * lineBytes ∧ line * lineBytes < lo + n)
    let s := s.cores.foldl (fun st c => ((c.2.cv.map (·.1)).filter hit).foldl (fun st l => (st.writeBack c.1 l).cvDrop c.1 l) st) s
    { s with mem := s.mem.filter (fun e => out e.1), ms := s.ms.filter (fun w => out w.pa),
             rc := s.rc.map (fun (d : Nat × KMap RcLine) => (d.1, d.2.filter (fun l => !hit l.1))) }

/-- The role of a warp of a block (R18). -/
def roleOf : List Role → Nat → Nat → Nat × Role
  | [], _, k => (k, ⟨0, 1, 0⟩)
  | r :: t, wid, k => if wid < r.warps then (k, r) else roleOf t (wid - r.warps) (k + 1)

/-- The warps, tile contexts apart, that occupy a core's slots. -/
def State.slotsOn (s : State) (core : Nat) : List Warp :=
  (s.warps.map (·.2)).filter (fun w => !w.tile && (kget s.blocks w.blk).any (fun b => b.core == core))

/-- The lowest free warp slot of a core, and the quarter with the fewest warps (R284, R290). -/
def State.freeSlot (s : State) (core : Nat) : Nat :=
  ((List.range 64).find? (fun k => (s.slotsOn core).all (fun w => w.slot != k))).getD 0
def State.freeQuarter (s : State) (core : Nat) : Nat :=
  (leastBy (fun q => ((s.slotsOn core).filter (fun w => w.quarter == q)).length) [0, 1, 2, 3]).getD 0

/-- A warp of a block begins with its initial state (R11). -/
def State.addWarp (s : State) (lr : LaunchRec) (blk core wid u : Nat) : State :=
  let (k, r) := roleOf lr.roles wid 0
  let w := Warp.initial blk false wid k (s.freeSlot core) r.budget (BitVec.ofNat 64 ((lr.entry + r.entryOff) % top57))
  (s.setWarp u { w with quarter := s.freeQuarter core }).modBlock blk (fun b => { b with warps := b.warps ++ [u] })

/-- The tile context of a block, if it has one (R33). -/
def State.addTile (s : State) (lr : LaunchRec) (blk u : Nat) : State :=
  if lr.tentry = 0 then s
  else (s.setWarp u (Warp.initial blk true 0 4 0 4 (BitVec.ofNat 64 (lr.tentry % top57)))).modBlock blk (fun b => { b with tctx := some u })

/-- The block's scratchpad takes the lowest free place of the core's, at a multiple of 256 bytes. -/
def State.freeSpad (s : State) (core n : Nat) : Nat :=
  let up (x : Nat) : Nat := (x + 255) / 256 * 256
  let used := (s.blocksOn core).map (fun b => (b.spadBase, up ((s.lrOf b.launch).elim 0 (·.spad))))
  (gapFrom used (2 ^ 24) (up n) (used.length + 1) 0).getD 0

/-- Retained values leave while registers are short (R19, R70). -/
def State.sweepAll (s : State) (core : Nat) : State := (s.core core).vs.foldl (fun st _ => st.vsSweep core) s

/-- A block takes its place on a core, with the given identity, those of its warps and of its tile context. -/
def State.putBlock (s : State) (lid bid core blk : Nat) (us : List Nat) (tu : Nat) (a : Area) : State :=
  match kget s.launches lid with
  | none => s
  | some l =>
    let b := { Block.initial lid bid core with spadBase := s.freeSpad core l.lr.spad, privBase := a.priv, saveBase := a.save,
                                               spLev0 := s.curLevel l.part l.ctx }
    let s := s.setBlock blk b
    let s := ((List.range us.length).zip us).foldl (fun st x => st.addWarp l.lr blk core x.1 x.2) s
    let s := s.addTile l.lr blk tu
    let s := s.modCore core (fun c => { c with hashes := kput c.hashes lid (hashOf c lid) })
    s.sweepAll core

/-- Fresh identities. -/
def State.freshN (s : State) (n : Nat) : List Nat × State :=
  ((List.range n).map (s.nextUid + ·), { s with nextUid := s.nextUid + n })

/-- The next block of a launch is admitted onto a core: its windows hold 0x00, the launch's beat 0 is the beat of its first block
(R11, R267). -/
def State.admitBlock (s : State) (lid core : Nat) : State :=
  match kget s.launches lid with
  | none => s
  | some l =>
    match s.takeArea lid l.nextBlk with
    | none => s
    | some (s, a) =>
      let (blk, s) := s.fresh
      let (us, s) := s.freshN l.lr.blockWarps
      let (tu, s) := s.fresh
      let s := s.zeroRange a.priv l.lr.privSize
      let s := s.putBlock lid l.nextBlk core blk us tu a
      s.modLaunch lid (fun l =>
        let l := l.bindDie l.nextBlk core
        { l with nextBlk := l.nextBlk + 1, waitFrom := some s.timebase, reserved := none,
                 beat0 := some (l.beat0.getD (s.timebase / l.beatLen)), units := l.units ++ us ++ [tu] })

/-- BLOCK_ADMISSION (R283): no launch that comes before this one can take a core now. -/
def execBlockAdmission (l : Nat) (s : State) : Out :=
  .next (match kget s.launches l with
    | some x =>
      if s.launches.any (fun h => h.2.part == x.part && h.2.ahead x && (s.offer h.1 h.2).isSome) then s
      else
        match s.offer l x with
        | some cs => cs.foldl (fun st c => st.admitBlock l c) s
        | none => s
    | none => s)

/-- ADMISSION_RESERVATION (R283): a block has waited 1 ms; the core, free enough for it, is kept for it. -/
def execAdmissionReservation (l core : Nat) (s : State) : Out :=
  .next (match kget s.launches l with
    | some x =>
      if s.admissible x && x.reserved.isNone && x.waitFrom.any (fun t => decide (t + 1000000 ≤ s.timebase)) &&
          (s.coresOf x.part).contains core && s.fits1 x core then s.setLaunch l { x with reserved := some core }
      else s
    | none => s)

/-! ### Retirement (R264, R272, R288) -/

/-- A unit has ended and its stores have drained. -/
def State.unitOver (s : State) (u : Nat) : Bool :=
  match kget s.warps u with
  | some w => w.frontier.isEmpty && w.posted.isEmpty && w.queues.all (fun q => q.2.isEmpty) && w.xw.isNone
  | none => true

/-- A block has nothing left to do: its warps, its tile context and its matrix commands have ended, its stores have drained. -/
def State.blockOver (s : State) (blk : Nat) (b : Block) : Bool :=
  (b.warps ++ b.tctx.toList).all s.unitOver && b.errWait.isNone && b.errGate.isNone &&
    s.mengs.all (fun e => e.2.table.all (fun k => k.blk != blk || k.kind == .acfree))

/-- A block leaves the core: its warps, records, tiles and open transactions go (R239, R264). -/
def State.dropBlock (s : State) (blk : Nat) (b : Block) : State :=
  let us := b.warps ++ b.tctx.toList
  let s := { s with warps := s.warps.filter (fun w => !us.contains w.1), blocks := kdel s.blocks blk,
                    txs := s.txs.filter (fun t => !us.contains t.2.u),
                    mengs := s.mengs.map (fun (e : Nat × MEngine) => (e.1, { table := e.2.table.filter (fun k => k.blk != blk) })) }
  let s := s.modCore b.core (fun c => { c with sfq := c.sfq.filter (fun r => !us.contains r.u) })
  s.vsSweep b.core

/-- The old values that a measured pass's atomics returned, against the first pass (R293). -/
def State.compareOld (s : State) (lid : Nat) (b : Block) : State :=
  match kget s.launches lid with
  | none => s
  | some l =>
    if !l.lr.measure then s
    else
      let h := (kget l.oldHash b.core).getD (BitVec.ofNat 32 hashInit)
      if l.pass = 0 then s.setLaunch lid { l with oldHash1 := kput l.oldHash1 b.bid h }
      else if kget l.oldHash1 b.bid = some h then s
      else s.setPreg l.part .mismatch 1

/-- A block retires: the checkpoint of its core's hash first; a replay that diverges there holds it (R272, R273). -/
def State.retireBlock (s : State) (blk : Nat) (b : Block) : State :=
  let s := s.checkpoint b.launch b.core
  if (kget s.launches b.launch).any (·.diverged) && !(kget s.launches b.launch).any (·.aborted) then s
  else
    ((s.compareOld b.launch b).dropBlock blk b).modLaunch b.launch (fun l =>
      { l with retired := l.retired + 1, areas := l.areas.map (fun a => if a.bid = some b.bid ∧ a.priv = b.privBase ∧ a.save = b.saveBase then { a with bid := none } else a) })

/-- BLOCK_RETIREMENT (R264, R288). A compare-and-swap of the block's end that still waits at a replay gate or at a peer is tried again
first (R216, R273). -/
def execBlockRetirement (blk : Nat) (s : State) : Out :=
  .next (match kget s.blocks blk with
    | some b =>
      match b.errGate, (b.warps ++ b.tctx.toList).head? with
      | some code, some u => s.errSwap u code
      | _, _ => if s.blockOver blk b then s.retireBlock blk b else s
    | none => s)

/-! ### The end of a launch (R263, R288, R293) -/

/-- The views of the cores that have had blocks of a launch, and of their clusters' tile contexts. -/
def State.launchViews (s : State) (lid : Nat) : List Nat :=
  let cs := (s.cores.filter (fun c => (kget c.2.hashes lid).isSome)).map (·.1)
  dedup (cs ++ cs.map (fun c => 768 + c / 4))

/-- No engine write waits in a merge stage on a line that the flush of a launch applies: its Apply, which drops copies, comes first
(R109, R263). -/
def State.flushReady (s : State) (lid : Nat) : Bool :=
  let vs := s.launchViews lid
  s.ms.all (fun w => !w.eng || vs.all (fun v =>
    ((kget (s.core v).cv (w.pa / lineBytes)).all (fun l => l.dirty == 0)) && s.ms.all (fun y => y.wid != v || y.pa != w.pa)))

/-- Every block has retired (of an aborted launch: every one that was resident), and every command of theirs has completed. An image
restored a second time counts as a block of its own (R311). -/
def State.launchOver (s : State) (lid : Nat) (l : Launch) : Bool :=
  !l.ended && (if l.aborted then s.blocks.all (fun b => b.2.launch != lid) else !l.diverged && decide (l.lr.grid ≤ l.retired) &&
      l.saved.isEmpty && s.blocks.all (fun b => b.2.launch != lid)) &&
    s.engines.all (fun e => (e.2.queue ++ e.2.run.toList).all (fun c => c.launch != some lid)) && l.units.all s.outsideDone &&
    s.ext.all (fun e => !(e.2.launch == some lid && (e.2.wr || !e.2.data.isEmpty) && e.2.answer.isNone)) &&
    s.flushReady lid

/-- The flush (R263): every dirty line of the launch's core views is propagated and applied, and what its parties have in the
merge stages. Clean copies stay. -/
def State.flushLaunch (s : State) (lid : Nat) : State :=
  (s.launchViews lid).foldl (fun st v =>
    let st := (((st.core v).cv.filter (fun l => l.2.dirty != 0)).map (·.1)).foldl (fun st l => st.writeBack v l) st
    (dedup ((st.ms.filter (fun w => w.wid == v)).map (·.pa))).foldl (fun st pa => st.apply pa) st) s

/-- The passes of a measured launch (R293). -/
def State.passes (s : State) (l : Launch) : Nat := if l.lr.measure then ((s.events l.part).length + 3) / 4 else 1
/-- This pass is the last: none is left, or the capture area filled. -/
def State.lastPass (s : State) (l : Launch) : Bool := decide (s.passes l ≤ l.pass + 1) || l.capFull

/-- The count of an event on a core: of instructions, lookups, hits, scratchpad lane cycles, passes and admissions the model's own; of
the others, which timing decides, a free value (log 13). -/
def State.eventCount (s : State) (l : Launch) (core code : Nat) : Nat :=
  if code = 2 ∨ code = 3 ∨ code = 4 ∨ code = 7 ∨ code = 9 ∨ code = 10 then sget 0 l.counters (core * 16 + code)
  else Config.eventCount s.stepNo core code % 2 ^ 64

/-- The results of a pass (R293): each of its events on each of the launch's cores. -/
def State.writeCounts (s : State) (lid : Nat) (l : Launch) : State :=
  if !l.lr.measure then s
  else
    let es := s.events l.part
    let cs := (s.cores.filter (fun c => (kget c.2.hashes lid).isSome)).map (·.1)
    cs.foldl (fun st c => (List.range 4).foldl (fun st k =>
      match es[4 * l.pass + k]? with
      | some code =>
        let at_ := s.preg l.part .resBase + 8 * (16 * c + 4 * l.pass + k)
        if s.firewall l.part l.ctx at_ then st.setHNat at_ 8 (s.eventCount l c code) else st
      | none => st) st) s

/-- The launch is gone: its areas return to their pools, its node is done (R281, R288). -/
def State.launchGone (s : State) (lid : Nat) (l : Launch) : State :=
  let s := { s with launches := kdel s.launches lid, ext := s.ext.filter (fun e => e.2.launch != some lid || e.2.answer.isNone),
                    cores := s.cores.map (fun (c : Nat × Core) => (c.1, { c.2 with hashes := kdel c.2.hashes lid })) }
  match l.node with
  | some n => { s with nodes := kmod s.nodes n (fun x => { x with finished := true, faulted := l.aborted, stopCode := if l.aborted then 6 else 0 }) }
  | none => s

/-- LAUNCH_END (R288): chunks close, the flush runs, the signal is written, the node completes, the areas return. An aborted
launch closes no chunk and writes no signal. A signal word whose page is missing waits for the driver, and one that lies at the host or at
a peer must be there before the node completes. -/
def execLaunchEnd (l : Nat) (s : State) : Out :=
  .next (match kget s.launches l with
    | some x =>
      if !s.launchOver l x then s
      else if x.sig.isSome then s.launchGone l x
      else if x.aborted then (s.flushLaunch l).launchGone l x
      else if !s.lastPass x then s
      else
        let t := ((s.closeAllChunks l).flushLaunch l).writeCounts l x
        let t := if x.lr.measure then t.setPreg x.part .done 1 else t
        if x.lr.sigaddr = 0 then t.launchGone l x
        else
          let (id, t) := t.fresh
          let r := t.releaseWrite x.part x.ctx id x.lr.sigaddr (bytesLE 4 x.lr.sigval)
          match r.2 with
          | some (.driver kind page) => s.outstanding x.part x.ctx page x.lr.sigaddr kind 1 6 0
          | some .posted => s
          | some _ => r.1.launchGone l x
          | none =>
            if r.1.ext.any (fun e => e.2.u == id) then
              (State.modLaunch { r.1 with ext := r.1.ext.map (fun (e : Nat × ExtReq) => (e.1, if e.2.u = id then { e.2 with launch := some l } else e.2)) } l
                (fun y => { y with sig := some id }))
            else r.1.launchGone l x
    | none => s)

/-- The captured pages hold their prior content again (R293). -/
def State.restorePages (s : State) (l : Launch) : State :=
  ((List.range l.captured.length).zip l.captured).foldl (fun st x =>
    st.setHs x.2 ((List.range (2 ^ 14)).map (fun j => st.hByte (st.preg l.part .capBase + 2 ^ 14 * x.1 + j)))) s

/-- The partition's core views and remote copies go without a write-back (R293). -/
def State.dropCaches (s : State) (p : Nat) : State :=
  let s := (s.viewsIn p).foldl (fun st v => ((st.core v).cv.map (·.1)).foldl (fun st l => st.cvDrop v l) st) s
  { s with rc := s.rc.map (fun (d : Nat × KMap RcLine) => (d.1, d.2.filter (fun l => !(s.part p).groups.testBit (l.1 * lineBytes / 2 ^ 33)))) }

/-- MEASUREMENT_PASS (R293): a pass that is not the last ends; the next one runs from the first block, its atomics gated by the first
pass's log. -/
def execMeasurementPass (l : Nat) (s : State) : Out :=
  .next (match kget s.launches l with
    | some x =>
      if !x.lr.measure || !s.launchOver l x || s.lastPass x || x.aborted then s
      else
        let t := (s.closeAllChunks l).writeCounts l x
        let t := (dedup (t.ms.map (·.pa))).foldl (fun st pa => st.apply pa) t
        let x := (kget t.launches l).getD x
        let t := (t.restorePages x).dropCaches x.part
        let t := { t with cores := t.cores.map (fun (c : Nat × Core) => (c.1, { c.2 with hashes := kdel c.2.hashes l })) }
        t.setLaunch l { x with lr := { x.lr with record := false, replay := true }, pass := x.pass + 1, nextBlk := 0, retired := 0,
                               waitFrom := some t.timebase, reserved := none, unitDies := [], cursor := [], gates := [],
                               counters := [], oldHash := [] }
    | none => s)

/-! ### Aborts, gates, the lattice and contexts -/

/-- The compare-and-swap on ERRADDR for a block that is not resident (R216). -/
def State.errSwapSaved (s : State) (l : Launch) (bid code : Nat) : State :=
  if l.lr.erraddr = 0 then s
  else
    let r := s.unitCheck [] (s.walkWho l.part l.ctx) 0x11 .atomic l.lr.erraddr 8
    match r.2 with
    | .ok bs => (r.1.rmw (s.walkWho l.part l.ctx) 0 4 bs (fun old => if old = 0 then code * 2 ^ 32 + bid else old)).1
    | _ => r.1

/-- ABORT (R276): every block of the queue's halted launch ends as `bexit` with code 0xF_FFFE, in ascending linear identifier, a saved
one's transactions with it (R239); the launch then ends by its last steps (R288). -/
def State.abortLaunch (s : State) (lid : Nat) (l : Launch) : State :=
  let mine := s.blocks.filter (fun b => b.2.launch == lid)
  let bids := sortByKey (fun (x : Nat × Option Nat) => x.1) (mine.map (fun b => (b.2.bid, some b.1)) ++ l.saved.map (fun e => (e.1, none)))
  let s := bids.foldl (fun st x => match x.2 with
    | some blk => match (kget st.blocks blk).bind (fun b => (b.warps ++ b.tctx.toList).head?) with
      | some u => st.bexit u 0xFFFFE
      | none => st
    | none => st.errSwapSaved l x.1 0xFFFFE) s
  let gone := l.saved.map (·.2.blk)
  let s := { s with txs := s.txs.filter (fun t => t.2.launch != lid || (kget s.warps t.2.u).isSome),
                    mengs := s.mengs.map (fun (e : Nat × MEngine) => (e.1, { table := e.2.table.filter (fun k => !gone.contains k.blk) })) }
  s.modLaunch lid (fun l => { l with aborted := true, saved := [] })

def execAbort (fn q : Nat) (s : State) : Out :=
  .next (if s.seesQueue fn q then
      (s.launches.filter (fun l => l.2.diverged && !l.2.aborted && (l.2.node.bind (kget s.nodes)).any (fun n => n.q == q))).foldl
        (fun st l => st.abortLaunch l.1 l.2) s
    else s)

/-- REPLAY_GATE_TIMEOUT (R273): an atomic has waited 1 ms for the current chunk's requester. A measured pass waits without limit. -/
def execReplayGateTimeout (l u : Nat) (s : State) : Out :=
  .next (match kget s.launches l with
    | some x =>
      match kget x.gates u with
      | some (since, die, _) => if !x.lr.measure ∧ since + 1000000 ≤ s.timebase then s.diverge l die else s
      | none => s
    | none => s)

/-- The logical cores of a die that a physical core serves (R286). -/
def State.servedBy (s : State) (die phys : Nat) : List Nat :=
  ((List.range 192).map (192 * die + ·)).filter (fun l => s.dreg (.lmPhys l) == phys)

/-- LATTICE_TIMESLICE (R286): a shared physical core changes to its other logical core after 100 µs, its warps at instruction
boundaries; the lineage entries and watches of the core that leaves are purged. -/
def execLatticeTimeslice (die phys : Nat) (s : State) : Out :=
  let ls := s.servedBy die phys
  let k := 192 * die + phys
  .next (match ls.filter (fun l => !s.fleet.inactive.contains l), ls.filter (fun l => s.fleet.inactive.contains l) with
    | [a], [b] =>
      if s.dreg (.lmShared a) = 1 ∧ (sget 0 s.fleet.sliceAt k) + 100000 ≤ s.timebase ∧ (s.warpsOn a).all (fun w => w.2.xw.isNone) then
        let s := s.modCore a (fun c => { c.dropEntries (fun _ => true) with watches := [] })
        { s with fleet := { s.fleet with inactive := a :: s.fleet.inactive.filter (· != b), sliceAt := kput s.fleet.sliceAt k s.timebase } }
      else s
    | _, _ => s)

/-- CONTEXT_DESTROY (R277): the descriptor's bit [0] is cleared; the context's lineage entries and watches are purged, its
transactions torn down, its allocation records and their keys destroyed. -/
def execContextDestroy (p ctx : Nat) (s : State) : Out :=
  .next (if ctx < s.preg p .ctxCount then
      let at_ := s.preg p .ctxTab + 64 * ctx
      let s := s.setHNat at_ 8 (s.hNat at_ 8 / 2 * 2)
      let s := s.cores.foldl (fun st c => st.purge c.1 p ctx) s
      let gone := (s.txs.filter (fun t => t.2.part == p && t.2.ctx == ctx)).map (fun t => (t.1, t.2.u))
      let s := gone.foldl (fun st t => (st.txDrop t.1).modWarp t.2 (fun w => { w with tx := none })) s
      s.modPart p (fun x => { x with allocs := x.allocs.filter (fun a => a.2.ctx != ctx) })
    else s)

end Sys2Proof.Machine
end

