-- ==== Sys2Proof/Machine/MatrixEvents.lean ====
section
/-! DEFINITION. The steps of the matrix engines: grants, operand fetch, chunks, arrivals, drains and the allocator (R99 to
R101, R241 to R249). -/

namespace Sys2Proof.Machine

/-! ### The reservation table -/

def MKind.isPass : MKind → Bool
  | .mpost => false
  | .mdrain => false
  | .acfree => false
  | _ => true

def State.mcmd (s : State) (cl cmd : Nat) : Option MCmd := (s.meng cl).table.find? (fun k => k.id == cmd)
def State.putMcmd (s : State) (cl : Nat) (k : MCmd) : State :=
  s.setMeng cl { s.meng cl with table := replaceIf (fun x => x.id == k.id) (fun _ => k) (s.meng cl).table }

/-- The commands of the block on a tile that were posted before one (R244). -/
def State.earlier (s : State) (cl : Nat) (k : MCmd) : List MCmd :=
  (s.meng cl).table.filter (fun x => x.blk == k.blk && x.kind != .acfree && x.tile == k.tile && decide (x.id < k.id))

/-- The tile of a command, when it is in accumulator memory. -/
def State.cmdTile (s : State) (k : MCmd) : Option Tile :=
  ((kget s.blocks k.blk).bind (fun b => kget b.tiles k.tile)).bind (fun t => if t.spilled then none else some t)

/-- A command is over: it leaves the table, and a `mwait` with nothing left to wait for ends (R247). -/
def State.mfinish (s : State) (cl : Nat) (k : MCmd) : State :=
  let s := s.setMeng cl { s.meng cl with table := (s.meng cl).table.filter (fun x => x.id != k.id) }
  let s := { s with ext := s.ext.filter (fun e => !(e.2.u == k.id && !e.2.wr)) }
  if s.postedDone k.u then s.modWarp k.u (fun w => w.wake (fun e => decide (e.st = .waiting .mwait))) else s

/-- A program-class fault for the tile context of a command (R244): delivered at its next boundary, or, if the context has
ended, the end of the block with the cause as its code. -/
def State.passFault (s : State) (k : MCmd) (cause info addr : Nat) : State :=
  match kget s.warps k.u with
  | some w =>
    if w.ended then s
    else if w.live = 0 then s.bexit k.u cause
    else s.setWarp k.u { w with passFaults := w.passFaults ++ [(cause, info, addr, k.pc.toNat)] }
  | none => s

/-- A driver-class fault of a fetch or a drain: the command pauses on the page (R244, R302). -/
def State.mpause (s : State) (cl : Nat) (k : MCmd) (p : Who) (acc : Acc) (va kind page : Nat) : State :=
  (s.outstanding p.part p.ctx page va kind acc.code 3 cl).putMcmd cl { k with paused := some page }

/-- PASS_GRANT (R244, R287): one pass at a time, by priority, then the oldest post. -/
def execPassGrant (cl : Nat) (s : State) : Out :=
  let t := (s.meng cl).table
  .next (if t.any (·.granted) then s
    else
      let ok (k : MCmd) : Bool := k.kind.isPass && k.paused.isNone && (s.earlier cl k).isEmpty && (s.cmdTile k).isSome &&
        (kget s.blocks k.blk).any (fun b => !b.tileStop)
      match leastBy (fun k => (7 - k.prio) * 2 ^ 64 + k.id) (t.filter ok) with
      | some k =>
        let b := kget s.blocks k.blk
        (s.putMcmd cl { k with granted := true }).bump (b.elim 0 (·.launch)) (b.elim 0 (·.core)) 0x09
      | none => s)

/-! ### Operands (R99, R100, R219, R245) -/

/-- The element of a slot's tensor at a matrix row and column (R219): dimensions 2 to 4 extend the row number. -/
def Tensor.cell (t : Tensor) (r c : Nat) : List Nat :=
  let rows := if t.order = 1 then t.dims.getD 0 1 else t.dims.getD 1 1
  let d2 := t.dims.getD 2 1
  let d3 := t.dims.getD 3 1
  let hi := if rows = 0 then 0 else r / rows
  let lo := if rows = 0 then r else r % rows
  let rest : List Nat := if d2 = 0 ∨ d3 = 0 then [hi, 0, 0] else [hi % d2, hi / d2 % d3, hi / d2 / d3]
  if t.order = 1 then [lo, c] ++ rest else [c, lo] ++ rest

/-- Element (i, j) of a slot's current tile. -/
def Slot.cell (x : Slot) (i j : Nat) : List Nat := x.t.cell (128 * x.row + i) (128 * x.col + j)

/-- The slot element that key k of an operand is: 0 for A (row i, contraction k), 1 for B (contraction k, column j). -/
def MCmd.elemAt (c : MCmd) (which key : Nat) : Option (Tensor × List Nat) :=
  let x := key / 128
  let y := key % 128
  match c.kind, which with
  | .mmac, 0 => if x < c.m ∧ y < c.k then c.a.map (fun s => (s.t, s.cell x y)) else none
  | .mmac, 1 => if x < c.k ∧ y < c.n then c.b.map (fun s => (s.t, s.cell x y)) else none
  | .mtrans, 0 => if x < c.m ∧ y < c.k then c.a.map (fun s => (s.t, s.cell y x)) else none
  | .mrsum, 0 => if x < c.m ∧ y < c.k then c.a.map (fun s => (s.t, s.cell x y)) else none
  | .mperm, 1 => if x < c.k ∧ y < c.n then c.a.map (fun s => (s.t, s.cell x y)) else none
  | _, _ => none

/-- The address of a scale word (R99, R100): for A by row or by tile, for B by tile. -/
def MCmd.scaleAt (c : MCmd) (which key : Nat) : Option Nat :=
  if c.kind ≠ .mmac then none
  else
    match which with
    | 2 => match c.a with
      | some s =>
        if s.t.scaleg = 1 ∧ key < c.m then some ((s.t.scaleBase + (128 * s.row + key) * s.t.scaleStride + 4 * s.col) % 2 ^ 64)
        else if s.t.scaleg = 2 ∧ key = 0 then some ((s.t.scaleBase + s.row * s.t.scaleStride + 4 * s.col) % 2 ^ 64)
        else none
      | none => none
    | 3 => match c.b with
      | some s => if s.t.scaleg = 2 ∧ key = 0 then some ((s.t.scaleBase + s.row * s.t.scaleStride + 4 * s.col) % 2 ^ 64) else none
      | none => none
    | _ => none

/-- The addresses a command still fetches: which operand, key, address, size. -/
def MCmd.needs (c : MCmd) (which key : Nat) : Option (Nat × Nat) :=
  if which < 2 then
    if (kget (if which = 0 then c.fa else c.fb) key).isSome then none
    else
      match c.elemAt which key with
      | some (t, x) => if t.inBounds x then some (t.addr x, fmtSize t.fmt) else none
      | none => none
  else if (kget (if which = 2 then c.sa else c.sb) key).isSome then none
  else (c.scaleAt which key).map (fun a => (a, 4))

/-- Every operand has been fetched. -/
def MCmd.fetched (c : MCmd) : Bool :=
  (List.range 4).all (fun w => (List.range 16384).all (fun k => (c.needs w k).isNone))

def MCmd.putFetch (c : MCmd) (which key v lev : Nat) : MCmd :=
  let c := { c with lev := max c.lev lev }
  match which with
  | 0 => { c with fa := kput c.fa key v }
  | 1 => { c with fb := kput c.fb key v }
  | 2 => { c with sa := kput c.sa key v }
  | _ => { c with sb := kput c.sb key v }

/-- OPERAND_FETCH (R244): an Engine-read from the home view or the scratchpad bank; an order-first page is undeclared for
it (R122). A program-class fault voids the pass. -/
def execOperandFetch (cl cmd which k : Nat) (s : State) : Out :=
  .next (match s.mcmd cl cmd with
    | some c =>
      match c.needs which k, s.who c.u with
      | some (va, n), some p =>
        if c.paused.isSome || !c.kind.isPass || decide (3 ≤ s.sess p.part) then s
        else
          let r := s.unitCheckRej c.rejected [.fetch cl] p 0x14 .load va n
          match r.2 with
          | .ok bs =>
            let q := r.1.unitRead p c.id (which * 16384 + k) bs
            match q.2 with
            | .bytes vs => q.1.putMcmd cl (c.putFetch which k (natLE vs) (bs.foldl (fun m b => max m b.lev) 0))
            | .prog cause info => (q.1.mfinish cl c).passFault c cause info va
            | .outside => q.1
          | .driver kind page => r.1.mpause cl c p .load va kind page
          | .prog cause info => (r.1.mfinish cl c).passFault c cause info va
          | .posted => r.1
      | _, _ => s
    | none => s)

/-- An element of an operand as a format and its bits: fetched, out of bounds as +0, or of the constant matrix. -/
def MCmd.operand (c : MCmd) (which x y : Nat) : Fmt × Nat :=
  let one : Nat := 0x3F800000
  let slot (s : Option Slot) (m : KMap Nat) : Fmt × Nat := (fmtOf (s.elim 0 (·.t.fmt)), sget 0 m (128 * x + y))
  match c.kind, which with
  | .mperm, 0 => (f32, if c.perm.getD x 128 = y then one else 0)
  | .mperm, _ => slot c.a c.fb
  | .mmac, 1 => slot c.b c.fb
  | .mtrans, 1 => (f32, if x = y then one else 0)
  | .mrsum, 1 => (f32, one)
  | _, _ => slot c.a c.fa

/-- A scale word of a pass: 1.0 where the tensor has none (R99). -/
def MCmd.scaleOf (c : MCmd) (which i : Nat) : Nat :=
  let one : Nat := 0x3F800000
  if c.kind ≠ .mmac then one
  else if which = 2 then
    match c.a with
    | some s => if s.t.scaleg = 1 then sget 0 c.sa i else if s.t.scaleg = 2 then sget 0 c.sa 0 else one
    | none => one
  else
    match c.b with
    | some s => if s.t.scaleg = 2 then sget 0 c.sb 0 else one
    | none => one

/-- One element of C after the chunk (R99). -/
def MCmd.chunk (c : MCmd) (i j : Nat) (old : BitVec 40) : BitVec 40 :=
  let ps := (List.range 128).map (fun k =>
    if k < c.k then
      let a := c.operand 0 i k
      let b := c.operand 1 k j
      prod40 a.1 b.1 a.2 b.2
    else 0)
  BitVec.ofNat 40 (add40 old.toNat (scale40 (tree40 7 ps) (c.scaleOf 2 i) (c.scaleOf 3 j)))

/-- The elements of a sub-block that a command changes (R241, R246): all of them for `mzero`. -/
def MCmd.cells (c : MCmd) (sb : Nat) : List (Nat × Nat) :=
  ((List.range 64).map (fun e => (8 * (sb / 16) + e / 8, 8 * (sb % 16) + e % 8))).filter (fun x =>
    c.kind == .mzero || decide (x.1 < c.m ∧ x.2 < c.n))

/-- CHUNK_APPLIED (R99, R241, R245): a sub-block of the granted pass takes its chunk whole; with the last one the pass ends. The
old elements stay for the reads that begin meanwhile. -/
def execChunkApplied (cl sb : Nat) (s : State) : Out :=
  .next (match (s.meng cl).table.find? (·.granted) with
    | some c =>
      match s.cmdTile c with
      | some t =>
        if c.paused.isSome || sb ≥ 256 || c.sub.contains sb || !c.fetched then s
        else
          let t0 := if c.sub.isEmpty then { t with back := [], readers := [] } else t
          let t' := (c.cells sb).foldl (fun (t : Tile) x =>
            { t.set x.1 x.2 (if c.kind = .mzero then 0 else c.chunk x.1 x.2 (t.at_ x.1 x.2)) with
              back := kput t.back (128 * x.1 + x.2) (t.at_ x.1 x.2) }) t0
          let c' := { c with sub := sb :: c.sub }
          let last := (List.range 256).all (fun k => c'.sub.contains k || (c.cells k).isEmpty)
          let t' := { t' with level := if c.kind = .mzero then (if last then 0 else t.level) else max t.level c.lev,
                              back := if last && t'.readers.isEmpty then [] else t'.back }
          let s := s.modBlock c.blk (fun b => { b with tiles := kput b.tiles c.tile t' })
          if last then s.mfinish cl c else s.putMcmd cl c'
      | none => s
    | none => s)

/-! ### Arrivals and drains (R247, R248) -/

/-- An arrival that carries a level (R325). -/
def State.arriveLev (s : State) (rej : List Nat) (places : List TlbAt) (p : Who) (id va n lev : Nat) : State × Option Res :=
  match (s.unitCheckRej rej places p 0x11 .atomic va 4).2 with
  | .ok bs =>
    match bs.find? (fun b => decide (lev > b.lev)) with
    | some b => if va = 0 ∨ n = 0 then s.arriveAt rej places p id va n else (s, some (.prog 0x12 (lev + 16 * b.lev)))
    | none => s.arriveAt rej places p id va n
  | _ => s.arriveAt rej places p id va n

/-- MPOST_ARRIVAL (R247): every earlier command on the tile has completed; the arrival, or its fault as a pass fault. -/
def execMpostArrival (cl cmd : Nat) (s : State) : Out :=
  .next (match s.mcmd cl cmd, (s.mcmd cl cmd).bind (fun c => s.who c.u) with
    | some c, some p =>
      if c.kind ≠ .mpost ∨ c.paused.isSome ∨ !(s.earlier cl c).isEmpty then s
      else
        let r := s.arriveLev c.rejected [.cluster cl] p c.id c.addr c.cnt c.lev
        match r.2 with
        | some (.driver kind page) => r.1.mpause cl c p .atomic c.addr kind page
        | some (.prog cause info) => (r.1.mfinish cl c).passFault c cause info c.addr
        | some .posted => s
        | _ => r.1.mfinish cl c
    | _, _ => s)

/-- The value a drain writes for an element (R93, R94, R101): a NaN drains as itself, the element's before the scale's. -/
def MCmd.drained (c : MCmd) (v : BitVec 40) : Nat :=
  let x := decodeF a40 v.toNat
  let y := decodeF f32 c.scale.toNat
  (finishF (fmtOf c.out.fmt) .rne (decide (c.out.fmt ≤ 1)) [x, y] (if x.isNaN || y.isNaN then (x, 0) else mulV (fmtOf c.out.fmt) x y)).1

/-- The elements a drain writes, row-major: row, column, address (R248). -/
def MCmd.outs (c : MCmd) : List (Nat × Nat × Nat) :=
  (List.range (c.m * c.n)).filterMap (fun e =>
    let i := e / c.n
    let j := e % c.n
    let x := c.out.cell (128 * c.trow + i) (128 * c.tcol + j)
    if c.out.inBounds x then some (i, j, c.out.addr x) else none)

/-- The pattern that the absmax word is raised with (R101). -/
def absPattern (f : Nat) (vs : List Nat) : Nat :=
  let ws := vs.map (fun v => (cvtF (fmtOf f) f32 .rne false v).1 % 2 ^ 31)
  if ws.any (fun w => decide (0x7F800000 < w)) then 0x7FC00000 else ws.foldl max 0

/-- The checks of a drain's elements, in order: how many may be written, and what ends the list. -/
def State.drainChecks (s : State) (cl : Nat) (p : Who) (c : MCmd) : List (Nat × Nat × Nat) → State × List (Nat × Nat × List PByte) × Option (Nat × Res)
  | [] => (s, [], none)
  | (i, j, va) :: t =>
    let r := s.unitCheckRej c.rejected [.fetch cl] p 0x14 .store va (fmtSize c.out.fmt)
    match r.2 with
    | .ok bs =>
      let q := r.1.drainChecks cl p c t
      (q.1, (i, j, bs) :: q.2.1, q.2.2)
    | f => (r.1, [], some (va, f))

/-- The levels of every output page that translates, whatever faults elsewhere (R248). -/
def State.drainLevel (s : State) (cl : Nat) (p : Who) (c : MCmd) (lev : Nat) : Option (Nat × Nat) :=
  c.outs.findSome? (fun o => match (s.unitCheckRej c.rejected [.fetch cl] p 0x14 .store o.2.2 (fmtSize c.out.fmt)).2 with
    | .ok bs => (bs.find? (fun b => decide (lev > b.lev))).map (fun b => (o.2.2, b.lev))
    | _ => none)

/-- Step 1 of a drain: the writes. -/
def State.drainWrites (s : State) (cl : Nat) (p : Who) (c : MCmd) (t : Tile) : State :=
  match s.drainLevel cl p c t.level with
  | some (va, l) => (s.mfinish cl c).passFault c 0x12 (t.level + 16 * l) va
  | none =>
    let r := s.drainChecks cl p c c.outs
    match r.2.2 with
    | some (va, .driver kind page) => r.1.mpause cl c p .store va kind page
    | bad =>
      let launch := (kget s.blocks c.blk).map (·.launch)
      let vals := r.2.1.map (fun o => c.drained (t.at_ o.1 o.2.1))
      let s := (r.2.1.zip vals).foldl (fun st o =>
        st.unitWrite p c.id (128 * o.1.1 + o.1.2.1) (768 + cl) launch o.1.2.2 (bytesLE (fmtSize c.out.fmt) o.2)) r.1
      let c := { c with sub := [1], fa := [(0, absPattern c.out.fmt vals)] }
      match bad with
      | some (va, .prog cause info) => (s.putMcmd cl { c with void := true }).passFault c cause info va
      | _ => s.putMcmd cl c

/-- Step 2 of a drain: the absmax word, an atomic that carries the tile's level (R325). -/
def State.drainAbsmax (s : State) (cl : Nat) (p : Who) (c : MCmd) (lev : Nat) : State :=
  let next := { c with sub := 2 :: c.sub }
  if !c.amax || c.void then s.putMcmd cl next
  else
    let r := s.unitCheckRej c.rejected [.cluster cl] p 0x14 .atomic c.absmax 4
    match r.2 with
    | .ok bs =>
      let pat := sget 0 c.fa 0
      match bs.find? (fun b => decide (lev > b.lev)) with
      | some b => (r.1.putMcmd cl next).passFault c 0x12 (lev + 16 * b.lev) c.absmax
      | none =>
      if isOutside bs then (r.1.unitAsk p c.id (2 ^ 64 + 1) true bs (bytesLE 4 pat)).putMcmd cl next
      else ((r.1.rmw p c.u c.scope bs (fun old => max old pat)).1).putMcmd cl next
    | .driver kind page => r.1.mpause cl c p .atomic c.absmax kind page
    | .prog cause info => (r.1.putMcmd cl next).passFault c cause info c.absmax
    | .posted => r.1

/-- Steps 3 and 4 of a drain: the zeroing and the arrival. -/
def State.drainEnd (s : State) (cl : Nat) (p : Who) (c : MCmd) : State :=
  let s := if c.zero && !c.void && !c.sub.contains 3 then
      s.modBlock c.blk (fun b => { b with tiles := kmod b.tiles c.tile (fun t => { t with data := [], level := 0 }) }) else s
  let c := { c with sub := 3 :: c.sub }
  let r := s.arriveAt c.rejected [.cluster cl] p c.id c.addr c.cnt
  match r.2 with
  | some (.driver kind page) => r.1.mpause cl c p .atomic c.addr kind page
  | some (.prog cause info) => (r.1.mfinish cl c).passFault c cause info c.addr
  | some .posted => s
  | _ => r.1.mfinish cl c

/-- TILE_DRAIN (R248): the writes; when they are applied, the absmax; then the zeroing and the arrival. -/
def execTileDrain (cl cmd : Nat) (s : State) : Out :=
  .next (match s.mcmd cl cmd, (s.mcmd cl cmd).bind (fun c => s.who c.u) with
    | some c, some p =>
      match s.cmdTile c with
      | some t =>
        if c.kind ≠ .mdrain ∨ c.paused.isSome ∨ !(s.earlier cl c).isEmpty ∨ 3 ≤ s.sess p.part then s
        else if c.sub.isEmpty then s.drainWrites cl p c t
        else if !s.unitApplied c.id (768 + cl) then s
        else if !c.sub.contains 2 then s.drainAbsmax cl p c t.level
        else s.drainEnd cl p c
      | none => s
    | _, _ => s)

/-! ### The allocator (R242, R243) -/

/-- Grant a block's request: its old tiles return, the new ones are allocated, and its `acalloc` ends. -/
def State.grantAcc (s : State) (blk : Nat) (b : Block) : State :=
  match b.accWait, b.tctx with
  | some n, some u =>
    let f := (b.freeRun n).getD 0
    let b : Block := { b.unspill with accWait := none }
    (s.setBlock blk (b.allocTiles f n)).modWarp u (fun w =>
      let r := w.frontier.findSome? (fun e => match e.st with
        | .waiting (.acalloc r _) => some r
        | _ => none)
      match r with
      | some r => (w.setReg r 0 (BitVec.ofNat 32 f)).wake (fun e => decide (e.st = .waiting (.acalloc r n)))
      | none => w)
  | _, _ => s

/-- ACALLOC_GRANT (R243): strictly the oldest request, when its tiles are free. -/
def execAcallocGrant (cl : Nat) (s : State) : Out :=
  .next (match s.accWaiters cl with
    | b :: _ => if b.2.reqTiles ≤ s.tilesFree cl then s.grantAcc b.1 b.2 else s
    | [] => s)

/-- Store a spilled block's tiles in its save area, ascending local index (R87, R243). -/
def State.saveTiles (s : State) (b : Block) : State :=
  ((List.range b.tiles.length).zip b.tiles).foldl (fun st x =>
    x.2.2.data.foldl (fun st e => st.setHNat (b.saveBase + 131072 * x.1 + 8 * e.1) 8 e.2.toNat)
      ((List.range 16384).foldl (fun st e => st.setHNat (b.saveBase + 131072 * x.1 + 8 * e) 8 0) st)) s

/-- ACCUMULATOR_SPILL (R243): every holder waits and the oldest request does not fit, so the youngest waiting holder is spilled
and the oldest request that now fits is granted; a spilled block's not before every older one. -/
def execAccumulatorSpill (cl : Nat) (s : State) : Out :=
  let ws := s.accWaiters cl
  let holds (b : Block) : Bool := decide (0 < s.tilesHeld b)
  let holders := s.blocks.filter (fun b => b.2.core / 4 == cl && holds b.2)
  .next (if ws.isEmpty || !(holders.all (fun b => b.2.accWait.isSome)) ||
      ws.head?.any (fun b => decide (b.2.reqTiles ≤ s.tilesFree cl)) then s
    else
      match (ws.filter (fun b => holds b.2)).getLast? with
      | some (blk, b) =>
        let s := (s.saveTiles b).setBlock blk { b with tiles := b.tiles.map (fun (t : Nat × Tile) => (t.1, { t.2 with spilled := true })) }
        let ws := s.accWaiters cl
        match ws.find? (fun x => decide (x.2.reqTiles ≤ s.tilesFree cl) && (x.2.spilledTiles == 0 || ws.head?.any (fun h => h.1 == x.1))) with
        | some x => s.grantAcc x.1 x.2
        | none => s
      | none => s)

/-- ACFREE_EFFECT (R242): every command posted earlier on the tiles has completed. While the block is saved it waits. -/
def execAcfreeEffect (cl cmd : Nat) (s : State) : Out :=
  .next (match s.mcmd cl cmd with
    | some c =>
      if c.kind ≠ .acfree ∨ (kget s.blocks c.blk).isNone ∨ (s.meng cl).table.any (fun x => x.blk == c.blk && decide (x.id < c.id) && c.tiles.contains x.tile) then s
      else
        (s.modBlock c.blk (fun b => { b with tiles := c.tiles.foldl kdel b.tiles })).setMeng cl
          { s.meng cl with table := (s.meng cl).table.filter (fun x => x.id != c.id) }
    | none => s)

/-- PREEMPTION_TIMEOUT (R249): no `ppoint` within 2 ms; between two passes the tile context is taken where it stands. In the grace
of a lapsed session it is not; from the halt on it is at once (R330). -/
def execPreemptionTimeout (blk : Nat) (s : State) : Out :=
  .next (match kget s.blocks blk with
    | some b =>
      let st := (kget s.launches b.launch).elim 0 (fun l => s.sess l.part)
      if b.preempt ∧ st ≠ 2 ∧ (st = 3 ∨ b.preemptAt + 2000000 ≤ s.timebase) ∧
          !(s.mengs.any (fun e => e.2.table.any (fun k => k.blk == blk && k.granted))) then
        s.setBlock blk { b with tileStop := true }
      else s
    | none => s)

end Sys2Proof.Machine
end

