-- ==== Sys2Proof/Machine/Host.lean ====
section
/-! DEFINITION. The host port, the fabric and the inbound apertures (R112, R318 to R322, R327). -/

namespace Sys2Proof.Machine

def sat32 (n : Nat) : Nat := min n (2 ^ 32 - 1)

/-! ### The host (R318) -/

/-- The partition that owns a slice group. -/
def State.ownerOf (s : State) (pa : Nat) : Option Nat :=
  (s.parts.find? (fun e => e.2.groups.testBit (pa / 2 ^ 33))).map (·.1)

/-- The firewall refuses the host an address: no partition owns it, or its partition is confidential or has lapsed (R318,
R323, R330). -/
def State.hostRefused (s : State) (pa : Nat) : Bool :=
  match s.ownerOf pa with
  | none => true
  | some p => s.preg p .conf == 1 || decide (2 ≤ s.sess p)

/-- A refusal is counted (R318). -/
def State.countRefused (s : State) (pa : Nat) : State :=
  let p := (s.ownerOf pa).getD 0
  s.setPreg p .fwRefused (sat32 (s.preg p .fwRefused + 1))

/-- Bytes for the host leave by the host port. -/
def State.toHost (s : State) (poison : Bool) (bs : List Byte) : State :=
  { s with out := { s.out with host := s.out.host ++ [(poison, bs)] } }

/-- The host writes a byte of device memory: copies in the remote-data caches go. -/
def State.hostPut (s : State) (pa : Nat) : List Byte → State
  | [] => s
  | b :: t => ((s.setH pa b).rcDrop (pa / lineBytes)).hostPut (pa + 1) t

/-- HOST_ACCESS (R318, R327): through BAR2 or HDM; a CXL read that is refused answers all ones with poison, a PCI Express read
Completer Abort. -/
def execHostAccess (wr cxl : Bool) (pa n : Nat) (data : List (BitVec 8)) (s : State) : Out :=
  .next (if n = 0 ∨ pa + n > devTop then s
    else
      let bad := (List.range n).find? (fun k => s.hostRefused (pa + k))
      match bad with
      | some k =>
        let s := s.countRefused (pa + k)
        if wr then s else s.toHost true (if cxl then List.replicate n 0xFF else [])
      | none =>
        let p := (s.ownerOf pa).getD 0
        if wr then s.hostPut pa (s.cipher p false pa ((List.range n).map (fun k => data.getD k 0)))
        else s.toHost false (s.cipher p true pa ((List.range n).map (fun k => s.homeByte (pa + k)))))

/-! ### Inbound accesses (R321, R322) -/

/-- The enabled aperture that admits an offset: partition and index. -/
def State.apertureAt (s : State) (off : Nat) : Option (Nat × Nat) :=
  s.regs.findSome? (fun e => match e.1 with
    | .p n (.apEn a) =>
      let b := s.preg n (.apObase a)
      if e.2 = 1 ∧ a < 16 ∧ b ≤ off ∧ off < b + s.preg n (.apOlen a) then some (n, a) else none
    | _ => none)

/-- An answer to a peer: its number, 0 or an error (1) or a time-out (2), the bytes. -/
def State.toPeer (s : State) (peer code : Nat) (bs : List Byte) : State :=
  { s with out := { s.out with peers := s.out.peers ++ [(peer, code, bs)] } }

/-- The inbound-fault record (R322). -/
def Inb.record (x : Inb) (cause : Nat) (noap : Bool) (ctx time : Nat) : List Byte :=
  bytesLE 8 (x.off % 2 ^ 44 + x.peer % 256 * 2 ^ 44 + x.port % 32 * 2 ^ 52 + x.acc % 4 * 2 ^ 57) ++
    bytesLE 8 (cause + (if noap then 256 else 0) + x.ap % 16 * 2 ^ 16 + ctx % 65536 * 2 ^ 32) ++ bytesLE 8 time ++ bytesLE 8 0

/-- A failed inbound access is logged and answered with an error completion (R322). -/
def State.inbFail (s : State) (p : Nat) (x : Inb) (cause : Nat) (noap : Bool) : State :=
  let size := s.preg p .iflSize
  let tail := s.preg p .iflTail
  let s :=
    if size = 0 then s
    else if (tail + 1) % size = s.preg p .iflHead % size || !s.ownsRange p (s.preg p .iflBase + 32 * tail) 32 then
      s.setPreg p .iflLost (sat32 (s.preg p .iflLost + 1))
    else
      (s.setHs (s.preg p .iflBase + 32 * tail)
        (x.record cause noap (if noap then 0 else s.preg p (.apCtx x.ap)) s.timebase)).setPreg p .iflTail ((tail + 1) % size)
  s.toPeer x.peer (if cause = 0x18 then 2 else 1) []

/-- The atomic an inbound request names by its first data byte, in the order of R195 (log 17): the new value. -/
def inbAtomic (op n : Nat) (data : List Byte) (old : Nat) : Nat :=
  let a := natLE (data.take n)
  let b := natLE ((data.drop n).take n)
  let w (f : Word → Word → Word) : Nat := (f (BitVec.ofNat 32 old) (BitVec.ofNat 32 a)).toNat
  match op with
  | 0 => old + a
  | 1 => w (minBy keyS)
  | 2 => w (minBy keyU)
  | 3 => w (maxBy keyS)
  | 4 => w (maxBy keyU)
  | 5 => w (fun x y => x &&& y)
  | 6 => w (fun x y => x ||| y)
  | 7 => w (fun x y => x ^^^ y)
  | 8 => a
  | 9 => if old = b then a else old
  | 10 => (addF f32 .rne false old a).1
  | _ => old

/-- How an inbound access ends: its answer, a failure, a page the driver must bring, or a wait for the host. -/
inductive InbEnd where
  | answer (bs : List Byte)
  | fail (cause : Nat)
  | page (va kind page : Nat)
  | host
  deriving DecidableEq, Repr

/-- An inbound access translated, checked and performed (R321): its data carries APLEVEL, its writes the identifier 1,024 + port. -/
def State.inbTry (s : State) (p : Nat) (x : Inb) : State × InbEnd :=
  let ctx := s.preg p (.apCtx x.ap)
  let va := s.preg p (.apVabase x.ap) + (x.off - s.preg p (.apObase x.ap))
  let lev := s.preg p (.apLevel x.ap)
  let acc : Acc := if x.acc = 0 then .load else if x.acc = 1 then .store else .atomic
  let inside := decide (x.off + x.n ≤ s.preg p (.apObase x.ap) + s.preg p (.apOlen x.ap))
  if decide (2 ≤ s.sess p) || s.preg p (.apEn x.ap) != 1 || !(s.preg p (.apPerm x.ap)).testBit x.acc || !inside ||
      decide (va + x.n > 2 ^ 56) then (s, .fail 0x11)
  else
    let w := { s.walkWho p ctx with wid := 1024 + x.port }
    let r := s.unitCheck [] w 0x11 acc va x.n
    match r.2 with
    | .driver kind page => (r.1, .page va kind page)
    | .prog cause _ => (r.1, .fail cause)
    | .posted => (r.1, .fail 0x11)
    | .ok bs =>
      let s := r.1
      let pa := match bs with
        | ⟨_, .mem pa, _, _, _⟩ :: _ => pa
        | _ => 0
      let data := s.cipher p false pa x.data
      if acc != .load && bs.any (fun b => decide (lev > b.lev)) then (s, .fail 0x12)
      else if acc = .store then (s.unitWrite w x.id 0 (1024 + x.port) none bs ((List.range x.n).map (fun k => data.getD k 0)), .answer [])
      else if acc = .atomic && !isOutside bs then
        let args := s.cipher p false pa (x.data.drop 1)
        let q := s.rmw w 0 4 bs (inbAtomic ((x.data.head?).elim 0 (·.toNat)) x.n args)
        (q.1, .answer (q.1.cipher p true pa (bytesLE x.n q.2.1)))
      else
        let q := s.unitReadWith w x.id 0 (if acc = .atomic then x.data else []) bs
        match q.2 with
        | .bytes vs => (q.1, .answer (q.1.cipher p true pa vs))
        | .prog _ _ => (q.1, .fail 0x11)
        | .outside => (q.1, .host)

/-- An inbound access goes as far as it can; what must wait stays with the partition. One that has waited for the driver for ITIMEOUT
fails (R321). -/
def State.inbRun (s : State) (p : Nat) (x : Inb) : State :=
  let r := if x.page.isSome && decide (x.since + 1000000 ≤ s.timebase) then (s, .fail 0x18) else s.inbTry p x
  match r.2 with
  | .answer bs => r.1.toPeer x.peer 0 bs
  | .fail cause => r.1.inbFail p x cause false
  | .page va kind page =>
    (r.1.outstanding p (r.1.preg p (.apCtx x.ap)) page va kind (if x.acc = 2 then 3 else x.acc) (Config.inboundSrc x.port) x.port).modPart p
      (fun y => { y with inb := y.inb ++ [{ x with page := some page }] })
  | .host => r.1.modPart p (fun y => { y with inb := y.inb ++ [{ x with page := none }] })

/-- Waiting inbound accesses of a partition try again. -/
def State.inbRetry (s : State) (p : Nat) (sel : Inb → Bool) : State :=
  let xs := (s.part p).inb.filter sel
  if xs.isEmpty then s
  else xs.foldl (fun st x => st.inbRun p x) (s.modPart p (fun y => { y with inb := y.inb.filter (fun x => !sel x) }))

/-- Inbound accesses arrive at the device: from the stop of a swap on they are held for the destination (R350). -/
def State.inboundOpen (s : State) (port : Nat) : Bool :=
  decide (port < 20) && !s.fabric.down.contains port && decide (s.fleet.swapPhase < 2)

/-- INBOUND_ACCESS (R321). -/
def execInboundAccess (port peer off acc n : Nat) (data : List (BitVec 8)) (s : State) : Out :=
  .next (if !s.inboundOpen port || n = 0 || decide (2 < acc) || decide (255 < peer) || decide (2 ^ 44 ≤ off) then s
    else
      let (id, s) := s.fresh
      let x : Inb := { id := id, port := port, peer := peer, off := off, acc := acc, n := n, data := data, ap := 0, page := none,
                       since := s.timebase }
      match s.apertureAt off with
      | some (p, a) => s.inbRun p { x with ap := a }
      | none => s.inbFail 0 x 0x11 true)

/-- INBOUND_TIMEOUT (R321): the k-th waiting access of a partition has waited 1 ms for the driver. -/
def execInboundTimeout (p k : Nat) (s : State) : Out :=
  .next (match (s.part p).inb[k]? with
    | some x =>
      if x.page.isSome ∧ x.since + 1000000 ≤ s.timebase then
        (s.modPart p (fun y => { y with inb := y.inb.eraseIdx k })).inbFail p x 0x18 false
      else s
    | none => s)

/-! ### Completions (R112, R306, R320) -/

/-- A write at a target failed: the store's record once its last request has ended, the command's stop, the pass fault, the node's
error (R228, R244, R279, R306, R320). -/
def State.writeFailed (s : State) (r : Nat) (x : ExtReq) (cause : Nat) : State :=
  match kget s.warps x.u, s.who x.u with
  | some _, some p => s.storeFailed p.core r x cause
  | _, _ =>
    let s := { s with ext := kdel s.ext r }
    let peer := x.peer.getD 0
    let s := { s with nodes := kmod s.nodes x.u (fun n => { n with finished := true, faulted := true, stopCode := 2 }) }
    let s := s.engines.foldl (fun st e => match e.2.run with
      | some c => if c.id = x.u ∧ c.stop.isNone then st.putRun e.1 { c with stop := some (cause, x.va, peer) } else st
      | none => st) s
    s.mengs.foldl (fun st e => match e.2.table.find? (fun k => k.id == x.u) with
      | some k => (st.putMcmd e.1 { k with void := true }).passFault k cause peer x.va
      | none => st) s

/-- The last request of a store that had failures ends well: the record of the failures is due (R306). -/
def State.writeDone (s : State) (r : Nat) (x : ExtReq) : State :=
  let s := { s with ext := kdel s.ext r }
  match s.ext.find? (fun e => e.2.u == x.u && e.2.wr && e.2.iid == x.iid && e.2.answer.isSome) with
  | some e =>
    if s.ext.any (fun y => y.2.u == x.u && y.2.wr && y.2.iid == x.iid && y.2.answer.isNone) then s
    else s.writeFailed e.1 e.2 ((e.2.answer.map (·.1)).getD 0x17)
  | none => s

/-- A read is answered: its waiter issues again. -/
def State.readDone (s : State) (r : Nat) (x : ExtReq) (err : Nat) (bs : List Byte) : State :=
  let s := { s with ext := kput s.ext r { x with answer := some (err, bs) } }
  let s := s.modWarp x.u (fun w =>
    (w.frontier.filter (fun e => decide (e.st = .waiting (.ext r)))).foldl (fun w e => w.move e.mask e.pc .ready) w)
  s.inbRetry x.part (fun y => y.id == x.u)

/-- A request ends with an error code: 0 none, 1 error, 2 time-out. -/
def State.endRequest (s : State) (r : Nat) (x : ExtReq) (err : Nat) (bs : List Byte) : State :=
  if !x.wr then s.readDone r x err bs
  else if err = 0 then s.writeDone r x
  else s.writeFailed r x (if err = 1 then 0x17 else 0x18)

/-- A request is at its target. -/
def ExtReq.open_ (x : ExtReq) : Bool := x.answer.isNone && !x.held

/-- The record whose key deciphers what a read brings: of the device destination for an engine, of the host source for
everything else (R327). -/
def State.readKeyAt (s : State) (x : ExtReq) : Option Nat :=
  match s.engines.findSome? (fun e => e.2.run.bind (fun c => if c.id = x.u then some c else none)) with
  | some c =>
    if c.coll || c.elems ≤ x.lane then none
    else
      match s.vaToPa c.part c.ctx (c.dst.addr (c.dstAt x.lane)) with
      | some pa => if pa < devTop then some pa else none
      | none => none
  | none => if x.peer.isNone then some x.off else none

/-- The bytes that a read brings, deciphered. -/
def State.opened (s : State) (x : ExtReq) (vs : List Byte) : List Byte :=
  match s.readKeyAt x with
  | some pa => s.cipher x.part false pa vs
  | none => vs

/-- REMOTE_TIMEOUT (R320): no completion within FTIMEOUT. -/
def execRemoteTimeout (r : Nat) (s : State) : Out :=
  .next (match kget s.ext r with
    | some x => if x.open_ ∧ x.peer.isSome ∧ x.since + s.dreg .fTimeout ≤ s.timebase then s.endRequest r x 2 [] else s
    | none => s)

/-- PEER_COMPLETION (R320): `err` 0 success, 1 an error completion, 2 a reported time-out; a peer without a route gives remote
error at once. One that arrives only after FTIMEOUT is a time-out. -/
def execPeerCompletion (r err : Nat) (data : List (BitVec 8)) (s : State) : Out :=
  .next (match kget s.ext r with
    | some x =>
      match x.peer with
      | some n =>
        if !x.open_ then s
        else if (kget s.fabric.routes n).isNone then s.endRequest r x 1 []
        else if x.since + s.dreg .fTimeout ≤ s.timebase then s.endRequest r x 2 []
        else s.endRequest r x (min err 2) (s.opened x ((List.range x.n).map (fun k => data.getD k 0)))
      | none => s
    | none => s)

/-- HOST_COMPLETION (R112): a write reaches host memory; a read or an atomic brings what the host gives. -/
def execHostCompletion (r : Nat) (data : List (BitVec 8)) (s : State) : Out :=
  .next (match kget s.ext r with
    | some x =>
      if !x.open_ || x.peer.isSome then s
      else if x.wr then
        let t := match x.launch with
          | some l => ((List.range x.n).map (x.off + ·)).foldl (fun (st : State) pa => st.capture l pa) s
          | none => s
        (t.hostPut x.off x.data).endRequest r x 0 []
      else
        let vs := (List.range x.n).map (fun k => data.getD k 0)
        let s := if x.data.isEmpty then s.hostPut x.off vs else s
        s.endRequest r x 0 (s.opened x vs)
    | none => s)

/-! ### Links (R319) -/

/-- FLIT_REPLAY (R319): a flit of a port and direction that fails its check is sent again. -/
def execFlitReplay (port dir : Nat) (s : State) : Out :=
  .next (if port < 20 ∧ dir < 2 then
      { s with fabric := { s.fabric with replays := kput s.fabric.replays (2 * port + dir) (sget 0 s.fabric.replays (2 * port + dir) + 1) } }
    else s)

/-- LINK_RETRAIN (R319, R348): the link loses training; it is counted, and its traffic goes by other ports. -/
def State.retrain (s : State) (port : Nat) : State :=
  let s := s.setDreg .retrains (sat32 (s.dreg .retrains + 1))
  { s with fabric := { s.fabric with down := if s.fabric.down.contains port then s.fabric.down else port :: s.fabric.down } }

def execLinkRetrain (port : Nat) (s : State) : Out :=
  .next (if port < 20 && !s.fabric.down.contains port then s.retrain port else s)

/-- LINK_RETRAINED (R319): traffic returns to the link. -/
def execLinkRetrained (port : Nat) (s : State) : Out :=
  .next { s with fabric := { s.fabric with down := s.fabric.down.filter (· != port) } }

end Sys2Proof.Machine
end

