-- ==== Sys2Proof/Machine/Faults.lean ====
section
/-! DEFINITION. Answers of the driver to its faults, collapses and shootdowns (R107, R300 to R303). -/

namespace Sys2Proof.Machine

/-! ### Answers (R303) -/

/-- A fault is outstanding on a page of a context. -/
def State.isOutst (s : State) (p ctx page : Nat) : Bool := (s.part p).outst.any (fun o => o.ctx == ctx && o.page == page)
/-- It no longer is. -/
def State.clearOutst (s : State) (p ctx page : Nat) : State :=
  s.modPart p (fun y => { y with outst := y.outst.filter (fun o => !(o.ctx == ctx && o.page == page)) })

/-- The blocks of a context whose `bexit` waits for a page, with the code: first their wait ends (R216). -/
def State.errWaiters (s : State) (p ctx page : Nat) : List (Nat × Nat × Block) :=
  s.blocks.filterMap (fun b => match b.2.errWait with
    | some (g, code) =>
      if g = page ∧ (kget s.launches b.2.launch).any (fun l => l.part == p && l.ctx == ctx) then some (code, b.1, b.2) else none
    | none => none)

/-- Every parked entry and paused unit of a context with a fault on a page is released; what was put off is tried again (R303). -/
def State.releasePage (s : State) (p ctx page : Nat) : State :=
  let es := s.errWaiters p ctx page
  let s := ((s.clearOutst p ctx page).unpark p ctx page).unpause p ctx page
  let s := es.foldl (fun st e =>
    let st := st.modBlock e.2.1 (fun b => { b with errWait := none })
    match (e.2.2.warps ++ e.2.2.tctx.toList).head? with
    | some u => st.errSwap u e.1
    | none => st) s
  s.inbRetry p (fun x => x.page == some page && s.preg p (.apCtx x.ap) == ctx)

/-- FQRES_RESUME (R303). -/
def execFqresResume (p page : Nat) (s : State) : Out :=
  let ctx := s.preg p .fqrCtx
  .next (if s.isOutst p ctx page then s.releasePage p ctx page else s)

/-- TRAPINFO of protection by the access of a fault record (R214, R302). -/
def accInfo (acc : Nat) : Nat := if acc = 1 ∨ acc = 3 then 1 else if acc = 2 then 2 else 0

/-- The parked entries of a unit take protection (R27, R303). -/
def State.rejectParked (s : State) (u page : Nat) : State :=
  match kget s.warps u with
  | none => s
  | some w =>
    w.frontier.foldl (fun st e => match e.st with
      | .parked (.driver g acc) =>
        if g = page then st.takeTrap u e.mask e.pc ⟨0x11, accInfo acc, e.next.toNat, e.pc, none⟩ else st
      | _ => st) s

/-- A page is refused to the posted stores of a unit. -/
def Warp.refuse (w : Warp) (page : Nat) : Warp :=
  { w with posted := w.posted.map (fun x =>
      if x.vas.any (fun e => decide (page < e.2 + x.width ∧ e.2 < page + 2 ^ 14)) then { x with rejected := page :: x.rejected } else x) }

/-- Paused engine commands and matrix commands go on with the page refused (R228, R244, R303). -/
def State.refuseUnits (s : State) (p ctx page : Nat) : State :=
  let s := s.engines.foldl (fun st e => match e.2.run with
    | some c => if c.part = p ∧ c.ctx = ctx ∧ c.paused = some page then
        st.setEngine e.1 { e.2 with run := some { c with paused := none, rejected := page :: c.rejected } } else st
    | none => st) s
  let mine (st : State) (k : MCmd) : Bool := k.paused == some page && (st.who k.u).any (fun q => q.part == p && q.ctx == ctx)
  let refuse (k : MCmd) : MCmd := { k with paused := none, rejected := page :: k.rejected }
  s.mengs.foldl (fun st e => st.setMeng e.1 { e.2 with table := replaceIf (mine st) refuse e.2.table }) s

/-- FQRES_REJECT (R303): entries trap, commands stop, fetches void their passes; a `bexit` that waits leaves ERRADDR unwritten;
inbound accesses fail. -/
def execFqresReject (p page : Nat) (s : State) : Out :=
  let ctx := s.preg p .fqrCtx
  .next (if s.isOutst p ctx page then
      let us := (s.warps.map (·.1)).filter (fun u => (s.who u).any (fun q => q.part == p && q.ctx == ctx))
      let es := s.errWaiters p ctx page
      let s := (s.clearOutst p ctx page).refuseUnits p ctx page
      let s := us.foldl (fun st u => (st.modWarp u (fun w => w.refuse page)).rejectParked u page) s
      let s := es.foldl (fun st e => st.modBlock e.2.1 (fun b => { b with errWait := none })) s
      let mine (x : Inb) : Bool := x.page == some page && s.preg p (.apCtx x.ap) == ctx
      let xs := (s.part p).inb.filter mine
      xs.foldl (fun st x => st.inbFail p x 0x11 false) (s.modPart p (fun y => { y with inb := y.inb.filter (fun x => !mine x) }))
    else s)

/-- The transfers that copy a page: 16 KiB in pieces of 256 bytes (R345; log 85). -/
def pageTransfers : Nat := 64

/-- COLLAPSE (R107): the page becomes homed, the translations of it are shot down, and the lanes issue again. With its budget spent it
waits, and the lanes stay parked (R346, R347). -/
def execCollapse (p ctx page : Nat) (s : State) : Out :=
  .next (match (s.part p).outst.find? (fun o => o.ctx == ctx && o.page == page && o.kind == 3 && o.recorded) with
    | none => s
    | some _ =>
      if s.spent 64 then s
      else
        let s := s.spend 64 pageTransfers
        let s := match s.walk p ctx page with
          | .leaf pte sz at_ =>
            if pteClass pte = 2 then
              ((s.dropPage pte sz).setHNat at_ 8 (setBits pte 7 5 3)).tlbDrop p (fun e => e.ctx == ctx && e.pteAt == at_)
            else s
          | _ => s
        s.releasePage p ctx page)

/-! ### Shootdown (R300, R301) -/

/-- SHOOTDOWN (R301): ignored while one runs. -/
def execShootdown (p : Nat) (s : State) : Out :=
  .next (if s.preg p .sdBusy = 1 then s else s.setPreg p .sdBusy 1)

/-- An address lies in the range of a partition's shootdown. -/
def State.sdHit (s : State) (p va : Nat) : Bool :=
  s.preg p .sdAll == 1 || decide (s.preg p .sdVa ≤ va ∧ va < s.preg p .sdVa + s.preg p .sdLen)

/-- No store of the context to the range waits in a queue or at the host (R300). -/
def State.sdQuiet (s : State) (p ctx : Nat) : Bool :=
  s.warps.all (fun w => match s.who w.1 with
    | some q => q.part != p || q.ctx != ctx || w.2.queues.all (fun e => e.2.all (fun x => x.bytes.all (fun b =>
        b.loc.isNone || !s.sdHit p b.va)))
    | none => true) &&
  s.ext.all (fun e => !(e.2.wr && e.2.part == p && e.2.answer.isNone && e.2.peer.isNone && s.sdHit p e.2.va &&
    (s.who e.2.u).all (fun q => q.ctx == ctx)))

/-- The frames of the range: of every translation of it used since its last shootdown, cached still or not, and of what the table
holds now (R300). -/
def State.sdFrames (s : State) (p ctx : Nat) : List (Nat × Nat) :=
  let es := s.tlb.filter (fun e => e.isLeaf && e.part == p && e.ctx == ctx && (s.preg p .sdAll == 1 ||
    decide (e.base < s.preg p .sdVa + s.preg p .sdLen ∧ s.preg p .sdVa < e.base + 2 ^ e.szBits)))
  es.map (fun e => (pteFrame e.pte, pteFrame e.pte + 2 ^ e.szBits)) ++
    (if s.preg p .sdAll = 1 then [] else s.rangePages p ctx (s.preg p .sdVa) (s.preg p .sdVa + s.preg p .sdLen))

/-- SHOOTDOWN_COMPLETE (R75, R300): the range's translations are gone from every cache, its dirty lines are applied and its copies dropped
(R106, R107), the watches on it are dead, and BUSY reads 0. -/
def execShootdownComplete (p : Nat) (s : State) : Out :=
  let ctx := s.preg p .sdCtx
  .next (if s.preg p .sdBusy ≠ 1 || !s.sdQuiet p ctx then s
    else
      let fs := s.sdFrames p ctx
      let hit (c : Nat) (line : Nat) : Bool := lineIn fs line || (s.preg p .sdAll == 1 && c == ctx)
      let s := (s.viewsIn p).foldl (fun st v =>
        ((st.core v).cv.filter (fun l => hit l.2.ctx l.1)).foldl (fun st l => (st.writeBack v l.1).refresh v l.1) st) s
      let s := (dedup ((s.ms.filter (fun w => lineIn fs (w.pa / lineBytes))).map (·.pa))).foldl (fun st pa => st.apply pa) s
      let dead (w : Watch) : Bool := w.part == p && ((s.preg p .sdAll == 1 && w.ctx == ctx) || w.lines.any (lineIn fs))
      let s := (s.coresOf p).foldl (fun st c => if (st.core c).watches.isEmpty then st else st.modCore c (fun x => x.killWatches dead)) s
      let s := s.tlbDrop p (fun e => e.ctx == ctx && (s.preg p .sdAll == 1 ||
        decide (e.base < s.preg p .sdVa + s.preg p .sdLen ∧ s.preg p .sdVa < e.base + 2 ^ e.szBits)))
      s.setPreg p .sdBusy 0)

end Sys2Proof.Machine
end

