-- ==== Sys2Proof/Machine/OrderFirst.lean ====
section
/-! DEFINITION. The order-first instructions (R232 to R239). -/

namespace Sys2Proof.Machine

/-- The transaction a warp holds, submitted or admitted (R233). -/
def State.openTx (s : State) (u : Nat) : Option (Nat × Tx) :=
  ((kget s.warps u).bind (·.tx)).bind (fun t => (kget s.txs t).map (fun x => (t, x)))

/-- The transaction is admitted or overrun (R233). -/
def Tx.inside (x : Tx) : Bool := decide (x.st = .admitted) || decide (x.st = .overrun)
/-- The transaction's batch has been sealed (R233, R234). -/
def Tx.hasMark (x : Tx) : Bool := !(decide (x.st = .flight) || decide (x.st = .seated))

/-- The postmark (R235). -/
def Tx.postmark (x : Tx) : Nat := x.beat % 2 ^ 32 * 2 ^ 32 + x.die * 2 ^ 30 + x.seat % 2 ^ 16

/-- Translate granules (R234): the physical granules, or the first failure. -/
def State.granules (s : State) (c : Ctx) : List Nat → Rd (List Nat)
  | [] => (s, .ok [])
  | g :: t =>
    let va := g * 256
    let page := va / 2 ^ 14 * 2 ^ 14
    let r := s.translate c.p.places c.p.part c.p.ctx page .load
    match r.2 with
    | .driver k => (r.1, .error (.elem .load va (.driver k page)))
    | .prot => (r.1, .error (.elem .load va (.prog 0x11 0)))
    | .leaf pte sz _ =>
      if pteClass pte != 4 || !r.1.firewall c.p.part c.p.ctx (paOf pte sz va) then (r.1, .error (.elem .load va (.prog 0x11 0)))
      else rdThen (r.1.granules c t) (fun s ps => (s, .ok (paOf pte sz va / 256 :: ps)))

/-- `ofsub` (R234): the record, the granules, the handle; the submission is on its way to the die's sequencer. -/
def execOfsub (a d : BitVec 7) (s : State) : Out :=
  warpOp (.ofsub a d) s (fun c t =>
    if c.m = 0 then t.done c c.is.mask
    else
      match t.openTx c.u with
      | some (_, x) => t.trapAll c 0x16 (if x.inside then 3 else 4) 0
      | none =>
        let decl := (c.rd64 a.toNat c.low).toNat
        let r := rdThen (t.readDecl (.warp c) decl) (fun t x =>
          rdThen (t.granules c (x.wr.filter (fun g => windowAt (g * 256) == .global))) (fun t wp =>
            rdThen (t.granules c (x.rd.filter (fun g => windowAt (g * 256) == .global))) (fun t rp =>
              match (x.wr ++ x.rd).find? (fun g => windowAt (g * 256) != .global) with
              | some g => (t, .error (.elem .load (g * 256) (.prog 0x11 0)))
              | none => (t, .ok (x, wp, rp)))))
        match r.2 with
        | .error e => r.1.recFail c e
        | .ok (x, wp, rp) =>
          let die := c.p.core / 192
          let (id, t) := (r.1.dropAnswers c).fresh
          let n := (t.seq die).count
          let tx : Tx := { part := c.p.part, ctx := c.p.ctx, launch := c.p.launch, bid := (kget t.blocks c.p.blk).elim 0 (·.bid),
                           wid := c.p.wid, u := c.u, lcore := c.p.core, decl := decl, tag := x.tag, wr := x.wr, rd := x.rd,
                           wrP := wp, rdP := rp, die := die, handle := die * 2 ^ 30 + n, seat := 0, beat := 0, start := 0, trapDue := false, acqDue := false,
                           st := .flight, since := t.timebase, held := [] }
          let t := t.setSeq die { t.seq die with count := (n + 1) % 2 ^ 30 }
          let t := ({ t with txs := kput t.txs id tx }).setWarp c.u { c.w with tx := some id }
          { c with w := { c.w with tx := some id } }.finishReg t d.toNat 1 (fun _ => ([BitVec.ofNat 32 (die * 2 ^ 30 + n)], 0)) c.row.cls 0)

def execOfwait (s : State) : Out :=
  warpOp .ofwait s (fun c t =>
    match t.openTx c.u with
    | some (_, x) =>
      if x.inside then t.done c c.is.mask
      else (t.modWarp c.u (fun w => w.hold c.m c.is.pc c.is.npc .ofwait)).done c c.rest
    | none => t.done c c.is.mask)

/-- Commit (R109): every held byte is written to H in one step, and the remote copies of those lines are dropped. -/
def State.commitTx (s : State) (t : Nat) : State :=
  match kget s.txs t with
  | none => s
  | some x => (x.held.foldl (fun st b => (st.setH b.1 b.2).rcDrop (b.1 / lineBytes)) s).txDrop t

/-- `ofcommit` (R238): a release for the warp's plain stores, then Commit. -/
def execOfcommit (s : State) : Out :=
  warpOp .ofcommit s (fun c t =>
    match t.openTx c.u with
    | some (id, x) =>
      if !x.inside then t.trapAll c 0x16 5 0
      else
        let r := t.releaseTry c (-1) 4
        if r.2 then ((r.1.commitTx id).modWarp c.u (fun w => { w with tx := none })).done c c.is.mask else r.1.retry
    | none => t.trapAll c 0x16 5 0)

/-- `ofinfo` (R233): the postmark; before the batch is sealed the entry waits and issues again. -/
def execOfinfo (d : BitVec 7) (s : State) : Out :=
  warpOp (.ofinfo d) s (fun c t =>
    let give (v : Nat) : State := c.finishReg t d.toNat 2 (fun _ => (words64 (BitVec.ofNat 64 v), 0)) c.row.cls 0
    match t.openTx c.u with
    | some (_, x) =>
      if x.hasMark then give x.postmark
      else (t.modWarp c.u (fun w => w.hold c.m c.is.pc c.is.pc .ofinfo)).done c c.rest
    | none => give (c.w.postmark.getD (2 ^ 64 - 1)))

end Sys2Proof.Machine
end

