-- ==== Sys2Proof/Machine/Image.lean ====
section
/-! DEFINITION. The context image (R25, R87, R307 to R309): writing it, and reading it back. -/

namespace Sys2Proof.Machine

/-! ### Layout (R307) -/

def up256 (n : Nat) : Nat := (n + 255) / 256 * 256

/-- The register budgets of a block's warps, warp 0 first. -/
def LaunchRec.budgets (l : LaunchRec) : List Nat := (List.range l.blockWarps).map (fun w => 32 * (roleOf l.roles w 0).2.budget)

/-- The offset of a warp's section. -/
def LaunchRec.warpAt (l : LaunchRec) (w : Nat) : Nat := 256 + (l.budgets.take w).foldl (fun n b => n + 4096 + 256 * b) 0
def LaunchRec.barsAt (l : LaunchRec) : Nat := l.warpAt l.blockWarps
def LaunchRec.levelsAt (l : LaunchRec) : Nat := l.barsAt + up256 (8 * l.bars)
def LaunchRec.spadAt (l : LaunchRec) : Nat := l.levelsAt + up256 ((l.spad + 255) / 256)
def LaunchRec.tileAt (l : LaunchRec) : Nat := l.spadAt + up256 l.spad
def LaunchRec.accAt (l : LaunchRec) : Nat := l.tileAt + if l.tentry = 0 then 0 else 8192
/-- The image's bytes, with n saved tiles. -/
def LaunchRec.imageSize (l : LaunchRec) (n : Nat) : Nat := l.accAt + 131072 * n + 256

/-! ### Writing -/

/-- Pieces of an image: offset and bytes. -/
abbrev Pieces := List (Nat × List Byte)

/-- A frontier entry (R25): a tile context at a `ppoint` goes on after it (R249). -/
def Entry.bytes (e : Entry) : List Byte :=
  let atPoint := match e.st with
    | .waiting (.ppoint _) => true
    | _ => false
  let pc := (if atPoint then e.next else e.pc).toNat % top57 / 4 * 4
  let w : Nat := match e.st with
    | .waiting _ => if atPoint then 0 else 2
    | .parked _ => 1
    | .ready => 0
  bytesLE 8 (pc + w) ++ bytesLE 8 e.mask.toNat

/-- The entries of a frontier in PC order (R309). -/
def Warp.imageOrder (w : Warp) : List Entry := sortByKey (fun e : Entry => e.pc.toNat) w.frontier

/-- A store-fault record (R306), with the warp's slot. -/
def SfRec.bytes (r : SfRec) (slot : Nat) : List Byte :=
  bytesLE 8 r.pc.toNat ++ bytesLE 8 r.va ++ bytesLE 8 r.lanes.toNat ++ bytesLE 4 (slot + r.cause * 256 + r.seq * 65536) ++ bytesLE 4 0

/-- OFSTATE, OFHANDLE and POSTMARK of a warp (R233, R309). -/
def State.ofImage (s : State) (w : Warp) : Nat × Nat × Nat :=
  let mark := w.postmark.getD (2 ^ 64 - 1)
  match w.tx.bind (kget s.txs) with
  | some x => (match x.st with
      | .admitted => 2
      | .overrun => 3
      | _ => 1, x.handle, if x.hasMark then x.postmark else mark)
  | none => (0, 0, mark)

/-- The undelivered store-fault records of a unit, in SEQ order. -/
def State.recordsOf (s : State) (core u : Nat) : List SfRec :=
  sortByKey (fun r : SfRec => r.seq) ((s.core core).sfq.filter (fun r => r.u == u))

/-- What a warp section and a tile section share, up to RLEVEL (R309). -/
def State.warpPieces (s : State) (core u : Nat) (w : Warp) (at_ nregs : Nat) : Pieces :=
  let fr := w.imageOrder
  let of := s.ofImage w
  let rs := s.recordsOf core u
  [(at_, fr.flatMap Entry.bytes), (at_ + 0x400, bytesLE 4 fr.length ++ bytesLE 4 w.wbase ++
      bytesLE 4 ((if w.lnOn then 1 else 0) + w.fair * 256 + of.1 * 65536) ++ bytesLE 4 (if w.hlanes = 0 then 0 else 1)),
   (at_ + 0x410, bytesLE 4 of.2.1), (at_ + 0x418, bytesLE 8 of.2.2),
   (at_ + 0x420, (List.range 10).flatMap (fun k => bytesLE 4 (w.trapReg (34 + k)).toNat)),
   (at_ + 0x448, bytesLE 8 w.hlanes.toNat ++ bytesLE 4 rs.length),
   (at_ + 0x500, (List.range 64).flatMap (fun k => bytesLE 4 (sget (0 : Word) w.mods (64 + k)).toNat)),
   (at_ + 0x600, (rs.take 16).flatMap (fun r => r.bytes w.slot)),
   (at_ + 0x800, (List.range 128).flatMap (fun p => bytesLE 8 (w.pred p).toNat)),
   (at_ + 0xC00, (List.range 64).map (fun l => (w.flagsOf l).setWidth 8)),
   (at_ + 0xC40, (List.range nregs).map (fun r => BitVec.ofNat 8 (w.regLevel r)))]

/-- A warp's registers: lane l at + 4l (R309). -/
def Warp.regPieces (w : Warp) (at_ nregs : Nat) : Pieces :=
  (List.range nregs).map (fun r => (at_ + 0x1000 + 256 * r, (List.range 64).flatMap (fun l => bytesLE 4 (w.reg r l).toNat)))

/-- A tensor record (R219). -/
def Tensor.bytes (t : Tensor) : List Byte :=
  bytesLE 8 t.base ++ bytesLE 4 (t.fmt + t.rank * 256 + t.scaleg * 4096 + t.order * 16384) ++
    bytesLE 4 (128 + 128 * 65536) ++ (List.range 5).flatMap (fun k => bytesLE 4 (t.dims.getD k 1)) ++ bytesLE 4 0 ++
    (List.range 4).flatMap (fun k => bytesLE 8 (t.strides.getD k 0)) ++ bytesLE 8 t.scaleBase ++ bytesLE 8 t.scaleStride

/-- The tile context's section: as a warp's to RLEVEL; then v0–v127, the slots, and the counts (R309). -/
def State.tilePieces (s : State) (b : Block) (u : Nat) (w : Warp) (at_ : Nat) : Pieces :=
  s.warpPieces b.core u w at_ 128 ++
  [(at_ + 0x1000, (List.range 128).flatMap (fun r => bytesLE 4 (w.reg r 0).toNat)),
   (at_ + 0x1A00, bytesLE 4 b.vm ++ bytesLE 4 b.vn ++ bytesLE 4 b.vk)] ++
  b.slots.map (fun x => (at_ + 0x1200 + 256 * x.1, x.2.t.bytes ++ (List.replicate (128 - x.2.t.bytes.length) 0) ++
    bytesLE 4 (x.2.row % 65536 + x.2.col % 65536 * 65536)))

/-- A tile's elements, row-major (R87). -/
def Tile.bytes (t : Tile) : List Byte := (List.range 16384).flatMap (fun e => bytesLE 8 (sget (0 : BitVec 40) t.data e).toNat)

/-- A block's header (R308). -/
def Block.header (b : Block) (l : Launch) (reason seqno : Nat) : Pieces :=
  let live := b.tiles.foldl (fun n t => n + 2 ^ t.1) 0
  let spilled := !b.tiles.isEmpty && b.tiles.all (fun t => t.2.spilled)
  [(0, bytesLE 2 1 ++ bytesLE 2 l.ctx ++ bytesLE 4 b.bid ++ bytesLE 8 l.recAddr ++ bytesLE 4 l.seq ++
      bytesLE 4 (b.core + l.lr.blockWarps * 65536 + reason * 2 ^ 24) ++
      bytesLE 8 (live + (if l.lr.tentry = 0 then 0 else 2 ^ 16) + (if spilled then 2 ^ 17 else 0)) ++
      bytesLE 8 (l.lr.imageSize b.tiles.length) ++ bytesLE 8 seqno ++ bytesLE 8 l.lr.barsAt ++ bytesLE 8 l.lr.levelsAt ++
      bytesLE 8 l.lr.spadAt ++ bytesLE 8 (if l.lr.tentry = 0 then 0 else l.lr.tileAt))]

/-- Every piece of a block's image but COMPLETE. -/
def State.imagePieces (s : State) (b : Block) (l : Launch) (reason seqno : Nat) : Pieces :=
  let lr := l.lr
  b.header l reason seqno ++
  ((List.range b.warps.length).zip b.warps).flatMap (fun x => match kget s.warps x.2 with
    | some w => s.warpPieces b.core x.2 w (lr.warpAt x.1) (32 * w.budget) ++ w.regPieces (lr.warpAt x.1) (32 * w.budget)
    | none => []) ++
  b.bars.map (fun x => (lr.barsAt + 8 * x.1, bytesLE 8 (x.2.arrived % 65536 +
    (if x.2.sync then s.liveThreads b else x.2.expect) % 65536 * 65536 + (if x.2.sync then 2 ^ 32 else 0)))) ++
  [(lr.levelsAt, (List.range ((lr.spad + 255) / 256)).map (fun k => BitVec.ofNat 8 (sget b.spLev0 b.spLev k))),
   (lr.spadAt, (List.range lr.spad).map (fun k => sget 0 b.spad k))] ++
  (match b.tctx.bind (fun u => (kget s.warps u).map (fun w => (u, w))) with
   | some (u, w) => s.tilePieces b u w lr.tileAt
   | none => []) ++
  ((List.range b.tiles.length).zip b.tiles).map (fun x => (lr.accAt + 131072 * x.1, x.2.2.bytes))

/-- The value of COMPLETE (R308). -/
def completeOf (seqno : Nat) : Nat := seqno % 2 ^ 63 + 2 ^ 63

/-- Write a block's image at a physical address: its bytes, then COMPLETE (R308). -/
def State.writeImage (s : State) (b : Block) (l : Launch) (reason seqno base : Nat) : State :=
  let n := l.lr.imageSize b.tiles.length
  let t := (s.imagePieces b l reason seqno).foldl (fun st x => st.setHs (base + x.1) x.2) (s.zeroRange base n)
  t.setHNat (base + n - 8) 8 (completeOf seqno)

/-- An image's bytes lie where a partition's context may put them (R323). -/
def State.imagePlace (s : State) (p ctx base n : Nat) : Bool := s.firewall p ctx base && s.firewall p ctx (base + n - 1)

/-! ### Reading (R309, R311, R312) -/

/-- The instruction at an address, and the address after it: what an entry that waits there waits for (R312). -/
def State.instrAt (s : State) (p ctx va : Nat) : Option (Instr × Nat) :=
  let w (a : Nat) : Option Word := (s.vaToPa p ctx a).map (fun pa => BitVec.ofNat 32 (s.hNat pa 4))
  match w va with
  | none => none
  | some x =>
    if isPrefixW x then
      match (w (va + 4)).map decode with
      | some (.ok i) => some (i, va + 8)
      | _ => none
    else
      match decode x with
      | .ok i => some (i, va + 4)
      | .error _ => none

/-- How a saved entry picks up (R312). -/
def State.resumeEntry (s : State) (p ctx : Nat) (w : Warp) (handler : Bool) (v mask : Nat) : Entry :=
  let pc := v / 4 * 4 % top57
  let m := BitVec.ofNat 64 mask
  let e : Entry := { pc := BitVec.ofNat 64 pc, mask := m, st := .ready, stamp := 0, bpSkip := false, next := BitVec.ofNat 64 pc }
  if v % 2 = 1 then (if handler then { e with st := .parked .handler } else e)
  else if v / 2 % 2 = 1 then
    let id (a : BitVec 7) : Nat := (w.reg (w.wbase + a.toNat) ((lowestLane m).getD 0)).toNat
    match s.instrAt p ctx pc with
    | some (.barWait _ a, n) => { e with st := .waiting (.bar (id a)), next := BitVec.ofNat 64 n }
    | some (.barSync a, n) => { e with st := .waiting (.bar (id a)), next := BitVec.ofNat 64 n }
    | some (.sleep _, n) => { e with pc := BitVec.ofNat 64 n, next := BitVec.ofNat 64 n }
    | _ => e
  else e

/-- The raw frontier of a section: word and mask of each entry used. -/
def State.rawFrontier (s : State) (at_ : Nat) : List (Nat × Nat) :=
  (List.range (min 64 (bits (s.hNat (at_ + 0x400) 4) 6 0))).map (fun k => (s.hNat (at_ + 16 * k) 8, s.hNat (at_ + 16 * k + 8) 8))

/-- The masks are non-empty, no lane stands in two, and every live lane in one (R21). -/
def masksOk (live : Mask) : List Nat → Mask → Bool
  | [], seen => (live &&& ~~~seen) == 0
  | m :: t, seen => m != 0 && (BitVec.ofNat 64 m &&& seen) == (0 : Mask) && masksOk live t (seen ||| BitVec.ofNat 64 m)

/-- The registers, predicates, flags, modulo registers, window and trap state of a section, put into a warp (R309, R314). -/
def State.loadRegs (s : State) (w : Warp) (at_ nregs lanes stride : Nat) : Warp :=
  let regs := (List.range nregs).flatMap (fun r => (List.range lanes).map (fun l =>
    (r * 64 + l, BitVec.ofNat 32 (s.hNat (at_ + 0x1000 + stride * r + 4 * l) 4))))
  { w with
    wbase := bits (s.hNat (at_ + 0x404) 4) 8 0,
    regs := ssets (0 : Word) [] regs,
    preds := ssets (0 : Mask) [] ((List.range 127).map (fun p => (p + 1, BitVec.ofNat 64 (s.hNat (at_ + 0x808 + 8 * p) 8)))),
    flags := ssets (0 : BitVec 5) [] ((List.range 64).map (fun l => (l, BitVec.ofNat 5 (s.hNat (at_ + 0xC00 + l) 1)))),
    mods := ssets (0 : Word) [] ((List.range 64).map (fun k => (64 + k, BitVec.ofNat 32 (s.hNat (at_ + 0x500 + 4 * k) 4)))),
    trap := ssets (0 : Word) [] ((List.range 10).map (fun k => (34 + k, BitVec.ofNat 32 (s.hNat (at_ + 0x420 + 4 * k) 4)))) }

/-- The frontier of a section (R312). -/
def State.loadFrontier (s : State) (p ctx : Nat) (w : Warp) (at_ : Nat) : List Entry :=
  let handler := s.hNat (at_ + 0x40C) 4 % 2 == 1
  ((s.rawFrontier at_).map (fun e => s.resumeEntry p ctx w handler e.1 e.2)).foldl (fun fr e => fInsert e fr) []

/-- A warp as its section holds it; what the section lacks is open (log 15). -/
def State.loadWarp (s : State) (p ctx : Nat) (w : Warp) (at_ nregs lanes stride : Nat) : Warp :=
  let w := s.loadRegs w at_ nregs lanes stride
  let sw := s.hNat (at_ + 0x408) 4
  let mark := s.hNat (at_ + 0x418) 8
  { w with
    frontier := s.loadFrontier p ctx w at_, lnOn := sw % 2 == 1, fair := bits sw 14 8, turn := none,
    hlanes := BitVec.ofNat 64 (s.hNat (at_ + 0x448) 8),
    rlev := ssets 0 [] ((List.range nregs).map (fun r => (r, s.hNat (at_ + 0xC40 + r) 1 % 16))),
    plev := ssets 0 [] ((List.range 127).map (fun k => (k + 1, Config.restored s.stepNo (k + 1) % 16))),
    clk := 0, haz := [], xw := none, lin := [],
    postmark := if mark = 2 ^ 64 - 1 then none else some mark }

/-- The store-fault records of a section go back to the core (R310). -/
def State.loadRecords (s : State) (core u at_ : Nat) : State :=
  (List.range (min 16 (bits (s.hNat (at_ + 0x450) 4) 4 0))).foldl (fun st k =>
    let r := at_ + 0x600 + 32 * k
    let x := st.hNat (r + 0x18) 4
    st.sfRecord core u (BitVec.ofNat 64 (st.hNat r 8)) (st.hNat (r + 8) 8) (BitVec.ofNat 64 (st.hNat (r + 16) 8)) (bits x 15 8)) s

/-- The acquire that a unit's admission left to its restore (R236). -/
def State.owedAcquire (s : State) (u : Nat) (due : Bool) : State :=
  match s.who u with
  | some q => if due then s.acquire q.view 4 else s
  | none => s

/-- A saved warp's transaction is its own again (R239), by the handle: with the postmark, the overrun and the acquire of its admission
that came meanwhile (R233, R236). -/
def State.loadTx (s : State) (p u at_ : Nat) : State :=
  if bits (s.hNat (at_ + 0x408) 4) 17 16 = 0 then s
  else
    let h := s.hNat (at_ + 0x410) 4
    match s.txs.find? (fun t => t.2.part == p && t.2.handle == h) with
    | some (k, x) =>
      let s := s.owedAcquire u x.acqDue
      { s with txs := kput s.txs k { x with u := u, trapDue := false, acqDue := false } }.modWarp u (fun w =>
        { w with tx := some k, overrunTrap := x.trapDue, postmark := if x.hasMark then some x.postmark else w.postmark })
    | none => s

/-- One unit of a restored block. -/
def State.loadUnit (s : State) (l : Launch) (core u at_ nregs lanes stride : Nat) : State :=
  let s := s.modWarp u (fun w => s.loadWarp l.part l.ctx w at_ nregs lanes stride)
  (s.loadRecords core u at_).loadTx l.part u at_

/-- The tiles an image holds, ascending (R307). -/
def liveTiles (live : Nat) : List Nat := (List.range 16).filter (fun k => live.testBit k)

/-- The scratchpad, barriers, slots, counts and tiles of an image, put into a block (R307, R309). -/
def State.loadBlock (s : State) (l : Launch) (base : Nat) (b : Block) : Block :=
  let lr := l.lr
  let word := s.hNat (base + 0x18) 4
  let tiles := (List.range (liveTiles (word % 65536)).length).zip (liveTiles (word % 65536))
  let tile (k i : Nat) : Tile :=
    { data := ssets (0 : BitVec 40) [] ((List.range 16384).map (fun e => (e, BitVec.ofNat 40 (s.hNat (base + lr.accAt + 131072 * k + 8 * e) 8)))),
      level := Config.restored s.stepNo (256 + i) % 16, freeing := false, spilled := word.testBit 17,
      back := [], readers := [] }
  let b := { b with
    spad := ssets (0 : Byte) [] ((List.range lr.spad).map (fun k => (k, s.hByte (base + lr.spadAt + k)))),
    spLev := ssets b.spLev0 [] ((List.range ((lr.spad + 255) / 256)).map (fun k => (k, s.hNat (base + lr.levelsAt + k) 1 % 16))),
    bars := (List.range lr.bars).filterMap (fun k =>
      let v := s.hNat (base + lr.barsAt + 8 * k) 8
      if bits v 31 16 = 0 then none else some (k, ⟨bits v 15 0, bits v 31 16, v.testBit 32⟩)),
    tiles := tiles.map (fun x => (x.2, tile x.1 x.2)) }
  if lr.tentry = 0 then b
  else
    let at_ := base + lr.tileAt
    { b with
      vm := s.hNat (at_ + 0x1A00) 4, vn := s.hNat (at_ + 0x1A04) 4, vk := s.hNat (at_ + 0x1A08) 4,
      slots := (List.range 8).filterMap (fun k =>
        let t := tensorOf (s.hNat (at_ + 0x1200 + 256 * k) 128)
        let pos := s.hNat (at_ + 0x1280 + 256 * k) 4
        if t.rank = 0 then none else some (k, ⟨t, bits pos 15 0, bits pos 31 16⟩)) }

end Sys2Proof.Machine
end

