-- ==== Sys2Proof/Machine/Debug.lean ====
section
/-! DEFINITION. Saving and restoring blocks, and the debug service (R249, R310 to R316). -/

namespace Sys2Proof.Machine

/-! ### Saving a block (R310) -/

def Block.units (b : Block) : List Nat := b.warps ++ b.tctx.toList

/-- A unit stands at an instruction boundary with its stores drained and its walks closed (R310). What the ports hold while the session
has lapsed has left the unit (R330). -/
def State.unitQuiet (s : State) (u : Nat) : Bool :=
  match kget s.warps u with
  | some w => w.xw.isNone && w.posted.isEmpty && w.queues.all (fun q => q.2.isEmpty) &&
      s.ext.all (fun e => !(e.2.u == u && e.2.wr && e.2.answer.isNone && !e.2.held))
  | none => true

/-- The matrix engine is between passes of a block (R249). -/
def State.betweenPasses (s : State) (blk : Nat) : Bool :=
  s.mengs.all (fun e => e.2.table.all (fun k => k.blk != blk || !k.granted))

/-- The live-tile mask with which a tile context waits at a `ppoint` (R249). -/
def Warp.atPpoint (w : Warp) : Option Nat :=
  w.frontier.findSome? (fun e => match e.st with
    | .waiting (.ppoint m) => some m
    | _ => none)

/-- The tile context of a block can be saved: it has ended, it waits at a `ppoint` with every posted command complete and every tile
freed that is to be (R242), or the time-out has taken it (R249). -/
def State.tileReady (s : State) (b : Block) : Bool :=
  match b.tctx with
  | none => true
  | some u =>
    match kget s.warps u with
    | some w => b.tileStop || ((w.frontier.isEmpty || w.atPpoint.isSome) && s.mengs.all (fun e => e.2.table.all (fun k => k.u != u)))
    | none => true

/-- A block with a pre-emption pending can be saved now. -/
def State.saveReady (s : State) (blk : Nat) (b : Block) : Bool :=
  !b.stopped && b.units.all s.unitQuiet && s.tileReady b && s.betweenPasses blk

/-- The tiles that a saved block keeps: at a `ppoint` those of its mask, else all (R249). -/
def State.keepTiles (s : State) (b : Block) : Block :=
  match (b.tctx.bind (kget s.warps)).bind Warp.atPpoint with
  | some m => if b.tileStop then b else { b with tiles := b.tiles.filter (fun t => m.testBit t.1) }
  | none => b

/-- A saved block leaves its core; its transactions and commands carry on (R239, R310). -/
def State.unloadBlock (s : State) (blk : Nat) (b : Block) : State :=
  let us := b.units
  let pf := (b.tctx.bind (kget s.warps)).elim [] (·.passFaults)
  let due := (s.warps.filter (fun w => us.contains w.1 && w.2.overrunTrap)).filterMap (fun w => w.2.tx)
  let s := s.modLaunch b.launch (fun l => { l with saved := kput l.saved b.bid ⟨blk, b.warps, b.tctx, pf⟩ })
  let s := s.modCore b.core (fun c => { c with sfq := c.sfq.filter (fun r => !us.contains r.u) })
  let s := { s with warps := s.warps.filter (fun w => !us.contains w.1), blocks := kdel s.blocks blk,
                    ext := s.ext.filter (fun e => e.2.wr || !us.contains e.2.u),
                    txs := s.txs.map (fun (t : Nat × Tx) => if due.contains t.1 then (t.1, { t.2 with trapDue := true }) else t) }
  s.vsSweep b.core

/-- Save a block: its context's lineage on the core is purged, the image written, the block unloaded (R78, R310). -/
def State.saveBlock (s : State) (blk : Nat) (b : Block) (reason seqno base : Nat) : State :=
  match kget s.launches b.launch with
  | none => s
  | some l =>
    let b := s.keepTiles b
    let s := (s.setBlock blk b).purge b.core l.part l.ctx
    (s.writeImage b l reason seqno base).unloadBlock blk b

/-- Where the device keeps the image of a block that it saves on its own account (R330, R349, R350): in a slice group of the block's
partition, at a place that is free (log 14). -/
def State.imageSpot (s : State) (l : Launch) (bid : Nat) : Nat :=
  let gs := (List.range 64).filter (s.part l.part).groups.testBit
  let x := Config.imageAt l.part l.seq bid
  gs.getD (x % gs.length) 0 * 2 ^ 33 + x / 64 % ((2 ^ 33 - l.lr.imageSize 64) / 256) * 256

/-- Save a block on the device's own account: REASON 1, a free SEQNO. -/
def State.saveOwn (s : State) (blk : Nat) (b : Block) (l : Launch) : State :=
  s.saveBlock blk b 1 (Config.imageAt l.part l.seq (b.bid + 2 ^ 32)) (s.imageSpot l b.bid)

/-- A pre-emption of a block is pending from now on. -/
def State.askPreempt (s : State) (blk : Nat) : State :=
  s.modBlock blk (fun b => if b.preempt then b else { b with preempt := true, preemptAt := s.timebase })

/-- A pending pre-emption is dropped: warps and tile context go on where they stand. -/
def State.dropPreempt (s : State) (blk : Nat) : State :=
  match kget s.blocks blk with
  | none => s
  | some b =>
    let s := s.setBlock blk { b with preempt := false, tileStop := false }
    match b.tctx with
    | some u => s.modWarp u (fun w => w.wake (fun e => match e.st with
        | .waiting (.ppoint _) => true
        | _ => false))
    | none => s

/-! ### Restoring (R311) -/

/-- The header of an image (R308). -/
structure Header where
  format : Nat
  ctx : Nat
  bid : Nat
  recAddr : Nat
  lseq : Nat
  lcore : Nat
  nwarps : Nat
  live : Nat
  spilled : Bool
  size : Nat
  seqno : Nat
  deriving DecidableEq, Repr

def State.header (s : State) (at_ : Nat) : Header :=
  let w := s.hNat (at_ + 0x14) 4
  let l := s.hNat (at_ + 0x18) 4
  { format := s.hNat at_ 2, ctx := s.hNat (at_ + 2) 2, bid := s.hNat (at_ + 4) 4, recAddr := s.hNat (at_ + 8) 8,
    lseq := s.hNat (at_ + 0x10) 4, lcore := bits w 9 0, nwarps := bits w 23 16, live := bits l 15 0, spilled := l.testBit 17,
    size := s.hNat (at_ + 0x20) 8, seqno := s.hNat (at_ + 0x28) 8 }

/-- The image at an address is whole, of FORMAT 1, and of a context of the partition that may read it there (R311). -/
def State.imageOk (s : State) (p at_ : Nat) (h : Header) : Bool :=
  h.format == 1 && s.ctxExists p h.ctx && decide (512 ≤ h.size) && s.imagePlace p h.ctx at_ h.size &&
    s.hNat (at_ + h.size - 8) 8 == completeOf h.seqno

/-- The launch of an image, by context and sequence number. -/
def State.launchOf (s : State) (p : Nat) (h : Header) : Option (Nat × Launch) :=
  s.launches.find? (fun l => l.2.part == p && l.2.ctx == h.ctx && l.2.seq == h.lseq && l.2.recAddr == h.recAddr)

/-- A launch that an image of another device or of before a reset brings: the record it names, no node, nothing to admit, every
other block counted as retired (log 19). -/
def State.importLaunch (s : State) (p : Nat) (h : Header) : Option (Nat × Launch × State) :=
  match s.vRead p h.ctx h.recAddr 256 with
  | none => none
  | some v =>
    let l := Launch.initial p h.ctx h.recAddr (LaunchRec.of v) h.lseq none
    let (id, s) := s.fresh
    some (id, { l with nextBlk := l.lr.grid, retired := l.lr.grid }, s)

/-- The blocks of a launch that are resident in the cluster- or die-domain unit of a block. -/
def State.unitMates (s : State) (lid : Nat) (l : Launch) (dom bid : Nat) : List Block :=
  match l.lr.unitOf dom with
  | none => []
  | some n => (s.blocks.map (·.2)).filter (fun b => b.launch == lid && b.bid / max n 1 == bid / max n 1)

/-- The cores a restored block may take (R15, R284, R311): under DET, and after a core's retirement (R349), its own; in a cluster-domain unit its place in the cluster of
its unit; in a die-domain unit that die. -/
def State.restoreCores (s : State) (own : Bool) (lid : Nat) (l : Launch) (h : Header) : List Nat :=
  let cs := s.coresOf l.part
  if l.lr.det || own then cs.filter (· == h.lcore)
  else
    let cs := cs.filter (fun c => (s.unitDieOf l h.bid).all (fun d => c / 192 == d))
    match l.lr.unitOf 3 with
    | some n =>
      let cs := cs.filter (fun c => c % 4 == h.bid % max n 1 % 4)
      match s.unitMates lid l 3 h.bid with
      | b :: _ => cs.filter (fun c => c / 4 == b.core / 4)
      | [] => cs
    | none => cs

/-- The core a restored block takes (R285, R311). -/
def State.restoreCore (s : State) (own : Bool) (lid : Nat) (l : Launch) (h : Header) : Option Nat :=
  (s.restoreCores own lid l h).find? (fun c => s.fitsHere l c && (own || !s.keptFor l c) &&
    (h.spilled || !l.lr.overcommit || decide ((liveTiles h.live).length ≤ s.tilesFree (c / 4))))

/-- The area a restored block has in the pools. -/
def State.restoreArea (s : State) (lid bid : Nat) : Option (State × Area) :=
  match (kget s.launches lid).bind (fun l => if (kget l.saved bid).isSome then l.areas.find? (fun a => a.bid == some bid) else none) with
  | some a => some (s, a)
  | none => s.takeArea lid bid

/-- The commands a saved block has left in a reservation table go to the engine of its cluster, and the tiles they are to free count so
again (R242, R244). -/
def State.moveCmds (s : State) (blk cl : Nat) : State :=
  let ks := s.mengs.flatMap (fun e => e.2.table.filter (fun k => k.blk == blk))
  let s := { s with mengs := s.mengs.map (fun (e : Nat × MEngine) => (e.1, { table := e.2.table.filter (fun k => k.blk != blk) })) }
  let s := s.setMeng cl { s.meng cl with table := (s.meng cl).table ++ ks }
  (ks.filter (fun k => k.kind == .acfree)).foldl (fun st k =>
    st.modBlock blk (fun b => { b with tiles := k.tiles.foldl (fun m i => kmod m i (fun y => { y with freeing := true })) b.tiles })) s

/-- Place a block from its image: its identities, its units, its memories (R311, R312). -/
def State.loadImage (s : State) (lid : Nat) (l : Launch) (at_ : Nat) (h : Header) (core : Nat) (a : Area) (k : SavedBlk) : State :=
  let tu := k.tctx.getD 0
  let s := s.putBlock lid h.bid core k.blk k.us tu a
  let s := ((List.range k.us.length).zip k.us).foldl (fun st x =>
    st.loadUnit l core x.2 (at_ + l.lr.warpAt x.1) (l.lr.budgets.getD x.1 32) 64 256) s
  let s := match k.tctx with
    | some u => (s.loadUnit l core u (at_ + l.lr.tileAt) 128 1 4).modWarp u (fun w =>
        { w with passFaults := k.passFaults, written := (List.range 128).map (fun r => (r, true)) })
    | none => s
  (s.modBlock k.blk (fun b => s.loadBlock l at_ b)).moveCmds k.blk (core / 4)

/-- The identities of a block that was saved here, or fresh ones for an imported one. -/
def State.identities (s : State) (l : Launch) (bid : Nat) : SavedBlk × State :=
  match kget l.saved bid with
  | some k => (k, s)
  | none =>
    let (blk, s) := s.fresh
    let (us, s) := s.freshN l.lr.blockWarps
    let (tu, s) := s.fresh
    ({ blk := blk, us := us, tctx := if l.lr.tentry = 0 then none else some tu, passFaults := [] }, s)

/-- The rest of a restore, once the launch is known: the status, 0 on success. An image whose block is not saved brings a block of its
own. -/
def State.restoreInto (s : State) (own : Bool) (lid : Nat) (l : Launch) (at_ : Nat) (h : Header) : Option State × Nat :=
  if l.saved.any (fun b => decide (b.1 < h.bid)) then (none, 2)
  else
    match s.restoreCore own lid l h, s.restoreArea lid h.bid with
    | some core, some (t, a) =>
      let (k, t) := t.identities l h.bid
      let here := (kget l.saved h.bid).isSome
      let t := t.loadImage lid l at_ h core a k
      (some (t.modLaunch lid (fun l => { l.bindDie h.bid core with
                                                saved := kdel l.saved h.bid, retired := if here then l.retired else l.retired - 1,
                                                units := if here then l.units else l.units ++ k.us ++ k.tctx.toList })), 0)
    | _, _ => (none, 1)

/-- RESTORE (R311): the first failing step decides the status, and then nothing has changed. -/
def State.restoreImage (s : State) (own : Bool) (p at_ : Nat) : State × Nat :=
  let h := s.header at_
  if !s.imageOk p at_ h then (s, 5)
  else
    match s.launchOf p h with
    | some (lid, l) => let r := s.restoreInto own lid l at_ h; (r.1.getD s, r.2)
    | none =>
      match s.importLaunch p h with
      | none => (s, 5)
      | some (lid, l, t) => let r := (t.setLaunch lid l).restoreInto own lid l at_ h; (r.1.getD s, r.2)

/-! ### The debug service (R313, R314) -/

/-- A command ends with a result. -/
def State.dbEnd (s : State) (p r : Nat) : State := (s.setPreg p .dstate 2).setPreg p .dresult r
/-- A command runs on. -/
def State.dbRun (s : State) (p cmd seqno : Nat) : State :=
  ((s.setPreg p .dstate 1).setPreg p .dcmd cmd).setPreg p .dseq seqno
/-- A command is running. -/
def State.dbBusy (s : State) (p : Nat) : Bool := s.preg p .dstate == 1
/-- A command has an effect now: none runs, or it is the one that does. -/
def State.dbOpen (s : State) (p cmd : Nat) : Bool := !s.dbBusy p || s.preg p .dcmd == cmd

/-- DCTX is under hold. -/
def State.dbHeld (s : State) (p : Nat) : Bool := (s.part p).held.contains (s.preg p .dctx)

/-- The resident block that DCTX and DBLOCK name: of the lowest launch sequence number, if several launches have it. -/
def State.dbBlock (s : State) (p : Nat) : Option (Nat × Block) :=
  leastBy (fun b => (kget s.launches b.2.launch).elim 0 (·.seq)) (s.blocks.filter (fun b => b.2.bid == s.preg p .dblock && !b.2.stopped &&
    (kget s.launches b.2.launch).any (fun l => l.part == p && l.ctx == s.preg p .dctx)))

/-- The RESULT of a command whose block or warp is not resident: nothing states it (log 18). -/
def State.dbNone (s : State) (p : Nat) : State := s.dbEnd p (Config.debugValue s.stepNo 0 % 16)

/-- HALT (R314): the context stops at instruction boundaries and is under hold. DPC and BPIDX of such a stop are open (log 18). -/
def execHalt (p : Nat) (s : State) : Out :=
  let ctx := s.preg p .dctx
  .next (if s.dbBusy p then s
    else
      let s := s.modPart p (fun x => { x with held := dedup (ctx :: x.held) })
      (s.stopContext p ctx 1 (Config.debugValue s.stepNo 1 % 4) (Config.debugValue s.stepNo 2 % 2 ^ 57)).dbEnd p 0)

/-- RESUME (R314). -/
def execResume (p : Nat) (s : State) : Out :=
  .next (if s.dbBusy p then s
    else if s.dbHeld p then (s.modPart p (fun x => { x with running := dedup (s.preg p .dctx :: x.running) })).dbEnd p 0
    else s.dbEnd p 0)

/-- RELEASE (R314). -/
def execRelease (p : Nat) (s : State) : Out :=
  let ctx := s.preg p .dctx
  .next (if s.dbBusy p then s
    else (s.modPart p (fun x => { x with held := x.held.filter (· != ctx), running := x.running.filter (· != ctx) })).dbEnd p 0)

/-- Start a step of some entries of a unit: the context does not run meanwhile; NOREADY when the unit cannot issue (R316). -/
def State.startStep (s : State) (p cmd u : Nat) (es : List (Nat × Nat × Mask)) (next : List Choice) : State :=
  let t := s.modPart p (fun x => { x with stepping := es, running := x.running.filter (· != s.preg p .dctx) })
  match kget t.warps u, t.who u with
  | some w, some q =>
    if es.isEmpty || !t.mayIssue u w q then s.dbEnd p 3
    else { t.dbRun p cmd 0 with agenda := next ++ t.agenda }
  | _, _ => s.dbNone p

/-- The warp that DWARP names. -/
def State.dbWarp (s : State) (p : Nat) : Option (Nat × Warp) :=
  match s.dbBlock p with
  | some (_, b) => (b.warps[s.preg p .dwarp]?).bind (fun u => (kget s.warps u).map (fun w => (u, w)))
  | none => none

/-- STEP (R316): one instruction of the entry that R22 or R32 picks. -/
def execStep (p : Nat) (s : State) : Out :=
  .next (if s.dbBusy p then s
    else if !s.dbHeld p then s.dbEnd p 4
    else
      match s.dbWarp p with
      | none => s.dbNone p
      | some (u, w) =>
        let es : List (Nat × Nat × Mask) := match headOf w.frontier with
          | some e => [(u, e.pc.toNat, 0)]
          | none => []
        s.startStep p 3 u es [.issue u])

/-- STEPALL (R316): every entry that is ready now, in frontier order. -/
def execStepall (p : Nat) (s : State) : Out :=
  .next (if s.dbBusy p then s
    else if !s.dbHeld p then s.dbEnd p 4
    else
      match s.dbWarp p with
      | none => s.dbNone p
      | some (u, w) =>
        let es := (w.frontier.filter Entry.isReady).map (fun e => (u, e.pc.toNat, e.mask))
        s.startStep p 4 u es (es.map (fun e => .issueAt u e.2.1)))

/-- SNAP (R314): the image is written once the block stands still, and the block stays. -/
def execSnap (p seqno : Nat) (s : State) : Out :=
  .next (if !s.dbOpen p 5 then s
    else if !s.dbHeld p then s.dbEnd p 4
    else
      let seqno := if s.dbBusy p then s.preg p .dseq else seqno
      match s.dbBlock p with
      | none => s.dbNone p
      | some (blk, b) =>
        match kget s.launches b.launch with
        | none => s.dbNone p
        | some l =>
          if !s.imagePlace p l.ctx (s.preg p .daddr) (l.lr.imageSize b.tiles.length) then s.dbEnd p 5
          else if b.units.all s.unitQuiet && s.betweenPasses blk then (s.writeImage b l 2 seqno (s.preg p .daddr)).dbEnd p 0
          else s.dbRun p 5 seqno)

/-- A unit takes from its section what POKE loads (R314): an entry that stands as the image has it keeps its state. -/
def State.pokeUnit (s : State) (l : Launch) (u at_ nregs lanes stride : Nat) : State :=
  s.modWarp u (fun w =>
    let handler := s.hNat (at_ + 0x40C) 4 % 2 == 1
    let x := s.loadRegs w at_ nregs lanes stride
    let entry (e : Nat × Nat) : Entry :=
      let n := s.resumeEntry l.part l.ctx x handler e.1 e.2
      (w.frontier.find? (fun y => y.pc == n.pc && y.mask == n.mask && !y.isReady)).getD n
    { x with frontier := ((s.rawFrontier at_).map entry).foldl (fun fr e => fInsert e fr) [],
             hlanes := BitVec.ofNat 64 (s.hNat (at_ + 0x448) 8), lin := [], haz := [], turn := none })

/-- The masks of a section keep R21 for a unit: a tile context has lane 0 alone. -/
def State.pokeOk (s : State) (u at_ : Nat) : Bool :=
  let ms := (s.rawFrontier at_).map (·.2)
  match kget s.warps u with
  | some w => masksOk w.live ms 0 && (!w.tile || ms.all (· == 1))
  | none => true

/-- POKE (R314): a mask that breaks R21 gives BADIMAGE and changes nothing. -/
def execPoke (p : Nat) (s : State) : Out :=
  let at_ := s.preg p .daddr
  .next (if s.dbBusy p then s
    else if !s.dbHeld p then s.dbEnd p 4
    else
      match s.dbBlock p with
      | none => s.dbNone p
      | some (_, b) =>
        match kget s.launches b.launch with
        | none => s.dbNone p
        | some l =>
          let ws := (List.range b.warps.length).zip b.warps
          let secs := ws.map (fun x => (x.2, at_ + l.lr.warpAt x.1)) ++ b.tctx.toList.map (fun u => (u, at_ + l.lr.tileAt))
          if !s.imagePlace p l.ctx at_ (l.lr.imageSize 0) || secs.any (fun a => !s.pokeOk a.1 a.2) then s.dbEnd p 5
          else
            let s := ws.foldl (fun st x => st.pokeUnit l x.2 (at_ + l.lr.warpAt x.1) (l.lr.budgets.getD x.1 32) 64 256) s
            let s := match b.tctx with
              | some u => s.pokeUnit l u (at_ + l.lr.tileAt) 128 1 4
              | none => s
            s.dbEnd p 0)

/-- PREEMPT (R310): the pre-emption is pending, and the block is saved once it can be. -/
def execPreempt (p seqno : Nat) (s : State) : Out :=
  .next (if !s.dbOpen p 7 then s
    else
      let seqno := if s.dbBusy p then s.preg p .dseq else seqno
      match s.dbBlock p with
      | none => s.dbNone p
      | some (blk, b) =>
        match kget s.launches b.launch with
        | none => s.dbNone p
        | some l =>
          if !s.imagePlace p l.ctx (s.preg p .daddr) (l.lr.imageSize b.tiles.length) then s.dbEnd p 5
          else if b.preempt && s.saveReady blk b then (s.saveBlock blk b 1 seqno (s.preg p .daddr)).dbEnd p 0
          else (s.askPreempt blk).dbRun p 7 seqno)

/-- RESTORE (R311). -/
def execRestore (p : Nat) (s : State) : Out :=
  .next (if s.dbBusy p then s else let r := s.restoreImage false p (s.preg p .daddr); r.1.dbEnd p r.2)

end Sys2Proof.Machine
end

