-- ==== Sys2Proof/Machine/Power.lean ====
section
/-! DEFINITION. Clocks, rails, power rationing, thermal control and the emergency save (R334 to R343). -/

namespace Sys2Proof.Machine

/-! ### Operating points and rails (R334, R341) -/

/-- The partition that owns a cluster. -/
def State.clusterOwner (s : State) (cl : Nat) : Option Nat := (s.parts.find? (fun e => e.2.clusters.testBit cl)).map (·.1)

/-- The highest vote among the partitions with a cluster on a core rail (R341): rail r of a die feeds its clusters 12r to 12r + 11;
with none, OP 0. -/
def State.railVote (s : State) (die r : Nat) : Nat :=
  ((List.range 12).map (fun j => (s.clusterOwner (48 * die + 12 * r + j)).elim 0 (fun p => s.preg p .opVote))).foldl max 0

/-- The voltage a core rail is to have (R336, R339, R341). -/
def State.railWant (s : State) (die r : Nat) : Nat :=
  opMv (min (s.railVote die r) (min (s.dreg (.thCap die)) (s.dreg .pwrCap)))

def State.setRail (s : State) (die r : Nat) (x : Rail) : State :=
  { s with power := { s.power with rails := kput s.power.rails (railKey die r) x } }

/-- A rail starts to move from the voltage it has now. -/
def State.startRail (s : State) (die r : Nat) (x : Rail) : State :=
  (s.setDreg (.railMv (railKey die r)) (s.railMv die r)).setRail die r x

/-- A rail's votes or caps have changed (R341): a rise begins at once and cancels a hold or a slew down; a fall holds the voltage for
2 ms first, unless the rail falls already. -/
def State.moveRail (s : State) (die r : Nat) : State :=
  let cur := s.railMv die r
  let want := s.railWant die r
  let x := s.rail die r
  if want = x.target then s
  else if cur ≤ want then s.startRail die r ⟨want, none, s.timebase⟩
  else if x.target < cur then s.setRail die r { x with target := want }
  else s.startRail die r ⟨want, some (s.timebase + 2000000), s.timebase⟩

/-- Every core rail follows its votes and caps. -/
def State.moveRails (s : State) : State :=
  (List.range 4).foldl (fun st d => (List.range 4).foldl (fun st r => st.moveRail d r) st) s

/-- OPVOTE (R341, R342): a partition's vote. -/
def execOpvote (p op : Nat) (s : State) : Out := .next (s.setPreg p .opVote (op % 8)).moveRails

/-- RAIL_HOLD_EXPIRY (R341): the hold has ended and the rail slews down at 1 mV/µs. -/
def execRailHoldExpiry (die r : Nat) (s : State) : Out :=
  let x := s.rail die r
  .next (if x.holdTill.any (fun t => decide (t ≤ s.timebase)) then
      s.setRail die r { x with holdTill := none, since := x.holdTill.getD s.timebase }
    else s)

/-- RAIL_VOLTAGE_REACHED (R341): the rail has reached its target and stands there. -/
def execRailVoltageReached (die r : Nat) (s : State) : Out :=
  let x := s.rail die r
  .next (if s.railMv die r = x.target then s.startRail die r ⟨x.target, none, s.timebase⟩ else s)

/-- The operating point a cluster is to run at (R334, R338, R341): the lowest of its partition's vote and the caps, no higher than its
rail's voltage has reached, and OP 0 at the hold point. A cluster that nobody owns has no vote (log 78). -/
def State.clusterOp (s : State) (cl : Nat) : Nat :=
  let die := cl / 48
  let want := min ((s.clusterOwner cl).elim 0 (fun p => s.preg p .opVote)) (min (s.dreg (.thCap die)) (s.dreg .pwrCap))
  if s.power.holdPoint then 0
  else if opMv want ≤ s.railMv die (cl % 48 / 12) then want
  else min want (s.runsOp cl)

/-- A warp at its cluster's quiet point (R335): no result is under way, and what is left of a sleep takes as many cycles of the new
front-end clock as it would have taken of the old (R217). -/
def Warp.reclock (w : Warp) (now old new : Nat) : Warp :=
  { w with haz := [],
           frontier := w.frontier.map (fun e => match e.st with
             | .waiting (.sleep t) => { e with st := .waiting (.sleep (now + (t - now) * old / new)) }
             | _ => e) }

/-- CLOCK_SWITCH (R335): at a quiet point of the cluster the lane operations in flight complete and its clocks take the ratio and the
frequency that are due. -/
def execClockSwitch (cl : Nat) (s : State) : Out :=
  let ratio := s.reg (.ratio cl)
  let op := s.clusterOp cl
  .next (if sget 1 s.power.effRatio cl = ratio ∧ sget 7 s.power.effOp cl = op then s
    else
      let old := s.clusterMhz cl
      let s := { s with power := { s.power with effRatio := sset 1 s.power.effRatio cl ratio, effOp := sset 7 s.power.effOp cl op } }
      { s with warps := s.warps.map (fun (w : Nat × Warp) =>
                 if (kget s.blocks w.2.blk).any (fun b => b.core / 4 == cl) then
                   (w.1, w.2.reclock s.timebase old (s.clusterMhz cl))
                 else w) })

/-- POWER_INTERVAL (R336): every 1 ms the controller compares the module's power with PLIMIT. -/
def execPowerInterval (watts : Nat) (s : State) : Out :=
  let lim := s.dreg .plimit
  let g := s.dreg .grants
  let c := s.dreg .pwrCap
  .next (if s.power.powerAt + 1000000 ≤ s.timebase then
      let s := { s with power := { s.power with powerAt := s.timebase } }
      if lim < watts then (if 8 < g then s.setDreg .grants (max 8 (g - 4)) else (s.setDreg .pwrCap (c - 1)).moveRails)
      else if 100 * watts < 95 * lim then (if c < 7 then (s.setDreg .pwrCap (c + 1)).moveRails else s.setDreg .grants (min 32 (g + 4)))
      else s
    else s)

/-- DROOP (R337): the cluster's next cycle is stretched, which changes timing alone; the event is counted. -/
def execDroop (cl : Nat) (s : State) : Out :=
  .next (if cl < 192 then s.setDreg .droopCnt (sat32 (s.dreg .droopCnt + 1)) else s)

/-! ### The emergency save (R340) -/

/-- An emergency save begins, unless SAVELEN disables it: every clock at the hold point, no dispatch, no admission. -/
def State.beginSave (s : State) : State :=
  if s.dreg .saveLen = 0 then s else { s with power := { s.power with emerg := true, holdPoint := true } }

/-- BROWNOUT_WARNING (R338). -/
def execBrownoutWarning (s : State) : Out :=
  .next (if s.dreg .brownout = 1 then s
    else { s.setDreg .brownout 1 with power := { s.power with holdPoint := true, brownSince := some s.timebase } })

/-- A warning that has lasted 20 ms begins the emergency save (R338). -/
def State.longWarning (s : State) : State :=
  if s.power.brownSince.any (fun t => decide (t + 20000000 ≤ s.timebase)) then s.beginSave else s

/-- BROWNOUT_CLEAR (R338): the clocks return to their votes, unless the warning has lasted 20 ms: the emergency save then runs to its
end. -/
def execBrownoutClear (s : State) : Out :=
  let s := s.longWarning
  .next { s.setDreg .brownout 0 with power := { s.power with holdPoint := s.power.emerg, brownSince := none } }

/-- BROWNOUT_TIMEOUT (R338): the warning has lasted 20 ms. -/
def execBrownoutTimeout (s : State) : Out := .next s.longWarning

/-- The hottest reading of a die is known; its cap moves (R339). -/
def State.thermal (s : State) (die temp : Nat) : State :=
  let s := s.setDreg (.temp die) (temp % 256)
  let cap := s.dreg (.thCap die)
  let setPower (s : State) (f : Power → Power) : State := { s with power := f s.power }
  if 95 ≤ temp then
    let s := setPower s (fun w => { w with cool := kdel w.cool die })
    if (kget s.power.thermAt die).all (fun t => decide (t + 1000000 ≤ s.timebase)) then
      (setPower (s.setDreg (.thCap die) (cap - 1)) (fun w => { w with thermAt := kput w.thermAt die s.timebase })).moveRails
    else s
  else if temp < 90 then
    match kget s.power.cool die with
    | none => setPower s (fun w => { w with cool := kput w.cool die s.timebase })
    | some t =>
      if t + 10000000 ≤ s.timebase then
        (setPower (s.setDreg (.thCap die) (min 7 (cap + 1))) (fun w => { w with cool := kput w.cool die s.timebase })).moveRails
      else s
  else setPower s (fun w => { w with cool := kdel w.cool die })

/-- The blocks an emergency save still has to save, in its order (R340): launch PRIO, launch sequence number, block; partitions in
ascending number. -/
def State.saveOrder (s : State) : List (Nat × Block) :=
  let key (b : Nat × Block) : Nat := match kget s.launches b.2.launch with
    | some l => (((7 - l.lr.prio) * 2 ^ 64 + l.seq) * 2 ^ 8 + l.part) * 2 ^ 40 + b.2.bid
    | none => 0
  sortByKey key (s.blocks.filter (fun b => !b.2.stopped && !s.power.skipped.contains b.1))

/-- The size of a block's image. -/
def State.sizeOf (s : State) (b : Block) : Nat := (kget s.launches b.launch).elim 0 (fun l => l.lr.imageSize (s.keepTiles b).tiles.length)

/-- EMERGENCY_SAVE (R340): the next block is asked for, or left out where its image would pass the region; after the last one
SAVEDONE is set and the device halts until reset. -/
def execEmergencySave (s : State) : Out :=
  .next (if !s.power.emerg || s.power.halted then s
    else
      match s.saveOrder with
      | [] => { s.setDreg .saveDone 1 with power := { s.power with halted := true } }
      | (blk, b) :: _ =>
        if s.power.nextImage + s.sizeOf b ≤ s.dreg .saveLen then s.askPreempt blk
        else { s with power := { s.power with skipped := blk :: s.power.skipped } })

/-- EMERGENCY_IMAGE_WRITE (R308, R340): the block that stands first is written, once it can be, after the image before it. -/
def execEmergencyImageWrite (seqno : Nat) (s : State) : Out :=
  .next (if !s.power.emerg || s.power.halted then s
    else
      match s.saveOrder with
      | (blk, b) :: _ =>
        let n := s.sizeOf b
        if b.preempt && s.saveReady blk b && decide (s.power.nextImage + n ≤ s.dreg .saveLen) then
          let s := s.saveBlock blk b 3 seqno (hostBase + s.dreg .saveBase % hostBase + s.power.nextImage)
          { s with power := { s.power with nextImage := s.power.nextImage + n } }
        else s
      | [] => s)

/-- ENERGY_UPDATE (R342): what a partition's units have used since the last update, at the end of its period. -/
def execEnergyUpdate (p uj : Nat) (s : State) : Out :=
  .next (if sget 0 s.power.energyAt p + s.preg p .ePeriod * 1000000 ≤ s.timebase then
      { s.setPreg p .energy ((s.preg p .energy + uj) % 2 ^ 64) with power := { s.power with energyAt := kput s.power.energyAt p s.timebase } }
    else s)

end Sys2Proof.Machine
end

