-- ==== Sys2Proof/Machine/Trust.lean ====
section
/-! DEFINITION. Partitions, allocation records, secured sessions, levels and firmware activation (R323, R325, R326, R328 to
R333). -/

namespace Sys2Proof.Machine

/-! ### Partitions (R323) -/

/-- CREATE (R323, R351): refused when a named unit is owned, by a partition or by the MSP, the number is taken, or the self-test after
transport runs. `conf` is CONF and the ENERGY that a partition which migrates here brings and counts on from (R342), 0 for a new
one. -/
def execCreate (p clusters groups : Nat) (conf : Bool × Nat) (s : State) : Out :=
  let owned := groups &&& Config.protectedGroups != 0 ||
    s.parts.any (fun e => e.2.clusters &&& clusters != 0 || e.2.groups &&& groups != 0)
  .next (if decide (16 ≤ p) || (s.part p).created || owned || s.dreg .testing == 1 || decide (2 ^ 192 ≤ clusters) ||
      decide (2 ^ 64 ≤ groups) then s
    else
      let pool (k : Nat) : Pool := ⟨(Config.pool p k).1, (Config.pool p k).2⟩
      (((s.setPart p { Part.empty with created := true, clusters := clusters, groups := groups, spill := pool 0, privPool := pool 1,
                                       save := pool 2 }).setPreg p .conf (if conf.1 then 1 else 0)).setPreg p .energy (conf.2 % 2 ^ 64)).moveRails)

/-- The partition's memory, scratchpads, accumulators, cached lines, lineage, records and keys become zeros or go, with everything
that was under way in it (R330). -/
def State.scrubPart (s : State) (p : Nat) : State :=
  let x := s.part p
  let mine (pa : Nat) : Bool := decide (pa < devTop) && x.groups.testBit (pa / 2 ^ 33)
  let ls := (s.launches.filter (fun l => l.2.part == p)).map (·.1)
  let bs := (s.blocks.filter (fun b => ls.contains b.2.launch)).map (·.1)
  let own (b : Nat) : Bool := bs.contains b || s.launches.any (fun l => l.2.part == p && l.2.saved.any (fun k => k.2.blk == b))
  let blks := (s.mengs.flatMap (fun e => e.2.table.map (·.blk))).filter own
  let q (n : Nat × Node) : Bool := s.qreg n.2.q .part == p
  { s with
    warps := s.warps.filter (fun w => !bs.contains w.2.blk), blocks := s.blocks.filter (fun b => !bs.contains b.1),
    launches := s.launches.filter (fun l => l.2.part != p), cores := s.cores.filter (fun c => !x.clusters.testBit (viewCluster c.1)),
    mem := s.mem.filter (fun e => !mine e.1), ms := s.ms.filter (fun w => !mine w.pa),
    rc := s.rc.map (fun (d : Nat × KMap RcLine) => (d.1, d.2.filter (fun l => !mine (l.1 * lineBytes)))),
    rl := s.rl.map (fun (d : Nat × KMap RlEntry) => (d.1, d.2.filter (fun e => e.2.part != p))),
    relOwner := s.relOwner.filter (fun e => !mine (e.1 * lineBytes)), ext := s.ext.filter (fun e => e.2.part != p),
    tlb := s.tlb.filter (fun e => e.part != p),
    engines := s.engines.map (fun (e : Nat × Engine) => (e.1, { e.2 with queue := e.2.queue.filter (fun c => c.part != p),
                                                                         run := e.2.run.filter (fun c => c.part != p),
                                                                         fin := e.2.fin.filter (fun f => f.part != p) })),
    txs := s.txs.filter (fun t => t.2.part != p),
    seqs := s.seqs.map (fun (d : Nat × DieSeq) => (d.1, { d.2 with openAt := d.2.openAt.filter (fun k => k.1 / 2 ^ 16 != p),
                                                                        seats := d.2.seats.filter (fun k => k.1 / 2 ^ 16 != p) })),
    mengs := s.mengs.map (fun (e : Nat × MEngine) => (e.1, { table := e.2.table.filter (fun k => !blks.contains k.blk) })),
    nodes := s.nodes.filter (fun n => !q n), rings := s.rings.filter (fun r => s.qreg r.1 .part != p) }

/-- The partition is gone: its units are free, its vote is removed, its registers stand as after reset (R330, R341; log 20). -/
def State.freePart (s : State) (p : Nat) : State :=
  let s := s.scrubPart p
  let s := { s with regs := s.regs.filter (fun e => match e.1 with
      | .p n _ => n != p
      | _ => true) }
  (s.setPart p Part.empty).moveRails

/-- PARTITION_RELEASE (R323, R330). -/
def execPartitionRelease (p : Nat) (s : State) : Out := .next (if (s.part p).created then s.freePart p else s)

/-! ### Allocation records (R326, R328) -/

/-- The index that the MSP gives a new record: the lowest free one (log 122). -/
def Part.freeRec (x : Part) : Nat := ((List.range (x.allocs.length + 1)).find? (fun k => (kget x.allocs k).isNone)).getD 0

/-- ALLOCATION_RECORD_WRITE (R326): the records of one partition never overlap; the MSP returns the index of a new one. A record named
with V = 0 goes, and its key with it. -/
def execAllocationRecordWrite (p rec base len ctx keyid slevel key : Nat) (valid : Bool) (s : State) : Out :=
  let x := s.part p
  let clash := x.allocs.any (fun a => a.2.valid && decide (base < a.2.base + a.2.len ∧ a.2.base < base + len))
  .next (if !x.created then s
    else if !valid then s.setPart p { x with allocs := kdel x.allocs rec }
    else if clash || base % 2 ^ 14 != 0 || len % 2 ^ 14 != 0 || decide (2 ^ 52 ≤ base ∨ 65536 ≤ ctx ∨ 4096 ≤ keyid ∨ 16 ≤ slevel) then s
    else
      let a : AllocRec := { base := base, len := len, ctx := ctx, keyid := keyid, slevel := slevel, valid := true,
                            wrap := if keyid = 0 then 0 else Config.keyWrap p ctx key }
      { s.setPart p { x with allocs := kput x.allocs x.freeRec a } with out := { s.out with msp := s.out.msp ++ [x.freeRec] } })

/-- A command reads or writes a physical range. -/
def State.cmdMeets (s : State) (c : Cmd) (lo hi : Nat) : Bool :=
  let hit (va n : Nat) : Bool := (List.range n).any (fun j => (s.vaToPa c.part c.ctx (va + j)).any (fun pa => decide (lo ≤ pa ∧ pa < hi)))
  if c.coll then
    let n := collBytes c.ckind
    (List.range c.count).any (fun k => hit (c.csrc + n * k) n) || (List.range c.collOut).any (fun k => hit (c.cdst + n * k) n)
  else (List.range c.elems).any (fun k => (c.touches k).any (fun t => hit t.2.1 t.2.2))

/-- A matrix command fetches, drains to or arrives at a physical range. -/
def State.mcmdMeets (s : State) (p ctx : Nat) (k : MCmd) (lo hi : Nat) : Bool :=
  let hit (va n : Nat) : Bool := (List.range n).any (fun j => (s.vaToPa p ctx (va + j)).any (fun pa => decide (lo ≤ pa ∧ pa < hi)))
  (List.range 4).any (fun w => (List.range 16384).any (fun e => (k.needs w e).any (fun x => hit x.1 x.2))) ||
    (k.kind == .mdrain && (k.outs.any (fun o => hit o.2.2 (fmtSize k.out.fmt)) || hit k.absmax 4)) || hit k.addr 4

/-- Everything that the owner of a buffer has under way on it (R328): its block-transfer and matrix commands, and its stores whose
translation is still open, which may be to it. -/
def State.ownerBusy (s : State) (p ctx lo hi : Nat) : Bool :=
  let mine (lid : Nat) : Bool := (kget s.launches lid).any (fun l => l.part == p && l.ctx == ctx)
  s.engines.any (fun e => (e.2.queue ++ e.2.run.toList).any (fun c => c.part == p && c.ctx == ctx && s.cmdMeets c lo hi)) ||
    s.mengs.any (fun e => e.2.table.any (fun k => (kget s.blocks k.blk).any (fun b => mine b.launch) && s.mcmdMeets p ctx k lo hi)) ||
    s.warps.any (fun w => (kget s.blocks w.2.blk).any (fun b => mine b.launch) && !w.2.posted.isEmpty)

/-- HANDOFF (R328): once nothing of the old owner is under way on the buffer, the key is wrapped for the receiver and the record
changes owner, in one step. -/
def execHandoff (p rec ctx : Nat) (s : State) : Out :=
  let x := s.part p
  .next (match kget x.allocs rec with
    | some r =>
      let busy := s.ownerBusy p r.ctx r.base (r.base + r.len)
      if !r.valid || !s.ctxExists p ctx || decide (s.curLevel p ctx < r.slevel) || busy then s
      else
        let wrap := if r.keyid = 0 then 0 else Config.keyWrap p ctx (Config.keyUnwrap p r.ctx r.wrap)
        s.setPart p { x with allocs := kput x.allocs rec { r with ctx := ctx, wrap := wrap } }
    | none => s)

/-- LEVEL_LOWER (R325): a page's SLEVEL (kind 0: context, virtual address), a scratchpad block (1: the block, offset) or a context's
CURLEVEL (2) falls, at the request of a verifier with the partition's session. -/
def execLevelLower (p kind who addr level : Nat) (s : State) : Out :=
  .next (if s.preg p .sstate ≠ 1 then s
    else
      match kind with
      | 0 =>
        match s.walk p who addr with
        | .leaf pte _ at_ => if level < pteLevel pte then s.setHNat at_ 8 (setBits pte 11 8 level) else s
        | _ => s
      | 1 =>
        match kget s.blocks who with
        | some b =>
          if (kget s.launches b.launch).any (fun l => l.part == p) && decide (level < b.levAt addr) then
            s.setBlock who { b with spLev := sset b.spLev0 b.spLev (addr / 256) level }
          else s
        | none => s
      | 2 =>
        if s.ctxExists p who ∧ level < s.curLevel p who then
          s.setHNat (s.preg p .ctxTab + 64 * who) 8 (setBits (s.descriptor p who) 7 4 level)
        else s
      | _ => s)

/-! ### Sessions and the heartbeat (R329, R330) -/

def msNs (n : Nat) : Nat := n * 1000000

/-- The moment L at which a partition's session lapses. -/
def State.lapseAt (s : State) (p : Nat) : Nat := s.preg p .lastHb + msNs (s.preg p .hbPeriod)

/-- SESSION_BIND (R329): the partition has no session yet. Number 16 is the physical function's. -/
def execSessionBind (p key : Nat) (s : State) : Out :=
  .next (if p = 16 then (if s.fw.session.isNone then { s with fw := { s.fw with session := some key } } else s)
    else if (s.part p).created ∧ s.preg p .sstate = 0 then
      ((s.modPart p (fun x => { x with key := some key, lastCtr := 0 })).setPreg p .sstate 1).setPreg p .lastHb s.timebase
    else s)

/-- The resident blocks of a partition that have not ended. -/
def State.blocksIn (s : State) (p : Nat) : List (Nat × Block) :=
  s.blocks.filter (fun b => !b.2.stopped && (kget s.launches b.2.launch).any (fun l => l.part == p))

/-- Save every block of a lapsed partition that can be saved now; its image stays in the partition's memory (R330; log 14). -/
def State.lapseSave (s : State) (p : Nat) : State :=
  (s.blocksIn p).foldl (fun st b =>
    match kget st.blocks b.1, kget st.launches b.2.launch with
    | some x, some l =>
      if x.preempt && st.saveReady b.1 x then
        (st.saveOwn b.1 x l).modPart p
          (fun y => { y with lapseSaved := y.lapseSaved ++ [(x.launch, x.bid)] })
      else st
    | _, _ => st) s

/-- The blocks saved by a lapse are restored in ascending BLOCK (R330, R311), as far as they fit now. -/
def State.lapseRestore (s : State) (p : Nat) : List (Nat × Nat) → State
  | [] => s.modPart p (fun y => { y with lapseSaved := [] })
  | e :: t =>
    match kget s.launches e.1 with
    | some l =>
      let r := s.restoreImage false p (s.imageSpot l e.2)
      if r.2 = 0 then r.1.lapseRestore p t else s.modPart p (fun y => { y with lapseSaved := e :: t })
    | none => s.lapseRestore p t

/-- SESSION_LAPSE (R330): from L on; and again whenever a further block can be saved, or after the heartbeat restored. -/
def execSessionLapse (p : Nat) (s : State) : Out :=
  .next (if s.preg p .sstate = 1 ∧ s.lapseAt p ≤ s.timebase then
      ((s.blocksIn p).foldl (fun st b => st.askPreempt b.1) (s.setPreg p .sstate 2)).lapseSave p
    else if s.preg p .sstate = 2 then s.lapseSave p
    else if s.preg p .sstate = 1 ∧ (s.part p).lapseSaved ≠ [] then s.lapseRestore p (s.part p).lapseSaved
    else s)

/-- SESSION_HALT (R330): from L + HBGRACE on the tile contexts are taken between two passes, and what can be saved is. -/
def execSessionHalt (p : Nat) (s : State) : Out :=
  .next (if (s.preg p .sstate = 2 ∧ s.lapseAt p + msNs (s.preg p .hbGrace) ≤ s.timebase) ∨ s.preg p .sstate = 3 then
      ((s.blocksIn p).foldl (fun st b => if st.betweenPasses b.1 then st.modBlock b.1 (fun x => { x with tileStop := true }) else st)
        (s.setPreg p .sstate 3)).lapseSave p
    else s)

/-- SESSION_SCRUB (R330): at L + HBRETAIN held traffic and paused commands are discarded; then the partition is scrubbed and
released. -/
def execSessionScrub (p : Nat) (s : State) : Out :=
  .next (if s.preg p .sstate = 3 ∧ s.lapseAt p + 1000 * msNs (s.preg p .hbRetain) ≤ s.timebase then
      { s.setPreg p .sstate 4 with
        ext := s.ext.filter (fun e => e.2.part != p),
        engines := s.engines.map (fun (e : Nat × Engine) => (e.1, { e.2 with queue := e.2.queue.filter (fun c => c.part != p),
                                                                             run := e.2.run.filter (fun c => c.part != p) })) }
    else if s.preg p .sstate = 4 then s.freePart p
    else s)

/-- A partition goes on after a lapse (R330): what was not saved resumes where it stands, held traffic leaves, and the saved blocks are
restored in ascending BLOCK. -/
def State.revive (s : State) (p : Nat) : State :=
  let s := (s.blocksIn p).foldl (fun st b => st.dropPreempt b.1) s
  let s := { s with ext := s.ext.map (fun (e : Nat × ExtReq) =>
    if e.2.part = p ∧ e.2.held then (e.1, { e.2 with held := false, since := s.timebase }) else e) }
  s.lapseRestore p (sortByKey (fun (e : Nat × Nat) => e.2) (s.part p).lapseSaved)

/-- A heartbeat is valid (R329): in time with a counter above the last one accepted, or on a new session of the same tenant key before the
retention window ends. -/
def State.hbValid (s : State) (p ctr key : Nat) (fresh : Bool) : Bool :=
  let x := s.part p
  let st := s.preg p .sstate
  x.key == some key &&
    ((st == 1 && decide (s.timebase < s.lapseAt p) && (fresh || decide (x.lastCtr < ctr))) ||
     (decide (1 ≤ st ∧ st ≤ 3) && fresh && decide (s.timebase < s.lapseAt p + 1000 * msNs (s.preg p .hbRetain))))

/-- HEARTBEAT (R329, R330): one that is not valid is answered with an error and changes nothing. -/
def execHeartbeat (p ctr key : Nat) (fresh : Bool) (s : State) : Out :=
  .next (if s.hbValid p ctr key fresh then
      let t := ((s.modPart p (fun x => { x with lastCtr := ctr })).setPreg p .lastHb s.timebase).setPreg p .sstate 1
      if 2 ≤ s.sess p then t.revive p else t
    else s.toHost true [])

/-! ### Firmware (R331 to R333) -/

/-- The partition, firewall and aperture configuration, as one list. -/
def State.configList (s : State) : List Nat :=
  s.parts.flatMap (fun e => [e.1, e.2.clusters, e.2.groups, s.preg e.1 .conf, s.preg e.1 .hBase, s.preg e.1 .hLen] ++
    (List.range 16).flatMap (fun a => [s.preg e.1 (.apEn a), s.preg e.1 (.apObase a), s.preg e.1 (.apOlen a), s.preg e.1 (.apPerm a),
      s.preg e.1 (.apLevel a), s.preg e.1 (.apVabase a), s.preg e.1 (.apCtx a)]))

/-- Measurement block i, 1–9 (R331). -/
def State.measurement (s : State) (i : Nat) : Nat :=
  if i = 9 then Config.cfgDigest s.configList else (kget s.fw.running i).getD (Config.firmware i)

/-- The digest of the staged image, 0 when none is. -/
def State.stagedDigest (s : State) : Nat := match s.fw.staged with
  | some x => x.2.1
  | none => 0

/-- GET_MEASUREMENTS (R331, R333): one block, or with index 0xFF all of them, as of now, with ACTSEQ and STAGED. -/
def execGetMeasurements (idx : Nat) (s : State) : Out :=
  let vals : Option (List Nat) :=
    if idx = 0xFF then some ((List.range 9).map (fun k => s.measurement (k + 1)))
    else if 1 ≤ idx ∧ idx ≤ 9 then some [s.measurement idx]
    else if idx = 0xF0 then some []
    else none
  .next (match vals with
    | some vs => { s with fw := { s.fw with replies := s.fw.replies ++ [(idx, vs, s.fw.actseq, s.stagedDigest)] } }
    | none => s)

/-- STAGE (R332): accepted when the signature verifies and the security version is no lower than the running one. -/
def execStage (comps vals : List Nat) (digest secver sig : Nat) (s : State) : Out :=
  .next (if Config.verifies digest sig && decide (s.fw.secver ≤ secver) && comps.all (fun c => decide (2 ≤ c ∧ c ≤ 8)) &&
      !comps.isEmpty && comps.length == vals.length && s.fw.switching.isEmpty then
      { s with fw := { s.fw with staged := some (comps.zip vals, digest, secver) } }
    else s)

/-- ACTIVATE (R332): the components switch in ascending index, the MSP's firmware last. -/
def execActivate (s : State) : Out :=
  .next (match s.fw.staged with
    | some x =>
      if s.fw.switching.isEmpty then
        { s with fw := { s.fw with switching := sortByKey (fun (c : Nat × Nat) => if c.1 = 2 then 16 else c.1) x.1 } }
      else s
    | none => s)

/-- COMPONENT_SWITCH (R332): a component's measurement changes and ACTSEQ rises by 1; the last switch clears STAGED. -/
def execComponentSwitch (s : State) : Out :=
  .next (match s.fw.switching with
    | c :: t =>
      let fw := { s.fw with running := kput s.fw.running c.1 c.2, actseq := (s.fw.actseq + 1) % 2 ^ 64, switching := t }
      { s with fw := if t.isEmpty then { fw with staged := none, secver := (s.fw.staged.elim s.fw.secver (·.2.2)) } else fw }
    | [] => s)

end Sys2Proof.Machine
end

