-- ==== Sys2Proof/Machine/Fleet.lean ====
section
/-! DEFINITION. Budgets, the patrol scrub, repair in service, hot swap, transport, reset and the loss of power (R3, R226, R286, R339,
R344 to R352). -/

namespace Sys2Proof.Machine

def State.setFleet (s : State) (f : Fleet → Fleet) : State := { s with fleet := f s.fleet }

/-! ### Budgets and errors (R345 to R348) -/

/-- The transfers an activity has asked for in the period that ends, those that waited at its start among them. Which accesses make a
transfer is open but for the scrub, the collapse engine and the exchange, whose events count them (log 13). -/
def State.asked (s : State) (k : Nat) : Nat :=
  sget 0 s.fleet.used k + (if k < 64 ∨ k = 66 then Config.transfers s.stepNo k else 0)

/-- A budget ran out: some of its transfers wait for the next period (R345, R346). -/
def State.ranOut (s : State) (k : Nat) : Bool := s.budget k != noLimit && decide (s.budget k ≤ s.asked k)

/-- A partition's stall counters take a period in which a budget ran out (R346). -/
def State.countStalls (s : State) (p : Nat) : State :=
  let one (st : State) (k : Nat) (cnt : PReg) : State :=
    if s.ranOut (4 * p + k) then st.setPreg p cnt (sat32 (st.preg p cnt + 1)) else st
  one (one (one s 0 .d2dStall) 1 .hylisStall) 2 .hostStall

/-- The budgets of the period that begins (R345): the registers as they stand, and first in line the transfers that still wait; what was
not used lapses. -/
def State.newPeriod (s : State) (f : Fleet) : Fleet :=
  let ks := List.range 68
  { f with budgets := ks.foldl (fun m k => sset (budgetReg k).reset m k (s.reg (budgetReg k))) [],
           used := ks.foldl (fun m k => sset 0 m k (if s.budget k = noLimit then 0 else s.asked k - s.budget k)) [] }

def sat64 (n : Nat) : Nat := min n (2 ^ 64 - 1)

/-- Errors that ECC has corrected in SRAM and DRAM are counted (R348). -/
def State.countCorrected (s : State) : State :=
  (List.range 4).foldl (fun st d => st.setDreg (.ceCount d) (sat64 (st.dreg (.ceCount d) + Config.corrected s.stepNo d))) s

/-- BUDGET_PERIOD (R345): periods begin at multiples of 10,000 ns. -/
def execBudgetPeriod (s : State) : Out :=
  let now := s.timebase / 10000 * 10000
  .next (if now ≤ s.fleet.period then s
    else (s.parts.foldl (fun st e => st.countStalls e.1) s).countCorrected.setFleet (fun f =>
      { s.newPeriod f with period := now }))

/-- What the patrol scrub may still read in the running period. -/
def State.scrubLeft (s : State) (n : Nat) : Nat := if s.budget 65 = noLimit then n else min n (s.budget 65 - sget 0 s.fleet.used 65)

/-- PATROL_SCRUB (R346 to R348): up to n reads of the running period's budget; corrected errors are counted. -/
def execPatrolScrub (n : Nat) (s : State) : Out :=
  let k := s.scrubLeft n
  .next (if k = 0 then s
    else ((s.spend 65 k).setFleet (fun f => { f with scrubAt := (f.scrubAt + k) % 2 ^ 31 })).countCorrected)

/-! ### Service commands (R348, R349) -/

def State.svcEnd (s : State) (r : Nat) : State := (s.setDreg .svcState 2).setDreg .svcResult r
/-- The argument of the command that runs, or of one that starts now: SVCARG as it stood at the start. -/
def State.svcArg (s : State) : Nat := if s.dreg .svcState = 1 then s.dreg .svcNow else s.dreg .svcArg
def State.svcRun (s : State) (cmd : Nat) : State := ((s.setDreg .svcNow s.svcArg).setDreg .svcState 1).setDreg .svcCmd cmd
/-- A command has an effect now: none runs, or it is the one that does. -/
def State.svcOpen (s : State) (cmd : Nat) : Bool := s.dreg .svcState != 1 || s.dreg .svcCmd == cmd

/-- A repair is noted. -/
def State.note (s : State) (what where_ which : Nat) : State :=
  s.setFleet (fun f => { f with repaired := f.repaired ++ [(what, where_, which)] })

/-- Blocks that the service saves: on request, once they can be (R310). -/
def State.svcSave (s : State) (sel : Block → Bool) : State :=
  (s.blocks.filter (fun b => !b.2.stopped && sel b.2)).foldl (fun st b =>
    match kget st.blocks b.1, kget st.launches b.2.launch with
    | some x, some l =>
      if x.preempt && st.saveReady b.1 x then
        (st.saveOwn b.1 x l).setFleet (fun f => { f with retired := f.retired ++ [(x.launch, x.bid)] })
      else st.askPreempt b.1
    | _, _ => st) s

/-- The blocks the service has saved come back (R311, R349), as far as they can now: the others stay saved. -/
def State.svcRestore (s : State) : List (Nat × Nat) → State
  | [] => s.setFleet (fun f => { f with retired := [], retiring := [] })
  | e :: t =>
    match kget s.launches e.1 with
    | some l =>
      let r := s.restoreImage true l.part (s.imageSpot l e.2)
      if r.2 = 0 then r.1.svcRestore t else s.setFleet (fun f => { f with retired := e :: t })
    | none => s.svcRestore t

/-- The blocks a retirement has saved come back in ascending BLOCK; with the last of them the command ends. -/
def State.svcReturn (s : State) : State :=
  let s := s.svcRestore (sortByKey (fun (e : Nat × Nat) => e.2) s.fleet.retired)
  if s.fleet.retired.isEmpty then s.svcEnd 0 else s

/-- A logical core moves from a physical core: to a spare of its die, or, with CORESPARES 0, to a physical core that then serves two
(R286, R349). Which one is the model's choice: the lowest that can (log 22). None when there is none. -/
def State.moveCore (s : State) (die l phys : Nat) : Option State :=
  let serves (k : Nat) : Nat := (s.servedBy die k).length
  let used (k : Nat) : Bool := k == phys || s.fleet.repaired.contains (1, die, k)
  let spare := if s.dreg (.coreSpares die) = 0 then none else (List.range 192).find? (fun k => serves k == 0 && !used k)
  match spare with
  | some k => some ((s.setDreg (.lmPhys l) k).setDreg (.coreSpares die) (s.dreg (.coreSpares die) - 1))
  | none =>
    match (List.range 192).find? (fun k => serves k == 1 && !used k) with
    | some k =>
      let s := (s.servedBy die k).foldl (fun st x => st.setDreg (.lmShared x) 1) ((s.setDreg (.lmPhys l) k).setDreg (.lmShared l) 1)
      some (s.setFleet (fun f => { f with inactive := l :: f.inactive, sliceAt := kput f.sliceAt (192 * die + k) s.timebase }))
    | none => none

/-- The physical core of a die leaves service. -/
def State.retireCore (s : State) (die phys : Nat) : Option State :=
  ((s.servedBy die phys).foldl (fun st l => st.bind (fun t => t.moveCore die l phys)) (some s)).map (fun t => t.note 1 die phys)

/-- RETIRECORE (R349): its blocks are pre-empted, the lattice entry moves, the blocks are restored. Meanwhile nothing else is placed
where they return to. -/
def execRetirecore (s : State) : Out :=
  let phys := bits s.svcArg 7 0
  let die := bits s.svcArg 9 8
  let ls := s.servedBy die phys
  .next (if !s.svcOpen 1 then s
    else if s.dreg .testing = 1 then s.svcEnd 4
    else if s.fleet.retiring ≠ [] ∧ ls = [] then s.svcReturn
    else if phys > 191 || ls.isEmpty then s.svcEnd 2
    else if (s.retireCore die phys).isNone then s.svcEnd 1
    else
      let s := ((s.svcRun 1).setFleet (fun f => { f with retiring := ls })).svcSave (fun b => ls.contains b.core)
      if s.blocks.any (fun b => !b.2.stopped && ls.contains b.2.core) then s
      else ((s.retireCore die phys).getD s).svcReturn)

/-- A channel's copy to a spare of its stack. -/
def State.spareChannel (s : State) (stack ch : Nat) : Option State :=
  let n := s.dreg (.chSpares stack)
  if n = 0 then none
  else
    let s := (s.setDreg (.chSpares stack) (n - 1)).note 2 stack ch
    some (s.setFleet (fun f => { f with moved := kput f.moved (256 * stack + ch) (160 + (8 - n)) }))

/-- SPARECH (R349). A stack has 160 channels (R2, R323). -/
def execSparech (s : State) : Out :=
  let arg := s.svcArg
  let stack := bits arg 2 0
  let ch := bits arg 10 3
  .next (if !s.svcOpen 2 then s
    else if s.dreg .testing = 1 then s.svcEnd 4
    else if 160 ≤ ch then s.svcEnd 2
    else
      match s.spareChannel stack ch with
      | some t => t.svcEnd 0
      | none => s.svcEnd 1)

/-- The stack that holds a device address: two for each die, eight slice groups on each (log 22). -/
def stackOf (pa : Nat) : Nat := pa / 2 ^ 33 / 8

/-- The channel of its stack that holds a device address (R323): 20 to a slice group, granule by granule in rotation. -/
def channelOf (pa : Nat) : Nat := 20 * (pa / 2 ^ 33 % 8) + 2 * (pa / 256 % 2 ^ 25 % 10) + pa / 256 % 2 ^ 25 / 10 % 2

/-- A row's repair: its lines are copied aside and back, so no byte changes. -/
def State.repairRow (s : State) (pa : Nat) : Option State :=
  let n := s.dreg (.rowReps (stackOf pa))
  if n = 0 then none else some ((s.setDreg (.rowReps (stackOf pa)) (n - 1)).note 3 (stackOf pa) pa)

/-- UNCORRECTABLE_ERROR (R348): the line's data is lost and the line retired: its readers trap with data loss. UECOUNT rises, and
where the error's pattern calls for one the MSP repairs the row or spares the channel. -/
def execUncorrectableError (pa : Nat) (s : State) : Out :=
  .next (if pa < devTop then
      let d := (homeDie pa).getD 0
      let s := s.setDreg (.ueCount d) (sat64 (s.dreg (.ueCount d) + 1))
      let line := pa / lineBytes
      let s := s.setFleet (fun f => { f with lost := if f.lost.contains line then f.lost else line :: f.lost })
      match Config.errorPattern s.stepNo pa with
      | 1 => (s.repairRow pa).getD s
      | 2 => (s.spareChannel (stackOf pa) (channelOf pa)).getD s
      | _ => s
    else s)

/-- ROWREP (R349). -/
def execRowrep (s : State) : Out :=
  let pa := s.svcArg
  .next (if !s.svcOpen 3 then s
    else if s.dreg .testing = 1 then s.svcEnd 4
    else if devTop ≤ pa then s.svcEnd 2
    else
      match s.repairRow pa with
      | some t => t.svcEnd 0
      | none => s.svcEnd 1)

/-- A spare lane takes the place of one of a link: a Hylis link (0–19) retrains for it, a boundary (20–23) pauses. -/
def State.spareLane (s : State) (link lane : Nat) : Option State :=
  let n := s.dreg (.lanesLeft link)
  if n = 0 then none
  else
    let s := ((s.setDreg (.lanesLeft link) (n - 1)).note 4 link lane).setFleet (fun f => { f with laneMap := kput f.laneMap (32 * link + lane) n })
    some (if link < 20 then s.retrain link else s)

/-- LANESPARE (R349). -/
def execLanespare (s : State) : Out :=
  let arg := s.svcArg
  let link := bits arg 4 0
  .next (if !s.svcOpen 4 then s
    else if s.dreg .testing = 1 then s.svcEnd 4
    else if 24 ≤ link then s.svcEnd 2
    else
      match s.spareLane link (bits arg 12 8) with
      | some t => t.svcEnd 0
      | none => s.svcEnd 1)

/-! ### Transport (R351, R352) -/

/-- The lattice map: PHYS and SHARED of every logical core. -/
def State.lattice (s : State) : List Nat := (List.range 768).map (fun l => s.dreg (.lmPhys l) + 256 * s.dreg (.lmShared l))

/-- TSEAL (R351): refused with RESULT 3 while any partition exists. -/
def execTseal (s : State) : Out :=
  .next (if !s.svcOpen 5 then s
    else if s.parts.any (fun e => e.2.created) then s.svcEnd 3
    else
      ((s.setFleet (fun f => { f with baseline := some (f.laneMap, f.repaired, s.lattice) })).setDreg .sealed 1).svcEnd 0)

/-- One repair of the self-test: what, which unit, whether a spare was found. -/
def State.testRepair (s : State) (what unit : Nat) : State × (Nat × Nat × Nat) :=
  let r : Option State :=
    if what = 1 then s.retireCore (unit / 192 % 4) (unit % 192)
    else if what = 2 then s.spareChannel (unit / 256 % 8) (unit % 256)
    else s.spareLane (unit / 32 % 24) (unit % 32)
  match r with
  | some t => (t, (what, unit, 1))
  | none => (s, (what, unit, 0))

/-- The repairs of the self-test, in order, with its report. -/
def State.testRepairs (s : State) : List (Nat × Nat) → State × List (Nat × Nat × Nat)
  | [] => (s, [])
  | (what, unit) :: t =>
    let r := s.testRepair what unit
    let q := r.1.testRepairs t
    (q.1, r.2 :: q.2)

/-- TRANSPORT_SELF_TEST (R351, R352): the test ends with the faults it found (a core as die × 192 + PHYS, a channel as 256 × stack +
channel, a lane as 32 × link + lane), unless a warning stops it. -/
def execTransportSelfTest (cores chans lanes : List Nat) (s : State) : Out :=
  .next (if s.dreg .testing ≠ 1 || s.dreg .brownout == 1 || s.power.emerg then s
    else
      let r := s.testRepairs (cores.map (fun c => (1, c)) ++ chans.map (fun c => (2, c)) ++ lanes.map (fun c => (4, c)))
      let s := r.1.setFleet (fun f => { f with report := r.2 })
      let s := s.hostPut (hostBase + s.dreg .repBase % hostBase) (Config.deltaReport r.2)
      ((s.setDreg .sealed 0).setDreg .testing 0).setDreg .delta 1)

/-! ### Hot swap (R350) -/

/-- A partition's memory and its ENERGY, as they leave for another device. -/
def State.partBytes (s : State) (p : Nat) : List Byte :=
  bytesLE 8 (s.preg p .energy) ++ ((s.mem.filter (fun e => decide (e.1 < devTop) && (s.part p).groups.testBit (e.1 / 2 ^ 33))).flatMap
    (fun e => bytesLE 8 e.1 ++ [e.2]))

/-- Every created partition's memory goes to the destination. -/
def State.sendParts (s : State) (dest : Nat) : State :=
  let xs := (s.parts.filter (fun e => e.2.created)).map (fun e => (dest, e.1, s.partBytes e.1))
  { s with out := { s.out with bus := s.out.bus ++ xs } }

/-- SWAPOUT (R350), phase by phase: copy; stop, with every block pre-empted; switch, after which the module holds no tenant. -/
def execSwapout (s : State) : Out :=
  let dest := s.svcArg
  .next (if !s.svcOpen 6 then s
    else if s.dreg .testing = 1 then s.svcEnd 4
    else if 255 < dest then s.svcEnd 2
    else
      match s.fleet.swapPhase with
      | 0 => ((s.svcRun 6).sendParts dest).setFleet (fun f => { f with swapPhase := 1, swapTo := some dest })
      | 1 => (s.svcSave (fun _ => true)).setFleet (fun f => { f with swapPhase := 2 })
      | 2 =>
        let s := s.svcSave (fun _ => true)
        if s.blocks.any (fun b => !b.2.stopped) then s
        else
          let ps := (s.parts.filter (fun e => e.2.created)).map (·.1)
          let s := s.sendParts dest
          ((ps.foldl (fun st p => st.freePart p) s).setFleet (fun f => { f with swapPhase := 3, retired := [] })).svcEnd 0
      | _ => s.svcEnd 0)

/-! ### Reset and the loss of power (R226, R339, R344, R351) -/

/-- What a register keeps without power: spares left, the lattice map, the seal (log 23). -/
def Reg.lasting : Reg → Bool
  | .d (.coreSpares _) => true
  | .d (.chSpares _) => true
  | .d (.rowReps _) => true
  | .d (.lanesLeft _) => true
  | .d (.lmPhys _) => true
  | .d (.lmShared _) => true
  | .d .sealed => true
  | _ => false

/-- A register with no reset value holds its contents over a reset (R7, R343). -/
def Reg.held : Reg → Bool
  | .d (.temp _) => true
  | .d (.railMv _) => true
  | _ => false

/-- The rails stand where they are. -/
def State.settleRails (s : State) : State :=
  (List.range 4).foldl (fun st d => (List.range 4).foldl (fun st r => st.setDreg (.railMv (railKey d r)) (s.railMv d r)) st) s

/-- Of two logical cores that share a physical one, the higher is switched out at first (R286). -/
def State.sharers (s : State) : List Nat :=
  (List.range 768).filter (fun l => s.dreg (.lmShared l) == 1 &&
    (List.range l).any (fun k => k / 192 == l / 192 && s.dreg (.lmPhys k) == s.dreg (.lmPhys l)))

/-- The device without its volatile state: host memory is not the device's; repairs, the baselines and the firmware are in storage that
needs no power, and the fabric's configuration outlasts a reset (log 23). -/
def State.wipe (s : State) (on : Bool) : State :=
  { State.reset with
    agenda := s.agenda, stepNo := s.stepNo, nextUid := s.nextUid, powered := on, mem := s.mem.filter (fun e => decide (devTop ≤ e.1)),
    regs := s.settleRails.regs.filter (fun e => e.1.lasting || (on && e.1.held)), fw := { State.reset.fw with running := s.fw.running, secver := s.fw.secver },
    fabric := if on then { State.reset.fabric with me := s.fabric.me, routes := s.fabric.routes } else State.reset.fabric,
    fleet := { State.reset.fleet with repaired := s.fleet.repaired, moved := s.fleet.moved, laneMap := s.fleet.laneMap,
                                      baseline := s.fleet.baseline, inactive := s.sharers },
    out := s.out }

/-- A die's hottest reading (R339, R344): at 115 °C module power goes, and with it every state the device holds; at 105 °C the
emergency save begins; the cap follows it. -/
def State.reading (s : State) (die temp : Nat) : State :=
  if 4 ≤ die then s
  else if 115 ≤ temp then s.wipe false
  else if 105 ≤ temp then (s.thermal die temp).beginSave
  else s.thermal die temp

/-- THERMAL_INTERVAL (R339). -/
def execThermalInterval (die temp : Nat) (s : State) : Out := .next (s.reading die temp)

/-- THERMAL_CRITICAL (R339). -/
def execThermalCritical (die temp : Nat) (s : State) : Out := .next (if 105 ≤ temp then s.reading die temp else s)

/-- THERMAL_TRIP (R339, R344). -/
def execThermalTrip (die temp : Nat) (s : State) : Out := .next (if 115 ≤ temp then s.reading die temp else s)

/-- DEVICE_RESET (R226, R351, R352): the reset values; at the first power-up with SEALED set, and while its test has not ended, the
self-test after transport runs. -/
def execDeviceReset (s : State) : Out :=
  let test := s.dreg .sealed == 1 && (!s.powered || s.dreg .testing == 1)
  .next (if test then (s.wipe true).setDreg .testing 1 else s.wipe true)

/-- What still happens once an emergency save has ended and the device stays halted (R340): reset, the outside, the sensors. -/
def runsHalted : Instr → Bool
  | .deviceReset => true
  | .hostAccess _ _ _ _ _ => true
  | .thermalInterval _ _ => true
  | .thermalCritical _ _ => true
  | .thermalTrip _ _ => true
  | .brownoutWarning => true
  | .brownoutClear => true
  | .flitReplay _ _ => true
  | .linkRetrain _ => true
  | .linkRetrained _ => true
  | .getMeasurements _ => true
  | _ => false

/-- An event may happen now: it is no instruction word, and the device does not stand halted (R340). -/
def State.eventOpen (s : State) (i : Instr) : Bool := !i.isWord && (!s.power.halted || runsHalted i)

end Sys2Proof.Machine
end

