-- ==== Sys2Proof/Machine/Float.lean ====
section
/-! DEFINITION. Binary32, packed half and binary64 arithmetic (R165 to R169, R172 to R176). -/

namespace Sys2Proof.Machine

def execFaddF32 (b a d : BitVec 7) (s : State) : Out := fOp2 (.faddF32 b a d) s b a d (addF f32)
def execFsubF32 (b a d : BitVec 7) (s : State) : Out := fOp2 (.fsubF32 b a d) s b a d (subF f32)
def execFmulF32 (b a d : BitVec 7) (s : State) : Out := fOp2 (.fmulF32 b a d) s b a d (mulF f32)
def execFfmaF32 (b a d : BitVec 7) (s : State) : Out := fOp3 (.ffmaF32 b a d) s b a d (fmaF f32)
def execFdivF32 (b a d : BitVec 7) (s : State) : Out := fOp2 (.fdivF32 b a d) s b a d (divF f32)
def execFsqrtF32 (a d : BitVec 7) (s : State) : Out := fOp1 (.fsqrtF32 a d) s a d (sqrtF f32)
def execFminF32 (b a d : BitVec 7) (s : State) : Out := fOp2 (.fminF32 b a d) s b a d (fun _ _ => minmaxF f32 false)
def execFmaxF32 (b a d : BitVec 7) (s : State) : Out := fOp2 (.fmaxF32 b a d) s b a d (fun _ _ => minmaxF f32 true)
/-- R168: only bit 31 changes. -/
def execFabsF32 (a d : BitVec 7) (s : State) : Out := wordOp1 (.fabsF32 a d) s a d (fun x => x &&& 0x7FFFFFFF)
def execFnegF32 (a d : BitVec 7) (s : State) : Out := wordOp1 (.fnegF32 a d) s a d (fun x => x ^^^ 0x80000000)
def execFrndF32 (a d : BitVec 7) (s : State) : Out := fOp1 (.frndF32 a d) s a d (fun m _ => frndF f32 m)

def execHadd2F16 (b a d : BitVec 7) (s : State) : Out := hOp2 (.hadd2F16 b a d) s b a d (addF f16)
def execHmul2F16 (b a d : BitVec 7) (s : State) : Out := hOp2 (.hmul2F16 b a d) s b a d (mulF f16)
def execHfma2F16 (b a d : BitVec 7) (s : State) : Out := hOp3 (.hfma2F16 b a d) s b a d (fmaF f16)
def execHadd2Bf16 (b a d : BitVec 7) (s : State) : Out := hOp2 (.hadd2Bf16 b a d) s b a d (addF bf16)
def execHmul2Bf16 (b a d : BitVec 7) (s : State) : Out := hOp2 (.hmul2Bf16 b a d) s b a d (mulF bf16)
def execHfma2Bf16 (b a d : BitVec 7) (s : State) : Out := hOp3 (.hfma2Bf16 b a d) s b a d (fmaF bf16)
def execHmin2Bf16 (b a d : BitVec 7) (s : State) : Out := hOp2 (.hmin2Bf16 b a d) s b a d (fun _ _ => minmaxF bf16 false)
def execHmax2Bf16 (b a d : BitVec 7) (s : State) : Out := hOp2 (.hmax2Bf16 b a d) s b a d (fun _ _ => minmaxF bf16 true)
def execFdot2Bf16 (b a d : BitVec 7) (s : State) : Out := fOp3 (.fdot2Bf16 b a d) s b a d fdot2

def execDadd (b a d : BitVec 7) (s : State) : Out := dOp2 (.dadd b a d) s b a d (addF f64)
def execDmul (b a d : BitVec 7) (s : State) : Out := dOp2 (.dmul b a d) s b a d (mulF f64)
def execDfma (b a d : BitVec 7) (s : State) : Out := dOp3 (.dfma b a d) s b a d (fmaF f64)
def execDmin (b a d : BitVec 7) (s : State) : Out := dOp2 (.dmin b a d) s b a d (fun _ _ => minmaxF f64 false)
def execDmax (b a d : BitVec 7) (s : State) : Out := dOp2 (.dmax b a d) s b a d (fun _ _ => minmaxF f64 true)
def execDdiv (b a d : BitVec 7) (s : State) : Out := dOp2 (.ddiv b a d) s b a d (divF f64)
def execDsqrt (a d : BitVec 7) (s : State) : Out := dOp1 (.dsqrt a d) s a d (sqrtF f64)

end Sys2Proof.Machine
end

