-- ==== Sys2Proof/Machine/Integer.lean ====
section
/-! DEFINITION. Integer, logic and bit-field instructions, immediate forms and constants (R149 to R160). -/

namespace Sys2Proof.Machine

/-! ### Two-operand word instructions (R149) -/

def execAddW (b a d : BitVec 7) (s : State) : Out := wordOp2 (.addW b a d) s b a d (fun x y => x + y)
def execSubW (b a d : BitVec 7) (s : State) : Out := wordOp2 (.subW b a d) s b a d (fun x y => x - y)
def execAddsSw (b a d : BitVec 7) (s : State) : Out := wordOp2 (.addsSw b a d) s b a d (fun x y => satS32 (x.toInt + y.toInt))
def execAddsUw (b a d : BitVec 7) (s : State) : Out := wordOp2 (.addsUw b a d) s b a d (fun x y => satU32 (x.toNat + y.toNat))
def execSubsSw (b a d : BitVec 7) (s : State) : Out := wordOp2 (.subsSw b a d) s b a d (fun x y => satS32 (x.toInt - y.toInt))
def execSubsUw (b a d : BitVec 7) (s : State) : Out :=
  wordOp2 (.subsUw b a d) s b a d (fun x y => satU32 ((x.toNat : Int) - y.toNat))
def execMulW (b a d : BitVec 7) (s : State) : Out := wordOp2 (.mulW b a d) s b a d (fun x y => x * y)
def execMulhiSw (b a d : BitVec 7) (s : State) : Out :=
  wordOp2 (.mulhiSw b a d) s b a d (fun x y => BitVec.ofInt 32 (x.toInt * y.toInt / 2 ^ 32))
def execMulhiUw (b a d : BitVec 7) (s : State) : Out :=
  wordOp2 (.mulhiUw b a d) s b a d (fun x y => BitVec.ofNat 32 (x.toNat * y.toNat / 2 ^ 32))
def execMinSw (b a d : BitVec 7) (s : State) : Out := wordOp2 (.minSw b a d) s b a d (minBy keyS)
def execMinUw (b a d : BitVec 7) (s : State) : Out := wordOp2 (.minUw b a d) s b a d (minBy keyU)
def execMaxSw (b a d : BitVec 7) (s : State) : Out := wordOp2 (.maxSw b a d) s b a d (maxBy keyS)
def execMaxUw (b a d : BitVec 7) (s : State) : Out := wordOp2 (.maxUw b a d) s b a d (maxBy keyU)

/-- R150. -/
def execMadW (b a d : BitVec 7) (s : State) : Out := wordOp3 (.madW b a d) s b a d (fun x y z => x * y + z)

/-- R151: the magnitude of −2^31 is 0x7FFF_FFFF with st = 1, else 0x8000_0000. -/
def execAbsSw (a d : BitVec 7) (s : State) : Out :=
  regOp (.absSw a d) s d 1 (fun c l =>
    let x := c.rd a.toNat l
    ([if x = 0x80000000 then (if c.px.st then 0x7FFFFFFF else 0x80000000) else if x.msb then -x else x], 0))
def execNegW (a d : BitVec 7) (s : State) : Out := wordOp1 (.negW a d) s a d (fun x => -x)

/-! ### Pairs (R152) -/

def execAddD (b a d : BitVec 7) (s : State) : Out :=
  pairOp (.addD b a d) s d (fun c l => c.rd64 a.toNat l + c.rd64 b.toNat l)
def execSubD (b a d : BitVec 7) (s : State) : Out :=
  pairOp (.subD b a d) s d (fun c l => c.rd64 a.toNat l - c.rd64 b.toNat l)
def execAddwD (b a d : BitVec 7) (s : State) : Out :=
  pairOp (.addwD b a d) s d (fun c l => c.rd64 a.toNat l + (c.rd b.toNat l).signExtend 64)
def execMulSwd (b a d : BitVec 7) (s : State) : Out :=
  pairOp (.mulSwd b a d) s d (fun c l => (c.rd a.toNat l).signExtend 64 * (c.rd b.toNat l).signExtend 64)
def execMulUwd (b a d : BitVec 7) (s : State) : Out :=
  pairOp (.mulUwd b a d) s d (fun c l => (c.rd a.toNat l).setWidth 64 * (c.rd b.toNat l).setWidth 64)

/-! ### Dot products (R153) -/

def execIdot4Sb (b a d : BitVec 7) (s : State) : Out :=
  wordOp3 (.idot4Sb b a d) s b a d (idot4 (fun x => x.toInt))
def execIdot4Ub (b a d : BitVec 7) (s : State) : Out :=
  wordOp3 (.idot4Ub b a d) s b a d (idot4 (fun x => (x.toNat : Int)))

/-! ### Logic, shifts and bit fields (R154 to R158) -/

def execAnd (b a d : BitVec 7) (s : State) : Out := wordOp2 (.and b a d) s b a d (fun x y => x &&& y)
def execOr (b a d : BitVec 7) (s : State) : Out := wordOp2 (.or b a d) s b a d (fun x y => x ||| y)
def execXor (b a d : BitVec 7) (s : State) : Out := wordOp2 (.xor b a d) s b a d (fun x y => x ^^^ y)
def execAndn (b a d : BitVec 7) (s : State) : Out := wordOp2 (.andn b a d) s b a d (fun x y => x &&& ~~~y)
def execMov (a d : BitVec 7) (s : State) : Out := wordOp1 (.mov a d) s a d (fun x => x)
def execShl (b a d : BitVec 7) (s : State) : Out := wordOp2 (.shl b a d) s b a d shlW
def execShr (b a d : BitVec 7) (s : State) : Out := wordOp2 (.shr b a d) s b a d shrW
def execSra (b a d : BitVec 7) (s : State) : Out := wordOp2 (.sra b a d) s b a d sraW
def execRotl (b a d : BitVec 7) (s : State) : Out := wordOp2 (.rotl b a d) s b a d (fun x y => x.rotateLeft (y.toNat % 32))
def execClz (a d : BitVec 7) (s : State) : Out := wordOp1 (.clz a d) s a d clzW
def execPopc (a d : BitVec 7) (s : State) : Out := wordOp1 (.popc a d) s a d popcW
def execBrev (a d : BitVec 7) (s : State) : Out := wordOp1 (.brev a d) s a d brevW
def execBfxUw (b a d : BitVec 7) (s : State) : Out := wordOp2 (.bfxUw b a d) s b a d bfxU
def execBfxSw (b a d : BitVec 7) (s : State) : Out := wordOp2 (.bfxSw b a d) s b a d bfxS
def execBfi (b a d : BitVec 7) (s : State) : Out := wordOp3 (.bfi b a d) s b a d bfiW
def execPerm (b a d : BitVec 7) (s : State) : Out := wordOp3 (.perm b a d) s b a d permW

/-! ### Immediate forms and constants (R159, R160) -/

def execAddiW (i : BitVec 12) (a d : BitVec 7) (s : State) : Out := wordOp1 (.addiW i a d) s a d (fun x => x + sext12 i)
def execAndi (i : BitVec 12) (a d : BitVec 7) (s : State) : Out := wordOp1 (.andi i a d) s a d (fun x => x &&& zext12 i)
def execOri (i : BitVec 12) (a d : BitVec 7) (s : State) : Out := wordOp1 (.ori i a d) s a d (fun x => x ||| zext12 i)
def execXori (i : BitVec 12) (a d : BitVec 7) (s : State) : Out := wordOp1 (.xori i a d) s a d (fun x => x ^^^ zext12 i)
def execShli (i : BitVec 5) (a d : BitVec 7) (s : State) : Out := wordOp1 (.shli i a d) s a d (fun x => shlW x (i.setWidth 32))
def execShri (i : BitVec 5) (a d : BitVec 7) (s : State) : Out := wordOp1 (.shri i a d) s a d (fun x => shrW x (i.setWidth 32))
def execSrai (i : BitVec 5) (a d : BitVec 7) (s : State) : Out := wordOp1 (.srai i a d) s a d (fun x => sraW x (i.setWidth 32))
def execMovi (i : BitVec 18) (d : BitVec 7) (s : State) : Out := regOp (.movi i d) s d 1 (fun _ _ => ([i.signExtend 32], 0))
/-- R160: the low 14 bits of the old destination stay. -/
def execMovu (i : BitVec 18) (d : BitVec 7) (s : State) : Out :=
  regOp (.movu i d) s d 1 (fun c l => ([i ++ (c.rd d.toNat l).extractLsb' 0 14], 0))

end Sys2Proof.Machine
end

