-- ==== Sys2Proof/Machine/LineageOps.lean ====
section
/-! DEFINITION. The lineage instructions (R79, R81). -/

namespace Sys2Proof.Machine

/-- A copy whose destination carries no lineage. -/
def execUntag (a d : BitVec 7) (s : State) : Out :=
  regOp (.untag a d) s d 1 (fun c l => ([c.rd a.toNat l], 0))

/-- What `lnq` reports of a register (R81); on a tile context R79's own value (log 26). -/
def State.lnqOf (s : State) (c : Ctx) (a : Nat) : Word :=
  let r := c.w.wbase + a
  let pack (lin att : Nat) (num low count : Nat) : Word :=
    BitVec.ofNat 32 (lin + att * 2 + num * 4 + low * 2 ^ 12 + min count 16383 * 2 ^ 18)
  if c.w.tile then BitVec.ofNat 32 (0x7F000 + if sget false c.w.written r then 2 ^ 18 else 0)
  else
    match s.linOf c.p.core c.w r with
    | some (m, e) => pack 1 (if m.attached then 1 else 0) e.num ((lowestLane e.root).getD 63) (s.linCount c.p.core m.eid m.member)
    | none =>
      match kget c.w.lin r with
      | some m => pack 0 (if m.attached then 1 else 0) 0 63 (s.linCount c.p.core m.eid m.member)
      | none => pack 0 0 0 63 1

def execLnq (a d : BitVec 7) (s : State) : Out :=
  match front (.lnq a d) s with
  | .stop t => .next t
  | .go c t => .next (c.finishReg t d.toNat 1 (fun _ => ([t.lnqOf c a.toNat], 0)) .n 0)

/-- Kill the watches of a context that cover an address's line (R81). -/
def State.killCovering (s : State) (p : Who) (bs : List PByte) : State :=
  match bs with
  | [] => s
  | b :: _ =>
    let hit (w : Watch) : Bool := match b.loc with
      | .mem pa => w.lines.contains (pa / lineBytes)
      | .spad k off => (kget s.blocks k).any (fun x => w.units.contains (x.unitAt off))
      | .peer _ _ => false
    s.modCore p.core (fun c => c.killWatches (fun w => w.part == p.part && w.ctx == p.ctx && hit w))

/-- `lnkill` (R81): mode 0 purges the context on this core; mode 1 kills the watches on the line of an address, checked and
translated as a load's. -/
def execLnkill (i a : BitVec 7) (s : State) : Out :=
  warpOp (.lnkill i a) s (fun c t =>
    if c.m = 0 ∨ c.w.tile then t.done c c.is.mask
    else if i = 0 then (t.purge c.p.core c.p.part c.p.ctx).done c c.is.mask
    else
      let addr := c.rd64 a.toNat c.low
      let r := t.checkElem c.p c.u c.low .load false false 0 addr 1
      match r.2 with
      | .ok bs => (r.1.killCovering c.p bs).done c c.is.mask
      | e => r.1.failAll c .load addr.toNat e)

/-- The lineage switch; a tile context has none (R79). -/
def switchOp (i : Instr) (s : State) (on : Bool) : Out :=
  warpOp i s (fun c t => (t.modWarp c.u (fun w => if w.tile then w else { w with lnOn := on })).done c c.is.mask)
def execLnon (s : State) : Out := switchOp .lnon s true
def execLnoff (s : State) : Out := switchOp .lnoff s false

end Sys2Proof.Machine
end

