-- ==== Sys2Proof/Machine/OrderFirstEvents.lean ====
section
/-! DEFINITION. The order sequencers, the exchange of batches, and the grants of the home slices (R234 to R239, R267). -/

namespace Sys2Proof.Machine

/-- The launch of a transaction. -/
def State.txLaunch (s : State) (x : Tx) : Option Launch := kget s.launches x.launch
/-- The beat length of a transaction's launch in nanoseconds (R234, R291). -/
def State.txBeat (s : State) (x : Tx) : Nat := max ((s.txLaunch x).elim 500 (·.beatLen)) 1

/-! ### The log in replay (R239, R289) -/

/-- The batch entries of a die's log: LCORE, WARP, beat, seat. Their RUN fields hold 16 bits of beats that never fall. -/
def batchEntries : Nat → Nat → List (Nat × Nat) → List (Nat × Nat × Nat × Nat)
  | _, _, [] => []
  | hi, last, e :: t =>
    if bits e.1 59 57 == 1 then
      let b := bits e.2 31 16
      let hi := if b < last then hi + 65536 else hi
      (bits e.2 9 0, bits e.2 15 10, hi + b, bits e.2 47 32) :: batchEntries hi b t
    else batchEntries hi last t

def State.batches (s : State) (l : Launch) (die : Nat) : List (Nat × Nat × Nat × Nat) :=
  batchEntries 0 0 ((List.range (s.logCount l die)).map (s.logRead l die))

/-- Where a launch counts the submissions of a warp in replay. -/
def subKey (lcore wid : Nat) : Nat := 2 ^ 62 + lcore * 64 + wid

/-- The logged beat and seat of a warp's next submission. -/
def State.logged (s : State) (l : Launch) (x : Tx) : Option (Nat × Nat) :=
  ((((s.batches l x.die).filter (fun e => e.1 == x.lcore && e.2.1 == x.wid)).map (fun e => (e.2.2.1, e.2.2.2)))[sget 0 l.cursor (subKey x.lcore x.wid)]?)

/-- Every submitter that the log names in a beat of a die, or in an earlier one, has submitted (R239). -/
def State.allSubmitted (s : State) (l : Launch) (die beat : Nat) : Bool :=
  let es := s.batches l die
  (List.range es.length).all (fun i =>
    match es[i]? with
    | some e => decide (beat < e.2.2.1) ||
        decide (((es.take i).filter (fun y => y.1 == e.1 && y.2.1 == e.2.1)).length < sget 0 l.cursor (subKey e.1 e.2.1))
    | none => true)

/-! ### Arrival and sealing -/

/-- A launch takes the seats that its log names (R239); the later passes of a measured one gate their atomics alone (R293). -/
def Launch.seatsLogged (l : Launch) : Bool := l.lr.replay && !l.lr.measure

/-- Where a die keeps the open beat of a partition's launches with one beat length (R267). -/
def beatKey (part len : Nat) : Nat := part * 2 ^ 16 + len

/-- Seat a submission in the open beat of its die (R234). -/
def State.seatTx (s : State) (h : Nat) (x : Tx) : State :=
  let len := s.txBeat x
  let q := s.seq x.die
  let now := s.timebase / len * len
  let k := beatKey x.part len
  let last := sget 0 q.openAt k
  let (st, n) : Nat × Nat := if now > last then (now, 0) else (last, sget 0 q.seats k)
  let (st, n) : Nat × Nat := if n ≥ 65536 then (st + len, 0) else (st, n)
  let s := s.setSeq x.die { q with openAt := kput q.openAt k st, seats := kput q.seats k (n + 1) }
  let b0 := ((s.txLaunch x).bind (·.beat0)).getD (st / len)
  { s with txs := kput s.txs h { x with st := .seated, seat := n, start := st, beat := st / len - b0 } }

/-- ORDER_SEQUENCER_ARRIVAL (R234): a submission joins the batch of the open beat; in replay it takes its logged beat and
seat, and one that the log does not name waits (R239). -/
def execOrderSequencerArrival (h : Nat) (s : State) : Out :=
  .next (match kget s.txs h with
    | some x =>
      if x.st ≠ .flight then s
      else
        match s.txLaunch x with
        | some l =>
          if l.seatsLogged then
            match s.logged l x with
            | none => s
            | some (beat, seat) =>
              let len := s.txBeat x
              let s := s.modLaunch x.launch (fun l => { l with cursor := kput l.cursor (subKey x.lcore x.wid)
                                                                (sget 0 l.cursor (subKey x.lcore x.wid) + 1) })
              { s with txs := kput s.txs h { x with st := .seated, seat := seat, beat := beat,
                                                    start := (l.beat0.getD 0 + beat) * len } }
          else s.seatTx h x
        | none => s.seatTx h x
    | none => s)

/-- The batch of a transaction's beat may be sealed by a die: the beat is over (R234, R258), and in replay every submitter named in it
or before it has come (R239). -/
def State.sealable (s : State) (die : Nat) (x : Tx) : Bool :=
  decide (x.start + s.txBeat x ≤ s.timebase) &&
    (s.txLaunch x).all (fun l => !l.seatsLogged || s.allSubmitted l die x.beat)

/-- Seal one transaction: it has its postmark, its batch entry is logged, and its warp's `ofinfo` issues again. -/
def State.sealTx (s : State) (h : Nat) (x : Tx) : State :=
  let s := { s with txs := kput s.txs h { x with st := .sealed } }
  let s := s.logEntry x.launch x.die 1 x.decl x.lcore x.wid (x.beat % 65536) (x.seat + x.tag % 65536 * 65536)
  s.modWarp x.u (fun w => Warp.wake { w with postmark := some x.postmark } (fun e => decide (e.st = .waiting .ofinfo)))

/-- BEAT_SEAL (R234): a die seals the batches whose beats are over, in postmark order. -/
def execBeatSeal (die : Nat) (s : State) : Out :=
  let xs := s.txs.filter (fun e => e.2.die == die && e.2.st == .seated && s.sealable die e.2)
  .next ((sortByKey (fun e => e.2.start * 65536 + e.2.seat) xs).foldl (fun st e => st.sealTx e.1 e.2) s)

/-- BATCH_EXCHANGE (R235, R236): the transactions of the beat that begins at a time enter their granules' queues, once every
die has sealed it and every earlier beat has been exchanged: in replay the beats that the log names, submitted or not (R239). With its
budget spent the exchange waits (R346, R347). -/
def execBatchExchange (beat : Nat) (s : State) : Out :=
  let early (x : Tx) : Bool := (x.st == .seated && decide (x.start ≤ beat)) || (x.st == .sealed && decide (x.start < beat))
  let moves (x : Tx) : Bool := x.st == .sealed && x.start == beat && !(s.txs.any (fun y => y.2.part == x.part && early y.2)) &&
    (List.range 4).all (fun d => s.sealable d x)
  .next (if s.spent 67 || !s.txs.any (fun e => moves e.2) then s
    else { s.spend 67 (Config.transfers s.stepNo 67) with
           txs := s.txs.map (fun e => if moves e.2 then (e.1, { e.2 with st := .queued }) else e) })

/-! ### Grants (R236) -/

/-- The order of transactions: the start of the beat, the die, the seat (R235). -/
def Tx.order (x : Tx) : Nat × Nat × Nat := (x.start, x.die, x.seat)
def Tx.before (x y : Tx) : Bool :=
  decide (x.start < y.start) || (x.start == y.start && (decide (x.die < y.die) || (x.die == y.die && decide (x.seat < y.seat))))

/-- A transaction stands in the queues of its granules. -/
def Tx.inQueues (x : Tx) : Bool := decide (x.st = .queued) || x.inside

/-- The transactions of a partition that stand before one. -/
def State.ahead (s : State) (x : Tx) : List Tx :=
  (s.txs.map (·.2)).filter (fun y => y.inQueues && y.part == x.part && y.before x)

/-- Every granule is granted: a written one to the head alone, a read one behind readers only. -/
def State.granted (s : State) (x : Tx) : Bool :=
  let ys := s.ahead x
  x.wrP.all (fun g => ys.all (fun y => !(y.wrP.contains g || y.rdP.contains g))) &&
  x.rdP.all (fun g => ys.all (fun y => !y.wrP.contains g))

/-- Write granules a transaction has at a slice. -/
def Tx.atSlice (x : Tx) (sl : Nat) : Nat := (x.wrP.filter (fun g => homeSlice (g * 256) == sl)).length

/-- Its capacity is reserved at every slice: 64 write granules each, in postmark order. -/
def State.reserved (s : State) (x : Tx) : Bool :=
  (dedup (x.wrP.map (fun g => homeSlice (g * 256)))).all (fun sl =>
    decide (((s.txs.map (·.2)).filter (fun y => y.inQueues && y.before x)).foldl (fun n y => n + y.atSlice sl) (x.atSlice sl) ≤ 64))

/-- TRANSACTION_ADMISSION (R236): an acquire at device scope; the warp's `ofwait` is over. A saved warp's acquire is made when it is
restored. -/
def execTransactionAdmission (h : Nat) (s : State) : Out :=
  .next (match kget s.txs h with
    | some x =>
      if x.st = .queued ∧ s.granted x ∧ s.reserved x then
        let s := State.bump { s with txs := kput s.txs h { x with st := .admitted, since := s.timebase } } x.launch x.lcore 0x0A
        match s.who x.u with
        | some p => (s.acquire p.view 4).modWarp x.u (fun w => w.wake (fun e => decide (e.st = .waiting .ofwait)))
        | none => { s with txs := kmod s.txs h (fun x => { x with acqDue := true }) }
      else s
    | none => s)

/-- TRANSACTION_OVERRUN (R239): an admitted transaction has run for OFBUDGET microseconds. -/
def execTransactionOverrun (h : Nat) (s : State) : Out :=
  .next (match kget s.txs h with
    | some x =>
      let budget := (s.lrOf x.launch).elim 0 (·.ofbudget)
      if x.st = .admitted ∧ budget ≠ 0 ∧ x.since + budget * 1000 ≤ s.timebase then
        let here := (kget s.warps x.u).isSome
        let s := { s with txs := kput s.txs h { x with st := .overrun, trapDue := !here } }
        s.modWarp x.u (fun w => { w with overrunTrap := true })
      else s
    | none => s)

end Sys2Proof.Machine
end

