-- ==== Sys2Proof/Machine/RegWrite.lean ====
section
/-! DEFINITION. The register maps as the functions write them (R7, R276, R278, R291, R292, R301, R313, R319, R321, R325, R342, R343,
R346, R348), and REGISTER_WRITE. -/

namespace Sys2Proof.Machine

/-- A field of a 64-bit register word: its bits, the register it stands for, by which power of two the register's value exceeds the
field's (an address whose low bits are zero), and whether writing 1 clears it (R7). -/
structure RField where
  hi : Nat
  lo : Nat
  reg : Reg
  sh : Nat
  w1c : Bool
  deriving DecidableEq, Repr

def rw (hi lo : Nat) (r : Reg) : RField := ⟨hi, lo, r, 0, false⟩
/-- A field of an address: the register holds it at its place. -/
def rwAt (hi lo : Nat) (r : Reg) : RField := ⟨hi, lo, r, lo, false⟩
def w1c (b : Nat) (r : Reg) : RField := ⟨b, b, r, 0, true⟩

/-- The function that writes: 0 the physical one, p + 1 the virtual one of partition p, 17 the MSP itself (log 24). -/
def isPf (fn : Nat) : Bool := fn == 0
def isMsp (fn : Nat) : Bool := fn == 17
/-- One of a partition's functions. -/
def isOf (fn p : Nat) : Bool := fn == 0 || fn == p + 1

/-! ### The maps: the fields of a word that a function may write -/

/-- R276: PART, PRIO and EN, CTX (for a CONF partition the MSP's, R277); OVF. -/
def State.queueFields (s : State) (fn q o : Nat) : List RField :=
  let conf := s.preg (s.qreg q .part) .conf == 1
  if o = 0 then
    (if isPf fn then [rw 3 0 (.q q .part), rw 6 4 (.q q .prio), rw 7 7 (.q q .en)] else []) ++
      (if (if conf then isMsp fn else isPf fn) then [rw 31 16 (.q q .ctx)] else [])
  else if o = 0x10 ∧ s.seesQueue fn q then [w1c 17 (.q q .ovf)]
  else []

/-- R291, R292: BEATP and the format windows are the physical function's. While a window decodes, its set takes no write. -/
def State.measureFields (s : State) (fn p o : Nat) : List RField :=
  if !isOf fn p then []
  else if o < 0x40 then
    match o with
    | 0x00 => if isPf fn then [rw 5 0 (.p p .beatp)] else []
    | 0x08 => [rw 4 0 (.p p .nevt)]
    | 0x10 => (List.range 8).map (fun k => rw (8 * k + 7) (8 * k) (.p p (.evt k)))
    | 0x18 => (List.range 8).map (fun k => rw (8 * k + 7) (8 * k) (.p p (.evt (8 + k))))
    | 0x20 => [rwAt 63 14 (.p p .capBase)]
    | 0x28 => [rwAt 63 14 (.p p .capSize)]
    | 0x30 => [rwAt 63 3 (.p p .resBase)]
    | 0x38 => [w1c 0 (.p p .done), w1c 1 (.p p .mismatch), w1c 2 (.p p .capFull)]
    | _ => []
  else
    let w := (o - 0x40) / 0x20
    let open_ := s.preg p (.fwEn w) == 0
    if 8 ≤ w ∨ !isPf fn ∨ !open_ then []
    else
      match (o - 0x40) % 0x20 with
      | 0x00 => [rw 0 0 (.p p (.fwEn w)), rwAt 48 12 (.p p (.fwView w))]
      | 0x08 => [⟨39, 5, .p p (.fwElems w), 5, false⟩, ⟨55, 47, .p p (.fwRowLen w), 7, false⟩, rw 57 56 (.p p (.fwScaleG w))]
      | 0x10 => [rwAt 48 8 (.p p (.fwStore w))]
      | 0x18 => [rwAt 48 2 (.p p (.fwScale w))]
      | _ => []

/-- R313. -/
def debugFields (fn p o : Nat) : List RField :=
  if !isOf fn p then []
  else
    match o with
    | 0x00 => [rw 15 0 (.p p .dctx)]
    | 0x08 => [rw 31 0 (.p p .dblock), rw 37 32 (.p p .dwarp)]
    | 0x10 => [rwAt 63 8 (.p p .daddr)]
    | 0x30 => [rw 0 0 (.p p (.dbpEn 0)), rwAt 56 2 (.p p (.dbpPc 0))]
    | 0x38 => [rw 0 0 (.p p (.dbpEn 1)), rwAt 56 2 (.p p (.dbpPc 1))]
    | 0x40 => [rw 0 0 (.p p (.dbpEn 2)), rwAt 56 2 (.p p (.dbpPc 2))]
    | 0x48 => [rw 0 0 (.p p (.dbpEn 3)), rwAt 56 2 (.p p (.dbpPc 3))]
    | _ => []

/-- R325: the log's registers; what the tenant sets over its session goes through the MSP (R329), and the host window. -/
def State.securityFields (s : State) (fn p o : Nat) : List RField :=
  if isMsp fn then
    if o < 0x20 && s.sess p != 1 then [] else
    match o with
    | 0x00 => [rw 35 32 (.p p .peerLevel)]
    | 0x08 => [rw 13 0 (.p p .hbPeriod), rw 41 32 (.p p .hbGrace)]
    | 0x10 => [rw 11 0 (.p p .hbRetain)]
    | 0x20 => [rwAt 63 14 (.p p .hBase)]
    | 0x28 => [rw 63 0 (.p p .hLen)]
    | _ => []
  else if !isOf fn p then []
  else
    match o with
    | 0x30 => [rwAt 63 12 (.p p .iflBase)]
    | 0x38 => [rw 15 0 (.p p .iflSize)]
    | 0x40 => [rw 15 0 (.p p .iflHead)]
    | _ => []

/-- R321, R329: for a CONF partition only the MSP writes apertures, for the tenant over its session. -/
def State.apertureFields (s : State) (fn p a o : Nat) : List RField :=
  if !(if s.preg p .conf = 1 then isMsp fn && s.sess p == 1 else isOf fn p) then []
  else
    match o with
    | 0x00 => [rwAt 43 14 (.p p (.apObase a)), rw 0 0 (.p p (.apEn a)), rw 3 1 (.p p (.apPerm a)), rw 7 4 (.p p (.apLevel a))]
    | 0x08 => [rwAt 63 14 (.p p (.apOlen a))]
    | 0x10 => [rwAt 56 14 (.p p (.apVabase a))]
    | 0x18 => [rw 15 0 (.p p (.apCtx a))]
    | _ => []

/-- R301: FQBASE and FQSIZE only while the ring is empty. -/
def State.xlatFields (s : State) (fn p o : Nat) : List RField :=
  let table := if s.preg p .conf = 1 then isMsp fn else isPf fn
  let idle := s.preg p .fqHead == s.preg p .fqTail
  match o with
  | 0x00 => if table then [rwAt 51 12 (.p p .ctxTab)] else []
  | 0x08 => if table then [rw 16 0 (.p p .ctxCount)] else []
  | _ =>
    if !isOf fn p then []
    else
      match o with
      | 0x10 => if idle then [rwAt 51 12 (.p p .fqBase)] else []
      | 0x18 => (if idle then [rw 15 0 (.p p .fqSize)] else []) ++ [rw 47 32 (.p p .fqHead)]
      | 0x20 => [rw 42 32 (.p p .fqVec)]
      | 0x28 => [rw 15 0 (.p p .fqrCtx)]
      | 0x38 => [rwAt 56 14 (.p p .sdVa)]
      | 0x40 => [rwAt 63 14 (.p p .sdLen)]
      | 0x48 => [rw 15 0 (.p p .sdCtx), rw 33 33 (.p p .sdAll)]
      | _ => []

/-- R343, R346, R348: the device's registers, the physical function's alone. -/
def deviceFields (at_ : Nat) : List RField :=
  match at_ with
  | 0x800000 => [rw 11 0 (.d .plimit)]
  | 0x800050 => [rwAt 63 8 (.d .saveBase)]
  | 0x800058 => [rw 63 0 (.d .saveLen)]
  | 0x900400 => [rw 31 0 (.d .collapse), rw 63 32 (.d .scrub)]
  | 0x900408 => [rw 31 0 (.d .bist), rw 63 32 (.d .ofx)]
  | 0xA00008 => [rw 63 0 (.d .svcArg)]
  | 0xA00018 => [w1c 2 (.d .delta)]
  | 0xA00020 => [rwAt 63 12 (.d .repBase)]
  | _ => []

/-- The eight ratio bytes of a word (R342): each by the virtual function of the cluster's owner. -/
def State.ratioFields (s : State) (fn c0 : Nat) : List RField :=
  (List.range 8).filterMap (fun k =>
    if c0 + k < 192 ∧ (s.clusterOwner (c0 + k)).any (fun p => fn == p + 1) then some (rw (8 * k + 1) (8 * k) (.ratio (c0 + k))) else none)

/-- The fields of the 64-bit word at an offset of BAR0 that a function may write. The MSP's own words lie above the window: FTIMEOUT
in ms at 2^26 (R319; log 24). -/
def State.fieldsAt (s : State) (fn at_ : Nat) : List RField :=
  let sub (base step : Nat) : Nat × Nat := ((at_ - base) / step, (at_ - base) % step)
  if at_ < 0x100000 then []
  else if at_ < 0x104000 then s.queueFields fn (sub 0x100000 0x40).1 (sub 0x100000 0x40).2
  else if at_ = 0x104000 then (if fn < 17 then [rwAt 63 13 (.ntfBase fn)] else [])
  else if at_ < 0x200000 then []
  else if at_ < 0x202000 then s.measureFields fn (sub 0x200000 0x200).1 (sub 0x200000 0x200).2
  else if at_ < 0x400000 then []
  else if at_ < 0x401000 then debugFields fn (sub 0x400000 0x100).1 (sub 0x400000 0x100).2
  else if at_ < 0x500000 then []
  else if at_ < 0x501000 then
    let x := sub 0x500000 0x100
    if x.2 = 0x10 ∧ isPf fn then [rw 6 0 (.p x.1 .ePeriod)] else []
  else if at_ < 0x508000 then []
  else if at_ < 0x5080C0 then s.ratioFields fn (at_ - 0x508000)
  else if at_ < 0x600000 then []
  else if at_ < 0x601000 then s.securityFields fn (sub 0x600000 0x100).1 (sub 0x600000 0x100).2
  else if at_ < 0x700000 then []
  else if at_ < 0x702000 then
    let x := sub 0x700000 0x200
    s.apertureFields fn x.1 (x.2 / 0x20) (x.2 % 0x20)
  else if at_ < 0x900000 then (if isPf fn then deviceFields at_ else [])
  else if at_ < 0x900400 then
    let x := sub 0x900000 0x40
    if !isPf fn then []
    else if x.2 = 0 then [rw 31 0 (.p x.1 .d2d), rw 63 32 (.p x.1 .hylis)]
    else if x.2 = 8 then [rw 31 0 (.p x.1 .host)]
    else []
  else if at_ < 0xB00000 then (if isPf fn then deviceFields at_ else [])
  else if at_ < 0xB01000 then s.xlatFields fn (sub 0xB00000 0x100).1 (sub 0xB00000 0x100).2
  else if at_ = 2 ^ 26 ∧ isMsp fn then [rw 31 0 (.d .fTimeout)]
  else []

/-! ### What a field takes -/

/-- The value a register takes for one written, none where the write is ignored: minimums (R319, R346), ranges (R325, R342, R343), a BEATP
of 0 (R291). -/
def State.admitReg (s : State) (r : Reg) (v : Nat) : Option Nat :=
  match r with
  | .d .fTimeout => if 1000 < v then none else some (max v 10 * 1000000)
  | .d .plimit => if 1800 ≤ v ∧ v ≤ 3000 then some v else none
  | .d .collapse => some (max v 64)
  | .d .ofx => some (max v 16)
  | .p _ .d2d => some (max v 16)
  | .p _ .hylis => some (max v 16)
  | .p _ .host => some (max v 16)
  | .p _ .beatp => some (if v = 0 then 2 else v)
  | .p _ .ePeriod => if 1 ≤ v ∧ v ≤ 100 then some v else none
  | .p _ .hbPeriod => if 10 ≤ v ∧ v ≤ 10000 then some v else none
  | .p n .hbGrace => if 1 ≤ v ∧ v ≤ 1000 ∧ v ≤ 1000 * s.preg n .hbRetain then some v else none
  | .p n .hbRetain => if 1 ≤ v ∧ v ≤ 3600 ∧ s.preg n .hbGrace ≤ 1000 * v then some v else none
  | .ratio _ => if v = 3 then none else some v
  | _ => some v

/-- A write of some bytes of the word, as mask and value, reaches one field (R7). -/
def State.putField (s : State) (f : RField) (mask val : Nat) : State :=
  let m := bits mask f.hi f.lo
  let v := bits val f.hi f.lo
  if m = 0 then s
  else if f.w1c then (if v &&& m = 0 then s else s.setReg f.reg 0)
  else
    let old := s.reg f.reg / 2 ^ f.sh % 2 ^ (f.hi - f.lo + 1)
    let new := (old &&& (2 ^ (f.hi - f.lo + 1) - 1 - m)) ||| (v &&& m)
    match s.admitReg f.reg (new * 2 ^ f.sh) with
    | some x => s.setReg f.reg x
    | none => s

/-- Two enabled apertures overlap (R321). -/
def State.aperturesClash (s : State) : Bool :=
  let es := s.regs.filterMap (fun e => match e.1 with
    | .p n (.apEn a) => if e.2 = 1 then some (n, a) else none
    | _ => none)
  es.any (fun x => es.any (fun y => x != y &&
    decide (s.preg x.1 (.apObase x.2) < s.preg y.1 (.apObase y.2) + s.preg y.1 (.apOlen y.2) ∧
      s.preg y.1 (.apObase y.2) < s.preg x.1 (.apObase x.2) + s.preg x.1 (.apOlen x.2))))

/-- The state an event's step leaves. -/
def after (s : State) (o : Out) : State :=
  match o with
  | .next t => t
  | .fault _ => s
  | .refused _ => s

/-- DCMD (R313): the command named; a SEQNO that the register map gives no field for is open (log 18). -/
def State.debugCommand (s : State) (p cmd : Nat) : State :=
  let seqno := Config.debugValue s.stepNo 3
  after s (match cmd with
    | 1 => execHalt p s
    | 2 => execResume p s
    | 3 => execStep p s
    | 4 => execStepall p s
    | 5 => execSnap p seqno s
    | 6 => execPoke p s
    | 7 => execPreempt p seqno s
    | 8 => execRestore p s
    | 9 => execRelease p s
    | _ => .next s)

/-- SVCCMD (R348): other values are ignored, and every write while STATE is 1. -/
def State.serviceCommand (s : State) (cmd : Nat) : State :=
  if s.dreg .svcState = 1 then s
  else
    after s (match cmd with
      | 1 => execRetirecore s
      | 2 => execSparech s
      | 3 => execRowrep s
      | 4 => execLanespare s
      | 5 => execTseal s
      | 6 => execSwapout s
      | _ => .next s)

/-- The word a write reaches, its mask and its value there. -/
def wordOf (off size val : Nat) : Nat × Nat × Nat :=
  let k := off % 8
  (off / 8 * 8, (2 ^ (8 * size) - 1) * 2 ^ (8 * k), val % 2 ^ (8 * size) * 2 ^ (8 * k))

/-- What a write starts beside the fields it stores: posts and queue commands, answers to faults, shootdowns, debug and service
commands, votes, the fabric's configuration. -/
def State.triggers (s : State) (fn at_ size mask val : Nat) : State :=
  let whole := size == 8
  let bit (b : Nat) : Bool := mask.testBit b && val.testBit b
  if 0x100000 ≤ at_ ∧ at_ < 0x104000 then
    let q := (at_ - 0x100000) / 0x40
    let o := (at_ - 0x100000) % 0x40
    if o = 8 then (if whole then after s (execQpost fn q 8 (BitVec.ofNat 64 val) s) else s)
    else if o = 0x28 then
      let s := if bit 0 then after s (execQueueResume fn q s) else s
      let s := if bit 1 then after s (execFlush fn q s) else s
      if bit 2 then after s (execAbort fn q s) else s
    else s
  else if 0x400000 ≤ at_ ∧ at_ < 0x401000 then
    let p := (at_ - 0x400000) / 0x100
    if (at_ - 0x400000) % 0x100 = 0x18 ∧ isOf fn p ∧ bits mask 3 0 = 15 then
      (if s.dbBusy p then s else s.debugCommand p (bits val 3 0)) else s
  else if 0x500000 ≤ at_ ∧ at_ < 0x501000 then
    let p := (at_ - 0x500000) / 0x100
    if (at_ - 0x500000) % 0x100 = 0 ∧ fn = p + 1 ∧ bits mask 2 0 = 7 then after s (execOpvote p (bits val 2 0) s) else s
  else if at_ = 0xA00000 then (if isPf fn ∧ bits mask 3 0 = 15 then s.serviceCommand (bits val 3 0) else s)
  else if 0xB00000 ≤ at_ ∧ at_ < 0xB01000 then
    let p := (at_ - 0xB00000) / 0x100
    let o := (at_ - 0xB00000) % 0x100
    if !isOf fn p then s
    else if o = 0x30 then
      let page := bits val 56 14 * 2 ^ 14
      if !whole then s
      else if bits val 1 0 = 1 then after s (execFqresResume p page s)
      else if bits val 1 0 = 2 then after s (execFqresReject p page s)
      else s
    else if o = 0x48 ∧ bit 32 then after s (execShootdown p s)
    else s
  else if 2 ^ 26 + 8 ≤ at_ ∧ isMsp fn ∧ whole then
    let n := at_ - 2 ^ 26
    if n = 8 then { s with fabric := { s.fabric with me := val % 256 } }
    else if 0x1000 ≤ n ∧ n < 0x1800 then
      let peer := (n - 0x1000) / 8
      { s with fabric := { s.fabric with routes := if val.testBit 63 then kput s.fabric.routes peer (val % 32) else kdel s.fabric.routes peer } }
    else s
  else s

/-- REGISTER_WRITE (R7): a write of 1, 2, 4 or 8 bytes, aligned, to an offset of BAR0. A write that would enable overlapping apertures is
refused whole (R321). -/
def execRegisterWrite (fn off size : Nat) (val : BitVec 64) (s : State) : Out :=
  let x := wordOf off size val.toNat
  .next (if !(size == 1 || size == 2 || size == 4 || size == 8) || off % size != 0 || decide (17 < fn) then s
    else
      let t := (s.fieldsAt fn x.1).foldl (fun st f => st.putField f x.2.1 x.2.2) s
      let t := if t.aperturesClash then s else t
      t.triggers fn x.1 size x.2.1 x.2.2)

end Sys2Proof.Machine
end

