-- ==== Sys2Proof/Machine/Sfu.lean ====
section
/-! DEFINITION. The special-function instructions (R170, R171). Their result for an operand that R171 does not list is a
fixed function the specification does not give: it is `Config.sfu` wherever that lies inside the bound of R170, and a
value inside the bound elsewhere (log 8). The exact function is enclosed by fixed-point arithmetic. -/

namespace Sys2Proof.Machine

/-- A closed range that holds the exact result: low and high as multiples of 2 ^ e. -/
structure Encl where
  lo : Int
  hi : Int
  e : Int
  deriving DecidableEq, Repr

/-- Fixed-point fraction bits, and how many bits of an argument are used. -/
def sfuP : Nat := 80
def sfuK : Nat := 48

def isqrtN (n : Nat) : Nat := if n = 0 then 0 else isqrt n (Nat.log2 n / 2 + 1) 0

/-- Product of two fixed-point numbers, truncated. -/
def fxMul (a b : Nat) : Nat := a * b / 2 ^ sfuP

/-- 2 ^ f for a fraction of K bits, the top bit first: the product of the roots 2 ^ (2 ^ −i) of its set bits. -/
def exp2Fix (f : Nat) : Nat → Nat → Nat → Nat
  | 0, _, acc => acc
  | k + 1, root, acc =>
    let root := isqrtN (root * 2 ^ sfuP)
    exp2Fix f k root (if f.testBit k then fxMul acc root else acc)
/-- 2 ^ (f / 2 ^ K), from below by less than 2 ^ −40. -/
def exp2Frac (f : Nat) : Nat := exp2Fix f sfuK (2 * 2 ^ sfuP) (2 ^ sfuP)

/-- Log base 2 of y in [1, 2), digit by digit: K bits, from below. -/
def log2Fix : Nat → Nat → Nat → Nat
  | 0, _, acc => acc
  | k + 1, y, acc =>
    let z := fxMul y y
    if z ≥ 2 * 2 ^ sfuP then log2Fix k (z / 2) (2 * acc + 1) else log2Fix k z (2 * acc)
def log2Frac (y : Nat) : Nat := log2Fix sfuK y 0

/-- ln 2 from below, by the series of 1 / (k 2^k). -/
def ln2Fix : Nat := (List.range 80).foldl (fun a k => a + 2 ^ sfuP / ((k + 1) * 2 ^ (k + 1))) 0

/-- cos and sin of π × f / 2 ^ K for f below 2 ^ (K − 1), by the rotations of its set bits; `c`, `s` are those of the last
angle. -/
def rotFix (f : Nat) : Nat → Nat → Nat → Int × Int → Int × Int
  | 0, _, _, acc => acc
  | k + 1, c, s, acc =>
    let c' := isqrtN ((2 ^ sfuP + c) * 2 ^ (sfuP - 1))
    let s' := s * 2 ^ (sfuP - 1) / c'
    let acc : Int × Int := if f.testBit k then
        ((acc.1 * c' - acc.2 * s') / 2 ^ sfuP, (acc.1 * s' + acc.2 * c') / 2 ^ sfuP) else acc
    rotFix f k c' s' acc

/-- cos(π t), sin(π t) for t = f / 2 ^ K below 2. -/
def trigFrac (f : Nat) : Int × Int :=
  let q := f / 2 ^ (sfuK - 1)
  let r := rotFix (f % 2 ^ (sfuK - 1)) (sfuK - 1) 0 (2 ^ sfuP) (2 ^ sfuP, 0)
  match q % 4 with
  | 0 => r
  | 1 => (-r.2, r.1)
  | 2 => (-r.1, -r.2)
  | _ => (r.2, -r.1)

/-- The operations, by their number in `Config.sfu`. -/
inductive SfuOp where
  | rcp | rsq | ex2 | lg2 | sinpi | cospi | tanh
  deriving DecidableEq, Repr
def SfuOp.num : SfuOp → Nat
  | .rcp => 0
  | .rsq => 1
  | .ex2 => 2
  | .lg2 => 3
  | .sinpi => 4
  | .cospi => 5
  | .tanh => 6

/-- A dyadic number as a multiple of 2 ^ −k, truncated toward minus infinity. -/
def fixOf (neg : Bool) (m : Nat) (e : Int) (k : Nat) : Int :=
  let v : Int := if 0 ≤ e + k then ((m * 2 ^ (e + k).toNat : Nat) : Int) else ((m / 2 ^ (-(e + k)).toNat : Nat) : Int)
  if neg then -(if 0 ≤ e + k ∨ m % 2 ^ (-(e + k)).toNat = 0 then v else v + 1) else v

def Encl.negate (x : Encl) : Encl := ⟨-x.hi, -x.lo, x.e⟩

/-- The range of the exact result for an operand (−1)^neg × m × 2 ^ e, m ≠ 0, of the operation's domain. -/
def sfuEncl (op : SfuOp) (neg : Bool) (m : Nat) (e : Int) : Encl :=
  match op with
  | .rcp =>
    let q : Nat := 2 ^ 100 / m
    let x : Encl := ⟨q, q + 1, -e - 100⟩
    if neg then x.negate else x
  | .rsq =>
    let m' := if e % 2 = 0 then m else 2 * m
    let e' := if e % 2 = 0 then e else e - 1
    let q : Nat := isqrtN (2 ^ 160 / m')
    ⟨q, q + 1, -(e' / 2) - 80⟩
  | .ex2 =>
    let x := fixOf neg m e sfuK
    let n := x / 2 ^ sfuK
    let f := (x % 2 ^ sfuK).toNat
    let v := exp2Frac f
    ⟨v, v + 2 ^ 40, n - sfuP⟩
  | .lg2 =>
    let n : Int := (Nat.log2 m : Int) + e
    let y := m * 2 ^ sfuP / 2 ^ Nat.log2 m
    let v : Int := log2Frac y + n * 2 ^ sfuK
    ⟨v, v + 2, -sfuK⟩
  | .sinpi =>
    let v := (trigFrac ((fixOf neg m e sfuK) % 2 ^ (sfuK + 1)).toNat).2
    ⟨v - 2 ^ 40, v + 2 ^ 40, -sfuP⟩
  | .cospi =>
    let v := (trigFrac ((fixOf neg m e sfuK) % 2 ^ (sfuK + 1)).toNat).1
    ⟨v - 2 ^ 40, v + 2 ^ 40, -sfuP⟩
  | .tanh =>
    let x : Encl :=
      if (Nat.log2 m : Int) + e < -12 then
        -- x − x³/3 ≤ tanh x ≤ x − x³/3 + x⁵
        let t : Int := (m * 2 ^ 60 : Nat)
        let sh (k : Int) (v : Nat) : Int := ((v * 2 ^ 60 * 2 ^ (k + 400).toNat / 2 ^ 400 : Nat) : Int)
        let third := sh (2 * e) (m * m * m) / 3
        ⟨t - third - 2, t - third + 2 + sh (4 * e) (m * m * m * m * m), e - 60⟩
      else
        -- tanh x = (2^y − 1) / (2^y + 1), y = 2x / ln 2
        let y := (fixOf false (2 * m) e sfuP).toNat * 2 ^ sfuK / ln2Fix
        let n := y / 2 ^ sfuK
        let v := exp2Frac (y % 2 ^ sfuK) * 2 ^ n
        let w := v + 2 ^ (40 + n)
        let one := 2 ^ sfuP
        ⟨((v - one) * 2 ^ sfuP / (v + one) : Nat), ((w - one) * 2 ^ sfuP / (w + one) + 1 : Nat), -sfuP⟩
    if neg then x.negate else x

/-- The spacing of binary32 values at a magnitude, as a power of two (R170). -/
def ulpExp (mag : Nat) (e : Int) : Int := max ((Nat.log2 mag : Int) + e - 23) (-149)

/-- The bound of an operation at a result (R170): a multiple and an exponent. The end of the range nearer to 0 stands for the exact
result: where the range meets a power of two, the result lies below it. -/
def sfuBound (op : SfuOp) (half2 : Bool) (x : Encl) : Nat × Int :=
  let mag := min x.lo.natAbs x.hi.natAbs
  match op with
  | .rcp => (1, ulpExp mag x.e)
  | .rsq => (1, ulpExp mag x.e)
  | .ex2 => (2, ulpExp mag x.e)
  | .lg2 => if half2 then (1, -22) else (2, ulpExp mag x.e)
  | .sinpi => (1, -22)
  | .cospi => (1, -22)
  | .tanh => (2, ulpExp mag x.e)

/-- A binary32 value lies inside the bound around the range. -/
def sfuFits (x : Encl) (b : Nat × Int) (v : Nat) : Bool :=
  match decodeF f32 v with
  | .fin n m e =>
    let lo := min (min e x.e) b.2
    let at_ (k : Int) (ex : Int) : Int := k * 2 ^ (ex - lo).toNat
    let y := at_ (if n then -(m : Int) else m) e
    let d := at_ b.1 b.2
    decide (at_ x.lo x.e - d ≤ y ∧ y ≤ at_ x.hi x.e + d)
  | _ => false

def isPow2 (m : Nat) : Bool := m == 2 ^ Nat.log2 m
/-- A number is an integer; it is n + 1/2 for an integer n; the integer below it is odd. -/
def isInt (m : Nat) (e : Int) : Bool := decide (0 ≤ e) || m % 2 ^ (-e).toNat == 0
def isHalf (m : Nat) (e : Int) : Bool := !isInt m e && isInt (2 * m) e
def floorOdd (neg : Bool) (m : Nat) (e : Int) : Bool := (fixOf neg m e 0) % 2 == 1

def one32 (neg : Bool) : Nat := 0x3F800000 + signBit f32 neg
def inf32 (neg : Bool) : Nat := 0x7F800000 + signBit f32 neg
def zero32 (neg : Bool) : Nat := signBit f32 neg
def nan32 : Nat := 0x7FC00000

/-- The operands of R171: results and flags fixed by the specification. -/
def sfuExact (op : SfuOp) (x : FVal) : Option (Nat × Flags) :=
  match op, x with
  | .rcp, .inf n => some (zero32 n, 0)
  | .rcp, .fin n m e =>
    if m = 0 then some (inf32 n, flDZ)
    else
      let k : Int := (Nat.log2 m : Int) + e
      if k < -128 then some (inf32 n, flOF ||| flNX)
      else if isPow2 m ∧ -127 ≤ k ∧ k ≤ 126 then some ((roundF f32 .rne false (.fin n 1 (-k))).1, 0)
      else none
  | .rsq, .inf n => if n then some (nan32, flNV) else some (zero32 false, 0)
  | .rsq, .fin n m e =>
    if m = 0 then some (inf32 n, flDZ)
    else if n then some (nan32, flNV)
    else
      let k : Int := (Nat.log2 m : Int) + e
      if isPow2 m ∧ k % 2 = 0 then some ((roundF f32 .rne false (.fin false 1 (-(k / 2)))).1, 0) else none
  | .ex2, .inf n => some (if n then zero32 false else inf32 false, 0)
  | .ex2, .fin n m e =>
    if m = 0 then some (one32 false, 0)
    else if isInt m e ∧ -149 ≤ fixOf n m e 0 ∧ fixOf n m e 0 ≤ 127 then
      some ((roundF f32 .rne false (.fin false 1 (fixOf n m e 0))).1, 0)
    else if n ∧ fixOf n m e 0 < -150 then some (zero32 false, flUF ||| flNX)
    else if !n ∧ 128 ≤ fixOf n m e 0 then some (inf32 false, flOF ||| flNX)
    else none
  | .lg2, .inf n => if n then some (nan32, flNV) else some (inf32 false, 0)
  | .lg2, .fin n m e =>
    if m = 0 then some (inf32 true, flDZ)
    else if n then some (nan32, flNV)
    else if isPow2 m then
      let k : Int := (Nat.log2 m : Int) + e
      some ((roundF f32 .rne false (.fin (decide (k < 0)) k.natAbs 0)).1, 0)
    else none
  | .sinpi, .inf _ => some (nan32, flNV)
  | .sinpi, .fin n m e =>
    if m = 0 then some (zero32 n, 0)
    else if isInt m e then some (zero32 n, 0)
    else if isHalf m e then some (one32 (floorOdd n m e), 0)
    else none
  | .cospi, .inf _ => some (nan32, flNV)
  | .cospi, .fin n m e =>
    if m = 0 then some (one32 false, 0)
    else if isInt m e then some (one32 (floorOdd n m e), 0)
    else if isHalf m e then some (zero32 false, 0)
    else none
  | .tanh, .inf n => some (one32 n, 0)
  | .tanh, .fin n m e =>
    if m = 0 then some (zero32 n, 0)
    else if 9 ≤ fixOf false m e 0 then some (one32 n, flNX)
    else none
  | _, .nan _ _ _ _ => none

/-- The result for an operand R171 does not list: the device's own value inside the bound. -/
def sfuOther (op : SfuOp) (a : Word) (n : Bool) (m : Nat) (e : Int) : Nat × Flags :=
  let x := sfuEncl op n m e
  let k : Int := (Nat.log2 m : Int) + e
  let b := sfuBound op (decide (-1 ≤ k ∧ k < 1)) x
  let free := (Config.sfu op.num a).toNat
  let v := if sfuFits x b free then free
    else (roundF f32 .rz false (if x.lo = 0 then .fin n 0 0 else .fin (decide (x.lo < 0)) x.lo.natAbs x.e)).1
  (v, if v % 2 ^ 31 < 0x800000 then flUF ||| flNX else flNX)

/-- A special function of one lane (R170, R171). -/
def sfuF (op : SfuOp) (sat : Bool) (a : Word) : Nat × Flags :=
  match decodeF f32 a.toNat with
  | .nan n fr fb sg => (nanBits f32 n fr fb, if sg then flNV else 0)
  | x =>
    let r : Nat × Flags := match sfuExact op x with
      | some r => r
      | none =>
        match x with
        | .fin n m e => sfuOther op a n m e
        | _ => (nan32, 0)
    if sat ∧ r.1 % 2 ^ 31 = 0x7F800000 then (r.1 - 1, r.2 ||| flNX) else r

def sfuOpI (i : Instr) (s : State) (a d : BitVec 7) (op : SfuOp) : Out :=
  regOp i s d 1 (fun c l => let r := sfuF op c.sat (c.rd a.toNat l); ([w32 r.1], r.2))

def execFrcpF32 (a d : BitVec 7) (s : State) : Out := sfuOpI (.frcpF32 a d) s a d .rcp
def execFrsqF32 (a d : BitVec 7) (s : State) : Out := sfuOpI (.frsqF32 a d) s a d .rsq
def execFex2F32 (a d : BitVec 7) (s : State) : Out := sfuOpI (.fex2F32 a d) s a d .ex2
def execFlg2F32 (a d : BitVec 7) (s : State) : Out := sfuOpI (.flg2F32 a d) s a d .lg2
def execFsinpiF32 (a d : BitVec 7) (s : State) : Out := sfuOpI (.fsinpiF32 a d) s a d .sinpi
def execFcospiF32 (a d : BitVec 7) (s : State) : Out := sfuOpI (.fcospiF32 a d) s a d .cospi
def execFtanhF32 (a d : BitVec 7) (s : State) : Out := sfuOpI (.ftanhF32 a d) s a d .tanh

end Sys2Proof.Machine
end

