-- ==== Sys2Proof/Machine/XwOps.lean ====
section
/-! DEFINITION. The issue-register instructions (R206 to R210). -/

namespace Sys2Proof.Machine

/-- A pair of word and prefix is permitted (R208): at depth 1 an inner `xw` is not. -/
def Ctx.permitted (c : Ctx) (w x : Word) : Bool :=
  match decode w with
  | .error _ => false
  | .ok i =>
    let px := if x = 0 then pxAbsent else pxFields x.toNat
    (decide (i.row.xw = .yes) || (decide (i.row.xw = .inner) && c.is.depth == 0)) &&
      (x == 0 || (isPrefixW x && i.row.accepts px)) && i.legalWord px && i.legalOn c.w.tile && (windowBad c.w i.row px).isNone

/-- The groups of equal words, lowest lane first (R207). -/
def xwGroups (depth : Nat) (ws : List (Nat × Word × Word)) : List XwGroup :=
  (dedup (ws.map (·.2))).map (fun k => ⟨k.1, k.2, maskOf ((ws.filter (fun x => x.2 = k)).map (·.1)), depth⟩)

/-- Add bad lanes to a run: the word of the lowest is kept. -/
def XwRun.addBad (r : XwRun) (ws : List (Nat × Word × Word)) : XwRun :=
  match ws with
  | [] => r
  | (l, w, _) :: _ =>
    let first := match lowestLane r.bad with
      | some k => decide (l < k)
      | none => true
    { r with bad := r.bad ||| maskOf (ws.map (·.1)), badWord := if first then w else r.badWord }

/-- Start a run, or put an inner one before the outer's remaining groups (R207 to R209). -/
def xwOp (i : Instr) (s : State) (a : BitVec 7) (b : Option (BitVec 7)) : Out :=
  warpOp i s (fun c t =>
    let ws := (lanesOf c.m).map (fun l => (l, c.rd a.toNat l, match b with
      | some b => c.rd b.toNat l
      | none => 0))
    let ok := ws.filter (fun x => c.permitted x.2.1 x.2.2)
    let bad := ws.filter (fun x => !c.permitted x.2.1 x.2.2)
    let gs := xwGroups (c.is.depth + 1) ok
    let (id, t) := t.fresh
    ({ t with cur := none }).modWarp c.u (fun w =>
      match w.xw with
      | some r => { w with xw := some ({ r with groups := gs ++ r.groups.tail }.addBad bad) }
      | none =>
        let r : XwRun := { id := id, pc := c.is.pc, npc := c.is.npc, mask := c.is.mask, groups := gs, bad := 0, badWord := 0 }
        { w with xw := some (r.addBad bad) }))

def execXw (a : BitVec 7) (s : State) : Out := xwOp (.xw a) s a none
def execXwp (b a : BitVec 7) (s : State) : Out := xwOp (.xwp b a) s a (some b)

end Sys2Proof.Machine
end

