-- ==== Sys2Proof/Machine/Dispatch.lean ====
section
/-! DEFINITION. One arm for every row of the opcode table: the call of its meaning. -/

namespace Sys2Proof.Machine

/-- The meaning of every instruction. -/
def exec (i : Instr) (s : State) : Host.Outcome State Fault Refusal :=
  match i with
  | .addW b a d => Sys2Proof.Machine.execAddW b a d s
  | .subW b a d => Sys2Proof.Machine.execSubW b a d s
  | .addsSw b a d => Sys2Proof.Machine.execAddsSw b a d s
  | .addsUw b a d => Sys2Proof.Machine.execAddsUw b a d s
  | .subsSw b a d => Sys2Proof.Machine.execSubsSw b a d s
  | .subsUw b a d => Sys2Proof.Machine.execSubsUw b a d s
  | .mulW b a d => Sys2Proof.Machine.execMulW b a d s
  | .mulhiSw b a d => Sys2Proof.Machine.execMulhiSw b a d s
  | .mulhiUw b a d => Sys2Proof.Machine.execMulhiUw b a d s
  | .madW b a d => Sys2Proof.Machine.execMadW b a d s
  | .minSw b a d => Sys2Proof.Machine.execMinSw b a d s
  | .minUw b a d => Sys2Proof.Machine.execMinUw b a d s
  | .maxSw b a d => Sys2Proof.Machine.execMaxSw b a d s
  | .maxUw b a d => Sys2Proof.Machine.execMaxUw b a d s
  | .absSw a d => Sys2Proof.Machine.execAbsSw a d s
  | .negW a d => Sys2Proof.Machine.execNegW a d s
  | .addD b a d => Sys2Proof.Machine.execAddD b a d s
  | .subD b a d => Sys2Proof.Machine.execSubD b a d s
  | .addwD b a d => Sys2Proof.Machine.execAddwD b a d s
  | .mulSwd b a d => Sys2Proof.Machine.execMulSwd b a d s
  | .mulUwd b a d => Sys2Proof.Machine.execMulUwd b a d s
  | .idot4Sb b a d => Sys2Proof.Machine.execIdot4Sb b a d s
  | .idot4Ub b a d => Sys2Proof.Machine.execIdot4Ub b a d s
  | .and b a d => Sys2Proof.Machine.execAnd b a d s
  | .or b a d => Sys2Proof.Machine.execOr b a d s
  | .xor b a d => Sys2Proof.Machine.execXor b a d s
  | .andn b a d => Sys2Proof.Machine.execAndn b a d s
  | .shl b a d => Sys2Proof.Machine.execShl b a d s
  | .shr b a d => Sys2Proof.Machine.execShr b a d s
  | .sra b a d => Sys2Proof.Machine.execSra b a d s
  | .rotl b a d => Sys2Proof.Machine.execRotl b a d s
  | .clz a d => Sys2Proof.Machine.execClz a d s
  | .popc a d => Sys2Proof.Machine.execPopc a d s
  | .brev a d => Sys2Proof.Machine.execBrev a d s
  | .bfxUw b a d => Sys2Proof.Machine.execBfxUw b a d s
  | .bfxSw b a d => Sys2Proof.Machine.execBfxSw b a d s
  | .bfi b a d => Sys2Proof.Machine.execBfi b a d s
  | .perm b a d => Sys2Proof.Machine.execPerm b a d s
  | .mov a d => Sys2Proof.Machine.execMov a d s
  | .faddF32 b a d => Sys2Proof.Machine.execFaddF32 b a d s
  | .fsubF32 b a d => Sys2Proof.Machine.execFsubF32 b a d s
  | .fmulF32 b a d => Sys2Proof.Machine.execFmulF32 b a d s
  | .ffmaF32 b a d => Sys2Proof.Machine.execFfmaF32 b a d s
  | .fminF32 b a d => Sys2Proof.Machine.execFminF32 b a d s
  | .fmaxF32 b a d => Sys2Proof.Machine.execFmaxF32 b a d s
  | .fabsF32 a d => Sys2Proof.Machine.execFabsF32 a d s
  | .fnegF32 a d => Sys2Proof.Machine.execFnegF32 a d s
  | .frcpF32 a d => Sys2Proof.Machine.execFrcpF32 a d s
  | .frsqF32 a d => Sys2Proof.Machine.execFrsqF32 a d s
  | .fsqrtF32 a d => Sys2Proof.Machine.execFsqrtF32 a d s
  | .fdivF32 b a d => Sys2Proof.Machine.execFdivF32 b a d s
  | .fex2F32 a d => Sys2Proof.Machine.execFex2F32 a d s
  | .flg2F32 a d => Sys2Proof.Machine.execFlg2F32 a d s
  | .fsinpiF32 a d => Sys2Proof.Machine.execFsinpiF32 a d s
  | .fcospiF32 a d => Sys2Proof.Machine.execFcospiF32 a d s
  | .ftanhF32 a d => Sys2Proof.Machine.execFtanhF32 a d s
  | .frndF32 a d => Sys2Proof.Machine.execFrndF32 a d s
  | .hadd2F16 b a d => Sys2Proof.Machine.execHadd2F16 b a d s
  | .hmul2F16 b a d => Sys2Proof.Machine.execHmul2F16 b a d s
  | .hfma2F16 b a d => Sys2Proof.Machine.execHfma2F16 b a d s
  | .hadd2Bf16 b a d => Sys2Proof.Machine.execHadd2Bf16 b a d s
  | .hmul2Bf16 b a d => Sys2Proof.Machine.execHmul2Bf16 b a d s
  | .hfma2Bf16 b a d => Sys2Proof.Machine.execHfma2Bf16 b a d s
  | .hmin2Bf16 b a d => Sys2Proof.Machine.execHmin2Bf16 b a d s
  | .hmax2Bf16 b a d => Sys2Proof.Machine.execHmax2Bf16 b a d s
  | .fdot2Bf16 b a d => Sys2Proof.Machine.execFdot2Bf16 b a d s
  | .dadd b a d => Sys2Proof.Machine.execDadd b a d s
  | .dmul b a d => Sys2Proof.Machine.execDmul b a d s
  | .dfma b a d => Sys2Proof.Machine.execDfma b a d s
  | .dmin b a d => Sys2Proof.Machine.execDmin b a d s
  | .dmax b a d => Sys2Proof.Machine.execDmax b a d s
  | .ddiv b a d => Sys2Proof.Machine.execDdiv b a d s
  | .dsqrt a d => Sys2Proof.Machine.execDsqrt a d s
  | .cvtF32Sw a d => Sys2Proof.Machine.execCvtF32Sw a d s
  | .cvtF32Uw a d => Sys2Proof.Machine.execCvtF32Uw a d s
  | .cvtSwF32 a d => Sys2Proof.Machine.execCvtSwF32 a d s
  | .cvtUwF32 a d => Sys2Proof.Machine.execCvtUwF32 a d s
  | .pkF16 b a d => Sys2Proof.Machine.execPkF16 b a d s
  | .pkBf16 b a d => Sys2Proof.Machine.execPkBf16 b a d s
  | .cvtF32F16 imm a d => Sys2Proof.Machine.execCvtF32F16 imm a d s
  | .cvtF32Bf16 imm a d => Sys2Proof.Machine.execCvtF32Bf16 imm a d s
  | .cvtF64F32 a d => Sys2Proof.Machine.execCvtF64F32 a d s
  | .cvtF32F64 a d => Sys2Proof.Machine.execCvtF32F64 a d s
  | .qpkE4m3 b a d => Sys2Proof.Machine.execQpkE4m3 b a d s
  | .qpkE5m2 b a d => Sys2Proof.Machine.execQpkE5m2 b a d s
  | .dqE4m3 b a d => Sys2Proof.Machine.execDqE4m3 b a d s
  | .dqE5m2 b a d => Sys2Proof.Machine.execDqE5m2 b a d s
  | .shflIdx b a d => Sys2Proof.Machine.execShflIdx b a d s
  | .shflUp b a d => Sys2Proof.Machine.execShflUp b a d s
  | .shflDn b a d => Sys2Proof.Machine.execShflDn b a d s
  | .shflXor b a d => Sys2Proof.Machine.execShflXor b a d s
  | .shflRel b a d => Sys2Proof.Machine.execShflRel b a d s
  | .voteAny a d => Sys2Proof.Machine.execVoteAny a d s
  | .voteAll a d => Sys2Proof.Machine.execVoteAll a d s
  | .ballot a d => Sys2Proof.Machine.execBallot a d s
  | .redx imm a d => Sys2Proof.Machine.execRedx imm a d s
  | .redxi imm a d => Sys2Proof.Machine.execRedxi imm a d s
  | .scan imm a d => Sys2Proof.Machine.execScan imm a d s
  | .matchW a d => Sys2Proof.Machine.execMatchW a d s
  | .cmpEqW b a d => Sys2Proof.Machine.execCmpEqW b a d s
  | .cmpNeW b a d => Sys2Proof.Machine.execCmpNeW b a d s
  | .cmpLtSw b a d => Sys2Proof.Machine.execCmpLtSw b a d s
  | .cmpLeSw b a d => Sys2Proof.Machine.execCmpLeSw b a d s
  | .cmpLtUw b a d => Sys2Proof.Machine.execCmpLtUw b a d s
  | .cmpLeUw b a d => Sys2Proof.Machine.execCmpLeUw b a d s
  | .fcmpEqF32 b a d => Sys2Proof.Machine.execFcmpEqF32 b a d s
  | .fcmpLtF32 b a d => Sys2Proof.Machine.execFcmpLtF32 b a d s
  | .fcmpLeF32 b a d => Sys2Proof.Machine.execFcmpLeF32 b a d s
  | .fcmpUnF32 b a d => Sys2Proof.Machine.execFcmpUnF32 b a d s
  | .dcmpLt b a d => Sys2Proof.Machine.execDcmpLt b a d s
  | .dcmpEq b a d => Sys2Proof.Machine.execDcmpEq b a d s
  | .pand b a d => Sys2Proof.Machine.execPand b a d s
  | .por b a d => Sys2Proof.Machine.execPor b a d s
  | .pxor b a d => Sys2Proof.Machine.execPxor b a d s
  | .pandn b a d => Sys2Proof.Machine.execPandn b a d s
  | .pmovV a d => Sys2Proof.Machine.execPmovV a d s
  | .vmovP a d => Sys2Proof.Machine.execVmovP a d s
  | .pcnt a d => Sys2Proof.Machine.execPcnt a d s
  | .ldSb b a d => Sys2Proof.Machine.execLdSb b a d s
  | .ldUb b a d => Sys2Proof.Machine.execLdUb b a d s
  | .ldSh b a d => Sys2Proof.Machine.execLdSh b a d s
  | .ldUh b a d => Sys2Proof.Machine.execLdUh b a d s
  | .ldW b a d => Sys2Proof.Machine.execLdW b a d s
  | .ldD b a d => Sys2Proof.Machine.execLdD b a d s
  | .ldQ b a d => Sys2Proof.Machine.execLdQ b a d s
  | .stB b a d => Sys2Proof.Machine.execStB b a d s
  | .stH b a d => Sys2Proof.Machine.execStH b a d s
  | .stW b a d => Sys2Proof.Machine.execStW b a d s
  | .stD b a d => Sys2Proof.Machine.execStD b a d s
  | .stQ b a d => Sys2Proof.Machine.execStQ b a d s
  | .ldmW k a d => Sys2Proof.Machine.execLdmW k a d s
  | .ldmD k a d => Sys2Proof.Machine.execLdmD k a d s
  | .ldmQ k a d => Sys2Proof.Machine.execLdmQ k a d s
  | .stmW k a d => Sys2Proof.Machine.execStmW k a d s
  | .stmD k a d => Sys2Proof.Machine.execStmD k a d s
  | .stmQ k a d => Sys2Proof.Machine.execStmQ k a d s
  | .ldacqW r sx a d => Sys2Proof.Machine.execLdacqW r sx a d s
  | .ldacqD r sx a d => Sys2Proof.Machine.execLdacqD r sx a d s
  | .strelW sx a d => Sys2Proof.Machine.execStrelW sx a d s
  | .strelD sx a d => Sys2Proof.Machine.execStrelD sx a d s
  | .atomAddW b a d => Sys2Proof.Machine.execAtomAddW b a d s
  | .atomMinSw b a d => Sys2Proof.Machine.execAtomMinSw b a d s
  | .atomMinUw b a d => Sys2Proof.Machine.execAtomMinUw b a d s
  | .atomMaxSw b a d => Sys2Proof.Machine.execAtomMaxSw b a d s
  | .atomMaxUw b a d => Sys2Proof.Machine.execAtomMaxUw b a d s
  | .atomAndW b a d => Sys2Proof.Machine.execAtomAndW b a d s
  | .atomOrW b a d => Sys2Proof.Machine.execAtomOrW b a d s
  | .atomXorW b a d => Sys2Proof.Machine.execAtomXorW b a d s
  | .atomExchW b a d => Sys2Proof.Machine.execAtomExchW b a d s
  | .atomCasW b a d => Sys2Proof.Machine.execAtomCasW b a d s
  | .atomFaddF32 b a d => Sys2Proof.Machine.execAtomFaddF32 b a d s
  | .atomAddD b a d => Sys2Proof.Machine.execAtomAddD b a d s
  | .atomExchD b a d => Sys2Proof.Machine.execAtomExchD b a d s
  | .atomCasD b a d => Sys2Proof.Machine.execAtomCasD b a d s
  | .pfL1 b a => Sys2Proof.Machine.execPfL1 b a s
  | .pfL2 b a => Sys2Proof.Machine.execPfL2 b a s
  | .jmp a => Sys2Proof.Machine.execJmp a s
  | .callr a d => Sys2Proof.Machine.execCallr a d s
  | .ret a => Sys2Proof.Machine.execRet a s
  | .barArr b a => Sys2Proof.Machine.execBarArr b a s
  | .barWait b a => Sys2Proof.Machine.execBarWait b a s
  | .barSync a => Sys2Proof.Machine.execBarSync a s
  | .pbwait imm a => Sys2Proof.Machine.execPbwait imm a s
  | .pbarr b a => Sys2Proof.Machine.execPbarr b a s
  | .xw a => Sys2Proof.Machine.execXw a s
  | .xwp b a => Sys2Proof.Machine.execXwp b a s
  | .untag a d => Sys2Proof.Machine.execUntag a d s
  | .lnkill imm a => Sys2Proof.Machine.execLnkill imm a s
  | .mfs imm d => Sys2Proof.Machine.execMfs imm d s
  | .mts imm a => Sys2Proof.Machine.execMts imm a s
  | .lnq a d => Sys2Proof.Machine.execLnq a d s
  | .bcopy a d => Sys2Proof.Machine.execBcopy a d s
  | .coll a => Sys2Proof.Machine.execColl a s
  | .ewait a => Sys2Proof.Machine.execEwait a s
  | .epoll a d => Sys2Proof.Machine.execEpoll a d s
  | .gpost b a => Sys2Proof.Machine.execGpost b a s
  | .ofsub a d => Sys2Proof.Machine.execOfsub a d s
  | .ofwait => Sys2Proof.Machine.execOfwait s
  | .ofcommit => Sys2Proof.Machine.execOfcommit s
  | .ofinfo d => Sys2Proof.Machine.execOfinfo d s
  | .accrd a d => Sys2Proof.Machine.execAccrd a d s
  | .accwr a d => Sys2Proof.Machine.execAccwr a d s
  | .acalloc a d => Sys2Proof.Machine.execAcalloc a d s
  | .acfree b a => Sys2Proof.Machine.execAcfree b a s
  | .mslot b a sx => Sys2Proof.Machine.execMslot b a sx s
  | .mmac b a d => Sys2Proof.Machine.execMmac b a d s
  | .mtrans a d => Sys2Proof.Machine.execMtrans a d s
  | .mperm b a d => Sys2Proof.Machine.execMperm b a d s
  | .mrsum a d => Sys2Proof.Machine.execMrsum a d s
  | .mzero d => Sys2Proof.Machine.execMzero d s
  | .vcnt b a => Sys2Proof.Machine.execVcnt b a s
  | .mwait => Sys2Proof.Machine.execMwait s
  | .mpost b a d => Sys2Proof.Machine.execMpost b a d s
  | .mdrain a d => Sys2Proof.Machine.execMdrain a d s
  | .ppoint a => Sys2Proof.Machine.execPpoint a s
  | .addiW imm a d => Sys2Proof.Machine.execAddiW imm a d s
  | .andi imm a d => Sys2Proof.Machine.execAndi imm a d s
  | .ori imm a d => Sys2Proof.Machine.execOri imm a d s
  | .xori imm a d => Sys2Proof.Machine.execXori imm a d s
  | .shli imm a d => Sys2Proof.Machine.execShli imm a d s
  | .shri imm a d => Sys2Proof.Machine.execShri imm a d s
  | .srai imm a d => Sys2Proof.Machine.execSrai imm a d s
  | .cmpiEq imm a d => Sys2Proof.Machine.execCmpiEq imm a d s
  | .cmpiLtSw imm a d => Sys2Proof.Machine.execCmpiLtSw imm a d s
  | .cmpiLtUw imm a d => Sys2Proof.Machine.execCmpiLtUw imm a d s
  | .ldiW imm a d => Sys2Proof.Machine.execLdiW imm a d s
  | .stiW imm a d => Sys2Proof.Machine.execStiW imm a d s
  | .ldiD imm a d => Sys2Proof.Machine.execLdiD imm a d s
  | .stiD imm a d => Sys2Proof.Machine.execStiD imm a d s
  | .ldiQ imm a d => Sys2Proof.Machine.execLdiQ imm a d s
  | .stiQ imm a d => Sys2Proof.Machine.execStiQ imm a d s
  | .bra imm => Sys2Proof.Machine.execBra imm s
  | .call imm d => Sys2Proof.Machine.execCall imm d s
  | .movi imm d => Sys2Proof.Machine.execMovi imm d s
  | .movu imm d => Sys2Proof.Machine.execMovu imm d s
  | .join => Sys2Proof.Machine.execJoin s
  | .nop => Sys2Proof.Machine.execNop s
  | .exit => Sys2Proof.Machine.execExit s
  | .trap c => Sys2Proof.Machine.execTrap c s
  | .brk => Sys2Proof.Machine.execBrk s
  | .eret => Sys2Proof.Machine.execEret s
  | .fence t e sx => Sys2Proof.Machine.execFence t e sx s
  | .sdrain => Sys2Proof.Machine.execSdrain s
  | .wbase n => Sys2Proof.Machine.execWbase n s
  | .sleep n => Sys2Proof.Machine.execSleep n s
  | .yield => Sys2Proof.Machine.execYield s
  | .lnon => Sys2Proof.Machine.execLnon s
  | .lnoff => Sys2Proof.Machine.execLnoff s
  | .bexit c => Sys2Proof.Machine.execBexit c s
  | .fairnessTurn u => Sys2Proof.Machine.execFairnessTurn u s
  | .storeFaultDelivery u => Sys2Proof.Machine.execStoreFaultDelivery u s
  | .transactionOverrunTrap u => Sys2Proof.Machine.execTransactionOverrunTrap u s
  | .passFaultDelivery u => Sys2Proof.Machine.execPassFaultDelivery u s
  | .producerComplete core eid => Sys2Proof.Machine.execProducerComplete core eid s
  | .drain u lane => Sys2Proof.Machine.execDrain u lane s
  | .propagate core line => Sys2Proof.Machine.execPropagate core line s
  | .apply pa => Sys2Proof.Machine.execApply pa s
  | .refresh core line => Sys2Proof.Machine.execRefresh core line s
  | .engineRead eng k => Sys2Proof.Machine.execEngineRead eng k s
  | .engineWrite eng k => Sys2Proof.Machine.execEngineWrite eng k s
  | .joinDeadlockRelease u => Sys2Proof.Machine.execJoinDeadlockRelease u s
  | .pbwaitRelease u lane => Sys2Proof.Machine.execPbwaitRelease u lane s
  | .sleepExpiry u pc => Sys2Proof.Machine.execSleepExpiry u pc s
  | .pageWalk u w => Sys2Proof.Machine.execPageWalk u w s
  | .faultRecordWrite p => Sys2Proof.Machine.execFaultRecordWrite p s
  | .collapse p ctx page => Sys2Proof.Machine.execCollapse p ctx page s
  | .engineCommandStart eng => Sys2Proof.Machine.execEngineCommandStart eng s
  | .scout eng k => Sys2Proof.Machine.execScout eng k s
  | .copyCompletion eng => Sys2Proof.Machine.execCopyCompletion eng s
  | .collectiveCompletion eng cause => Sys2Proof.Machine.execCollectiveCompletion eng cause s
  | .orderSequencerArrival h => Sys2Proof.Machine.execOrderSequencerArrival h s
  | .beatSeal die => Sys2Proof.Machine.execBeatSeal die s
  | .batchExchange beat => Sys2Proof.Machine.execBatchExchange beat s
  | .transactionAdmission h => Sys2Proof.Machine.execTransactionAdmission h s
  | .transactionOverrun h => Sys2Proof.Machine.execTransactionOverrun h s
  | .passGrant cl => Sys2Proof.Machine.execPassGrant cl s
  | .operandFetch cl cmd which k => Sys2Proof.Machine.execOperandFetch cl cmd which k s
  | .chunkApplied cl sb => Sys2Proof.Machine.execChunkApplied cl sb s
  | .mpostArrival cl cmd => Sys2Proof.Machine.execMpostArrival cl cmd s
  | .tileDrain cl cmd => Sys2Proof.Machine.execTileDrain cl cmd s
  | .accumulatorSpill cl => Sys2Proof.Machine.execAccumulatorSpill cl s
  | .acallocGrant cl => Sys2Proof.Machine.execAcallocGrant cl s
  | .acfreeEffect cl cmd => Sys2Proof.Machine.execAcfreeEffect cl cmd s
  | .preemptionTimeout blk => Sys2Proof.Machine.execPreemptionTimeout blk s
  | .qpost fn q size node => Sys2Proof.Machine.execQpost fn q size node s
  | .queueResume fn q => Sys2Proof.Machine.execQueueResume fn q s
  | .flush fn q => Sys2Proof.Machine.execFlush fn q s
  | .abort fn q => Sys2Proof.Machine.execAbort fn q s
  | .nodeDispatch p => Sys2Proof.Machine.execNodeDispatch p s
  | .nodeCompletion n => Sys2Proof.Machine.execNodeCompletion n s
  | .blockAdmission l => Sys2Proof.Machine.execBlockAdmission l s
  | .admissionReservation l core => Sys2Proof.Machine.execAdmissionReservation l core s
  | .blockRetirement blk => Sys2Proof.Machine.execBlockRetirement blk s
  | .launchEnd l => Sys2Proof.Machine.execLaunchEnd l s
  | .latticeTimeslice die phys => Sys2Proof.Machine.execLatticeTimeslice die phys s
  | .replayGateTimeout l u => Sys2Proof.Machine.execReplayGateTimeout l u s
  | .measurementPass l => Sys2Proof.Machine.execMeasurementPass l s
  | .contextDestroy p ctx => Sys2Proof.Machine.execContextDestroy p ctx s
  | .shootdown p => Sys2Proof.Machine.execShootdown p s
  | .shootdownComplete p => Sys2Proof.Machine.execShootdownComplete p s
  | .fqresResume p page => Sys2Proof.Machine.execFqresResume p page s
  | .fqresReject p page => Sys2Proof.Machine.execFqresReject p page s
  | .halt p => Sys2Proof.Machine.execHalt p s
  | .resume p => Sys2Proof.Machine.execResume p s
  | .step p => Sys2Proof.Machine.execStep p s
  | .stepall p => Sys2Proof.Machine.execStepall p s
  | .snap p seqno => Sys2Proof.Machine.execSnap p seqno s
  | .poke p => Sys2Proof.Machine.execPoke p s
  | .preempt p seqno => Sys2Proof.Machine.execPreempt p seqno s
  | .restore p => Sys2Proof.Machine.execRestore p s
  | .release p => Sys2Proof.Machine.execRelease p s
  | .hostAccess wr cxl pa n data => Sys2Proof.Machine.execHostAccess wr cxl pa n data s
  | .inboundAccess port peer off acc n data => Sys2Proof.Machine.execInboundAccess port peer off acc n data s
  | .inboundTimeout p k => Sys2Proof.Machine.execInboundTimeout p k s
  | .remoteTimeout r => Sys2Proof.Machine.execRemoteTimeout r s
  | .peerCompletion r err data => Sys2Proof.Machine.execPeerCompletion r err data s
  | .flitReplay port dir => Sys2Proof.Machine.execFlitReplay port dir s
  | .linkRetrain port => Sys2Proof.Machine.execLinkRetrain port s
  | .heartbeat p ctr key fresh => Sys2Proof.Machine.execHeartbeat p ctr key fresh s
  | .sessionBind p key => Sys2Proof.Machine.execSessionBind p key s
  | .sessionLapse p => Sys2Proof.Machine.execSessionLapse p s
  | .sessionHalt p => Sys2Proof.Machine.execSessionHalt p s
  | .sessionScrub p => Sys2Proof.Machine.execSessionScrub p s
  | .getMeasurements idx => Sys2Proof.Machine.execGetMeasurements idx s
  | .stage comps vals digest secver sig => Sys2Proof.Machine.execStage comps vals digest secver sig s
  | .activate => Sys2Proof.Machine.execActivate s
  | .componentSwitch => Sys2Proof.Machine.execComponentSwitch s
  | .create p clusters groups conf => Sys2Proof.Machine.execCreate p clusters groups conf s
  | .partitionRelease p => Sys2Proof.Machine.execPartitionRelease p s
  | .handoff p rec ctx => Sys2Proof.Machine.execHandoff p rec ctx s
  | .allocationRecordWrite p rec base len ctx keyid slevel key valid => Sys2Proof.Machine.execAllocationRecordWrite p rec base len ctx keyid slevel key valid s
  | .levelLower p kind who addr level => Sys2Proof.Machine.execLevelLower p kind who addr level s
  | .clockSwitch cl => Sys2Proof.Machine.execClockSwitch cl s
  | .powerInterval watts => Sys2Proof.Machine.execPowerInterval watts s
  | .droop cl => Sys2Proof.Machine.execDroop cl s
  | .brownoutWarning => Sys2Proof.Machine.execBrownoutWarning s
  | .brownoutClear => Sys2Proof.Machine.execBrownoutClear s
  | .brownoutTimeout => Sys2Proof.Machine.execBrownoutTimeout s
  | .thermalInterval die temp => Sys2Proof.Machine.execThermalInterval die temp s
  | .thermalCritical die temp => Sys2Proof.Machine.execThermalCritical die temp s
  | .thermalTrip die temp => Sys2Proof.Machine.execThermalTrip die temp s
  | .emergencySave => Sys2Proof.Machine.execEmergencySave s
  | .emergencyImageWrite seqno => Sys2Proof.Machine.execEmergencyImageWrite seqno s
  | .opvote p op => Sys2Proof.Machine.execOpvote p op s
  | .railHoldExpiry die r => Sys2Proof.Machine.execRailHoldExpiry die r s
  | .railVoltageReached die r => Sys2Proof.Machine.execRailVoltageReached die r s
  | .energyUpdate p uj => Sys2Proof.Machine.execEnergyUpdate p uj s
  | .budgetPeriod => Sys2Proof.Machine.execBudgetPeriod s
  | .patrolScrub n => Sys2Proof.Machine.execPatrolScrub n s
  | .uncorrectableError pa => Sys2Proof.Machine.execUncorrectableError pa s
  | .retirecore => Sys2Proof.Machine.execRetirecore s
  | .sparech => Sys2Proof.Machine.execSparech s
  | .rowrep => Sys2Proof.Machine.execRowrep s
  | .lanespare => Sys2Proof.Machine.execLanespare s
  | .tseal => Sys2Proof.Machine.execTseal s
  | .swapout => Sys2Proof.Machine.execSwapout s
  | .transportSelfTest cores chans lanes => Sys2Proof.Machine.execTransportSelfTest cores chans lanes s
  | .deviceReset => Sys2Proof.Machine.execDeviceReset s
  | .registerWrite fn off size val => Sys2Proof.Machine.execRegisterWrite fn off size val s
  | .hostCompletion r data => Sys2Proof.Machine.execHostCompletion r data s
  | .linkRetrained port => Sys2Proof.Machine.execLinkRetrained port s
  | .collectiveInboundWrite eng port e vals => Sys2Proof.Machine.execCollectiveInboundWrite eng port e vals s

end Sys2Proof.Machine
end

