-- ==== Sys2Proof/Machine/Schedule.lean ====
section
/-! DEFINITION. What comes next: the schedule, the timebase, and the spill areas of long frontiers (R25, R109, R213). -/

namespace Sys2Proof.Machine

/-! ### The frontier spill areas (R25) -/

/-- The entries of a frontier in the order that fills the chip first (R25): the ready ones in PC order, then those that wait or are
parked. -/
def Warp.inPcOrder (w : Warp) : List Entry :=
  sortByKey (fun e : Entry => (if e.isReady then 0 else 2 ^ 64) + e.pc.toNat) w.frontier

/-- Where a warp's spill area lies: in its block's area, the warps of the block one after another (R25, R285; log 55). -/
def State.spillArea (s : State) (w : Warp) : Option (Nat × Nat) :=
  match kget s.blocks w.blk with
  | none => none
  | some b =>
    match kget s.launches b.launch with
    | none => none
    | some l => (l.areas.find? (fun a => a.bid == some b.bid)).map (fun a => (l.part, a.spill + 16 * max l.lr.frspill 56 * w.wid))

/-- Entries 9 and beyond of a frontier live in its spill area (R25). -/
def State.spillWarp (s : State) (w : Warp) : State :=
  let es := w.inPcOrder.drop 8
  if w.frontier.length ≤ 8 then s
  else
    match s.spillArea w with
    | some (p, at_) => if s.ownsRange p at_ (16 * es.length) then s.setHs at_ (es.flatMap Entry.bytes) else s
    | none => s

/-- The spill areas hold what the frontiers have beyond the chip. -/
def State.spillAll (s : State) : State := s.warps.foldl (fun st e => st.spillWarp e.2) s

/-! ### The schedule (R109, R213) -/

/-- One step is taken: the counter rises and the device timebase moves by a free amount (R213, log 3). -/
def State.tick (s : State) : State :=
  { s.spillAll with stepNo := s.stepNo + 1, timebase := s.timebase + Config.stepNs s.stepNo }

/-- The next choice: the head of the agenda, or a free choice when nothing is laid down (R109, log 3). -/
def State.choose (s : State) : Choice × State :=
  match s.agenda with
  | c :: t => (c, { s.tick with agenda := t })
  | [] => (Config.schedule s.stepNo, s.tick)

end Sys2Proof.Machine
end

