-- ==== Sys2Proof/Machine/Step.lean ====
section
/-! DEFINITION. One step of the machine, and the placing of a word where the step fetches. -/

namespace Sys2Proof.Machine

/-- One step: without module power only a device reset happens (R339, R344); otherwise the next choice is an event, or an
issue attempt of a unit. -/
def step (s : State) : Host.Outcome State Fault Refusal :=
  let c := s.choose
  if s.powered then
    match c.1 with
    | .event i => if c.2.eventOpen i then exec i c.2 else .next c.2
    | .issue u =>
      match c.2.prepare u none with
      | .done t => .next t
      | .run i t => exec i t
    | .issueAt u pc =>
      match c.2.prepare u (some pc) with
      | .done t => .next t
      | .run i t => exec i t
  else if c.1 = .event .deviceReset then exec .deviceReset c.2
  else .fault .powerOff

/-- `s` with a word stored where the next step fetches, and all that this takes (log 10). -/
def State.withFetchWord (s : State) (_nbits w : Nat) : State := s.placeWord w

end Sys2Proof.Machine
end

