-- ==== Sys2Proof/Machine/RegRead.lean ====
section
/-! DEFINITION. The register maps as the functions read them (R7, R276, R278, R286, R291, R292, R301, R313, R321, R325, R342, R343,
R346, R348). A read changes nothing; a write-only field, a reserved bit and an offset that no map names read as 0. -/

namespace Sys2Proof.Machine

/-- A readable field: its bits and its value. -/
structure Shown where
  hi : Nat
  lo : Nat
  val : Nat
  deriving DecidableEq, Repr

/-- The bits of a word that its fields give. -/
def shownWord (fs : List Shown) : Nat := fs.foldl (fun n f => n + f.val % 2 ^ (f.hi - f.lo + 1) * 2 ^ f.lo) 0

/-- A field of an address: the register holds it at its place. -/
def atPlace (hi lo v : Nat) : Shown := ⟨hi, lo, v / 2 ^ lo⟩

/-! ### The maps -/

/-- R276. -/
def State.queueShown (s : State) (q o : Nat) : List Shown :=
  let r (f : QReg) : Nat := s.qreg q f
  match o with
  | 0x00 => [⟨3, 0, r .part⟩, ⟨6, 4, r .prio⟩, ⟨7, 7, r .en⟩, ⟨31, 16, r .ctx⟩]
  | 0x10 => [⟨10, 0, s.ringFree q⟩, ⟨16, 16, r .halt⟩, ⟨17, 17, r .ovf⟩]
  | 0x18 => [⟨7, 0, r .qerr⟩]
  | 0x20 => [⟨63, 0, r .qerrNode⟩]
  | _ => []

/-- R291, R292. -/
def State.measureShown (s : State) (p o : Nat) : List Shown :=
  let r (f : PReg) : Nat := s.preg p f
  if o < 0x40 then
    match o with
    | 0x00 => [⟨5, 0, r .beatp⟩]
    | 0x08 => [⟨4, 0, r .nevt⟩]
    | 0x10 => (List.range 8).map (fun k => ⟨8 * k + 7, 8 * k, r (.evt k)⟩)
    | 0x18 => (List.range 8).map (fun k => ⟨8 * k + 7, 8 * k, r (.evt (8 + k))⟩)
    | 0x20 => [⟨63, 0, r .capBase⟩]
    | 0x28 => [⟨63, 0, r .capSize⟩]
    | 0x30 => [⟨63, 0, r .resBase⟩]
    | 0x38 => [⟨0, 0, r .done⟩, ⟨1, 1, r .mismatch⟩, ⟨2, 2, r .capFull⟩]
    | _ => []
  else
    let w := (o - 0x40) / 0x20
    if 8 ≤ w then []
    else
      match (o - 0x40) % 0x20 with
      | 0x00 => [⟨0, 0, r (.fwEn w)⟩, atPlace 48 12 (r (.fwView w))]
      | 0x08 => [⟨39, 0, r (.fwElems w)⟩, ⟨55, 40, r (.fwRowLen w)⟩, ⟨57, 56, r (.fwScaleG w)⟩]
      | 0x10 => [⟨48, 0, r (.fwStore w)⟩]
      | 0x18 => [⟨48, 0, r (.fwScale w)⟩]
      | _ => []

/-- The lattice map (R286): four entries in a word. -/
def State.latticeShown (s : State) (o : Nat) : List Shown :=
  (List.range 4).flatMap (fun k =>
    let j := o % 0x200 / 2 + k
    let l := 192 * (o / 0x200) + j
    if j < 192 then [⟨16 * k + 7, 16 * k, s.dreg (.lmPhys l)⟩, ⟨16 * k + 8, 16 * k + 8, s.dreg (.lmShared l)⟩] else [])

/-- R313. -/
def State.debugShown (s : State) (p o : Nat) : List Shown :=
  let r (f : PReg) : Nat := s.preg p f
  let bp (i : Nat) : List Shown := [⟨0, 0, r (.dbpEn i)⟩, atPlace 56 2 (r (.dbpPc i))]
  match o with
  | 0x00 => [⟨15, 0, r .dctx⟩]
  | 0x08 => [⟨31, 0, r .dblock⟩, ⟨37, 32, r .dwarp⟩]
  | 0x10 => [⟨63, 0, r .daddr⟩]
  | 0x20 => [⟨1, 0, r .dstate⟩, ⟨11, 8, r .dresult⟩, ⟨19, 16, r .dstop⟩, ⟨23, 20, r .dbpIdx⟩]
  | 0x28 => [⟨63, 0, r .dpc⟩]
  | 0x30 => bp 0
  | 0x38 => bp 1
  | 0x40 => bp 2
  | 0x48 => bp 3
  | _ => []

/-- R342. -/
def State.powerShown (s : State) (p o : Nat) : List Shown :=
  match o with
  | 0x00 => [⟨2, 0, s.preg p .opVote⟩]
  | 0x08 => [⟨63, 0, s.preg p .energy⟩]
  | 0x10 => [⟨6, 0, s.preg p .ePeriod⟩]
  | _ => []

/-- R325. SSTATE follows the time (R330). -/
def State.securityShown (s : State) (p o : Nat) : List Shown :=
  let r (f : PReg) : Nat := s.preg p f
  match o with
  | 0x00 => [⟨0, 0, r .conf⟩, ⟨3, 1, s.sess p⟩, ⟨35, 32, r .peerLevel⟩]
  | 0x08 => [⟨13, 0, r .hbPeriod⟩, ⟨41, 32, r .hbGrace⟩]
  | 0x10 => [⟨11, 0, r .hbRetain⟩]
  | 0x18 => [⟨63, 0, r .lastHb⟩]
  | 0x20 => [⟨63, 0, r .hBase⟩]
  | 0x28 => [⟨63, 0, r .hLen⟩]
  | 0x30 => [⟨63, 0, r .iflBase⟩]
  | 0x38 => [⟨15, 0, r .iflSize⟩, ⟨47, 32, r .iflTail⟩]
  | 0x40 => [⟨15, 0, r .iflHead⟩, ⟨63, 32, r .iflLost⟩]
  | 0x48 => [⟨63, 0, r .fwRefused⟩]
  | _ => []

/-- R321. -/
def State.apertureShown (s : State) (p a o : Nat) : List Shown :=
  let r (f : PReg) : Nat := s.preg p f
  match o with
  | 0x00 => [⟨0, 0, r (.apEn a)⟩, ⟨3, 1, r (.apPerm a)⟩, ⟨7, 4, r (.apLevel a)⟩, atPlace 43 14 (r (.apObase a))]
  | 0x08 => [⟨63, 0, r (.apOlen a)⟩]
  | 0x10 => [⟨56, 0, r (.apVabase a)⟩]
  | 0x18 => [⟨15, 0, r (.apCtx a)⟩]
  | _ => []

/-- R346: the budgets of a partition. -/
def State.budgetShown (s : State) (p o : Nat) : List Shown :=
  match o with
  | 0x00 => [⟨31, 0, s.preg p .d2d⟩, ⟨63, 32, s.preg p .hylis⟩]
  | 0x08 => [⟨31, 0, s.preg p .host⟩]
  | 0x10 => [⟨31, 0, s.preg p .d2dStall⟩, ⟨63, 32, s.preg p .hylisStall⟩]
  | 0x18 => [⟨31, 0, s.preg p .hostStall⟩]
  | _ => []

/-- R301. -/
def State.xlatShown (s : State) (p o : Nat) : List Shown :=
  let r (f : PReg) : Nat := s.preg p f
  match o with
  | 0x00 => [⟨51, 0, r .ctxTab⟩]
  | 0x08 => [⟨16, 0, r .ctxCount⟩]
  | 0x10 => [⟨51, 0, r .fqBase⟩]
  | 0x18 => [⟨15, 0, r .fqSize⟩, ⟨47, 32, r .fqHead⟩]
  | 0x20 => [⟨15, 0, r .fqTail⟩, ⟨42, 32, r .fqVec⟩]
  | 0x28 => [⟨15, 0, r .fqrCtx⟩]
  | 0x38 => [atPlace 56 14 (r .sdVa)]
  | 0x40 => [⟨63, 0, r .sdLen⟩]
  | 0x48 => [⟨15, 0, r .sdCtx⟩, ⟨33, 33, r .sdAll⟩, ⟨34, 34, r .sdBusy⟩]
  | _ => []

/-- R343: the voltage of a core rail is the one it has now. -/
def State.railShown (s : State) (k : Nat) : Nat :=
  if k % 5 < 4 then s.railMv (k / 5) (k % 5) else s.dreg (.railMv k)

/-- R343, R346, R348: the device's registers, byte by byte where they are small. -/
def State.deviceShown (s : State) (at_ : Nat) : List Shown :=
  let r (f : DReg) : Nat := s.dreg f
  match at_ with
  | 0x800000 => [⟨11, 0, r .plimit⟩]
  | 0x800008 => [⟨5, 0, r .grants⟩]
  | 0x800010 => (List.range 4).map (fun d => ⟨16 * d + 7, 16 * d, r (.temp d)⟩)
  | 0x800018 => (List.range 4).map (fun d => ⟨8 * d + 2, 8 * d, r (.thCap d)⟩) ++ [⟨34, 32, r .pwrCap⟩]
  | 0x800048 => [⟨63, 0, r .droopCnt⟩]
  | 0x800050 => [⟨63, 0, r .saveBase⟩]
  | 0x800058 => [⟨63, 0, r .saveLen⟩]
  | 0x800060 => [⟨0, 0, r .saveDone⟩, ⟨1, 1, r .brownout⟩]
  | 0x900400 => [⟨31, 0, r .collapse⟩, ⟨63, 32, r .scrub⟩]
  | 0x900408 => [⟨31, 0, r .bist⟩, ⟨63, 32, r .ofx⟩]
  | 0xA00008 => [⟨63, 0, r .svcArg⟩]
  | 0xA00010 => [⟨1, 0, r .svcState⟩, ⟨15, 8, r .svcResult⟩]
  | 0xA00018 => [⟨0, 0, r .sealed⟩, ⟨1, 1, r .testing⟩, ⟨2, 2, r .delta⟩]
  | 0xA00020 => [⟨63, 0, r .repBase⟩]
  | 0xA00080 => (List.range 4).map (fun d => ⟨8 * d + 7, 8 * d, r (.coreSpares d)⟩)
  | 0xA00088 => (List.range 8).map (fun k => ⟨8 * k + 7, 8 * k, r (.chSpares k)⟩)
  | 0xA000B8 => [⟨31, 0, r .retrains⟩]
  | _ =>
    if 0x800020 ≤ at_ ∧ at_ < 0x800048 then
      (List.range 4).map (fun j => ⟨16 * j + 15, 16 * j, s.railShown ((at_ - 0x800020) / 2 + j)⟩)
    else if 0xA00040 ≤ at_ ∧ at_ < 0xA00060 then [⟨63, 0, r (.ceCount ((at_ - 0xA00040) / 8))⟩]
    else if 0xA00060 ≤ at_ ∧ at_ < 0xA00080 then [⟨63, 0, r (.ueCount ((at_ - 0xA00060) / 8))⟩]
    else if 0xA00090 ≤ at_ ∧ at_ < 0xA000A0 then
      (List.range 4).map (fun j => ⟨16 * j + 15, 16 * j, r (.rowReps ((at_ - 0xA00090) / 2 + j))⟩)
    else if 0xA000A0 ≤ at_ ∧ at_ < 0xA000B8 then
      (List.range 8).map (fun j => ⟨8 * j + 7, 8 * j, r (.lanesLeft (at_ - 0xA000A0 + j))⟩)
    else []

/-! ### Reads -/

/-- The fields of the 64-bit word at an offset of BAR0 that a function reads: a virtual one those of its partition, its queues and
the lattice map; the device's registers are the physical function's (log 123). -/
def State.shownAt (s : State) (fn at_ : Nat) : List Shown :=
  let set (base step : Nat) : Nat × Nat := ((at_ - base) / step, (at_ - base) % step)
  let own (x : Nat × Nat) (f : Nat → Nat → List Shown) : List Shown := if isOf fn x.1 then f x.1 x.2 else []
  let within (lo hi : Nat) : Bool := decide (lo ≤ at_ ∧ at_ < hi)
  if within 0x100000 0x104000 then
    (if s.seesQueue fn (set 0x100000 0x40).1 then s.queueShown (set 0x100000 0x40).1 (set 0x100000 0x40).2 else [])
  else if at_ = 0x104000 then [⟨63, 0, s.reg (.ntfBase fn)⟩]
  else if within 0x200000 0x202000 then own (set 0x200000 0x200) s.measureShown
  else if within 0x300000 0x300800 then s.latticeShown (at_ - 0x300000)
  else if within 0x400000 0x401000 then own (set 0x400000 0x100) s.debugShown
  else if within 0x500000 0x501000 then own (set 0x500000 0x100) s.powerShown
  else if within 0x508000 0x5080C0 then
    (List.range 8).map (fun k => ⟨8 * k + 1, 8 * k, s.reg (.ratio (at_ - 0x508000 + k))⟩)
  else if within 0x600000 0x601000 then own (set 0x600000 0x100) s.securityShown
  else if within 0x700000 0x702000 then
    own (set 0x700000 0x200) (fun p o => s.apertureShown p (o / 0x20) (o % 0x20))
  else if within 0x900000 0x900400 then (if isPf fn then s.budgetShown (set 0x900000 0x40).1 (set 0x900000 0x40).2 else [])
  else if within 0xB00000 0xB01000 then own (set 0xB00000 0x100) s.xlatShown
  else if isPf fn then s.deviceShown at_
  else []

/-- A read of 1, 2, 4 or 8 bytes, aligned, of BAR0 by a function (R7). -/
def State.regRead (s : State) (fn off size : Nat) : Nat :=
  shownWord (s.shownAt fn (off / 8 * 8)) / 2 ^ (8 * (off % 8)) % 2 ^ (8 * size)

end Sys2Proof.Machine
end

