-- ==== Sys2Proof/Safety.lean ====
section
/-! DEFINITION. The terms the statements use: a good state, an instruction that passes the shared checks, what an
instruction of a unit leaves as it was, and what it means to compute registers or a predicate. -/

namespace Sys2Proof.Machine

/-- Memory is in its canonical form. -/
def State.memWf (s : State) : Prop := Memory.wf s.mem = true

/-- The latched instruction of `s` is `i`, its unit has lanes to run, and it passes every check that all instructions share: its
prefix is accepted (R130), its fields are legal (R139), its registers lie in the window (R20), and it reads no result too
early where CHECKSTALL asks (R137). `c` is what the instruction then works with. -/
structure Issues (i : Instr) (s : State) (c : Ctx) : Prop where
  latch : s.cur = some c.is
  unit : c.u = c.is.u
  warp : ∃ w, kget s.warps c.u = some w ∧ w.ended = false ∧ i.legalOn w.tile = true ∧ windowBad w c.row c.px = none ∧
    c.m = execMask w c.px c.is.mask ∧
    ∃ g, g = gatherAt s w (c.is.count.isSome && c.is.depth == 0 && !w.locked && !s.halfRatio (c.p.core / 4))
        (readUses c.row c.px (c.m == -1 || w.tile)) (predReads c.row c.px) ∧ c.early = g.2 ∧
      c.w = { w with gather := g.1 + 1 + c.is.count.getD 0, locked := false, haz := w.haz.filter (fun h => decide (g.1 < h.ready)) }
  owner : s.who c.u = some c.p
  launch : s.lrOf c.p.launch = some c.lr
  lanes : c.is.mask ≠ 0
  row : c.row = i.row
  pfx : c.px = c.is.px
  accepted : c.is.pfx.isSome = true → i.row.accepts c.px = true
  legal : i.legalWord c.px = true
  counts : c.lr.checkstall = true → c.early = []
  stepNo : c.step = s.stepNo

/-- A core without its value store and watches (R60, R73). -/
def Core.seen (c : Core) : Core := { c with vs := [], watches := [] }

/-- What a unit's instruction leaves: memory, scratchpads, core views, store-fault records, retired-store hashes, the other
units and every other piece of the device. Only the latch, the unit, the core's value store, a measured launch's counters and
the identity counter may change; a pending debug step may end. -/
structure OnlyUnit (s t : State) (u : Nat) : Prop where
  memory : ∀ a, t.hByte a = s.hByte a
  scratch : ∀ b off, t.spadByte b off = s.spadByte b off
  core : ∀ v, (t.core v).seen = (s.core v).seen
  others : ∀ v, v ≠ u → kget t.warps v = kget s.warps v
  launches : ∀ l, (kget t.launches l).map (fun x => { x with counters := [] }) =
    (kget s.launches l).map (fun x => { x with counters := [] })
  rest : { t with cur := s.cur, warps := s.warps, launches := s.launches, cores := s.cores, nextUid := s.nextUid,
                  regs := s.regs, parts := s.parts } = s
  debug : (∀ p, (s.part p).stepping = []) → t.regs = s.regs ∧ t.parts = s.parts

/-- A unit without its place in the program, its registers, predicates and flags with their levels and lineage, and the record
of results under way: what is left are its special registers, trap registers, store queues and identity. -/
def Warp.shell (w : Warp) : Warp :=
  { w with frontier := [], fair := 0, turn := none, xw := none, lin := [], haz := [], locked := false, gather := 0, regs := [], preds := [],
           flags := [], rlev := [], plev := [], written := [] }

/-- A lane stands in an entry of a frontier: at a PC, in a state (R21). -/
def standsIn (fr : List Entry) (l : Nat) (pc : DWord) (st : EntSt) : Prop :=
  ∃ e ∈ fr, e.mask.getLsbD l = true ∧ e.pc = pc ∧ e.st = st
def Warp.stands (w : Warp) (l : Nat) (pc : DWord) (st : EntSt) : Prop := standsIn w.frontier l pc st

/-- From `w` to `w'` the lanes of `m` have moved to a PC and a state, and no other lane has moved. -/
def Moved (w w' : Warp) (m : Mask) (pc : DWord) (st : EntSt) : Prop :=
  ∀ l p q, w'.stands l p q ↔ if m.getLsbD l then p = pc ∧ q = st else w.stands l p q

/-- The lanes that stay move to the next instruction, ready (R23); inside an `xw` none moves before its last group (R207). -/
def Advances (c : Ctx) (w w' : Warp) (stay : Mask) : Prop :=
  if c.is.depth = 0 then Moved w w' stay c.is.npc .ready else w'.frontier = w.frontier

/-- Lane by lane, the `n` registers from field `d` hold the results in the lanes of M; the other active lanes hold 0 with
zp = 1; every other lane keeps its value (R145). No other register changes. -/
def RegsWritten (c : Ctx) (w : Warp) (d n : Nat) (f : Nat → List Word) : Prop :=
  (∀ j l, j < n → l < 64 → w.reg (c.w.wbase + d + j) l =
    if c.m.getLsbD l then (f l).getD j 0 else if c.px.zp && c.is.mask.getLsbD l then 0 else c.rd (d + j) l) ∧
  (∀ r l, l < 64 → r < c.w.wbase + d ∨ c.w.wbase + d + n ≤ r → w.reg r l = c.w.reg r l)

/-- The flags of the lanes of M gain `fl`; no other lane's change (R95). -/
def FlagsRaised (c : Ctx) (w : Warp) (fl : Nat → BitVec 5) : Prop :=
  ∀ l, l < 64 → w.flagsOf l = if c.m.getLsbD l then c.w.flagsOf l ||| fl l else c.w.flagsOf l

/-- After `t`, the unit's registers, flags and predicates are as the instruction's results say, and nothing else has changed. -/
structure RegResult (s t : State) (c : Ctx) (d n : Nat) (f : Nat → List Word) (fl : Nat → BitVec 5) : Prop where
  outside : OnlyUnit s t c.u
  unit : ∃ w, kget t.warps c.u = some w ∧ w.shell = c.w.shell ∧ RegsWritten c w d n f ∧ FlagsRaised c w fl ∧
    (∀ p, w.pred p = c.w.pred p) ∧ Advances c c.w w c.is.mask

/-- The instruction completes, and computes `n` registers at `d` with their flags, lane by lane. One that reads operands too early and
attaches takes the version its key names (R137). -/
def Computes (i : Instr) (d : BitVec 7) (n : Nat) (f : Ctx → Nat → List Word) (fl : Ctx → Nat → BitVec 5) : Prop :=
  ∀ s c, Issues i s c → let k := c.attached (s.setWarp c.u c.w) c.row.cls 0
    ∃ t, exec i s = .next t ∧ RegResult s t k d.toNat n (f k) (fl k)

/-- The predicate after an instruction (R145, R161): in the lanes of M the result, in the other active lanes 0 with zp = 1, else
as before; predicate 0 reads true whatever is written. -/
def PredWritten (c : Ctx) (w : Warp) (d : Nat) (zp : Bool) (f : Nat → Bool) : Prop :=
  (∀ l, l < 64 → d ≠ 0 → (w.pred d).getLsbD l =
    if c.m.getLsbD l then f l else if zp && c.is.mask.getLsbD l then false else (c.w.pred d).getLsbD l) ∧
  w.pred 0 = -1 ∧ (∀ p, p ≠ d → w.pred p = c.w.pred p)

/-- After `t`, the predicate holds the results; registers stay, and flags rise as `fl` says. -/
structure PredResult (s t : State) (c : Ctx) (d : Nat) (f : Nat → Bool) (fl : Nat → BitVec 5) : Prop where
  outside : OnlyUnit s t c.u
  unit : ∃ w, kget t.warps c.u = some w ∧ w.shell = c.w.shell ∧ PredWritten c w d c.px.zp f ∧ FlagsRaised c w fl ∧
    (∀ r l, w.reg r l = c.w.reg r l) ∧ Advances c c.w w c.is.mask

/-- The instruction completes, and computes predicate `d`. -/
def Decides (i : Instr) (d : BitVec 7) (f : Ctx → Nat → Bool) (fl : Ctx → Nat → BitVec 5) : Prop :=
  ∀ s c, Issues i s c → ∃ t, exec i s = .next t ∧ PredResult s t c d.toNat (f c) (fl c)

/-- How an instruction is written: its word, and the prefix fields it accepts (R127, R131, R183). -/
def Written (i : Instr) (w : Nat) (px : Px) : Prop := encode i = some (BitVec.ofNat 32 w) ∧ i.row.px = px

/-- No flag rises. -/
def noFlags : Ctx → Nat → BitVec 5 := fun _ _ => 0

/-- The instruction completes, and computes one word register without flags. -/
def ComputesWord (i : Instr) (d : BitVec 7) (f : Ctx → Nat → Word) : Prop :=
  Computes i d 1 (fun c l => [f c l]) noFlags

/-- The instruction completes, and computes a pair: a 64-bit value, low word first (R144). -/
def ComputesPair (i : Instr) (d : BitVec 7) (f : Ctx → Nat → DWord) : Prop :=
  Computes i d 2 (fun c l => [(f c l).extractLsb' 0 32, (f c l).extractLsb' 32 32]) noFlags

/-- The instruction completes, and computes one binary32 result with its flags. -/
def ComputesFloat (i : Instr) (d : BitVec 7) (f : Ctx → Nat → Nat × Flags) : Prop :=
  Computes i d 1 (fun c l => [BitVec.ofNat 32 (f c l).1]) (fun c l => (f c l).2)

/-- The instruction completes, and computes each half of a word on its own: 0 the low one, 1 the high one; the flags of both
are joined (R172). -/
def ComputesHalves (i : Instr) (d : BitVec 7) (f : Ctx → Nat → Nat → Nat × Flags) : Prop :=
  Computes i d 1 (fun c l => [BitVec.ofNat 32 ((f c l 0).1 + (f c l 1).1 * 65536)]) (fun c l => (f c l 0).2 ||| (f c l 1).2)

/-- The instruction completes, and computes a binary64 pair with its flags. -/
def ComputesDouble (i : Instr) (d : BitVec 7) (f : Ctx → Nat → Nat × Flags) : Prop :=
  Computes i d 2 (fun c l => [BitVec.ofNat 32 (f c l).1, BitVec.ofNat 32 ((f c l).1 / 2 ^ 32)]) (fun c l => (f c l).2)

/-- After `t`, registers, flags and the validity predicate p1 are as a cross-lane instruction says (R186 to R188). -/
structure CrossResult (s t : State) (c : Ctx) (d n : Nat) (f : Nat → List Word) (valid : Nat → Bool) (fl : BitVec 5) : Prop where
  outside : OnlyUnit s t c.u
  unit : ∃ w, kget t.warps c.u = some w ∧ w.shell = c.w.shell ∧ RegsWritten c w d n f ∧ FlagsRaised c w (fun _ => fl) ∧
    PredWritten c w 1 false valid ∧ Advances c c.w w c.is.mask

/-- The cross-lane instruction completes, with its registers, p1 and flags. -/
def CrossLane (i : Instr) (d : BitVec 7) (n : Nat) (f : Ctx → Nat → List Word) (valid : Ctx → Nat → Bool)
    (fl : Ctx → BitVec 5) : Prop :=
  ∀ s c, Issues i s c → ∃ t, exec i s = .next t ∧ CrossResult s t c d.toNat n (f c) (valid c) (fl c)

/-- The predicates after a vote (R187): the destination gets the result in the lanes of M, p1 is set in them unless it is the
destination, and no other predicate changes. -/
def Voted (c : Ctx) (w : Warp) (d : Nat) (v : Bool) : Prop :=
  (∀ l, l < 64 → d ≠ 0 → (w.pred d).getLsbD l =
    if c.m.getLsbD l then v else if c.px.zp && c.is.mask.getLsbD l then false else (c.w.pred d).getLsbD l) ∧
  (∀ l, l < 64 → d ≠ 1 → (w.pred 1).getLsbD l = (c.m.getLsbD l || (c.w.pred 1).getLsbD l)) ∧
  w.pred 0 = -1 ∧ (∀ p, p ≠ d → p ≠ 1 → w.pred p = c.w.pred p)

/-- The vote completes with its result; registers and flags stay. -/
def Votes (i : Instr) (d : BitVec 7) (v : Ctx → Bool) : Prop :=
  ∀ s c, Issues i s c → ∃ t, exec i s = .next t ∧ OnlyUnit s t c.u ∧
    ∃ w, kget t.warps c.u = some w ∧ w.shell = c.w.shell ∧ Voted c w d.toNat (v c) ∧ (∀ l, w.flagsOf l = c.w.flagsOf l) ∧
      (∀ r l, w.reg r l = c.w.reg r l) ∧ Advances c c.w w c.is.mask

/-- A node of the tree of R97: the value that covers lanes `l` to `l + 2^j − 1`, the left half the left operand, and the flags of
every node below. -/
def treeNode (sel : Nat) (mode : RMode) (leaf : Nat → Node1) : Nat → Nat → Node1 × Flags
  | 0, l => (leaf l, 0)
  | j + 1, l =>
    let x := treeNode sel mode leaf j l
    let y := treeNode sel mode leaf j (l + 2 ^ j)
    let r := comb sel mode x.1 y.1
    (r.1, r.2 ||| (x.2 ||| y.2))

/-- R98: the nodes that cover the first `n` lanes from lane `pos` up, the largest first, combined left to right; `j` bounds their
sizes. The flags are those of these combinations. -/
def scanNodes (sel : Nat) (mode : RMode) (leaf : Nat → Node1) (n : Nat) : Nat → Nat → Node1 × Flags → Node1 × Flags
  | 0, _, acc => acc
  | j + 1, pos, acc =>
    if n.testBit j then
      let r := comb sel mode acc.1 (treeNode sel mode leaf j pos).1
      scanNodes sel mode leaf n j (pos + 2 ^ j) (r.1, acc.2 ||| r.2)
    else scanNodes sel mode leaf n j pos acc

/-- A lane's leaf: present in M (R97). -/
def Ctx.leaf (c : Ctx) (a l : Nat) : Node1 := if c.m.getLsbD l then some (c.rd a l, l) else none

/-! ### Memory instructions -/

/-- The checks of a load, lanes ascending (R185, R125): the state they leave, and what they say of each lane. -/
def LoadForm.checks (f : LoadForm) (c : Ctx) (s : State) : State × List LaneRes :=
  (s.setWarp c.u c.w).checkLanes c .load f.need false f.bytes (f.addr c) (fun _ => 0) (lanesOf c.m)

/-- The reads of a load whose checks all pass (R109 Issue), after the refresh of an acquire (R112). -/
def LoadForm.reads (f : LoadForm) (c : Ctx) (s : State) : State × List (LaneRes × Got) :=
  ((f.checks c s).1.preAcquire c f.acq (f.checks c s).2).1.readLanes c (f.checks c s).2

/-- The acquire of a load may be made: what it waits for has happened (R112, R113). -/
def LoadForm.ready (f : LoadForm) (c : Ctx) (s : State) : Bool := ((f.checks c s).1.preAcquire c f.acq (f.checks c s).2).2

/-- The registers after a load: the words of each lane's bytes; a post-increment form steps the address pair as well (R193). -/
def Loaded (c : Ctx) (w : Warp) (d n : Nat) (f : LoadForm) (b : Nat → List Byte) : Prop :=
  match f.step with
  | none => RegsWritten c w d n (fun l => f.words (b l))
  | some (a, k) =>
    (∀ j l, j < n → l < 64 → ¬(a ≤ d + j ∧ d + j < a + 2) → w.reg (c.w.wbase + d + j) l =
      if c.m.getLsbD l then (f.words (b l)).getD j 0 else if c.px.zp && c.is.mask.getLsbD l then 0 else c.rd (d + j) l) ∧
    (∀ j l, j < 2 → l < 64 → c.m.getLsbD l = true → w.reg (c.w.wbase + a + j) l = (words64 (stepAddr c.w k (c.rd64 a l))).getD j 0) ∧
    (∀ r l, l < 64 → r < c.w.wbase + d ∨ c.w.wbase + d + n ≤ r →
      r < c.w.wbase + a ∨ c.w.wbase + a + 2 ≤ r ∨ c.m.getLsbD l = false → w.reg r l = c.w.reg r l)

/-- From `s` to `t` a load has written its registers; memory, scratchpads, the other units, and, unless it acquires, every core view
stay. -/
structure LoadResult (s t : State) (c : Ctx) (d n : Nat) (f : LoadForm) (b : Nat → List Byte) : Prop where
  memory : ∀ a, t.hByte a = s.hByte a
  scratch : ∀ k off, t.spadByte k off = s.spadByte k off
  others : ∀ v, v ≠ c.u → kget t.warps v = kget s.warps v
  core : f.acq = none → ∀ v, (t.core v).seen = (s.core v).seen
  unit : ∃ w, kget t.warps c.u = some w ∧ w.shell = c.w.shell ∧ Loaded c w d n f b ∧ (∀ l, w.flagsOf l = c.w.flagsOf l) ∧
    (∀ p, w.pred p = c.w.pred p) ∧ Advances c c.w w c.is.mask

/-- A load whose lanes all pass their checks, whose acquire may be made, and whose reads all give bytes, completes. One that reads
operands too early and attaches takes the version its key names (R137). -/
def Loads (i : Instr) (d : BitVec 7) (n : Nat) (f : LoadForm) : Prop :=
  ∀ s c1 b, Issues i s c1 → let c := loadCtx f c1 (s.setWarp c1.u c1.w)
    (∀ x ∈ (f.checks c s).2, x.isOk = true) → f.ready c s = true → (∀ x ∈ (f.reads c s).2, x.2 = .bytes (b x.1.lane)) →
    (∀ l, c.m.getLsbD l = true → (b l).length = f.bytes) →
    ∃ t, exec i s = .next t ∧ LoadResult (f.reads c s).1 t c d.toNat n f b

/-- Every lane of M points into its own scratchpad (R104), at an offset that is a multiple of the width and inside SPAD. -/
def InScratch (c : Ctx) (addr : Nat → DWord) (n : Nat) : Prop :=
  ∀ l, c.m.getLsbD l = true → (addr l).toNat / 2 ^ 48 = 0x1F0 ∧ (addr l).toNat % n = 0 ∧ (addr l).toNat % 2 ^ 48 + n ≤ c.lr.spad

/-- A load from the own scratchpad, without stores of its lanes on their way and without a range lock: it completes, with the bytes
the scratchpad holds, and changes nothing else. -/
def LoadsScratch (i : Instr) (d : BitVec 7) (n : Nat) (f : LoadForm) : Prop :=
  ∀ s c1, Issues i s c1 → let c := loadCtx f c1 (s.setWarp c1.u c1.w)
    InScratch c (f.addr c) f.bytes → s.rl = [] → c.w.queues = [] →
    ∃ t, exec i s = .next t ∧ LoadResult s t c d.toNat n f
      (fun l => (List.range f.bytes).map (fun j => s.spadByte c.p.blk ((f.addr c l).toNat % 2 ^ 48 + j)))

/-- The checks of a store, after the watches of its addresses have died (R75, R185). -/
def StoreForm.checks (f : StoreForm) (dataLev : Ctx → Nat) (c : Ctx) (s : State) : State × List LaneRes :=
  let s := (lanesOf c.m).foldl (fun st l => st.killAt c.p (f.addr c l).toNat f.bytes) (s.setWarp c.u c.w)
  s.checkLanes c .store f.need (decide (s.postedOn c.p.core < 16)) f.bytes (f.addr c) (fun _ => dataLev c) (lanesOf c.m)

/-- What a lane enqueues: the bytes that no higher lane of M writes (R117). -/
def enqueued (m : Mask) (b : Nat → List QByte) (l : Nat) : List QByte :=
  (b l).filter (fun x => !(lanesOf m).any (fun k => decide (l < k) && (b k).any (sameByte x)))

/-- The address pairs after a store: stepped in the lanes of M by a post-increment form (R193); nothing else is written. -/
def PairStepped (c : Ctx) (w : Warp) : Option (Nat × Nat) → Prop
  | none => ∀ r l, w.reg r l = c.w.reg r l
  | some (a, k) => ∀ r l, l < 64 → w.reg r l =
      if c.m.getLsbD l = true ∧ c.w.wbase + a ≤ r ∧ r < c.w.wbase + a + 2
      then (words64 (stepAddr c.w k (c.rd64 a l))).getD (r - (c.w.wbase + a)) 0 else c.w.reg r l

/-- From `s` to `t` a store has appended its bytes, those of its number, to the queues of its lanes, and memory, scratchpads, core views and the other
units stay (R109, R191): the bytes reach them with the Drain of the entry. A recording or replaying launch may write a checkpoint
of its store hash (R272). -/
structure StoreResult (s t : State) (c : Ctx) (f : StoreForm) (lev : Nat) (b : Nat → Nat → List QByte) : Prop where
  memory : (∀ l, kget s.launches c.p.launch = some l → l.lr.record = false ∧ l.lr.replay = false) → ∀ a, t.hByte a = s.hByte a
  scratch : ∀ k off, t.spadByte k off = s.spadByte k off
  others : ∀ v, v ≠ c.u → kget t.warps v = kget s.warps v
  views : ∀ v, (t.core v).cv = (s.core v).cv
  unit : ∃ w iid, kget t.warps c.u = some w ∧ { w.shell with queues := [] } = { c.w.shell with queues := [] } ∧
    (∀ l, l < 64 → sget [] w.queues l = sget [] c.w.queues l ++
      if c.m.getLsbD l = true ∧ (enqueued c.m (b iid) l ≠ [] ∨ f.rel.isSome = true)
      then [⟨enqueued c.m (b iid) l, f.rel, none, lev, c.is.pc, iid, c.w.xw.elim 0 (fun r => r.id + 1)⟩] else []) ∧
    PairStepped c w f.step ∧ (∀ l, w.flagsOf l = c.w.flagsOf l) ∧ (∀ p, w.pred p = c.w.pred p) ∧ Advances c c.w w c.is.mask

/-- A store whose lanes all pass their checks, none to a peer and outside order-first pages, completes: each byte goes to its place. -/
def Stores (i : Instr) (d : BitVec 7) (n : Nat) (f : StoreForm) : Prop :=
  ∀ s c (b : Nat → List PByte), Issues i s c →
    (∀ x ∈ (f.checks (dataLevel d.toNat n) c s).2, isPeer x = false ∧ x.r = .ok (b x.lane) ∧ ∀ y ∈ b x.lane, y.cls ≠ 4) →
    ∃ t, exec i s = .next t ∧ StoreResult (f.checks (dataLevel d.toNat n) c s).1 t c f (dataLevel d.toNat n c)
      (fun iid l => qBytes iid l (f.addr c l).toNat (b l) (f.data c l))

/-- A store to the own scratchpad, whose level admits the data, without a range lock. -/
def StoresScratch (i : Instr) (d : BitVec 7) (n : Nat) (f : StoreForm) : Prop :=
  ∀ s c, Issues i s c → InScratch c (f.addr c) f.bytes → s.rl = [] →
    (∀ x, kget s.blocks c.p.blk = some x → ∀ l, c.m.getLsbD l = true → ∀ k, k < f.bytes →
      dataLevel d.toNat n c ≤ x.levAt ((f.addr c l).toNat % 2 ^ 48 + k)) →
    ∃ t, exec i s = .next t ∧ StoreResult s t c f (dataLevel d.toNat n c)
      (fun iid l => ((List.range f.bytes).zip (f.data c l)).map (fun x =>
        ⟨(f.addr c l).toNat + x.1, some (.spad c.p.blk ((f.addr c l).toNat % 2 ^ 48 + x.1)), x.2, 5,
          storeUnit iid l (f.addr c l).toNat f.bytes x.1⟩))

/-- The checks of an atomic, after the watches of its addresses have died (R75, R185). -/
def AtomForm.checks (f : AtomForm) (a : Nat) (lev : Ctx → Nat) (c : Ctx) (s : State) : State × List LaneRes :=
  let s := (lanesOf c.m).foldl (fun st l => st.killAt c.p (c.rd64 a l).toNat f.bytes) (s.setWarp c.u c.w)
  s.checkLanes c .atomic true false f.bytes (fun l => c.rd64 a l) (fun _ => lev c) (lanesOf c.m)

/-- From `s`, in which the lanes have performed their updates, to `t` the old values have reached the registers, with the flags the
updates raise. -/
structure AtomResult (s t : State) (c : Ctx) (d n : Nat) (f : AtomForm) (old : Nat → List Byte) : Prop where
  memory : (∀ l, kget s.launches c.p.launch = some l → l.lr.record = false ∧ l.lr.replay = false) → ∀ a, t.hByte a = s.hByte a
  scratch : ∀ k off, t.spadByte k off = s.spadByte k off
  others : ∀ v, v ≠ c.u → kget t.warps v = kget s.warps v
  views : ∀ v, (t.core v).cv = (s.core v).cv
  unit : ∃ w, kget t.warps c.u = some w ∧ w.shell = c.w.shell ∧ RegsWritten c w d n (fun l => wordsOf (old l)) ∧
    FlagsRaised c w (fun l => f.fl c l (natLE (old l))) ∧ (∀ p, w.pred p = c.w.pred p) ∧ Advances c c.w w c.is.mask

/-- An atomic whose lanes all pass their checks, none at a peer or the host, in a launch that replays nothing, with no store of its lanes to the
bytes on its way: it performs the lanes in ascending order (R114) and gives each the old value. -/
def Atomics (i : Instr) (b a d : BitVec 7) (n : Nat) (f : AtomForm) : Prop :=
  ∀ s c (old : Nat → List Byte), Issues i s c → c.w.queues = [] →
    let k := f.checks a.toNat (atomLevel b.toNat n) c s
    (∀ l, kget k.1.launches c.p.launch = some l → l.lr.replay = false) →
    (∀ x ∈ k.2, x.isOk = true ∧ isOut x = false) →
    (∀ x ∈ (k.1.atomLanes c f k.2).2, x.2.1 = old x.1.lane) → (∀ l, c.m.getLsbD l = true → (old l).length = f.bytes) →
    ∃ t, exec i s = .next t ∧ AtomResult (k.1.atomLanes c f k.2).1 t c d.toNat n f old

/-- Updates of a byte memory one after another, each of `n` bytes at its lane's address: the memory after them, and the old value
each lane found. -/
def updates (n : Nat) (addr : Nat → Nat) (op : Nat → Nat → Nat) : List Nat → (Nat → Byte) → (Nat → Byte) × List (Nat × Nat)
  | [], m => (m, [])
  | l :: t, m =>
    let old := natLE ((List.range n).map (fun j => m (addr l + j)))
    let m' : Nat → Byte := fun o => if addr l ≤ o ∧ o < addr l + n then (bytesLE n (op l old % 2 ^ (8 * n))).getD (o - addr l) 0 else m o
    let q := updates n addr op t m'
    (q.1, (l, old) :: q.2)

/-- An atomic on the own scratchpad (R195): the lanes update its bytes in ascending order, whatever the scope; nothing else of memory
changes. -/
def AtomicsScratch (i : Instr) (b a d : BitVec 7) (n : Nat) (f : AtomForm) : Prop :=
  ∀ s c, Issues i s c → c.w.queues = [] → c.lr.record = false → c.lr.replay = false → InScratch c (fun l => c.rd64 a.toNat l) f.bytes →
    s.rl = [] →
    (∀ x, kget s.blocks c.p.blk = some x → ∀ l, c.m.getLsbD l = true → ∀ k, k < f.bytes →
      atomLevel b.toNat n c ≤ x.levAt ((c.rd64 a.toNat l).toNat % 2 ^ 48 + k)) →
    let q := updates f.bytes (fun l => (c.rd64 a.toNat l).toNat % 2 ^ 48) (f.op c) (lanesOf c.m) (s.spadByte c.p.blk)
    let old (l : Nat) : Nat := ((q.2.find? (fun x => x.1 == l)).map (·.2)).getD 0
    ∃ t, exec i s = .next t ∧ (∀ x, t.hByte x = s.hByte x) ∧ (∀ off, t.spadByte c.p.blk off = q.1 off) ∧
      (∀ k off, k ≠ c.p.blk → t.spadByte k off = s.spadByte k off) ∧ (∀ v, v ≠ c.u → kget t.warps v = kget s.warps v) ∧
      ∃ w, kget t.warps c.u = some w ∧ w.shell = c.w.shell ∧ RegsWritten c w d.toNat n (fun l => wordsOf (bytesLE f.bytes (old l))) ∧
        FlagsRaised c w (fun l => f.fl c l (old l)) ∧ (∀ p, w.pred p = c.w.pred p) ∧ Advances c c.w w c.is.mask

/-! ### Control -/

/-- The unit's registers, predicates, flags, special and trap registers, queues and identity are as the instruction found them. -/
def Untouched (c : Ctx) (w : Warp) : Prop :=
  w.shell = c.w.shell ∧ (∀ r l, w.reg r l = c.w.reg r l) ∧ (∀ p, w.pred p = c.w.pred p) ∧ (∀ l, w.flagsOf l = c.w.flagsOf l)

/-- From `s` to `t` the unit has moved and nothing else has happened: the lanes that stay go to the next instruction. -/
structure Passes (s t : State) (c : Ctx) (stay : Mask) : Prop where
  outside : OnlyUnit s t c.u
  unit : ∃ w, kget t.warps c.u = some w ∧ Untouched c w ∧ Advances c c.w w stay

/-- The lanes of M stand ready at their targets, the lanes that stay at the next instruction, and no other lane has moved (R23). -/
def Branched (c : Ctx) (w w' : Warp) (tgt : Nat → DWord) (stay : Mask) : Prop :=
  ∀ l p q, w'.stands l p q ↔ if c.m.getLsbD l then p = tgt l ∧ q = .ready
    else if stay.getLsbD l then p = c.is.npc ∧ q = .ready else w.stands l p q

/-- A branch whose targets are good completes: its lanes move, and a link register receives the address after the word. -/
def Branches (i : Instr) (link : Option (BitVec 7)) (good : DWord → Prop) (tgt : Ctx → Nat → DWord) : Prop :=
  ∀ s c, Issues i s c → (∀ l, c.m.getLsbD l = true → good (tgt c l)) → ∃ t w, exec i s = .next t ∧ OnlyUnit s t c.u ∧
    kget t.warps c.u = some w ∧ w.shell = c.w.shell ∧ Branched c c.w w (tgt c) c.rest ∧ (∀ p, w.pred p = c.w.pred p) ∧
    (∀ l, w.flagsOf l = c.w.flagsOf l) ∧
    match link with
    | none => ∀ r l, w.reg r l = c.w.reg r l
    | some d => RegsWritten c w d.toNat 2 (fun _ => words64 (c.is.wpc + 4))

/-- The trap registers of R213 after a program-class trap (R304): cause, detail, TRAPPC, TRAPADDR, TRAPLANES; no other is written. -/
def TrapTaken (w w' : Warp) (cause info : Nat) (pc : DWord) (addr : Nat) (lanes : Mask) : Prop :=
  w'.trapReg 34 = BitVec.ofNat 32 cause ∧ w'.trapReg 35 = BitVec.ofNat 32 info ∧
  w'.trapReg 36 = pc.extractLsb' 0 32 ∧ w'.trapReg 37 = pc.extractLsb' 32 32 ∧
  w'.trapReg 38 = BitVec.ofNat 32 addr ∧ w'.trapReg 39 = BitVec.ofNat 32 (addr / 2 ^ 32) ∧
  w'.trapReg 40 = lanes.extractLsb' 0 32 ∧ w'.trapReg 41 = lanes.extractLsb' 32 32 ∧
  ∀ n, n < 34 ∨ 41 < n → w'.trapReg n = w.trapReg n

/-- From `s` to `t` lanes of the unit have taken a program-class trap (R27, R304): they stand ready at TRAPENTRY and run the handler;
the lanes that stay go on at the next instruction; registers, predicates and flags stay. -/
structure Traps (s t : State) (c : Ctx) (m stay : Mask) (cause info : Nat) (pc : DWord) (addr : Nat) : Prop where
  outside : OnlyUnit s t c.u
  unit : ∃ w, kget t.warps c.u = some w ∧ TrapTaken c.w w cause info pc addr m ∧ w.hlanes = m ∧
    (∀ r l, w.reg r l = c.w.reg r l) ∧ (∀ p, w.pred p = c.w.pred p) ∧ (∀ l, w.flagsOf l = c.w.flagsOf l) ∧
    ∀ l p q, w.stands l p q ↔ if m.getLsbD l = true then p = BitVec.ofNat 64 c.lr.trapentry ∧ q = .ready
      else if stay.getLsbD l = true ∧ c.is.depth = 0 then p = c.is.npc ∧ q = .ready else c.w.stands l p q


/-- From `s` to `t` the lanes `m` wait where they stand (R23, R26), the lanes that stay go on, and nothing else has happened. -/
structure Waits (s t : State) (c : Ctx) (m stay : Mask) (k : WaitCause) : Prop where
  outside : OnlyUnit s t c.u
  unit : ∃ w, kget t.warps c.u = some w ∧ Untouched c w ∧ ∀ l p q, w.stands l p q ↔
    if m.getLsbD l = true then p = c.is.pc ∧ q = .waiting k
    else if stay.getLsbD l = true ∧ c.is.depth = 0 then p = c.is.npc ∧ q = .ready else c.w.stands l p q

/-! ### Engines and matrix commands -/

/-- From `s` to `t` the unit has moved to the next instruction with its registers, predicates, flags and special registers as they
were; no byte of memory or of a scratchpad, no view and no other unit has changed. What else the instruction does is said beside it. -/
structure UnitPasses (s t : State) (c : Ctx) : Prop where
  memory : ∀ a, t.hByte a = s.hByte a
  scratch : ∀ k off, t.spadByte k off = s.spadByte k off
  others : ∀ v, v ≠ c.u → kget t.warps v = kget s.warps v
  views : ∀ v, (t.core v).cv = (s.core v).cv
  unit : ∃ w, kget t.warps c.u = some w ∧ Untouched c w ∧ Advances c c.w w c.is.mask

/-- From `s` to `t` the tile context has posted a matrix command on its cluster's engine, with its identity, its place in the program
and the block's valid counts, and the block's slots are as said; nothing else has happened (R244, R246). -/
structure Posts (s t : State) (c : Ctx) (b : Block) (k : MCmd) (slots : KMap Slot) : Prop where
  unit : UnitPasses s t c
  table : (t.meng (c.p.core / 4)).table = (s.meng (c.p.core / 4)).table ++
    [{ k with id := s.nextUid, blk := c.p.blk, u := c.u, prio := c.lr.prio, pc := c.is.pc, m := b.vm, n := b.vn, k := b.vk }]
  others : ∀ e, e ≠ c.p.core / 4 → t.meng e = s.meng e
  block : kget t.blocks c.p.blk = some { b with slots := slots }

/-- The checks of a matrix command, in this order: its own, whose failure is the illegal instruction, and its tile (R244). -/
def TileChecks (i : Instr) (d : BitVec 7) (pre : Block → Bool) : Prop := ∀ s c b, Issues i s c → kget s.blocks c.p.blk = some b →
  c.lr.trapentry ≠ 0 → c.w.hlanes = 0 →
  (pre b = false → ∃ t, exec i s = .next t ∧ Traps s t c c.is.mask 0 0x01 c.is.word.toNat c.is.pc 0) ∧
  (pre b = true → b.tileOk ((c.rd d.toNat 0).toNat % 16) = false → ∃ t, exec i s = .next t ∧ Traps s t c c.is.mask 0 0x11 0 c.is.pc 0)

/-- A matrix command that passes its checks is posted for its tile while the engine's table has room; `ok` says what it has read and
which command and slots it makes. -/
def TileCommand (i : Instr) (d : BitVec 7) (ok : Ctx → State → Block → State → MCmd → KMap Slot → Prop) : Prop := ∀ s c b s1 k slots,
  Issues i s c → kget s.blocks c.p.blk = some b → b.tileOk ((c.rd d.toNat 0).toNat % 16) = true →
  (s1.meng (c.p.core / 4)).full = false → ok c (s.setWarp c.u c.w) b s1 k slots →
  ∃ t, exec i s = .next t ∧ Posts s1 t c b { k with tile := (c.rd d.toNat 0).toNat % 16 } slots

/-! ### Events -/

/-- The registers named have the values given; no other register and nothing else of the machine has changed. -/
def RegsSet (s t : State) (ws : List (Reg × Nat)) : Prop :=
  t = { s with regs := t.regs } ∧ ∀ r, t.reg r = ((ws.find? (fun x => x.1 == r)).map (·.2)).getD (s.reg r)

/-- A unit's registers, predicates, flags, special and trap registers, queues and identity stay. -/
def Kept (w w' : Warp) : Prop :=
  w'.shell = w.shell ∧ (∀ r l, w'.reg r l = w.reg r l) ∧ (∀ p, w'.pred p = w.pred p) ∧ (∀ l, w'.flagsOf l = w.flagsOf l)

/-- Between `w` and `w'` some entries have become ready: a lane of one of them stands ready at its entry's target, every other lane
where it stood. -/
def Readied (w w' : Warp) (p : Entry → Prop) (tgt : Entry → DWord) : Prop := ∀ l,
  ((∀ e ∈ w.frontier, p e → e.mask.getLsbD l = false) → ∀ pc q, w'.stands l pc q ↔ w.stands l pc q) ∧
  (∀ n, (∃ e ∈ w.frontier, p e ∧ e.mask.getLsbD l = true) → (∀ e ∈ w.frontier, p e → e.mask.getLsbD l = true → tgt e = n) →
    ∀ pc q, w'.stands l pc q ↔ pc = n ∧ q = .ready)

/-- The waits of some entries have ended (R26): they are ready at their next instruction. -/
def Woken (w w' : Warp) (p : Entry → Prop) : Prop := Readied w w' p (fun e => e.next)

/-- The trap registers after a trap that also writes TRAPSPC (R213, R304). -/
def TrapTakenAt (w w' : Warp) (cause info : Nat) (pc : DWord) (addr : Nat) (lanes : Mask) (spc : Nat) : Prop :=
  w'.trapReg 34 = BitVec.ofNat 32 cause ∧ w'.trapReg 35 = BitVec.ofNat 32 info ∧
  w'.trapReg 36 = pc.extractLsb' 0 32 ∧ w'.trapReg 37 = pc.extractLsb' 32 32 ∧
  w'.trapReg 38 = BitVec.ofNat 32 addr ∧ w'.trapReg 39 = BitVec.ofNat 32 (addr / 2 ^ 32) ∧
  w'.trapReg 40 = lanes.extractLsb' 0 32 ∧ w'.trapReg 41 = lanes.extractLsb' 32 32 ∧
  w'.trapReg 42 = BitVec.ofNat 32 spc ∧ w'.trapReg 43 = BitVec.ofNat 32 (spc / 2 ^ 32) ∧
  ∀ n, n < 34 ∨ 43 < n → w'.trapReg n = w.trapReg n

/-- From `s` to `t` lanes of a unit have taken a trap at an instruction boundary (R268, R304, R305): they stand ready at TRAPENTRY
and run the handler; no other lane has moved; registers, predicates and flags stay. -/
structure BoundaryTrap (s t : State) (u : Nat) (lr : LaunchRec) (w : Warp) (m : Mask) (cause info : Nat) (pc : DWord) (addr : Nat)
    (spc : Option Nat) : Prop where
  outside : OnlyUnit s t u
  unit : ∃ w', kget t.warps u = some w' ∧ w'.hlanes = m ∧
    (spc = none → TrapTaken w w' cause info pc addr m) ∧ (∀ a, spc = some a → TrapTakenAt w w' cause info pc addr m a) ∧
    (∀ r l, w'.reg r l = w.reg r l) ∧ (∀ p, w'.pred p = w.pred p) ∧ (∀ l, w'.flagsOf l = w.flagsOf l) ∧
    w'.overrunTrap = w.overrunTrap ∧ w'.passFaults = w.passFaults ∧ Moved w w' m (BitVec.ofNat 64 lr.trapentry) .ready

/-- What an entry that drains leaves at the front of its queue: the bytes of its further units (R115). -/
def QEntry.leaves (e : QEntry) (rest : List QEntry) : List QEntry :=
  if e.firstUnit.2.isEmpty then rest else { e with bytes := e.firstUnit.2 } :: rest

/-- An entry is parked on a driver-class fault of a page (R27). -/
def ParkedOn (page : Nat) (e : Entry) : Prop := ∃ acc, e.st = .parked (.driver page acc)

/-- Every touch of a scout in turn passes its checks, from `s` to `t`. -/
def ScoutPasses (eng : Nat) (c : Cmd) : List (Acc × Nat × Nat) → State → State → Prop
  | [], s, t => t = s
  | (acc, va, n) :: r, s, t => ∃ bs, (s.unitCheckRej c.rejected [.engine eng] (s.cmdWho eng c) 0x11 acc va n).2 = .ok bs ∧
      ScoutPasses eng c r (s.unitCheckRej c.rejected [.engine eng] (s.cmdWho eng c) 0x11 acc va n).1 t

/-- The engine's running command is now `c`; no other engine and nothing else has changed. -/
def RunIs (s t : State) (eng : Nat) (c : Cmd) : Prop :=
  t = { s with engines := t.engines } ∧ t.engine eng = { s.engine eng with run := some c } ∧ ∀ f, f ≠ eng → t.engine f = s.engine f

/-- The bytes an engine reads: from the home, or from a scratchpad bank (R109). -/
def engineBytes (s : State) (bs : List PByte) : List Byte := bs.map (fun b => match b.loc with
  | .mem pa => s.homeByte pa
  | .spad blk o => s.spadByte blk o
  | .peer _ _ => 0)

/-- The command has left its engine: its ticket has its status (R226, R229), its ranges have left the tables (R121) and its node, if it is
one, is finished. -/
def CmdEnded (s t : State) (eng : Nat) (c : Cmd) (status cause addr info : Nat) : Prop :=
  t = { s with engines := t.engines, rl := t.rl, ext := t.ext, nodes := t.nodes } ∧ (t.engine eng).run = none ∧
  (t.engine eng).queue = (s.engine eng).queue ∧ (t.engine eng).fin.find? (fun f => f.ticket == c.ticket) =
    some ⟨c.part, c.ctx, c.ticket, status, cause, addr, info⟩ ∧
  (∀ f, f ≠ eng → t.engine f = s.engine f) ∧ (∀ d ∈ t.rl, ∀ k ∈ d.2, k.2.cmd ≠ c.id) ∧
  ∀ n y, c.node = some n → kget s.nodes n = some y → ∃ code, kget t.nodes n = some { y with finished := true, faulted := status == 2, stopCode := code }

/-- No entry of a unit waits for the command's ticket. -/
def NoWaiter (s : State) (c : Cmd) : Prop := ∀ x ∈ s.warps, ∀ e ∈ x.2.frontier, ∀ k, e.st = .waiting (.ewait k) → k.toNat ≠ c.ticket

/-- Command `k` stands in a cluster's reservation table as given; the other commands and everything else stay. -/
def TableIs (s t : State) (cl : Nat) (k : MCmd) : Prop :=
  t = { s with mengs := t.mengs } ∧ (t.meng cl).table = (s.meng cl).table.map (fun x => if x.id = k.id then k else x) ∧
  ∀ d, d ≠ cl → t.meng d = s.meng d

/-- A matrix command is over: it has left the table, and its context's `mwait` has ended if nothing else is posted (R247). -/
def MFinished (s t : State) (cl : Nat) (c : MCmd) : Prop :=
  t = { s with mengs := t.mengs, ext := t.ext, warps := t.warps } ∧ (t.meng cl).table = (s.meng cl).table.filter (fun x => x.id != c.id) ∧
  (∀ d, d ≠ cl → t.meng d = s.meng d) ∧ (∀ v, v ≠ c.u → kget t.warps v = kget s.warps v) ∧
  ∀ w, kget s.warps c.u = some w → ∃ w', kget t.warps c.u = some w' ∧ Kept w w' ∧
    (t.postedDone c.u = true → Woken w w' (fun e => e.st = .waiting .mwait)) ∧ (t.postedDone c.u = false → w' = w)

/-- R244: a pass that may be granted: nothing of its block on its tile was posted earlier, its tile is in accumulator memory, and the block's
tile context is not taken. -/
def Grantable (s : State) (cl : Nat) (k : MCmd) : Prop :=
  k ∈ (s.meng cl).table ∧ k.kind.isPass = true ∧ k.paused = none ∧
  (∀ x ∈ (s.meng cl).table, x.blk = k.blk → x.kind ≠ .acfree → x.tile = k.tile → k.id ≤ x.id) ∧ (s.cmdTile k).isSome = true ∧
  ∃ b, kget s.blocks k.blk = some b ∧ b.tileStop = false

/-- The bytes of checked elements, as the merge stage receives them from a writer: an aligned element of up to 8 bytes as one unit
(R115). A copy's Apply drops clean copies, a drain's does not (R251). -/
def State.stagedBytes (s : State) (wid : Nat) (launch : Option Nat) (bs : List PByte) (vs : List Byte) : List MsWrite :=
  (bs.zip vs).map (fun b =>
    let va := (bs.head?).elim 0 (·.va)
    ⟨match b.1.loc with
      | .mem pa => pa
      | _ => 0, b.2, wid, 0, b.1.va, launch, decide (960 ≤ wid), s.unitNow va bs.length (b.1.va - va)⟩)

/-- A node has entered the tail of a queue's ring (R276, R281); nothing else has changed. -/
def NodeEntered (s t : State) (q addr : Nat) (posted : Bool) : Prop :=
  t = { s with nextUid := t.nextUid, nodes := t.nodes, rings := t.rings } ∧ t.nextUid = s.nextUid + 1 ∧
  sget [] t.rings q = sget [] s.rings q ++ [s.nextUid] ∧ (∀ r, r ≠ q → sget [] t.rings r = sget [] s.rings r) ∧
  (∃ n, kget t.nodes s.nextUid = some n ∧ n.addr = addr ∧ n.q = q ∧ n.posted = posted ∧ n.running = false ∧
    n.order = s.nextUid ∧ n.ranges = s.rangesAt (s.qreg q .part) (s.qreg q .ctx) addr) ∧
  ∀ k, k ≠ s.nextUid → kget t.nodes k = kget s.nodes k

/-- The node the walker takes next, as its record gives it (R224, R280). -/
def Dispatches (s : State) (p id : Nat) (n0 : Node) (v : Nat) (n : Node) : Prop :=
  s.nextNode p = some (id, n0) ∧ s.readNode p (s.nodeCtx n0) n0.addr = .fields v ∧
  n = { n0 with running := true, kind := nodeKind v, target := nodeTarget v, value := nodeValue v, queue := nodeQueue v,
                    ranges := some (n0.ranges.getD (nodeRanges v)) }

/-- A block of a launch has come onto a core (R11, R18, R33, R284): the block under identity `blk`, its warps under the next ones, each at its
role's entry; the launch has one block fewer to admit. -/
def Admitted (s t : State) (lid : Nat) (l : Launch) (core : Nat) (a : Area) : Prop :=
  (∃ b, kget t.blocks s.nextUid = some b ∧ b.launch = lid ∧ b.bid = l.nextBlk ∧ b.core = core ∧ b.privBase = a.priv ∧ b.saveBase = a.save ∧
    b.spad = [] ∧ b.bars = [] ∧ b.tiles = [] ∧ b.warps = (List.range l.lr.blockWarps).map (s.nextUid + 1 + ·) ∧
    b.tctx = if l.lr.tentry = 0 then none else some (s.nextUid + 1 + l.lr.blockWarps)) ∧
  (∀ wid, wid < l.lr.blockWarps → ∃ slot q, kget t.warps (s.nextUid + 1 + wid) = some { Warp.initial s.nextUid false wid (roleOf l.lr.roles wid 0).1 slot
    (roleOf l.lr.roles wid 0).2.budget (BitVec.ofNat 64 ((l.lr.entry + (roleOf l.lr.roles wid 0).2.entryOff) % 2 ^ 57)) with quarter := q }) ∧
  (l.lr.tentry ≠ 0 → kget t.warps (s.nextUid + 1 + l.lr.blockWarps) = some (Warp.initial s.nextUid true 0 4 0 4 (BitVec.ofNat 64 (l.lr.tentry % 2 ^ 57)))) ∧
  (∀ v, v ≠ s.nextUid → kget t.blocks v = kget s.blocks v) ∧
  (∀ v, v < s.nextUid ∨ s.nextUid + 1 + l.lr.blockWarps < v → kget t.warps v = kget s.warps v)

/-- From `s` to `t` a partition has been scrubbed and released (R323, R330): its memory reads as zeros, its registers stand as after
reset, it holds no unit, no launch, block, cached translation or command of it is left; nothing of another partition has changed. -/
structure Released (s t : State) (p : Nat) : Prop where
  part : t.part p = Part.empty
  parts : ∀ n, n ≠ p → t.part n = s.part n
  memory : ∀ a, t.hByte a = if a < devTop ∧ (s.part p).groups.testBit (a / 2 ^ 33) = true then 0 else s.hByte a
  regs : ∀ f, t.preg p f = State.reset.preg p f
  others : ∀ r, (∀ f, r ≠ .p p f) → (∀ k, r ≠ .d (.railMv k)) → t.reg r = s.reg r
  rails : ∀ d r, t.railMv d r = s.railMv d r
  launches : ∀ l, l ∈ t.launches ↔ l ∈ s.launches ∧ l.2.part ≠ p
  blocks : ∀ b, b ∈ t.blocks ↔ b ∈ s.blocks ∧ ∀ c ∈ s.blocks, c.1 = b.1 → ∀ l ∈ s.launches, l.2.part = p → l.1 ≠ c.2.launch
  tlb : ∀ x, x ∈ t.tlb ↔ x ∈ s.tlb ∧ x.part ≠ p
  ext : ∀ x, x ∈ t.ext ↔ x ∈ s.ext ∧ x.2.part ≠ p
  cmds : ∀ e ∈ t.engines, (∀ c ∈ e.2.queue, c.part ≠ p) ∧ (∀ c, e.2.run = some c → c.part ≠ p)

/-- From `s` to `t` only registers and the targets of the rails have changed, the registers to the values given; every rail has the
voltage it had (R341). -/
def RegsRails (s t : State) (ws : List (Reg × Nat)) : Prop :=
  t = { s with regs := t.regs, power := { s.power with rails := t.power.rails } } ∧
  (∀ r, (∀ k, r ≠ .d (.railMv k)) → t.reg r = ((ws.find? (fun x => x.1 == r)).map (·.2)).getD (s.reg r)) ∧
  ∀ d r, t.railMv d r = s.railMv d r

/-- The device has lost its volatile state (R226, R339, R344, R351): no unit, block, launch or command is left, device memory reads as zeros
and host memory as before; every register but those in protected storage stands at its reset value, and over a reset those that have
none hold their contents (R7): the temperatures and the rails' voltages. -/
structure Wiped (s t : State) (on : Bool) : Prop where
  powered : t.powered = on
  memory : ∀ a, t.hByte a = if a < devTop then 0 else s.hByte a
  units : t.warps = [] ∧ t.blocks = [] ∧ t.launches = [] ∧ t.nodes = [] ∧ t.engines = [] ∧ t.mengs = [] ∧ t.txs = [] ∧ t.ms = [] ∧ t.cores = []
  parts : ∀ n, t.part n = Part.empty
  time : t.timebase = 0
  lasting : ∀ r, Reg.lasting r = true → t.reg r = s.reg r
  temps : on = true → ∀ d, t.dreg (.temp d) = s.dreg (.temp d)
  rails : on = true → ∀ d r, d < 4 → r < 4 → t.railMv d r = s.railMv d r

end Sys2Proof.Machine
end

