-- ==== Sys2Proof/WellFormed.lean ====
section
/-! DEFINITION. Well-formed instructions: an instruction word is well formed when its fields are legal by themselves
(R128, R139): pairs even, quads multiples of 4, immediates in their ranges. The whole steps of other agents carry no
encoding and are well formed as they are. -/

namespace Sys2Proof

/-- The instruction, standing without a prefix, is legal by its fields. -/
def WellFormed (i : Instr) : Bool := !i.isWord || i.legalWord pxAbsent

end Sys2Proof
end

