-- ==== Sys2Proof/Certificates/Slice0/Obligations.lean ====
section
/-! DEFINITION. The statements for the provers. -/

open Sys2Proof Sys2Proof.Machine

/-! ### Integer, logic and bit fields (R149 to R160) -/

/-- R149, R150, R151: the word arithmetic, lane by lane in M, and nothing else but the place in the program (R23, R145); the
words of these instructions and the prefixes they accept. -/
def Obligations.IntegerArithmetic : Prop :=
  ∀ b a d : BitVec 7,
    ComputesWord (.addW b a d) d (fun c l => c.rd a.toNat l + c.rd b.toNat l) ∧
    ComputesWord (.subW b a d) d (fun c l => c.rd a.toNat l - c.rd b.toNat l) ∧
    ComputesWord (.addsSw b a d) d (fun c l =>
      BitVec.ofInt 32 (max (-2147483648) (min 2147483647 ((c.rd a.toNat l).toInt + (c.rd b.toNat l).toInt)))) ∧
    ComputesWord (.addsUw b a d) d (fun c l => BitVec.ofNat 32 (min 4294967295 ((c.rd a.toNat l).toNat + (c.rd b.toNat l).toNat))) ∧
    ComputesWord (.subsSw b a d) d (fun c l =>
      BitVec.ofInt 32 (max (-2147483648) (min 2147483647 ((c.rd a.toNat l).toInt - (c.rd b.toNat l).toInt)))) ∧
    ComputesWord (.subsUw b a d) d (fun c l => BitVec.ofNat 32 ((c.rd a.toNat l).toNat - (c.rd b.toNat l).toNat)) ∧
    ComputesWord (.mulW b a d) d (fun c l => c.rd a.toNat l * c.rd b.toNat l) ∧
    ComputesWord (.mulhiSw b a d) d (fun c l => BitVec.ofInt 32 ((c.rd a.toNat l).toInt * (c.rd b.toNat l).toInt / 2 ^ 32)) ∧
    ComputesWord (.mulhiUw b a d) d (fun c l => BitVec.ofNat 32 ((c.rd a.toNat l).toNat * (c.rd b.toNat l).toNat / 2 ^ 32)) ∧
    ComputesWord (.madW b a d) d (fun c l => c.rd a.toNat l * c.rd b.toNat l + c.fourth d.toNat l) ∧
    ComputesWord (.minSw b a d) d (fun c l => if (c.rd b.toNat l).slt (c.rd a.toNat l) then c.rd b.toNat l else c.rd a.toNat l) ∧
    ComputesWord (.minUw b a d) d (fun c l => if (c.rd b.toNat l).ult (c.rd a.toNat l) then c.rd b.toNat l else c.rd a.toNat l) ∧
    ComputesWord (.maxSw b a d) d (fun c l => if (c.rd a.toNat l).slt (c.rd b.toNat l) then c.rd b.toNat l else c.rd a.toNat l) ∧
    ComputesWord (.maxUw b a d) d (fun c l => if (c.rd a.toNat l).ult (c.rd b.toNat l) then c.rd b.toNat l else c.rd a.toNat l) ∧
    ComputesWord (.absSw a d) d (fun c l =>
      if c.px.st then BitVec.ofInt 32 (min 2147483647 (c.rd a.toNat l).toInt.natAbs) else BitVec.ofNat 32 (c.rd a.toNat l).toInt.natAbs) ∧
    ComputesWord (.negW a d) d (fun c l => 0 - c.rd a.toNat l) ∧
    (∀ e ∈ [(Instr.addW b a d, 0x000), (Instr.subW b a d, 0x001), (Instr.addsSw b a d, 0x002), (Instr.addsUw b a d, 0x003), (Instr.subsSw b a d, 0x004), (Instr.subsUw b a d, 0x005), (Instr.mulW b a d, 0x006), (Instr.mulhiSw b a d, 0x007), (Instr.mulhiUw b a d, 0x008), (Instr.minSw b a d, 0x00A), (Instr.minUw b a d, 0x00B), (Instr.maxSw b a d, 0x00C), (Instr.maxUw b a d, 0x00D)],
      Written e.1 (e.2 * 2 ^ 21 + b.toNat * 2 ^ 14 + a.toNat * 2 ^ 7 + d.toNat) pxM) ∧
    Written (.madW b a d) (0x01200000 + b.toNat * 2 ^ 14 + a.toNat * 2 ^ 7 + d.toNat) pxMC ∧
    Written (.absSw a d) (0x01C00000 + a.toNat * 2 ^ 7 + d.toNat) pxMS ∧ Written (.negW a d) (0x01E00000 + a.toNat * 2 ^ 7 + d.toNat) pxM

/-- R152, R153: the pair instructions modulo 2^64, with the pair fields that must be even, and the four-byte dot products; their words and
the prefixes they accept. -/
def Obligations.PairArithmetic : Prop :=
  ∀ b a d : BitVec 7,
    ComputesPair (.addD b a d) d (fun c l => c.rd64 a.toNat l + c.rd64 b.toNat l) ∧
    ComputesPair (.subD b a d) d (fun c l => c.rd64 a.toNat l - c.rd64 b.toNat l) ∧
    ComputesPair (.addwD b a d) d (fun c l => c.rd64 a.toNat l + (c.rd b.toNat l).signExtend 64) ∧
    ComputesPair (.mulSwd b a d) d (fun c l => BitVec.ofInt 64 ((c.rd a.toNat l).toInt * (c.rd b.toNat l).toInt)) ∧
    ComputesPair (.mulUwd b a d) d (fun c l => BitVec.ofNat 64 ((c.rd a.toNat l).toNat * (c.rd b.toNat l).toNat)) ∧
    ComputesWord (.idot4Sb b a d) d (fun c l =>
      let x (k : Nat) : Int := (byteOf (c.rd a.toNat l) k).toInt * (byteOf (c.rd b.toNat l) k).toInt
      BitVec.ofInt 32 ((c.fourth d.toNat l).toNat + x 0 + x 1 + x 2 + x 3)) ∧
    ComputesWord (.idot4Ub b a d) d (fun c l =>
      let x (k : Nat) : Nat := (byteOf (c.rd a.toNat l) k).toNat * (byteOf (c.rd b.toNat l) k).toNat
      BitVec.ofNat 32 ((c.fourth d.toNat l).toNat + x 0 + x 1 + x 2 + x 3)) ∧
    (∀ e ∈ [(Instr.addD b a d, 0x010), (Instr.subD b a d, 0x011), (Instr.addwD b a d, 0x012), (Instr.mulSwd b a d, 0x013), (Instr.mulUwd b a d, 0x014)],
      Written e.1 (e.2 * 2 ^ 21 + b.toNat * 2 ^ 14 + a.toNat * 2 ^ 7 + d.toNat) pxM) ∧
    (∀ e ∈ [(Instr.idot4Sb b a d, 0x015), (Instr.idot4Ub b a d, 0x016)],
      Written e.1 (e.2 * 2 ^ 21 + b.toNat * 2 ^ 14 + a.toNat * 2 ^ 7 + d.toNat) pxMC) ∧
    (∀ i ∈ [Instr.addD b a d, .subD b a d], ∀ x, i.legalWord x = true ↔ b.toNat % 2 = 0 ∧ a.toNat % 2 = 0 ∧ d.toNat % 2 = 0) ∧
    (∀ x, (Instr.addwD b a d).legalWord x = true ↔ a.toNat % 2 = 0 ∧ d.toNat % 2 = 0) ∧
    (∀ i ∈ [Instr.mulSwd b a d, .mulUwd b a d], ∀ x, i.legalWord x = true ↔ d.toNat % 2 = 0)

/-- R154, R155: the bitwise instructions, the shifts, whose count of 32 or more shifts every bit out, and the rotate; their words, the
prefix they accept, and the class of the bitwise ones. -/
def Obligations.LogicAndShifts : Prop :=
  ∀ b a d : BitVec 7,
    ComputesWord (.and b a d) d (fun c l => c.rd a.toNat l &&& c.rd b.toNat l) ∧
    ComputesWord (.or b a d) d (fun c l => c.rd a.toNat l ||| c.rd b.toNat l) ∧
    ComputesWord (.xor b a d) d (fun c l => c.rd a.toNat l ^^^ c.rd b.toNat l) ∧
    ComputesWord (.andn b a d) d (fun c l => c.rd a.toNat l &&& ~~~(c.rd b.toNat l)) ∧
    ComputesWord (.mov a d) d (fun c l => c.rd a.toNat l) ∧
    ComputesWord (.shl b a d) d (fun c l =>
      if 32 ≤ (c.rd b.toNat l).toNat then 0 else c.rd a.toNat l <<< (c.rd b.toNat l).toNat) ∧
    ComputesWord (.shr b a d) d (fun c l =>
      if 32 ≤ (c.rd b.toNat l).toNat then 0 else c.rd a.toNat l >>> (c.rd b.toNat l).toNat) ∧
    ComputesWord (.sra b a d) d (fun c l =>
      if 32 ≤ (c.rd b.toNat l).toNat then (if (c.rd a.toNat l).msb then 0xFFFFFFFF else 0)
      else (c.rd a.toNat l).sshiftRight (c.rd b.toNat l).toNat) ∧
    ComputesWord (.rotl b a d) d (fun c l => (c.rd a.toNat l).rotateLeft ((c.rd b.toNat l).toNat % 32)) ∧
    (∀ e ∈ [(Instr.and b a d, 0x020), (Instr.or b a d, 0x021), (Instr.xor b a d, 0x022), (Instr.andn b a d, 0x023), (Instr.shl b a d, 0x024), (Instr.shr b a d, 0x025), (Instr.sra b a d, 0x026), (Instr.rotl b a d, 0x027)],
      Written e.1 (e.2 * 2 ^ 21 + b.toNat * 2 ^ 14 + a.toNat * 2 ^ 7 + d.toNat) pxM) ∧
    Written (.mov a d) (0x05E00000 + a.toNat * 2 ^ 7 + d.toNat) pxM ∧
    ∀ i ∈ [Instr.and b a d, .or b a d, .xor b a d, .andn b a d, .mov a d], i.row.cls = .l

/-- R156, R157, R158: counts and reversal, bit fields cut at bit 31, byte permutes; their words and the prefixes they accept. -/
def Obligations.BitFields : Prop :=
  ∀ b a d : BitVec 7,
    ComputesWord (.clz a d) d (fun c l =>
      if c.rd a.toNat l = 0 then 32 else BitVec.ofNat 32 (31 - Nat.log2 (c.rd a.toNat l).toNat)) ∧
    ComputesWord (.popc a d) d (fun c l => BitVec.ofNat 32 ((List.range 32).countP (fun k => (c.rd a.toNat l).getLsbD k))) ∧
    ComputesWord (.brev a d) d (fun c l => (c.rd a.toNat l).reverse) ∧
    ComputesWord (.bfxUw b a d) d (fun c l =>
      let pos := (c.rd b.toNat l).toNat % 32
      let len := min ((c.rd b.toNat l).toNat / 256 % 64) (32 - pos)
      BitVec.ofNat 32 ((c.rd a.toNat l).toNat / 2 ^ pos % 2 ^ len)) ∧
    ComputesWord (.bfxSw b a d) d (fun c l =>
      let pos := (c.rd b.toNat l).toNat % 32
      let len := min ((c.rd b.toNat l).toNat / 256 % 64) (32 - pos)
      let v : Int := (c.rd a.toNat l).toNat / 2 ^ pos % 2 ^ len
      if len = 0 then 0 else BitVec.ofInt 32 (if 2 ^ (len - 1) ≤ v then v - 2 ^ len else v)) ∧
    ComputesWord (.bfi b a d) d (fun c l =>
      let pos := (c.rd b.toNat l).toNat % 32
      let len := min ((c.rd b.toNat l).toNat / 256 % 64) (32 - pos)
      let mask : Word := BitVec.ofNat 32 (2 ^ len - 1)
      (c.fourth d.toNat l &&& ~~~(mask <<< pos)) ||| ((c.rd a.toNat l &&& mask) <<< pos)) ∧
    ComputesWord (.perm b a d) d (fun c l =>
      let byte (i : Nat) : BitVec 8 :=
        let ctl := (c.fourth d.toNat l).toNat / 2 ^ (5 * i) % 32
        let x := (c.rd b.toNat l ++ c.rd a.toNat l).extractLsb' (8 * (ctl % 8)) 8
        if ctl / 8 = 0 then x else if ctl / 8 = 1 then (if x.msb then 0xFF else 0) else if ctl / 8 = 2 then 0 else 0xFF
      byte 3 ++ byte 2 ++ byte 1 ++ byte 0) ∧
    (∀ e ∈ [(Instr.clz a d, 0x028), (Instr.popc a d, 0x029), (Instr.brev a d, 0x02A)],
      Written e.1 (e.2 * 2 ^ 21 + a.toNat * 2 ^ 7 + d.toNat) pxM) ∧
    (∀ e ∈ [(Instr.bfxUw b a d, 0x02B), (Instr.bfxSw b a d, 0x02C)],
      Written e.1 (e.2 * 2 ^ 21 + b.toNat * 2 ^ 14 + a.toNat * 2 ^ 7 + d.toNat) pxM) ∧
    (∀ e ∈ [(Instr.bfi b a d, 0x02D), (Instr.perm b a d, 0x02E)],
      Written e.1 (e.2 * 2 ^ 21 + b.toNat * 2 ^ 14 + a.toNat * 2 ^ 7 + d.toNat) pxMC)

/-- R159, R160: the immediate forms and the two constants; their words, the prefix they accept, and the shift words whose bits [11:5] of
imm12 are set, which do not decode. -/
def Obligations.Immediates : Prop :=
  ∀ (x : BitVec 12) (n : BitVec 5) (k : BitVec 18) (a d : BitVec 7),
    ComputesWord (.addiW x a d) d (fun c l => c.rd a.toNat l + x.signExtend 32) ∧
    ComputesWord (.andi x a d) d (fun c l => c.rd a.toNat l &&& x.setWidth 32) ∧
    ComputesWord (.ori x a d) d (fun c l => c.rd a.toNat l ||| x.setWidth 32) ∧
    ComputesWord (.xori x a d) d (fun c l => c.rd a.toNat l ^^^ x.setWidth 32) ∧
    ComputesWord (.shli n a d) d (fun c l => c.rd a.toNat l <<< n.toNat) ∧
    ComputesWord (.shri n a d) d (fun c l => c.rd a.toNat l >>> n.toNat) ∧
    ComputesWord (.srai n a d) d (fun c l => (c.rd a.toNat l).sshiftRight n.toNat) ∧
    ComputesWord (.movi k d) d (fun _ _ => k.signExtend 32) ∧
    ComputesWord (.movu k d) d (fun c l => (k.setWidth 32 <<< 14) ||| (c.rd d.toNat l &&& 0x3FFF)) ∧
    (∀ e ∈ [(Instr.addiW x a d, 0), (Instr.andi x a d, 1), (Instr.ori x a d, 2), (Instr.xori x a d, 3)],
      Written e.1 (e.2 * 2 ^ 26 + 0x80000000 + x.toNat * 2 ^ 14 + a.toNat * 2 ^ 7 + d.toNat) pxM) ∧
    (∀ e ∈ [(Instr.shli n a d, 4), (Instr.shri n a d, 5), (Instr.srai n a d, 6)],
      Written e.1 (e.2 * 2 ^ 26 + 0x80000000 + n.toNat * 2 ^ 14 + a.toNat * 2 ^ 7 + d.toNat) pxM) ∧
    (∀ op ∈ [4, 5, 6], 32 ≤ x.toNat → decode (BitVec.ofNat 32 (op * 2 ^ 26 + 0x80000000 + x.toNat * 2 ^ 14 + a.toNat * 2 ^ 7 + d.toNat)) = .error .mustBeZero) ∧
    (∀ e ∈ [(Instr.movi k d, 2), (Instr.movu k d, 3)],
      Written e.1 (e.2 * 2 ^ 25 + 0xC0000000 + k.toNat * 2 ^ 7 + d.toNat) pxM) ∧
    (Instr.movi k d).row.cls = .r

/-! ### Compares and predicates (R161 to R164) -/

/-- R161, R163, R164: integer compares and predicate operations write a predicate; p0 reads true whatever is written. Their words, the
prefix they accept and their class. -/
def Obligations.ComparesAndPredicates : Prop :=
  ∀ (x : BitVec 12) (b a d : BitVec 7),
    Decides (.cmpEqW b a d) d (fun c l => decide (c.rd a.toNat l = c.rd b.toNat l)) noFlags ∧
    Decides (.cmpNeW b a d) d (fun c l => decide (c.rd a.toNat l ≠ c.rd b.toNat l)) noFlags ∧
    Decides (.cmpLtSw b a d) d (fun c l => decide ((c.rd a.toNat l).toInt < (c.rd b.toNat l).toInt)) noFlags ∧
    Decides (.cmpLeSw b a d) d (fun c l => decide ((c.rd a.toNat l).toInt ≤ (c.rd b.toNat l).toInt)) noFlags ∧
    Decides (.cmpLtUw b a d) d (fun c l => decide ((c.rd a.toNat l).toNat < (c.rd b.toNat l).toNat)) noFlags ∧
    Decides (.cmpLeUw b a d) d (fun c l => decide ((c.rd a.toNat l).toNat ≤ (c.rd b.toNat l).toNat)) noFlags ∧
    Decides (.cmpiEq x a d) d (fun c l => decide (c.rd a.toNat l = x.signExtend 32)) noFlags ∧
    Decides (.cmpiLtSw x a d) d (fun c l => decide ((c.rd a.toNat l).toInt < x.toInt)) noFlags ∧
    Decides (.cmpiLtUw x a d) d (fun c l => decide ((c.rd a.toNat l).toNat < x.toNat)) noFlags ∧
    Decides (.pand b a d) d (fun c l => (c.w.pred a.toNat).getLsbD l && (c.w.pred b.toNat).getLsbD l) noFlags ∧
    Decides (.por b a d) d (fun c l => (c.w.pred a.toNat).getLsbD l || (c.w.pred b.toNat).getLsbD l) noFlags ∧
    Decides (.pxor b a d) d (fun c l => xor ((c.w.pred a.toNat).getLsbD l) ((c.w.pred b.toNat).getLsbD l)) noFlags ∧
    Decides (.pandn b a d) d (fun c l => (c.w.pred a.toNat).getLsbD l && !(c.w.pred b.toNat).getLsbD l) noFlags ∧
    Decides (.pmovV a d) d (fun c l => decide (c.rd a.toNat l ≠ 0)) noFlags ∧
    ComputesWord (.vmovP a d) d (fun c l => if (c.w.pred a.toNat).getLsbD l then 1 else 0) ∧
    ComputesWord (.pcnt a d) d (fun c _ => BitVec.ofNat 32 ((List.range 64).countP (fun k => (c.m &&& c.w.pred a.toNat).getLsbD k))) ∧
    (∀ e ∈ [(Instr.cmpEqW b a d, 0x0E0), (Instr.cmpNeW b a d, 0x0E1), (Instr.cmpLtSw b a d, 0x0E2), (Instr.cmpLeSw b a d, 0x0E3), (Instr.cmpLtUw b a d, 0x0E4), (Instr.cmpLeUw b a d, 0x0E5), (Instr.pand b a d, 0x0EC), (Instr.por b a d, 0x0ED), (Instr.pxor b a d, 0x0EE), (Instr.pandn b a d, 0x0EF)],
      Written e.1 (e.2 * 2 ^ 21 + b.toNat * 2 ^ 14 + a.toNat * 2 ^ 7 + d.toNat) pxM) ∧
    (∀ e ∈ [(Instr.cmpiEq x a d, 7), (Instr.cmpiLtSw x a d, 8), (Instr.cmpiLtUw x a d, 9)],
      Written e.1 (e.2 * 2 ^ 26 + 0x80000000 + x.toNat * 2 ^ 14 + a.toNat * 2 ^ 7 + d.toNat) pxM) ∧
    (∀ e ∈ [(Instr.pmovV a d, 0x0F0), (Instr.vmovP a d, 0x0F1), (Instr.pcnt a d, 0x0F2)],
      Written e.1 (e.2 * 2 ^ 21 + a.toNat * 2 ^ 7 + d.toNat) pxM) ∧
    (∀ i ∈ [Instr.cmpEqW b a d, .cmpNeW b a d, .cmpLtSw b a d, .cmpLeSw b a d, .cmpLtUw b a d, .cmpLeUw b a d, .cmpiEq x a d, .cmpiLtSw x a d,
      .cmpiLtUw x a d, .pand b a d, .por b a d, .pxor b a d, .pandn b a d, .pmovV a d, .vmovP a d, .pcnt a d], i.row.cls = .n) ∧
    ∀ w : Warp, w.pred 0 = -1

/-- R162: a floating compare with a NaN operand is false, `fcmp.un` true; otherwise it orders the exact values, −0 equal to +0;
a signalling NaN raises NV, and nothing else is raised. Their words, the prefix they accept and their class. -/
def Obligations.FloatingCompares : Prop :=
  ∀ b a d : BitVec 7,
    let nv (f : Fmt) (x y : Nat) : BitVec 5 := if (decodeF f x).snan || (decodeF f y).snan then flNV else 0
    let ord (f : Fmt) (rel : Int → Bool) (x y : Nat) : Bool :=
      !(decodeF f x).isNaN && !(decodeF f y).isNaN && rel (cmpV (decodeF f x) (decodeF f y))
    let w (r : BitVec 7) (c : Ctx) (l : Nat) : Nat := (c.rd r.toNat l).toNat
    let p (r : BitVec 7) (c : Ctx) (l : Nat) : Nat := (c.rd64 r.toNat l).toNat
    Decides (.fcmpEqF32 b a d) d (fun c l => ord f32 (fun k => decide (k = 0)) (w a c l) (w b c l)) (fun c l => nv f32 (w a c l) (w b c l)) ∧
    Decides (.fcmpLtF32 b a d) d (fun c l => ord f32 (fun k => decide (k < 0)) (w a c l) (w b c l)) (fun c l => nv f32 (w a c l) (w b c l)) ∧
    Decides (.fcmpLeF32 b a d) d (fun c l => ord f32 (fun k => decide (k ≤ 0)) (w a c l) (w b c l)) (fun c l => nv f32 (w a c l) (w b c l)) ∧
    Decides (.fcmpUnF32 b a d) d (fun c l => (decodeF f32 (w a c l)).isNaN || (decodeF f32 (w b c l)).isNaN)
      (fun c l => nv f32 (w a c l) (w b c l)) ∧
    Decides (.dcmpLt b a d) d (fun c l => ord f64 (fun k => decide (k < 0)) (p a c l) (p b c l)) (fun c l => nv f64 (p a c l) (p b c l)) ∧
    Decides (.dcmpEq b a d) d (fun c l => ord f64 (fun k => decide (k = 0)) (p a c l) (p b c l)) (fun c l => nv f64 (p a c l) (p b c l)) ∧
    (∀ e ∈ [(Instr.fcmpEqF32 b a d, 0x0E6), (Instr.fcmpLtF32 b a d, 0x0E7), (Instr.fcmpLeF32 b a d, 0x0E8), (Instr.fcmpUnF32 b a d, 0x0E9), (Instr.dcmpLt b a d, 0x0EA), (Instr.dcmpEq b a d, 0x0EB)],
      Written e.1 (e.2 * 2 ^ 21 + b.toNat * 2 ^ 14 + a.toNat * 2 ^ 7 + d.toNat) pxM) ∧
    ∀ i ∈ [Instr.fcmpEqF32 b a d, .fcmpLtF32 b a d, .fcmpLeF32 b a d, .fcmpUnF32 b a d, .dcmpLt b a d, .dcmpEq b a d], i.row.cls = .n

/-! ### Floating point (R84 to R96, R165 to R182) -/

/-- R165 to R169: binary32 arithmetic, each result one rounding of the exact value of the operands by the mode of the prefix,
clamped with st = 1; minimum and maximum, sign changes and rounding to an integral value. -/
def Obligations.FloatArithmetic : Prop :=
  ∀ b a d : BitVec 7,
    let w (r : BitVec 7) (c : Ctx) (l : Nat) : Nat := (c.rd r.toNat l).toNat
    ComputesFloat (.faddF32 b a d) d (fun c l => addF f32 c.mode c.px.st (w a c l) (w b c l)) ∧
    ComputesFloat (.fsubF32 b a d) d (fun c l => subF f32 c.mode c.px.st (w a c l) (w b c l)) ∧
    ComputesFloat (.fmulF32 b a d) d (fun c l => mulF f32 c.mode c.px.st (w a c l) (w b c l)) ∧
    ComputesFloat (.ffmaF32 b a d) d (fun c l => fmaF f32 c.mode c.px.st (w a c l) (w b c l) (c.fourth d.toNat l).toNat) ∧
    ComputesFloat (.fdivF32 b a d) d (fun c l => divF f32 c.mode c.px.st (w a c l) (w b c l)) ∧
    ComputesFloat (.fsqrtF32 a d) d (fun c l => sqrtF f32 c.mode c.px.st (w a c l)) ∧
    ComputesFloat (.fminF32 b a d) d (fun c l => minmaxF f32 false (w a c l) (w b c l)) ∧
    ComputesFloat (.fmaxF32 b a d) d (fun c l => minmaxF f32 true (w a c l) (w b c l)) ∧
    ComputesFloat (.frndF32 a d) d (fun c l => frndF f32 c.mode (w a c l)) ∧
    ComputesWord (.fabsF32 a d) d (fun c l => c.rd a.toNat l &&& 0x7FFFFFFF) ∧
    ComputesWord (.fnegF32 a d) d (fun c l => c.rd a.toNat l ^^^ 0x80000000)

/-- R172 to R174: packed half arithmetic, each half by itself, and the two-term dot product with one rounding. -/
def Obligations.HalfArithmetic : Prop :=
  ∀ b a d : BitVec 7,
    let h (r : BitVec 7) (c : Ctx) (l k : Nat) : Nat := (c.rd r.toNat l).toNat / 2 ^ (16 * k) % 65536
    let x (c : Ctx) (l k : Nat) : Nat := (c.fourth d.toNat l).toNat / 2 ^ (16 * k) % 65536
    ComputesHalves (.hadd2F16 b a d) d (fun c l k => addF f16 c.mode c.px.st (h a c l k) (h b c l k)) ∧
    ComputesHalves (.hmul2F16 b a d) d (fun c l k => mulF f16 c.mode c.px.st (h a c l k) (h b c l k)) ∧
    ComputesHalves (.hfma2F16 b a d) d (fun c l k => fmaF f16 c.mode c.px.st (h a c l k) (h b c l k) (x c l k)) ∧
    ComputesHalves (.hadd2Bf16 b a d) d (fun c l k => addF bf16 c.mode c.px.st (h a c l k) (h b c l k)) ∧
    ComputesHalves (.hmul2Bf16 b a d) d (fun c l k => mulF bf16 c.mode c.px.st (h a c l k) (h b c l k)) ∧
    ComputesHalves (.hfma2Bf16 b a d) d (fun c l k => fmaF bf16 c.mode c.px.st (h a c l k) (h b c l k) (x c l k)) ∧
    ComputesHalves (.hmin2Bf16 b a d) d (fun c l k => minmaxF bf16 false (h a c l k) (h b c l k)) ∧
    ComputesHalves (.hmax2Bf16 b a d) d (fun c l k => minmaxF bf16 true (h a c l k) (h b c l k)) ∧
    ComputesFloat (.fdot2Bf16 b a d) d (fun c l =>
      fdot2 c.mode c.px.st (c.rd a.toNat l).toNat (c.rd b.toNat l).toNat (c.fourth d.toNat l).toNat)

/-- R175, R176: binary64 arithmetic on pairs. -/
def Obligations.DoubleArithmetic : Prop :=
  ∀ b a d : BitVec 7,
    let p (r : BitVec 7) (c : Ctx) (l : Nat) : Nat := (c.rd64 r.toNat l).toNat
    ComputesDouble (.dadd b a d) d (fun c l => addF f64 c.mode c.px.st (p a c l) (p b c l)) ∧
    ComputesDouble (.dmul b a d) d (fun c l => mulF f64 c.mode c.px.st (p a c l) (p b c l)) ∧
    ComputesDouble (.dfma b a d) d (fun c l => fmaF f64 c.mode c.px.st (p a c l) (p b c l) (c.fourth64 d.toNat l).toNat) ∧
    ComputesDouble (.dmin b a d) d (fun c l => minmaxF f64 false (p a c l) (p b c l)) ∧
    ComputesDouble (.dmax b a d) d (fun c l => minmaxF f64 true (p a c l) (p b c l)) ∧
    ComputesDouble (.ddiv b a d) d (fun c l => divF f64 c.mode c.px.st (p a c l) (p b c l)) ∧
    ComputesDouble (.dsqrt a d) d (fun c l => sqrtF f64 c.mode c.px.st (p a c l))

/-- R170, R171: a special function's result depends on the operand's bits and st alone; the operands R171 lists give the
results it lists; the flags of every other result are NX, with UF for a subnormal or a zero. The value of those is the
device's own (log 8). -/
def Obligations.SpecialFunctions : Prop :=
  (∀ a d : BitVec 7,
    ComputesFloat (.frcpF32 a d) d (fun c l => sfuF .rcp c.px.st (c.rd a.toNat l)) ∧
    ComputesFloat (.frsqF32 a d) d (fun c l => sfuF .rsq c.px.st (c.rd a.toNat l)) ∧
    ComputesFloat (.fex2F32 a d) d (fun c l => sfuF .ex2 c.px.st (c.rd a.toNat l)) ∧
    ComputesFloat (.flg2F32 a d) d (fun c l => sfuF .lg2 c.px.st (c.rd a.toNat l)) ∧
    ComputesFloat (.fsinpiF32 a d) d (fun c l => sfuF .sinpi c.px.st (c.rd a.toNat l)) ∧
    ComputesFloat (.fcospiF32 a d) d (fun c l => sfuF .cospi c.px.st (c.rd a.toNat l)) ∧
    ComputesFloat (.ftanhF32 a d) d (fun c l => sfuF .tanh c.px.st (c.rd a.toNat l))) ∧
  (∀ (op : SfuOp) (x : Word) (r : Nat × Flags), (decodeF f32 x.toNat).isNaN = false →
    sfuExact op (decodeF f32 x.toNat) = some r → r.1 % 2 ^ 31 ≠ 0x7F800000 → ∀ sat, sfuF op sat x = r) ∧
  (∀ (op : SfuOp) (x : Word), (decodeF f32 x.toNat).isNaN = false → sfuExact op (decodeF f32 x.toNat) = none →
    (sfuF op false x).2 = if (sfuF op false x).1 % 2 ^ 31 < 0x800000 then flUF ||| flNX else flNX)

/-- R177 to R182: conversions, quantisation and dequantisation. -/
def Obligations.Conversions : Prop :=
  ∀ b a d : BitVec 7,
    let w (r : BitVec 7) (c : Ctx) (l : Nat) : Nat := (c.rd r.toNat l).toNat
    let or4 (f : Nat → Nat × Flags) : Flags := (f 0).2 ||| (f 1).2 ||| (f 2).2 ||| (f 3).2
    ComputesFloat (.cvtF32Sw a d) d (fun c l => roundF f32 c.mode false
      (.fin (decide ((c.rd a.toNat l).toInt < 0)) (c.rd a.toNat l).toInt.natAbs 0)) ∧
    ComputesFloat (.cvtF32Uw a d) d (fun c l => roundF f32 c.mode false (.fin false (w a c l) 0)) ∧
    Computes (.cvtSwF32 a d) d 1 (fun c l => [BitVec.ofInt 32 (cvtIntF (-2147483648) 2147483647 (rmode c.px.rm .rz) (w a c l)).1])
      (fun c l => (cvtIntF (-2147483648) 2147483647 (rmode c.px.rm .rz) (w a c l)).2) ∧
    Computes (.cvtUwF32 a d) d 1 (fun c l => [BitVec.ofInt 32 (cvtIntF 0 4294967295 (rmode c.px.rm .rz) (w a c l)).1])
      (fun c l => (cvtIntF 0 4294967295 (rmode c.px.rm .rz) (w a c l)).2) ∧
    ComputesHalves (.pkF16 b a d) d (fun c l k => cvtF f32 f16 c.mode c.px.st (w (if k = 0 then a else b) c l)) ∧
    ComputesHalves (.pkBf16 b a d) d (fun c l k => cvtF f32 bf16 c.mode c.px.st (w (if k = 0 then a else b) c l)) ∧
    ComputesFloat (.cvtF32F16 b a d) d (fun c l => cvtF f16 f32 .rne false (w a c l / 2 ^ (16 * b.toNat) % 65536)) ∧
    ComputesFloat (.cvtF32Bf16 b a d) d (fun c l => cvtF bf16 f32 .rne false (w a c l / 2 ^ (16 * b.toNat) % 65536)) ∧
    ComputesDouble (.cvtF64F32 a d) d (fun c l => cvtF f32 f64 .rne false (w a c l)) ∧
    ComputesFloat (.cvtF32F64 a d) d (fun c l => cvtF f64 f32 c.mode c.px.st (c.rd64 a.toNat l).toNat) ∧
    (∀ p : Instr × Fmt, p = (.qpkE4m3 b a d, e4m3) ∨ p = (.qpkE5m2 b a d, e5m2) →
      let q (c : Ctx) (l k : Nat) : Nat × Flags := quantF p.2 c.mode (c.rd (a.toNat + k) l).toNat (w b c l)
      Computes p.1 d 1 (fun c l => [BitVec.ofNat 8 (q c l 3).1 ++ BitVec.ofNat 8 (q c l 2).1 ++ BitVec.ofNat 8 (q c l 1).1 ++
        BitVec.ofNat 8 (q c l 0).1]) (fun c l => or4 (q c l))) ∧
    (∀ p : Instr × Fmt, p = (.dqE4m3 b a d, e4m3) ∨ p = (.dqE5m2 b a d, e5m2) →
      let q (c : Ctx) (l k : Nat) : Nat × Flags := dequantF p.2 c.mode c.px.st (w a c l / 2 ^ (8 * k) % 256) (w b c l)
      Computes p.1 d 4 (fun c l => [BitVec.ofNat 32 (q c l 0).1, BitVec.ofNat 32 (q c l 1).1, BitVec.ofNat 32 (q c l 2).1,
        BitVec.ofNat 32 (q c l 3).1]) (fun c l => or4 (q c l)))

/-- R84, R86, R89: every number of an IEEE format, subnormals and infinities among them, rounds to itself in every mode, and raises
nothing; and a finite number rounded to nearest lies within half a step of the exact value, where `q` is the exponent of a step: the last
place of its binade, never below the format's smallest subnormal. -/
def Obligations.Rounding : Prop :=
  (∀ f ∈ [f16, bf16, f32, f64, e5m2, a40], ∀ (mode : RMode) (x : Nat), x < 2 ^ (1 + f.eb + f.fb) →
    (decodeF f x).isNaN = false → roundF f mode false (decodeF f x) = (x, 0)) ∧
  ∀ f ∈ [f16, bf16, f32, f64, e5m2], ∀ (neg : Bool) (m : Nat) (e : Int), m ≠ 0 →
    let q : Int := max ((Nat.log2 m : Int) + e - f.fb) (1 - (f.bias : Int) - f.fb)
    let r := roundAt .rne neg m e q
    2 * |(r.1 : Rat) * 2 ^ q - (m : Rat) * 2 ^ e| ≤ 2 ^ q ∧ (r.2 = true ↔ (r.1 : Rat) * 2 ^ q ≠ (m : Rat) * 2 ^ e)

/-! ### Cross-lane instructions (R97, R98, R186 to R188) -/

/-- R186, R187: a shuffle reads its source lane when that is in range and in M, and its own lane otherwise; p1 says which. The votes,
`ballot` and `match`. -/
def Obligations.ShufflesAndVotes : Prop :=
  (∀ b a d : BitVec 7,
    let n (c : Ctx) (l : Nat) : Nat := (c.rd b.toNat l).toNat
    let shfl (i : Instr) (src : Ctx → Nat → Nat) (ok : Ctx → Nat → Bool) : Prop :=
      CrossLane i d 1 (fun c l => [if ok c l && c.m.getLsbD (src c l) then c.rd a.toNat (src c l) else c.rd a.toNat l])
        (fun c l => ok c l && c.m.getLsbD (src c l)) (fun _ => 0)
    let width (c : Ctx) : Nat := if c.w.tile then 1 else 64
    shfl (.shflIdx b a d) (fun c l => n c l) (fun c l => decide (n c l < width c)) ∧
    shfl (.shflUp b a d) (fun c l => l - n c l) (fun c l => decide (n c l ≤ l)) ∧
    shfl (.shflDn b a d) (fun c l => l + n c l) (fun c l => decide (l + n c l < width c)) ∧
    shfl (.shflXor b a d) (fun c l => l ^^^ n c l) (fun c l => decide (l ^^^ n c l < width c)) ∧
    shfl (.shflRel b a d) (fun c l => (l + n c l * width c / 256) % width c) (fun _ _ => true)) ∧
  ∀ a d : BitVec 7,
    Votes (.voteAny a d) d (fun c => (List.range 64).any (fun k => c.m.getLsbD k && (c.w.pred a.toNat).getLsbD k)) ∧
    Votes (.voteAll a d) d (fun c => (List.range 64).all (fun k => !c.m.getLsbD k || (c.w.pred a.toNat).getLsbD k)) ∧
    CrossLane (.ballot a d) d 2 (fun c _ => [(c.m &&& c.w.pred a.toNat).extractLsb' 0 32, (c.m &&& c.w.pred a.toNat).extractLsb' 32 32])
      (fun _ _ => true) (fun _ => 0) ∧
    ∃ f : Ctx → Nat → DWord, CrossLane (.matchW a d) d 2 (fun c l => [(f c l).extractLsb' 0 32, (f c l).extractLsb' 32 32])
        (fun _ _ => true) (fun _ => 0) ∧
      ∀ c l k, (f c l).getLsbD k = (c.m.getLsbD k && decide (c.rd a.toNat k = c.rd a.toNat l))

/-- R97, R98, R188: reductions and scans over the fixed tree; every flag of a node, and of a scan's combinations in any lane of M,
rises in every lane of M. -/
def Obligations.Reductions : Prop :=
  ∀ i a d : BitVec 7,
    let root (c : Ctx) : Node1 × Flags := treeNode i.toNat c.mode (c.leaf a.toNat) 6 0
    let upTo (c : Ctx) (l : Nat) : Node1 × Flags := scanNodes i.toNat c.mode (c.leaf a.toNat) (l + 1) 7 0 (none, 0)
    CrossLane (.redx i a d) d 1 (fun c _ => [(root c).1.elim 0 (·.1)]) (fun _ _ => true) (fun c => (root c).2) ∧
    CrossLane (.redxi i a d) d 2 (fun c _ => [(root c).1.elim 0 (·.1), BitVec.ofNat 32 ((root c).1.elim 0 (·.2))]) (fun _ _ => true)
      (fun c => (root c).2) ∧
    CrossLane (.scan i a d) d 1 (fun c l => [(upTo c l).1.elim 0 (·.1)]) (fun _ _ => true)
      (fun c => (lanesOf c.m).foldl (fun m l => m ||| (upTo c l).2) (root c).2)

/-! ### Control (R20, R23 to R30, R197 to R217, R304) -/

/-- R199, R200: the branches; a link register receives the address after the word, in the lanes of M. -/
def Obligations.Branching : Prop :=
  ∀ (i : BitVec 18) (a d : BitVec 7),
    let good (t : DWord) : Prop := t.toNat % 4 = 0 ∧ t.toNat < 2 ^ 57
    Branches (.bra i) none (fun _ => True) (fun c _ => c.is.wpc + i.signExtend 64 * 4) ∧
    Branches (.call i d) (some d) (fun _ => True) (fun c _ => c.is.wpc + i.signExtend 64 * 4) ∧
    Branches (.jmp a) none good (fun c l => c.rd64 a.toNat l) ∧
    Branches (.callr a d) (some d) good (fun c l => c.rd64 a.toNat l) ∧
    Branches (.ret a) none good (fun c l => c.rd64 a.toNat l)

/-- R20, R79, R215, R217: `nop`, the window base and its overflow trap, `sleep`, `yield` and the lineage switch. A sleep of n cycles
lasts at least as long as n front-end cycles take at the clock the cluster has now (R334), in whole nanoseconds (log 25). -/
def Obligations.Pacing : Prop :=
  (∀ s c, Issues .nop s c → ∃ t, exec .nop s = .next t ∧ Passes s t c c.is.mask) ∧
  (∀ n s c, Issues (.wbase n) s c → 32 * n.toNat < c.w.space → ∃ t w, exec (.wbase n) s = .next t ∧ OnlyUnit s t c.u ∧
    kget t.warps c.u = some w ∧ w.wbase = 32 * n.toNat ∧ Untouched c { w with wbase := c.w.wbase } ∧ Advances c c.w w c.is.mask) ∧
  (∀ n s c, Issues (.wbase n) s c → c.w.space ≤ 32 * n.toNat → c.lr.trapentry ≠ 0 → c.w.hlanes = 0 →
    ∃ t, exec (.wbase n) s = .next t ∧ Traps s t c c.is.mask 0 0x04 n.toNat c.is.pc 0) ∧
  (∀ s c, Issues (.sleep 0) s c → ∃ t, exec (.sleep 0) s = .next t ∧ Passes s t c c.is.mask) ∧
  (∀ n s c, Issues (.sleep n) s c → n ≠ 0 → ∃ t, exec (.sleep n) s = .next t ∧
    Waits s t c c.m c.rest (.sleep (s.timebase + s.cyclesNs (c.p.core / 4) n.toNat))) ∧
  (∀ s c, Issues .yield s c → ∃ t, exec .yield s = .next t ∧ Passes s t c c.is.mask ∧ (c.w.turn = none → ∀ w, kget t.warps c.u = some w →
    1 < (w.frontier.filter Entry.isReady).length → w.fair = 64)) ∧
  (∀ p : Instr × Bool, p = (.lnon, true) ∨ p = (.lnoff, false) → ∀ s c, Issues p.1 s c → ∃ t w, exec p.1 s = .next t ∧
    OnlyUnit s t c.u ∧ kget t.warps c.u = some w ∧ w.lnOn = (if c.w.tile then c.w.lnOn else p.2) ∧
    Untouched c { w with lnOn := c.w.lnOn } ∧ Advances c c.w w c.is.mask)

/-- R28, R29: `join` holds the lanes of M until every live lane has arrived, and completes at once where M is all that live; `exit`
ends the lanes of M, and no other lane stops being live. -/
def Obligations.JoinAndExit : Prop :=
  (∀ s c, Issues .join s c → c.w.queues = [] → c.m = c.w.live → c.is.mask = c.m → ∃ t w, exec .join s = .next t ∧ OnlyUnit s t c.u ∧
    kget t.warps c.u = some w ∧ Untouched c w ∧
    ∀ l p q, w.stands l p q ↔ c.m.getLsbD l = true ∧ p = c.is.npc ∧ q = .ready) ∧
  (∀ s c k p, Issues .join s c → c.w.queues = [] → c.w.stands k p .ready → c.m.getLsbD k = false →
    (∀ p, ¬c.w.stands k p (.waiting .join)) → ∃ t, exec .join s = .next t ∧ Waits s t c c.m c.rest .join) ∧
  (∀ s c, Issues .exit s c → c.w.passFaults = [] → ∃ t w, exec .exit s = .next t ∧ kget t.warps c.u = some w ∧
    (∀ a, t.hByte a = s.hByte a) ∧ (∀ b off, t.spadByte b off = s.spadByte b off) ∧ w.queues = c.w.queues ∧
    (∀ l, c.m.getLsbD l = true → w.live.getLsbD l = false) ∧
    (∀ l, c.m.getLsbD l = false → c.w.live.getLsbD l = true → w.live.getLsbD l = true) ∧
    (∀ l, c.is.mask.getLsbD l = false → w.live.getLsbD l = c.w.live.getLsbD l) ∧
    (∀ r l, w.reg r l = c.w.reg r l) ∧ (∀ p, w.pred p = c.w.pred p) ∧ (∀ l, w.flagsOf l = c.w.flagsOf l))

/-- R215, R27, R304, R305: `trap`, `brk` and `eret`. A trap's lanes go to TRAPENTRY and its registers are written; `eret` sends the
handler's lanes to TRAPPC, whose bits [1:0] and [63:57] are ignored, and they leave the handler. -/
def Obligations.TrapsAndReturns : Prop :=
  (∀ code s c, Issues (.trap code) s c → c.m ≠ 0 → c.lr.trapentry ≠ 0 → c.w.hlanes = 0 →
    ∃ t, exec (.trap code) s = .next t ∧ Traps s t c c.m c.rest 0x30 code.toNat c.is.npc 0) ∧
  (∀ s c, Issues .brk s c → (s.part c.p.part).held.contains c.p.ctx = false → c.m ≠ 0 → c.lr.trapentry ≠ 0 → c.w.hlanes = 0 →
    ∃ t, exec .brk s = .next t ∧ Traps s t c c.m c.rest 0x31 4 c.is.npc 0) ∧
  (∀ s c, Issues .eret s c → c.m ≠ 0 → (∀ l, c.m.getLsbD l = true → c.w.hlanes.getLsbD l = true) →
    (∀ l p, ¬c.w.stands l p (.parked .handler)) →
    ∃ t w, exec .eret s = .next t ∧ OnlyUnit s t c.u ∧ kget t.warps c.u = some w ∧ (∀ n, w.trapReg n = c.w.trapReg n) ∧
      w.hlanes = c.w.hlanes &&& ~~~c.m ∧ (∀ r l, w.reg r l = c.w.reg r l) ∧ (∀ p, w.pred p = c.w.pred p) ∧
      (∀ l, w.flagsOf l = c.w.flagsOf l) ∧
      Moved c.w w c.m (BitVec.ofNat 64 (((c.w.trapReg 36).toNat + (c.w.trapReg 37).toNat * 2 ^ 32) % 2 ^ 57 / 4 * 4)) .ready)

/-- R112, R197, R198: a full fence waits until the lanes' queues have drained and its scope's release holds, and then acquires: at die
scope and wider no clean byte of a shared line stays in the core's view. A fence of stores only is queued behind each lane's stores. Either
waits for the unit's engine commands first where its E bit asks. `sdrain` holds the warp's issue. -/
def Obligations.Fences : Prop :=
  (∀ (e : BitVec 1) (sc : BitVec 3) s c, Issues (.fence 0 e sc) s c → (e = 1 → s.enginesDone c.u = true) → c.w.queues = [] →
    s.releaseMet c.u c.p.view sc.toNat = true → ∃ t w, exec (.fence 0 e sc) s = .next t ∧ (∀ a, t.hByte a = s.hByte a) ∧
      (∀ b off, t.spadByte b off = s.spadByte b off) ∧ (∀ v, v ≠ c.u → kget t.warps v = kget s.warps v) ∧ kget t.warps c.u = some w ∧
      Untouched c w ∧ Advances c c.w w c.is.mask ∧
      (∀ v, (v ≠ c.p.view ∧ sc.toNat ≠ 2) ∨ sc.toNat < 2 → (t.core v).cv = (s.core v).cv) ∧
      (3 ≤ sc.toNat → ∀ line x, kget (t.core c.p.view).cv line = some x → x.cls = 1 → x.dirty ≠ 0 ∧ x.present &&& ~~~x.dirty = 0)) ∧
  (∀ (e : BitVec 1) (sc : BitVec 3) s c, Issues (.fence 1 e sc) s c → (e = 1 → s.enginesDone c.u = true) →
    ∃ t w, exec (.fence 1 e sc) s = .next t ∧ (∀ a, t.hByte a = s.hByte a) ∧ (∀ b off, t.spadByte b off = s.spadByte b off) ∧
      (∀ v, v ≠ c.u → kget t.warps v = kget s.warps v) ∧ kget t.warps c.u = some w ∧
      Untouched c { w with queues := c.w.queues } ∧ Advances c c.w w c.is.mask ∧
      (∀ l, l < 64 → sget [] w.queues l = sget [] c.w.queues l ++
        if c.m.getLsbD l then [⟨[], some sc.toNat, none, 0, c.is.pc, 0, 0⟩] else [])) ∧
  (∀ s c, Issues .sdrain s c → ∃ t w, exec .sdrain s = .next t ∧ OnlyUnit s t c.u ∧ kget t.warps c.u = some w ∧ w.sdrain = true ∧
    Untouched c { w with sdrain := c.w.sdrain } ∧ Advances c c.w w c.is.mask)

/-- R216: `bexit` of a launch without ERRADDR ends every warp of the block and its tile context at once, frees the named barriers, and
leaves memory, scratchpads and the store queues. -/
def Obligations.BlockEnd : Prop :=
  ∀ code s c b, Issues (.bexit code) s c → c.lr.erraddr = 0 → kget s.blocks c.p.blk = some b →
    ∃ t b', exec (.bexit code) s = .next t ∧ kget t.blocks c.p.blk = some b' ∧ b'.stopped = true ∧ b'.bars = [] ∧
      b' = { b with bars := [], stopped := true, accWait := none } ∧
      (∀ u w, u ∈ b.warps ++ b.tctx.toList → kget s.warps u = some w → ∃ w', kget t.warps u = some w' ∧ w'.frontier = [] ∧
        w'.ended = true ∧ w'.queues = w.queues ∧ w'.tx = none) ∧
      (∀ a, t.hByte a = s.hByte a) ∧ (∀ k off, t.spadByte k off = s.spadByte k off)

/-! ### Memory (R6, R189 to R196) -/

/-- R6, R189, R190, R193, R194: the loads: their addresses, widths and words, the post-increment and the acquiring forms. A load
completes where its lanes pass their checks (R125) and their reads give bytes; where they point into the own scratchpad it completes
with what that holds. -/
def Obligations.Loads : Prop :=
  ∀ (b a d : BitVec 7) (i : BitVec 12) (k : BitVec 4) (r : BitVec 1) (sc : BitVec 3),
    let Holds (x : Instr) (n : Nat) (f : LoadForm) : Prop := Machine.Loads x d n f ∧ LoadsScratch x d n f
    let ea (c : Ctx) (l : Nat) : DWord := c.rd64 a.toNat l + (c.rd b.toNat l).signExtend 64
    let ei (c : Ctx) (l : Nat) : DWord := c.rd64 a.toNat l + i.signExtend 64
    let e0 (c : Ctx) (l : Nat) : DWord := c.rd64 a.toNat l
    let plain (e : Ctx → Nat → DWord) (n : Nat) (w : List Byte → List Word) : LoadForm := ⟨e, n, false, w, none, none⟩
    let step (n : Nat) : LoadForm := ⟨e0, n, true, wordsOf, none, some (a.toNat, k.toNat)⟩
    let acq (n : Nat) : LoadForm := ⟨e0, n, true, wordsOf, some (sc.toNat, r == 1), none⟩
    Holds (.ldSb b a d) 1 (plain ea 1 (sextBytes 1)) ∧ Holds (.ldUb b a d) 1 (plain ea 1 zextBytes) ∧
    Holds (.ldSh b a d) 1 (plain ea 2 (sextBytes 2)) ∧ Holds (.ldUh b a d) 1 (plain ea 2 zextBytes) ∧
    Holds (.ldW b a d) 1 (plain ea 4 wordsOf) ∧ Holds (.ldD b a d) 2 (plain ea 8 wordsOf) ∧ Holds (.ldQ b a d) 4 (plain ea 16 wordsOf) ∧
    Holds (.ldiW i a d) 1 (plain ei 4 wordsOf) ∧ Holds (.ldiD i a d) 2 (plain ei 8 wordsOf) ∧ Holds (.ldiQ i a d) 4 (plain ei 16 wordsOf) ∧
    Holds (.ldmW k a d) 1 (step 4) ∧ Holds (.ldmD k a d) 2 (step 8) ∧ Holds (.ldmQ k a d) 4 (step 16) ∧
    Holds (.ldacqW r sc a d) 1 (acq 4) ∧ Holds (.ldacqD r sc a d) 2 (acq 8)

/-- R6, R190, R191, R193: how bytes become words and words bytes, little-endian, with sign or zero extension; and how a
post-increment steps an address. -/
def Obligations.BytesAndWords : Prop :=
  (∀ x : Byte, sextBytes 1 [x] = [x.signExtend 32] ∧ zextBytes [x] = [x.zeroExtend 32]) ∧
  (∀ x y : Byte, sextBytes 2 [x, y] = [(y ++ x).signExtend 32] ∧ zextBytes [x, y] = [(y ++ x).zeroExtend 32]) ∧
  (∀ b : Nat → Byte, ∀ n, wordsOf ((List.range (4 * n)).map b) =
    (List.range n).map (fun j => b (4 * j + 3) ++ b (4 * j + 2) ++ b (4 * j + 1) ++ b (4 * j))) ∧
  (∀ (d : BitVec 7) n c l, n ≤ 16 → dataOf d n c l = (List.range n).map (fun j => (c.rd (d.toNat + j / 4) l).extractLsb' (8 * (j % 4)) 8)) ∧
  (∀ (w : Warp) k (a : DWord),
    let base : DWord := sget 0 w.mods (65 + 4 * k) ++ sget 0 w.mods (64 + 4 * k)
    let len := sget 0 w.mods (66 + 4 * k)
    let step := sget 0 w.mods (67 + 4 * k)
    stepAddr w k a = if len = 0 then a + step.signExtend 64
      else base + BitVec.ofInt 64 (((a - base).toInt + step.toInt) % len.toNat))

/-- R109, R117, R189, R191, R193, R194: the stores, their addresses, widths and data; the post-increment and the releasing forms. -/
def Obligations.Stores : Prop :=
  ∀ (b a d : BitVec 7) (i : BitVec 12) (k : BitVec 4) (sc : BitVec 3),
    let Holds (x : Instr) (n : Nat) (f : StoreForm) : Prop := Machine.Stores x d n f ∧ StoresScratch x d n f
    let ea (c : Ctx) (l : Nat) : DWord := c.rd64 a.toNat l + (c.rd b.toNat l).signExtend 64
    let ei (c : Ctx) (l : Nat) : DWord := c.rd64 a.toNat l + i.signExtend 64
    let e0 (c : Ctx) (l : Nat) : DWord := c.rd64 a.toNat l
    let plain (e : Ctx → Nat → DWord) (n : Nat) : StoreForm := ⟨e, n, false, dataOf d n, none, none⟩
    let step (n : Nat) : StoreForm := ⟨e0, n, true, dataOf d n, none, some (a.toNat, k.toNat)⟩
    let rel (n : Nat) : StoreForm := ⟨e0, n, true, dataOf d n, some sc.toNat, none⟩
    Holds (.stB b a d) 1 (plain ea 1) ∧ Holds (.stH b a d) 1 (plain ea 2) ∧ Holds (.stW b a d) 1 (plain ea 4) ∧
    Holds (.stD b a d) 2 (plain ea 8) ∧ Holds (.stQ b a d) 4 (plain ea 16) ∧
    Holds (.stiW i a d) 1 (plain ei 4) ∧ Holds (.stiD i a d) 2 (plain ei 8) ∧ Holds (.stiQ i a d) 4 (plain ei 16) ∧
    Holds (.stmW k a d) 1 (step 4) ∧ Holds (.stmD k a d) 2 (step 8) ∧ Holds (.stmQ k a d) 4 (step 16) ∧
    Holds (.strelW sc a d) 1 (rel 4) ∧ Holds (.strelD sc a d) 2 (rel 8)

/-- R114, R195: the atomics: what each writes for the old value it finds, and the old value in the destination. -/
def Obligations.Atomics : Prop :=
  ∀ b a d : BitVec 7,
    let Holds (x : Instr) (n : Nat) (f : AtomForm) : Prop := Machine.Atomics x b a d n f ∧ AtomicsScratch x b a d n f
    let w (g : Word → Word → Word) : AtomForm :=
      ⟨4, fun c l old => (g (BitVec.ofNat 32 old) (c.rd b.toNat l)).toNat, fun _ _ _ => 0, dataOf b 4⟩
    let x (g : DWord → DWord → DWord) : AtomForm :=
      ⟨8, fun c l old => (g (BitVec.ofNat 64 old) (c.rd64 b.toNat l)).toNat, fun _ _ _ => 0, dataOf b 8⟩
    Holds (.atomAddW b a d) 1 (w (· + ·)) ∧
    Holds (.atomMinSw b a d) 1 (w (fun o v => if v.slt o then v else o)) ∧ Holds (.atomMinUw b a d) 1 (w (fun o v => if v < o then v else o)) ∧
    Holds (.atomMaxSw b a d) 1 (w (fun o v => if o.slt v then v else o)) ∧ Holds (.atomMaxUw b a d) 1 (w (fun o v => if o < v then v else o)) ∧
    Holds (.atomAndW b a d) 1 (w (· &&& ·)) ∧ Holds (.atomOrW b a d) 1 (w (· ||| ·)) ∧ Holds (.atomXorW b a d) 1 (w (· ^^^ ·)) ∧
    Holds (.atomExchW b a d) 1 (w (fun _ v => v)) ∧
    Holds (.atomCasW b a d) 1 ⟨4, fun c l old => if BitVec.ofNat 32 old = c.fourth d.toNat l then (c.rd b.toNat l).toNat else old,
      fun _ _ _ => 0, fun c l => dataOf b 4 c l ++ bytesLE 4 (c.fourth d.toNat l).toNat⟩ ∧
    Holds (.atomFaddF32 b a d) 1 ⟨4, fun c l old => (addF f32 .rne false old (c.rd b.toNat l).toNat).1,
      fun c l old => (addF f32 .rne false old (c.rd b.toNat l).toNat).2, dataOf b 4⟩ ∧
    Holds (.atomAddD b a d) 2 (x (· + ·)) ∧ Holds (.atomExchD b a d) 2 (x (fun _ v => v)) ∧
    Holds (.atomCasD b a d) 2 ⟨8, fun c l old => if BitVec.ofNat 64 old = c.fourth64 d.toNat l then (c.rd64 b.toNat l).toNat else old,
      fun _ _ _ => 0, fun c l => dataOf b 8 c l ++ bytesLE 8 (c.fourth64 d.toNat l).toNat⟩

/-- R196, R120: a prefetch that meets no range lock completes whatever its addresses, and changes no byte, register or flag. -/
def Obligations.Prefetches : Prop :=
  ∀ (b a : BitVec 7) (i : Instr), i = .pfL1 b a ∨ i = .pfL2 b a → ∀ s c, Issues i s c → s.rl = [] → ∃ t w, exec i s = .next t ∧
    (∀ x, t.hByte x = s.hByte x) ∧ (∀ x off, t.spadByte x off = s.spadByte x off) ∧ (∀ v, v ≠ c.u → kget t.warps v = kget s.warps v) ∧
    kget t.warps c.u = some w ∧ Untouched c w ∧ Advances c c.w w c.is.mask

/-! ### Special registers and lineage (R79, R81, R211 to R213) -/

/-- R33, R211, R212, R213: `mfs` reads every special register, lane by lane, and CLKLO captures the timebase; `mts` writes FPFLAGS in
the lanes of M and every other writable register from the lowest lane of M, and a write to a read-only register has no effect. -/
def Obligations.SpecialRegisters : Prop :=
  (∀ (i d : BitVec 7) s c, Issues (.mfs i d) s c → ∃ t w, exec (.mfs i d) s = .next t ∧ OnlyUnit s t c.u ∧ kget t.warps c.u = some w ∧
    RegsWritten c w d.toNat 1 (fun l => [if i = 11 then BitVec.ofNat 32 s.timebase else s.special c i.toNat l]) ∧
    w.clk = (if i = 11 ∧ c.m ≠ 0 then s.timebase else c.w.clk) ∧ { w.shell with clk := 0 } = { c.w.shell with clk := 0 } ∧
    (∀ l, l < 64 → w.flagsOf l = c.w.flagsOf l) ∧ (∀ p, w.pred p = c.w.pred p) ∧ Advances c c.w w c.is.mask) ∧
  (∀ (i a : BitVec 7) s c, Issues (.mts i a) s c → ∃ t w, exec (.mts i a) s = .next t ∧ OnlyUnit s t c.u ∧ kget t.warps c.u = some w ∧
    (∀ l, l < 64 → w.flagsOf l = if i = 32 ∧ c.m.getLsbD l = true then (c.rd a.toNat l).extractLsb' 0 5 else c.w.flagsOf l) ∧
    (∀ n, w.trapReg n = if c.m ≠ 0 ∧ n = i.toNat ∧ 34 ≤ n ∧ n ≤ 43 then
      (if n = 34 then c.rd a.toNat c.low &&& 0xFF else c.rd a.toNat c.low) else c.w.trapReg n) ∧
    (∀ n, sget 0 w.mods n = if c.m ≠ 0 ∧ n = i.toNat ∧ 64 ≤ n then c.rd a.toNat c.low else sget 0 c.w.mods n) ∧
    { w.shell with trap := [], mods := [] } = { c.w.shell with trap := [], mods := [] } ∧
    (∀ r l, w.reg r l = c.w.reg r l) ∧ (∀ p, w.pred p = c.w.pred p) ∧ Advances c c.w w c.is.mask)

/-- R17, R33, R213: what the special registers read, on a warp and on a tile context. -/
def Obligations.SpecialValues : Prop :=
  ∀ (s : State) (c : Ctx) (l : Nat),
    let one (n : Nat) (v : Nat) : Prop := s.special c n l = BitVec.ofNat 32 v
    (c.w.tile = false → one 0 l ∧ one 1 64 ∧ one 2 c.w.wid) ∧ (c.w.tile = true → one 0 0 ∧ one 1 1 ∧ one 2 0 ∧ one 16 0 ∧ one 17 0) ∧
    one 3 c.w.role ∧ one 4 c.lr.param ∧ one 5 (c.lr.param / 2 ^ 32) ∧ one 6 c.p.core ∧
    one 7 (c.p.core / 192 * 192 + s.dreg (.lmPhys c.p.core)) ∧ one 8 (c.p.core / 4) ∧ one 9 (c.p.core / 192) ∧ one 10 c.p.ctx ∧
    one 11 s.timebase ∧ one 12 (c.w.clk / 2 ^ 32) ∧ one 13 c.w.wbase ∧ one 14 c.is.mask.toNat ∧ one 15 (c.is.mask.toNat / 2 ^ 32) ∧
    (∀ k, k < 8 → ∀ x, c.lr.levels[k]? = some x → one (24 + k) x.size) ∧
    (∀ k, k < 8 → c.lr.levels.length ≤ k → one (24 + k) 1) ∧ (∀ k, k < 8 → c.lr.levels.length ≤ k + 1 → one (16 + k) 0) ∧
    one 32 (c.w.flagsOf l).toNat ∧ one 33 (s.curLevel c.p.part c.p.ctx) ∧ (∀ n, 34 ≤ n → n ≤ 43 → s.special c n l = c.w.trapReg n) ∧
    one 44 ((s.core c.p.core).sfq.filter (fun r => r.u == c.u)).length ∧ s.special c 45 l = storeHash (s.core c.p.core) c.p.launch ∧
    (∀ n, 64 ≤ n → s.special c n l = sget 0 c.w.mods n)

/-- R79, R81: the lineage instructions: `untag` copies and leaves the copy without lineage; `lnq` reports a register; `lnkill` mode 0
removes the context's watches and entries of the core from lookup, mode 1 needs an address a load could read. -/
def Obligations.LineageInstructions : Prop :=
  (∀ a d : BitVec 7, ComputesWord (.untag a d) d (fun c l => c.rd a.toNat l)) ∧
  (∀ (a d : BitVec 7) s c, Issues (.untag a d) s c → c.m ≠ 0 → ∃ t w, exec (.untag a d) s = .next t ∧ kget t.warps c.u = some w ∧
    kget w.lin (c.w.wbase + d.toNat) = none) ∧
  (∀ (a d : BitVec 7) s c, Issues (.lnq a d) s c → ∃ t, exec (.lnq a d) s = .next t ∧
    RegResult s t c d.toNat 1 (fun _ => [(s.setWarp c.u c.w).lnqOf c a.toNat]) (fun _ => 0)) ∧
  (∀ (s : State) (c : Ctx) a, c.w.tile = true → s.lnqOf c a =
    BitVec.ofNat 32 (0x7F000 + if sget false c.w.written (c.w.wbase + a) then 2 ^ 18 else 0)) ∧
  (∀ (s : State) (c : Ctx) a, c.w.tile = false → kget c.w.lin (c.w.wbase + a) = none → s.lnqOf c a = BitVec.ofNat 32 (0x3F000 + 2 ^ 18)) ∧
  (∀ (i a : BitVec 7) s c, Issues (.lnkill i a) s c → c.m = 0 ∨ c.w.tile = true → ∃ t, exec (.lnkill i a) s = .next t ∧ Passes s t c c.is.mask) ∧
  (∀ (a : BitVec 7) s c, Issues (.lnkill 0 a) s c → c.m ≠ 0 → c.w.tile = false → ∃ t w, exec (.lnkill 0 a) s = .next t ∧ OnlyUnit s t c.u ∧
    kget t.warps c.u = some w ∧ Untouched c w ∧ Advances c c.w w c.is.mask ∧
    (∀ k x, kget (t.core c.p.core).watches k = some x → ¬(x.part = c.p.part ∧ x.ctx = c.p.ctx)) ∧
    ∀ e x, kget (t.core c.p.core).vs e = some x → x.inLookup = true → ¬(x.key.part = c.p.part ∧ x.key.ctx = c.p.ctx))

/-! ### Barriers and the issue register (R201 to R210) -/

/-- R112, R201: the threads of M arrive on a named barrier; the first arrival of a phase fixes its expected count, for `bar.sync` the
live threads of the block's warps. A phase that is not complete keeps its count, and the waiting forms wait; a complete one releases
every waiter of the block and returns to idle. A barrier the launch has not, or a count outside 1 to 4,096, is an illegal instruction. -/
def Obligations.NamedBarriers : Prop :=
  let Arrives (i : Instr) (a : BitVec 7) (n : Ctx → Nat) (sync waits : Bool) : Prop :=
    ∀ s c b, Issues i s c → (∀ l, c.m.getLsbD l = true → c.w.stands l c.is.pc .ready) → c.w.queues = [] →
      s.releaseMet c.u c.p.view c.lr.blockScope = true → s.inTx c.u = false → kget s.blocks c.p.blk = some b →
      let id := (c.rd a.toNat c.low).toNat
      let x : Bar := (kget b.bars id).getD ⟨0, n c, sync⟩
      let arrived := x.arrived + (lanesOf c.m).length
      let need := if x.sync then s.liveThreads b else x.expect
      id < c.lr.bars → 1 ≤ n c → n c ≤ 4096 → ∃ t w b', exec i s = .next t ∧ (∀ y, t.hByte y = s.hByte y) ∧
        (∀ k off, t.spadByte k off = s.spadByte k off) ∧ kget t.blocks c.p.blk = some b' ∧ kget t.warps c.u = some w ∧ Untouched c w ∧
        (∀ j, j ≠ id → kget b'.bars j = kget b.bars j) ∧
        (arrived < need → kget b'.bars id = some { x with arrived := arrived } ∧
          if waits then (∀ l p q, w.stands l p q ↔ if c.m.getLsbD l = true then p = c.is.pc ∧ q = .waiting (.bar id)
            else if c.rest.getLsbD l = true ∧ c.is.depth = 0 then p = c.is.npc ∧ q = .ready else c.w.stands l p q)
          else Advances c c.w w c.is.mask) ∧
        (need ≤ arrived → kget b'.bars id = none ∧
          ∀ u v, u ∈ b.warps → kget t.warps u = some v → ∀ l p, ¬v.stands l p (.waiting (.bar id)))
  let Refuses (i : Instr) (a : BitVec 7) (n : Ctx → Nat) : Prop := ∀ s c, Issues i s c → c.lr.trapentry ≠ 0 → c.w.hlanes = 0 →
    c.lr.bars ≤ (c.rd a.toNat c.low).toNat ∨ n c = 0 ∨ 4096 < n c →
    ∃ t, exec i s = .next t ∧ Traps s t c c.is.mask 0 0x01 c.is.word.toNat c.is.pc 0
  ∀ b a : BitVec 7, Arrives (.barArr b a) a (fun c => (c.rd b.toNat c.low).toNat) false false ∧
    Arrives (.barWait b a) a (fun c => (c.rd b.toNat c.low).toNat) false true ∧ Arrives (.barSync a) a (fun _ => 1) true true ∧
    Refuses (.barArr b a) a (fun c => (c.rd b.toNat c.low).toNat) ∧ Refuses (.barWait b a) a (fun c => (c.rd b.toNat c.low).toNat) ∧
    Refuses (.barSync a) a (fun _ => 1)

/-- R205: inside an admitted transaction a legal `bar.arr`, `bar.wait` or `bar.sync`, and a `pbwait`, trap the whole sub-group with 0x16
before any effect; `pbarr` runs there, as on a word of the own scratchpad. -/
def Obligations.TransactionSync : Prop :=
  let Takes (i : Instr) (s : State) (c : Ctx) (n : Nat) : Prop := ∃ t, exec i s = .next t ∧ Traps s t c c.is.mask 0 0x16 n c.is.pc 0
  ∀ (b a : BitVec 7) s c, s.inTx c.u = true → c.lr.trapentry ≠ 0 → c.w.hlanes = 0 →
    let ok (n : Nat) : Prop := (c.rd a.toNat c.low).toNat < c.lr.bars ∧ 1 ≤ n ∧ n ≤ 4096
    (Issues (.barArr b a) s c → ok (c.rd b.toNat c.low).toNat → Takes (.barArr b a) s c 1) ∧
    (Issues (.barWait b a) s c → ok (c.rd b.toNat c.low).toNat → Takes (.barWait b a) s c 1) ∧
    (Issues (.barSync a) s c → ok 1 → Takes (.barSync a) s c 1) ∧
    (Issues (.pbwait b a) s c → Takes (.pbwait b a) s c 2) ∧
    (Issues (.pbarr b a) s c → c.w.queues = [] → s.releaseMet c.u c.p.view (scopeOf c.px 1) = true →
      c.lr.record = false → c.lr.replay = false → s.rl = [] → InScratch { c with m := laneBit c.low } (fun l => c.rd64 a.toNat l) 4 →
      (∀ x, kget s.blocks c.p.blk = some x → ∀ k, k < 4 →
        c.w.regLevel (c.w.wbase + b.toNat) ≤ x.levAt ((c.rd64 a.toNat c.low).toNat % 2 ^ 48 + k)) →
      ∃ t w, exec (.pbarr b a) s = .next t ∧ kget t.warps c.u = some w ∧ Untouched c w ∧ Advances c c.w w c.is.mask)

/-- R202, R203: an arrival of n on a barrier word: PEND goes down by n, and at 0, or where n exceeds it, PHASE flips and PEND reloads
from EXPECT; an arrival that exceeds PEND sets OVR. -/
def Obligations.PhaseArrival : Prop :=
  ∀ (phase ovr : Bool) (expect pend n : Nat), expect < 2 ^ 15 → pend < 2 ^ 15 →
    let word (phase ovr : Bool) (expect pend : Nat) : Nat := pend + ovr.toNat * 2 ^ 15 + expect * 2 ^ 16 + phase.toNat * 2 ^ 31
    pbArrive n (word phase ovr expect pend) =
      if n = 0 then word phase ovr expect pend
      else if pend < n then word (!phase) true expect expect
      else if pend = n then word (!phase) ovr expect expect
      else word phase ovr expect (pend - n)

/-- R114, R203, R204: `pbarr` on a word of the own scratchpad updates it in one step; `pbwait` there makes wait the lanes whose word has
the phase asked for, and lets the others pass. -/
def Obligations.PhaseBarriers : Prop :=
  (∀ (b a : BitVec 7) s c, Issues (.pbarr b a) s c → c.w.queues = [] → s.releaseMet c.u c.p.view (scopeOf c.px 1) = true →
    c.lr.record = false → c.lr.replay = false → s.rl = [] → InScratch { c with m := laneBit c.low } (fun l => c.rd64 a.toNat l) 4 →
    (∀ x, kget s.blocks c.p.blk = some x → ∀ k, k < 4 →
      c.w.regLevel (c.w.wbase + b.toNat) ≤ x.levAt ((c.rd64 a.toNat c.low).toNat % 2 ^ 48 + k)) →
    let off := (c.rd64 a.toNat c.low).toNat % 2 ^ 48
    let old := natLE ((List.range 4).map (fun j => s.spadByte c.p.blk (off + j)))
    ∃ t w, exec (.pbarr b a) s = .next t ∧ (∀ y, t.hByte y = s.hByte y) ∧
      (∀ o, t.spadByte c.p.blk o = if off ≤ o ∧ o < off + 4 then
        (bytesLE 4 (pbArrive (c.rd b.toNat c.low).toNat old)).getD (o - off) 0 else s.spadByte c.p.blk o) ∧
      (∀ k o, k ≠ c.p.blk → t.spadByte k o = s.spadByte k o) ∧ (∀ v, v ≠ c.u → kget t.warps v = kget s.warps v) ∧
      kget t.warps c.u = some w ∧ Untouched c w ∧ Advances c c.w w c.is.mask) ∧
  (∀ (i a : BitVec 7) s c, Issues (.pbwait i a) s c → s.inTx c.u = false → s.rl = [] → InScratch c (fun l => c.rd64 a.toNat l) 4 →
    let same (l : Nat) : Prop := (natLE ((List.range 4).map (fun j => s.spadByte c.p.blk ((c.rd64 a.toNat l).toNat % 2 ^ 48 + j)))).testBit 31 =
      decide (i = 1)
    ∃ t w, exec (.pbwait i a) s = .next t ∧ (∀ y, t.hByte y = s.hByte y) ∧ (∀ k o, t.spadByte k o = s.spadByte k o) ∧
      (∀ v, v ≠ c.u → kget t.warps v = kget s.warps v) ∧ kget t.warps c.u = some w ∧ Untouched c w ∧
      ∀ l p q, w.stands l p q ↔ if c.m.getLsbD l = true ∧ same l then
          p = c.is.pc ∧ q = .waiting (.pbwait (c.rd64 a.toNat l).toNat (decide (i = 1)) (scopeOf c.px 1))
        else if c.is.mask.getLsbD l = true ∧ c.is.depth = 0 then p = c.is.npc ∧ q = .ready else c.w.stands l p q)

/-- R207, R208: `xw` and `xwp` group the permitted words of the lanes of M, lowest lane first, each with its prefix; the other lanes of M
are bad. A first one starts a run; an inner one puts its groups before the rest of the outer's. -/
def Obligations.IssueRegister : Prop :=
  let Groups (c : Ctx) (word pfx : Nat → Word) (gs : List XwGroup) : Prop :=
    (∀ g ∈ gs, g.depth = c.is.depth + 1 ∧ ∀ l, l < 64 → (g.mask.getLsbD l = true ↔
      c.m.getLsbD l = true ∧ c.permitted (word l) (pfx l) = true ∧ word l = g.word ∧ pfx l = g.pfx)) ∧
    (∀ l, l < 64 → c.m.getLsbD l = true → c.permitted (word l) (pfx l) = true → ∃ g ∈ gs, g.mask.getLsbD l = true) ∧
    gs.Pairwise (fun g h => ∃ l, l < 64 ∧ g.mask.getLsbD l = true ∧ ∀ k, k ≤ l → h.mask.getLsbD k = false)
  let Starts (i : Instr) (word pfx : Ctx → Nat → Word) : Prop := ∀ s c, Issues i s c → ∃ t w r gs, exec i s = .next t ∧ OnlyUnit s t c.u ∧
    kget t.warps c.u = some w ∧ w.xw = some r ∧ { w with xw := c.w.xw } = c.w ∧ Groups c (word c) (pfx c) gs ∧
    match c.w.xw with
    | none => r.pc = c.is.pc ∧ r.npc = c.is.npc ∧ r.mask = c.is.mask ∧ r.groups = gs ∧
      ∀ l, l < 64 → r.bad.getLsbD l = (c.m.getLsbD l && !c.permitted (word c l) (pfx c l))
    | some o => r.pc = o.pc ∧ r.npc = o.npc ∧ r.mask = o.mask ∧ r.groups = gs ++ o.groups.tail ∧
      ∀ l, l < 64 → r.bad.getLsbD l = (o.bad.getLsbD l || (c.m.getLsbD l && !c.permitted (word c l) (pfx c l)))
  ∀ b a : BitVec 7, Starts (.xw a) (fun c l => c.rd a.toNat l) (fun _ _ => 0) ∧
    Starts (.xwp b a) (fun c l => c.rd a.toNat l) (fun c l => c.rd b.toNat l)

/-! ### Engines and posted nodes (R225 to R231, R276) -/

/-- R226, R230: a command goes to the engine of its die with the fewest commands, the lowest number on a tie, among those whose queue
has room; `bcopy` checks its record, starts the copy and gives its ticket; `coll` starts a collective. With no lane in M they do
nothing. -/
def Obligations.EngineCommands : Prop :=
  (∀ (s : State) die x lock (s' : State) k, s.startCmd die x lock = some (s', k) → ∃ e, e / 16 = die ∧ (s.engine e).queue.length < 64 ∧
    (∀ f, f / 16 = die → (s.engine f).queue.length < 64 → (s.engine e).load ≤ (s.engine f).load ∧
      ((s.engine e).load = (s.engine f).load → e ≤ f)) ∧ k = ticketOf e (s.engine e).seq ∧
    (s'.engine e).queue = (s.engine e).queue ++ [{ x with id := s.nextUid, ticket := k }] ∧
    (s'.engine e).run = (s.engine e).run ∧ ∀ f, f ≠ e → s'.engine f = s.engine f) ∧
  (∀ (a d : BitVec 7) s c, Issues (.bcopy a d) s c → c.m = 0 → ∃ t, exec (.bcopy a d) s = .next t ∧ Passes s t c c.is.mask) ∧
  (∀ (a : BitVec 7) s c, Issues (.coll a) s c → c.m = 0 → ∃ t, exec (.coll a) s = .next t ∧ Passes s t c c.is.mask) ∧
  (∀ (a d : BitVec 7) s c x lock (s1 s2 s3 : State) k, Issues (.bcopy a d) s c → c.m ≠ 0 → c.w.queues = [] → s.releaseMet c.u c.p.view 4 = true →
    (s.setWarp c.u c.w).readCopy (.warp c) (c.rd64 a.toNat c.low).toNat = (s1, .ok (x, lock)) →
    s1.wordChecks c.p c.p.places x.words = (s2, .ok ()) → (s2.dropAnswers c).startCmd (c.p.core / 192) (c.ownCmd x) lock = some (s3, k) →
    ∃ t, exec (.bcopy a d) s = .next t ∧ RegResult s3 t c d.toNat 1 (fun _ => [BitVec.ofNat 32 k]) (fun _ => 0)) ∧
  (∀ (a : BitVec 7) s c x (s1 s2 s3 : State) k, Issues (.coll a) s c → c.m ≠ 0 → c.w.queues = [] → s.releaseMet c.u c.p.view 4 = true →
    (s.setWarp c.u c.w).readColl (.warp c) (c.rd64 a.toNat c.low).toNat = (s1, .ok x) →
    s1.wordChecks c.p c.p.places x.words = (s2, .ok ()) → (s2.dropAnswers c).startCmd (c.p.core / 192) (c.ownCmd x) false = some (s3, k) →
    ∃ t, exec (.coll a) s = .next t ∧ Passes s3 t c c.is.mask)

/-- R229: `ewait` makes its lanes wait while the command of the ticket is queued or runs; once it has stopped, it acquires at device
scope and goes on, or delivers the trap that stopped the command. `epoll` gives the status 0, 1 or 2, and acquires unless it is 0. -/
def Obligations.EngineWaits : Prop :=
  (∀ (a : BitVec 7) s c f, Issues (.ewait a) s c → s.ticketStatus c.p (c.rd a.toNat c.low) = (0, f) →
    ∃ t, exec (.ewait a) s = .next t ∧ Waits s t c c.m c.rest (.ewait (c.rd a.toNat c.low))) ∧
  (∀ (a : BitVec 7) s c f, Issues (.ewait a) s c → s.ticketStatus c.p (c.rd a.toNat c.low) = (1, f) →
    ∃ t, exec (.ewait a) s = .next t ∧ Passes (s.acquire c.p.view 4) t c c.is.mask) ∧
  (∀ (a : BitVec 7) s c f, Issues (.ewait a) s c → s.ticketStatus c.p (c.rd a.toNat c.low) = (2, some f) → c.lr.trapentry ≠ 0 →
    c.w.hlanes = 0 →
    ∃ t, exec (.ewait a) s = .next t ∧ Traps (s.acquire c.p.view 4) t c c.is.mask 0 f.cause f.info c.is.pc f.addr) ∧
  (∀ (a d : BitVec 7) s c, Issues (.epoll a d) s c → c.m = 0 → ∃ t, exec (.epoll a d) s = .next t ∧ Passes s t c c.is.mask) ∧
  (∀ (a d : BitVec 7) s c, Issues (.epoll a d) s c → c.m ≠ 0 →
    let st := (s.ticketStatus c.p (c.rd a.toNat c.low)).1
    ∃ t, exec (.epoll a d) s = .next t ∧ RegResult (if st = 0 then s else s.acquire c.p.view 4) t c d.toNat 1
      (fun _ => [BitVec.ofNat 32 st]) (fun _ => 0))

/-- R231: `gpost` puts the node at V[a] at the tail of the queue V[b]; a queue that is not the partition's, or is not enabled, traps. -/
def Obligations.NodePosts : Prop :=
  (∀ (b a : BitVec 7) s c, Issues (.gpost b a) s c → c.m = 0 → ∃ t, exec (.gpost b a) s = .next t ∧ Passes s t c c.is.mask) ∧
  (∀ (b a : BitVec 7) s c, Issues (.gpost b a) s c → c.m ≠ 0 → c.w.queues = [] → s.releaseMet c.u c.p.view 4 = true →
    let q := (c.rd b.toNat c.low).toNat
    (255 < q ∨ s.reg (.q q .part) ≠ c.p.part ∨ s.reg (.q q .en) ≠ 1 → c.lr.trapentry ≠ 0 → c.w.hlanes = 0 →
      ∃ t, exec (.gpost b a) s = .next t ∧ Traps s t c c.is.mask 0 0x11 0 c.is.pc 0) ∧
    (q ≤ 255 → s.reg (.q q .part) = c.p.part → s.reg (.q q .en) = 1 → (sget [] s.rings q).length < 1024 →
      ∃ t n, exec (.gpost b a) s = .next t ∧ UnitPasses s t c ∧ sget [] t.rings q = sget [] s.rings q ++ [s.nextUid] ∧
        (∀ k, k ≠ q → sget [] t.rings k = sget [] s.rings k) ∧ kget t.nodes s.nextUid = some n ∧
        n.addr = (c.rd64 a.toNat c.low).toNat ∧ n.q = q ∧ n.posted = true ∧ n.running = false ∧
        ∀ k, k ≠ s.nextUid → kget t.nodes k = kget s.nodes k))

/-! ### Order-first transactions (R232 to R239) -/

/-- R233, R234, R235, R238: `ofsub` submits the transaction that its record declares and gives its handle, and traps while one is open;
`ofwait` waits for admission; `ofcommit` writes every held byte to memory and ends the transaction, and traps outside one; `ofinfo`
gives the postmark. -/
def Obligations.OrderFirst : Prop :=
  (∀ (a d : BitVec 7) s c, Issues (.ofsub a d) s c → c.m = 0 → ∃ t, exec (.ofsub a d) s = .next t ∧ Passes s t c c.is.mask) ∧
  (∀ (a d : BitVec 7) s c id x, Issues (.ofsub a d) s c → c.m ≠ 0 → s.openTx c.u = some (id, x) → c.lr.trapentry ≠ 0 → c.w.hlanes = 0 →
    ∃ t, exec (.ofsub a d) s = .next t ∧ Traps s t c c.is.mask 0 0x16 (if x.inside then 3 else 4) c.is.pc 0) ∧
  (∀ (a d : BitVec 7) s c x wp rp (s1 s2 s3 : State), Issues (.ofsub a d) s c → c.m ≠ 0 → s.openTx c.u = none →
    (s.setWarp c.u c.w).readDecl (.warp c) (c.rd64 a.toNat c.low).toNat = (s1, .ok x) →
    (∀ g ∈ x.wr ++ x.rd, windowAt (g * 256) = .global) →
    s1.granules c x.wr = (s2, .ok wp) → s2.granules c x.rd = (s3, .ok rp) →
    let handle := c.p.core / 192 * 2 ^ 30 + (s.seq (c.p.core / 192)).count
    ∃ t w y, exec (.ofsub a d) s = .next t ∧ kget t.warps c.u = some w ∧ w.tx = some s.nextUid ∧ kget t.txs s.nextUid = some y ∧
      y.st = .flight ∧ y.handle = handle ∧ y.tag = x.tag ∧ y.wr = x.wr ∧ y.rd = x.rd ∧ y.held = [] ∧ y.part = c.p.part ∧ y.ctx = c.p.ctx ∧
      (t.seq (c.p.core / 192)).count = ((s.seq (c.p.core / 192)).count + 1) % 2 ^ 30 ∧
      RegsWritten c w d.toNat 1 (fun _ => [BitVec.ofNat 32 handle]) ∧ Advances c c.w w c.is.mask) ∧
  (∀ s c, Issues .ofwait s c → (∀ id x, s.openTx c.u = some (id, x) → x.inside = true) →
    ∃ t, exec .ofwait s = .next t ∧ Passes s t c c.is.mask) ∧
  (∀ s c id x, Issues .ofwait s c → s.openTx c.u = some (id, x) → x.inside = false →
    ∃ t, exec .ofwait s = .next t ∧ Waits s t c c.m c.rest .ofwait) ∧
  (∀ s c, Issues .ofcommit s c → (∀ id x, s.openTx c.u = some (id, x) → x.inside = false) → c.lr.trapentry ≠ 0 → c.w.hlanes = 0 →
    ∃ t, exec .ofcommit s = .next t ∧ Traps s t c c.is.mask 0 0x16 5 c.is.pc 0) ∧
  (∀ s c id x, Issues .ofcommit s c → s.openTx c.u = some (id, x) → x.inside = true → c.w.queues = [] →
    s.releaseMet c.u c.p.view 4 = true → risesFrom none x.held = true →
    ∃ t w, exec .ofcommit s = .next t ∧ (∀ a, t.hByte a = (kget x.held a).getD (s.hByte a)) ∧ kget t.txs id = none ∧
      (∀ k, k ≠ id → kget t.txs k = kget s.txs k) ∧ (∀ k off, t.spadByte k off = s.spadByte k off) ∧
      (∀ v, v ≠ c.u → kget t.warps v = kget s.warps v) ∧ kget t.warps c.u = some w ∧ w.tx = none ∧
      Untouched c { w with tx := c.w.tx } ∧ Advances c c.w w c.is.mask) ∧
  (∀ (d : BitVec 7) s c id x, Issues (.ofinfo d) s c → s.openTx c.u = some (id, x) → x.hasMark = true →
    ∃ t, exec (.ofinfo d) s = .next t ∧ RegResult s t c d.toNat 2
      (fun _ => words64 (BitVec.ofNat 64 (x.beat % 2 ^ 32 * 2 ^ 32 + x.die * 2 ^ 30 + x.seat % 2 ^ 16))) (fun _ => 0)) ∧
  (∀ (d : BitVec 7) s c id x, Issues (.ofinfo d) s c → s.openTx c.u = some (id, x) → x.hasMark = false →
    ∃ t, exec (.ofinfo d) s = .next t ∧ Waits s t c c.m c.rest .ofinfo) ∧
  (∀ (d : BitVec 7) s c, Issues (.ofinfo d) s c → s.openTx c.u = none →
    ∃ t, exec (.ofinfo d) s = .next t ∧ RegResult s t c d.toNat 2 (fun _ => words64 (BitVec.ofNat 64 (c.w.postmark.getD (2 ^ 64 - 1)))) (fun _ => 0))

/-! ### Accumulator tiles and matrix commands (R240 to R249) -/

/-- R240, R241: `accrd` and `accwr` move a half-row of 64 elements between a tile and a register, converting between A40 and F32; a tile
that is not allocated traps. With no lane in M nothing is read or written, but `accrd` with zp=1 still writes 0 to the active lanes
(R132). -/
def Obligations.TileRows : Prop :=
  (∀ (a d : BitVec 7) s c, Issues (.accrd a d) s c → c.m = 0 →
    ∃ t, exec (.accrd a d) s = .next t ∧ RegResult s t c d.toNat 1 (fun _ => []) (fun _ => 0)) ∧
  (∀ (a d : BitVec 7) s c, Issues (.accwr a d) s c → c.m = 0 → ∃ t, exec (.accwr a d) s = .next t ∧ Passes s t c c.is.mask) ∧
  (∀ (a d : BitVec 7) (i : Instr) (n : Nat), (i = .accrd a d ∧ n = 0) ∨ (i = .accwr a d ∧ n = 1) → ∀ s c b, Issues i s c → c.m ≠ 0 →
    kget s.blocks c.p.blk = some b → kget b.tiles ((c.rd a.toNat c.low).toNat % 16) = none → c.lr.trapentry ≠ 0 → c.w.hlanes = 0 →
    ∃ t, exec i s = .next t ∧ Traps s t c c.is.mask 0 0x11 n c.is.pc 0) ∧
  (∀ (a d : BitVec 7) s c b x, Issues (.accrd a d) s c → c.m ≠ 0 → kget s.blocks c.p.blk = some b →
    let v := (c.rd a.toNat c.low).toNat
    kget b.tiles (v % 16) = some x → x.spilled = false → s.inChunk (c.p.core / 4) c.p.blk (v % 16) = false →
    x.readers.contains (c.u, c.is.stamp) = false →
    let e (l : Nat) := cvtF a40 f32 .rne false (x.at_ (bits v 10 4) (64 * bits v 11 11 + l)).toNat
    ∃ t, exec (.accrd a d) s = .next t ∧ RegResult s t c d.toNat 1 (fun l => [BitVec.ofNat 32 (e l).1]) (fun l => (e l).2)) ∧
  (∀ (a d : BitVec 7) s c b x, Issues (.accwr a d) s c → c.m ≠ 0 → kget s.blocks c.p.blk = some b →
    let v := (c.rd a.toNat c.low).toNat
    kget b.tiles (v % 16) = some x → x.spilled = false →
    ∃ t b' y, exec (.accwr a d) s = .next t ∧ UnitPasses s t c ∧ kget t.blocks c.p.blk = some b' ∧ kget b'.tiles (v % 16) = some y ∧
      (∀ k, k ≠ v % 16 → kget b'.tiles k = kget b.tiles k) ∧
      ∀ r j, r < 128 → j < 128 → y.at_ r j = if r = bits v 10 4 ∧ j / 64 = bits v 11 11 ∧ c.m.getLsbD (j % 64) = true
        then BitVec.ofNat 40 (cvtF f32 a40 .rne false (c.rd d.toNat (j % 64)).toNat).1 else x.at_ r j)

/-- R242, R243: `acalloc` takes the lowest free run of tiles, each holding +0, and gives its first index; it traps where the block may not
hold that many or no run is free, and with OVERCOMMIT it waits. `acfree` frees tiles at once, or after the commands on them. -/
def Obligations.TileAllocation : Prop :=
  (∀ (a d : BitVec 7) s c b, Issues (.acalloc a d) s c → kget s.blocks c.p.blk = some b →
    let n := (c.rd a.toNat 0).toNat
    (n = 0 ∨ 16 < n ∨ c.lr.accmax < b.tiles.length + n ∨ b.freeRun n = none → c.lr.trapentry ≠ 0 → c.w.hlanes = 0 →
      ∃ t, exec (.acalloc a d) s = .next t ∧ Traps s t c c.is.mask 0 0x1A n c.is.pc 0) ∧
    (1 ≤ n → n ≤ 16 → b.tiles.length + n ≤ c.lr.accmax → ∀ f, f + n ≤ 16 → (∀ j, j < n → kget b.tiles (f + j) = none) →
      (∀ g, g < f → ∃ j, j < n ∧ (kget b.tiles (g + j)).isSome = true) →
      (c.lr.overcommit = true → n + b.spilledTiles ≤ s.tilesFree (c.p.core / 4) ∧ ∀ x ∈ s.accWaiters (c.p.core / 4), s.reqAge b ≤ s.reqAge x.2) →
      ∃ t w b', exec (.acalloc a d) s = .next t ∧ kget t.warps c.u = some w ∧
        RegsWritten c w d.toNat 1 (fun _ => [BitVec.ofNat 32 f]) ∧ Advances c c.w w c.is.mask ∧ kget t.blocks c.p.blk = some b' ∧
        (∀ j, j < n → kget b'.tiles (f + j) = some Tile.fresh) ∧
        ∀ k, k < f ∨ f + n ≤ k → kget b'.tiles k = (kget b.tiles k).map (fun x => { x with spilled := false }))) ∧
  (∀ (b a : BitVec 7) s c x, Issues (.acfree b a) s c → kget s.blocks c.p.blk = some x →
    let f := (c.rd a.toNat 0).toNat
    let n := (c.rd b.toNat 0).toNat
    let frees (k : Nat) : Prop := k < 16 ∧ f ≤ k ∧ k < f + n ∧ x.tileOk k = true
    ((∀ k, ¬frees k) → ∃ t, exec (.acfree b a) s = .next t ∧ Passes s t c c.is.mask) ∧
    ((∃ k, frees k) → (∀ m ∈ (s.meng (c.p.core / 4)).table, m.blk = c.p.blk → ¬frees m.tile) →
      ∃ t b', exec (.acfree b a) s = .next t ∧ UnitPasses s t c ∧ kget t.blocks c.p.blk = some b' ∧
        ∀ k, (frees k → kget b'.tiles k = none) ∧ (¬frees k → kget b'.tiles k = kget x.tiles k)) ∧
    ((∃ m ∈ (s.meng (c.p.core / 4)).table, m.blk = c.p.blk ∧ frees m.tile) →
      ∃ t b' m, exec (.acfree b a) s = .next t ∧ UnitPasses s t c ∧ kget t.blocks c.p.blk = some b' ∧
        (t.meng (c.p.core / 4)).table = (s.meng (c.p.core / 4)).table ++ [m] ∧ m.kind = .acfree ∧ (∀ k, k ∈ m.tiles ↔ frees k) ∧
        ∀ k, (frees k → b'.tileOk k = false ∧ (kget b'.tiles k).isSome = true) ∧ (¬frees k → kget b'.tiles k = kget x.tiles k)))

/-- R244 to R249: the matrix commands check their slots and their tile, and are posted; `mslot` binds a slot to a tensor record, `vcnt`
sets the valid counts, `mwait` waits for the context's commands, `ppoint` waits only while a pre-emption or the lapse of the session is pending. -/
def Obligations.MatrixCommands : Prop :=
  ∀ b a d : BitVec 7,
    TileChecks (.mmac b a d) d (fun x => match kget x.slots a.toNat, kget x.slots b.toNat with
      | some sa, some sb => mmacFmts sa sb
      | _, _ => false) ∧
    TileChecks (.mtrans a d) d (fun x => (kget x.slots a.toNat).isSome) ∧ TileChecks (.mrsum a d) d (fun x => (kget x.slots a.toNat).isSome) ∧
    TileChecks (.mperm b a d) d (fun x => (kget x.slots a.toNat).isSome) ∧ TileChecks (.mzero d) d (fun _ => true) ∧
    TileChecks (.mpost b a d) d (fun _ => true) ∧ TileChecks (.mdrain a d) d (fun _ => true) ∧
    TileCommand (.mmac b a d) d (fun _ s x s1 k slots => ∃ sa sb, kget x.slots a.toNat = some sa ∧ kget x.slots b.toNat = some sb ∧
      mmacFmts sa sb = true ∧ s1 = s ∧ k = { MCmd.blank with kind := .mmac, a := some sa, b := some sb } ∧
      slots = kmod (kmod x.slots a.toNat (fun y => { y with col := y.col + 1 })) b.toNat (fun y => { y with row := y.row + 1 })) ∧
    TileCommand (.mtrans a d) d (fun _ s x s1 k slots => ∃ sa, kget x.slots a.toNat = some sa ∧ s1 = s ∧
      k = { MCmd.blank with kind := .mtrans, a := some sa } ∧ slots = x.slots) ∧
    TileCommand (.mrsum a d) d (fun _ s x s1 k slots => ∃ sa, kget x.slots a.toNat = some sa ∧ s1 = s ∧
      k = { MCmd.blank with kind := .mrsum, a := some sa } ∧ slots = x.slots) ∧
    TileCommand (.mperm b a d) d (fun c s x s1 k slots => ∃ sa s0 v, kget x.slots a.toNat = some sa ∧
      s.readAligned (.warp c) (c.rd64 b.toNat 0).toNat 128 128 = (s0, .ok v) ∧ s1 = s0.dropAnswers c ∧
      k = { MCmd.blank with kind := .mperm, a := some sa, perm := (bytesLE 128 v).map (·.toNat) } ∧ slots = x.slots) ∧
    TileCommand (.mzero d) d (fun _ s x s1 k slots => s1 = s ∧ k = { MCmd.blank with kind := .mzero } ∧ slots = x.slots) ∧
    TileCommand (.mpost b a d) d (fun c s x s1 k slots => wordForm (c.rd64 a.toNat 0).toNat = true ∧
      s.wordCheck c.p c.p.places .atomic (c.rd64 a.toNat 0).toNat = (s1, none) ∧
      k = { MCmd.blank with
        kind := .mpost, addr := (c.rd64 a.toNat 0).toNat, cnt := (c.rd b.toNat 0).toNat,
        lev := c.w.regLevel (c.w.wbase + b.toNat) } ∧ slots = x.slots) ∧
    TileCommand (.mdrain a d) d (fun c s x s1 k slots => ∃ s0 s2 y, s.readDrain (.warp c) (c.rd64 a.toNat 0).toNat = (s0, .ok y) ∧
      s0.wordChecks c.p c.p.places [(.atomic, y.absmax), (.atomic, y.done)] = (s2, .ok ()) ∧ s1 = s2.dropAnswers c ∧
      k = { MCmd.blank with
        kind := .mdrain, out := y.out, trow := y.trow, tcol := y.tcol, scale := y.scale, amax := y.amax, scope := y.scope,
        zero := y.zero, absmax := y.absmax, addr := y.done, cnt := y.count } ∧ slots = x.slots) ∧
    (∀ (sl : BitVec 7) s c x s1 y, Issues (.mslot b a sl) s c → kget s.blocks c.p.blk = some x →
      (s.setWarp c.u c.w).readTensor (.warp c) .slot (c.rd64 a.toNat 0).toNat = (s1, .ok y) →
      ∃ t, exec (.mslot b a sl) s = .next t ∧ UnitPasses s1 t c ∧
        let slot : Slot := ⟨y, (c.rd b.toNat 0).toNat % 65536, (c.rd b.toNat 0).toNat / 65536⟩
        kget t.blocks c.p.blk = some { x with slots := kput x.slots sl.toNat slot }) ∧
    (∀ s c x, Issues (.vcnt b a) s c → kget s.blocks c.p.blk = some x →
      let n (r : Nat) := (c.rd r 0).toNat
      let k := if c.px.cv then n c.px.c else 128
      (1 ≤ n a.toNat ∧ n a.toNat ≤ 128 ∧ 1 ≤ n b.toNat ∧ n b.toNat ≤ 128 ∧ 1 ≤ k ∧ k ≤ 128 → ∃ t, exec (.vcnt b a) s = .next t ∧
        UnitPasses s t c ∧ kget t.blocks c.p.blk = some { x with vm := n a.toNat, vn := n b.toNat, vk := k }) ∧
      (¬(1 ≤ n a.toNat ∧ n a.toNat ≤ 128 ∧ 1 ≤ n b.toNat ∧ n b.toNat ≤ 128 ∧ 1 ≤ k ∧ k ≤ 128) → c.lr.trapentry ≠ 0 → c.w.hlanes = 0 →
        ∃ t, exec (.vcnt b a) s = .next t ∧ Traps s t c c.is.mask 0 0x01 c.is.word.toNat c.is.pc 0)) ∧
    (∀ s c, Issues .mwait s c → (s.postedDone c.u = true → ∃ t, exec .mwait s = .next t ∧ Passes s t c c.is.mask) ∧
      (s.postedDone c.u = false → ∃ t, exec .mwait s = .next t ∧ Waits s t c c.m 0 .mwait)) ∧
    (∀ s c x, Issues (.ppoint a) s c → kget s.blocks c.p.blk = some x →
      (x.preempt = false → s.sess c.p.part < 2 → ∃ t, exec (.ppoint a) s = .next t ∧ Passes s t c c.is.mask) ∧
      (x.preempt = true ∨ 2 ≤ s.sess c.p.part → ∃ t, exec (.ppoint a) s = .next t ∧ Waits s t c c.m 0 (.ppoint ((c.rd a.toNat 0).toNat % 65536))))

/-! ### The whole steps of other agents -/

/-- R30, R32, R204, R217, R239, R244, R268, R304, R305: the steps of a unit that are no instruction. The fairness turn goes to the ready
entry that has waited longest, the lower PC on a tie; a warp whose entries all wait at `join` releases the lowest; a phase wait ends
once the word's phase has flipped, for all lanes that wait for the word there, and acquires; a sleep ends when its time has passed; a store fault, an overrun and a pass fault trap
at the next instruction boundary. Each changes its unit alone. -/
def Obligations.UnitEvents : Prop :=
  (∀ s u w e, kget s.warps u = some w → s.atBoundary u = true → w.turn = none → 64 ≤ w.fair → e ∈ w.frontier → e.isReady = true →
    (∀ x ∈ w.frontier, x.isReady = true → x ≠ e → e.stamp < x.stamp ∨ (e.stamp = x.stamp ∧ e.pc.toNat < x.pc.toNat)) →
    ∃ t w', exec (.fairnessTurn u) s = .next t ∧ OnlyUnit s t u ∧ kget t.warps u = some w' ∧ Kept w w' ∧ w'.frontier = w.frontier ∧
      w'.turn = some e.mask.toNat) ∧
  (∀ s u w j, kget s.warps u = some w → 2 ≤ w.frontier.length → (∀ e ∈ w.frontier, e.st = .waiting .join) → j ∈ w.frontier →
    (∀ e ∈ w.frontier, j.pc.toNat ≤ e.pc.toNat) →
    ∃ t w', exec (.joinDeadlockRelease u) s = .next t ∧ OnlyUnit s t u ∧ kget t.warps u = some w' ∧ Kept w w' ∧
      Woken w w' (fun e => e.pc = j.pc)) ∧
  (∀ s u lane w p e a ph scope bs k off, kget s.warps u = some w → s.who u = some p → w.entryOf (laneBit lane) = some e →
    e.st = .waiting (.pbwait a ph scope) → s.checkElem p u lane .load true false 0 (BitVec.ofNat 64 a) 4 = (s, .ok bs) →
    bs.map (·.loc) = (List.range 4).map (fun j => .spad k (off + j)) →
    phaseOf ((List.range 4).map (fun j => s.spadByte k (off + j))) ≠ ph →
    ∃ t w', exec (.pbwaitRelease u lane) s = .next t ∧ OnlyUnit (s.acquire p.view scope) t u ∧ kget t.warps u = some w' ∧ Kept w w' ∧
      ((∀ k, windowAt a ≠ .priv k) → Moved w w' e.mask e.next .ready) ∧
      (∀ k, windowAt a = .priv k → Moved w w' (laneBit lane) e.next .ready)) ∧
  (∀ s u pc w, kget s.warps u = some w →
    ∃ t w', exec (.sleepExpiry u pc) s = .next t ∧ OnlyUnit s t u ∧ kget t.warps u = some w' ∧ Kept w w' ∧
      Woken w w' (fun e => e.pc.toNat = pc ∧ ∃ n, e.st = .waiting (.sleep n) ∧ n ≤ s.timebase)) ∧
  (∀ s u w p lr r e, kget s.warps u = some w → s.atBoundary u = true → s.who u = some p → s.lrOf p.launch = some lr → lr.trapentry ≠ 0 →
    w.hlanes = 0 → r ∈ (s.core p.core).sfq → r.u = u → (∀ x ∈ (s.core p.core).sfq, x.u = u → x ≠ r → r.seq < x.seq) → r.lanes ≠ 0 →
    e ∈ w.frontier → e.isReady = true → e.mask &&& r.lanes = r.lanes → (∀ x ∈ w.frontier, x ≠ e → x.mask &&& r.lanes = 0) →
    ∃ t, exec (.storeFaultDelivery u) s = .next t ∧
      BoundaryTrap (s.modCore p.core (fun c => { c with sfq := c.sfq.filter (fun x => decide (x ≠ r)) })) t u lr w r.lanes 0x20 r.cause
        e.pc r.va (some r.pc.toNat)) ∧
  (∀ s u w p lr e, kget s.warps u = some w → s.atBoundary u = true → s.who u = some p → s.lrOf p.launch = some lr → lr.trapentry ≠ 0 →
    w.hlanes = 0 → w.overrunTrap = true → headOf w.frontier = some e → e.mask ≠ 0 →
    ∃ t, exec (.transactionOverrunTrap u) s = .next t ∧
      BoundaryTrap (s.setWarp u { w with overrunTrap := false }) t u lr { w with overrunTrap := false } e.mask 0x15 lr.ofbudget e.pc 0 none) ∧
  (∀ s u w p lr e cause info addr pc rest, kget s.warps u = some w → s.atBoundary u = true → s.who u = some p →
    s.lrOf p.launch = some lr → lr.trapentry ≠ 0 → w.hlanes = 0 → w.passFaults = (cause, info, addr, pc) :: rest →
    headOf w.frontier = some e → e.mask ≠ 0 →
    ∃ t, exec (.passFaultDelivery u) s = .next t ∧
      BoundaryTrap (s.setWarp u { w with passFaults := rest }) t u lr { w with passFaults := rest } e.mask cause info e.pc addr (some pc))

/-- R67, R70, R109, R116, R234 to R239: the steps of the ordering machine. Drain takes the oldest entry of a thread's queue to the places
of its bytes; Propagate sends a line's dirty bytes to the merge stage; Apply writes the write of highest identifier, the latest of
equals, to H and discards the rest, with the other bytes of its unit where it has one (R115); Refresh drops the clean bytes of a copy. A
completed producer leaves an entry Live, or Retained while the registers suffice. A submission joins the batch of the open beat; a beat
that is over is sealed, exchanged after every earlier one, and its transactions enter their queues; the head of its granules is admitted,
and one that runs longer than OFBUDGET overruns. -/
def Obligations.OrderingEvents : Prop :=
  (∀ s u lane w p e rest, kget s.warps u = some w → s.who u = some p → sget [] w.queues lane = e :: rest → e.rel = none →
    (∀ b ∈ e.bytes, b.loc.isSome = true) → w.behind lane e = false → ∃ t, exec (.drain u lane) s = .next t ∧ (∀ a, t.hByte a = s.hByte a) ∧
      (∀ v, v ≠ u → kget t.warps v = kget s.warps v) ∧ kget t.warps u = some { w with queues := sset [] w.queues lane (e.leaves rest) } ∧
      ∀ b, e.firstUnit.1 = [b] →
        (∀ k off x, b.loc = some (.spad k off) → kget s.blocks k = some x → t.ms = s.ms ∧ (∀ v, (t.core v).cv = (s.core v).cv) ∧
          ∀ j o, t.spadByte j o = if j = k ∧ o = off then b.val else s.spadByte j o) ∧
        (∀ pa, b.loc = some (.mem pa) → pa < devTop → b.cls ≠ 4 → (∀ j o, t.spadByte j o = s.spadByte j o) ∧
          if s.classNow p b pa = 3 ∨ (s.classNow p b pa = 1 ∧ homeDie pa ≠ some (viewDie p.view)) then
            t.ms = s.ms ++ [⟨pa, b.val, p.view, p.wid, b.va, some p.launch, false, b.unit⟩]
          else t.ms = s.ms ∧ t.cvByte p.view pa = some b.val ∧
            ∃ l, kget (t.core p.view).cv (pa / 128) = some l ∧ l.dirty.getLsbD (pa % 128) = true)) ∧
  (∀ s v line l, kget (s.core v).cv line = some l → l.dirty ≠ 0 → ∃ t, exec (.propagate v line) s = .next t ∧
    t = { s with ms := t.ms, cores := t.cores } ∧ kget (t.core v).cv line = some { l with dirty := 0, orig := [] } ∧
    (∀ k n, k ≠ v ∨ n ≠ line → kget (t.core k).cv n = kget (s.core k).cv n) ∧
    t.ms = s.ms ++ l.dirtyBytes.map (l.staged v line)) ∧
  (∀ s pa pre w post, s.ms = pre ++ w :: post → w.pa = pa → (∀ x ∈ pre, x.pa = pa → x.wid ≤ w.wid) →
    (∀ x ∈ post, x.pa = pa → x.wid < w.wid) → w.eng = false → w.unit = 0 → (∀ l ∈ s.launches, l.2.lr.measure = false ∧ l.2.lr.record = false) →
    ∃ t, exec (.apply pa) s = .next t ∧ t = { s with ms := t.ms, rc := t.rc, mem := t.mem } ∧
      (∀ a, t.hByte a = if a = pa then w.val else s.hByte a) ∧ t.ms = s.ms.filter (fun x => decide (x.pa ≠ pa)) ∧
      ∀ d, t.rcLine d (pa / 128) = none) ∧
  (∀ s pa pre w post, s.ms = pre ++ w :: post → w.pa = pa → (∀ x ∈ pre, x.pa = pa → x.wid ≤ w.wid) →
    (∀ x ∈ post, x.pa = pa → x.wid < w.wid) → w.unit ≠ 0 → (∀ x ∈ s.ms, x.eng = false) →
    ∃ t, exec (.apply pa) s = .next t ∧ ∀ x, x ∈ t.ms ↔ x ∈ s.ms ∧ ∀ y ∈ s.ms, y.unit = w.unit → y.pa ≠ x.pa) ∧
  (∀ s v line l, kget (s.core v).cv line = some l → l.dirty = 0 → ∃ t, exec (.refresh v line) s = .next t ∧
    t = { s with cores := t.cores } ∧ kget (t.core v).cv line = none ∧
    ∀ k n, k ≠ v ∨ n ≠ line → kget (t.core k).cv n = kget (s.core k).cv n) ∧
  (∀ s v line l, kget (s.core v).cv line = some l → l.dirty ≠ 0 → ∃ t, exec (.refresh v line) s = .next t ∧ t = { s with cores := t.cores } ∧
    (l.present &&& ~~~l.dirty = 0 → t = s) ∧ (l.present &&& ~~~l.dirty ≠ 0 → kget (t.core v).cv line = some { l with present := l.dirty })) ∧
  (∀ s core eid e, kget (s.core core).vs eid = some e → e.pending = true → ∃ t, exec (.producerComplete core eid) s = .next t ∧
    t = { s with cores := t.cores } ∧ (∀ v, (t.core v).seen = (s.core v).seen) ∧ (s.linUsed core eid = true ∨ (e.inLookup = true ∧
      (s.core core).vs.foldl (fun n x => n + x.2.members) 0 + s.quota core ≤ 4096) →
      ∃ x, kget (t.core core).vs eid = some x ∧ x.pending = false ∧ x.key = e.key ∧ x.members = e.members ∧ x.root = e.root)) ∧
  (∀ s h x, kget s.txs h = some x → x.st = .flight → s.txLaunch x = none ∨ (∃ l, s.txLaunch x = some l ∧ l.seatsLogged = false) →
    sget 0 (s.seq x.die).openAt (beatKey x.part (s.txBeat x)) < s.timebase / s.txBeat x * s.txBeat x →
    ∃ t y, exec (.orderSequencerArrival h) s = .next t ∧ t = { s with seqs := t.seqs, txs := t.txs } ∧
      (∀ k, k ≠ h → kget t.txs k = kget s.txs k) ∧ kget t.txs h = some y ∧ y.st = .seated ∧ y.seat = 0 ∧
      y.start = s.timebase / s.txBeat x * s.txBeat x ∧ y.tag = x.tag ∧ y.wr = x.wr ∧ y.rd = x.rd) ∧
  (∀ s h x, s.txs = [(h, x)] → x.st = .seated → s.txLaunch x = none ∨ (∃ l, s.txLaunch x = some l ∧ (l.seatsLogged = false ∨ s.allSubmitted l x.die x.beat = true)) →
    x.start + s.txBeat x ≤ s.timebase → ∃ t, exec (.beatSeal x.die) s = .next t ∧ kget t.txs h = some { x with st := .sealed } ∧
      (∀ v, v ≠ x.u → kget t.warps v = kget s.warps v) ∧ ∀ w, kget s.warps x.u = some w → ∃ w', kget t.warps x.u = some w' ∧
        w'.postmark = some x.postmark ∧ (∀ r l, w'.reg r l = w.reg r l) ∧ (∀ p, w'.pred p = w.pred p) ∧ (∀ l, w'.flagsOf l = w.flagsOf l) ∧
        Woken w w' (fun e => e.st = .waiting .ofinfo)) ∧
  (∀ s beat, (s.spent 67 = true → ∃ t, exec (.batchExchange beat) s = .next t ∧ t = s) ∧
    (s.spent 67 = false → ∃ t, exec (.batchExchange beat) s = .next t ∧ t = { s with txs := t.txs, fleet := { s.fleet with used := t.fleet.used } } ∧
      ∀ h x, kget s.txs h = some x →
        let goes := x.st = .sealed ∧ x.start = beat ∧ (∀ d, d < 4 → s.sealable d x = true) ∧
          ∀ y ∈ s.txs, y.2.part = x.part → ¬(y.2.st = .seated ∧ y.2.start ≤ beat) ∧ ¬(y.2.st = .sealed ∧ y.2.start < beat)
        (goes → kget t.txs h = some { x with st := .queued }) ∧ (¬goes → kget t.txs h = some x))) ∧
  (∀ s h x w p, kget s.txs h = some x → x.st = .queued → (∀ y ∈ s.txs, y.2.inQueues = true → y.2.before x = false) →
    x.wrP.length ≤ 64 → kget s.warps x.u = some w → s.who x.u = some p →
    ∃ t w', exec (.transactionAdmission h) s = .next t ∧ kget t.txs h = some { x with st := .admitted, since := s.timebase } ∧
      (∀ k, k ≠ h → kget t.txs k = kget s.txs k) ∧ (∀ a, t.hByte a = s.hByte a) ∧ (∀ v, v ≠ x.u → kget t.warps v = kget s.warps v) ∧
      kget t.warps x.u = some w' ∧ Kept w w' ∧ Woken w w' (fun e => e.st = .waiting .ofwait)) ∧
  (∀ s h x w lr, kget s.txs h = some x → x.st = .admitted → s.lrOf x.launch = some lr → lr.ofbudget ≠ 0 →
    x.since + lr.ofbudget * 1000 ≤ s.timebase → kget s.warps x.u = some w →
    ∃ t, exec (.transactionOverrun h) s = .next t ∧ t = { s with txs := t.txs, warps := t.warps } ∧
      kget t.txs h = some { x with st := .overrun, trapDue := false } ∧ (∀ k, k ≠ h → kget t.txs k = kget s.txs k) ∧
      (∀ v, v ≠ x.u → kget t.warps v = kget s.warps v) ∧ kget t.warps x.u = some { w with overrunTrap := true })

/-- R107, R118, R277, R296, R300 to R306: the steps between the memory system and the driver. A walk places a posted store's bytes; the
oldest unwritten fault is recorded and its vector raised; a collapse makes a page homed; a shootdown starts and ends; the driver's answers
resume or trap what is parked on a page; a destroyed context exists no longer. -/
def Obligations.PageEvents : Prop :=
  (∀ s u w p x lane va e bs, kget s.warps u = some w → s.who u = some p → w.posted = [x] → x.vas = [(lane, va)] → x.rejected = [] →
    w.queues = [(lane, [e])] → e.walk = some x.id → (State.checkElem { s with rl := [] } p u lane .store x.need false (sget 0 x.level lane)
      (BitVec.ofNat 64 va) x.width).2 = .ok bs → e.bytes ≠ [] →
    ∃ t w', exec (.pageWalk u x.id) s = .next t ∧ (∀ v, v ≠ u → kget t.warps v = kget s.warps v) ∧ kget t.warps u = some w' ∧ w'.posted = [] ∧
      sget [] w'.queues lane = [{ e with walk := none, bytes := e.bytes.map (fun b => (bs.find? (fun y => y.va == b.va)).elim b
        (fun y => { b with loc := some y.loc, cls := y.cls })) }]) ∧
  (∀ s p pre o post, (s.part p).outst = pre ++ o :: post → (∀ x ∈ pre, x.recorded = true) → o.recorded = false → s.preg p .fqSize ≠ 0 →
    s.ownsRange p (s.preg p .fqBase + 32 * s.preg p .fqTail) 32 = true →
    (s.preg p .fqTail + 1) % s.preg p .fqSize ≠ s.preg p .fqHead % s.preg p .fqSize →
    let at_ := s.preg p .fqBase + 32 * s.preg p .fqTail
    ∃ t, exec (.faultRecordWrite p) s = .next t ∧ t = { s with mem := t.mem, regs := t.regs, parts := t.parts, out := t.out } ∧
      (∀ a, t.hByte a = if at_ ≤ a ∧ a < at_ + 32 then (bytesLE 8 (o.va % 2 ^ 57) ++
        bytesLE 8 (o.ctx + o.kind * 2 ^ 16 + o.acc * 2 ^ 20 + o.src * 2 ^ 24 + o.unit * 2 ^ 32) ++ bytesLE 8 (s.part p).faultSeq ++
        bytesLE 8 0).getD (a - at_) 0 else s.hByte a) ∧
      (∀ r, t.reg r = if r = .p p .fqTail then (s.preg p .fqTail + 1) % s.preg p .fqSize else s.reg r) ∧
      (t.part p).faultSeq = (s.part p).faultSeq + 1 ∧ (∀ x ∈ (t.part p).outst, x.ctx = o.ctx → x.page = o.page → x.recorded = true) ∧
      t.out.msix = s.out.msix ++ [(p + 1, s.preg p .fqVec)]) ∧
  (∀ s p ctx page o pte sz at_, o ∈ (s.part p).outst → o.ctx = ctx → o.page = page → o.kind = 3 → o.recorded = true → s.spent 64 = false →
    s.walk p ctx page = .leaf pte sz at_ → pteClass pte = 2 → pte < 2 ^ 64 → (∀ b ∈ s.blocks, b.2.errWait = none) → (s.part p).inb = [] →
    ∃ t, exec (.collapse p ctx page) s = .next t ∧ t.hNat at_ 8 = pte + 2 ^ 5 ∧ (∀ e ∈ t.tlb, e.part = p → e.ctx = ctx → e.pteAt ≠ at_) ∧
      (∀ x ∈ (t.part p).outst, ¬(x.ctx = ctx ∧ x.page = page)) ∧
      ∀ u w q, kget s.warps u = some w → s.who u = some q → q.part = p → q.ctx = ctx → ∃ w', kget t.warps u = some w' ∧ Kept w w' ∧
        Readied w w' (ParkedOn page) (fun e => e.pc)) ∧
  (∀ s p, s.preg p .sdBusy ≠ 1 → ∃ t, exec (.shootdown p) s = .next t ∧ RegsSet s t [(.p p .sdBusy, 1)]) ∧
  (∀ s p, s.preg p .sdBusy = 1 → s.sdQuiet p (s.preg p .sdCtx) = true → ∃ t, exec (.shootdownComplete p) s = .next t ∧
    t.warps = s.warps ∧ t.preg p .sdBusy = 0 ∧ ∀ e ∈ t.tlb, e.part = p → e.ctx = s.preg p .sdCtx → s.preg p .sdAll ≠ 1 ∧
      ¬(e.base < s.preg p .sdVa + s.preg p .sdLen ∧ s.preg p .sdVa < e.base + 2 ^ e.szBits)) ∧
  (∀ s p page ctx o, ctx = s.preg p .fqrCtx → o ∈ (s.part p).outst → o.ctx = ctx → o.page = page →
    (∀ b ∈ s.blocks, b.2.errWait = none) → (s.part p).inb = [] →
    ∃ t, exec (.fqresResume p page) s = .next t ∧ (∀ a, t.hByte a = s.hByte a) ∧ (∀ r, t.reg r = s.reg r) ∧
      (∀ x ∈ (t.part p).outst, ¬(x.ctx = ctx ∧ x.page = page)) ∧
      ∀ u w q, kget s.warps u = some w → s.who u = some q → q.part = p → q.ctx = ctx → ∃ w', kget t.warps u = some w' ∧ Kept w w' ∧
        Readied w w' (ParkedOn page) (fun e => e.pc)) ∧
  (∀ s p page ctx o u w q lr e acc, ctx = s.preg p .fqrCtx → o ∈ (s.part p).outst → o.ctx = ctx → o.page = page →
    (∀ b ∈ s.blocks, b.2.errWait = none) → (s.part p).inb = [] → s.warps = [(u, w)] → s.who u = some q → q.part = p → q.ctx = ctx →
    s.lrOf q.launch = some lr → lr.trapentry ≠ 0 → w.hlanes = 0 → w.ended = false → w.frontier = [e] → e.mask ≠ 0 →
    e.st = .parked (.driver page acc) →
    ∃ t w', exec (.fqresReject p page) s = .next t ∧ (∀ a, t.hByte a = s.hByte a) ∧ (∀ x ∈ (t.part p).outst, ¬(x.ctx = ctx ∧ x.page = page)) ∧
      kget t.warps u = some w' ∧ TrapTaken w w' 0x11 (if acc = 1 ∨ acc = 3 then 1 else if acc = 2 then 2 else 0) e.pc e.next.toNat e.mask ∧
      (∀ r l, w'.reg r l = w.reg r l) ∧ Moved w w' e.mask (BitVec.ofNat 64 lr.trapentry) .ready) ∧
  (∀ s p ctx, ctx < s.preg p .ctxCount → ∃ t, exec (.contextDestroy p ctx) s = .next t ∧ t.ctxExists p ctx = false ∧
    (∀ a, a < s.preg p .ctxTab + 64 * ctx ∨ s.preg p .ctxTab + 64 * ctx + 8 ≤ a → t.hByte a = s.hByte a) ∧ (∀ r, t.reg r = s.reg r) ∧
    (∀ x ∈ t.txs, ¬(x.2.part = p ∧ x.2.ctx = ctx)) ∧ (∀ a ∈ (t.part p).allocs, a.2.ctx ≠ ctx))

/-- R109, R121, R226 to R230: the steps of a block-transfer engine. It starts its oldest command; the scout translates the pages of an
element; an element is read and, converted, written; at the end of a copy or a collective its
ranges leave the tables and only then its words are written. -/
def Obligations.EngineEvents : Prop :=
  (∀ s eng c r, (s.engine eng).run = none → (s.engine eng).queue = c :: r → s.sess c.part < 4 → s.power.halted = false →
    ∃ t, exec (.engineCommandStart eng) s = .next t ∧ t = { s with engines := t.engines } ∧
      t.engine eng = { s.engine eng with run := some { c with since := s.timebase }, queue := r } ∧ ∀ f, f ≠ eng → t.engine f = s.engine f) ∧
  (∀ s eng k e c s1, s.running eng = some (e, c) → c.coll = false → c.stop = none → k < c.elems → (c.srcAt k).isSome = true → k ∉ c.wrote →
    (∀ j < k, c.scoutedTo j = true) → c.ahead k ≤ c.scout → ScoutPasses eng c (c.touches k) s s1 →
    ∃ t c', exec (.scout eng k) s = .next t ∧ RunIs s1 t eng c' ∧ (∀ g, g ∈ c'.scouted ↔ g ∈ c.scouted ∨ g ∈ c.pagesAt k) ∧
      c' = { c with scouted := c'.scouted, wrote := if c.mode = 2 then c.wrote ++ [k] else c.wrote }) ∧
  (∀ s eng k e c x, s.running eng = some (e, c) → c.coll = false → c.stop = none → k < c.elems → kget c.rd k = none → c.scoutedTo k = true →
    c.srcAt k = some x → c.src.inBounds x = false → ∃ t, exec (.engineRead eng k) s = .next t ∧ RunIs s t eng { c with rd := kput c.rd k (0, 0) }) ∧
  (∀ s eng k e c x s1 bs, s.running eng = some (e, c) → c.coll = false → c.stop = none → k < c.elems → kget c.rd k = none → c.scoutedTo k = true →
    c.srcAt k = some x → c.src.inBounds x = true → isOutside bs = false →
    s.unitCheckRej c.rejected [.engine eng] (s.cmdWho eng c) 0x11 .load (c.src.addr x) (fmtSize c.src.fmt) = (s1, .ok bs) →
    ∃ t, exec (.engineRead eng k) s = .next t ∧ RunIs s1 t eng { c with rd := kput c.rd k (natLE (engineBytes s1 bs), bs.foldl (fun m b => max m b.lev) 0) }) ∧
  (∀ s eng j e c s1 bs, s.running eng = some (e, c) → c.coll = false → c.stop = none → c.mode = 1 → j < cmdExt c 1 → kget c.idx j = none →
    isOutside bs = false →
    s.unitCheckRej c.rejected [.engine eng] (s.cmdWho eng c) 0x11 .load ((c.gather + 4 * j) % 2 ^ 64) 4 = (s1, .ok bs) →
    ∃ t, exec (.engineRead eng (c.elems + j)) s = .next t ∧ RunIs s1 t eng { c with idx := kput c.idx j (natLE (engineBytes s1 bs)) }) ∧
  (∀ s eng k e c s1 bs, s.running eng = some (e, c) → c.coll = true → c.stop = none → k < c.count → c.sends = true → kget c.rd k = none →
    isOutside bs = false → bs.foldl (fun m b => max m b.lev) 0 ≤ s.preg c.part .peerLevel → s.sess c.part < 2 →
    s.unitCheckRej c.rejected [.engine eng] (s.cmdWho eng c) 0x11 .load ((c.csrc + collBytes c.ckind * k) % 2 ^ 64) (collBytes c.ckind) = (s1, .ok bs) →
    ∃ t, exec (.engineRead eng k) s = .next t ∧
      RunIs { s1 with out := t.out } t eng { c with rd := kput c.rd k (natLE (engineBytes s1 bs), bs.foldl (fun m b => max m b.lev) 0) } ∧
      t.out.peers.map (fun x => (x.1, x.2.1)) = s1.out.peers.map (fun x => (x.1, x.2.1)) ++
        ((List.range c.nranks).filter (· != c.myrank)).map (fun q => (c.group.getD q 0, k))) ∧
  (∀ s eng k e c v lev, s.running eng = some (e, c) → c.coll = false → c.stop = none → k < c.elems → c.mode ≠ 2 → k ∉ c.wrote → c.scoutedTo k = true →
    kget c.rd k = some (v, lev) → c.dst.inBounds (c.dstAt k) = false →
    ∃ t, exec (.engineWrite eng k) s = .next t ∧ RunIs s t eng { c with wrote := c.wrote ++ [k] }) ∧
  (∀ s eng k e c v lev s1 bs, s.running eng = some (e, c) → c.coll = false → c.stop = none → k < c.elems → c.mode ≠ 2 → k ∉ c.wrote →
    c.scoutedTo k = true → kget c.rd k = some (v, lev) → c.dst.inBounds (c.dstAt k) = true → isOutside bs = false → (∀ b ∈ bs, lev ≤ b.lev) →
    (∀ b ∈ bs, ∃ pa, b.loc = .mem pa) →
    s.unitCheckRej c.rejected [.engine eng] (s.cmdWho eng c) 0x11 .store (c.dst.addr (c.dstAt k)) (fmtSize c.dst.fmt) = (s1, .ok bs) →
    ∃ t, exec (.engineWrite eng k) s = .next t ∧ RunIs { s1 with ms := t.ms } t eng { c with wrote := c.wrote ++ [k] } ∧
      t.ms = s1.ms ++ s1.stagedBytes (960 + eng) c.launch bs (bytesLE (fmtSize c.dst.fmt) (convertElem c.src.fmt c.dst.fmt v))) ∧
  (∀ s eng k e c v lev s1 bs, s.running eng = some (e, c) → c.coll = true → c.stop = none → k < c.collOut → k ∉ c.wrote →
    (c.ownElem k).bind (kget c.rd) = some (v, lev) → isOutside bs = false → (∀ b ∈ bs, lev ≤ b.lev) → (∀ b ∈ bs, ∃ pa, b.loc = .mem pa) →
    s.unitCheckRej c.rejected [.engine eng] (s.cmdWho eng c) 0x11 .store ((c.cdst + collBytes c.ckind * k) % 2 ^ 64) (collBytes c.ckind) = (s1, .ok bs) →
    ∃ t, exec (.engineWrite eng k) s = .next t ∧ RunIs { s1 with ms := t.ms } t eng { c with wrote := c.wrote ++ [k] } ∧
      t.ms = s1.ms ++ s1.stagedBytes (960 + eng) c.launch bs (bytesLE (collBytes c.ckind) v)) ∧
  (∀ s eng port k vals e c s1 bs v own, s.running eng = some (e, c) → c.coll = true → c.stop = none → k < c.collOut → k ∉ c.wrote →
    c.ckind ≠ 2 → c.ckind ≠ 5 → c.ownElem k = none → port < 20 → port ∉ s.fabric.down → (s.part c.part).allocs = [] →
    own = (if c.ckind = 3 ∨ c.ckind = 4 then c.myrank * (c.count / max c.nranks 1) + k else k) → kget c.rd own = some (v, s.preg c.part .peerLevel) →
    isOutside bs = false → (∀ b ∈ bs, s.preg c.part .peerLevel ≤ b.lev) → (∀ b ∈ bs, ∃ pa, b.loc = .mem pa) →
    s.unitCheckRej c.rejected [.engine eng] (s.cmdWho eng c) 0x11 .store ((c.cdst + collBytes c.ckind * k) % 2 ^ 64) (collBytes c.ckind) = (s1, .ok bs) →
    ∃ t, exec (.collectiveInboundWrite eng port k vals) s = .next t ∧ RunIs { s1 with ms := t.ms } t eng { c with wrote := c.wrote ++ [k] } ∧
      t.ms = s1.ms ++ s1.stagedBytes (1024 + port) c.launch bs (bytesLE (collBytes c.ckind) (collSum c.ckind
        ((List.range c.nranks).map (fun q => if q = c.myrank then v else vals.getD q 0 % 2 ^ (8 * collBytes c.ckind)))))) ∧
  (∀ s eng e c s1, s.running eng = some (e, c) → c.coll = false → c.stop = none → c.firstLeft = none → s.unitApplied c.id (960 + eng) = true →
    (s.unlock c.id).arriveAt c.rejected [.engine eng] ((s.unlock c.id).cmdWho eng c) c.id c.done c.doneCount = (s1, none) → NoWaiter s1 c →
    ∃ t, exec (.copyCompletion eng) s = .next t ∧ CmdEnded s1 t eng c 1 0 0 0) ∧
  (∀ s eng e c s1 cause addr info, s.running eng = some (e, c) → c.coll = false → c.stop = some (cause, addr, info) →
    s.unitApplied c.id (960 + eng) = true →
    (s.unlock c.id).arriveAt c.rejected [.engine eng] ((s.unlock c.id).cmdWho eng c) c.id c.done c.doneCount = (s1, none) → NoWaiter s1 c →
    ∃ t, exec (.copyCompletion eng) s = .next t ∧ CmdEnded s1 t eng c 2 cause addr info) ∧
  (∀ s eng cause e c s1 s2 st, s.running eng = some (e, c) → c.coll = true → c.stop = none → s.unitApplied c.id (960 + eng) = true →
    (∀ p < 20, ∀ w ∈ s.ms, w.eng = true → w.wid ≠ 1024 + p) →
    (cause = 0 ∧ c.collDone = true ∧ st = 1) ∨ (cause = 0x17 ∧ st = 2) ∨ (cause = 0x18 ∧ c.since + s.dreg .fTimeout ≤ s.timebase ∧ st = 2) →
    (s.unlock c.id).writeStatus eng c (st + cause * 256) = (s1, none) →
    s1.arriveAt c.rejected [.engine eng] (s1.cmdWho eng c) c.id c.done c.doneCount = (s2, none) → NoWaiter s2 c →
    ∃ t, exec (.collectiveCompletion eng cause) s = .next t ∧ CmdEnded s2 t eng c st cause 0 0)

/-- R99 to R101, R241 to R249, R287: the steps of the matrix engines. -/
def Obligations.MatrixEvents : Prop :=
  (∀ s cl k, (∀ x ∈ (s.meng cl).table, x.granted = false) → Grantable s cl k →
    (∀ x, Grantable s cl x → x ≠ k → x.prio < k.prio ∨ (x.prio = k.prio ∧ k.id < x.id)) → (∀ x ∈ (s.meng cl).table, x.prio ≤ 7 ∧ x.id < 2 ^ 64) →
    (∀ x ∈ (s.meng cl).table, x.id = k.id → x = k) →
    ∃ t, exec (.passGrant cl) s = .next t ∧ TableIs { s with launches := t.launches } t cl { k with granted := true }) ∧
  (∀ s cl cmd which k c p va n s1 bs, s.mcmd cl cmd = some c → c.needs which k = some (va, n) → s.who c.u = some p → c.paused = none →
    c.kind.isPass = true → s.sess p.part < 3 → isOutside bs = false →
    s.unitCheckRej c.rejected [.fetch cl] p 0x14 .load va n = (s1, .ok bs) →
    ∃ t, exec (.operandFetch cl cmd which k) s = .next t ∧
      TableIs s1 t cl (c.putFetch which k (natLE (engineBytes s1 bs)) (bs.foldl (fun m b => max m b.lev) 0))) ∧
  (∀ s cl sb c b x, (s.meng cl).table.find? (·.granted) = some c → kget s.blocks c.blk = some b → kget b.tiles c.tile = some x → x.spilled = false →
    c.paused = none → sb < 256 → sb ∉ c.sub → c.fetched = true → c.m ≤ 128 → c.n ≤ 128 →
    ∃ t b' y, exec (.chunkApplied cl sb) s = .next t ∧ kget t.blocks c.blk = some b' ∧ kget b'.tiles c.tile = some y ∧
      (∀ k, k ≠ c.tile → kget b'.tiles k = kget b.tiles k) ∧
      (∀ i j, i < 128 → j < 128 → y.at_ i j = if i / 8 = sb / 16 ∧ j / 8 = sb % 16 ∧ (c.kind = .mzero ∨ (i < c.m ∧ j < c.n))
        then (if c.kind = .mzero then 0 else c.chunk i j (x.at_ i j)) else x.at_ i j) ∧
      ((∃ k, k < 256 ∧ k ≠ sb ∧ k ∉ c.sub ∧ c.cells k ≠ []) → TableIs { s with blocks := t.blocks } t cl { c with sub := sb :: c.sub }) ∧
      ((∀ k, k < 256 → k ≠ sb → k ∉ c.sub → c.cells k = []) → MFinished { s with blocks := t.blocks } t cl c)) ∧
  (∀ s cl cmd c p s1, s.mcmd cl cmd = some c → s.who c.u = some p → c.kind = .mpost → c.paused = none → s.earlier cl c = [] →
    s.arriveLev c.rejected [.cluster cl] p c.id c.addr c.cnt c.lev = (s1, none) →
    ∃ t, exec (.mpostArrival cl cmd) s = .next t ∧ MFinished s1 t cl c) ∧
  (∀ s cl cmd c p x s1 os, s.mcmd cl cmd = some c → s.who c.u = some p → s.cmdTile c = some x → c.kind = .mdrain → c.paused = none →
    s.earlier cl c = [] → s.sess p.part < 3 → c.sub = [] → s.drainLevel cl p c x.level = none →
    s.drainChecks cl p c c.outs = (s1, os, none) → (∀ o ∈ os, isOutside o.2.2 = false ∧ ∀ b ∈ o.2.2, ∃ pa, b.loc = .mem pa) →
    ∃ t c', exec (.tileDrain cl cmd) s = .next t ∧ TableIs { s1 with ms := t.ms } t cl c' ∧ c' = { c with sub := [1], fa := c'.fa } ∧
      t.ms = s1.ms ++ os.flatMap (fun o => s1.stagedBytes (768 + cl) ((kget s.blocks c.blk).map (·.launch)) o.2.2
        (bytesLE (fmtSize c.out.fmt) (c.drained (x.at_ o.1 o.2.1))))) ∧
  (∀ s cl cmd c p x, s.mcmd cl cmd = some c → s.who c.u = some p → s.cmdTile c = some x → c.kind = .mdrain → c.paused = none →
    s.earlier cl c = [] → s.sess p.part < 3 → c.sub ≠ [] → 2 ∉ c.sub → s.unitApplied c.id (768 + cl) = true → c.amax = false →
    ∃ t, exec (.tileDrain cl cmd) s = .next t ∧ TableIs s t cl { c with sub := 2 :: c.sub }) ∧
  (∀ s cl cmd c p x s1 bs, s.mcmd cl cmd = some c → s.who c.u = some p → s.cmdTile c = some x → c.kind = .mdrain → c.paused = none →
    s.earlier cl c = [] → s.sess p.part < 3 → c.sub ≠ [] → 2 ∉ c.sub → s.unitApplied c.id (768 + cl) = true → c.amax = true → c.void = false →
    s.unitCheckRej c.rejected [.cluster cl] p 0x14 .atomic c.absmax 4 = (s1, .ok bs) → isOutside bs = false → (∀ b ∈ bs, x.level ≤ b.lev) →
    ∃ t, exec (.tileDrain cl cmd) s = .next t ∧
      TableIs (s1.rmw p c.u c.scope bs (fun old => max old (sget 0 c.fa 0))).1 t cl { c with sub := 2 :: c.sub }) ∧
  (∀ s cl cmd c p x s1, s.mcmd cl cmd = some c → s.who c.u = some p → s.cmdTile c = some x → c.kind = .mdrain → c.paused = none →
    s.earlier cl c = [] → s.sess p.part < 3 → 1 ∈ c.sub → 2 ∈ c.sub → 3 ∉ c.sub → s.unitApplied c.id (768 + cl) = true → c.void = false →
    let s0 := if c.zero = true then s.modBlock c.blk (fun b => { b with tiles := kmod b.tiles c.tile (fun t => { t with data := [], level := 0 }) }) else s
    s0.arriveAt c.rejected [.cluster cl] p c.id c.addr c.cnt = (s1, none) →
    ∃ t, exec (.tileDrain cl cmd) s = .next t ∧ MFinished s1 t cl c) ∧
  (∀ s cl blk b r n u w f e, (s.accWaiters cl).head? = some (blk, b) → b.reqTiles ≤ s.tilesFree cl → b.accWait = some n → b.tctx = some u →
    b.freeRun n = some f → kget s.warps u = some w → w.frontier = [e] → e.st = .waiting (.acalloc r n) → r < 128 → w.tile = true →
    ∃ t b' w', exec (.acallocGrant cl) s = .next t ∧ t = { s with warps := t.warps, blocks := t.blocks } ∧ kget t.blocks blk = some b' ∧
      b'.accWait = none ∧ (∀ j, j < n → kget b'.tiles (f + j) = some Tile.fresh) ∧
      (∀ k, k < f ∨ f + n ≤ k → kget b'.tiles k = (kget b.tiles k).map (fun x => { x with spilled := false })) ∧
      (∀ v, v ≠ u → kget t.warps v = kget s.warps v) ∧ kget t.warps u = some w' ∧ w'.reg r 0 = BitVec.ofNat 32 f ∧
      (∀ q l, l < 64 → q ≠ r ∨ l ≠ 0 → w'.reg q l = w.reg q l) ∧ Woken w w' (fun x => x = e)) ∧
  (∀ s cl blk b b0 k x, (s.accWaiters cl).head? = some b0 → s.tilesFree cl < b0.2.reqTiles → (∀ z ∈ s.blocks, z.2.core / 4 = cl →
      0 < s.tilesHeld z.2 → z.2.accWait.isSome = true) → ((s.accWaiters cl).filter (fun z => decide (0 < s.tilesHeld z.2))).getLast? = some (blk, b) →
    b.tiles = [(k, x)] → (x.data.map (·.1)).Nodup →
    ∃ t, ∃ s1 : State, exec (.accumulatorSpill cl) s = .next t ∧ s1 = { s with mem := s1.mem, blocks := kput s.blocks blk { b with tiles := [(k, { x with spilled := true })] } } ∧
      (∀ e, e < 16384 → s1.hNat (b.saveBase + 8 * e) 8 = (sget 0 x.data e).toNat) ∧
      ((∀ a ∈ x.data, a.1 < 16384) → ∀ a, a < b.saveBase ∨ b.saveBase + 131072 ≤ a → s1.hByte a = s.hByte a) ∧
      t = ((s1.accWaiters cl).find? (fun y => decide (y.2.reqTiles ≤ s1.tilesFree cl) &&
        (y.2.spilledTiles == 0 || (s1.accWaiters cl).head?.any (fun h => h.1 == y.1)))).elim s1 (fun y => s1.grantAcc y.1 y.2)) ∧
  (∀ s cl cmd c b, s.mcmd cl cmd = some c → c.kind = .acfree → kget s.blocks c.blk = some b →
    (∀ x ∈ (s.meng cl).table, x.blk = c.blk → x.id < c.id → x.tile ∉ c.tiles) →
    ∃ t b', exec (.acfreeEffect cl cmd) s = .next t ∧ t = { s with blocks := t.blocks, mengs := t.mengs } ∧ kget t.blocks c.blk = some b' ∧
      (∀ v, v ≠ c.blk → kget t.blocks v = kget s.blocks v) ∧ (∀ k, kget b'.tiles k = if k ∈ c.tiles then none else kget b.tiles k) ∧
      (t.meng cl).table = (s.meng cl).table.filter (fun x => x.id != cmd) ∧ ∀ d, d ≠ cl → t.meng d = s.meng d) ∧
  (∀ s blk b l, kget s.blocks blk = some b → kget s.launches b.launch = some l → b.preempt = true → s.sess l.part ≠ 2 →
    s.sess l.part = 3 ∨ b.preemptAt + 2000000 ≤ s.timebase → (∀ e ∈ s.mengs, ∀ k ∈ e.2.table, k.blk = blk → k.granted = false) →
    ∃ t, exec (.preemptionTimeout blk) s = .next t ∧ t = s.setBlock blk { b with tileStop := true })

/-- R224, R263, R264, R272, R273, R276 to R286, R288, R293: queues, the graph walker, the admission and retirement of blocks, and the end
of launches. A signal word that leaves the device must be there before its launch is gone; a sub-graph is over once every node it has
reached has completed. -/
def Obligations.DispatchEvents : Prop :=
  (∀ s fn q (node : BitVec 64), s.seesQueue fn q = true → (sget [] s.rings q).length < 1024 → s.qreg q .en = 1 →
    ∃ t, exec (.qpost fn q 8 node) s = .next t ∧ NodeEntered s t q node.toNat true) ∧
  (∀ s fn q (node : BitVec 64), s.seesQueue fn q = true → 1024 ≤ (sget [] s.rings q).length ∨ s.qreg q .en ≠ 1 →
    ∃ t, exec (.qpost fn q 8 node) s = .next t ∧ RegsSet s t [(.q q .ovf, 1)]) ∧
  (∀ s fn q, s.seesQueue fn q = true → ∃ t, exec (.queueResume fn q) s = .next t ∧ RegsSet s t [(.q q .halt, 0), (.q q .qerr, 0), (.q q .qerrNode, 0)]) ∧
  (∀ s fn q, s.seesQueue fn q = true → ∃ t, exec (.flush fn q) s = .next t ∧ t = { s with nodes := t.nodes, rings := t.rings } ∧
    sget [] t.rings q = [] ∧ (∀ r, r ≠ q → sget [] t.rings r = sget [] s.rings r) ∧
    ∀ x, x ∈ t.nodes ↔ x ∈ s.nodes ∧ x.1 ∉ sget [] s.rings q) ∧
  (∀ s fn q lid l nid n, s.seesQueue fn q = true → s.launches = [(lid, l)] → l.diverged = true → l.aborted = false → l.node = some nid →
    kget s.nodes nid = some n → n.q = q → l.saved = [] →
    let ends (s1 : State) : State := ({ s1 with txs := s1.txs.filter (fun x => x.2.launch != lid || (kget s1.warps x.2.u).isSome) }).modLaunch lid
      (fun l => { l with aborted := true, saved := [] })
    ((∀ b ∈ s.blocks, b.2.launch ≠ lid) → ∃ t, exec (.abort fn q) s = .next t ∧ t = ends s) ∧
    (∀ blk b u r, s.blocks = [(blk, b)] → b.launch = lid → b.warps = u :: r →
      ∃ t, exec (.abort fn q) s = .next t ∧ t = ends (s.bexit u 0xFFFFE))) ∧
  (∀ s p id n0 v n v2 s1, Dispatches s p id n0 v n → nodeOk v = true → n.kind = 0 →
    s.readAligned (.walker (s.nodePart n) (s.nodeCtx n)) n.target 256 256 = (s1, .ok v2) →
    let t0 := s.leaveRing id n
    (t0.refused (s.nodePart n) (s.nodeCtx n) v2 = true → ∃ t, exec (.nodeDispatch p) s = .next t ∧ t = t0.completeNode id n 3) ∧
    (t0.refused (s.nodePart n) (s.nodeCtx n) v2 = false → (LaunchRec.of v2).measure = false → (LaunchRec.of v2).record = false →
      ∃ t, exec (.nodeDispatch p) s = .next t ∧ t = { t0 with nextUid := s.nextUid + 1, launches := t.launches, parts := t.parts } ∧
        kget t.launches s.nextUid = some { Launch.initial (s.nodePart n) (s.nodeCtx n) n.target (LaunchRec.of v2)
          (s.part (s.nodePart n)).lseq (some id) with beatLen := max (s.preg (s.nodePart n) .beatp * 250) 1, waitFrom := some s.timebase } ∧
        (∀ k, k ≠ s.nextUid → kget t.launches k = kget s.launches k) ∧
        (t.part (s.nodePart n)).lseq = (s.part (s.nodePart n)).lseq + 1)) ∧
  (∀ s p id n0 v n x lock s1 s2 k (coll : Bool), Dispatches s p id n0 v n → nodeOk v = true → n.kind = (if coll then 2 else 1) →
    rdThen (if coll then rdThen (s.readColl (.walker (s.nodePart n) (s.nodeCtx n)) n.target) (fun t x => (t, .ok (x, false)))
      else s.readCopy (.walker (s.nodePart n) (s.nodeCtx n)) n.target) (fun t x =>
        rdThen (t.wordChecks (s.walkWho (s.nodePart n) (s.nodeCtx n)) [] x.1.words) (fun t _ => (t, .ok x))) = (s1, .ok (x, lock)) →
    let w := s.walkWho (s.nodePart n) (s.nodeCtx n)
    s.startCmd (w.core / 192) { x with part := s.nodePart n, ctx := s.nodeCtx n, core := w.core, node := some id } lock = some (s2, k) →
    ∃ t, exec (.nodeDispatch p) s = .next t ∧ t = s2.leaveRing id n) ∧
  (∀ s p id n0 v n s1, Dispatches s p id n0 v n → nodeOk v = true → n.kind = 3 → n.target % 4 = 0 →
    (s.leaveRing id n).releaseWrite p (s.nodeCtx n0) id n.target (bytesLE 4 n.value) = (s1, none) →
    ∃ t, exec (.nodeDispatch p) s = .next t ∧ t = s1) ∧
  (∀ s p id n0 v n, Dispatches s p id n0 v n → nodeOk v = true → n.kind = 4 → bits n.target 11 0 < 2048 → s.reg (.ntfBase (p + 1)) = 0 →
    ∃ t, exec (.nodeDispatch p) s = .next t ∧ t = { s with nodes := t.nodes, rings := t.rings, out := t.out } ∧
      t.out.msix = s.out.msix ++ [(p + 1, bits n.target 11 0)] ∧ kget t.nodes id = some { n with finished := true } ∧
      ∀ k, k ≠ id → kget t.nodes k = kget s.nodes k) ∧
  (∀ s p id n0 v n, Dispatches s p id n0 v n → nodeOk v = true → n.kind = 5 → s.qreg n.queue .part = p →
    ∃ t, exec (.nodeDispatch p) s = .next t ∧ t = State.postNode { s.leaveRing id n with
      nodes := kput (s.leaveRing id n).nodes id { n with reach := [(s.qreg n.queue .ctx, n.target)] } } n.queue n.target false) ∧
  (∀ s p id n0 v n, Dispatches s p id n0 v n → nodeOk v = false →
    ∃ t, exec (.nodeDispatch p) s = .next t ∧ t = (s.leaveRing id n).completeNode id n 2) ∧
  (∀ s n x, kget s.nodes n = some x → x.finished = true → x.faulted = false → x.ranges.getD [] = [] → s.succWait x = none →
    (s.succs (s.nodePart x) (s.nodeCtx x) 65536 x.addr = [] →
      ∃ t, exec (.nodeCompletion n) s = .next t ∧ t = { s with nodes := t.nodes } ∧ kget t.nodes n = none ∧ ∀ k y, k ≠ n → kget s.nodes k = some y →
        kget t.nodes k = some (if s.nodePart y = s.nodePart x then y.reached (s.nodeCtx x, x.addr) [] else y)) ∧
    (∀ a s1 bs s2, s.succs (s.nodePart x) (s.nodeCtx x) 65536 x.addr = [a] → a % 128 = 0 → a < 2 ^ 57 →
      s.unitCheck [] (s.walkWho (s.nodePart x) (s.nodeCtx x)) 0x11 .atomic (a + 4) 4 = (s1, .ok bs) →
      s1.rmw (s.walkWho (s.nodePart x) (s.nodeCtx x)) 0 4 bs (fun v => if v = 0 then 0 else v - 1) = (s2, 1, 0) → s2.qreg x.queue .part = s.nodePart x →
      s2.qreg x.queue .en = 1 → (sget [] s2.rings x.queue).length < 1024 →
      ∃ t t1, exec (.nodeCompletion n) s = .next t ∧ NodeEntered s2 t1 x.queue a false ∧
        t = State.reachDone { t1 with nodes := kdel t1.nodes n } (s.nodePart x) (s.nodeCtx x, x.addr) [(t1.qreg x.queue .ctx, a)])) ∧
  (∀ (y : Node) k next, y.running = true → k ∈ y.reach →
    (∀ j, j ∈ (y.reached k next).reach ↔ (j ∈ y.reach ∨ j ∈ next) ∧ j ≠ k) ∧ ((∀ j, j ∈ y.reach ∨ j ∈ next → j = k) → (y.reached k next).finished = true) ∧
    (∀ j, j ∈ y.reach ∨ j ∈ next → j ≠ k → (y.reached k next).finished = y.finished)) ∧
  (∀ s n x, kget s.nodes n = some x → x.finished = true → x.faulted = true → x.ranges.getD [] = [] → x.stopCode ≠ 0 →
    ∃ t, exec (.nodeCompletion n) s = .next t ∧
      t = { s.haltQueue x.q x.stopCode x.addr (s.nodePart x) with nodes := t.nodes } ∧ kget t.nodes n = none ∧
      t.reg (.q x.q .halt) = 1 ∧ (s.reg (.q x.q .qerr) = 0 → t.reg (.q x.q .qerr) = x.stopCode ∧ t.reg (.q x.q .qerrNode) = x.addr)) ∧
  (∀ s l x c s1 a, kget s.launches l = some x → s.offer l x = some [c] → (∀ h ∈ s.launches, h.2.part = x.part → h.2.ahead x = true → s.offer h.1 h.2 = none) →
    s.takeArea l x.nextBlk = some (s1, a) → s1.nextUid = s.nextUid → s1.warps = s.warps → s1.blocks = s.blocks →
    (∃ y, kget s1.launches l = some y ∧ y.lr = x.lr ∧ y.nextBlk = x.nextBlk) →
    ∃ t, exec (.blockAdmission l) s = .next t ∧ Admitted s t l x c a ∧ ∃ y, kget t.launches l = some y ∧ y.nextBlk = x.nextBlk + 1) ∧
  (∀ s l core x t0, kget s.launches l = some x → s.admissible x = true → x.reserved = none → x.waitFrom = some t0 → t0 + 1000000 ≤ s.timebase →
    core ∈ s.coresOf x.part → s.fits1 x core = true →
    ∃ t, exec (.admissionReservation l core) s = .next t ∧ t = s.setLaunch l { x with reserved := some core }) ∧
  (∀ s blk b l, kget s.blocks blk = some b → s.blockOver blk b = true → kget s.launches b.launch = some l → l.lr.record = false →
    l.lr.replay = false → l.lr.measure = false → l.diverged = false →
    ∃ t l', exec (.blockRetirement blk) s = .next t ∧
      t = { s with warps := t.warps, blocks := t.blocks, txs := t.txs, mengs := t.mengs, cores := t.cores, launches := t.launches } ∧ kget t.blocks blk = none ∧ (∀ v, v ≠ blk → kget t.blocks v = kget s.blocks v) ∧
      (∀ u ∈ b.warps ++ b.tctx.toList, ∀ w, (u, w) ∉ t.warps) ∧ (∀ x ∈ s.warps, x.1 ∉ b.warps ++ b.tctx.toList → x ∈ t.warps) ∧
      kget t.launches b.launch = some l' ∧ l'.retired = l.retired + 1) ∧
  (∀ s l x, kget s.launches l = some x → s.launchOver l x = true →
    (x.sig.isSome = true → ∃ t, exec (.launchEnd l) s = .next t ∧ t = s.launchGone l x) ∧
    (x.sig = none → x.aborted = true → ∃ t, exec (.launchEnd l) s = .next t ∧ t = (s.flushLaunch l).launchGone l x)) ∧
  (∀ s l x, kget s.launches l = some x → s.launchOver l x = true → x.sig = none → x.aborted = false → x.lr.measure = false →
    let s1 := (s.closeAllChunks l).flushLaunch l
    ((x.lr.sigaddr = 0 → ∃ t, exec (.launchEnd l) s = .next t ∧ t = s1.launchGone l x) ∧
    (∀ s2, x.lr.sigaddr ≠ 0 →
      State.releaseWrite { s1 with nextUid := s1.nextUid + 1 } x.part x.ctx s1.nextUid x.lr.sigaddr (bytesLE 4 x.lr.sigval) = (s2, none) →
      ((∀ e ∈ s2.ext, e.2.u ≠ s1.nextUid) → ∃ t, exec (.launchEnd l) s = .next t ∧ t = s2.launchGone l x) ∧
      ((∃ e ∈ s2.ext, e.2.u = s1.nextUid) → ∃ t, exec (.launchEnd l) s = .next t ∧ t = { s2 with ext := t.ext, launches := t.launches } ∧
        kget t.launches l = (kget s2.launches l).map (fun y => { y with sig := some s1.nextUid }))))) ∧
  (∀ (s : State) l x, kget (s.launchGone l x).launches l = none ∧ (∀ k, k ≠ l → kget (s.launchGone l x).launches k = kget s.launches k) ∧
    ∀ n y, x.node = some n → kget s.nodes n = some y → ∃ z, kget (s.launchGone l x).nodes n = some z ∧ z.finished = true ∧ z.faulted = x.aborted) ∧
  (∀ s die phys a b, (s.servedBy die phys).filter (fun l => !s.fleet.inactive.contains l) = [a] →
    (s.servedBy die phys).filter (fun l => s.fleet.inactive.contains l) = [b] → s.dreg (.lmShared a) = 1 →
    sget 0 s.fleet.sliceAt (192 * die + phys) + 100000 ≤ s.timebase → (∀ w ∈ s.warpsOn a, w.2.xw = none) →
    ∃ t, exec (.latticeTimeslice die phys) s = .next t ∧ t = { s with cores := t.cores, fleet := t.fleet } ∧
      (∀ k, k ∈ t.fleet.inactive ↔ k = a ∨ (k ∈ s.fleet.inactive ∧ k ≠ b)) ∧ (t.core a).watches = [] ∧ sget 0 t.fleet.sliceAt (192 * die + phys) = s.timebase) ∧
  (∀ s l u x since die at_ n nd, kget s.launches l = some x → kget x.gates u = some (since, die, at_) → x.lr.measure = false →
    since + 1000000 ≤ s.timebase → x.diverged = false → x.node = some n → kget s.nodes n = some nd →
    ∃ t x', exec (.replayGateTimeout l u) s = .next t ∧ kget t.launches l = some x' ∧ x' = { x with diverged := true } ∧
      t.reg (.q nd.q .halt) = 1 ∧ (s.reg (.q nd.q .qerr) = 0 → t.reg (.q nd.q .qerr) = 6 ∧ t.reg (.q nd.q .qerrNode) = nd.addr)) ∧
  (∀ s l x y, kget s.launches l = some x → x.lr.measure = true → s.launchOver l x = true → s.lastPass x = false → x.aborted = false →
    let s1 := (s.closeAllChunks l).writeCounts l x
    let s2 := (dedup (s1.ms.map (·.pa))).foldl (fun st pa => st.apply pa) s1
    kget s2.launches l = some y →
    ∃ t y', exec (.measurementPass l) s = .next t ∧ kget t.launches l = some y' ∧ y'.pass = y.pass + 1 ∧ y'.nextBlk = 0 ∧ y'.retired = 0 ∧
      y'.lr.replay = true ∧ y'.lr.record = false ∧ y'.captured = y.captured)

/-- R308, R310, R311, R313 to R316: the debug service's commands, pre-emption and restoring. -/
def Obligations.DebugEvents : Prop :=
  (∀ s p, s.preg p .dstate ≠ 1 → ∃ t, exec (.halt p) s = .next t ∧ t = { s with parts := t.parts, regs := t.regs, warps := t.warps } ∧
    t.part p = { s.part p with held := (t.part p).held, running := (t.part p).running } ∧ (∀ n, n ≠ p → t.part n = s.part n) ∧
    (∀ c, c ∈ (t.part p).held ↔ c = s.preg p .dctx ∨ c ∈ (s.part p).held) ∧
    (∀ c, c ∈ (t.part p).running ↔ c ∈ (s.part p).running ∧ c ≠ s.preg p .dctx) ∧
    t.preg p .dstate = 2 ∧ t.preg p .dresult = 0 ∧ t.preg p .dstop = 1 ∧
    (∀ r, r ∉ [Reg.p p .dstate, .p p .dresult, .p p .dstop, .p p .dbpIdx, .p p .dpc] → t.reg r = s.reg r) ∧
    (∀ u, kget t.warps u = (kget s.warps u).map (fun w => if (s.who u).any (fun q => q.part == p && q.ctx == s.preg p .dctx) then
      { w with frontier := w.frontier.map (fun e => { e with bpSkip := true }) } else w)) ∧
    ∀ u w q, q.part = p → q.ctx = s.preg p .dctx → (∀ e ∈ (s.part p).stepping, e.1 ≠ u) → t.mayIssue u w q = false) ∧
  (∀ s p, s.preg p .dstate ≠ 1 → s.preg p .dctx ∈ (s.part p).held → ∃ t, exec (.resume p) s = .next t ∧
    t = { s with parts := t.parts, regs := t.regs } ∧ (∀ n, n ≠ p → t.part n = s.part n) ∧
    t.part p = { s.part p with running := (t.part p).running } ∧
    (∀ c, c ∈ (t.part p).running ↔ c = s.preg p .dctx ∨ c ∈ (s.part p).running) ∧
    ∀ r, t.reg r = if r = .p p .dresult then 0 else if r = .p p .dstate then 2 else s.reg r) ∧
  (∀ s p, s.preg p .dstate ≠ 1 → ∃ t, exec (.release p) s = .next t ∧
    t = { s with parts := t.parts, regs := t.regs } ∧ (∀ n, n ≠ p → t.part n = s.part n) ∧
    t.part p = { s.part p with held := (t.part p).held, running := (t.part p).running } ∧
    (∀ c, c ∈ (t.part p).held ↔ c ∈ (s.part p).held ∧ c ≠ s.preg p .dctx) ∧
    ∀ r, t.reg r = if r = .p p .dresult then 0 else if r = .p p .dstate then 2 else s.reg r) ∧
  (∀ s p n i, i ∈ [Instr.step p, .stepall p, .snap p n, .poke p] → s.preg p .dstate ≠ 1 → s.preg p .dctx ∉ (s.part p).held →
    ∃ t, exec i s = .next t ∧ RegsSet s t [(.p p .dresult, 4), (.p p .dstate, 2)]) ∧
  (∀ (s : State) p u w q (all : Bool), s.preg p .dstate ≠ 1 → s.preg p .dctx ∈ (s.part p).held → s.dbWarp p = some (u, w) → s.who u = some q →
    let es := if all then (w.frontier.filter Entry.isReady).map (fun e => (u, e.pc.toNat, e.mask))
      else ((headOf w.frontier).toList.map (fun e => (u, e.pc.toNat, 0)))
    let s1 := s.modPart p (fun x => { x with stepping := es, running := x.running.filter (· != s.preg p .dctx) })
    (es ≠ [] → s1.mayIssue u w q = true → ∃ t, exec (if all then .stepall p else .step p) s = .next t ∧
      t = { s1 with regs := t.regs, agenda := t.agenda } ∧
      t.agenda = (if all then es.map (fun e => Choice.issueAt u e.2.1) else [.issue u]) ++ s.agenda ∧
      ∀ r, t.reg r = if r = .p p .dstate then 1 else if r = .p p .dcmd then (if all then 4 else 3) else if r = .p p .dseq then 0 else s.reg r) ∧
    (es = [] ∨ s1.mayIssue u w q = false → ∃ t, exec (if all then .stepall p else .step p) s = .next t ∧
      RegsSet s t [(.p p .dresult, 3), (.p p .dstate, 2)])) ∧
  (∀ s p n blk b l, s.preg p .dstate ≠ 1 → s.preg p .dctx ∈ (s.part p).held → s.dbBlock p = some (blk, b) → kget s.launches b.launch = some l →
    (s.imagePlace p l.ctx (s.preg p .daddr) (l.lr.imageSize b.tiles.length) = false →
      ∃ t, exec (.snap p n) s = .next t ∧ RegsSet s t [(.p p .dresult, 5), (.p p .dstate, 2)]) ∧
    (s.imagePlace p l.ctx (s.preg p .daddr) (l.lr.imageSize b.tiles.length) = true → b.units.all s.unitQuiet = true → s.betweenPasses blk = true →
      ∃ t, exec (.snap p n) s = .next t ∧
        t = { s with mem := t.mem, launches := t.launches, regs := t.regs, cores := t.cores, tlb := t.tlb, rc := t.rc, ms := t.ms, out := t.out } ∧ t.preg p .dstate = 2 ∧ t.preg p .dresult = 0 ∧
        t.hNat (s.preg p .daddr + l.lr.imageSize b.tiles.length - 8) 8 = completeOf n)) ∧
  (∀ s p blk b l, s.preg p .dstate ≠ 1 → s.preg p .dctx ∈ (s.part p).held → s.dbBlock p = some (blk, b) → kget s.launches b.launch = some l → b.tctx = none →
    let at_ (k : Nat) := s.preg p .daddr + l.lr.warpAt k
    ((∃ k u w, b.warps[k]? = some u ∧ kget s.warps u = some w ∧ masksOk w.live ((s.rawFrontier (at_ k)).map (·.2)) 0 = false) →
      ∃ t, exec (.poke p) s = .next t ∧ RegsSet s t [(.p p .dresult, 5), (.p p .dstate, 2)]) ∧
    (∀ u w, b.warps = [u] → kget s.warps u = some w → w.tile = false → s.imagePlace p l.ctx (s.preg p .daddr) (l.lr.imageSize 0) = true →
      masksOk w.live ((s.rawFrontier (at_ 0)).map (·.2)) 0 = true → ∃ t w', exec (.poke p) s = .next t ∧ t = { s with warps := t.warps, regs := t.regs } ∧
        kget t.warps u = some w' ∧ (∀ v, v ≠ u → kget t.warps v = kget s.warps v) ∧
        w' = { s.loadRegs w (at_ 0) (l.lr.budgets.getD 0 32) 64 256 with
          frontier := w'.frontier, hlanes := BitVec.ofNat 64 (s.hNat (at_ 0 + 0x448) 8), lin := [], haz := [], turn := none } ∧
        (∀ e ∈ s.rawFrontier (at_ 0), e.1 % 4 = 0 → ∀ l, e.2.testBit l = true → l < 64 → ∃ q, w'.stands l (BitVec.ofNat 64 (e.1 % 2 ^ 57)) q) ∧
        ∀ r, t.reg r = if r = .p p .dresult then 0 else if r = .p p .dstate then 2 else s.reg r)) ∧
  (∀ s p n blk b l, s.preg p .dstate ≠ 1 → s.dbBlock p = some (blk, b) → kget s.blocks blk = some b → kget s.launches b.launch = some l →
    s.imagePlace p l.ctx (s.preg p .daddr) (l.lr.imageSize b.tiles.length) = true →
    (b.preempt = false → ∃ t b', exec (.preempt p n) s = .next t ∧ t = { s with blocks := t.blocks, regs := t.regs } ∧
      kget t.blocks blk = some b' ∧ b' = { b with preempt := true, preemptAt := s.timebase } ∧
      (∀ k, k ≠ blk → kget t.blocks k = kget s.blocks k) ∧ t.preg p .dstate = 1 ∧ t.preg p .dcmd = 7 ∧ t.preg p .dseq = n) ∧
    (b.preempt = true → s.saveReady blk b = true → ∃ t l', exec (.preempt p n) s = .next t ∧ kget t.blocks blk = none ∧
      (∀ u ∈ b.units, ∀ w, (u, w) ∉ t.warps) ∧ (∀ x ∈ s.warps, x.1 ∉ b.units → x ∈ t.warps) ∧ (∀ k, k ≠ blk → kget t.blocks k = kget s.blocks k) ∧
      kget t.launches b.launch = some l' ∧ (∃ k, kget l'.saved b.bid = some k ∧ k.blk = blk ∧ k.us = b.warps ∧ k.tctx = b.tctx) ∧
      t.preg p .dstate = 2 ∧ t.preg p .dresult = 0 ∧
      t.hNat (s.preg p .daddr + l.lr.imageSize (s.keepTiles b).tiles.length - 8) 8 = completeOf n)) ∧
  (∀ s p, s.preg p .dstate ≠ 1 →
    let r := s.restoreImage false p (s.preg p .daddr)
    (r.2 ≠ 0 → ∃ t, exec (.restore p) s = .next t ∧ RegsSet s t [(.p p .dresult, r.2), (.p p .dstate, 2)]) ∧
    (r.2 = 0 → ∃ t, exec (.restore p) s = .next t ∧ t = { r.1 with regs := t.regs } ∧
      ∀ q, t.reg q = if q = .p p .dresult then 0 else if q = .p p .dstate then 2 else r.1.reg q)) ∧
  (∀ (s : State) p at_, s.imageOk p at_ (s.header at_) = false → (s.restoreImage false p at_).2 = 5) ∧
  (∀ (s : State) p at_ lid (l : Launch), let h := s.header at_
    s.imageOk p at_ h = true → s.launchOf p h = some (lid, l) →
    ((∃ x ∈ l.saved, x.1 < h.bid) → (s.restoreImage false p at_).2 = 2) ∧
    ((∀ x ∈ l.saved, h.bid ≤ x.1) → s.restoreCore false lid l h = none → (s.restoreImage false p at_).2 = 1) ∧
    (∀ core a k, (∀ x ∈ l.saved, h.bid ≤ x.1) → s.restoreCore false lid l h = some core → kget s.launches lid = some l →
      l.areas.find? (fun a => a.bid == some h.bid) = some a → kget l.saved h.bid = some k → k.us.Nodup → k.us.length = l.lr.blockWarps → k.tctx.getD 0 ∉ k.us →
      ∃ t b, s.restoreImage false p at_ = (t, 0) ∧ kget t.blocks k.blk = some b ∧ b.launch = lid ∧ b.bid = h.bid ∧ b.core = core ∧ b.warps = k.us ∧
        (∀ v, v ≠ k.blk → kget t.blocks v = kget s.blocks v) ∧
        (∀ j, (hj : j < k.us.length) → ∃ w, kget t.warps k.us[j] = some w ∧ w.lin = [] ∧ w.blk = k.blk ∧ w.wid = j) ∧
        ∃ l', kget t.launches lid = some l' ∧ l' = { l.bindDie h.bid core with saved := kdel l.saved h.bid }))

/-- R7, R112, R276, R306, R318 to R322, R342, R343, R348: the host port, the fabric, the inbound apertures and register writes. -/
def Obligations.HostEvents : Prop :=
  (∀ s cxl pa n (data : List (BitVec 8)), 0 < n → pa + n ≤ devTop → (∀ k, k < n → s.hostRefused (pa + k) = false) →
    let p := (s.ownerOf pa).getD 0
    let bs := s.cipher p false pa ((List.range n).map (fun k => data.getD k 0))
    (∃ t, exec (.hostAccess true cxl pa n data) s = .next t ∧ t = { s with mem := t.mem, rc := t.rc } ∧
      (∀ a, t.hByte a = if pa ≤ a ∧ a < pa + bs.length then bs.getD (a - pa) 0 else s.hByte a) ∧
      ∀ d k, k < bs.length → t.rcLine d ((pa + k) / lineBytes) = none) ∧
    (∃ t, exec (.hostAccess false cxl pa n data) s = .next t ∧ t = { s with out := t.out } ∧
      t.out = { s.out with host := s.out.host ++ [(false, s.cipher p true pa ((List.range n).map (fun k => s.homeByte (pa + k))))] })) ∧
  (∀ s cxl pa n k (data : List (BitVec 8)), pa + n ≤ devTop → k < n → s.hostRefused (pa + k) = true → (∀ j, j < k → s.hostRefused (pa + j) = false) →
    let r : Reg := .p ((s.ownerOf (pa + k)).getD 0) .fwRefused
    let c := min (s.reg r + 1) (2 ^ 32 - 1)
    (∃ t, exec (.hostAccess true cxl pa n data) s = .next t ∧ RegsSet s t [(r, c)]) ∧
    (∃ t t1, exec (.hostAccess false cxl pa n data) s = .next t ∧ RegsSet s t1 [(r, c)] ∧
      t = { t1 with out := { s.out with host := s.out.host ++ [(true, if cxl then List.replicate n 0xFF else [])] } })) ∧
  (∀ s port peer off acc n (data : List (BitVec 8)), s.inboundOpen port = true → 0 < n → acc ≤ 2 → peer ≤ 255 → off < 2 ^ 44 →
    (s.apertureAt off = none → s.preg 0 .iflSize ≠ 0 → (s.preg 0 .iflTail + 1) % s.preg 0 .iflSize ≠ s.preg 0 .iflHead % s.preg 0 .iflSize →
      s.ownsRange 0 (s.preg 0 .iflBase + 32 * s.preg 0 .iflTail) 32 = true →
      ∃ t, exec (.inboundAccess port peer off acc n data) s = .next t ∧ t = { s with nextUid := s.nextUid + 1, mem := t.mem, regs := t.regs, out := t.out } ∧
        t.out = { s.out with peers := s.out.peers ++ [(peer, 1, [])] } ∧ t.preg 0 .iflTail = (s.preg 0 .iflTail + 1) % s.preg 0 .iflSize ∧
        (∀ r, r ≠ .p 0 .iflTail → t.reg r = s.reg r) ∧
        let at_ := s.preg 0 .iflBase + 32 * s.preg 0 .iflTail
        ∀ q, t.hByte q = if at_ ≤ q ∧ q < at_ + 32 then (bytesLE 8 (off + peer * 2 ^ 44 + port * 2 ^ 52 + acc * 2 ^ 57) ++ bytesLE 8 (0x11 + 256) ++
          bytesLE 8 s.timebase ++ bytesLE 8 0).getD (q - at_) 0 else s.hByte q) ∧
    (∀ p a s1 bs, s.apertureAt off = some (p, a) → s.sess p < 2 → s.preg p (.apEn a) = 1 → (s.preg p (.apPerm a)).testBit acc = true →
      off + n ≤ s.preg p (.apObase a) + s.preg p (.apOlen a) → s.preg p (.apVabase a) + (off - s.preg p (.apObase a)) + n ≤ 2 ^ 56 →
      let s0 := { s with nextUid := s.nextUid + 1 }
      let w := { s0.walkWho p (s.preg p (.apCtx a)) with wid := 1024 + port }
      let k : Acc := if acc = 0 then .load else if acc = 1 then .store else .atomic
      s0.unitCheck [] w 0x11 k (s.preg p (.apVabase a) + (off - s.preg p (.apObase a))) n = (s1, .ok bs) →
      isOutside bs = false → (∀ b ∈ bs, ∃ pa, b.loc = .mem pa) → (s1.part p).allocs = [] →
      (acc = 0 → ∃ t, exec (.inboundAccess port peer off acc n data) s = .next t ∧
        t = { s1 with out := { s1.out with peers := s1.out.peers ++ [(peer, 0, engineBytes s1 bs)] } }) ∧
      (acc = 1 → (∀ b ∈ bs, s.preg p (.apLevel a) ≤ b.lev) → ∃ t, exec (.inboundAccess port peer off acc n data) s = .next t ∧
        t = { s1 with ms := s1.ms ++ s1.stagedBytes (1024 + port) none bs ((List.range n).map (fun k => data.getD k 0)),
                      out := { s1.out with peers := s1.out.peers ++ [(peer, 0, [])] } }) ∧
      (acc = 1 → (∃ b ∈ bs, b.lev < s.preg p (.apLevel a)) → s1.preg p .iflSize = 0 → ∃ t, exec (.inboundAccess port peer off acc n data) s = .next t ∧
        t = { s1 with out := { s1.out with peers := s1.out.peers ++ [(peer, 1, [])] } }))) ∧
  (∀ s p k x, (s.part p).inb[k]? = some x → x.page.isSome = true → x.since + 1000000 ≤ s.timebase → s.preg p .iflSize = 0 →
    ∃ t, exec (.inboundTimeout p k) s = .next t ∧ t = { s with parts := t.parts, out := { s.out with peers := s.out.peers ++ [(x.peer, 2, [])] } } ∧
      t.part p = { s.part p with inb := (s.part p).inb.eraseIdx k } ∧ ∀ n, n ≠ p → t.part n = s.part n) ∧
  (∀ s r x err bs i, kget s.ext r = some x → x.open_ = true → x.wr = false → (s.part x.part).inb = [] →
    (i = .remoteTimeout r ∧ x.peer.isSome = true ∧ x.since + s.dreg .fTimeout ≤ s.timebase ∧ err = 2 ∧ bs = []) ∨
    (∃ n data, i = .peerCompletion r err data ∧ x.peer = some n ∧ (kget s.fabric.routes n).isSome = true ∧
      s.timebase < x.since + s.dreg .fTimeout ∧ err ≤ 2 ∧ bs = s.opened x ((List.range x.n).map (fun k => data.getD k 0))) ∨
    (∃ n data e, i = .peerCompletion r e data ∧ x.peer = some n ∧ kget s.fabric.routes n = none ∧ err = 1 ∧ bs = []) ∨
    (∃ n data e, i = .peerCompletion r e data ∧ x.peer = some n ∧ (kget s.fabric.routes n).isSome = true ∧
      x.since + s.dreg .fTimeout ≤ s.timebase ∧ err = 2 ∧ bs = []) ∨
    (∃ data, i = .hostCompletion r data ∧ x.peer = none ∧ x.data ≠ [] ∧ err = 0 ∧ bs = s.opened x ((List.range x.n).map (fun k => data.getD k 0))) →
    ∃ t, exec i s = .next t ∧ t = { s with ext := t.ext, warps := t.warps } ∧ kget t.ext r = some { x with answer := some (err, bs) } ∧
      (∀ k, k ≠ r → kget t.ext k = kget s.ext k) ∧ (∀ u, u ≠ x.u → kget t.warps u = kget s.warps u) ∧
      ∀ w, kget s.warps x.u = some w → ∃ w', kget t.warps x.u = some w' ∧ Kept w w' ∧ Readied w w' (fun e => e.st = .waiting (.ext r)) (fun e => e.pc)) ∧
  (∀ s r x (data : List (BitVec 8)), kget s.ext r = some x → x.open_ = true → x.wr = false → x.peer = none → x.data = [] → (s.part x.part).inb = [] →
    ∃ t, exec (.hostCompletion r data) s = .next t ∧ t = { s with ext := t.ext, warps := t.warps, mem := t.mem, rc := t.rc } ∧
      kget t.ext r = some { x with answer := some (0, State.opened { s with mem := t.mem, rc := t.rc } x ((List.range x.n).map (fun k => data.getD k 0))) } ∧
      (∀ a, t.hByte a = if x.off ≤ a ∧ a < x.off + x.n then data.getD (a - x.off) 0 else s.hByte a) ∧
      ∀ w, kget s.warps x.u = some w → ∃ w', kget t.warps x.u = some w' ∧ Kept w w' ∧ Readied w w' (fun e => e.st = .waiting (.ext r)) (fun e => e.pc)) ∧
  (∀ s r x i, kget s.ext r = some x → x.open_ = true → x.wr = true → risesFrom none s.ext = true →
    (∀ e ∈ s.ext, e.2.u = x.u → e.2.wr = true → e.2.iid = x.iid → e.1 = r) →
    ((∃ n data, i = .peerCompletion r 0 data ∧ x.peer = some n ∧ (kget s.fabric.routes n).isSome = true ∧
      s.timebase < x.since + s.dreg .fTimeout) →
      ∃ t, exec i s = .next t ∧ t = { s with ext := kdel s.ext r }) ∧
    ((∃ data, i = .hostCompletion r data ∧ x.peer = none) → (∀ l ∈ s.launches, l.2.lr.measure = false) →
      ∃ t, exec i s = .next t ∧ t = { s with ext := kdel s.ext r, mem := t.mem, rc := t.rc } ∧
      ∀ a, t.hByte a = if x.off ≤ a ∧ a < x.off + x.data.length then x.data.getD (a - x.off) 0 else s.hByte a) ∧
    (∀ w p cause, kget s.warps x.u = some w → s.who x.u = some p →
      (i = .remoteTimeout r ∧ x.peer.isSome = true ∧ x.since + s.dreg .fTimeout ≤ s.timebase ∧ cause = 0x18) ∨
      (∃ n data e, i = .peerCompletion r e data ∧ x.peer = some n ∧ kget s.fabric.routes n = none ∧ cause = 0x17) ∨
      (∃ n data e, i = .peerCompletion r e data ∧ x.peer = some n ∧ (kget s.fabric.routes n).isSome = true ∧
        ((x.since + s.dreg .fTimeout ≤ s.timebase ∧ cause = 0x18) ∨
         (s.timebase < x.since + s.dreg .fTimeout ∧ 1 ≤ e ∧ cause = if e = 1 then 0x17 else 0x18))) →
      ∃ t, exec i s = .next t ∧ t = { s with ext := t.ext, cores := t.cores } ∧ kget t.ext r = none ∧ (∀ k, k ≠ r → kget t.ext k = kget s.ext k) ∧
        ∃ rec, (t.core p.core).sfq = (s.core p.core).sfq ++ [rec] ∧ rec.pc = x.pc ∧ rec.va = x.va ∧ rec.u = x.u ∧ rec.cause = cause ∧ rec.lanes = maskOf [x.lane] ∧
          rec.seq = (s.core p.core).sfSeq % 65536)) ∧
  (∀ s port dir, port < 20 → dir < 2 → ∃ t, exec (.flitReplay port dir) s = .next t ∧
    t = { s with fabric := { s.fabric with replays := t.fabric.replays } } ∧ ∀ k, sget 0 t.fabric.replays k = sget 0 s.fabric.replays k + if k = 2 * port + dir then 1 else 0) ∧
  (∀ s port, port < 20 → s.fabric.down.contains port = false → ∃ t t1, exec (.linkRetrain port) s = .next t ∧
    RegsSet s t1 [(.d .retrains, min (s.dreg .retrains + 1) (2 ^ 32 - 1))] ∧ t = { t1 with fabric := { s.fabric with down := port :: s.fabric.down } }) ∧
  (∀ s port, ∃ t, exec (.linkRetrained port) s = .next t ∧ t = { s with fabric := { s.fabric with down := t.fabric.down } } ∧
    ∀ k, k ∈ t.fabric.down ↔ k ∈ s.fabric.down ∧ k ≠ port) ∧
  (∀ s fn off size (v : BitVec 64), size ∉ [1, 2, 4, 8] ∨ off % size ≠ 0 ∨ 17 < fn → ∃ t, exec (.registerWrite fn off size v) s = .next t ∧ t = s) ∧
  (∀ s fn size (v : BitVec 64), size ∈ [2, 4, 8] → fn ≤ 17 → s.aperturesClash = false →
    let x := v.toNat % 4096
    (fn = 0 → 1800 ≤ x → x ≤ 3000 → (s.setReg (.d .plimit) x).aperturesClash = false →
      ∃ t, exec (.registerWrite fn 0x800000 size v) s = .next t ∧ RegsSet s t [(.d .plimit, x)]) ∧
    (fn ≠ 0 ∨ x < 1800 ∨ 3000 < x → ∃ t, exec (.registerWrite fn 0x800000 size v) s = .next t ∧ t = s)) ∧
  (∀ s fn q (v : BitVec 64), q < 256 → fn ≤ 17 → ∃ t, exec (.registerWrite fn (0x100000 + 0x40 * q + 8) 8 v) s = .next t ∧ exec (.qpost fn q 8 v) s = .next t) ∧
  (∀ s p (v : BitVec 64), p < 16 → ∃ t, exec (.registerWrite (p + 1) (0x500000 + 0x100 * p) 8 v) s = .next t ∧ exec (.opvote p (v.toNat % 8)) s = .next t)

/-- R323, R325, R326, R328 to R333: partitions, allocation records and handoff, levels, sessions and heartbeats, measurements and
firmware activation. -/
def Obligations.TrustEvents : Prop :=
  (∀ s p cl gr conf energy,
    let ok := p < 16 ∧ (s.part p).created = false ∧ (∀ e ∈ s.parts, e.2.clusters &&& cl = 0 ∧ e.2.groups &&& gr = 0) ∧
      gr &&& Config.protectedGroups = 0 ∧ s.dreg .testing ≠ 1 ∧ cl < 2 ^ 192 ∧ gr < 2 ^ 64;
    (ok → ∃ t, exec (.create p cl gr (conf, energy)) s = .next t ∧
      t = { s with regs := t.regs, parts := t.parts, power := { s.power with rails := t.power.rails } } ∧
      (t.part p).created = true ∧ (t.part p).clusters = cl ∧ (t.part p).groups = gr ∧ (t.part p).key = none ∧ (t.part p).allocs = [] ∧
      (∀ n, n ≠ p → t.part n = s.part n) ∧ (∀ d r, t.railMv d r = s.railMv d r) ∧
      ∀ r, (∀ k, r ≠ .d (.railMv k)) →
        t.reg r = if r = .p p .conf then (if conf then 1 else 0) else if r = .p p .energy then energy % 2 ^ 64 else s.reg r) ∧
    (¬ ok → ∃ t, exec (.create p cl gr (conf, energy)) s = .next t ∧ t = s)) ∧
  (∀ s p, (s.part p).created = true → ∃ t, exec (.partitionRelease p) s = .next t ∧ Released s t p) ∧
  (∀ s key, (s.fw.session = none → ∃ t, exec (.sessionBind 16 key) s = .next t ∧ t = { s with fw := { s.fw with session := some key } }) ∧
    (s.fw.session ≠ none → ∃ t, exec (.sessionBind 16 key) s = .next t ∧ t = s)) ∧
  (∀ s p key, p ≠ 16 → (s.part p).created = true → s.preg p .sstate = 0 → ∃ t, exec (.sessionBind p key) s = .next t ∧
    t = { s with regs := t.regs, parts := t.parts } ∧ t.part p = { s.part p with key := some key, lastCtr := 0 } ∧ (∀ n, n ≠ p → t.part n = s.part n) ∧
    ∀ r, t.reg r = if r = .p p .lastHb then s.timebase else if r = .p p .sstate then 1 else s.reg r) ∧
  (∀ s p, s.preg p .sstate = 1 → s.preg p .lastHb + s.preg p .hbPeriod * 1000000 ≤ s.timebase →
    (s.blocksIn p = [] → ∃ t, exec (.sessionLapse p) s = .next t ∧ RegsSet s t [(.p p .sstate, 2)]) ∧
    (∀ blk b x, s.blocks = [(blk, b)] → b.stopped = false → (kget s.launches b.launch).any (fun l => l.part == p) = true → b.preempt = false →
      x = { b with preempt := true, preemptAt := s.timebase } → ((s.setPreg p .sstate 2).askPreempt blk).saveReady blk x = false →
      ∃ t, exec (.sessionLapse p) s = .next t ∧ t = { s with regs := t.regs, blocks := [(blk, x)] } ∧ ∀ r, t.reg r = if r = .p p .sstate then 2 else s.reg r)) ∧
  (∀ (s : State) u w q, 2 ≤ s.sess q.part → w.tile = false → s.mayIssue u w q = false) ∧
  (∀ s p, s.preg p .sstate = 2 → s.preg p .lastHb + s.preg p .hbPeriod * 1000000 + s.preg p .hbGrace * 1000000 ≤ s.timebase → s.blocksIn p = [] →
    ∃ t, exec (.sessionHalt p) s = .next t ∧ RegsSet s t [(.p p .sstate, 3)]) ∧
  (∀ s p, s.preg p .sstate = 3 → s.preg p .lastHb + s.preg p .hbPeriod * 1000000 + 1000 * (s.preg p .hbRetain * 1000000) ≤ s.timebase →
    ∃ t, exec (.sessionScrub p) s = .next t ∧ t = { s with regs := t.regs, ext := t.ext, engines := t.engines } ∧
      (∀ r, t.reg r = if r = .p p .sstate then 4 else s.reg r) ∧ (∀ x, x ∈ t.ext ↔ x ∈ s.ext ∧ x.2.part ≠ p) ∧
      ∀ e ∈ t.engines, (∀ c ∈ e.2.queue, c.part ≠ p) ∧ (∀ c, e.2.run = some c → c.part ≠ p)) ∧
  (∀ s p, s.preg p .sstate = 4 → ∃ t, exec (.sessionScrub p) s = .next t ∧ Released s t p) ∧
  (∀ s p ctr key fresh,
    let L := s.preg p .lastHb + s.preg p .hbPeriod * 1000000;
    let ok := (s.part p).key = some key ∧ ((s.preg p .sstate = 1 ∧ s.timebase < L ∧ (fresh = true ∨ (s.part p).lastCtr < ctr)) ∨
      (1 ≤ s.preg p .sstate ∧ s.preg p .sstate ≤ 3 ∧ fresh = true ∧ s.timebase < L + 1000 * (s.preg p .hbRetain * 1000000)));
    (ok → s.sess p < 2 ∨ (s.blocksIn p = [] ∧ (s.part p).lapseSaved = [] ∧ ∀ x ∈ s.ext, x.2.part = p → x.2.held = false) →
      ∃ t, exec (.heartbeat p ctr key fresh) s = .next t ∧ t = { s with regs := t.regs, parts := t.parts } ∧
        t.part p = { s.part p with lastCtr := ctr } ∧ (∀ n, n ≠ p → t.part n = s.part n) ∧
        ∀ r, t.reg r = if r = .p p .sstate then 1 else if r = .p p .lastHb then s.timebase else s.reg r) ∧
    (¬ ok → ∃ t, exec (.heartbeat p ctr key fresh) s = .next t ∧ t = { s with out := { s.out with host := s.out.host ++ [(true, [])] } })) ∧
  (∀ s i, 1 ≤ i ∧ i ≤ 9 ∨ i = 0xF0 ∨ i = 0xFF → ∃ t, exec (.getMeasurements i) s = .next t ∧
    t = { s with fw := { s.fw with replies := s.fw.replies ++ [(i, (if i = 0xFF then [1, 2, 3, 4, 5, 6, 7, 8, 9] else if i = 0xF0 then [] else [i]).map s.measurement,
      s.fw.actseq, match s.fw.staged with
        | some x => x.2.1
        | none => 0)] } }) ∧
  (∀ s comps vals digest secver sig,
    let ok := Config.verifies digest sig = true ∧ s.fw.secver ≤ secver ∧ (∀ c ∈ comps, 2 ≤ c ∧ c ≤ 8) ∧ comps ≠ [] ∧
      comps.length = vals.length ∧ s.fw.switching = [];
    (ok → ∃ t, exec (.stage comps vals digest secver sig) s = .next t ∧ t = { s with fw := { s.fw with staged := some (comps.zip vals, digest, secver) } }) ∧
    (¬ ok → ∃ t, exec (.stage comps vals digest secver sig) s = .next t ∧ t = s)) ∧
  (∀ s x, s.fw.staged = some x → s.fw.switching = [] → ∃ t, exec .activate s = .next t ∧ t = { s with fw := { s.fw with switching := t.fw.switching } } ∧
    t.fw.switching = sortByKey (fun (c : Nat × Nat) => if c.1 = 2 then 16 else c.1) x.1) ∧
  (∀ s c r, s.fw.switching = c :: r → ∃ t, exec .componentSwitch s = .next t ∧ t = { s with fw := t.fw } ∧ t.fw.switching = r ∧
    t.fw.actseq = (s.fw.actseq + 1) % 2 ^ 64 ∧ (∀ k, kget t.fw.running k = if k = c.1 then some c.2 else kget s.fw.running k) ∧
    t.fw.staged = (if r = [] then none else s.fw.staged) ∧ t.fw.replies = s.fw.replies) ∧
  (∀ s p rec base len ctx keyid slevel key, (s.part p).created = true →
    let new := (s.part p).freeRec
    kget (s.part p).allocs new = none ∧ (∀ k, k < new → kget (s.part p).allocs k ≠ none) ∧
    (∃ t, exec (.allocationRecordWrite p rec base len ctx keyid slevel key false) s = .next t ∧ t = s.setPart p { s.part p with allocs := kdel (s.part p).allocs rec }) ∧
    (base % 2 ^ 14 = 0 → len % 2 ^ 14 = 0 → base < 2 ^ 52 → ctx < 65536 → keyid < 4096 → slevel < 16 →
      (∀ a ∈ (s.part p).allocs, a.2.valid = true → base + len ≤ a.2.base ∨ a.2.base + a.2.len ≤ base) →
      ∃ t, exec (.allocationRecordWrite p rec base len ctx keyid slevel key true) s = .next t ∧
        t = { s with parts := t.parts, out := { s.out with msp := s.out.msp ++ [new] } } ∧ (∀ n, n ≠ p → t.part n = s.part n) ∧
        ∃ a, t.part p = { s.part p with allocs := kput (s.part p).allocs new a } ∧
          a = AllocRec.mk base len ctx keyid slevel true (if keyid = 0 then 0 else Config.keyWrap p ctx key)) ∧
    ((∃ a ∈ (s.part p).allocs, a.2.valid = true ∧ base < a.2.base + a.2.len ∧ a.2.base < base + len) →
      ∃ t, exec (.allocationRecordWrite p rec base len ctx keyid slevel key true) s = .next t ∧ t = s)) ∧
  (∀ s p rec ctx r, kget (s.part p).allocs rec = some r → r.valid = true →
    let owns (blk : Nat) : Prop := ∃ b l, kget s.blocks blk = some b ∧ kget s.launches b.launch = some l ∧ l.part = p ∧ l.ctx = r.ctx
    (s.ctxExists p ctx = true → r.slevel ≤ s.curLevel p ctx →
      (∀ e ∈ s.engines, ∀ c, c ∈ e.2.queue ++ e.2.run.toList → c.part = p → c.ctx = r.ctx → s.cmdMeets c r.base (r.base + r.len) = false) →
      (∀ e ∈ s.mengs, ∀ k ∈ e.2.table, owns k.blk → s.mcmdMeets p r.ctx k r.base (r.base + r.len) = false) →
      (∀ u ∈ s.warps, owns u.2.blk → u.2.posted = []) →
      ∃ t, exec (.handoff p rec ctx) s = .next t ∧ t = s.setPart p
        { s.part p with allocs := kput (s.part p).allocs rec { r with ctx := ctx, wrap := if r.keyid = 0 then 0 else Config.keyWrap p ctx (Config.keyUnwrap p r.ctx r.wrap) } }) ∧
    (s.curLevel p ctx < r.slevel ∨ (∃ e ∈ s.engines, ∃ c, c ∈ e.2.queue ++ e.2.run.toList ∧ c.part = p ∧ c.ctx = r.ctx ∧ s.cmdMeets c r.base (r.base + r.len) = true) ∨
        (∃ e ∈ s.mengs, ∃ k ∈ e.2.table, owns k.blk ∧ s.mcmdMeets p r.ctx k r.base (r.base + r.len) = true) ∨
        (∃ u ∈ s.warps, owns u.2.blk ∧ u.2.posted ≠ []) →
      ∃ t, exec (.handoff p rec ctx) s = .next t ∧ t = s)) ∧
  (∀ s p who addr level, s.preg p .sstate = 1 →
    (∀ pte sz at_, s.walk p who addr = .leaf pte sz at_ → level < pteLevel pte → ∃ t, exec (.levelLower p 0 who addr level) s = .next t ∧
      t = { s with mem := t.mem } ∧ t.hNat at_ 8 = setBits pte 11 8 level % 2 ^ 64 ∧ ∀ a, a < at_ ∨ at_ + 8 ≤ a → t.hByte a = s.hByte a) ∧
    (∀ b, kget s.blocks who = some b → (kget s.launches b.launch).any (fun l => l.part == p) = true → level < b.levAt addr →
      ∃ t b', exec (.levelLower p 1 who addr level) s = .next t ∧ t = { s with blocks := t.blocks } ∧ kget t.blocks who = some b' ∧
        (∀ a, b'.levAt a = if a / 256 = addr / 256 then level else b.levAt a) ∧ (∀ k, k ≠ who → kget t.blocks k = kget s.blocks k)) ∧
    (s.ctxExists p who = true → level < s.curLevel p who → ∃ t, exec (.levelLower p 2 who addr level) s = .next t ∧ t = { s with mem := t.mem } ∧
      t.hNat (s.preg p .ctxTab + 64 * who) 8 = setBits (s.descriptor p who) 7 4 level % 2 ^ 64 ∧
      ∀ a, a < s.preg p .ctxTab + 64 * who ∨ s.preg p .ctxTab + 64 * who + 8 ≤ a → t.hByte a = s.hByte a)) ∧
  (∀ s p kind who addr level, s.preg p .sstate ≠ 1 → ∃ t, exec (.levelLower p kind who addr level) s = .next t ∧ t = s)

/-- R334 to R342: clocks, rails, power rationing, brown-out, thermal control, the emergency save and the energy counters. -/
def Obligations.PowerEvents : Prop :=
  (∀ s p op, ∃ t, exec (.opvote p op) s = .next t ∧ RegsRails s t [(.p p .opVote, op % 8)] ∧
    ∀ d r, d < 4 → r < 4 → t.rail d r = ((s.setPreg p .opVote (op % 8)).moveRail d r).rail d r) ∧
  (∀ (s : State) d r, let mv := s.dreg (.railMv (5 * d + r))
    let x := s.rail d r
    (∀ h, x.holdTill = some h → x.target ≤ mv → s.railMv d r = max x.target (mv - (s.timebase - h) / 1000)) ∧
    (x.holdTill = none → x.target ≤ mv → s.railMv d r = max x.target (mv - (s.timebase - x.since) / 1000)) ∧
    (x.holdTill = none → mv ≤ x.target → s.railMv d r = min x.target (mv + (s.timebase - x.since) / 1000))) ∧
  (∀ (s : State) d r, let cur := s.railMv d r
    let want := s.railWant d r
    let x := s.rail d r
    (∀ d' r', (s.moveRail d r).railMv d' r' = s.railMv d' r') ∧
    (want = x.target → s.moveRail d r = s) ∧
    (want ≠ x.target → cur ≤ want → (s.moveRail d r).rail d r = ⟨want, none, s.timebase⟩) ∧
    (want ≠ x.target → want < cur → cur ≤ x.target → (s.moveRail d r).rail d r = ⟨want, some (s.timebase + 2000000), s.timebase⟩) ∧
    (want ≠ x.target → want < cur → x.target < cur → (s.moveRail d r).rail d r = { x with target := want })) ∧
  (∀ s d r h, (s.rail d r).holdTill = some h → h ≤ s.timebase → ∃ t, exec (.railHoldExpiry d r) s = .next t ∧
    t = { s with power := { s.power with rails := t.power.rails } } ∧ t.rail d r = { s.rail d r with holdTill := none, since := h } ∧
    ∀ d' r', 5 * d' + r' ≠ 5 * d + r → t.rail d' r' = s.rail d' r') ∧
  (∀ s d r, let x := s.rail d r
    s.railMv d r = x.target → ∃ t, exec (.railVoltageReached d r) s = .next t ∧ RegsRails s t [] ∧ t.dreg (.railMv (5 * d + r)) = x.target ∧
      t.rail d r = ⟨x.target, none, s.timebase⟩ ∧
      ∀ d' r', 5 * d' + r' ≠ 5 * d + r → t.rail d' r' = s.rail d' r' ∧ t.dreg (.railMv (5 * d' + r')) = s.dreg (.railMv (5 * d' + r'))) ∧
  (∀ s cl, ¬ (sget 1 s.power.effRatio cl = s.reg (.ratio cl) ∧ sget 7 s.power.effOp cl = s.clusterOp cl) → ∃ t, exec (.clockSwitch cl) s = .next t ∧
    t = { s with power := { s.power with effRatio := t.power.effRatio, effOp := t.power.effOp }, warps := t.warps } ∧
    (∀ k, sget 1 t.power.effRatio k = if k = cl then s.reg (.ratio cl) else sget 1 s.power.effRatio k) ∧
    (∀ k, sget 7 t.power.effOp k = if k = cl then s.clusterOp cl else sget 7 s.power.effOp k) ∧
    ∀ u, kget t.warps u = (kget s.warps u).map (fun w => if (kget s.blocks w.blk).any (fun b => b.core / 4 == cl) then
      w.reclock s.timebase (s.clusterMhz cl) (t.clusterMhz cl) else w)) ∧
  (∀ (s : State) cl, (s.power.holdPoint = true → s.clusterOp cl = 0) ∧
    (s.power.holdPoint = false → ∀ p, s.clusterOwner cl = some p → let want := min (s.preg p .opVote) (min (s.dreg (.thCap (cl / 48))) (s.dreg .pwrCap))
      (opMv want ≤ s.railMv (cl / 48) (cl % 48 / 12) → s.clusterOp cl = want) ∧
      (s.railMv (cl / 48) (cl % 48 / 12) < opMv want → s.clusterOp cl = min want (s.runsOp cl)))) ∧
  (∀ s watts, s.power.powerAt + 1000000 ≤ s.timebase →
    let s1 := { s with power := { s.power with powerAt := s.timebase } }
    let lim := s.dreg .plimit
    let g := s.dreg .grants
    let c := s.dreg .pwrCap
    (lim < watts → 8 < g → ∃ t, exec (.powerInterval watts) s = .next t ∧ RegsSet s1 t [(.d .grants, max 8 (g - 4))]) ∧
    (lim < watts → g ≤ 8 → ∃ t, exec (.powerInterval watts) s = .next t ∧ RegsRails s1 t [(.d .pwrCap, c - 1)]) ∧
    (100 * watts < 95 * lim → c < 7 → ∃ t, exec (.powerInterval watts) s = .next t ∧ RegsRails s1 t [(.d .pwrCap, c + 1)]) ∧
    (100 * watts < 95 * lim → 7 ≤ c → ∃ t, exec (.powerInterval watts) s = .next t ∧ RegsSet s1 t [(.d .grants, min 32 (g + 4))]) ∧
    (watts ≤ lim → 95 * lim ≤ 100 * watts → ∃ t, exec (.powerInterval watts) s = .next t ∧ t = s1)) ∧
  (∀ s cl, cl < 192 → ∃ t, exec (.droop cl) s = .next t ∧ RegsSet s t [(.d .droopCnt, min (s.dreg .droopCnt + 1) (2 ^ 32 - 1))]) ∧
  (∀ s, s.dreg .brownout ≠ 1 → ∃ t t1, exec .brownoutWarning s = .next t ∧ RegsSet s t1 [(.d .brownout, 1)] ∧
    t = { t1 with power := { s.power with holdPoint := true, brownSince := some s.timebase } }) ∧
  (∀ s, (∀ h, s.power.brownSince = some h → s.timebase < h + 20000000) ∨ s.dreg .saveLen = 0 →
    ∃ t t1, exec .brownoutClear s = .next t ∧ RegsSet s t1 [(.d .brownout, 0)] ∧
      t = { t1 with power := { s.power with holdPoint := s.power.emerg, brownSince := none } }) ∧
  (∀ s h, s.power.brownSince = some h → h + 20000000 ≤ s.timebase → s.dreg .saveLen ≠ 0 →
    ∃ t t1, exec .brownoutClear s = .next t ∧ RegsSet s t1 [(.d .brownout, 0)] ∧
      t = { t1 with power := { s.power with emerg := true, holdPoint := true, brownSince := none } }) ∧
  (∀ s h, s.power.brownSince = some h → h + 20000000 ≤ s.timebase → ∃ t, exec .brownoutTimeout s = .next t ∧
    t = if s.dreg .saveLen = 0 then s else { s with power := { s.power with emerg := true, holdPoint := true } }) ∧
  (∀ s d temp, d < 4 → temp < 256 → let c := s.dreg (.thCap d)
    (95 ≤ temp → temp < 105 → (∀ h, kget s.power.thermAt d = some h → h + 1000000 ≤ s.timebase) → ∃ t, exec (.thermalInterval d temp) s = .next t ∧
      (∀ r, (∀ k, r ≠ .d (.railMv k)) → t.reg r = if r = .d (.thCap d) then c - 1 else if r = .d (.temp d) then temp else s.reg r) ∧
      (∀ d r, t.railMv d r = s.railMv d r) ∧
      t = { s with regs := t.regs, power := { s.power with rails := t.power.rails, cool := kdel s.power.cool d, thermAt := kput s.power.thermAt d s.timebase } }) ∧
    (temp < 90 → ∀ h, kget s.power.cool d = some h → h + 10000000 ≤ s.timebase → ∃ t, exec (.thermalInterval d temp) s = .next t ∧
      (∀ r, (∀ k, r ≠ .d (.railMv k)) → t.reg r = if r = .d (.thCap d) then min 7 (c + 1) else if r = .d (.temp d) then temp else s.reg r) ∧
      (∀ d r, t.railMv d r = s.railMv d r) ∧
      t = { s with regs := t.regs, power := { s.power with rails := t.power.rails, cool := kput s.power.cool d s.timebase } }) ∧
    (temp < 90 → kget s.power.cool d = none → ∃ t t1, exec (.thermalInterval d temp) s = .next t ∧ RegsSet s t1 [(.d (.temp d), temp)] ∧
      t = { t1 with power := { s.power with cool := kput s.power.cool d s.timebase } }) ∧
    (90 ≤ temp → temp < 95 → ∃ t t1, exec (.thermalInterval d temp) s = .next t ∧ RegsSet s t1 [(.d (.temp d), temp)] ∧
      t = { t1 with power := { s.power with cool := kdel s.power.cool d } })) ∧
  (∀ s d temp i, i ∈ [Instr.thermalInterval d temp, .thermalCritical d temp] → d < 4 → 105 ≤ temp → temp < 115 → s.dreg .saveLen ≠ 0 →
    ∃ t, exec i s = .next t ∧ t.power.emerg = true ∧ t.power.holdPoint = true ∧ t = { s with regs := t.regs, power := t.power } ∧
      t.dreg (.temp d) = temp ∧ (∀ d r, t.railMv d r = s.railMv d r) ∧
      ∀ r, r ≠ .d (.temp d) → r ≠ .d (.thCap d) → (∀ k, r ≠ .d (.railMv k)) → t.reg r = s.reg r) ∧
  (∀ s d temp i, i ∈ [Instr.thermalInterval d temp, .thermalCritical d temp, .thermalTrip d temp] → d < 4 → 115 ≤ temp →
    ∃ t, exec i s = .next t ∧ Wiped s t false) ∧
  (∀ s, s.power.emerg = true → s.power.halted = false →
    (s.saveOrder = [] → ∃ t t1, exec .emergencySave s = .next t ∧ RegsSet s t1 [(.d .saveDone, 1)] ∧ t = { t1 with power := { s.power with halted := true } }) ∧
    (∀ blk b r, s.saveOrder = (blk, b) :: r →
      (s.power.nextImage + s.sizeOf b ≤ s.dreg .saveLen → ∃ t, exec .emergencySave s = .next t ∧ t = { s with blocks := t.blocks } ∧
        ∀ k, kget t.blocks k = if k = blk then (kget s.blocks k).map (fun b => if b.preempt then b else { b with preempt := true, preemptAt := s.timebase }) else kget s.blocks k) ∧
      (s.dreg .saveLen < s.power.nextImage + s.sizeOf b → ∃ t, exec .emergencySave s = .next t ∧ t = { s with power := { s.power with skipped := blk :: s.power.skipped } }) ∧
      (∀ n l, s.power.nextImage + s.sizeOf b ≤ s.dreg .saveLen → b.preempt = true → s.saveReady blk b = true → kget s.launches b.launch = some l →
        ∃ t l', exec (.emergencyImageWrite n) s = .next t ∧ kget t.blocks blk = none ∧ (∀ k, k ≠ blk → kget t.blocks k = kget s.blocks k) ∧
          (∀ u ∈ b.units, ∀ w, (u, w) ∉ t.warps) ∧ kget t.launches b.launch = some l' ∧ (kget l'.saved b.bid).isSome = true ∧
          t.power = { s.power with nextImage := s.power.nextImage + s.sizeOf b } ∧
          t.hNat (hostBase + s.dreg .saveBase % hostBase + s.power.nextImage + s.sizeOf b - 8) 8 = completeOf n))) ∧
  (∀ s p uj, sget 0 s.power.energyAt p + s.preg p .ePeriod * 1000000 ≤ s.timebase → ∃ t t1, exec (.energyUpdate p uj) s = .next t ∧
    RegsSet s t1 [(.p p .energy, (s.preg p .energy + uj) % 2 ^ 64)] ∧ t = { t1 with power := { s.power with energyAt := kput s.power.energyAt p s.timebase } })

/-- R226, R344 to R352: budget periods, the patrol scrub, errors, repair in service, transport, hot swap and reset. -/
def Obligations.FleetEvents : Prop :=
  (∀ s, s.fleet.period < s.timebase / 10000 * 10000 → ∃ t, exec .budgetPeriod s = .next t ∧
    t = { s with regs := t.regs, fleet := { s.fleet with period := s.timebase / 10000 * 10000, budgets := t.fleet.budgets, used := t.fleet.used } } ∧
    (∀ k, k < 68 → t.budget k = s.reg (budgetReg k) ∧
      sget 0 t.fleet.used k = if s.budget k = noLimit then 0 else s.asked k - s.budget k) ∧
    (∀ p x, s.parts = [(p, x)] → ∀ k : Nat × PReg, k ∈ [(4 * p, .d2dStall), (4 * p + 1, .hylisStall), (4 * p + 2, .hostStall)] →
      t.preg p k.2 = if s.ranOut k.1 then min (s.preg p k.2 + 1) (2 ^ 32 - 1) else s.preg p k.2) ∧
    ∀ r, (∀ p, r ≠ .p p .d2dStall ∧ r ≠ .p p .hylisStall ∧ r ≠ .p p .hostStall) → (∀ d, r ≠ .d (.ceCount d)) → t.reg r = s.reg r) ∧
  (∀ s n, let k := if s.budget 65 = noLimit then n else min n (s.budget 65 - sget 0 s.fleet.used 65)
    (k = 0 → ∃ t, exec (.patrolScrub n) s = .next t ∧ t = s) ∧
    (k ≠ 0 → ∃ t, exec (.patrolScrub n) s = .next t ∧
      t = { s with regs := t.regs, fleet := { s.fleet with used := t.fleet.used, scrubAt := (s.fleet.scrubAt + k) % 2 ^ 31 } } ∧
      (∀ j, sget 0 t.fleet.used j = sget 0 s.fleet.used j + if j = 65 then k else 0) ∧
      (∀ d, d < 4 → t.dreg (.ceCount d) = min (s.dreg (.ceCount d) + Config.corrected s.stepNo d) (2 ^ 64 - 1)) ∧
      ∀ r, (∀ d, r ≠ .d (.ceCount d)) → t.reg r = s.reg r)) ∧
  (∀ s pa d, pa < devTop → homeDie pa = some d → let k := Config.errorPattern s.stepNo pa
    let rows : DReg := .rowReps (pa / 2 ^ 33 / 8)
    let chans : DReg := .chSpares (pa / 2 ^ 33 / 8)
    ∃ t t1 t2, exec (.uncorrectableError pa) s = .next t ∧ RegsSet s t1 [(.d (.ueCount d), min (s.dreg (.ueCount d) + 1) (2 ^ 64 - 1))] ∧
      t2 = { t1 with fleet := { s.fleet with lost := t.fleet.lost } } ∧ (∀ l, l ∈ t.fleet.lost ↔ l = pa / lineBytes ∨ l ∈ s.fleet.lost) ∧
      (k ≠ 1 → k ≠ 2 → t = t2) ∧
      (k = 1 → s.dreg rows = 0 → t = t2) ∧ (k = 2 → s.dreg chans = 0 → t = t2) ∧
      (k = 1 → s.dreg rows ≠ 0 → ∃ t3, RegsSet t2 t3 [(.d rows, s.dreg rows - 1)] ∧
        t = { t3 with fleet := { t2.fleet with repaired := s.fleet.repaired ++ [(3, pa / 2 ^ 33 / 8, pa)] } }) ∧
      (k = 2 → s.dreg chans ≠ 0 → ∃ t3, RegsSet t2 t3 [(.d chans, s.dreg chans - 1)] ∧
        t = { t3 with fleet := { t2.fleet with repaired := s.fleet.repaired ++ [(2, pa / 2 ^ 33 / 8, channelOf pa)], moved := t.fleet.moved } })) ∧
  (∀ s i, i ∈ [Instr.retirecore, .sparech, .rowrep, .lanespare, .swapout] → s.dreg .svcState ≠ 1 → s.dreg .testing = 1 →
    ∃ t, exec i s = .next t ∧ RegsSet s t [(.d .svcResult, 4), (.d .svcState, 2)]) ∧
  (∀ s, s.dreg .svcState ≠ 1 → s.dreg .testing ≠ 1 → let arg := s.dreg .svcArg
    let die := arg / 256 % 4
    let phys := arg % 256
    (s.fleet.retiring = [] → 191 < phys ∨ s.servedBy die phys = [] → ∃ t, exec .retirecore s = .next t ∧ RegsSet s t [(.d .svcResult, 2), (.d .svcState, 2)]) ∧
    (∀ l k, s.blocks = [] → s.fleet.retired = [] → phys ≤ 191 → s.servedBy die phys = [l] → s.dreg (.coreSpares die) ≠ 0 →
      (List.range 192).find? (fun k => (s.servedBy die k).length == 0 && !(k == phys || s.fleet.repaired.contains (1, die, k))) = some k →
      ∃ t, exec .retirecore s = .next t ∧
        t = { s with regs := t.regs, fleet := { s.fleet with repaired := s.fleet.repaired ++ [(1, die, phys)], retiring := [] } } ∧
        ∀ r, t.reg r = if r = .d .svcResult then 0 else if r = .d .svcState then 2 else if r = .d .svcCmd then 1 else if r = .d .svcNow then arg else
          if r = .d (.coreSpares die) then s.dreg (.coreSpares die) - 1 else if r = .d (.lmPhys l) then k else s.reg r) ∧
    (160 ≤ arg / 8 % 256 → ∃ t, exec .sparech s = .next t ∧ RegsSet s t [(.d .svcResult, 2), (.d .svcState, 2)]) ∧
    (arg / 8 % 256 < 160 → s.dreg (.chSpares (arg % 8)) = 0 → ∃ t, exec .sparech s = .next t ∧ RegsSet s t [(.d .svcResult, 1), (.d .svcState, 2)]) ∧
    (arg / 8 % 256 < 160 → s.dreg (.chSpares (arg % 8)) ≠ 0 → ∃ t, exec .sparech s = .next t ∧
      t = { s with regs := t.regs, fleet := { s.fleet with repaired := s.fleet.repaired ++ [(2, arg % 8, arg / 8 % 256)], moved := t.fleet.moved } } ∧
      ∀ r, t.reg r = if r = .d .svcResult then 0 else if r = .d .svcState then 2 else if r = .d (.chSpares (arg % 8)) then s.dreg (.chSpares (arg % 8)) - 1 else s.reg r) ∧
    (devTop ≤ arg → ∃ t, exec .rowrep s = .next t ∧ RegsSet s t [(.d .svcResult, 2), (.d .svcState, 2)]) ∧
    (arg < devTop → s.dreg (.rowReps (arg / 2 ^ 33 / 8)) = 0 → ∃ t, exec .rowrep s = .next t ∧ RegsSet s t [(.d .svcResult, 1), (.d .svcState, 2)]) ∧
    (arg < devTop → s.dreg (.rowReps (arg / 2 ^ 33 / 8)) ≠ 0 → ∃ t, exec .rowrep s = .next t ∧
      t = { s with regs := t.regs, fleet := { s.fleet with repaired := s.fleet.repaired ++ [(3, arg / 2 ^ 33 / 8, arg)] } } ∧
      ∀ r, t.reg r = if r = .d .svcResult then 0 else if r = .d .svcState then 2 else
        if r = .d (.rowReps (arg / 2 ^ 33 / 8)) then s.dreg (.rowReps (arg / 2 ^ 33 / 8)) - 1 else s.reg r) ∧
    (24 ≤ arg % 32 → ∃ t, exec .lanespare s = .next t ∧ RegsSet s t [(.d .svcResult, 2), (.d .svcState, 2)]) ∧
    (arg % 32 < 24 → s.dreg (.lanesLeft (arg % 32)) = 0 → ∃ t, exec .lanespare s = .next t ∧ RegsSet s t [(.d .svcResult, 1), (.d .svcState, 2)]) ∧
    (20 ≤ arg % 32 → arg % 32 < 24 → s.dreg (.lanesLeft (arg % 32)) ≠ 0 → ∃ t, exec .lanespare s = .next t ∧
      t = { s with regs := t.regs, fleet := { s.fleet with repaired := s.fleet.repaired ++ [(4, arg % 32, arg / 256 % 32)], laneMap := t.fleet.laneMap } } ∧
      ∀ r, t.reg r = if r = .d .svcResult then 0 else if r = .d .svcState then 2 else if r = .d (.lanesLeft (arg % 32)) then s.dreg (.lanesLeft (arg % 32)) - 1 else s.reg r) ∧
    (arg % 32 < 20 → s.dreg (.lanesLeft (arg % 32)) ≠ 0 → ∃ t, exec .lanespare s = .next t ∧ t.dreg (.lanesLeft (arg % 32)) = s.dreg (.lanesLeft (arg % 32)) - 1 ∧
      t.dreg .retrains = min (s.dreg .retrains + 1) (2 ^ 32 - 1) ∧ arg % 32 ∈ t.fabric.down ∧ t.dreg .svcResult = 0 ∧ t.dreg .svcState = 2)) ∧
  (∀ s, s.dreg .svcState ≠ 1 →
    ((∃ e ∈ s.parts, e.2.created = true) → ∃ t, exec .tseal s = .next t ∧ RegsSet s t [(.d .svcResult, 3), (.d .svcState, 2)]) ∧
    ((∀ e ∈ s.parts, e.2.created = false) → ∃ t t1, exec .tseal s = .next t ∧ RegsSet s t1 [(.d .svcResult, 0), (.d .svcState, 2), (.d .sealed, 1)] ∧
      t = { t1 with fleet := { s.fleet with baseline := some (s.fleet.laneMap, s.fleet.repaired, (List.range 768).map (fun l => s.dreg (.lmPhys l) + 256 * s.dreg (.lmShared l))) } })) ∧
  (∀ s, s.dreg .testing ≠ 1 →
    (s.dreg .svcArg ≤ 255 → s.dreg .svcState ≠ 1 → s.fleet.swapPhase = 0 → ∃ t t1, exec .swapout s = .next t ∧
      RegsSet s t1 [(.d .svcCmd, 6), (.d .svcState, 1), (.d .svcNow, s.dreg .svcArg)] ∧
      t = { t1 with fleet := { s.fleet with swapPhase := 1, swapTo := some (s.dreg .svcArg) },
                    out := { s.out with bus := s.out.bus ++ (s.parts.filter (fun e => e.2.created)).map (fun e => (s.dreg .svcArg, e.1, s.partBytes e.1)) } }) ∧
    (s.dreg .svcNow ≤ 255 → s.dreg .svcState = 1 → s.dreg .svcCmd = 6 → s.fleet.swapPhase = 1 → s.blocks = [] → ∃ t, exec .swapout s = .next t ∧
      t = { s with fleet := { s.fleet with swapPhase := 2 } }) ∧
    (∀ p x, s.dreg .svcNow ≤ 255 → s.dreg .svcState = 1 → s.dreg .svcCmd = 6 → s.fleet.swapPhase = 2 → s.blocks = [] → s.parts = [(p, x)] → x.created = true →
      ∃ t t0 t1, exec .swapout s = .next t ∧ t0 = { s with out := { s.out with bus := s.out.bus ++ [(s.dreg .svcNow, p, s.partBytes p)] } } ∧
        Released t0 t1 p ∧ t = { t1 with regs := t.regs, fleet := { t1.fleet with swapPhase := 3, retired := [] } } ∧
        ∀ r, t.reg r = if r = .d .svcResult then 0 else if r = .d .svcState then 2 else t1.reg r)) ∧
  (∀ s, s.dreg .testing = 1 → s.dreg .brownout ≠ 1 → s.power.emerg = false → ∃ t, exec (.transportSelfTest [] [] []) s = .next t ∧
    t = { s with regs := t.regs, mem := t.mem, rc := t.rc, fleet := { s.fleet with report := [] } } ∧
    (∀ r, t.reg r = if r = .d .delta then 1 else if r = .d .testing then 0 else if r = .d .sealed then 0 else s.reg r) ∧
    let bs := Config.deltaReport []
    let at_ := hostBase + s.dreg .repBase % hostBase
    ∀ a, t.hByte a = if at_ ≤ a ∧ a < at_ + bs.length then bs.getD (a - at_) 0 else s.hByte a) ∧
  (∀ s, ∃ t, exec .deviceReset s = .next t ∧ Wiped s t true ∧
    let test := s.dreg .sealed = 1 ∧ (s.powered = false ∨ s.dreg .testing = 1)
    (test → t.dreg .testing = 1) ∧ (¬ test → ∀ r, Reg.lasting r = false → Reg.held r = false → t.reg r = State.reset.reg r))

/-- R7, R276, R301, R313, R340, R342: what the registers read as. A write-only register reads as 0; a virtual function reads 0 in the
measurement registers of another partition (the model's reading of which registers it sees: log 123); OPVOTE reads back, its reserved
bits as 0; a write of ENERGY, which is read-only, changes nothing. -/
def Obligations.RegisterReads : Prop :=
  (∀ (s : State) fn q size, q < 256 → s.regRead fn (0x100000 + 0x40 * q + 8) size = 0) ∧
  (∀ (s : State) fn p size, p < 16 → s.regRead fn (0x400000 + 0x100 * p + 0x18) size = 0 ∧ s.regRead fn (0xB00000 + 0x100 * p + 0x30) size = 0) ∧
  (∀ (s : State) fn p o size, p < 16 → o < 0x200 → fn ≠ 0 → fn ≠ p + 1 → s.regRead fn (0x200000 + 0x200 * p + o) size = 0) ∧
  (∀ s p fn (v : BitVec 64), p < 16 → fn = 0 ∨ fn = p + 1 → ∃ t, exec (.registerWrite (p + 1) (0x500000 + 0x100 * p) 8 v) s = .next t ∧
    t.regRead fn (0x500000 + 0x100 * p) 8 = v.toNat % 8) ∧
  (∀ s fn p (v : BitVec 64), p < 16 → ∃ t, exec (.registerWrite fn (0x500000 + 0x100 * p + 8) 8 v) s = .next t ∧ t = s) ∧
  (∀ s : State, s.regRead 0 0x800060 8 = s.dreg .saveDone % 2 + 2 * (s.dreg .brownout % 2))

/-! ### Encodings (R127 to R142) -/

/-- R127, R140, R141, R142: words written out from the formats and the opcode maps decode to their instructions: an F-R, an F-I, an F-L and
two F-S words, the illegal must-be-zero field of `abs.sw`, an unallocated opcode, and the prefix and stall words, which are no
instructions. -/
def Obligations.DecodedWords : Prop :=
  decode 0b00000000000000001100000100000001#32 = .ok (.addW 3 2 1) ∧
  decode 0b00100000100000010100001000000011#32 = .ok (.ldW 5 4 3) ∧
  decode 0b10000011111111111100000100000001#32 = .ok (.addiW 0xFFF 2 1) ∧
  decode 0b11000000000000000000001010000000#32 = .ok (.bra 5) ∧
  decode 0b11110000010100000000000000011101#32 = .ok (.fence 1 1 5) ∧
  decode 0b11110000000100000000000000000000#32 = .ok .exit ∧
  decode 0b00000001110000000100000100000001#32 = .error .mustBeZero ∧
  decode 0b00000010111000000000000000000000#32 = .error .unallocated ∧
  decode 0b11100000000000000000000000000000#32 = .error .isPrefix ∧
  decode 0b11110001000000000000000000000000#32 = .error .isStall

/-- R127, R128, R140 to R142: every instruction word at every value of its fields decodes to itself from its encoding; the whole steps
of other agents have none. And a word that decodes is the encoding of what it decodes to, so no two words are one instruction and no
bit is ignored. -/
def Obligations.DecodeOfEncode : Prop :=
  (∀ i : Instr, (i.isWord = true → ∃ w, encode i = some w ∧ decode w = .ok i) ∧ (i.isWord = false → encode i = none)) ∧
  ∀ (w : Word) (i : Instr), decode w = .ok i → encode i = some w

/-! ### Steps, the shared checks and reset -/

/-- R22, R32, R41, R130, R133: a step whose choice is a unit runs what the unit prepares, and a step whose choice is an event runs the
event. A unit with nothing due prepares the head of its frontier: the word at its PC, little-endian from its four bytes, or the word
after a prefix with that prefix, decoded; `exec` then runs it with the latch that says where it stands, its lanes and its prefix. -/
def Obligations.StepRunsInstruction : Prop :=
  (∀ s u (s1 : State) i t, s.powered = true → s.choose = (.issue u, s1) → s1.prepare u none = .run i t → step s = exec i t) ∧
  (∀ s i (s1 : State), s.powered = true → s.choose = (.event i, s1) → s1.eventOpen i = true → step s = exec i s1) ∧
  (∀ (s s2 : State) p u pc bs, s.checkElem p u 0 .fetch true false 0 pc 4 = (s2, .ok bs) → (∀ b ∈ bs, ∃ pa, b.loc = .mem pa) →
    ∃ ps : List Nat, bs.map (·.loc) = ps.map .mem ∧ s.fetchWord p u pc = (s2, .ok (BitVec.ofNat 32 (natLE (ps.map s2.hByte))))) ∧
  (∀ (s s2 : State) u w p e word, s.cur = none → kget s.warps u = some w → s.who u = some p → w.ended = false → s.mayIssue u w p = true →
    s.outranked u w p = false → w.xw = none → s.sfDue u w = false → w.sdrain = false → w.overrunDue = false → w.passDue = false →
    w.turn = none → w.fair < 64 → (∀ x ∈ (s.part p.part).stepping, x.1 ≠ u) → headOf w.frontier = some e →
    e.mask &&& s.issueLanes u w ≠ 0 → s.fetchWord p u e.pc = (s2, .ok word) →
    isStallW word = false → w.entryOf e.mask = some e → (e.bpSkip = true ∨ s2.bpMatch p.part p.ctx e.pc = none) →
    let s3 := s2.modWarp u (fun w => w.stampEntry e.mask s2.stepNo)
    let n := s2.countAt p (e.pc.toNat / 4 + 1) e.pc.toNat 0
    let locked := (kget s2.warps u).any (·.locked)
    (isPrefixW word = false → ∀ i, decode word = .ok i → s.prepare u none =
      .run i (s3.setCur (some ⟨u, e.pc, e.pc, e.pc + 4, word, none, e.mask, n, 0, e.stamp, locked⟩))) ∧
    (isPrefixW word = true → ∀ (s4 : State) next i, s3.fetchWord p u (e.pc + 4) = (s4, .ok next) → decode next = .ok i →
      let px := pxFields word.toNat
      px.rm ≤ 4 → px.ms ≤ 6 → px.rsv = 0 → s.prepare u none =
        .run i (s4.setCur (some ⟨u, e.pc, e.pc + 4, e.pc + 8, next, some word, e.mask, n, 0, e.stamp, locked⟩))))

/-- R20, R130, R137, R139: an instruction with a prefix it does not accept, or with an illegal field, traps with 0x01; one that names a
register past the budget with 0x04, TRAPINFO [6:0] the field and [8:7] its position; with CHECKSTALL one that reads too early with
0x03; in this order, the whole sub-group before any effect. -/
def Obligations.SharedChecks : Prop :=
  ∀ (i : Instr) (s : State) (c : Ctx), i.isWord = true → s.cur = some c.is → c.u = c.is.u → kget s.warps c.u = some c.w → c.w.ended = false →
    s.who c.u = some c.p → s.lrOf c.p.launch = some c.lr → c.is.mask ≠ 0 → c.lr.trapentry ≠ 0 → c.w.hlanes = 0 →
    let px := c.is.px
    let takes (k n : Nat) : Prop := ∃ t, exec i s = .next t ∧ Traps s t c c.is.mask 0 k n c.is.pc 0
    (∀ x, c.is.pfx = some x → i.row.accepts px = false → takes 0x01 x.toNat) ∧
    ((c.is.pfx = none ∨ i.row.accepts px = true) → i.legalWord px = false ∨ i.legalOn c.w.tile = false → takes 0x01 c.is.word.toNat) ∧
    ((c.is.pfx = none ∨ i.row.accepts px = true) → i.legalWord px = true → i.legalOn c.w.tile = true →
      (∀ pos f, windowBad c.w i.row px = some (pos, f) → takes 0x04 (f + pos * 2 ^ 7)) ∧
      (windowBad c.w i.row px = none → c.lr.checkstall = true →
        let reads := readUses i.row px (execMask c.w px c.is.mask == -1 || c.w.tile)
        let g := gatherAt s c.w (c.is.count.isSome && c.is.depth == 0 && !c.w.locked && !s.halfRatio (c.p.core / 4)) reads (predReads i.row px)
        g.2 ≠ [] → takes 0x03 (stallInfo c.w g.1 g.2 reads)))

/-- R254, R278, R325, R342, R343, R348: after reset the registers named here read the values the rules give, memory lists nothing, and no
launch, block, warp or partition exists. The values of TEMP, CORESPARES, RAILMV and the lattice map are the model's choice (log 5) and are not here. -/
def Obligations.ResetState : Prop :=
  State.reset.mem = [] ∧ State.reset.warps = [] ∧ State.reset.blocks = [] ∧ State.reset.launches = [] ∧ State.reset.powered = true ∧
  (∀ n, (State.reset.part n).created = false) ∧ (∀ cl, State.reset.reg (.ratio cl) = 1) ∧ (∀ fn, State.reset.reg (.ntfBase fn) = 0) ∧
  (∀ q, State.reset.reg (.q q .en) = 0 ∧ State.reset.reg (.q q .halt) = 0) ∧
  (∀ n, State.reset.preg n .beatp = 2 ∧ State.reset.preg n .hbPeriod = 1000 ∧ State.reset.preg n .hbGrace = 50 ∧
    State.reset.preg n .hbRetain = 10 ∧ State.reset.preg n .opVote = 7 ∧ State.reset.preg n .ePeriod = 10 ∧
    State.reset.preg n .d2d = 0xFFFFFFFF ∧ State.reset.preg n .hylis = 0xFFFFFFFF ∧ State.reset.preg n .host = 0xFFFFFFFF ∧
    State.reset.preg n .sstate = 0 ∧ State.reset.preg n .dstate = 0) ∧
  State.reset.dreg .plimit = 1800 ∧ State.reset.dreg .grants = 32 ∧ State.reset.dreg .pwrCap = 7

/-- Memory after reset is in its canonical form (the model's own form of it: addresses rising, no byte that an unlisted address reads). -/
def Obligations.ResetMemoryCanonical : Prop := State.reset.memWf

/-- Every step keeps memory in its canonical form, whichever instruction or event it is and in whatever state: equal memories stay equal
data (the model's own form of it). -/
def Obligations.StepKeepsMemory : Prop := ∀ s t, s.memWf → step s = .next t → t.memWf
end

