-- ==== Sys2Proof/Laws/Maps.lean ====
section
/-! SUPPORT. The laws of the sorted tables: what a read gives after a write, and that writes keep the canonical form. -/

namespace Sys2Proof.Machine

variable {α : Type}

@[simp] theorem kget_nil (k : Nat) : kget ([] : KMap α) k = none := rfl

@[simp] theorem kget_kput_self (m : KMap α) (k : Nat) (v : α) : kget (kput m k v) k = some v := by
  induction m with
  | nil => simp [kput, kget]
  | cons e t ih =>
    obtain ⟨k', v'⟩ := e
    simp only [kput]
    split
    · simp [kget]
    · split
      · simp [kget]
      · rename_i h _
        simp [kget, Ne.symm h, ih]

theorem kget_kput_ne (m : KMap α) {k j : Nat} (v : α) (h : j ≠ k) : kget (kput m k v) j = kget m j := by
  induction m with
  | nil => simp [kput, kget, Ne.symm h]
  | cons e t ih =>
    obtain ⟨k', v'⟩ := e
    simp only [kput]
    split
    · rename_i hk; subst hk; simp [kget, Ne.symm h]
    · split
      · simp [kget, Ne.symm h]
      · simp [kget, ih]

theorem kget_kput (m : KMap α) (k j : Nat) (v : α) : kget (kput m k v) j = if j = k then some v else kget m j := by
  split
  · rename_i h; subst h; simp
  · rename_i h; exact kget_kput_ne m v h

@[simp] theorem kget_kdel_self (m : KMap α) (k : Nat) : kget (kdel m k) k = none := by
  induction m with
  | nil => rfl
  | cons e t ih => obtain ⟨k', v'⟩ := e; by_cases h : k' = k <;> simp [kdel, kget, h, ih]

theorem kget_kdel_ne (m : KMap α) {k j : Nat} (h : j ≠ k) : kget (kdel m k) j = kget m j := by
  induction m with
  | nil => rfl
  | cons e t ih =>
    obtain ⟨k', v'⟩ := e
    by_cases hk : k' = k
    · subst hk; simp [kdel, kget, Ne.symm h, ih]
    · simp [kdel, kget, hk, ih]

theorem kget_kdel (m : KMap α) (k j : Nat) : kget (kdel m k) j = if j = k then none else kget m j := by
  split
  · rename_i h; subst h; simp
  · rename_i h; exact kget_kdel_ne m h

theorem kget_mem {α : Type} {m : KMap α} {k : Nat} {v : α} (h : kget m k = some v) : (k, v) ∈ m := by
  induction m with
  | nil => cases h
  | cons a t ih =>
    obtain ⟨k', v'⟩ := a
    unfold kget at h
    split at h
    · rename_i hk; cases h; subst hk; simp
    · simp [ih h]

theorem kget_kmod_self (m : KMap α) (k : Nat) (f : α → α) : kget (kmod m k f) k = (kget m k).map f := by
  unfold kmod
  cases h : kget m k <;> simp [h]

theorem kget_kmod_ne (m : KMap α) {k j : Nat} (f : α → α) (h : j ≠ k) : kget (kmod m k f) j = kget m j := by
  unfold kmod
  cases hk : kget m k <;> simp [kget_kput_ne, h]

@[simp] theorem kmod_some {m : KMap α} {k : Nat} {v : α} (f : α → α) (h : kget m k = some v) :
    kmod m k f = kput m k (f v) := by simp [kmod, h]

theorem kput_kput (m : KMap α) (k : Nat) (v w : α) : kput (kput m k v) k w = kput m k w := by
  induction m with
  | nil => simp [kput]
  | cons e t ih =>
    obtain ⟨k', v'⟩ := e
    by_cases h : k = k'
    · simp [kput, h]
    · by_cases hl : k < k'
      · simp [kput, h, hl]
      · simp [kput, h, hl, ih]

@[simp] theorem sget_nil (d : α) (k : Nat) : sget d [] k = d := rfl

variable [DecidableEq α]

@[simp] theorem sget_sset_self (d : α) (m : KMap α) (k : Nat) (v : α) : sget d (sset d m k v) k = v := by
  unfold sget sset
  split <;> simp_all

theorem sget_sset_ne (d : α) (m : KMap α) {k j : Nat} (v : α) (h : j ≠ k) : sget d (sset d m k v) j = sget d m j := by
  unfold sget sset
  split <;> simp [kget_kdel_ne, kget_kput_ne, h]

theorem sget_sset (d : α) (m : KMap α) (k j : Nat) (v : α) : sget d (sset d m k v) j = if j = k then v else sget d m j := by
  split
  · rename_i h; subst h; simp
  · rename_i h; exact sget_sset_ne d m v h

/-! ### The canonical form -/

omit [DecidableEq α] in
theorem risesFrom_kput (m : KMap α) (k : Nat) (v : α) (lo : Option Nat) (h : risesFrom lo m = true)
    (hk : ∀ l, lo = some l → l < k) : risesFrom lo (kput m k v) = true := by
  induction m generalizing lo with
  | nil => cases lo <;> simp [kput, risesFrom]; exact hk _ rfl
  | cons e t ih =>
    obtain ⟨k', v'⟩ := e
    simp only [kput]
    split
    · rename_i h1; subst h1
      cases lo <;> simpa [risesFrom] using h
    · split
      · rename_i h1 h2
        cases lo with
        | none => simp [risesFrom, h2] at h ⊢; exact h
        | some l => simp [risesFrom, h2] at h ⊢; exact ⟨hk _ rfl, h.2⟩
      · rename_i h1 h2
        have hlt : k' < k := by omega
        cases lo with
        | none => simp [risesFrom] at h ⊢; exact ih _ h (by simp; exact hlt)
        | some l => simp [risesFrom] at h ⊢; exact ⟨h.1, ih _ h.2 (by simp; exact hlt)⟩

omit [DecidableEq α] in
theorem risesFrom_weaken (m : KMap α) {a b : Nat} (hab : a ≤ b) (h : risesFrom (some b) m = true) :
    risesFrom (some a) m = true := by
  cases m with
  | nil => rfl
  | cons e t => obtain ⟨k', v'⟩ := e; simp [risesFrom] at h ⊢; exact ⟨by omega, h.2⟩

omit [DecidableEq α] in
theorem risesFrom_none (m : KMap α) {a : Nat} (h : risesFrom (some a) m = true) : risesFrom none m = true := by
  cases m with
  | nil => rfl
  | cons e t => obtain ⟨k', v'⟩ := e; simp [risesFrom] at h ⊢; exact h.2

omit [DecidableEq α] in
theorem risesFrom_kdel (m : KMap α) (k : Nat) (lo : Option Nat) (h : risesFrom lo m = true) :
    risesFrom lo (kdel m k) = true := by
  induction m generalizing lo with
  | nil => exact h
  | cons e t ih =>
    obtain ⟨k', v'⟩ := e
    by_cases hk : k' = k
    · simp only [kdel, hk, if_true]
      cases lo with
      | none => exact ih _ (risesFrom_none _ (a := k') (by simpa [risesFrom] using h))
      | some l =>
        simp [risesFrom] at h
        exact ih _ (risesFrom_weaken _ (by omega) h.2)
    · simp only [kdel, hk, if_false]
      cases lo with
      | none => simp [risesFrom] at h ⊢; exact ih _ h
      | some l => simp [risesFrom] at h ⊢; exact ⟨h.1, ih _ h.2⟩

omit [DecidableEq α] in
theorem mem_kput {m : KMap α} {k : Nat} {v : α} {e : Nat × α} (h : e ∈ kput m k v) : e = (k, v) ∨ e ∈ m := by
  induction m with
  | nil => simpa [kput] using h
  | cons x t ih =>
    obtain ⟨k', v'⟩ := x
    simp only [kput] at h
    split at h
    · simp at h ⊢; tauto
    · split at h
      · simp at h ⊢; tauto
      · simp at h ⊢
        rcases h with h | h
        · tauto
        · rcases ih h with h | h <;> simp_all

omit [DecidableEq α] in
theorem mem_kdel {m : KMap α} {k : Nat} {e : Nat × α} (h : e ∈ kdel m k) : e ∈ m := by
  induction m with
  | nil => simp [kdel] at h
  | cons x t ih =>
    obtain ⟨k', v'⟩ := x
    simp only [kdel] at h
    split at h
    · exact List.mem_cons_of_mem _ (ih h)
    · simp at h ⊢
      rcases h with h | h
      · exact .inl h
      · exact .inr (ih h)

/-- A write keeps the canonical form. -/
theorem canonical_sset (d : α) (m : KMap α) (k : Nat) (v : α) (h : canonical d m = true) : canonical d (sset d m k v) = true := by
  unfold canonical at h ⊢
  rw [Bool.and_eq_true] at h ⊢
  unfold sset
  split
  · refine ⟨risesFrom_kdel _ _ _ h.1, ?_⟩
    rw [List.all_eq_true] at h ⊢
    exact fun e he => h.2 e (mem_kdel he)
  · rename_i hv
    refine ⟨risesFrom_kput _ _ _ _ h.1 (by simp), ?_⟩
    rw [List.all_eq_true] at h ⊢
    intro e he
    rcases mem_kput he with rfl | he
    · simpa using hv
    · exact h.2 e he

end Sys2Proof.Machine
end

