-- ==== Sys2Proof/Laws/State.lean ====
section
/-! SUPPORT. Every update of the state, field by field: the field it writes, and the fields it leaves. -/

namespace Sys2Proof.Machine

variable (s : State)

/-! ### `setReg` -/

@[simp] theorem setReg_agenda (r : Reg) (v : Nat) : (s.setReg r v).agenda = s.agenda := rfl
@[simp] theorem setReg_stepNo (r : Reg) (v : Nat) : (s.setReg r v).stepNo = s.stepNo := rfl
@[simp] theorem setReg_nextUid (r : Reg) (v : Nat) : (s.setReg r v).nextUid = s.nextUid := rfl
@[simp] theorem setReg_powered (r : Reg) (v : Nat) : (s.setReg r v).powered = s.powered := rfl
@[simp] theorem setReg_timebase (r : Reg) (v : Nat) : (s.setReg r v).timebase = s.timebase := rfl
@[simp] theorem setReg_cur (r : Reg) (v : Nat) : (s.setReg r v).cur = s.cur := rfl
@[simp] theorem setReg_warps (r : Reg) (v : Nat) : (s.setReg r v).warps = s.warps := rfl
@[simp] theorem setReg_blocks (r : Reg) (v : Nat) : (s.setReg r v).blocks = s.blocks := rfl
@[simp] theorem setReg_launches (r : Reg) (v : Nat) : (s.setReg r v).launches = s.launches := rfl
@[simp] theorem setReg_cores (r : Reg) (v : Nat) : (s.setReg r v).cores = s.cores := rfl
@[simp] theorem setReg_mem (r : Reg) (v : Nat) : (s.setReg r v).mem = s.mem := rfl
@[simp] theorem setReg_rc (r : Reg) (v : Nat) : (s.setReg r v).rc = s.rc := rfl
@[simp] theorem setReg_ms (r : Reg) (v : Nat) : (s.setReg r v).ms = s.ms := rfl
@[simp] theorem setReg_rl (r : Reg) (v : Nat) : (s.setReg r v).rl = s.rl := rfl
@[simp] theorem setReg_relOwner (r : Reg) (v : Nat) : (s.setReg r v).relOwner = s.relOwner := rfl
@[simp] theorem setReg_ext (r : Reg) (v : Nat) : (s.setReg r v).ext = s.ext := rfl
@[simp] theorem setReg_tlb (r : Reg) (v : Nat) : (s.setReg r v).tlb = s.tlb := rfl
@[simp] theorem setReg_engines (r : Reg) (v : Nat) : (s.setReg r v).engines = s.engines := rfl
@[simp] theorem setReg_txs (r : Reg) (v : Nat) : (s.setReg r v).txs = s.txs := rfl
@[simp] theorem setReg_seqs (r : Reg) (v : Nat) : (s.setReg r v).seqs = s.seqs := rfl
@[simp] theorem setReg_mengs (r : Reg) (v : Nat) : (s.setReg r v).mengs = s.mengs := rfl
@[simp] theorem setReg_nodes (r : Reg) (v : Nat) : (s.setReg r v).nodes = s.nodes := rfl
@[simp] theorem setReg_rings (r : Reg) (v : Nat) : (s.setReg r v).rings = s.rings := rfl
@[simp] theorem setReg_parts (r : Reg) (v : Nat) : (s.setReg r v).parts = s.parts := rfl
@[simp] theorem setReg_power (r : Reg) (v : Nat) : (s.setReg r v).power = s.power := rfl
@[simp] theorem setReg_fw (r : Reg) (v : Nat) : (s.setReg r v).fw = s.fw := rfl
@[simp] theorem setReg_fabric (r : Reg) (v : Nat) : (s.setReg r v).fabric = s.fabric := rfl
@[simp] theorem setReg_fleet (r : Reg) (v : Nat) : (s.setReg r v).fleet = s.fleet := rfl
@[simp] theorem setReg_out (r : Reg) (v : Nat) : (s.setReg r v).out = s.out := rfl

/-! ### `setPreg` -/

@[simp] theorem setPreg_agenda (n : Nat) (r : PReg) (v : Nat) : (s.setPreg n r v).agenda = s.agenda := rfl
@[simp] theorem setPreg_stepNo (n : Nat) (r : PReg) (v : Nat) : (s.setPreg n r v).stepNo = s.stepNo := rfl
@[simp] theorem setPreg_nextUid (n : Nat) (r : PReg) (v : Nat) : (s.setPreg n r v).nextUid = s.nextUid := rfl
@[simp] theorem setPreg_powered (n : Nat) (r : PReg) (v : Nat) : (s.setPreg n r v).powered = s.powered := rfl
@[simp] theorem setPreg_timebase (n : Nat) (r : PReg) (v : Nat) : (s.setPreg n r v).timebase = s.timebase := rfl
@[simp] theorem setPreg_cur (n : Nat) (r : PReg) (v : Nat) : (s.setPreg n r v).cur = s.cur := rfl
@[simp] theorem setPreg_warps (n : Nat) (r : PReg) (v : Nat) : (s.setPreg n r v).warps = s.warps := rfl
@[simp] theorem setPreg_blocks (n : Nat) (r : PReg) (v : Nat) : (s.setPreg n r v).blocks = s.blocks := rfl
@[simp] theorem setPreg_launches (n : Nat) (r : PReg) (v : Nat) : (s.setPreg n r v).launches = s.launches := rfl
@[simp] theorem setPreg_cores (n : Nat) (r : PReg) (v : Nat) : (s.setPreg n r v).cores = s.cores := rfl
@[simp] theorem setPreg_mem (n : Nat) (r : PReg) (v : Nat) : (s.setPreg n r v).mem = s.mem := rfl
@[simp] theorem setPreg_rc (n : Nat) (r : PReg) (v : Nat) : (s.setPreg n r v).rc = s.rc := rfl
@[simp] theorem setPreg_ms (n : Nat) (r : PReg) (v : Nat) : (s.setPreg n r v).ms = s.ms := rfl
@[simp] theorem setPreg_rl (n : Nat) (r : PReg) (v : Nat) : (s.setPreg n r v).rl = s.rl := rfl
@[simp] theorem setPreg_relOwner (n : Nat) (r : PReg) (v : Nat) : (s.setPreg n r v).relOwner = s.relOwner := rfl
@[simp] theorem setPreg_ext (n : Nat) (r : PReg) (v : Nat) : (s.setPreg n r v).ext = s.ext := rfl
@[simp] theorem setPreg_tlb (n : Nat) (r : PReg) (v : Nat) : (s.setPreg n r v).tlb = s.tlb := rfl
@[simp] theorem setPreg_engines (n : Nat) (r : PReg) (v : Nat) : (s.setPreg n r v).engines = s.engines := rfl
@[simp] theorem setPreg_txs (n : Nat) (r : PReg) (v : Nat) : (s.setPreg n r v).txs = s.txs := rfl
@[simp] theorem setPreg_seqs (n : Nat) (r : PReg) (v : Nat) : (s.setPreg n r v).seqs = s.seqs := rfl
@[simp] theorem setPreg_mengs (n : Nat) (r : PReg) (v : Nat) : (s.setPreg n r v).mengs = s.mengs := rfl
@[simp] theorem setPreg_nodes (n : Nat) (r : PReg) (v : Nat) : (s.setPreg n r v).nodes = s.nodes := rfl
@[simp] theorem setPreg_rings (n : Nat) (r : PReg) (v : Nat) : (s.setPreg n r v).rings = s.rings := rfl
@[simp] theorem setPreg_parts (n : Nat) (r : PReg) (v : Nat) : (s.setPreg n r v).parts = s.parts := rfl
@[simp] theorem setPreg_power (n : Nat) (r : PReg) (v : Nat) : (s.setPreg n r v).power = s.power := rfl
@[simp] theorem setPreg_fw (n : Nat) (r : PReg) (v : Nat) : (s.setPreg n r v).fw = s.fw := rfl
@[simp] theorem setPreg_fabric (n : Nat) (r : PReg) (v : Nat) : (s.setPreg n r v).fabric = s.fabric := rfl
@[simp] theorem setPreg_fleet (n : Nat) (r : PReg) (v : Nat) : (s.setPreg n r v).fleet = s.fleet := rfl
@[simp] theorem setPreg_out (n : Nat) (r : PReg) (v : Nat) : (s.setPreg n r v).out = s.out := rfl

/-! ### `setDreg` -/

@[simp] theorem setDreg_agenda (r : DReg) (v : Nat) : (s.setDreg r v).agenda = s.agenda := rfl
@[simp] theorem setDreg_stepNo (r : DReg) (v : Nat) : (s.setDreg r v).stepNo = s.stepNo := rfl
@[simp] theorem setDreg_nextUid (r : DReg) (v : Nat) : (s.setDreg r v).nextUid = s.nextUid := rfl
@[simp] theorem setDreg_powered (r : DReg) (v : Nat) : (s.setDreg r v).powered = s.powered := rfl
@[simp] theorem setDreg_timebase (r : DReg) (v : Nat) : (s.setDreg r v).timebase = s.timebase := rfl
@[simp] theorem setDreg_cur (r : DReg) (v : Nat) : (s.setDreg r v).cur = s.cur := rfl
@[simp] theorem setDreg_warps (r : DReg) (v : Nat) : (s.setDreg r v).warps = s.warps := rfl
@[simp] theorem setDreg_blocks (r : DReg) (v : Nat) : (s.setDreg r v).blocks = s.blocks := rfl
@[simp] theorem setDreg_launches (r : DReg) (v : Nat) : (s.setDreg r v).launches = s.launches := rfl
@[simp] theorem setDreg_cores (r : DReg) (v : Nat) : (s.setDreg r v).cores = s.cores := rfl
@[simp] theorem setDreg_mem (r : DReg) (v : Nat) : (s.setDreg r v).mem = s.mem := rfl
@[simp] theorem setDreg_rc (r : DReg) (v : Nat) : (s.setDreg r v).rc = s.rc := rfl
@[simp] theorem setDreg_ms (r : DReg) (v : Nat) : (s.setDreg r v).ms = s.ms := rfl
@[simp] theorem setDreg_rl (r : DReg) (v : Nat) : (s.setDreg r v).rl = s.rl := rfl
@[simp] theorem setDreg_relOwner (r : DReg) (v : Nat) : (s.setDreg r v).relOwner = s.relOwner := rfl
@[simp] theorem setDreg_ext (r : DReg) (v : Nat) : (s.setDreg r v).ext = s.ext := rfl
@[simp] theorem setDreg_tlb (r : DReg) (v : Nat) : (s.setDreg r v).tlb = s.tlb := rfl
@[simp] theorem setDreg_engines (r : DReg) (v : Nat) : (s.setDreg r v).engines = s.engines := rfl
@[simp] theorem setDreg_txs (r : DReg) (v : Nat) : (s.setDreg r v).txs = s.txs := rfl
@[simp] theorem setDreg_seqs (r : DReg) (v : Nat) : (s.setDreg r v).seqs = s.seqs := rfl
@[simp] theorem setDreg_mengs (r : DReg) (v : Nat) : (s.setDreg r v).mengs = s.mengs := rfl
@[simp] theorem setDreg_nodes (r : DReg) (v : Nat) : (s.setDreg r v).nodes = s.nodes := rfl
@[simp] theorem setDreg_rings (r : DReg) (v : Nat) : (s.setDreg r v).rings = s.rings := rfl
@[simp] theorem setDreg_parts (r : DReg) (v : Nat) : (s.setDreg r v).parts = s.parts := rfl
@[simp] theorem setDreg_power (r : DReg) (v : Nat) : (s.setDreg r v).power = s.power := rfl
@[simp] theorem setDreg_fw (r : DReg) (v : Nat) : (s.setDreg r v).fw = s.fw := rfl
@[simp] theorem setDreg_fabric (r : DReg) (v : Nat) : (s.setDreg r v).fabric = s.fabric := rfl
@[simp] theorem setDreg_fleet (r : DReg) (v : Nat) : (s.setDreg r v).fleet = s.fleet := rfl
@[simp] theorem setDreg_out (r : DReg) (v : Nat) : (s.setDreg r v).out = s.out := rfl

/-! ### `setWarp` -/

@[simp] theorem setWarp_agenda (u : Nat) (w : Warp) : (s.setWarp u w).agenda = s.agenda := rfl
@[simp] theorem setWarp_stepNo (u : Nat) (w : Warp) : (s.setWarp u w).stepNo = s.stepNo := rfl
@[simp] theorem setWarp_nextUid (u : Nat) (w : Warp) : (s.setWarp u w).nextUid = s.nextUid := rfl
@[simp] theorem setWarp_powered (u : Nat) (w : Warp) : (s.setWarp u w).powered = s.powered := rfl
@[simp] theorem setWarp_timebase (u : Nat) (w : Warp) : (s.setWarp u w).timebase = s.timebase := rfl
@[simp] theorem setWarp_cur (u : Nat) (w : Warp) : (s.setWarp u w).cur = s.cur := rfl
@[simp] theorem setWarp_blocks (u : Nat) (w : Warp) : (s.setWarp u w).blocks = s.blocks := rfl
@[simp] theorem setWarp_launches (u : Nat) (w : Warp) : (s.setWarp u w).launches = s.launches := rfl
@[simp] theorem setWarp_cores (u : Nat) (w : Warp) : (s.setWarp u w).cores = s.cores := rfl
@[simp] theorem setWarp_mem (u : Nat) (w : Warp) : (s.setWarp u w).mem = s.mem := rfl
@[simp] theorem setWarp_rc (u : Nat) (w : Warp) : (s.setWarp u w).rc = s.rc := rfl
@[simp] theorem setWarp_ms (u : Nat) (w : Warp) : (s.setWarp u w).ms = s.ms := rfl
@[simp] theorem setWarp_rl (u : Nat) (w : Warp) : (s.setWarp u w).rl = s.rl := rfl
@[simp] theorem setWarp_relOwner (u : Nat) (w : Warp) : (s.setWarp u w).relOwner = s.relOwner := rfl
@[simp] theorem setWarp_ext (u : Nat) (w : Warp) : (s.setWarp u w).ext = s.ext := rfl
@[simp] theorem setWarp_tlb (u : Nat) (w : Warp) : (s.setWarp u w).tlb = s.tlb := rfl
@[simp] theorem setWarp_engines (u : Nat) (w : Warp) : (s.setWarp u w).engines = s.engines := rfl
@[simp] theorem setWarp_txs (u : Nat) (w : Warp) : (s.setWarp u w).txs = s.txs := rfl
@[simp] theorem setWarp_seqs (u : Nat) (w : Warp) : (s.setWarp u w).seqs = s.seqs := rfl
@[simp] theorem setWarp_mengs (u : Nat) (w : Warp) : (s.setWarp u w).mengs = s.mengs := rfl
@[simp] theorem setWarp_nodes (u : Nat) (w : Warp) : (s.setWarp u w).nodes = s.nodes := rfl
@[simp] theorem setWarp_rings (u : Nat) (w : Warp) : (s.setWarp u w).rings = s.rings := rfl
@[simp] theorem setWarp_regs (u : Nat) (w : Warp) : (s.setWarp u w).regs = s.regs := rfl
@[simp] theorem setWarp_parts (u : Nat) (w : Warp) : (s.setWarp u w).parts = s.parts := rfl
@[simp] theorem setWarp_power (u : Nat) (w : Warp) : (s.setWarp u w).power = s.power := rfl
@[simp] theorem setWarp_fw (u : Nat) (w : Warp) : (s.setWarp u w).fw = s.fw := rfl
@[simp] theorem setWarp_fabric (u : Nat) (w : Warp) : (s.setWarp u w).fabric = s.fabric := rfl
@[simp] theorem setWarp_fleet (u : Nat) (w : Warp) : (s.setWarp u w).fleet = s.fleet := rfl
@[simp] theorem setWarp_out (u : Nat) (w : Warp) : (s.setWarp u w).out = s.out := rfl

/-! ### `modWarp` -/

@[simp] theorem modWarp_agenda (u : Nat) (f : Warp → Warp) : (s.modWarp u f).agenda = s.agenda := rfl
@[simp] theorem modWarp_stepNo (u : Nat) (f : Warp → Warp) : (s.modWarp u f).stepNo = s.stepNo := rfl
@[simp] theorem modWarp_nextUid (u : Nat) (f : Warp → Warp) : (s.modWarp u f).nextUid = s.nextUid := rfl
@[simp] theorem modWarp_powered (u : Nat) (f : Warp → Warp) : (s.modWarp u f).powered = s.powered := rfl
@[simp] theorem modWarp_timebase (u : Nat) (f : Warp → Warp) : (s.modWarp u f).timebase = s.timebase := rfl
@[simp] theorem modWarp_cur (u : Nat) (f : Warp → Warp) : (s.modWarp u f).cur = s.cur := rfl
@[simp] theorem modWarp_blocks (u : Nat) (f : Warp → Warp) : (s.modWarp u f).blocks = s.blocks := rfl
@[simp] theorem modWarp_launches (u : Nat) (f : Warp → Warp) : (s.modWarp u f).launches = s.launches := rfl
@[simp] theorem modWarp_cores (u : Nat) (f : Warp → Warp) : (s.modWarp u f).cores = s.cores := rfl
@[simp] theorem modWarp_mem (u : Nat) (f : Warp → Warp) : (s.modWarp u f).mem = s.mem := rfl
@[simp] theorem modWarp_rc (u : Nat) (f : Warp → Warp) : (s.modWarp u f).rc = s.rc := rfl
@[simp] theorem modWarp_ms (u : Nat) (f : Warp → Warp) : (s.modWarp u f).ms = s.ms := rfl
@[simp] theorem modWarp_rl (u : Nat) (f : Warp → Warp) : (s.modWarp u f).rl = s.rl := rfl
@[simp] theorem modWarp_relOwner (u : Nat) (f : Warp → Warp) : (s.modWarp u f).relOwner = s.relOwner := rfl
@[simp] theorem modWarp_ext (u : Nat) (f : Warp → Warp) : (s.modWarp u f).ext = s.ext := rfl
@[simp] theorem modWarp_tlb (u : Nat) (f : Warp → Warp) : (s.modWarp u f).tlb = s.tlb := rfl
@[simp] theorem modWarp_engines (u : Nat) (f : Warp → Warp) : (s.modWarp u f).engines = s.engines := rfl
@[simp] theorem modWarp_txs (u : Nat) (f : Warp → Warp) : (s.modWarp u f).txs = s.txs := rfl
@[simp] theorem modWarp_seqs (u : Nat) (f : Warp → Warp) : (s.modWarp u f).seqs = s.seqs := rfl
@[simp] theorem modWarp_mengs (u : Nat) (f : Warp → Warp) : (s.modWarp u f).mengs = s.mengs := rfl
@[simp] theorem modWarp_nodes (u : Nat) (f : Warp → Warp) : (s.modWarp u f).nodes = s.nodes := rfl
@[simp] theorem modWarp_rings (u : Nat) (f : Warp → Warp) : (s.modWarp u f).rings = s.rings := rfl
@[simp] theorem modWarp_regs (u : Nat) (f : Warp → Warp) : (s.modWarp u f).regs = s.regs := rfl
@[simp] theorem modWarp_parts (u : Nat) (f : Warp → Warp) : (s.modWarp u f).parts = s.parts := rfl
@[simp] theorem modWarp_power (u : Nat) (f : Warp → Warp) : (s.modWarp u f).power = s.power := rfl
@[simp] theorem modWarp_fw (u : Nat) (f : Warp → Warp) : (s.modWarp u f).fw = s.fw := rfl
@[simp] theorem modWarp_fabric (u : Nat) (f : Warp → Warp) : (s.modWarp u f).fabric = s.fabric := rfl
@[simp] theorem modWarp_fleet (u : Nat) (f : Warp → Warp) : (s.modWarp u f).fleet = s.fleet := rfl
@[simp] theorem modWarp_out (u : Nat) (f : Warp → Warp) : (s.modWarp u f).out = s.out := rfl

/-! ### `setBlock` -/

@[simp] theorem setBlock_agenda (b : Nat) (x : Block) : (s.setBlock b x).agenda = s.agenda := rfl
@[simp] theorem setBlock_stepNo (b : Nat) (x : Block) : (s.setBlock b x).stepNo = s.stepNo := rfl
@[simp] theorem setBlock_nextUid (b : Nat) (x : Block) : (s.setBlock b x).nextUid = s.nextUid := rfl
@[simp] theorem setBlock_powered (b : Nat) (x : Block) : (s.setBlock b x).powered = s.powered := rfl
@[simp] theorem setBlock_timebase (b : Nat) (x : Block) : (s.setBlock b x).timebase = s.timebase := rfl
@[simp] theorem setBlock_cur (b : Nat) (x : Block) : (s.setBlock b x).cur = s.cur := rfl
@[simp] theorem setBlock_warps (b : Nat) (x : Block) : (s.setBlock b x).warps = s.warps := rfl
@[simp] theorem setBlock_launches (b : Nat) (x : Block) : (s.setBlock b x).launches = s.launches := rfl
@[simp] theorem setBlock_cores (b : Nat) (x : Block) : (s.setBlock b x).cores = s.cores := rfl
@[simp] theorem setBlock_mem (b : Nat) (x : Block) : (s.setBlock b x).mem = s.mem := rfl
@[simp] theorem setBlock_rc (b : Nat) (x : Block) : (s.setBlock b x).rc = s.rc := rfl
@[simp] theorem setBlock_ms (b : Nat) (x : Block) : (s.setBlock b x).ms = s.ms := rfl
@[simp] theorem setBlock_rl (b : Nat) (x : Block) : (s.setBlock b x).rl = s.rl := rfl
@[simp] theorem setBlock_relOwner (b : Nat) (x : Block) : (s.setBlock b x).relOwner = s.relOwner := rfl
@[simp] theorem setBlock_ext (b : Nat) (x : Block) : (s.setBlock b x).ext = s.ext := rfl
@[simp] theorem setBlock_tlb (b : Nat) (x : Block) : (s.setBlock b x).tlb = s.tlb := rfl
@[simp] theorem setBlock_engines (b : Nat) (x : Block) : (s.setBlock b x).engines = s.engines := rfl
@[simp] theorem setBlock_txs (b : Nat) (x : Block) : (s.setBlock b x).txs = s.txs := rfl
@[simp] theorem setBlock_seqs (b : Nat) (x : Block) : (s.setBlock b x).seqs = s.seqs := rfl
@[simp] theorem setBlock_mengs (b : Nat) (x : Block) : (s.setBlock b x).mengs = s.mengs := rfl
@[simp] theorem setBlock_nodes (b : Nat) (x : Block) : (s.setBlock b x).nodes = s.nodes := rfl
@[simp] theorem setBlock_rings (b : Nat) (x : Block) : (s.setBlock b x).rings = s.rings := rfl
@[simp] theorem setBlock_regs (b : Nat) (x : Block) : (s.setBlock b x).regs = s.regs := rfl
@[simp] theorem setBlock_parts (b : Nat) (x : Block) : (s.setBlock b x).parts = s.parts := rfl
@[simp] theorem setBlock_power (b : Nat) (x : Block) : (s.setBlock b x).power = s.power := rfl
@[simp] theorem setBlock_fw (b : Nat) (x : Block) : (s.setBlock b x).fw = s.fw := rfl
@[simp] theorem setBlock_fabric (b : Nat) (x : Block) : (s.setBlock b x).fabric = s.fabric := rfl
@[simp] theorem setBlock_fleet (b : Nat) (x : Block) : (s.setBlock b x).fleet = s.fleet := rfl
@[simp] theorem setBlock_out (b : Nat) (x : Block) : (s.setBlock b x).out = s.out := rfl

/-! ### `modBlock` -/

@[simp] theorem modBlock_agenda (b : Nat) (f : Block → Block) : (s.modBlock b f).agenda = s.agenda := rfl
@[simp] theorem modBlock_stepNo (b : Nat) (f : Block → Block) : (s.modBlock b f).stepNo = s.stepNo := rfl
@[simp] theorem modBlock_nextUid (b : Nat) (f : Block → Block) : (s.modBlock b f).nextUid = s.nextUid := rfl
@[simp] theorem modBlock_powered (b : Nat) (f : Block → Block) : (s.modBlock b f).powered = s.powered := rfl
@[simp] theorem modBlock_timebase (b : Nat) (f : Block → Block) : (s.modBlock b f).timebase = s.timebase := rfl
@[simp] theorem modBlock_cur (b : Nat) (f : Block → Block) : (s.modBlock b f).cur = s.cur := rfl
@[simp] theorem modBlock_warps (b : Nat) (f : Block → Block) : (s.modBlock b f).warps = s.warps := rfl
@[simp] theorem modBlock_launches (b : Nat) (f : Block → Block) : (s.modBlock b f).launches = s.launches := rfl
@[simp] theorem modBlock_cores (b : Nat) (f : Block → Block) : (s.modBlock b f).cores = s.cores := rfl
@[simp] theorem modBlock_mem (b : Nat) (f : Block → Block) : (s.modBlock b f).mem = s.mem := rfl
@[simp] theorem modBlock_rc (b : Nat) (f : Block → Block) : (s.modBlock b f).rc = s.rc := rfl
@[simp] theorem modBlock_ms (b : Nat) (f : Block → Block) : (s.modBlock b f).ms = s.ms := rfl
@[simp] theorem modBlock_rl (b : Nat) (f : Block → Block) : (s.modBlock b f).rl = s.rl := rfl
@[simp] theorem modBlock_relOwner (b : Nat) (f : Block → Block) : (s.modBlock b f).relOwner = s.relOwner := rfl
@[simp] theorem modBlock_ext (b : Nat) (f : Block → Block) : (s.modBlock b f).ext = s.ext := rfl
@[simp] theorem modBlock_tlb (b : Nat) (f : Block → Block) : (s.modBlock b f).tlb = s.tlb := rfl
@[simp] theorem modBlock_engines (b : Nat) (f : Block → Block) : (s.modBlock b f).engines = s.engines := rfl
@[simp] theorem modBlock_txs (b : Nat) (f : Block → Block) : (s.modBlock b f).txs = s.txs := rfl
@[simp] theorem modBlock_seqs (b : Nat) (f : Block → Block) : (s.modBlock b f).seqs = s.seqs := rfl
@[simp] theorem modBlock_mengs (b : Nat) (f : Block → Block) : (s.modBlock b f).mengs = s.mengs := rfl
@[simp] theorem modBlock_nodes (b : Nat) (f : Block → Block) : (s.modBlock b f).nodes = s.nodes := rfl
@[simp] theorem modBlock_rings (b : Nat) (f : Block → Block) : (s.modBlock b f).rings = s.rings := rfl
@[simp] theorem modBlock_regs (b : Nat) (f : Block → Block) : (s.modBlock b f).regs = s.regs := rfl
@[simp] theorem modBlock_parts (b : Nat) (f : Block → Block) : (s.modBlock b f).parts = s.parts := rfl
@[simp] theorem modBlock_power (b : Nat) (f : Block → Block) : (s.modBlock b f).power = s.power := rfl
@[simp] theorem modBlock_fw (b : Nat) (f : Block → Block) : (s.modBlock b f).fw = s.fw := rfl
@[simp] theorem modBlock_fabric (b : Nat) (f : Block → Block) : (s.modBlock b f).fabric = s.fabric := rfl
@[simp] theorem modBlock_fleet (b : Nat) (f : Block → Block) : (s.modBlock b f).fleet = s.fleet := rfl
@[simp] theorem modBlock_out (b : Nat) (f : Block → Block) : (s.modBlock b f).out = s.out := rfl

/-! ### `setLaunch` -/

@[simp] theorem setLaunch_agenda (l : Nat) (x : Launch) : (s.setLaunch l x).agenda = s.agenda := rfl
@[simp] theorem setLaunch_stepNo (l : Nat) (x : Launch) : (s.setLaunch l x).stepNo = s.stepNo := rfl
@[simp] theorem setLaunch_nextUid (l : Nat) (x : Launch) : (s.setLaunch l x).nextUid = s.nextUid := rfl
@[simp] theorem setLaunch_powered (l : Nat) (x : Launch) : (s.setLaunch l x).powered = s.powered := rfl
@[simp] theorem setLaunch_timebase (l : Nat) (x : Launch) : (s.setLaunch l x).timebase = s.timebase := rfl
@[simp] theorem setLaunch_cur (l : Nat) (x : Launch) : (s.setLaunch l x).cur = s.cur := rfl
@[simp] theorem setLaunch_warps (l : Nat) (x : Launch) : (s.setLaunch l x).warps = s.warps := rfl
@[simp] theorem setLaunch_blocks (l : Nat) (x : Launch) : (s.setLaunch l x).blocks = s.blocks := rfl
@[simp] theorem setLaunch_cores (l : Nat) (x : Launch) : (s.setLaunch l x).cores = s.cores := rfl
@[simp] theorem setLaunch_mem (l : Nat) (x : Launch) : (s.setLaunch l x).mem = s.mem := rfl
@[simp] theorem setLaunch_rc (l : Nat) (x : Launch) : (s.setLaunch l x).rc = s.rc := rfl
@[simp] theorem setLaunch_ms (l : Nat) (x : Launch) : (s.setLaunch l x).ms = s.ms := rfl
@[simp] theorem setLaunch_rl (l : Nat) (x : Launch) : (s.setLaunch l x).rl = s.rl := rfl
@[simp] theorem setLaunch_relOwner (l : Nat) (x : Launch) : (s.setLaunch l x).relOwner = s.relOwner := rfl
@[simp] theorem setLaunch_ext (l : Nat) (x : Launch) : (s.setLaunch l x).ext = s.ext := rfl
@[simp] theorem setLaunch_tlb (l : Nat) (x : Launch) : (s.setLaunch l x).tlb = s.tlb := rfl
@[simp] theorem setLaunch_engines (l : Nat) (x : Launch) : (s.setLaunch l x).engines = s.engines := rfl
@[simp] theorem setLaunch_txs (l : Nat) (x : Launch) : (s.setLaunch l x).txs = s.txs := rfl
@[simp] theorem setLaunch_seqs (l : Nat) (x : Launch) : (s.setLaunch l x).seqs = s.seqs := rfl
@[simp] theorem setLaunch_mengs (l : Nat) (x : Launch) : (s.setLaunch l x).mengs = s.mengs := rfl
@[simp] theorem setLaunch_nodes (l : Nat) (x : Launch) : (s.setLaunch l x).nodes = s.nodes := rfl
@[simp] theorem setLaunch_rings (l : Nat) (x : Launch) : (s.setLaunch l x).rings = s.rings := rfl
@[simp] theorem setLaunch_regs (l : Nat) (x : Launch) : (s.setLaunch l x).regs = s.regs := rfl
@[simp] theorem setLaunch_parts (l : Nat) (x : Launch) : (s.setLaunch l x).parts = s.parts := rfl
@[simp] theorem setLaunch_power (l : Nat) (x : Launch) : (s.setLaunch l x).power = s.power := rfl
@[simp] theorem setLaunch_fw (l : Nat) (x : Launch) : (s.setLaunch l x).fw = s.fw := rfl
@[simp] theorem setLaunch_fabric (l : Nat) (x : Launch) : (s.setLaunch l x).fabric = s.fabric := rfl
@[simp] theorem setLaunch_fleet (l : Nat) (x : Launch) : (s.setLaunch l x).fleet = s.fleet := rfl
@[simp] theorem setLaunch_out (l : Nat) (x : Launch) : (s.setLaunch l x).out = s.out := rfl

/-! ### `modLaunch` -/

@[simp] theorem modLaunch_agenda (l : Nat) (f : Launch → Launch) : (s.modLaunch l f).agenda = s.agenda := rfl
@[simp] theorem modLaunch_stepNo (l : Nat) (f : Launch → Launch) : (s.modLaunch l f).stepNo = s.stepNo := rfl
@[simp] theorem modLaunch_nextUid (l : Nat) (f : Launch → Launch) : (s.modLaunch l f).nextUid = s.nextUid := rfl
@[simp] theorem modLaunch_powered (l : Nat) (f : Launch → Launch) : (s.modLaunch l f).powered = s.powered := rfl
@[simp] theorem modLaunch_timebase (l : Nat) (f : Launch → Launch) : (s.modLaunch l f).timebase = s.timebase := rfl
@[simp] theorem modLaunch_cur (l : Nat) (f : Launch → Launch) : (s.modLaunch l f).cur = s.cur := rfl
@[simp] theorem modLaunch_warps (l : Nat) (f : Launch → Launch) : (s.modLaunch l f).warps = s.warps := rfl
@[simp] theorem modLaunch_blocks (l : Nat) (f : Launch → Launch) : (s.modLaunch l f).blocks = s.blocks := rfl
@[simp] theorem modLaunch_cores (l : Nat) (f : Launch → Launch) : (s.modLaunch l f).cores = s.cores := rfl
@[simp] theorem modLaunch_mem (l : Nat) (f : Launch → Launch) : (s.modLaunch l f).mem = s.mem := rfl
@[simp] theorem modLaunch_rc (l : Nat) (f : Launch → Launch) : (s.modLaunch l f).rc = s.rc := rfl
@[simp] theorem modLaunch_ms (l : Nat) (f : Launch → Launch) : (s.modLaunch l f).ms = s.ms := rfl
@[simp] theorem modLaunch_rl (l : Nat) (f : Launch → Launch) : (s.modLaunch l f).rl = s.rl := rfl
@[simp] theorem modLaunch_relOwner (l : Nat) (f : Launch → Launch) : (s.modLaunch l f).relOwner = s.relOwner := rfl
@[simp] theorem modLaunch_ext (l : Nat) (f : Launch → Launch) : (s.modLaunch l f).ext = s.ext := rfl
@[simp] theorem modLaunch_tlb (l : Nat) (f : Launch → Launch) : (s.modLaunch l f).tlb = s.tlb := rfl
@[simp] theorem modLaunch_engines (l : Nat) (f : Launch → Launch) : (s.modLaunch l f).engines = s.engines := rfl
@[simp] theorem modLaunch_txs (l : Nat) (f : Launch → Launch) : (s.modLaunch l f).txs = s.txs := rfl
@[simp] theorem modLaunch_seqs (l : Nat) (f : Launch → Launch) : (s.modLaunch l f).seqs = s.seqs := rfl
@[simp] theorem modLaunch_mengs (l : Nat) (f : Launch → Launch) : (s.modLaunch l f).mengs = s.mengs := rfl
@[simp] theorem modLaunch_nodes (l : Nat) (f : Launch → Launch) : (s.modLaunch l f).nodes = s.nodes := rfl
@[simp] theorem modLaunch_rings (l : Nat) (f : Launch → Launch) : (s.modLaunch l f).rings = s.rings := rfl
@[simp] theorem modLaunch_regs (l : Nat) (f : Launch → Launch) : (s.modLaunch l f).regs = s.regs := rfl
@[simp] theorem modLaunch_parts (l : Nat) (f : Launch → Launch) : (s.modLaunch l f).parts = s.parts := rfl
@[simp] theorem modLaunch_power (l : Nat) (f : Launch → Launch) : (s.modLaunch l f).power = s.power := rfl
@[simp] theorem modLaunch_fw (l : Nat) (f : Launch → Launch) : (s.modLaunch l f).fw = s.fw := rfl
@[simp] theorem modLaunch_fabric (l : Nat) (f : Launch → Launch) : (s.modLaunch l f).fabric = s.fabric := rfl
@[simp] theorem modLaunch_fleet (l : Nat) (f : Launch → Launch) : (s.modLaunch l f).fleet = s.fleet := rfl
@[simp] theorem modLaunch_out (l : Nat) (f : Launch → Launch) : (s.modLaunch l f).out = s.out := rfl

/-! ### `setCur` -/

@[simp] theorem setCur_agenda (c : Option Issue) : (s.setCur c).agenda = s.agenda := rfl
@[simp] theorem setCur_stepNo (c : Option Issue) : (s.setCur c).stepNo = s.stepNo := rfl
@[simp] theorem setCur_nextUid (c : Option Issue) : (s.setCur c).nextUid = s.nextUid := rfl
@[simp] theorem setCur_powered (c : Option Issue) : (s.setCur c).powered = s.powered := rfl
@[simp] theorem setCur_timebase (c : Option Issue) : (s.setCur c).timebase = s.timebase := rfl
@[simp] theorem setCur_warps (c : Option Issue) : (s.setCur c).warps = s.warps := rfl
@[simp] theorem setCur_blocks (c : Option Issue) : (s.setCur c).blocks = s.blocks := rfl
@[simp] theorem setCur_launches (c : Option Issue) : (s.setCur c).launches = s.launches := rfl
@[simp] theorem setCur_cores (c : Option Issue) : (s.setCur c).cores = s.cores := rfl
@[simp] theorem setCur_mem (c : Option Issue) : (s.setCur c).mem = s.mem := rfl
@[simp] theorem setCur_rc (c : Option Issue) : (s.setCur c).rc = s.rc := rfl
@[simp] theorem setCur_ms (c : Option Issue) : (s.setCur c).ms = s.ms := rfl
@[simp] theorem setCur_rl (c : Option Issue) : (s.setCur c).rl = s.rl := rfl
@[simp] theorem setCur_relOwner (c : Option Issue) : (s.setCur c).relOwner = s.relOwner := rfl
@[simp] theorem setCur_ext (c : Option Issue) : (s.setCur c).ext = s.ext := rfl
@[simp] theorem setCur_tlb (c : Option Issue) : (s.setCur c).tlb = s.tlb := rfl
@[simp] theorem setCur_engines (c : Option Issue) : (s.setCur c).engines = s.engines := rfl
@[simp] theorem setCur_txs (c : Option Issue) : (s.setCur c).txs = s.txs := rfl
@[simp] theorem setCur_seqs (c : Option Issue) : (s.setCur c).seqs = s.seqs := rfl
@[simp] theorem setCur_mengs (c : Option Issue) : (s.setCur c).mengs = s.mengs := rfl
@[simp] theorem setCur_nodes (c : Option Issue) : (s.setCur c).nodes = s.nodes := rfl
@[simp] theorem setCur_rings (c : Option Issue) : (s.setCur c).rings = s.rings := rfl
@[simp] theorem setCur_regs (c : Option Issue) : (s.setCur c).regs = s.regs := rfl
@[simp] theorem setCur_parts (c : Option Issue) : (s.setCur c).parts = s.parts := rfl
@[simp] theorem setCur_power (c : Option Issue) : (s.setCur c).power = s.power := rfl
@[simp] theorem setCur_fw (c : Option Issue) : (s.setCur c).fw = s.fw := rfl
@[simp] theorem setCur_fabric (c : Option Issue) : (s.setCur c).fabric = s.fabric := rfl
@[simp] theorem setCur_fleet (c : Option Issue) : (s.setCur c).fleet = s.fleet := rfl
@[simp] theorem setCur_out (c : Option Issue) : (s.setCur c).out = s.out := rfl

/-! ### `setCore` -/

@[simp] theorem setCore_agenda (c : Nat) (x : Core) : (s.setCore c x).agenda = s.agenda := rfl
@[simp] theorem setCore_stepNo (c : Nat) (x : Core) : (s.setCore c x).stepNo = s.stepNo := rfl
@[simp] theorem setCore_nextUid (c : Nat) (x : Core) : (s.setCore c x).nextUid = s.nextUid := rfl
@[simp] theorem setCore_powered (c : Nat) (x : Core) : (s.setCore c x).powered = s.powered := rfl
@[simp] theorem setCore_timebase (c : Nat) (x : Core) : (s.setCore c x).timebase = s.timebase := rfl
@[simp] theorem setCore_cur (c : Nat) (x : Core) : (s.setCore c x).cur = s.cur := rfl
@[simp] theorem setCore_warps (c : Nat) (x : Core) : (s.setCore c x).warps = s.warps := rfl
@[simp] theorem setCore_blocks (c : Nat) (x : Core) : (s.setCore c x).blocks = s.blocks := rfl
@[simp] theorem setCore_launches (c : Nat) (x : Core) : (s.setCore c x).launches = s.launches := rfl
@[simp] theorem setCore_mem (c : Nat) (x : Core) : (s.setCore c x).mem = s.mem := rfl
@[simp] theorem setCore_rc (c : Nat) (x : Core) : (s.setCore c x).rc = s.rc := rfl
@[simp] theorem setCore_ms (c : Nat) (x : Core) : (s.setCore c x).ms = s.ms := rfl
@[simp] theorem setCore_rl (c : Nat) (x : Core) : (s.setCore c x).rl = s.rl := rfl
@[simp] theorem setCore_relOwner (c : Nat) (x : Core) : (s.setCore c x).relOwner = s.relOwner := rfl
@[simp] theorem setCore_ext (c : Nat) (x : Core) : (s.setCore c x).ext = s.ext := rfl
@[simp] theorem setCore_tlb (c : Nat) (x : Core) : (s.setCore c x).tlb = s.tlb := rfl
@[simp] theorem setCore_engines (c : Nat) (x : Core) : (s.setCore c x).engines = s.engines := rfl
@[simp] theorem setCore_txs (c : Nat) (x : Core) : (s.setCore c x).txs = s.txs := rfl
@[simp] theorem setCore_seqs (c : Nat) (x : Core) : (s.setCore c x).seqs = s.seqs := rfl
@[simp] theorem setCore_mengs (c : Nat) (x : Core) : (s.setCore c x).mengs = s.mengs := rfl
@[simp] theorem setCore_nodes (c : Nat) (x : Core) : (s.setCore c x).nodes = s.nodes := rfl
@[simp] theorem setCore_rings (c : Nat) (x : Core) : (s.setCore c x).rings = s.rings := rfl
@[simp] theorem setCore_regs (c : Nat) (x : Core) : (s.setCore c x).regs = s.regs := rfl
@[simp] theorem setCore_parts (c : Nat) (x : Core) : (s.setCore c x).parts = s.parts := rfl
@[simp] theorem setCore_power (c : Nat) (x : Core) : (s.setCore c x).power = s.power := rfl
@[simp] theorem setCore_fw (c : Nat) (x : Core) : (s.setCore c x).fw = s.fw := rfl
@[simp] theorem setCore_fabric (c : Nat) (x : Core) : (s.setCore c x).fabric = s.fabric := rfl
@[simp] theorem setCore_fleet (c : Nat) (x : Core) : (s.setCore c x).fleet = s.fleet := rfl
@[simp] theorem setCore_out (c : Nat) (x : Core) : (s.setCore c x).out = s.out := rfl

/-! ### `modCore` -/

@[simp] theorem modCore_agenda (c : Nat) (f : Core → Core) : (s.modCore c f).agenda = s.agenda := rfl
@[simp] theorem modCore_stepNo (c : Nat) (f : Core → Core) : (s.modCore c f).stepNo = s.stepNo := rfl
@[simp] theorem modCore_nextUid (c : Nat) (f : Core → Core) : (s.modCore c f).nextUid = s.nextUid := rfl
@[simp] theorem modCore_powered (c : Nat) (f : Core → Core) : (s.modCore c f).powered = s.powered := rfl
@[simp] theorem modCore_timebase (c : Nat) (f : Core → Core) : (s.modCore c f).timebase = s.timebase := rfl
@[simp] theorem modCore_cur (c : Nat) (f : Core → Core) : (s.modCore c f).cur = s.cur := rfl
@[simp] theorem modCore_warps (c : Nat) (f : Core → Core) : (s.modCore c f).warps = s.warps := rfl
@[simp] theorem modCore_blocks (c : Nat) (f : Core → Core) : (s.modCore c f).blocks = s.blocks := rfl
@[simp] theorem modCore_launches (c : Nat) (f : Core → Core) : (s.modCore c f).launches = s.launches := rfl
@[simp] theorem modCore_mem (c : Nat) (f : Core → Core) : (s.modCore c f).mem = s.mem := rfl
@[simp] theorem modCore_rc (c : Nat) (f : Core → Core) : (s.modCore c f).rc = s.rc := rfl
@[simp] theorem modCore_ms (c : Nat) (f : Core → Core) : (s.modCore c f).ms = s.ms := rfl
@[simp] theorem modCore_rl (c : Nat) (f : Core → Core) : (s.modCore c f).rl = s.rl := rfl
@[simp] theorem modCore_relOwner (c : Nat) (f : Core → Core) : (s.modCore c f).relOwner = s.relOwner := rfl
@[simp] theorem modCore_ext (c : Nat) (f : Core → Core) : (s.modCore c f).ext = s.ext := rfl
@[simp] theorem modCore_tlb (c : Nat) (f : Core → Core) : (s.modCore c f).tlb = s.tlb := rfl
@[simp] theorem modCore_engines (c : Nat) (f : Core → Core) : (s.modCore c f).engines = s.engines := rfl
@[simp] theorem modCore_txs (c : Nat) (f : Core → Core) : (s.modCore c f).txs = s.txs := rfl
@[simp] theorem modCore_seqs (c : Nat) (f : Core → Core) : (s.modCore c f).seqs = s.seqs := rfl
@[simp] theorem modCore_mengs (c : Nat) (f : Core → Core) : (s.modCore c f).mengs = s.mengs := rfl
@[simp] theorem modCore_nodes (c : Nat) (f : Core → Core) : (s.modCore c f).nodes = s.nodes := rfl
@[simp] theorem modCore_rings (c : Nat) (f : Core → Core) : (s.modCore c f).rings = s.rings := rfl
@[simp] theorem modCore_regs (c : Nat) (f : Core → Core) : (s.modCore c f).regs = s.regs := rfl
@[simp] theorem modCore_parts (c : Nat) (f : Core → Core) : (s.modCore c f).parts = s.parts := rfl
@[simp] theorem modCore_power (c : Nat) (f : Core → Core) : (s.modCore c f).power = s.power := rfl
@[simp] theorem modCore_fw (c : Nat) (f : Core → Core) : (s.modCore c f).fw = s.fw := rfl
@[simp] theorem modCore_fabric (c : Nat) (f : Core → Core) : (s.modCore c f).fabric = s.fabric := rfl
@[simp] theorem modCore_fleet (c : Nat) (f : Core → Core) : (s.modCore c f).fleet = s.fleet := rfl
@[simp] theorem modCore_out (c : Nat) (f : Core → Core) : (s.modCore c f).out = s.out := rfl

/-! ### `setEngine` -/

@[simp] theorem setEngine_agenda (e : Nat) (x : Engine) : (s.setEngine e x).agenda = s.agenda := rfl
@[simp] theorem setEngine_stepNo (e : Nat) (x : Engine) : (s.setEngine e x).stepNo = s.stepNo := rfl
@[simp] theorem setEngine_nextUid (e : Nat) (x : Engine) : (s.setEngine e x).nextUid = s.nextUid := rfl
@[simp] theorem setEngine_powered (e : Nat) (x : Engine) : (s.setEngine e x).powered = s.powered := rfl
@[simp] theorem setEngine_timebase (e : Nat) (x : Engine) : (s.setEngine e x).timebase = s.timebase := rfl
@[simp] theorem setEngine_cur (e : Nat) (x : Engine) : (s.setEngine e x).cur = s.cur := rfl
@[simp] theorem setEngine_warps (e : Nat) (x : Engine) : (s.setEngine e x).warps = s.warps := rfl
@[simp] theorem setEngine_blocks (e : Nat) (x : Engine) : (s.setEngine e x).blocks = s.blocks := rfl
@[simp] theorem setEngine_launches (e : Nat) (x : Engine) : (s.setEngine e x).launches = s.launches := rfl
@[simp] theorem setEngine_cores (e : Nat) (x : Engine) : (s.setEngine e x).cores = s.cores := rfl
@[simp] theorem setEngine_mem (e : Nat) (x : Engine) : (s.setEngine e x).mem = s.mem := rfl
@[simp] theorem setEngine_rc (e : Nat) (x : Engine) : (s.setEngine e x).rc = s.rc := rfl
@[simp] theorem setEngine_ms (e : Nat) (x : Engine) : (s.setEngine e x).ms = s.ms := rfl
@[simp] theorem setEngine_rl (e : Nat) (x : Engine) : (s.setEngine e x).rl = s.rl := rfl
@[simp] theorem setEngine_relOwner (e : Nat) (x : Engine) : (s.setEngine e x).relOwner = s.relOwner := rfl
@[simp] theorem setEngine_ext (e : Nat) (x : Engine) : (s.setEngine e x).ext = s.ext := rfl
@[simp] theorem setEngine_tlb (e : Nat) (x : Engine) : (s.setEngine e x).tlb = s.tlb := rfl
@[simp] theorem setEngine_txs (e : Nat) (x : Engine) : (s.setEngine e x).txs = s.txs := rfl
@[simp] theorem setEngine_seqs (e : Nat) (x : Engine) : (s.setEngine e x).seqs = s.seqs := rfl
@[simp] theorem setEngine_mengs (e : Nat) (x : Engine) : (s.setEngine e x).mengs = s.mengs := rfl
@[simp] theorem setEngine_nodes (e : Nat) (x : Engine) : (s.setEngine e x).nodes = s.nodes := rfl
@[simp] theorem setEngine_rings (e : Nat) (x : Engine) : (s.setEngine e x).rings = s.rings := rfl
@[simp] theorem setEngine_regs (e : Nat) (x : Engine) : (s.setEngine e x).regs = s.regs := rfl
@[simp] theorem setEngine_parts (e : Nat) (x : Engine) : (s.setEngine e x).parts = s.parts := rfl
@[simp] theorem setEngine_power (e : Nat) (x : Engine) : (s.setEngine e x).power = s.power := rfl
@[simp] theorem setEngine_fw (e : Nat) (x : Engine) : (s.setEngine e x).fw = s.fw := rfl
@[simp] theorem setEngine_fabric (e : Nat) (x : Engine) : (s.setEngine e x).fabric = s.fabric := rfl
@[simp] theorem setEngine_fleet (e : Nat) (x : Engine) : (s.setEngine e x).fleet = s.fleet := rfl
@[simp] theorem setEngine_out (e : Nat) (x : Engine) : (s.setEngine e x).out = s.out := rfl

/-! ### `setSeq` -/

@[simp] theorem setSeq_agenda (d : Nat) (x : DieSeq) : (s.setSeq d x).agenda = s.agenda := rfl
@[simp] theorem setSeq_stepNo (d : Nat) (x : DieSeq) : (s.setSeq d x).stepNo = s.stepNo := rfl
@[simp] theorem setSeq_nextUid (d : Nat) (x : DieSeq) : (s.setSeq d x).nextUid = s.nextUid := rfl
@[simp] theorem setSeq_powered (d : Nat) (x : DieSeq) : (s.setSeq d x).powered = s.powered := rfl
@[simp] theorem setSeq_timebase (d : Nat) (x : DieSeq) : (s.setSeq d x).timebase = s.timebase := rfl
@[simp] theorem setSeq_cur (d : Nat) (x : DieSeq) : (s.setSeq d x).cur = s.cur := rfl
@[simp] theorem setSeq_warps (d : Nat) (x : DieSeq) : (s.setSeq d x).warps = s.warps := rfl
@[simp] theorem setSeq_blocks (d : Nat) (x : DieSeq) : (s.setSeq d x).blocks = s.blocks := rfl
@[simp] theorem setSeq_launches (d : Nat) (x : DieSeq) : (s.setSeq d x).launches = s.launches := rfl
@[simp] theorem setSeq_cores (d : Nat) (x : DieSeq) : (s.setSeq d x).cores = s.cores := rfl
@[simp] theorem setSeq_mem (d : Nat) (x : DieSeq) : (s.setSeq d x).mem = s.mem := rfl
@[simp] theorem setSeq_rc (d : Nat) (x : DieSeq) : (s.setSeq d x).rc = s.rc := rfl
@[simp] theorem setSeq_ms (d : Nat) (x : DieSeq) : (s.setSeq d x).ms = s.ms := rfl
@[simp] theorem setSeq_rl (d : Nat) (x : DieSeq) : (s.setSeq d x).rl = s.rl := rfl
@[simp] theorem setSeq_relOwner (d : Nat) (x : DieSeq) : (s.setSeq d x).relOwner = s.relOwner := rfl
@[simp] theorem setSeq_ext (d : Nat) (x : DieSeq) : (s.setSeq d x).ext = s.ext := rfl
@[simp] theorem setSeq_tlb (d : Nat) (x : DieSeq) : (s.setSeq d x).tlb = s.tlb := rfl
@[simp] theorem setSeq_engines (d : Nat) (x : DieSeq) : (s.setSeq d x).engines = s.engines := rfl
@[simp] theorem setSeq_txs (d : Nat) (x : DieSeq) : (s.setSeq d x).txs = s.txs := rfl
@[simp] theorem setSeq_mengs (d : Nat) (x : DieSeq) : (s.setSeq d x).mengs = s.mengs := rfl
@[simp] theorem setSeq_nodes (d : Nat) (x : DieSeq) : (s.setSeq d x).nodes = s.nodes := rfl
@[simp] theorem setSeq_rings (d : Nat) (x : DieSeq) : (s.setSeq d x).rings = s.rings := rfl
@[simp] theorem setSeq_regs (d : Nat) (x : DieSeq) : (s.setSeq d x).regs = s.regs := rfl
@[simp] theorem setSeq_parts (d : Nat) (x : DieSeq) : (s.setSeq d x).parts = s.parts := rfl
@[simp] theorem setSeq_power (d : Nat) (x : DieSeq) : (s.setSeq d x).power = s.power := rfl
@[simp] theorem setSeq_fw (d : Nat) (x : DieSeq) : (s.setSeq d x).fw = s.fw := rfl
@[simp] theorem setSeq_fabric (d : Nat) (x : DieSeq) : (s.setSeq d x).fabric = s.fabric := rfl
@[simp] theorem setSeq_fleet (d : Nat) (x : DieSeq) : (s.setSeq d x).fleet = s.fleet := rfl
@[simp] theorem setSeq_out (d : Nat) (x : DieSeq) : (s.setSeq d x).out = s.out := rfl

/-! ### `setMeng` -/

@[simp] theorem setMeng_agenda (c : Nat) (x : MEngine) : (s.setMeng c x).agenda = s.agenda := rfl
@[simp] theorem setMeng_stepNo (c : Nat) (x : MEngine) : (s.setMeng c x).stepNo = s.stepNo := rfl
@[simp] theorem setMeng_nextUid (c : Nat) (x : MEngine) : (s.setMeng c x).nextUid = s.nextUid := rfl
@[simp] theorem setMeng_powered (c : Nat) (x : MEngine) : (s.setMeng c x).powered = s.powered := rfl
@[simp] theorem setMeng_timebase (c : Nat) (x : MEngine) : (s.setMeng c x).timebase = s.timebase := rfl
@[simp] theorem setMeng_cur (c : Nat) (x : MEngine) : (s.setMeng c x).cur = s.cur := rfl
@[simp] theorem setMeng_warps (c : Nat) (x : MEngine) : (s.setMeng c x).warps = s.warps := rfl
@[simp] theorem setMeng_blocks (c : Nat) (x : MEngine) : (s.setMeng c x).blocks = s.blocks := rfl
@[simp] theorem setMeng_launches (c : Nat) (x : MEngine) : (s.setMeng c x).launches = s.launches := rfl
@[simp] theorem setMeng_cores (c : Nat) (x : MEngine) : (s.setMeng c x).cores = s.cores := rfl
@[simp] theorem setMeng_mem (c : Nat) (x : MEngine) : (s.setMeng c x).mem = s.mem := rfl
@[simp] theorem setMeng_rc (c : Nat) (x : MEngine) : (s.setMeng c x).rc = s.rc := rfl
@[simp] theorem setMeng_ms (c : Nat) (x : MEngine) : (s.setMeng c x).ms = s.ms := rfl
@[simp] theorem setMeng_rl (c : Nat) (x : MEngine) : (s.setMeng c x).rl = s.rl := rfl
@[simp] theorem setMeng_relOwner (c : Nat) (x : MEngine) : (s.setMeng c x).relOwner = s.relOwner := rfl
@[simp] theorem setMeng_ext (c : Nat) (x : MEngine) : (s.setMeng c x).ext = s.ext := rfl
@[simp] theorem setMeng_tlb (c : Nat) (x : MEngine) : (s.setMeng c x).tlb = s.tlb := rfl
@[simp] theorem setMeng_engines (c : Nat) (x : MEngine) : (s.setMeng c x).engines = s.engines := rfl
@[simp] theorem setMeng_txs (c : Nat) (x : MEngine) : (s.setMeng c x).txs = s.txs := rfl
@[simp] theorem setMeng_seqs (c : Nat) (x : MEngine) : (s.setMeng c x).seqs = s.seqs := rfl
@[simp] theorem setMeng_nodes (c : Nat) (x : MEngine) : (s.setMeng c x).nodes = s.nodes := rfl
@[simp] theorem setMeng_rings (c : Nat) (x : MEngine) : (s.setMeng c x).rings = s.rings := rfl
@[simp] theorem setMeng_regs (c : Nat) (x : MEngine) : (s.setMeng c x).regs = s.regs := rfl
@[simp] theorem setMeng_parts (c : Nat) (x : MEngine) : (s.setMeng c x).parts = s.parts := rfl
@[simp] theorem setMeng_power (c : Nat) (x : MEngine) : (s.setMeng c x).power = s.power := rfl
@[simp] theorem setMeng_fw (c : Nat) (x : MEngine) : (s.setMeng c x).fw = s.fw := rfl
@[simp] theorem setMeng_fabric (c : Nat) (x : MEngine) : (s.setMeng c x).fabric = s.fabric := rfl
@[simp] theorem setMeng_fleet (c : Nat) (x : MEngine) : (s.setMeng c x).fleet = s.fleet := rfl
@[simp] theorem setMeng_out (c : Nat) (x : MEngine) : (s.setMeng c x).out = s.out := rfl

/-! ### `setPart` -/

@[simp] theorem setPart_agenda (n : Nat) (x : Part) : (s.setPart n x).agenda = s.agenda := rfl
@[simp] theorem setPart_stepNo (n : Nat) (x : Part) : (s.setPart n x).stepNo = s.stepNo := rfl
@[simp] theorem setPart_nextUid (n : Nat) (x : Part) : (s.setPart n x).nextUid = s.nextUid := rfl
@[simp] theorem setPart_powered (n : Nat) (x : Part) : (s.setPart n x).powered = s.powered := rfl
@[simp] theorem setPart_timebase (n : Nat) (x : Part) : (s.setPart n x).timebase = s.timebase := rfl
@[simp] theorem setPart_cur (n : Nat) (x : Part) : (s.setPart n x).cur = s.cur := rfl
@[simp] theorem setPart_warps (n : Nat) (x : Part) : (s.setPart n x).warps = s.warps := rfl
@[simp] theorem setPart_blocks (n : Nat) (x : Part) : (s.setPart n x).blocks = s.blocks := rfl
@[simp] theorem setPart_launches (n : Nat) (x : Part) : (s.setPart n x).launches = s.launches := rfl
@[simp] theorem setPart_cores (n : Nat) (x : Part) : (s.setPart n x).cores = s.cores := rfl
@[simp] theorem setPart_mem (n : Nat) (x : Part) : (s.setPart n x).mem = s.mem := rfl
@[simp] theorem setPart_rc (n : Nat) (x : Part) : (s.setPart n x).rc = s.rc := rfl
@[simp] theorem setPart_ms (n : Nat) (x : Part) : (s.setPart n x).ms = s.ms := rfl
@[simp] theorem setPart_rl (n : Nat) (x : Part) : (s.setPart n x).rl = s.rl := rfl
@[simp] theorem setPart_relOwner (n : Nat) (x : Part) : (s.setPart n x).relOwner = s.relOwner := rfl
@[simp] theorem setPart_ext (n : Nat) (x : Part) : (s.setPart n x).ext = s.ext := rfl
@[simp] theorem setPart_tlb (n : Nat) (x : Part) : (s.setPart n x).tlb = s.tlb := rfl
@[simp] theorem setPart_engines (n : Nat) (x : Part) : (s.setPart n x).engines = s.engines := rfl
@[simp] theorem setPart_txs (n : Nat) (x : Part) : (s.setPart n x).txs = s.txs := rfl
@[simp] theorem setPart_seqs (n : Nat) (x : Part) : (s.setPart n x).seqs = s.seqs := rfl
@[simp] theorem setPart_mengs (n : Nat) (x : Part) : (s.setPart n x).mengs = s.mengs := rfl
@[simp] theorem setPart_nodes (n : Nat) (x : Part) : (s.setPart n x).nodes = s.nodes := rfl
@[simp] theorem setPart_rings (n : Nat) (x : Part) : (s.setPart n x).rings = s.rings := rfl
@[simp] theorem setPart_regs (n : Nat) (x : Part) : (s.setPart n x).regs = s.regs := rfl
@[simp] theorem setPart_power (n : Nat) (x : Part) : (s.setPart n x).power = s.power := rfl
@[simp] theorem setPart_fw (n : Nat) (x : Part) : (s.setPart n x).fw = s.fw := rfl
@[simp] theorem setPart_fabric (n : Nat) (x : Part) : (s.setPart n x).fabric = s.fabric := rfl
@[simp] theorem setPart_fleet (n : Nat) (x : Part) : (s.setPart n x).fleet = s.fleet := rfl
@[simp] theorem setPart_out (n : Nat) (x : Part) : (s.setPart n x).out = s.out := rfl

/-! ### `modPart` -/

@[simp] theorem modPart_agenda (n : Nat) (f : Part → Part) : (s.modPart n f).agenda = s.agenda := rfl
@[simp] theorem modPart_stepNo (n : Nat) (f : Part → Part) : (s.modPart n f).stepNo = s.stepNo := rfl
@[simp] theorem modPart_nextUid (n : Nat) (f : Part → Part) : (s.modPart n f).nextUid = s.nextUid := rfl
@[simp] theorem modPart_powered (n : Nat) (f : Part → Part) : (s.modPart n f).powered = s.powered := rfl
@[simp] theorem modPart_timebase (n : Nat) (f : Part → Part) : (s.modPart n f).timebase = s.timebase := rfl
@[simp] theorem modPart_cur (n : Nat) (f : Part → Part) : (s.modPart n f).cur = s.cur := rfl
@[simp] theorem modPart_warps (n : Nat) (f : Part → Part) : (s.modPart n f).warps = s.warps := rfl
@[simp] theorem modPart_blocks (n : Nat) (f : Part → Part) : (s.modPart n f).blocks = s.blocks := rfl
@[simp] theorem modPart_launches (n : Nat) (f : Part → Part) : (s.modPart n f).launches = s.launches := rfl
@[simp] theorem modPart_cores (n : Nat) (f : Part → Part) : (s.modPart n f).cores = s.cores := rfl
@[simp] theorem modPart_mem (n : Nat) (f : Part → Part) : (s.modPart n f).mem = s.mem := rfl
@[simp] theorem modPart_rc (n : Nat) (f : Part → Part) : (s.modPart n f).rc = s.rc := rfl
@[simp] theorem modPart_ms (n : Nat) (f : Part → Part) : (s.modPart n f).ms = s.ms := rfl
@[simp] theorem modPart_rl (n : Nat) (f : Part → Part) : (s.modPart n f).rl = s.rl := rfl
@[simp] theorem modPart_relOwner (n : Nat) (f : Part → Part) : (s.modPart n f).relOwner = s.relOwner := rfl
@[simp] theorem modPart_ext (n : Nat) (f : Part → Part) : (s.modPart n f).ext = s.ext := rfl
@[simp] theorem modPart_tlb (n : Nat) (f : Part → Part) : (s.modPart n f).tlb = s.tlb := rfl
@[simp] theorem modPart_engines (n : Nat) (f : Part → Part) : (s.modPart n f).engines = s.engines := rfl
@[simp] theorem modPart_txs (n : Nat) (f : Part → Part) : (s.modPart n f).txs = s.txs := rfl
@[simp] theorem modPart_seqs (n : Nat) (f : Part → Part) : (s.modPart n f).seqs = s.seqs := rfl
@[simp] theorem modPart_mengs (n : Nat) (f : Part → Part) : (s.modPart n f).mengs = s.mengs := rfl
@[simp] theorem modPart_nodes (n : Nat) (f : Part → Part) : (s.modPart n f).nodes = s.nodes := rfl
@[simp] theorem modPart_rings (n : Nat) (f : Part → Part) : (s.modPart n f).rings = s.rings := rfl
@[simp] theorem modPart_regs (n : Nat) (f : Part → Part) : (s.modPart n f).regs = s.regs := rfl
@[simp] theorem modPart_power (n : Nat) (f : Part → Part) : (s.modPart n f).power = s.power := rfl
@[simp] theorem modPart_fw (n : Nat) (f : Part → Part) : (s.modPart n f).fw = s.fw := rfl
@[simp] theorem modPart_fabric (n : Nat) (f : Part → Part) : (s.modPart n f).fabric = s.fabric := rfl
@[simp] theorem modPart_fleet (n : Nat) (f : Part → Part) : (s.modPart n f).fleet = s.fleet := rfl
@[simp] theorem modPart_out (n : Nat) (f : Part → Part) : (s.modPart n f).out = s.out := rfl

/-! ### `setH` -/

@[simp] theorem setH_agenda (pa : Nat) (v : Byte) : (s.setH pa v).agenda = s.agenda := rfl
@[simp] theorem setH_stepNo (pa : Nat) (v : Byte) : (s.setH pa v).stepNo = s.stepNo := rfl
@[simp] theorem setH_nextUid (pa : Nat) (v : Byte) : (s.setH pa v).nextUid = s.nextUid := rfl
@[simp] theorem setH_powered (pa : Nat) (v : Byte) : (s.setH pa v).powered = s.powered := rfl
@[simp] theorem setH_timebase (pa : Nat) (v : Byte) : (s.setH pa v).timebase = s.timebase := rfl
@[simp] theorem setH_cur (pa : Nat) (v : Byte) : (s.setH pa v).cur = s.cur := rfl
@[simp] theorem setH_warps (pa : Nat) (v : Byte) : (s.setH pa v).warps = s.warps := rfl
@[simp] theorem setH_blocks (pa : Nat) (v : Byte) : (s.setH pa v).blocks = s.blocks := rfl
@[simp] theorem setH_launches (pa : Nat) (v : Byte) : (s.setH pa v).launches = s.launches := rfl
@[simp] theorem setH_cores (pa : Nat) (v : Byte) : (s.setH pa v).cores = s.cores := rfl
@[simp] theorem setH_rc (pa : Nat) (v : Byte) : (s.setH pa v).rc = s.rc := rfl
@[simp] theorem setH_ms (pa : Nat) (v : Byte) : (s.setH pa v).ms = s.ms := rfl
@[simp] theorem setH_rl (pa : Nat) (v : Byte) : (s.setH pa v).rl = s.rl := rfl
@[simp] theorem setH_relOwner (pa : Nat) (v : Byte) : (s.setH pa v).relOwner = s.relOwner := rfl
@[simp] theorem setH_ext (pa : Nat) (v : Byte) : (s.setH pa v).ext = s.ext := rfl
@[simp] theorem setH_tlb (pa : Nat) (v : Byte) : (s.setH pa v).tlb = s.tlb := rfl
@[simp] theorem setH_engines (pa : Nat) (v : Byte) : (s.setH pa v).engines = s.engines := rfl
@[simp] theorem setH_txs (pa : Nat) (v : Byte) : (s.setH pa v).txs = s.txs := rfl
@[simp] theorem setH_seqs (pa : Nat) (v : Byte) : (s.setH pa v).seqs = s.seqs := rfl
@[simp] theorem setH_mengs (pa : Nat) (v : Byte) : (s.setH pa v).mengs = s.mengs := rfl
@[simp] theorem setH_nodes (pa : Nat) (v : Byte) : (s.setH pa v).nodes = s.nodes := rfl
@[simp] theorem setH_rings (pa : Nat) (v : Byte) : (s.setH pa v).rings = s.rings := rfl
@[simp] theorem setH_regs (pa : Nat) (v : Byte) : (s.setH pa v).regs = s.regs := rfl
@[simp] theorem setH_parts (pa : Nat) (v : Byte) : (s.setH pa v).parts = s.parts := rfl
@[simp] theorem setH_power (pa : Nat) (v : Byte) : (s.setH pa v).power = s.power := rfl
@[simp] theorem setH_fw (pa : Nat) (v : Byte) : (s.setH pa v).fw = s.fw := rfl
@[simp] theorem setH_fabric (pa : Nat) (v : Byte) : (s.setH pa v).fabric = s.fabric := rfl
@[simp] theorem setH_fleet (pa : Nat) (v : Byte) : (s.setH pa v).fleet = s.fleet := rfl
@[simp] theorem setH_out (pa : Nat) (v : Byte) : (s.setH pa v).out = s.out := rfl

/-! ### `retry` -/

@[simp] theorem retry_agenda  : (s.retry).agenda = s.agenda := rfl
@[simp] theorem retry_stepNo  : (s.retry).stepNo = s.stepNo := rfl
@[simp] theorem retry_nextUid  : (s.retry).nextUid = s.nextUid := rfl
@[simp] theorem retry_powered  : (s.retry).powered = s.powered := rfl
@[simp] theorem retry_timebase  : (s.retry).timebase = s.timebase := rfl
@[simp] theorem retry_blocks  : (s.retry).blocks = s.blocks := rfl
@[simp] theorem retry_launches  : (s.retry).launches = s.launches := rfl
@[simp] theorem retry_cores  : (s.retry).cores = s.cores := rfl
@[simp] theorem retry_mem  : (s.retry).mem = s.mem := rfl
@[simp] theorem retry_rc  : (s.retry).rc = s.rc := rfl
@[simp] theorem retry_ms  : (s.retry).ms = s.ms := rfl
@[simp] theorem retry_rl  : (s.retry).rl = s.rl := rfl
@[simp] theorem retry_relOwner  : (s.retry).relOwner = s.relOwner := rfl
@[simp] theorem retry_ext  : (s.retry).ext = s.ext := rfl
@[simp] theorem retry_tlb  : (s.retry).tlb = s.tlb := rfl
@[simp] theorem retry_engines  : (s.retry).engines = s.engines := rfl
@[simp] theorem retry_txs  : (s.retry).txs = s.txs := rfl
@[simp] theorem retry_seqs  : (s.retry).seqs = s.seqs := rfl
@[simp] theorem retry_mengs  : (s.retry).mengs = s.mengs := rfl
@[simp] theorem retry_nodes  : (s.retry).nodes = s.nodes := rfl
@[simp] theorem retry_rings  : (s.retry).rings = s.rings := rfl
@[simp] theorem retry_regs  : (s.retry).regs = s.regs := rfl
@[simp] theorem retry_parts  : (s.retry).parts = s.parts := rfl
@[simp] theorem retry_power  : (s.retry).power = s.power := rfl
@[simp] theorem retry_fw  : (s.retry).fw = s.fw := rfl
@[simp] theorem retry_fabric  : (s.retry).fabric = s.fabric := rfl
@[simp] theorem retry_fleet  : (s.retry).fleet = s.fleet := rfl
@[simp] theorem retry_out  : (s.retry).out = s.out := rfl

/-! ### What the updates write -/

@[simp] theorem setWarp_warps (u : Nat) (w : Warp) : (s.setWarp u w).warps = kput s.warps u w := rfl
@[simp] theorem modWarp_warps (u : Nat) (f : Warp → Warp) : (s.modWarp u f).warps = kmod s.warps u f := rfl
@[simp] theorem setBlock_blocks (b : Nat) (x : Block) : (s.setBlock b x).blocks = kput s.blocks b x := rfl
@[simp] theorem modBlock_blocks (b : Nat) (f : Block → Block) : (s.modBlock b f).blocks = kmod s.blocks b f := rfl
@[simp] theorem setLaunch_launches (l : Nat) (x : Launch) : (s.setLaunch l x).launches = kput s.launches l x := rfl
@[simp] theorem modLaunch_launches (l : Nat) (f : Launch → Launch) : (s.modLaunch l f).launches = kmod s.launches l f := rfl
@[simp] theorem setCur_cur (c : Option Issue) : (s.setCur c).cur = c := rfl
@[simp] theorem retry_cur : s.retry.cur = none := rfl
theorem retry_warps {is : Issue} (h : s.cur = some is) : s.retry.warps = kmod s.warps is.u (Warp.unissue is) := by
  unfold State.retry; rw [h]
@[simp] theorem setH_mem (pa : Nat) (v : Byte) : (s.setH pa v).mem = sset 0 s.mem pa v := rfl

/-! ### Reading a piece after writing one -/

@[simp] theorem core_setCore_self (c : Nat) (x : Core) : (s.setCore c x).core c = x := sget_sset_self _ _ _ _
theorem core_setCore_ne {c d : Nat} (x : Core) (h : d ≠ c) : (s.setCore c x).core d = s.core d := sget_sset_ne _ _ _ h
@[simp] theorem core_modCore_self (c : Nat) (f : Core → Core) : (s.modCore c f).core c = f (s.core c) := sget_sset_self _ _ _ _
theorem core_modCore_ne {c d : Nat} (f : Core → Core) (h : d ≠ c) : (s.modCore c f).core d = s.core d := sget_sset_ne _ _ _ h
@[simp] theorem engine_setEngine_self (e : Nat) (x : Engine) : (s.setEngine e x).engine e = x := sget_sset_self _ _ _ _
theorem engine_setEngine_ne {e d : Nat} (x : Engine) (h : d ≠ e) : (s.setEngine e x).engine d = s.engine d := sget_sset_ne _ _ _ h
@[simp] theorem seq_setSeq_self (d : Nat) (x : DieSeq) : (s.setSeq d x).seq d = x := sget_sset_self _ _ _ _
@[simp] theorem meng_setMeng_self (c : Nat) (x : MEngine) : (s.setMeng c x).meng c = x := sget_sset_self _ _ _ _
@[simp] theorem part_setPart_self (n : Nat) (x : Part) : (s.setPart n x).part n = x := sget_sset_self _ _ _ _
@[simp] theorem part_modPart_self (n : Nat) (f : Part → Part) : (s.modPart n f).part n = f (s.part n) := sget_sset_self _ _ _ _
@[simp] theorem hByte_setH_self (pa : Nat) (v : Byte) : (s.setH pa v).hByte pa = v := sget_sset_self _ _ _ _
theorem hByte_setH_ne {pa a : Nat} (v : Byte) (h : a ≠ pa) : (s.setH pa v).hByte a = s.hByte a := sget_sset_ne _ _ _ h

/-! ### Registers -/

theorem RegFile.get_drop_ne (f : RegFile) {r q : Reg} (h : q ≠ r) : (f.drop r).get q = f.get q := by
  induction f with
  | nil => rfl
  | cons e t ih =>
    obtain ⟨r', v⟩ := e
    by_cases hr : r' = r
    · subst hr; simp [RegFile.drop, RegFile.get, Ne.symm h, ih]
    · simp [RegFile.drop, RegFile.get, hr, ih]

theorem RegFile.get_drop_self (f : RegFile) (r : Reg) : (f.drop r).get r = r.reset := by
  induction f with
  | nil => rfl
  | cons e t ih =>
    obtain ⟨r', v⟩ := e
    by_cases hr : r' = r
    · simp [RegFile.drop, hr, ih]
    · simp [RegFile.drop, RegFile.get, hr, ih]

/-- A register reads as it was written. -/
@[simp] theorem reg_setReg_self (r : Reg) (v : Nat) : (s.setReg r v).reg r = v := by
  simp only [State.reg, State.setReg, RegFile.set]
  split
  · rename_i h; rw [RegFile.get_drop_self, h]
  · simp [RegFile.get]

/-- Writing a register leaves every other. -/
theorem reg_setReg_ne {r q : Reg} (v : Nat) (h : q ≠ r) : (s.setReg r v).reg q = s.reg q := by
  simp only [State.reg, State.setReg, RegFile.set]
  split
  · exact RegFile.get_drop_ne _ h
  · simp [RegFile.get, Ne.symm h, RegFile.get_drop_ne _ h]

end Sys2Proof.Machine
end

