-- ==== Sys2Proof/Laws/Front.lean ====
section
/-! SUPPORT. The shared front end: an instruction that meets `Issues` passes it with what `Issues` says, and only such an
instruction passes it. -/

namespace Sys2Proof.Machine

/-- An instruction that issues passes the front end. -/
theorem front_of_issues {i : Instr} {s : State} {c : Ctx} (h : Issues i s c) : front i s = .go c (s.setWarp c.u c.w) := by
  obtain ⟨u, is, w, p, lr, px, m, row, early, step⟩ := c
  obtain ⟨hcur, hu, ⟨w0, hw, hend, hon, hwin, hm, g, hg, he, hcw⟩, hwho, hlr, hlane, hrow, hpx, hacc, hleg, hcnt, hst⟩ := h
  simp only at *
  subst hu hrow hst hpx
  have h1 : (w0.ended || is.mask == 0) = false := by simp [hend]; simpa using hlane
  have h2 : (is.pfx.isSome && !i.row.accepts is.px) = false := by
    by_cases hp : is.pfx.isSome = true
    · simp [hacc hp]
    · simp [hp]
  have h3 : (!(i.legalWord is.px && i.legalOn w0.tile)) = false := by simp [hleg, hon]
  have h4 : (lr.checkstall && !g.2.isEmpty) = false := by
    by_cases hc : lr.checkstall = true
    · rw [← he]; simp [hcnt hc]
    · simp [hc]
  subst hm hg he hcw
  unfold front
  simp only [hcur, hw, hwho, hlr, h1, h2, h3, h4, hwin, Bool.false_eq_true, if_false]

/-- Only an instruction that issues passes the front end. -/
theorem issues_of_front {i : Instr} {s t : State} {c : Ctx} (h : front i s = .go c t) : Issues i s c ∧ t = s.setWarp c.u c.w := by
  unfold front at h
  split at h
  · cases h
  · rename_i is hcur
    split at h
    · rename_i w p hw hp
      split at h
      · cases h
      · rename_i lr hlr
        simp only at h
        split at h
        · cases h
        · rename_i h1
          split at h
          · cases h
          · rename_i h2
            split at h
            · cases h
            · rename_i h3
              split at h
              · cases h
              · rename_i hwin
                split at h
                · cases h
                · rename_i h4
                  cases h
                  simp only [Bool.or_eq_true, not_or, Bool.not_eq_true, beq_eq_false_iff_ne, ne_eq] at h1
                  simp only [Bool.not_eq_true', Bool.not_eq_false, Bool.and_eq_true] at h3
                  simp only [Bool.and_eq_true, Bool.not_eq_true', not_and, Bool.not_eq_false, List.isEmpty_iff] at h2 h4
                  exact ⟨⟨hcur, rfl, ⟨w, hw, h1.1, h3.2, hwin, rfl, _, rfl, rfl, rfl⟩, hp, hlr, h1.2, rfl, rfl, h2, h3.1, h4, rfl⟩, rfl⟩
    · cases h

end Sys2Proof.Machine
end

