-- ==== Sys2Proof/Laws/Unit.lean ====
section
/-! SUPPORT. What the shared operations of a unit's instruction leave: counters, lineage, the end of an instruction. -/

namespace Sys2Proof.Machine

theorem OnlyUnit.refl (s : State) (u : Nat) : OnlyUnit s s u :=
  ⟨fun _ => rfl, fun _ _ => rfl, fun _ => rfl, fun _ _ => rfl, fun _ => rfl, rfl, fun _ => ⟨rfl, rfl⟩⟩

theorem OnlyUnit.trans {a b c : State} {u : Nat} (h : OnlyUnit a b u) (k : OnlyUnit b c u) : OnlyUnit a c u := by
  refine ⟨fun x => (k.memory x).trans (h.memory x), fun x y => (k.scratch x y).trans (h.scratch x y),
    fun v => (k.core v).trans (h.core v), fun v hv => (k.others v hv).trans (h.others v hv),
    fun l => (k.launches l).trans (h.launches l), ?_, ?_⟩
  · have h1 := h.rest
    have h2 := k.rest
    cases a; cases b; cases c
    simp only [State.mk.injEq] at h1 h2 ⊢
    simp_all
  · intro hs
    obtain ⟨h1, h2⟩ := h.debug hs
    have hs' : ∀ p, (b.part p).stepping = [] := by
      intro p; unfold State.part; rw [h2]; exact hs p
    obtain ⟨k1, k2⟩ := k.debug hs'
    exact ⟨k1.trans h1, k2.trans h2⟩

theorem onlyUnit_setWarp (s : State) (u : Nat) (w : Warp) : OnlyUnit s (s.setWarp u w) u :=
  ⟨fun _ => rfl, fun _ _ => rfl, fun _ => rfl, fun _ hv => kget_kput_ne _ _ hv, fun _ => rfl, rfl, fun _ => ⟨rfl, rfl⟩⟩

theorem onlyUnit_modWarp (s : State) (u : Nat) (f : Warp → Warp) : OnlyUnit s (s.modWarp u f) u :=
  ⟨fun _ => rfl, fun _ _ => rfl, fun _ => rfl, fun _ hv => kget_kmod_ne _ _ hv, fun _ => rfl, rfl, fun _ => ⟨rfl, rfl⟩⟩

theorem onlyUnit_cur (s : State) (u : Nat) (c : Option Issue) : OnlyUnit s { s with cur := c } u :=
  ⟨fun _ => rfl, fun _ _ => rfl, fun _ => rfl, fun _ _ => rfl, fun _ => rfl, rfl, fun _ => ⟨rfl, rfl⟩⟩

theorem onlyUnit_uid (s : State) (u n : Nat) : OnlyUnit s { s with nextUid := n } u :=
  ⟨fun _ => rfl, fun _ _ => rfl, fun _ => rfl, fun _ _ => rfl, fun _ => rfl, rfl, fun _ => ⟨rfl, rfl⟩⟩

theorem onlyUnit_modCore (s : State) (u k : Nat) (f : Core → Core) (h : ∀ c, (f c).seen = c.seen) :
    OnlyUnit s (s.modCore k f) u := by
  refine ⟨fun _ => rfl, fun _ _ => rfl, fun v => ?_, fun _ _ => rfl, fun _ => rfl, rfl, fun _ => ⟨rfl, rfl⟩⟩
  by_cases hv : v = k
  · subst hv; simp [h]
  · rw [core_modCore_ne _ _ hv]

/-- Measured events change one counter of a launch. -/
theorem onlyUnit_bumpBy (s : State) (u lid core code n : Nat) : OnlyUnit s (s.bumpBy lid core code n) u := by
  unfold State.bumpBy
  split
  · exact .refl _ _
  · rename_i l hl
    split
    · refine ⟨fun _ => rfl, fun _ _ => rfl, fun _ => rfl, fun _ _ => rfl, fun k => ?_, rfl, fun _ => ⟨rfl, rfl⟩⟩
      simp only [setLaunch_launches, kget_kput]
      split
      · rename_i hk; subst hk; simp [hl]
      · rfl
    · exact .refl _ _

theorem onlyUnit_bump (s : State) (u lid core code : Nat) : OnlyUnit s (s.bump lid core code) u := onlyUnit_bumpBy ..

/-- Measured events change launches alone. -/
theorem bumpBy_eq (s : State) (lid core code n : Nat) : ∃ ls, s.bumpBy lid core code n = { s with launches := ls } := by
  unfold State.bumpBy; split
  · exact ⟨s.launches, rfl⟩
  · split
    · exact ⟨_, rfl⟩
    · exact ⟨s.launches, rfl⟩

@[simp] theorem bumpBy_warps (s : State) (lid core code n : Nat) : (s.bumpBy lid core code n).warps = s.warps := by
  obtain ⟨ls, h⟩ := bumpBy_eq s lid core code n
  rw [h]
@[simp] theorem bumpBy_parts (s : State) (lid core code n : Nat) : (s.bumpBy lid core code n).parts = s.parts := by
  obtain ⟨ls, h⟩ := bumpBy_eq s lid core code n
  rw [h]
@[simp] theorem bump_warps (s : State) (lid core code : Nat) : (s.bump lid core code).warps = s.warps := bumpBy_warps ..
@[simp] theorem bump_parts (s : State) (lid core code : Nat) : (s.bump lid core code).parts = s.parts := bumpBy_parts ..

/-! ### The value store (R66 to R70) -/

theorem dropEntries_seen (c : Core) (p : VsEntry → Bool) : (c.dropEntries p).seen = c.seen := by
  unfold Core.dropEntries; split <;> rfl

/-- Reclaiming retained values touches the core's value store alone. -/
theorem vsReclaim_frame (core u : Nat) : ∀ (n : Nat) (s : State), OnlyUnit s (s.vsReclaim core n) u ∧ (s.vsReclaim core n).warps = s.warps
  | 0, s => ⟨.refl _ _, rfl⟩
  | n + 1, s => by
    unfold State.vsReclaim
    simp only
    split
    · exact ⟨.refl _ _, rfl⟩
    · split
      · rename_i v _
        obtain ⟨a, b⟩ := vsReclaim_frame core u n (s.modCore core (fun c => c.dropEntries (fun e => e.num == v.2.num)))
        exact ⟨(onlyUnit_modCore _ _ _ _ (fun c => dropEntries_seen c _)).trans a, b⟩
      · exact ⟨.refl _ _, rfl⟩

theorem onlyUnit_vsSweep (s : State) (u core : Nat) : OnlyUnit s (s.vsSweep core) u := by
  unfold State.vsSweep
  split
  · exact .refl _ _
  · simp only
    refine OnlyUnit.trans (OnlyUnit.trans (onlyUnit_modCore s u core _ ?_) (vsReclaim_frame core u _ _).1) (onlyUnit_modCore _ _ _ _ ?_) <;>
      exact fun c => rfl

@[simp] theorem vsSweep_warps (s : State) (core : Nat) : (s.vsSweep core).warps = s.warps := by
  unfold State.vsSweep
  split
  · rfl
  · exact (vsReclaim_frame core 0 _ _).2

theorem onlyUnit_evict (s : State) (u core : Nat) (v : Option Nat) : OnlyUnit s (s.evict core v) u := by
  cases v
  · exact .refl _ _
  · exact onlyUnit_modCore _ _ _ _ (fun c => dropEntries_seen c _)

@[simp] theorem evict_warps (s : State) (core : Nat) (v : Option Nat) : (s.evict core v).warps = s.warps := by
  cases v <;> rfl

theorem onlyUnit_putWatch (s : State) (u core : Nat) (k : LinKey) (a : Option Nat) (b : Option (List Nat × List Nat)) :
    OnlyUnit s (s.putWatch core k a b) u := by
  unfold State.putWatch
  split
  · apply onlyUnit_modCore; intro c; rfl
  · exact .refl _ _

@[simp] theorem putWatch_warps (s : State) (core : Nat) (k : LinKey) (a : Option Nat) (b : Option (List Nat × List Nat)) :
    (s.putWatch core k a b).warps = s.warps := by
  unfold State.putWatch; split <;> rfl

/-- Mapping registers changes a warp's lineage alone. -/
theorem mapRegs_eq (w : Warp) (r n : Nat) (m : Option (Nat × Bool)) : ∃ l, w.mapRegs r n m = { w with lin := l } := by
  unfold Warp.mapRegs
  induction List.range n generalizing w with
  | nil => exact ⟨w.lin, rfl⟩
  | cons j t ih =>
    simp only [List.foldl_cons]
    cases m with
    | none => obtain ⟨l, h⟩ := ih { w with lin := kdel w.lin (r + j) }; exact ⟨l, h⟩
    | some x => obtain ⟨l, h⟩ := ih { w with lin := kput w.lin (r + j) ⟨x.1, j, x.2⟩ }; exact ⟨l, h⟩

/-- A result's lineage touches the unit's lineage and the time from which the result may be read, the core's value store and counters, and
nothing else. -/
theorem linResult_frame (s : State) (core u r n : Nat) (fl : KMap (BitVec 5)) (k : Option LinUse) :
    OnlyUnit s (s.linResult core u r n fl k) u ∧
    ∀ w, kget s.warps u = some w → ∃ l hz, kget (s.linResult core u r n fl k).warps u = some { w with lin := l, haz := hz } := by
  have key : ∀ (t : State) (m : Option (Nat × Bool)) (w : Warp), kget t.warps u = some w →
      ∃ l hz, kget ((t.modWarp u (fun w => w.mapRegs r n m)).vsSweep core).warps u = some { w with lin := l, haz := hz } := by
    intro t m w hw
    obtain ⟨l, hl⟩ := mapRegs_eq w r n m
    exact ⟨l, w.haz, by simp [hw, hl]⟩
  unfold State.linResult
  cases k with
  | none => exact ⟨(onlyUnit_modWarp _ _ _).trans (onlyUnit_vsSweep _ _ _), fun w hw => key _ _ w hw⟩
  | some k =>
    simp only
    split
    · rename_i e _
      refine ⟨?_, fun w hw => ?_⟩
      rotate_left
      · obtain ⟨l, hl⟩ := mapRegs_eq (if e.2.pending then w else w.readyAt1 r n k.at1) r n (some (e.1, true))
        refine ⟨l, (if e.2.pending then w else w.readyAt1 r n k.at1).haz, ?_⟩
        rw [vsSweep_warps, modWarp_warps, kget_kmod_self, modCore_warps, bump_warps, bump_warps, hw]
        simp only [Option.map_some, hl]
        split <;> rfl
      refine OnlyUnit.trans ?_ (onlyUnit_vsSweep _ _ _)
      refine OnlyUnit.trans ?_ (onlyUnit_modWarp _ _ _)
      refine OnlyUnit.trans ?_ (onlyUnit_modCore _ _ _ _ ?_)
      · exact (onlyUnit_bump _ _ _ _ _).trans (onlyUnit_bump _ _ _ _ _)
      · intro c; rfl
    · split
      · rename_i sl num victim _ _
        obtain ⟨hs1, hw1⟩ : OnlyUnit s ((s.bump ((s.who u).elim 0 (·.launch)) core 3).fresh).2 u ∧
            ((s.bump ((s.who u).elim 0 (·.launch)) core 3).fresh).2.warps = s.warps :=
          ⟨(onlyUnit_bump _ u _ _ _).trans (onlyUnit_uid _ u _), by simp [State.fresh]⟩
        generalize (s.bump ((s.who u).elim 0 (·.launch)) core 3).fresh = q at hs1 hw1 ⊢
        obtain ⟨eid, s1⟩ := q
        simp only at hs1 hw1 ⊢
        refine ⟨hs1.trans ?_, fun w hw => ?_⟩
        · refine OnlyUnit.trans ?_ (onlyUnit_vsSweep _ _ _)
          refine OnlyUnit.trans ?_ (onlyUnit_modWarp _ _ _)
          refine OnlyUnit.trans ?_ (onlyUnit_putWatch _ _ _ _ _ _)
          refine (onlyUnit_evict s1 u core victim).trans ?_
          apply onlyUnit_modCore; intro c; rfl
        · exact key _ _ w (by simpa [hw1] using hw)
      · exact ⟨((onlyUnit_bump _ _ _ _ _).trans (onlyUnit_modWarp _ _ _)).trans (onlyUnit_vsSweep _ _ _),
          fun w hw => key _ _ w (by simpa using hw)⟩

/-! ### The end of an instruction (R23) -/

/-- The end of a debug step writes the partition's debug registers and its pending entries. -/
theorem stepOver_eq (s : State) (p v pc : Nat) (g : Nat × Nat × Mask → Bool) :
    ∃ r ps, s.stepOver p v pc g = { s with regs := r, parts := ps } := by
  by_cases h : (s.part p).stepping.isEmpty = true
  · exact ⟨s.regs, s.parts, by simp [State.stepOver, h]⟩
  · obtain ⟨q, hq⟩ : ∃ q, q = s.modPart p (fun x => { x with stepping := x.stepping.filter (fun e => !g e) }) := ⟨_, rfl⟩
    have he : s.stepOver p v pc g = if (q.part p).stepping.isEmpty then
        (((q.setPreg p .dstate 2).setPreg p .dresult 0).setPreg p .dstop 4).setPreg p .dpc
          (((kget q.warps v).bind (fun w => headOf w.frontier)).elim pc (·.pc.toNat)) else q := by
      rw [hq]; unfold State.stepOver; rw [if_neg h]
    rw [he]
    have hs : ∀ r, { q with regs := r } = { s with regs := r, parts := q.parts } := by intro r; rw [hq]; rfl
    have hr : ∀ (t : State) (n : Nat), ∃ r, (((t.setPreg p .dstate 2).setPreg p .dresult 0).setPreg p .dstop 4).setPreg p .dpc n =
      { t with regs := r } := fun t n => ⟨_, rfl⟩
    by_cases hh : (q.part p).stepping.isEmpty = true
    · rw [if_pos hh]
      obtain ⟨r, hr⟩ := hr q (((kget q.warps v).bind (fun w => headOf w.frontier)).elim pc (·.pc.toNat))
      rw [hr]
      exact ⟨r, _, hs r⟩
    · rw [if_neg hh]; exact ⟨q.regs, q.parts, hs q.regs⟩

theorem onlyUnit_stepOver (s : State) (u p v pc : Nat) (g : Nat × Nat × Mask → Bool) : OnlyUnit s (s.stepOver p v pc g) u := by
  by_cases h : (s.part p).stepping.isEmpty = true
  · have : s.stepOver p v pc g = s := by simp [State.stepOver, h]
    rw [this]; exact .refl _ _
  · obtain ⟨r, ps, he⟩ := stepOver_eq s p v pc g
    rw [he]
    exact ⟨fun _ => rfl, fun _ _ => rfl, fun _ => rfl, fun _ _ => rfl, fun _ => rfl, rfl, fun hs => absurd (by simp [hs p]) h⟩

@[simp] theorem stepOver_warps (s : State) (p v pc : Nat) (g : Nat × Nat × Mask → Bool) :
    (s.stepOver p v pc g).warps = s.warps := by
  obtain ⟨r, ps, he⟩ := stepOver_eq s p v pc g
  rw [he]

@[simp] theorem stepDone_warps (s : State) (p u pc : Nat) : (s.stepDone p u pc).warps = s.warps := stepOver_warps ..
@[simp] theorem stepEnd_warps (s : State) (p u pc : Nat) : (s.stepEnd p u pc).warps = s.warps := stepOver_warps ..

/-- A new frontier changes the frontier and the fairness state alone. -/
theorem setFrontier_eq (w : Warp) (fr : List Entry) :
    ∃ n t, w.setFrontier fr = { w with frontier := fr, fair := n, turn := t } := by
  unfold Warp.setFrontier
  split
  · split <;> exact ⟨_, _, rfl⟩
  · exact ⟨_, _, rfl⟩

theorem move_eq (w : Warp) (m : Mask) (pc : DWord) (st : EntSt) :
    ∃ fr n t, w.move m pc st = { w with frontier := fr, fair := n, turn := t } := by
  unfold Warp.move
  split
  · exact ⟨_, _, _, rfl⟩
  · obtain ⟨n, t, h⟩ := setFrontier_eq w (fMove m pc st ((w.frontier.find? (fun e => (e.mask &&& m) != 0)).elim 0 (·.stamp)) w.frontier)
    exact ⟨_, n, t, h⟩

theorem standsIn_nil (l : Nat) (pc : DWord) (st : EntSt) : ¬ standsIn [] l pc st := by
  rintro ⟨e, he, -⟩; cases he

theorem standsIn_cons (a : Entry) (t : List Entry) (l : Nat) (pc : DWord) (st : EntSt) :
    standsIn (a :: t) l pc st ↔ (a.mask.getLsbD l = true ∧ a.pc = pc ∧ a.st = st) ∨ standsIn t l pc st := by
  unfold standsIn
  constructor
  · rintro ⟨e, he, h⟩
    rcases List.mem_cons.1 he with rfl | he
    · exact .inl h
    · exact .inr ⟨e, he, h⟩
  · rintro (h | ⟨e, he, h⟩)
    · exact ⟨a, List.mem_cons_self .., h⟩
    · exact ⟨e, List.mem_cons_of_mem _ he, h⟩

theorem getLsbD_andNot (a m : Mask) (l : Nat) :
    (a &&& ~~~m).getLsbD l = true ↔ a.getLsbD l = true ∧ m.getLsbD l = false := by
  by_cases h : l < 64
  · rw [BitVec.getLsbD_and, BitVec.getLsbD_not]
    cases a.getLsbD l <;> cases m.getLsbD l <;> simp [h]
  · rw [BitVec.getLsbD_of_ge _ _ (by omega), BitVec.getLsbD_of_ge _ _ (by omega)]
    simp

/-- Lanes taken out of every entry stand nowhere; the others stand where they stood. -/
theorem standsIn_remove (m : Mask) (fr : List Entry) (l : Nat) (pc : DWord) (st : EntSt) :
    standsIn (fRemove m fr) l pc st ↔ m.getLsbD l = false ∧ standsIn fr l pc st := by
  unfold fRemove standsIn
  constructor
  · rintro ⟨e, he, hl, hp, hs⟩
    obtain ⟨he, -⟩ := List.mem_filter.1 he
    obtain ⟨e0, h0, rfl⟩ := List.mem_map.1 he
    rw [getLsbD_andNot] at hl
    exact ⟨hl.2, e0, h0, hl.1, hp, hs⟩
  · rintro ⟨hm, e, he, hl, hp, hs⟩
    have hb : (e.mask &&& ~~~m).getLsbD l = true := (getLsbD_andNot _ _ _).2 ⟨hl, hm⟩
    refine ⟨{ e with mask := e.mask &&& ~~~m }, List.mem_filter.2 ⟨List.mem_map.2 ⟨e, he, rfl⟩, ?_⟩, hb, hp, hs⟩
    simp only [bne_iff_ne, ne_eq]
    intro hz
    rw [hz] at hb
    simp at hb

/-- An inserted entry's lanes stand at its PC in its state; the others stand where they stood. -/
theorem standsIn_insert (n : Entry) (fr : List Entry) (l : Nat) (pc : DWord) (st : EntSt) :
    standsIn (fInsert n fr) l pc st ↔ (n.mask.getLsbD l = true ∧ n.pc = pc ∧ n.st = st) ∨ standsIn fr l pc st := by
  induction fr with
  | nil => rw [fInsert, standsIn_cons]
  | cons a t ih =>
    unfold fInsert
    split
    · rename_i h
      rw [standsIn_cons, standsIn_cons]
      simp only [BitVec.getLsbD_or, Bool.or_eq_true, h.1, h.2]
      constructor
      · rintro (⟨h1 | h1, h2⟩ | h1)
        · exact .inr (.inl ⟨h1, h2⟩)
        · exact .inl ⟨h1, h2⟩
        · exact .inr (.inr h1)
      · rintro (⟨h1, h2⟩ | ⟨h1, h2⟩ | h1)
        · exact .inl ⟨.inr h1, h2⟩
        · exact .inl ⟨.inl h1, h2⟩
        · exact .inr h1
    · split
      · split
        · rw [standsIn_cons, ih, standsIn_cons]; exact or_left_comm
        · rw [standsIn_cons]
      · rw [standsIn_cons, ih, standsIn_cons]; exact or_left_comm

/-- Taking lanes out and inserting them elsewhere moves them. -/
theorem moved_insert (w w' : Warp) (n : Entry) (h : w'.frontier = fInsert n (fRemove n.mask w.frontier)) :
    Moved w w' n.mask n.pc n.st := by
  intro l p q
  unfold Warp.stands
  rw [h, standsIn_insert, standsIn_remove]
  cases hm : n.mask.getLsbD l with
  | true =>
    simp only [if_true, true_and, Bool.true_eq_false, false_and, or_false]
    constructor <;> rintro ⟨a, b⟩ <;> exact ⟨a.symm, b.symm⟩
  | false => simp only [Bool.false_eq_true, false_and, false_or, true_and, if_false]

theorem moved_zero (w w' : Warp) (pc : DWord) (st : EntSt) (h : w'.frontier = w.frontier) : Moved w w' 0 pc st := by
  intro l p q
  unfold Warp.stands
  rw [h]; simp

/-- Moving lanes. -/
theorem move_moved (w : Warp) (m : Mask) (pc : DWord) (st : EntSt) : Moved w (w.move m pc st) m pc st := by
  unfold Warp.move
  split
  · rename_i h; subst h; exact moved_zero _ _ _ _ rfl
  · rename_i h
    obtain ⟨sp, hsp⟩ : ∃ sp, sp = (w.frontier.find? (fun e => (e.mask &&& m) != 0)).elim 0 (·.stamp) := ⟨_, rfl⟩
    rw [← hsp]
    obtain ⟨n, t, hs⟩ := setFrontier_eq w (fMove m pc st sp w.frontier)
    rw [hs]
    refine moved_insert w _ ⟨pc, m, st, sp, false, pc⟩ ?_
    simp only [fMove, h, if_false]

/-- Lanes that start to wait (R26). -/
theorem hold_moved (w : Warp) (m : Mask) (pc next : DWord) (k : WaitCause) : Moved w (w.hold m pc next k) m pc (.waiting k) := by
  unfold Warp.hold
  split
  · rename_i h; subst h; exact moved_zero _ _ _ _ rfl
  · simp only
    obtain ⟨sp, hsp⟩ : ∃ sp, sp = (w.frontier.find? (fun e => (e.mask &&& m) != 0)).elim 0 (·.stamp) := ⟨_, rfl⟩
    rw [← hsp]
    obtain ⟨n, t, hs⟩ := setFrontier_eq w (fInsert ⟨pc, m, .waiting k, sp, false, next⟩ (fRemove m w.frontier))
    rw [hs]
    exact moved_insert w _ ⟨pc, m, .waiting k, sp, false, next⟩ rfl

theorem hold_eq (w : Warp) (m : Mask) (pc next : DWord) (k : WaitCause) :
    ∃ fr n t, w.hold m pc next k = { w with frontier := fr, fair := n, turn := t } := by
  unfold Warp.hold
  split
  · exact ⟨_, _, _, rfl⟩
  · simp only
    obtain ⟨n, t, h⟩ := setFrontier_eq w (fInsert ⟨pc, m, .waiting k, (w.frontier.find? (fun e => (e.mask &&& m) != 0)).elim 0 (·.stamp),
      false, next⟩ (fRemove m w.frontier))
    exact ⟨_, n, t, h⟩

/-- The end of an instruction of a running unit: its place in the program changes, nothing else of it. -/
theorem done_frame (s : State) (c : Ctx) (stay : Mask) :
    OnlyUnit s (s.done c stay) c.u ∧
    ∀ w, kget s.warps c.u = some w → ∃ fr n t x, kget (s.done c stay).warps c.u =
      some { w with frontier := fr, fair := n, turn := t, xw := x } ∧
      (w.ended = false → Advances c w { w with frontier := fr, fair := n, turn := t, xw := x } stay) := by
  have hb : OnlyUnit s (State.bump { s with cur := none } c.p.launch c.p.core 0x02) c.u :=
    (onlyUnit_cur _ _ _).trans (onlyUnit_bump _ _ _ _ _)
  unfold State.done
  simp only [bump_warps]
  cases hw : kget s.warps c.u with
  | none => exact ⟨hb, fun w h => by cases h⟩
  | some w =>
    simp only
    split
    · rename_i hend
      refine ⟨hb.trans (onlyUnit_stepOver ..), fun w' h => ?_⟩
      cases h
      exact ⟨w.frontier, w.fair, w.turn, w.xw, by simp [hw], fun h => by rw [hend] at h; cases h⟩
    · split
      · rename_i hd0
        refine ⟨hb.trans ((onlyUnit_setWarp _ _ _).trans (onlyUnit_stepOver ..)), fun w' h => ?_⟩
        cases h
        have hmv := move_moved w stay c.is.npc .ready
        obtain ⟨fr, n, t, h⟩ := move_eq w stay c.is.npc .ready
        rw [h] at hmv ⊢
        refine ⟨fr, n, t, w.xw, by simp, fun _ => ?_⟩
        unfold Advances
        rw [if_pos hd0]
        exact hmv
      · rename_i hd0
        refine ⟨hb.trans (onlyUnit_setWarp _ _ _), fun w' h => ?_⟩
        cases h
        refine ⟨w.frontier, w.fair, w.turn, ?_⟩
        have ha : ∀ x, Advances c w { w with frontier := w.frontier, fair := w.fair, turn := w.turn, xw := x } stay := by
          intro x; unfold Advances; rw [if_neg hd0]
        unfold Warp.groupDone
        cases hx : w.xw with
        | none => exact ⟨none, by simp; rw [← hx], fun _ => ha _⟩
        | some r => exact ⟨_, by simp; rfl, fun _ => ha _⟩

end Sys2Proof.Machine
end

