-- ==== Sys2Proof/Laws/Result.lean ====
section
/-! SUPPORT. What writing results does: registers lane by lane, flags, predicates; and the one lemma about every instruction
that computes registers or a predicate. -/

namespace Sys2Proof.Machine

/-! ### Lanes -/

theorem mem_lanesOf {m : Mask} {l : Nat} : l ∈ lanesOf m ↔ l < 64 ∧ m.getLsbD l = true := by
  simp [lanesOf]

theorem lanesOf_nodup (m : Mask) : (lanesOf m).Nodup := List.Nodup.filter _ List.nodup_range

theorem getLsbD_laneBit {k l : Nat} (hk : k < 64) : (laneBit k).getLsbD l = decide (l = k) := by
  unfold laneBit
  rw [BitVec.getLsbD_ofNat]
  by_cases h : l = k
  · subst h; simp [hk, Nat.testBit_two_pow_self]
  · simp only [h, decide_false, Bool.and_eq_false_iff]
    exact .inr (Nat.testBit_two_pow_of_ne (Ne.symm h))

theorem getLsbD_maskOf (ls : List Nat) (h : ∀ k ∈ ls, k < 64) (l : Nat) : (maskOf ls).getLsbD l = decide (l ∈ ls) := by
  have key : ∀ (ls : List Nat) (m : Mask), (∀ k ∈ ls, k < 64) →
      (ls.foldl (fun m l => m ||| laneBit l) m).getLsbD l = (m.getLsbD l || decide (l ∈ ls)) := by
    intro ls
    induction ls with
    | nil => intro m _; simp
    | cons a t ih =>
      intro m hm
      rw [List.foldl_cons, ih _ (fun k hk => hm k (List.mem_cons_of_mem _ hk)), BitVec.getLsbD_or,
        getLsbD_laneBit (hm a (List.mem_cons_self ..))]
      by_cases h1 : l = a <;> simp [h1]
  unfold maskOf
  rw [key ls 0 h]
  simp

/-! ### Registers -/

theorem reg_setReg (w : Warp) {r l q k : Nat} (v : Word) (hl : l < 64) (hk : k < 64) :
    (w.setReg r l v).reg q k = if q = r ∧ k = l then v else w.reg q k := by
  unfold Warp.setReg Warp.reg
  rw [sget_sset]
  have : (q * 64 + k = r * 64 + l) ↔ (q = r ∧ k = l) := by omega
  simp [this]

/-- Writing one lane of a group of registers. -/
theorem writeLane_reg (vs : List Word) (w : Warp) {r l q k : Nat} (hl : l < 64) (hk : k < 64) :
    (((List.range vs.length).zip vs).foldl (fun w x => w.setReg (r + x.1) l x.2) w).reg q k =
      if k = l ∧ r ≤ q ∧ q < r + vs.length then vs.getD (q - r) 0 else w.reg q k := by
  have key : ∀ (vs : List Word) (n : Nat) (w : Warp),
      (((List.range' n vs.length).zip vs).foldl (fun w x => w.setReg (r + x.1) l x.2) w).reg q k =
        if k = l ∧ r + n ≤ q ∧ q < r + n + vs.length then vs.getD (q - r - n) 0 else w.reg q k := by
    intro vs
    induction vs with
    | nil =>
      intro n w
      simp only [List.length_nil, List.range'_zero, List.zip_nil_right, List.foldl_nil]
      rw [if_neg (by omega)]
    | cons v t ih =>
      intro n w
      simp only [List.length_cons, List.range'_succ, List.zip_cons_cons, List.foldl_cons]
      rw [ih, reg_setReg _ _ hl hk]
      by_cases h1 : k = l
      · by_cases h2 : q = r + n
        · subst h2
          have e : ¬(r + (n + 1) ≤ r + n ∧ r + n < r + (n + 1) + t.length) := by omega
          simp [h1]
        · by_cases h3 : r + (n + 1) ≤ q ∧ q < r + (n + 1) + t.length
          · have h4 : r + n ≤ q ∧ q < r + n + (t.length + 1) := by omega
            have e : q - r - n = (q - r - (n + 1)) + 1 := by omega
            rw [if_pos ⟨h1, h3⟩, if_pos ⟨h1, h4⟩, e, List.getD_cons_succ]
          · have h4 : ¬(r + n ≤ q ∧ q < r + n + (t.length + 1)) := by omega
            simp [h3, h4, h2]
      · simp [h1]
  have := key vs 0 w
  rw [← List.range_eq_range'] at this
  simpa using this

theorem writeLanes_reg (L : List (Nat × List Word)) (w : Warp) {r q k : Nat} (hL : ∀ x ∈ L, x.1 < 64) (hk : k < 64)
    (hn : (L.map (·.1)).Nodup) :
    (w.writeLanes r L).reg q k =
      match L.find? (fun x => x.1 == k) with
      | some x => if r ≤ q ∧ q < r + x.2.length then x.2.getD (q - r) 0 else w.reg q k
      | none => w.reg q k := by
  induction L generalizing w with
  | nil => simp [Warp.writeLanes]
  | cons x t ih =>
    obtain ⟨l, vs⟩ := x
    simp only [Warp.writeLanes]
    simp only [List.map_cons, List.nodup_cons] at hn
    rw [ih _ (fun y hy => hL y (List.mem_cons_of_mem _ hy)) hn.2]
    have hl : l < 64 := hL (l, vs) (List.mem_cons_self ..)
    rw [writeLane_reg vs w hl hk]
    by_cases h : l = k
    · subst h
      have hnone : t.find? (fun x => x.1 == l) = none := by
        rw [List.find?_eq_none]
        intro y hy hyl
        exact hn.1 (List.mem_map.2 ⟨y, hy, by simpa using hyl⟩)
      simp [hnone]
    · have h' : (l == k) = false := by simpa using h
      rw [List.find?_cons_of_neg (by simp [h])]
      have hx : ¬(k = l ∧ r ≤ q ∧ q < r + vs.length) := fun hh => h hh.1.symm
      simp only [hx, if_false]

theorem setReg_shell (w : Warp) (r l : Nat) (v : Word) : (w.setReg r l v).shell = w.shell := rfl

/-- Writing registers writes nothing but registers. -/
theorem writeLanes_eq (w : Warp) (r : Nat) (L : List (Nat × List Word)) : ∃ m, w.writeLanes r L = { w with regs := m } := by
  have one : ∀ (vs : List (Nat × Word)) (l : Nat) (w : Warp),
      ∃ m, vs.foldl (fun w x => w.setReg (r + x.1) l x.2) w = { w with regs := m } := by
    intro vs l
    induction vs with
    | nil => intro w; exact ⟨w.regs, rfl⟩
    | cons x t ih => intro w; obtain ⟨m, h⟩ := ih (w.setReg (r + x.1) l x.2); exact ⟨m, h⟩
  induction L generalizing w with
  | nil => exact ⟨w.regs, rfl⟩
  | cons x t ih =>
    obtain ⟨l, vs⟩ := x
    obtain ⟨m, hm⟩ := one ((List.range vs.length).zip vs) l w
    simp only [Warp.writeLanes]
    rw [hm]
    obtain ⟨m', h'⟩ := ih { w with regs := m }
    exact ⟨m', h'⟩

/-! ### Flags -/

theorem flagsOf_orFlags (w : Warp) (l k : Nat) (f : BitVec 5) :
    (w.orFlags l f).flagsOf k = if k = l then w.flagsOf k ||| f else w.flagsOf k := by
  unfold Warp.orFlags
  split
  · rename_i h; subst h; simp
  · unfold Warp.flagsOf
    simp only [sget_sset]
    split
    · rename_i h; subst h; rfl
    · rfl

theorem orLanes_flags (L : List (Nat × BitVec 5)) (w : Warp) (k : Nat) (hn : (L.map (·.1)).Nodup) :
    (w.orLanes L).flagsOf k = match L.find? (fun x => x.1 == k) with
      | some x => w.flagsOf k ||| x.2
      | none => w.flagsOf k := by
  induction L generalizing w with
  | nil => simp [Warp.orLanes]
  | cons x t ih =>
    obtain ⟨l, f⟩ := x
    simp only [List.map_cons, List.nodup_cons] at hn
    simp only [Warp.orLanes]
    rw [ih _ hn.2, flagsOf_orFlags]
    by_cases h : l = k
    · subst h
      have hnone : t.find? (fun x => x.1 == l) = none := by
        rw [List.find?_eq_none]
        intro y hy hyl
        exact hn.1 (List.mem_map.2 ⟨y, hy, by simpa using hyl⟩)
      simp [hnone]
    · rw [List.find?_cons_of_neg (by simp [h])]
      simp [Ne.symm h]

theorem orLanes_eq (w : Warp) (L : List (Nat × BitVec 5)) : ∃ m, w.orLanes L = { w with flags := m } := by
  induction L generalizing w with
  | nil => exact ⟨w.flags, rfl⟩
  | cons x t ih =>
    obtain ⟨l, f⟩ := x
    simp only [Warp.orLanes]
    obtain ⟨m, h⟩ := ih (w.orFlags l f)
    rw [h]
    unfold Warp.orFlags
    split
    · exact ⟨m, rfl⟩
    · exact ⟨m, rfl⟩

/-! ### Destinations -/

theorem find_lanes {α : Type} (m : Mask) (f : Nat → α) (k : Nat) (hk : k < 64) :
    ((lanesOf m).map (fun l => (l, f l))).find? (fun x => x.1 == k) = if m.getLsbD k then some (k, f k) else none := by
  rw [List.find?_map]
  have e : ((fun x : Nat × α => x.1 == k) ∘ fun l => (l, f l)) = fun l => l == k := rfl
  rw [e]
  split
  · rename_i h
    have hm : k ∈ lanesOf m := mem_lanesOf.2 ⟨hk, h⟩
    rcases hx : (lanesOf m).find? (fun l => l == k) with _ | y
    · rw [List.find?_eq_none] at hx
      exact absurd (by simp : (k == k) = true) (hx k hm)
    · have e : y = k := by simpa using List.find?_some hx
      subst e; rfl
  · rename_i h
    have : (lanesOf m).find? (fun l => l == k) = none := by
      rw [List.find?_eq_none]
      intro l hl hk'
      have e : l = k := by simpa using hk'
      subst e
      exact h (mem_lanesOf.1 hl).2
    rw [this]; rfl

theorem lanes_map_nodup {α : Type} (m : Mask) (f : Nat → α) : (((lanesOf m).map (fun l => (l, f l))).map (·.1)).Nodup := by
  rw [List.map_map]
  have : ((fun x : Nat × α => x.1) ∘ fun l => (l, f l)) = id := rfl
  rw [this, List.map_id]
  exact lanesOf_nodup m

theorem lanes_map_lt {α : Type} (m : Mask) (f : Nat → α) : ∀ x ∈ (lanesOf m).map (fun l => (l, f l)), x.1 < 64 := by
  intro x hx
  obtain ⟨l, hl, rfl⟩ := List.mem_map.1 hx
  exact (mem_lanesOf.1 hl).1

/-- The lanes of a mask each receive their words. -/
theorem reg_writeMask (w : Warp) (r : Nat) (m : Mask) (g : Nat → List Word) {q k : Nat} (hk : k < 64) :
    (w.writeLanes r ((lanesOf m).map (fun l => (l, g l)))).reg q k =
      if m.getLsbD k = true ∧ r ≤ q ∧ q < r + (g k).length then (g k).getD (q - r) 0 else w.reg q k := by
  rw [writeLanes_reg _ _ (lanes_map_lt m g) hk (lanes_map_nodup m g), find_lanes m g k hk]
  by_cases h : m.getLsbD k = true <;> simp [h]

theorem writeLanes_append (w : Warp) (r : Nat) (A B : List (Nat × List Word)) :
    w.writeLanes r (A ++ B) = (w.writeLanes r A).writeLanes r B := by
  induction A generalizing w with
  | nil => rfl
  | cons x t ih => obtain ⟨l, vs⟩ := x; simp only [List.cons_append, Warp.writeLanes]; exact ih _

theorem flags_orMask (w : Warp) (m : Mask) (g : Nat → BitVec 5) {k : Nat} (hk : k < 64) :
    (w.orLanes ((lanesOf m).map (fun l => (l, g l)))).flagsOf k =
      if m.getLsbD k then w.flagsOf k ||| g k else w.flagsOf k := by
  rw [orLanes_flags _ _ _ (lanes_map_nodup m g), find_lanes m g k hk]
  by_cases h : m.getLsbD k = true <;> simp [h]

/-- A destination writes registers, their levels, the written set and the results under way. -/
theorem put_eq (c : Ctx) (d n : Nat) (vals : List (Nat × List Word)) (lev : Nat) :
    ∃ m rl wr hz, c.put d n vals lev = { c.w with regs := m, rlev := rl, written := wr, haz := hz } := by
  obtain ⟨m, h⟩ := writeLanes_eq c.w (c.w.wbase + d) (c.lanesIn d n vals)
  unfold Ctx.put
  simp only
  rw [h]
  by_cases hv : (!vals.isEmpty || !(c.zeros n).isEmpty) = true
  · rw [if_pos hv]; exact ⟨m, _, _, _, rfl⟩
  · rw [if_neg hv]; exact ⟨m, _, _, _, rfl⟩

theorem put_regs (c : Ctx) (d n : Nat) (vals : List (Nat × List Word)) (lev : Nat) :
    (c.put d n vals lev).regs = (c.w.writeLanes (c.w.wbase + d) (c.lanesIn d n vals)).regs := by
  unfold Ctx.put Ctx.underWay
  simp only
  split <;> rfl

theorem reg_of_regs {a b : Warp} (h : a.regs = b.regs) (r l : Nat) : a.reg r l = b.reg r l := by
  unfold Warp.reg; rw [h]

theorem rd_of_early_nil {c : Ctx} (h : c.early = []) (f l : Nat) : c.rd f l = c.w.reg (c.w.wbase + f) l := by
  unfold Ctx.rd; rw [h]

/-- The lanes a destination writes and what each receives (R145). -/
theorem put_written (c : Ctx) (d n : Nat) (f : Nat → List Word) (lev : Nat) (hf : ∀ l, c.m.getLsbD l = true → (f l).length = n)
    (hm : ∀ l, c.m.getLsbD l = true → c.is.mask.getLsbD l = true) :
    RegsWritten c (c.put d n ((lanesOf c.m).map (fun l => (l, f l))) lev) d n f := by
  have kept : ∀ q k, k < 64 → (c.w.writeLanes (c.w.wbase + d) (c.kept d n)).reg q k =
      if (if c.px.zp then ~~~c.is.mask else ~~~c.m).getLsbD k = true ∧ c.w.wbase + d ≤ q ∧ q < c.w.wbase + d + n
        then c.rd (q - c.w.wbase) k else c.w.reg q k := by
    intro q k hk
    unfold Ctx.kept
    generalize (if c.px.zp then ~~~c.is.mask else ~~~c.m) = mm
    cases he : c.early with
    | nil =>
      simp only [Warp.writeLanes]
      split
      · rename_i h
        rw [rd_of_early_nil he]; congr 1; omega
      · rfl
    | cons x t =>
      simp only
      rw [reg_writeMask _ _ _ _ hk]
      simp only [List.length_map, List.length_range]
      split
      · rename_i h
        have e : q - (c.w.wbase + d) < n := by omega
        simp only [List.getD_eq_getElem?_getD, List.getElem?_map, List.getElem?_range e, Option.map_some, Option.getD_some]
        congr 1; omega
      · rfl
  have all : ∀ q k, k < 64 → (c.put d n ((lanesOf c.m).map (fun l => (l, f l))) lev).reg q k =
      if c.w.wbase + d ≤ q ∧ q < c.w.wbase + d + n then
        (if c.m.getLsbD k = true then (f k).getD (q - (c.w.wbase + d)) 0
         else if c.px.zp && c.is.mask.getLsbD k then 0 else c.rd (q - c.w.wbase) k)
      else c.w.reg q k := by
    intro q k hk
    rw [reg_of_regs (put_regs c d n _ lev), Ctx.lanesIn, writeLanes_append, writeLanes_append]
    have z : ∀ w : Warp, (w.writeLanes (c.w.wbase + d) (c.zeros n)).reg q k =
        if c.px.zp = true ∧ c.rest.getLsbD k = true ∧ c.w.wbase + d ≤ q ∧ q < c.w.wbase + d + n then 0 else w.reg q k := by
      intro w
      unfold Ctx.zeros
      by_cases hz : c.px.zp = true
      · simp only [hz, if_true, true_and]
        rw [reg_writeMask _ _ _ _ hk]
        simp only [List.length_replicate]
        split
        · rename_i h
          have e : q - (c.w.wbase + d) < n := by omega
          simp [List.getD_eq_getElem?_getD, e]
        · rfl
      · simp [hz, Warp.writeLanes]
    rw [z, reg_writeMask _ _ _ _ hk, kept q k hk]
    have hrest : c.rest.getLsbD k = (c.is.mask.getLsbD k && !c.m.getLsbD k) := by
      simp [Ctx.rest, hk]
    rw [hrest]
    have hmask : (if c.px.zp then ~~~c.is.mask else ~~~c.m).getLsbD k =
        if c.px.zp then !c.is.mask.getLsbD k else !c.m.getLsbD k := by
      split <;> simp only [BitVec.getLsbD_not, hk, decide_true, Bool.true_and]
    rw [hmask]
    have h2 := hm k
    have h3 := hf k
    generalize c.m.getLsbD k = a at *
    generalize c.is.mask.getLsbD k = b at *
    clear kept z hmask hrest hf hm
    generalize c.px.zp = zz at *
    by_cases hq : c.w.wbase + d ≤ q ∧ q < c.w.wbase + d + n <;> cases a <;> cases b <;> cases zz <;> simp_all
  refine ⟨fun j l hj hl => ?_, fun r l hl hr => ?_⟩
  · rw [all _ _ hl, if_pos ⟨by omega, by omega⟩]
    have e1 : c.w.wbase + d + j - (c.w.wbase + d) = j := by omega
    have e2 : c.w.wbase + d + j - c.w.wbase = d + j := by omega
    rw [e1, e2]
  · rw [all _ _ hl, if_neg (by omega)]

/-- The execution mask holds active lanes (R132). -/
theorem Issues.mask_le {i : Instr} {s : State} {c : Ctx} (h : Issues i s c) (l : Nat) (hl : c.m.getLsbD l = true) :
    c.is.mask.getLsbD l = true := by
  obtain ⟨w, _, _, _, _, hm, _⟩ := h.warp
  rw [hm] at hl
  unfold execMask at hl
  simp only [BitVec.getLsbD_and, Bool.and_eq_true] at hl
  exact hl.1

/-- The unit of an issuing instruction has not ended. -/
theorem Issues.alive {i : Instr} {s : State} {c : Ctx} (h : Issues i s c) : c.w.ended = false := by
  obtain ⟨w, -, he, -, -, -, g, -, -, hc⟩ := h.warp
  rw [hc]; exact he

/-- Every instruction that computes registers: it completes with its results (R145, R95). -/
theorem finishReg_any (s : State) (c : Ctx) (hm : ∀ l, c.m.getLsbD l = true → c.is.mask.getLsbD l = true) (hal : c.w.ended = false)
    (d n : Nat) (f : Nat → List Word × BitVec 5) (cls : Cls) (root : Word) (hf : ∀ l, c.m.getLsbD l = true → (f l).1.length = n) :
    RegResult s (c.finishReg s d n f cls root) c d n (fun l => (f l).1) (fun l => (f l).2) := by
  unfold Ctx.finishReg
  simp only [List.map_map]
  have e1 : ((fun x : Nat × List Word × BitVec 5 => (x.1, x.2.1)) ∘ fun l => (l, f l)) = fun l => (l, (f l).1) := rfl
  have e2 : ((fun x : Nat × List Word × BitVec 5 => (x.1, x.2.2)) ∘ fun l => (l, f l)) = fun l => (l, (f l).2) := rfl
  rw [e1, e2]
  obtain ⟨m, rl, wr, hz, hp⟩ := put_eq c d n ((lanesOf c.m).map (fun l => (l, (f l).1))) (c.level 0)
  have hreg := put_written c d n (fun l => (f l).1) (c.level 0) hf hm
  generalize c.put d n ((lanesOf c.m).map (fun l => (l, (f l).1))) (c.level 0) = w0 at hp hreg ⊢
  obtain ⟨fs, hfl⟩ := orLanes_eq w0 ((lanesOf c.m).map (fun l => (l, (f l).2)))
  have hflags : ∀ k, k < 64 → (w0.orLanes ((lanesOf c.m).map (fun l => (l, (f l).2)))).flagsOf k =
      if c.m.getLsbD k then w0.flagsOf k ||| (f k).2 else w0.flagsOf k := fun k hk => flags_orMask _ _ _ hk
  generalize w0.orLanes ((lanesOf c.m).map (fun l => (l, (f l).2))) = w1 at hfl hflags ⊢
  generalize c.linUse s cls (c.level 0) root none = k
  generalize List.foldl (fun (m : KMap (BitVec 5)) (x : Nat × List Word × BitVec 5) => sset 0 m x.1 x.2.2) [] _ = fm
  have h1 : OnlyUnit s (s.setWarp c.u w1) c.u := onlyUnit_setWarp _ _ _
  have hw1 : kget (s.setWarp c.u w1).warps c.u = some w1 := by simp
  generalize s.setWarp c.u w1 = s1 at h1 hw1 ⊢
  obtain ⟨s2, hs2⟩ : ∃ s2, s2 = if c.m = 0 && !c.px.zp then s1 else s1.linResult c.p.core c.u (c.w.wbase + d) n fm k := ⟨_, rfl⟩
  rw [← hs2]
  obtain ⟨h2, l, hz2, hw2⟩ : OnlyUnit s1 s2 c.u ∧ ∃ l hz, kget s2.warps c.u = some { w1 with lin := l, haz := hz } := by
    rw [hs2]
    split
    · exact ⟨.refl _ _, w1.lin, w1.haz, hw1⟩
    · obtain ⟨a, b⟩ := linResult_frame s1 c.p.core c.u (c.w.wbase + d) n fm k
      exact ⟨a, b _ hw1⟩
  obtain ⟨h3, hd⟩ := done_frame s2 c c.is.mask
  obtain ⟨fr, nn, tt, x, hw3, hadv⟩ := hd _ hw2
  refine ⟨(h1.trans h2).trans h3, _, hw3, ?_, ?_, ?_, ?_, ?_⟩
  · rw [hfl, hp]; rfl
  · refine ⟨fun j l hj hl => ?_, fun r l hl hr => ?_⟩
    · rw [← hreg.1 j l hj hl, hfl]; rfl
    · rw [← hreg.2 r l hl hr, hfl]; rfl
  · intro k hk
    have := hflags k hk
    rw [hp] at this
    exact this
  · intro p; rw [hfl, hp]; rfl
  · rw [hfl, hp] at hadv ⊢
    exact hadv hal

/-- What an instruction that attaches reads differs in its too-early operands alone (R137). -/
theorem attached_eq (c : Ctx) (s : State) (cls : Cls) (root : Word) : ∃ e, c.attached s cls root = { c with early := e } := by
  unfold Ctx.attached
  split
  · exact ⟨[], rfl⟩
  · exact ⟨c.early, rfl⟩

/-- The same for an instruction that issues. -/
theorem finishReg_result {i : Instr} {s : State} {c : Ctx} (h : Issues i s c) (d n : Nat) (f : Nat → List Word × BitVec 5)
    (cls : Cls) (root : Word) (hf : ∀ l, c.m.getLsbD l = true → (f l).1.length = n) :
    RegResult s (c.finishReg (s.setWarp c.u c.w) d n f cls root) c d n (fun l => (f l).1) (fun l => (f l).2) := by
  have r := finishReg_any (s.setWarp c.u c.w) c h.mask_le h.alive d n f cls root hf
  exact ⟨(onlyUnit_setWarp _ _ _).trans r.outside, r.unit⟩

/-- The lemma of every instruction that computes registers from registers. -/
theorem regOp_computes (i : Instr) (d : BitVec 7) (n : Nat) (f : Ctx → Nat → List Word × BitVec 5)
    (he : ∀ s, exec i s = regOp i s d n f) (hf : ∀ c l, (f c l).1.length = n) :
    Computes i d n (fun c l => (f c l).1) (fun c l => (f c l).2) := by
  intro s c h
  obtain ⟨e, hk⟩ := attached_eq c (s.setWarp c.u c.w) c.row.cls 0
  have hk' : exec i s = .next (({ c with early := e } : Ctx).finishReg (s.setWarp c.u c.w) d.toNat n (f { c with early := e }) c.row.cls 0) := by
    rw [he, regOp, front_of_issues h]
    simp only [hk]
  simp only [hk]
  have r := finishReg_any (s.setWarp c.u c.w) { c with early := e } h.mask_le h.alive d.toNat n (f { c with early := e }) c.row.cls 0
    (fun l _ => hf _ l)
  exact ⟨_, hk', ⟨(onlyUnit_setWarp _ _ _).trans r.outside, r.unit⟩⟩

/-! ### Predicates -/

theorem pred_zero (w : Warp) : w.pred 0 = -1 := rfl

/-- What writing a predicate does (R144, R145). -/
theorem putPred_frame (c : Ctx) (w : Warp) (d : Nat) (f : Nat → Bool) (zp : Bool) (lev : Nat)
    (hm : ∀ l, c.m.getLsbD l = true → c.is.mask.getLsbD l = true) :
    (∃ p l hz, c.putPred w d (maskOf ((lanesOf c.m).filter f)) zp lev = { w with preds := p, plev := l, haz := hz }) ∧
    (∀ l, l < 64 → d ≠ 0 → ((c.putPred w d (maskOf ((lanesOf c.m).filter f)) zp lev).pred d).getLsbD l =
      if c.m.getLsbD l then f l else if zp && c.is.mask.getLsbD l then false else (w.pred d).getLsbD l) ∧
    (∀ p, p ≠ d → (c.putPred w d (maskOf ((lanesOf c.m).filter f)) zp lev).pred p = w.pred p) := by
  have hv : ∀ l, (maskOf ((lanesOf c.m).filter f)).getLsbD l = (c.m.getLsbD l && f l) := by
    intro l
    rw [getLsbD_maskOf _ (fun k hk => (mem_lanesOf.1 (List.mem_filter.1 hk).1).1)]
    by_cases hl : l < 64
    · simp [mem_lanesOf, hl]
    · have : c.m.getLsbD l = false := BitVec.getLsbD_of_ge _ _ (by omega)
      simp [mem_lanesOf, hl, this]
  generalize maskOf ((lanesOf c.m).filter f) = v at hv ⊢
  unfold Ctx.putPred
  simp only
  split
  · rename_i h0
    simp only [Bool.and_eq_true, decide_eq_true_eq, Bool.not_eq_true'] at h0
    refine ⟨⟨w.preds, w.plev, w.haz, rfl⟩, fun l _ _ => ?_, fun _ _ => rfl⟩
    simp [h0.1, h0.2]
  · by_cases hd : d = 0
    · subst hd
      exact ⟨⟨w.preds, w.plev, w.haz, by simp [Warp.setPred]⟩, fun l _ h => absurd rfl h, fun p _ => by simp [Warp.setPred]⟩
    · refine ⟨⟨_, _, _, by rw [if_neg hd]; unfold Warp.setPred; rw [if_neg hd]⟩, fun l hl _ => ?_, fun p hp => ?_⟩
      · simp only [hd, if_false, Warp.setPred, Warp.pred, sget_sset_self, BitVec.getLsbD_or, BitVec.getLsbD_and, hv]
        have h2 := hm l
        cases zp <;> simp only [if_true, Bool.false_eq_true, if_false, BitVec.getLsbD_and, BitVec.getLsbD_not, hl, decide_true,
          Bool.true_and, Bool.false_and]
        · generalize c.m.getLsbD l = a at *
          cases a <;> simp
        · generalize c.m.getLsbD l = a at *
          generalize c.is.mask.getLsbD l = b at *
          cases a <;> cases b <;> simp_all
      · simp only [hd, if_false, Warp.setPred, Warp.pred]
        split
        · rfl
        · rw [sget_sset_ne _ _ _ hp]

/-- Every instruction that computes a predicate. -/
theorem finishPred_result {i : Instr} {s : State} {c : Ctx} (h : Issues i s c) (d : Nat) (f : Nat → Bool × BitVec 5) :
    PredResult s (c.finishPred (s.setWarp c.u c.w) d f) c d (fun l => (f l).1) (fun l => (f l).2) := by
  have hm := h.mask_le
  unfold Ctx.finishPred
  simp only [List.map_map]
  have e2 : ((fun x : Nat × Bool × BitVec 5 => (x.1, x.2.2)) ∘ fun l => (l, f l)) = fun l => (l, (f l).2) := rfl
  have e3 : (List.filter (fun x : Nat × Bool × BitVec 5 => x.2.1) ((lanesOf c.m).map (fun l => (l, f l)))).map (·.1) =
      (lanesOf c.m).filter (fun l => (f l).1) := by
    rw [List.filter_map, List.map_map]
    have a : ((fun x : Nat × Bool × BitVec 5 => x.1) ∘ fun l => (l, f l)) = id := rfl
    rw [a, List.map_id]; rfl
  rw [e2, e3]
  obtain ⟨⟨p, pl, hz, hp⟩, hd1, hd2⟩ := putPred_frame c c.w d (fun l => (f l).1) c.px.zp (c.level 0) hm
  generalize c.putPred c.w d (maskOf ((lanesOf c.m).filter (fun l => (f l).1))) c.px.zp (c.level 0) = w0 at hp hd1 hd2 ⊢
  obtain ⟨fs, hfl⟩ := orLanes_eq w0 ((lanesOf c.m).map (fun l => (l, (f l).2)))
  have hflags : ∀ k, k < 64 → (w0.orLanes ((lanesOf c.m).map (fun l => (l, (f l).2)))).flagsOf k =
      if c.m.getLsbD k then w0.flagsOf k ||| (f k).2 else w0.flagsOf k := fun k hk => flags_orMask _ _ _ hk
  generalize w0.orLanes ((lanesOf c.m).map (fun l => (l, (f l).2))) = w1 at hfl hflags ⊢
  have hw1 : kget ((s.setWarp c.u c.w).setWarp c.u w1).warps c.u = some w1 := by simp
  obtain ⟨h3, hd⟩ := done_frame ((s.setWarp c.u c.w).setWarp c.u w1) c c.is.mask
  obtain ⟨fr, nn, tt, x, hw3, hadv⟩ := hd _ hw1
  have hq : ∀ q, Warp.pred { w1 with frontier := fr, fair := nn, turn := tt, xw := x } q = w0.pred q := by
    intro q; rw [hfl]; rfl
  refine ⟨((onlyUnit_setWarp _ _ _).trans (onlyUnit_setWarp _ _ _)).trans h3, _, hw3, ?_, ⟨?_, ?_, ?_⟩, ?_, ?_, ?_⟩
  · rw [hfl, hp]; rfl
  · intro l hl h0; rw [hq]; exact hd1 l hl h0
  · rfl
  · intro q hqd; rw [hq]; exact hd2 q hqd
  · intro k hk
    have := hflags k hk
    rw [hp] at this
    exact this
  · intro r l; rw [hfl, hp]; rfl
  · have he := h.alive
    rw [hfl, hp] at hadv ⊢
    exact hadv he

/-- The lemma of every instruction that computes a predicate. -/
theorem predOp_decides (i : Instr) (d : BitVec 7) (f : Ctx → Nat → Bool × BitVec 5) (he : ∀ s, exec i s = predOp i s d f) :
    Decides i d (fun c l => (f c l).1) (fun c l => (f c l).2) := by
  intro s c h
  refine ⟨_, ?_, finishPred_result h d.toNat (f c)⟩
  rw [he, predOp, front_of_issues h]

end Sys2Proof.Machine
end

