-- ==== Sys2Proof/Laws/Cross.lean ====
section
/-! SUPPORT. What cross-lane instructions leave: registers, the validity predicate, flags (R186 to R188). -/

namespace Sys2Proof.Machine

/-- Every cross-lane instruction that writes registers completes with its results. -/
theorem finishCross_result {i : Instr} {s : State} {c : Ctx} (h : Issues i s c) (d n : Nat) (f : Nat → List Word)
    (valid : Nat → Bool) (fl : Flags) (hf : ∀ l, c.m.getLsbD l = true → (f l).length = n) :
    CrossResult s (c.finishCross (s.setWarp c.u c.w) d n f valid fl) c d n f valid fl := by
  have hm := h.mask_le
  unfold Ctx.finishCross
  simp only
  obtain ⟨m, rl, wr, hz, hp⟩ := put_eq c d n ((lanesOf c.m).map (fun l => (l, f l))) (c.level 0)
  have hreg := put_written c d n f (c.level 0) hf hm
  generalize c.put d n ((lanesOf c.m).map (fun l => (l, f l))) (c.level 0) = w0 at hp hreg ⊢
  obtain ⟨fs, hfl⟩ := orLanes_eq w0 ((lanesOf c.m).map (fun l => (l, fl)))
  have hflags : ∀ k, k < 64 → (w0.orLanes ((lanesOf c.m).map (fun l => (l, fl)))).flagsOf k =
      if c.m.getLsbD k then w0.flagsOf k ||| fl else w0.flagsOf k := fun k hk => flags_orMask _ _ _ hk
  generalize w0.orLanes ((lanesOf c.m).map (fun l => (l, fl))) = w1 at hfl hflags ⊢
  obtain ⟨⟨ps, pl, hz1, hpp⟩, hd1, hd2⟩ := putPred_frame c w1 1 valid false c.validLevel hm
  generalize c.putPred w1 1 (maskOf ((lanesOf c.m).filter valid)) false c.validLevel = w2 at hpp hd1 hd2 ⊢
  have h1 : OnlyUnit s ((s.setWarp c.u c.w).setWarp c.u w2) c.u := (onlyUnit_setWarp _ _ _).trans (onlyUnit_setWarp _ _ _)
  have hw1 : kget ((s.setWarp c.u c.w).setWarp c.u w2).warps c.u = some w2 := by simp
  generalize (s.setWarp c.u c.w).setWarp c.u w2 = s1 at h1 hw1 ⊢
  obtain ⟨s2, hs2⟩ : ∃ s2, s2 = if c.m = 0 && !c.px.zp then s1 else s1.linResult c.p.core c.u (c.w.wbase + d) n [] none := ⟨_, rfl⟩
  rw [← hs2]
  obtain ⟨h2, l, hz2, hw2⟩ : OnlyUnit s1 s2 c.u ∧ ∃ l hz, kget s2.warps c.u = some { w2 with lin := l, haz := hz } := by
    rw [hs2]
    split
    · exact ⟨.refl _ _, w2.lin, w2.haz, hw1⟩
    · obtain ⟨a, b⟩ := linResult_frame s1 c.p.core c.u (c.w.wbase + d) n [] none
      exact ⟨a, b _ hw1⟩
  obtain ⟨h3, hd⟩ := done_frame s2 c c.is.mask
  obtain ⟨fr, nn, tt, x, hw3, hadv⟩ := hd _ hw2
  have hq : ∀ q, Warp.pred { w2 with frontier := fr, fair := nn, turn := tt, xw := x, lin := l, haz := hz2 } q = w2.pred q := fun _ => rfl
  refine ⟨(h1.trans h2).trans h3, _, hw3, ?_, ?_, ?_, ⟨?_, ?_, ?_⟩, ?_⟩
  · rw [hpp, hfl, hp]; rfl
  · refine ⟨fun j l hj hl => ?_, fun r l hl hr => ?_⟩
    · rw [← hreg.1 j l hj hl, hpp, hfl]; rfl
    · rw [← hreg.2 r l hl hr, hpp, hfl]; rfl
  · intro k hk
    have := hflags k hk
    rw [hpp]
    rw [hfl, hp] at this ⊢
    exact this
  · intro l hl h0
    rw [hq, hd1 l hl h0]
    have : w1.pred 1 = c.w.pred 1 := by rw [hfl, hp]; rfl
    rw [this]
  · rfl
  · intro q hqd
    rw [hq, hd2 q hqd, hfl, hp]; rfl
  · rw [hpp, hfl, hp] at hadv ⊢
    exact hadv h.alive

/-- The lemma of every cross-lane instruction that writes registers. -/
theorem crossOp_crossLane (i : Instr) (d : BitVec 7) (n : Nat) (f : Ctx → Nat → List Word) (valid : Ctx → Nat → Bool)
    (fl : Ctx → Flags) (he : ∀ s, exec i s = crossOp i s d n f valid fl) (hf : ∀ c l, (f c l).length = n) :
    CrossLane i d n f valid fl := by
  intro s c h
  refine ⟨_, ?_, finishCross_result h d.toNat n (f c) (valid c) (fl c) (fun l _ => hf c l)⟩
  rw [he, crossOp, warpOp, front_of_issues h]

/-- Writing a predicate, bit by bit (R144, R145). -/
theorem putPred_bits (c : Ctx) (w : Warp) (d : Nat) (v : Mask) (zp : Bool) (lev : Nat)
    (hm : ∀ l, c.m.getLsbD l = true → c.is.mask.getLsbD l = true) :
    (∃ p l hz, c.putPred w d v zp lev = { w with preds := p, plev := l, haz := hz }) ∧
    (∀ l, l < 64 → d ≠ 0 → ((c.putPred w d v zp lev).pred d).getLsbD l =
      if c.m.getLsbD l then v.getLsbD l else if zp && c.is.mask.getLsbD l then false else (w.pred d).getLsbD l) ∧
    (∀ p, p ≠ d → (c.putPred w d v zp lev).pred p = w.pred p) := by
  have key : maskOf ((lanesOf c.m).filter (fun l => v.getLsbD l)) &&& c.m = v &&& c.m := by
    apply BitVec.eq_of_getLsbD_eq
    intro l hl
    rw [BitVec.getLsbD_and, BitVec.getLsbD_and, getLsbD_maskOf _ (fun k hk => (mem_lanesOf.1 (List.mem_filter.1 hk).1).1)]
    cases hml : c.m.getLsbD l <;> simp [mem_lanesOf, hl, hml]
  have e : c.putPred w d v zp lev = c.putPred w d (maskOf ((lanesOf c.m).filter (fun l => v.getLsbD l))) zp lev := by
    unfold Ctx.putPred
    rw [key]
  rw [e]
  exact putPred_frame c w d (fun l => v.getLsbD l) zp lev hm

/-- A whole-state instruction that issues runs its effect. -/
theorem warpOp_next {i : Instr} {s : State} {c : Ctx} (h : Issues i s c) (f : Ctx → State → State) (he : exec i s = warpOp i s f) :
    exec i s = .next (f c (s.setWarp c.u c.w)) := by
  rw [he, warpOp, front_of_issues h]

/-- The lemma of the votes (R187). -/
theorem voteOp_votes (i : Instr) (a d : BitVec 7) (f : Mask → Mask → Bool) (he : ∀ s, exec i s = voteOp i s a d f) :
    Votes i d (fun c => f c.m (c.w.pred a.toNat)) := by
  intro s c h
  have hm := h.mask_le
  refine ⟨_, warpOp_next h _ (he s), ?_⟩
  simp only
  obtain ⟨w0, hw0⟩ : ∃ w0, w0 = if d.toNat = 1 then c.w else c.putPred c.w 1 c.m false c.validLevel := ⟨_, rfl⟩
  rw [← hw0]
  obtain ⟨⟨ps, pl, hz, hp⟩, hb, hr⟩ := putPred_bits c w0 d.toNat (if f c.m (c.w.pred a.toNat) then c.m else 0) c.px.zp (c.level 0) hm
  generalize c.putPred w0 d.toNat (if f c.m (c.w.pred a.toNat) then c.m else 0) c.px.zp (c.level 0) = w1 at hp hb hr ⊢
  have h0 : (∃ p l hz, w0 = { c.w with preds := p, plev := l, haz := hz }) ∧
      (∀ l, l < 64 → d.toNat ≠ 1 → (w0.pred 1).getLsbD l = (c.m.getLsbD l || (c.w.pred 1).getLsbD l)) ∧
      (∀ p, d.toNat = 1 ∨ p ≠ 1 → w0.pred p = c.w.pred p) := by
    rw [hw0]
    split
    · rename_i h1
      exact ⟨⟨_, _, _, rfl⟩, fun l _ hd => absurd h1 hd, fun _ _ => rfl⟩
    · rename_i h1
      obtain ⟨a1, a2, a3⟩ := putPred_bits c c.w 1 c.m false c.validLevel hm
      refine ⟨a1, fun l hl _ => ?_, fun p hq => a3 p (hq.resolve_left h1)⟩
      rw [a2 l hl (by decide)]
      cases c.m.getLsbD l <;> simp
  obtain ⟨⟨ps0, pl0, hz0, hp0⟩, hb0, hr0⟩ := h0
  have hw1 : kget ((s.setWarp c.u c.w).setWarp c.u w1).warps c.u = some w1 := by simp
  obtain ⟨h3, hd⟩ := done_frame ((s.setWarp c.u c.w).setWarp c.u w1) c c.is.mask
  obtain ⟨fr, nn, tt, x, hw3, hadv⟩ := hd _ hw1
  have hq : ∀ q, Warp.pred { w1 with frontier := fr, fair := nn, turn := tt, xw := x } q = w1.pred q := fun _ => rfl
  refine ⟨((onlyUnit_setWarp _ _ _).trans (onlyUnit_setWarp _ _ _)).trans h3, _, hw3, ?_, ⟨?_, ?_, ?_, ?_⟩, ?_, ?_, ?_⟩
  · rw [hp, hp0]; rfl
  · intro l hl hd0
    rw [hq, hb l hl hd0]
    cases hml : c.m.getLsbD l
    · simp only [Bool.false_eq_true, if_false]
      rw [hr0 _ (by omega)]
    · simp only [if_true]
      cases f c.m (c.w.pred a.toNat) <;> simp [hml]
  · intro l hl hd1
    rw [hq, hr 1 (Ne.symm hd1), hb0 l hl hd1]
  · rfl
  · intro q h1 h2
    rw [hq, hr q h1, hr0 q (.inr h2)]
  · intro l; rw [hp, hp0]; rfl
  · intro r l; rw [hp, hp0]; rfl
  · rw [hp, hp0] at hadv ⊢
    exact hadv h.alive

end Sys2Proof.Machine
end

