-- ==== Sys2Proof/Laws/Exec.lean ====
section
/-! SUPPORT. What `exec` does with each constructor: it is the call of its meaning. -/

namespace Sys2Proof.Machine

theorem exec_addW (b a d) (s) : exec (.addW b a d) s = execAddW b a d s := rfl
theorem exec_subW (b a d) (s) : exec (.subW b a d) s = execSubW b a d s := rfl
theorem exec_addsSw (b a d) (s) : exec (.addsSw b a d) s = execAddsSw b a d s := rfl
theorem exec_addsUw (b a d) (s) : exec (.addsUw b a d) s = execAddsUw b a d s := rfl
theorem exec_subsSw (b a d) (s) : exec (.subsSw b a d) s = execSubsSw b a d s := rfl
theorem exec_subsUw (b a d) (s) : exec (.subsUw b a d) s = execSubsUw b a d s := rfl
theorem exec_mulW (b a d) (s) : exec (.mulW b a d) s = execMulW b a d s := rfl
theorem exec_mulhiSw (b a d) (s) : exec (.mulhiSw b a d) s = execMulhiSw b a d s := rfl
theorem exec_mulhiUw (b a d) (s) : exec (.mulhiUw b a d) s = execMulhiUw b a d s := rfl
theorem exec_madW (b a d) (s) : exec (.madW b a d) s = execMadW b a d s := rfl
theorem exec_minSw (b a d) (s) : exec (.minSw b a d) s = execMinSw b a d s := rfl
theorem exec_minUw (b a d) (s) : exec (.minUw b a d) s = execMinUw b a d s := rfl
theorem exec_maxSw (b a d) (s) : exec (.maxSw b a d) s = execMaxSw b a d s := rfl
theorem exec_maxUw (b a d) (s) : exec (.maxUw b a d) s = execMaxUw b a d s := rfl
theorem exec_absSw (a d) (s) : exec (.absSw a d) s = execAbsSw a d s := rfl
theorem exec_negW (a d) (s) : exec (.negW a d) s = execNegW a d s := rfl
theorem exec_addD (b a d) (s) : exec (.addD b a d) s = execAddD b a d s := rfl
theorem exec_subD (b a d) (s) : exec (.subD b a d) s = execSubD b a d s := rfl
theorem exec_addwD (b a d) (s) : exec (.addwD b a d) s = execAddwD b a d s := rfl
theorem exec_mulSwd (b a d) (s) : exec (.mulSwd b a d) s = execMulSwd b a d s := rfl
theorem exec_mulUwd (b a d) (s) : exec (.mulUwd b a d) s = execMulUwd b a d s := rfl
theorem exec_idot4Sb (b a d) (s) : exec (.idot4Sb b a d) s = execIdot4Sb b a d s := rfl
theorem exec_idot4Ub (b a d) (s) : exec (.idot4Ub b a d) s = execIdot4Ub b a d s := rfl
theorem exec_and (b a d) (s) : exec (.and b a d) s = execAnd b a d s := rfl
theorem exec_or (b a d) (s) : exec (.or b a d) s = execOr b a d s := rfl
theorem exec_xor (b a d) (s) : exec (.xor b a d) s = execXor b a d s := rfl
theorem exec_andn (b a d) (s) : exec (.andn b a d) s = execAndn b a d s := rfl
theorem exec_shl (b a d) (s) : exec (.shl b a d) s = execShl b a d s := rfl
theorem exec_shr (b a d) (s) : exec (.shr b a d) s = execShr b a d s := rfl
theorem exec_sra (b a d) (s) : exec (.sra b a d) s = execSra b a d s := rfl
theorem exec_rotl (b a d) (s) : exec (.rotl b a d) s = execRotl b a d s := rfl
theorem exec_clz (a d) (s) : exec (.clz a d) s = execClz a d s := rfl
theorem exec_popc (a d) (s) : exec (.popc a d) s = execPopc a d s := rfl
theorem exec_brev (a d) (s) : exec (.brev a d) s = execBrev a d s := rfl
theorem exec_bfxUw (b a d) (s) : exec (.bfxUw b a d) s = execBfxUw b a d s := rfl
theorem exec_bfxSw (b a d) (s) : exec (.bfxSw b a d) s = execBfxSw b a d s := rfl
theorem exec_bfi (b a d) (s) : exec (.bfi b a d) s = execBfi b a d s := rfl
theorem exec_perm (b a d) (s) : exec (.perm b a d) s = execPerm b a d s := rfl
theorem exec_mov (a d) (s) : exec (.mov a d) s = execMov a d s := rfl
theorem exec_faddF32 (b a d) (s) : exec (.faddF32 b a d) s = execFaddF32 b a d s := rfl
theorem exec_fsubF32 (b a d) (s) : exec (.fsubF32 b a d) s = execFsubF32 b a d s := rfl
theorem exec_fmulF32 (b a d) (s) : exec (.fmulF32 b a d) s = execFmulF32 b a d s := rfl
theorem exec_ffmaF32 (b a d) (s) : exec (.ffmaF32 b a d) s = execFfmaF32 b a d s := rfl
theorem exec_fminF32 (b a d) (s) : exec (.fminF32 b a d) s = execFminF32 b a d s := rfl
theorem exec_fmaxF32 (b a d) (s) : exec (.fmaxF32 b a d) s = execFmaxF32 b a d s := rfl
theorem exec_fabsF32 (a d) (s) : exec (.fabsF32 a d) s = execFabsF32 a d s := rfl
theorem exec_fnegF32 (a d) (s) : exec (.fnegF32 a d) s = execFnegF32 a d s := rfl
theorem exec_frcpF32 (a d) (s) : exec (.frcpF32 a d) s = execFrcpF32 a d s := rfl
theorem exec_frsqF32 (a d) (s) : exec (.frsqF32 a d) s = execFrsqF32 a d s := rfl
theorem exec_fsqrtF32 (a d) (s) : exec (.fsqrtF32 a d) s = execFsqrtF32 a d s := rfl
theorem exec_fdivF32 (b a d) (s) : exec (.fdivF32 b a d) s = execFdivF32 b a d s := rfl
theorem exec_fex2F32 (a d) (s) : exec (.fex2F32 a d) s = execFex2F32 a d s := rfl
theorem exec_flg2F32 (a d) (s) : exec (.flg2F32 a d) s = execFlg2F32 a d s := rfl
theorem exec_fsinpiF32 (a d) (s) : exec (.fsinpiF32 a d) s = execFsinpiF32 a d s := rfl
theorem exec_fcospiF32 (a d) (s) : exec (.fcospiF32 a d) s = execFcospiF32 a d s := rfl
theorem exec_ftanhF32 (a d) (s) : exec (.ftanhF32 a d) s = execFtanhF32 a d s := rfl
theorem exec_frndF32 (a d) (s) : exec (.frndF32 a d) s = execFrndF32 a d s := rfl
theorem exec_hadd2F16 (b a d) (s) : exec (.hadd2F16 b a d) s = execHadd2F16 b a d s := rfl
theorem exec_hmul2F16 (b a d) (s) : exec (.hmul2F16 b a d) s = execHmul2F16 b a d s := rfl
theorem exec_hfma2F16 (b a d) (s) : exec (.hfma2F16 b a d) s = execHfma2F16 b a d s := rfl
theorem exec_hadd2Bf16 (b a d) (s) : exec (.hadd2Bf16 b a d) s = execHadd2Bf16 b a d s := rfl
theorem exec_hmul2Bf16 (b a d) (s) : exec (.hmul2Bf16 b a d) s = execHmul2Bf16 b a d s := rfl
theorem exec_hfma2Bf16 (b a d) (s) : exec (.hfma2Bf16 b a d) s = execHfma2Bf16 b a d s := rfl
theorem exec_hmin2Bf16 (b a d) (s) : exec (.hmin2Bf16 b a d) s = execHmin2Bf16 b a d s := rfl
theorem exec_hmax2Bf16 (b a d) (s) : exec (.hmax2Bf16 b a d) s = execHmax2Bf16 b a d s := rfl
theorem exec_fdot2Bf16 (b a d) (s) : exec (.fdot2Bf16 b a d) s = execFdot2Bf16 b a d s := rfl
theorem exec_dadd (b a d) (s) : exec (.dadd b a d) s = execDadd b a d s := rfl
theorem exec_dmul (b a d) (s) : exec (.dmul b a d) s = execDmul b a d s := rfl
theorem exec_dfma (b a d) (s) : exec (.dfma b a d) s = execDfma b a d s := rfl
theorem exec_dmin (b a d) (s) : exec (.dmin b a d) s = execDmin b a d s := rfl
theorem exec_dmax (b a d) (s) : exec (.dmax b a d) s = execDmax b a d s := rfl
theorem exec_ddiv (b a d) (s) : exec (.ddiv b a d) s = execDdiv b a d s := rfl
theorem exec_dsqrt (a d) (s) : exec (.dsqrt a d) s = execDsqrt a d s := rfl
theorem exec_cvtF32Sw (a d) (s) : exec (.cvtF32Sw a d) s = execCvtF32Sw a d s := rfl
theorem exec_cvtF32Uw (a d) (s) : exec (.cvtF32Uw a d) s = execCvtF32Uw a d s := rfl
theorem exec_cvtSwF32 (a d) (s) : exec (.cvtSwF32 a d) s = execCvtSwF32 a d s := rfl
theorem exec_cvtUwF32 (a d) (s) : exec (.cvtUwF32 a d) s = execCvtUwF32 a d s := rfl
theorem exec_pkF16 (b a d) (s) : exec (.pkF16 b a d) s = execPkF16 b a d s := rfl
theorem exec_pkBf16 (b a d) (s) : exec (.pkBf16 b a d) s = execPkBf16 b a d s := rfl
theorem exec_cvtF32F16 (imm a d) (s) : exec (.cvtF32F16 imm a d) s = execCvtF32F16 imm a d s := rfl
theorem exec_cvtF32Bf16 (imm a d) (s) : exec (.cvtF32Bf16 imm a d) s = execCvtF32Bf16 imm a d s := rfl
theorem exec_cvtF64F32 (a d) (s) : exec (.cvtF64F32 a d) s = execCvtF64F32 a d s := rfl
theorem exec_cvtF32F64 (a d) (s) : exec (.cvtF32F64 a d) s = execCvtF32F64 a d s := rfl
theorem exec_qpkE4m3 (b a d) (s) : exec (.qpkE4m3 b a d) s = execQpkE4m3 b a d s := rfl
theorem exec_qpkE5m2 (b a d) (s) : exec (.qpkE5m2 b a d) s = execQpkE5m2 b a d s := rfl
theorem exec_dqE4m3 (b a d) (s) : exec (.dqE4m3 b a d) s = execDqE4m3 b a d s := rfl
theorem exec_dqE5m2 (b a d) (s) : exec (.dqE5m2 b a d) s = execDqE5m2 b a d s := rfl
theorem exec_shflIdx (b a d) (s) : exec (.shflIdx b a d) s = execShflIdx b a d s := rfl
theorem exec_shflUp (b a d) (s) : exec (.shflUp b a d) s = execShflUp b a d s := rfl
theorem exec_shflDn (b a d) (s) : exec (.shflDn b a d) s = execShflDn b a d s := rfl
theorem exec_shflXor (b a d) (s) : exec (.shflXor b a d) s = execShflXor b a d s := rfl
theorem exec_shflRel (b a d) (s) : exec (.shflRel b a d) s = execShflRel b a d s := rfl
theorem exec_voteAny (a d) (s) : exec (.voteAny a d) s = execVoteAny a d s := rfl
theorem exec_voteAll (a d) (s) : exec (.voteAll a d) s = execVoteAll a d s := rfl
theorem exec_ballot (a d) (s) : exec (.ballot a d) s = execBallot a d s := rfl
theorem exec_redx (imm a d) (s) : exec (.redx imm a d) s = execRedx imm a d s := rfl
theorem exec_redxi (imm a d) (s) : exec (.redxi imm a d) s = execRedxi imm a d s := rfl
theorem exec_scan (imm a d) (s) : exec (.scan imm a d) s = execScan imm a d s := rfl
theorem exec_matchW (a d) (s) : exec (.matchW a d) s = execMatchW a d s := rfl
theorem exec_cmpEqW (b a d) (s) : exec (.cmpEqW b a d) s = execCmpEqW b a d s := rfl
theorem exec_cmpNeW (b a d) (s) : exec (.cmpNeW b a d) s = execCmpNeW b a d s := rfl
theorem exec_cmpLtSw (b a d) (s) : exec (.cmpLtSw b a d) s = execCmpLtSw b a d s := rfl
theorem exec_cmpLeSw (b a d) (s) : exec (.cmpLeSw b a d) s = execCmpLeSw b a d s := rfl
theorem exec_cmpLtUw (b a d) (s) : exec (.cmpLtUw b a d) s = execCmpLtUw b a d s := rfl
theorem exec_cmpLeUw (b a d) (s) : exec (.cmpLeUw b a d) s = execCmpLeUw b a d s := rfl
theorem exec_fcmpEqF32 (b a d) (s) : exec (.fcmpEqF32 b a d) s = execFcmpEqF32 b a d s := rfl
theorem exec_fcmpLtF32 (b a d) (s) : exec (.fcmpLtF32 b a d) s = execFcmpLtF32 b a d s := rfl
theorem exec_fcmpLeF32 (b a d) (s) : exec (.fcmpLeF32 b a d) s = execFcmpLeF32 b a d s := rfl
theorem exec_fcmpUnF32 (b a d) (s) : exec (.fcmpUnF32 b a d) s = execFcmpUnF32 b a d s := rfl
theorem exec_dcmpLt (b a d) (s) : exec (.dcmpLt b a d) s = execDcmpLt b a d s := rfl
theorem exec_dcmpEq (b a d) (s) : exec (.dcmpEq b a d) s = execDcmpEq b a d s := rfl
theorem exec_pand (b a d) (s) : exec (.pand b a d) s = execPand b a d s := rfl
theorem exec_por (b a d) (s) : exec (.por b a d) s = execPor b a d s := rfl
theorem exec_pxor (b a d) (s) : exec (.pxor b a d) s = execPxor b a d s := rfl
theorem exec_pandn (b a d) (s) : exec (.pandn b a d) s = execPandn b a d s := rfl
theorem exec_pmovV (a d) (s) : exec (.pmovV a d) s = execPmovV a d s := rfl
theorem exec_vmovP (a d) (s) : exec (.vmovP a d) s = execVmovP a d s := rfl
theorem exec_pcnt (a d) (s) : exec (.pcnt a d) s = execPcnt a d s := rfl
theorem exec_ldSb (b a d) (s) : exec (.ldSb b a d) s = execLdSb b a d s := rfl
theorem exec_ldUb (b a d) (s) : exec (.ldUb b a d) s = execLdUb b a d s := rfl
theorem exec_ldSh (b a d) (s) : exec (.ldSh b a d) s = execLdSh b a d s := rfl
theorem exec_ldUh (b a d) (s) : exec (.ldUh b a d) s = execLdUh b a d s := rfl
theorem exec_ldW (b a d) (s) : exec (.ldW b a d) s = execLdW b a d s := rfl
theorem exec_ldD (b a d) (s) : exec (.ldD b a d) s = execLdD b a d s := rfl
theorem exec_ldQ (b a d) (s) : exec (.ldQ b a d) s = execLdQ b a d s := rfl
theorem exec_stB (b a d) (s) : exec (.stB b a d) s = execStB b a d s := rfl
theorem exec_stH (b a d) (s) : exec (.stH b a d) s = execStH b a d s := rfl
theorem exec_stW (b a d) (s) : exec (.stW b a d) s = execStW b a d s := rfl
theorem exec_stD (b a d) (s) : exec (.stD b a d) s = execStD b a d s := rfl
theorem exec_stQ (b a d) (s) : exec (.stQ b a d) s = execStQ b a d s := rfl
theorem exec_ldmW (k a d) (s) : exec (.ldmW k a d) s = execLdmW k a d s := rfl
theorem exec_ldmD (k a d) (s) : exec (.ldmD k a d) s = execLdmD k a d s := rfl
theorem exec_ldmQ (k a d) (s) : exec (.ldmQ k a d) s = execLdmQ k a d s := rfl
theorem exec_stmW (k a d) (s) : exec (.stmW k a d) s = execStmW k a d s := rfl
theorem exec_stmD (k a d) (s) : exec (.stmD k a d) s = execStmD k a d s := rfl
theorem exec_stmQ (k a d) (s) : exec (.stmQ k a d) s = execStmQ k a d s := rfl
theorem exec_ldacqW (r sx a d) (s) : exec (.ldacqW r sx a d) s = execLdacqW r sx a d s := rfl
theorem exec_ldacqD (r sx a d) (s) : exec (.ldacqD r sx a d) s = execLdacqD r sx a d s := rfl
theorem exec_strelW (sx a d) (s) : exec (.strelW sx a d) s = execStrelW sx a d s := rfl
theorem exec_strelD (sx a d) (s) : exec (.strelD sx a d) s = execStrelD sx a d s := rfl
theorem exec_atomAddW (b a d) (s) : exec (.atomAddW b a d) s = execAtomAddW b a d s := rfl
theorem exec_atomMinSw (b a d) (s) : exec (.atomMinSw b a d) s = execAtomMinSw b a d s := rfl
theorem exec_atomMinUw (b a d) (s) : exec (.atomMinUw b a d) s = execAtomMinUw b a d s := rfl
theorem exec_atomMaxSw (b a d) (s) : exec (.atomMaxSw b a d) s = execAtomMaxSw b a d s := rfl
theorem exec_atomMaxUw (b a d) (s) : exec (.atomMaxUw b a d) s = execAtomMaxUw b a d s := rfl
theorem exec_atomAndW (b a d) (s) : exec (.atomAndW b a d) s = execAtomAndW b a d s := rfl
theorem exec_atomOrW (b a d) (s) : exec (.atomOrW b a d) s = execAtomOrW b a d s := rfl
theorem exec_atomXorW (b a d) (s) : exec (.atomXorW b a d) s = execAtomXorW b a d s := rfl
theorem exec_atomExchW (b a d) (s) : exec (.atomExchW b a d) s = execAtomExchW b a d s := rfl
theorem exec_atomCasW (b a d) (s) : exec (.atomCasW b a d) s = execAtomCasW b a d s := rfl
theorem exec_atomFaddF32 (b a d) (s) : exec (.atomFaddF32 b a d) s = execAtomFaddF32 b a d s := rfl
theorem exec_atomAddD (b a d) (s) : exec (.atomAddD b a d) s = execAtomAddD b a d s := rfl
theorem exec_atomExchD (b a d) (s) : exec (.atomExchD b a d) s = execAtomExchD b a d s := rfl
theorem exec_atomCasD (b a d) (s) : exec (.atomCasD b a d) s = execAtomCasD b a d s := rfl
theorem exec_pfL1 (b a) (s) : exec (.pfL1 b a) s = execPfL1 b a s := rfl
theorem exec_pfL2 (b a) (s) : exec (.pfL2 b a) s = execPfL2 b a s := rfl
theorem exec_jmp (a) (s) : exec (.jmp a) s = execJmp a s := rfl
theorem exec_callr (a d) (s) : exec (.callr a d) s = execCallr a d s := rfl
theorem exec_ret (a) (s) : exec (.ret a) s = execRet a s := rfl
theorem exec_barArr (b a) (s) : exec (.barArr b a) s = execBarArr b a s := rfl
theorem exec_barWait (b a) (s) : exec (.barWait b a) s = execBarWait b a s := rfl
theorem exec_barSync (a) (s) : exec (.barSync a) s = execBarSync a s := rfl
theorem exec_pbwait (imm a) (s) : exec (.pbwait imm a) s = execPbwait imm a s := rfl
theorem exec_pbarr (b a) (s) : exec (.pbarr b a) s = execPbarr b a s := rfl
theorem exec_xw (a) (s) : exec (.xw a) s = execXw a s := rfl
theorem exec_xwp (b a) (s) : exec (.xwp b a) s = execXwp b a s := rfl
theorem exec_untag (a d) (s) : exec (.untag a d) s = execUntag a d s := rfl
theorem exec_lnkill (imm a) (s) : exec (.lnkill imm a) s = execLnkill imm a s := rfl
theorem exec_mfs (imm d) (s) : exec (.mfs imm d) s = execMfs imm d s := rfl
theorem exec_mts (imm a) (s) : exec (.mts imm a) s = execMts imm a s := rfl
theorem exec_lnq (a d) (s) : exec (.lnq a d) s = execLnq a d s := rfl
theorem exec_bcopy (a d) (s) : exec (.bcopy a d) s = execBcopy a d s := rfl
theorem exec_coll (a) (s) : exec (.coll a) s = execColl a s := rfl
theorem exec_ewait (a) (s) : exec (.ewait a) s = execEwait a s := rfl
theorem exec_epoll (a d) (s) : exec (.epoll a d) s = execEpoll a d s := rfl
theorem exec_gpost (b a) (s) : exec (.gpost b a) s = execGpost b a s := rfl
theorem exec_ofsub (a d) (s) : exec (.ofsub a d) s = execOfsub a d s := rfl
theorem exec_ofwait (s) : exec .ofwait s = execOfwait s := rfl
theorem exec_ofcommit (s) : exec .ofcommit s = execOfcommit s := rfl
theorem exec_ofinfo (d) (s) : exec (.ofinfo d) s = execOfinfo d s := rfl
theorem exec_accrd (a d) (s) : exec (.accrd a d) s = execAccrd a d s := rfl
theorem exec_accwr (a d) (s) : exec (.accwr a d) s = execAccwr a d s := rfl
theorem exec_acalloc (a d) (s) : exec (.acalloc a d) s = execAcalloc a d s := rfl
theorem exec_acfree (b a) (s) : exec (.acfree b a) s = execAcfree b a s := rfl
theorem exec_mslot (b a sx) (s) : exec (.mslot b a sx) s = execMslot b a sx s := rfl
theorem exec_mmac (b a d) (s) : exec (.mmac b a d) s = execMmac b a d s := rfl
theorem exec_mtrans (a d) (s) : exec (.mtrans a d) s = execMtrans a d s := rfl
theorem exec_mperm (b a d) (s) : exec (.mperm b a d) s = execMperm b a d s := rfl
theorem exec_mrsum (a d) (s) : exec (.mrsum a d) s = execMrsum a d s := rfl
theorem exec_mzero (d) (s) : exec (.mzero d) s = execMzero d s := rfl
theorem exec_vcnt (b a) (s) : exec (.vcnt b a) s = execVcnt b a s := rfl
theorem exec_mwait (s) : exec .mwait s = execMwait s := rfl
theorem exec_mpost (b a d) (s) : exec (.mpost b a d) s = execMpost b a d s := rfl
theorem exec_mdrain (a d) (s) : exec (.mdrain a d) s = execMdrain a d s := rfl
theorem exec_ppoint (a) (s) : exec (.ppoint a) s = execPpoint a s := rfl
theorem exec_addiW (imm a d) (s) : exec (.addiW imm a d) s = execAddiW imm a d s := rfl
theorem exec_andi (imm a d) (s) : exec (.andi imm a d) s = execAndi imm a d s := rfl
theorem exec_ori (imm a d) (s) : exec (.ori imm a d) s = execOri imm a d s := rfl
theorem exec_xori (imm a d) (s) : exec (.xori imm a d) s = execXori imm a d s := rfl
theorem exec_shli (imm a d) (s) : exec (.shli imm a d) s = execShli imm a d s := rfl
theorem exec_shri (imm a d) (s) : exec (.shri imm a d) s = execShri imm a d s := rfl
theorem exec_srai (imm a d) (s) : exec (.srai imm a d) s = execSrai imm a d s := rfl
theorem exec_cmpiEq (imm a d) (s) : exec (.cmpiEq imm a d) s = execCmpiEq imm a d s := rfl
theorem exec_cmpiLtSw (imm a d) (s) : exec (.cmpiLtSw imm a d) s = execCmpiLtSw imm a d s := rfl
theorem exec_cmpiLtUw (imm a d) (s) : exec (.cmpiLtUw imm a d) s = execCmpiLtUw imm a d s := rfl
theorem exec_ldiW (imm a d) (s) : exec (.ldiW imm a d) s = execLdiW imm a d s := rfl
theorem exec_stiW (imm a d) (s) : exec (.stiW imm a d) s = execStiW imm a d s := rfl
theorem exec_ldiD (imm a d) (s) : exec (.ldiD imm a d) s = execLdiD imm a d s := rfl
theorem exec_stiD (imm a d) (s) : exec (.stiD imm a d) s = execStiD imm a d s := rfl
theorem exec_ldiQ (imm a d) (s) : exec (.ldiQ imm a d) s = execLdiQ imm a d s := rfl
theorem exec_stiQ (imm a d) (s) : exec (.stiQ imm a d) s = execStiQ imm a d s := rfl
theorem exec_bra (imm) (s) : exec (.bra imm) s = execBra imm s := rfl
theorem exec_call (imm d) (s) : exec (.call imm d) s = execCall imm d s := rfl
theorem exec_movi (imm d) (s) : exec (.movi imm d) s = execMovi imm d s := rfl
theorem exec_movu (imm d) (s) : exec (.movu imm d) s = execMovu imm d s := rfl
theorem exec_join (s) : exec .join s = execJoin s := rfl
theorem exec_nop (s) : exec .nop s = execNop s := rfl
theorem exec_exit (s) : exec .exit s = execExit s := rfl
theorem exec_trap (c) (s) : exec (.trap c) s = execTrap c s := rfl
theorem exec_brk (s) : exec .brk s = execBrk s := rfl
theorem exec_eret (s) : exec .eret s = execEret s := rfl
theorem exec_fence (t e sx) (s) : exec (.fence t e sx) s = execFence t e sx s := rfl
theorem exec_sdrain (s) : exec .sdrain s = execSdrain s := rfl
theorem exec_wbase (n) (s) : exec (.wbase n) s = execWbase n s := rfl
theorem exec_sleep (n) (s) : exec (.sleep n) s = execSleep n s := rfl
theorem exec_yield (s) : exec .yield s = execYield s := rfl
theorem exec_lnon (s) : exec .lnon s = execLnon s := rfl
theorem exec_lnoff (s) : exec .lnoff s = execLnoff s := rfl
theorem exec_bexit (c) (s) : exec (.bexit c) s = execBexit c s := rfl
theorem exec_fairnessTurn (u) (s) : exec (.fairnessTurn u) s = execFairnessTurn u s := rfl
theorem exec_storeFaultDelivery (u) (s) : exec (.storeFaultDelivery u) s = execStoreFaultDelivery u s := rfl
theorem exec_transactionOverrunTrap (u) (s) : exec (.transactionOverrunTrap u) s = execTransactionOverrunTrap u s := rfl
theorem exec_passFaultDelivery (u) (s) : exec (.passFaultDelivery u) s = execPassFaultDelivery u s := rfl
theorem exec_producerComplete (core eid) (s) : exec (.producerComplete core eid) s = execProducerComplete core eid s := rfl
theorem exec_drain (u lane) (s) : exec (.drain u lane) s = execDrain u lane s := rfl
theorem exec_propagate (core line) (s) : exec (.propagate core line) s = execPropagate core line s := rfl
theorem exec_apply (pa) (s) : exec (.apply pa) s = execApply pa s := rfl
theorem exec_refresh (core line) (s) : exec (.refresh core line) s = execRefresh core line s := rfl
theorem exec_engineRead (eng k) (s) : exec (.engineRead eng k) s = execEngineRead eng k s := rfl
theorem exec_engineWrite (eng k) (s) : exec (.engineWrite eng k) s = execEngineWrite eng k s := rfl
theorem exec_joinDeadlockRelease (u) (s) : exec (.joinDeadlockRelease u) s = execJoinDeadlockRelease u s := rfl
theorem exec_pbwaitRelease (u lane) (s) : exec (.pbwaitRelease u lane) s = execPbwaitRelease u lane s := rfl
theorem exec_sleepExpiry (u pc) (s) : exec (.sleepExpiry u pc) s = execSleepExpiry u pc s := rfl
theorem exec_pageWalk (u w) (s) : exec (.pageWalk u w) s = execPageWalk u w s := rfl
theorem exec_faultRecordWrite (p) (s) : exec (.faultRecordWrite p) s = execFaultRecordWrite p s := rfl
theorem exec_collapse (p ctx page) (s) : exec (.collapse p ctx page) s = execCollapse p ctx page s := rfl
theorem exec_engineCommandStart (eng) (s) : exec (.engineCommandStart eng) s = execEngineCommandStart eng s := rfl
theorem exec_scout (eng k) (s) : exec (.scout eng k) s = execScout eng k s := rfl
theorem exec_copyCompletion (eng) (s) : exec (.copyCompletion eng) s = execCopyCompletion eng s := rfl
theorem exec_collectiveCompletion (eng cause) (s) : exec (.collectiveCompletion eng cause) s = execCollectiveCompletion eng cause s := rfl
theorem exec_orderSequencerArrival (h) (s) : exec (.orderSequencerArrival h) s = execOrderSequencerArrival h s := rfl
theorem exec_beatSeal (die) (s) : exec (.beatSeal die) s = execBeatSeal die s := rfl
theorem exec_batchExchange (beat) (s) : exec (.batchExchange beat) s = execBatchExchange beat s := rfl
theorem exec_transactionAdmission (h) (s) : exec (.transactionAdmission h) s = execTransactionAdmission h s := rfl
theorem exec_transactionOverrun (h) (s) : exec (.transactionOverrun h) s = execTransactionOverrun h s := rfl
theorem exec_passGrant (cl) (s) : exec (.passGrant cl) s = execPassGrant cl s := rfl
theorem exec_operandFetch (cl cmd which k) (s) : exec (.operandFetch cl cmd which k) s = execOperandFetch cl cmd which k s := rfl
theorem exec_chunkApplied (cl sb) (s) : exec (.chunkApplied cl sb) s = execChunkApplied cl sb s := rfl
theorem exec_mpostArrival (cl cmd) (s) : exec (.mpostArrival cl cmd) s = execMpostArrival cl cmd s := rfl
theorem exec_tileDrain (cl cmd) (s) : exec (.tileDrain cl cmd) s = execTileDrain cl cmd s := rfl
theorem exec_accumulatorSpill (cl) (s) : exec (.accumulatorSpill cl) s = execAccumulatorSpill cl s := rfl
theorem exec_acallocGrant (cl) (s) : exec (.acallocGrant cl) s = execAcallocGrant cl s := rfl
theorem exec_acfreeEffect (cl cmd) (s) : exec (.acfreeEffect cl cmd) s = execAcfreeEffect cl cmd s := rfl
theorem exec_preemptionTimeout (blk) (s) : exec (.preemptionTimeout blk) s = execPreemptionTimeout blk s := rfl
theorem exec_qpost (fn q size node) (s) : exec (.qpost fn q size node) s = execQpost fn q size node s := rfl
theorem exec_queueResume (fn q) (s) : exec (.queueResume fn q) s = execQueueResume fn q s := rfl
theorem exec_flush (fn q) (s) : exec (.flush fn q) s = execFlush fn q s := rfl
theorem exec_abort (fn q) (s) : exec (.abort fn q) s = execAbort fn q s := rfl
theorem exec_nodeDispatch (p) (s) : exec (.nodeDispatch p) s = execNodeDispatch p s := rfl
theorem exec_nodeCompletion (n) (s) : exec (.nodeCompletion n) s = execNodeCompletion n s := rfl
theorem exec_blockAdmission (l) (s) : exec (.blockAdmission l) s = execBlockAdmission l s := rfl
theorem exec_admissionReservation (l core) (s) : exec (.admissionReservation l core) s = execAdmissionReservation l core s := rfl
theorem exec_blockRetirement (blk) (s) : exec (.blockRetirement blk) s = execBlockRetirement blk s := rfl
theorem exec_launchEnd (l) (s) : exec (.launchEnd l) s = execLaunchEnd l s := rfl
theorem exec_latticeTimeslice (die phys) (s) : exec (.latticeTimeslice die phys) s = execLatticeTimeslice die phys s := rfl
theorem exec_replayGateTimeout (l u) (s) : exec (.replayGateTimeout l u) s = execReplayGateTimeout l u s := rfl
theorem exec_measurementPass (l) (s) : exec (.measurementPass l) s = execMeasurementPass l s := rfl
theorem exec_contextDestroy (p ctx) (s) : exec (.contextDestroy p ctx) s = execContextDestroy p ctx s := rfl
theorem exec_shootdown (p) (s) : exec (.shootdown p) s = execShootdown p s := rfl
theorem exec_shootdownComplete (p) (s) : exec (.shootdownComplete p) s = execShootdownComplete p s := rfl
theorem exec_fqresResume (p page) (s) : exec (.fqresResume p page) s = execFqresResume p page s := rfl
theorem exec_fqresReject (p page) (s) : exec (.fqresReject p page) s = execFqresReject p page s := rfl
theorem exec_halt (p) (s) : exec (.halt p) s = execHalt p s := rfl
theorem exec_resume (p) (s) : exec (.resume p) s = execResume p s := rfl
theorem exec_step (p) (s) : exec (.step p) s = execStep p s := rfl
theorem exec_stepall (p) (s) : exec (.stepall p) s = execStepall p s := rfl
theorem exec_snap (p seqno) (s) : exec (.snap p seqno) s = execSnap p seqno s := rfl
theorem exec_poke (p) (s) : exec (.poke p) s = execPoke p s := rfl
theorem exec_preempt (p seqno) (s) : exec (.preempt p seqno) s = execPreempt p seqno s := rfl
theorem exec_restore (p) (s) : exec (.restore p) s = execRestore p s := rfl
theorem exec_release (p) (s) : exec (.release p) s = execRelease p s := rfl
theorem exec_hostAccess (wr cxl pa n data) (s) : exec (.hostAccess wr cxl pa n data) s = execHostAccess wr cxl pa n data s := rfl
theorem exec_inboundAccess (port peer off acc n data) (s) : exec (.inboundAccess port peer off acc n data) s = execInboundAccess port peer off acc n data s := rfl
theorem exec_inboundTimeout (p k) (s) : exec (.inboundTimeout p k) s = execInboundTimeout p k s := rfl
theorem exec_remoteTimeout (r) (s) : exec (.remoteTimeout r) s = execRemoteTimeout r s := rfl
theorem exec_peerCompletion (r err data) (s) : exec (.peerCompletion r err data) s = execPeerCompletion r err data s := rfl
theorem exec_flitReplay (port dir) (s) : exec (.flitReplay port dir) s = execFlitReplay port dir s := rfl
theorem exec_linkRetrain (port) (s) : exec (.linkRetrain port) s = execLinkRetrain port s := rfl
theorem exec_heartbeat (p ctr key fresh) (s) : exec (.heartbeat p ctr key fresh) s = execHeartbeat p ctr key fresh s := rfl
theorem exec_sessionBind (p key) (s) : exec (.sessionBind p key) s = execSessionBind p key s := rfl
theorem exec_sessionLapse (p) (s) : exec (.sessionLapse p) s = execSessionLapse p s := rfl
theorem exec_sessionHalt (p) (s) : exec (.sessionHalt p) s = execSessionHalt p s := rfl
theorem exec_sessionScrub (p) (s) : exec (.sessionScrub p) s = execSessionScrub p s := rfl
theorem exec_getMeasurements (idx) (s) : exec (.getMeasurements idx) s = execGetMeasurements idx s := rfl
theorem exec_stage (comps vals digest secver sig) (s) : exec (.stage comps vals digest secver sig) s = execStage comps vals digest secver sig s := rfl
theorem exec_activate (s) : exec .activate s = execActivate s := rfl
theorem exec_componentSwitch (s) : exec .componentSwitch s = execComponentSwitch s := rfl
theorem exec_create (p clusters groups conf) (s) :
    exec (.create p clusters groups conf) s = execCreate p clusters groups conf s := rfl
theorem exec_partitionRelease (p) (s) : exec (.partitionRelease p) s = execPartitionRelease p s := rfl
theorem exec_handoff (p rec ctx) (s) : exec (.handoff p rec ctx) s = execHandoff p rec ctx s := rfl
theorem exec_allocationRecordWrite (p rec base len ctx keyid slevel key valid) (s) : exec (.allocationRecordWrite p rec base len ctx keyid slevel key valid) s = execAllocationRecordWrite p rec base len ctx keyid slevel key valid s := rfl
theorem exec_levelLower (p kind who addr level) (s) : exec (.levelLower p kind who addr level) s = execLevelLower p kind who addr level s := rfl
theorem exec_clockSwitch (cl) (s) : exec (.clockSwitch cl) s = execClockSwitch cl s := rfl
theorem exec_powerInterval (watts) (s) : exec (.powerInterval watts) s = execPowerInterval watts s := rfl
theorem exec_droop (cl) (s) : exec (.droop cl) s = execDroop cl s := rfl
theorem exec_brownoutWarning (s) : exec .brownoutWarning s = execBrownoutWarning s := rfl
theorem exec_brownoutClear (s) : exec .brownoutClear s = execBrownoutClear s := rfl
theorem exec_brownoutTimeout (s) : exec .brownoutTimeout s = execBrownoutTimeout s := rfl
theorem exec_thermalInterval (die temp) (s) : exec (.thermalInterval die temp) s = execThermalInterval die temp s := rfl
theorem exec_thermalCritical (die temp) (s) : exec (.thermalCritical die temp) s = execThermalCritical die temp s := rfl
theorem exec_thermalTrip (die temp) (s) : exec (.thermalTrip die temp) s = execThermalTrip die temp s := rfl
theorem exec_emergencySave (s) : exec .emergencySave s = execEmergencySave s := rfl
theorem exec_emergencyImageWrite (seqno) (s) : exec (.emergencyImageWrite seqno) s = execEmergencyImageWrite seqno s := rfl
theorem exec_opvote (p op) (s) : exec (.opvote p op) s = execOpvote p op s := rfl
theorem exec_railHoldExpiry (die r) (s) : exec (.railHoldExpiry die r) s = execRailHoldExpiry die r s := rfl
theorem exec_railVoltageReached (die r) (s) : exec (.railVoltageReached die r) s = execRailVoltageReached die r s := rfl
theorem exec_energyUpdate (p uj) (s) : exec (.energyUpdate p uj) s = execEnergyUpdate p uj s := rfl
theorem exec_budgetPeriod (s) : exec .budgetPeriod s = execBudgetPeriod s := rfl
theorem exec_patrolScrub (n) (s) : exec (.patrolScrub n) s = execPatrolScrub n s := rfl
theorem exec_uncorrectableError (pa) (s) : exec (.uncorrectableError pa) s = execUncorrectableError pa s := rfl
theorem exec_retirecore (s) : exec .retirecore s = execRetirecore s := rfl
theorem exec_sparech (s) : exec .sparech s = execSparech s := rfl
theorem exec_rowrep (s) : exec .rowrep s = execRowrep s := rfl
theorem exec_lanespare (s) : exec .lanespare s = execLanespare s := rfl
theorem exec_tseal (s) : exec .tseal s = execTseal s := rfl
theorem exec_swapout (s) : exec .swapout s = execSwapout s := rfl
theorem exec_transportSelfTest (cores chans lanes) (s) : exec (.transportSelfTest cores chans lanes) s = execTransportSelfTest cores chans lanes s := rfl
theorem exec_deviceReset (s) : exec .deviceReset s = execDeviceReset s := rfl
theorem exec_registerWrite (fn off size val) (s) : exec (.registerWrite fn off size val) s = execRegisterWrite fn off size val s := rfl
theorem exec_hostCompletion (r data) (s) : exec (.hostCompletion r data) s = execHostCompletion r data s := rfl
theorem exec_linkRetrained (port) (s) : exec (.linkRetrained port) s = execLinkRetrained port s := rfl
theorem exec_collectiveInboundWrite (eng port e vals) (s) : exec (.collectiveInboundWrite eng port e vals) s = execCollectiveInboundWrite eng port e vals s := rfl

end Sys2Proof.Machine
end

