-- ==== Sys2Proof/Laws/Loads.lean ====
section
/-! SUPPORT. What the loads do: they answer the bytes their reads gave, and what the own scratchpad holds when their lanes point there. -/

namespace Sys2Proof.Machine

theorem checkLanes_lanes (s : State) (c : Ctx) (acc : Acc) (need post : Bool) (n : Nat) (addr : Nat → DWord) (lev : Nat → Nat) (ls : List Nat) :
    (s.checkLanes c acc need post n addr lev ls).2.map (·.lane) = ls := by
  induction ls generalizing s with
  | nil => rfl
  | cons l t ih => simp only [State.checkLanes, List.map_cons, ih]

theorem readLanes_fst (s : State) (c : Ctx) (rs : List LaneRes) : (s.readLanes c rs).2.map (·.1) = rs := by
  induction rs generalizing s with
  | nil => rfl
  | cons l t ih => simp only [State.readLanes, List.map_cons, ih]

/-- A line dropped from a view. -/
theorem killLine_frame (s : State) (core line : Nat) : ∃ cs, s.killLine core line = { s with cores := cs } := by
  unfold State.killLine State.modCore State.setCore
  split
  · exact ⟨s.cores, rfl⟩
  · exact ⟨_, rfl⟩

theorem cvDrop_frame (s : State) (v line : Nat) : ∃ cs, s.cvDrop v line = { s with cores := cs } := by
  unfold State.cvDrop
  obtain ⟨cs, h⟩ := killLine_frame (s.modCore v (fun c => { c with cv := kdel c.cv line })) v line
  exact ⟨cs, h⟩

theorem foldl_frame {α : Type} (f : State → α → State) (hf : ∀ s a, ∃ cs, f s a = { s with cores := cs }) (l : List α) (s : State) :
    ∃ cs, l.foldl f s = { s with cores := cs } := by
  induction l generalizing s with
  | nil => exact ⟨s.cores, rfl⟩
  | cons a t ih =>
    obtain ⟨c1, h1⟩ := hf s a
    obtain ⟨c2, h2⟩ := ih (f s a)
    exact ⟨c2, by rw [List.foldl_cons, h2, h1]⟩

/-- A refresh changes copies of views, and does nothing else (R109). -/
theorem refresh_frame (s : State) (v line : Nat) : ∃ cs, s.refresh v line = { s with cores := cs } := by
  unfold State.refresh
  split
  · split
    · exact cvDrop_frame ..
    · split
      · exact ⟨s.cores, rfl⟩
      · rename_i l _ _ _
        obtain ⟨cs, h⟩ := killLine_frame (s.modCore v (fun c => { c with cv := kput c.cv line { l with present := l.dirty } })) v line
        exact ⟨cs, h⟩
  · exact ⟨s.cores, rfl⟩

/-- An acquire refreshes copies of its view, and does nothing else (R112). -/
theorem acquire_frame (s : State) (v scope : Nat) : ∃ cs, s.acquire v scope = { s with cores := cs } := by
  unfold State.acquire
  split
  · exact ⟨s.cores, rfl⟩
  · exact foldl_frame _ (fun s a => refresh_frame s v a) _ _

/-- Memory, scratchpads and the other units stay. -/
structure Quiet (s t : State) (u : Nat) : Prop where
  memory : ∀ a, t.hByte a = s.hByte a
  scratch : ∀ k off, t.spadByte k off = s.spadByte k off
  others : ∀ v, v ≠ u → kget t.warps v = kget s.warps v

theorem Quiet.trans {a b c : State} {u : Nat} (h : Quiet a b u) (k : Quiet b c u) : Quiet a c u :=
  ⟨fun x => (k.memory x).trans (h.memory x), fun x y => (k.scratch x y).trans (h.scratch x y),
    fun v hv => (k.others v hv).trans (h.others v hv)⟩
theorem OnlyUnit.quiet {s t : State} {u : Nat} (h : OnlyUnit s t u) : Quiet s t u := ⟨h.memory, h.scratch, h.others⟩
theorem Quiet.cores (s : State) (u : Nat) (cs : KMap Core) : Quiet s { s with cores := cs } u :=
  ⟨fun _ => rfl, fun _ _ => rfl, fun _ _ => rfl⟩

theorem settle_nil (s : State) (c : Ctx) (acc : Acc) : s.settle c acc [] = s := rfl

theorem mask_all (m : Mask) : m &&& ~~~(maskOfRes [] ||| maskOfRes []) = m := by
  have : maskOfRes [] = 0 := rfl
  rw [this]; apply BitVec.eq_of_getLsbD_eq; intro i hi
  rw [BitVec.getLsbD_and, BitVec.getLsbD_not]; simp [hi]
theorem mask_all1 (m : Mask) : m &&& ~~~(maskOfRes []) = m := by
  have : maskOfRes [] = 0 := rfl
  rw [this]; apply BitVec.eq_of_getLsbD_eq; intro i hi
  rw [BitVec.getLsbD_and, BitVec.getLsbD_not]; simp [hi]

/-- A warp after its address pairs have stepped (R193). -/
def stepped (c : Ctx) (st : Option (Nat × Nat)) (w : Warp) : Warp :=
  match st with
  | none => w
  | some (a, k) => w.writeLanes (c.w.wbase + a) ((lanesOf c.m).map (fun l => (l, words64 (stepAddr c.w k (c.rd64 a l)))))

theorem stepped_eq (c : Ctx) (st : Option (Nat × Nat)) (w : Warp) : ∃ m, stepped c st w = { w with regs := m } := by
  cases st with
  | none => exact ⟨w.regs, rfl⟩
  | some x => obtain ⟨a, k⟩ := x; exact writeLanes_eq _ _ _

/-- Stepping the address pairs writes registers and lineage alone (R193). -/
theorem stepLanes_frame (s : State) (c : Ctx) (st : Option (Nat × Nat)) (w : Warp) (hw : kget s.warps c.u = some w) :
    OnlyUnit s (s.stepLanes c st (lanesOf c.m)) c.u ∧
    ∃ ln rl wr, kget (s.stepLanes c st (lanesOf c.m)).warps c.u = some { stepped c st w with lin := ln, rlev := rl, written := wr } := by
  unfold State.stepLanes stepped
  cases st with
  | none => exact ⟨.refl _ _, w.lin, w.rlev, w.written, hw⟩
  | some x =>
    obtain ⟨a, k⟩ := x
    simp only
    split
    · rename_i he
      refine ⟨.refl _ _, w.lin, w.rlev, w.written, ?_⟩
      have : lanesOf c.m = [] := by simpa using he
      rw [this]; exact hw
    · refine ⟨onlyUnit_modWarp _ _ _, ?_⟩
      simp only [State.modWarp, kmod_some _ hw, kget_kput_self]
      generalize hv : (w.writeLanes (c.w.wbase + a) ((lanesOf c.m).map (fun l => (l, words64 (stepAddr c.w k (c.rd64 a l)))))) = v
      generalize max (c.w.predLevel c.px.mp) (max (c.w.regLevel (c.w.wbase + a)) (c.w.regLevel (c.w.wbase + a + 1))) = lev
      obtain ⟨l, hl⟩ := mapRegs_eq (v.markWritten (c.w.wbase + a) 2 lev) (c.w.wbase + a) 2 none
      rw [hl]
      exact ⟨l, _, _, rfl⟩

theorem load_tail {c : Ctx} (hal : c.w.ended = false) (d n : Nat) (f : LoadForm) (b : Nat → List Byte)
    (s1 s3 s5 : State) (w0 : Warp) (hreg : RegsWritten c w0 d n (fun l => f.words (b l)))
    (hp : ∃ m rl wr hz, w0 = { c.w with regs := m, rlev := rl, written := wr, haz := hz })
    (h3 : ∃ l hz, OnlyUnit s1 s3 c.u ∧ kget s3.warps c.u = some { w0 with lin := l, haz := hz })
    (h4 : ∃ cs, s5 = { s3.stepLanes c f.step (lanesOf c.m) with cores := cs })
    (h4n : f.acq = none → s5 = s3.stepLanes c f.step (lanesOf c.m)) :
    LoadResult s1 (s5.done c c.is.mask) c d n f b := by
  obtain ⟨m, rl, wr, hz, hp⟩ := hp
  obtain ⟨l, hz3, h3, hw2⟩ := h3
  obtain ⟨h5, l3, rl3, wr3, hw3⟩ := stepLanes_frame s3 c f.step _ hw2
  generalize s3.stepLanes c f.step (lanesOf c.m) = s4 at h5 hw3 h4 h4n
  have hw5 : kget s5.warps c.u = kget s4.warps c.u := by obtain ⟨cs, e⟩ := h4; rw [e]
  have q4 : Quiet s4 s5 c.u := by obtain ⟨cs, e⟩ := h4; rw [e]; exact .cores _ _ _
  rw [hw3] at hw5
  obtain ⟨h6, hd⟩ := done_frame s5 c c.is.mask
  obtain ⟨fr, nn, tt, x, hw6, hadv⟩ := hd _ hw5
  have hq := ((h3.trans h5).quiet.trans q4).trans h6.quiet
  obtain ⟨mm, hmm⟩ := stepped_eq c f.step { w0 with lin := l, haz := hz3 }
  have hall : ∀ v : Warp, v = stepped c f.step { w0 with lin := l, haz := hz3 } → v.shell = c.w.shell ∧ (∀ k, v.flagsOf k = c.w.flagsOf k) ∧
      (∀ p, v.pred p = c.w.pred p) := by
    intro v hv; rw [hv, hmm, hp]; exact ⟨rfl, fun _ => rfl, fun _ => rfl⟩
  obtain ⟨e1, e2, e3⟩ := hall _ rfl
  refine ⟨hq.memory, hq.scratch, hq.others, fun hna v => ?_, _, hw6, e1, ?_, e2, e3, ?_⟩
  · rw [h6.core, h4n hna, (h3.trans h5).core]
  · have hregs : ({ stepped c f.step { w0 with lin := l, haz := hz3 } with lin := l3, rlev := rl3, written := wr3, frontier := fr, fair := nn, turn := tt, xw := x } : Warp).regs =
        (stepped c f.step { w0 with lin := l, haz := hz3 }).regs := rfl
    generalize ({ stepped c f.step { w0 with lin := l, haz := hz3 } with lin := l3, rlev := rl3, written := wr3, frontier := fr, fair := nn, turn := tt, xw := x } : Warp) = v at hregs
    have hr := reg_of_regs hregs
    unfold Loaded
    cases hst : f.step with
    | none =>
      rw [hst] at hr
      exact ⟨fun j l hj hl => (hr _ _).trans (hreg.1 j l hj hl), fun r l hl hx => (hr _ _).trans (hreg.2 r l hl hx)⟩
    | some y =>
      obtain ⟨a, k⟩ := y
      rw [hst] at hr
      have hx : ∀ q j, j < 64 → v.reg q j =
          if c.m.getLsbD j = true ∧ c.w.wbase + a ≤ q ∧ q < c.w.wbase + a + 2 then (words64 (stepAddr c.w k (c.rd64 a j))).getD (q - (c.w.wbase + a)) 0 else w0.reg q j := by
        intro q j hj
        exact (hr q j).trans (reg_writeMask _ _ _ (fun l => words64 (stepAddr c.w k (c.rd64 a l))) hj)
      refine ⟨fun j l hj hl hd => ?_, fun j l hj hl hml => ?_, fun r l hl hr1 hr2 => ?_⟩
      · refine (hx _ _ hl).trans ?_
        rw [if_neg (by omega)]; exact hreg.1 j l hj hl
      · refine (hx _ _ hl).trans ?_
        rw [if_pos ⟨hml, by omega, by omega⟩]; congr 1; omega
      · refine (hx _ _ hl).trans ?_
        rw [if_neg]
        · exact hreg.2 r l hl hr1
        · rintro ⟨e1, e2, e3⟩
          rcases hr2 with h | h | h
          · omega
          · omega
          · rw [h] at e1; cases e1
  · rw [hmm, hp] at hadv ⊢
    exact hadv hal

/-- A load that attaches takes its operands as their writers left them: nothing else of what it works with changes. -/
theorem loadCtx_eq (f : LoadForm) (c : Ctx) (s : State) : ∃ e, loadCtx f c s = { c with early := e } := by
  unfold loadCtx
  split
  · exact ⟨c.early, rfl⟩
  · simp only
    split
    · exact ⟨[], rfl⟩
    · exact ⟨c.early, rfl⟩

theorem loadGo_result {f : LoadForm} {s : State} {c c1 : Ctx} (hk : loadCtx f c1 (s.setWarp c.u c.w) = c)
    (hm : ∀ l, c.m.getLsbD l = true → c.is.mask.getLsbD l = true) (hal : c.w.ended = false) (d n : Nat) (b : Nat → List Byte)
    (ha : f.ready c s = true) (hc : ∀ x ∈ (f.checks c s).2, x.isOk = true) (hr : ∀ x ∈ (f.reads c s).2, x.2 = .bytes (b x.1.lane))
    (hn : ∀ l, c.m.getLsbD l = true → (f.words (b l)).length = n) :
    LoadResult (f.reads c s).1 (loadGo f d n c1 (s.setWarp c.u c.w)) c d n f b := by
  have hoks : (f.checks c s).2.filter LaneRes.isOk = (f.checks c s).2 := by
    rw [List.filter_eq_self]; exact hc
  have hbad : (f.checks c s).2.filter LaneRes.isFault = [] := by
    rw [List.filter_eq_nil_iff]
    intro x hx
    have := hc x hx
    unfold LaneRes.isOk at this
    unfold LaneRes.isFault
    cases hxr : x.r <;> simp_all
  have hlanes : (f.checks c s).2.map (·.lane) = lanesOf c.m := checkLanes_lanes ..
  have hfst : (f.reads c s).2.map (·.1) = (f.checks c s).2 := readLanes_fst ..
  have hvals : ∀ F : LaneRes × Got → Option (Nat × List Word), (∀ x bs, x.2 = .bytes bs → F x = some (x.1.lane, f.words bs)) →
      (f.reads c s).2.filterMap F = (lanesOf c.m).map (fun l => (l, f.words (b l))) := by
    intro F hF
    rw [← hlanes, ← hfst, List.map_map, List.map_map]
    generalize (f.reads c s).2 = L at hr
    clear hfst
    induction L with
    | nil => rfl
    | cons x t ih =>
      rw [List.filterMap_cons, List.map_cons, ih (fun y hy => hr y (List.mem_cons_of_mem _ hy)), hF _ _ (hr x (List.mem_cons_self ..))]
      rfl
  have hbad2 : ∀ F : LaneRes × Got → Option LaneRes, (∀ x bs, x.2 = .bytes bs → F x = none) → (f.reads c s).2.filterMap F = [] := by
    intro F hF
    rw [List.filterMap_eq_nil_iff]
    intro x hx; exact hF _ _ (hr x hx)
  have hout : (f.reads c s).2.filter (fun x => x.2 == .outside) = [] := by
    rw [List.filter_eq_nil_iff]
    intro x hx; rw [hr x hx]; simp
  have hck : (s.setWarp c.u c.w).checkLanes c .load f.need false f.bytes (f.addr c) (fun _ => 0) (lanesOf c.m) = f.checks c s := rfl
  have hrd : ((f.checks c s).1.preAcquire c f.acq (f.checks c s).2).1.readLanes c (f.checks c s).2 = f.reads c s := rfl
  have hac : ((f.checks c s).1.preAcquire c f.acq (f.checks c s).2).2 = true := ha
  unfold loadGo
  simp only
  rw [hk, hck, hoks, hac, Bool.not_true, if_neg Bool.false_ne_true, hbad, hrd, hvals _ (by intro x bs e; rw [e]), hbad2 _ (by intro x bs e; rw [e]), hout]
  clear hbad2 hout hvals hrd hck hfst hlanes hoks hbad
  generalize (f.reads c s).1 = s1
  clear hr hc
  simp only [List.nil_append, List.map_nil, List.foldl_nil, settle_nil, mask_all]
  generalize spadExtra false f.bytes (f.checks c s).2 = ex
  have h0 := onlyUnit_bumpBy s1 c.u c.p.launch c.p.core 7 ex
  generalize s1.bumpBy c.p.launch c.p.core 7 ex = s1' at h0
  generalize loadLevel c (f.checks c s).2 = ml
  have hmap : ((lanesOf c.m).map (fun l => (l, f.words (b l)))).map (·.1) = lanesOf c.m := by
    rw [List.map_map]; exact List.map_id _
  rw [hmap]
  have hp := put_eq c d n ((lanesOf c.m).map (fun l => (l, f.words (b l)))) ml
  have hreg := put_written c d n (fun l => f.words (b l)) ml hn hm
  generalize c.put d n ((lanesOf c.m).map (fun l => (l, f.words (b l)))) ml = w0 at hp hreg ⊢
  generalize (((lanesOf c.m).map (fun l => (l, f.words (b l)))).isEmpty) = em
  have h1 : OnlyUnit s1 (s1'.setWarp c.u w0) c.u := h0.trans (onlyUnit_setWarp _ _ _)
  have hw1 : kget (s1'.setWarp c.u w0).warps c.u = some w0 := by simp
  generalize s1'.setWarp c.u w0 = s2 at h1 hw1 ⊢
  have key : ∀ use, ∃ l hz, OnlyUnit s2 (if (em && !(c.px.zp && c.rest != 0)) = true then s2 else s2.linResult c.p.core c.u (c.w.wbase + d) n [] use) c.u ∧
      kget (if (em && !(c.px.zp && c.rest != 0)) = true then s2 else s2.linResult c.p.core c.u (c.w.wbase + d) n [] use).warps c.u = some { w0 with lin := l, haz := hz } := by
    intro use
    split
    · exact ⟨w0.lin, w0.haz, .refl _ _, hw1⟩
    · obtain ⟨a, b⟩ := linResult_frame s2 c.p.core c.u (c.w.wbase + d) n [] use
      obtain ⟨l, hz, b⟩ := b _ hw1
      exact ⟨l, hz, a, b⟩
  refine load_tail hal d n f b s1 ?s3 _ w0 hreg hp ?h3 ?h4 ?h4n
  case h4n => intro hna; rw [hna]
  case h4 =>
    rcases f.acq with _ | ⟨sc, r⟩
    · exact ⟨_, rfl⟩
    · simp only
      split
      · exact ⟨_, rfl⟩
      · exact acquire_frame ..
  case h3 =>
    obtain ⟨l, hz, a, b⟩ := key _
    exact ⟨l, hz, h1.trans a, b⟩

theorem loadOp_loads (i : Instr) (d : BitVec 7) (n : Nat) (f : LoadForm) (he : ∀ s, exec i s = loadOp i s d n f)
    (hn : ∀ bs : List Byte, bs.length = f.bytes → (f.words bs).length = n) : Loads i d n f := by
  intro s c1 b h c hc ha hr hb
  obtain ⟨e, hk⟩ := loadCtx_eq f c1 (s.setWarp c1.u c1.w)
  have hc' : c = { c1 with early := e } := hk
  refine ⟨_, warpOp_next h _ (he s), ?_⟩
  have hu : s.setWarp c1.u c1.w = s.setWarp c.u c.w := by rw [hc']
  rw [hu]
  refine loadGo_result (f := f) (c1 := c1) (hu ▸ rfl) ?_ ?_ d.toNat n b ha hc hr (fun l hl => hn _ (hb l hl))
  · rw [hc']; exact h.mask_le
  · rw [hc']; exact h.alive

/-- The bytes of an element in a block's own scratchpad. -/
def ownBytes (s : State) (blk va n : Nat) : List PByte :=
  (List.range n).map (fun k => ⟨va + k, .spad blk (va % 2 ^ 48 + k), 5, ((kget s.blocks blk).elim 0 (fun b => b.levAt (va % 2 ^ 48 + k))), true⟩)

theorem who_block {s : State} {u : Nat} {p : Who} (h : s.who u = some p) :
    ∃ w b l, kget s.warps u = some w ∧ w.blk = p.blk ∧ kget s.blocks p.blk = some b ∧ kget s.launches p.launch = some l ∧ b.launch = p.launch ∧
      w.tile = p.tile ∧ b.core = p.core ∧ l.part = p.part ∧ l.ctx = p.ctx := by
  unfold State.who at h
  split at h
  · cases h
  · rename_i w hw
    split at h
    · cases h
    · rename_i b hb
      split at h
      · cases h
      · rename_i l hl
        cases h
        exact ⟨w, b, l, hw, rfl, hb, hl, rfl, rfl, rfl, rfl, rfl⟩

theorem windowAt_own {va k n : Nat} (hd : va / 2 ^ 48 = 0x1F0) (ha : va % n = 0) (hn : n ∣ 2 ^ 48) (hk : k < n) :
    windowAt (va + k) = .own (va % 2 ^ 48 + k) ∧ (va + k) / 2 ^ 48 = 0x1F0 := by
  have h1 : va % 2 ^ 48 + n ≤ 2 ^ 48 := by
    obtain ⟨q, hq⟩ := hn
    have hm : va % 2 ^ 48 % n = 0 := by rw [hq, Nat.mod_mul_right_mod]; exact ha
    obtain ⟨r, hr⟩ := Nat.dvd_of_mod_eq_zero hm
    have hlt : va % 2 ^ 48 < 2 ^ 48 := Nat.mod_lt _ (by norm_num)
    have hpos : 0 < n := by omega
    rw [hr] at hlt ⊢
    rw [hq] at hlt ⊢
    have : r < q := Nat.lt_of_mul_lt_mul_left hlt
    calc n * r + n = n * (r + 1) := by ring
      _ ≤ n * q := Nat.mul_le_mul_left _ this
  have h2 : (va + k) / 2 ^ 48 = 0x1F0 := by omega
  have h3 : (va + k) % 2 ^ 48 = va % 2 ^ 48 + k := by omega
  refine ⟨?_, h2⟩
  unfold windowAt
  have e1 : ¬ (va + k < 2 ^ 56) := by omega
  have e2 : ¬ (va + k < 0x0110000000000000) := by omega
  rw [if_neg e1, if_neg e2, if_pos h2, h3]

theorem checkElem_own (s : State) (p : Who) (u lane : Nat) (acc : Acc) (hf : acc ≠ .fetch) (need post : Bool) (lev : Nat) (addr : DWord) (n : Nat)
    (lr : LaunchRec) (b : Block) (hb : kget s.blocks p.blk = some b) (hlr : s.lrOf b.launch = some lr)
    (hd : addr.toNat / 2 ^ 48 = 0x1F0) (ha : addr.toNat % n = 0) (hn : n ∣ 2 ^ 48) (ho : addr.toNat % 2 ^ 48 + n ≤ lr.spad)
    (hrl : s.rl = []) (hlev : acc = .store ∨ acc = .atomic → ∀ k < n, lev ≤ b.levAt (addr.toNat % 2 ^ 48 + k)) :
    s.checkElem p u lane acc need post lev addr n = (s, .ok (ownBytes s p.blk addr.toNat n)) := by
  obtain ⟨va, hva⟩ : ∃ va, va = addr.toNat := ⟨_, rfl⟩
  rw [← hva] at hd ha ho hlev ⊢
  have hw : ∀ k, k < n → windowAt (va + k) = .own (va % 2 ^ 48 + k) := fun k hk => (windowAt_own hd ha hn hk).1
  have h1 : ¬ (va ≥ top57) := by unfold top57; omega
  have h2 : ((need || isSpad va) && va % n != 0) = false := by simp [ha]
  have hvas : ∀ a ∈ (List.range n).map (fun k => va + k), ∃ k, k < n ∧ a = va + k := by
    intro a h
    obtain ⟨k, hk, rfl⟩ := List.mem_map.1 h
    exact ⟨k, List.mem_range.1 hk, rfl⟩
  have hg : pagesOf va n = [] := by
    unfold pagesOf
    have : ((List.range n).map (fun k => va + k)).filter (fun a => windowAt a == .global) = [] := by
      rw [List.filter_eq_nil_iff]
      intro a h
      obtain ⟨k, hk, rfl⟩ := hvas a h
      rw [hw k hk]; simp
    rw [this]; rfl
  have hwin : ∀ k, k < n → s.winByte p u lane (va + k) = some ⟨va + k, .spad p.blk (va % 2 ^ 48 + k), 5, b.levAt (va % 2 ^ 48 + k), true⟩ := by
    intro k hk
    unfold State.winByte
    rw [hw k hk]
    simp only [spadP, hb, hlr]
    rw [if_pos (by omega)]
  have hany : ((List.range n).map (fun k => va + k)).any (fun a => windowAt a != .global && (acc == .fetch || (s.winByte p u lane a).isNone)) = false := by
    rw [List.any_eq_false]
    intro a h
    obtain ⟨k, hk, rfl⟩ := hvas a h
    rw [hwin k hk]; simp [hf]
  have hlock : ((List.range n).map (fun k => va + k)).findSome? (s.lockHit p acc) = none := by
    rw [List.findSome?_eq_none_iff]
    intro a _
    unfold State.lockHit; rw [hrl]; rfl
  have hbs : s.placeBytes p u lane [] ((List.range n).map (fun k => va + k)) = ownBytes s p.blk va n := by
    unfold ownBytes State.placeBytes
    rw [List.filterMap_map, ← List.filterMap_eq_map]
    apply List.filterMap_congr
    intro k hk
    have hk' := List.mem_range.1 hk
    simp only [Function.comp]
    rw [hw k hk', hwin k hk', hb]
    rfl
  have hmem : ∀ x ∈ ownBytes s p.blk va n, ∃ k, k < n ∧ x = ⟨va + k, .spad p.blk (va % 2 ^ 48 + k), 5, b.levAt (va % 2 ^ 48 + k), true⟩ := by
    intro x hx
    unfold ownBytes at hx
    rw [hb] at hx
    obtain ⟨k, hk, rfl⟩ := List.mem_map.1 hx
    exact ⟨k, List.mem_range.1 hk, rfl⟩
  have hcb : s.checkBytes acc lev (ownBytes s p.blk va n) = .ok (ownBytes s p.blk va n) := by
    have hl : (if (acc == .store || acc == .atomic) = true then (ownBytes s p.blk va n).find? (fun b => decide (lev > b.lev)) else none) = none := by
      split
      · rename_i hacc
        rw [List.find?_eq_none]
        intro x hx
        obtain ⟨k, hk, rfl⟩ := hmem x hx
        have := hlev (by simpa using hacc) k hk
        simp; omega
      · rfl
    have hany2 : ∀ F : PByte → Bool, (∀ x, (∃ q o, x.loc = .spad q o) → F x = false) → (ownBytes s p.blk va n).any F = false := by
      intro F hF
      rw [List.any_eq_false]
      intro x hx
      obtain ⟨k, hk, rfl⟩ := hmem x hx
      rw [hF _ ⟨_, _, rfl⟩]; decide
    have hfs : ∀ F : PByte → Option Nat, (∀ x, (∃ q o, x.loc = .spad q o) → F x = none) → (ownBytes s p.blk va n).findSome? F = none := by
      intro F hF
      rw [List.findSome?_eq_none_iff]
      intro x hx
      obtain ⟨k, hk, rfl⟩ := hmem x hx
      exact hF _ ⟨_, _, rfl⟩
    unfold State.checkBytes
    rw [hl]
    simp only
    rw [hany2 _ (by rintro x ⟨q, o, e⟩; rw [e]), hfs _ (by rintro x ⟨q, o, e⟩; rw [e])]
    simp
  have hcp : s.checkPages p u lane acc lev va n [] = (s, .ok (ownBytes s p.blk va n)) := by
    unfold State.checkPages
    simp only [List.findSome?_nil, List.any_nil, Bool.and_false, Bool.false_eq_true, if_false, State.classPages]
    rw [hbs, hcb]
  unfold State.checkElem
  simp only [← hva]
  rw [if_neg h1, h2, if_neg (by decide), hany, if_neg (by decide), hlock]
  simp only
  rw [hg, State.xlatPages]
  simp only
  have hst : s.stale p acc [] = false := rfl
  rw [hst]
  exact hcp

theorem checkLanes_own (s : State) (c : Ctx) (acc : Acc) (hf : acc ≠ .fetch) (need post : Bool) (n : Nat) (addr : Nat → DWord) (lev : Nat → Nat)
    (ls : List Nat) (b : Block) (lr : LaunchRec) (hb : kget s.blocks c.p.blk = some b) (hlr : s.lrOf b.launch = some lr) (hn : n ∣ 2 ^ 48)
    (hrl : s.rl = [])
    (ha : ∀ l ∈ ls, (addr l).toNat / 2 ^ 48 = 0x1F0 ∧ (addr l).toNat % n = 0 ∧ (addr l).toNat % 2 ^ 48 + n ≤ lr.spad)
    (hlev : acc = .store ∨ acc = .atomic → ∀ l ∈ ls, ∀ k < n, lev l ≤ b.levAt ((addr l).toNat % 2 ^ 48 + k)) :
    s.checkLanes c acc need post n addr lev ls =
      (s, ls.map (fun l => ⟨l, (addr l).toNat, .ok (ownBytes s c.p.blk (addr l).toNat n)⟩)) := by
  induction ls with
  | nil => rfl
  | cons l t ih =>
    obtain ⟨h1, h2, h3⟩ := ha l (List.mem_cons_self ..)
    simp only [State.checkLanes]
    rw [checkElem_own s c.p c.u l acc hf need post (lev l) (addr l) n lr b hb hlr h1 h2 hn h3 hrl
      (fun e k hk => hlev e l (List.mem_cons_self ..) k hk),
      ih (fun x hx => ha x (List.mem_cons_of_mem _ hx)) (fun e x hx => hlev e x (List.mem_cons_of_mem _ hx))]
    rfl

theorem loadBytes_spad (s : State) (p : Who) (u lane : Nat) (bs : List PByte) (w : Warp) (hw : kget s.warps u = some w) (hq : w.queues = [])
    (h : ∀ b ∈ bs, ∃ k o, b.loc = .spad k o) :
    s.loadBytes p u lane bs = (s, bs.map (fun b => match b.loc with
      | .spad k o => some (s.spadByte k o)
      | _ => none)) := by
  induction bs with
  | nil => rfl
  | cons b t ih =>
    obtain ⟨k, o, hl⟩ := h b (List.mem_cons_self ..)
    have e : s.loadByte p u lane b = (s, some (s.spadByte k o)) := by
      unfold State.loadByte
      rw [hw]
      simp only [Option.bind_some, hq, sget_nil, qFind, List.reverse_nil, List.findSome?_nil, hl]
    simp only [State.loadBytes]
    rw [e, ih (fun x hx => h x (List.mem_cons_of_mem _ hx)), List.map_cons, hl]

theorem readLanes_own (s : State) (c : Ctx) (n : Nat) (addr : Nat → DWord) (ls : List Nat) (w : Warp) (hw : kget s.warps c.u = some w)
    (hq : w.queues = []) :
    s.readLanes c (ls.map (fun l => ⟨l, (addr l).toNat, .ok (ownBytes s c.p.blk (addr l).toNat n)⟩)) =
      (s, ls.map (fun l => (⟨l, (addr l).toNat, .ok (ownBytes s c.p.blk (addr l).toNat n)⟩,
        .bytes ((List.range n).map (fun j => s.spadByte c.p.blk ((addr l).toNat % 2 ^ 48 + j)))))) := by
  induction ls with
  | nil => rfl
  | cons l t ih =>
    have hb : s.loadBytes c.p c.u l (ownBytes s c.p.blk (addr l).toNat n) =
        (s, (List.range n).map (fun j => some (s.spadByte c.p.blk ((addr l).toNat % 2 ^ 48 + j)))) := by
      rw [loadBytes_spad s c.p c.u l _ w hw hq]
      · congr 1
        unfold ownBytes
        rw [List.map_map]; rfl
      · intro x hx
        unfold ownBytes at hx
        obtain ⟨k, -, rfl⟩ := List.mem_map.1 hx
        exact ⟨_, _, rfl⟩
    have hmm : ((List.range n).map (fun j => some (s.spadByte c.p.blk ((addr l).toNat % 2 ^ 48 + j)))).mapM id =
        some ((List.range n).map (fun j => s.spadByte c.p.blk ((addr l).toNat % 2 ^ 48 + j))) := by
      generalize List.range n = L
      induction L with
      | nil => rfl
      | cons a t ih => rw [List.map_cons, List.mapM_cons, ih]; rfl
    have e : s.readLane c ⟨l, (addr l).toNat, .ok (ownBytes s c.p.blk (addr l).toNat n)⟩ =
        (s, .bytes ((List.range n).map (fun j => s.spadByte c.p.blk ((addr l).toNat % 2 ^ 48 + j)))) := by
      unfold State.readLane
      simp only [LaneRes.bytes]
      rw [hb]
      simp only
      rw [hmm]
    rw [List.map_cons]
    simp only [State.readLanes]
    rw [e, ih]
    rfl

theorem Issues.block {i : Instr} {s : State} {c : Ctx} (h : Issues i s c) :
    ∃ b, kget s.blocks c.p.blk = some b ∧ s.lrOf b.launch = some c.lr ∧ b.launch = c.p.launch ∧ b.core = c.p.core := by
  obtain ⟨w, b, l, -, -, hb, hl, hbl, -, hc, -, -⟩ := who_block h.owner
  exact ⟨b, hb, by rw [hbl]; exact h.launch, hbl, hc⟩

theorem preAcquire_spad (s : State) (c : Ctx) (a : AcqUse) (rs : List LaneRes) (h : ∀ r ∈ rs, ∀ b ∈ r.bytes, ∃ k o, b.loc = .spad k o) :
    s.preAcquire c a rs = (s, true) := by
  have he : ∀ F : PByte → Option Nat, (∀ x, (∃ q o, x.loc = .spad q o) → F x = none) → (rs.flatMap LaneRes.bytes).filterMap F = [] := by
    intro F hF
    rw [List.filterMap_eq_nil_iff]
    intro x hx
    obtain ⟨r, hr, hx⟩ := List.mem_flatMap.1 hx
    exact hF _ (h r hr x hx)
  unfold State.preAcquire
  cases a with
  | none => rfl
  | some x =>
    obtain ⟨sc, rmt⟩ := x
    simp only
    rw [he _ (by rintro x ⟨q, o, e⟩; rw [e])]
    cases rmt <;> simp [dedup, State.promoteAll]

theorem loadOp_scratch (i : Instr) (d : BitVec 7) (n : Nat) (f : LoadForm) (he : ∀ s, exec i s = loadOp i s d n f)
    (hn : ∀ bs : List Byte, bs.length = f.bytes → (f.words bs).length = n) (hd : f.bytes ∣ 2 ^ 48) : LoadsScratch i d n f := by
  intro s c1 h c hs hrl hq
  obtain ⟨e, hk⟩ := loadCtx_eq f c1 (s.setWarp c1.u c1.w)
  have hc' : c = { c1 with early := e } := hk
  obtain ⟨b, hb, hlr, -, -⟩ := h.block
  have hb : kget s.blocks c.p.blk = some b := by rw [hc']; exact hb
  have hlr : s.lrOf b.launch = some c.lr := by rw [hc']; exact hlr
  have hck : f.checks c s = (s.setWarp c.u c.w, (lanesOf c.m).map (fun l => ⟨l, (f.addr c l).toNat, .ok (ownBytes s c.p.blk (f.addr c l).toNat f.bytes)⟩)) := by
    unfold LoadForm.checks
    exact checkLanes_own (s.setWarp c.u c.w) c .load (by decide) f.need false f.bytes (f.addr c) (fun _ => 0) (lanesOf c.m) b c.lr hb hlr hd hrl
      (fun l hl => hs l (mem_lanesOf.1 hl).2) (fun e => by rcases e with e | e <;> cases e)
  have hpa : (s.setWarp c.u c.w).preAcquire c f.acq ((lanesOf c.m).map (fun l => ⟨l, (f.addr c l).toNat, .ok (ownBytes s c.p.blk (f.addr c l).toNat f.bytes)⟩)) =
      (s.setWarp c.u c.w, true) := by
    refine preAcquire_spad _ _ _ _ ?_
    intro r hr x hx
    obtain ⟨l, -, rfl⟩ := List.mem_map.1 hr
    simp only [LaneRes.bytes, ownBytes] at hx
    obtain ⟨k, -, rfl⟩ := List.mem_map.1 hx
    exact ⟨_, _, rfl⟩
  have hrd : f.reads c s = (s.setWarp c.u c.w, (lanesOf c.m).map (fun l => (⟨l, (f.addr c l).toNat, .ok (ownBytes s c.p.blk (f.addr c l).toNat f.bytes)⟩,
        .bytes ((List.range f.bytes).map (fun j => s.spadByte c.p.blk ((f.addr c l).toNat % 2 ^ 48 + j)))))) := by
    unfold LoadForm.reads
    rw [hck, hpa]
    exact readLanes_own (s.setWarp c.u c.w) c f.bytes (f.addr c) (lanesOf c.m) c.w (by simp) hq
  obtain ⟨t, h1, h2⟩ := loadOp_loads i d n f he hn s c1
    (fun l => (List.range f.bytes).map (fun j => s.spadByte c.p.blk ((f.addr c l).toNat % 2 ^ 48 + j))) h
    (by change ∀ x ∈ (f.checks c s).2, _; rw [hck]; intro x hx; obtain ⟨l, -, rfl⟩ := List.mem_map.1 hx; rfl)
    (by change f.ready c s = true; unfold LoadForm.ready; rw [hck, hpa])
    (by change ∀ x ∈ (f.reads c s).2, _; rw [hrd]; intro x hx; obtain ⟨l, -, rfl⟩ := List.mem_map.1 hx; rfl)
    (by intro l _; simp)
  refine ⟨t, h1, ?_⟩
  change LoadResult (f.reads c s).1 t c d.toNat n f _ at h2
  rw [hrd] at h2
  have q0 := onlyUnit_setWarp s c.u c.w
  exact ⟨fun a => (h2.memory a).trans (q0.memory a), fun a o => (h2.scratch a o).trans (q0.scratch a o),
    fun v hv => (h2.others v hv).trans (q0.others v hv), fun hna v => (h2.core hna v).trans (q0.core v), h2.unit⟩

end Sys2Proof.Machine
end

