-- ==== Sys2Proof/Laws/Stores.lean ====
section
/-! SUPPORT. What the stores do: their bytes join the queues of their lanes, and their checks touch memory by classification alone. -/

namespace Sys2Proof.Machine

theorem trimLanes_eq (m : Mask) (b : Nat → List QByte) :
    trimLanes ((lanesOf m).map (fun l => (l, b l))) = (lanesOf m).map (fun l => (l, enqueued m b l)) := by
  have hs : (lanesOf m).Pairwise (· < ·) := List.Pairwise.filter _ List.pairwise_lt_range
  have key : ∀ ls : List Nat, ls.Pairwise (· < ·) → ∀ pre : List Nat, (∀ x ∈ pre, ∀ y ∈ ls, x < y) → lanesOf m = pre ++ ls →
      trimLanes (ls.map (fun l => (l, b l))) = ls.map (fun l => (l, enqueued m b l)) := by
    intro ls
    induction ls with
    | nil => intros; rfl
    | cons l t ih =>
      intro hp pre hpre he
      obtain ⟨h1, h2⟩ := List.pairwise_cons.1 hp
      simp only [List.map_cons, trimLanes]
      rw [ih h2 (pre ++ [l])]
      · congr 1
        congr 1
        unfold enqueued
        apply List.filter_congr
        intro x _
        congr 1
        rw [he]
        simp only [List.any_append, List.any_cons, Nat.lt_irrefl, decide_false, Bool.false_and, Bool.false_or]
        have e1 : pre.any (fun k => decide (l < k) && (b k).any (sameByte x)) = false := by
          rw [List.any_eq_false]
          intro k hk
          have := hpre k hk l (List.mem_cons_self ..)
          simp; intro h; omega
        rw [e1, Bool.false_or, List.any_map]
        rw [Bool.eq_iff_iff, List.any_eq_true, List.any_eq_true]
        constructor
        · rintro ⟨k, hk, hx⟩
          exact ⟨k, hk, by simp only [Function.comp] at hx; simp [h1 k hk, hx]⟩
        · rintro ⟨k, hk, hx⟩
          rw [Bool.and_eq_true] at hx
          exact ⟨k, hk, hx.2⟩
      · intro x hx y hy
        rcases List.mem_append.1 hx with hx | hx
        · exact hpre x hx y (List.mem_cons_of_mem _ hy)
        · rw [List.mem_singleton.1 hx]; exact h1 y hy
      · rw [he]; simp
  exact key _ hs [] (by simp) rfl

theorem vWrite_eq (bs : List Byte) (s : State) (p ctx va : Nat) : ∃ m, s.vWrite p ctx va bs = { s with mem := m } := by
  induction bs generalizing s va with
  | nil => exact ⟨s.mem, rfl⟩
  | cons b t ih =>
    simp only [State.vWrite]
    split
    · obtain ⟨m, h⟩ := ih (s.setH _ b) (va + 1)
      exact ⟨m, h⟩
    · exact ih s (va + 1)

theorem modLaunch_eq (s : State) (l : Nat) (f : Launch → Launch) : ∃ ls, s.modLaunch l f = { s with launches := ls } := ⟨_, rfl⟩

theorem logEntry_eq (s : State) (lid die kind va lcore warp run data : Nat) :
    ∃ m ls, s.logEntry lid die kind va lcore warp run data = { s with mem := m, launches := ls } := by
  unfold State.logEntry
  split
  · exact ⟨s.mem, s.launches, rfl⟩
  · rename_i l _
    split
    · exact ⟨s.mem, s.launches, rfl⟩
    · simp only
      split
      · obtain ⟨m, h⟩ := vWrite_eq (bytesLE 8 (logWords kind va lcore warp run data).1 ++ bytesLE 8 (logWords kind va lcore warp run data).2) s l.part l.ctx
          (l.logAt die + 16 + 16 * ((s.vRead l.part l.ctx (l.logAt die) 4).getD 0))
        rw [h]
        obtain ⟨m2, h2⟩ := vWrite_eq (bytesLE 4 (((s.vRead l.part l.ctx (l.logAt die) 4).getD 0) + 1)) { s with mem := m } l.part l.ctx (l.logAt die)
        exact ⟨m2, s.launches, h2⟩
      · obtain ⟨m, h⟩ := vWrite_eq (bytesLE 4 1) s l.part l.ctx (l.logAt die + 4)
        rw [h]
        exact ⟨m, _, rfl⟩

theorem haltQueue_eq (s : State) (q code addr part : Nat) : ∃ r o, s.haltQueue q code addr part = { s with regs := r, out := o } := by
  unfold State.haltQueue
  simp only
  split <;> exact ⟨_, _, rfl⟩

theorem diverge_eq (s : State) (lid die : Nat) : ∃ m ls r o, s.diverge lid die = { s with mem := m, launches := ls, regs := r, out := o } := by
  unfold State.diverge
  split
  · exact ⟨_, _, _, _, rfl⟩
  · rename_i l _
    split
    · exact ⟨_, _, _, _, rfl⟩
    · simp only
      obtain ⟨m, h⟩ := vWrite_eq (bytesLE 4 (setBits ((s.vRead l.part l.ctx (l.logAt die + 4) 4).getD 0) 1 1 1)) s l.part l.ctx (l.logAt die + 4)
      rw [h]
      split
      · obtain ⟨r, o, h⟩ := haltQueue_eq (State.modLaunch { s with mem := m } lid (fun l => { l with diverged := true })) (_) 6 _ l.part
        rw [h]; exact ⟨_, _, _, _, rfl⟩
      · exact ⟨_, _, _, _, rfl⟩

theorem checkpoint_eq (s : State) (lid core : Nat) : ∃ m ls r o, s.checkpoint lid core = { s with mem := m, launches := ls, regs := r, out := o } := by
  unfold State.checkpoint
  split
  · exact ⟨_, _, _, _, rfl⟩
  · simp only
    split
    · obtain ⟨m, ls, h⟩ := logEntry_eq s lid (core / 192) 3 (hashOf (s.core core) lid).count core 0 0 (hashOf (s.core core) lid).h.toNat
      rw [h]; exact ⟨_, _, _, _, rfl⟩
    · split
      · split
        · exact ⟨_, _, _, _, rfl⟩
        · exact diverge_eq ..
      · exact ⟨_, _, _, _, rfl⟩

/-- A hash that is put changes a core's hashes alone. -/
theorem putHash_frame (s : State) (lid core : Nat) (h : Hash) :
    (∀ v, ((s.putHash lid core h).core v).cv = (s.core v).cv) ∧ (s.putHash lid core h).warps = s.warps ∧
    (s.putHash lid core h).blocks = s.blocks ∧ (s.putHash lid core h).mem = s.mem ∧ (s.putHash lid core h).launches = s.launches := by
  refine ⟨fun v => ?_, rfl, rfl, rfl, rfl⟩
  unfold State.putHash
  by_cases hv : v = core
  · subst hv; simp
  · rw [core_modCore_ne _ _ hv]

/-- A hash that grows changes nothing of core views, scratchpads or units; memory only at a checkpoint (R272). -/
theorem hashSet_frame (lid core : Nat) (xs : List (List HashItem)) (s : State) :
    (∀ v, ((s.hashSet lid core xs).core v).cv = (s.core v).cv) ∧ (s.hashSet lid core xs).warps = s.warps ∧
    (s.hashSet lid core xs).blocks = s.blocks ∧
    ((∀ l, kget s.launches lid = some l → l.lr.record = false ∧ l.lr.replay = false) → (s.hashSet lid core xs).mem = s.mem ∧
      (s.hashSet lid core xs).launches = s.launches) := by
  induction xs generalizing s with
  | nil =>
    obtain ⟨a, b, c, d⟩ := putHash_frame s lid core { hashOf (s.core core) lid with items := [] }
    exact ⟨a, b, c, fun _ => d⟩
  | cons x t ih =>
    rw [State.hashSet]
    simp only
    split
    · obtain ⟨a, b, c, d⟩ := putHash_frame s lid core ⟨hashItems (hashOf (s.core core) lid).h x, (hashOf (s.core core) lid).count + itemCount x, t⟩
      generalize s.putHash lid core _ = y at a b c d
      have hy : (∀ v, ((if ((hashOf (s.core core) lid).count + itemCount x) / 4096 != (hashOf (s.core core) lid).count / 4096 then y.checkpoint lid core else y).core v).cv = (s.core v).cv) ∧
          (if ((hashOf (s.core core) lid).count + itemCount x) / 4096 != (hashOf (s.core core) lid).count / 4096 then y.checkpoint lid core else y).warps = s.warps ∧
          (if ((hashOf (s.core core) lid).count + itemCount x) / 4096 != (hashOf (s.core core) lid).count / 4096 then y.checkpoint lid core else y).blocks = s.blocks ∧
          ((∀ l, kget s.launches lid = some l → l.lr.record = false ∧ l.lr.replay = false) →
            (if ((hashOf (s.core core) lid).count + itemCount x) / 4096 != (hashOf (s.core core) lid).count / 4096 then y.checkpoint lid core else y).mem = s.mem ∧
            (if ((hashOf (s.core core) lid).count + itemCount x) / 4096 != (hashOf (s.core core) lid).count / 4096 then y.checkpoint lid core else y).launches = s.launches) := by
        split
        · obtain ⟨m, ls, rg, o, h⟩ := checkpoint_eq y lid core
          refine ⟨fun v => ?_, ?_, ?_, fun hl => ?_⟩
          · rw [h]; exact a v
          · rw [h]; exact b
          · rw [h]; exact c
          · have : y.checkpoint lid core = y := by
              unfold State.checkpoint
              rw [d.2]
              cases hk : kget s.launches lid with
              | none => rfl
              | some l => obtain ⟨a, b⟩ := hl l hk; simp [a, b]
            rw [this]; exact d
        · exact ⟨a, b, c, fun _ => d⟩
      generalize (if ((hashOf (s.core core) lid).count + itemCount x) / 4096 != (hashOf (s.core core) lid).count / 4096 then y.checkpoint lid core else y) = z at hy
      obtain ⟨a1, b1, c1, d1⟩ := hy
      obtain ⟨a2, b2, c2, d2⟩ := ih z
      refine ⟨fun v => (a2 v).trans (a1 v), b2.trans b1, c2.trans c1, fun hl => ?_⟩
      have h1 := d1 hl
      have h2 := d2 (by rw [h1.2]; exact hl)
      exact ⟨h2.1.trans h1.1, h2.2.trans h1.2⟩
    · obtain ⟨a, b, c, d⟩ := putHash_frame s lid core { hashOf (s.core core) lid with items := x :: t }
      exact ⟨a, b, c, fun _ => d⟩

theorem hashAdd_frame (s : State) (lid core : Nat) (xs : List (Option Nat × Nat × List Byte)) :
    (∀ v, ((s.hashAdd lid core xs).core v).cv = (s.core v).cv) ∧ (s.hashAdd lid core xs).warps = s.warps ∧
    (s.hashAdd lid core xs).blocks = s.blocks ∧
    ((∀ l, kget s.launches lid = some l → l.lr.record = false ∧ l.lr.replay = false) → (s.hashAdd lid core xs).mem = s.mem ∧
      (s.hashAdd lid core xs).launches = s.launches) := by
  unfold State.hashAdd
  split
  · exact ⟨fun _ => rfl, rfl, rfl, fun _ => ⟨rfl, rfl⟩⟩
  · exact hashSet_frame ..

/-- Only the parts of the ordering machine change: memory, views, merge stages, remote copies, translation caches, and what a
write there leaves in launches and registers. -/
def OnlyMem (s t : State) : Prop :=
  t = { s with mem := t.mem, launches := t.launches, regs := t.regs, cores := t.cores, tlb := t.tlb, rc := t.rc, ms := t.ms, out := t.out }

theorem OnlyMem.refl (s : State) : OnlyMem s s := rfl
theorem OnlyMem.trans {a b c : State} (h : OnlyMem a b) (k : OnlyMem b c) : OnlyMem a c := by
  unfold OnlyMem at *
  rw [k]; simp only
  rw [h]
theorem OnlyMem.warps {s t : State} (h : OnlyMem s t) : t.warps = s.warps := by rw [h]
theorem OnlyMem.blocks {s t : State} (h : OnlyMem s t) : t.blocks = s.blocks := by rw [h]
theorem OnlyMem.foldl {α : Type} (f : State → α → State) (hf : ∀ s a, OnlyMem s (f s a)) (l : List α) (s : State) : OnlyMem s (l.foldl f s) := by
  induction l generalizing s with
  | nil => exact .refl _
  | cons a t ih => exact (hf s a).trans (ih _)

theorem onlyMem_cores {s t : State} (h : ∃ cs, t = { s with cores := cs }) : OnlyMem s t := by obtain ⟨cs, rfl⟩ := h; rfl
theorem onlyMem_log {s t : State} (h : ∃ m ls, t = { s with mem := m, launches := ls }) : OnlyMem s t := by obtain ⟨m, ls, rfl⟩ := h; rfl
theorem onlyMem_halt {s t : State} (h : ∃ m ls r o, t = { s with mem := m, launches := ls, regs := r, out := o }) : OnlyMem s t := by
  obtain ⟨m, ls, r, o, rfl⟩ := h; rfl

theorem onlyMem_setH (s : State) (pa : Nat) (v : Byte) : OnlyMem s (s.setH pa v) := rfl
theorem onlyMem_setHs (bs : List Byte) (s : State) (pa : Nat) : OnlyMem s (s.setHs pa bs) := by
  induction bs generalizing s pa with
  | nil => exact .refl _
  | cons b t ih => exact (onlyMem_setH s pa b).trans (ih _ _)
theorem onlyMem_setHNat (s : State) (pa n v : Nat) : OnlyMem s (s.setHNat pa n v) := onlyMem_setHs _ _ _
theorem onlyMem_tlb (s : State) (x : List TlbEntry) : OnlyMem s { s with tlb := x } := rfl
theorem onlyMem_setLaunch (s : State) (l : Nat) (x : Launch) : OnlyMem s (s.setLaunch l x) := rfl
theorem onlyMem_modCore (s : State) (v : Nat) (f : Core → Core) : OnlyMem s (s.modCore v f) := rfl
theorem onlyMem_rcDrop (s : State) (l : Nat) : OnlyMem s (s.rcDrop l) := by unfold State.rcDrop; split <;> rfl
theorem onlyMem_propagate (s : State) (v l : Nat) : OnlyMem s (s.propagate v l) := by
  unfold State.propagate
  split
  · rfl
  · split <;> rfl
theorem onlyMem_cvDrop (s : State) (v l : Nat) : OnlyMem s (s.cvDrop v l) := onlyMem_cores (cvDrop_frame s v l)
theorem onlyMem_cvDropAll (s : State) (l : Nat) : OnlyMem s (s.cvDropAll l) :=
  .foldl _ (fun s v => (onlyMem_propagate s v l).trans (onlyMem_cvDrop _ v l)) _ _
theorem onlyMem_refresh (s : State) (v l : Nat) : OnlyMem s (s.refresh v l) := by
  unfold State.refresh
  split
  · split
    · exact onlyMem_cvDrop ..
    · split
      · rfl
      · exact (onlyMem_modCore _ _ _).trans (onlyMem_cores (killLine_frame _ _ _))
  · rfl
theorem onlyMem_capture (s : State) (lid pa : Nat) : OnlyMem s (s.capture lid pa) := by
  unfold State.capture
  split
  · rfl
  · simp only
    split
    · rfl
    · split
      · exact (onlyMem_setHs _ _ _).trans (onlyMem_setLaunch _ _ _)
      · rfl
theorem onlyMem_captureBy (s : State) (l : Option Nat) (wid pa : Nat) : OnlyMem s (s.captureBy l wid pa) := by
  unfold State.captureBy
  split
  · rfl
  · split
    · exact onlyMem_capture ..
    · refine .foldl _ (fun s a => ?_) _ _
      split
      · exact onlyMem_capture ..
      · rfl
theorem onlyMem_logRace (s : State) (w : MsWrite) (n : Nat) : OnlyMem s (s.logRace w n) := by
  unfold State.logRace
  split
  · split
    · rfl
    · exact onlyMem_log (logEntry_eq ..)
  · rfl
theorem onlyMem_applyByte (s : State) (pa : Nat) : OnlyMem s (s.applyByte pa) := by
  unfold State.applyByte
  split
  · rfl
  · rename_i w0 _
    simp only
    have h0 : OnlyMem s (if w0.eng then s.cvDropAll (pa / lineBytes) else s) := by
      split
      · exact onlyMem_cvDropAll ..
      · rfl
    generalize (if w0.eng then s.cvDropAll (pa / lineBytes) else s) = s1 at h0 ⊢
    split
    · exact h0
    · refine h0.trans (.trans (b := { s1 with ms := s1.ms.filter (fun x => x.pa != pa) }) rfl ?_)
      exact ((onlyMem_captureBy _ _ _ _).trans (onlyMem_setH _ _ _)).trans ((onlyMem_rcDrop _ _).trans (onlyMem_logRace _ _ _))
theorem onlyMem_apply (s : State) (pa : Nat) : OnlyMem s (s.apply pa) := .foldl _ (fun s a => onlyMem_applyByte s a) _ _
theorem onlyMem_applyLine (s : State) (l : Nat) : OnlyMem s (s.applyLine l) := .foldl _ (fun s a => onlyMem_apply s a) _ _

theorem onlyMem_tlbFill (s : State) (a : TlbAt) (p ctx va pte sz at_ : Nat) : OnlyMem s (s.tlbFill a p ctx va pte sz at_) := rfl
theorem onlyMem_translate (s : State) (pl : List TlbAt) (p ctx va : Nat) (acc : Acc) : OnlyMem s (s.translate pl p ctx va acc).1 := by
  unfold State.translate
  split
  · split
    · exact (OnlyMem.foldl _ (fun s a => onlyMem_tlbFill s _ _ _ _ _ _ _) _ _).trans (.foldl _ (fun s a => onlyMem_tlbFill s a _ _ _ _ _ _) _ _)
    · rfl
  · rfl
theorem onlyMem_tlbForget (s : State) (pl : List TlbAt) (p ctx va : Nat) : OnlyMem s (s.tlbForget pl p ctx va) := rfl
theorem onlyMem_swapPte (s : State) (at_ old new : Nat) : OnlyMem s (s.swapPte at_ old new) := by
  unfold State.swapPte
  split
  · exact (onlyMem_setHNat s at_ 8 new).trans (onlyMem_tlb (s.setHNat at_ 8 new) _)
  · rfl
theorem onlyMem_dropPage (s : State) (pte sz : Nat) : OnlyMem s (s.dropPage pte sz) :=
  .foldl _ (fun _ _ => .foldl _ (fun _ _ => ((onlyMem_propagate _ _ _).trans (onlyMem_cvDrop _ _ _)).trans (onlyMem_applyLine _ _)) _ _) _ _
theorem onlyMem_ownPage (s : State) (p : Who) (pte sz at_ : Nat) : OnlyMem s (s.ownPage p pte sz at_).1 := by
  unfold State.ownPage
  split
  · rfl
  · split
    · rfl
    · split
      · dsimp only
        exact onlyMem_swapPte s at_ pte _
      · dsimp only
        exact (onlyMem_dropPage s pte sz).trans (onlyMem_swapPte _ at_ pte _)

theorem onlyMem_xlatPages (pl : List TlbAt) (p : Who) (acc : Acc) (post : Bool) (pages : List Nat) (s : State) :
    OnlyMem s (s.xlatPages pl p acc post pages).1 := by
  induction pages generalizing s with
  | nil => exact .refl _
  | cons a t ih =>
    have ht := onlyMem_translate s pl p.part p.ctx a acc
    rw [State.xlatPages]
    split
    · exact .refl _
    · generalize s.translate pl p.part p.ctx a acc = r at ht
      obtain ⟨r1, r2⟩ := r
      cases r2 with
      | driver k => exact ht
      | prot => exact ht
      | leaf pte sz at_ =>
        simp only
        split
        · exact ht
        · have h2 := ih r1
          generalize State.xlatPages r1 pl p acc post t = q at h2
          obtain ⟨q1, q2⟩ := q
          cases q2 with
          | ok ls => exact ht.trans h2
          | error e => exact ht.trans h2

theorem onlyMem_classPages (p : Who) (acc : Acc) (ls : List (Nat × Nat × Nat × Nat)) (s : State) : OnlyMem s (s.classPages p acc ls).1 := by
  induction ls generalizing s with
  | nil => exact .refl _
  | cons a t ih =>
    rw [State.classPages]
    refine OnlyMem.trans ?_ (ih _)
    split
    · exact .refl _
    · exact onlyMem_ownPage ..

theorem onlyMem_checkPages (s : State) (p : Who) (u lane : Nat) (acc : Acc) (lev va n : Nat) (ls : List (Nat × Nat × Nat × Nat)) :
    OnlyMem s (s.checkPages p u lane acc lev va n ls).1 := by
  unfold State.checkPages
  simp only
  split
  · exact .refl _
  · split
    · exact .refl _
    · split
      · exact .refl _
      · exact onlyMem_classPages ..

theorem onlyMem_checkElem (s : State) (p : Who) (u lane : Nat) (acc : Acc) (need post : Bool) (lev : Nat) (addr : DWord) (n : Nat) :
    OnlyMem s (s.checkElem p u lane acc need post lev addr n).1 := by
  unfold State.checkElem
  simp only
  split
  · exact .refl _
  · split
    · exact .refl _
    · split
      · exact .refl _
      · split
        · exact .refl _
        · have h1 := onlyMem_xlatPages p.places p acc post (pagesOf addr.toNat n) s
          generalize State.xlatPages s p.places p acc post (pagesOf addr.toNat n) = q at h1
          obtain ⟨q1, q2⟩ := q
          cases q2 with
          | error e => exact h1
          | ok ls =>
            simp only
            split
            · have h2 : OnlyMem q1 ((pagesOf addr.toNat n).foldl (fun st a => st.tlbForget p.places p.part p.ctx a) q1) :=
                .foldl _ (fun s a => onlyMem_tlbForget s _ _ _ a) _ _
              generalize (pagesOf addr.toNat n).foldl (fun st a => st.tlbForget p.places p.part p.ctx a) q1 = q3 at h2
              have h3 := onlyMem_xlatPages p.places p acc false (pagesOf addr.toNat n) q3
              generalize State.xlatPages q3 p.places p acc false (pagesOf addr.toNat n) = q at h3
              obtain ⟨q4, q5⟩ := q
              cases q5 with
              | error e => exact h1.trans (h2.trans h3)
              | ok ls => exact h1.trans (h2.trans (h3.trans (onlyMem_checkPages ..)))
            · exact h1.trans (onlyMem_checkPages ..)

theorem onlyMem_checkLanes (ls : List Nat) (s : State) (c : Ctx) (acc : Acc) (need post : Bool) (n : Nat) (addr : Nat → DWord) (lev : Nat → Nat) :
    OnlyMem s (s.checkLanes c acc need post n addr lev ls).1 := by
  induction ls generalizing s with
  | nil => rfl
  | cons l t ih => exact (onlyMem_checkElem ..).trans (ih _)

theorem onlyMem_killLine (s : State) (core line : Nat) : OnlyMem s (s.killLine core line) := onlyMem_cores (killLine_frame s core line)
theorem onlyMem_killUnit (s : State) (core line : Nat) : OnlyMem s (s.killUnit core line) := by unfold State.killUnit; split <;> rfl

theorem killAt_frame (s : State) (p : Who) (va n : Nat) : ∃ cs, s.killAt p va n = { s with cores := cs } := by
  have h1 : ∀ (s : State) c l, ∃ cs, s.killUnit c l = { s with cores := cs } := by
    intro s c l; unfold State.killUnit; split
    · exact ⟨s.cores, rfl⟩
    · exact ⟨_, rfl⟩
  unfold State.killAt
  split
  · exact ⟨s.cores, rfl⟩
  · refine foldl_frame _ (fun st a => ?_) _ _
    split
    · split
      · exact killLine_frame ..
      · exact ⟨st.cores, rfl⟩
    · split
      · exact h1 ..
      · exact ⟨st.cores, rfl⟩
    · split
      · exact h1 ..
      · exact ⟨st.cores, rfl⟩
    · exact ⟨st.cores, rfl⟩

theorem storeChecks_onlyMem (f : StoreForm) (dl : Ctx → Nat) (c : Ctx) (s : State) : OnlyMem (s.setWarp c.u c.w) (f.checks dl c s).1 := by
  unfold StoreForm.checks
  exact (OnlyMem.foldl _ (fun st l => onlyMem_cores (killAt_frame st c.p (f.addr c l).toNat f.bytes)) _ _).trans (onlyMem_checkLanes ..)

/-- A lane's entry joins its queue, if it has bytes or is a release. -/
theorem storeLane_eq (s : State) (c : Ctx) (rel walk : Option Nat) (iid lev : Nat) (now : Bool) (lane : Nat) (bs : List QByte) (h4 : ∀ b ∈ bs, b.cls ≠ 4)
    (w : Warp) (hw : kget s.warps c.u = some w) :
    s.storeLane c rel walk iid lev now lane bs = s.setWarp c.u (if bs ≠ [] ∨ rel.isSome = true
      then w.enqueue lane ⟨bs, rel, walk, lev, c.is.pc, iid, c.w.xw.elim 0 (fun r => r.id + 1)⟩ else w)
    ∨ (s.storeLane c rel walk iid lev now lane bs = s ∧ ¬(bs ≠ [] ∨ rel.isSome = true)) := by
  have h1 : ∀ k : Bool, bs.filter (fun b => k && b.cls == 4) = [] := by
    intro k; rw [List.filter_eq_nil_iff]; intro b hb; simp [h4 b hb]
  have h2 : ∀ k : Bool, bs.filter (fun b => !(k && b.cls == 4)) = bs := by
    intro k; rw [List.filter_eq_self]; intro b hb; simp [h4 b hb]
  unfold State.storeLane
  simp only
  rw [h1, h2]
  simp only [List.foldl_nil, List.isEmpty_nil, Bool.not_true, Bool.or_false]
  by_cases h : bs ≠ [] ∨ rel.isSome = true
  · left
    rw [if_pos h, if_neg]
    · simp [State.modWarp, State.setWarp, hw]
    · rcases h with h | h
      · simp [h]
      · simp [Option.isSome_iff_ne_none.1 h]
  · right
    refine ⟨?_, h⟩
    push Not at h
    rw [if_pos]
    simp [h.1]
    simpa using h.2

theorem enqueue_queues (w : Warp) (lane : Nat) (e : QEntry) (l : Nat) :
    sget [] (w.enqueue lane e).queues l = if l = lane then sget [] w.queues lane ++ [e] else sget [] w.queues l := by
  unfold Warp.enqueue
  simp only [sget_sset]

/-- The lanes' entries join their queues. -/
theorem storeLanes_eq (c : Ctx) (rel : Option Nat) (iid lev : Nat) (now : Bool) (q : Nat → List QByte) (ls : List Nat) (hn : ls.Nodup)
    (h4 : ∀ l ∈ ls, ∀ b ∈ q l, b.cls ≠ 4) (s : State) (w : Warp) (hw : kget s.warps c.u = some w) :
    ∃ ws w', ls.foldl (fun st l => st.storeLane c rel none iid lev now l (q l)) s = { s with warps := ws } ∧
      (∀ v, v ≠ c.u → kget ws v = kget s.warps v) ∧ kget ws c.u = some w' ∧ (∃ qs, w' = { w with queues := qs }) ∧
      ∀ l, sget [] w'.queues l = sget [] w.queues l ++
        if l ∈ ls ∧ (q l ≠ [] ∨ rel.isSome = true) then [⟨q l, rel, none, lev, c.is.pc, iid, c.w.xw.elim 0 (fun r => r.id + 1)⟩] else [] := by
  induction ls generalizing s w with
  | nil => exact ⟨s.warps, w, rfl, fun _ _ => rfl, hw, ⟨w.queues, rfl⟩, fun l => by simp⟩
  | cons a t ih =>
    obtain ⟨hna, hnt⟩ := List.nodup_cons.1 hn
    have h4a := h4 a (List.mem_cons_self ..)
    have h4t : ∀ l ∈ t, ∀ b ∈ q l, b.cls ≠ 4 := fun l hl => h4 l (List.mem_cons_of_mem _ hl)
    rw [List.foldl_cons]
    obtain ⟨s1, w1, hs1, hw1, hq1, hx1, hws⟩ : ∃ s1 w1, s1 = s.storeLane c rel none iid lev now a (q a) ∧ kget s1.warps c.u = some w1 ∧
        (∃ qs, w1 = { w with queues := qs }) ∧ (∀ l, sget [] w1.queues l = sget [] w.queues l ++
          if l = a ∧ (q a ≠ [] ∨ rel.isSome = true) then [⟨q a, rel, none, lev, c.is.pc, iid, c.w.xw.elim 0 (fun r => r.id + 1)⟩] else []) ∧
        ∃ ws, s1 = { s with warps := ws } ∧ ∀ v, v ≠ c.u → kget ws v = kget s.warps v := by
      rcases storeLane_eq s c rel none iid lev now a (q a) h4a w hw with h | ⟨h, hc⟩
      · refine ⟨_, _, h.symm, kget_kput_self _ _ _, ?_, ?_, _, rfl, fun v hv => kget_kput_ne _ _ hv⟩
        · split
          · exact ⟨_, rfl⟩
          · exact ⟨w.queues, rfl⟩
        · intro l
          by_cases hc : q a ≠ [] ∨ rel.isSome = true
          · rw [if_pos hc, enqueue_queues]
            by_cases hl : l = a
            · subst hl; rw [if_pos rfl, if_pos ⟨rfl, hc⟩]
            · rw [if_neg hl, if_neg (fun x => hl x.1), List.append_nil]
          · rw [if_neg hc, if_neg (fun x => hc x.2), List.append_nil]
      · refine ⟨_, w, h.symm, hw, ⟨w.queues, rfl⟩, ?_, s.warps, rfl, fun _ _ => rfl⟩
        intro l; rw [if_neg (fun x => hc x.2), List.append_nil]
    obtain ⟨ws, hs2, hws2⟩ := hws
    rw [← hs1]
    obtain ⟨ws3, w3, e1, e2, e3, ⟨qs3, e4⟩, e5⟩ := ih hnt h4t s1 w1 hw1
    refine ⟨ws3, w3, ?_, ?_, e3, ?_, ?_⟩
    · rw [e1, hs2]
    · intro v hv; rw [e2 v hv, hs2]; exact hws2 v hv
    · obtain ⟨qs, hq⟩ := hq1; exact ⟨qs3, by rw [e4, hq]⟩
    · intro l
      rw [e5 l, hx1 l, List.append_assoc]
      congr 1
      by_cases hl : l = a
      · subst hl; simp [hna]
      · simp [hl]

theorem storeGo_result {i : Instr} {s : State} {c : Ctx} (h : Issues i s c) (f : StoreForm) (dl : Ctx → Nat) (b : Nat → List PByte)
    (hc : ∀ x ∈ (f.checks dl c s).2, isPeer x = false ∧ x.r = .ok (b x.lane) ∧ ∀ y ∈ b x.lane, y.cls ≠ 4) :
    StoreResult (f.checks dl c s).1 (storeGo f dl c (s.setWarp c.u c.w)) c f (dl c)
      (fun iid l => qBytes iid l (f.addr c l).toNat (b l) (f.data c l)) := by
  have hom := storeChecks_onlyMem f dl c s
  have hlanes : (f.checks dl c s).2.map (·.lane) = lanesOf c.m := checkLanes_lanes ..
  have hva : ∀ x ∈ (f.checks dl c s).2, x.va = (f.addr c x.lane).toNat := by
    unfold StoreForm.checks
    generalize lanesOf c.m = ls
    simp only
    generalize ls.foldl (fun st l => st.killAt c.p (f.addr c l).toNat f.bytes) (s.setWarp c.u c.w) = s0
    generalize (decide (s0.postedOn c.p.core < 16)) = po
    induction ls generalizing s0 with
    | nil => intro x hx; cases hx
    | cons a t ih =>
      intro x hx
      simp only [State.checkLanes, List.mem_cons] at hx
      rcases hx with rfl | hx
      · rfl
      · exact ih _ x hx
  have hchk : (f.checks dl c s).2 = (lanesOf c.m).map (fun l => ⟨l, (f.addr c l).toNat, .ok (b l)⟩) := by
    rw [← hlanes, List.map_map]
    conv => lhs; rw [← List.map_id (f.checks dl c s).2]
    apply List.map_congr_left
    intro x hx
    simp only [id, Function.comp]
    rw [← hva x hx, ← (hc x hx).2.1]
  have hb4 : ∀ l ∈ lanesOf c.m, ∀ y ∈ b l, y.cls ≠ 4 := by
    intro l hl
    have : (⟨l, (f.addr c l).toNat, .ok (b l)⟩ : LaneRes) ∈ (f.checks dl c s).2 := by rw [hchk]; exact List.mem_map.2 ⟨l, hl, rfl⟩
    exact (hc _ this).2.2
  have hpeer : (f.checks dl c s).2.any isPeer = false := by
    rw [List.any_eq_false]; intro x hx; rw [(hc x hx).1]; decide
  have hwarp : kget (f.checks dl c s).1.warps c.u = some c.w := by rw [hom.warps]; simp
  unfold storeGo
  simp only
  have hck : ((lanesOf c.m).foldl (fun st l => st.killAt c.p (f.addr c l).toNat f.bytes) (s.setWarp c.u c.w)).checkLanes c .store f.need
      (decide (((lanesOf c.m).foldl (fun st l => st.killAt c.p (f.addr c l).toNat f.bytes) (s.setWarp c.u c.w)).postedOn c.p.core < 16))
      f.bytes (f.addr c) (fun _ => dl c) (lanesOf c.m) = f.checks dl c s := rfl
  rw [hck]
  generalize ((lanesOf c.m).foldl (fun st l => st.killAt c.p (f.addr c l).toNat f.bytes) (s.setWarp c.u c.w)).postedOn c.p.core = po
  generalize (f.checks dl c s).1 = s1 at hwarp
  rw [hchk] at hpeer ⊢
  clear hck hchk hlanes hva hc hom
  obtain ⟨R, hR⟩ : ∃ R, R = (lanesOf c.m).map (fun l => (⟨l, (f.addr c l).toNat, .ok (b l)⟩ : LaneRes)) := ⟨_, rfl⟩
  rw [← hR] at hpeer ⊢
  have f1 : R.filter LaneRes.isOk = R := by
    rw [List.filter_eq_self, hR]; intro x hx; obtain ⟨l, -, rfl⟩ := List.mem_map.1 hx; rfl
  have f2 : R.filter LaneRes.isFault = [] := by
    rw [List.filter_eq_nil_iff, hR]; intro x hx; obtain ⟨l, -, rfl⟩ := List.mem_map.1 hx; simp [LaneRes.isFault]
  have f3 : R.filter (fun x => !x.isFault) = R := by
    rw [List.filter_eq_self, hR]; intro x hx; obtain ⟨l, -, rfl⟩ := List.mem_map.1 hx; rfl
  have f4 : R.filter (fun x => !x.isOk) = [] := by
    rw [List.filter_eq_nil_iff, hR]; intro x hx; obtain ⟨l, -, rfl⟩ := List.mem_map.1 hx; simp [LaneRes.isOk]
  have f5 : ∀ st, holdTry st c f.rel R = (st, true) := by
    intro st
    unfold holdTry
    cases f.rel with
    | none => rfl
    | some k =>
      have : R.filter (fun r => r.bytes.any (fun b => b.cls == 4)) = [] := by
        rw [List.filter_eq_nil_iff, hR]
        intro x hx
        obtain ⟨l, hl, rfl⟩ := List.mem_map.1 hx
        simp only [LaneRes.bytes, List.any_eq_true, not_exists, not_and]
        intro y hy
        simpa using hb4 l hl y hy
      rw [this]; rfl
  rw [f1, f2, f3, f4, f5, hpeer]
  simp only [Bool.false_and, Bool.not_true, Bool.false_eq_true, if_false, List.isEmpty_nil, if_true, settle_nil, mask_all1, State.fresh]
  obtain ⟨iid, hiid⟩ : ∃ iid, iid = s1.nextUid := ⟨_, rfl⟩
  rw [← hiid]
  have hw2 : kget ({ s1 with nextUid := iid + 1 } : State).warps c.u = some c.w := hwarp
  have q2 : OnlyUnit s1 { s1 with nextUid := iid + 1 } c.u := onlyUnit_uid s1 c.u (iid + 1)
  generalize hs2 : ({ s1 with nextUid := iid + 1 } : State) = s2 at hw2 q2
  have hl2 : s2.launches = s1.launches := by rw [← hs2]
  have hcv2 : s2.cores = s1.cores := by rw [← hs2]
  clear hs2
  have htrim : trimLanes (R.map (fun x => (x.lane, qBytes iid x.lane x.va x.bytes (f.data c x.lane)))) =
      (lanesOf c.m).map (fun l => (l, enqueued c.m (fun l => qBytes iid l (f.addr c l).toNat (b l) (f.data c l)) l)) := by
    rw [← trimLanes_eq, hR, List.map_map]; rfl
  rw [htrim]
  obtain ⟨E, hE⟩ : ∃ E, E = enqueued c.m (fun l => qBytes iid l (f.addr c l).toNat (b l) (f.data c l)) := ⟨_, rfl⟩
  have hzip : R.zip ((lanesOf c.m).map (fun l => (l, enqueued c.m (fun l => qBytes iid l (f.addr c l).toNat (b l) (f.data c l)) l))) =
      (lanesOf c.m).map (fun l => ((⟨l, (f.addr c l).toNat, .ok (b l)⟩ : LaneRes), (l, E l))) := by
    rw [hR, List.zip_map', hE]
  rw [hzip, List.foldl_map]
  have hE4 : ∀ l ∈ lanesOf c.m, ∀ x ∈ E l, x.cls ≠ 4 := by
    intro l hl x hx
    rw [hE] at hx
    have hx := (List.mem_filter.1 hx).1
    simp only [qBytes] at hx
    obtain ⟨y, -, rfl⟩ := List.mem_map.1 hx
    simp only
    split
    · rename_i z hz; exact hb4 l hl z (List.mem_of_getElem? hz)
    · simp
  obtain ⟨ws, w3, e1, e2, e3, ⟨qs, e4⟩, e5⟩ := storeLanes_eq c f.rel iid (dl c) true E (lanesOf c.m) (lanesOf_nodup _) hE4 s2 c.w hw2
  have hk : ∀ l, LaneRes.isOk ⟨l, (f.addr c l).toNat, .ok (b l)⟩ = true := fun _ => rfl
  simp only [hk, if_true]
  rw [e1]
  have hmap : R.map (·.lane) = lanesOf c.m := by rw [hR, List.map_map]; exact List.map_id _
  rw [hmap]
  generalize R.map (fun x => ((if x.isOk then none else some (iid * 64 + x.lane) : Option Nat), x.va, f.data c x.lane)) = hx
  have q3 : OnlyUnit s2 { s2 with warps := ws } c.u :=
    ⟨fun _ => rfl, fun _ _ => rfl, fun _ => rfl, e2, fun _ => rfl, rfl, fun _ => ⟨rfl, rfl⟩⟩
  generalize hs3 : ({ s2 with warps := ws } : State) = s3 at q3
  have hw3 : kget s3.warps c.u = some w3 := by rw [← hs3]; exact e3
  have hl3 : s3.launches = s1.launches := by rw [← hs3]; exact hl2
  have hc3 : s3.cores = s1.cores := by rw [← hs3]; exact hcv2
  clear hs3 e1 e2 e3
  generalize spadExtra false f.bytes R = ex
  have qb := onlyUnit_bumpBy s3 c.u c.p.launch c.p.core 7 ex
  have hwb : (s3.bumpBy c.p.launch c.p.core 7 ex).warps = s3.warps := bumpBy_warps ..
  have hlb : ∀ l, kget (s3.bumpBy c.p.launch c.p.core 7 ex).launches c.p.launch = some l →
      ∃ l', kget s3.launches c.p.launch = some l' ∧ l'.lr = l.lr := by
    intro l hl
    have := qb.launches c.p.launch
    rw [hl] at this
    cases hk : kget s3.launches c.p.launch with
    | none => rw [hk] at this; cases this
    | some l' =>
      rw [hk] at this
      exact ⟨l', rfl, (congrArg Launch.lr (Option.some.inj this)).symm⟩
  have q3 := q3.trans qb
  generalize s3.bumpBy c.p.launch c.p.core 7 ex = s3 at hwb hlb q3
  rw [← hwb] at hw3
  obtain ⟨g1, g2, g3, g4⟩ := hashAdd_frame s3 c.p.launch c.p.core hx
  generalize s3.hashAdd c.p.launch c.p.core hx = s4 at g1 g2 g3 g4
  rw [← g2] at hw3
  obtain ⟨q5, ln, rl, wr, hw5⟩ := stepLanes_frame s4 c f.step w3 hw3
  generalize s4.stepLanes c f.step (lanesOf c.m) = s5 at q5 hw5
  obtain ⟨q6, hd⟩ := done_frame s5 c c.is.mask
  obtain ⟨fr, nn, tt, xx, hw6, hadv⟩ := hd _ hw5
  generalize s5.done c c.is.mask = s6 at q6 hw6
  have q12 := q2.trans q3
  have q56 := q5.trans q6
  obtain ⟨mm, hmm⟩ := stepped_eq c f.step w3
  have hall : ∀ v : Warp, v = stepped c f.step w3 → { v.shell with queues := [] } = { c.w.shell with queues := [] } ∧
      v.queues = w3.queues ∧ (∀ k, v.flagsOf k = c.w.flagsOf k) ∧ (∀ p, v.pred p = c.w.pred p) := by
    intro v hv; rw [hv, hmm, e4]; exact ⟨rfl, rfl, fun _ => rfl, fun _ => rfl⟩
  obtain ⟨a1, a2, a3, a4⟩ := hall _ rfl
  refine ⟨fun hl a => ?_, fun k o => ?_, fun v hv => ?_, fun v => ?_, _, iid, hw6, a1, ?_, ?_, a3, a4, ?_⟩
  · have := g4 (by
      intro l hk
      obtain ⟨l', h1, h2⟩ := hlb l hk
      rw [hl3] at h1
      rw [← h2]; exact hl l' h1)
    rw [q56.memory, ← q12.memory]
    unfold State.hByte; rw [this.1]
  · rw [q56.scratch, ← q12.scratch]
    unfold State.spadByte; rw [g3]
  · rw [q56.others v hv, g2, q12.others v hv]
  · have h1 := congrArg Core.cv (q56.core v)
    have h2 := congrArg Core.cv (q12.core v)
    simp only [Core.seen] at h1 h2
    rw [h1, g1 v, h2]
  · intro l hl
    have : ({ stepped c f.step w3 with lin := ln, rlev := rl, written := wr, frontier := fr, fair := nn, turn := tt, xw := xx } : Warp).queues = w3.queues := a2
    rw [this, e5 l, ← hE]
    simp only [mem_lanesOf, hl, true_and]
  · have hregs : ({ stepped c f.step w3 with lin := ln, rlev := rl, written := wr, frontier := fr, fair := nn, turn := tt, xw := xx } : Warp).regs =
        (stepped c f.step w3).regs := rfl
    generalize ({ stepped c f.step w3 with lin := ln, rlev := rl, written := wr, frontier := fr, fair := nn, turn := tt, xw := xx } : Warp) = v at hregs
    have hr := reg_of_regs hregs
    have h3 : ∀ r l, w3.reg r l = c.w.reg r l := by intro r l; rw [e4]; rfl
    unfold PairStepped
    cases hst : f.step with
    | none => rw [hst] at hr; intro r l; exact (hr r l).trans (h3 r l)
    | some y =>
      obtain ⟨a, k⟩ := y
      rw [hst] at hr
      intro r l hl
      rw [hr r l]
      refine (reg_writeMask _ _ _ (fun l => words64 (stepAddr c.w k (c.rd64 a l))) hl).trans ?_
      rw [h3]; rfl
  · rw [hmm, e4] at hadv ⊢
    exact hadv h.alive

theorem storeOp_stores (i : Instr) (d : BitVec 7) (n : Nat) (f : StoreForm) (he : ∀ s, exec i s = storeOp i s d n f) : Stores i d n f := by
  intro s c b h hc
  exact ⟨_, warpOp_next h _ (he s), storeGo_result h f _ b hc⟩

theorem killWatches_cv (c : Core) (p : Watch → Bool) : (c.killWatches p).cv = c.cv := by
  unfold Core.killWatches Core.dropEntries
  simp only
  split
  · rfl
  · split <;> rfl

theorem cv_modCore (s : State) (k : Nat) (f : Core → Core) (h : ∀ c, (f c).cv = c.cv) (v : Nat) : ((s.modCore k f).core v).cv = (s.core v).cv := by
  by_cases hv : v = k
  · subst hv; simp [h]
  · rw [core_modCore_ne _ _ hv]

theorem cv_killLine (s : State) (k l v : Nat) : ((s.killLine k l).core v).cv = (s.core v).cv := by
  unfold State.killLine
  split
  · rfl
  · exact cv_modCore _ _ _ (fun c => killWatches_cv c _) v
theorem cv_killUnit (s : State) (k l v : Nat) : ((s.killUnit k l).core v).cv = (s.core v).cv := by
  unfold State.killUnit
  split
  · rfl
  · exact cv_modCore _ _ _ (fun c => killWatches_cv c _) v

theorem cv_killAt (s : State) (p : Who) (va n v : Nat) : ((s.killAt p va n).core v).cv = (s.core v).cv := by
  unfold State.killAt
  split
  · rfl
  · rename_i hh
    clear hh
    generalize [va, va + n - 1] = L
    induction L generalizing s with
    | nil => rfl
    | cons a t ih =>
      rw [List.foldl_cons]
      refine (ih _).trans ?_
      split
      · split
        · exact cv_killLine ..
        · rfl
      · split
        · exact cv_killUnit ..
        · rfl
      · split
        · exact cv_killUnit ..
        · rfl
      · rfl

theorem killAll_frame (f : StoreForm) (c : Ctx) (ls : List Nat) (s : State) :
    ∃ cs, ls.foldl (fun st l => st.killAt c.p (f.addr c l).toNat f.bytes) s = { s with cores := cs } ∧
      ∀ v, (({ s with cores := cs } : State).core v).cv = (s.core v).cv := by
  induction ls generalizing s with
  | nil => exact ⟨s.cores, rfl, fun _ => rfl⟩
  | cons a t ih =>
    rw [List.foldl_cons]
    obtain ⟨c1, h1⟩ := killAt_frame s c.p (f.addr c a).toNat f.bytes
    obtain ⟨c2, h2, h3⟩ := ih (s.killAt c.p (f.addr c a).toNat f.bytes)
    refine ⟨c2, ?_, fun v => ?_⟩
    · rw [h2, h1]
    · have := h3 v
      rw [cv_killAt] at this
      exact this

theorem storeOp_scratch (i : Instr) (d : BitVec 7) (n : Nat) (f : StoreForm) (he : ∀ s, exec i s = storeOp i s d n f)
    (hd : f.bytes ∣ 2 ^ 48) (hlen : ∀ c l, (f.data c l).length = f.bytes) : StoresScratch i d n f := by
  intro s c h hs hrl hlev
  obtain ⟨b, hb, hlr, -, -⟩ := h.block
  obtain ⟨cs, e1, e2⟩ := killAll_frame f c (lanesOf c.m) (s.setWarp c.u c.w)
  have hck : f.checks (dataLevel d.toNat n) c s = ({ s.setWarp c.u c.w with cores := cs },
      (lanesOf c.m).map (fun l => ⟨l, (f.addr c l).toNat, .ok (ownBytes s c.p.blk (f.addr c l).toNat f.bytes)⟩)) := by
    unfold StoreForm.checks
    simp only
    rw [e1]
    exact checkLanes_own ({ s.setWarp c.u c.w with cores := cs }) c .store (by decide) f.need _ f.bytes (f.addr c) (fun _ => dataLevel d.toNat n c) (lanesOf c.m) b c.lr hb hlr hd hrl
      (fun l hl => hs l (mem_lanesOf.1 hl).2) (fun _ l hl k hk => hlev b hb l (mem_lanesOf.1 hl).2 k hk)
  obtain ⟨t, h1, h2⟩ := storeOp_stores i d n f he s c (fun l => ownBytes s c.p.blk (f.addr c l).toNat f.bytes) h (by
    rw [hck]; intro x hx; obtain ⟨l, -, rfl⟩ := List.mem_map.1 hx
    refine ⟨?_, rfl, fun y hy => ?_⟩
    · unfold isPeer
      rw [List.any_eq_false]
      intro y hy
      simp only [LaneRes.bytes, ownBytes] at hy
      obtain ⟨k, -, rfl⟩ := List.mem_map.1 hy
      simp
    unfold ownBytes at hy
    obtain ⟨k, -, rfl⟩ := List.mem_map.1 hy
    simp)
  refine ⟨t, h1, ?_⟩
  rw [hck] at h2
  have q0 := onlyUnit_setWarp s c.u c.w
  have hq : (fun iid l => qBytes iid l (f.addr c l).toNat (ownBytes s c.p.blk (f.addr c l).toNat f.bytes) (f.data c l)) =
      (fun iid l => ((List.range f.bytes).zip (f.data c l)).map (fun x =>
        (⟨(f.addr c l).toNat + x.1, some (.spad c.p.blk ((f.addr c l).toNat % 2 ^ 48 + x.1)), x.2, 5,
          storeUnit iid l (f.addr c l).toNat f.bytes x.1⟩ : QByte))) := by
    funext iid l
    unfold qBytes ownBytes
    rw [hlen c l]
    apply List.map_congr_left
    intro x hx
    have hk := List.mem_range.1 (List.of_mem_zip hx).1
    simp [List.getElem?_range hk]
  rw [hq] at h2
  exact ⟨fun hl a => (h2.memory hl a).trans (q0.memory a), fun a o => (h2.scratch a o).trans (q0.scratch a o),
    fun v hv => (h2.others v hv).trans (q0.others v hv), fun v => (h2.views v).trans ((e2 v).trans rfl), h2.unit⟩

end Sys2Proof.Machine
end

