-- ==== Sys2Proof/Laws/Atomics.lean ====
section
/-! SUPPORT. What the atomics do: the lanes update in ascending order and receive the old values. -/

namespace Sys2Proof.Machine

/-- Nothing changes but the order log, counters and what a divergence leaves; memory only where a launch records or replays. -/
structure LogOnly (s t : State) (lid : Nat) : Prop where
  eq : ∃ m ls rg o, t = { s with mem := m, launches := ls, regs := rg, out := o }
  mem : (∀ l, kget s.launches lid = some l → l.lr.record = false ∧ l.lr.replay = false) →
    t.mem = s.mem ∧ ∀ l, kget t.launches lid = some l → l.lr.record = false ∧ l.lr.replay = false

theorem LogOnly.refl (s : State) (lid : Nat) : LogOnly s s lid := ⟨⟨_, _, _, _, rfl⟩, fun h => ⟨rfl, h⟩⟩
theorem LogOnly.trans {a b c : State} {lid : Nat} (h : LogOnly a b lid) (k : LogOnly b c lid) : LogOnly a c lid := by
  obtain ⟨⟨m, ls, rg, o, e⟩, hm⟩ := h
  obtain ⟨⟨m', ls', rg', o', e'⟩, hm'⟩ := k
  refine ⟨⟨m', ls', rg', o', by rw [e', e]⟩, fun hl => ?_⟩
  obtain ⟨x, y⟩ := hm hl
  obtain ⟨x', y'⟩ := hm' y
  exact ⟨x'.trans x, y'⟩

theorem logOnly_modLaunch (s : State) (lid : Nat) (f : Launch → Launch) (hf : ∀ l, (f l).lr = l.lr) : LogOnly s (s.modLaunch lid f) lid := by
  refine ⟨⟨_, _, _, _, rfl⟩, fun h => ⟨rfl, fun l hl => ?_⟩⟩
  have : kget (s.modLaunch lid f).launches lid = (kget s.launches lid).map f := kget_kmod_self _ _ _
  rw [this] at hl
  obtain ⟨l0, h0, rfl⟩ := Option.map_eq_some_iff.1 hl
  rw [hf]; exact h l0 h0

theorem logOnly_chunk (s : State) (lid die loc va lcore warp : Nat) : LogOnly s (s.chunkAtomic lid die loc va lcore warp) lid := by
  have hz : (∀ l, kget s.launches lid = some l → l.lr.record = false ∧ l.lr.replay = false) → s.chunkAtomic lid die loc va lcore warp = s := by
    intro h
    unfold State.chunkAtomic
    cases hl : kget s.launches lid with
    | none => rfl
    | some l => simp [(h l hl).1]
  refine ⟨?_, fun h => by rw [hz h]; exact ⟨rfl, h⟩⟩
  unfold State.chunkAtomic
  split
  · exact ⟨_, _, _, _, rfl⟩
  · split
    · exact ⟨_, _, _, _, rfl⟩
    · simp only
      split
      · split
        · split
          · obtain ⟨m, ls, h⟩ := logEntry_eq (s.setLaunch lid _) lid die 0 _ _ _ _ 0
            unfold State.closeChunk
            rw [h]; exact ⟨_, _, _, _, rfl⟩
          · exact ⟨_, _, _, _, rfl⟩
        · rename_i c _ _
          obtain ⟨m, ls, h⟩ := logEntry_eq s lid die 0 c.va c.lcore c.warp c.run 0
          unfold State.closeChunk
          rw [h]; exact ⟨_, _, _, _, rfl⟩
      · exact ⟨_, _, _, _, rfl⟩

theorem logOnly_countAtomic (s : State) (p : Who) (va : Nat) (bs : List PByte) : LogOnly s (s.countAtomic p va bs) p.launch := by
  unfold State.countAtomic
  simp only
  refine (logOnly_chunk ..).trans (logOnly_modLaunch _ _ _ (fun l => ?_))
  split <;> rfl

theorem LogOnly.foldl {α : Type} (lid : Nat) (f : State → α → State) (hf : ∀ s a, LogOnly s (f s a) lid) (l : List α) (s : State) :
    LogOnly s (l.foldl f s) lid := by
  induction l generalizing s with
  | nil => exact .refl _ _
  | cons a t ih => exact (hf s a).trans (ih _)

theorem logOnly_oldHash (s : State) (lid core : Nat) (xs : List (Nat × List Byte)) : LogOnly s (s.oldHashAdd lid core xs) lid := by
  unfold State.oldHashAdd
  exact logOnly_modLaunch _ _ _ (fun l => by split <;> rfl)

theorem sortByKey_rising {α : Type} (key : α → Nat) (xs : List α) (h : (xs.map key).Pairwise (· < ·)) : sortByKey key xs = xs := by
  have ins : ∀ (x : α) (ys : List α), (∀ y ∈ ys, key y < key x) → insertBy key x ys = ys ++ [x] := by
    intro x ys
    induction ys with
    | nil => intro _; rfl
    | cons y t ih =>
      intro hy
      simp only [insertBy]
      rw [if_neg (by have := hy y (List.mem_cons_self ..); omega), ih (fun z hz => hy z (List.mem_cons_of_mem _ hz))]
      rfl
  have key2 : ∀ (xs pre : List α), ((pre ++ xs).map key).Pairwise (· < ·) → xs.foldl (fun acc x => insertBy key x acc) pre = pre ++ xs := by
    intro xs
    induction xs with
    | nil => intro pre _; simp
    | cons x t ih =>
      intro pre hp
      rw [List.foldl_cons, ins]
      · rw [ih]
        · simp
        · simpa using hp
      · intro y hy
        rw [List.map_append, List.pairwise_append] at hp
        exact hp.2.2 _ (List.mem_map.2 ⟨y, hy, rfl⟩) _ (by simp)
  exact key2 xs [] (by simpa using h)

theorem atomLanes_fst (c : Ctx) (f : AtomForm) (rs : List LaneRes) (s : State) : (s.atomLanes c f rs).2.map (·.1) = rs := by
  induction rs generalizing s with
  | nil => rfl
  | cons r t ih => simp only [State.atomLanes, List.map_cons, ih]

/-- A measured event changes a launch's counters alone. -/
theorem logOnly_bumpBy (s : State) (lid core code n : Nat) : LogOnly s (s.bumpBy lid core code n) lid := by
  refine ⟨?_, fun h => ?_⟩
  · obtain ⟨ls, e⟩ := bumpBy_eq s lid core code n
    rw [e]; exact ⟨_, _, _, _, rfl⟩
  · unfold State.bumpBy
    split
    · exact ⟨rfl, h⟩
    · rename_i l hl
      split
      · refine ⟨rfl, fun k hk => ?_⟩
        have : kget (s.setLaunch lid { l with counters := kput l.counters (core * 16 + code) (sget 0 l.counters (core * 16 + code) + n) }).launches lid = some k := hk
        simp only [setLaunch_launches, kget_kput_self, Option.some.injEq] at this
        rw [← this]; exact h l hl
      · exact ⟨rfl, h⟩

theorem atomGo_result {i : Instr} {s : State} {c : Ctx} (h : Issues i s c) (a d n : Nat) (f : AtomForm) (lev : Ctx → Nat) (old : Nat → List Byte)
    (hq : c.w.queues = []) (hrep : ∀ l, kget (f.checks a lev c s).1.launches c.p.launch = some l → l.lr.replay = false)
    (hc : ∀ x ∈ (f.checks a lev c s).2, x.isOk = true ∧ isOut x = false)
    (ho : ∀ x ∈ ((f.checks a lev c s).1.atomLanes c f (f.checks a lev c s).2).2, x.2.1 = old x.1.lane)
    (hn : ∀ l, c.m.getLsbD l = true → (wordsOf (old l)).length = n) :
    AtomResult ((f.checks a lev c s).1.atomLanes c f (f.checks a lev c s).2).1 (atomGo f a d n lev c (s.setWarp c.u c.w)) c d n f old := by
  have hm := h.mask_le
  have hlanes : (f.checks a lev c s).2.map (·.lane) = lanesOf c.m := checkLanes_lanes ..
  unfold atomGo
  simp only
  have hck : ((lanesOf c.m).foldl (fun st l => st.killAt c.p (c.rd64 a l).toNat f.bytes) (s.setWarp c.u c.w)).checkLanes c .atomic true false
      f.bytes (fun l => c.rd64 a l) (fun _ => lev c) (lanesOf c.m) = f.checks a lev c s := rfl
  rw [hck]
  clear hck
  generalize f.checks a lev c s = k at *
  obtain ⟨s1, R⟩ := k
  simp only at *
  have f1 : R.filter LaneRes.isOk = R := by rw [List.filter_eq_self]; exact fun x hx => (hc x hx).1
  have f2 : R.filter LaneRes.isFault = [] := by
    rw [List.filter_eq_nil_iff]
    intro x hx
    have := (hc x hx).1
    unfold LaneRes.isOk at this
    unfold LaneRes.isFault
    cases hxr : x.r <;> simp_all
  have f3 : R.filter (fun x => !isOut x) = R := by rw [List.filter_eq_self]; exact fun x hx => by simp [(hc x hx).2]
  have f4 : R.filter isOut = [] := by rw [List.filter_eq_nil_iff]; exact fun x hx => by simp [(hc x hx).2]
  have f5 : R.any (fun x => qOverlaps (sget [] c.w.queues x.lane) x) = false := by
    rw [List.any_eq_false]; intro x _; rw [hq]; simp [qOverlaps]
  have hg : ∀ x : LaneRes, s1.gate c.p x.va x.bytes = .pass := by
    intro x
    unfold State.gate
    cases hl : kget s1.launches c.p.launch with
    | none => rfl
    | some l => simp [hrep l hl]
  have f6 : ∀ g, g ≠ Gate.pass → (R.map (fun x => if isOut x then Gate.pass else s1.gate c.p x.va x.bytes)).any (· == g) = false := by
    intro g hgg
    rw [List.any_eq_false]; intro y hy
    obtain ⟨x, -, rfl⟩ := List.mem_map.1 hy
    rw [hg, ite_self]; cases g <;> simp_all
  rw [f1, f2, f3, f4, f5, f6 _ (by simp), f6 _ (by simp)]
  simp only [Bool.false_eq_true, if_false, State.readLanes, List.filterMap_nil, List.filter_nil, List.map_nil, List.append_nil,
    List.foldl_nil, settle_nil, mask_all]
  have hfst := atomLanes_fst c f R s1
  generalize s1.atomLanes c f R = q at *
  obtain ⟨s2, A⟩ := q
  simp only at *
  have hAl : A.map (fun x => x.1.lane) = lanesOf c.m := by
    rw [← hlanes, ← hfst, List.map_map]; rfl
  have hsort : sortByKey (fun x : LaneRes × List Byte × List Byte => x.1.lane) A = A := by
    apply sortByKey_rising
    rw [hAl]
    exact List.Pairwise.filter _ List.pairwise_lt_range
  rw [hsort]
  have hvals : ∀ {β : Type} (F : LaneRes × List Byte × List Byte → Nat × β) (G : Nat → β), (∀ x, x.2.1 = old x.1.lane → F x = (x.1.lane, G x.1.lane)) →
      A.map F = (lanesOf c.m).map (fun l => (l, G l)) := by
    intro β F G hF
    rw [← hAl, List.map_map]
    apply List.map_congr_left
    intro x hx
    exact hF x (ho x hx)
  rw [hvals (fun x => (x.1.lane, wordsOf x.2.1)) (fun l => wordsOf (old l)) (fun x hx => by simp only [hx]),
    hvals (fun x => (x.1.lane, f.fl c x.1.lane (natLE x.2.1))) (fun l => f.fl c l (natLE (old l))) (fun x hx => by simp only [hx])]
  generalize hfs : List.foldl (fun (acc : List LaneRes) x => if acc.any (fun y => (locKey s1 y.bytes).1 == (locKey s1 x.bytes).1) then acc else acc ++ [x]) [] R = firsts
  clear hfs
  have l1 : LogOnly s2 (firsts.foldl (fun st x => st.countAtomic c.p x.va x.bytes) s2) c.p.launch :=
    .foldl _ _ (fun s (x : LaneRes) => logOnly_countAtomic s c.p x.va x.bytes) _ _
  generalize firsts.foldl (fun st x => st.countAtomic c.p x.va x.bytes) s2 = s3 at l1
  have lb := logOnly_bumpBy s3 c.p.launch c.p.core 7 (spadExtra true f.bytes R)
  generalize s3.bumpBy c.p.launch c.p.core 7 (spadExtra true f.bytes R) = s3 at lb
  have l1 := l1.trans lb
  generalize A.map (fun x => ((none : Option Nat), x.1.va, x.2.2)) = hx
  obtain ⟨g1, g2, g3, g4⟩ := hashAdd_frame s3 c.p.launch c.p.core hx
  generalize s3.hashAdd c.p.launch c.p.core hx = s4 at g1 g2 g3 g4
  generalize A.map (fun x => (x.1.va, x.2.1)) = hy
  have l2 := logOnly_oldHash s4 c.p.launch c.p.core hy
  generalize s4.oldHashAdd c.p.launch c.p.core hy = s5 at l2
  generalize (max (List.foldl (fun m b => max m b.lev) 0 (A.flatMap (fun x => x.1.bytes))) (max (c.w.predLevel c.px.mp) (if c.keeps = true then dataLevel d n c else 0))) = lv
  obtain ⟨m, rl, wr, hz, hp⟩ := put_eq c d n ((lanesOf c.m).map (fun l => (l, wordsOf (old l)))) lv
  have hreg := put_written c d n (fun l => wordsOf (old l)) lv hn hm
  generalize c.put d n ((lanesOf c.m).map (fun l => (l, wordsOf (old l)))) lv = w0 at hp hreg ⊢
  obtain ⟨fs, hfl⟩ := orLanes_eq w0 ((lanesOf c.m).map (fun l => (l, f.fl c l (natLE (old l)))))
  have hflags : ∀ k, k < 64 → (w0.orLanes ((lanesOf c.m).map (fun l => (l, f.fl c l (natLE (old l)))))).flagsOf k =
      if c.m.getLsbD k then w0.flagsOf k ||| f.fl c k (natLE (old k)) else w0.flagsOf k := fun k hk => flags_orMask _ _ _ hk
  generalize w0.orLanes ((lanesOf c.m).map (fun l => (l, f.fl c l (natLE (old l))))) = w1 at hfl hflags ⊢
  have h1 : OnlyUnit s5 (s5.setWarp c.u w1) c.u := onlyUnit_setWarp _ _ _
  have hw1 : kget (s5.setWarp c.u w1).warps c.u = some w1 := by simp
  generalize s5.setWarp c.u w1 = s6 at h1 hw1 ⊢
  generalize (((lanesOf c.m).map (fun l => (l, wordsOf (old l)))).isEmpty && !(c.px.zp && c.rest != 0)) = bb
  obtain ⟨s7, hs7⟩ : ∃ s7, s7 = if bb = true then s6 else s6.linResult c.p.core c.u (c.w.wbase + d) n [] none := ⟨_, rfl⟩
  rw [← hs7]
  obtain ⟨h2, l, hz7, hw2⟩ : OnlyUnit s6 s7 c.u ∧ ∃ l hz, kget s7.warps c.u = some { w1 with lin := l, haz := hz } := by
    rw [hs7]
    split
    · exact ⟨.refl _ _, w1.lin, w1.haz, hw1⟩
    · obtain ⟨a, b⟩ := linResult_frame s6 c.p.core c.u (c.w.wbase + d) n [] none
      exact ⟨a, b _ hw1⟩
  obtain ⟨h3, hd⟩ := done_frame s7 c c.is.mask
  obtain ⟨fr, nn, tt, x, hw3, hadv⟩ := hd _ hw2
  have hq := (h1.trans h2).trans h3
  have e1 := l1.eq
  have e2 := l2.eq
  obtain ⟨x1, x2, x3, x4, e1⟩ := e1
  obtain ⟨y1, y2, y3, y4, e2⟩ := e2
  refine ⟨fun hl a => ?_, fun k o => ?_, fun v hv => ?_, fun v => ?_, _, hw3, ?_, ?_, ?_, ?_, ?_⟩
  · rw [hq.memory]
    obtain ⟨z1, z2⟩ := l1.mem hl
    obtain ⟨z3, z4⟩ := g4 z2
    obtain ⟨z5, -⟩ := l2.mem (by rw [z4]; exact z2)
    unfold State.hByte
    rw [z5, z3, z1]
  · rw [hq.scratch]
    unfold State.spadByte
    rw [e2]; simp only; rw [g3, e1]
  · rw [hq.others v hv, e2]; simp only; rw [g2, e1]
  · have h1 := congrArg Core.cv (hq.core v)
    simp only [Core.seen] at h1
    rw [h1, e2]
    have := g1 v
    rw [e1] at this
    exact this
  · rw [hfl, hp]; rfl
  · refine ⟨fun j l hj hl => ?_, fun r l hl hr => ?_⟩
    · rw [← hreg.1 j l hj hl, hfl]; rfl
    · rw [← hreg.2 r l hl hr, hfl]; rfl
  · intro k hk
    have := hflags k hk
    rw [hfl, hp] at this ⊢
    exact this
  · intro p; rw [hfl, hp]; rfl
  · rw [hfl, hp] at hadv ⊢
    exact hadv h.alive

theorem wordsOf_length (bs : List Byte) : (wordsOf bs).length = bs.length / 4 := by simp [wordsOf]

theorem atomOp_atomics (i : Instr) (b a d : BitVec 7) (n : Nat) (f : AtomForm) (he : ∀ s, exec i s = atomOp i s b a d n f)
    (hb : f.bytes = 4 * n) : Atomics i b a d n f := by
  intro s c old h hq k hrep hc ho hlen
  refine ⟨_, warpOp_next h _ (he s), atomGo_result h a.toNat d.toNat n f _ old hq hrep hc ho (fun l hl => ?_)⟩
  rw [wordsOf_length, hlen l hl, hb]; omega

/-- Only a block's scratchpad, and watches, have changed. -/
structure SpadOnly (s t : State) (blk : Nat) : Prop where
  eq : ∃ bs cs, t = { s with blocks := bs, cores := cs }
  other : ∀ k off, k ≠ blk → t.spadByte k off = s.spadByte k off
  there : (kget s.blocks blk).isSome = true → (kget t.blocks blk).isSome = true

theorem SpadOnly.refl (s : State) (blk : Nat) : SpadOnly s s blk := ⟨⟨_, _, rfl⟩, fun _ _ _ => rfl, id⟩
theorem SpadOnly.trans {a b c : State} {blk : Nat} (h : SpadOnly a b blk) (k : SpadOnly b c blk) : SpadOnly a c blk := by
  obtain ⟨⟨x, y, e⟩, ho, ht⟩ := h
  obtain ⟨⟨x', y', e'⟩, ho', ht'⟩ := k
  exact ⟨⟨x', y', by rw [e', e]⟩, fun k o hk => (ho' k o hk).trans (ho k o hk), fun h => ht' (ht h)⟩

theorem spadWrite_spec (s : State) (blk off : Nat) (v : Byte) (h : (kget s.blocks blk).isSome = true) :
    SpadOnly s (s.spadWrite blk off v) blk ∧ ∀ o, (s.spadWrite blk off v).spadByte blk o = if o = off then v else s.spadByte blk o := by
  obtain ⟨x, hx⟩ := Option.isSome_iff_exists.1 h
  unfold State.spadWrite
  rw [hx]
  simp only
  have hk : ∀ (t : State) c l, ∃ cs, t.killUnit c l = { t with cores := cs } := by
    intro s c l; unfold State.killUnit; split
    · exact ⟨s.cores, rfl⟩
    · exact ⟨_, rfl⟩
  have key : ∃ cs, (s.setBlock blk { x with spad := sset 0 x.spad off v }).killBank x off =
      { s with blocks := kput s.blocks blk { x with spad := sset 0 x.spad off v }, cores := cs } := by
    obtain ⟨cs, e⟩ := foldl_frame (fun st k => State.killUnit st (x.core / 4 * 4 + k) (x.unitAt off)) (fun s a => hk s _ _) (List.range 4)
      (s.setBlock blk { x with spad := sset 0 x.spad off v })
    exact ⟨cs, e⟩
  obtain ⟨cs, e⟩ := key
  rw [e]
  refine ⟨⟨⟨_, _, rfl⟩, fun k o hk => ?_, fun _ => by simp⟩, fun o => ?_⟩
  · unfold State.spadByte
    simp only
    rw [kget_kput_ne _ _ hk]
  · unfold State.spadByte
    simp only [kget_kput_self, hx, sget_sset]

theorem pointRead_spad (p : Who) (u blk : Nat) (pt : Point) (bs : List PByte) (s : State) (h : ∀ b ∈ bs, ∃ o, b.loc = .spad blk o) :
    s.pointRead p u pt bs = (s, bs.map (fun b => match b.loc with
      | .spad k o => s.spadByte k o
      | _ => 0)) := by
  induction bs with
  | nil => rfl
  | cons b t ih =>
    obtain ⟨o, hl⟩ := h b (List.mem_cons_self ..)
    simp only [State.pointRead, hl, List.map_cons]
    rw [ih (fun x hx => h x (List.mem_cons_of_mem _ hx))]

theorem pointWrite_spad (p : Who) (u blk : Nat) (pt : Point) (unit off : Nat) (vs : List Byte) (n : Nat) (va : Nat) (hn : vs.length = n) (lv : Nat → Nat)
    (s : State) (hb : (kget s.blocks blk).isSome = true) :
    SpadOnly s (s.pointWrite p u pt unit (((List.range n).map (fun k => (⟨va + k, .spad blk (off + k), 5, lv k, true⟩ : PByte))).zip vs)) blk ∧
    ∀ o, (s.pointWrite p u pt unit (((List.range n).map (fun k => (⟨va + k, .spad blk (off + k), 5, lv k, true⟩ : PByte))).zip vs)).spadByte blk o =
      if off ≤ o ∧ o < off + n then vs.getD (o - off) 0 else s.spadByte blk o := by
  have key : ∀ (vs : List Byte) (a : Nat) (s : State), (kget s.blocks blk).isSome = true →
      SpadOnly s (s.pointWrite p u pt unit (((List.range' a vs.length).map (fun k => (⟨va + k, .spad blk (off + k), 5, lv k, true⟩ : PByte))).zip vs)) blk ∧
      ∀ o, (s.pointWrite p u pt unit (((List.range' a vs.length).map (fun k => (⟨va + k, .spad blk (off + k), 5, lv k, true⟩ : PByte))).zip vs)).spadByte blk o =
        if off + a ≤ o ∧ o < off + a + vs.length then vs.getD (o - off - a) 0 else s.spadByte blk o := by
    intro vs
    induction vs with
    | nil =>
      intro a s _
      refine ⟨.refl _ _, fun o => ?_⟩
      rw [if_neg (by simp)]; rfl
    | cons v t ih =>
      intro a s hs
      simp only [List.length_cons, List.range'_succ, List.map_cons, List.zip_cons_cons, State.pointWrite]
      obtain ⟨q1, q2⟩ := spadWrite_spec s blk (off + a) v hs
      obtain ⟨r1, r2⟩ := ih (a + 1) _ (q1.there hs)
      refine ⟨q1.trans r1, fun o => ?_⟩
      rw [r2 o, q2 o]
      by_cases h1 : o = off + a
      · subst h1
        rw [if_neg (by omega), if_pos rfl, if_pos (by omega)]
        simp
      · rw [if_neg h1]
        by_cases h2 : off + (a + 1) ≤ o ∧ o < off + (a + 1) + t.length
        · rw [if_pos h2, if_pos (by omega)]
          have e : o - off - a = (o - off - (a + 1)) + 1 := by omega
          rw [e, List.getD_cons_succ]
        · rw [if_neg h2, if_neg (by omega)]
  have := key vs 0 s hb
  rw [hn, ← List.range_eq_range'] at this
  simpa using this

theorem bytesLE_length (n v : Nat) : (bytesLE n v).length = n := by
  induction n generalizing v with
  | zero => rfl
  | succ n ih => simp [bytesLE, ih]

/-- One lane's update of its own scratchpad. -/
theorem rmw_own (s0 s : State) (p : Who) (u scope : Nat) (va n : Nat) (g : Nat → Nat) (hn : 0 < n) (blk : Nat)
    (hb : (kget s.blocks blk).isSome = true) :
    let r := s.rmw p u scope (ownBytes s0 blk va n) g
    let old := natLE ((List.range n).map (fun j => s.spadByte blk (va % 2 ^ 48 + j)))
    SpadOnly s r.1 blk ∧ r.2.1 = old ∧
      ∀ o, r.1.spadByte blk o = if va % 2 ^ 48 ≤ o ∧ o < va % 2 ^ 48 + n then (bytesLE n (g old % 2 ^ (8 * n))).getD (o - va % 2 ^ 48) 0 else s.spadByte blk o := by
  have hlen : (ownBytes s0 blk va n).length = n := by simp [ownBytes]
  have hp : pointOf p scope (ownBytes s0 blk va n) = .spad := by
    obtain ⟨m, rfl⟩ : ∃ m, n = m + 1 := ⟨n - 1, by omega⟩
    unfold ownBytes pointOf
    rw [List.range_succ_eq_map]
    rfl
  have hl : ∀ b ∈ ownBytes s0 blk va n, ∃ o, b.loc = .spad blk o := by
    intro x hx
    unfold ownBytes at hx
    obtain ⟨k, -, rfl⟩ := List.mem_map.1 hx
    exact ⟨_, rfl⟩
  have hr : (ownBytes s0 blk va n).map (fun b => match b.loc with
      | .spad k o => s.spadByte k o
      | _ => 0) = (List.range n).map (fun j => s.spadByte blk (va % 2 ^ 48 + j)) := by
    unfold ownBytes; rw [List.map_map]; rfl
  unfold State.rmw
  simp only
  rw [hp, if_neg (by simp), pointRead_spad p u blk _ _ s hl, hlen]
  simp only
  rw [hr]
  generalize natLE ((List.range n).map (fun j => s.spadByte blk (va % 2 ^ 48 + j))) = old
  obtain ⟨q1, q2⟩ := pointWrite_spad p u blk .spad (s.unitNow (((ownBytes s0 blk va n).head?).elim 0 (·.va)) n 0) (va % 2 ^ 48) (bytesLE n (g old % 2 ^ (8 * n))) n va (bytesLE_length _ _)
    (fun k => (kget s0.blocks blk).elim 0 (fun b => b.levAt (va % 2 ^ 48 + k))) s hb
  exact ⟨q1, rfl, q2⟩

/-- The lanes of an atomic on the own scratchpad, one after another. -/
theorem atomLanes_own (s0 : State) (c : Ctx) (f : AtomForm) (va : Nat → Nat) (hn : 0 < f.bytes) (ls : List Nat) (s : State)
    (m : Nat → Byte) (hm : ∀ o, s.spadByte c.p.blk o = m o) (hb : (kget s.blocks c.p.blk).isSome = true) :
    let r := s.atomLanes c f (ls.map (fun l => ⟨l, va l, .ok (ownBytes s0 c.p.blk (va l) f.bytes)⟩))
    let q := updates f.bytes (fun l => va l % 2 ^ 48) (f.op c) ls m
    SpadOnly s r.1 c.p.blk ∧ (∀ o, r.1.spadByte c.p.blk o = q.1 o) ∧
      r.2.map (fun x => (x.1.lane, x.2.1)) = q.2.map (fun x => (x.1, bytesLE f.bytes x.2)) := by
  induction ls generalizing s m with
  | nil => exact ⟨.refl _ _, hm, rfl⟩
  | cons l t ih =>
    simp only [List.map_cons, State.atomLanes, State.atomLane, LaneRes.bytes, updates]
    obtain ⟨q1, q2, q3⟩ := rmw_own s0 s c.p c.u (scopeOf c.px 4) (va l) f.bytes (f.op c l) hn c.p.blk hb
    have ho : natLE ((List.range f.bytes).map (fun j => s.spadByte c.p.blk (va l % 2 ^ 48 + j))) =
        natLE ((List.range f.bytes).map (fun j => m (va l % 2 ^ 48 + j))) := by
      congr 1; apply List.map_congr_left; intro j _; exact hm _
    rw [ho] at q2 q3
    obtain ⟨r1, r2, r3⟩ := ih (s.rmw c.p c.u (scopeOf c.px 4) (ownBytes s0 c.p.blk (va l) f.bytes) (f.op c l)).1
      (fun o => if va l % 2 ^ 48 ≤ o ∧ o < va l % 2 ^ 48 + f.bytes then
        (bytesLE f.bytes (f.op c l (natLE ((List.range f.bytes).map (fun j => m (va l % 2 ^ 48 + j)))) % 2 ^ (8 * f.bytes))).getD (o - va l % 2 ^ 48) 0 else m o)
      (fun o => by rw [q3 o, hm o]) (q1.there hb)
    refine ⟨q1.trans r1, r2, ?_⟩
    rw [r3, q2]
    have hlen : (ownBytes s0 c.p.blk (va l) f.bytes).length = f.bytes := by simp [ownBytes]
    rw [hlen]

theorem updates_lanes (n : Nat) (addr : Nat → Nat) (op : Nat → Nat → Nat) (ls : List Nat) (m : Nat → Byte) :
    (updates n addr op ls m).2.map (·.1) = ls := by
  induction ls generalizing m with
  | nil => rfl
  | cons l t ih => simp only [updates, List.map_cons, ih]

theorem natLE_lt (bs : List Byte) : natLE bs < 2 ^ (8 * bs.length) := by
  induction bs with
  | nil => simp [natLE]
  | cons b t ih =>
    have := b.isLt
    simp only [natLE, List.length_cons, Nat.mul_add, pow_add]
    omega

theorem natLE_bytesLE (n v : Nat) (h : v < 2 ^ (8 * n)) : natLE (bytesLE n v) = v := by
  induction n generalizing v with
  | zero => simp at h; simp [bytesLE, natLE, h]
  | succ n ih =>
    simp only [bytesLE, natLE, BitVec.toNat_ofNat]
    rw [ih]
    · omega
    · rw [Nat.mul_add, pow_add] at h; omega

theorem updates_lt (n : Nat) (addr : Nat → Nat) (op : Nat → Nat → Nat) (ls : List Nat) (m : Nat → Byte) :
    ∀ x ∈ (updates n addr op ls m).2, x.2 < 2 ^ (8 * n) := by
  induction ls generalizing m with
  | nil => intro x hx; cases hx
  | cons l t ih =>
    intro x hx
    simp only [updates, List.mem_cons] at hx
    rcases hx with rfl | hx
    · have := natLE_lt ((List.range n).map (fun j => m (addr l + j)))
      simpa using this
    · exact ih _ x hx

theorem killAll_frame' (addr : Nat → Nat) (n : Nat) (c : Ctx) (ls : List Nat) (s : State) :
    ∃ cs, ls.foldl (fun st l => st.killAt c.p (addr l) n) s = { s with cores := cs } := by
  induction ls generalizing s with
  | nil => exact ⟨s.cores, rfl⟩
  | cons a t ih =>
    rw [List.foldl_cons]
    obtain ⟨c1, h1⟩ := killAt_frame s c.p (addr a) n
    obtain ⟨c2, h2⟩ := ih (s.killAt c.p (addr a) n)
    exact ⟨c2, by rw [h2, h1]⟩

theorem atomOp_scratch (i : Instr) (b a d : BitVec 7) (n : Nat) (f : AtomForm) (he : ∀ s, exec i s = atomOp i s b a d n f)
    (hb : f.bytes = 4 * n) (hd : f.bytes ∣ 2 ^ 48) (hpos : 0 < f.bytes) : AtomicsScratch i b a d n f := by
  intro s c h hq hrec hrep hs hrl hlev
  obtain ⟨x, hx, hlr, -, -⟩ := h.block
  obtain ⟨cs, e1⟩ := killAll_frame' (fun l => (c.rd64 a.toNat l).toNat) f.bytes c (lanesOf c.m) (s.setWarp c.u c.w)
  obtain ⟨s1, hs1⟩ : ∃ s1 : State, s1 = { s.setWarp c.u c.w with cores := cs } := ⟨_, rfl⟩
  have hck : f.checks a.toNat (atomLevel b.toNat n) c s = (s1,
      (lanesOf c.m).map (fun l => ⟨l, (c.rd64 a.toNat l).toNat, .ok (ownBytes s1 c.p.blk (c.rd64 a.toNat l).toNat f.bytes)⟩)) := by
    unfold AtomForm.checks
    simp only
    rw [e1, ← hs1]
    exact checkLanes_own s1 c .atomic (by decide) true false f.bytes (fun l => c.rd64 a.toNat l) (fun _ => atomLevel b.toNat n c) (lanesOf c.m) x c.lr
      (by rw [hs1]; exact hx) (by rw [hs1]; exact hlr) hd (by rw [hs1]; exact hrl)
      (fun l hl => hs l (mem_lanesOf.1 hl).2) (fun _ l hl k hk => hlev x hx l (mem_lanesOf.1 hl).2 k hk)
  have hl1 : ∀ l, kget s1.launches c.p.launch = some l → l.lr = c.lr := by
    intro l hl
    have := h.launch
    unfold State.lrOf at this
    rw [hs1] at hl
    have hl : kget s.launches c.p.launch = some l := hl
    rw [hl] at this
    simpa using this
  obtain ⟨r1, r2, r3⟩ := atomLanes_own s1 c f (fun l => (c.rd64 a.toNat l).toNat) hpos (lanesOf c.m) s1 (s.spadByte c.p.blk)
    (fun o => by rw [hs1]; rfl) (by rw [hs1]; show (kget s.blocks c.p.blk).isSome = true; rw [hx]; rfl)
  intro q old
  have hold : ∀ l, l < 64 → q.2.find? (fun x => x.1 == l) = if c.m.getLsbD l then some (l, old l) else none := by
    intro l hl
    have hmap : q.2.map (·.1) = lanesOf c.m := updates_lanes ..
    cases hf : q.2.find? (fun x => x.1 == l) with
    | none =>
      split
      · rename_i hm
        have : l ∈ q.2.map (·.1) := by rw [hmap]; exact mem_lanesOf.2 ⟨hl, hm⟩
        obtain ⟨y, hy, e⟩ := List.mem_map.1 this
        rw [List.find?_eq_none] at hf
        exact absurd (by simp [e]) (hf y hy)
      · rfl
    | some y =>
      have h1 : y.1 = l := by simpa using List.find?_some hf
      have h2 : l ∈ lanesOf c.m := by rw [← hmap, ← h1]; exact List.mem_map.2 ⟨y, List.mem_of_find?_eq_some hf, rfl⟩
      rw [if_pos (mem_lanesOf.1 h2).2]
      simp only [old, hf, Option.map_some, Option.getD_some]
      rw [← h1]
  have hfind : ∀ x ∈ q.2, x.2 = old x.1 := by
    have hnd : (q.2.map (·.1)).Nodup := by rw [updates_lanes]; exact lanesOf_nodup _
    intro x hx
    have : q.2.find? (fun y => y.1 == x.1) = some x := by
      clear hold r2 r3
      simp only [old] at *
      clear old
      generalize q.2 = L at hx hnd
      induction L with
      | nil => cases hx
      | cons y t ih =>
        rcases List.mem_cons.1 hx with rfl | hx
        · simp
        · simp only [List.map_cons, List.nodup_cons] at hnd
          have : y.1 ≠ x.1 := by
            intro e; exact hnd.1 (List.mem_map.2 ⟨x, hx, e.symm⟩)
          rw [List.find?_cons_of_neg (by simp [this])]
          exact ih hx hnd.2
    simp only [old, this, Option.map_some, Option.getD_some]
  obtain ⟨t, h1, h2⟩ := atomOp_atomics i b a d n f he hb s c (fun l => bytesLE f.bytes (old l)) h hq
    (by rw [hck]; intro l hl; rw [hl1 l hl]; exact hrep)
    (by
      rw [hck]; intro y hy; obtain ⟨l, -, rfl⟩ := List.mem_map.1 hy
      refine ⟨rfl, ?_⟩
      unfold isOut
      rw [List.any_eq_false]
      intro z hz
      simp only [LaneRes.bytes, ownBytes] at hz
      obtain ⟨k, -, rfl⟩ := List.mem_map.1 hz
      simp)
    (by
      rw [hck]; intro y hy
      have hmem : (y.1.lane, y.2.1) ∈ q.2.map (fun x => (x.1, bytesLE f.bytes x.2)) := by
        rw [← r3]; exact List.mem_map.2 ⟨y, hy, rfl⟩
      obtain ⟨z, hz, e⟩ := List.mem_map.1 hmem
      simp only [Prod.mk.injEq] at e
      rw [← e.2, hfind z hz, e.1])
    (by intro l _; exact bytesLE_length _ _)
  rw [hck] at h2
  refine ⟨t, h1, fun y => ?_, fun off => ?_, fun k off hk => ?_, fun v hv => ?_, ?_⟩
  · obtain ⟨bs, cs', e⟩ := r1.eq
    have hz : ∀ l, kget (s1.atomLanes c f ((lanesOf c.m).map (fun l => ⟨l, (c.rd64 a.toNat l).toNat, .ok (ownBytes s1 c.p.blk (c.rd64 a.toNat l).toNat f.bytes)⟩))).1.launches c.p.launch = some l → l.lr.record = false ∧ l.lr.replay = false := by
      intro l hl; rw [e] at hl; rw [hl1 l hl]; exact ⟨hrec, hrep⟩
    rw [h2.memory hz, e, hs1]; rfl
  · rw [h2.scratch, r2]
  · rw [h2.scratch, r1.other k off hk, hs1]; rfl
  · rw [h2.others v hv]
    obtain ⟨bs, cs', e⟩ := r1.eq
    rw [e, hs1]
    exact kget_kput_ne _ _ hv
  · obtain ⟨w, w1, w2, w3, w4, w5, w6⟩ := h2.unit
    refine ⟨w, w1, w2, w3, ?_, w5, w6⟩
    intro l hl
    rw [w4 l hl]
    by_cases hm : c.m.getLsbD l = true
    · have : natLE (bytesLE f.bytes (old l)) = old l := by
        apply natLE_bytesLE
        have h1 := hold l hl
        rw [if_pos hm] at h1
        exact updates_lt _ _ _ _ _ _ (List.mem_of_find?_eq_some h1)
      simp only [this]
    · simp only [hm, Bool.false_eq_true, if_false]

end Sys2Proof.Machine
end

