-- ==== Sys2Proof/Laws/Control.lean ====
section
/-! SUPPORT. What control does to the place of lanes: waiting, waking, leaving, branching, trapping. -/

namespace Sys2Proof.Machine

theorem trapReg_setTrapReg (w : Warp) (n k : Nat) (v : Word) : (w.setTrapReg n v).trapReg k = if k = n then v else w.trapReg k := by
  unfold Warp.setTrapReg Warp.trapReg
  rw [sget_sset]

/-- What `trapState` writes (R304). -/
theorem trapState_taken (w : Warp) (m : Mask) (t : Trap) (h : t.spc = none) :
    TrapTaken w (w.trapState m t) t.cause t.info t.pc t.addr m ∧ ∃ tr, w.trapState m t = { w with trap := tr } := by
  have e : w.trapState m t = (((((((w.setTrapReg 34 (BitVec.ofNat 32 t.cause)).setTrapReg 35 (BitVec.ofNat 32 t.info)).setTrapReg 36 (BitVec.ofNat 32 t.pc.toNat)).setTrapReg 37
      (BitVec.ofNat 32 (t.pc.toNat / 2 ^ 32))).setTrapReg 38 (BitVec.ofNat 32 t.addr)).setTrapReg 39 (BitVec.ofNat 32 (t.addr / 2 ^ 32))).setTrapReg 40
      (BitVec.ofNat 32 m.toNat)).setTrapReg 41 (BitVec.ofNat 32 (m.toNat / 2 ^ 32)) := by
    unfold Warp.trapState; rw [h]; rfl
  have lo : ∀ x : BitVec 64, BitVec.ofNat 32 x.toNat = x.extractLsb' 0 32 := by
    intro x; apply BitVec.eq_of_toNat_eq; simp
  have hi : ∀ x : BitVec 64, BitVec.ofNat 32 (x.toNat / 2 ^ 32) = x.extractLsb' 32 32 := by
    intro x; apply BitVec.eq_of_toNat_eq
    simp [Nat.shiftRight_eq_div_pow]
  refine ⟨?_, ?_⟩
  · rw [e]
    unfold TrapTaken
    simp only [trapReg_setTrapReg, lo, hi]
    refine ⟨by simp, by simp, by simp, by simp, by simp, by simp, by simp, by simp, ?_⟩
    intro n hn
    have : n ≠ 34 ∧ n ≠ 35 ∧ n ≠ 36 ∧ n ≠ 37 ∧ n ≠ 38 ∧ n ≠ 39 ∧ n ≠ 40 ∧ n ≠ 41 := by omega
    obtain ⟨a, b, c, d, e, f, g, h⟩ := this
    simp [a, b, c, d, e, f, g, h]
  · rw [e]
    have one : ∀ (a b : Warp) n v, (∃ tr, b = { a with trap := tr }) → ∃ tr, b.setTrapReg n v = { a with trap := tr } := by
      rintro a b n v ⟨tr, rfl⟩; exact ⟨_, rfl⟩
    exact one _ _ _ _ (one _ _ _ _ (one _ _ _ _ (one _ _ _ _ (one _ _ _ _ (one _ _ _ _ (one _ _ _ _ (one w w _ _ ⟨w.trap, rfl⟩)))))))

/-- Lanes that leave the turn change the fairness state alone. -/
theorem leaveTurn_eq (w : Warp) (m : Mask) : ∃ n t, w.leaveTurn m = { w with fair := n, turn := t } := by
  unfold Warp.leaveTurn
  split
  · split <;> exact ⟨_, _, rfl⟩
  · exact ⟨w.fair, w.turn, rfl⟩

/-- Lanes take a trap and the others go on. -/
theorem takeTrap_any {s : State} {c : Ctx} (hal : c.w.ended = false) (s0 : State) (m stay : Mask) (t : Trap) (hs0 : OnlyUnit s s0 c.u)
    (hwho : s0.who c.u = some c.p) (hlr : s0.lrOf c.p.launch = some c.lr) (w : Warp) (hw0 : kget s0.warps c.u = some w)
    (hww : ∃ hz, w = { c.w with haz := hz }) (hm : m ≠ 0) (hte : c.lr.trapentry ≠ 0) (hh : c.w.hlanes = 0) (hsp : t.spc = none)
    (hd : ∀ l, m.getLsbD l = true → stay.getLsbD l = false) (at_ : DWord) :
    Traps s ((s0.takeTrap c.u m at_ t).done c stay) c m stay t.cause t.info t.pc t.addr := by
  obtain ⟨hz, hww⟩ := hww
  have hend : w.ended = false := by rw [hww]; exact hal
  have hhl : w.hlanes = 0 := by rw [hww]; exact hh
  obtain ⟨l, hl, hlr'⟩ : ∃ l, kget s0.launches c.p.launch = some l ∧ l.lr = c.lr := by
    unfold State.lrOf at hlr
    cases hk : kget s0.launches c.p.launch with
    | none => rw [hk] at hlr; cases hlr
    | some l => rw [hk] at hlr; exact ⟨l, rfl, by simpa using hlr⟩
  obtain ⟨tt, tr, htr⟩ := trapState_taken w m t hsp
  have e : s0.takeTrap c.u m at_ t = s0.setWarp c.u (({ (w.trapState m t).leaveTurn m with hlanes := m, locked := true } : Warp).move m (BitVec.ofNat 64 c.lr.trapentry) .ready) := by
    unfold State.takeTrap
    rw [hw0, hwho]
    simp only [Option.bind_some, hl]
    rw [if_neg (by simp only [hend, Bool.or_false, decide_eq_true_eq]; exact hm), hlr', if_neg hte, hhl, if_neg (by simp), if_neg (by simp)]
  rw [e]
  obtain ⟨v, hv⟩ : ∃ v, v = ({ (w.trapState m t).leaveTurn m with hlanes := m, locked := true } : Warp) := ⟨_, rfl⟩
  rw [← hv]
  obtain ⟨n0, t0, hlt⟩ := leaveTurn_eq (w.trapState m t) m
  rw [hlt] at hv
  have hmv := move_moved v m (BitVec.ofNat 64 c.lr.trapentry) .ready
  obtain ⟨fr, n, tn, hme⟩ := move_eq v m (BitVec.ofNat 64 c.lr.trapentry) .ready
  generalize v.move m (BitVec.ofNat 64 c.lr.trapentry) .ready = v2 at hmv hme ⊢
  have o1 := onlyUnit_setWarp s0 c.u v2
  have hw1 : kget (s0.setWarp c.u v2).warps c.u = some v2 := by simp
  generalize s0.setWarp c.u v2 = s1 at o1 hw1 ⊢
  obtain ⟨o2, hd2⟩ := done_frame s1 c stay
  obtain ⟨fr2, n2, t2, x2, hw2, hadv⟩ := hd2 _ hw1
  refine ⟨(hs0.trans o1).trans o2, _, hw2, ?_, ?_, ?_, ?_, ?_, ?_⟩
  · have e1 : ∀ k, Warp.trapReg { v2 with frontier := fr2, fair := n2, turn := t2, xw := x2 } k = (w.trapState m t).trapReg k := by
      intro k; rw [hme, hv]; rfl
    have e2 : ∀ k, w.trapReg k = c.w.trapReg k := by intro k; rw [hww]; rfl
    unfold TrapTaken at *
    simp only [e1]
    simpa only [e2] using tt
  · rw [hme, hv]
  · intro r l; rw [hme, hv, htr, hww]; rfl
  · intro p; rw [hme, hv, htr, hww]; rfl
  · intro l; rw [hme, hv, htr, hww]; rfl
  · intro l p q
    have hvs : ∀ a b c, v.stands a b c = Warp.stands w a b c := by intro a b c; rw [hv, htr]; rfl
    have hws : ∀ a b d, w.stands a b d = c.w.stands a b d := by intro a b d; rw [hww]; rfl
    have ha := hadv (by rw [hme, hv, htr]; exact hend)
    unfold Advances at ha
    have hm1 := hmv l p q
    rw [hvs, hws] at hm1
    by_cases hd0 : c.is.depth = 0
    · rw [if_pos hd0] at ha
      rw [ha l p q, hm1]
      simp only [hd0, and_true]
      by_cases hml : m.getLsbD l = true
      · simp [hml, hd l hml]
      · simp [hml]
    · rw [if_neg hd0] at ha
      have : Warp.stands { v2 with frontier := fr2, fair := n2, turn := t2, xw := x2 } l p q ↔ v2.stands l p q := by
        unfold Warp.stands; rw [ha]
      rw [this, hm1]
      simp [hd0]

/-- The same for an instruction that issues. -/
theorem takeTrap_done {i : Instr} {s : State} {c : Ctx} (h : Issues i s c) (s0 : State) (m stay : Mask) (t : Trap) (hs0 : OnlyUnit s s0 c.u)
    (hwho : s0.who c.u = some c.p) (hlr : s0.lrOf c.p.launch = some c.lr) (w : Warp) (hw0 : kget s0.warps c.u = some w)
    (hww : ∃ hz, w = { c.w with haz := hz }) (hm : m ≠ 0) (hte : c.lr.trapentry ≠ 0) (hh : c.w.hlanes = 0) (hsp : t.spc = none)
    (hd : ∀ l, m.getLsbD l = true → stay.getLsbD l = false) (at_ : DWord) :
    Traps s ((s0.takeTrap c.u m at_ t).done c stay) c m stay t.cause t.info t.pc t.addr :=
  takeTrap_any h.alive s0 m stay t hs0 hwho hlr w hw0 hww hm hte hh hsp hd at_

theorem who_setWarp {s : State} {u : Nat} {p : Who} (h : s.who u = some p) (w w0 : Warp) (hw : kget s.warps u = some w0)
    (hb : w.blk = w0.blk ∧ w.tile = w0.tile ∧ w.wid = w0.wid) : (s.setWarp u w).who u = some p := by
  unfold State.who at *
  rw [hw] at h
  simp only [setWarp_warps, kget_kput_self, setWarp_blocks, setWarp_launches] at *
  rw [hb.1, hb.2.1, hb.2.2]; exact h

/-- After the front end, the unit is who it was. -/
theorem Issues.who_set {i : Instr} {s : State} {c : Ctx} (h : Issues i s c) : (s.setWarp c.u c.w).who c.u = some c.p := by
  obtain ⟨w, hw, -, -, -, -, g, -, -, hcw⟩ := h.warp
  exact who_setWarp h.owner c.w w hw (by rw [hcw]; exact ⟨rfl, rfl, rfl⟩)

theorem Issues.lr_set {i : Instr} {s : State} {c : Ctx} (h : Issues i s c) : (s.setWarp c.u c.w).lrOf c.p.launch = some c.lr := h.launch

/-- An instruction that only advances. -/
theorem done_passes {s s0 : State} {c : Ctx} (w : Warp) (hs0 : OnlyUnit s s0 c.u) (hw : kget s0.warps c.u = some w) (hu : Untouched c w)
    (hf : w.frontier = c.w.frontier) (he : w.ended = false) (stay : Mask) : Passes s (s0.done c stay) c stay := by
  obtain ⟨o, hd⟩ := done_frame s0 c stay
  obtain ⟨fr, n, t, x, hw2, hadv⟩ := hd _ hw
  refine ⟨hs0.trans o, _, hw2, ⟨?_, hu.2.1, hu.2.2.1, hu.2.2.2⟩, ?_⟩
  · exact hu.1
  · have ha := hadv he
    unfold Advances Moved Warp.stands at *
    rw [hf] at ha
    exact ha

/-! ### Branches -/

theorem dedup_mem {α : Type} [DecidableEq α] (l : List α) (x : α) : x ∈ dedup l ↔ x ∈ l := by
  induction l with
  | nil => simp [dedup]
  | cons a t ih =>
    simp only [dedup, List.mem_cons, List.mem_filter, ih]
    by_cases h : x = a <;> simp [h]

theorem stands_targets (ts : List (DWord × Mask)) (stamp : Nat) (fr : List Entry) (l : Nat) (p : DWord) (q : EntSt) :
    standsIn (ts.foldl (fun (fr : List Entry) (t : DWord × Mask) => fInsert ⟨t.1, t.2, .ready, stamp, false, t.1⟩ fr) fr) l p q ↔
      (∃ t ∈ ts, t.2.getLsbD l = true ∧ t.1 = p ∧ q = .ready) ∨ standsIn fr l p q := by
  induction ts generalizing fr with
  | nil => simp
  | cons a t ih =>
    rw [List.foldl_cons, ih, standsIn_insert]
    simp only [List.mem_cons, exists_eq_or_imp]
    constructor
    · rintro (h | ⟨h1, h2, h3⟩ | h)
      · exact .inl (.inr h)
      · exact .inl (.inl ⟨h1, h2, h3.symm⟩)
      · exact .inr h
    · rintro ((⟨h1, h2, h3⟩ | h) | h)
      · exact .inr (.inl ⟨h1, h2, h3.symm⟩)
      · exact .inl h
      · exact .inr (.inr h)

theorem branch_result (s0 : State) (c : Ctx) (tgt : Nat → DWord) (stay : Mask) (w : Warp) (hw : kget s0.warps c.u = some w)
    (hd : ∀ l, c.m.getLsbD l = true → stay.getLsbD l = false) :
    OnlyUnit s0 (s0.branch c ((lanesOf c.m).map (fun l => (l, tgt l))) stay) c.u ∧
    ∃ w', kget (s0.branch c ((lanesOf c.m).map (fun l => (l, tgt l))) stay).warps c.u = some w' ∧
      (∃ fr n t, w' = { w with frontier := fr, fair := n, turn := t }) ∧ Branched c w w' tgt stay := by
  unfold State.branch
  refine ⟨((onlyUnit_cur _ _ none).trans (onlyUnit_modWarp _ _ _)).trans (onlyUnit_stepOver ..), ?_⟩
  rw [stepDone_warps]
  simp only [State.modWarp, kmod_some _ hw, kget_kput_self]
  refine ⟨_, rfl, ?_⟩
  have hcb : ∀ v : Warp, (∃ n, v.countBackward c.is.mask c.is.pc = { v with fair := n }) := by
    intro v; unfold Warp.countBackward; split
    · exact ⟨_, rfl⟩
    · exact ⟨v.fair, rfl⟩
  have hbe : ∀ (v : Warp) m, (∃ n t, v.branchEndsTurn m = { v with fair := n, turn := t }) := by
    intro v m; unfold Warp.branchEndsTurn; split
    · split
      · exact ⟨v.fair, v.turn, rfl⟩
      · exact ⟨_, _, rfl⟩
    · exact ⟨v.fair, v.turn, rfl⟩
  obtain ⟨w1, hw1⟩ : ∃ w1, w1 = (if ((lanesOf c.m).map (fun l => (l, tgt l))).any (fun x => decide (x.2.toNat ≤ c.is.wpc.toNat)) = true then w.countBackward c.is.mask c.is.pc else w) := ⟨_, rfl⟩
  have e1 : ∃ n, w1 = { w with fair := n } := by
    rw [hw1]; split
    · exact hcb w
    · exact ⟨w.fair, rfl⟩
  rw [← hw1]
  obtain ⟨n1, e1⟩ := e1
  obtain ⟨n2, t2, e2⟩ := hbe w1 c.is.mask
  generalize w1.branchEndsTurn c.is.mask = w2 at e2 ⊢
  have hfr : w2.frontier = w.frontier := by rw [e2, e1]
  generalize (w2.entryOf c.is.mask).elim 0 (·.stamp) = stamp
  rw [hfr]
  have hmap : ((lanesOf c.m).map (fun l => (l, tgt l))).map Prod.fst = lanesOf c.m := by
    rw [List.map_map]; exact List.map_id _
  rw [hmap]
  generalize hF : List.foldl _ _ (byTarget _) = F
  obtain ⟨n3, t3, e3⟩ := setFrontier_eq w2 F
  refine ⟨⟨F, n3, t3, by rw [e3, e2, e1]⟩, ?_⟩
  intro l p q
  have hst : (w2.setFrontier F).stands l p q ↔ standsIn F l p q := by unfold Warp.stands; rw [e3]
  rw [hst, ← hF, stands_targets]
  have hmm : (maskOf (lanesOf c.m) ||| stay).getLsbD l = (c.m.getLsbD l || stay.getLsbD l) := by
    rw [BitVec.getLsbD_or, getLsbD_maskOf _ (fun k hk => (mem_lanesOf.1 hk).1)]
    by_cases hl : l < 64
    · simp [mem_lanesOf, hl]
    · have : c.m.getLsbD l = false := BitVec.getLsbD_of_ge _ _ (by omega)
      simp [mem_lanesOf, hl, this]
  have hts : (∃ t ∈ byTarget ((lanesOf c.m).map (fun l => (l, tgt l))), t.2.getLsbD l = true ∧ t.1 = p ∧ q = .ready) ↔
      (c.m.getLsbD l = true ∧ p = tgt l ∧ q = .ready) := by
    unfold byTarget
    have hmask : ∀ d, (maskOf ((((lanesOf c.m).map (fun l => (l, tgt l))).filter (fun x => x.2 = d)).map (·.1))).getLsbD l = true ↔
        c.m.getLsbD l = true ∧ tgt l = d := by
      intro d
      rw [getLsbD_maskOf]
      · simp only [decide_eq_true_eq, List.mem_map, List.mem_filter]
        constructor
        · rintro ⟨x, ⟨⟨y, hy, rfl⟩, hx⟩, rfl⟩
          exact ⟨(mem_lanesOf.1 hy).2, by simpa using hx⟩
        · rintro ⟨h1, h2⟩
          have hl : l < 64 := by
            by_contra hc
            rw [BitVec.getLsbD_of_ge _ _ (by omega)] at h1; cases h1
          exact ⟨(l, tgt l), ⟨⟨l, mem_lanesOf.2 ⟨hl, h1⟩, rfl⟩, by simpa using h2⟩, rfl⟩
      · intro k hk
        obtain ⟨x, hx, rfl⟩ := List.mem_map.1 hk
        obtain ⟨y, hy, rfl⟩ := List.mem_map.1 (List.mem_filter.1 hx).1
        exact (mem_lanesOf.1 hy).1
    constructor
    · rintro ⟨t, ht, h1, h2, h3⟩
      obtain ⟨d, -, rfl⟩ := List.mem_map.1 ht
      have := (hmask d).1 h1
      exact ⟨this.1, by rw [this.2, ← h2], h3⟩
    · rintro ⟨h1, h2, h3⟩
      have hl : l < 64 := by
        by_contra hc
        rw [BitVec.getLsbD_of_ge _ _ (by omega)] at h1; cases h1
      refine ⟨_, List.mem_map.2 ⟨tgt l, ?_, rfl⟩, (hmask _).2 ⟨h1, rfl⟩, h2.symm, h3⟩
      rw [dedup_mem]
      exact List.mem_map.2 ⟨(l, tgt l), List.mem_map.2 ⟨l, mem_lanesOf.2 ⟨hl, h1⟩, rfl⟩, rfl⟩
  rw [hts]
  have hbase : standsIn (if stay = 0 then fRemove (maskOf (lanesOf c.m) ||| stay) w.frontier else
      fInsert ⟨c.is.npc, stay, .ready, stamp, false, c.is.npc⟩ (fRemove (maskOf (lanesOf c.m) ||| stay) w.frontier)) l p q ↔
      (stay.getLsbD l = true ∧ c.is.npc = p ∧ EntSt.ready = q) ∨ (c.m.getLsbD l = false ∧ stay.getLsbD l = false ∧ w.stands l p q) := by
    split
    · rename_i h0
      have h00 : (0 : Mask).getLsbD l = false := BitVec.getLsbD_zero
      rw [standsIn_remove, hmm, h0, h00]
      simp only [Bool.or_false, Bool.false_eq_true, false_and, false_or, true_and]
      exact Iff.rfl
    · rw [standsIn_insert, standsIn_remove, hmm, Bool.or_eq_false_iff, and_assoc]
      rfl
  rw [hbase]
  cases hm : c.m.getLsbD l with
  | true =>
    have := hd l hm
    simp [this]
  | false =>
    cases hs : stay.getLsbD l with
    | true =>
      simp only [Bool.false_eq_true, false_and, false_or, true_and, if_false, if_true, Bool.true_eq_false, and_false, or_false]
      constructor
      · rintro ⟨a, b⟩; exact ⟨a.symm, b.symm⟩
      · rintro ⟨a, b⟩; exact ⟨a.symm, b.symm⟩
    | false => simp

theorem rest_disj (c : Ctx) : ∀ l, c.m.getLsbD l = true → c.rest.getLsbD l = false := by
  intro l hl
  have := (getLsbD_andNot c.is.mask c.m l).not
  unfold Ctx.rest
  cases h : (c.is.mask &&& ~~~c.m).getLsbD l with
  | false => rfl
  | true => rw [((getLsbD_andNot _ _ _).1 h).2] at hl; cases hl

theorem unit_setWarp (s : State) (u : Nat) (w : Warp) : kget (s.setWarp u w).warps u = some w := by simp

/-- The link. -/

theorem link_result {i : Instr} {s : State} {c : Ctx} (h : Issues i s c) (d : BitVec 7) (m : Mask) (hm : m = c.m) :
    OnlyUnit s ((s.setWarp c.u c.w).link c d m) c.u ∧ ∃ w, kget ((s.setWarp c.u c.w).link c d m).warps c.u = some w ∧ w.shell = c.w.shell ∧
      w.frontier = c.w.frontier ∧ w.ended = c.w.ended ∧ (∀ p, w.pred p = c.w.pred p) ∧ (∀ l, w.flagsOf l = c.w.flagsOf l) ∧
      RegsWritten c w d.toNat 2 (fun _ => words64 (c.is.wpc + 4)) := by
  subst hm
  unfold State.link
  simp only
  have hc : ({ c with m := c.m } : Ctx) = c := rfl
  rw [hc]
  obtain ⟨m, rl, wr, hz, hp⟩ := put_eq c d.toNat 2 ((lanesOf c.m).map (fun l => (l, words64 (c.is.wpc + 4)))) (c.level 0)
  have hreg := put_written c d.toNat 2 (fun _ => words64 (c.is.wpc + 4)) (c.level 0) (fun _ _ => rfl) h.mask_le
  generalize c.put d.toNat 2 ((lanesOf c.m).map (fun l => (l, words64 (c.is.wpc + 4)))) (c.level 0) = w0 at hp hreg ⊢
  have o1 := (onlyUnit_setWarp s c.u c.w).trans (onlyUnit_setWarp _ c.u w0)
  have hw0 := unit_setWarp (s.setWarp c.u c.w) c.u w0
  generalize (s.setWarp c.u c.w).setWarp c.u w0 = s1 at o1 hw0 ⊢
  split
  · exact ⟨o1, w0, hw0, by rw [hp]; rfl, by rw [hp], by rw [hp], fun p => by rw [hp]; rfl, fun l => by rw [hp]; rfl, hreg⟩
  · obtain ⟨a, b⟩ := linResult_frame s1 c.p.core c.u (c.w.wbase + d.toNat) 2 [] none
    obtain ⟨l, hz2, hl⟩ := b _ hw0
    exact ⟨o1.trans a, _, hl, by rw [hp]; rfl, by rw [hp], by rw [hp], fun p => by rw [hp]; rfl, fun l => by rw [hp]; rfl,
      fun j l a b => hreg.1 j l a b, fun r l a b => hreg.2 r l a b⟩

theorem branch_after_link {i : Instr} {s s0 : State} {c : Ctx} (tgt : Nat → DWord) (o0 : OnlyUnit s s0 c.u) (w : Warp)
    (hw : kget s0.warps c.u = some w) (hsh : w.shell = c.w.shell) (hfr : w.frontier = c.w.frontier) :
    ∃ w', kget (s0.branch c ((lanesOf c.m).map (fun l => (l, tgt l))) c.rest).warps c.u = some w' ∧ w'.shell = c.w.shell ∧
      OnlyUnit s (s0.branch c ((lanesOf c.m).map (fun l => (l, tgt l))) c.rest) c.u ∧ Branched c c.w w' tgt c.rest ∧
      (∀ p, w'.pred p = w.pred p) ∧ (∀ l, w'.flagsOf l = w.flagsOf l) ∧ (∀ r l, w'.reg r l = w.reg r l) := by
  obtain ⟨o, w', hw', ⟨fr, n, t, e⟩, hb⟩ := branch_result s0 c tgt c.rest w hw (rest_disj c)
  refine ⟨w', hw', by rw [e, ← hsh]; rfl, o0.trans o, ?_, fun p => by rw [e]; rfl, fun l => by rw [e]; rfl, fun r l => by rw [e]; rfl⟩
  intro l p q
  have := hb l p q
  unfold Warp.stands at *
  rw [hfr] at this
  exact this

theorem good_split (c : Ctx) (a : BitVec 7) (hg : ∀ l, c.m.getLsbD l = true → (c.rd64 a.toNat l).toNat % 4 = 0 ∧ (c.rd64 a.toNat l).toNat < 2 ^ 57)
    (ok : DWord → Bool) (hok : ok = fun t => t.toNat % 4 == 0 && decide (t.toNat < top57)) :
    ((lanesOf c.m).map (fun l => (l, c.rd64 a.toNat l))).filter (fun x => ok x.2) = (lanesOf c.m).map (fun l => (l, c.rd64 a.toNat l)) ∧
    ((lanesOf c.m).map (fun l => (l, c.rd64 a.toNat l))).filter (fun x => !ok x.2) = [] := by
  have : ∀ x ∈ (lanesOf c.m).map (fun l => (l, c.rd64 a.toNat l)), ok x.2 = true := by
    intro x hx
    obtain ⟨l, hl, rfl⟩ := List.mem_map.1 hx
    obtain ⟨h1, h2⟩ := hg l (mem_lanesOf.1 hl).2
    rw [hok]
    simp only [h1, beq_self_eq_true, Bool.true_and]
    exact decide_eq_true h2
  exact ⟨List.filter_eq_self.2 this, List.filter_eq_nil_iff.2 (fun x hx => by simp [this x hx])⟩

theorem advances_of {c : Ctx} {a b w' : Warp} {stay : Mask} (h : Advances c a w' stay) (e : a.frontier = b.frontier) : Advances c b w' stay := by
  unfold Advances Moved Warp.stands at *; rw [e] at h; exact h

theorem mod_done {i : Instr} {s : State} {c : Ctx} (h : Issues i s c) (g : Warp → Warp) (stay : Mask)
    (hf : (g c.w).frontier = c.w.frontier) (he : (g c.w).ended = c.w.ended) :
    OnlyUnit s ((((s.setWarp c.u c.w).modWarp c.u g)).done c stay) c.u ∧ ∃ fr n t x,
      kget ((((s.setWarp c.u c.w).modWarp c.u g)).done c stay).warps c.u = some { g c.w with frontier := fr, fair := n, turn := t, xw := x } ∧
      Advances c c.w { g c.w with frontier := fr, fair := n, turn := t, xw := x } stay := by
  have hw : kget ((s.setWarp c.u c.w).modWarp c.u g).warps c.u = some (g c.w) := by
    simp [State.modWarp]
  obtain ⟨o, hd⟩ := done_frame ((s.setWarp c.u c.w).modWarp c.u g) c stay
  obtain ⟨fr, n, t, x, h1, h2⟩ := hd _ hw
  refine ⟨((onlyUnit_setWarp _ _ _).trans (onlyUnit_modWarp _ _ _)).trans o, fr, n, t, x, h1, advances_of (h2 (he.trans h.alive)) hf⟩

theorem untouched_rfl (c : Ctx) : Untouched c c.w := ⟨rfl, fun _ _ => rfl, fun _ => rfl, fun _ => rfl⟩

/-- Lanes start to wait. -/

theorem hold_done' {i : Instr} {s : State} {c : Ctx} (h : Issues i s c) (k : WaitCause) (m stay : Mask) (g : Warp → Warp) (hg : g c.w = c.w.hold m c.is.pc c.is.npc k) (hd : ∀ l, m.getLsbD l = true → stay.getLsbD l = false) :
    Waits s (((s.setWarp c.u c.w).modWarp c.u g).done c stay) c m stay k := by
  obtain ⟨fr0, n0, t0, e0⟩ := hold_eq c.w m c.is.pc c.is.npc k
  have hm := hold_moved c.w m c.is.pc c.is.npc k
  have hw : kget ((s.setWarp c.u c.w).modWarp c.u g).warps c.u = some (c.w.hold m c.is.pc c.is.npc k) := by
    simp [State.modWarp, hg]
  obtain ⟨o, hdn⟩ := done_frame ((s.setWarp c.u c.w).modWarp c.u g) c stay
  obtain ⟨fr, n, t, x, h1, h2⟩ := hdn _ hw
  have h2 := h2 (by rw [e0]; exact h.alive)
  refine ⟨((onlyUnit_setWarp _ _ _).trans (onlyUnit_modWarp _ _ _)).trans o, _, h1, ?_, ?_⟩
  · rw [e0]; exact ⟨rfl, fun _ _ => rfl, fun _ => rfl, fun _ => rfl⟩
  · intro l p q
    have hm := hm l p q
    unfold Advances at h2
    split at h2
    · rename_i hdep
      rw [h2 l p q, hm]
      simp only [hdep, and_true]
      cases hml : m.getLsbD l with
      | true => simp [hd l hml]
      | false => simp
    · rename_i hdep
      simp only [hdep, and_false, if_false]
      rw [← hm]
      unfold Warp.stands; rw [h2]

theorem hold_done {i : Instr} {s : State} {c : Ctx} (h : Issues i s c) (k : WaitCause) (m stay : Mask) (hd : ∀ l, m.getLsbD l = true → stay.getLsbD l = false) :
    Waits s (((s.setWarp c.u c.w).modWarp c.u (fun w => w.hold m c.is.pc c.is.npc k)).done c stay) c m stay k :=
  hold_done' h k m stay _ rfl hd

theorem or_fold (fr : List Entry) (m : Mask) (l : Nat) :
    (fr.foldl (fun m e => m ||| e.mask) m).getLsbD l = true ↔ m.getLsbD l = true ∨ ∃ e ∈ fr, e.mask.getLsbD l = true := by
  induction fr generalizing m with
  | nil => simp
  | cons a t ih =>
    rw [List.foldl_cons, ih, BitVec.getLsbD_or, Bool.or_eq_true]
    simp only [List.mem_cons, exists_eq_or_imp]
    constructor
    · rintro ((h | h) | h); exacts [.inl h, .inr (.inl h), .inr (.inr h)]
    · rintro (h | h | h); exacts [.inl (.inl h), .inl (.inr h), .inr h]

theorem live_iff (w : Warp) (l : Nat) : w.live.getLsbD l = true ↔ ∃ p q, w.stands l p q := by
  unfold Warp.live Warp.stands standsIn
  rw [or_fold]
  simp only [BitVec.ofNat_eq_ofNat, BitVec.getLsbD_zero, Bool.false_eq_true, false_or]
  constructor
  · rintro ⟨e, he, h⟩; exact ⟨e.pc, e.st, e, he, h, rfl, rfl⟩
  · rintro ⟨p, q, e, he, h, -, -⟩; exact ⟨e, he, h⟩

theorem live_of_stands {w : Warp} {l : Nat} {p : DWord} {q : EntSt} (h : w.stands l p q) : w.live.getLsbD l = true :=
  (live_iff w l).2 ⟨p, q, h⟩

theorem live_moved {w w' : Warp} {m : Mask} {p : DWord} {q : EntSt} (h : Moved w w' m p q) (l : Nat) :
    w'.live.getLsbD l = true ↔ m.getLsbD l = true ∨ w.live.getLsbD l = true := by
  rw [live_iff, live_iff]
  constructor
  · rintro ⟨a, b, h1⟩
    rw [h l a b] at h1
    split at h1
    · exact .inl ‹_›
    · exact .inr ⟨a, b, h1⟩
  · intro h1
    by_cases hm : m.getLsbD l = true
    · exact ⟨p, q, (h l p q).2 (by simp [hm])⟩
    · obtain ⟨a, b, h2⟩ := h1.resolve_left hm
      exact ⟨a, b, (h l a b).2 (by rw [if_neg hm]; exact h2)⟩

/-- The same lanes are live, and nothing but the frontier and the fairness state differs. -/

def Rearranged (w w' : Warp) : Prop :=
  (∃ fr n t k, w' = { w with frontier := fr, fair := n, turn := t, locked := k }) ∧ ∀ l, w'.live.getLsbD l = w.live.getLsbD l

theorem Rearranged.refl (w : Warp) : Rearranged w w := ⟨⟨_, _, _, _, rfl⟩, fun _ => rfl⟩

theorem Rearranged.trans {a b c : Warp} (h : Rearranged a b) (k : Rearranged b c) : Rearranged a c := by
  obtain ⟨⟨f, n, t, b, e⟩, h⟩ := h
  obtain ⟨⟨f', n', t', b', e'⟩, k⟩ := k
  exact ⟨⟨f', n', t', b', by rw [e', e]⟩, fun l => (k l).trans (h l)⟩

theorem move_rearranged (w : Warp) (m : Mask) (pc : DWord) (st : EntSt) (h : ∀ l, m.getLsbD l = true → w.live.getLsbD l = true) :
    Rearranged w (w.move m pc st) := by
  refine ⟨?_, fun l => ?_⟩
  · obtain ⟨fr, n, t, e⟩ := move_eq w m pc st
    exact ⟨fr, n, t, w.locked, e⟩
  have := live_moved (move_moved w m pc st) l
  rw [Bool.eq_iff_iff, this]
  exact ⟨fun k => k.elim (h l) id, .inr⟩

theorem moves_rearranged (es : List Entry) (pc : Entry → DWord) (st : EntSt) (w : Warp)
    (h : ∀ e ∈ es, ∀ l, e.mask.getLsbD l = true → w.live.getLsbD l = true) :
    Rearranged w (es.foldl (fun w e => w.move e.mask (pc e) st) w) := by
  induction es generalizing w with
  | nil => exact .refl w
  | cons a t ih =>
    rw [List.foldl_cons]
    have h1 := move_rearranged w a.mask (pc a) st (h a (by simp))
    exact h1.trans (ih _ (fun e he l hl => by rw [h1.2]; exact h e (by simp [he]) l hl))

theorem entry_live (w : Warp) {e : Entry} (he : e ∈ w.frontier) {l : Nat} (hl : e.mask.getLsbD l = true) : w.live.getLsbD l = true :=
  live_of_stands ⟨e, he, hl, rfl, rfl⟩

/-- An interlock rearranges nothing. -/
theorem locked_rearranged (w : Warp) (k : Bool) : Rearranged w { w with locked := k } := ⟨⟨_, _, _, _, rfl⟩, fun _ => rfl⟩

theorem wake_rearranged (w : Warp) (p : Entry → Bool) : Rearranged w (w.wake p) := by
  have key : ∀ (es : List Entry) (v : Warp), (∀ e ∈ es, ∀ l, e.mask.getLsbD l = true → v.live.getLsbD l = true) →
      Rearranged v (es.foldl (fun w e => { w.move e.mask e.next .ready with locked := true }) v) := by
    intro es
    induction es with
    | nil => exact fun v _ => .refl v
    | cons a t ih =>
      intro v h
      rw [List.foldl_cons]
      have h1 := (move_rearranged v a.mask a.next .ready (h a (by simp))).trans (locked_rearranged _ true)
      exact h1.trans (ih _ (fun e he l hl => by rw [h1.2]; exact h e (by simp [he]) l hl))
  exact key _ w (fun e he l hl => entry_live w (List.mem_filter.1 he).1 hl)

theorem wake_none (w : Warp) (p : Entry → Bool) (h : ∀ e ∈ w.frontier, p e = false) : w.wake p = w := by
  unfold Warp.wake
  rw [List.filter_eq_nil_iff.2 (fun e he => by simp [h e he])]
  rfl

theorem remove_all (w : Warp) : fRemove w.live w.frontier = [] := by
  unfold fRemove
  rw [List.filter_eq_nil_iff]
  intro x hx
  obtain ⟨e, he, rfl⟩ := List.mem_map.1 hx
  have : e.mask &&& ~~~w.live = 0 := by
    apply BitVec.eq_of_getLsbD_eq
    intro l hl
    rw [show (0 : BitVec 64).getLsbD l = false from BitVec.getLsbD_zero]
    cases h : (e.mask &&& ~~~w.live).getLsbD l with
    | false => rfl
    | true =>
      obtain ⟨a, b⟩ := (getLsbD_andNot _ _ _).1 h
      rw [entry_live w he a] at b; cases b
  simp [this]

theorem rest_zero (c : Ctx) (h : c.is.mask = c.m) : c.rest = 0 := by
  apply BitVec.eq_of_getLsbD_eq
  intro l hl
  rw [show (0 : BitVec 64).getLsbD l = false from BitVec.getLsbD_zero]
  cases k : c.rest.getLsbD l with
  | false => rfl
  | true =>
    have := rest_disj c l
    rw [k, ← h] at this
    unfold Ctx.rest at k
    have := (getLsbD_andNot _ _ _).1 k
    simp_all

theorem advances_zero {c : Ctx} {w w' : Warp} (h : Advances c w w' 0) (l : Nat) (p : DWord) (q : EntSt) : w'.stands l p q ↔ w.stands l p q := by
  unfold Advances at h
  split at h
  · rw [h l p q]; simp
  · unfold Warp.stands; rw [h]

theorem hold_frontier (w : Warp) (m : Mask) (pc next : DWord) (k : WaitCause) (hm : m ≠ 0) :
    ∃ stamp, (w.hold m pc next k).frontier = fInsert ⟨pc, m, .waiting k, stamp, false, next⟩ (fRemove m w.frontier) := by
  unfold Warp.hold
  rw [if_neg hm]
  simp only
  obtain ⟨n, t, e⟩ := setFrontier_eq w (fInsert ⟨pc, m, .waiting k, (w.frontier.find? (fun e => (e.mask &&& m) != 0)).elim 0 (·.stamp), false, next⟩ (fRemove m w.frontier))
  rw [e]
  exact ⟨_, rfl⟩

theorem drained_nil {c : Ctx} (h : c.w.queues = []) (m : Mask) : c.w.drained m = true := by
  unfold Warp.drained; rw [h]; rfl

theorem join_unit {s : State} {c : Ctx} (g : Warp → Warp) (h : Issues .join s c) (stay : Mask) (he : (g c.w).ended = c.w.ended) :
    OnlyUnit s ((((s.setWarp c.u c.w).modWarp c.u g)).done c stay) c.u ∧ ∃ fr n t x,
      kget ((((s.setWarp c.u c.w).modWarp c.u g)).done c stay).warps c.u = some { g c.w with frontier := fr, fair := n, turn := t, xw := x } ∧
      Advances c (g c.w) { g c.w with frontier := fr, fair := n, turn := t, xw := x } stay := by
  have hw : kget ((s.setWarp c.u c.w).modWarp c.u g).warps c.u = some (g c.w) := by
    simp [State.modWarp]
  obtain ⟨o, hd⟩ := done_frame ((s.setWarp c.u c.w).modWarp c.u g) c stay
  obtain ⟨fr, n, t, x, h1, h2⟩ := hd _ hw
  exact ⟨((onlyUnit_setWarp _ _ _).trans (onlyUnit_modWarp _ _ _)).trans o, fr, n, t, x, h1, h2 (he.trans h.alive)⟩

/-- Memory, scratchpads and what each unit holds but its place stay; no lane stops being live. -/

structure Keeps (s t : State) : Prop where
  memory : ∀ a, t.hByte a = s.hByte a
  scratch : ∀ k off, t.spadByte k off = s.spadByte k off
  units : ∀ u w, kget s.warps u = some w → ∃ w', kget t.warps u = some w' ∧ Rearranged w w'

theorem Keeps.refl (s : State) : Keeps s s := ⟨fun _ => rfl, fun _ _ => rfl, fun _ w h => ⟨w, h, .refl w⟩⟩

theorem Keeps.trans {a b c : State} (h : Keeps a b) (k : Keeps b c) : Keeps a c := by
  refine ⟨fun x => (k.memory x).trans (h.memory x), fun x y => (k.scratch x y).trans (h.scratch x y), fun u w hw => ?_⟩
  obtain ⟨w1, h1, r1⟩ := h.units u w hw
  obtain ⟨w2, h2, r2⟩ := k.units u w1 h1
  exact ⟨w2, h2, r1.trans r2⟩

theorem keeps_modWarp (s : State) (u : Nat) (f : Warp → Warp) (hf : ∀ w, Rearranged w (f w)) : Keeps s (s.modWarp u f) := by
  refine ⟨fun _ => rfl, fun _ _ => rfl, fun v w hw => ?_⟩
  by_cases hv : v = u
  · subst hv; exact ⟨f w, by rw [modWarp_warps, kget_kmod_self, hw]; rfl, hf w⟩
  · exact ⟨w, by rw [modWarp_warps, kget_kmod_ne _ _ hv, hw], .refl w⟩

theorem keeps_cores (s : State) (cs : List (Nat × Core)) : Keeps s { s with cores := cs } :=
  ⟨fun _ => rfl, fun _ _ => rfl, fun _ w h => ⟨w, h, .refl w⟩⟩

theorem spad_modBlock (s : State) (b : Nat) (f : Block → Block) (hf : ∀ x, (f x).spad = x.spad) (k off : Nat) :
    (s.modBlock b f).spadByte k off = s.spadByte k off := by
  unfold State.spadByte State.modBlock
  dsimp only
  by_cases hk : k = b
  · subst hk; rw [kget_kmod_self]; cases kget s.blocks k <;> simp [hf]
  · rw [kget_kmod_ne _ _ hk]

theorem keeps_fold {α : Type} (f : State → α → State) (hf : ∀ s a, Keeps s (f s a)) (l : List α) (s : State) : Keeps s (l.foldl f s) := by
  induction l generalizing s with
  | nil => exact .refl s
  | cons a t ih => exact (hf s a).trans (ih _)

theorem barJudge_keeps (s : State) (blk id : Nat) : Keeps s (s.barJudge blk id) := by
  unfold State.barJudge
  split
  · exact .refl s
  · rename_i b _
    split
    · exact .refl s
    · split_ifs
      all_goals first
        | exact .refl s
        | dsimp only
          obtain ⟨cs, hc⟩ := acquire_frame s b.core ((s.lrOf b.launch).elim 0 LaunchRec.blockScope)
          rw [hc]
          refine (keeps_cores s cs).trans ((keeps_fold (fun (st : State) u => st.modWarp u (fun w => w.wake (fun e => decide (e.st = .waiting (.bar id))))) (fun s u => keeps_modWarp s u _ (fun w => wake_rearranged w _)) b.warps _).trans ?_)
          exact ⟨fun _ => rfl, fun k off => by apply spad_modBlock; intro x; rfl, fun u w h => ⟨w, h, .refl w⟩⟩

theorem barJudgeAll_keeps (s : State) (blk : Nat) : Keeps s (s.barJudgeAll blk) := by
  unfold State.barJudgeAll
  split
  · exact .refl s
  · exact keeps_fold _ (fun s (x : Nat × Bar) => barJudge_keeps s blk x.1) _ s

/-- Leaving the handler moves parked lanes. -/

theorem leaveHandler_live (w : Warp) (m : Mask) :
    (∃ fr n t k, w.leaveHandler m = { w with frontier := fr, fair := n, turn := t, locked := k, hlanes := w.hlanes &&& ~~~m }) ∧
      ∀ l, (w.leaveHandler m).live.getLsbD l = w.live.getLsbD l := by
  unfold Warp.leaveHandler
  dsimp only
  split
  · rename_i h
    generalize hk : (w.locked || !(w.frontier.filter (fun e => decide (e.st = .parked .handler))).isEmpty) = k0
    obtain ⟨⟨fr, n, t, k, e⟩, hl⟩ := moves_rearranged (w.frontier.filter (fun e => decide (e.st = .parked .handler))) (fun e => e.pc) .ready
      { w with hlanes := 0, locked := k0 } (fun e he l hl => entry_live w (List.mem_filter.1 he).1 hl)
    exact ⟨⟨fr, n, t, k, by rw [e, h.1]⟩, hl⟩
  · exact ⟨⟨w.frontier, w.fair, w.turn, w.locked, rfl⟩, fun _ => rfl⟩

theorem stands_bp (fr : List Entry) (p : Entry → Bool) (l : Nat) (pc : DWord) (st : EntSt) :
    standsIn (replaceIf p (fun e => { e with bpSkip := true }) fr) l pc st ↔ standsIn fr l pc st := by
  induction fr with
  | nil => rfl
  | cons a t ih =>
    unfold replaceIf at *
    simp only [List.map_cons, standsIn_cons]
    rw [ih]
    split <;> rfl

theorem moves_zero (es : List Entry) (pc : Entry → DWord) (st : EntSt) (w : Warp) (h : ∀ e ∈ es, e.mask = 0) :
    es.foldl (fun w e => w.move e.mask (pc e) st) w = w := by
  induction es generalizing w with
  | nil => rfl
  | cons a t ih =>
    rw [List.foldl_cons, h a (by simp)]
    have : w.move 0 (pc a) st = w := by unfold Warp.move; simp
    rw [this]; exact ih w (fun e he => h e (by simp [he]))

theorem mask_zero {m : Mask} (h : ∀ l, m.getLsbD l = false) : m = 0 := by
  apply BitVec.eq_of_getLsbD_eq
  intro l _
  rw [h, show (0 : BitVec 64).getLsbD l = false from BitVec.getLsbD_zero]

theorem cv_kill (s : State) (v line k : Nat) : ((s.cvDrop v line).core k).cv = if k = v then kdel (s.core v).cv line else (s.core k).cv := by
  unfold State.cvDrop
  rw [cv_killLine]
  by_cases hk : k = v
  · subst hk; rw [if_pos rfl]; simp
  · rw [if_neg hk, core_modCore_ne _ _ hk]

theorem cv_drops (ls : List Nat) (v : Nat) (s : State) :
    (∀ k, k ≠ v → ((ls.foldl (fun st l => st.cvDrop v l) s).core k).cv = (s.core k).cv) ∧
    ∀ line x, kget ((ls.foldl (fun st l => st.cvDrop v l) s).core v).cv line = some x → line ∉ ls ∧ kget (s.core v).cv line = some x := by
  induction ls generalizing s with
  | nil => exact ⟨fun _ _ => rfl, fun _ _ h => ⟨by simp, h⟩⟩
  | cons a t ih =>
    obtain ⟨h1, h2⟩ := ih (s.cvDrop v a)
    rw [List.foldl_cons]
    refine ⟨fun k hk => (h1 k hk).trans (by rw [cv_kill, if_neg hk]), fun line x hx => ?_⟩
    obtain ⟨h3, h4⟩ := h2 line x hx
    rw [cv_kill, if_pos rfl, kget_kdel] at h4
    split at h4
    · cases h4
    · exact ⟨by simp [h3]; assumption, h4⟩

theorem storesFence_eq (w : Warp) (m : Mask) (scope : Nat) (pc : DWord) :
    (∃ q, w.storesFence m scope pc = { w with queues := q }) ∧
    ∀ l, l < 64 → sget [] (w.storesFence m scope pc).queues l = sget [] w.queues l ++ if m.getLsbD l then [⟨[], some scope, none, 0, pc, 0, 0⟩] else [] := by
  unfold Warp.storesFence
  have key : ∀ (ls : List Nat) (w : Warp), ls.Nodup →
      (∃ q, ls.foldl (fun w l => w.enqueue l ⟨[], some scope, none, 0, pc, 0, 0⟩) w = { w with queues := q }) ∧
      ∀ l, sget [] (ls.foldl (fun w l => w.enqueue l ⟨[], some scope, none, 0, pc, 0, 0⟩) w).queues l =
        sget [] w.queues l ++ if l ∈ ls then [⟨[], some scope, none, 0, pc, 0, 0⟩] else [] := by
    intro ls
    induction ls with
    | nil => intro w _; exact ⟨⟨_, rfl⟩, fun l => by simp⟩
    | cons a t ih =>
      intro w hn
      rw [List.nodup_cons] at hn
      obtain ⟨⟨q, e⟩, h⟩ := ih (w.enqueue a ⟨[], some scope, none, 0, pc, 0, 0⟩) hn.2
      rw [List.foldl_cons]
      refine ⟨⟨q, by rw [e]; rfl⟩, fun l => ?_⟩
      rw [h l]
      unfold Warp.enqueue
      dsimp only
      rw [sget_sset]
      by_cases hl : l = a
      · subst hl; simp [hn.1]
      · simp [hl]
  obtain ⟨h1, h2⟩ := key (lanesOf m) w (lanesOf_nodup m)
  refine ⟨h1, fun l hl => (h2 l).trans ?_⟩
  simp [mem_lanesOf, hl]

def endWarp (w : Warp) : Warp := { w with frontier := [], ended := true, tx := none, xw := none, hlanes := 0, turn := none, fair := 0 }

theorem endFold (us : List Nat) (s : State) :
    let f : State → Nat → State := fun st v => match kget st.warps v with
      | some w =>
        let st := match w.tx with
          | some t => st.txDrop t
          | none => st
        st.setWarp v { w with frontier := [], ended := true, tx := none, xw := none, hlanes := 0, turn := none, fair := 0 }
      | none => st
    (us.foldl f s).mem = s.mem ∧ (us.foldl f s).blocks = s.blocks ∧
    (∀ u w, kget s.warps u = some w → ∃ w', kget (us.foldl f s).warps u = some w' ∧ w'.queues = w.queues ∧
      (u ∈ us ∨ (w.frontier = [] ∧ w.ended = true ∧ w.tx = none) → w'.frontier = [] ∧ w'.ended = true ∧ w'.tx = none)) := by
  intro f
  induction us generalizing s with
  | nil => exact ⟨rfl, rfl, fun u w h => ⟨w, h, rfl, by simp⟩⟩
  | cons a t ih =>
    obtain ⟨h1, h2, h3⟩ := ih (f s a)
    rw [List.foldl_cons]
    have hb : (f s a).mem = s.mem ∧ (f s a).blocks = s.blocks ∧ ∀ u w, kget s.warps u = some w → ∃ w', kget (f s a).warps u = some w' ∧ w'.queues = w.queues ∧
        (u = a ∨ (w.frontier = [] ∧ w.ended = true ∧ w.tx = none) → w'.frontier = [] ∧ w'.ended = true ∧ w'.tx = none) := by
      show _ ∧ _ ∧ _
      dsimp only [f]
      cases ha : kget s.warps a with
      | none =>
        refine ⟨rfl, rfl, fun u w hw => ⟨w, hw, rfl, ?_⟩⟩
        rintro (rfl | h)
        · rw [ha] at hw; cases hw
        · exact h
      | some wa =>
        dsimp only
        have hst : ∀ st : State, st.warps = s.warps → st.mem = s.mem → st.blocks = s.blocks → (st.setWarp a (endWarp wa)).mem = s.mem ∧ (st.setWarp a (endWarp wa)).blocks = s.blocks ∧
            ∀ u w, kget s.warps u = some w → ∃ w', kget (st.setWarp a (endWarp wa)).warps u = some w' ∧ w'.queues = w.queues ∧
              (u = a ∨ (w.frontier = [] ∧ w.ended = true ∧ w.tx = none) → w'.frontier = [] ∧ w'.ended = true ∧ w'.tx = none) := by
          intro st e1 e2 e3
          refine ⟨e2, e3, fun u w hw => ?_⟩
          rw [setWarp_warps, e1, kget_kput]
          by_cases hu : u = a
          · subst hu; rw [ha] at hw; cases hw; rw [if_pos rfl]; exact ⟨_, rfl, rfl, fun _ => ⟨rfl, rfl, rfl⟩⟩
          · rw [if_neg hu]; exact ⟨w, hw, rfl, fun h => h.resolve_left hu⟩
        cases wa.tx with
        | none => exact hst s rfl rfl rfl
        | some t => exact hst (s.txDrop t) rfl rfl rfl
    obtain ⟨b1, b2, b3⟩ := hb
    refine ⟨h1.trans b1, h2.trans b2, fun u w hw => ?_⟩
    obtain ⟨w1, k1, q1, c1⟩ := b3 u w hw
    obtain ⟨w2, k2, q2, c2⟩ := h3 u w1 k1
    refine ⟨w2, k2, q2.trans q1, fun h => c2 ?_⟩
    rcases h with h | h
    · rcases List.mem_cons.1 h with h | h
      · exact .inr (c1 (.inl h))
      · exact .inl h
    · exact .inr (c1 (.inr h))

end Sys2Proof.Machine
end

