-- ==== Sys2Proof/Laws/Encoding.lean ====
section
/-! SUPPORT. The formats (R127): the decoder reads every field of a word where the encoder put it. -/

namespace Sys2Proof

theorem extract_high {m n : Nat} (x : BitVec m) (y : BitVec n) {lo k : Nat} (h : n ≤ lo) :
    (x ++ y).extractLsb' lo k = x.extractLsb' (lo - n) k := by
  apply BitVec.eq_of_getLsbD_eq
  intro i hi
  simp only [BitVec.getLsbD_extractLsb', BitVec.getLsbD_append]
  rw [if_neg (by omega), show lo - n + i = lo + i - n by omega]

theorem extract_low {m n : Nat} (x : BitVec m) (y : BitVec n) {lo k : Nat} (h : lo + k ≤ n) :
    (x ++ y).extractLsb' lo k = y.extractLsb' lo k := by
  apply BitVec.eq_of_getLsbD_eq
  intro i hi
  simp only [BitVec.getLsbD_extractLsb', BitVec.getLsbD_append]
  rw [if_pos (by omega)]

theorem extract_whole {n : Nat} (x : BitVec n) : x.extractLsb' 0 n = x := by simp

/-- A lone leading bit or group of bits reads back. -/
theorem extract_top {m n : Nat} (x : BitVec m) (y : BitVec n) : (x ++ y).extractLsb' n m = x := by
  rw [extract_high x y (Nat.le_refl n), Nat.sub_self, extract_whole]

theorem decode_encFR (op : Nat) (h : op < 1024) (b a d : BitVec 7) : decode (encFR op b a d) = decFR op b a d := by
  have e1 : (encFR op b a d).extractLsb' 31 1 = 0 := by
    unfold encFR
    rw [extract_high _ _ (by omega), extract_high _ _ (by omega), extract_high _ _ (by omega), extract_high _ _ (by omega)]
    decide
  have e2 : (encFR op b a d).extractLsb' 21 10 = BitVec.ofNat 10 op := by
    unfold encFR
    rw [extract_high _ _ (by omega), extract_high _ _ (by omega), extract_high _ _ (by omega), extract_low _ _ (by omega)]
    exact extract_whole _
  have e3 : (encFR op b a d).extractLsb' 14 7 = b := by
    unfold encFR
    rw [extract_high _ _ (by omega), extract_high _ _ (by omega), extract_low _ _ (by omega)]
    exact extract_whole _
  have e4 : (encFR op b a d).extractLsb' 7 7 = a := by
    unfold encFR
    rw [extract_high _ _ (by omega), extract_low _ _ (by omega)]
    exact extract_whole _
  have e5 : (encFR op b a d).extractLsb' 0 7 = d := by
    unfold encFR
    rw [extract_low _ _ (by omega)]
    exact extract_whole _
  unfold decode
  rw [if_pos e1, e2, e3, e4, e5, BitVec.toNat_ofNat, Nat.mod_eq_of_lt h]

theorem decode_encFI (op : Nat) (h : op < 16) (i : BitVec 12) (a d : BitVec 7) : decode (encFI op i a d) = decFI op i a d := by
  have e0 : (encFI op i a d).extractLsb' 31 1 ≠ 0 := by
    unfold encFI
    rw [extract_high _ _ (by omega), extract_high _ _ (by omega), extract_high _ _ (by omega), extract_high _ _ (by omega)]
    decide
  have e1 : (encFI op i a d).extractLsb' 30 2 = 2 := by
    unfold encFI
    rw [extract_high _ _ (by omega), extract_high _ _ (by omega), extract_high _ _ (by omega), extract_high _ _ (by omega)]
    decide
  have e2 : (encFI op i a d).extractLsb' 26 4 = BitVec.ofNat 4 op := by
    unfold encFI
    rw [extract_high _ _ (by omega), extract_high _ _ (by omega), extract_high _ _ (by omega), extract_low _ _ (by omega)]
    exact extract_whole _
  have e3 : (encFI op i a d).extractLsb' 14 12 = i := by
    unfold encFI
    rw [extract_high _ _ (by omega), extract_high _ _ (by omega), extract_low _ _ (by omega)]
    exact extract_whole _
  have e4 : (encFI op i a d).extractLsb' 7 7 = a := by
    unfold encFI
    rw [extract_high _ _ (by omega), extract_low _ _ (by omega)]
    exact extract_whole _
  have e5 : (encFI op i a d).extractLsb' 0 7 = d := by
    unfold encFI
    rw [extract_low _ _ (by omega)]
    exact extract_whole _
  unfold decode
  rw [if_neg e0, if_pos e1, e2, e3, e4, e5, BitVec.toNat_ofNat, Nat.mod_eq_of_lt h]

theorem decode_encFL (op : Nat) (h : op < 16) (i : BitVec 18) (d : BitVec 7) : decode (encFL op i d) = decFL op i d := by
  have e0 : (encFL op i d).extractLsb' 31 1 ≠ 0 := by
    unfold encFL
    rw [extract_high _ _ (by omega), extract_high _ _ (by omega), extract_high _ _ (by omega)]
    decide
  have e1 : (encFL op i d).extractLsb' 30 2 ≠ 2 := by
    unfold encFL
    rw [extract_high _ _ (by omega), extract_high _ _ (by omega), extract_high _ _ (by omega)]
    decide
  have e2 : (encFL op i d).extractLsb' 29 3 = 6 := by
    unfold encFL
    rw [extract_high _ _ (by omega), extract_high _ _ (by omega), extract_high _ _ (by omega)]
    decide
  have e3 : (encFL op i d).extractLsb' 25 4 = BitVec.ofNat 4 op := by
    unfold encFL
    rw [extract_high _ _ (by omega), extract_high _ _ (by omega), extract_low _ _ (by omega)]
    exact extract_whole _
  have e4 : (encFL op i d).extractLsb' 7 18 = i := by
    unfold encFL
    rw [extract_high _ _ (by omega), extract_low _ _ (by omega)]
    exact extract_whole _
  have e5 : (encFL op i d).extractLsb' 0 7 = d := by
    unfold encFL
    rw [extract_low _ _ (by omega)]
    exact extract_whole _
  unfold decode
  rw [if_neg e0, if_neg e1, if_pos e2, e3, e4, e5, BitVec.toNat_ofNat, Nat.mod_eq_of_lt h]

theorem decode_encFS (op : Nat) (h : op < 256) (x : BitVec 20) : decode (encFS op x) = decFS op x := by
  have e0 : (encFS op x).extractLsb' 31 1 ≠ 0 := by
    unfold encFS
    rw [extract_high _ _ (by omega), extract_high _ _ (by omega)]
    decide
  have e1 : (encFS op x).extractLsb' 30 2 ≠ 2 := by
    unfold encFS
    rw [extract_high _ _ (by omega), extract_high _ _ (by omega)]
    decide
  have e2 : (encFS op x).extractLsb' 29 3 ≠ 6 := by
    unfold encFS
    rw [extract_high _ _ (by omega), extract_high _ _ (by omega)]
    decide
  have e3 : (encFS op x).extractLsb' 28 4 ≠ 14 := by
    unfold encFS
    rw [extract_high _ _ (by omega), extract_high _ _ (by omega)]
    decide
  have e4 : (encFS op x).extractLsb' 20 8 = BitVec.ofNat 8 op := by
    unfold encFS
    rw [extract_high _ _ (by omega), extract_low _ _ (by omega)]
    exact extract_whole _
  have e5 : (encFS op x).extractLsb' 0 20 = x := by
    unfold encFS
    rw [extract_low _ _ (by omega)]
    exact extract_whole _
  unfold decode
  rw [if_neg e0, if_neg e1, if_neg e2, if_neg e3, e4, e5, BitVec.toNat_ofNat, Nat.mod_eq_of_lt h]

end Sys2Proof
end

