-- ==== Sys2Proof/Laws/Records.lean ====
section
/-! SUPPORT. Reading a record, its fields and its completion words changes only the ordering machine. -/

namespace Sys2Proof.Machine

theorem onlyMem_loadByte (s : State) (p : Who) (u lane : Nat) (b : PByte) : OnlyMem s (s.loadByte p u lane b).1 := by
  have hd : ∀ die line cls, OnlyMem s (s.dieLine die line cls).1 := by
    intro die line cls
    unfold State.dieLine
    split
    · rfl
    · dsimp only
      split
      · split <;> rfl
      · rfl
  have hf : ∀ (s : State) v line cls ctx d, OnlyMem s (s.cvFill v line cls ctx d) := fun s v _ _ _ _ => onlyMem_modCore s v _
  have hr : ∀ v pa cls ctx, OnlyMem s (s.readByte v pa cls ctx).1 := by
    intro v pa cls ctx
    unfold State.readByte
    split
    · rfl
    · dsimp only
      split
      · exact (hd (viewDie v) (pa / lineBytes) cls).trans (hf _ _ _ _ _ _)
      · exact hd _ _ _
  unfold State.loadByte
  split
  · rfl
  · split
    · rfl
    · rfl
    · split
      · rfl
      · split
        · rfl
        · exact hr _ _ _ _

theorem onlyMem_loadBytes (p : Who) (u lane : Nat) (bs : List PByte) (s : State) : OnlyMem s (s.loadBytes p u lane bs).1 := by
  induction bs generalizing s with
  | nil => rfl
  | cons b t ih => exact (onlyMem_loadByte s p u lane b).trans (ih _)

theorem onlyMem_readWarp (s : State) (c : Ctx) (va n : Nat) : OnlyMem s (s.readWarp c va n).1 := by
  unfold State.readWarp
  dsimp only
  have hc := onlyMem_checkElem s c.p c.u c.low .load false false 0 (BitVec.ofNat 64 va) n
  split
  · rename_i bs _
    have hf : OnlyMem s ((linesOf bs).foldl (fun st l => st.refresh c.p.view l) (s.checkElem c.p c.u c.low .load false false 0 (BitVec.ofNat 64 va) n).1) :=
      hc.trans (.foldl _ (fun s l => onlyMem_refresh s c.p.view l) _ _)
    split
    · exact hf.trans (onlyMem_loadBytes c.p c.u c.low bs _)
    · split
      · split
        · exact hf
        · exact hf
      · exact hf
  · exact hc

theorem onlyMem_rdThen {α β : Type} {s : State} {x : Rd α} (f : State → α → Rd β) (hx : OnlyMem s x.1) (hf : ∀ s a, OnlyMem s (f s a).1) :
    OnlyMem s (rdThen x f).1 := by
  unfold rdThen
  split
  · exact hx.trans (hf _ _)
  · exact hx

theorem onlyMem_readAligned (s : State) (c : Ctx) (va n k : Nat) : OnlyMem s (s.readAligned (.warp c) va n k).1 := by
  unfold State.readAligned
  split
  · rfl
  · exact onlyMem_readWarp ..

theorem onlyMem_readTensor (s : State) (c : Ctx) (q : TensorReq) (va : Nat) : OnlyMem s (s.readTensor (.warp c) q va).1 := by
  refine onlyMem_rdThen _ (onlyMem_readAligned ..) (fun s v => ?_)
  split <;> rfl

theorem onlyMem_readCopy (s : State) (c : Ctx) (va : Nat) : OnlyMem s (s.readCopy (.warp c) va).1 := by
  refine onlyMem_rdThen _ (onlyMem_readAligned ..) (fun s v => ?_)
  split
  · rfl
  · refine onlyMem_rdThen _ (onlyMem_readTensor ..) (fun s v => ?_)
    refine onlyMem_rdThen _ (onlyMem_readTensor ..) (fun s v => ?_)
    split
    · rfl
    · split <;> rfl

theorem onlyMem_readGroup (c : Ctx) (va n : Nat) (s : State) : OnlyMem s (s.readGroup (.warp c) va n).1 := by
  induction n generalizing s with
  | zero => rfl
  | succ n ih =>
    refine onlyMem_rdThen _ (ih s) (fun s g => ?_)
    refine onlyMem_rdThen _ (onlyMem_readWarp ..) (fun s v => ?_)
    split <;> rfl

theorem onlyMem_readColl (s : State) (c : Ctx) (va : Nat) : OnlyMem s (s.readColl (.warp c) va).1 := by
  refine onlyMem_rdThen _ (onlyMem_readAligned ..) (fun s v => ?_)
  split
  · rfl
  · exact onlyMem_rdThen _ (onlyMem_readGroup ..) (fun s v => rfl)

theorem onlyMem_readDrain (s : State) (c : Ctx) (va : Nat) : OnlyMem s (s.readDrain (.warp c) va).1 := by
  refine onlyMem_rdThen _ (onlyMem_readAligned ..) (fun s v => ?_)
  split
  · rfl
  · exact onlyMem_rdThen _ (onlyMem_readTensor ..) (fun s v => rfl)

theorem onlyMem_readGranules (c : Ctx) (va n : Nat) (s : State) : OnlyMem s (s.readGranules (.warp c) va n).1 := by
  induction n generalizing s with
  | zero => rfl
  | succ n ih =>
    refine onlyMem_rdThen _ (ih s) (fun s g => ?_)
    refine onlyMem_rdThen _ (onlyMem_readWarp ..) (fun s v => ?_)
    split <;> rfl

theorem onlyMem_readDecl (s : State) (c : Ctx) (va : Nat) : OnlyMem s (s.readDecl (.warp c) va).1 := by
  refine onlyMem_rdThen _ (onlyMem_readAligned ..) (fun s v => ?_)
  dsimp only
  split
  · rfl
  · exact onlyMem_rdThen _ (onlyMem_readGranules ..) (fun s v => rfl)

theorem onlyMem_wordCheck (s : State) (p : Who) (pl : List TlbAt) (acc : Acc) (va : Nat) : OnlyMem s (s.wordCheck p pl acc va).1 := by
  have ht := onlyMem_translate s pl p.part p.ctx (va / 2 ^ 14 * 2 ^ 14) acc
  unfold State.wordCheck
  dsimp only
  split
  · rfl
  · split
    · split
      · exact ht
      · exact ht
      · split
        · exact ht
        · split <;> exact ht
    · rfl
    · rfl

theorem onlyMem_wordChecks (p : Who) (pl : List TlbAt) (ws : List (Acc × Nat)) (s : State) : OnlyMem s (s.wordChecks p pl ws).1 := by
  induction ws generalizing s with
  | nil => rfl
  | cons x t ih =>
    obtain ⟨acc, va⟩ := x
    unfold State.wordChecks
    dsimp only
    split
    · exact onlyMem_wordCheck ..
    · exact (onlyMem_wordCheck ..).trans (ih _)

theorem onlyMem_granules (c : Ctx) (gs : List Nat) (s : State) : OnlyMem s (s.granules c gs).1 := by
  induction gs generalizing s with
  | nil => rfl
  | cons g t ih =>
    have ht := onlyMem_translate s c.p.places c.p.part c.p.ctx (g * 256 / 2 ^ 14 * 2 ^ 14) .load
    unfold State.granules
    dsimp only
    split
    · exact ht
    · exact ht
    · split
      · exact ht
      · exact ht.trans (onlyMem_rdThen _ (ih _) (fun s v => rfl))

end Sys2Proof.Machine
end

