-- ==== Sys2Proof/Laws/Words.lean ====
section
/-! SUPPORT. The operand forms: what each computes, from the equation of its meaning. -/

namespace Sys2Proof.Machine

theorem Computes.congr {i : Instr} {d : BitVec 7} {n : Nat} {f g : Ctx → Nat → List Word} {fl fm : Ctx → Nat → BitVec 5}
    (h : Computes i d n f fl) (e : ∀ c l, f c l = g c l) (e2 : ∀ c l, fl c l = fm c l) : Computes i d n g fm := by
  have h1 : f = g := by funext c l; exact e c l
  have h2 : fl = fm := by funext c l; exact e2 c l
  subst h1 h2; exact h

theorem Decides.congr {i : Instr} {d : BitVec 7} {f g : Ctx → Nat → Bool} {fl fm : Ctx → Nat → BitVec 5}
    (h : Decides i d f fl) (e : ∀ c l, f c l = g c l) (e2 : ∀ c l, fl c l = fm c l) : Decides i d g fm := by
  have h1 : f = g := by funext c l; exact e c l
  have h2 : fl = fm := by funext c l; exact e2 c l
  subst h1 h2; exact h

theorem CrossLane.congr {i : Instr} {d : BitVec 7} {n : Nat} {f g : Ctx → Nat → List Word} {v u : Ctx → Nat → Bool}
    {fl fm : Ctx → BitVec 5} (h : CrossLane i d n f v fl) (e : ∀ c l, f c l = g c l) (e1 : ∀ c l, v c l = u c l)
    (e2 : ∀ c, fl c = fm c) : CrossLane i d n g u fm := by
  have h1 : f = g := by funext c l; exact e c l
  have h2 : v = u := by funext c l; exact e1 c l
  have h3 : fl = fm := by funext c; exact e2 c
  subst h1 h2 h3; exact h

theorem wordOp1_computes {i : Instr} {a d : BitVec 7} {f : Word → Word} (he : ∀ s, exec i s = wordOp1 i s a d f)
    {g : Ctx → Nat → Word} (e : ∀ c l, f (c.rd a.toNat l) = g c l) : ComputesWord i d g :=
  (regOp_computes i d 1 _ he (fun _ _ => rfl)).congr (fun c l => by simp only [e]) (fun _ _ => rfl)

theorem wordOp2_computes {i : Instr} {b a d : BitVec 7} {f : Word → Word → Word} (he : ∀ s, exec i s = wordOp2 i s b a d f)
    {g : Ctx → Nat → Word} (e : ∀ c l, f (c.rd a.toNat l) (c.rd b.toNat l) = g c l) : ComputesWord i d g :=
  (regOp_computes i d 1 _ he (fun _ _ => rfl)).congr (fun c l => by simp only [e]) (fun _ _ => rfl)

theorem wordOp3_computes {i : Instr} {b a d : BitVec 7} {f : Word → Word → Word → Word}
    (he : ∀ s, exec i s = wordOp3 i s b a d f) {g : Ctx → Nat → Word}
    (e : ∀ c l, f (c.rd a.toNat l) (c.rd b.toNat l) (c.fourth d.toNat l) = g c l) : ComputesWord i d g :=
  (regOp_computes i d 1 _ he (fun _ _ => rfl)).congr (fun c l => by simp only [e]) (fun _ _ => rfl)

theorem regOp_word {i : Instr} {d : BitVec 7} {f : Ctx → Nat → Word}
    (he : ∀ s, exec i s = regOp i s d 1 (fun c l => ([f c l], 0))) {g : Ctx → Nat → Word} (e : ∀ c l, f c l = g c l) :
    ComputesWord i d g :=
  (regOp_computes i d 1 _ he (fun _ _ => rfl)).congr (fun c l => by simp only [e]) (fun _ _ => rfl)

theorem pairOp_computes {i : Instr} {d : BitVec 7} {f : Ctx → Nat → DWord} (he : ∀ s, exec i s = pairOp i s d f)
    {g : Ctx → Nat → DWord} (e : ∀ c l, f c l = g c l) : ComputesPair i d g :=
  (regOp_computes i d 2 _ he (fun _ _ => rfl)).congr (fun c l => by simp only [e]) (fun _ _ => rfl)

theorem cmpOp1_decides {i : Instr} {a d : BitVec 7} {f : Word → Bool} (he : ∀ s, exec i s = cmpOp1 i s a d f)
    {g : Ctx → Nat → Bool} (e : ∀ c l, f (c.rd a.toNat l) = g c l) : Decides i d g noFlags :=
  (predOp_decides i d _ he).congr (fun c l => by simp only [e]) (fun _ _ => rfl)

theorem cmpOp2_decides {i : Instr} {b a d : BitVec 7} {f : Word → Word → Bool} (he : ∀ s, exec i s = cmpOp2 i s b a d f)
    {g : Ctx → Nat → Bool} (e : ∀ c l, f (c.rd a.toNat l) (c.rd b.toNat l) = g c l) : Decides i d g noFlags :=
  (predOp_decides i d _ he).congr (fun c l => by simp only [e]) (fun _ _ => rfl)

theorem predOp2_decides {i : Instr} {b a d : BitVec 7} {f : Bool → Bool → Bool} (he : ∀ s, exec i s = predOp2 i s b a d f)
    {g : Ctx → Nat → Bool} (e : ∀ c l, f ((c.w.pred a.toNat).getLsbD l) ((c.w.pred b.toNat).getLsbD l) = g c l) :
    Decides i d g noFlags :=
  (predOp_decides i d _ he).congr (fun c l => by simp only [e]) (fun _ _ => rfl)

end Sys2Proof.Machine
end

