-- ==== Sys2Proof/Laws/Commands.lean ====
section
/-! SUPPORT. Engine commands, open transactions, tile commands and traps: what the shared operations do. -/

namespace Sys2Proof

open Sys2Proof.Machine

theorem unitPasses_of {s s0 : State} {c : Ctx} (w : Warp) (hm : ∀ a, s0.hByte a = s.hByte a) (hs : ∀ k off, s0.spadByte k off = s.spadByte k off)
    (ho : ∀ v, v ≠ c.u → kget s0.warps v = kget s.warps v) (hv : ∀ v, (s0.core v).cv = (s.core v).cv)
    (hw : kget s0.warps c.u = some w) (hu : Untouched c w) (hf : w.frontier = c.w.frontier) (he : w.ended = false) :
    UnitPasses s (s0.done c c.is.mask) c := by
  obtain ⟨o, w', hw', hu', ha⟩ := done_passes w (OnlyUnit.refl s0 c.u) hw hu hf he c.is.mask
  exact ⟨fun a => (o.memory a).trans (hm a), fun k q => (o.scratch k q).trans (hs k q), fun v hv => (o.others v hv).trans (ho v hv),
    fun v => (congrArg (·.cv) (o.core v)).trans (hv v), w', hw', hu', ha⟩

theorem leastBy_spec {α : Type} (key : α → Nat) (xs : List α) (e : α) (h : leastBy key xs = some e) :
    e ∈ xs ∧ (∀ f ∈ xs, key e ≤ key f) ∧ ∃ a b, xs = a ++ e :: b ∧ ∀ f ∈ a, key e < key f := by
  induction xs generalizing e with
  | nil => cases h
  | cons x t ih =>
    unfold leastBy at h
    split at h
    · rename_i hn
      cases h
      have : t = [] := by
        cases t with
        | nil => rfl
        | cons y t => unfold leastBy at hn; split at hn; · cases hn
                      · split at hn <;> cases hn
      subst this
      exact ⟨by simp, by simp, [], [], rfl, by simp⟩
    · rename_i y hy
      obtain ⟨h1, h2, a, b, h3, h4⟩ := ih y hy
      split at h
      · cases h
        rename_i hlt
        refine ⟨by simp [h1], ?_, x :: a, b, by rw [h3]; rfl, ?_⟩
        · intro f hf
          rcases List.mem_cons.1 hf with rfl | hf
          · omega
          · exact h2 f hf
        · intro f hf
          rcases List.mem_cons.1 hf with rfl | hf
          · exact hlt
          · exact h4 f hf
      · cases h
        rename_i hlt
        refine ⟨by simp, ?_, [], t, rfl, by simp⟩
        intro f hf
        rcases List.mem_cons.1 hf with rfl | hf
        · exact Nat.le_refl _
        · have := h2 f hf; omega

theorem engine_setEngine (s : State) (e f : Nat) (x : Engine) : (s.setEngine e x).engine f = if f = e then x else s.engine f := sget_sset ..

theorem queueCmd_spec (s : State) (e : Nat) (x : Cmd) : let k := ticketOf e (s.engine e).seq
    (s.queueCmd e x).2 = k ∧ ((s.queueCmd e x).1.engine e).queue = (s.engine e).queue ++ [{ x with id := s.nextUid, ticket := k }] ∧
    ((s.queueCmd e x).1.engine e).run = (s.engine e).run ∧ (∀ f, f ≠ e → (s.queueCmd e x).1.engine f = s.engine f) := by
  intro k
  have h : ∀ f, ((s.queueCmd e x).1).engine f = if f = e then { (s.engine e) with
      queue := (s.engine e).queue ++ [{ x with id := s.nextUid, ticket := k }], seq := ((s.engine e).seq + 1) % 2 ^ 26,
      fin := (s.engine e).fin.filter (fun f => f.ticket != k) } else s.engine f := fun f => engine_setEngine _ e f _
  refine ⟨rfl, by rw [h, if_pos rfl], by rw [h, if_pos rfl], fun f hf => by rw [h, if_neg hf]⟩

theorem startCmd_spec (s : State) (die : Nat) (x : Cmd) (lock : Bool) (s' : State) (k : Nat) (h : s.startCmd die x lock = some (s', k)) :
    ∃ e, e / 16 = die ∧ (s.engine e).queue.length < 64 ∧
    (∀ f, f / 16 = die → (s.engine f).queue.length < 64 → (s.engine e).load ≤ (s.engine f).load ∧
      ((s.engine e).load = (s.engine f).load → e ≤ f)) ∧ k = ticketOf e (s.engine e).seq ∧
    (s'.engine e).queue = (s.engine e).queue ++ [{ x with id := s.nextUid, ticket := k }] ∧
    (s'.engine e).run = (s.engine e).run ∧ ∀ f, f ≠ e → s'.engine f = s.engine f := by
  unfold State.startCmd at h
  cases hp : s.pickEngine die with
  | none => rw [hp] at h; cases h
  | some e =>
    rw [hp] at h
    dsimp only at h
    have hq : ∃ s0 : State, s0.engines = s.engines ∧ s0.nextUid = s.nextUid ∧ (s', k) = s0.queueCmd e x := by
      split at h
      · split at h
        · cases h
        · rename_i i j _
          exact ⟨(s.putLock die i ⟨x.part, x.ctx, x.ranges.1.1, x.ranges.1.2, false, s.nextUid⟩).putLock die j
            ⟨x.part, x.ctx, x.ranges.2.1, x.ranges.2.2, true, s.nextUid⟩, rfl, rfl, (Option.some.inj h).symm⟩
      · exact ⟨s, rfl, rfl, (Option.some.inj h).symm⟩
    obtain ⟨s0, he, hn, hq⟩ := hq
    have hee : ∀ f, s0.engine f = s.engine f := fun f => by unfold State.engine; rw [he]
    obtain ⟨q1, q2, q3, q4⟩ := queueCmd_spec s0 e x
    rw [← hq] at q1 q2 q3 q4
    dsimp only at q1 q2 q3 q4
    rw [hee, hn] at q2; rw [hee] at q1 q3
    obtain ⟨m1, m2, a, b, m3, m4⟩ := leastBy_spec _ _ _ hp
    have hmem : ∀ f, f ∈ ((List.range 16).map (fun n => 16 * die + n)).filter (fun e => decide ((s.engine e).queue.length < 64)) ↔
        f / 16 = die ∧ (s.engine f).queue.length < 64 := by
      intro f
      rw [List.mem_filter, List.mem_map, decide_eq_true_eq]
      constructor
      · rintro ⟨⟨n, hn, rfl⟩, h⟩
        have := List.mem_range.1 hn
        exact ⟨by omega, h⟩
      · rintro ⟨h1, h2⟩
        exact ⟨⟨f - 16 * die, List.mem_range.2 (by omega), by omega⟩, h2⟩
    have hsort : (((List.range 16).map (fun n => 16 * die + n)).filter (fun e => decide ((s.engine e).queue.length < 64))).Pairwise (· < ·) := by
      refine List.Pairwise.filter _ ?_
      rw [List.pairwise_map]
      exact List.Pairwise.imp (fun h => by omega) List.pairwise_lt_range
    obtain ⟨e1, e2⟩ := (hmem e).1 m1
    refine ⟨e, e1, e2, fun f hf1 hf2 => ?_, q1, q1 ▸ q2, q3, fun f hf => (q4 f hf).trans (hee f)⟩
    have hfm := (hmem f).2 ⟨hf1, hf2⟩
    refine ⟨m2 f hfm, fun heq => ?_⟩
    rw [m3] at hfm hsort
    rcases List.mem_append.1 hfm with hfa | hfb
    · exact absurd heq (by have := m4 f hfa; omega)
    · rcases List.mem_cons.1 hfb with rfl | hfb
      · exact Nat.le_refl _
      · have := (List.pairwise_cons.1 (List.pairwise_append.1 hsort).2.1).1 f hfb
        omega

theorem rdThen_ok {α β : Type} (s : State) (a : α) (f : State → α → Rd β) : rdThen (s, .ok a) f = f s a := rfl

theorem relOp_rel {i : Instr} {s : State} {c : Ctx} (h : Issues i s c) (f : Ctx → State → State) (he : ∀ s, exec i s = relOp i s f)
    (hm : c.m ≠ 0) (hq : c.w.queues = []) (hr : s.releaseMet c.u c.p.view 4 = true) : exec i s = .next (f c (s.setWarp c.u c.w)) := by
  refine (warpOp_next h _ (he s)).trans ?_
  rw [if_neg hm]
  have : (s.setWarp c.u c.w).releaseTry c c.m 4 = (s.setWarp c.u c.w, true) := by
    unfold State.releaseTry
    rw [drained_nil hq, if_pos rfl]
    exact Prod.ext rfl hr
  dsimp only
  rw [this]
  rfl

theorem relOp_none {i : Instr} {s : State} {c : Ctx} (h : Issues i s c) (f : Ctx → State → State) (he : ∀ s, exec i s = relOp i s f)
    (hm : c.m = 0) : ∃ t, exec i s = .next t ∧ Passes s t c c.is.mask := by
  refine ⟨_, (warpOp_next h _ (he s)).trans (by rw [if_pos hm]), ?_⟩
  exact done_passes c.w (onlyUnit_setWarp _ _ _) (unit_setWarp ..) (untouched_rfl c) rfl h.alive _

theorem startCmd_warps (s : State) (die : Nat) (x : Cmd) (lock : Bool) (s' : State) (k : Nat) (h : s.startCmd die x lock = some (s', k)) :
    s'.warps = s.warps := by
  unfold State.startCmd at h
  split at h
  · cases h
  · split at h
    · split at h
      · cases h
      · have := Option.some.inj h
        rw [← show _ = s' from congrArg Prod.fst this]; rfl
    · have := Option.some.inj h
      rw [← show _ = s' from congrArg Prod.fst this]; rfl

theorem cvDrop_setWarp (s : State) (u : Nat) (w : Warp) (v l : Nat) : (s.setWarp u w).cvDrop v l = (s.cvDrop v l).setWarp u w := by
  have hk : ∀ (s : State) k l, (s.setWarp u w).killLine k l = (s.killLine k l).setWarp u w := by
    intro s k l
    unfold State.killLine
    show (if List.isEmpty (s.core k).watches = true then _ else _) = _
    split <;> rfl
  unfold State.cvDrop
  exact hk (s.modCore v (fun c => { c with cv := kdel c.cv l })) v l

theorem refresh_setWarp (s : State) (u : Nat) (w : Warp) (v l : Nat) : (s.setWarp u w).refresh v l = (s.refresh v l).setWarp u w := by
  have hk : ∀ (s : State) k l, (s.setWarp u w).killLine k l = (s.killLine k l).setWarp u w := by
    intro s k l
    unfold State.killLine
    show (if List.isEmpty (s.core k).watches = true then _ else _) = _
    split <;> rfl
  unfold State.refresh
  rw [show (s.setWarp u w).core v = s.core v from rfl]
  split
  · split
    · exact cvDrop_setWarp ..
    · split
      · rfl
      · rename_i x _ _ _
        exact hk (s.modCore v (fun c => { c with cv := kput c.cv l { x with present := x.dirty } })) v l
  · rfl

theorem acquire_setWarp (s : State) (u : Nat) (w : Warp) (v sc : Nat) : (s.setWarp u w).acquire v sc = (s.acquire v sc).setWarp u w := by
  unfold State.acquire
  split
  · rfl
  · have : ∀ (ls : List Nat) (s : State), ls.foldl (fun st l => st.refresh v l) (s.setWarp u w) = (ls.foldl (fun st l => st.refresh v l) s).setWarp u w := by
      intro ls
      induction ls with
      | nil => intro s; rfl
      | cons l t ih => intro s; rw [List.foldl_cons, refresh_setWarp, ih]; rfl
    exact this _ s

/-- An instruction that issues in `s` also issues where only core views differ. -/
theorem issues_cores {i : Instr} {s : State} {c : Ctx} (h : Issues i s c) (cs : KMap Core) : Issues i { s with cores := cs } c :=
  ⟨h.latch, h.unit, h.warp, h.owner, h.launch, h.lanes, h.row, h.pfx, h.accepted, h.legal, h.counts, h.stepNo⟩

theorem kget_rises {α : Type} (m : KMap α) (k : Nat) (h : risesFrom (some k) m = true) (j : Nat) (hj : j ≤ k) : kget m j = none := by
  induction m generalizing k with
  | nil => rfl
  | cons x t ih =>
    obtain ⟨k', v⟩ := x
    unfold risesFrom at h
    rw [Bool.and_eq_true, decide_eq_true_eq] at h
    have := ih k' h.2 (by omega)
    unfold kget
    split
    · omega
    · exact this

theorem rcDrop_eq (s : State) (l : Nat) : ∃ r, s.rcDrop l = { s with rc := r } := by
  unfold State.rcDrop; split
  · exact ⟨_, rfl⟩
  · exact ⟨_, rfl⟩

theorem commit_fold (L : KMap Byte) (lo : Option Nat) (h : risesFrom lo L = true) (s : State) :
    (∃ m r, L.foldl (fun st b => (st.setH b.1 b.2).rcDrop (b.1 / lineBytes)) s = { s with mem := m, rc := r }) ∧
    ∀ a, (L.foldl (fun st b => (st.setH b.1 b.2).rcDrop (b.1 / lineBytes)) s).hByte a = (kget L a).getD (s.hByte a) := by
  induction L generalizing s lo with
  | nil => exact ⟨⟨_, _, rfl⟩, fun _ => rfl⟩
  | cons x t ih =>
    obtain ⟨k, v⟩ := x
    have ht : risesFrom (some k) t = true := by
      cases lo with
      | none => exact h
      | some b => unfold risesFrom at h; rw [Bool.and_eq_true] at h; exact h.2
    obtain ⟨r0, e0⟩ := rcDrop_eq (s.setH k v) (k / lineBytes)
    obtain ⟨⟨m, r, e⟩, hb⟩ := ih (some k) ht ((s.setH k v).rcDrop (k / lineBytes))
    rw [List.foldl_cons]
    refine ⟨⟨m, r, ?_⟩, fun a => ?_⟩
    · rw [e, e0]; rfl
    · rw [hb]
      have hs : ((s.setH k v).rcDrop (k / lineBytes)).hByte a = if a = k then v else s.hByte a := by
        rw [e0]; exact sget_sset ..
      rw [hs]
      by_cases ha : a = k
      · subst ha
        rw [kget_rises t a ht a (Nat.le_refl _), if_pos rfl]
        simp [kget]
      · rw [if_neg ha]
        have : kget ((k, v) :: t) a = kget t a := by
          simp [kget, Ne.symm ha]
        rw [this]

theorem openTx_set {i : Instr} {s : State} {c : Ctx} (h : Issues i s c) : (s.setWarp c.u c.w).openTx c.u = s.openTx c.u := by
  obtain ⟨w, hw, -, -, -, -, g, -, -, hcw⟩ := h.warp
  unfold State.openTx
  rw [unit_setWarp, hw, hcw]
  rfl

theorem openTx_none {s : State} {u : Nat} (P : Tx → Prop) (h : ∀ id x, s.openTx u = some (id, x) → P x) :
    s.openTx u = none ∨ ∃ id x, s.openTx u = some (id, x) ∧ P x := by
  cases e : s.openTx u with
  | none => exact .inl rfl
  | some y => exact .inr ⟨y.1, y.2, rfl, h _ _ e⟩

theorem tileCmd_eq {i : Instr} {s : State} {c : Ctx} {b : Block} (h : Issues i s c) (hb : kget s.blocks c.p.blk = some b) (d : BitVec 7)
    (pre : Block → Bool) (f : Ctx → State → Block → Nat → State) (he : ∀ s, exec i s = tileCmd i s d pre f) :
    exec i s = .next (if !pre b then (s.setWarp c.u c.w).trapAll c 0x01 c.is.word.toNat 0
      else if !b.tileOk ((c.rd d.toNat 0).toNat % 16) then (s.setWarp c.u c.w).trapAll c 0x11 0 0
      else f c (s.setWarp c.u c.w) b ((c.rd d.toNat 0).toNat % 16)) := by
  refine (warpOp_next h _ (he s)).trans ?_
  have e : (s.setWarp c.u c.w).blockOf c = some b := hb
  have hbits : bits (c.rd d.toNat 0).toNat 3 0 = (c.rd d.toNat 0).toNat % 16 := by simp [bits]
  rw [e, hbits]

theorem trapAll_traps {i : Instr} {s : State} {c : Ctx} (h : Issues i s c) (k n a : Nat) (hte : c.lr.trapentry ≠ 0) (hh : c.w.hlanes = 0) :
    Traps s ((s.setWarp c.u c.w).trapAll c k n a) c c.is.mask 0 k n c.is.pc a :=
  takeTrap_done h (s.setWarp c.u c.w) c.is.mask 0 ⟨k, n, a, c.is.pc, none⟩ (onlyUnit_setWarp _ _ _) h.who_set h.lr_set c.w (unit_setWarp ..) ⟨c.w.haz, rfl⟩ h.lanes hte hh rfl (fun l _ => by simp) c.is.pc

theorem tileChecks (i : Instr) (d : BitVec 7) (pre : Block → Bool) (f : Ctx → State → Block → Nat → State) (he : ∀ s, exec i s = tileCmd i s d pre f)
    (s : State) (c : Ctx) (b : Block) (h : Issues i s c) (hb : kget s.blocks c.p.blk = some b) (hte : c.lr.trapentry ≠ 0) (hh : c.w.hlanes = 0) :
    (pre b = false → ∃ t, exec i s = .next t ∧ Traps s t c c.is.mask 0 0x01 c.is.word.toNat c.is.pc 0) ∧
    (pre b = true → b.tileOk ((c.rd d.toNat 0).toNat % 16) = false → ∃ t, exec i s = .next t ∧ Traps s t c c.is.mask 0 0x11 0 c.is.pc 0) := by
  have h0 := tileCmd_eq h hb d pre f he
  constructor
  · intro hp
    rw [hp] at h0
    exact ⟨_, h0, trapAll_traps h _ _ _ hte hh⟩
  · intro hp ht
    rw [hp, ht] at h0
    exact ⟨_, h0, trapAll_traps h _ _ _ hte hh⟩

theorem passes_blocks {s1 : State} {c : Ctx} (s0 : State) (hm : ∀ a, s0.hByte a = s1.hByte a) (hs : ∀ k off, s0.spadByte k off = s1.spadByte k off)
    (hws : s0.warps = s1.warps) (hv : ∀ v, (s0.core v).cv = (s1.core v).cv) (hw : kget s1.warps c.u = some c.w) (he : c.w.ended = false) :
    UnitPasses s1 (s0.done c c.is.mask) c :=
  unitPasses_of c.w hm hs (fun v _ => by rw [hws]) hv (by rw [hws]; exact hw) (untouched_rfl c) rfl he

theorem done_rest (s : State) (c : Ctx) (m : Mask) : (s.done c m).blocks = s.blocks ∧ (s.done c m).mengs = s.mengs := by
  obtain ⟨o, -⟩ := done_frame s c m
  have h1 := congrArg State.blocks o.rest
  have h2 := congrArg State.mengs o.rest
  exact ⟨h1, h2⟩

theorem meng_setMeng (s : State) (e f : Nat) (x : MEngine) : (s.setMeng e x).meng f = if f = e then x else s.meng f := sget_sset ..

theorem postCmd_posts {s1 : State} {c : Ctx} (hw : kget s1.warps c.u = some c.w) (he : c.w.ended = false) (b : Block) (hb : kget s1.blocks c.p.blk = some b)
    (hf : (s1.meng (c.p.core / 4)).full = false) (k : MCmd) (slots : KMap Slot) : Posts s1 (s1.postCmd c b k slots) c b k slots := by
  unfold State.postCmd
  rw [hf]
  obtain ⟨s0, hs0⟩ : ∃ s0, s0 = (s1.enter c b k).modBlock c.p.blk (fun b => { b with slots := slots }) := ⟨_, rfl⟩
  show Posts s1 (((s1.enter c b k).modBlock c.p.blk (fun b => { b with slots := slots })).done c c.is.mask) c b k slots
  rw [← hs0]
  obtain ⟨r1, r2⟩ := done_rest s0 c c.is.mask
  have hme : ∀ f, s0.meng f = if f = c.p.core / 4 then { (s1.meng (c.p.core / 4)) with table := (s1.meng (c.p.core / 4)).table ++
    [{ k with id := s1.nextUid, blk := c.p.blk, u := c.u, prio := c.lr.prio, pc := c.is.pc, m := b.vm, n := b.vn, k := b.vk }] } else s1.meng f := by
    intro f
    rw [hs0]
    exact meng_setMeng _ _ f _
  refine ⟨passes_blocks s0 (fun _ => by rw [hs0]; rfl) ?_ (by rw [hs0]; rfl) (fun _ => by rw [hs0]; rfl) hw he, ?_, ?_, ?_⟩
  · intro k off
    rw [hs0]
    refine (spad_modBlock _ _ _ (by intro _; rfl) k off).trans rfl
  · show (sget MEngine.empty (s0.done c c.is.mask).mengs _).table = _
    rw [r2]
    show (s0.meng _).table = _
    rw [hme, if_pos rfl]
  · intro e hne
    show sget MEngine.empty (s0.done c c.is.mask).mengs _ = _
    rw [r2]
    show s0.meng _ = _
    rw [hme, if_neg hne]
  · rw [r1, hs0]
    show kget (kmod s1.blocks _ _) _ = _
    rw [kget_kmod_self, hb]; rfl

theorem unit_onlyMem {s1 : State} {c : Ctx} {s : State} (o : OnlyMem (s.setWarp c.u c.w) s1) : kget s1.warps c.u = some c.w := by
  rw [o.warps]; exact unit_setWarp ..

theorem accOp_eq {i : Instr} {s : State} {c : Ctx} {b : Block} (h : Issues i s c) (hb : kget s.blocks c.p.blk = some b) (a : BitVec 7) (wr : Bool)
    (g : Ctx → State → State) (f : Ctx → State → Tile → Nat → Nat → Nat → State) (he : ∀ s, exec i s = accOp i s a wr g f) (hm : c.m ≠ 0) :
    let v := (c.rd a.toNat c.low).toNat
    exec i s = .next ((kget b.tiles (v % 16)).elim ((s.setWarp c.u c.w).trapAll c 0x11 (if wr then 1 else 0) 0) (fun x =>
      if x.spilled then (s.setWarp c.u c.w).retry else f c (s.setWarp c.u c.w) x (v % 16) (bits v 10 4) (bits v 11 11))) := by
  intro v
  refine (warpOp_next h _ (he s)).trans ?_
  rw [if_neg hm]
  have hbits : bits v 3 0 = v % 16 := by simp [bits]
  have e : ((s.setWarp c.u c.w).blockOf c).bind (fun b => kget b.tiles (bits v 3 0)) = kget b.tiles (v % 16) := by
    rw [show (s.setWarp c.u c.w).blockOf c = some b from hb, hbits]; rfl
  show Host.Outcome.next (match ((s.setWarp c.u c.w).blockOf c).bind (fun b => kget b.tiles (bits v 3 0)) with
      | none => _
      | some x => _) = _
  rw [e, hbits]
  cases kget b.tiles (v % 16) <;> rfl

theorem setTile_fold (i h : Nat) (g : Nat → BitVec 40) (ls : List Nat) (hl : ∀ l ∈ ls, l < 64) (hi : h < 2) (x : Tile) :
    (∃ dt, ls.foldl (fun (x : Tile) l => x.set i (64 * h + l) (g l)) x = { x with data := dt }) ∧
    ∀ r j, j < 128 → (ls.foldl (fun (x : Tile) l => x.set i (64 * h + l) (g l)) x).at_ r j =
      if r = i ∧ j / 64 = h ∧ j % 64 ∈ ls then g (j % 64) else x.at_ r j := by
  induction ls generalizing x with
  | nil => exact ⟨⟨_, rfl⟩, fun r j _ => by simp⟩
  | cons a t ih =>
    have ha := hl a (by simp)
    obtain ⟨⟨dt, e⟩, hh⟩ := ih (fun l h => hl l (by simp [h])) (x.set i (64 * h + a) (g a))
    rw [List.foldl_cons]
    refine ⟨⟨dt, by rw [e]; rfl⟩, fun r j hj => ?_⟩
    rw [hh r j hj]
    have hs : (x.set i (64 * h + a) (g a)).at_ r j = if 128 * r + j = 128 * i + (64 * h + a) then g a else x.at_ r j := sget_sset ..
    rw [hs]
    by_cases hk : r = i ∧ j / 64 = h ∧ j % 64 ∈ t
    · rw [if_pos hk, if_pos ⟨hk.1, hk.2.1, by simp [hk.2.2]⟩]
    · rw [if_neg hk]
      by_cases hq : 128 * r + j = 128 * i + (64 * h + a)
      · have hja : j % 64 = a := by omega
        rw [if_pos hq, if_pos ⟨by omega, by omega, by rw [hja]; simp⟩, hja]
      · rw [if_neg hq, if_neg]
        rintro ⟨h1, h2, h3⟩
        rcases List.mem_cons.1 h3 with h3 | h3
        · exact hq (by omega)
        · exact hk ⟨h1, h2, h3⟩

theorem allocTiles_get (b : Block) (f n k : Nat) : kget (b.allocTiles f n).tiles k = if f ≤ k ∧ k < f + n then some Tile.fresh else kget b.tiles k := by
  unfold Block.allocTiles
  show kget ((List.range n).foldl (fun m j => kput m (f + j) Tile.fresh) b.tiles) k = _
  induction n with
  | zero => simp
  | succ n ih =>
    rw [List.range_succ, List.foldl_append]
    simp only [List.foldl_cons, List.foldl_nil]
    rw [kget_kput, ih]
    by_cases h1 : k = f + n
    · rw [if_pos h1, if_pos (by omega)]
    · rw [if_neg h1]
      by_cases h2 : f ≤ k ∧ k < f + n
      · rw [if_pos h2, if_pos (by omega)]
      · rw [if_neg h2, if_neg (by omega)]

theorem kdel_fold {α : Type} (ls : List Nat) (m : KMap α) (k : Nat) : kget (ls.foldl kdel m) k = if k ∈ ls then none else kget m k := by
  induction ls generalizing m with
  | nil => simp
  | cons a t ih =>
    rw [List.foldl_cons, ih, kget_kdel]
    by_cases h1 : k ∈ t
    · simp [h1]
    · by_cases h2 : k = a <;> simp [h1, h2]

theorem freeing_fold (ls : List Nat) (m : KMap Tile) (k : Nat) :
    (k ∉ ls → kget (ls.foldl (fun m k => kmod m k (fun y => { y with freeing := true })) m) k = kget m k) ∧
    (∀ y, kget m k = some y → ∃ y', kget (ls.foldl (fun m k => kmod m k (fun y => { y with freeing := true })) m) k = some y' ∧ (k ∈ ls ∨ y.freeing = true → y'.freeing = true)) := by
  induction ls generalizing m with
  | nil => exact ⟨fun _ => rfl, fun y hy => ⟨y, hy, fun h => by simpa using h⟩⟩
  | cons a t ih =>
    rw [List.foldl_cons]
    obtain ⟨h1, h2⟩ := ih (kmod m a (fun y => { y with freeing := true }))
    constructor
    · intro hk
      rw [List.mem_cons, not_or] at hk
      rw [h1 hk.2, kget_kmod_ne _ _ hk.1]
    · intro y hy
      by_cases ha : k = a
      · subst ha
        obtain ⟨y', e, hf⟩ := h2 { y with freeing := true } (by rw [kget_kmod_self, hy]; rfl)
        exact ⟨y', e, fun _ => hf (.inr rfl)⟩
      · obtain ⟨y', e, hf⟩ := h2 y (by rw [kget_kmod_ne _ _ ha]; exact hy)
        refine ⟨y', e, fun h => hf ?_⟩
        rcases h with h | h
        · rcases List.mem_cons.1 h with h | h
          · exact absurd h ha
          · exact .inl h
        · exact .inr h

theorem decode_plain {w : Word} {i : Instr} (h : decode w = .ok i) : isPrefixW w = false ∧ isStallW w = false := by
  have sub : ∀ (b m : Nat), b + m ≤ 12 → (w.extractLsb' 20 12).extractLsb' b m = w.extractLsb' (20 + b) m := by
    intro b m h
    apply BitVec.eq_of_getLsbD_eq
    intro i hi
    have : b + i < 12 := by omega
    simp [hi, this, Nat.add_assoc]
  unfold decode at h
  have s1 := sub 11 1 (by omega)
  have s2 := sub 10 2 (by omega)
  have s3 := sub 9 3 (by omega)
  have s4 := sub 8 4 (by omega)
  have s5 := sub 0 8 (by omega)
  unfold isPrefixW isStallW
  rw [← s1, ← s2, ← s3, ← s4] at h
  rw [show w.extractLsb' 20 8 = (w.extractLsb' 20 12).extractLsb' 0 8 from s5.symm] at h
  rw [show w.extractLsb' 28 4 = (w.extractLsb' 20 12).extractLsb' 8 4 from s4.symm]
  generalize w.extractLsb' 20 12 = x at h ⊢
  constructor
  · rw [beq_eq_false_iff_ne]
    intro hx
    have h14 : x.extractLsb' 8 4 = 14#4 := hx
    have t1 : x.extractLsb' 11 1 = (x.extractLsb' 8 4).extractLsb' 3 1 := by
      apply BitVec.eq_of_getLsbD_eq; intro i hi; have : i = 0 := by omega
      subst this; simp
    have t2 : x.extractLsb' 10 2 = (x.extractLsb' 8 4).extractLsb' 2 2 := by
      apply BitVec.eq_of_getLsbD_eq; intro i hi; have : 2 + i < 4 := by omega
      simp [hi, this, ← Nat.add_assoc]
    have t3 : x.extractLsb' 9 3 = (x.extractLsb' 8 4).extractLsb' 1 3 := by
      apply BitVec.eq_of_getLsbD_eq; intro i hi; have : 1 + i < 4 := by omega
      simp [hi, this, ← Nat.add_assoc]
    rw [t1, t2, t3, h14] at h
    rw [if_neg (by decide), if_neg (by decide), if_neg (by decide)] at h
    rw [if_pos (show (14#4 : BitVec 4) = 14 from rfl)] at h
    cases h
  · rw [beq_eq_false_iff_ne]
    intro hx
    have hx : x = 0xF10#12 := hx
    subst hx
    rw [if_neg (by decide), if_neg (by decide), if_neg (by decide), if_neg (by decide)] at h
    cases h

theorem fetch_onlyMem (s : State) (p : Who) (u : Nat) (pc : DWord) : OnlyMem s (s.fetchWord p u pc).1 := by
  have := onlyMem_checkElem s p u 0 .fetch true false 0 pc 4
  unfold State.fetchWord
  dsimp only
  split <;> exact this

theorem latch_prefix (s : State) (is : Issue) (x : Word) (i : Instr) (px : PxF) (hx : is.pfx = some x) (hp : pxFields x.toNat = px)
    (d1 : isPrefixW is.word = false) (d2 : isStallW is.word = false) (p1 : px.rm ≤ 4) (p2 : px.ms ≤ 6) (p3 : px.rsv = 0) (hd : decode is.word = .ok i) :
    s.latch is = .run i (s.setCur (some is)) := by
  unfold State.latch
  rw [hx]
  dsimp only
  rw [hp, d1, d2, hd, if_neg]
  simp only [Bool.false_or, Bool.or_eq_true, decide_eq_true_eq, bne_iff_ne, ne_eq, not_or, not_not, Nat.not_lt, gt_iff_lt]
  exact ⟨⟨p1, p2⟩, p3⟩

end Sys2Proof
end

