-- ==== Sys2Proof/Laws/Waking.lean ====
section
/-! SUPPORT. Waking, taking a trap at a boundary, the drain and the merge stage: what the shared operations do. -/

namespace Sys2Proof.Machine

theorem regsSet_setReg (s : State) (r : Reg) (v : Nat) : RegsSet s (s.setReg r v) [(r, v)] := by
  refine ⟨rfl, fun q => ?_⟩
  by_cases h : q = r
  · subst h; simp
  · rw [reg_setReg_ne s v h]
    have : (r == q) = false := by simpa using Ne.symm h
    simp [List.find?, this]

theorem reg_setReg_if (s : State) (r q : Reg) (v : Nat) : (s.setReg r v).reg q = if q = r then v else s.reg q := by
  split
  · rename_i h; subst h; simp
  · rename_i h; exact reg_setReg_ne s v h

/-- Waking. -/
theorem readied_moves (es : List Entry) (tgt : Entry → DWord) (w : Warp) (l : Nat) :
    ((∀ e ∈ es, e.mask.getLsbD l = false) → ∀ pc q, (es.foldl (fun w e => w.move e.mask (tgt e) .ready) w).stands l pc q ↔ w.stands l pc q) ∧
    (∀ n, (∃ e ∈ es, e.mask.getLsbD l = true) → (∀ e ∈ es, e.mask.getLsbD l = true → tgt e = n) →
      ∀ pc q, (es.foldl (fun w e => w.move e.mask (tgt e) .ready) w).stands l pc q ↔ pc = n ∧ q = .ready) := by
  induction es generalizing w with
  | nil => exact ⟨fun _ pc q => Iff.rfl, fun n h => by obtain ⟨e, he, -⟩ := h; cases he⟩
  | cons a t ih =>
    simp only [List.foldl_cons]
    have hm := move_moved w a.mask (tgt a) .ready
    generalize w.move a.mask (tgt a) .ready = w1 at hm
    obtain ⟨i1, i2⟩ := ih w1
    refine ⟨fun h pc q => ?_, fun n hex hall pc q => ?_⟩
    · rw [i1 (fun e he => h e (by simp [he])) pc q, hm l pc q, if_neg (by rw [h a (by simp)]; decide)]
    · by_cases ht : ∃ e ∈ t, e.mask.getLsbD l = true
      · exact i2 n ht (fun e he => hall e (by simp [he])) pc q
      · push Not at ht
        rw [i1 (fun e he => by simpa using ht e he) pc q, hm l pc q]
        obtain ⟨e, he, hel⟩ := hex
        rcases List.mem_cons.1 he with rfl | he
        · rw [if_pos hel, hall e (by simp) hel]
        · exact absurd hel (ht e he)

theorem readied_fold (w : Warp) (p : Entry → Bool) (P : Entry → Prop) (tgt : Entry → DWord) (h : ∀ e ∈ w.frontier, p e = true ↔ P e) :
    Readied w ((w.frontier.filter p).foldl (fun w e => w.move e.mask (tgt e) .ready) w) P tgt := by
  intro l
  obtain ⟨a, b⟩ := readied_moves (w.frontier.filter p) tgt w l
  refine ⟨fun hn => a (fun e he => ?_), fun n hex hall => b n ?_ (fun e he hl => ?_)⟩
  · obtain ⟨h1, h2⟩ := List.mem_filter.1 he
    exact hn e h1 ((h e h1).1 h2)
  · obtain ⟨e, he, hp, hl⟩ := hex
    exact ⟨e, List.mem_filter.2 ⟨he, (h e he).2 hp⟩, hl⟩
  · obtain ⟨h1, h2⟩ := List.mem_filter.1 he
    exact hall e h1 ((h e h1).1 h2) hl

/-- Lanes that become ready with an interlock stand where they would stand without it, and nothing else of the unit changes. -/
theorem lockedMoves (es : List Entry) (tgt : Entry → DWord) (w : Warp) :
    ∃ k, es.foldl (fun w e => { w.move e.mask (tgt e) .ready with locked := true }) w =
      { es.foldl (fun w e => w.move e.mask (tgt e) .ready) w with locked := k } := by
  have one : ∀ (v : Warp) (k : Bool) (m : Mask) (pc : DWord), ({ v with locked := k } : Warp).move m pc .ready = { v.move m pc .ready with locked := k } := by
    intro v k m pc
    unfold Warp.move
    dsimp only
    split
    · rfl
    · unfold Warp.setFrontier
      dsimp only
      split
      · split <;> rfl
      · rfl
  have key : ∀ (es : List Entry) (v : Warp) (k : Bool), ∃ k', es.foldl (fun w e => { w.move e.mask (tgt e) .ready with locked := true }) { v with locked := k } =
      { es.foldl (fun w e => w.move e.mask (tgt e) .ready) v with locked := k' } := by
    intro es
    induction es with
    | nil => exact fun v k => ⟨k, rfl⟩
    | cons a t ih =>
      intro v k
      rw [List.foldl_cons, List.foldl_cons, one]
      exact ih (v.move a.mask (tgt a) .ready) true
  exact key es w w.locked

theorem woken_wake (w : Warp) (p : Entry → Bool) (P : Entry → Prop) (h : ∀ e ∈ w.frontier, p e = true ↔ P e) : Woken w (w.wake p) P := by
  obtain ⟨k, e⟩ := lockedMoves (w.frontier.filter p) (fun e => e.next) w
  unfold Warp.wake
  rw [e]
  exact readied_fold w p P _ h

theorem kept_of_frontier (w : Warp) (fr : List Entry) (n : Nat) (tn : Option Nat) : Kept w { w with frontier := fr, fair := n, turn := tn } :=
  ⟨rfl, fun _ _ => rfl, fun _ => rfl, fun _ => rfl⟩

theorem kept_wake (w : Warp) (p : Entry → Bool) : Kept w (w.wake p) := by
  obtain ⟨⟨f, n, t, k, e⟩, -⟩ := wake_rearranged w p
  rw [e]; exact ⟨rfl, fun _ _ => rfl, fun _ => rfl, fun _ => rfl⟩

theorem kept_move (w : Warp) (m : Mask) (pc : DWord) (st : EntSt) : Kept w (w.move m pc st) := by
  obtain ⟨f, n, t, e⟩ := move_eq w m pc st
  rw [e]; exact kept_of_frontier ..

theorem modWarp_get {s : State} {u : Nat} {w : Warp} (h : kget s.warps u = some w) (f : Warp → Warp) : kget (s.modWarp u f).warps u = some (f w) := by
  show kget (kmod s.warps u f) u = _
  rw [kget_kmod_self, h]; rfl

/-- What `trapState` writes with TRAPSPC. -/
theorem trapState_at (w : Warp) (m : Mask) (t : Trap) (a : Nat) (h : t.spc = some a) :
    TrapTakenAt w (w.trapState m t) t.cause t.info t.pc t.addr m a ∧ ∃ tr, w.trapState m t = { w with trap := tr } := by
  have lo : ∀ x : BitVec 64, BitVec.ofNat 32 x.toNat = x.extractLsb' 0 32 := by
    intro x; apply BitVec.eq_of_toNat_eq; simp
  have hi : ∀ x : BitVec 64, BitVec.ofNat 32 (x.toNat / 2 ^ 32) = x.extractLsb' 32 32 := by
    intro x; apply BitVec.eq_of_toNat_eq
    simp [Nat.shiftRight_eq_div_pow]
  have e : w.trapState m t = (((((((((w.setTrapReg 34 (BitVec.ofNat 32 t.cause)).setTrapReg 35 (BitVec.ofNat 32 t.info)).setTrapReg 36 (BitVec.ofNat 32 t.pc.toNat)).setTrapReg 37
      (BitVec.ofNat 32 (t.pc.toNat / 2 ^ 32))).setTrapReg 38 (BitVec.ofNat 32 t.addr)).setTrapReg 39 (BitVec.ofNat 32 (t.addr / 2 ^ 32))).setTrapReg 40
      (BitVec.ofNat 32 m.toNat)).setTrapReg 41 (BitVec.ofNat 32 (m.toNat / 2 ^ 32))).setTrapReg 42 (BitVec.ofNat 32 a)).setTrapReg 43 (BitVec.ofNat 32 (a / 2 ^ 32)) := by
    unfold Warp.trapState; rw [h]; rfl
  refine ⟨?_, ?_⟩
  · rw [e]
    unfold TrapTakenAt
    simp only [trapReg_setTrapReg, lo, hi]
    refine ⟨by simp, by simp, by simp, by simp, by simp, by simp, by simp, by simp, by simp, by simp, ?_⟩
    intro n hn
    have : n ≠ 34 ∧ n ≠ 35 ∧ n ≠ 36 ∧ n ≠ 37 ∧ n ≠ 38 ∧ n ≠ 39 ∧ n ≠ 40 ∧ n ≠ 41 ∧ n ≠ 42 ∧ n ≠ 43 := by omega
    obtain ⟨a, b, c, d, e, f, g, h, i, j⟩ := this
    simp [a, b, c, d, e, f, g, h, i, j]
  · rw [e]
    have one : ∀ (a b : Warp) n v, (∃ tr, b = { a with trap := tr }) → ∃ tr, b.setTrapReg n v = { a with trap := tr } := by
      rintro a b n v ⟨tr, rfl⟩; exact ⟨_, rfl⟩
    repeat' apply one
    exact ⟨w.trap, rfl⟩

theorem takeTrap_set (s : State) (u : Nat) (p : Who) (lr : LaunchRec) (w : Warp) (m : Mask) (at_ : DWord) (t : Trap)
    (hw : kget s.warps u = some w) (hwho : s.who u = some p) (hlr : s.lrOf p.launch = some lr) (hend : w.ended = false)
    (hh : w.hlanes = 0) (hm : m ≠ 0) (hte : lr.trapentry ≠ 0) : ∃ v, s.takeTrap u m at_ t = s.setWarp u v := by
  obtain ⟨l, hl, hlr'⟩ : ∃ l, kget s.launches p.launch = some l ∧ l.lr = lr := by
    unfold State.lrOf at hlr
    cases hk : kget s.launches p.launch with
    | none => rw [hk] at hlr; cases hlr
    | some l => rw [hk] at hlr; exact ⟨l, rfl, by simpa using hlr⟩
  refine ⟨(({ (w.trapState m t).leaveTurn m with hlanes := m, locked := true } : Warp).move m (BitVec.ofNat 64 lr.trapentry) .ready), ?_⟩
  unfold State.takeTrap
  rw [hw, hwho]
  simp only [Option.bind_some, hl]
  rw [if_neg (by simp only [hend, Bool.or_false, decide_eq_true_eq]; exact hm), hlr', if_neg hte, hh, if_neg (by simp), if_neg (by simp)]

theorem takeTrap_boundary (s : State) (u : Nat) (p : Who) (lr : LaunchRec) (w : Warp) (m : Mask) (at_ : DWord) (t : Trap)
    (hw : kget s.warps u = some w) (hwho : s.who u = some p) (hlr : s.lrOf p.launch = some lr) (hend : w.ended = false)
    (hh : w.hlanes = 0) (hm : m ≠ 0) (hte : lr.trapentry ≠ 0) :
    BoundaryTrap s (s.takeTrap u m at_ t) u lr w m t.cause t.info t.pc t.addr t.spc := by
  obtain ⟨l, hl, hlr'⟩ : ∃ l, kget s.launches p.launch = some l ∧ l.lr = lr := by
    unfold State.lrOf at hlr
    cases hk : kget s.launches p.launch with
    | none => rw [hk] at hlr; cases hlr
    | some l => rw [hk] at hlr; exact ⟨l, rfl, by simpa using hlr⟩
  have e : s.takeTrap u m at_ t = s.setWarp u (({ (w.trapState m t).leaveTurn m with hlanes := m, locked := true } : Warp).move m (BitVec.ofNat 64 lr.trapentry) .ready) := by
    unfold State.takeTrap
    rw [hw, hwho]
    simp only [Option.bind_some, hl]
    rw [if_neg (by simp only [hend, Bool.or_false, decide_eq_true_eq]; exact hm), hlr', if_neg hte, hh, if_neg (by simp), if_neg (by simp)]
  rw [e]
  obtain ⟨tr, htr⟩ : ∃ tr, w.trapState m t = { w with trap := tr } := by
    cases hs : t.spc with
    | none => exact (trapState_taken w m t hs).2
    | some a => exact (trapState_at w m t a hs).2
  obtain ⟨v, hv⟩ : ∃ v, v = ({ (w.trapState m t).leaveTurn m with hlanes := m, locked := true } : Warp) := ⟨_, rfl⟩
  rw [← hv]
  obtain ⟨n0, t0, hlt⟩ := leaveTurn_eq (w.trapState m t) m
  rw [hlt] at hv
  have hmv := move_moved v m (BitVec.ofNat 64 lr.trapentry) .ready
  obtain ⟨fr, n, tn, hme⟩ := move_eq v m (BitVec.ofNat 64 lr.trapentry) .ready
  refine ⟨onlyUnit_setWarp .., v.move m (BitVec.ofNat 64 lr.trapentry) .ready, by simp, ?_, ?_, ?_, ?_, ?_, ?_, ?_, ?_, ?_⟩
  · rw [hme, hv]
  · intro hs
    have tt := (trapState_taken w m t hs).1
    have e1 : ∀ k, (v.move m (BitVec.ofNat 64 lr.trapentry) .ready).trapReg k = (w.trapState m t).trapReg k := by
      intro k; rw [hme, hv]; rfl
    unfold TrapTaken at *
    simpa only [e1] using tt
  · intro a hs
    have tt := (trapState_at w m t a hs).1
    have e1 : ∀ k, (v.move m (BitVec.ofNat 64 lr.trapentry) .ready).trapReg k = (w.trapState m t).trapReg k := by
      intro k; rw [hme, hv]; rfl
    unfold TrapTakenAt at *
    simpa only [e1] using tt
  · intro r l; rw [hme, hv, htr]; rfl
  · intro p; rw [hme, hv, htr]; rfl
  · intro l; rw [hme, hv, htr]; rfl
  · rw [hme, hv, htr]
  · rw [hme, hv, htr]
  · intro l p q
    have hvs : ∀ a b c, v.stands a b c = Warp.stands w a b c := by intro a b c; rw [hv, htr]; rfl
    rw [hmv l p q, hvs]

end Sys2Proof.Machine

namespace Sys2Proof

open Sys2Proof.Machine

theorem leastBy_strict {α : Type} [DecidableEq α] (key : α → Nat) (xs : List α) (e : α) (he : e ∈ xs) (h : ∀ x ∈ xs, x ≠ e → key e < key x) :
    leastBy key xs = some e := by
  induction xs with
  | nil => cases he
  | cons a t ih =>
    unfold leastBy
    by_cases hmem : e ∈ t
    · rw [ih hmem (fun x hx hne => h x (by simp [hx]) hne)]
      dsimp only
      by_cases ha : a = e
      · subst ha; simp
      · rw [if_pos (h a (by simp) ha)]
    · rcases List.mem_cons.1 he with rfl | he
      · cases hl : leastBy key t with
        | none => rfl
        | some y =>
          dsimp only
          have hy : ∀ (xs : List α) y, leastBy key xs = some y → y ∈ xs := by
            intro xs
            induction xs with
            | nil => intro y h; cases h
            | cons a t ih =>
              intro y h
              unfold leastBy at h
              cases hl : leastBy key t with
              | none => rw [hl] at h; simp at h; simp [h]
              | some z =>
                rw [hl] at h
                dsimp only at h
                split at h
                · cases h; exact List.mem_cons_of_mem _ (ih _ hl)
                · cases h; simp
          have hyt := hy t y hl
          rw [if_neg]
          have := h y (by simp [hyt]) (by rintro rfl; exact hmem hyt)
          omega
      · exact absurd he hmem

theorem leastBy_mem {α : Type} (key : α → Nat) (xs : List α) (y : α) (h : leastBy key xs = some y) : y ∈ xs ∧ ∀ x ∈ xs, key y ≤ key x := by
  induction xs generalizing y with
  | nil => cases h
  | cons a t ih =>
    unfold leastBy at h
    cases hl : leastBy key t with
    | none =>
      rw [hl] at h; simp at h; subst h
      cases t with
      | nil => simp
      | cons b r =>
        exfalso
        unfold leastBy at hl
        split at hl
        · cases hl
        · split at hl <;> cases hl
    | some z =>
      rw [hl] at h
      dsimp only at h
      obtain ⟨h1, h2⟩ := ih z hl
      split at h
      · cases h
        refine ⟨by simp [h1], fun x hx => ?_⟩
        rcases List.mem_cons.1 hx with rfl | hx
        · omega
        · exact h2 x hx
      · cases h
        refine ⟨by simp, fun x hx => ?_⟩
        rcases List.mem_cons.1 hx with rfl | hx
        · omega
        · have := h2 x hx; omega

theorem leastBy_some {α : Type} (key : α → Nat) (xs : List α) (h : xs ≠ []) : ∃ y, leastBy key xs = some y := by
  cases xs with
  | nil => exact absurd rfl h
  | cons a t =>
    unfold leastBy
    split
    · exact ⟨_, rfl⟩
    · split <;> exact ⟨_, rfl⟩

theorem boundary_alive {s : State} {u : Nat} {w : Warp} (hw : kget s.warps u = some w) (h : s.atBoundary u = true) : w.ended = false := by
  unfold State.atBoundary at h
  rw [hw] at h
  cases hp : s.who u with
  | none => rw [hp] at h; cases h
  | some p =>
    rw [hp] at h
    simp only [Bool.and_eq_true, Bool.not_eq_true'] at h
    exact h.1.1

theorem who_blk {s : State} {u : Nat} {w : Warp} {p : Who} (hw : kget s.warps u = some w) (h : s.who u = some p) :
    ∃ b l, kget s.blocks w.blk = some b ∧ kget s.launches b.launch = some l ∧ p.core = b.core ∧ p.blk = w.blk ∧ p.launch = b.launch ∧ p.tile = w.tile ∧ p.part = l.part ∧ p.ctx = l.ctx := by
  unfold State.who at h
  rw [hw] at h
  dsimp only at h
  cases hb : kget s.blocks w.blk with
  | none => rw [hb] at h; cases h
  | some b =>
    rw [hb] at h
    dsimp only at h
    cases hl : kget s.launches b.launch with
    | none => rw [hl] at h; cases h
    | some l =>
      rw [hl] at h
      dsimp only at h
      obtain rfl := Option.some.inj h
      exact ⟨b, l, rfl, hl, rfl, rfl, rfl, rfl, rfl, rfl⟩

/-- The body of an event: what it steps to. -/
theorem live_or (fr : List Entry) (g : Entry → Mask) (a : Mask) (l : Nat) :
    (fr.foldl (fun m e => m ||| g e) a).getLsbD l = true ↔ a.getLsbD l = true ∨ ∃ e ∈ fr, (g e).getLsbD l = true := by
  induction fr generalizing a with
  | nil => simp
  | cons x t ih =>
    rw [List.foldl_cons, ih]
    simp only [BitVec.getLsbD_or, Bool.or_eq_true, List.mem_cons]
    constructor
    · rintro ((h | h) | ⟨e, he, h⟩)
      · exact .inl h
      · exact .inr ⟨x, .inl rfl, h⟩
      · exact .inr ⟨e, .inr he, h⟩
    · rintro (h | ⟨e, rfl | he, h⟩)
      · exact .inl (.inl h)
      · exact .inl (.inr h)
      · exact .inr ⟨e, he, h⟩

theorem kget_map {α β : Type} (m : List (Nat × α)) (f : α → β) (k : Nat) :
    kget (m.map (fun e => (e.1, f e.2))) k = (kget m k).map f := by
  induction m with
  | nil => rfl
  | cons a t ih =>
    obtain ⟨k', v⟩ := a
    simp only [List.map_cons, kget]
    split
    · rfl
    · exact ih

theorem cvDrop_other (s : State) (v line k n : Nat) (h : k ≠ v ∨ n ≠ line) : kget ((s.cvDrop v line).core k).cv n = kget (s.core k).cv n := by
  rw [cv_kill]
  split
  · rename_i e; subst e
    rw [kget_kdel_ne _ (h.resolve_left (by simp))]
  · rfl

theorem cvDrop_self (s : State) (v line : Nat) : kget ((s.cvDrop v line).core v).cv line = none := by
  rw [cv_kill, if_pos rfl, kget_kdel_self]

theorem setByteOf_get (d : BitVec 1024) (k : Nat) (v : Byte) (hk : k < 128) : (setByteOf d k v).extractLsb' (8 * k) 8 = v := by
  unfold setByteOf
  apply BitVec.eq_of_getLsbD_eq
  intro i hi
  have h1 : 8 * k + i < 1024 := by omega
  have h2 : 8 * k + i - 8 * k = i := by omega
  have h3 : (255#1024).getLsbD i = true := by
    rw [BitVec.getLsbD_ofNat]
    have : Nat.testBit (2 ^ 8 - 1) i = true := by rw [Nat.testBit_two_pow_sub_one]; simpa using hi
    rw [show (255 : Nat) = 2 ^ 8 - 1 from rfl, this]; simp; omega
  simp only [BitVec.getLsbD_extractLsb', hi, decide_true, Bool.true_and, BitVec.getLsbD_or, BitVec.getLsbD_and, BitVec.getLsbD_not, h1,
    BitVec.getLsbD_shiftLeft, h2, BitVec.getLsbD_setWidth]
  rw [h3]
  have : i < 1024 := by omega
  simp [this]

theorem msWinner_post (l : List MsWrite) (w : MsWrite) (h : ∀ x ∈ l, x.wid < w.wid) : msWinner (w :: l) = some w := by
  unfold msWinner
  cases hl : msWinner l with
  | none => rfl
  | some x =>
    dsimp only
    have hmem : ∀ (l : List MsWrite) x, msWinner l = some x → x ∈ l := by
      intro l
      induction l with
      | nil => intro x h; cases h
      | cons a t ih =>
        intro x h
        unfold msWinner at h
        cases hl : msWinner t with
        | none => rw [hl] at h; simp at h; simp [h]
        | some y =>
          rw [hl] at h
          dsimp only at h
          split at h
          · cases h; simp
          · cases h; exact List.mem_cons_of_mem _ (ih _ hl)
    rw [if_pos (h x (hmem l x hl))]

theorem msWinner_pre (pre : List MsWrite) (w : MsWrite) (l : List MsWrite) (hw : msWinner l = some w) (h : ∀ x ∈ pre, x.wid ≤ w.wid) :
    msWinner (pre ++ l) = some w := by
  induction pre with
  | nil => exact hw
  | cons a t ih =>
    rw [List.cons_append]
    unfold msWinner
    rw [ih (fun x hx => h x (by simp [hx]))]
    dsimp only
    rw [if_neg (by have := h a (by simp); omega)]

theorem cvUpdate_frame (s : State) (v pa : Nat) (x : Byte) : ∃ cs, s.cvUpdate v pa x = { s with cores := cs } := by
  unfold State.cvUpdate
  split
  · split
    · exact ⟨_, rfl⟩
    · exact ⟨s.cores, rfl⟩
  · exact ⟨s.cores, rfl⟩

/-- A dying watch and a held byte leave memory, scratchpads, views, merge stages and units (R75, R237). -/
theorem hold_frame (s : State) (u pa : Nat) (v : Byte) : ∃ x, s.hold u pa v = { s with txs := x } := by
  unfold State.hold; split
  · exact ⟨_, rfl⟩
  · exact ⟨s.txs, rfl⟩

/-- A byte that drains without a release changes scratchpads, views, merge stages and hold buffers alone (R109). -/
theorem drainByte_frame (s : State) (p : Who) (u : Nat) (b : QByte) :
    ∃ bs cs m x, s.drainByte p u none b = { s with blocks := bs, cores := cs, ms := m, txs := x } := by
  unfold State.drainByte
  split
  · rename_i blk off _
    cases hx : kget s.blocks blk with
    | none => unfold State.spadWrite; rw [hx]; exact ⟨s.blocks, s.cores, s.ms, s.txs, rfl⟩
    | some x =>
      obtain ⟨⟨⟨bs, cs, h⟩, -, -⟩, -⟩ := spadWrite_spec s blk off b.val (by rw [hx]; rfl)
      rw [h]; exact ⟨bs, cs, s.ms, s.txs, rfl⟩
  · rename_i pa _
    split
    · obtain ⟨x, h⟩ := hold_frame s u pa b.val
      rw [h]; exact ⟨s.blocks, s.cores, s.ms, x, rfl⟩
    · split
      · obtain ⟨c1, h1⟩ := cvUpdate_frame s p.view pa b.val
        obtain ⟨c2, h2⟩ := killLine_frame (s.cvUpdate p.view pa b.val) p.view (pa / lineBytes)
        rw [h2, h1]; exact ⟨s.blocks, c2, s.ms, s.txs, rfl⟩
      · dsimp only
        rw [if_neg (by simp)]
        obtain ⟨y, hy⟩ : ∃ y, y = (if (s.classNow p b pa == 3 || (s.classNow p b pa == 1 && homeDie pa != some (viewDie p.view))) = true then
            State.cvUpdate { s with ms := s.ms ++ [⟨pa, b.val, p.view, p.wid, b.va, some p.launch, false, b.unit⟩] } p.view pa b.val
          else s.cvPut p.view pa b.val (s.classNow p b pa) p.ctx ⟨some p.launch, p.wid, b.va, b.unit⟩) := ⟨_, rfl⟩
        rw [← hy]
        obtain ⟨c1, m1, h1⟩ : ∃ c m, y = { s with cores := c, ms := m } := by
          rw [hy]
          split
          · obtain ⟨c1, h1⟩ := cvUpdate_frame { s with ms := s.ms ++ [⟨pa, b.val, p.view, p.wid, b.va, some p.launch, false, b.unit⟩] } p.view pa b.val
            exact ⟨c1, _, h1⟩
          · exact ⟨_, s.ms, rfl⟩
        obtain ⟨c2, h2⟩ := killLine_frame y p.view (pa / lineBytes)
        rw [h2, h1]; exact ⟨s.blocks, c2, m1, s.txs, rfl⟩
  · exact ⟨s.blocks, s.cores, s.ms, s.txs, rfl⟩
  · exact ⟨s.blocks, s.cores, s.ms, s.txs, rfl⟩

theorem drainFold_frame (p : Who) (u : Nat) (bs : List QByte) (s : State) :
    ∃ k cs m x, bs.foldl (fun st b => st.drainByte p u none b) s = { s with blocks := k, cores := cs, ms := m, txs := x } := by
  induction bs generalizing s with
  | nil => exact ⟨s.blocks, s.cores, s.ms, s.txs, rfl⟩
  | cons b t ih =>
    rw [List.foldl_cons]
    obtain ⟨k, cs, m, x, h⟩ := drainByte_frame s p u b
    rw [h]
    obtain ⟨k', cs', m', x', h'⟩ := ih { s with blocks := k, cores := cs, ms := m, txs := x }
    exact ⟨k', cs', m', x', h'⟩

/-- A store's request that fails changes the requests and the core's store-fault queue alone (R306). -/
theorem storeFailed_frame (s : State) (core r : Nat) (x : ExtReq) (cause : Nat) :
    ∃ e cs, s.storeFailed core r x cause = { s with ext := e, cores := cs } := by
  unfold State.storeFailed
  dsimp only
  split
  · exact ⟨_, s.cores, rfl⟩
  · split
    · exact ⟨_, _, rfl⟩
    · exact ⟨_, s.cores, rfl⟩

/-- Drain of an entry that may leave and releases nothing (R109, R115): the bytes of its first unit reach their places; the others stay
at the front of the queue. -/
theorem drain_eq {s : State} {u lane : Nat} {w : Warp} {p : Who} {e : QEntry} {rest : List QEntry} (hw : kget s.warps u = some w) (hp : s.who u = some p)
    (hq : sget [] w.queues lane = e :: rest) (hr : e.rel = none) (hl : ∀ b ∈ e.bytes, b.loc.isSome = true) (hb : w.behind lane e = false) :
    ∃ s1, s1 = e.firstUnit.1.foldl (fun st b => st.drainByte p u none b) (s.setWarp u { w with queues := sset [] w.queues lane (e.leaves rest) }) ∧
      (∃ x n cs, s.drain u lane = { s1 with ext := x, nextUid := n, cores := cs }) ∧ (outsideBytes e.firstUnit.1 = [] → s.drain u lane = s1) := by
  have hleave : s.leaveTry u p.view w lane e = (s, true) := by
    unfold State.leaveTry
    rw [if_pos (by rw [hb, Bool.not_false, Bool.and_true, List.all_eq_true]; exact hl), hr]
  refine ⟨_, rfl, ?_⟩
  generalize hs1 : e.firstUnit.1.foldl (fun st b => st.drainByte p u none b) (s.setWarp u { w with queues := sset [] w.queues lane (e.leaves rest) }) = s1
  have key : s.drain u lane = (match outsideBytes e.firstUnit.1 with
        | [] => s1
        | (n, off, va, b) :: r =>
          let data := b :: r.map (·.2.2.2)
          let x : ExtReq := { u := u, part := p.part, launch := some p.launch, peer := n, wr := true, off := off,
                              data := if n.isNone then s1.cipher p.part true off data else data, n := data.length, since := s1.timebase,
                              pc := e.pc, lane := lane, va := va, iid := e.iid, held := false, answer := none }
          let q := s1.extNew x
          if n.any (fun k => (kget s1.fabric.routes k).isNone) then q.1.storeFailed p.core q.2 x 0x17 else q.1) := by
    unfold State.drain
    rw [hw, hp]
    dsimp only
    rw [hq]
    dsimp only
    rw [hleave]
    dsimp only
    rw [if_pos rfl, hr]
    unfold QEntry.leaves at hs1
    rw [hr] at hs1
    rw [hs1]
    all_goals (cases outsideBytes e.firstUnit.1 <;> rfl)
  rw [key]
  cases outsideBytes e.firstUnit.1 with
  | nil => exact ⟨⟨s1.ext, s1.nextUid, s1.cores, rfl⟩, fun _ => rfl⟩
  | cons a t =>
    refine ⟨?_, fun h => by cases h⟩
    obtain ⟨n, off, va, b⟩ := a
    dsimp only
    generalize ({ u := u, part := p.part, launch := some p.launch, peer := n, wr := true, off := off, data := _, n := _, since := _, pc := _, lane := _, va := _,
                  iid := _, held := _, answer := _ } : ExtReq) = x
    split
    · obtain ⟨y, cs, h⟩ := storeFailed_frame (s1.extNew x).1 p.core (s1.extNew x).2 x 0x17
      rw [h]; exact ⟨y, _, cs, rfl⟩
    · exact ⟨_, _, s1.cores, rfl⟩

theorem cvPut_get (s : State) (v pa cls ctx : Nat) (b : Byte) (o : ByteOrig) : (s.cvPut v pa b cls ctx o).cvByte v pa = some b ∧
    ∃ l, kget ((s.cvPut v pa b cls ctx o).core v).cv (pa / 128) = some l ∧ l.dirty.getLsbD (pa % 128) = true := by
  have hk : pa % 128 < 128 := Nat.mod_lt _ (by omega)
  have hbit : (BitVec.ofNat 128 (2 ^ (pa % lineBytes))).getLsbD (pa % lineBytes) = true := by
    show (BitVec.ofNat 128 (2 ^ (pa % 128))).getLsbD (pa % 128) = true
    rw [BitVec.getLsbD_ofNat, Nat.testBit_two_pow_self]; simpa using hk
  unfold State.cvByte State.cvPut
  rw [core_modCore_self]
  dsimp only
  rw [show pa / 128 = pa / lineBytes from rfl, show pa % 128 = pa % lineBytes from rfl, kget_kput_self]
  dsimp only
  refine ⟨?_, _, rfl, ?_⟩
  · rw [if_pos (by rw [BitVec.getLsbD_or, hbit]; simp)]
    unfold CvLine.byteAt
    exact congrArg some (setByteOf_get _ _ _ hk)
  · rw [BitVec.getLsbD_or, hbit]; simp

theorem rcDrop_line (s : State) (line d : Nat) : (s.rcDrop line).rcLine d line = none := by
  unfold State.rcDrop State.rcLine
  split
  · rename_i h
    have : s.rc = [] := by simpa using h
    rw [this]; rfl
  · show kget (sget [] (s.rc.map (fun e => (e.1, kdel e.2 line))) d) line = none
    unfold sget
    have := kget_map s.rc (fun e => kdel e line) d
    rw [this]
    cases kget s.rc d with
    | none => rfl
    | some m => simp

theorem rcDrop_frame (s : State) (line : Nat) : ∃ r, s.rcDrop line = { s with rc := r } := by
  unfold State.rcDrop; split
  · exact ⟨s.rc, rfl⟩
  · exact ⟨_, rfl⟩

theorem drop_length {α : Type} (p : α → Bool) (xs : List α) (n : Nat) (h : xs.length ≤ n) : (xs.filter p).length ≤ n := le_trans (List.length_filter_le _ _) h

end Sys2Proof
end

