-- ==== Sys2Proof/Laws/Pages.lean ====
section
/-! SUPPORT. Pages, records and parked units: what the shared operations do. -/

namespace Sys2Proof

open Sys2Proof.Machine

theorem hByte_setHs (bs : List Byte) (s : State) (pa a : Nat) :
    (s.setHs pa bs).hByte a = if pa ≤ a ∧ a < pa + bs.length then bs.getD (a - pa) 0 else s.hByte a := by
  induction bs generalizing s pa with
  | nil => rw [if_neg (by simp)]; rfl
  | cons b t ih =>
    unfold State.setHs
    rw [ih]
    by_cases h : a = pa
    · subst h
      rw [if_neg (by omega), if_pos (by simp)]
      simp
    · by_cases h2 : pa + 1 ≤ a ∧ a < pa + 1 + t.length
      · rw [if_pos h2, if_pos (by simp; omega)]
        have : a - pa = (a - (pa + 1)) + 1 := by omega
        rw [this, List.getD_cons_succ]
      · rw [if_neg h2, hByte_setH_ne s b h, if_neg (by simp; omega)]

theorem bytesLE_mod (n v : Nat) : bytesLE n (v % 2 ^ (8 * n)) = bytesLE n v := by
  induction n generalizing v with
  | zero => rfl
  | succ n ih =>
    have h1 : 2 ^ (8 * (n + 1)) = 256 * 2 ^ (8 * n) := by rw [Nat.mul_add, pow_add]; ring
    unfold bytesLE
    rw [h1]
    congr 1
    · apply BitVec.eq_of_toNat_eq
      simp only [BitVec.toNat_ofNat]
      exact Nat.mod_mul_right_mod v 256 (2 ^ (8 * n))
    · rw [Nat.mod_mul_right_div_self]; exact ih _

theorem natLE_bytesLE_mod (n v : Nat) : natLE (bytesLE n v) = v % 2 ^ (8 * n) := by
  rw [← bytesLE_mod n v]
  exact natLE_bytesLE n _ (Nat.mod_lt _ (by positivity))

theorem hNat_setHNat (s : State) (at_ n v : Nat) : (s.setHNat at_ n v).hNat at_ n = v % 2 ^ (8 * n) := by
  unfold State.hNat State.setHNat
  rw [← natLE_bytesLE_mod]
  congr 1
  have hl := bytesLE_length n v
  apply List.ext_getElem
  · simp [hl]
  · intro i h1 h2
    simp only [List.length_map, List.length_range] at h1
    rw [List.getElem_map, List.getElem_range, hByte_setHs, hl, if_pos (by omega)]
    rw [show at_ + i - at_ = i by omega, List.getD_eq_getElem _ _ h2]

theorem setHs_frame (bs : List Byte) (s : State) (pa : Nat) : ∃ m, s.setHs pa bs = { s with mem := m } := by
  induction bs generalizing s pa with
  | nil => exact ⟨s.mem, rfl⟩
  | cons b t ih =>
    unfold State.setHs
    obtain ⟨m, h⟩ := ih (s.setH pa b) (pa + 1)
    exact ⟨m, h⟩

theorem hNat_congr {s t : State} (h : t.mem = s.mem) (a n : Nat) : t.hNat a n = s.hNat a n := by
  unfold State.hNat State.hByte; rw [h]

/-- What the ordering machine's own steps leave: units keep who they are, and registers but CAPFULL. -/
structure Mild (s t : State) : Prop where
  only : OnlyMem s t
  regs : ∀ p f, f ≠ .capFull → t.preg p f = s.preg p f
  who : ∀ l, (kget t.launches l).map (fun x => (x.part, x.ctx)) = (kget s.launches l).map (fun x => (x.part, x.ctx))
  keep : ∀ k l, kget s.launches k = some l → ∃ l', kget t.launches k = some l' ∧ l'.lr = l.lr ∧ l'.nextBlk = l.nextBlk ∧ l'.pass = l.pass

theorem Mild.refl (s : State) : Mild s s := ⟨.refl s, fun _ _ _ => rfl, fun _ => rfl, fun _ l h => ⟨l, h, rfl, rfl, rfl⟩⟩

theorem Mild.trans {a b c : State} (h : Mild a b) (k : Mild b c) : Mild a c :=
  ⟨h.only.trans k.only, fun p f hf => (k.regs p f hf).trans (h.regs p f hf), fun l => (k.who l).trans (h.who l),
    fun n l hl => by
      obtain ⟨l1, a1, a2, a3, a4⟩ := h.keep n l hl
      obtain ⟨l2, b1, b2, b3, b4⟩ := k.keep n l1 a1
      exact ⟨l2, b1, b2.trans a2, b3.trans a3, b4.trans a4⟩⟩

theorem Mild.foldl {α : Type} (f : State → α → State) (hf : ∀ s a, Mild s (f s a)) (l : List α) (s : State) : Mild s (l.foldl f s) := by
  induction l generalizing s with
  | nil => exact .refl s
  | cons a t ih => exact (hf s a).trans (ih _)

theorem Mild.whoEq {s t : State} (h : Mild s t) (u : Nat) : t.who u = s.who u := by
  unfold State.who
  rw [h.only.warps, h.only.blocks]
  cases kget s.warps u with
  | none => rfl
  | some w =>
    dsimp only
    cases kget s.blocks w.blk with
    | none => rfl
    | some b =>
      dsimp only
      have := h.who b.launch
      cases h1 : kget t.launches b.launch with
      | none =>
        rw [h1] at this
        cases h2 : kget s.launches b.launch with
        | none => rfl
        | some l => rw [h2] at this; cases this
      | some l' =>
        rw [h1] at this
        cases h2 : kget s.launches b.launch with
        | none => rw [h2] at this; cases this
        | some l =>
          rw [h2] at this
          simp only [Option.map_some, Option.some.injEq, Prod.mk.injEq] at this
          dsimp only
          rw [this.1, this.2]

theorem mild_of {s t : State} (h : OnlyMem s t) (hr : t.regs = s.regs) (hl : t.launches = s.launches) : Mild s t :=
  ⟨h, fun p f _ => by show t.regs.get _ = s.regs.get _; rw [hr], fun l => by rw [hl], fun k l h => ⟨l, by rw [hl]; exact h, rfl, rfl, rfl⟩⟩

theorem mild_cores {s t : State} (h : ∃ cs, t = { s with cores := cs }) : Mild s t := by
  obtain ⟨cs, rfl⟩ := h; exact mild_of rfl rfl rfl

theorem mild_setLaunch (s : State) (lid : Nat) (l x : Launch) (h : kget s.launches lid = some l) (hp : x.part = l.part) (hc : x.ctx = l.ctx)
    (hk : x.lr = l.lr ∧ x.nextBlk = l.nextBlk ∧ x.pass = l.pass) : Mild s (s.setLaunch lid x) := by
  refine ⟨rfl, fun _ _ _ => rfl, fun k => ?_, fun k l1 h1 => ?_⟩
  · simp only [setLaunch_launches, kget_kput]
    split
    · rename_i hk; subst hk; rw [h]; simp [hp, hc]
    · rfl
  · by_cases hkl : k = lid
    · subst hkl
      rw [h] at h1; cases h1
      exact ⟨x, kget_kput_self .., hk.1, hk.2.1, hk.2.2⟩
    · exact ⟨l1, by simp only [setLaunch_launches, kget_kput, if_neg hkl]; exact h1, rfl, rfl, rfl⟩

theorem mild_mem {s t : State} (h : ∃ m, t = { s with mem := m }) : Mild s t := by
  obtain ⟨m, rfl⟩ := h; exact mild_of rfl rfl rfl

theorem mild_propagate (s : State) (v l : Nat) : Mild s (s.propagate v l) := by
  unfold State.propagate
  split
  · exact .refl s
  · split
    · exact .refl s
    · exact mild_of rfl rfl rfl

theorem mild_cvDrop (s : State) (v l : Nat) : Mild s (s.cvDrop v l) := mild_cores (cvDrop_frame s v l)

theorem mild_cvDropAll (s : State) (l : Nat) : Mild s (s.cvDropAll l) :=
  .foldl _ (fun s v => (mild_propagate s v l).trans (mild_cvDrop _ v l)) _ _

theorem mild_capture (s : State) (lid pa : Nat) : Mild s (s.capture lid pa) := by
  unfold State.capture
  split
  · exact .refl s
  · rename_i l hl
    dsimp only
    split
    · exact .refl s
    · split
      · obtain ⟨m, h⟩ := setHs_frame ((List.range (2 ^ 14)).map (fun j => s.hByte (pa / 2 ^ 14 * 2 ^ 14 + j))) s (s.preg l.part .capBase + 2 ^ 14 * l.captured.length)
        rw [h]
        exact (mild_mem ⟨m, rfl⟩).trans (mild_setLaunch _ lid l _ hl rfl rfl ⟨rfl, rfl, rfl⟩)
      · have h1 : Mild s (s.setPreg l.part .capFull 1) := by
          refine ⟨rfl, fun p f hf => ?_, fun _ => rfl, fun _ l h => ⟨l, h, rfl, rfl, rfl⟩⟩
          exact reg_setReg_ne s _ (by intro h; cases h; exact hf rfl)
        exact h1.trans (mild_setLaunch _ lid l _ hl rfl rfl ⟨rfl, rfl, rfl⟩)

theorem mild_captureBy (s : State) (l : Option Nat) (wid pa : Nat) : Mild s (s.captureBy l wid pa) := by
  unfold State.captureBy
  split
  · exact .refl s
  · split
    · exact mild_capture ..
    · refine .foldl _ (fun s a => ?_) _ _
      split
      · exact mild_capture ..
      · exact .refl s

theorem mild_logEntry (s : State) (lid die kind va lcore warp run data : Nat) : Mild s (s.logEntry lid die kind va lcore warp run data) := by
  unfold State.logEntry
  split
  · exact .refl s
  · rename_i l hl
    split
    · exact .refl s
    · dsimp only
      split
      · exact (mild_mem (vWrite_eq ..)).trans (mild_mem (vWrite_eq ..))
      · obtain ⟨m, h⟩ := vWrite_eq (bytesLE 4 1) s l.part l.ctx (l.logAt die + 4)
        rw [h]
        exact (mild_mem ⟨m, rfl⟩).trans (mild_setLaunch _ lid l _ hl rfl rfl ⟨rfl, rfl, rfl⟩)

theorem mild_logRace (s : State) (w : MsWrite) (n : Nat) : Mild s (s.logRace w n) := by
  unfold State.logRace
  split
  · split
    · exact .refl s
    · exact mild_logEntry ..
  · exact .refl s

theorem mild_applyByte (s : State) (pa : Nat) : Mild s (s.applyByte pa) := by
  unfold State.applyByte
  split
  · exact .refl s
  · rename_i w0 _
    dsimp only
    have h0 : Mild s (if w0.eng then s.cvDropAll (pa / lineBytes) else s) := by
      split
      · exact mild_cvDropAll ..
      · exact .refl s
    generalize (if w0.eng then s.cvDropAll (pa / lineBytes) else s) = s1 at h0 ⊢
    split
    · exact h0
    · refine h0.trans (.trans (b := { s1 with ms := s1.ms.filter (fun x => x.pa != pa) }) (mild_of rfl rfl rfl) ?_)
      generalize ({ s1 with ms := s1.ms.filter (fun x => x.pa != pa) } : State) = s2
      have key : ∀ (s2 : State) (l : Option Nat) (wid : Nat) (v : Byte) (wn : MsWrite) (n : Nat),
          Mild s2 (((((s2.captureBy l wid pa).setH pa v).rcDrop (pa / lineBytes)).logRace wn n)) := by
        intro s2 l wid v wn n
        refine ((mild_captureBy s2 l wid pa).trans ?_).trans (mild_logRace _ wn n)
        obtain ⟨r, h⟩ := rcDrop_frame ((s2.captureBy l wid pa).setH pa v) (pa / lineBytes)
        rw [h]; exact mild_of rfl rfl rfl
      exact key _ _ _ _ _ _

theorem mild_apply (s : State) (pa : Nat) : Mild s (s.apply pa) := .foldl _ (fun s a => mild_applyByte s a) _ _

theorem mild_applyLine (s : State) (l : Nat) : Mild s (s.applyLine l) := .foldl _ (fun s a => mild_apply s a) _ _

theorem mild_writeBack (s : State) (v l : Nat) : Mild s (s.writeBack v l) := (mild_propagate s v l).trans (mild_applyLine _ l)

theorem mild_dropPage (s : State) (pte sz : Nat) : Mild s (s.dropPage pte sz) :=
  .foldl _ (fun s c => .foldl _ (fun s l => ((mild_propagate s _ _).trans (mild_cvDrop _ _ _)).trans (mild_applyLine _ _)) _ _) _ _

theorem tlbDrop_frame (s : State) (p : Nat) (hit : TlbEntry → Bool) :
    ∃ cs, s.tlbDrop p hit = { s with cores := cs, tlb := s.tlb.filter (fun e => !(e.part == p && hit e)) } := by
  unfold State.tlbDrop
  dsimp only
  have h1 : ∀ (cs : KMap Core) (f : Core → Core) (s : State), ∃ k, cs.foldl (fun st c => st.modCore c.1 f) s = { s with cores := k } := by
    intro cs f s
    exact foldl_frame _ (fun s a => ⟨_, rfl⟩) _ _
  generalize s.tlb.filter (fun e => e.part == p && hit e && e.isLeaf) = gone
  obtain ⟨k, h⟩ := foldl_frame (fun (st : State) (e : TlbEntry) => st.cores.foldl (fun st c => st.modCore c.1 (fun x => x.killWatches (fun w =>
    w.part == p && w.lines.any (fun l => CvLine.inPage l e.pte e.szBits)))) st) (fun s e => h1 _ _ _) gone { s with tlb := s.tlb.filter (fun e => !(e.part == p && hit e)) }
  exact ⟨k, h⟩

def unparkW (page : Nat) (w : Warp) : Warp := (w.frontier.filter (fun x => match x.st with
          | .parked (.driver g _) => g == page
          | _ => false)).foldl (fun w x => { w.move x.mask x.pc .ready with locked := true }) w

theorem parked_iff (page : Nat) (e : Entry) : (match e.st with
          | .parked (.driver g _) => g == page
          | _ => false) = true ↔ ParkedOn page e := by
  unfold ParkedOn
  constructor
  · intro h
    split at h
    · rename_i g acc hg
      exact ⟨acc, by rw [hg, beq_iff_eq.1 h]⟩
    · cases h
  · rintro ⟨acc, h⟩
    rw [h]; simp

theorem not_stands_moves' (es : List Entry) (tgt : Entry → DWord) (w : Warp) (l : Nat) (q : EntSt) (hq : q ≠ .ready)
    (h : (∀ p, ¬w.stands l p q) ∨ ∃ e ∈ es, e.mask.getLsbD l = true) :
    ∀ p, ¬(es.foldl (fun w e => w.move e.mask (tgt e) .ready) w).stands l p q := by
  induction es generalizing w with
  | nil =>
    rcases h with h | ⟨e, he, -⟩
    · exact h
    · cases he
  | cons a t ih =>
    rw [List.foldl_cons]
    apply ih
    have hm := move_moved w a.mask (tgt a) .ready
    by_cases hl : a.mask.getLsbD l = true
    · left
      intro p hs
      rw [hm l p _, if_pos hl] at hs
      exact hq hs.2
    · rcases h with h | ⟨e, he, hel⟩
      · left; intro p hs
        rw [hm l p _, if_neg hl] at hs
        exact h p hs
      · rcases List.mem_cons.1 he with rfl | he
        · exact absurd hel hl
        · exact .inr ⟨e, he, hel⟩

theorem kept_moves (es : List Entry) (tgt : Entry → DWord) (w : Warp) : Kept w (es.foldl (fun w e => w.move e.mask (tgt e) .ready) w) ∧
    (es.foldl (fun w e => w.move e.mask (tgt e) .ready) w).blk = w.blk ∧ (es.foldl (fun w e => w.move e.mask (tgt e) .ready) w).tile = w.tile ∧
    (es.foldl (fun w e => w.move e.mask (tgt e) .ready) w).wid = w.wid := by
  have : ∀ (es : List Entry) (w : Warp), ∃ f n t, es.foldl (fun w e => w.move e.mask (tgt e) .ready) w = { w with frontier := f, fair := n, turn := t } := by
    intro es
    induction es with
    | nil => intro w; exact ⟨w.frontier, w.fair, w.turn, rfl⟩
    | cons a t ih =>
      intro w
      rw [List.foldl_cons]
      obtain ⟨f, n, tn, h⟩ := move_eq w a.mask (tgt a) .ready
      rw [h]
      obtain ⟨f', n', tn', h'⟩ := ih { w with frontier := f, fair := n, turn := tn }
      exact ⟨f', n', tn', h'⟩
  obtain ⟨f, n, tn, h⟩ := this es w
  rw [h]; exact ⟨kept_of_frontier .., rfl, rfl, rfl⟩

theorem kept_unpark (page : Nat) (w : Warp) : Kept w (unparkW page w) ∧
    (unparkW page w).blk = w.blk ∧ (unparkW page w).tile = w.tile ∧ (unparkW page w).wid = w.wid := by
  unfold unparkW
  obtain ⟨k, h⟩ := lockedMoves (w.frontier.filter (fun x => match x.st with
          | .parked (.driver g _) => g == page
          | _ => false)) (fun x => x.pc) w
  rw [h]
  exact kept_moves _ (fun x => x.pc) w

theorem unparkW_idem (page : Nat) (w : Warp) : unparkW page (unparkW page w) = unparkW page w := by
  have hzero : ∀ e ∈ (unparkW page w).frontier, ParkedOn page e → e.mask = 0 := by
    rintro e he ⟨acc, hst⟩
    apply mask_zero
    intro l
    cases hl : e.mask.getLsbD l with
    | false => rfl
    | true =>
      exfalso
      obtain ⟨k, hk⟩ := lockedMoves (w.frontier.filter (fun x => match x.st with
          | .parked (.driver g _) => g == page
          | _ => false)) (fun x => x.pc) w
      have he : e ∈ ((w.frontier.filter (fun x => match x.st with
          | .parked (.driver g _) => g == page
          | _ => false)).foldl (fun w x => w.move x.mask x.pc .ready) w).frontier := by
        unfold unparkW at he; rw [hk] at he; exact he
      refine not_stands_moves' _ (fun x => x.pc) w l (.parked (.driver page acc)) (by simp) ?_ e.pc ⟨e, he, hl, rfl, hst⟩
      by_cases h : ∀ p, ¬w.stands l p (.parked (.driver page acc))
      · exact .inl h
      · push Not at h
        obtain ⟨p, x, hx, hxl, -, hxs⟩ := h
        exact .inr ⟨x, List.mem_filter.2 ⟨hx, (parked_iff page x).2 ⟨acc, hxs⟩⟩, hxl⟩
  have hlk : unparkW page w = w ∨ (unparkW page w).locked = true := by
    unfold unparkW
    generalize w.frontier.filter _ = es
    have key : ∀ (es : List Entry) (v : Warp), v.locked = true → (es.foldl (fun w x => { w.move x.mask x.pc .ready with locked := true }) v).locked = true := by
      intro es
      induction es with
      | nil => exact fun _ h => h
      | cons a t ih => exact fun v _ => ih _ rfl
    cases es with
    | nil => exact .inl rfl
    | cons a t => exact .inr (key t _ rfl)
  rcases hlk with h | hlk
  · rw [h]; exact h
  generalize unparkW page w = v at hzero hlk ⊢
  have : ∀ (es : List Entry), (∀ e ∈ es, e.mask = 0) → es.foldl (fun w x => { w.move x.mask x.pc .ready with locked := true }) v = v := by
    intro es
    induction es with
    | nil => intro _; rfl
    | cons a t ih =>
      intro h
      rw [List.foldl_cons]
      have h1 : v.move a.mask a.pc .ready = v := by unfold Warp.move; rw [if_pos (h a (by simp))]
      have h2 : ({ v.move a.mask a.pc .ready with locked := true } : Warp) = v := by rw [h1, ← hlk]
      rw [h2]
      exact ih (fun e he => h e (by simp [he]))
  unfold unparkW
  refine this _ (fun e he => ?_)
  obtain ⟨h1, h2⟩ := List.mem_filter.1 he
  exact hzero e h1 ((parked_iff page e).1 h2)

theorem who_modWarp (s : State) (v u : Nat) (f : Warp → Warp) (hf : ∀ w, (f w).blk = w.blk ∧ (f w).tile = w.tile ∧ (f w).wid = w.wid) :
    (s.modWarp v f).who u = s.who u := by
  have hk : kget (s.modWarp v f).warps u = if u = v then (kget s.warps u).map f else kget s.warps u := by
    show kget (kmod s.warps v _) u = _
    split
    · rename_i hu; subst hu; exact kget_kmod_self _ _ _
    · rename_i hu; exact kget_kmod_ne _ _ hu
  have hb : (s.modWarp v f).blocks = s.blocks := rfl
  have hl : (s.modWarp v f).launches = s.launches := rfl
  unfold State.who
  rw [hk, hb, hl]
  split
  · rename_i hn
    split at hn
    · cases hw : kget s.warps u with
      | none => rfl
      | some w => rw [hw] at hn; cases hn
    · rw [hn]
  · rename_i w' hw'
    split at hw'
    · cases hw : kget s.warps u with
      | none => rw [hw] at hw'; cases hw'
      | some w =>
        rw [hw] at hw'
        simp only [Option.map_some, Option.some.injEq] at hw'
        obtain ⟨h1, h2, h3⟩ := hf w
        rw [hw'] at h1 h2 h3
        dsimp only
        rw [h1, h2, h3]
    · rw [hw']

theorem unpark_spec (p ctx page : Nat) (s : State) :
    (∃ ws, s.unpark p ctx page = { s with warps := ws }) ∧
    ∀ u w q, kget s.warps u = some w → s.who u = some q → q.part = p → q.ctx = ctx → kget (s.unpark p ctx page).warps u = some (unparkW page w) := by
  have key : ∀ (L : List (Nat × Warp)) (s : State),
      let t := L.foldl (fun (st : State) e =>
        match st.who e.1 with
        | some q =>
          if q.part = p ∧ q.ctx = ctx then st.modWarp e.1 (unparkW page) else st
        | none => st) s
      (∃ ws, t = { s with warps := ws }) ∧ (∀ u, t.who u = s.who u) ∧
      ∀ u w q, kget s.warps u = some w → s.who u = some q → q.part = p → q.ctx = ctx →
        (u ∈ L.map (·.1) → kget t.warps u = some (unparkW page w)) ∧ (u ∉ L.map (·.1) → kget t.warps u = some w) := by
    intro L
    induction L with
    | nil => intro s t; refine ⟨⟨s.warps, rfl⟩, fun _ => rfl, fun u w q h _ _ _ => ⟨fun h => ?_, fun _ => h⟩⟩; simp at h
    | cons a r ih =>
      intro s t
      obtain ⟨s1, hs1⟩ : ∃ s1, s1 = (match s.who a.1 with
        | some q =>
          if q.part = p ∧ q.ctx = ctx then s.modWarp a.1 (unparkW page) else s
        | none => s) := ⟨_, rfl⟩
      have ht : t = r.foldl (fun (st : State) e =>
        match st.who e.1 with
        | some q =>
          if q.part = p ∧ q.ctx = ctx then st.modWarp e.1 (unparkW page) else st
        | none => st) s1 := by rw [hs1]; rfl
      have hcase : s1 = s ∨ s1 = s.modWarp a.1 (unparkW page) := by
        rw [hs1]; split
        · split
          · exact .inr rfl
          · exact .inl rfl
        · exact .inl rfl
      have hmatch : ∀ q, s.who a.1 = some q → q.part = p → q.ctx = ctx → s1 = s.modWarp a.1 (unparkW page) := by
        intro q h1 h2 h3; rw [hs1, h1]; dsimp only; rw [if_pos ⟨h2, h3⟩]
      have hwho : ∀ u, s1.who u = s.who u := by
        intro u
        rcases hcase with h | h
        · rw [h]
        · rw [h]
          exact who_modWarp s a.1 u _ (fun w => (kept_unpark page w).2)
      obtain ⟨⟨ws, i1⟩, i2, i3⟩ := ih s1
      rw [← ht] at i1 i2 i3
      have hws : ∃ ws, s1 = { s with warps := ws } := by
        rcases hcase with h | h
        · rw [h]; exact ⟨s.warps, rfl⟩
        · rw [h]; exact ⟨_, rfl⟩
      obtain ⟨ws', hws'⟩ := hws
      refine ⟨⟨ws, by rw [i1, hws']⟩, fun u => (i2 u).trans (hwho u), ?_⟩
      intro u w q hu hq h1 h2
      have hq1 : s1.who u = some q := by rw [hwho]; exact hq
      by_cases hua : u = a.1
      · subst hua
        have hk : kget s1.warps a.1 = some (unparkW page w) := by rw [hmatch q hq h1 h2]; exact modWarp_get hu _
        obtain ⟨j1, j2⟩ := i3 a.1 _ q hk hq1 h1 h2
        refine ⟨fun _ => ?_, fun h => absurd (by simp) h⟩
        by_cases hr : a.1 ∈ r.map (·.1)
        · rw [j1 hr, unparkW_idem]
        · exact j2 hr
      · have hk : kget s1.warps u = some w := by
          rcases hcase with h | h
          · rw [h]; exact hu
          · rw [h]
            show kget (kmod s.warps a.1 _) u = _
            rw [kget_kmod_ne _ _ hua]; exact hu
        obtain ⟨j1, j2⟩ := i3 u w q hk hq1 h1 h2
        refine ⟨fun h => j1 ?_, fun h => j2 ?_⟩
        · rcases List.mem_cons.1 h with h | h
          · exact absurd h hua
          · exact h
        · intro h'; exact h (List.mem_cons_of_mem _ h')
  obtain ⟨k1, -, k3⟩ := key s.warps s
  refine ⟨k1, fun u w q h1 h2 h3 h4 => (k3 u w q h1 h2 h3 h4).1 ?_⟩
  exact List.mem_map.2 ⟨(u, w), kget_mem h1, rfl⟩

theorem ev_intro {i : Instr} {s : State} {P : State → Prop} (x : State) (hx : exec i s = .next x) (h : ∀ t, t = x → P t) :
    ∃ t, exec i s = .next t ∧ P t := ⟨x, hx, h x rfl⟩

theorem foldl_rel {α : Type} (R : State → State → Prop) (hr : ∀ s, R s s) (ht : ∀ a b c, R a b → R b c → R a c) (f : State → α → State)
    (hf : ∀ s a, R s (f s a)) (l : List α) (s : State) : R s (l.foldl f s) := by
  induction l generalizing s with
  | nil => exact hr s
  | cons a t ih => exact ht _ _ _ (hf s a) (ih _)

theorem part_modPart (s : State) (p n : Nat) (f : Part → Part) : (s.modPart p f).part n = if n = p then f (s.part p) else s.part n := by
  show sget _ (sset _ _ _ _) _ = _
  split
  · rename_i h; subst h; exact sget_sset_self ..
  · rename_i h; exact sget_sset_ne _ _ _ h

theorem unpause_frame (s : State) (p ctx page : Nat) : ∃ es ms, s.unpause p ctx page = { s with engines := es, mengs := ms } := by
  have hr : ∀ s : State, ∃ es ms, s = { s with engines := es, mengs := ms } := fun s => ⟨s.engines, s.mengs, rfl⟩
  have ht : ∀ a b c : State, (∃ es ms, b = { a with engines := es, mengs := ms }) → (∃ es ms, c = { b with engines := es, mengs := ms }) →
      ∃ es ms, c = { a with engines := es, mengs := ms } := by
    rintro a b c ⟨x, y, rfl⟩ ⟨z, w, rfl⟩; exact ⟨z, w, rfl⟩
  unfold State.unpause
  refine ht _ _ _ (foldl_rel (fun a b => ∃ es ms, b = { a with engines := es, mengs := ms }) hr ht _ ?_ s.engines s)
    (foldl_rel (fun a b => ∃ es ms, b = { a with engines := es, mengs := ms }) hr ht _ ?_ _ _)
  · intro s a
    dsimp only
    split
    · split
      · exact ⟨_, s.mengs, rfl⟩
      · exact hr s
    · exact hr s
  · intro s a; exact ⟨s.engines, _, rfl⟩

theorem errWaiters_nil (s : State) (p ctx page : Nat) (h : ∀ b ∈ s.blocks, b.2.errWait = none) : s.errWaiters p ctx page = [] := by
  unfold State.errWaiters
  rw [List.filterMap_eq_nil_iff]
  intro b hb
  rw [h b hb]

theorem releasePage_spec (s : State) (p ctx page : Nat) (h : ∀ b ∈ s.blocks, b.2.errWait = none) (hi : (s.part p).inb = []) :
    (∃ ws ps es ms, s.releasePage p ctx page = { s with warps := ws, parts := ps, engines := es, mengs := ms }) ∧
    ((s.releasePage p ctx page).part p).outst = (s.part p).outst.filter (fun o => !(o.ctx == ctx && o.page == page)) ∧
    ∀ u w q, kget s.warps u = some w → s.who u = some q → q.part = p → q.ctx = ctx →
      kget (s.releasePage p ctx page).warps u = some (unparkW page w) := by
  unfold State.releasePage
  rw [errWaiters_nil s p ctx page h]
  dsimp only [List.foldl_nil]
  obtain ⟨⟨ws, h1⟩, h2⟩ := unpark_spec p ctx page (s.clearOutst p ctx page)
  obtain ⟨es, ms, h3⟩ := unpause_frame ((s.clearOutst p ctx page).unpark p ctx page) p ctx page
  have h2' : ∀ u w q, kget s.warps u = some w → s.who u = some q → q.part = p → q.ctx = ctx →
      kget ((s.clearOutst p ctx page).unpark p ctx page).warps u = some (unparkW page w) := h2
  rw [h3]
  generalize (s.clearOutst p ctx page).unpark p ctx page = t at h1 h2'
  obtain ⟨ps, hps⟩ : ∃ ps, s.clearOutst p ctx page = { s with parts := ps } := ⟨_, rfl⟩
  have hp1 : t.part p = { s.part p with outst := (s.part p).outst.filter (fun o => !(o.ctx == ctx && o.page == page)) } := by
    rw [h1]
    show (s.clearOutst p ctx page).part p = _
    unfold State.clearOutst; rw [part_modPart, if_pos rfl]
  have hin : (State.part { t with engines := es, mengs := ms } p).inb = [] := by
    show (t.part p).inb = []
    rw [hp1]; exact hi
  have hret : ∀ sel, State.inbRetry { t with engines := es, mengs := ms } p sel = { t with engines := es, mengs := ms } := by
    intro sel; unfold State.inbRetry; rw [hin]; rfl
  rw [hret]
  refine ⟨⟨ws, ps, es, ms, ?_⟩, ?_, fun u w q a b c d => h2' u w q a b c d⟩
  · rw [h1, hps]
  · show (t.part p).outst = _
    rw [hp1]

theorem filter_outst {l : List Outst} {ctx page : Nat} : ∀ x ∈ l.filter (fun o => !(o.ctx == ctx && o.page == page)), ¬(x.ctx = ctx ∧ x.page = page) := by
  intro x hx
  have := (List.mem_filter.1 hx).2
  rintro ⟨h1, h2⟩
  simp [h1, h2] at this

theorem isOutst_of {s : State} {p ctx page : Nat} {o : Outst} (h : o ∈ (s.part p).outst) (h1 : o.ctx = ctx) (h2 : o.page = page) : s.isOutst p ctx page = true := by
  unfold State.isOutst
  rw [List.any_eq_true]
  exact ⟨o, h, by simp [h1, h2]⟩

theorem readied_unpark (page : Nat) (w : Warp) : Kept w (unparkW page w) ∧ Readied w (unparkW page w) (ParkedOn page) (fun e => e.pc) := by
  refine ⟨(kept_unpark page w).1, ?_⟩
  obtain ⟨k, h⟩ := lockedMoves (w.frontier.filter (fun x => match x.st with
          | .parked (.driver g _) => g == page
          | _ => false)) (fun x => x.pc) w
  unfold unparkW
  rw [h]
  exact readied_fold w _ (ParkedOn page) (fun e => e.pc) (fun e _ => parked_iff page e)

theorem part_out (s : State) (o : Outbox) (p : Nat) : State.part { s with out := o } p = s.part p := rfl

theorem setBits_class {pte : Nat} (h : pteClass pte = 2) : setBits pte 7 5 3 = pte + 2 ^ 5 := by
  unfold pteClass at h
  unfold setBits
  rw [h]
  unfold bits at h
  norm_num at h ⊢
  omega

theorem refuseUnits_frame (s : State) (p ctx page : Nat) : ∃ es ms, s.refuseUnits p ctx page = { s with engines := es, mengs := ms } := by
  have hr : ∀ s : State, ∃ es ms, s = { s with engines := es, mengs := ms } := fun s => ⟨s.engines, s.mengs, rfl⟩
  have ht : ∀ a b c : State, (∃ es ms, b = { a with engines := es, mengs := ms }) → (∃ es ms, c = { b with engines := es, mengs := ms }) →
      ∃ es ms, c = { a with engines := es, mengs := ms } := by
    rintro a b c ⟨x, y, rfl⟩ ⟨z, w, rfl⟩; exact ⟨z, w, rfl⟩
  unfold State.refuseUnits
  refine ht _ _ _ (foldl_rel (fun a b => ∃ es ms, b = { a with engines := es, mengs := ms }) hr ht _ ?_ s.engines s)
    (foldl_rel (fun a b => ∃ es ms, b = { a with engines := es, mengs := ms }) hr ht _ ?_ _ _)
  · intro s a
    dsimp only
    split
    · split
      · exact ⟨_, s.mengs, rfl⟩
      · exact hr s
    · exact hr s
  · intro s a; exact ⟨s.engines, _, rfl⟩

theorem mem_kdel' {α : Type} (m : KMap α) (k : Nat) (x : Nat × α) (h : x ∈ kdel m k) : x ∈ m ∧ x.1 ≠ k := by
  induction m with
  | nil => cases h
  | cons a r ih =>
    unfold kdel at h
    split at h
    · exact ⟨List.mem_cons_of_mem _ (ih h).1, (ih h).2⟩
    · rename_i hk
      rcases List.mem_cons.1 h with rfl | h
      · exact ⟨by simp, hk⟩
      · exact ⟨List.mem_cons_of_mem _ (ih h).1, (ih h).2⟩

end Sys2Proof
end

