-- ==== Sys2Proof/Laws/Cipher.lean ====
section
/-! SUPPORT. The buffer cipher undoes itself: with the key, the tweak and the place it was enciphered with, data is the plain text again
(R327). -/

namespace Sys2Proof.Machine

theorem exchange_twice (n : Nat) (e : Nat × Nat) (x : Nat) : exchange n e (exchange n e x) = x := by
  unfold exchange
  split
  · rfl
  · by_cases h : x = e.1
    · subst h; by_cases h2 : e.2 = e.1 <;> simp [h2]
    · by_cases h2 : x = e.2 <;> simp [h, h2]

theorem exchange_lt {n x : Nat} (e : Nat × Nat) (h : x < n) : exchange n e x < n := by
  unfold exchange
  split
  · exact h
  · split
    · omega
    · split <;> omega

theorem exchanges_lt (n : Nat) (es : List (Nat × Nat)) : ∀ x, x < n → es.foldl (fun x e => exchange n e x) x < n := by
  induction es with
  | nil => exact fun _ h => h
  | cons e t ih => exact fun x h => ih _ (exchange_lt e h)

theorem exchanges_back (n : Nat) (es : List (Nat × Nat)) (x : Nat) :
    es.reverse.foldl (fun x e => exchange n e x) (es.foldl (fun x e => exchange n e x) x) = x := by
  induction es generalizing x with
  | nil => rfl
  | cons e t ih => rw [List.foldl_cons, List.reverse_cons, List.foldl_append, ih]; exact exchange_twice n e x

theorem bytesLE_natLE (bs : List Byte) : bytesLE bs.length (natLE bs) = bs := by
  induction bs with
  | nil => rfl
  | cons b t ih =>
    have := b.isLt
    rw [List.length_cons, bytesLE, natLE, show (b.toNat + 256 * natLE t) / 256 = natLE t by omega, ih]
    exact congrArg (· :: t) (BitVec.eq_of_toNat_eq (by simp; omega))

/-- Deciphering undoes enciphering. -/
theorem xtsUnit_back (key tweak at_ : Nat) (bs : List Byte) : xtsUnit false key tweak at_ (xtsUnit true key tweak at_ bs) = bs := by
  have hx := exchanges_lt _ (Config.xts key tweak at_ bs.length) _ (natLE_lt bs)
  unfold xtsUnit
  simp only [bytesLE_length, if_true, Bool.false_eq_true, if_false]
  rw [natLE_bytesLE_mod, Nat.mod_eq_of_lt hx, exchanges_back, bytesLE_natLE]

end Sys2Proof.Machine
end

