-- ==== Sys2Proof/Laws/Engines.lean ====
section
/-! SUPPORT. Engines and matrix engines: what the shared operations do. -/

namespace Sys2Proof

open Sys2Proof.Machine

theorem runIs_putRun (s : State) (eng : Nat) (c : Cmd) : RunIs s (s.putRun eng c) eng c := by
  unfold State.putRun
  refine ⟨rfl, by rw [engine_setEngine, if_pos rfl], fun f hf => by rw [engine_setEngine, if_neg hf]⟩

theorem mem_dedup {α : Type} [DecidableEq α] (l : List α) (x : α) : x ∈ dedup l ↔ x ∈ l := by
  induction l with
  | nil => rfl
  | cons a t ih =>
    unfold dedup
    simp only [List.mem_cons, List.mem_filter, ih, decide_eq_true_eq]
    by_cases h : x = a
    · simp [h]
    · simp [h]

theorem scoutAll_passes (eng : Nat) (c : Cmd) (k : Nat) (l : List (Acc × Nat × Nat)) (s t : State) (h : ScoutPasses eng c l s t) :
    s.scoutAll eng c k l = t.putRun eng (if c.mode = 2 then { c with scouted := dedup (c.scouted ++ c.pagesAt k), wrote := c.wrote ++ [k] }
      else { c with scouted := dedup (c.scouted ++ c.pagesAt k) }) := by
  induction l generalizing s with
  | nil => rw [show t = s from h]; rfl
  | cons a r ih =>
    obtain ⟨acc, va, n⟩ := a
    obtain ⟨bs, h1, h2⟩ := h
    unfold State.scoutAll
    dsimp only
    rw [h1]
    exact ih _ h2

theorem cmdRead_ok (s s1 : State) (eng : Nat) (c : Cmd) (lane va n : Nat) (bs : List PByte) (ho : isOutside bs = false)
    (h : s.unitCheckRej c.rejected [.engine eng] (s.cmdWho eng c) 0x11 .load va n = (s1, .ok bs)) :
    s.cmdRead eng c lane va n = (s1, .ok (natLE (engineBytes s1 bs), bs.foldl (fun m b => max m b.lev) 0)) := by
  unfold State.cmdRead
  dsimp only
  rw [h]
  dsimp only
  rw [ho, Bool.and_false, if_neg (by decide)]
  unfold State.unitRead State.unitReadWith
  rw [ho, if_neg (by decide)]
  rfl

theorem unitWrite_mem (s : State) (p : Who) (id lane wid : Nat) (l : Option Nat) (bs : List PByte) (vs : List Byte) (ho : isOutside bs = false)
    (hm : ∀ b ∈ bs, ∃ pa, b.loc = .mem pa) : s.unitWrite p id lane wid l bs vs = { s with ms := s.ms ++ s.stagedBytes wid l bs vs } := by
  unfold State.unitWrite State.stagedBytes
  rw [ho, if_neg (by decide)]
  generalize (bs.head?).elim 0 (·.va) = va
  generalize bs.length = n
  have : ∀ (L : List (PByte × Byte)) (s : State), (∀ b ∈ L, ∃ pa, b.1.loc = .mem pa) → L.foldl (fun (st : State) b => match b.1.loc with
    | .mem pa => { st with ms := st.ms ++ [⟨pa, b.2, wid, 0, b.1.va, l, decide (960 ≤ wid), st.unitNow va n (b.1.va - va)⟩] }
    | .spad blk o => st.spadWrite blk o b.2
    | .peer _ _ => st) s = { s with ms := s.ms ++ L.map (fun b => ⟨match b.1.loc with
          | .mem pa => pa
          | _ => 0, b.2, wid, 0, b.1.va, l, decide (960 ≤ wid), s.unitNow va n (b.1.va - va)⟩) } := by
    intro L
    induction L with
    | nil => intro s _; simp
    | cons a r ih =>
      intro s h
      obtain ⟨pa, hpa⟩ := h a (by simp)
      rw [List.foldl_cons]
      simp only [hpa]
      rw [ih _ (fun b hb => h b (by simp [hb]))]
      simp only [List.map_cons, hpa, List.append_assoc, List.cons_append, List.nil_append]
      rfl
  exact this _ s (fun b hb => hm b.1 (List.of_mem_zip (a := b.1) (b := b.2) hb).1)

theorem cmdWrite_ok (s s1 : State) (eng : Nat) (c : Cmd) (lane wid va lev : Nat) (src : Option Nat) (vs : List Byte) (bs : List PByte)
    (ho : isOutside bs = false) (hl : ∀ b ∈ bs, lev ≤ b.lev) (hm : ∀ b ∈ bs, ∃ pa, b.loc = .mem pa)
    (h : s.unitCheckRej c.rejected [.engine eng] (s.cmdWho eng c) 0x11 .store va vs.length = (s1, .ok bs)) :
    s.cmdWrite eng c lane wid va lev src vs = ({ s1 with ms := s1.ms ++ s1.stagedBytes wid c.launch bs vs }, none) := by
  unfold State.cmdWrite
  dsimp only
  rw [h]
  dsimp only
  rw [List.find?_eq_none.2 (by intro b hb; have := hl b hb; simp; omega)]
  dsimp only
  rw [ho, if_neg (by decide), unitWrite_mem _ _ _ _ _ _ _ _ ho hm]

theorem putRun_ms (s1 : State) (m : List MsWrite) (eng : Nat) (c : Cmd) :
    RunIs { s1 with ms := (State.putRun { s1 with ms := m } eng c).ms } (State.putRun { s1 with ms := m } eng c) eng c := runIs_putRun { s1 with ms := m } eng c

theorem collPut_ok (s s1 : State) (eng : Nat) (c : Cmd) (k wid v lev : Nat) (bs : List PByte)
    (ho : isOutside bs = false) (hl : ∀ b ∈ bs, lev ≤ b.lev) (hm : ∀ b ∈ bs, ∃ pa, b.loc = .mem pa)
    (h : s.unitCheckRej c.rejected [.engine eng] (s.cmdWho eng c) 0x11 .store ((c.cdst + collBytes c.ckind * k) % 2 ^ 64) (collBytes c.ckind) = (s1, .ok bs)) :
    s.collPut eng c k wid v lev = State.putRun { s1 with ms := s1.ms ++ s1.stagedBytes wid c.launch bs (bytesLE (collBytes c.ckind) v) } eng { c with wrote := c.wrote ++ [k] } := by
  unfold State.collPut
  dsimp only
  rw [cmdWrite_ok s s1 eng c _ wid _ lev _ _ bs ho hl hm (by rw [bytesLE_length]; exact h)]

theorem cipher_none (s : State) (p : Nat) (enc : Bool) (pa : Nat) (bs : List Byte) (h : (s.part p).allocs = []) : s.cipher p enc pa bs = bs := by
  unfold State.cipher State.recAt
  rw [h]; rfl

theorem wakeTicket_none (s : State) (c : Cmd) (st cause addr info : Nat) (h : NoWaiter s c) : s.wakeTicket c st cause addr info = s := by
  unfold State.wakeTicket
  have : ∀ (L : List (Nat × Warp)), (∀ x ∈ L, x ∈ s.warps) → L.foldl (fun (st' : State) w =>
    match st'.who w.1 with
    | some p =>
      if p.part = c.part ∧ p.ctx = c.ctx then
        (w.2.frontier.filter (fun x => match x.st with
          | .waiting (.ewait t) => t.toNat == c.ticket
          | _ => false)).foldl (fun st' x =>
            let st' := st'.acquire p.view 4
            if st = 2 then st'.takeTrap w.1 x.mask x.pc ⟨cause, info, addr, x.pc, none⟩
            else st'.modWarp w.1 (fun y => { y.move x.mask x.next .ready with locked := true })) st'
      else st'
    | none => st') s = s := by
    intro L
    induction L with
    | nil => intro _; rfl
    | cons a r ih =>
      intro hL
      rw [List.foldl_cons]
      have hf : (a.2.frontier.filter (fun x => match x.st with
          | .waiting (.ewait t) => t.toNat == c.ticket
          | _ => false)) = [] := by
        rw [List.filter_eq_nil_iff]
        intro e he
        split
        · rename_i k hk
          have := h a (hL a (by simp)) e he k hk
          simpa using this
        · simp
      rw [hf]
      simp only [List.foldl_nil, ite_self]
      have : (match s.who a.1 with | some p => s | none => s) = s := by split <;> rfl
      rw [this]
      exact ih (fun x hx => hL x (by simp [hx]))
  exact this s.warps (fun x hx => hx)

theorem retire_ended (s : State) (eng : Nat) (c : Cmd) (status cause addr info : Nat) (h : NoWaiter s c) :
    CmdEnded s (s.retireCmd eng c status cause addr info) eng c status cause addr info := by
  unfold State.retireCmd
  dsimp only
  rw [wakeTicket_none _ _ _ _ _ _ (by exact h)]
  refine ⟨rfl, ?_, ?_, ?_, ?_, ?_, ?_⟩
  · show ((s.setEngine _ _).engine eng).run = none
    rw [engine_setEngine, if_pos rfl]
  · show ((s.setEngine _ _).engine eng).queue = _
    rw [engine_setEngine, if_pos rfl]
  · show ((s.setEngine _ _).engine eng).fin.find? _ = _
    rw [engine_setEngine, if_pos rfl]
    simp
  · intro f hf
    show (s.setEngine _ _).engine f = _
    rw [engine_setEngine, if_neg hf]
  · intro d hd k hk
    obtain ⟨d0, -, rfl⟩ := List.mem_map.1 hd
    have := (List.mem_filter.1 hk).2
    simpa using this
  · intro n y hn hy
    refine ⟨if status = 2 then (if c.coll then 5 else 4) else 0, ?_⟩
    dsimp only
    rw [hn]
    show kget (kmod s.nodes n _) n = _
    rw [kget_kmod_self, hy]
    rfl

theorem tableIs_put (s : State) (cl : Nat) (k : MCmd) : TableIs s (s.putMcmd cl k) cl k := by
  unfold State.putMcmd
  refine ⟨rfl, ?_, fun d hd => by rw [meng_setMeng, if_neg hd]⟩
  rw [meng_setMeng, if_pos rfl]
  unfold replaceIf
  apply List.map_congr_left
  intro x _
  simp only [beq_iff_eq]

theorem mfinish_spec (s : State) (cl : Nat) (c : MCmd) : MFinished s (s.mfinish cl c) cl c := by
  obtain ⟨s1, hs1⟩ : ∃ s1 : State, s1 = { s.setMeng cl { s.meng cl with table := (s.meng cl).table.filter (fun x => x.id != c.id) } with
    ext := s.ext.filter (fun e => !(e.2.u == c.id && !e.2.wr)) } := ⟨_, rfl⟩
  have e : s.mfinish cl c = if s1.postedDone c.u then s1.modWarp c.u (fun w => w.wake (fun e => decide (e.st = .waiting .mwait))) else s1 := by
    rw [hs1]; rfl
  have ht : (s1.meng cl).table = (s.meng cl).table.filter (fun x => x.id != c.id) := by
    rw [hs1]; show ((s.setMeng _ _).meng cl).table = _; rw [meng_setMeng, if_pos rfl]
  have ho : ∀ d, d ≠ cl → s1.meng d = s.meng d := by
    intro d hd; rw [hs1]; show (s.setMeng _ _).meng d = _; rw [meng_setMeng, if_neg hd]
  rw [e]
  by_cases hp : s1.postedDone c.u = true
  · rw [if_pos hp]
    refine ⟨by rw [hs1]; rfl, ht, ho, ?_, ?_⟩
    · intro v hv
      show kget (kmod s1.warps c.u _) v = _
      rw [kget_kmod_ne _ _ hv, hs1]; rfl
    · intro w hw
      refine ⟨w.wake (fun e => decide (e.st = .waiting .mwait)), modWarp_get (by rw [hs1]; exact hw) _, kept_wake .., ?_, ?_⟩
      · intro _
        exact woken_wake w _ _ (fun e _ => by simp)
      · intro h
        have : s1.postedDone c.u = false := h
        rw [hp] at this; cases this
  · rw [if_neg hp]
    refine ⟨by rw [hs1]; rfl, ht, ho, fun v hv => by rw [hs1]; rfl, ?_⟩
    intro w hw
    refine ⟨w, by rw [hs1]; exact hw, ⟨rfl, fun _ _ => rfl, fun _ => rfl, fun _ => rfl⟩, ?_, fun _ => rfl⟩
    intro h; exact absurd h hp

theorem unitRead_in (s : State) (p : Who) (id lane : Nat) (bs : List PByte) (ho : isOutside bs = false) :
    s.unitRead p id lane bs = (s, .bytes (engineBytes s bs)) := by
  unfold State.unitRead State.unitReadWith
  rw [ho, if_neg (by decide)]
  rfl

/-- The row-major place of a cell. -/
theorem cells_fold (f : Nat → Nat → BitVec 40 → BitVec 40) (L : List (Nat × Nat)) (hn : L.Nodup) (hj : ∀ x ∈ L, x.2 < 128) (t : Tile) (i j : Nat) (hj' : j < 128) :
    (L.foldl (fun (t : Tile) x => t.set x.1 x.2 (f x.1 x.2 (t.at_ x.1 x.2))) t).at_ i j = if (i, j) ∈ L then f i j (t.at_ i j) else t.at_ i j := by
  have hset : ∀ (x : Tile) a b v, b < 128 → (x.set a b v).at_ i j = if (i, j) = (a, b) then v else x.at_ i j := by
    intro x a b v hb
    have : (x.set a b v).at_ i j = if 128 * i + j = 128 * a + b then v else x.at_ i j := sget_sset ..
    rw [this]
    by_cases h : (i, j) = (a, b)
    · rw [if_pos h, if_pos]; cases h; rfl
    · rw [if_neg h, if_neg]
      intro he; apply h
      have h1 : i = a := by omega
      have h2 : j = b := by omega
      rw [h1, h2]
  induction L generalizing t with
  | nil => simp
  | cons a r ih =>
    rw [List.foldl_cons, ih (List.nodup_cons.1 hn).2 (fun x hx => hj x (by simp [hx])), hset _ _ _ _ (hj a (by simp))]
    by_cases h : (i, j) = (a.1, a.2)
    · have hna : (i, j) ∉ r := by rw [h]; exact (List.nodup_cons.1 hn).1
      rw [if_neg hna, if_pos h, if_pos (by simp [h])]
      cases h; rfl
    · rw [if_neg h]
      by_cases hr : (i, j) ∈ r
      · rw [if_pos hr, if_pos (by simp [hr])]
      · rw [if_neg hr, if_neg (by simp only [List.mem_cons, not_or]; exact ⟨h, hr⟩)]

theorem mem_cells (c : MCmd) (sb i j : Nat) (hi : i < 128) (hj : j < 128) (hs : sb < 256) : (i, j) ∈ c.cells sb ↔ i / 8 = sb / 16 ∧ j / 8 = sb % 16 ∧ (c.kind = .mzero ∨ (i < c.m ∧ j < c.n)) := by
  unfold MCmd.cells
  rw [List.mem_filter, List.mem_map]
  simp only [Bool.or_eq_true, beq_iff_eq, decide_eq_true_eq, List.mem_range, Prod.mk.injEq]
  constructor
  · rintro ⟨⟨e, he, h1, h2⟩, h⟩
    exact ⟨by omega, by omega, h⟩
  · rintro ⟨h1, h2, h⟩
    exact ⟨⟨8 * (i % 8) + j % 8, by omega, by omega, by omega⟩, h⟩

theorem cells_nodup (c : MCmd) (sb : Nat) : (c.cells sb).Nodup ∧ ∀ x ∈ c.cells sb, x.2 < 128 := by
  unfold MCmd.cells
  refine ⟨List.Nodup.filter _ ((List.nodup_map_iff_inj_on List.nodup_range).2 ?_), ?_⟩
  · intro a ha b hb h
    simp only [List.mem_range] at ha hb
    simp only [Prod.mk.injEq] at h
    omega
  · intro x hx
    obtain ⟨e, he, rfl⟩ := List.mem_map.1 (List.mem_filter.1 hx).1
    dsimp only
    omega

theorem hNat_setHs_ne (s : State) (bs : List Byte) (pa q n : Nat) (h : q + n ≤ pa ∨ pa + bs.length ≤ q) : (s.setHs pa bs).hNat q n = s.hNat q n := by
  unfold State.hNat
  congr 1
  apply List.map_congr_left
  intro k hk
  rw [List.mem_range] at hk
  rw [hByte_setHs, if_neg (by omega)]

theorem save_spec (base : Nat) (L : List (Nat × BitVec 40)) (hn : (L.map (·.1)).Nodup) (s : State) :
    (∃ m, L.foldl (fun (st : State) e => st.setHNat (base + 8 * e.1) 8 e.2.toNat) s = { s with mem := m }) ∧
    (∀ e, (L.foldl (fun (st : State) e => st.setHNat (base + 8 * e.1) 8 e.2.toNat) s).hNat (base + 8 * e) 8 =
      ((L.find? (fun x => x.1 == e)).map (fun x => x.2.toNat)).getD (s.hNat (base + 8 * e) 8)) ∧
    ((∀ a ∈ L, a.1 < 16384) → ∀ a, a < base ∨ base + 131072 ≤ a → (L.foldl (fun (st : State) e => st.setHNat (base + 8 * e.1) 8 e.2.toNat) s).hByte a = s.hByte a) := by
  induction L generalizing s with
  | nil => exact ⟨⟨s.mem, rfl⟩, fun e => rfl, fun _ a _ => rfl⟩
  | cons x r ih =>
    obtain ⟨⟨m, i1⟩, i2, i3⟩ := ih (List.nodup_cons.1 hn).2 (s.setHNat (base + 8 * x.1) 8 x.2.toNat)
    obtain ⟨m', h'⟩ := setHs_frame (bytesLE 8 x.2.toNat) s (base + 8 * x.1)
    have h' : s.setHNat (base + 8 * x.1) 8 x.2.toNat = { s with mem := m' } := h'
    refine ⟨⟨m, ?_⟩, fun e => ?_, fun hb a ha => ?_⟩
    · rw [List.foldl_cons, i1, h']
    · rw [List.foldl_cons, i2]
      by_cases h : x.1 = e
      · subst h
        have hno : r.find? (fun y => y.1 == x.1) = none := by
          rw [List.find?_eq_none]
          intro y hy hye
          exact (List.nodup_cons.1 hn).1 (List.mem_map.2 ⟨y, hy, by simpa using hye⟩)
        rw [hno]
        simp only [Option.map_none, Option.getD_none, List.find?_cons, beq_self_eq_true, Option.map_some, Option.getD_some]
        rw [hNat_setHNat]
        have := x.2.isLt
        rw [Nat.mod_eq_of_lt (by norm_num; omega)]
      · have hb : (x.1 == e) = false := by simpa using h
        rw [List.find?_cons, hb]
        have : (s.setHNat (base + 8 * x.1) 8 x.2.toNat).hNat (base + 8 * e) 8 = s.hNat (base + 8 * e) 8 := by
          unfold State.setHNat
          rw [hNat_setHs_ne]
          rw [bytesLE_length]; omega
        rw [this]
    · rw [List.foldl_cons, i3 (fun y hy => hb y (by simp [hy])) a ha]
      unfold State.setHNat
      have := hb x (by simp)
      rw [hByte_setHs, bytesLE_length, if_neg (by omega)]

end Sys2Proof
end

