-- ==== Sys2Proof/Laws/Launches.lean ====
section
/-! SUPPORT. Nodes, launches and blocks: what the shared operations do. -/

namespace Sys2Proof

open Sys2Proof.Machine

theorem sget_sset_if {α : Type} [DecidableEq α] (d : α) (m : KMap α) (k j : Nat) (v : α) : sget d (sset d m k v) j = if j = k then v else sget d m j := sget_sset ..

theorem entered (s : State) (q addr : Nat) (posted : Bool) : NodeEntered s (s.enterNode q addr posted) q addr posted := by
  unfold State.enterNode State.fresh
  refine ⟨rfl, rfl, ?_, ?_, ⟨_, by exact kget_kput_self .., rfl, rfl, rfl, rfl, rfl, rfl⟩, ?_⟩
  · show sget [] (sset [] _ _ _) _ = _; rw [sget_sset_if, if_pos rfl]
  · intro r hr; show sget [] (sset [] _ _ _) _ = _; rw [sget_sset_if, if_neg hr]
  · intro k hk; show kget (kput _ _ _) _ = _; rw [kget_kput, if_neg hk]

theorem dispatch_head {s p id n0 v n} {k : Nat} (h : Dispatches s p id n0 v n) (hok : nodeOk v = true) : n.kind = k → exec (.nodeDispatch p) s = .next (match k with
          | 0 => s.dispatchKernel id n
          | 1 => s.dispatchCmd id n false
          | 2 => s.dispatchCmd id n true
          | 3 =>
            if n.target % 4 != 0 then (s.leaveRing id n).completeNode id n 2
            else
              let r := (s.leaveRing id n).releaseWrite p (s.nodeCtx n0) id n.target (bytesLE 4 n.value)
              match r.2 with
              | some (.driver kind page) => s.outstanding p (s.nodeCtx n0) page n.target kind 1 5 0
              | some _ => (s.leaveRing id n).completeNode id n 2
              | none => r.1
          | 4 =>
            if bits n.target 11 0 ≥ 2048 then (s.leaveRing id n).completeNode id n 2
            else
              let t := (s.leaveRing id n).notify (functionOf p) (bits n.target 11 0) n.value
              { t with nodes := kput t.nodes id { n with finished := true } }
          | _ =>
            let t := s.leaveRing id n
            if t.qreg n.queue .part = p then
              State.postNode { t with nodes := kput t.nodes id { n with reach := [(t.qreg n.queue .ctx, n.target)] } } n.queue n.target false
            else t.completeNode id n 2) := by
  intro hk
  obtain ⟨h1, h2, h3⟩ := h
  have e : exec (.nodeDispatch p) s = .next (match nodeKind v with
          | 0 => s.dispatchKernel id n
          | 1 => s.dispatchCmd id n false
          | 2 => s.dispatchCmd id n true
          | 3 =>
            if n.target % 4 != 0 then (s.leaveRing id n).completeNode id n 2
            else
              let r := (s.leaveRing id n).releaseWrite p (s.nodeCtx n0) id n.target (bytesLE 4 n.value)
              match r.2 with
              | some (.driver kind page) => s.outstanding p (s.nodeCtx n0) page n.target kind 1 5 0
              | some _ => (s.leaveRing id n).completeNode id n 2
              | none => r.1
          | 4 =>
            if bits n.target 11 0 ≥ 2048 then (s.leaveRing id n).completeNode id n 2
            else
              let t := (s.leaveRing id n).notify (functionOf p) (bits n.target 11 0) n.value
              { t with nodes := kput t.nodes id { n with finished := true } }
          | _ =>
            let t := s.leaveRing id n
            if t.qreg n.queue .part = p then
              State.postNode { t with nodes := kput t.nodes id { n with reach := [(t.qreg n.queue .ctx, n.target)] } } n.queue n.target false
            else t.completeNode id n 2) := by
    show Host.Outcome.next _ = _
    rw [h1]
    dsimp only
    rw [h2]
    dsimp only
    rw [hok, if_neg (by decide)]
    subst h3
    rfl
  have hk' : nodeKind v = k := by rw [← hk, h3]
  rw [e, hk']

theorem leaveRing_frame (s : State) (id : Nat) (n : Node) : ∃ r m, s.leaveRing id n = { s with rings := r, nodes := m } := ⟨_, _, rfl⟩

theorem startLaunch_spec (s : State) (p ctx target node v : Nat) (h1 : (LaunchRec.of v).measure = false) (h2 : (LaunchRec.of v).record = false) :
    s.startLaunch p ctx target node v =
      { s with nextUid := s.nextUid + 1, launches := (s.startLaunch p ctx target node v).launches, parts := (s.startLaunch p ctx target node v).parts } ∧
    kget (s.startLaunch p ctx target node v).launches s.nextUid = some { Launch.initial p ctx target (LaunchRec.of v) (s.part p).lseq (some node) with beatLen := max (s.preg p .beatp * 250) 1, waitFrom := some s.timebase } ∧
    (∀ k, k ≠ s.nextUid → kget (s.startLaunch p ctx target node v).launches k = kget s.launches k) ∧
    ((s.startLaunch p ctx target node v).part p).lseq = (s.part p).lseq + 1 := by
  unfold State.startLaunch
  dsimp only
  rw [h1, if_neg (by decide)]
  unfold State.logStart
  rw [h2, if_neg (by decide)]
  refine ⟨rfl, ?_, ?_, ?_⟩
  · show kget (kput _ _ _) _ = _
    exact kget_kput_self ..
  · intro k hk
    show kget (kput _ _ _) _ = _
    rw [kget_kput]
    exact if_neg hk
  · show ((s.setPart p { s.part p with lseq := (s.part p).lseq + 1 }).part p).lseq = _
    have : ∀ x, (s.setPart p x).part p = x := fun x => sget_sset_self ..
    rw [this]

theorem nodeBoundary_nil (s : State) (p ctx : Nat) : s.nodeBoundary p ctx [] = s := by
  unfold State.nodeBoundary
  dsimp only
  have hl : ∀ line, lineIn (([] : List (Nat × Nat × Bool)).filter (fun r => r.2.2 == true) |>.flatMap (fun r => s.rangePages p ctx r.1 r.2.1)) line = false := fun _ => rfl
  have h : ∀ (L : List Nat) (st : State), L.foldl (fun (st : State) v =>
      (((st.core v).cv.map (·.1)).filter (fun l => lineIn [] l)).foldl (fun st l => st.refresh v l)
        ((((st.core v).cv.map (·.1)).filter (fun l => lineIn [] l)).foldl (fun st l => st.writeBack v l) st)) st = st := by
    intro L
    induction L with
    | nil => intro st; rfl
    | cons a r ih =>
      intro st
      rw [List.foldl_cons]
      have : ((st.core a).cv.map (·.1)).filter (fun l => lineIn [] l) = [] := by
        rw [List.filter_eq_nil_iff]; intro x _; simp [lineIn]
      rw [this]
      exact ih st
  exact h _ s

theorem vsReclaim_frame (n : Nat) (s : State) (core : Nat) : ∃ cs, s.vsReclaim core n = { s with cores := cs } := by
  induction n generalizing s with
  | zero => exact ⟨_, rfl⟩
  | succ n ih =>
    unfold State.vsReclaim
    dsimp only
    split
    · exact ⟨_, rfl⟩
    · split
      · obtain ⟨cs, h⟩ := ih (s.modCore core _)
        exact ⟨cs, by rw [h]; rfl⟩
      · exact ⟨_, rfl⟩

theorem vsSweep_frame (s : State) (core : Nat) : ∃ cs, s.vsSweep core = { s with cores := cs } := by
  unfold State.vsSweep
  dsimp only
  split
  · exact ⟨_, rfl⟩
  · obtain ⟨cs, h⟩ := vsReclaim_frame (s.core core).vs.length (s.modCore core _) core
    rw [h]
    exact ⟨_, rfl⟩

theorem kmod_if {α : Type} (m : KMap α) (k j : Nat) (f : α → α) : kget (kmod m k f) j = if j = k then (kget m j).map f else kget m j := by
  split
  · rename_i h; subst h; exact kget_kmod_self _ _ _
  · rename_i h; exact kget_kmod_ne _ _ h

theorem addWarps (lr : LaunchRec) (blk core : Nat) (L : List (Nat × Nat)) (hn : (L.map (·.2)).Nodup) (s : State) :
    (∃ ws bs, L.foldl (fun st x => st.addWarp lr blk core x.1 x.2) s = { s with warps := ws, blocks := bs }) ∧
    (∀ v, v ∉ L.map (·.2) → kget (L.foldl (fun st x => st.addWarp lr blk core x.1 x.2) s).warps v = kget s.warps v) ∧
    (∀ x ∈ L, ∃ slot q, kget (L.foldl (fun st x => st.addWarp lr blk core x.1 x.2) s).warps x.2 = some { Warp.initial blk false x.1 (roleOf lr.roles x.1 0).1 slot
      (roleOf lr.roles x.1 0).2.budget (BitVec.ofNat 64 ((lr.entry + (roleOf lr.roles x.1 0).2.entryOff) % 2 ^ 57)) with quarter := q }) ∧
    (∀ k, kget (L.foldl (fun st x => st.addWarp lr blk core x.1 x.2) s).blocks k = if k = blk then (kget s.blocks k).map (fun b => { b with warps := b.warps ++ L.map (·.2) }) else kget s.blocks k) := by
  induction L generalizing s with
  | nil =>
    refine ⟨⟨s.warps, s.blocks, rfl⟩, fun _ _ => rfl, by simp, fun k => ?_⟩
    show kget s.blocks k = _
    split
    · cases kget s.blocks k <;> simp
    · rfl
  | cons a r ih =>
    obtain ⟨⟨ws, bs, i1⟩, i2, i3, i4⟩ := ih (List.nodup_cons.1 hn).2 (s.addWarp lr blk core a.1 a.2)
    have ha : a.2 ∉ r.map (·.2) := (List.nodup_cons.1 hn).1
    rw [List.foldl_cons]
    obtain ⟨w, hw⟩ : ∃ w, w = { Warp.initial blk false a.1 (roleOf lr.roles a.1 0).1 (s.freeSlot core) (roleOf lr.roles a.1 0).2.budget
        (BitVec.ofNat 64 ((lr.entry + (roleOf lr.roles a.1 0).2.entryOff) % 2 ^ 57)) with quarter := s.freeQuarter core } := ⟨_, rfl⟩
    have he : s.addWarp lr blk core a.1 a.2 = (s.setWarp a.2 w).modBlock blk (fun b => { b with warps := b.warps ++ [a.2] }) := by rw [hw]; rfl
    refine ⟨⟨ws, bs, by rw [i1, he]; rfl⟩, fun v hv => ?_, fun x hx => ?_, fun k => ?_⟩
    · have hv' : v ≠ a.2 ∧ v ∉ r.map (·.2) := by simpa using hv
      rw [i2 v hv'.2, he]
      show kget (kput s.warps a.2 w) v = _
      rw [kget_kput, if_neg hv'.1]
    · rcases List.mem_cons.1 hx with rfl | hx
      · refine ⟨s.freeSlot core, s.freeQuarter core, ?_⟩
        rw [i2 _ ha, he]
        show kget (kput s.warps _ w) _ = _
        rw [kget_kput_self, hw]
      · exact i3 x hx
    · rw [i4, he]
      have : kget ((s.setWarp a.2 w).modBlock blk (fun b => { b with warps := b.warps ++ [a.2] })).blocks k = if k = blk then (kget s.blocks k).map (fun b => { b with warps := b.warps ++ [a.2] }) else kget s.blocks k :=
        kmod_if ..
      rw [this]
      split
      · cases kget s.blocks k <;> simp
      · rfl

theorem zeroRange_frame (s : State) (lo n : Nat) : OnlyMem s (s.zeroRange lo n) := by
  unfold State.zeroRange
  dsimp only
  split
  · exact .refl s
  · have h : OnlyMem s (s.cores.foldl (fun st c => ((c.2.cv.map (·.1)).filter (fun line => decide (lo < (line + 1) * lineBytes ∧ line * lineBytes < lo + n))).foldl
        (fun st l => (st.writeBack c.1 l).cvDrop c.1 l) st) s) := by
      refine OnlyMem.foldl _ (fun s a => OnlyMem.foldl _ (fun s b => ?_) _ _) _ _
      exact ((mild_writeBack s a.1 b).trans (mild_cvDrop ..)).only
    refine h.trans ?_
    exact rfl

theorem sweepAll_frame (s : State) (core : Nat) : ∃ cs, s.sweepAll core = { s with cores := cs } :=
  foldl_frame _ (fun s _ => vsSweep_frame s core) _ _

theorem putBlock_spec (s : State) (lid bid core blk : Nat) (us : List Nat) (tu : Nat) (a : Area) (l : Launch) (hl : kget s.launches lid = some l)
    (hn : us.Nodup) (hu : us.length = l.lr.blockWarps) (ht : tu ∉ us) :
    (∃ ws bs cs, s.putBlock lid bid core blk us tu a = { s with warps := ws, blocks := bs, cores := cs }) ∧
    (∃ b, kget (s.putBlock lid bid core blk us tu a).blocks blk = some b ∧ b.launch = lid ∧ b.bid = bid ∧ b.core = core ∧ b.privBase = a.priv ∧ b.saveBase = a.save ∧
      b.spad = [] ∧ b.bars = [] ∧ b.tiles = [] ∧ b.warps = us ∧ b.tctx = if l.lr.tentry = 0 then none else some tu) ∧
    (∀ k, (hk : k < us.length) → ∃ slot q, kget (s.putBlock lid bid core blk us tu a).warps us[k] = some { Warp.initial blk false k (roleOf l.lr.roles k 0).1 slot
      (roleOf l.lr.roles k 0).2.budget (BitVec.ofNat 64 ((l.lr.entry + (roleOf l.lr.roles k 0).2.entryOff) % 2 ^ 57)) with quarter := q }) ∧
    (l.lr.tentry ≠ 0 → kget (s.putBlock lid bid core blk us tu a).warps tu = some (Warp.initial blk true 0 4 0 4 (BitVec.ofNat 64 (l.lr.tentry % 2 ^ 57)))) ∧
    (∀ v, v ≠ blk → kget (s.putBlock lid bid core blk us tu a).blocks v = kget s.blocks v) ∧
    (∀ v, v ∉ us → v ≠ tu → kget (s.putBlock lid bid core blk us tu a).warps v = kget s.warps v) := by
  obtain ⟨b0, hb0⟩ : ∃ b0, b0 = { Block.initial lid bid core with spadBase := s.freeSpad core l.lr.spad, privBase := a.priv, saveBase := a.save, spLev0 := s.curLevel l.part l.ctx } := ⟨_, rfl⟩
  obtain ⟨s1, hs1⟩ : ∃ s1, s1 = ((List.range us.length).zip us).foldl (fun st x => st.addWarp l.lr blk core x.1 x.2) (s.setBlock blk b0) := ⟨_, rfl⟩
  obtain ⟨s2, hs2⟩ : ∃ s2, s2 = s1.addTile l.lr blk tu := ⟨_, rfl⟩
  obtain ⟨s3, hs3⟩ : ∃ s3, s3 = s2.modCore core (fun c => { c with hashes := kput c.hashes lid (hashOf c lid) }) := ⟨_, rfl⟩
  have e : s.putBlock lid bid core blk us tu a = s3.sweepAll core := by
    unfold State.putBlock
    rw [hl]
    dsimp only
    rw [← hb0, ← hs1, ← hs2, ← hs3]
  obtain ⟨cs, hcs⟩ := sweepAll_frame s3 core
  have hzip : (((List.range us.length).zip us).map (·.2)) = us := by
    rw [List.map_snd_zip]; simp
  obtain ⟨⟨ws, bs, a1⟩, a2, a3, a4⟩ := addWarps l.lr blk core ((List.range us.length).zip us) (by rw [hzip]; exact hn) (s.setBlock blk b0)
  rw [← hs1] at a1 a2 a3 a4
  rw [hzip] at a2 a4
  have hb1 : kget s1.blocks blk = some { b0 with warps := us } := by
    rw [a4, if_pos rfl]
    have : kget (s.setBlock blk b0).blocks blk = some b0 := kget_kput_self ..
    rw [this, hb0]; rfl
  have hw2 : ∀ v, kget s2.warps v = if v = tu ∧ l.lr.tentry ≠ 0 then some (Warp.initial blk true 0 4 0 4 (BitVec.ofNat 64 (l.lr.tentry % 2 ^ 57))) else kget s1.warps v := by
    intro v
    rw [hs2]
    unfold State.addTile
    split
    · rename_i h; rw [if_neg (by tauto)]
    · rename_i h
      show kget (kput s1.warps tu _) v = _
      rw [kget_kput]
      by_cases hv : v = tu
      · rw [if_pos hv, if_pos ⟨hv, h⟩]; rfl
      · rw [if_neg hv, if_neg (by tauto)]
  have hb2 : kget s2.blocks blk = some { b0 with warps := us, tctx := if l.lr.tentry = 0 then none else some tu } := by
    rw [hs2]
    unfold State.addTile
    split
    · rename_i h; rw [hb1, hb0]; rfl
    · rename_i h
      show kget (kmod s1.blocks blk _) blk = _
      rw [kget_kmod_self, hb1]; rfl
  have hb2' : ∀ v, v ≠ blk → kget s2.blocks v = kget s.blocks v := by
    intro v hv
    have h1 : kget s1.blocks v = kget s.blocks v := by
      rw [a4, if_neg hv]
      show kget (kput _ _ _) _ = _
      rw [kget_kput, if_neg hv]
    rw [← h1, hs2]
    unfold State.addTile
    split
    · rfl
    · show kget (kmod s1.blocks blk _) v = _
      rw [kget_kmod_ne _ _ hv]
  have hsw : (s3.sweepAll core).warps = s2.warps := by rw [hcs, hs3]; rfl
  have hsb : (s3.sweepAll core).blocks = s2.blocks := by rw [hcs, hs3]; rfl
  rw [e, hsw, hsb]
  refine ⟨⟨s2.warps, s2.blocks, cs, ?_⟩, ⟨_, hb2, ?_⟩, ?_, ?_, hb2', ?_⟩
  · rw [hcs, hs3, hs2]
    unfold State.addTile
    split
    · rw [a1]; rfl
    · rw [a1]; rfl
  · rw [hb0]; exact ⟨rfl, rfl, rfl, rfl, rfl, rfl, rfl, rfl, rfl, rfl⟩
  · intro k hk
    have hm : (k, us[k]) ∈ (List.range us.length).zip us := by
      rw [List.mem_iff_getElem]
      exact ⟨k, by simpa using hk, by simp⟩
    obtain ⟨slot, q, h⟩ := a3 _ hm
    refine ⟨slot, q, ?_⟩
    rw [hw2, if_neg (by rintro ⟨h, -⟩; exact ht (h ▸ List.getElem_mem hk))]
    exact h
  · intro h
    rw [hw2, if_pos ⟨rfl, h⟩]
  · intro v hv hvt
    rw [hw2, if_neg (by tauto), a2 v hv]
    rfl

theorem zeroRange_lr (s : State) (lo n lid : Nat) (l : Launch) (h : kget s.launches lid = some l) : ∃ l', kget (s.zeroRange lo n).launches lid = some l' ∧ l'.lr = l.lr ∧ l'.nextBlk = l.nextBlk := by
  unfold State.zeroRange
  dsimp only
  split
  · exact ⟨l, h, rfl, rfl⟩
  · have hm : Mild s (s.cores.foldl (fun st c => ((c.2.cv.map (·.1)).filter (fun line => decide (lo < (line + 1) * lineBytes ∧ line * lineBytes < lo + n))).foldl
        (fun st l => (st.writeBack c.1 l).cvDrop c.1 l) st) s) := by
      refine Mild.foldl _ (fun s a => Mild.foldl _ (fun s b => ?_) _ _) _ _
      exact (mild_writeBack s a.1 b).trans (mild_cvDrop ..)
    obtain ⟨l', h1, h2, h3, -⟩ := hm.keep lid l h
    exact ⟨l', h1, h2, h3⟩

theorem diverge_spec (s : State) (l die n : Nat) (x : Launch) (nd : Node) (h1 : kget s.launches l = some x) (h2 : x.diverged = false) (h3 : x.node = some n)
    (h4 : kget s.nodes n = some nd) : ∃ s1, (∃ m, s1 = { s with mem := m, launches := kmod s.launches l (fun l => { l with diverged := true }) }) ∧
      s.diverge l die = s1.haltQueue nd.q 6 nd.addr x.part := by
  unfold State.diverge
  rw [h1]
  dsimp only
  rw [h2, if_neg (by decide), h3]
  obtain ⟨m, hm⟩ := vWrite_eq (bytesLE 4 (setBits ((s.vRead x.part x.ctx (x.logAt die + 4) 4).getD 0) 1 1 1)) s x.part x.ctx (x.logAt die + 4)
  rw [hm]
  refine ⟨_, ⟨m, rfl⟩, ?_⟩
  show (match (some n).bind (kget s.nodes) with | some n => _ | none => _) = _
  rw [Option.bind_some, h4]
  rfl

theorem haltQueue_regs (s : State) (q code addr p : Nat) : (s.haltQueue q code addr p).launches = s.launches ∧ (s.haltQueue q code addr p).reg (.q q .halt) = 1 ∧
    (s.reg (.q q .qerr) = 0 → (s.haltQueue q code addr p).reg (.q q .qerr) = code ∧ (s.haltQueue q code addr p).reg (.q q .qerrNode) = addr) := by
  have hl : ∀ b : State, (if (b.reg (.q q .qerr)) = 0 then (b.setReg (.q q .qerr) code).setReg (.q q .qerrNode) addr else b).launches = b.launches := by
    intro b; split <;> rfl
  have h : ∀ b : State, (if (b.reg (.q q .qerr)) = 0 then (b.setReg (.q q .qerr) code).setReg (.q q .qerrNode) addr else b).reg (.q q .halt) =
      b.reg (.q q .halt) := by
    intro b; split
    · rw [reg_setReg_ne _ _ (by simp), reg_setReg_ne _ _ (by simp)]
    · rfl
  refine ⟨hl _, (h _).trans (by simp), fun h0 => ?_⟩
  have e : (s.setReg (.q q .halt) 1).reg (.q q .qerr) = 0 := by rw [reg_setReg_ne _ _ (by simp)]; exact h0
  unfold State.haltQueue
  dsimp only
  rw [if_pos e]
  constructor
  · show (State.setReg _ _ _).reg _ = _
    rw [reg_setReg_ne _ _ (by simp)]; simp
  · show (State.setReg _ _ _).reg _ = _
    simp

end Sys2Proof
end

