-- ==== Sys2Proof/Laws/Images.lean ====
section
/-! SUPPORT. Debug, saving and restoring: what the shared operations do. -/

namespace Sys2Proof

open Sys2Proof.Machine

theorem regsSet_cons {s t : State} {ws : List (Reg × Nat)} (h : RegsSet s t ws) (r : Reg) (v : Nat) : RegsSet s (t.setReg r v) ((r, v) :: ws) := by
  refine ⟨?_, fun q => ?_⟩
  · have e := h.1
    generalize hx : t.setReg r v = x
    have : x = { t with regs := x.regs } := by rw [← hx]; rfl
    rw [e] at this; exact this
  · rw [reg_setReg_if]
    by_cases a : q = r
    · subst a; simp
    · rw [if_neg a, h.2]
      have : (r == q) = false := by simpa using Ne.symm a
      simp [List.find?, this]

theorem regsSet_nil (s : State) : RegsSet s s [] := ⟨rfl, fun _ => rfl⟩

theorem regsSet_dbEnd (s : State) (p r : Nat) : RegsSet s (s.dbEnd p r) [(.p p .dresult, r), (.p p .dstate, 2)] :=
  regsSet_cons (regsSet_cons (regsSet_nil s) _ _) _ _

theorem reg_dbEnd (s : State) (p r : Nat) (q : Reg) : (s.dbEnd p r).reg q = if q = .p p .dresult then r else if q = .p p .dstate then 2 else s.reg q := by
  show ((s.setReg (.p p .dstate) 2).setReg (.p p .dresult) r).reg q = _
  rw [reg_setReg_if, reg_setReg_if]

theorem reg_dbRun (s : State) (p c n : Nat) (q : Reg) : (s.dbRun p c n).reg q = if q = .p p .dseq then n else if q = .p p .dcmd then c else if q = .p p .dstate then 1 else s.reg q := by
  show (((s.setReg (.p p .dstate) 1).setReg (.p p .dcmd) c).setReg (.p p .dseq) n).reg q = _
  rw [reg_setReg_if, reg_setReg_if, reg_setReg_if]

theorem notBusy {s : State} {p : Nat} (h : s.preg p .dstate ≠ 1) : s.dbBusy p = false := by
  unfold State.dbBusy; simpa using h

theorem dbEnd_frame (s : State) (p r : Nat) : s.dbEnd p r = { s with regs := (s.dbEnd p r).regs } := rfl

theorem part_dbEnd (s : State) (p r n : Nat) : (s.dbEnd p r).part n = s.part n := rfl

theorem reg_modPart (s : State) (p : Nat) (f : Part → Part) (q : Reg) : (s.modPart p f).reg q = s.reg q := rfl

theorem reg_warps (s : State) (w : KMap Warp) (q : Reg) : State.reg { s with warps := w } q = s.reg q := rfl

theorem part_warps (s : State) (w : KMap Warp) (n : Nat) : State.part { s with warps := w } n = s.part n := rfl

theorem part_setReg (s : State) (r : Reg) (v n : Nat) : (s.setReg r v).part n = s.part n := rfl

theorem who_dbStop (s1 s : State) (h1 : s1.warps = s.warps) (h2 : s1.blocks = s.blocks) (h3 : s1.launches = s.launches) (h4 : s1.mengs = s.mengs) (u : Nat) :
    s1.who u = s.who u := by
  unfold State.who; rw [h1, h2, h3]

theorem kget_mapKey {α β : Type} (m : List (Nat × α)) (f : Nat → α → β) (k : Nat) :
    kget (m.map (fun e => (e.1, f e.1 e.2))) k = (kget m k).map (f k) := by
  induction m with
  | nil => rfl
  | cons a t ih =>
    obtain ⟨k', v⟩ := a
    simp only [List.map_cons, kget]
    split
    · rename_i h; rw [h]; rfl
    · exact ih

/-- The warps of a stopped context. -/
def skipW (w : Warp) : Warp := { w with frontier := w.frontier.map (fun e => { e with bpSkip := true }) }

def skipIf (W : Nat → Option Who) (p ctx u : Nat) (w : Warp) : Warp := if (W u).any (fun q => q.part == p && q.ctx == ctx) then skipW w else w

theorem stop_warps (ws : KMap Warp) (p ctx : Nat) (W : Nat → Option Who) : ws.map (fun e => match W e.1 with
      | some q => if q.part = p ∧ q.ctx = ctx then
          (e.1, { e.2 with frontier := e.2.frontier.map (fun x => { x with bpSkip := true }) }) else e
      | none => e) = ws.map (fun e => (e.1, skipIf W p ctx e.1 e.2)) := by
  apply List.map_congr_left
  intro e he
  unfold skipIf
  generalize W e.1 = o
  cases o with
  | none => rfl
  | some q =>
    dsimp only
    by_cases h : q.part = p ∧ q.ctx = ctx
    · have : (some q).any (fun q => q.part == p && q.ctx == ctx) = true := by simpa using h
      rw [if_pos h, if_pos this]; rfl
    · have : ¬ (some q).any (fun q => q.part == p && q.ctx == ctx) = true := by simpa using h
      rw [if_neg h, if_neg this]

theorem setPreg3_frame (s : State) (p : Nat) (a b c : PReg) (x y z : Nat) : ((s.setPreg p a x).setPreg p b y).setPreg p c z =
    { s with regs := (((s.setPreg p a x).setPreg p b y).setPreg p c z).regs } := rfl

theorem dbRun_frame (s : State) (p c n : Nat) : s.dbRun p c n = { s with regs := (s.dbRun p c n).regs } := rfl

theorem modPart_frame (s : State) (p : Nat) (f : Part → Part) : s.modPart p f = { s with parts := (s.modPart p f).parts } := rfl

theorem who_of {s1 s : State} (h1 : s1.warps = s.warps) (h2 : s1.blocks = s.blocks) (h3 : s1.launches = s.launches) : s1.who = s.who := by
  funext u; unfold State.who; rw [h1, h2, h3]

theorem stop_spec (s : State) (p ctx why idx pc : Nat) : ∃ P R W, s.stopContext p ctx why idx pc = { s with parts := P, regs := R, warps := W } ∧
    (∀ n, State.part { s with parts := P } n = if n = p then { s.part p with running := (s.part p).running.filter (· != ctx) } else s.part n) ∧
    (∀ q, State.reg { s with regs := R } q = if q = .p p .dpc then pc else if q = .p p .dbpIdx then idx else if q = .p p .dstop then why else s.reg q) ∧
    (∀ u, kget W u = (kget s.warps u).map (skipIf s.who p ctx u)) := by
  obtain ⟨f, hf⟩ : ∃ f : Part → Part, f = (fun x => { x with running := x.running.filter (· != ctx) }) := ⟨_, rfl⟩
  obtain ⟨P, hP⟩ : ∃ P, P = (s.modPart p f).parts := ⟨_, rfl⟩
  have hm : s.modPart p f = { s with parts := P } := by rw [hP]; exact modPart_frame ..
  obtain ⟨R, hR⟩ : ∃ R, R = (((s.setPreg p .dstop why).setPreg p .dbpIdx idx).setPreg p .dpc pc).regs := ⟨_, rfl⟩
  have hr : ((State.setPreg { s with parts := P } p .dstop why).setPreg p .dbpIdx idx).setPreg p .dpc pc = { s with parts := P, regs := R } := by
    rw [hR]; exact setPreg3_frame ..
  refine ⟨P, R, s.warps.map (fun e => (e.1, skipIf s.who p ctx e.1 e.2)), ?_, ?_, ?_, ?_⟩
  · rw [← stop_warps]
    unfold State.stopContext
    dsimp only
    rw [← hf, hm, hr]
    rfl
  · intro n
    rw [← hm, part_modPart, hf]
  · intro q
    have : State.reg { s with regs := R } q = (((s.setPreg p .dstop why).setPreg p .dbpIdx idx).setPreg p .dpc pc).reg q := by rw [hR]; rfl
    rw [this]
    unfold State.setPreg
    rw [reg_setReg_if, reg_setReg_if, reg_setReg_if]
  · intro u; exact kget_mapKey ..

theorem mayIssue_held {t : State} {u : Nat} {w : Warp} {q : Who} (a : (t.part q.part).held.contains q.ctx = true)
    (b : (t.part q.part).running.contains q.ctx = false) (c : (t.part q.part).stepping.any (fun e => e.1 == u) = false) : t.mayIssue u w q = false := by
  unfold State.mayIssue
  dsimp only
  rw [a, b, c]; simp

theorem dbWarp_get {s : State} {p u : Nat} {w : Warp} (h : s.dbWarp p = some (u, w)) : kget s.warps u = some w := by
  unfold State.dbWarp at h
  split at h
  · rw [Option.bind_eq_some_iff] at h
    obtain ⟨v, -, h⟩ := h
    rw [Option.map_eq_some_iff] at h
    obtain ⟨x, h, e⟩ := h
    cases e; exact h
  · cases h

theorem startStep_spec (s : State) (p cmd u : Nat) (es : List (Nat × Nat × Mask)) (next : List Choice) (w : Warp) (q : Who)
    (hw : kget s.warps u = some w) (hq : s.who u = some q) :
    let s1 := s.modPart p (fun x => { x with stepping := es, running := x.running.filter (· != s.preg p .dctx) })
    (es ≠ [] → s1.mayIssue u w q = true → s.startStep p cmd u es next = { s1.dbRun p cmd 0 with agenda := next ++ s.agenda }) ∧
    (es = [] ∨ s1.mayIssue u w q = false → s.startStep p cmd u es next = s.dbEnd p 3) := by
  intro s1
  have e1 : kget s1.warps u = some w := hw
  have e2 : s1.who u = some q := hq
  refine ⟨fun h1 h2 => ?_, fun h => ?_⟩
  · unfold State.startStep
    show (match kget s1.warps u, s1.who u with
      | some w, some q => _
      | _, _ => _) = _
    rw [e1, e2]
    show (if (es.isEmpty || !s1.mayIssue u w q) = true then _ else _) = _
    rw [if_neg (by rw [h2]; simpa using h1)]; rfl
  · unfold State.startStep
    show (match kget s1.warps u, s1.who u with
      | some w, some q => _
      | _, _ => _) = _
    rw [e1, e2]
    show (if (es.isEmpty || !s1.mayIssue u w q) = true then _ else _) = _
    rw [if_pos (by rcases h with h | h <;> simp [h])]

theorem onlyMem_mem {s t : State} (h : ∃ m, t = { s with mem := m }) : OnlyMem s t := by
  obtain ⟨m, h⟩ := h; rw [h]; rfl

theorem onlyMem_setHs (s : State) (a : Nat) (bs : List Byte) : OnlyMem s (s.setHs a bs) := onlyMem_mem (setHs_frame bs s a)

theorem writeImage_frame (s : State) (b : Block) (l : Launch) (r n base : Nat) : OnlyMem s (s.writeImage b l r n base) := by
  unfold State.writeImage
  dsimp only
  refine OnlyMem.trans (zeroRange_frame s base (l.lr.imageSize b.tiles.length)) ?_
  refine OnlyMem.trans (OnlyMem.foldl (fun st (x : Nat × List Byte) => st.setHs (base + x.1) x.2) (fun s a => onlyMem_setHs ..) (s.imagePieces b l r n) _) ?_
  exact onlyMem_setHs ..

theorem completeOf_lt (n : Nat) : completeOf n < 2 ^ 64 := by unfold completeOf; omega

theorem writeImage_complete (s : State) (b : Block) (l : Launch) (r n base : Nat) :
    (s.writeImage b l r n base).hNat (base + l.lr.imageSize b.tiles.length - 8) 8 = completeOf n := by
  unfold State.writeImage
  dsimp only
  rw [hNat_setHNat]
  exact Nat.mod_eq_of_lt (completeOf_lt n)

theorem fold_insert (L : List Entry) (fr : List Entry) (l : Nat) (pc : DWord) (q : EntSt) :
    standsIn (L.foldl (fun fr e => fInsert e fr) fr) l pc q ↔ standsIn fr l pc q ∨ ∃ n ∈ L, n.mask.getLsbD l = true ∧ n.pc = pc ∧ n.st = q := by
  induction L generalizing fr with
  | nil => simp
  | cons a t ih =>
    rw [List.foldl_cons, ih, standsIn_insert]
    constructor
    · rintro ((⟨a1, a2, a3⟩ | h) | ⟨n, h1, h2⟩)
      · exact .inr ⟨a, by simp, a1, a2, a3⟩
      · exact .inl h
      · exact .inr ⟨n, by simp [h1], h2⟩
    · rintro (h | ⟨n, h1, h2⟩)
      · exact .inl (.inr h)
      · rcases List.mem_cons.1 h1 with rfl | h1
        · exact .inl (.inl h2)
        · exact .inr ⟨n, h1, h2⟩

theorem rawFrontier_congr {s t : State} (h : t.mem = s.mem) (a : Nat) : t.rawFrontier a = s.rawFrontier a := by
  unfold State.rawFrontier; simp only [hNat_congr h]

theorem keepTiles_eq (s : State) (b : Block) : ∃ ts, s.keepTiles b = { b with tiles := ts } := by
  unfold State.keepTiles
  split
  · split
    · exact ⟨b.tiles, rfl⟩
    · exact ⟨_, rfl⟩
  · exact ⟨b.tiles, rfl⟩

theorem purge_frame (s : State) (core p ctx : Nat) : ∃ cs, s.purge core p ctx = { s with cores := cs } := by
  unfold State.purge
  split
  · exact ⟨s.cores, rfl⟩
  · exact ⟨_, rfl⟩

theorem setHs_launches (s : State) (a : Nat) (bs : List Byte) : (s.setHs a bs).launches = s.launches := by
  obtain ⟨m, hm⟩ := setHs_frame bs s a; rw [hm]

theorem pieces_launches (base : Nat) (ps : List (Nat × List Byte)) (s : State) : (ps.foldl (fun st x => st.setHs (base + x.1) x.2) s).launches = s.launches := by
  induction ps generalizing s with
  | nil => rfl
  | cons a t ih => rw [List.foldl_cons, ih, setHs_launches]

theorem writeImage_launches (s : State) (b : Block) (l : Launch) (r n base : Nat) :
    (s.writeImage b l r n base).launches = (s.zeroRange base (l.lr.imageSize b.tiles.length)).launches := by
  unfold State.writeImage
  dsimp only
  unfold State.setHNat
  rw [setHs_launches, pieces_launches]

theorem writeImage_keeps (s : State) (b : Block) (l : Launch) (r n base lid : Nat) (l0 : Launch) (h : kget s.launches lid = some l0) :
    ∃ l', kget (s.writeImage b l r n base).launches lid = some l' := by
  obtain ⟨l', h1, -, -⟩ := zeroRange_lr s base (l.lr.imageSize b.tiles.length) lid l0 h
  exact ⟨l', by rw [writeImage_launches]; exact h1⟩

theorem unloadBlock_spec (s2 : State) (blk : Nat) (b : Block) (l2 : Launch) (hl2 : kget s2.launches b.launch = some l2) :
    ∃ x, s2.unloadBlock blk b = x ∧ kget x.blocks blk = none ∧ (∀ k, k ≠ blk → kget x.blocks k = kget s2.blocks k) ∧
      (∀ u ∈ b.units, ∀ w, (u, w) ∉ x.warps) ∧ (∀ y ∈ s2.warps, y.1 ∉ b.units → y ∈ x.warps) ∧
      (∃ l', kget x.launches b.launch = some l' ∧ ∃ k, kget l'.saved b.bid = some k ∧ k.blk = blk ∧ k.us = b.warps ∧ k.tctx = b.tctx) ∧
      x = { s2 with launches := x.launches, cores := x.cores, warps := x.warps, blocks := x.blocks, ext := x.ext, txs := x.txs } := by
  obtain ⟨pf, hpf⟩ : ∃ pf, pf = (b.tctx.bind (kget s2.warps)).elim [] (·.passFaults) := ⟨_, rfl⟩
  obtain ⟨s3, hs3⟩ : ∃ s3, s3 = (s2.modLaunch b.launch (fun l => { l with saved := kput l.saved b.bid ⟨blk, b.warps, b.tctx, pf⟩ })).modCore b.core
    (fun c => { c with sfq := c.sfq.filter (fun r => !b.units.contains r.u) }) := ⟨_, rfl⟩
  obtain ⟨due, hdue⟩ : ∃ due, due = (s2.warps.filter (fun w => b.units.contains w.1 && w.2.overrunTrap)).filterMap (fun w => w.2.tx) := ⟨_, rfl⟩
  obtain ⟨s4, hs4⟩ : ∃ s4, s4 = { s3 with
      warps := s3.warps.filter (fun w => !b.units.contains w.1), blocks := kdel s3.blocks blk,
      ext := s3.ext.filter (fun e => e.2.wr || !b.units.contains e.2.u),
      txs := s3.txs.map (fun (t : Nat × Tx) => if due.contains t.1 then (t.1, { t.2 with trapDue := true }) else t) } := ⟨_, rfl⟩
  have he : s2.unloadBlock blk b = s4.vsSweep b.core := by
    unfold State.unloadBlock
    dsimp only
    rw [← hpf, ← hdue, ← hs3, ← hs4]
  obtain ⟨cs2, hcs2⟩ := vsSweep_frame s4 b.core
  rw [he, hcs2]
  have f3 : s3 = { s2 with launches := s3.launches, cores := s3.cores } := by rw [hs3]; rfl
  have w3 : s3.warps = s2.warps := by rw [f3]
  have b3 : s3.blocks = s2.blocks := by rw [f3]
  refine ⟨_, rfl, ?_, ?_, ?_, ?_, ?_, ?_⟩
  · rw [hs4]; exact kget_kdel_self ..
  · intro k hk
    rw [hs4]
    refine (kget_kdel_ne _ hk).trans ?_
    rw [b3]
  · intro u hu w hw
    rw [hs4] at hw
    have := (List.mem_filter.1 hw).2
    simp only [Bool.not_eq_true', List.contains_eq_mem, decide_eq_false_iff_not] at this
    exact this hu
  · intro y hy hn
    rw [hs4]
    refine List.mem_filter.2 ⟨?_, by simpa using hn⟩
    rw [w3]; exact hy
  · refine ⟨{ l2 with saved := kput l2.saved b.bid ⟨blk, b.warps, b.tctx, pf⟩ }, ?_, ⟨blk, b.warps, b.tctx, pf⟩, kget_kput_self .., rfl, rfl, rfl⟩
    have : s4.launches = kmod s2.launches b.launch (fun l => { l with saved := kput l.saved b.bid ⟨blk, b.warps, b.tctx, pf⟩ }) := by rw [hs4, hs3]; rfl
    show kget s4.launches _ = _
    rw [this, kget_kmod_self, hl2]; rfl
  · have f4 : s4 = { s3 with warps := s4.warps, blocks := s4.blocks, ext := s4.ext, txs := s4.txs } := by rw [hs4]
    rw [f4, f3]

theorem saveBlock_spec (s : State) (blk : Nat) (b : Block) (l : Launch) (reason seqno base : Nat) (h2 : kget s.launches b.launch = some l) :
    ∃ x, s.saveBlock blk b reason seqno base = x ∧ kget x.blocks blk = none ∧ (∀ k, k ≠ blk → kget x.blocks k = kget s.blocks k) ∧
      (∀ u ∈ b.units, ∀ w, (u, w) ∉ x.warps) ∧ (∀ y ∈ s.warps, y.1 ∉ b.units → y ∈ x.warps) ∧
      (∃ l', kget x.launches b.launch = some l' ∧ ∃ k, kget l'.saved b.bid = some k ∧ k.blk = blk ∧ k.us = b.warps ∧ k.tctx = b.tctx) ∧
      x.hNat (base + l.lr.imageSize (s.keepTiles b).tiles.length - 8) 8 = completeOf seqno ∧
      x = { s with
        mem := x.mem, launches := x.launches, regs := x.regs, cores := x.cores, tlb := x.tlb, rc := x.rc, ms := x.ms, out := x.out,
        warps := x.warps, blocks := x.blocks, ext := x.ext, txs := x.txs } := by
  obtain ⟨ts, hts⟩ := keepTiles_eq s b
  obtain ⟨b', hb'⟩ : ∃ b', b' = { b with tiles := ts } := ⟨_, rfl⟩
  have e1 : b'.launch = b.launch := by rw [hb']
  have e2 : b'.bid = b.bid := by rw [hb']
  have e3 : b'.warps = b.warps := by rw [hb']
  have e4 : b'.tctx = b.tctx := by rw [hb']
  have e5 : b'.units = b.units := by unfold Block.units; rw [e3, e4]
  rw [hts, ← hb']
  obtain ⟨s1, hs1⟩ : ∃ s1, s1 = (s.setBlock blk b').purge b'.core l.part l.ctx := ⟨_, rfl⟩
  obtain ⟨cs, hcs⟩ := purge_frame (s.setBlock blk b') b'.core l.part l.ctx
  have f1 : s1 = { s with blocks := kput s.blocks blk b', cores := cs } := by rw [hs1, hcs]; rfl
  have hw : s.saveBlock blk b reason seqno base = (s1.writeImage b' l reason seqno base).unloadBlock blk b' := by
    unfold State.saveBlock
    rw [h2]
    dsimp only
    rw [hts, ← hb', ← hs1]
  obtain ⟨s2, hs2⟩ : ∃ s2, s2 = s1.writeImage b' l reason seqno base := ⟨_, rfl⟩
  have hf := writeImage_frame s1 b' l reason seqno base
  have hc := writeImage_complete s1 b' l reason seqno base
  obtain ⟨l2, hl2⟩ := writeImage_keeps s1 b' l reason seqno base b'.launch l (by rw [f1, e1]; exact h2)
  rw [← hs2] at hw hf hc hl2
  obtain ⟨x, hx, x1, x2, x3, x4, ⟨l', x5, k, x6, x7, x8, x9⟩, x10⟩ := unloadBlock_spec s2 blk b' l2 hl2
  rw [e5] at x3 x4
  rw [e1] at x5
  rw [e2] at x6
  rw [e3] at x8
  rw [e4] at x9
  have hws : s2.warps = s.warps := by rw [hf.warps, f1]
  refine ⟨x, hw.trans hx, x1, ?_, x3, ?_, ⟨l', x5, k, x6, x7, x8, x9⟩, ?_, ?_⟩
  · intro k hk
    rw [x2 k hk, hf.blocks, f1]
    exact (kget_kput ..).trans (if_neg hk)
  · intro y hy hn
    exact x4 y (by rw [hws]; exact hy) hn
  · rw [← hc]
    exact hNat_congr (by rw [x10]) _ _
  · unfold OnlyMem at hf
    rw [hf, f1] at x10
    rw [x10]

theorem restoreInto_none (s : State) (own : Bool) (lid : Nat) (l : Launch) (a : Nat) (h : Header) (e : (s.restoreInto own lid l a h).2 ≠ 0) :
    (s.restoreInto own lid l a h).1 = none := by
  revert e
  unfold State.restoreInto
  split
  · intro _; rfl
  · split
    · intro e; exact absurd rfl e
    · intro _; rfl

theorem restoreImage_fail (s : State) (own : Bool) (p a : Nat) (e : (s.restoreImage own p a).2 ≠ 0) : (s.restoreImage own p a).1 = s := by
  revert e
  unfold State.restoreImage
  dsimp only
  split
  · intro _; rfl
  · split
    · intro e
      rw [restoreInto_none _ _ _ _ _ _ e]; rfl
    · split
      · intro _; rfl
      · intro e
        rw [restoreInto_none _ _ _ _ _ _ e]; rfl

theorem owedAcquire_frame (s : State) (u : Nat) (due : Bool) : ∃ cs, s.owedAcquire u due = { s with cores := cs } := by
  unfold State.owedAcquire
  split
  · split
    · exact acquire_frame ..
    · exact ⟨s.cores, rfl⟩
  · exact ⟨s.cores, rfl⟩

/-- What `loadUnit` leaves. -/
theorem loadUnit_spec (s : State) (l : Launch) (core u a n la st : Nat) :
    (∃ ws cs xs, s.loadUnit l core u a n la st = { s with warps := ws, cores := cs, txs := xs }) ∧
    (∀ v, v ≠ u → kget (s.loadUnit l core u a n la st).warps v = kget s.warps v) ∧
    (∀ w, kget s.warps u = some w → ∃ w', kget (s.loadUnit l core u a n la st).warps u = some w' ∧ w'.lin = [] ∧ w'.blk = w.blk ∧ w'.wid = w.wid) := by
  obtain ⟨s1, hs1⟩ : ∃ s1, s1 = s.modWarp u (fun w => s.loadWarp l.part l.ctx w a n la st) := ⟨_, rfl⟩
  have f1 : s1 = { s with warps := s1.warps } := by rw [hs1]; rfl
  have hrec : ∃ cs, s1.loadRecords core u a = { s1 with cores := cs } := by
    unfold State.loadRecords
    exact foldl_rel (fun a b => ∃ cs, b = { a with cores := cs }) (fun a => ⟨a.cores, rfl⟩)
      (fun a b c ⟨x, hx⟩ ⟨y, hy⟩ => ⟨y, by rw [hy, hx]⟩) _ (fun s k => ⟨_, rfl⟩) _ _
  obtain ⟨cs, hcs⟩ := hrec
  have hl : s.loadUnit l core u a n la st = State.loadTx { s1 with cores := cs } l.part u a := by
    unfold State.loadUnit
    dsimp only
    rw [← hs1, hcs]
  have htx : ∀ s2 : State, (∃ ws cs xs, s2.loadTx l.part u a = { s2 with warps := ws, cores := cs, txs := xs }) ∧ (∀ v, v ≠ u → kget (s2.loadTx l.part u a).warps v = kget s2.warps v) ∧
      (∀ w, kget s2.warps u = some w → ∃ w', kget (s2.loadTx l.part u a).warps u = some w' ∧ w'.lin = w.lin ∧ w'.blk = w.blk ∧ w'.wid = w.wid) := by
    intro s2
    unfold State.loadTx
    split
    · exact ⟨⟨s2.warps, s2.cores, s2.txs, rfl⟩, fun _ _ => rfl, fun w hw => ⟨w, hw, rfl, rfl, rfl⟩⟩
    · dsimp only
      split
      · rename_i k x hx
        obtain ⟨c2, hc2⟩ := owedAcquire_frame s2 u x.acqDue
        rw [hc2]
        refine ⟨⟨_, c2, _, rfl⟩, fun v hv => kget_kmod_ne _ _ hv, fun w hw => ⟨_, (kget_kmod_self ..).trans (congrArg _ hw), rfl, rfl, rfl⟩⟩
      · exact ⟨⟨s2.warps, s2.cores, s2.txs, rfl⟩, fun _ _ => rfl, fun w hw => ⟨w, hw, rfl, rfl, rfl⟩⟩
  obtain ⟨⟨ws, c1, xs, h1⟩, h2, h3⟩ := htx { s1 with cores := cs }
  rw [hl]
  refine ⟨⟨ws, c1, xs, by rw [h1, f1]⟩, fun v hv => ?_, fun w hw => ?_⟩
  · rw [h2 v hv, hs1]; exact kget_kmod_ne _ _ hv
  · obtain ⟨w', a1, a2, a3, a4⟩ := h3 (s.loadWarp l.part l.ctx w a n la st) (by rw [hs1]; exact (kget_kmod_self ..).trans (by rw [hw]; rfl))
    exact ⟨w', a1, a2, a3, a4⟩

theorem loadUnits_spec (l : Launch) (core st0 : Nat) (A : Nat → Nat) (B : Nat → Nat) (la st : Nat) (L : List (Nat × Nat)) (hn : (L.map (·.2)).Nodup) (s : State) :
    (∃ ws cs xs, L.foldl (fun s x => s.loadUnit l core x.2 (A x.1) (B x.1) la st) s = { s with warps := ws, cores := cs, txs := xs }) ∧
    (∀ v, v ∉ L.map (·.2) → kget (L.foldl (fun s x => s.loadUnit l core x.2 (A x.1) (B x.1) la st) s).warps v = kget s.warps v) ∧
    (∀ x ∈ L, ∀ w, kget s.warps x.2 = some w → ∃ w', kget (L.foldl (fun s x => s.loadUnit l core x.2 (A x.1) (B x.1) la st) s).warps x.2 = some w' ∧
      w'.lin = [] ∧ w'.blk = w.blk ∧ w'.wid = w.wid) := by
  induction L generalizing s with
  | nil => exact ⟨⟨s.warps, s.cores, s.txs, rfl⟩, fun _ _ => rfl, by simp⟩
  | cons a r ih =>
    obtain ⟨⟨ws, cs, xs, i1⟩, i2, i3⟩ := ih (List.nodup_cons.1 hn).2 (s.loadUnit l core a.2 (A a.1) (B a.1) la st)
    have ha : a.2 ∉ r.map (·.2) := (List.nodup_cons.1 hn).1
    obtain ⟨⟨w0, c0, x0, j1⟩, j2, j3⟩ := loadUnit_spec s l core a.2 (A a.1) (B a.1) la st
    rw [List.foldl_cons]
    refine ⟨⟨ws, cs, xs, by rw [i1, j1]⟩, fun v hv => ?_, fun x hx w hw => ?_⟩
    · have hv' : v ≠ a.2 ∧ v ∉ r.map (·.2) := by simpa using hv
      rw [i2 v hv'.2, j2 v hv'.1]
    · rcases List.mem_cons.1 hx with rfl | hx
      · obtain ⟨w', a1, a2⟩ := j3 w hw
        exact ⟨w', by rw [i2 _ ha]; exact a1, a2⟩
      · have : x.2 ≠ a.2 := fun e => ha (e ▸ List.mem_map.2 ⟨x, hx, rfl⟩)
        exact i3 x hx w (by rw [j2 _ this]; exact hw)

theorem zip_range_snd (us : List Nat) : ((List.range us.length).zip us).map (·.2) = us := by
  rw [List.map_snd_zip]; simp

theorem mem_zip_range (us : List Nat) (j : Nat) (hj : j < us.length) : (j, us[j]) ∈ (List.range us.length).zip us := by
  rw [List.mem_iff_getElem]
  exact ⟨j, by simpa using hj, by simp⟩

end Sys2Proof
end

