-- ==== Sys2Proof/Laws/Host.lean ====
section
/-! SUPPORT. Host accesses and registers, and the sorted tables: what the shared operations do. -/

namespace Sys2Proof

open Sys2Proof.Machine

theorem rcDrop_none (s : State) (x d l : Nat) (h : s.rcLine d l = none) : (s.rcDrop x).rcLine d l = none := by
  by_cases e : l = x
  · subst e; exact rcDrop_line ..
  · unfold State.rcDrop
    split
    · exact h
    · unfold State.rcLine at *
      dsimp only
      unfold sget at *
      have := kget_map s.rc (fun e => kdel e x) d
      rw [this]
      cases hk : kget s.rc d with
      | none => rfl
      | some v =>
        rw [hk] at h
        show kget (kdel v x) l = none
        rw [kget_kdel_ne _ e]; exact h

theorem hostPut_spec (bs : List Byte) (s : State) (pa : Nat) :
    (∃ m r, s.hostPut pa bs = { s with mem := m, rc := r }) ∧
    (∀ a, (s.hostPut pa bs).hByte a = if pa ≤ a ∧ a < pa + bs.length then bs.getD (a - pa) 0 else s.hByte a) ∧
    (∀ d l, s.rcLine d l = none → (s.hostPut pa bs).rcLine d l = none) ∧
    ∀ d k, k < bs.length → (s.hostPut pa bs).rcLine d ((pa + k) / lineBytes) = none := by
  induction bs generalizing s pa with
  | nil => exact ⟨⟨s.mem, s.rc, rfl⟩, fun a => by rw [if_neg (by simp)]; rfl, fun _ _ h => h, by simp⟩
  | cons b t ih =>
    obtain ⟨⟨m, r, i1⟩, i2, i3, i4⟩ := ih ((s.setH pa b).rcDrop (pa / lineBytes)) (pa + 1)
    obtain ⟨r1, hr1⟩ := rcDrop_frame (s.setH pa b) (pa / lineBytes)
    have hb : ∀ a, ((s.setH pa b).rcDrop (pa / lineBytes)).hByte a = (s.setH pa b).hByte a := by intro a; rw [hr1]; rfl
    have e : s.hostPut pa (b :: t) = ((s.setH pa b).rcDrop (pa / lineBytes)).hostPut (pa + 1) t := rfl
    rw [e]
    refine ⟨⟨m, r, by rw [i1, hr1]; rfl⟩, fun a => ?_, fun d l h => i3 d l (rcDrop_none _ _ _ _ h), fun d k hk => ?_⟩
    · rw [i2, hb]
      by_cases h : a = pa
      · subst h
        rw [if_neg (by omega), if_pos (by simp)]
        simp
      · by_cases h2 : pa + 1 ≤ a ∧ a < pa + 1 + t.length
        · rw [if_pos h2, if_pos (by simp; omega)]
          have : a - pa = (a - (pa + 1)) + 1 := by omega
          rw [this, List.getD_cons_succ]
        · rw [if_neg h2, hByte_setH_ne s b h, if_neg (by simp; omega)]
    · cases k with
      | zero => exact i3 d _ (rcDrop_line ..)
      | succ k =>
        have := i4 d k (by simpa using hk)
        rw [show pa + (k + 1) = pa + 1 + k by omega]; exact this

theorem find_range_none (n : Nat) (p : Nat → Bool) (h : ∀ k, k < n → p k = false) : (List.range n).find? p = none := by
  rw [List.find?_eq_none]; intro k hk; rw [h k (by simpa using hk)]; decide

theorem find_range_some (n k : Nat) (p : Nat → Bool) (hk : k < n) (h : p k = true) (hj : ∀ j, j < k → p j = false) : (List.range n).find? p = some k := by
  rw [List.find?_range_eq_some]
  exact ⟨h, by simpa using hk, fun j hjk => by rw [hj j hjk]; rfl⟩

theorem readDone_eq (s : State) (r : Nat) (x : ExtReq) (err : Nat) (bs : List Byte) (hi : (s.part x.part).inb = []) :
    s.readDone r x err bs = State.modWarp { s with ext := kput s.ext r { x with answer := some (err, bs) } } x.u (fun w =>
      (w.frontier.filter (fun e => decide (e.st = .waiting (.ext r)))).foldl (fun w e => w.move e.mask e.pc .ready) w) := by
  unfold State.readDone
  dsimp only
  unfold State.inbRetry
  dsimp only
  rw [show (State.part (State.modWarp { s with ext := kput s.ext r { x with answer := some (err, bs) } } x.u (fun w =>
      (w.frontier.filter (fun e => decide (e.st = .waiting (.ext r)))).foldl (fun w e => w.move e.mask e.pc .ready) w)) x.part).inb = [] from hi]
  rfl

theorem readDone_spec (s : State) (r : Nat) (x : ExtReq) (err : Nat) (bs : List Byte) (hi : (s.part x.part).inb = []) :
    ∃ t, s.readDone r x err bs = t ∧ t = { s with ext := t.ext, warps := t.warps } ∧ kget t.ext r = some { x with answer := some (err, bs) } ∧
      (∀ k, k ≠ r → kget t.ext k = kget s.ext k) ∧ (∀ u, u ≠ x.u → kget t.warps u = kget s.warps u) ∧
      ∀ w, kget s.warps x.u = some w → ∃ w', kget t.warps x.u = some w' ∧ Kept w w' ∧ Readied w w' (fun e => e.st = .waiting (.ext r)) (fun e => e.pc) := by
  rw [readDone_eq s r x err bs hi]
  refine ⟨_, rfl, rfl, kget_kput_self .., fun k hk => ?_, fun u hu => kget_kmod_ne _ _ hu, fun w hw => ?_⟩
  · exact (kget_kput ..).trans (if_neg hk)
  · refine ⟨_, (kget_kmod_self ..).trans (by rw [hw]; rfl), ?_, ?_⟩
    · exact (kept_moves _ (fun e => e.pc) w).1
    · exact readied_fold w (fun e => decide (e.st = .waiting (.ext r))) (fun e => e.st = .waiting (.ext r)) (fun e => e.pc) (fun e _ => by simp)

theorem open_not {x : ExtReq} (h : x.open_ = true) : ¬ (!x.open_) = true := by rw [h]; decide

theorem rises_gt {α : Type} (t : KMap α) (a : Nat) (h : risesFrom (some a) t = true) : ∀ e ∈ t, a < e.1 := by
  induction t generalizing a with
  | nil => simp
  | cons b r ih =>
    obtain ⟨k, v⟩ := b
    simp only [risesFrom, Bool.and_eq_true, decide_eq_true_eq] at h
    intro e he
    rcases List.mem_cons.1 he with rfl | he
    · exact h.1
    · exact Nat.lt_trans h.1 (ih k h.2 e he)

theorem rises_tail {α : Type} {k : Nat} {v : α} {t : KMap α} {lo : Option Nat} (h : risesFrom lo ((k, v) :: t) = true) : risesFrom (some k) t = true := by
  cases lo with
  | none => exact h
  | some lo => simp only [risesFrom, Bool.and_eq_true] at h; exact h.2

theorem filter_kput {α : Type} (m : KMap α) (k : Nat) (x v : α) (lo : Option Nat) (hr : risesFrom lo m = true) (hg : kget m k = some x) (P : Nat × α → Bool)
    (hP : ∀ e ∈ m, P e = true → e.1 = k) (hv : P (k, v) = true) : (kput m k v).filter P = [(k, v)] := by
  induction m generalizing lo with
  | nil => cases hg
  | cons a t ih =>
    obtain ⟨k', v'⟩ := a
    have hgt := rises_gt t k' (rises_tail hr)
    unfold kput
    by_cases h : k = k'
    · rw [if_pos h, List.filter_cons_of_pos hv]
      rw [List.filter_eq_nil_iff.2]
      intro e he hp
      have := hP e (by simp [he]) hp
      have := hgt e he
      omega
    · rw [if_neg h]
      have hg' : kget t k = some x := by
        simp only [kget] at hg
        rw [if_neg (Ne.symm h)] at hg; exact hg
      have := hgt _ (kget_mem hg')
      rw [if_neg (Nat.not_lt.2 (Nat.le_of_lt this)), List.filter_cons_of_neg]
      · exact ih (some k') (rises_tail hr) hg' (fun e he => hP e (by simp [he]))
      · intro hp; exact h (hP _ (by simp) hp).symm

theorem kget_filter {α : Type} (m : KMap α) (P : Nat × α → Bool) (k : Nat) (h : ∀ e ∈ m, e.1 = k → P e = true) : kget (m.filter P) k = kget m k := by
  induction m with
  | nil => rfl
  | cons a t ih =>
    obtain ⟨k', v'⟩ := a
    by_cases hp : P (k', v') = true
    · rw [List.filter_cons_of_pos hp]
      simp only [kget]
      rw [ih (fun e he => h e (by simp [he]))]
    · rw [List.filter_cons_of_neg hp]
      have : k' ≠ k := fun e => hp (h _ (by simp) e)
      simp only [kget]
      rw [if_neg this]
      exact ih (fun e he => h e (by simp [he]))

theorem kget_filter_none {α : Type} (m : KMap α) (P : Nat × α → Bool) (k : Nat) (h : ∀ e ∈ m, e.1 = k → P e = false) : kget (m.filter P) k = none := by
  induction m with
  | nil => rfl
  | cons a t ih =>
    obtain ⟨k', v'⟩ := a
    by_cases hp : P (k', v') = true
    · rw [List.filter_cons_of_pos hp]
      have : k' ≠ k := fun e => by rw [h _ (by simp) e] at hp; cases hp
      simp only [kget]
      rw [if_neg this]
      exact ih (fun e he => h e (by simp [he]))
    · rw [List.filter_cons_of_neg hp]
      exact ih (fun e he => h e (by simp [he]))

theorem kput_key {α : Type} (m : KMap α) (k : Nat) (v : α) (lo : Option Nat) (hr : risesFrom lo m = true) : ∀ e ∈ kput m k v, e.1 = k → e = (k, v) := by
  induction m generalizing lo with
  | nil => intro e he _; simpa [kput] using he
  | cons a t ih =>
    obtain ⟨k', v'⟩ := a
    have hgt := rises_gt t k' (rises_tail hr)
    intro e he hk
    unfold kput at he
    split at he
    · rename_i h
      rcases List.mem_cons.1 he with rfl | he
      · rfl
      · have := hgt e he; omega
    · split at he
      · rename_i h1 h2
        rcases List.mem_cons.1 he with rfl | he
        · rfl
        · rcases List.mem_cons.1 he with rfl | he
          · exact absurd hk.symm h1
          · have := hgt e he; omega
      · rename_i h1 h2
        rcases List.mem_cons.1 he with rfl | he
        · exact absurd hk.symm h1
        · exact ih (some k') (rises_tail hr) e he hk

theorem kget_filter_kput {α : Type} (m : KMap α) (k : Nat) (v : α) (lo : Option Nat) (hr : risesFrom lo m = true) (P : Nat × α → Bool)
    (hP : ∀ e ∈ m, P e = true → e.1 = k) (hv : P (k, v) = true) (j : Nat) : kget ((kput m k v).filter (fun y => !P y)) j = if j = k then none else kget m j := by
  split
  · rename_i h
    subst h
    refine kget_filter_none _ _ _ (fun e he hj => ?_)
    rw [kput_key m j v lo hr e he hj, hv]; rfl
  · rename_i h
    rw [kget_filter, kget_kput, if_neg h]
    intro e he hj
    rcases mem_kput he with rfl | he
    · exact absurd hj.symm h
    · cases hp : P e with
      | false => rfl
      | true => exact absurd ((hP e he hp) ▸ hj).symm h

theorem inbOpen_cond {s : State} {port peer off acc n : Nat} (h1 : s.inboundOpen port = true) (h2 : 0 < n) (h3 : acc ≤ 2) (h4 : peer ≤ 255) (h5 : off < 2 ^ 44) :
    ¬ (!s.inboundOpen port || n = 0 || decide (2 < acc) || decide (255 < peer) || decide (2 ^ 44 ≤ off)) = true := by
  simp [h1]; omega

theorem regWrite_eq (s : State) (fn off size : Nat) (v : BitVec 64) (h1 : size ∈ [1, 2, 4, 8]) (h2 : off % size = 0) (h3 : fn ≤ 17) :
    exec (.registerWrite fn off size v) s = .next (
      let x := wordOf off size v.toNat
      let t := (s.fieldsAt fn x.1).foldl (fun st f => st.putField f x.2.1 x.2.2) s
      let t := if t.aperturesClash then s else t
      t.triggers fn x.1 size x.2.1 x.2.2) := by
  show Host.Outcome.next _ = _
  rw [if_neg]
  simp only [List.mem_cons, List.not_mem_nil, or_false] at h1
  simp only [Bool.or_eq_true, Bool.not_eq_true', Bool.or_eq_false_iff, beq_eq_false_iff_ne, bne_iff_ne, decide_eq_true_eq]
  rintro ((h | h) | h)
  · tauto
  · exact h h2
  · omega

end Sys2Proof
end

