-- ==== Sys2Proof/Laws/Kept.lean ====
section
/-! SUPPORT. Every operation on memory keeps its canonical form: a write of a byte, of bytes, of a number, and what takes bytes away. -/

namespace Sys2Proof.Machine

theorem risesFrom_filter {α : Type} (f : Nat × α → Bool) (m : KMap α) (lo : Option Nat) (h : risesFrom lo m = true) :
    risesFrom lo (m.filter f) = true := by
  induction m generalizing lo with
  | nil => exact h
  | cons e t ih =>
    obtain ⟨k, v⟩ := e
    have ht : risesFrom (some k) t = true := by cases lo <;> simp_all [risesFrom]
    rw [List.filter_cons]
    split
    · cases lo <;> simp_all [risesFrom]
    · refine ih lo ?_
      cases lo with
      | none => exact risesFrom_none _ ht
      | some a => exact risesFrom_weaken _ (by simp [risesFrom] at h; omega) ht

theorem wf_filter (f : Host.Cell → Bool) (m : List Host.Cell) (h : Memory.wf m = true) : Memory.wf (m.filter f) = true := by
  unfold Memory.wf canonical at h ⊢
  simp only [Bool.and_eq_true, List.all_eq_true] at h ⊢
  exact ⟨risesFrom_filter f m none h.1, fun e he => h.2 e (List.mem_filter.1 he).1⟩

theorem setH_memWf (s : State) (pa : Nat) (v : Byte) (h : s.memWf) : (s.setH pa v).memWf := canonical_sset 0 s.mem pa v h

theorem setHs_memWf (vs : List Byte) : ∀ (s : State) (pa : Nat), s.memWf → (s.setHs pa vs).memWf := by
  induction vs with
  | nil => exact fun _ _ h => h
  | cons v t ih => exact fun s pa h => ih _ _ (setH_memWf s pa v h)

theorem setHNat_memWf (s : State) (pa n v : Nat) (h : s.memWf) : (s.setHNat pa n v).memWf := setHs_memWf _ s pa h

/-- What a partition's release and a loss of power leave of memory. -/
theorem scrubPart_memWf (s : State) (p : Nat) (h : s.memWf) : (s.scrubPart p).memWf := wf_filter _ _ h
theorem wipe_memWf (s : State) (on : Bool) (h : s.memWf) : (s.wipe on).memWf := wf_filter _ _ h

/-- Filling the spill areas, and with it the choice of the next step. -/
theorem spillWarp_memWf (s : State) (w : Warp) (h : s.memWf) : (s.spillWarp w).memWf := by
  unfold State.spillWarp
  dsimp only
  split
  · exact h
  · split
    · split
      · exact setHs_memWf _ s _ h
      · exact h
    · exact h

theorem spillAll_memWf (s : State) (h : s.memWf) : s.spillAll.memWf := by
  unfold State.spillAll
  generalize s.warps = ws
  induction ws generalizing s with
  | nil => exact h
  | cons e t ih => exact ih _ (spillWarp_memWf s e.2 h)

theorem choose_memWf (s : State) (h : s.memWf) : s.choose.2.memWf := by
  have h' := spillAll_memWf s h
  unfold State.choose
  split <;> exact h'

end Sys2Proof.Machine
end

