-- ==== Sys2Proof/Laws/PerInstr.lean ====
section
/-! SUPPORT. For each instruction: it has an encoding exactly when it is an instruction word, and its word decodes to it. -/

namespace Sys2Proof.Laws.RoundTrip

/-- Encoding and decoding agree on the instruction, at every value of its fields. -/
def Statement (i : Instr) : Prop :=
  ((encode i).isSome = i.isWord) ∧ ∀ w, encode i = some w → decode w = .ok i

theorem of_word {i : Instr} {w : Word} (he : encode i = some w) (hw : i.isWord = true) (hd : decode w = .ok i) : Statement i :=
  ⟨by rw [he, hw]; rfl, fun v hv => by rw [he] at hv; cases hv; exact hd⟩

theorem of_event {i : Instr} (he : encode i = none) (hw : i.isWord = false) : Statement i :=
  ⟨by rw [he, hw]; rfl, fun v hv => by rw [he] at hv; cases hv⟩

theorem addW (b a d) : Statement (.addW b a d) := of_word rfl rfl (decode_encFR _ (by decide) _ _ _)
theorem subW (b a d) : Statement (.subW b a d) := of_word rfl rfl (decode_encFR _ (by decide) _ _ _)
theorem addsSw (b a d) : Statement (.addsSw b a d) := of_word rfl rfl (decode_encFR _ (by decide) _ _ _)
theorem addsUw (b a d) : Statement (.addsUw b a d) := of_word rfl rfl (decode_encFR _ (by decide) _ _ _)
theorem subsSw (b a d) : Statement (.subsSw b a d) := of_word rfl rfl (decode_encFR _ (by decide) _ _ _)
theorem subsUw (b a d) : Statement (.subsUw b a d) := of_word rfl rfl (decode_encFR _ (by decide) _ _ _)
theorem mulW (b a d) : Statement (.mulW b a d) := of_word rfl rfl (decode_encFR _ (by decide) _ _ _)
theorem mulhiSw (b a d) : Statement (.mulhiSw b a d) := of_word rfl rfl (decode_encFR _ (by decide) _ _ _)
theorem mulhiUw (b a d) : Statement (.mulhiUw b a d) := of_word rfl rfl (decode_encFR _ (by decide) _ _ _)
theorem madW (b a d) : Statement (.madW b a d) := of_word rfl rfl (decode_encFR _ (by decide) _ _ _)
theorem minSw (b a d) : Statement (.minSw b a d) := of_word rfl rfl (decode_encFR _ (by decide) _ _ _)
theorem minUw (b a d) : Statement (.minUw b a d) := of_word rfl rfl (decode_encFR _ (by decide) _ _ _)
theorem maxSw (b a d) : Statement (.maxSw b a d) := of_word rfl rfl (decode_encFR _ (by decide) _ _ _)
theorem maxUw (b a d) : Statement (.maxUw b a d) := of_word rfl rfl (decode_encFR _ (by decide) _ _ _)
theorem absSw (a d) : Statement (.absSw a d) := of_word rfl rfl (decode_encFR _ (by decide) _ _ _)
theorem negW (a d) : Statement (.negW a d) := of_word rfl rfl (decode_encFR _ (by decide) _ _ _)
theorem addD (b a d) : Statement (.addD b a d) := of_word rfl rfl (decode_encFR _ (by decide) _ _ _)
theorem subD (b a d) : Statement (.subD b a d) := of_word rfl rfl (decode_encFR _ (by decide) _ _ _)
theorem addwD (b a d) : Statement (.addwD b a d) := of_word rfl rfl (decode_encFR _ (by decide) _ _ _)
theorem mulSwd (b a d) : Statement (.mulSwd b a d) := of_word rfl rfl (decode_encFR _ (by decide) _ _ _)
theorem mulUwd (b a d) : Statement (.mulUwd b a d) := of_word rfl rfl (decode_encFR _ (by decide) _ _ _)
theorem idot4Sb (b a d) : Statement (.idot4Sb b a d) := of_word rfl rfl (decode_encFR _ (by decide) _ _ _)
theorem idot4Ub (b a d) : Statement (.idot4Ub b a d) := of_word rfl rfl (decode_encFR _ (by decide) _ _ _)
theorem and (b a d) : Statement (.and b a d) := of_word rfl rfl (decode_encFR _ (by decide) _ _ _)
theorem or (b a d) : Statement (.or b a d) := of_word rfl rfl (decode_encFR _ (by decide) _ _ _)
theorem xor (b a d) : Statement (.xor b a d) := of_word rfl rfl (decode_encFR _ (by decide) _ _ _)
theorem andn (b a d) : Statement (.andn b a d) := of_word rfl rfl (decode_encFR _ (by decide) _ _ _)
theorem shl (b a d) : Statement (.shl b a d) := of_word rfl rfl (decode_encFR _ (by decide) _ _ _)
theorem shr (b a d) : Statement (.shr b a d) := of_word rfl rfl (decode_encFR _ (by decide) _ _ _)
theorem sra (b a d) : Statement (.sra b a d) := of_word rfl rfl (decode_encFR _ (by decide) _ _ _)
theorem rotl (b a d) : Statement (.rotl b a d) := of_word rfl rfl (decode_encFR _ (by decide) _ _ _)
theorem clz (a d) : Statement (.clz a d) := of_word rfl rfl (decode_encFR _ (by decide) _ _ _)
theorem popc (a d) : Statement (.popc a d) := of_word rfl rfl (decode_encFR _ (by decide) _ _ _)
theorem brev (a d) : Statement (.brev a d) := of_word rfl rfl (decode_encFR _ (by decide) _ _ _)
theorem bfxUw (b a d) : Statement (.bfxUw b a d) := of_word rfl rfl (decode_encFR _ (by decide) _ _ _)
theorem bfxSw (b a d) : Statement (.bfxSw b a d) := of_word rfl rfl (decode_encFR _ (by decide) _ _ _)
theorem bfi (b a d) : Statement (.bfi b a d) := of_word rfl rfl (decode_encFR _ (by decide) _ _ _)
theorem perm (b a d) : Statement (.perm b a d) := of_word rfl rfl (decode_encFR _ (by decide) _ _ _)
theorem mov (a d) : Statement (.mov a d) := of_word rfl rfl (decode_encFR _ (by decide) _ _ _)
theorem faddF32 (b a d) : Statement (.faddF32 b a d) := of_word rfl rfl (decode_encFR _ (by decide) _ _ _)
theorem fsubF32 (b a d) : Statement (.fsubF32 b a d) := of_word rfl rfl (decode_encFR _ (by decide) _ _ _)
theorem fmulF32 (b a d) : Statement (.fmulF32 b a d) := of_word rfl rfl (decode_encFR _ (by decide) _ _ _)
theorem ffmaF32 (b a d) : Statement (.ffmaF32 b a d) := of_word rfl rfl (decode_encFR _ (by decide) _ _ _)
theorem fminF32 (b a d) : Statement (.fminF32 b a d) := of_word rfl rfl (decode_encFR _ (by decide) _ _ _)
theorem fmaxF32 (b a d) : Statement (.fmaxF32 b a d) := of_word rfl rfl (decode_encFR _ (by decide) _ _ _)
theorem fabsF32 (a d) : Statement (.fabsF32 a d) := of_word rfl rfl (decode_encFR _ (by decide) _ _ _)
theorem fnegF32 (a d) : Statement (.fnegF32 a d) := of_word rfl rfl (decode_encFR _ (by decide) _ _ _)
theorem frcpF32 (a d) : Statement (.frcpF32 a d) := of_word rfl rfl (decode_encFR _ (by decide) _ _ _)
theorem frsqF32 (a d) : Statement (.frsqF32 a d) := of_word rfl rfl (decode_encFR _ (by decide) _ _ _)
theorem fsqrtF32 (a d) : Statement (.fsqrtF32 a d) := of_word rfl rfl (decode_encFR _ (by decide) _ _ _)
theorem fdivF32 (b a d) : Statement (.fdivF32 b a d) := of_word rfl rfl (decode_encFR _ (by decide) _ _ _)
theorem fex2F32 (a d) : Statement (.fex2F32 a d) := of_word rfl rfl (decode_encFR _ (by decide) _ _ _)
theorem flg2F32 (a d) : Statement (.flg2F32 a d) := of_word rfl rfl (decode_encFR _ (by decide) _ _ _)
theorem fsinpiF32 (a d) : Statement (.fsinpiF32 a d) := of_word rfl rfl (decode_encFR _ (by decide) _ _ _)
theorem fcospiF32 (a d) : Statement (.fcospiF32 a d) := of_word rfl rfl (decode_encFR _ (by decide) _ _ _)
theorem ftanhF32 (a d) : Statement (.ftanhF32 a d) := of_word rfl rfl (decode_encFR _ (by decide) _ _ _)
theorem frndF32 (a d) : Statement (.frndF32 a d) := of_word rfl rfl (decode_encFR _ (by decide) _ _ _)
theorem hadd2F16 (b a d) : Statement (.hadd2F16 b a d) := of_word rfl rfl (decode_encFR _ (by decide) _ _ _)
theorem hmul2F16 (b a d) : Statement (.hmul2F16 b a d) := of_word rfl rfl (decode_encFR _ (by decide) _ _ _)
theorem hfma2F16 (b a d) : Statement (.hfma2F16 b a d) := of_word rfl rfl (decode_encFR _ (by decide) _ _ _)
theorem hadd2Bf16 (b a d) : Statement (.hadd2Bf16 b a d) := of_word rfl rfl (decode_encFR _ (by decide) _ _ _)
theorem hmul2Bf16 (b a d) : Statement (.hmul2Bf16 b a d) := of_word rfl rfl (decode_encFR _ (by decide) _ _ _)
theorem hfma2Bf16 (b a d) : Statement (.hfma2Bf16 b a d) := of_word rfl rfl (decode_encFR _ (by decide) _ _ _)
theorem hmin2Bf16 (b a d) : Statement (.hmin2Bf16 b a d) := of_word rfl rfl (decode_encFR _ (by decide) _ _ _)
theorem hmax2Bf16 (b a d) : Statement (.hmax2Bf16 b a d) := of_word rfl rfl (decode_encFR _ (by decide) _ _ _)
theorem fdot2Bf16 (b a d) : Statement (.fdot2Bf16 b a d) := of_word rfl rfl (decode_encFR _ (by decide) _ _ _)
theorem dadd (b a d) : Statement (.dadd b a d) := of_word rfl rfl (decode_encFR _ (by decide) _ _ _)
theorem dmul (b a d) : Statement (.dmul b a d) := of_word rfl rfl (decode_encFR _ (by decide) _ _ _)
theorem dfma (b a d) : Statement (.dfma b a d) := of_word rfl rfl (decode_encFR _ (by decide) _ _ _)
theorem dmin (b a d) : Statement (.dmin b a d) := of_word rfl rfl (decode_encFR _ (by decide) _ _ _)
theorem dmax (b a d) : Statement (.dmax b a d) := of_word rfl rfl (decode_encFR _ (by decide) _ _ _)
theorem ddiv (b a d) : Statement (.ddiv b a d) := of_word rfl rfl (decode_encFR _ (by decide) _ _ _)
theorem dsqrt (a d) : Statement (.dsqrt a d) := of_word rfl rfl (decode_encFR _ (by decide) _ _ _)
theorem cvtF32Sw (a d) : Statement (.cvtF32Sw a d) := of_word rfl rfl (decode_encFR _ (by decide) _ _ _)
theorem cvtF32Uw (a d) : Statement (.cvtF32Uw a d) := of_word rfl rfl (decode_encFR _ (by decide) _ _ _)
theorem cvtSwF32 (a d) : Statement (.cvtSwF32 a d) := of_word rfl rfl (decode_encFR _ (by decide) _ _ _)
theorem cvtUwF32 (a d) : Statement (.cvtUwF32 a d) := of_word rfl rfl (decode_encFR _ (by decide) _ _ _)
theorem pkF16 (b a d) : Statement (.pkF16 b a d) := of_word rfl rfl (decode_encFR _ (by decide) _ _ _)
theorem pkBf16 (b a d) : Statement (.pkBf16 b a d) := of_word rfl rfl (decode_encFR _ (by decide) _ _ _)
theorem cvtF32F16 (i a d) : Statement (.cvtF32F16 i a d) := of_word rfl rfl (decode_encFR _ (by decide) _ _ _)
theorem cvtF32Bf16 (i a d) : Statement (.cvtF32Bf16 i a d) := of_word rfl rfl (decode_encFR _ (by decide) _ _ _)
theorem cvtF64F32 (a d) : Statement (.cvtF64F32 a d) := of_word rfl rfl (decode_encFR _ (by decide) _ _ _)
theorem cvtF32F64 (a d) : Statement (.cvtF32F64 a d) := of_word rfl rfl (decode_encFR _ (by decide) _ _ _)
theorem qpkE4m3 (b a d) : Statement (.qpkE4m3 b a d) := of_word rfl rfl (decode_encFR _ (by decide) _ _ _)
theorem qpkE5m2 (b a d) : Statement (.qpkE5m2 b a d) := of_word rfl rfl (decode_encFR _ (by decide) _ _ _)
theorem dqE4m3 (b a d) : Statement (.dqE4m3 b a d) := of_word rfl rfl (decode_encFR _ (by decide) _ _ _)
theorem dqE5m2 (b a d) : Statement (.dqE5m2 b a d) := of_word rfl rfl (decode_encFR _ (by decide) _ _ _)
theorem shflIdx (b a d) : Statement (.shflIdx b a d) := of_word rfl rfl (decode_encFR _ (by decide) _ _ _)
theorem shflUp (b a d) : Statement (.shflUp b a d) := of_word rfl rfl (decode_encFR _ (by decide) _ _ _)
theorem shflDn (b a d) : Statement (.shflDn b a d) := of_word rfl rfl (decode_encFR _ (by decide) _ _ _)
theorem shflXor (b a d) : Statement (.shflXor b a d) := of_word rfl rfl (decode_encFR _ (by decide) _ _ _)
theorem shflRel (b a d) : Statement (.shflRel b a d) := of_word rfl rfl (decode_encFR _ (by decide) _ _ _)
theorem voteAny (a d) : Statement (.voteAny a d) := of_word rfl rfl (decode_encFR _ (by decide) _ _ _)
theorem voteAll (a d) : Statement (.voteAll a d) := of_word rfl rfl (decode_encFR _ (by decide) _ _ _)
theorem ballot (a d) : Statement (.ballot a d) := of_word rfl rfl (decode_encFR _ (by decide) _ _ _)
theorem redx (i a d) : Statement (.redx i a d) := of_word rfl rfl (decode_encFR _ (by decide) _ _ _)
theorem redxi (i a d) : Statement (.redxi i a d) := of_word rfl rfl (decode_encFR _ (by decide) _ _ _)
theorem scan (i a d) : Statement (.scan i a d) := of_word rfl rfl (decode_encFR _ (by decide) _ _ _)
theorem matchW (a d) : Statement (.matchW a d) := of_word rfl rfl (decode_encFR _ (by decide) _ _ _)
theorem cmpEqW (b a d) : Statement (.cmpEqW b a d) := of_word rfl rfl (decode_encFR _ (by decide) _ _ _)
theorem cmpNeW (b a d) : Statement (.cmpNeW b a d) := of_word rfl rfl (decode_encFR _ (by decide) _ _ _)
theorem cmpLtSw (b a d) : Statement (.cmpLtSw b a d) := of_word rfl rfl (decode_encFR _ (by decide) _ _ _)
theorem cmpLeSw (b a d) : Statement (.cmpLeSw b a d) := of_word rfl rfl (decode_encFR _ (by decide) _ _ _)
theorem cmpLtUw (b a d) : Statement (.cmpLtUw b a d) := of_word rfl rfl (decode_encFR _ (by decide) _ _ _)
theorem cmpLeUw (b a d) : Statement (.cmpLeUw b a d) := of_word rfl rfl (decode_encFR _ (by decide) _ _ _)
theorem fcmpEqF32 (b a d) : Statement (.fcmpEqF32 b a d) := of_word rfl rfl (decode_encFR _ (by decide) _ _ _)
theorem fcmpLtF32 (b a d) : Statement (.fcmpLtF32 b a d) := of_word rfl rfl (decode_encFR _ (by decide) _ _ _)
theorem fcmpLeF32 (b a d) : Statement (.fcmpLeF32 b a d) := of_word rfl rfl (decode_encFR _ (by decide) _ _ _)
theorem fcmpUnF32 (b a d) : Statement (.fcmpUnF32 b a d) := of_word rfl rfl (decode_encFR _ (by decide) _ _ _)
theorem dcmpLt (b a d) : Statement (.dcmpLt b a d) := of_word rfl rfl (decode_encFR _ (by decide) _ _ _)
theorem dcmpEq (b a d) : Statement (.dcmpEq b a d) := of_word rfl rfl (decode_encFR _ (by decide) _ _ _)
theorem pand (b a d) : Statement (.pand b a d) := of_word rfl rfl (decode_encFR _ (by decide) _ _ _)
theorem por (b a d) : Statement (.por b a d) := of_word rfl rfl (decode_encFR _ (by decide) _ _ _)
theorem pxor (b a d) : Statement (.pxor b a d) := of_word rfl rfl (decode_encFR _ (by decide) _ _ _)
theorem pandn (b a d) : Statement (.pandn b a d) := of_word rfl rfl (decode_encFR _ (by decide) _ _ _)
theorem pmovV (a d) : Statement (.pmovV a d) := of_word rfl rfl (decode_encFR _ (by decide) _ _ _)
theorem vmovP (a d) : Statement (.vmovP a d) := of_word rfl rfl (decode_encFR _ (by decide) _ _ _)
theorem pcnt (a d) : Statement (.pcnt a d) := of_word rfl rfl (decode_encFR _ (by decide) _ _ _)
theorem ldSb (b a d) : Statement (.ldSb b a d) := of_word rfl rfl (decode_encFR _ (by decide) _ _ _)
theorem ldUb (b a d) : Statement (.ldUb b a d) := of_word rfl rfl (decode_encFR _ (by decide) _ _ _)
theorem ldSh (b a d) : Statement (.ldSh b a d) := of_word rfl rfl (decode_encFR _ (by decide) _ _ _)
theorem ldUh (b a d) : Statement (.ldUh b a d) := of_word rfl rfl (decode_encFR _ (by decide) _ _ _)
theorem ldW (b a d) : Statement (.ldW b a d) := of_word rfl rfl (decode_encFR _ (by decide) _ _ _)
theorem ldD (b a d) : Statement (.ldD b a d) := of_word rfl rfl (decode_encFR _ (by decide) _ _ _)
theorem ldQ (b a d) : Statement (.ldQ b a d) := of_word rfl rfl (decode_encFR _ (by decide) _ _ _)
theorem stB (b a d) : Statement (.stB b a d) := of_word rfl rfl (decode_encFR _ (by decide) _ _ _)
theorem stH (b a d) : Statement (.stH b a d) := of_word rfl rfl (decode_encFR _ (by decide) _ _ _)
theorem stW (b a d) : Statement (.stW b a d) := of_word rfl rfl (decode_encFR _ (by decide) _ _ _)
theorem stD (b a d) : Statement (.stD b a d) := of_word rfl rfl (decode_encFR _ (by decide) _ _ _)
theorem stQ (b a d) : Statement (.stQ b a d) := of_word rfl rfl (decode_encFR _ (by decide) _ _ _)
theorem ldmW (k a d) : Statement (.ldmW k a d) := by
  have key : ∀ (k : BitVec 4), (0#3 ++ k).toNat < 16 ∧ (0#3 ++ k).extractLsb' 0 4 = k := by decide
  obtain ⟨h0, h1⟩ := key k
  refine of_word rfl rfl ?_
  rw [decode_encFR _ (by decide)]
  show mbz _ _ = _
  rw [h1]
  simp only [mbz, h0, decide_true, if_true]
theorem ldmD (k a d) : Statement (.ldmD k a d) := by
  have key : ∀ (k : BitVec 4), (0#3 ++ k).toNat < 16 ∧ (0#3 ++ k).extractLsb' 0 4 = k := by decide
  obtain ⟨h0, h1⟩ := key k
  refine of_word rfl rfl ?_
  rw [decode_encFR _ (by decide)]
  show mbz _ _ = _
  rw [h1]
  simp only [mbz, h0, decide_true, if_true]
theorem ldmQ (k a d) : Statement (.ldmQ k a d) := by
  have key : ∀ (k : BitVec 4), (0#3 ++ k).toNat < 16 ∧ (0#3 ++ k).extractLsb' 0 4 = k := by decide
  obtain ⟨h0, h1⟩ := key k
  refine of_word rfl rfl ?_
  rw [decode_encFR _ (by decide)]
  show mbz _ _ = _
  rw [h1]
  simp only [mbz, h0, decide_true, if_true]
theorem stmW (k a d) : Statement (.stmW k a d) := by
  have key : ∀ (k : BitVec 4), (0#3 ++ k).toNat < 16 ∧ (0#3 ++ k).extractLsb' 0 4 = k := by decide
  obtain ⟨h0, h1⟩ := key k
  refine of_word rfl rfl ?_
  rw [decode_encFR _ (by decide)]
  show mbz _ _ = _
  rw [h1]
  simp only [mbz, h0, decide_true, if_true]
theorem stmD (k a d) : Statement (.stmD k a d) := by
  have key : ∀ (k : BitVec 4), (0#3 ++ k).toNat < 16 ∧ (0#3 ++ k).extractLsb' 0 4 = k := by decide
  obtain ⟨h0, h1⟩ := key k
  refine of_word rfl rfl ?_
  rw [decode_encFR _ (by decide)]
  show mbz _ _ = _
  rw [h1]
  simp only [mbz, h0, decide_true, if_true]
theorem stmQ (k a d) : Statement (.stmQ k a d) := by
  have key : ∀ (k : BitVec 4), (0#3 ++ k).toNat < 16 ∧ (0#3 ++ k).extractLsb' 0 4 = k := by decide
  obtain ⟨h0, h1⟩ := key k
  refine of_word rfl rfl ?_
  rw [decode_encFR _ (by decide)]
  show mbz _ _ = _
  rw [h1]
  simp only [mbz, h0, decide_true, if_true]
theorem ldacqW (r s a d) : Statement (.ldacqW r s a d) := by
  have key : ∀ (r : BitVec 1) (s : BitVec 3), (0#3 ++ r ++ s).toNat < 16 ∧ (0#3 ++ r ++ s).extractLsb' 0 3 = s ∧ (0#3 ++ r ++ s).extractLsb' 3 1 = r := by decide
  obtain ⟨h0, h1, h2⟩ := key r s
  refine of_word rfl rfl ?_
  rw [decode_encFR _ (by decide)]
  show mbz _ _ = _
  rw [h1, h2]
  simp only [mbz, h0, decide_true, if_true]
theorem ldacqD (r s a d) : Statement (.ldacqD r s a d) := by
  have key : ∀ (r : BitVec 1) (s : BitVec 3), (0#3 ++ r ++ s).toNat < 16 ∧ (0#3 ++ r ++ s).extractLsb' 0 3 = s ∧ (0#3 ++ r ++ s).extractLsb' 3 1 = r := by decide
  obtain ⟨h0, h1, h2⟩ := key r s
  refine of_word rfl rfl ?_
  rw [decode_encFR _ (by decide)]
  show mbz _ _ = _
  rw [h1, h2]
  simp only [mbz, h0, decide_true, if_true]
theorem strelW (s a d) : Statement (.strelW s a d) := by
  have key : ∀ (s : BitVec 3), (0#4 ++ s).toNat < 8 ∧ (0#4 ++ s).extractLsb' 0 3 = s := by decide
  obtain ⟨h0, h1⟩ := key s
  refine of_word rfl rfl ?_
  rw [decode_encFR _ (by decide)]
  show mbz _ _ = _
  rw [h1]
  simp only [mbz, h0, decide_true, if_true]
theorem strelD (s a d) : Statement (.strelD s a d) := by
  have key : ∀ (s : BitVec 3), (0#4 ++ s).toNat < 8 ∧ (0#4 ++ s).extractLsb' 0 3 = s := by decide
  obtain ⟨h0, h1⟩ := key s
  refine of_word rfl rfl ?_
  rw [decode_encFR _ (by decide)]
  show mbz _ _ = _
  rw [h1]
  simp only [mbz, h0, decide_true, if_true]
theorem atomAddW (b a d) : Statement (.atomAddW b a d) := of_word rfl rfl (decode_encFR _ (by decide) _ _ _)
theorem atomMinSw (b a d) : Statement (.atomMinSw b a d) := of_word rfl rfl (decode_encFR _ (by decide) _ _ _)
theorem atomMinUw (b a d) : Statement (.atomMinUw b a d) := of_word rfl rfl (decode_encFR _ (by decide) _ _ _)
theorem atomMaxSw (b a d) : Statement (.atomMaxSw b a d) := of_word rfl rfl (decode_encFR _ (by decide) _ _ _)
theorem atomMaxUw (b a d) : Statement (.atomMaxUw b a d) := of_word rfl rfl (decode_encFR _ (by decide) _ _ _)
theorem atomAndW (b a d) : Statement (.atomAndW b a d) := of_word rfl rfl (decode_encFR _ (by decide) _ _ _)
theorem atomOrW (b a d) : Statement (.atomOrW b a d) := of_word rfl rfl (decode_encFR _ (by decide) _ _ _)
theorem atomXorW (b a d) : Statement (.atomXorW b a d) := of_word rfl rfl (decode_encFR _ (by decide) _ _ _)
theorem atomExchW (b a d) : Statement (.atomExchW b a d) := of_word rfl rfl (decode_encFR _ (by decide) _ _ _)
theorem atomCasW (b a d) : Statement (.atomCasW b a d) := of_word rfl rfl (decode_encFR _ (by decide) _ _ _)
theorem atomFaddF32 (b a d) : Statement (.atomFaddF32 b a d) := of_word rfl rfl (decode_encFR _ (by decide) _ _ _)
theorem atomAddD (b a d) : Statement (.atomAddD b a d) := of_word rfl rfl (decode_encFR _ (by decide) _ _ _)
theorem atomExchD (b a d) : Statement (.atomExchD b a d) := of_word rfl rfl (decode_encFR _ (by decide) _ _ _)
theorem atomCasD (b a d) : Statement (.atomCasD b a d) := of_word rfl rfl (decode_encFR _ (by decide) _ _ _)
theorem pfL1 (b a) : Statement (.pfL1 b a) := of_word rfl rfl (decode_encFR _ (by decide) _ _ _)
theorem pfL2 (b a) : Statement (.pfL2 b a) := of_word rfl rfl (decode_encFR _ (by decide) _ _ _)
theorem jmp (a) : Statement (.jmp a) := of_word rfl rfl (decode_encFR _ (by decide) _ _ _)
theorem callr (a d) : Statement (.callr a d) := of_word rfl rfl (decode_encFR _ (by decide) _ _ _)
theorem ret (a) : Statement (.ret a) := of_word rfl rfl (decode_encFR _ (by decide) _ _ _)
theorem barArr (b a) : Statement (.barArr b a) := of_word rfl rfl (decode_encFR _ (by decide) _ _ _)
theorem barWait (b a) : Statement (.barWait b a) := of_word rfl rfl (decode_encFR _ (by decide) _ _ _)
theorem barSync (a) : Statement (.barSync a) := of_word rfl rfl (decode_encFR _ (by decide) _ _ _)
theorem pbwait (i a) : Statement (.pbwait i a) := of_word rfl rfl (decode_encFR _ (by decide) _ _ _)
theorem pbarr (b a) : Statement (.pbarr b a) := of_word rfl rfl (decode_encFR _ (by decide) _ _ _)
theorem xw (a) : Statement (.xw a) := of_word rfl rfl (decode_encFR _ (by decide) _ _ _)
theorem xwp (b a) : Statement (.xwp b a) := of_word rfl rfl (decode_encFR _ (by decide) _ _ _)
theorem untag (a d) : Statement (.untag a d) := of_word rfl rfl (decode_encFR _ (by decide) _ _ _)
theorem lnkill (i a) : Statement (.lnkill i a) := of_word rfl rfl (decode_encFR _ (by decide) _ _ _)
theorem mfs (i d) : Statement (.mfs i d) := of_word rfl rfl (decode_encFR _ (by decide) _ _ _)
theorem mts (i a) : Statement (.mts i a) := of_word rfl rfl (decode_encFR _ (by decide) _ _ _)
theorem lnq (a d) : Statement (.lnq a d) := of_word rfl rfl (decode_encFR _ (by decide) _ _ _)
theorem bcopy (a d) : Statement (.bcopy a d) := of_word rfl rfl (decode_encFR _ (by decide) _ _ _)
theorem coll (a) : Statement (.coll a) := of_word rfl rfl (decode_encFR _ (by decide) _ _ _)
theorem ewait (a) : Statement (.ewait a) := of_word rfl rfl (decode_encFR _ (by decide) _ _ _)
theorem epoll (a d) : Statement (.epoll a d) := of_word rfl rfl (decode_encFR _ (by decide) _ _ _)
theorem gpost (b a) : Statement (.gpost b a) := of_word rfl rfl (decode_encFR _ (by decide) _ _ _)
theorem ofsub (a d) : Statement (.ofsub a d) := of_word rfl rfl (decode_encFR _ (by decide) _ _ _)
theorem ofwait : Statement .ofwait := of_word rfl rfl (decode_encFR _ (by decide) _ _ _)
theorem ofcommit : Statement .ofcommit := of_word rfl rfl (decode_encFR _ (by decide) _ _ _)
theorem ofinfo (d) : Statement (.ofinfo d) := of_word rfl rfl (decode_encFR _ (by decide) _ _ _)
theorem accrd (a d) : Statement (.accrd a d) := of_word rfl rfl (decode_encFR _ (by decide) _ _ _)
theorem accwr (a d) : Statement (.accwr a d) := of_word rfl rfl (decode_encFR _ (by decide) _ _ _)
theorem acalloc (a d) : Statement (.acalloc a d) := of_word rfl rfl (decode_encFR _ (by decide) _ _ _)
theorem acfree (b a) : Statement (.acfree b a) := of_word rfl rfl (decode_encFR _ (by decide) _ _ _)
theorem mslot (b a s) : Statement (.mslot b a s) := of_word rfl rfl (decode_encFR _ (by decide) _ _ _)
theorem mmac (b a d) : Statement (.mmac b a d) := of_word rfl rfl (decode_encFR _ (by decide) _ _ _)
theorem mtrans (a d) : Statement (.mtrans a d) := of_word rfl rfl (decode_encFR _ (by decide) _ _ _)
theorem mperm (b a d) : Statement (.mperm b a d) := of_word rfl rfl (decode_encFR _ (by decide) _ _ _)
theorem mrsum (a d) : Statement (.mrsum a d) := of_word rfl rfl (decode_encFR _ (by decide) _ _ _)
theorem mzero (d) : Statement (.mzero d) := of_word rfl rfl (decode_encFR _ (by decide) _ _ _)
theorem vcnt (b a) : Statement (.vcnt b a) := of_word rfl rfl (decode_encFR _ (by decide) _ _ _)
theorem mwait : Statement .mwait := of_word rfl rfl (decode_encFR _ (by decide) _ _ _)
theorem mpost (b a d) : Statement (.mpost b a d) := of_word rfl rfl (decode_encFR _ (by decide) _ _ _)
theorem mdrain (a d) : Statement (.mdrain a d) := of_word rfl rfl (decode_encFR _ (by decide) _ _ _)
theorem ppoint (a) : Statement (.ppoint a) := of_word rfl rfl (decode_encFR _ (by decide) _ _ _)
theorem addiW (i a d) : Statement (.addiW i a d) := of_word rfl rfl (decode_encFI _ (by decide) _ _ _)
theorem andi (i a d) : Statement (.andi i a d) := of_word rfl rfl (decode_encFI _ (by decide) _ _ _)
theorem ori (i a d) : Statement (.ori i a d) := of_word rfl rfl (decode_encFI _ (by decide) _ _ _)
theorem xori (i a d) : Statement (.xori i a d) := of_word rfl rfl (decode_encFI _ (by decide) _ _ _)
theorem shli (i a d) : Statement (.shli i a d) := by
  have key : ∀ (i : BitVec 5), (0#7 ++ i).toNat < 32 ∧ (0#7 ++ i).extractLsb' 0 5 = i := by decide
  obtain ⟨h0, h1⟩ := key i
  refine of_word rfl rfl ?_
  rw [decode_encFI _ (by decide)]
  show mbz _ _ = _
  rw [h1]
  simp only [mbz, h0, decide_true, if_true]
theorem shri (i a d) : Statement (.shri i a d) := by
  have key : ∀ (i : BitVec 5), (0#7 ++ i).toNat < 32 ∧ (0#7 ++ i).extractLsb' 0 5 = i := by decide
  obtain ⟨h0, h1⟩ := key i
  refine of_word rfl rfl ?_
  rw [decode_encFI _ (by decide)]
  show mbz _ _ = _
  rw [h1]
  simp only [mbz, h0, decide_true, if_true]
theorem srai (i a d) : Statement (.srai i a d) := by
  have key : ∀ (i : BitVec 5), (0#7 ++ i).toNat < 32 ∧ (0#7 ++ i).extractLsb' 0 5 = i := by decide
  obtain ⟨h0, h1⟩ := key i
  refine of_word rfl rfl ?_
  rw [decode_encFI _ (by decide)]
  show mbz _ _ = _
  rw [h1]
  simp only [mbz, h0, decide_true, if_true]
theorem cmpiEq (i a d) : Statement (.cmpiEq i a d) := of_word rfl rfl (decode_encFI _ (by decide) _ _ _)
theorem cmpiLtSw (i a d) : Statement (.cmpiLtSw i a d) := of_word rfl rfl (decode_encFI _ (by decide) _ _ _)
theorem cmpiLtUw (i a d) : Statement (.cmpiLtUw i a d) := of_word rfl rfl (decode_encFI _ (by decide) _ _ _)
theorem ldiW (i a d) : Statement (.ldiW i a d) := of_word rfl rfl (decode_encFI _ (by decide) _ _ _)
theorem stiW (i a d) : Statement (.stiW i a d) := of_word rfl rfl (decode_encFI _ (by decide) _ _ _)
theorem ldiD (i a d) : Statement (.ldiD i a d) := of_word rfl rfl (decode_encFI _ (by decide) _ _ _)
theorem stiD (i a d) : Statement (.stiD i a d) := of_word rfl rfl (decode_encFI _ (by decide) _ _ _)
theorem ldiQ (i a d) : Statement (.ldiQ i a d) := of_word rfl rfl (decode_encFI _ (by decide) _ _ _)
theorem stiQ (i a d) : Statement (.stiQ i a d) := of_word rfl rfl (decode_encFI _ (by decide) _ _ _)
theorem bra (i) : Statement (.bra i) := of_word rfl rfl (decode_encFL _ (by decide) _ _)
theorem call (i d) : Statement (.call i d) := of_word rfl rfl (decode_encFL _ (by decide) _ _)
theorem movi (i d) : Statement (.movi i d) := of_word rfl rfl (decode_encFL _ (by decide) _ _)
theorem movu (i d) : Statement (.movu i d) := of_word rfl rfl (decode_encFL _ (by decide) _ _)
theorem join : Statement .join := of_word rfl rfl (decode_encFL _ (by decide) _ _)
theorem nop : Statement .nop := of_word rfl rfl (decode_encFS _ (by decide) _)
theorem exit : Statement .exit := of_word rfl rfl (decode_encFS _ (by decide) _)
theorem trap (c) : Statement (.trap c) := of_word rfl rfl (decode_encFS _ (by decide) _)
theorem brk : Statement .brk := of_word rfl rfl (decode_encFS _ (by decide) _)
theorem eret : Statement .eret := of_word rfl rfl (decode_encFS _ (by decide) _)
theorem fence (t e s) : Statement (.fence t e s) := by
  have key : ∀ (t : BitVec 1) (e : BitVec 1) (s : BitVec 3), (0#15 ++ t ++ e ++ s).toNat < 32 ∧ (0#15 ++ t ++ e ++ s).extractLsb' 0 3 = s ∧ (0#15 ++ t ++ e ++ s).extractLsb' 3 1 = e ∧ (0#15 ++ t ++ e ++ s).extractLsb' 4 1 = t := by decide
  obtain ⟨h0, h1, h2, h3⟩ := key t e s
  refine of_word rfl rfl ?_
  rw [decode_encFS _ (by decide)]
  show mbz _ _ = _
  rw [h1, h2, h3]
  simp only [mbz, h0, decide_true, if_true]
theorem sdrain : Statement .sdrain := of_word rfl rfl (decode_encFS _ (by decide) _)
theorem wbase (n) : Statement (.wbase n) := by
  have key : ∀ (n : BitVec 4), (0#16 ++ n).toNat < 16 ∧ (0#16 ++ n).extractLsb' 0 4 = n := by decide
  obtain ⟨h0, h1⟩ := key n
  refine of_word rfl rfl ?_
  rw [decode_encFS _ (by decide)]
  show mbz _ _ = _
  rw [h1]
  simp only [mbz, h0, decide_true, if_true]
theorem sleep (n) : Statement (.sleep n) := of_word rfl rfl (decode_encFS _ (by decide) _)
theorem yield : Statement .yield := of_word rfl rfl (decode_encFS _ (by decide) _)
theorem lnon : Statement .lnon := of_word rfl rfl (decode_encFS _ (by decide) _)
theorem lnoff : Statement .lnoff := of_word rfl rfl (decode_encFS _ (by decide) _)
theorem bexit (c) : Statement (.bexit c) := of_word rfl rfl (decode_encFS _ (by decide) _)
theorem fairnessTurn (x0) : Statement (.fairnessTurn x0) := of_event rfl rfl
theorem storeFaultDelivery (x0) : Statement (.storeFaultDelivery x0) := of_event rfl rfl
theorem transactionOverrunTrap (x0) : Statement (.transactionOverrunTrap x0) := of_event rfl rfl
theorem passFaultDelivery (x0) : Statement (.passFaultDelivery x0) := of_event rfl rfl
theorem producerComplete (x0 x1) : Statement (.producerComplete x0 x1) := of_event rfl rfl
theorem drain (x0 x1) : Statement (.drain x0 x1) := of_event rfl rfl
theorem propagate (x0 x1) : Statement (.propagate x0 x1) := of_event rfl rfl
theorem apply (x0) : Statement (.apply x0) := of_event rfl rfl
theorem refresh (x0 x1) : Statement (.refresh x0 x1) := of_event rfl rfl
theorem engineRead (x0 x1) : Statement (.engineRead x0 x1) := of_event rfl rfl
theorem engineWrite (x0 x1) : Statement (.engineWrite x0 x1) := of_event rfl rfl
theorem joinDeadlockRelease (x0) : Statement (.joinDeadlockRelease x0) := of_event rfl rfl
theorem pbwaitRelease (x0 x1) : Statement (.pbwaitRelease x0 x1) := of_event rfl rfl
theorem sleepExpiry (x0 x1) : Statement (.sleepExpiry x0 x1) := of_event rfl rfl
theorem pageWalk (x0 x1) : Statement (.pageWalk x0 x1) := of_event rfl rfl
theorem faultRecordWrite (x0) : Statement (.faultRecordWrite x0) := of_event rfl rfl
theorem collapse (x0 x1 x2) : Statement (.collapse x0 x1 x2) := of_event rfl rfl
theorem engineCommandStart (x0) : Statement (.engineCommandStart x0) := of_event rfl rfl
theorem scout (x0 x1) : Statement (.scout x0 x1) := of_event rfl rfl
theorem copyCompletion (x0) : Statement (.copyCompletion x0) := of_event rfl rfl
theorem collectiveCompletion (x0 x1) : Statement (.collectiveCompletion x0 x1) := of_event rfl rfl
theorem orderSequencerArrival (x0) : Statement (.orderSequencerArrival x0) := of_event rfl rfl
theorem beatSeal (x0) : Statement (.beatSeal x0) := of_event rfl rfl
theorem batchExchange (x0) : Statement (.batchExchange x0) := of_event rfl rfl
theorem transactionAdmission (x0) : Statement (.transactionAdmission x0) := of_event rfl rfl
theorem transactionOverrun (x0) : Statement (.transactionOverrun x0) := of_event rfl rfl
theorem passGrant (x0) : Statement (.passGrant x0) := of_event rfl rfl
theorem operandFetch (x0 x1 x2 x3) : Statement (.operandFetch x0 x1 x2 x3) := of_event rfl rfl
theorem chunkApplied (x0 x1) : Statement (.chunkApplied x0 x1) := of_event rfl rfl
theorem mpostArrival (x0 x1) : Statement (.mpostArrival x0 x1) := of_event rfl rfl
theorem tileDrain (x0 x1) : Statement (.tileDrain x0 x1) := of_event rfl rfl
theorem accumulatorSpill (x0) : Statement (.accumulatorSpill x0) := of_event rfl rfl
theorem acallocGrant (x0) : Statement (.acallocGrant x0) := of_event rfl rfl
theorem acfreeEffect (x0 x1) : Statement (.acfreeEffect x0 x1) := of_event rfl rfl
theorem preemptionTimeout (x0) : Statement (.preemptionTimeout x0) := of_event rfl rfl
theorem qpost (x0 x1 x2 x3) : Statement (.qpost x0 x1 x2 x3) := of_event rfl rfl
theorem queueResume (x0 x1) : Statement (.queueResume x0 x1) := of_event rfl rfl
theorem flush (x0 x1) : Statement (.flush x0 x1) := of_event rfl rfl
theorem abort (x0 x1) : Statement (.abort x0 x1) := of_event rfl rfl
theorem nodeDispatch (x0) : Statement (.nodeDispatch x0) := of_event rfl rfl
theorem nodeCompletion (x0) : Statement (.nodeCompletion x0) := of_event rfl rfl
theorem blockAdmission (x0) : Statement (.blockAdmission x0) := of_event rfl rfl
theorem admissionReservation (x0 x1) : Statement (.admissionReservation x0 x1) := of_event rfl rfl
theorem blockRetirement (x0) : Statement (.blockRetirement x0) := of_event rfl rfl
theorem launchEnd (x0) : Statement (.launchEnd x0) := of_event rfl rfl
theorem latticeTimeslice (x0 x1) : Statement (.latticeTimeslice x0 x1) := of_event rfl rfl
theorem replayGateTimeout (x0 x1) : Statement (.replayGateTimeout x0 x1) := of_event rfl rfl
theorem measurementPass (x0) : Statement (.measurementPass x0) := of_event rfl rfl
theorem contextDestroy (x0 x1) : Statement (.contextDestroy x0 x1) := of_event rfl rfl
theorem shootdown (x0) : Statement (.shootdown x0) := of_event rfl rfl
theorem shootdownComplete (x0) : Statement (.shootdownComplete x0) := of_event rfl rfl
theorem fqresResume (x0 x1) : Statement (.fqresResume x0 x1) := of_event rfl rfl
theorem fqresReject (x0 x1) : Statement (.fqresReject x0 x1) := of_event rfl rfl
theorem halt (x0) : Statement (.halt x0) := of_event rfl rfl
theorem resume (x0) : Statement (.resume x0) := of_event rfl rfl
theorem step (x0) : Statement (.step x0) := of_event rfl rfl
theorem stepall (x0) : Statement (.stepall x0) := of_event rfl rfl
theorem snap (x0 x1) : Statement (.snap x0 x1) := of_event rfl rfl
theorem poke (x0) : Statement (.poke x0) := of_event rfl rfl
theorem preempt (x0 x1) : Statement (.preempt x0 x1) := of_event rfl rfl
theorem restore (x0) : Statement (.restore x0) := of_event rfl rfl
theorem release (x0) : Statement (.release x0) := of_event rfl rfl
theorem hostAccess (x0 x1 x2 x3 x4) : Statement (.hostAccess x0 x1 x2 x3 x4) := of_event rfl rfl
theorem inboundAccess (x0 x1 x2 x3 x4 x5) : Statement (.inboundAccess x0 x1 x2 x3 x4 x5) := of_event rfl rfl
theorem inboundTimeout (x0 x1) : Statement (.inboundTimeout x0 x1) := of_event rfl rfl
theorem remoteTimeout (x0) : Statement (.remoteTimeout x0) := of_event rfl rfl
theorem peerCompletion (x0 x1 x2) : Statement (.peerCompletion x0 x1 x2) := of_event rfl rfl
theorem flitReplay (x0 x1) : Statement (.flitReplay x0 x1) := of_event rfl rfl
theorem linkRetrain (x0) : Statement (.linkRetrain x0) := of_event rfl rfl
theorem heartbeat (x0 x1 x2 x3) : Statement (.heartbeat x0 x1 x2 x3) := of_event rfl rfl
theorem sessionBind (x0 x1) : Statement (.sessionBind x0 x1) := of_event rfl rfl
theorem sessionLapse (x0) : Statement (.sessionLapse x0) := of_event rfl rfl
theorem sessionHalt (x0) : Statement (.sessionHalt x0) := of_event rfl rfl
theorem sessionScrub (x0) : Statement (.sessionScrub x0) := of_event rfl rfl
theorem getMeasurements (x0) : Statement (.getMeasurements x0) := of_event rfl rfl
theorem stage (x0 x1 x2 x3 x4) : Statement (.stage x0 x1 x2 x3 x4) := of_event rfl rfl
theorem activate : Statement .activate := of_event rfl rfl
theorem componentSwitch : Statement .componentSwitch := of_event rfl rfl
theorem create (x0 x1 x2 x3) : Statement (.create x0 x1 x2 x3) := of_event rfl rfl
theorem partitionRelease (x0) : Statement (.partitionRelease x0) := of_event rfl rfl
theorem handoff (x0 x1 x2) : Statement (.handoff x0 x1 x2) := of_event rfl rfl
theorem allocationRecordWrite (x0 x1 x2 x3 x4 x5 x6 x7 x8) : Statement (.allocationRecordWrite x0 x1 x2 x3 x4 x5 x6 x7 x8) := of_event rfl rfl
theorem levelLower (x0 x1 x2 x3 x4) : Statement (.levelLower x0 x1 x2 x3 x4) := of_event rfl rfl
theorem clockSwitch (x0) : Statement (.clockSwitch x0) := of_event rfl rfl
theorem powerInterval (x0) : Statement (.powerInterval x0) := of_event rfl rfl
theorem droop (x0) : Statement (.droop x0) := of_event rfl rfl
theorem brownoutWarning : Statement .brownoutWarning := of_event rfl rfl
theorem brownoutClear : Statement .brownoutClear := of_event rfl rfl
theorem brownoutTimeout : Statement .brownoutTimeout := of_event rfl rfl
theorem thermalInterval (x0 x1) : Statement (.thermalInterval x0 x1) := of_event rfl rfl
theorem thermalCritical (x0 x1) : Statement (.thermalCritical x0 x1) := of_event rfl rfl
theorem thermalTrip (x0 x1) : Statement (.thermalTrip x0 x1) := of_event rfl rfl
theorem emergencySave : Statement .emergencySave := of_event rfl rfl
theorem emergencyImageWrite (x0) : Statement (.emergencyImageWrite x0) := of_event rfl rfl
theorem opvote (x0 x1) : Statement (.opvote x0 x1) := of_event rfl rfl
theorem railHoldExpiry (x0 x1) : Statement (.railHoldExpiry x0 x1) := of_event rfl rfl
theorem railVoltageReached (x0 x1) : Statement (.railVoltageReached x0 x1) := of_event rfl rfl
theorem energyUpdate (x0 x1) : Statement (.energyUpdate x0 x1) := of_event rfl rfl
theorem budgetPeriod : Statement .budgetPeriod := of_event rfl rfl
theorem patrolScrub (x0) : Statement (.patrolScrub x0) := of_event rfl rfl
theorem uncorrectableError (x0) : Statement (.uncorrectableError x0) := of_event rfl rfl
theorem retirecore : Statement .retirecore := of_event rfl rfl
theorem sparech : Statement .sparech := of_event rfl rfl
theorem rowrep : Statement .rowrep := of_event rfl rfl
theorem lanespare : Statement .lanespare := of_event rfl rfl
theorem tseal : Statement .tseal := of_event rfl rfl
theorem swapout : Statement .swapout := of_event rfl rfl
theorem transportSelfTest (x0 x1 x2) : Statement (.transportSelfTest x0 x1 x2) := of_event rfl rfl
theorem deviceReset : Statement .deviceReset := of_event rfl rfl
theorem registerWrite (x0 x1 x2 x3) : Statement (.registerWrite x0 x1 x2 x3) := of_event rfl rfl
theorem hostCompletion (x0 x1) : Statement (.hostCompletion x0 x1) := of_event rfl rfl
theorem linkRetrained (x0) : Statement (.linkRetrained x0) := of_event rfl rfl
theorem collectiveInboundWrite (x0 x1 x2 x3) : Statement (.collectiveInboundWrite x0 x1 x2 x3) := of_event rfl rfl

end Sys2Proof.Laws.RoundTrip
end

