-- ==== Sys2Proof/Laws/Rails.lean ====
section
/-! SUPPORT. Partitions, rails, reset and service: what the shared operations do. -/

namespace Sys2Proof

open Sys2Proof.Machine

/-- From `s` to `t` the core rails have had new targets and nothing else has changed: every rail has the voltage it had (R341). -/
structure RailsMoved (s t : State) : Prop where
  only : t = { s with regs := t.regs, power := { s.power with rails := t.power.rails } }
  regs : ∀ q, (∀ k, q ≠ .d (.railMv k)) → t.reg q = s.reg q
  volts : ∀ d r, t.railMv d r = s.railMv d r

theorem RailsMoved.refl (s : State) : RailsMoved s s := ⟨rfl, fun _ _ => rfl, fun _ _ => rfl⟩

theorem RailsMoved.trans {a b c : State} (h : RailsMoved a b) (k : RailsMoved b c) : RailsMoved a c := by
  refine ⟨?_, fun q hq => (k.regs q hq).trans (h.regs q hq), fun d r => (k.volts d r).trans (h.volts d r)⟩
  have h1 := h.only
  have k1 := k.only
  generalize c.regs = R at k1 ⊢
  generalize c.power.rails = P at k1 ⊢
  rw [k1, h1]

theorem rail_setRail (s : State) (d r d' r' : Nat) (x : Rail) : (s.setRail d r x).rail d' r' = if 5 * d' + r' = 5 * d + r then x else s.rail d' r' := by
  unfold State.rail State.setRail railKey
  dsimp only
  rw [kget_kput]
  split
  · rfl
  · rfl

theorem rail_setReg (s : State) (k v d r : Nat) (h : 5 * d + r ≠ k) : (s.setReg (.d (.railMv k)) v).rail d r = s.rail d r := by
  unfold State.rail railKey
  have : (s.setReg (.d (.railMv k)) v).dreg (.railMv (5 * d + r)) = s.dreg (.railMv (5 * d + r)) :=
    reg_setReg_ne s v (by simpa using h)
  rw [this]; rfl

theorem rail_startRail (s : State) (d r d' r' : Nat) (x : Rail) : (s.startRail d r x).rail d' r' = if 5 * d' + r' = 5 * d + r then x else s.rail d' r' := by
  unfold State.startRail
  rw [rail_setRail]
  split
  · rfl
  · rename_i h; exact rail_setReg _ _ _ _ _ h

theorem at_since (x : Rail) (mv now : Nat) (h : now ≤ x.holdTill.getD x.since) : x.at_ mv now = mv := by
  unfold Rail.at_
  rw [Nat.sub_eq_zero_of_le h]
  simp only [Nat.zero_div, Nat.sub_zero, Nat.add_zero]
  split
  · rename_i h; exact Nat.max_eq_right h
  · rename_i h; exact Nat.min_eq_right (by omega)

theorem startRail_moved (s : State) (d r : Nat) (x : Rail) (h : s.timebase ≤ x.holdTill.getD x.since) : RailsMoved s (s.startRail d r x) := by
  refine ⟨rfl, fun q hq => reg_setReg_ne s _ (hq _), fun d' r' => ?_⟩
  unfold State.railMv
  rw [rail_startRail]
  by_cases e : 5 * d' + r' = 5 * d + r
  · rw [if_pos e]
    have hv : (s.startRail d r x).dreg (.railMv (railKey d' r')) = s.railMv d r := by
      unfold railKey; rw [e]; exact reg_setReg_self s (.d (.railMv (railKey d r))) _
    rw [hv]
    refine (at_since x _ s.timebase h).trans ?_
    unfold State.railMv State.rail railKey; rw [e]
  · rw [if_neg e]
    have hv : (s.startRail d r x).dreg (.railMv (railKey d' r')) = s.dreg (.railMv (railKey d' r')) :=
      reg_setReg_ne s _ (by simpa [railKey] using e)
    rw [hv]; rfl

/-- A rail that falls already takes a new target below its voltage. -/
theorem retarget_moved (s : State) (d r want : Nat) (h1 : want < s.railMv d r) (h2 : (s.rail d r).target < s.railMv d r) :
    RailsMoved s (s.setRail d r { s.rail d r with target := want }) := by
  refine ⟨rfl, fun _ _ => rfl, fun d' r' => ?_⟩
  unfold State.railMv
  rw [rail_setRail]
  by_cases e : 5 * d' + r' = 5 * d + r
  · rw [if_pos e]
    have hk : railKey d' r' = railKey d r := e
    have hr : s.rail d' r' = s.rail d r := by unfold State.rail; rw [hk]
    rw [hk, hr]
    unfold State.railMv at h1 h2
    show Rail.at_ { s.rail d r with target := want } (s.dreg (.railMv (railKey d r))) s.timebase = _
    generalize s.rail d r = x at h1 h2 ⊢
    generalize s.dreg (.railMv (railKey d r)) = mv at h1 h2 ⊢
    unfold Rail.at_ at h1 h2 ⊢
    dsimp only at h1 h2 ⊢
    split at h2
    · rename_i hc
      rw [if_pos hc] at h1 ⊢
      rw [if_pos (by omega)]; omega
    · omega
  · rw [if_neg e]; rfl

theorem moveRail_cases (s : State) (d r : Nat) :
    let want := s.railWant d r
    let x := s.rail d r
    (want = x.target → s.moveRail d r = s) ∧
    (want ≠ x.target → s.railMv d r ≤ want → s.moveRail d r = s.startRail d r ⟨want, none, s.timebase⟩) ∧
    (want ≠ x.target → want < s.railMv d r → s.railMv d r ≤ x.target → s.moveRail d r = s.startRail d r ⟨want, some (s.timebase + 2000000), s.timebase⟩) ∧
    (want ≠ x.target → want < s.railMv d r → x.target < s.railMv d r → s.moveRail d r = s.setRail d r { x with target := want }) := by
  intro want x
  unfold State.moveRail
  exact ⟨fun h => if_pos h, fun h1 h2 => (if_neg h1).trans (if_pos h2),
    fun h1 h2 h3 => (if_neg h1).trans ((if_neg (Nat.not_le.2 h2)).trans (if_neg (Nat.not_lt.2 h3))),
    fun h1 h2 h3 => (if_neg h1).trans ((if_neg (Nat.not_le.2 h2)).trans (if_pos h3))⟩

theorem moveRail_moved (s : State) (d r : Nat) : RailsMoved s (s.moveRail d r) := by
  obtain ⟨a, b, c, e⟩ := moveRail_cases s d r
  by_cases h1 : s.railWant d r = (s.rail d r).target
  · rw [a h1]; exact .refl s
  · by_cases h2 : s.railMv d r ≤ s.railWant d r
    · rw [b h1 h2]; exact startRail_moved s d r _ (Nat.le_refl _)
    · by_cases h3 : (s.rail d r).target < s.railMv d r
      · rw [e h1 (Nat.not_le.1 h2) h3]; exact retarget_moved s d r _ (Nat.not_le.1 h2) h3
      · rw [c h1 (Nat.not_le.1 h2) (Nat.not_lt.1 h3)]; exact startRail_moved s d r _ (Nat.le_add_right ..)

theorem moveRails_moved (s : State) : RailsMoved s s.moveRails := by
  unfold State.moveRails
  refine foldl_rel RailsMoved .refl (fun _ _ _ => .trans) _ (fun s d => ?_) _ _
  exact foldl_rel RailsMoved .refl (fun _ _ _ => .trans) _ (fun s r => moveRail_moved ..) _ _

theorem part_setPart (s : State) (p n : Nat) (x : Part) : (s.setPart p x).part n = if n = p then x else s.part n := by
  exact sget_sset ..

theorem get_filter_in (f : RegFile) (P : Reg × Nat → Bool) (r : Reg) (h : ∀ v, P (r, v) = false) : RegFile.get (f.filter P) r = r.reset := by
  induction f with
  | nil => rfl
  | cons a t ih =>
    obtain ⟨q, v⟩ := a
    by_cases hp : P (q, v) = true
    · rw [List.filter_cons_of_pos hp]
      simp only [RegFile.get]
      rw [if_neg (by rintro rfl; rw [h] at hp; cases hp)]
      exact ih
    · rw [List.filter_cons_of_neg hp]; exact ih

theorem get_filter_out (f : RegFile) (P : Reg × Nat → Bool) (r : Reg) (h : ∀ v, P (r, v) = true) : RegFile.get (f.filter P) r = f.get r := by
  induction f with
  | nil => rfl
  | cons a t ih =>
    obtain ⟨q, v⟩ := a
    by_cases hp : P (q, v) = true
    · rw [List.filter_cons_of_pos hp]
      simp only [RegFile.get]
      rw [ih]
    · rw [List.filter_cons_of_neg hp]
      simp only [RegFile.get]
      rw [if_neg (by rintro rfl; exact hp (h v))]
      exact ih

theorem freePart_spec (s : State) (p : Nat) : Released s (s.freePart p) p := by
  obtain ⟨s1, hs1⟩ : ∃ s1, s1 = s.scrubPart p := ⟨_, rfl⟩
  obtain ⟨s2, hs2⟩ : ∃ s2, s2 = State.setPart { s1 with regs := s1.regs.filter (fun e => match e.1 with
      | .p n _ => n != p
      | _ => true) } p Part.empty := ⟨_, rfl⟩
  have e : s.freePart p = s2.moveRails := by rw [hs2, hs1]; rfl
  have mv := moveRails_moved s2
  obtain ⟨R, hR⟩ : ∃ R, R = s2.moveRails.regs := ⟨_, rfl⟩
  obtain ⟨rl, hrl0⟩ : ∃ rl, rl = s2.moveRails.power.rails := ⟨_, rfl⟩
  have hrl : s2.moveRails = { s2 with regs := R, power := { s2.power with rails := rl } } := by rw [hR, hrl0]; exact mv.only
  have hreg : ∀ q, (∀ k, q ≠ .d (.railMv k)) → RegFile.get R q = s2.reg q := fun q hq => (by rw [hR]; exact mv.regs q hq)
  rw [e, hrl]
  have hp : ∀ n, s2.part n = if n = p then Part.empty else s.part n := by
    intro n; rw [hs2, part_setPart, hs1]; rfl
  have hreg2 : ∀ r, (∀ x, r ≠ .p p x) → s2.reg r = s.reg r := by
    intro r hr
    have : s2.reg r = RegFile.get (s.regs.filter (fun e => match e.1 with
      | .p n _ => n != p
      | _ => true)) r := by rw [hs2, hs1]; rfl
    rw [this]
    refine get_filter_out _ _ _ (fun v => ?_)
    cases r with
    | p n x =>
      have : n ≠ p := by rintro rfl; exact hr x rfl
      simpa using this
    | _ => rfl
  refine ⟨?_, ?_, ?_, ?_, ?_, ?_, ?_, ?_, ?_, ?_, ?_⟩
  · exact (hp p).trans (if_pos rfl)
  · intro n hn; exact (hp n).trans (if_neg hn)
  · intro a
    have hm : s2.mem = s.mem.filter (fun e => !(decide (e.1 < devTop) && (s.part p).groups.testBit (e.1 / 2 ^ 33))) := by rw [hs2, hs1]; rfl
    have hb : State.hByte { s2 with regs := R, power := { s2.power with rails := rl } } a = sget 0 s2.mem a := rfl
    rw [hb, hm]
    unfold sget
    split
    · rename_i h
      rw [kget_filter_none _ _ _ (fun e _ he => by rw [he, decide_eq_true h.1, h.2]; rfl)]; rfl
    · rename_i h
      rw [kget_filter _ _ _ (fun e _ he => by
        rw [he]
        cases hg : (s.part p).groups.testBit (a / 2 ^ 33) with
        | false => simp
        | true =>
          have : ¬ a < devTop := fun z => h ⟨z, hg⟩
          simp [this])]; rfl
  · intro f
    have : State.preg { s2 with regs := R, power := { s2.power with rails := rl } } p f = RegFile.get (s.regs.filter (fun e => match e.1 with
      | .p n _ => n != p
      | _ => true)) (.p p f) := by
      refine (hreg _ (by simp)).trans ?_
      rw [hs2, hs1]; rfl
    rw [this]
    exact get_filter_in _ _ _ (fun v => by simp)
  · intro r hr hk
    exact (hreg r hk).trans (hreg2 r hr)
  · intro d r
    rw [← hrl]
    refine (mv.volts d r).trans ?_
    have h1 : s2.dreg (.railMv (railKey d r)) = s.dreg (.railMv (railKey d r)) := hreg2 _ (by simp)
    have h2 : s2.power = s.power := by rw [hs2, hs1]; rfl
    have h3 : s2.timebase = s.timebase := by rw [hs2, hs1]; rfl
    unfold State.railMv State.rail
    rw [h1, h2, h3]
  · intro l
    have : s2.launches = s.launches.filter (fun l => l.2.part != p) := by rw [hs2, hs1]; rfl
    show l ∈ s2.launches ↔ _
    rw [this]; simp
  · intro b
    have : s2.blocks = s.blocks.filter (fun b => !((s.blocks.filter (fun b => ((s.launches.filter (fun l => l.2.part == p)).map (·.1)).contains b.2.launch)).map (·.1)).contains b.1) := by
      rw [hs2, hs1]; rfl
    show b ∈ s2.blocks ↔ _
    rw [this, List.mem_filter]
    refine and_congr_right (fun _ => ?_)
    simp only [Bool.not_eq_true', List.contains_eq_mem, decide_eq_false_iff_not, List.mem_map, List.mem_filter, decide_eq_true_eq, beq_iff_eq]
    constructor
    · intro h c hc hcb l hl hlp hlc
      exact h ⟨c, ⟨hc, ⟨l, ⟨hl, hlp⟩, hlc⟩⟩, hcb⟩
    · rintro h ⟨c, ⟨hc, ⟨l, ⟨hl, hlp⟩, hlc⟩⟩, hcb⟩
      exact h c hc hcb l hl hlp hlc
  · intro x
    have : s2.tlb = s.tlb.filter (fun e => e.part != p) := by rw [hs2, hs1]; rfl
    show x ∈ s2.tlb ↔ _
    rw [this]; simp
  · intro x
    have : s2.ext = s.ext.filter (fun e => e.2.part != p) := by rw [hs2, hs1]; rfl
    show x ∈ s2.ext ↔ _
    rw [this]; simp
  · intro e he
    have : s2.engines = s.engines.map (fun (e : Nat × Engine) => (e.1, { e.2 with
        queue := e.2.queue.filter (fun c => c.part != p), run := e.2.run.filter (fun c => c.part != p), fin := e.2.fin.filter (fun f => f.part != p) })) := by rw [hs2, hs1]; rfl
    have he' : e ∈ s2.engines := he
    rw [this, List.mem_map] at he'
    obtain ⟨y, -, rfl⟩ := he'
    refine ⟨fun c hc => by simpa using (List.mem_filter.1 hc).2, fun c hc => ?_⟩
    have := Option.filter_eq_some_iff.1 hc
    simpa using this.2

theorem setReg_frame (s : State) (r : Reg) (v : Nat) : s.setReg r v = { s with regs := (s.setReg r v).regs } := rfl

theorem moveRail_spec (s : State) (d r : Nat) :
    let cur := s.railMv d r
    let want := s.railWant d r
    let x := s.rail d r
    (want = x.target → s.moveRail d r = s) ∧
    (want ≠ x.target → cur ≤ want → (s.moveRail d r).rail d r = ⟨want, none, s.timebase⟩) ∧
    (want ≠ x.target → want < cur → cur ≤ x.target → (s.moveRail d r).rail d r = ⟨want, some (s.timebase + 2000000), s.timebase⟩) ∧
    (want ≠ x.target → want < cur → x.target < cur → (s.moveRail d r).rail d r = { x with target := want }) := by
  obtain ⟨a, b, c, e⟩ := moveRail_cases s d r
  refine ⟨a, fun h1 h2 => ?_, fun h1 h2 h3 => ?_, fun h1 h2 h3 => ?_⟩
  · rw [b h1 h2, rail_startRail, if_pos rfl]
  · rw [c h1 h2 h3, rail_startRail, if_pos rfl]
  · rw [e h1 h2 h3, rail_setRail, if_pos rfl]

theorem moveRail_ne (s : State) (d r d' r' : Nat) (h : 5 * d' + r' ≠ 5 * d + r) : (s.moveRail d r).rail d' r' = s.rail d' r' := by
  unfold State.moveRail
  dsimp only
  split
  · rfl
  · split
    · rw [rail_startRail, if_neg h]
    · split
      · rw [rail_setRail, if_neg h]
      · rw [rail_startRail, if_neg h]

theorem railWant_congr {s t : State} (h : t.parts = s.parts) (hr : ∀ q, (∀ k, q ≠ .d (.railMv k)) → t.reg q = s.reg q) (d r : Nat) :
    t.railWant d r = s.railWant d r := by
  have h1 : ∀ cl, t.clusterOwner cl = s.clusterOwner cl := by intro cl; unfold State.clusterOwner; rw [h]
  have h2 : ∀ p, t.preg p .opVote = s.preg p .opVote := fun p => hr _ (by simp)
  unfold State.railWant State.railVote
  simp only [h1, h2]
  have h3 : t.dreg (.thCap d) = s.dreg (.thCap d) := hr _ (by simp)
  have h4 : t.dreg .pwrCap = s.dreg .pwrCap := hr _ (by simp)
  rw [h3, h4]

/-- A move of a rail depends on that rail alone. -/
theorem moveRail_congr {s s' : State} (m : RailsMoved s s') (d r : Nat) (h : s'.rail d r = s.rail d r) :
    (s'.moveRail d r).rail d r = (s.moveRail d r).rail d r := by
  have e1 : s'.railMv d r = s.railMv d r := m.volts d r
  have e2 : s'.railWant d r = s.railWant d r := railWant_congr (by rw [m.only]) m.regs d r
  have e3 : s'.timebase = s.timebase := by rw [m.only]
  obtain ⟨a1, a2, a3, a4⟩ := moveRail_spec s' d r
  obtain ⟨b1, b2, b3, b4⟩ := moveRail_spec s d r
  rw [e1, e2, h, e3] at a2 a3
  rw [e1, e2, h] at a4
  rw [e2, h] at a1
  by_cases c1 : s.railWant d r = (s.rail d r).target
  · rw [a1 c1, b1 c1]; exact h
  · by_cases c2 : s.railMv d r ≤ s.railWant d r
    · rw [a2 c1 c2, b2 c1 c2]
    · by_cases c3 : s.railMv d r ≤ (s.rail d r).target
      · rw [a3 c1 (Nat.not_le.1 c2) c3, b3 c1 (Nat.not_le.1 c2) c3]
      · rw [a4 c1 (Nat.not_le.1 c2) (Nat.not_le.1 c3), b4 c1 (Nat.not_le.1 c2) (Nat.not_le.1 c3)]

theorem moveRails_list (L : List (Nat × Nat)) (hn : (L.map (fun x => 5 * x.1 + x.2)).Nodup) (s : State) :
    (∀ d r, 5 * d + r ∉ L.map (fun x => 5 * x.1 + x.2) → (L.foldl (fun st x => st.moveRail x.1 x.2) s).rail d r = s.rail d r) ∧
    ∀ x ∈ L, (L.foldl (fun st x => st.moveRail x.1 x.2) s).rail x.1 x.2 = (s.moveRail x.1 x.2).rail x.1 x.2 := by
  induction L generalizing s with
  | nil => exact ⟨fun _ _ _ => rfl, by simp⟩
  | cons a t ih =>
    rw [List.map_cons, List.nodup_cons] at hn
    obtain ⟨i1, i2⟩ := ih hn.2 (s.moveRail a.1 a.2)
    rw [List.foldl_cons]
    refine ⟨fun d r h => ?_, fun x hx => ?_⟩
    · have h' : 5 * d + r ≠ 5 * a.1 + a.2 ∧ 5 * d + r ∉ t.map (fun x => 5 * x.1 + x.2) := by
        rw [List.map_cons, List.mem_cons, not_or] at h; exact h
      rw [i1 d r h'.2, moveRail_ne _ _ _ _ _ h'.1]
    · rcases List.mem_cons.1 hx with rfl | hx
      · rw [i1 _ _ hn.1]
      · rw [i2 x hx]
        have hne : 5 * x.1 + x.2 ≠ 5 * a.1 + a.2 := by
          intro e; exact hn.1 (e ▸ List.mem_map.2 ⟨x, hx, rfl⟩)
        exact moveRail_congr (moveRail_moved s a.1 a.2) x.1 x.2 (moveRail_ne s a.1 a.2 x.1 x.2 hne)

theorem moveRails_rail (s : State) (d r : Nat) (hd : d < 4) (hr : r < 4) : s.moveRails.rail d r = (s.moveRail d r).rail d r := by
  have e : s.moveRails = ((List.range 4).flatMap (fun d => (List.range 4).map (fun r => (d, r)))).foldl (fun st x => st.moveRail x.1 x.2) s := by
    unfold State.moveRails
    rw [List.foldl_flatMap]
    congr 1
  rw [e]
  refine (moveRails_list _ (by decide) s).2 (d, r) ?_
  simp [hd, hr]

theorem regsRails_move (s1 s : State) (ws : List (Reg × Nat)) (h : RegsSet s s1 ws) (hw : ∀ x ∈ ws, ∀ k, x.1 ≠ .d (.railMv k)) : RegsRails s s1.moveRails ws := by
  have m := moveRails_moved s1
  refine ⟨?_, fun r hr => (m.regs r hr).trans (h.2 r), fun d r => (m.volts d r).trans ?_⟩
  · have h1 := h.1
    have m1 := m.only
    generalize s1.moveRails.regs = R at m1 ⊢
    generalize s1.moveRails.power.rails = P at m1 ⊢
    rw [m1, h1]
  · have h1 : s1.dreg (.railMv (railKey d r)) = s.dreg (.railMv (railKey d r)) := by
      refine (h.2 _).trans ?_
      rw [List.find?_eq_none.2 (fun x hx => by simpa using hw x hx _)]; rfl
    have e := h.1
    unfold State.railMv State.rail
    rw [h1]
    generalize s1.regs = R at e
    rw [e]

theorem settle_fold (s : State) (V : Nat → Nat) (L : List (Nat × Nat)) (hV : ∀ x ∈ L, s.railMv x.1 x.2 = V (railKey x.1 x.2)) (st : State) :
    let t := L.foldl (fun (st : State) x => st.setDreg (.railMv (railKey x.1 x.2)) (s.railMv x.1 x.2)) st
    (∀ k, t.dreg (.railMv k) = if k ∈ L.map (fun x => railKey x.1 x.2) then V k else st.dreg (.railMv k)) ∧
    ∀ q, (∀ k, q ≠ .d (.railMv k)) → t.reg q = st.reg q := by
  induction L generalizing st with
  | nil => exact ⟨fun k => by rw [if_neg (by simp)]; rfl, fun _ _ => rfl⟩
  | cons a t ih =>
    obtain ⟨i1, i2⟩ := ih (fun x hx => hV x (by simp [hx])) (st.setDreg (.railMv (railKey a.1 a.2)) (s.railMv a.1 a.2))
    have hs : ∀ q, (st.setDreg (.railMv (railKey a.1 a.2)) (s.railMv a.1 a.2)).reg q = if q = .d (.railMv (railKey a.1 a.2)) then s.railMv a.1 a.2 else st.reg q :=
      fun q => reg_setReg_if ..
    refine ⟨fun k => (i1 k).trans ?_, fun q hq => (i2 q hq).trans ?_⟩
    · by_cases h : k ∈ t.map (fun x => railKey x.1 x.2)
      · rw [if_pos h, if_pos (by simp [h])]
      · rw [if_neg h]
        refine (hs _).trans ?_
        by_cases e : k = railKey a.1 a.2
        · subst e
          rw [if_pos rfl, if_pos (by simp)]
          exact hV a (by simp)
        · rw [if_neg (by simpa using e), if_neg (by rw [List.map_cons, List.mem_cons]; rintro (z | z); exacts [e z, h z])]; rfl
    · rw [hs, if_neg (hq _)]

/-- What every rail's register holds once it stands, and that no other register has changed. -/
theorem settleRails_reg (s : State) : (∀ d r, d < 4 → r < 4 → s.settleRails.dreg (.railMv (railKey d r)) = s.railMv d r) ∧
    ∀ q, (∀ k, q ≠ .d (.railMv k)) → s.settleRails.reg q = s.reg q := by
  obtain ⟨L, hL⟩ : ∃ L, L = (List.range 4).flatMap (fun d => (List.range 4).map (fun r => (d, r))) := ⟨_, rfl⟩
  have e : s.settleRails = L.foldl (fun st x => st.setDreg (.railMv (railKey x.1 x.2)) (s.railMv x.1 x.2)) s := by
    unfold State.settleRails
    rw [hL, List.foldl_flatMap]
    congr 1
  have hm : ∀ d r, d < 4 → r < 4 → (d, r) ∈ L := by intro d r hd hr; rw [hL]; simp [hd, hr]
  have hr : ∀ x ∈ L, x.1 < 4 ∧ x.2 < 4 := by
    intro x hx
    rw [hL] at hx
    simp only [List.mem_flatMap, List.mem_map, List.mem_range] at hx
    obtain ⟨d, hd, r, hr, rfl⟩ := hx
    exact ⟨hd, hr⟩
  obtain ⟨f1, f2⟩ := settle_fold s (fun k => s.railMv (k / 5) (k % 5)) L (fun x hx => by
    have := hr x hx
    have h1 : railKey x.1 x.2 / 5 = x.1 := by unfold railKey; omega
    have h2 : railKey x.1 x.2 % 5 = x.2 := by unfold railKey; omega
    rw [h1, h2]) s
  rw [e]
  refine ⟨fun d r hd hr => ?_, f2⟩
  rw [f1, if_pos (List.mem_map.2 ⟨(d, r), hm d r hd hr, rfl⟩)]
  have h1 : railKey d r / 5 = d := by unfold railKey; omega
  have h2 : railKey d r % 5 = r := by unfold railKey; omega
  rw [h1, h2]

theorem wipe_reg (s : State) (on : Bool) (r : Reg) (h : (r.lasting || (on && r.held)) = true) : (s.wipe on).reg r = s.settleRails.reg r := by
  show RegFile.get (s.settleRails.regs.filter (fun e => e.1.lasting || (on && e.1.held))) r = _
  rw [get_filter_out _ _ _ (fun v => h)]; rfl

theorem wipe_spec (s : State) (on : Bool) : Wiped s (s.wipe on) on := by
  refine ⟨rfl, fun a => ?_, ⟨rfl, rfl, rfl, rfl, rfl, rfl, rfl, rfl, rfl⟩, fun n => rfl, rfl, fun r h => ?_, fun h d => ?_, fun h d r hd hr => ?_⟩
  · have : (s.wipe on).hByte a = sget 0 (s.mem.filter (fun e => decide (devTop ≤ e.1))) a := rfl
    rw [this]
    unfold sget
    split
    · rename_i h
      rw [kget_filter_none _ _ _ (fun e _ he => by rw [he]; exact decide_eq_false (Nat.not_le.2 h))]; rfl
    · rename_i h
      rw [kget_filter _ _ _ (fun e _ he => by rw [he]; exact decide_eq_true (Nat.not_lt.1 h))]; rfl
  · rw [wipe_reg s on r (by rw [h]; rfl)]
    exact (settleRails_reg s).2 r (by rintro k rfl; cases h)
  · exact (wipe_reg s on _ (by rw [h]; rfl)).trans ((settleRails_reg s).2 _ (by simp))
  · have e1 : (s.wipe on).dreg (.railMv (railKey d r)) = s.railMv d r := (wipe_reg s on _ (by rw [h]; rfl)).trans ((settleRails_reg s).1 d r hd hr)
    have e2 : (s.wipe on).rail d r = ⟨(s.wipe on).dreg (.railMv (railKey d r)), none, 0⟩ := rfl
    unfold State.railMv at e1 ⊢
    rw [e2, e1]
    exact at_since _ _ _ (Nat.le_refl 0)

theorem keepRegs_fold {α : Type} (P : Reg → Prop) (f : State → α → State) (hf : ∀ s a, (∃ R, f s a = { s with regs := R }) ∧ ∀ r, P r → (f s a).reg r = s.reg r)
    (L : List α) (s : State) : (∃ R, L.foldl f s = { s with regs := R }) ∧ ∀ r, P r → (L.foldl f s).reg r = s.reg r := by
  refine foldl_rel (fun a b => (∃ R, b = { a with regs := R }) ∧ ∀ r, P r → b.reg r = a.reg r) (fun s => ⟨⟨s.regs, rfl⟩, fun _ _ => rfl⟩) ?_ f hf L s
  rintro a b c ⟨⟨R, h1⟩, h2⟩ ⟨⟨Q, k1⟩, k2⟩
  exact ⟨⟨Q, by rw [k1, h1]⟩, fun r hr => (k2 r hr).trans (h2 r hr)⟩

theorem regsSet_svcEnd (s : State) (r : Nat) : RegsSet s (s.svcEnd r) [(.d .svcResult, r), (.d .svcState, 2)] :=
  regsSet_cons (regsSet_cons (regsSet_nil s) _ _) _ _

theorem reg_svcEnd (s : State) (v : Nat) (r : Reg) : (s.svcEnd v).reg r = if r = .d .svcResult then v else if r = .d .svcState then 2 else s.reg r := by
  show ((s.setReg (.d .svcState) 2).setReg (.d .svcResult) v).reg r = _
  rw [reg_setReg_if, reg_setReg_if]

theorem svcOpen_of {s : State} (h : s.dreg .svcState ≠ 1) (c : Nat) : ¬ (!s.svcOpen c) = true := by
  unfold State.svcOpen
  have : (s.dreg .svcState != 1) = true := by simpa using h
  rw [this]; simp

theorem bits_low (a : Nat) : bits a 7 0 = a % 256 := by show a / 1 % 256 = _; rw [Nat.div_one]

theorem bits_low5 (a : Nat) : bits a 4 0 = a % 32 := by show a / 1 % 32 = _; rw [Nat.div_one]

theorem bits_low3 (a : Nat) : bits a 2 0 = a % 8 := by show a / 1 % 8 = _; rw [Nat.div_one]

theorem svcSave_none (s : State) (sel : Block → Bool) (h : s.blocks = []) : s.svcSave sel = s := by
  unfold State.svcSave; rw [h]; rfl

theorem svcRestore_nil (s : State) : s.svcRestore [] = { s with fleet := { s.fleet with retired := [], retiring := [] } } := rfl

theorem servedBy_of {s t : State} (h : ∀ l, t.dreg (.lmPhys l) = s.dreg (.lmPhys l)) (die k : Nat) : t.servedBy die k = s.servedBy die k := by
  unfold State.servedBy
  congr 1
  funext l
  rw [h]

/-- What ends a service command with the registers it changed: `s1` has them, and `x` its fleet. -/
theorem svcEnd_of (s t : State) (q : DReg) (v : Nat) (h : ∀ r, t.reg r = if r = .d q then v else s.reg r) (r : Reg) : (t.svcEnd 0).reg r =
    if r = .d .svcResult then 0 else if r = .d .svcState then 2 else if r = .d q then v else s.reg r := by
  rw [reg_svcEnd, h]

theorem svcEnd_eq (t : State) (v : Nat) : t.svcEnd v = { t with regs := (t.svcEnd v).regs } := rfl

theorem spareChannel_some (s : State) (a b : Nat) (h : s.dreg (.chSpares a) ≠ 0) : ∃ t, s.spareChannel a b = some t ∧
    t = { s with regs := t.regs, fleet := { s.fleet with repaired := s.fleet.repaired ++ [(2, a, b)], moved := t.fleet.moved } } ∧
    ∀ r, t.reg r = if r = .d (.chSpares a) then s.dreg (.chSpares a) - 1 else s.reg r := by
  refine ⟨_, if_neg h, rfl, fun r => ?_⟩
  show (s.setReg (.d (.chSpares a)) _).reg r = _
  rw [reg_setReg_if]

theorem spareLane_some (s : State) (a b : Nat) (h : s.dreg (.lanesLeft a) ≠ 0) (ha : 20 ≤ a) : ∃ t, s.spareLane a b = some t ∧
    t = { s with regs := t.regs, fleet := { s.fleet with repaired := s.fleet.repaired ++ [(4, a, b)], laneMap := t.fleet.laneMap } } ∧
    ∀ r, t.reg r = if r = .d (.lanesLeft a) then s.dreg (.lanesLeft a) - 1 else s.reg r := by
  obtain ⟨t, ht⟩ : ∃ t, t = ((s.setDreg (.lanesLeft a) (s.dreg (.lanesLeft a) - 1)).note 4 a b).setFleet
    (fun f => { f with laneMap := kput f.laneMap (32 * a + b) (s.dreg (.lanesLeft a)) }) := ⟨_, rfl⟩
  refine ⟨t, ?_, by rw [ht]; rfl, fun r => ?_⟩
  · unfold State.spareLane
    simp only []
    rw [if_neg h, if_neg (Nat.not_lt.2 ha), ht]
  · rw [ht]
    show (s.setReg (.d (.lanesLeft a)) _).reg r = _
    rw [reg_setReg_if]

theorem spareLane_hylis (s : State) (a b : Nat) (h : s.dreg (.lanesLeft a) ≠ 0) (ha : a < 20) : ∃ t, s.spareLane a b = some t ∧
    a ∈ t.fabric.down ∧ ∀ r, t.reg r = if r = .d .retrains then min (s.dreg .retrains + 1) (2 ^ 32 - 1) else
      if r = .d (.lanesLeft a) then s.dreg (.lanesLeft a) - 1 else s.reg r := by
  obtain ⟨t, ht⟩ : ∃ t, t = ((s.setDreg (.lanesLeft a) (s.dreg (.lanesLeft a) - 1)).note 4 a b).setFleet
    (fun f => { f with laneMap := kput f.laneMap (32 * a + b) (s.dreg (.lanesLeft a)) }) := ⟨_, rfl⟩
  have hr : ∀ r, t.reg r = if r = .d (.lanesLeft a) then s.dreg (.lanesLeft a) - 1 else s.reg r := by
    intro r
    rw [ht]
    show (s.setReg (.d (.lanesLeft a)) _).reg r = _
    rw [reg_setReg_if]
  refine ⟨t.retrain a, ?_, ?_, fun r => ?_⟩
  · unfold State.spareLane
    simp only []
    rw [if_neg h, if_pos ha, ht]
  · show a ∈ (if t.fabric.down.contains a then t.fabric.down else a :: t.fabric.down)
    split
    · rename_i h; simpa using h
    · exact List.mem_cons_self ..
  · show (t.setReg (.d .retrains) (min (t.reg (.d .retrains) + 1) (2 ^ 32 - 1))).reg r = _
    have hq : t.reg (.d .retrains) = s.reg (.d .retrains) := by rw [hr, if_neg]; intro z; cases z
    rw [reg_setReg_if, hq, hr]
    rfl

end Sys2Proof
end

