-- ==== Sys2Proof/Laws/Written.lean ====
section
/-! SUPPORT. The words of the formats as sums of their fields (R127, R183). -/

namespace Sys2Proof

open Sys2Proof.Machine

theorem append_toNat {n m : Nat} (x : BitVec n) (y : BitVec m) : (x ++ y).toNat = x.toNat * 2 ^ m + y.toNat := by
  rw [BitVec.toNat_append, ← Nat.shiftLeft_add_eq_or_of_lt y.isLt, Nat.shiftLeft_eq]

theorem written_FR (i : Instr) (op : Nat) (b a d : BitVec 7) (px : Px) (h : op < 1024) (he : encode i = some (encFR op b a d)) (hp : i.row.px = px) :
    Written i (op * 2 ^ 21 + b.toNat * 2 ^ 14 + a.toNat * 2 ^ 7 + d.toNat) px := by
  refine ⟨he.trans (congrArg some ?_), hp⟩
  have hb := b.isLt; have ha := a.isLt; have hd := d.isLt
  apply BitVec.eq_of_toNat_eq
  unfold encFR
  simp only [append_toNat, BitVec.toNat_ofNat]
  omega

theorem written_unary (i : Instr) (op : Nat) (a d : BitVec 7) (px : Px) (h : op < 1024) (he : encode i = some (encFR op 0 a d)) (hp : i.row.px = px) :
    Written i (op * 2 ^ 21 + a.toNat * 2 ^ 7 + d.toNat) px := by
  have := written_FR i op 0 a d px h he hp
  simpa using this

theorem written_FI (i : Instr) (op : Nat) (x : BitVec 12) (a d : BitVec 7) (px : Px) (h : op < 16) (he : encode i = some (encFI op x a d)) (hp : i.row.px = px) :
    Written i (op * 2 ^ 26 + 0x80000000 + x.toNat * 2 ^ 14 + a.toNat * 2 ^ 7 + d.toNat) px := by
  refine ⟨he.trans (congrArg some ?_), hp⟩
  have hb := x.isLt; have ha := a.isLt; have hd := d.isLt
  apply BitVec.eq_of_toNat_eq
  unfold encFI
  simp only [append_toNat, BitVec.toNat_ofNat]
  omega

theorem written_shift (i : Instr) (op : Nat) (x : BitVec 5) (a d : BitVec 7) (px : Px) (h : op < 16) (he : encode i = some (encFI op (0#7 ++ x) a d)) (hp : i.row.px = px) :
    Written i (op * 2 ^ 26 + 0x80000000 + x.toNat * 2 ^ 14 + a.toNat * 2 ^ 7 + d.toNat) px := by
  have := written_FI i op (0#7 ++ x) a d px h he hp
  rwa [show (0#7 ++ x).toNat = x.toNat by rw [append_toNat]; simp] at this

theorem written_FL (i : Instr) (op : Nat) (x : BitVec 18) (d : BitVec 7) (px : Px) (h : op < 16) (he : encode i = some (encFL op x d)) (hp : i.row.px = px) :
    Written i (op * 2 ^ 25 + 0xC0000000 + x.toNat * 2 ^ 7 + d.toNat) px := by
  refine ⟨he.trans (congrArg some ?_), hp⟩
  have hb := x.isLt; have hd := d.isLt
  apply BitVec.eq_of_toNat_eq
  unfold encFL
  simp only [append_toNat, BitVec.toNat_ofNat]
  omega

theorem encFI_ofNat (op : Nat) (h : op < 16) (x : BitVec 12) (a d : BitVec 7) : encFI op x a d = BitVec.ofNat 32 (op * 2 ^ 26 + 0x80000000 + x.toNat * 2 ^ 14 + a.toNat * 2 ^ 7 + d.toNat) := by
  have hb := x.isLt; have ha := a.isLt; have hd := d.isLt
  apply BitVec.eq_of_toNat_eq
  unfold encFI
  simp only [append_toNat, BitVec.toNat_ofNat]
  omega

theorem encFI_fields (op : Nat) (h : op < 16) (x : BitVec 12) (a d : BitVec 7) : (encFI op x a d).extractLsb' 31 1 = 1#1 ∧ (encFI op x a d).extractLsb' 30 2 = 2#2 ∧
    ((encFI op x a d).extractLsb' 26 4).toNat = op ∧ (encFI op x a d).extractLsb' 14 12 = x ∧ (encFI op x a d).extractLsb' 7 7 = a ∧ (encFI op x a d).extractLsb' 0 7 = d := by
  have hb := x.isLt; have ha := a.isLt; have hd := d.isLt
  have e : (encFI op x a d).toNat = op * 2 ^ 26 + 2 ^ 31 + x.toNat * 2 ^ 14 + a.toNat * 2 ^ 7 + d.toNat := by
    unfold encFI
    simp only [append_toNat, BitVec.toNat_ofNat]
    omega
  refine ⟨?_, ?_, ?_, ?_, ?_, ?_⟩
  all_goals first | apply BitVec.eq_of_toNat_eq | skip
  all_goals simp only [BitVec.extractLsb'_toNat, Nat.shiftRight_eq_div_pow, e, BitVec.toNat_ofNat]
  all_goals omega

theorem decode_FI (op : Nat) (h : op < 16) (x : BitVec 12) (a d : BitVec 7) : decode (encFI op x a d) = decFI op x a d := by
  obtain ⟨p1, p2, p3, p4, p5, p6⟩ := encFI_fields op h x a d
  unfold decode
  rw [p1, p2, p3, p4, p5, p6]
  rfl

end Sys2Proof
end

