-- ==== Sys2Proof/Tests/Slice0.lean ====
section
/-! SUPPORT. The model's own tests: ill-formed terms refused, words of the opcode table decoded, and for every
statement with hypotheses one named theorem for each clause that gives a state and operands meeting them. -/

namespace Sys2Proof.Machine
open Sys2Proof
set_option Elab.async false

/-- Words written out from the opcode table, and the instructions they stand for (R149, R150, R151, R152). -/
theorem test_decode_1 : ∀ e ∈ ([(0x000D6B1A#32, .addW 0x35 0x56 0x1A),
    (0x002D6B1A#32, .subW 0x35 0x56 0x1A),
    (0x004D6B1A#32, .addsSw 0x35 0x56 0x1A),
    (0x006D6B1A#32, .addsUw 0x35 0x56 0x1A),
    (0x008D6B1A#32, .subsSw 0x35 0x56 0x1A),
    (0x00AD6B1A#32, .subsUw 0x35 0x56 0x1A),
    (0x00CD6B1A#32, .mulW 0x35 0x56 0x1A),
    (0x00ED6B1A#32, .mulhiSw 0x35 0x56 0x1A),
    (0x010D6B1A#32, .mulhiUw 0x35 0x56 0x1A),
    (0x012D6B1A#32, .madW 0x35 0x56 0x1A),
    (0x014D6B1A#32, .minSw 0x35 0x56 0x1A),
    (0x016D6B1A#32, .minUw 0x35 0x56 0x1A),
    (0x018D6B1A#32, .maxSw 0x35 0x56 0x1A),
    (0x01AD6B1A#32, .maxUw 0x35 0x56 0x1A),
    (0x01C01AD6#32, .absSw 0x35 0x56),
    (0x01E01AD6#32, .negW 0x35 0x56),
    (0x020D6B1A#32, .addD 0x35 0x56 0x1A),
    (0x022D6B1A#32, .subD 0x35 0x56 0x1A),
    (0x024D6B1A#32, .addwD 0x35 0x56 0x1A),
    (0x026D6B1A#32, .mulSwd 0x35 0x56 0x1A)] : List (Word × Instr)),
    decode e.1 = .ok e.2 := by decide +kernel

/-- Words written out from the opcode table, and the instructions they stand for (R152, R153, R154, R155, R156, R157, R158, R165). -/
theorem test_decode_2 : ∀ e ∈ ([(0x028D6B1A#32, .mulUwd 0x35 0x56 0x1A),
    (0x02AD6B1A#32, .idot4Sb 0x35 0x56 0x1A),
    (0x02CD6B1A#32, .idot4Ub 0x35 0x56 0x1A),
    (0x040D6B1A#32, .and 0x35 0x56 0x1A),
    (0x042D6B1A#32, .or 0x35 0x56 0x1A),
    (0x044D6B1A#32, .xor 0x35 0x56 0x1A),
    (0x046D6B1A#32, .andn 0x35 0x56 0x1A),
    (0x048D6B1A#32, .shl 0x35 0x56 0x1A),
    (0x04AD6B1A#32, .shr 0x35 0x56 0x1A),
    (0x04CD6B1A#32, .sra 0x35 0x56 0x1A),
    (0x04ED6B1A#32, .rotl 0x35 0x56 0x1A),
    (0x05001AD6#32, .clz 0x35 0x56),
    (0x05201AD6#32, .popc 0x35 0x56),
    (0x05401AD6#32, .brev 0x35 0x56),
    (0x056D6B1A#32, .bfxUw 0x35 0x56 0x1A),
    (0x058D6B1A#32, .bfxSw 0x35 0x56 0x1A),
    (0x05AD6B1A#32, .bfi 0x35 0x56 0x1A),
    (0x05CD6B1A#32, .perm 0x35 0x56 0x1A),
    (0x05E01AD6#32, .mov 0x35 0x56),
    (0x080D6B1A#32, .faddF32 0x35 0x56 0x1A)] : List (Word × Instr)),
    decode e.1 = .ok e.2 := by decide +kernel

/-- Words written out from the opcode table, and the instructions they stand for (R165, R166, R167, R168, R169, R170, R172). -/
theorem test_decode_3 : ∀ e ∈ ([(0x082D6B1A#32, .fsubF32 0x35 0x56 0x1A),
    (0x084D6B1A#32, .fmulF32 0x35 0x56 0x1A),
    (0x086D6B1A#32, .ffmaF32 0x35 0x56 0x1A),
    (0x088D6B1A#32, .fminF32 0x35 0x56 0x1A),
    (0x08AD6B1A#32, .fmaxF32 0x35 0x56 0x1A),
    (0x08C01AD6#32, .fabsF32 0x35 0x56),
    (0x08E01AD6#32, .fnegF32 0x35 0x56),
    (0x09001AD6#32, .frcpF32 0x35 0x56),
    (0x09201AD6#32, .frsqF32 0x35 0x56),
    (0x09401AD6#32, .fsqrtF32 0x35 0x56),
    (0x096D6B1A#32, .fdivF32 0x35 0x56 0x1A),
    (0x09801AD6#32, .fex2F32 0x35 0x56),
    (0x09A01AD6#32, .flg2F32 0x35 0x56),
    (0x09C01AD6#32, .fsinpiF32 0x35 0x56),
    (0x09E01AD6#32, .fcospiF32 0x35 0x56),
    (0x0A001AD6#32, .ftanhF32 0x35 0x56),
    (0x0A201AD6#32, .frndF32 0x35 0x56),
    (0x0C0D6B1A#32, .hadd2F16 0x35 0x56 0x1A),
    (0x0C2D6B1A#32, .hmul2F16 0x35 0x56 0x1A),
    (0x0C4D6B1A#32, .hfma2F16 0x35 0x56 0x1A)] : List (Word × Instr)),
    decode e.1 = .ok e.2 := by decide +kernel

/-- Words written out from the opcode table, and the instructions they stand for (R172, R173, R174, R175, R176, R177, R178, R179). -/
theorem test_decode_4 : ∀ e ∈ ([(0x0C6D6B1A#32, .hadd2Bf16 0x35 0x56 0x1A),
    (0x0C8D6B1A#32, .hmul2Bf16 0x35 0x56 0x1A),
    (0x0CAD6B1A#32, .hfma2Bf16 0x35 0x56 0x1A),
    (0x0CCD6B1A#32, .hmin2Bf16 0x35 0x56 0x1A),
    (0x0CED6B1A#32, .hmax2Bf16 0x35 0x56 0x1A),
    (0x0D0D6B1A#32, .fdot2Bf16 0x35 0x56 0x1A),
    (0x100D6B1A#32, .dadd 0x35 0x56 0x1A),
    (0x102D6B1A#32, .dmul 0x35 0x56 0x1A),
    (0x104D6B1A#32, .dfma 0x35 0x56 0x1A),
    (0x106D6B1A#32, .dmin 0x35 0x56 0x1A),
    (0x108D6B1A#32, .dmax 0x35 0x56 0x1A),
    (0x10AD6B1A#32, .ddiv 0x35 0x56 0x1A),
    (0x10C01AD6#32, .dsqrt 0x35 0x56),
    (0x14001AD6#32, .cvtF32Sw 0x35 0x56),
    (0x14201AD6#32, .cvtF32Uw 0x35 0x56),
    (0x14401AD6#32, .cvtSwF32 0x35 0x56),
    (0x14601AD6#32, .cvtUwF32 0x35 0x56),
    (0x148D6B1A#32, .pkF16 0x35 0x56 0x1A),
    (0x14AD6B1A#32, .pkBf16 0x35 0x56 0x1A),
    (0x14CD6B1A#32, .cvtF32F16 0x35 0x56 0x1A)] : List (Word × Instr)),
    decode e.1 = .ok e.2 := by decide +kernel

/-- Words written out from the opcode table, and the instructions they stand for (R161, R179, R180, R181, R182, R186, R187, R188). -/
theorem test_decode_5 : ∀ e ∈ ([(0x14ED6B1A#32, .cvtF32Bf16 0x35 0x56 0x1A),
    (0x15001AD6#32, .cvtF64F32 0x35 0x56),
    (0x15201AD6#32, .cvtF32F64 0x35 0x56),
    (0x154D6B1A#32, .qpkE4m3 0x35 0x56 0x1A),
    (0x156D6B1A#32, .qpkE5m2 0x35 0x56 0x1A),
    (0x158D6B1A#32, .dqE4m3 0x35 0x56 0x1A),
    (0x15AD6B1A#32, .dqE5m2 0x35 0x56 0x1A),
    (0x180D6B1A#32, .shflIdx 0x35 0x56 0x1A),
    (0x182D6B1A#32, .shflUp 0x35 0x56 0x1A),
    (0x184D6B1A#32, .shflDn 0x35 0x56 0x1A),
    (0x186D6B1A#32, .shflXor 0x35 0x56 0x1A),
    (0x188D6B1A#32, .shflRel 0x35 0x56 0x1A),
    (0x18A01AD6#32, .voteAny 0x35 0x56),
    (0x18C01AD6#32, .voteAll 0x35 0x56),
    (0x18E01AD6#32, .ballot 0x35 0x56),
    (0x190D6B1A#32, .redx 0x35 0x56 0x1A),
    (0x192D6B1A#32, .redxi 0x35 0x56 0x1A),
    (0x194D6B1A#32, .scan 0x35 0x56 0x1A),
    (0x19601AD6#32, .matchW 0x35 0x56),
    (0x1C0D6B1A#32, .cmpEqW 0x35 0x56 0x1A)] : List (Word × Instr)),
    decode e.1 = .ok e.2 := by decide +kernel

/-- Words written out from the opcode table, and the instructions they stand for (R161, R162, R163, R164, R190). -/
theorem test_decode_6 : ∀ e ∈ ([(0x1C2D6B1A#32, .cmpNeW 0x35 0x56 0x1A),
    (0x1C4D6B1A#32, .cmpLtSw 0x35 0x56 0x1A),
    (0x1C6D6B1A#32, .cmpLeSw 0x35 0x56 0x1A),
    (0x1C8D6B1A#32, .cmpLtUw 0x35 0x56 0x1A),
    (0x1CAD6B1A#32, .cmpLeUw 0x35 0x56 0x1A),
    (0x1CCD6B1A#32, .fcmpEqF32 0x35 0x56 0x1A),
    (0x1CED6B1A#32, .fcmpLtF32 0x35 0x56 0x1A),
    (0x1D0D6B1A#32, .fcmpLeF32 0x35 0x56 0x1A),
    (0x1D2D6B1A#32, .fcmpUnF32 0x35 0x56 0x1A),
    (0x1D4D6B1A#32, .dcmpLt 0x35 0x56 0x1A),
    (0x1D6D6B1A#32, .dcmpEq 0x35 0x56 0x1A),
    (0x1D8D6B1A#32, .pand 0x35 0x56 0x1A),
    (0x1DAD6B1A#32, .por 0x35 0x56 0x1A),
    (0x1DCD6B1A#32, .pxor 0x35 0x56 0x1A),
    (0x1DED6B1A#32, .pandn 0x35 0x56 0x1A),
    (0x1E001AD6#32, .pmovV 0x35 0x56),
    (0x1E201AD6#32, .vmovP 0x35 0x56),
    (0x1E401AD6#32, .pcnt 0x35 0x56),
    (0x200D6B1A#32, .ldSb 0x35 0x56 0x1A),
    (0x202D6B1A#32, .ldUb 0x35 0x56 0x1A)] : List (Word × Instr)),
    decode e.1 = .ok e.2 := by decide +kernel

/-- Words written out from the opcode table, and the instructions they stand for (R190, R191, R193, R194). -/
theorem test_decode_7 : ∀ e ∈ ([(0x204D6B1A#32, .ldSh 0x35 0x56 0x1A),
    (0x206D6B1A#32, .ldUh 0x35 0x56 0x1A),
    (0x208D6B1A#32, .ldW 0x35 0x56 0x1A),
    (0x20AD6B1A#32, .ldD 0x35 0x56 0x1A),
    (0x20CD6B1A#32, .ldQ 0x35 0x56 0x1A),
    (0x210D6B1A#32, .stB 0x35 0x56 0x1A),
    (0x212D6B1A#32, .stH 0x35 0x56 0x1A),
    (0x214D6B1A#32, .stW 0x35 0x56 0x1A),
    (0x216D6B1A#32, .stD 0x35 0x56 0x1A),
    (0x218D6B1A#32, .stQ 0x35 0x56 0x1A),
    (0x22016B1A#32, .ldmW 0x5 0x56 0x1A),
    (0x22216B1A#32, .ldmD 0x5 0x56 0x1A),
    (0x22416B1A#32, .ldmQ 0x5 0x56 0x1A),
    (0x22816B1A#32, .stmW 0x5 0x56 0x1A),
    (0x22A16B1A#32, .stmD 0x5 0x56 0x1A),
    (0x22C16B1A#32, .stmQ 0x5 0x56 0x1A),
    (0x23038D33#32, .ldacqW 0x1 0x6 0x1A 0x33),
    (0x23238D33#32, .ldacqD 0x1 0x6 0x1A 0x33),
    (0x23416B1A#32, .strelW 0x5 0x56 0x1A),
    (0x23616B1A#32, .strelD 0x5 0x56 0x1A)] : List (Word × Instr)),
    decode e.1 = .ok e.2 := by decide +kernel

/-- Words written out from the opcode table, and the instructions they stand for (R195, R196, R200, R201). -/
theorem test_decode_8 : ∀ e ∈ ([(0x240D6B1A#32, .atomAddW 0x35 0x56 0x1A),
    (0x242D6B1A#32, .atomMinSw 0x35 0x56 0x1A),
    (0x244D6B1A#32, .atomMinUw 0x35 0x56 0x1A),
    (0x246D6B1A#32, .atomMaxSw 0x35 0x56 0x1A),
    (0x248D6B1A#32, .atomMaxUw 0x35 0x56 0x1A),
    (0x24AD6B1A#32, .atomAndW 0x35 0x56 0x1A),
    (0x24CD6B1A#32, .atomOrW 0x35 0x56 0x1A),
    (0x24ED6B1A#32, .atomXorW 0x35 0x56 0x1A),
    (0x250D6B1A#32, .atomExchW 0x35 0x56 0x1A),
    (0x252D6B1A#32, .atomCasW 0x35 0x56 0x1A),
    (0x254D6B1A#32, .atomFaddF32 0x35 0x56 0x1A),
    (0x256D6B1A#32, .atomAddD 0x35 0x56 0x1A),
    (0x258D6B1A#32, .atomExchD 0x35 0x56 0x1A),
    (0x25AD6B1A#32, .atomCasD 0x35 0x56 0x1A),
    (0x260D6B00#32, .pfL1 0x35 0x56),
    (0x262D6B00#32, .pfL2 0x35 0x56),
    (0x28001A80#32, .jmp 0x35),
    (0x28201AD6#32, .callr 0x35 0x56),
    (0x28401A80#32, .ret 0x35),
    (0x286D6B00#32, .barArr 0x35 0x56)] : List (Word × Instr)),
    decode e.1 = .ok e.2 := by decide +kernel

/-- Words written out from the opcode table, and the instructions they stand for (R81, R201, R203, R204, R207, R211, R212, R226, R229, R230, R231, R233, R234, R238). -/
theorem test_decode_9 : ∀ e ∈ ([(0x288D6B00#32, .barWait 0x35 0x56),
    (0x28A01A80#32, .barSync 0x35),
    (0x28CD6B00#32, .pbwait 0x35 0x56),
    (0x28ED6B00#32, .pbarr 0x35 0x56),
    (0x2C001A80#32, .xw 0x35),
    (0x2C2D6B00#32, .xwp 0x35 0x56),
    (0x2C401AD6#32, .untag 0x35 0x56),
    (0x2C6D6B00#32, .lnkill 0x35 0x56),
    (0x2C8D4056#32, .mfs 0x35 0x56),
    (0x2CAD6B00#32, .mts 0x35 0x56),
    (0x2CC01AD6#32, .lnq 0x35 0x56),
    (0x30001AD6#32, .bcopy 0x35 0x56),
    (0x30201A80#32, .coll 0x35),
    (0x30401A80#32, .ewait 0x35),
    (0x30601AD6#32, .epoll 0x35 0x56),
    (0x308D6B00#32, .gpost 0x35 0x56),
    (0x30A01AD6#32, .ofsub 0x35 0x56),
    (0x30C00000#32, .ofwait),
    (0x30E00000#32, .ofcommit),
    (0x31000035#32, .ofinfo 0x35)] : List (Word × Instr)),
    decode e.1 = .ok e.2 := by decide +kernel

/-- Words written out from the opcode table, and the instructions they stand for (R159, R240, R242, R245, R246, R247, R248, R249). -/
theorem test_decode_10 : ∀ e ∈ ([(0x31201AD6#32, .accrd 0x35 0x56),
    (0x31401AD6#32, .accwr 0x35 0x56),
    (0x38001AD6#32, .acalloc 0x35 0x56),
    (0x382D6B00#32, .acfree 0x35 0x56),
    (0x384D6B1A#32, .mslot 0x35 0x56 0x1A),
    (0x386D6B1A#32, .mmac 0x35 0x56 0x1A),
    (0x38801AD6#32, .mtrans 0x35 0x56),
    (0x38AD6B1A#32, .mperm 0x35 0x56 0x1A),
    (0x38C01AD6#32, .mrsum 0x35 0x56),
    (0x38E00035#32, .mzero 0x35),
    (0x390D6B00#32, .vcnt 0x35 0x56),
    (0x39200000#32, .mwait),
    (0x394D6B1A#32, .mpost 0x35 0x56 0x1A),
    (0x39601AD6#32, .mdrain 0x35 0x56),
    (0x39801A80#32, .ppoint 0x35),
    (0x81AD6B1A#32, .addiW 0x6B5 0x56 0x1A),
    (0x85AD6B1A#32, .andi 0x6B5 0x56 0x1A),
    (0x89AD6B1A#32, .ori 0x6B5 0x56 0x1A),
    (0x8DAD6B1A#32, .xori 0x6B5 0x56 0x1A),
    (0x90056B1A#32, .shli 0x15 0x56 0x1A)] : List (Word × Instr)),
    decode e.1 = .ok e.2 := by decide +kernel

/-- Words written out from the opcode table, and the instructions they stand for (R29, R159, R160, R161, R190, R191, R199, R215). -/
theorem test_decode_11 : ∀ e ∈ ([(0x94056B1A#32, .shri 0x15 0x56 0x1A),
    (0x98056B1A#32, .srai 0x15 0x56 0x1A),
    (0x9DAD6B1A#32, .cmpiEq 0x6B5 0x56 0x1A),
    (0xA1AD6B1A#32, .cmpiLtSw 0x6B5 0x56 0x1A),
    (0xA5AD6B1A#32, .cmpiLtUw 0x6B5 0x56 0x1A),
    (0xA9AD6B1A#32, .ldiW 0x6B5 0x56 0x1A),
    (0xADAD6B1A#32, .stiW 0x6B5 0x56 0x1A),
    (0xB1AD6B1A#32, .ldiD 0x6B5 0x56 0x1A),
    (0xB5AD6B1A#32, .stiD 0x6B5 0x56 0x1A),
    (0xB9AD6B1A#32, .ldiQ 0x6B5 0x56 0x1A),
    (0xBDAD6B1A#32, .stiQ 0x6B5 0x56 0x1A),
    (0xC0B35A80#32, .bra 0x166B5),
    (0xC2B35AD6#32, .call 0x166B5 0x56),
    (0xC4B35AD6#32, .movi 0x166B5 0x56),
    (0xC6B35AD6#32, .movu 0x166B5 0x56),
    (0xC8000000#32, .join),
    (0xF0000000#32, .nop),
    (0xF0100000#32, .exit),
    (0xF02566B5#32, .trap 0x566B5),
    (0xF0300000#32, .brk)] : List (Word × Instr)),
    decode e.1 = .ok e.2 := by decide +kernel

/-- Words written out from the opcode table, and the instructions they stand for (R81, R197, R198, R215, R216, R217). -/
theorem test_decode_12 : ∀ e ∈ ([(0xF0400000#32, .eret),
    (0xF050001A#32, .fence 0x1 0x1 0x2),
    (0xF0600000#32, .sdrain),
    (0xF0700005#32, .wbase 0x5),
    (0xF08566B5#32, .sleep 0x566B5),
    (0xF0900000#32, .yield),
    (0xF0A00000#32, .lnon),
    (0xF0B00000#32, .lnoff),
    (0xF0F566B5#32, .bexit 0x566B5)] : List (Word × Instr)),
    decode e.1 = .ok e.2 := by decide +kernel

/-- R127 bit by bit: 0, then opcode 0x000 in ten bits, then b = 5, a = 3 and d = 1 in seven bits each. -/
theorem test_decode_bits_FR : decode 0b0_0000000000_0000101_0000011_0000001#32 = .ok (.addW 5 3 1) := by decide
/-- R127: 110, opcode 0 in four bits, an eighteen-bit offset, and seven bits that must be zero. -/
theorem test_decode_bits_FL : decode 0b110_0000_111111111111111110_0000000#32 = .ok (.bra 0x3FFFE) := by decide
/-- R127: 1111, opcode 255 in eight bits, a twenty-bit code. -/
theorem test_decode_bits_FS : decode 0b1111_00001111_00000000000000000111#32 = .ok (.bexit 7) := by decide
/-- R128, R129, R139: a prefix is no instruction, the stall word is none, must-be-zero bits are zero, and an opcode
without a row is refused. -/
theorem test_decode_refusals :
    decode 0xE0000000 = .error .isPrefix ∧ decode 0xF1000000 = .error .isStall ∧
    decode 0x01C04081 = .error .mustBeZero ∧ decode 0xFFFFFFFF = .error .unallocated := by decide

/-- R128, R139: one ill-formed term for each check, which the check refuses. -/
theorem test_ill_formed : ∀ i ∈ ([.addD 4 2 1,
    .addD 3 2 4,
    .ldQ 0 2 6,
    .cvtF32F16 2 3 1,
    .redx 11 3 1,
    .redxi 5 2 4,
    .scan 11 3 1,
    .ldmW 0 2 3,
    .ldmD 0 2 2,
    .ldmQ 0 4 4,
    .ldacqW 0 6 2 4,
    .ldacqW 1 1 2 4,
    .ldacqD 0 6 2 4,
    .strelW 6 2 4,
    .strelD 6 2 4,
    .pbwait 2 2,
    .lnkill 2 2,
    .lnkill 0 2,
    .mfs 47 2,
    .mts 63 2,
    .mslot 3 2 8,
    .mmac 8 0 1,
    .mtrans 8 2,
    .mperm 3 8 1,
    .mrsum 8 1,
    .fence 0 0 6] : List Instr),
    WellFormed i = false := by decide +kernel

/-- Their neighbours inside the ranges are well formed. -/
theorem test_well_formed : ∀ i ∈ ([.addD 4 2 6,
    .cvtF32F16 1 3 1,
    .redx 10 3 1,
    .redxi 10 2 4,
    .scan 10 3 1,
    .ldmW 0 2 4,
    .ldmD 0 2 4,
    .ldmQ 0 2 4,
    .ldacqW 1 2 2 4,
    .strelD 5 2 4,
    .pbwait 1 2,
    .lnkill 1 2,
    .lnkill 0 0,
    .mfs 46 2,
    .mts 64 2,
    .mslot 3 2 7,
    .mmac 7 0 1,
    .fence 0 0 5] : List Instr),
    WellFormed i = true := by decide +kernel

/-- The device with one launch, one block and one unit, 2. -/
def box (w : Warp) (b : Block) (l : Launch) : State :=
  { State.reset with nextUid := 3, warps := [(2, w)], blocks := [(1, b)], launches := [(0, l)] }
/-- A warp or a tile context at 0x1_0000 with 128 registers; its block; its launch, whose handler stands at 0x2_0000. -/
def aWarp (tile : Bool) : Warp := Warp.initial 1 tile 0 0 0 4 0x10000
def aBlock (tile : Bool) : Block := { Block.initial 0 0 0 with warps := if tile then [] else [2], tctx := if tile then some 2 else none }
def aLaunch (tile : Bool) : Launch := Launch.initial 0 0 0x40000 (LaunchRec.small tile) 0 none
/-- An instruction latched for the lanes of a mask, and one behind a prefix. -/
def aWord (m : Mask) : Issue := ⟨2, 0x10000, 0x10000, 0x10004, 0, none, m, none, 0, 0, false⟩
def aPrefixed (p : Word) (m : Mask) : Issue := ⟨2, 0x10000, 0x10004, 0x10008, 0, some p, m, none, 0, 0, false⟩
def boxS (w : Warp) (b : Block) (l : Launch) (m : Mask) : State := (box w b l).setCur (some (aWord m))
def warpS (m : Mask) : State := boxS (aWarp false) (aBlock false) (aLaunch false) m
def tileS : State := boxS (aWarp true) (aBlock true) (aLaunch true) 1
/-- No lane of the warp is in M: the mask predicate is p0, negated. -/
def emptyS (m : Mask) : State := (box (aWarp false) (aBlock false) (aLaunch false)).setCur (some (aPrefixed 0xE0100000 m))

/-- What the instruction of a latched state works with. -/
def ctxOf (i : Instr) (s : State) : Ctx :=
  match front i s with
  | .go c _ => c
  | .stop _ => ⟨0, aWord 0, aWarp false, ⟨0, 0, 0, 0, 0, 0, 0, false⟩, LaunchRec.small false, pxAbsent, 0, i.row, [], 0⟩
theorem issues_of {i : Instr} {s : State} (h : (match front i s with
    | .go _ _ => true
    | .stop _ => false) = true) : Issues i s (ctxOf i s) := by
  unfold ctxOf
  cases hf : front i s with
  | go c t => exact (issues_of_front hf).1
  | stop t => rw [hf] at h; cases h

theorem stands_none {w : Warp} {st : EntSt} (h : w.frontier.all (fun e => decide (e.st ≠ st)) = true) (l : Nat) (p : DWord) : ¬w.stands l p st := by
  rintro ⟨e, he, _, _, hs⟩
  have := List.all_eq_true.1 h e he
  simp at this
  exact this hs

/-- Lane 0 alone, whose pair v2:v3 points to the start of the own scratchpad. -/
def padWarp : Warp := { aWarp false with regs := [(192, 0x01F00000)] }
def padS : State := boxS padWarp (aBlock false) (aLaunch false) 1
/-- Little-endian numbers in a scratchpad: offset, bytes, value. -/
def padOf (xs : List (Nat × Nat × Nat)) : KMap Byte :=
  xs.foldl (fun m x => ssets 0 m ((List.range x.2.1).zip (bytesLE x.2.1 x.2.2) |>.map (fun e => (x.1 + e.1, e.2)))) []
def recS (xs : List (Nat × Nat × Nat)) : State := boxS padWarp { aBlock false with spad := padOf xs } (aLaunch false) 1

theorem inScratch_one {c : Ctx} {addr : Nat → DWord} {n : Nat} (hm : c.m = 1)
    (h : ((addr 0).toNat / 2 ^ 48 = 0x1F0 ∧ (addr 0).toNat % n = 0 ∧ (addr 0).toNat % 2 ^ 48 + n ≤ c.lr.spad)) : InScratch c addr n := by
  intro l hl
  have h0 : l = 0 := by
    rw [hm] at hl
    have hlt : l < 64 := BitVec.lt_of_getLsbD hl
    by_contra hne
    have h1 : (1 : BitVec 64).getLsbD l = decide (l = 0) := by
      simp [BitVec.getLsbD_one]
    rw [h1] at hl; simp [hne] at hl
  subst h0; exact h

/-- A copy record at 0 with its two tensors: one element of four bytes each. -/
def copyS : State := recS [(0, 8, 0x01F0000000000080), (8, 8, 0x01F0000000000100), (0x18, 2, 1), (0x88, 4, 0x104), (0x90, 4, 1), (0x94, 4, 1),
  (0x98, 4, 1), (0x9C, 4, 1), (0xA0, 4, 1), (0x108, 4, 0x104), (0x110, 4, 1), (0x114, 4, 1), (0x118, 4, 1), (0x11C, 4, 1), (0x120, 4, 1)]

/-- What a reading gave. -/
def valOf {α : Type} (d : α) (r : Rd α) : α := match r.2 with
  | .ok a => a
  | .error _ => d
theorem rd_ok {α : Type} {r : Rd α} (d : α) (h : r.2.isOk = true) : r = (r.1, .ok (valOf d r)) := by
  obtain ⟨s, e⟩ := r
  cases e with
  | ok a => rfl
  | error e => cases h
theorem some_ok {α : Type} {o : Option α} (d : α) (h : o.isSome = true) : o = some (o.getD d) := by
  cases o with
  | some a => rfl
  | none => cases h

def copyC : Ctx := ctxOf (.bcopy 2 4) copyS
def copyRd : Rd (Cmd × Bool) := (copyS.setWarp copyC.u copyC.w).readCopy (.warp copyC) (copyC.rd64 (2 : BitVec 7).toNat copyC.low).toNat
def copyX : Cmd × Bool := valOf (Cmd.blank, false) copyRd
def copyWd : Rd Unit := copyRd.1.wordChecks copyC.p copyC.p.places copyX.1.words
def copyGo : Option (State × Nat) := (copyWd.1.dropAnswers copyC).startCmd (copyC.p.core / 192) (copyC.ownCmd copyX.1) copyX.2

theorem t1 : copyRd.2.isOk = true := by decide +kernel
theorem t2 : copyWd.2.isOk = true := by decide +kernel
theorem t3 : copyGo.isSome = true := by decide +kernel

theorem row_small (i : Instr) : (i.row.uses.all fun u => match u with
    | .reg _ f n _ _ => decide (f < 128) && (n == 1 || n == 2 || n == 4)
    | .pred _ _ _ _ => true) = true := by
  cases i <;> first
    | rfl
    | (rename_i a; have := a.isLt; simp [Instr.row]; omega)
    | (rename_i a b; have := a.isLt; have := b.isLt; simp [Instr.row]; omega)
    | (rename_i a b c; have := a.isLt; have := b.isLt; have := c.isLt; simp [Instr.row]; omega)
    | (rename_i a b c d; have := b.isLt; have := c.isLt; have := d.isLt; simp [Instr.row]; omega)
    | (rename_i a b c d e; have := a.isLt; have := b.isLt; have := c.isLt;  have := d.isLt; have := e.isLt;  simp [Instr.row]; omega)

theorem witness_pacing :
    (∃ s c, Issues .nop s c) ∧
    (∃ n s c, Issues (.wbase n) s c ∧ 32 * n.toNat < c.w.space) ∧
    (∃ n s c, Issues (.wbase n) s c ∧ c.w.space ≤ 32 * n.toNat ∧ c.lr.trapentry ≠ 0 ∧ c.w.hlanes = 0) ∧
    (∃ s c, Issues (.sleep 0) s c) ∧
    (∃ n s c, Issues (.sleep n) s c ∧ n ≠ 0) ∧
    (∃ s c, Issues .yield s c) ∧
    (∃ (p : Instr × Bool) (s : _) (c : _), (p = (.lnon, true) ∨ p = (.lnoff, false)) ∧ Issues p.1 s c) :=
  ⟨⟨warpS (-1), _, issues_of (by decide)⟩,
    ⟨3, warpS (-1), _, issues_of (by decide), by decide⟩,
    ⟨4, warpS (-1), _, issues_of (by decide), by decide, by decide, by decide⟩,
    ⟨warpS (-1), _, issues_of (by decide)⟩,
    ⟨1, warpS (-1), _, issues_of (by decide), by decide⟩,
    ⟨warpS (-1), _, issues_of (by decide)⟩,
    ⟨(.lnon, true), warpS (-1), _, by decide, issues_of (by decide)⟩⟩

theorem witness_joinAndExit :
    (∃ s c, Issues .join s c ∧ c.w.queues = [] ∧ c.m = c.w.live ∧ c.is.mask = c.m) ∧
    (∃ s c k p, Issues .join s c ∧ c.w.queues = [] ∧ c.w.stands k p .ready ∧ c.m.getLsbD k = false ∧ (∀ p, ¬c.w.stands k p (.waiting .join))) ∧
    (∃ s c, Issues .exit s c ∧ c.w.passFaults = []) :=
  ⟨⟨warpS (-1), _, issues_of (by decide), by decide, rfl, rfl⟩,
    ⟨warpS 1, _, 1, 0x10000, issues_of (by decide), by decide, ⟨_, List.mem_cons_self, by decide, rfl, rfl⟩, by decide, fun p => stands_none (by
      decide) 1 p⟩,
    ⟨warpS (-1), _, issues_of (by decide), by decide⟩⟩

theorem witness_trapsAndReturns :
    (∃ code s c, Issues (.trap code) s c ∧ c.m ≠ 0 ∧ c.lr.trapentry ≠ 0 ∧ c.w.hlanes = 0) ∧
    (∃ s c, Issues .brk s c ∧ (s.part c.p.part).held.contains c.p.ctx = false ∧ c.m ≠ 0 ∧ c.lr.trapentry ≠ 0 ∧ c.w.hlanes = 0) ∧
    (∃ s c, Issues .eret s c ∧ c.m ≠ 0 ∧ (∀ l, c.m.getLsbD l = true → c.w.hlanes.getLsbD l = true) ∧ (∀ l p, ¬c.w.stands l p (.parked .handler))) :=
  ⟨⟨0, warpS (-1), _, issues_of (by decide), by decide, by decide, by decide⟩,
    ⟨warpS (-1), _, issues_of (by decide), by decide, by decide, by decide, by decide⟩,
    ⟨boxS { aWarp false with hlanes := 1 } (aBlock false) (aLaunch false) 1, _, issues_of (by decide), by decide, fun _ h => h, fun l p =>
      stands_none (by decide) l p⟩⟩

theorem witness_fences :
    (∃ (e : BitVec 1) (sc : BitVec 3) (s : _) (c : _), Issues (.fence 0 e sc) s c ∧ (e = 1 → s.enginesDone c.u = true) ∧ c.w.queues = [] ∧
      s.releaseMet c.u c.p.view sc.toNat = true) ∧
    (∃ (e : BitVec 1) (sc : BitVec 3) (s : _) (c : _), Issues (.fence 1 e sc) s c ∧ (e = 1 → s.enginesDone c.u = true)) ∧
    (∃ s c, Issues .sdrain s c) :=
  ⟨⟨1, 5, warpS (-1), _, issues_of (by decide), by decide, by decide, by decide⟩,
    ⟨1, 5, warpS (-1), _, issues_of (by decide), by decide⟩,
    ⟨warpS (-1), _, issues_of (by decide)⟩⟩

theorem witness_blockEnd :
    ∃ code s c b, Issues (.bexit code) s c ∧ c.lr.erraddr = 0 ∧ kget s.blocks c.p.blk = some b :=
    ⟨0, warpS (-1), _, _, issues_of (by decide), by decide, rfl⟩

theorem witness_prefetches :
    ∃ (b : BitVec 7) (a : BitVec 7) (i : Instr) (s : _) (c : _), (i = .pfL1 b a ∨ i = .pfL2 b a) ∧ Issues i s c ∧ s.rl = [] :=
    ⟨2, 2, _, warpS (-1), _, Or.inl rfl, issues_of (by decide), by decide⟩

theorem witness_specialRegisters :
    (∃ (i : BitVec 7) (d : BitVec 7) (s : _) (c : _), Issues (.mfs i d) s c) ∧
    (∃ (i : BitVec 7) (a : BitVec 7) (s : _) (c : _), Issues (.mts i a) s c) :=
  ⟨⟨11, 2, warpS (-1), _, issues_of (by decide)⟩,
    ⟨32, 2, warpS (-1), _, issues_of (by decide)⟩⟩

theorem witness_lineageInstructions :
    (∃ (a : BitVec 7) (d : BitVec 7) (s : _) (c : _), Issues (.untag a d) s c ∧ c.m ≠ 0) ∧
    (∃ (a : BitVec 7) (d : BitVec 7) (s : _) (c : _), Issues (.lnq a d) s c) ∧
    (∃ (c : Ctx), c.w.tile = true) ∧
    (∃ (c : Ctx) (a : _), c.w.tile = false ∧ kget c.w.lin (c.w.wbase + a) = none) ∧
    (∃ (i : BitVec 7) (a : BitVec 7) (s : _) (c : _), Issues (.lnkill i a) s c ∧ (c.m = 0 ∨ c.w.tile = true)) ∧
    (∃ (a : BitVec 7) (s : _) (c : _), Issues (.lnkill 0 a) s c ∧ c.m ≠ 0 ∧ c.w.tile = false) :=
  ⟨⟨2, 3, warpS (-1), _, issues_of (by decide), by decide⟩,
    ⟨2, 3, warpS (-1), _, issues_of (by decide)⟩,
    ⟨ctxOf .nop tileS, by decide⟩,
    ⟨ctxOf .nop (warpS 1), 2, by decide, by decide⟩,
    ⟨0, 0, tileS, _, issues_of (by decide), by decide⟩,
    ⟨0, warpS (-1), _, issues_of (by decide), by decide, by decide⟩⟩

theorem witness_phaseBarriers :
    (∃ (b : BitVec 7) (a : BitVec 7) (s : _) (c : _), Issues (.pbarr b a) s c ∧ c.w.queues = [] ∧ s.releaseMet c.u c.p.view (scopeOf c.px 1) = true ∧
      c.lr.record = false ∧ c.lr.replay = false ∧ s.rl = [] ∧ InScratch { c with m := laneBit c.low } (fun l => c.rd64 a.toNat l) 4 ∧ (∀ x, kget
      s.blocks c.p.blk = some x → ∀ k, k < 4 → c.w.regLevel (c.w.wbase + b.toNat) ≤ x.levAt ((c.rd64 a.toNat c.low).toNat % 2 ^ 48 + k))) ∧
    (∃ (i : BitVec 7) (a : BitVec 7) (s : _) (c : _), Issues (.pbwait i a) s c ∧ s.inTx c.u = false ∧ s.rl = [] ∧ InScratch c (fun l => c.rd64
      a.toNat l) 4) :=
  ⟨⟨4, 2, padS, _, issues_of (by decide), by decide, by decide, by decide, by decide, by decide, inScratch_one (by decide) (by decide), fun _ _ _ _
      => Nat.zero_le _⟩,
    ⟨1, 2, padS, _, issues_of (by decide), by decide, by decide, inScratch_one (by decide) (by decide)⟩⟩


/-- The whole box: every lane of the warp, or lane 0 of the tile context. -/
def wholeS (i : Instr) : State := let tile := decide (i.row.tile = .only)
  boxS (aWarp tile) (aBlock tile) (aLaunch tile) (if tile then 1 else -1)

theorem window_fits (i : Instr) (tile : Bool) (h : i.legalWord pxAbsent = true) : windowBad (aWarp tile) i.row pxAbsent = none := by
  have hs := List.all_eq_true.1 (row_small i)
  have ha : i.row.uses.all Use.aligned = true := by
    simp only [Instr.legalWord, Bool.and_eq_true] at h; exact h.1.1.2
  have ha := List.all_eq_true.1 ha
  unfold windowBad
  rw [List.find?_eq_none.2, Option.map_none]
  intro x hx
  have hsp : (aWarp tile).space = 128 := by cases tile <;> rfl
  have hb : (aWarp tile).wbase = 0 := rfl
  rw [hsp, hb]
  unfold regUses at hx
  simp only [pxAbsent, Bool.false_and, Bool.false_eq_true, if_false, List.append_nil, List.mem_append, List.mem_filter, List.mem_filterMap] at hx
  have : ∃ u ∈ i.row.uses, ∃ pos f n rd wr, u = .reg pos f n rd wr ∧ x = (pos, f, n) := by
    rcases hx with ⟨⟨u, hu, he⟩, _⟩ | ⟨⟨u, hu, he⟩, _⟩ <;>
    · cases u with
      | reg pos f n rd wr => exact ⟨_, hu, pos, f, n, rd, wr, rfl, by simpa using he.symm⟩
      | pred => simp at he
  obtain ⟨u, hu, pos, f, n, rd, wr, rfl, rfl⟩ := this
  have h1 := hs _ hu
  have h2 := ha _ hu
  simp [Use.aligned] at h1 h2 ⊢
  obtain ⟨hl, (rfl | rfl) | rfl⟩ := h1 <;> omega

/-- Every word whose fields are legal has a state in which it issues, with lanes in M, and from which a trap is taken. -/
theorem witness_issues (i : Instr) (h : i.legalWord pxAbsent = true) :
    ∃ s c, Issues i s c ∧ c.m ≠ 0 ∧ c.lr.trapentry ≠ 0 ∧ c.w.hlanes = 0 ∧ c.w.queues = [] ∧ s.releaseMet c.u c.p.view 4 = true := by
  have hc : ∀ tile, i.legalOn tile = true → wholeS i = boxS (aWarp tile) (aBlock tile) (aLaunch tile) (if tile then 1 else -1) →
      ∃ s c, Issues i s c ∧ c.m ≠ 0 ∧ c.lr.trapentry ≠ 0 ∧ c.w.hlanes = 0 ∧ c.w.queues = [] ∧ s.releaseMet c.u c.p.view 4 = true := by
    intro tile hl hs
    have hw := window_fits i tile h
    have hf : ∃ c t, front i (boxS (aWarp tile) (aBlock tile) (aLaunch tile) (if tile then 1 else -1)) = .go c t ∧ c.m ≠ 0 ∧
        c.lr.trapentry ≠ 0 ∧ c.w.hlanes = 0 ∧ c.w.queues = [] ∧
        (boxS (aWarp tile) (aBlock tile) (aLaunch tile) (if tile then 1 else -1)).releaseMet c.u c.p.view 4 = true := by
      cases tile
      all_goals
        refine ⟨_, _, front_of_issues (c := ⟨2, _, { aWarp _ with gather := 1, haz := [] }, _, _, pxAbsent, execMask (aWarp _) pxAbsent _, i.row, [], 0⟩) ⟨rfl, rfl,
          ⟨_, rfl, rfl, hl, hw, rfl, (0, []), rfl, rfl, rfl⟩, rfl, rfl, ?_, rfl, rfl, ?_, h, ?_, rfl⟩, ?_, ?_, ?_, ?_, ?_⟩
        all_goals first | (dsimp only; decide) | exact fun h => nomatch h | exact fun _ => rfl | rfl
    obtain ⟨c, t, hf, hr⟩ := hf
    exact ⟨_, c, (issues_of_front hf).1, hr⟩
  by_cases ht : i.row.tile = .only
  · exact hc true (by simp [Instr.legalOn, ht]) (by simp [wholeS, ht])
  · exact hc false (by cases hr : i.row.tile <;> simp_all [Instr.legalOn]) (by simp [wholeS, ht])

/-- Whether an instruction passes the shared front end, and what it then works with meets a test. -/
def ready (i : Instr) (s : State) (p : Ctx → Bool) : Bool := match front i s with
  | .go c _ => p c
  | .stop _ => false
theorem of_ready {i : Instr} {s : State} {p : Ctx → Bool} (h : ready i s p = true) : ∃ c, Issues i s c ∧ p c = true := by
  unfold ready at h
  cases hf : front i s with
  | go c t => rw [hf] at h; exact ⟨c, (issues_of_front hf).1, h⟩
  | stop t => rw [hf] at h; cases h

/-- Lane 0 alone is in M, and its address lies in its own scratchpad. -/
def onePad (c : Ctx) (addr : Nat → DWord) (n : Nat) : Bool :=
  c.m == 1 && decide ((addr 0).toNat / 2 ^ 48 = 0x1F0) && decide ((addr 0).toNat % n = 0) && decide ((addr 0).toNat % 2 ^ 48 + n ≤ c.lr.spad)
theorem of_onePad {c : Ctx} {addr : Nat → DWord} {n : Nat} (h : onePad c addr n = true) : c.m = 1 ∧ InScratch c addr n := by
  simp only [onePad, Bool.and_eq_true, beq_iff_eq, decide_eq_true_eq] at h
  exact ⟨h.1.1.1, inScratch_one h.1.1.1 ⟨h.1.1.2, h.1.2, h.2⟩⟩

def ea (c : Ctx) (l : Nat) : DWord := c.rd64 2 l + (c.rd 4 l).signExtend 64
def ei (c : Ctx) (l : Nat) : DWord := c.rd64 2 l + (0 : BitVec 12).signExtend 64
def e0 (c : Ctx) (l : Nat) : DWord := c.rd64 2 l

/-- Each load with the form it takes. -/
def someLoads : List (Instr × LoadForm) :=
  [(.ldSb 4 2 8, ⟨ea, 1, false, sextBytes 1, none, none⟩), (.ldUb 4 2 8, ⟨ea, 1, false, zextBytes, none, none⟩),
   (.ldSh 4 2 8, ⟨ea, 2, false, sextBytes 2, none, none⟩), (.ldUh 4 2 8, ⟨ea, 2, false, zextBytes, none, none⟩),
   (.ldW 4 2 8, ⟨ea, 4, false, wordsOf, none, none⟩), (.ldD 4 2 8, ⟨ea, 8, false, wordsOf, none, none⟩),
   (.ldQ 4 2 8, ⟨ea, 16, false, wordsOf, none, none⟩), (.ldiW 0 2 8, ⟨ei, 4, false, wordsOf, none, none⟩),
   (.ldiD 0 2 8, ⟨ei, 8, false, wordsOf, none, none⟩), (.ldiQ 0 2 8, ⟨ei, 16, false, wordsOf, none, none⟩),
   (.ldmW 1 2 8, ⟨e0, 4, true, wordsOf, none, some (2, 1)⟩), (.ldmD 1 2 8, ⟨e0, 8, true, wordsOf, none, some (2, 1)⟩),
   (.ldmQ 1 2 8, ⟨e0, 16, true, wordsOf, none, some (2, 1)⟩), (.ldacqW 1 5 2 8, ⟨e0, 4, true, wordsOf, some (5, true), none⟩),
   (.ldacqD 0 3 2 8, ⟨e0, 8, true, wordsOf, some (3, false), none⟩)]
theorem loads_ready : someLoads.all (fun e => ready e.1 padS (fun c => onePad c (e.2.addr c) e.2.bytes && c.w.queues.isEmpty &&
    (e.2.checks c padS).2.all (·.isOk) && (e.2.reads c padS).2.all (fun x => x.2 == .bytes (List.replicate e.2.bytes 0)))) = true := by
  decide +kernel
theorem witness_loads : ∀ e ∈ someLoads, ∃ (s : State) (c : Ctx) (b : Nat → List Byte), Issues e.1 s c ∧ c.m = 1 ∧ InScratch c (e.2.addr c) e.2.bytes ∧ s.rl = [] ∧
    c.w.queues = [] ∧ (∀ x ∈ (e.2.checks c s).2, x.isOk = true) ∧ (∀ x ∈ (e.2.reads c s).2, x.2 = .bytes (b x.1.lane)) ∧
    ∀ l, c.m.getLsbD l = true → (b l).length = e.2.bytes := by
  intro e he
  obtain ⟨c, hc, h⟩ := of_ready (List.all_eq_true.1 loads_ready e he)
  simp only [Bool.and_eq_true, List.isEmpty_iff, List.all_eq_true, beq_iff_eq] at h
  obtain ⟨hm, hi⟩ := of_onePad h.1.1.1
  exact ⟨padS, c, fun _ => List.replicate e.2.bytes 0, hc, hm, hi, rfl, h.1.1.2, h.1.2, h.2, fun _ _ => List.length_replicate⟩

/-- Each store with the form it takes and the words it stores. -/
def someStores : List (Instr × Nat × StoreForm) :=
  [(.stB 4 2 8, 1, ⟨ea, 1, false, dataOf 8 1, none, none⟩), (.stH 4 2 8, 1, ⟨ea, 2, false, dataOf 8 2, none, none⟩),
   (.stW 4 2 8, 1, ⟨ea, 4, false, dataOf 8 4, none, none⟩), (.stD 4 2 8, 2, ⟨ea, 8, false, dataOf 8 8, none, none⟩),
   (.stQ 4 2 8, 4, ⟨ea, 16, false, dataOf 8 16, none, none⟩), (.stiW 0 2 8, 1, ⟨ei, 4, false, dataOf 8 4, none, none⟩),
   (.stiD 0 2 8, 2, ⟨ei, 8, false, dataOf 8 8, none, none⟩), (.stiQ 0 2 8, 4, ⟨ei, 16, false, dataOf 8 16, none, none⟩),
   (.stmW 1 2 8, 1, ⟨e0, 4, true, dataOf 8 4, none, some (2, 1)⟩), (.stmD 1 2 8, 2, ⟨e0, 8, true, dataOf 8 8, none, some (2, 1)⟩),
   (.stmQ 1 2 8, 4, ⟨e0, 16, true, dataOf 8 16, none, some (2, 1)⟩), (.strelW 5 2 8, 1, ⟨e0, 4, true, dataOf 8 4, some 5, none⟩),
   (.strelD 3 2 8, 2, ⟨e0, 8, true, dataOf 8 8, some 3, none⟩)]
/-- The bytes of the first element a check let pass. -/
def firstBytes (r : List LaneRes) : List PByte := match r with
  | x :: _ => (match x.r with
    | .ok bs => bs
    | _ => [])
  | [] => []
theorem stores_ready : someStores.all (fun e => ready e.1 padS (fun c => onePad c (e.2.2.addr c) e.2.2.bytes &&
    dataLevel 8 e.2.1 c == 0 &&
    (e.2.2.checks (dataLevel 8 e.2.1) c padS).2.all (fun x =>
      x.r == .ok (firstBytes (e.2.2.checks (dataLevel 8 e.2.1) c padS).2)) &&
    (firstBytes (e.2.2.checks (dataLevel 8 e.2.1) c padS).2).all (fun y => y.cls != 4))) = true := by
  decide +kernel
theorem witness_stores : ∀ e ∈ someStores, ∃ (s : State) (c : Ctx) (b : Nat → List PByte), Issues e.1 s c ∧ c.m = 1 ∧
    InScratch c (e.2.2.addr c) e.2.2.bytes ∧ s.rl = [] ∧ (∀ x, kget s.blocks c.p.blk = some x → ∀ l, c.m.getLsbD l = true →
      ∀ k, k < e.2.2.bytes → dataLevel 8 e.2.1 c ≤ x.levAt ((e.2.2.addr c l).toNat % 2 ^ 48 + k)) ∧
    ∀ x ∈ (e.2.2.checks (dataLevel 8 e.2.1) c s).2, x.r = .ok (b x.lane) ∧ ∀ y ∈ b x.lane, y.cls ≠ 4 := by
  intro e he
  obtain ⟨c, hc, h⟩ := of_ready (List.all_eq_true.1 stores_ready e he)
  simp only [Bool.and_eq_true, List.all_eq_true, beq_iff_eq, bne_iff_ne] at h
  obtain ⟨hm, hi⟩ := of_onePad h.1.1.1
  exact ⟨padS, c, fun _ => firstBytes (e.2.2.checks (dataLevel 8 e.2.1) c padS).2, hc, hm, hi, rfl,
    fun _ _ _ _ _ _ => by rw [h.1.1.2]; exact Nat.zero_le _, fun x hx => ⟨h.1.2 x hx, h.2⟩⟩

def formW (g : Word → Word → Word) : AtomForm :=
  ⟨4, fun c l old => (g (BitVec.ofNat 32 old) (c.rd 8 l)).toNat, fun _ _ _ => 0, dataOf 8 4⟩
def formD (g : DWord → DWord → DWord) : AtomForm :=
  ⟨8, fun c l old => (g (BitVec.ofNat 64 old) (c.rd64 8 l)).toNat, fun _ _ _ => 0, dataOf 8 8⟩
/-- Each atomic with the form it takes and the words of its operand. -/
def someAtomics : List (Instr × Nat × AtomForm) :=
  [(.atomAddW 8 2 6, 1, formW (· + ·)), (.atomMinSw 8 2 6, 1, formW (fun o v => if v.slt o then v else o)),
   (.atomMinUw 8 2 6, 1, formW (fun o v => if v < o then v else o)), (.atomMaxSw 8 2 6, 1, formW (fun o v => if o.slt v then v else o)),
   (.atomMaxUw 8 2 6, 1, formW (fun o v => if o < v then v else o)), (.atomAndW 8 2 6, 1, formW (· &&& ·)),
   (.atomOrW 8 2 6, 1, formW (· ||| ·)), (.atomXorW 8 2 6, 1, formW (· ^^^ ·)), (.atomExchW 8 2 6, 1, formW (fun _ v => v)),
   (.atomCasW 8 2 6, 1, ⟨4, fun c l old => if BitVec.ofNat 32 old = c.fourth 6 l then (c.rd 8 l).toNat else old, fun _ _ _ => 0,
     fun c l => dataOf 8 4 c l ++ bytesLE 4 (c.fourth 6 l).toNat⟩),
   (.atomFaddF32 8 2 6, 1, ⟨4, fun c l old => (addF f32 .rne false old (c.rd 8 l).toNat).1,
     fun c l old => (addF f32 .rne false old (c.rd 8 l).toNat).2, dataOf 8 4⟩),
   (.atomAddD 8 2 6, 2, formD (· + ·)), (.atomExchD 8 2 6, 2, formD (fun _ v => v)),
   (.atomCasD 8 2 6, 2, ⟨8, fun c l old => if BitVec.ofNat 64 old = c.fourth64 6 l then (c.rd64 8 l).toNat else old, fun _ _ _ => 0,
     fun c l => dataOf 8 8 c l ++ bytesLE 8 (c.fourth64 6 l).toNat⟩)]
theorem atomics_ready : someAtomics.all (fun e => ready e.1 padS (fun c => onePad c (fun l => c.rd64 2 l) e.2.2.bytes && c.w.queues.isEmpty &&
    !c.lr.record && !c.lr.replay && atomLevel 8 e.2.1 c == 0 &&
    (let k := e.2.2.checks 2 (atomLevel 8 e.2.1) c padS
     k.2.all (fun x => x.isOk && !isPeer x) && decide ((kget k.1.launches c.p.launch).map (·.lr.replay) = some false) &&
     (k.1.atomLanes c e.2.2 k.2).2.all (fun x => x.2.1 == List.replicate e.2.2.bytes 0)))) = true := by
  decide +kernel
theorem witness_atomics : ∀ e ∈ someAtomics, ∃ (s : State) (c : Ctx) (old : Nat → List Byte), Issues e.1 s c ∧ c.m = 1 ∧ c.w.queues = [] ∧
    c.lr.record = false ∧ c.lr.replay = false ∧ InScratch c (fun l => c.rd64 2 l) e.2.2.bytes ∧ s.rl = [] ∧
    (∀ x, kget s.blocks c.p.blk = some x → ∀ l, c.m.getLsbD l = true → ∀ k, k < e.2.2.bytes →
      atomLevel 8 e.2.1 c ≤ x.levAt ((c.rd64 2 l).toNat % 2 ^ 48 + k)) ∧
    (∀ l, kget (e.2.2.checks 2 (atomLevel 8 e.2.1) c s).1.launches c.p.launch = some l → l.lr.replay = false) ∧
    (∀ x ∈ (e.2.2.checks 2 (atomLevel 8 e.2.1) c s).2, x.isOk = true ∧ isPeer x = false) ∧
    (∀ x ∈ ((e.2.2.checks 2 (atomLevel 8 e.2.1) c s).1.atomLanes c e.2.2 (e.2.2.checks 2 (atomLevel 8 e.2.1) c s).2).2, x.2.1 = old x.1.lane) ∧
    ∀ l, c.m.getLsbD l = true → (old l).length = e.2.2.bytes := by
  intro e he
  obtain ⟨c, hc, h⟩ := of_ready (List.all_eq_true.1 atomics_ready e he)
  simp only [Bool.and_eq_true, List.all_eq_true, beq_iff_eq, List.isEmpty_iff, Bool.not_eq_true', decide_eq_true_eq] at h
  obtain ⟨⟨⟨⟨⟨h1, h2⟩, h3⟩, h4⟩, h5⟩, ⟨h6, h7⟩, h8⟩ := h
  obtain ⟨hm, hi⟩ := of_onePad h1
  refine ⟨padS, c, fun _ => List.replicate e.2.2.bytes 0, hc, hm, h2, h3, h4, hi, rfl,
    fun _ _ _ _ _ _ => by rw [h5]; exact Nat.zero_le _, fun l hl => ?_, h6, h8, fun _ _ => List.length_replicate⟩
  rw [hl] at h7; simpa using h7

/-- Registers of lane 0. -/
def regsOf (xs : List (Nat × Word)) : KMap Word := xs.map (fun x => (64 * x.1, x.2))
/-- Lane 0 of a warp with registers. -/
def laneS (xs : List (Nat × Word)) : State := boxS { aWarp false with regs := regsOf xs } (aBlock false) (aLaunch false) 1
/-- A tile context with registers, its block as given. -/
def tileOf (xs : List (Nat × Word)) (f : Block → Block) : State := boxS { aWarp true with regs := regsOf xs } (f (aBlock true)) (aLaunch true) 1
/-- A lane of the mask 1 is lane 0. -/
theorem lane_of_one {c : Ctx} {p : Nat → Prop} (hm : c.m = 1) (h : p 0) : ∀ l, c.m.getLsbD l = true → p l := by
  intro l hl
  rw [hm, BitVec.ofNat_eq_ofNat, BitVec.getLsbD_one] at hl
  have h0 : l = 0 := by simpa using hl
  exact h0 ▸ h

theorem witness_branching :
    (∀ i ∈ [Instr.bra 5, .call 5 8], ∃ s c, Issues i s c ∧ c.m = -1) ∧
    (∀ i ∈ [Instr.jmp 4, .callr 4 8, .ret 4], ∃ s c, Issues i s c ∧
      ∀ l, c.m.getLsbD l = true → (c.rd64 (4 : BitVec 7).toNat l).toNat % 4 = 0 ∧ (c.rd64 (4 : BitVec 7).toNat l).toNat < 2 ^ 57) := by
  refine ⟨fun i hi => ?_, fun i hi => ?_⟩
  · have h : [Instr.bra 5, .call 5 8].all (fun i => ready i (warpS (-1)) (fun c => c.m == -1)) = true := by decide
    obtain ⟨c, hc, h⟩ := of_ready (List.all_eq_true.1 h i hi)
    exact ⟨_, c, hc, by simpa using h⟩
  · have h : [Instr.jmp 4, .callr 4 8, .ret 4].all (fun i => ready i (laneS [(4, 0xFFFFFFFC), (5, 0x1FFFFFF)])
        (fun c => c.m == 1 && c.rd64 4 0 == 0x1FFFFFFFFFFFFFC)) = true := by decide
    obtain ⟨c, hc, h⟩ := of_ready (List.all_eq_true.1 h i hi)
    simp only [Bool.and_eq_true, beq_iff_eq] at h
    refine ⟨_, c, hc, lane_of_one h.1 ?_⟩
    have h2 : c.rd64 (4 : BitVec 7).toNat 0 = 0x1FFFFFFFFFFFFFC := h.2
    rw [h2]; decide

/-! Named barriers: too few arrivals, enough of them; and what is refused: a barrier past BARS, a count of 0, one above 4096. -/
theorem stands_one {c : Ctx} (hm : c.m = 1) (h : ∃ e ∈ c.w.frontier, e.mask.getLsbD 0 = true ∧ e.pc = c.is.pc ∧ e.st = .ready) :
    ∀ l, c.m.getLsbD l = true → c.w.stands l c.is.pc .ready := lane_of_one hm h
theorem witness_namedBarriers :
    (∃ i, i = Instr.barWait 4 2 ∧ ∃ s c b, Issues i s c ∧ (∀ l, c.m.getLsbD l = true → c.w.stands l c.is.pc .ready) ∧ c.w.queues = [] ∧
      s.releaseMet c.u c.p.view c.lr.blockScope = true ∧ s.inTx c.u = false ∧ kget s.blocks c.p.blk = some b ∧ (c.rd 2 c.low).toNat < c.lr.bars ∧
      (c.rd 4 c.low).toNat = 4096 ∧ kget b.bars (c.rd 2 c.low).toNat = none ∧ (lanesOf c.m).length < (c.rd 4 c.low).toNat) ∧
    (∃ i, i = Instr.barArr 4 2 ∧ ∃ s c b, Issues i s c ∧ (∀ l, c.m.getLsbD l = true → c.w.stands l c.is.pc .ready) ∧ c.w.queues = [] ∧
      s.releaseMet c.u c.p.view c.lr.blockScope = true ∧ s.inTx c.u = false ∧ kget s.blocks c.p.blk = some b ∧ (c.rd 2 c.low).toNat < c.lr.bars ∧
      (c.rd 4 c.low).toNat = 1 ∧ kget b.bars (c.rd 2 c.low).toNat = none ∧ (c.rd 4 c.low).toNat ≤ (lanesOf c.m).length) ∧
    (∃ i, i = Instr.barSync 2 ∧ ∃ s c b, Issues i s c ∧ (∀ l, c.m.getLsbD l = true → c.w.stands l c.is.pc .ready) ∧ c.w.queues = [] ∧
      s.releaseMet c.u c.p.view c.lr.blockScope = true ∧ s.inTx c.u = false ∧ kget s.blocks c.p.blk = some b ∧ (c.rd 2 c.low).toNat < c.lr.bars ∧
      (lanesOf c.m).length < s.liveThreads b) ∧
    (∀ e ∈ [(Instr.barArr 4 2, [(2, (16 : Word)), (4, 1)]), (.barWait 4 2, [(4, 0)]), (.barWait 4 2, [(4, 4097)]), (.barSync 2, [(2, 16)])],
      ∃ s c, Issues e.1 s c ∧ c.lr.trapentry ≠ 0 ∧ c.w.hlanes = 0 ∧
        (c.lr.bars ≤ (c.rd 2 c.low).toNat ∨ (c.rd 4 c.low).toNat = 0 ∨ 4096 < (c.rd 4 c.low).toNat)) := by
  refine ⟨⟨_, rfl, laneS [(2, 15), (4, 4096)], _, aBlock false, issues_of (by decide), stands_one (by decide) ⟨_, List.mem_cons_self, by decide⟩,
      by decide, by decide, by decide, rfl, by decide, by decide, by decide, by decide⟩,
    ⟨_, rfl, laneS [(4, 1)], _, aBlock false, issues_of (by decide), stands_one (by decide) ⟨_, List.mem_cons_self, by decide⟩,
      by decide, by decide, by decide, rfl, by decide, by decide, by decide, by decide⟩,
    ⟨_, rfl, laneS [], _, aBlock false, issues_of (by decide), stands_one (by decide) ⟨_, List.mem_cons_self, by decide⟩,
      by decide, by decide, by decide, rfl, by decide, by decide⟩, fun e he => ?_⟩
  have h : [(Instr.barArr 4 2, [(2, (16 : Word)), (4, 1)]), (.barWait 4 2, [(4, 0)]), (.barWait 4 2, [(4, 4097)]), (.barSync 2, [(2, 16)])].all
      (fun e => ready e.1 (laneS e.2) (fun c => decide (c.lr.trapentry ≠ 0 ∧ c.w.hlanes = 0 ∧
        (c.lr.bars ≤ (c.rd 2 c.low).toNat ∨ (c.rd 4 c.low).toNat = 0 ∨ 4096 < (c.rd 4 c.low).toNat)))) = true := by decide
  obtain ⟨c, hc, h⟩ := of_ready (List.all_eq_true.1 h e he)
  exact ⟨_, c, hc, by simpa using h⟩

/-- A transaction of the unit. -/
def aTx (st : TxSt) : Tx :=
  { part := 0, ctx := 0, launch := 0, bid := 0, wid := 0, u := 2, lcore := 0, decl := 0, tag := 7, wr := [0x100], rd := [], wrP := [0x100],
    rdP := [], die := 0, handle := 0, seat := 1, beat := 3, start := 0, trapDue := false, acqDue := false, st := st, since := 0, held := [(0x10000, 5)] }
/-- The box with an open transaction. -/
def txS (xs : List (Nat × Word)) (st : TxSt) : State :=
  { boxS { aWarp false with regs := regsOf xs, tx := some 9 } (aBlock false) (aLaunch false) 1 with txs := [(9, aTx st)] }
theorem witness_transactionSync :
    (∀ e ∈ [(Instr.barArr 4 2, [(4, (1 : Word))]), (.barWait 4 2, [(2, 15), (4, 4096)]), (.barSync 2, [(4, 1)])], ∃ s c, Issues e.1 s c ∧ s.inTx c.u = true ∧
      c.lr.trapentry ≠ 0 ∧ c.w.hlanes = 0 ∧ (c.rd 2 c.low).toNat < c.lr.bars ∧ 1 ≤ (c.rd 4 c.low).toNat ∧ (c.rd 4 c.low).toNat ≤ 4096) ∧
    (∃ s c, Issues (.pbwait 1 2) s c ∧ s.inTx c.u = true ∧ c.lr.trapentry ≠ 0 ∧ c.w.hlanes = 0) ∧
    (∃ s c, Issues (.pbarr 4 2) s c ∧ s.inTx c.u = true ∧ c.lr.trapentry ≠ 0 ∧ c.w.hlanes = 0 ∧ c.w.queues = [] ∧
      s.releaseMet c.u c.p.view (scopeOf c.px 1) = true ∧ c.lr.record = false ∧ c.lr.replay = false ∧ s.rl = [] ∧
      InScratch { c with m := laneBit c.low } (fun l => c.rd64 2 l) 4 ∧
      ∀ x, kget s.blocks c.p.blk = some x → ∀ k, k < 4 → c.w.regLevel (c.w.wbase + 4) ≤ x.levAt ((c.rd64 2 c.low).toNat % 2 ^ 48 + k)) := by
  refine ⟨fun e he => ?_, ⟨txS [] .admitted, _, issues_of (by decide), by decide, by decide, by decide⟩,
    ⟨txS [(3, 0x01F00000)] .overrun, _, issues_of (by decide), by decide, by decide, by decide, by decide, by decide, by decide, by decide, rfl,
      inScratch_one (by decide) (by decide), fun _ _ _ _ => Nat.zero_le _⟩⟩
  have h : [(Instr.barArr 4 2, [(4, (1 : Word))]), (.barWait 4 2, [(2, 15), (4, 4096)]), (.barSync 2, [(4, 1)])].all
      (fun e => ready e.1 (txS e.2 .admitted) (fun c => decide ((txS e.2 .admitted).inTx c.u = true ∧ c.lr.trapentry ≠ 0 ∧ c.w.hlanes = 0 ∧
        (c.rd 2 c.low).toNat < c.lr.bars ∧ 1 ≤ (c.rd 4 c.low).toNat ∧ (c.rd 4 c.low).toNat ≤ 4096))) = true := by decide
  obtain ⟨c, hc, h⟩ := of_ready (List.all_eq_true.1 h e he)
  exact ⟨_, c, hc, by simpa using h⟩

/-- A collective record at 0: an all-reduce of two ranks, one element. -/
def collS : State := recS [(4, 2, 2), (8, 8, 0x1000), (0x10, 8, 0x1000), (0x18, 8, 1), (0x20, 8, 0x01F0000000000080)]
def collC : Ctx := ctxOf (.coll 2) collS
def collRd : Rd Cmd := (collS.setWarp collC.u collC.w).readColl (.warp collC) (collC.rd64 (2 : BitVec 7).toNat collC.low).toNat
def collX : Cmd := valOf Cmd.blank collRd
def collWd : Rd Unit := collRd.1.wordChecks collC.p collC.p.places collX.words
def collGo : Option (State × Nat) := (collWd.1.dropAnswers collC).startCmd (collC.p.core / 192) (collC.ownCmd collX) false

theorem rd_unit {r : Rd Unit} (h : r.2.isOk = true) : r = (r.1, .ok ()) := rd_ok () h
theorem rd_pair {α β : Type} {r : Rd (α × β)} (d : α × β) (h : r.2.isOk = true) : r = (r.1, .ok ((valOf d r).1, (valOf d r).2)) := rd_ok d h
theorem some_pair {α β : Type} {o : Option (α × β)} (d : α × β) (h : o.isSome = true) : o = some ((o.getD d).1, (o.getD d).2) := some_ok d h
theorem copy_issues : Issues (.bcopy 2 4) copyS copyC := issues_of (by decide +kernel)
theorem coll_issues : Issues (.coll 2) collS collC := issues_of (by decide +kernel)
theorem copy_ready : copyC.m ≠ 0 ∧ copyC.w.queues = [] ∧ copyS.releaseMet copyC.u copyC.p.view 4 = true := by decide +kernel
theorem coll_ready : collC.m ≠ 0 ∧ collC.w.queues = [] ∧ collS.releaseMet collC.u collC.p.view 4 = true := by decide +kernel
theorem coll_read : collRd.2.isOk = true := by decide +kernel
theorem coll_words : collWd.2.isOk = true := by decide +kernel
theorem coll_starts : collGo.isSome = true := by decide +kernel
theorem witness_engineCommands :
    (∃ (s : State) (die : Nat) (x : Cmd) (lock : Bool) (s' : State) (k : Nat), s.startCmd die x lock = some (s', k)) ∧
    (∃ s c, Issues (.bcopy 2 4) s c ∧ c.m = 0) ∧ (∃ s c, Issues (.coll 2) s c ∧ c.m = 0) ∧
    (∃ (s : State) (c : Ctx) (x : Cmd) (lock : Bool) (s1 s2 s3 : State) (k : Nat), Issues (.bcopy 2 4) s c ∧
      (c.m ≠ 0 ∧ c.w.queues = [] ∧ s.releaseMet c.u c.p.view 4 = true) ∧
      (s.setWarp c.u c.w).readCopy (.warp c) (c.rd64 (2 : BitVec 7).toNat c.low).toNat = (s1, .ok (x, lock)) ∧
      s1.wordChecks c.p c.p.places x.words = (s2, .ok ()) ∧ (s2.dropAnswers c).startCmd (c.p.core / 192) (c.ownCmd x) lock = some (s3, k)) ∧
    (∃ (s : State) (c : Ctx) (x : Cmd) (s1 s2 s3 : State) (k : Nat), Issues (.coll 2) s c ∧
      (c.m ≠ 0 ∧ c.w.queues = [] ∧ s.releaseMet c.u c.p.view 4 = true) ∧
      (s.setWarp c.u c.w).readColl (.warp c) (c.rd64 (2 : BitVec 7).toNat c.low).toNat = (s1, .ok x) ∧
      s1.wordChecks c.p c.p.places x.words = (s2, .ok ()) ∧ (s2.dropAnswers c).startCmd (c.p.core / 192) (c.ownCmd x) false = some (s3, k)) :=
  ⟨⟨State.reset, 0, Cmd.blank, false, _, _, rfl⟩, ⟨emptyS (-1), _, issues_of (by decide), by decide⟩, ⟨emptyS (-1), _, issues_of (by decide), by decide⟩,
    ⟨copyS, copyC, copyX.1, copyX.2, copyRd.1, copyWd.1, (copyGo.getD (State.reset, 0)).1, (copyGo.getD (State.reset, 0)).2,
      copy_issues, copy_ready, rd_pair (r := copyRd) (Cmd.blank, false) t1, rd_unit (r := copyWd) t2, some_pair (o := copyGo) (State.reset, 0) t3⟩,
    ⟨collS, collC, collX, collRd.1, collWd.1, (collGo.getD (State.reset, 0)).1, (collGo.getD (State.reset, 0)).2,
      coll_issues, coll_ready, rd_ok (r := collRd) Cmd.blank coll_read, rd_unit (r := collWd) coll_words, some_pair (o := collGo) (State.reset, 0) coll_starts⟩⟩

/-- A ticket of engine 0 whose command is queued, is done, has failed. -/
def engS (q : List Cmd) (f : List Finished) : State :=
  { laneS [(2, 0x40)] with engines := [(0, { queue := q, run := none, seq := 2, fin := f })] }
theorem witness_engineWaits :
    (∃ s c f, Issues (.ewait 2) s c ∧ s.ticketStatus c.p (c.rd 2 c.low) = (0, f)) ∧
    (∃ s c f, Issues (.ewait 2) s c ∧ s.ticketStatus c.p (c.rd 2 c.low) = (1, f)) ∧
    (∃ s c f, Issues (.ewait 2) s c ∧ s.ticketStatus c.p (c.rd 2 c.low) = (2, some f) ∧ c.lr.trapentry ≠ 0 ∧ c.w.hlanes = 0) ∧
    (∃ s c, Issues (.epoll 2 4) s c ∧ c.m = 0) ∧ (∃ s c, Issues (.epoll 2 4) s c ∧ c.m ≠ 0 ∧ (s.ticketStatus c.p (c.rd 2 c.low)).1 = 2) :=
  ⟨⟨engS [{ Cmd.blank with ticket := 0x40 }] [], _, none, issues_of (by decide), by decide⟩,
    ⟨engS [] [], _, none, issues_of (by decide), by decide⟩,
    ⟨engS [] [⟨0, 0, 0x40, 2, 0x11, 0x8000, 1⟩], _, _, issues_of (by decide), rfl, by decide, by decide⟩,
    ⟨emptyS (-1), _, issues_of (by decide), by decide⟩,
    ⟨engS [] [⟨0, 0, 0x40, 2, 0x11, 0x8000, 1⟩], _, issues_of (by decide), by decide, by decide⟩⟩

theorem witness_nodePosts :
    (∃ s c, Issues (.gpost 4 2) s c ∧ c.m = 0) ∧
    (∀ q ∈ [(256 : Word), 255], ∃ s c, Issues (.gpost 4 2) s c ∧ c.m ≠ 0 ∧ c.w.queues = [] ∧ s.releaseMet c.u c.p.view 4 = true ∧ c.rd 4 c.low = q ∧
      (255 < (c.rd 4 c.low).toNat ∨ s.reg (.q (c.rd 4 c.low).toNat .part) ≠ c.p.part ∨ s.reg (.q (c.rd 4 c.low).toNat .en) ≠ 1) ∧
      c.lr.trapentry ≠ 0 ∧ c.w.hlanes = 0) ∧
    (∃ s c, Issues (.gpost 4 2) s c ∧ c.m ≠ 0 ∧ c.w.queues = [] ∧ s.releaseMet c.u c.p.view 4 = true ∧ (c.rd 4 c.low).toNat = 255 ∧
      s.reg (.q (c.rd 4 c.low).toNat .part) = c.p.part ∧ s.reg (.q (c.rd 4 c.low).toNat .en) = 1 ∧
      (sget [] s.rings (c.rd 4 c.low).toNat).length < 1024) := by
  refine ⟨⟨emptyS (-1), _, issues_of (by decide), by decide⟩, fun q hq => ?_,
    ⟨(laneS [(4, 255)]).setReg (.q 255 .en) 1 |>.setReg (.q 255 .part) 0, _, issues_of (by decide), by decide, by decide, by decide, by decide, by decide, by decide, by decide⟩⟩
  have h : [(256 : Word), 255].all (fun q => ready (.gpost 4 2) (laneS [(4, q)]) (fun c => decide (c.m ≠ 0 ∧ c.w.queues = [] ∧
      (laneS [(4, q)]).releaseMet c.u c.p.view 4 = true ∧ c.rd 4 c.low = q ∧
      (255 < (c.rd 4 c.low).toNat ∨ (laneS [(4, q)]).reg (.q (c.rd 4 c.low).toNat .part) ≠ c.p.part ∨
        (laneS [(4, q)]).reg (.q (c.rd 4 c.low).toNat .en) ≠ 1) ∧ c.lr.trapentry ≠ 0 ∧ c.w.hlanes = 0))) = true := by decide
  obtain ⟨c, hc, h⟩ := of_ready (List.all_eq_true.1 h q hq)
  exact ⟨_, c, hc, by simpa using h⟩

/-- The device with the box and one page that maps addresses to themselves; the page is of class 4 where `of` says so. -/
def mapped (s : State) (of : Bool) : State :=
  let t := if of then State.reset.mapOne.setHNat 0x8000 8 (31 + 4 * 32) else State.reset.mapOne
  { s with mem := t.mem, regs := t.regs, parts := t.parts }
/-- A declaration record of one write granule, 0x10_0000. -/
def declS : State := mapped (boxS padWarp { aBlock false with spad := padOf [(0, 8, 1 + 7 * 2 ^ 32), (8, 8, 0x100000)] } (aLaunch false) 1) true
def declC : Ctx := ctxOf (.ofsub 2 4) declS
def declRd : Rd DeclRec := (declS.setWarp declC.u declC.w).readDecl (.warp declC) (declC.rd64 (2 : BitVec 7).toNat declC.low).toNat
def declX : DeclRec := valOf ⟨0, [], []⟩ declRd
def declW : Rd (List Nat) := declRd.1.granules declC declX.wr
def declR : Rd (List Nat) := declW.1.granules declC declX.rd
theorem witness_orderFirst :
    (∃ s c, Issues (.ofsub 2 4) s c ∧ c.m = 0) ∧
    (∃ s c id x, Issues (.ofsub 2 4) s c ∧ c.m ≠ 0 ∧ s.openTx c.u = some (id, x) ∧ c.lr.trapentry ≠ 0 ∧ c.w.hlanes = 0) ∧
    (∃ (s : State) (c : Ctx) (x : DeclRec) (wp rp : List Nat) (s1 s2 s3 : State), Issues (.ofsub 2 4) s c ∧ c.m ≠ 0 ∧ s.openTx c.u = none ∧
      (s.setWarp c.u c.w).readDecl (.warp c) (c.rd64 (2 : BitVec 7).toNat c.low).toNat = (s1, .ok x) ∧ (∀ g ∈ x.wr ++ x.rd, windowAt (g * 256) = .global) ∧
      s1.granules c x.wr = (s2, .ok wp) ∧ s2.granules c x.rd = (s3, .ok rp) ∧ x.wr = [0x1000]) ∧
    (∃ s c, Issues .ofwait s c ∧ s.openTx c.u = none) ∧
    (∃ s c id x, Issues .ofwait s c ∧ s.openTx c.u = some (id, x) ∧ x.inside = false) ∧
    (∃ s c, Issues .ofcommit s c ∧ s.openTx c.u = none ∧ c.lr.trapentry ≠ 0 ∧ c.w.hlanes = 0) ∧
    (∃ s c id x, Issues .ofcommit s c ∧ s.openTx c.u = some (id, x) ∧ x.inside = true ∧ c.w.queues = [] ∧ s.releaseMet c.u c.p.view 4 = true ∧
      risesFrom none x.held = true ∧ x.held ≠ []) ∧
    (∃ s c id x, Issues (.ofinfo 4) s c ∧ s.openTx c.u = some (id, x) ∧ x.hasMark = true) ∧
    (∃ s c id x, Issues (.ofinfo 4) s c ∧ s.openTx c.u = some (id, x) ∧ x.hasMark = false) ∧
    (∃ s c, Issues (.ofinfo 4) s c ∧ s.openTx c.u = none) :=
  ⟨⟨emptyS (-1), _, issues_of (by decide), by decide⟩,
    ⟨txS [] .flight, _, _, _, issues_of (by decide), by decide, rfl, by decide, by decide⟩,
    ⟨declS, declC, declX, valOf [] declW, valOf [] declR, declRd.1, declW.1, declR.1, issues_of (by decide +kernel), by decide +kernel, by decide +kernel,
      rd_ok (r := declRd) ⟨0, [], []⟩ (by decide +kernel), by decide +kernel, rd_ok (r := declW) [] (by decide +kernel),
      rd_ok (r := declR) [] (by decide +kernel), by decide +kernel⟩,
    ⟨laneS [], _, issues_of (by decide), by decide⟩,
    ⟨txS [] .queued, _, _, _, issues_of (by decide), rfl, by decide⟩,
    ⟨laneS [], _, issues_of (by decide), by decide, by decide, by decide⟩,
    ⟨txS [] .admitted, _, _, _, issues_of (by decide), rfl, by decide, by decide, by decide, by decide, by decide⟩,
    ⟨txS [] .sealed, _, _, _, issues_of (by decide), rfl, by decide⟩,
    ⟨txS [] .seated, _, _, _, issues_of (by decide), rfl, by decide⟩,
    ⟨laneS [], _, issues_of (by decide), by decide⟩⟩

/-! The issue register: a first run, and an inner one. -/
def xwS (d : Nat) (x : Option XwRun) : State :=
  (box { aWarp false with regs := regsOf [(2, 0x0000C101)], xw := x } (aBlock false) (aLaunch false)).setCur
    (some { aWord 1 with depth := d })
theorem witness_issueRegister :
    (∃ s c, Issues (.xw 2) s c ∧ c.w.xw = none ∧ c.permitted (c.rd 2 0) 0 = true) ∧
    (∃ s c r, Issues (.xwp 4 2) s c ∧ c.w.xw = some r ∧ c.is.depth = 1) :=
  ⟨⟨xwS 0 none, _, issues_of (by decide), by decide, by decide⟩,
    ⟨xwS 1 (some ⟨1, 0x10000, 0x10004, 1, [⟨0, 0, 1, 1⟩], 0, 0⟩), _, _, issues_of (by decide), rfl, by decide⟩⟩

/-- What an instruction of the unit works with before its checks. -/
def ctxAt (is : Issue) (w : Warp) (lr : LaunchRec) : Ctx := ⟨2, is, w, ⟨0, 0, 0, 0, 1, 0, 0, false⟩, lr, is.px, 0, Instr.nop.row, [], 0⟩
/-- A warp with a result of register 3 under way. -/
def hazW : Warp := { aWarp false with haz := [⟨3, Config.delay 0 + 1, Config.delay 0 + 1, []⟩] }
def hazS : State := (box hazW (aBlock false) { aLaunch false with lr := { LaunchRec.small false with checkstall := true } }).setCur
  (some { aWord 1 with count := some 0 })
/-! The shared checks, each failing in turn. -/
theorem witness_sharedChecks :
    let Base (i : Instr) (s : State) (c : Ctx) : Prop := i.isWord = true ∧ s.cur = some c.is ∧ c.u = c.is.u ∧ kget s.warps c.u = some c.w ∧
      c.w.ended = false ∧ s.who c.u = some c.p ∧ s.lrOf c.p.launch = some c.lr ∧ c.is.mask ≠ 0 ∧ c.lr.trapentry ≠ 0 ∧ c.w.hlanes = 0
    (∃ i s c x, Base i s c ∧ c.is.pfx = some x ∧ i.row.accepts c.is.px = false) ∧
    (∃ i s c, Base i s c ∧ c.is.pfx = none ∧ i.legalWord c.is.px = false) ∧
    (∃ i s c, Base i s c ∧ c.is.pfx = none ∧ i.legalWord c.is.px = true ∧ i.legalOn c.w.tile = false) ∧
    (∃ i s c pos f, Base i s c ∧ c.is.pfx = none ∧ i.legalWord c.is.px = true ∧ i.legalOn c.w.tile = true ∧
      windowBad c.w i.row c.is.px = some (pos, f)) ∧
    (∃ i s c, Base i s c ∧ c.is.pfx = none ∧ i.legalWord c.is.px = true ∧ i.legalOn c.w.tile = true ∧ windowBad c.w i.row c.is.px = none ∧
      c.lr.checkstall = true ∧ (gatherAt s c.w (c.is.count.isSome && c.is.depth == 0 && !c.w.locked && !s.halfRatio (c.p.core / 4))
        (readUses i.row c.is.px (execMask c.w c.is.px c.is.mask == -1 || c.w.tile)) (predReads i.row c.is.px)).2 ≠ []) := by
  intro Base
  refine ⟨⟨.pbarr 4 2, emptyS 1, ctxAt (aPrefixed 0xE0100000 1) (aWarp false) (LaunchRec.small false), _, by decide, rfl, by decide⟩,
    ⟨.addD 1 2 4, warpS 1, ctxAt (aWord 1) (aWarp false) (LaunchRec.small false), by decide, rfl, by decide⟩,
    ⟨.mzero 1, warpS 1, ctxAt (aWord 1) (aWarp false) (LaunchRec.small false), by decide, rfl, by decide, by decide⟩,
    ⟨.addW 127 2 1, boxS { aWarp false with wbase := 1 } (aBlock false) (aLaunch false) 1,
      ctxAt (aWord 1) { aWarp false with wbase := 1 } (LaunchRec.small false), 1, 127, by decide, rfl, by decide, by decide, by decide⟩,
    ⟨.addW 3 2 1, hazS, ctxAt { aWord 1 with count := some 0 } hazW { LaunchRec.small false with checkstall := true },
      ⟨by decide, rfl, rfl, rfl, rfl, rfl, rfl, by decide, by decide, by decide⟩, rfl, by decide, by decide, by decide, rfl, ?_⟩⟩
  have h : (gatherAt hazS hazW true [(1, 3, 1)] []).2 = [⟨3, Config.delay 0 + 1, Config.delay 0 + 1, []⟩] := by
    simp [gatherAt, hazW, aWarp, Warp.initial, hazS, box, State.setCur, State.reset]
  intro h0
  exact absurd (h.symm.trans h0) (by simp)

/-- A block with tile 3, slots 0 and 1, and one pass for each of its tiles under way. -/
def aTensor (fmt : Nat) : Tensor := { base := 0x10000, fmt := fmt, rank := 2, scaleg := 0, order := 0, dims := [128, 128, 1, 1, 1], strides := [128, 0, 0, 0], scaleBase := 0, scaleStride := 0 }
def withTile (b : Block) : Block := { b with tiles := [(3, Tile.fresh)], slots := [(1, ⟨aTensor 0, 0, 0⟩), (2, ⟨aTensor 1, 0, 0⟩)] }

theorem witness_tileRows :
    (∀ i ∈ [Instr.accrd 2 4, .accwr 2 4], ∃ s c, Issues i s c ∧ c.m = 0) ∧
    (∀ i ∈ [Instr.accrd 2 4, .accwr 2 4], ∃ s c b, Issues i s c ∧ c.m ≠ 0 ∧ kget s.blocks c.p.blk = some b ∧
      kget b.tiles ((c.rd 2 c.low).toNat % 16) = none ∧ c.lr.trapentry ≠ 0 ∧ c.w.hlanes = 0) ∧
    (∀ i ∈ [Instr.accrd 2 4, .accwr 2 4], ∃ s c b x, Issues i s c ∧ c.m ≠ 0 ∧ kget s.blocks c.p.blk = some b ∧
      kget b.tiles ((c.rd 2 c.low).toNat % 16) = some x ∧ x.spilled = false ∧ s.inChunk (c.p.core / 4) c.p.blk ((c.rd 2 c.low).toNat % 16) = false ∧
      x.readers.contains (c.u, c.is.stamp) = false ∧ bits (c.rd 2 c.low).toNat 10 4 = 127 ∧ bits (c.rd 2 c.low).toNat 11 11 = 1) := by
  refine ⟨fun i hi => ?_, fun i hi => ?_, fun i hi => ?_⟩
  · have h : [Instr.accrd 2 4, .accwr 2 4].all (fun i => ready i (emptyS (-1)) (fun c => c.m == 0)) = true := by decide
    obtain ⟨c, hc, h⟩ := of_ready (List.all_eq_true.1 h i hi)
    exact ⟨_, c, hc, by simpa using h⟩
  · have h : [Instr.accrd 2 4, .accwr 2 4].all (fun i => ready i (laneS []) (fun c => decide (c.m ≠ 0 ∧ c.p.blk = 1 ∧
        kget (aBlock false).tiles ((c.rd 2 c.low).toNat % 16) = none ∧ c.lr.trapentry ≠ 0 ∧ c.w.hlanes = 0))) = true := by decide
    obtain ⟨c, hc, h⟩ := of_ready (List.all_eq_true.1 h i hi)
    simp only [decide_eq_true_eq] at h
    exact ⟨_, c, aBlock false, hc, h.1, by rw [h.2.1]; rfl, h.2.2⟩
  · have h : [Instr.accrd 2 4, .accwr 2 4].all (fun i => ready i (boxS { aWarp false with regs := regsOf [(2, 0xFF3)] } (withTile (aBlock false))
        (aLaunch false) 1) (fun c => decide (c.m ≠ 0 ∧ c.p.blk = 1 ∧ (c.rd 2 c.low).toNat = 0xFF3 ∧ c.p.core / 4 = 0))) = true := by decide
    obtain ⟨c, hc, h⟩ := of_ready (List.all_eq_true.1 h i hi)
    simp only [decide_eq_true_eq] at h
    exact ⟨_, c, withTile (aBlock false), Tile.fresh, hc, h.1, by rw [h.2.1]; rfl, by rw [h.2.2.1]; rfl, rfl,
      by rw [h.2.2.2, h.2.1, h.2.2.1]; decide, rfl, by rw [h.2.2.1]; decide, by rw [h.2.2.1]; decide⟩

/-- The accumulator of the box: ACCMAX is 4. A command on tile 3. -/
def tileCmdS (xs : List (Nat × Word)) (k : MCmd) : State := { tileOf xs withTile with mengs := [(0, ⟨[k]⟩)] }
theorem witness_tileAllocation :
    (∀ n ∈ [(0 : Word), 17, 4], ∃ s c b, Issues (.acalloc 2 4) s c ∧ kget s.blocks c.p.blk = some b ∧ c.rd 2 0 = n ∧
      ((c.rd 2 0).toNat = 0 ∨ 16 < (c.rd 2 0).toNat ∨ c.lr.accmax < b.tiles.length + (c.rd 2 0).toNat ∨ b.freeRun (c.rd 2 0).toNat = none) ∧
      c.lr.trapentry ≠ 0 ∧ c.w.hlanes = 0) ∧
    (∃ s c b f, Issues (.acalloc 2 4) s c ∧ kget s.blocks c.p.blk = some b ∧ (c.rd 2 0).toNat = 3 ∧ b.tiles.length + 3 ≤ c.lr.accmax ∧
      f + 3 ≤ 16 ∧ (∀ j, j < 3 → kget b.tiles (f + j) = none) ∧ (∀ g, g < f → ∃ j, j < 3 ∧ (kget b.tiles (g + j)).isSome = true) ∧
      c.lr.overcommit = false) ∧
    (∃ s c b f, Issues (.acalloc 2 4) s c ∧ kget s.blocks c.p.blk = some b ∧ (c.rd 2 0).toNat = 1 ∧ b.tiles.length + 1 ≤ c.lr.accmax ∧
      f + 1 ≤ 16 ∧ (∀ j, j < 1 → kget b.tiles (f + j) = none) ∧ (∀ g, g < f → ∃ j, j < 1 ∧ (kget b.tiles (g + j)).isSome = true) ∧
      c.lr.overcommit = true ∧ 1 ≤ s.tilesFree (c.p.core / 4) ∧ ∀ x ∈ s.accWaiters (c.p.core / 4), s.reqAge b ≤ s.reqAge x.2) ∧
    (∃ s c x, Issues (.acfree 4 2) s c ∧ kget s.blocks c.p.blk = some x ∧ (c.rd 2 0).toNat = 4 ∧ (c.rd 4 0).toNat = 16 ∧
      ∀ k, ¬(k < 16 ∧ 4 ≤ k ∧ k < 4 + 16 ∧ x.tileOk k = true)) ∧
    (∃ s c x, Issues (.acfree 4 2) s c ∧ kget s.blocks c.p.blk = some x ∧ (c.rd 2 0).toNat = 3 ∧ (c.rd 4 0).toNat = 1 ∧
      (∃ k, k < 16 ∧ 3 ≤ k ∧ k < 3 + 1 ∧ x.tileOk k = true) ∧
      ∀ m ∈ (s.meng (c.p.core / 4)).table, m.blk = c.p.blk → ¬(m.tile < 16 ∧ 3 ≤ m.tile ∧ m.tile < 3 + 1 ∧ x.tileOk m.tile = true)) ∧
    (∃ s c x, Issues (.acfree 4 2) s c ∧ kget s.blocks c.p.blk = some x ∧ (c.rd 2 0).toNat = 3 ∧ (c.rd 4 0).toNat = 1 ∧
      ∃ m ∈ (s.meng (c.p.core / 4)).table, m.blk = c.p.blk ∧ m.tile < 16 ∧ 3 ≤ m.tile ∧ m.tile < 3 + 1 ∧ x.tileOk m.tile = true) := by
  refine ⟨fun n hn => ?_, ⟨tileOf [(2, 3)] (fun b => { b with tiles := [(0, Tile.fresh)] }), _, _, 1, issues_of (by decide), rfl, by decide, by decide, by decide, by decide,
      by decide, by decide⟩,
    ⟨boxS { aWarp true with regs := regsOf [(2, 1)] } (withTile (aBlock true)) { aLaunch true with lr := { LaunchRec.small true with overcommit := true } } 1, _, _, 0,
      issues_of (by decide), rfl, by decide, by decide, by decide, by decide, fun _ h => absurd h (Nat.not_lt_zero _), by decide, by decide, by decide⟩,
    ⟨tileOf [(2, 4), (4, 16)] withTile, _, _, issues_of (by decide), rfl, by decide, by decide, ?_⟩,
    ⟨tileOf [(2, 3), (4, 1)] withTile, _, _, issues_of (by decide), rfl, by decide, by decide, ⟨3, by decide, by decide, by decide, by decide⟩, by decide⟩,
    ⟨tileCmdS [(2, 3), (4, 1)] { MCmd.blank with blk := 1, tile := 3 }, _, _, issues_of (by decide), rfl, by decide, by decide,
      ⟨_, List.mem_cons_self, by decide, by decide, by decide, by decide, by decide⟩⟩⟩
  · have h : [(0 : Word), 17, 4].all (fun n => ready (.acalloc 2 4) (tileOf [(2, n)] withTile) (fun c => decide (c.p.blk = 1 ∧ c.rd 2 0 = n ∧
        ((c.rd 2 0).toNat = 0 ∨ 16 < (c.rd 2 0).toNat ∨ c.lr.accmax < (withTile (aBlock true)).tiles.length + (c.rd 2 0).toNat ∨
          (withTile (aBlock true)).freeRun (c.rd 2 0).toNat = none) ∧ c.lr.trapentry ≠ 0 ∧ c.w.hlanes = 0))) = true := by decide
    obtain ⟨c, hc, h⟩ := of_ready (List.all_eq_true.1 h n hn)
    simp only [decide_eq_true_eq] at h
    exact ⟨_, c, withTile (aBlock true), hc, by rw [h.1]; rfl, h.2⟩
  · rintro k ⟨h1, h2, -, h3⟩
    have : ∀ k, k < 16 → 4 ≤ k → (withTile (aBlock true)).tileOk k = false := by decide
    rw [show Block.tileOk _ k = (withTile (aBlock true)).tileOk k from rfl, this k h1 h2] at h3
    cases h3

theorem witness_tileChecks :
    (∀ i ∈ [Instr.mmac 6 7 2, .mtrans 7 2, .mrsum 7 2, .mperm 4 7 2], ∃ s c b, Issues i s c ∧ kget s.blocks c.p.blk = some b ∧ c.lr.trapentry ≠ 0 ∧
      c.w.hlanes = 0 ∧ kget b.slots 7 = none) ∧
    (∀ i ∈ [Instr.mmac 2 1 2, .mtrans 1 2, .mrsum 1 2, .mperm 4 1 2, .mzero 2, .mpost 6 4 2, .mdrain 4 2], ∃ s c b, Issues i s c ∧
      kget s.blocks c.p.blk = some b ∧ c.lr.trapentry ≠ 0 ∧ c.w.hlanes = 0 ∧
      (∃ x y, kget b.slots 1 = some x ∧ kget b.slots 2 = some y ∧ mmacFmts x y = true) ∧ b.tileOk ((c.rd 2 0).toNat % 16) = false) := by
  refine ⟨fun i hi => ?_, fun i hi => ?_⟩
  · have h : [Instr.mmac 6 7 2, .mtrans 7 2, .mrsum 7 2, .mperm 4 7 2].all (fun i => ready i (tileOf [] withTile) (fun c => decide (c.p.blk = 1 ∧
        c.lr.trapentry ≠ 0 ∧ c.w.hlanes = 0))) = true := by decide
    obtain ⟨c, hc, h⟩ := of_ready (List.all_eq_true.1 h i hi)
    simp only [decide_eq_true_eq] at h
    exact ⟨_, c, withTile (aBlock true), hc, by rw [h.1]; rfl, h.2.1, h.2.2, rfl⟩
  · have h : [Instr.mmac 2 1 2, .mtrans 1 2, .mrsum 1 2, .mperm 4 1 2, .mzero 2, .mpost 6 4 2, .mdrain 4 2].all (fun i =>
        ready i (tileOf [] withTile) (fun c => decide (c.p.blk = 1 ∧ c.lr.trapentry ≠ 0 ∧ c.w.hlanes = 0 ∧ (c.rd 2 0).toNat = 0))) = true := by decide
    obtain ⟨c, hc, h⟩ := of_ready (List.all_eq_true.1 h i hi)
    simp only [decide_eq_true_eq] at h
    exact ⟨_, c, withTile (aBlock true), hc, by rw [h.1]; rfl, h.2.1, h.2.2.1, ⟨_, _, rfl, rfl, by decide⟩, by rw [h.2.2.2]; decide⟩

/-- A scratchpad with a permutation at 0x80, a drain record at 0x100, its output tensor at 0x180 and a slot's tensor at 0x200; v2 names tile 3, v4:v5 the address. -/
def matBlock (b : Block) : Block := { withTile b with spad := padOf [(0x100, 8, 0x01F0000000000180), (0x128, 2, 1), (0x180, 8, 0x20000), (0x188, 4, 0x204),
  (0x18C, 4, 0x00800080), (0x190, 4, 128), (0x194, 4, 128), (0x198, 4, 1), (0x19C, 4, 1), (0x1A0, 4, 1), (0x1A8, 8, 512),
  (0x200, 8, 0x20000), (0x208, 4, 0x202), (0x20C, 4, 0x00800080), (0x210, 4, 128), (0x214, 4, 128), (0x218, 4, 1), (0x21C, 4, 1), (0x220, 4, 1), (0x228, 8, 256)] }
def matS (a : Word) : State := tileOf [(2, 3), (4, a), (5, 0x01F00000)] matBlock
def permC : Ctx := ctxOf (.mperm 4 1 2) (matS 0x80)
def permRd : Rd Nat := ((matS 0x80).setWarp permC.u permC.w).readAligned (.warp permC) (permC.rd64 (4 : BitVec 7).toNat 0).toNat 128 128
def drainC : Ctx := ctxOf (.mdrain 4 2) (matS 0x100)
def drainRd : Rd DrainRec := ((matS 0x100).setWarp drainC.u drainC.w).readDrain (.warp drainC) (drainC.rd64 (4 : BitVec 7).toNat 0).toNat
def blankDrain : DrainRec := { out := aTensor 4, trow := 0, tcol := 0, scale := 0, amax := false, scope := 0, zero := false, absmax := 0, done := 0, count := 0 }
def drainX : DrainRec := valOf blankDrain drainRd
def drainWd : Rd Unit := drainRd.1.wordChecks drainC.p drainC.p.places [(.atomic, drainX.absmax), (.atomic, drainX.done)]
def slotC : Ctx := ctxOf (.mslot 6 4 5) (matS 0x200)
def slotRd : Rd Tensor := ((matS 0x200).setWarp slotC.u slotC.w).readTensor (.warp slotC) .slot (slotC.rd64 (4 : BitVec 7).toNat 0).toNat

theorem perm_issues : Issues (.mperm 4 1 2) (matS 0x80) permC := issues_of (by decide +kernel)
theorem perm_read : permRd.2.isOk = true := by decide +kernel
theorem perm_tile : (matBlock (aBlock true)).tileOk ((permC.rd 2 0).toNat % 16) = true ∧ permC.p.blk = 1 ∧ ((permRd.1.dropAnswers permC).meng (permC.p.core / 4)).full = false := by decide +kernel
theorem drain_issues : Issues (.mdrain 4 2) (matS 0x100) drainC := issues_of (by decide +kernel)
theorem drain_read : drainRd.2.isOk = true := by decide +kernel
theorem drain_words : drainWd.2.isOk = true := by decide +kernel
theorem drain_tile : (matBlock (aBlock true)).tileOk ((drainC.rd 2 0).toNat % 16) = true ∧ drainC.p.blk = 1 ∧ ((drainWd.1.dropAnswers drainC).meng (drainC.p.core / 4)).full = false := by decide +kernel

theorem witness_tileCommands :
    (∀ i ∈ [Instr.mmac 2 1 2, .mtrans 1 2, .mrsum 1 2, .mzero 2, .mpost 6 8 2], ∃ s c b, Issues i s c ∧ kget s.blocks c.p.blk = some b ∧
      b.tileOk ((c.rd 2 0).toNat % 16) = true ∧ ((s.setWarp c.u c.w).meng (c.p.core / 4)).full = false ∧
      (∃ x y, kget b.slots 1 = some x ∧ kget b.slots 2 = some y ∧ mmacFmts x y = true) ∧ wordForm (c.rd64 8 0).toNat = true ∧
      (s.setWarp c.u c.w).wordCheck c.p c.p.places .atomic (c.rd64 8 0).toNat = (s.setWarp c.u c.w, none)) ∧
    (∃ s c b s0 v, Issues (.mperm 4 1 2) s c ∧ kget s.blocks c.p.blk = some b ∧ b.tileOk ((c.rd 2 0).toNat % 16) = true ∧
      ((s0.dropAnswers c).meng (c.p.core / 4)).full = false ∧ (kget b.slots 1).isSome = true ∧
      (s.setWarp c.u c.w).readAligned (.warp c) (c.rd64 (4 : BitVec 7).toNat 0).toNat 128 128 = (s0, .ok v)) ∧
    (∃ s c b s0 s2 y, Issues (.mdrain 4 2) s c ∧ kget s.blocks c.p.blk = some b ∧ b.tileOk ((c.rd 2 0).toNat % 16) = true ∧
      ((s2.dropAnswers c).meng (c.p.core / 4)).full = false ∧
      (s.setWarp c.u c.w).readDrain (.warp c) (c.rd64 (4 : BitVec 7).toNat 0).toNat = (s0, .ok y) ∧
      s0.wordChecks c.p c.p.places [(.atomic, y.absmax), (.atomic, y.done)] = (s2, .ok ())) := by
  refine ⟨fun i hi => ?_,
    ⟨matS 0x80, permC, matBlock (aBlock true), permRd.1, valOf 0 permRd, perm_issues, by rw [perm_tile.2.1]; rfl, perm_tile.1, perm_tile.2.2, rfl,
      rd_ok (r := permRd) 0 perm_read⟩,
    ⟨matS 0x100, drainC, matBlock (aBlock true), drainRd.1, drainWd.1, drainX, drain_issues, by rw [drain_tile.2.1]; rfl, drain_tile.1, drain_tile.2.2,
      rd_ok (r := drainRd) blankDrain drain_read, rd_unit (r := drainWd) drain_words⟩⟩
  have h : [Instr.mmac 2 1 2, .mtrans 1 2, .mrsum 1 2, .mzero 2, .mpost 6 8 2].all (fun i => ready i (matS 0) (fun c => decide (c.p.blk = 1 ∧
      (matBlock (aBlock true)).tileOk ((c.rd 2 0).toNat % 16) = true ∧ (((matS 0).setWarp c.u c.w).meng (c.p.core / 4)).full = false ∧
      (c.rd64 8 0).toNat = 0))) = true := by decide
  obtain ⟨c, hc, h⟩ := of_ready (List.all_eq_true.1 h i hi)
  simp only [decide_eq_true_eq] at h
  exact ⟨_, c, matBlock (aBlock true), hc, by rw [h.1]; rfl, h.2.1, h.2.2.1, ⟨_, _, rfl, rfl, by decide⟩, by rw [h.2.2.2]; decide, by rw [h.2.2.2]; rfl⟩

theorem slot_issues : Issues (.mslot 6 4 5) (matS 0x200) slotC := issues_of (by decide +kernel)
theorem slot_read : slotRd.2.isOk = true := by decide +kernel
theorem slot_block : slotC.p.blk = 1 := by decide +kernel
theorem witness_matrixCommands :
    (∃ s c x s1 y, Issues (.mslot 6 4 5) s c ∧ kget s.blocks c.p.blk = some x ∧
      (s.setWarp c.u c.w).readTensor (.warp c) .slot (c.rd64 (4 : BitVec 7).toNat 0).toNat = (s1, .ok y)) ∧
    (∀ n ∈ [(1 : Word), 128], ∃ s c x, Issues (.vcnt 4 2) s c ∧ kget s.blocks c.p.blk = some x ∧ c.px.cv = false ∧
      (c.rd 2 0).toNat = n.toNat ∧ 1 ≤ (c.rd 2 0).toNat ∧ (c.rd 2 0).toNat ≤ 128 ∧ 1 ≤ (c.rd 4 0).toNat ∧ (c.rd 4 0).toNat ≤ 128) ∧
    (∀ n ∈ [(0 : Word), 129], ∃ s c x, Issues (.vcnt 4 2) s c ∧ kget s.blocks c.p.blk = some x ∧ ¬(1 ≤ (c.rd 2 0).toNat ∧ (c.rd 2 0).toNat ≤ 128) ∧
      (c.rd 2 0).toNat = n.toNat ∧ c.lr.trapentry ≠ 0 ∧ c.w.hlanes = 0) ∧
    (∃ s c, Issues .mwait s c ∧ s.postedDone c.u = true) ∧ (∃ s c, Issues .mwait s c ∧ s.postedDone c.u = false) ∧
    (∃ s c x, Issues (.ppoint 2) s c ∧ kget s.blocks c.p.blk = some x ∧ x.preempt = false ∧ s.sess c.p.part < 2) ∧
    (∃ s c x, Issues (.ppoint 2) s c ∧ kget s.blocks c.p.blk = some x ∧ (x.preempt = true ∨ 2 ≤ s.sess c.p.part)) := by
  refine ⟨⟨matS 0x200, slotC, matBlock (aBlock true), slotRd.1, valOf (aTensor 0) slotRd, slot_issues, by rw [slot_block]; rfl,
      rd_ok (r := slotRd) (aTensor 0) slot_read⟩, fun n hn => ?_, fun n hn => ?_,
    ⟨tileOf [] withTile, _, issues_of (by decide), by decide⟩,
    ⟨tileCmdS [] { MCmd.blank with u := 2, blk := 1 }, _, issues_of (by decide), by decide⟩,
    ⟨tileOf [] id, _, _, issues_of (by decide), rfl, by decide, by decide⟩, ⟨tileOf [] (fun b => { b with preempt := true }), _, _, issues_of (by decide), rfl, .inl (by decide)⟩⟩
  · have h : [(1 : Word), 128].all (fun n => ready (.vcnt 4 2) (tileOf [(2, n), (4, 129 - n)] id) (fun c => decide (c.p.blk = 1 ∧ c.px.cv = false ∧
        (c.rd 2 0).toNat = n.toNat ∧ 1 ≤ (c.rd 2 0).toNat ∧ (c.rd 2 0).toNat ≤ 128 ∧ 1 ≤ (c.rd 4 0).toNat ∧ (c.rd 4 0).toNat ≤ 128))) = true := by decide
    obtain ⟨c, hc, h⟩ := of_ready (List.all_eq_true.1 h n hn)
    simp only [decide_eq_true_eq] at h
    exact ⟨_, c, aBlock true, hc, by rw [h.1]; rfl, h.2⟩
  · have h : [(0 : Word), 129].all (fun n => ready (.vcnt 4 2) (tileOf [(2, n), (4, 1)] id) (fun c => decide (c.p.blk = 1 ∧
        ¬(1 ≤ (c.rd 2 0).toNat ∧ (c.rd 2 0).toNat ≤ 128) ∧ (c.rd 2 0).toNat = n.toNat ∧ c.lr.trapentry ≠ 0 ∧ c.w.hlanes = 0))) = true := by decide
    obtain ⟨c, hc, h⟩ := of_ready (List.all_eq_true.1 h n hn)
    simp only [decide_eq_true_eq] at h
    exact ⟨_, c, aBlock true, hc, by rw [h.1]; rfl, h.2⟩

/-! ### Steps, numbers and bytes -/

/-- A word placed where the next step fetches. -/
theorem witness_stepRuns :
    (∃ (s : State) (u : Nat) (s1 : State) (i : Instr) (t : State), s.powered = true ∧ s.choose = (.issue u, s1) ∧ s1.prepare u none = .run i t ∧ i = .addW 3 2 1) ∧
    (∃ (s : State) (i : Instr) (s1 : State), s.powered = true ∧ s.choose = (.event i, s1) ∧ s1.eventOpen i = true) := by
  have h : (match (State.reset.placeWord 0x0000C101).choose.2.prepare 2 none with
    | .run i _ => decide (i = .addW 3 2 1)
    | .done _ => false) = true := by decide +kernel
  refine ⟨?_, { State.reset with agenda := [.event (.batchExchange 0)] }, .batchExchange 0, _, rfl, rfl, by decide⟩
  cases hp : (State.reset.placeWord 0x0000C101).choose.2.prepare 2 none with
  | done t => rw [hp] at h; cases h
  | run i t =>
    rw [hp] at h
    have hc : (State.reset.placeWord 0x0000C101).choose.1 = .issue 2 := by decide +kernel
    exact ⟨State.reset.placeWord 0x0000C101, 2, _, i, t, by decide +kernel, Prod.ext hc rfl, hp, by simpa using h⟩

/-- A warp at 0x1_0000 on the mapped device, and what its place holds: `add.w 3 2 1`, or a prefix before it. -/
def fetchS (ws : List (Nat × Nat)) : State := ws.foldl (fun s x => s.setHNat x.1 4 x.2) (mapped (box (aWarp false) (aBlock false) (aLaunch false)) false)
def oneWord : State := fetchS [(0x10000, 0x0000C101)]
def twoWords : State := fetchS [(0x10000, 0xE0000000), (0x10004, 0x0000C101)]
def whoW : Who := ⟨0, 0, 0, 0, 1, 0, 0, false⟩
def fetchR (s : State) : State × Res := s.checkElem whoW 2 0 .fetch true false 0 0x10000 4
def bytesOf : Res → List PByte
  | .ok bs => bs
  | _ => []
def inMem (b : PByte) : Bool := match b.loc with
  | .mem _ => true
  | _ => false
theorem of_inMem {bs : List PByte} (h : bs.all inMem = true) : ∀ b ∈ bs, ∃ pa, b.loc = .mem pa := by
  intro b hb
  have := List.all_eq_true.1 h b hb
  unfold inMem at this
  split at this
  · exact ⟨_, by assumption⟩
  · cases this
theorem res_ok {r : State × Res} (h : decide (r.2 = .ok (bytesOf r.2)) = true) : r = (r.1, .ok (bytesOf r.2)) := Prod.ext rfl (of_decide_eq_true h)

/-- What a fetch gave. -/
def wordR (s : State) (pc : DWord) : State × Except Res Word := s.fetchWord whoW 2 pc
def wordIs (r : State × Except Res Word) (w : Word) : Bool := match r.2 with
  | .ok x => x == w
  | .error _ => false
theorem word_ok {r : State × Except Res Word} {w : Word} (h : wordIs r w = true) : r = (r.1, .ok w) := by
  obtain ⟨s, e⟩ := r
  cases e with
  | ok a => simp [wordIs] at h; rw [h]
  | error e => cases h
/-- What a unit must be for its next word to run. -/
def goes (s : State) (u : Nat) (w : Warp) (p : Who) : Prop :=
  s.cur = none ∧ kget s.warps u = some w ∧ s.who u = some p ∧ w.ended = false ∧ s.mayIssue u w p = true ∧ s.outranked u w p = false ∧ w.xw = none ∧ s.sfDue u w = false ∧
    w.sdrain = false ∧ w.overrunDue = false ∧ w.passDue = false ∧ w.turn = none ∧ w.fair < 64 ∧ (∀ x ∈ (s.part p.part).stepping, x.1 ≠ u)
def anEntry : Entry := ⟨0x10000, -1, .ready, 0, false, 0x10000⟩
theorem oneWord_goes : goes oneWord 2 (aWarp false) whoW := by unfold goes; decide +kernel
theorem twoWords_goes : goes twoWords 2 (aWarp false) whoW := by unfold goes; decide +kernel
theorem oneWord_word : wordIs (wordR oneWord 0x10000) 0x0000C101 = true := by decide +kernel
theorem twoWords_word : wordIs (wordR twoWords 0x10000) 0xE0000000 = true := by decide +kernel
/-- After the prefix, once the entry's time of issue is noted. -/
def afterPrefix : State := (wordR twoWords 0x10000).1.modWarp 2 (fun w => w.stampEntry anEntry.mask (wordR twoWords 0x10000).1.stepNo)
theorem twoWords_next : wordIs (wordR afterPrefix (0x10000 + 4)) 0x0000C101 = true := by decide +kernel
theorem fetch_mem : decide ((fetchR oneWord).2 = .ok (bytesOf (fetchR oneWord).2)) = true ∧ (bytesOf (fetchR oneWord).2).all inMem = true := by decide +kernel
theorem no_breakpoint : (wordR oneWord 0x10000).1.bpMatch 0 0 0x10000 = none ∧ (wordR twoWords 0x10000).1.bpMatch 0 0 0x10000 = none := by decide +kernel
theorem witness_fetches :
    (∃ (s s2 : State) (p : Who) (u : Nat) (pc : DWord) (bs : List PByte), s.checkElem p u 0 .fetch true false 0 pc 4 = (s2, .ok bs) ∧ ∀ b ∈ bs, ∃ pa, b.loc = .mem pa) ∧
    (∃ (s s2 : State) (u : Nat) (w : Warp) (p : Who) (e : Entry) (word : Word) (i : Instr), goes s u w p ∧ headOf w.frontier = some e ∧ e.mask &&& s.issueLanes u w ≠ 0 ∧ s.fetchWord p u e.pc = (s2, .ok word) ∧
      isStallW word = false ∧ w.entryOf e.mask = some e ∧ s2.bpMatch p.part p.ctx e.pc = none ∧ isPrefixW word = false ∧ decode word = .ok i) ∧
    (∃ (s s2 : State) (u : Nat) (w : Warp) (p : Who) (e : Entry) (word : Word) (s4 : State) (next : Word) (i : Instr), goes s u w p ∧ headOf w.frontier = some e ∧ e.mask &&& s.issueLanes u w ≠ 0 ∧
      s.fetchWord p u e.pc = (s2, .ok word) ∧ isStallW word = false ∧ w.entryOf e.mask = some e ∧ s2.bpMatch p.part p.ctx e.pc = none ∧
      isPrefixW word = true ∧ (s2.modWarp u (fun w => w.stampEntry e.mask s2.stepNo)).fetchWord p u (e.pc + 4) = (s4, .ok next) ∧ decode next = .ok i ∧
      (pxFields word.toNat).rm ≤ 4 ∧ (pxFields word.toNat).ms ≤ 6 ∧ (pxFields word.toNat).rsv = 0) :=
  ⟨⟨oneWord, (fetchR oneWord).1, whoW, 2, 0x10000, bytesOf (fetchR oneWord).2, res_ok (r := fetchR oneWord) fetch_mem.1, of_inMem fetch_mem.2⟩,
    ⟨oneWord, (wordR oneWord 0x10000).1, 2, aWarp false, whoW, anEntry, 0x0000C101, .addW 3 2 1, oneWord_goes, by decide, by decide +kernel, word_ok (r := wordR oneWord 0x10000) oneWord_word,
      by decide, by decide, no_breakpoint.1, by decide, by decide⟩,
    ⟨twoWords, (wordR twoWords 0x10000).1, 2, aWarp false, whoW, anEntry, 0xE0000000, (wordR afterPrefix (0x10000 + 4)).1, 0x0000C101, .addW 3 2 1, twoWords_goes, by decide, by decide +kernel,
      word_ok (r := wordR twoWords 0x10000) twoWords_word, by decide, by decide, no_breakpoint.2, by decide,
      word_ok (r := wordR afterPrefix (0x10000 + 4)) twoWords_next, by decide, by decide, by decide, by decide⟩⟩

/-! The reciprocal of 2 is exact, that of 3 is not; a number whose rounding is asked; counts of a phase word at their ends. -/
theorem witness_specialFunctions :
    (∃ (op : SfuOp) (x : Word) (r : Nat × Flags), (decodeF f32 x.toNat).isNaN = false ∧ sfuExact op (decodeF f32 x.toNat) = some r ∧ r.1 % 2 ^ 31 ≠ 0x7F800000) ∧
    (∃ (op : SfuOp) (x : Word), (decodeF f32 x.toNat).isNaN = false ∧ sfuExact op (decodeF f32 x.toNat) = none) :=
  ⟨⟨.rcp, 0x40000000, _, by decide, rfl, by decide⟩, ⟨.ex2, 0x3F000000, by decide, by decide +kernel⟩⟩
theorem witness_rounding : (∃ f ∈ [f16, bf16, f32, f64, e5m2, a40], ∃ x : Nat, x < 2 ^ (1 + f.eb + f.fb) ∧ (decodeF f x).isNaN = false) ∧
    ∃ m : Nat, m ≠ 0 := ⟨⟨f32, by decide, 0x3F800000, by decide, by decide⟩, 1, by decide⟩
theorem witness_phaseArrival : ∃ expect pend : Nat, expect < 2 ^ 15 ∧ pend < 2 ^ 15 := ⟨2 ^ 15 - 1, 2 ^ 15 - 1, by decide, by decide⟩
theorem witness_bytesAndWords : ∃ n : Nat, n ≤ 16 := ⟨16, by decide⟩
theorem witness_decodeOfEncode : (∃ i : Instr, i.isWord = true) ∧ (∃ i : Instr, i.isWord = false) ∧ ∃ (w : Word) (i : Instr), decode w = .ok i :=
  ⟨⟨.nop, by decide⟩, ⟨.deviceReset, by decide⟩, 0x0000C101, .addW 3 2 1, by decide⟩
theorem witness_immediates : ∃ x : BitVec 12, 32 ≤ x.toNat := ⟨32, by decide⟩
theorem witness_stepKeepsMemory : ∃ s : State, s.memWf := ⟨State.reset, rfl⟩

/-- A warp alone in its box. -/
def unitS (w : Warp) : State := box w (aBlock false) (aLaunch false)
def fairE : Entry := ⟨0x10010, 2, .ready, 3, false, 0⟩
def fairW : Warp := { aWarp false with fair := 64, frontier := [⟨0x10000, 1, .ready, 5, false, 0⟩, fairE] }
def fairS : State := unitS fairW
def joinE : Entry := ⟨0x10000, 1, .waiting .join, 0, false, 0x10004⟩
def joinW : Warp := { aWarp false with frontier := [joinE, ⟨0x10010, 2, .waiting .join, 0, false, 0x10014⟩] }
def joinS : State := unitS joinW
def waitE : Entry := ⟨0x10000, 1, .waiting (.pbwait 0x01F0000000000000 true 1), 0, false, 0x10004⟩
def waitW : Warp := { aWarp false with frontier := [waitE] }
def waitS : State := unitS waitW
def waitR : State × Res := waitS.checkElem whoW 2 0 .load true false 0 (BitVec.ofNat 64 0x01F0000000000000) 4
def sfR : SfRec := ⟨0x10004, 0x50000, 3, 2, 0x11, 0, false⟩
def sfS : State := (unitS (aWarp false)).modCore 0 (fun c => { c with sfq := [sfR] })
def overW : Warp := { aWarp false with overrunTrap := true }
def overS : State := unitS overW
def passW : Warp := { aWarp false with passFaults := [(0x11, 1, 0x50000, 0x10008)] }
def passS : State := unitS passW
theorem witness_unitEvents_1 :
    ∃ (s : State) (u : Nat) (w : Warp) (e : Entry), kget s.warps u = some w ∧ s.atBoundary u = true ∧ w.turn = none ∧ 64 ≤ w.fair ∧ e ∈ w.frontier ∧
      e.isReady = true ∧ (∀ x ∈ w.frontier, x.isReady = true → x ≠ e → e.stamp < x.stamp ∨ (e.stamp = x.stamp ∧ e.pc.toNat < x.pc.toNat)) :=
    ⟨fairS, 2, fairW, fairE, by decide +kernel, by decide +kernel, by decide +kernel, of_decide_eq_true (by decide +kernel), by decide +kernel, by decide +kernel,
      by decide +kernel⟩
theorem witness_unitEvents_2 :
    ∃ (s : State) (u : Nat) (w : Warp) (j : Entry), kget s.warps u = some w ∧ 2 ≤ w.frontier.length ∧ (∀ e ∈ w.frontier, e.st = .waiting .join) ∧ j ∈
      w.frontier ∧ (∀ e ∈ w.frontier, j.pc.toNat ≤ e.pc.toNat) :=
    ⟨joinS, 2, joinW, joinE, by decide +kernel⟩
theorem witness_unitEvents_3 :
    ∃ (s : State) (u : Nat) (lane : Nat) (w : Warp) (p : Who) (e : Entry) (a : Nat) (ph : Bool) (scope : Nat) (bs : List PByte) (k : Nat) (off :
      Nat), kget s.warps u = some w ∧ s.who u = some p ∧ w.entryOf (laneBit lane) = some e ∧ e.st = .waiting (.pbwait a ph scope) ∧ s.checkElem p u
      lane .load true false 0 (BitVec.ofNat 64 a) 4 = (s, .ok bs) ∧ bs.map (·.loc) = (List.range 4).map (fun j => .spad k (off + j)) ∧ phaseOf
      ((List.range 4).map (fun j => s.spadByte k (off + j))) ≠ ph :=
    ⟨waitS, 2, 0, waitW, whoW, waitE, 0x01F0000000000000, true, 1, bytesOf waitR.2, 1, 0, by decide +kernel, by decide +kernel, by decide +kernel,
      of_decide_eq_true (by decide +kernel), Prod.ext (by decide +kernel) (by decide +kernel), by decide +kernel, by decide +kernel⟩
theorem witness_unitEvents_4 :
    ∃ (s : State) (u : Nat) (w : Warp), kget s.warps u = some w :=
    ⟨warpS 1, 2, aWarp false, by decide +kernel⟩
theorem witness_unitEvents_5 :
    ∃ (s : State) (u : Nat) (w : Warp) (p : Who) (lr : LaunchRec) (r : SfRec) (e : Entry), kget s.warps u = some w ∧ s.atBoundary u = true ∧ s.who u
      = some p ∧ s.lrOf p.launch = some lr ∧ lr.trapentry ≠ 0 ∧ w.hlanes = 0 ∧ r ∈ (s.core p.core).sfq ∧ r.u = u ∧ (∀ x ∈ (s.core p.core).sfq, x.u =
      u → x ≠ r → r.seq < x.seq) ∧ r.lanes ≠ 0 ∧ e ∈ w.frontier ∧ e.isReady = true ∧ e.mask &&& r.lanes = r.lanes ∧ (∀ x ∈ w.frontier, x ≠ e → x.mask
      &&& r.lanes = 0) :=
    ⟨sfS, 2, aWarp false, whoW, LaunchRec.small false, sfR, anEntry, by decide +kernel, by decide +kernel, by decide +kernel, of_decide_eq_true (by decide +kernel),
      by decide +kernel, by decide +kernel, by decide +kernel, of_decide_eq_true (by decide +kernel), by decide +kernel, by decide +kernel, by decide +kernel,
      of_decide_eq_true (by decide +kernel), by decide +kernel, by decide +kernel⟩
theorem witness_unitEvents_6 :
    ∃ (s : State) (u : Nat) (w : Warp) (p : Who) (lr : LaunchRec) (e : Entry), kget s.warps u = some w ∧ s.atBoundary u = true ∧ s.who u = some p ∧
      s.lrOf p.launch = some lr ∧ lr.trapentry ≠ 0 ∧ w.hlanes = 0 ∧ w.overrunTrap = true ∧ headOf w.frontier = some e ∧ e.mask ≠ 0 :=
    ⟨overS, 2, overW, whoW, LaunchRec.small false, anEntry, by decide +kernel, by decide +kernel, by decide +kernel, of_decide_eq_true (by decide +kernel),
      by decide +kernel⟩
theorem witness_unitEvents_7 :
    ∃ (s : State) (u : Nat) (w : Warp) (p : Who) (lr : LaunchRec) (e : Entry) (cause : Nat) (info : Nat) (addr : Nat) (pc : Nat) (rest : List (Nat ×
      Nat × Nat × Nat)), kget s.warps u = some w ∧ s.atBoundary u = true ∧ s.who u = some p ∧ s.lrOf p.launch = some lr ∧ lr.trapentry ≠ 0 ∧ w.hlanes
      = 0 ∧ w.passFaults = (cause, info, addr, pc) :: rest ∧ headOf w.frontier = some e ∧ e.mask ≠ 0 :=
    ⟨passS, 2, passW, whoW, LaunchRec.small false, anEntry, 0x11, 1, 0x50000, 0x10008, [], by decide +kernel, by decide +kernel, by decide +kernel,
      of_decide_eq_true (by decide +kernel), by decide +kernel⟩

def spadByteQ : QByte := ⟨0x01F0000000000010, some (.spad 1 16), 7, 5, 0⟩
def memByteQ : QByte := ⟨0x50000, some (.mem 0x50000), 7, 1, 0⟩
def drainE (b : QByte) : QEntry := ⟨[b], none, none, 0, 0x10000, 1, 0⟩
def drainW (b : QByte) : Warp := { aWarp false with queues := [(0, [drainE b])] }
def drainS (b : QByte) : State := unitS (drainW b)
theorem located {bs : List QByte} (h : bs.all (fun b => b.loc.isSome) = true) : ∀ b ∈ bs, b.loc.isSome = true := List.all_eq_true.1 h
def cvL (d : BitVec 128) : CvLine := ⟨-1, d, 0, [], 1, 0⟩
def cvS (d : BitVec 128) : State := State.reset.modCore 0 (fun c => { c with cv := [(0x800, cvL d)] })
def msW (pa wid val unit : Nat) : MsWrite := ⟨pa, BitVec.ofNat 8 val, wid, 0, pa, some 0, false, unit⟩
def msS : State := { unitS (aWarp false) with ms := [msW 0x50000 2 1 0, msW 0x50000 2 3 0, msW 0x50000 1 2 0] }
def unitMs : State := { unitS (aWarp false) with ms := [msW 0x50001 2 1 7, msW 0x50000 2 3 7, msW 0x50002 1 2 0] }
def vsE : VsEntry := ⟨3, ⟨0, 0, 0, 0xC101, 0, 1, 0, []⟩, true, true, 1, [], 0, 0⟩
def vsS : State := State.reset.modCore 0 (fun c => { c with vs := [(7, vsE)] })
/-- The order-first budget of the period spent. -/
def spentS : State := { State.reset with fleet := { State.reset.fleet with budgets := [(67, 1)], used := [(67, 1)] } }
def txW : Warp := { aWarp false with tx := some 9 }
def txAt (st : TxSt) (t : Nat) : State := { unitS txW with txs := [(9, aTx st)], timebase := t }
def overLr : LaunchRec := { LaunchRec.small false with ofbudget := 2 }
def overrunS : State := { box txW (aBlock false) { aLaunch false with lr := overLr } with txs := [(9, aTx .admitted)], timebase := 2000 }
theorem witness_orderingEvents_1a :
    ∃ (s : State) (u : Nat) (lane : Nat) (w : Warp) (p : Who) (e : QEntry) (rest : List QEntry), kget s.warps u = some w ∧ s.who u = some p ∧ sget []
      w.queues lane = e :: rest ∧ e.rel = none ∧ (∀ b ∈ e.bytes, b.loc.isSome = true) ∧ w.behind lane e = false ∧ e.bytes = [spadByteQ] :=
    ⟨drainS spadByteQ, 2, 0, drainW spadByteQ, whoW, drainE spadByteQ, [], by decide +kernel, by decide +kernel, by decide +kernel,
      of_decide_eq_true (by decide +kernel), located (by decide +kernel), by decide +kernel, by decide +kernel⟩
theorem witness_orderingEvents_1b :
    ∃ (s : State) (u : Nat) (lane : Nat) (w : Warp) (p : Who) (e : QEntry) (rest : List QEntry), kget s.warps u = some w ∧ s.who u = some p ∧ sget []
      w.queues lane = e :: rest ∧ e.rel = none ∧ (∀ b ∈ e.bytes, b.loc.isSome = true) ∧ w.behind lane e = false ∧ e.bytes = [memByteQ] :=
    ⟨drainS memByteQ, 2, 0, drainW memByteQ, whoW, drainE memByteQ, [], by decide +kernel, by decide +kernel, by decide +kernel, of_decide_eq_true (by decide +kernel),
      located (by decide +kernel), by decide +kernel, by decide +kernel⟩
theorem witness_orderingEvents_2 :
    ∃ (s : State) (v : Nat) (line : Nat) (l : CvLine), kget (s.core v).cv line = some l ∧ l.dirty ≠ 0 :=
    ⟨cvS 5, 0, 0x800, cvL 5, by decide +kernel, by decide +kernel⟩
theorem witness_orderingEvents_3 :
    ∃ (s : State) (pa : Nat) (pre : List MsWrite) (w : MsWrite) (post : List MsWrite), s.ms = pre ++ w :: post ∧ w.pa = pa ∧ (∀ x ∈ pre, x.pa = pa →
      x.wid ≤ w.wid) ∧ (∀ x ∈ post, x.pa = pa → x.wid < w.wid) ∧ w.eng = false ∧ w.unit = 0 ∧ (∀ l ∈ s.launches, l.2.lr.measure = false ∧
      l.2.lr.record = false) :=
    ⟨msS, 0x50000, [msW 0x50000 2 1 0], msW 0x50000 2 3 0, [msW 0x50000 1 2 0], by decide +kernel, by decide +kernel, by decide +kernel,
      of_decide_eq_true (by decide +kernel), by decide +kernel, by decide +kernel, by decide +kernel⟩
theorem witness_orderingEvents_4 :
    ∃ (s : State) (pa : Nat) (pre : List MsWrite) (w : MsWrite) (post : List MsWrite), s.ms = pre ++ w :: post ∧ w.pa = pa ∧ (∀ x ∈ pre, x.pa = pa →
      x.wid ≤ w.wid) ∧ (∀ x ∈ post, x.pa = pa → x.wid < w.wid) ∧ w.unit ≠ 0 ∧ (∀ x ∈ s.ms, x.eng = false) :=
    ⟨unitMs, 0x50000, [msW 0x50001 2 1 7], msW 0x50000 2 3 7, [msW 0x50002 1 2 0], by decide +kernel, by decide +kernel, by decide +kernel,
      of_decide_eq_true (by decide +kernel), by decide +kernel, by decide +kernel⟩
theorem witness_orderingEvents_5 :
    ∃ (s : State) (v : Nat) (line : Nat) (l : CvLine), kget (s.core v).cv line = some l ∧ l.dirty = 0 :=
    ⟨cvS 0, 0, 0x800, cvL 0, by decide +kernel, by decide +kernel⟩
theorem witness_orderingEvents_6a :
    ∃ (s : State) (v : Nat) (line : Nat) (l : CvLine), kget (s.core v).cv line = some l ∧ l.dirty ≠ 0 ∧ l.present &&& ~~~l.dirty ≠ 0 :=
    ⟨cvS 5, 0, 0x800, cvL 5, by decide +kernel, by decide +kernel, by decide +kernel⟩
theorem witness_orderingEvents_6b :
    ∃ (s : State) (v : Nat) (line : Nat) (l : CvLine), kget (s.core v).cv line = some l ∧ l.dirty ≠ 0 ∧ l.present &&& ~~~l.dirty = 0 :=
    ⟨cvS (-1), 0, 0x800, cvL (-1), by decide +kernel, by decide +kernel, by decide +kernel⟩
theorem witness_orderingEvents_7 :
    ∃ (s : State) (core : Nat) (eid : Nat) (e : VsEntry), kget (s.core core).vs eid = some e ∧ e.pending = true :=
    ⟨vsS, 0, 7, vsE, by decide +kernel, by decide +kernel⟩
theorem witness_orderingEvents_8 :
    ∃ (s : State) (h : Nat) (x : Tx), kget s.txs h = some x ∧ x.st = .flight ∧ (s.txLaunch x = none ∨ (∃ l, s.txLaunch x = some l ∧ l.seatsLogged =
      false)) ∧ sget 0 (s.seq x.die).openAt (beatKey x.part (s.txBeat x)) < s.timebase / s.txBeat x * s.txBeat x :=
    ⟨txAt .flight 1000, 9, aTx .flight, by decide +kernel, by decide +kernel, .inr ⟨aLaunch false, by decide +kernel, by decide +kernel⟩,
      by decide +kernel⟩
theorem witness_orderingEvents_9 :
    ∃ (s : State) (h : Nat) (x : Tx), s.txs = [(h, x)] ∧ x.st = .seated ∧ (s.txLaunch x = none ∨ (∃ l, s.txLaunch x = some l ∧ (l.seatsLogged = false
      ∨ s.allSubmitted l x.die x.beat = true))) ∧ x.start + s.txBeat x ≤ s.timebase :=
    ⟨txAt .seated 500, 9, aTx .seated, by decide +kernel, by decide +kernel, .inr ⟨aLaunch false, by decide +kernel, .inl (by decide +kernel)⟩,
      by decide +kernel⟩
theorem witness_orderingEvents_10 :
    ∃ (s : State), s.spent 67 = true :=
    ⟨spentS, by decide +kernel⟩
theorem witness_orderingEvents_11 :
    ∃ (s : State), s.spent 67 = false :=
    ⟨State.reset, by decide +kernel⟩
theorem witness_orderingEvents_12 :
    ∃ (s : State) (h : Nat) (x : Tx) (w : Warp) (p : Who), kget s.txs h = some x ∧ x.st = .queued ∧ (∀ y ∈ s.txs, y.2.inQueues = true → y.2.before x
      = false) ∧ x.wrP.length ≤ 64 ∧ kget s.warps x.u = some w ∧ s.who x.u = some p :=
    ⟨txAt .queued 500, 9, aTx .queued, txW, whoW, by decide +kernel, by decide +kernel, by decide +kernel, of_decide_eq_true (by decide +kernel), by decide +kernel,
      by decide +kernel⟩
theorem witness_orderingEvents_13 :
    ∃ (s : State) (h : Nat) (x : Tx) (w : Warp) (lr : LaunchRec), kget s.txs h = some x ∧ x.st = .admitted ∧ s.lrOf x.launch = some lr ∧ lr.ofbudget
      ≠ 0 ∧ x.since + lr.ofbudget * 1000 ≤ s.timebase ∧ kget s.warps x.u = some w :=
    ⟨overrunS, 9, aTx .admitted, txW, overLr, by decide +kernel, by decide +kernel, by decide +kernel, of_decide_eq_true (by decide +kernel), by decide +kernel,
      by decide +kernel⟩

def aPosted : Posted := ⟨5, 0x10000, [(0, 0x50010)], 4, false, [], []⟩
def walkE : QEntry := ⟨(List.range 4).map (fun k => ⟨0x50010 + k, none, 1, 0, 0⟩), none, some 5, 0, 0x10000, 1, 0⟩
def walkW : Warp := { aWarp false with posted := [aPosted], queues := [(0, [walkE])] }
def walkS : State := mapped (unitS walkW) false
def walkR : State × Res := State.checkElem { walkS with rl := [] } whoW 2 0 .store aPosted.need false (sget 0 aPosted.level 0) (BitVec.ofNat 64 0x50010) aPosted.width
def outR (rec : Bool) (page : Nat) : Outst := ⟨0, page, page + 8, 1, 1, 0, 0, rec⟩
def faultS : State := (((State.reset.modPart 0 (fun x => { x with outst := [outR true 0x4000, outR false 0x8000], groups := 1 })).setPreg 0 .fqSize 4).setPreg 0 .fqTail 3).setPreg 0 .fqHead 1
def collapseS : State := (State.reset.mapOne.setHNat 0x8000 8 95).modPart 0 (fun x => { x with outst := [{ outR true 0x50000 with kind := 3 }] })
def parkE : Entry := ⟨0x10000, 1, .parked (.driver 0x50000 2), 0, false, 0x50008⟩
def parkW : Warp := { aWarp false with frontier := [parkE] }
def resumeS : State := (unitS parkW).modPart 0 (fun x => { x with outst := [outR true 0x50000] })
theorem witness_pageEvents_1 :
    ∃ (s : State) (u : Nat) (w : Warp) (p : Who) (x : Posted) (lane : Nat) (va : Nat) (e : QEntry) (bs : List PByte), kget s.warps u = some w ∧ s.who
      u = some p ∧ w.posted = [x] ∧ x.vas = [(lane, va)] ∧ x.rejected = [] ∧ w.queues = [(lane, [e])] ∧ e.walk = some x.id ∧ (State.checkElem { s with rl := [] }
      p u lane .store x.need false (sget 0 x.level lane) (BitVec.ofNat 64 va) x.width).2 = .ok bs ∧ e.bytes ≠ [] :=
    ⟨walkS, 2, walkW, whoW, aPosted, 0, 0x50010, walkE, bytesOf walkR.2, by decide +kernel, by decide +kernel, by decide +kernel, of_decide_eq_true (by decide +kernel),
      by decide +kernel, by decide +kernel, by decide +kernel, of_decide_eq_true (by decide +kernel), by decide +kernel⟩
theorem witness_pageEvents_2 :
    ∃ (s : State) (p : Nat) (pre : List Outst) (o : Outst) (post : List Outst), (s.part p).outst = pre ++ o :: post ∧ (∀ x ∈ pre, x.recorded = true)
      ∧ o.recorded = false ∧ s.preg p .fqSize ≠ 0 ∧ s.ownsRange p (s.preg p .fqBase + 32 * s.preg p .fqTail) 32 = true ∧ (s.preg p .fqTail + 1) %
      s.preg p .fqSize ≠ s.preg p .fqHead % s.preg p .fqSize :=
    ⟨faultS, 0, [outR true 0x4000], outR false 0x8000, [], by decide +kernel, by decide +kernel, by decide +kernel, of_decide_eq_true (by decide +kernel),
      by decide +kernel, by decide +kernel⟩
theorem witness_pageEvents_3 :
    ∃ (s : State) (p : Nat) (ctx : Nat) (page : Nat) (o : Outst) (pte : Nat) (sz : Nat) (at_ : Nat), o ∈ (s.part p).outst ∧ o.ctx = ctx ∧ o.page =
      page ∧ o.kind = 3 ∧ o.recorded = true ∧ s.spent 64 = false ∧ s.walk p ctx page = .leaf pte sz at_ ∧ pteClass pte = 2 ∧ pte < 2 ^ 64 ∧ (∀ b ∈
      s.blocks, b.2.errWait = none) ∧ (s.part p).inb = [] :=
    ⟨collapseS, 0, 0, 0x50000, { outR true 0x50000 with kind := 3 }, 95, 36, 0x8000, by decide +kernel, by decide +kernel, by decide +kernel,
      of_decide_eq_true (by decide +kernel), by decide +kernel, by decide +kernel, by decide +kernel, of_decide_eq_true (by decide +kernel), by decide +kernel, by decide +kernel,
      by decide +kernel⟩
theorem witness_pageEvents_4 :
    ∃ (s : State) (p : Nat), s.preg p .sdBusy ≠ 1 :=
    ⟨State.reset, 0, by decide +kernel⟩
theorem witness_pageEvents_5 :
    ∃ (s : State) (p : Nat), s.preg p .sdBusy = 1 ∧ s.sdQuiet p (s.preg p .sdCtx) = true :=
    ⟨State.reset.setPreg 0 .sdBusy 1, 0, by decide +kernel, by decide +kernel⟩
theorem witness_pageEvents_6 :
    ∃ (s : State) (p : Nat) (page : Nat) (ctx : Nat) (o : Outst), ctx = s.preg p .fqrCtx ∧ o ∈ (s.part p).outst ∧ o.ctx = ctx ∧ o.page = page ∧ (∀ b
      ∈ s.blocks, b.2.errWait = none) ∧ (s.part p).inb = [] :=
    ⟨resumeS, 0, 0x50000, 0, outR true 0x50000, by decide +kernel, by decide +kernel, by decide +kernel, of_decide_eq_true (by decide +kernel), by decide +kernel,
      by decide +kernel⟩
theorem witness_pageEvents_7 :
    ∃ (s : State) (p : Nat) (page : Nat) (ctx : Nat) (o : Outst) (u : Nat) (w : Warp) (q : Who) (lr : LaunchRec) (e : Entry) (acc : Nat), ctx =
      s.preg p .fqrCtx ∧ o ∈ (s.part p).outst ∧ o.ctx = ctx ∧ o.page = page ∧ (∀ b ∈ s.blocks, b.2.errWait = none) ∧ (s.part p).inb = [] ∧ s.warps =
      [(u, w)] ∧ s.who u = some q ∧ q.part = p ∧ q.ctx = ctx ∧ s.lrOf q.launch = some lr ∧ lr.trapentry ≠ 0 ∧ w.hlanes = 0 ∧ w.ended = false ∧
      w.frontier = [e] ∧ e.mask ≠ 0 ∧ e.st = .parked (.driver page acc) :=
    ⟨resumeS, 0, 0x50000, 0, outR true 0x50000, 2, parkW, whoW, LaunchRec.small false, parkE, 2, by decide +kernel, by decide +kernel,
      by decide +kernel, of_decide_eq_true (by decide +kernel), by decide +kernel, by decide +kernel, by decide +kernel, of_decide_eq_true (by decide +kernel), by decide +kernel,
      by decide +kernel, by decide +kernel, of_decide_eq_true (by decide +kernel), by decide +kernel⟩
theorem witness_pageEvents_8 :
    ∃ (s : State) (p : Nat) (ctx : Nat), ctx < s.preg p .ctxCount :=
    ⟨State.reset.mapOne, 0, 0, by decide +kernel⟩

/-- A copy of three elements: the source holds two, the destination two. -/
def aVec (base n : Nat) : Tensor := ⟨base, 4, 1, 0, 0, [n, 1, 1, 1, 1], [0, 0, 0, 0], 0, 0⟩
def cp : Cmd := { Cmd.blank with id := 11, ticket := 0x40, src := aVec 0x50000 2, dst := aVec 0x60000 2, origin := [0, 0, 0, 0], extent := [3, 1, 1, 1], dorigin := [0, 0, 0, 0], scouted := [20, 24] }
def engOf (c : Cmd) : Engine := ⟨[], some c, 1, []⟩
def engRun (c : Cmd) : State := { mapped State.reset false with engines := [(0, engOf c)] }
def unitR (s : State) (c : Cmd) (acc : Acc) (va n : Nat) : State × Res := s.unitCheckRej c.rejected [.engine 0] (s.cmdWho 0 c) 0x11 acc va n
def scout1 : State × Res := unitR (engRun cp) cp .load 0x50000 4
def scout2 : State × Res := unitR scout1.1 cp .store 0x60000 4
theorem scout1_ok : scout1.2 = .ok (bytesOf scout1.2) := by decide +kernel
theorem scout2_ok : scout2.2 = .ok (bytesOf scout2.2) := by decide +kernel
theorem scout_passes : ScoutPasses 0 cp (cp.touches 0) (engRun cp) scout2.1 := by
  have h : cp.touches 0 = [(.load, 0x50000, 4), (.store, 0x60000, 4)] := by decide +kernel
  rw [h]; exact ⟨_, scout1_ok, _, scout2_ok, rfl⟩
def read1 : State × Res := unitR (engRun cp) cp .load (cp.src.addr [1, 0, 0, 0, 0]) (fmtSize cp.src.fmt)
def cg : Cmd := { cp with mode := 1, gather := 0x70000 }
def gath0 : State × Res := unitR (engRun cg) cg .load ((cg.gather + 4 * 0) % 2 ^ 64) 4
def cw : Cmd := { cp with rd := [(1, (7, 0)), (2, (8, 0))], wrote := [0] }
def write1 : State × Res := unitR (engRun cw) cw .store (cw.dst.addr (cw.dstAt 1)) (fmtSize cw.dst.fmt)
/-- An all-reduce of two ranks, one element; the same with the own element read; and done. -/
def cc : Cmd := { Cmd.blank with id := 11, ticket := 0x40, coll := true, ckind := 0, nranks := 2, myrank := 1, csrc := 0x50000, cdst := 0x60000, count := 1, group := [4, 5] }
def cread : State × Res := unitR (engRun cc) cc .load ((cc.csrc + collBytes cc.ckind * 0) % 2 ^ 64) (collBytes cc.ckind)
def ci : Cmd := { cc with rd := [(0, (9, (engRun cc).preg 0 .peerLevel))] }
def inb0 : State × Res := unitR (engRun ci) ci .store ((ci.cdst + collBytes ci.ckind * 0) % 2 ^ 64) (collBytes ci.ckind)
def cd : Cmd := { cp with wrote := [0, 1, 2] }
def cf : Cmd := { cp with stop := some (0x11, 0x50000, 1) }
def late : State := { engRun cc with timebase := 1000000000000 }
def ce : Cmd := { ci with wrote := [0] }
theorem witness_engineEvents_1 :
    ∃ (s : State) (eng : Nat) (c : Cmd) (r : List Cmd), (s.engine eng).run = none ∧ (s.engine eng).queue = c :: r ∧ s.sess c.part < 4 ∧
      s.power.halted = false :=
    ⟨{ engRun cp with engines := [(0, ⟨[cp], none, 1, []⟩)] }, 0, cp, [], by decide +kernel⟩
theorem witness_engineEvents_2 :
    ∃ (s : State) (eng : Nat) (k : Nat) (e : Engine) (c : Cmd) (s1 : State), s.running eng = some (e, c) ∧ c.coll = false ∧ c.stop = none ∧ k <
      c.elems ∧ (c.srcAt k).isSome = true ∧ k ∉ c.wrote ∧ (∀ j < k, c.scoutedTo j = true) ∧ c.ahead k ≤ c.scout ∧ ScoutPasses eng c (c.touches k) s
      s1 :=
    ⟨engRun cp, 0, 0, engOf cp, cp, scout2.1, by decide +kernel, by decide +kernel, by decide +kernel, of_decide_eq_true (by decide +kernel), by decide +kernel,
      by decide +kernel, by decide +kernel, of_decide_eq_true (by decide +kernel), scout_passes⟩
theorem witness_engineEvents_3 :
    ∃ (s : State) (eng : Nat) (k : Nat) (e : Engine) (c : Cmd) (x : List Nat), s.running eng = some (e, c) ∧ c.coll = false ∧ c.stop = none ∧ k <
      c.elems ∧ kget c.rd k = none ∧ c.scoutedTo k = true ∧ c.srcAt k = some x ∧ c.src.inBounds x = false :=
    ⟨engRun cp, 0, 2, engOf cp, cp, [2, 0, 0, 0, 0], by decide +kernel, by decide +kernel, by decide +kernel, of_decide_eq_true (by decide +kernel), by decide +kernel⟩
theorem witness_engineEvents_4 :
    ∃ (s : State) (eng : Nat) (k : Nat) (e : Engine) (c : Cmd) (x : List Nat) (s1 : State) (bs : List PByte), s.running eng = some (e, c) ∧ c.coll =
      false ∧ c.stop = none ∧ k < c.elems ∧ kget c.rd k = none ∧ c.scoutedTo k = true ∧ c.srcAt k = some x ∧ c.src.inBounds x = true ∧ isOutside bs =
      false ∧ s.unitCheckRej c.rejected [.engine eng] (s.cmdWho eng c) 0x11 .load (c.src.addr x) (fmtSize c.src.fmt) = (s1, .ok bs) :=
    ⟨engRun cp, 0, 1, engOf cp, cp, [1, 0, 0, 0, 0], read1.1, bytesOf read1.2, by decide +kernel, by decide +kernel, by decide +kernel,
      of_decide_eq_true (by decide +kernel), by decide +kernel, by decide +kernel, by decide +kernel, of_decide_eq_true (by decide +kernel), by decide +kernel, res_ok (r := read1)
      (by decide +kernel)⟩
theorem witness_engineEvents_5 :
    ∃ (s : State) (eng : Nat) (j : Nat) (e : Engine) (c : Cmd) (s1 : State) (bs : List PByte), s.running eng = some (e, c) ∧ c.coll = false ∧ c.stop
      = none ∧ c.mode = 1 ∧ j < cmdExt c 1 ∧ kget c.idx j = none ∧ isOutside bs = false ∧ s.unitCheckRej c.rejected [.engine eng] (s.cmdWho eng c)
      0x11 .load ((c.gather + 4 * j) % 2 ^ 64) 4 = (s1, .ok bs) :=
    ⟨engRun cg, 0, 0, engOf cg, cg, gath0.1, bytesOf gath0.2, by decide +kernel, by decide +kernel, by decide +kernel, of_decide_eq_true (by decide +kernel),
      by decide +kernel, by decide +kernel, by decide +kernel, res_ok (r := gath0) (by decide +kernel)⟩
theorem witness_engineEvents_6 :
    ∃ (s : State) (eng : Nat) (k : Nat) (e : Engine) (c : Cmd) (s1 : State) (bs : List PByte), s.running eng = some (e, c) ∧ c.coll = true ∧ c.stop =
      none ∧ k < c.count ∧ c.sends = true ∧ kget c.rd k = none ∧ isOutside bs = false ∧ bs.foldl (fun m b => max m b.lev) 0 ≤ s.preg c.part
      .peerLevel ∧ s.sess c.part < 2 ∧ s.unitCheckRej c.rejected [.engine eng] (s.cmdWho eng c) 0x11 .load ((c.csrc + collBytes c.ckind * k) % 2 ^
      64) (collBytes c.ckind) = (s1, .ok bs) :=
    ⟨engRun cc, 0, 0, engOf cc, cc, cread.1, bytesOf cread.2, by decide +kernel, by decide +kernel, by decide +kernel, of_decide_eq_true (by decide +kernel),
      by decide +kernel, by decide +kernel, by decide +kernel, of_decide_eq_true (by decide +kernel), by decide +kernel, res_ok (r := cread) (by decide +kernel)⟩
theorem witness_engineEvents_7 :
    ∃ (s : State) (eng : Nat) (k : Nat) (e : Engine) (c : Cmd) (v : Nat) (lev : Nat), s.running eng = some (e, c) ∧ c.coll = false ∧ c.stop = none ∧
      k < c.elems ∧ c.mode ≠ 2 ∧ k ∉ c.wrote ∧ c.scoutedTo k = true ∧ kget c.rd k = some (v, lev) ∧ c.dst.inBounds (c.dstAt k) = false :=
    ⟨engRun cw, 0, 2, engOf cw, cw, 8, 0, by decide +kernel, by decide +kernel, by decide +kernel, of_decide_eq_true (by decide +kernel), by decide +kernel⟩
theorem witness_engineEvents_8 :
    ∃ (s : State) (eng : Nat) (k : Nat) (e : Engine) (c : Cmd) (v : Nat) (lev : Nat) (s1 : State) (bs : List PByte), s.running eng = some (e, c) ∧
      c.coll = false ∧ c.stop = none ∧ k < c.elems ∧ c.mode ≠ 2 ∧ k ∉ c.wrote ∧ c.scoutedTo k = true ∧ kget c.rd k = some (v, lev) ∧ c.dst.inBounds
      (c.dstAt k) = true ∧ isOutside bs = false ∧ (∀ b ∈ bs, lev ≤ b.lev) ∧ (∀ b ∈ bs, ∃ pa, b.loc = .mem pa) ∧ s.unitCheckRej c.rejected [.engine
      eng] (s.cmdWho eng c) 0x11 .store (c.dst.addr (c.dstAt k)) (fmtSize c.dst.fmt) = (s1, .ok bs) :=
    ⟨engRun cw, 0, 1, engOf cw, cw, 7, 0, write1.1, bytesOf write1.2, by decide +kernel, by decide +kernel, by decide +kernel, of_decide_eq_true (by decide +kernel),
      by decide +kernel, by decide +kernel, by decide +kernel, of_decide_eq_true (by decide +kernel), by decide +kernel, by decide +kernel, by decide +kernel, of_inMem
      (by decide +kernel), res_ok (r := write1) (by decide +kernel)⟩
theorem witness_engineEvents_10 :
    ∃ (s : State) (eng : Nat) (port : Nat) (k : Nat) (e : Engine) (c : Cmd) (s1 : State) (bs : List PByte) (v : Nat) (own : Nat), s.running eng =
      some (e, c) ∧ c.coll = true ∧ c.stop = none ∧ k < c.collOut ∧ k ∉ c.wrote ∧ c.ckind ≠ 2 ∧ c.ckind ≠ 5 ∧ c.ownElem k = none ∧ port < 20 ∧ port ∉
      s.fabric.down ∧ (s.part c.part).allocs = [] ∧ (own = (if c.ckind = 3 ∨ c.ckind = 4 then c.myrank * (c.count / max c.nranks 1) + k else k)) ∧
      kget c.rd own = some (v, s.preg c.part .peerLevel) ∧ isOutside bs = false ∧ (∀ b ∈ bs, s.preg c.part .peerLevel ≤ b.lev) ∧ (∀ b ∈ bs, ∃ pa,
      b.loc = .mem pa) ∧ s.unitCheckRej c.rejected [.engine eng] (s.cmdWho eng c) 0x11 .store ((c.cdst + collBytes c.ckind * k) % 2 ^ 64) (collBytes
      c.ckind) = (s1, .ok bs) :=
    ⟨engRun ci, 0, 3, 0, engOf ci, ci, inb0.1, bytesOf inb0.2, 9, 0, by decide +kernel, by decide +kernel, by decide +kernel, of_decide_eq_true (by decide +kernel),
      by decide +kernel, by decide +kernel, by decide +kernel, of_decide_eq_true (by decide +kernel), by decide +kernel, by decide +kernel, by decide +kernel,
      of_decide_eq_true (by decide +kernel), by decide +kernel, by decide +kernel, by decide +kernel, of_inMem (by decide +kernel), res_ok (r := inb0)
      (by decide +kernel)⟩
theorem witness_engineEvents_11 :
    ∃ (s : State) (eng : Nat) (e : Engine) (c : Cmd) (s1 : State), s.running eng = some (e, c) ∧ c.coll = false ∧ c.stop = none ∧ c.firstLeft = none
      ∧ s.unitApplied c.id (960 + eng) = true ∧ (s.unlock c.id).arriveAt c.rejected [.engine eng] ((s.unlock c.id).cmdWho eng c) c.id c.done
      c.doneCount = (s1, none) ∧ NoWaiter s1 c :=
    ⟨engRun cd, 0, engOf cd, cd, (engRun cd).unlock 11, by decide +kernel, by decide +kernel, by decide +kernel, of_decide_eq_true (by decide +kernel),
      by decide +kernel, rfl, (fun x hx => nomatch hx)⟩
theorem witness_engineEvents_12 :
    ∃ (s : State) (eng : Nat) (e : Engine) (c : Cmd) (s1 : State) (cause : Nat) (addr : Nat) (info : Nat), s.running eng = some (e, c) ∧ c.coll =
      false ∧ c.stop = some (cause, addr, info) ∧ s.unitApplied c.id (960 + eng) = true ∧ (s.unlock c.id).arriveAt c.rejected [.engine eng]
      ((s.unlock c.id).cmdWho eng c) c.id c.done c.doneCount = (s1, none) ∧ NoWaiter s1 c :=
    ⟨engRun cf, 0, engOf cf, cf, (engRun cf).unlock 11, 0x11, 0x50000, 1, by decide +kernel, by decide +kernel, by decide +kernel, of_decide_eq_true (by decide +kernel),
      rfl, (fun x hx => nomatch hx)⟩
theorem witness_engineEvents_13a :
    ∃ (s : State) (eng : Nat) (cause : Nat) (e : Engine) (c : Cmd) (s1 : State) (s2 : State) (st : Nat), s.running eng = some (e, c) ∧ c.coll = true
      ∧ c.stop = none ∧ s.unitApplied c.id (960 + eng) = true ∧ (∀ p < 20, ∀ w ∈ s.ms, w.eng = true → w.wid ≠ 1024 + p) ∧ ((cause = 0 ∧ c.collDone =
      true ∧ st = 1) ∨ (cause = 0x17 ∧ st = 2) ∨ (cause = 0x18 ∧ c.since + s.dreg .fTimeout ≤ s.timebase ∧ st = 2)) ∧ (s.unlock c.id).writeStatus eng
      c (st + cause * 256) = (s1, none) ∧ s1.arriveAt c.rejected [.engine eng] (s1.cmdWho eng c) c.id c.done c.doneCount = (s2, none) ∧ NoWaiter s2 c :=
    ⟨engRun ce, 0, 0, engOf ce, ce, (engRun ce).unlock 11, (engRun ce).unlock 11, 1, by decide +kernel, by decide +kernel, by decide +kernel,
      of_decide_eq_true (by decide +kernel), (fun _ _ w hw => nomatch hw), by decide +kernel, rfl, rfl, (fun x hx => nomatch hx)⟩
theorem witness_engineEvents_13b :
    ∃ (s : State) (eng : Nat) (cause : Nat) (e : Engine) (c : Cmd) (s1 : State) (s2 : State) (st : Nat), s.running eng = some (e, c) ∧ c.coll = true
      ∧ c.stop = none ∧ s.unitApplied c.id (960 + eng) = true ∧ (∀ p < 20, ∀ w ∈ s.ms, w.eng = true → w.wid ≠ 1024 + p) ∧ ((cause = 0 ∧ c.collDone =
      true ∧ st = 1) ∨ (cause = 0x17 ∧ st = 2) ∨ (cause = 0x18 ∧ c.since + s.dreg .fTimeout ≤ s.timebase ∧ st = 2)) ∧ (s.unlock c.id).writeStatus eng
      c (st + cause * 256) = (s1, none) ∧ s1.arriveAt c.rejected [.engine eng] (s1.cmdWho eng c) c.id c.done c.doneCount = (s2, none) ∧ NoWaiter s2 c :=
    ⟨engRun cc, 0, 0x17, engOf cc, cc, (engRun cc).unlock 11, (engRun cc).unlock 11, 2, by decide +kernel, by decide +kernel, by decide +kernel,
      of_decide_eq_true (by decide +kernel), (fun _ _ w hw => nomatch hw), by decide +kernel, rfl, rfl, (fun x hx => nomatch hx)⟩
theorem witness_engineEvents_13c :
    ∃ (s : State) (eng : Nat) (cause : Nat) (e : Engine) (c : Cmd) (s1 : State) (s2 : State) (st : Nat), s.running eng = some (e, c) ∧ c.coll = true
      ∧ c.stop = none ∧ s.unitApplied c.id (960 + eng) = true ∧ (∀ p < 20, ∀ w ∈ s.ms, w.eng = true → w.wid ≠ 1024 + p) ∧ ((cause = 0 ∧ c.collDone =
      true ∧ st = 1) ∨ (cause = 0x17 ∧ st = 2) ∨ (cause = 0x18 ∧ c.since + s.dreg .fTimeout ≤ s.timebase ∧ st = 2)) ∧ (s.unlock c.id).writeStatus eng
      c (st + cause * 256) = (s1, none) ∧ s1.arriveAt c.rejected [.engine eng] (s1.cmdWho eng c) c.id c.done c.doneCount = (s2, none) ∧ NoWaiter s2 c :=
    ⟨late, 0, 0x18, engOf cc, cc, late.unlock 11, late.unlock 11, 2, by decide +kernel, by decide +kernel, by decide +kernel, of_decide_eq_true (by decide +kernel), (fun
      _ _ w hw => nomatch hw), by decide +kernel, rfl, rfl, (fun x hx => nomatch hx)⟩

/-! An all-gather's elements have the size the device gives them (log 11). -/
def ca : Cmd := { cc with ckind := 2, rd := [(0, (9, 0))] }
theorem collBytes_all : collBytes 2 ∈ [1, 2, 4] := by
  have h : collBytes 2 = 2 ^ (Config.collSize 2 % 3) := rfl
  rw [h]
  have : Config.collSize 2 % 3 < 3 := Nat.mod_lt _ (by decide)
  generalize Config.collSize 2 % 3 = j at this
  match j, this with
  | 0, _ => decide
  | 1, _ => decide
  | 2, _ => decide
def gatherW (n : Nat) : State × Res := unitR (engRun ca) ca .store ((ca.cdst + n * 1) % 2 ^ 64) n
theorem gatherW_ok : ∀ n ∈ [1, 2, 4], (gatherW n).2 = .ok (bytesOf (gatherW n).2) ∧ isOutside (bytesOf (gatherW n).2) = false ∧
    (bytesOf (gatherW n).2).all inMem = true := by decide +kernel
theorem witness_engineEvents_9 : ∃ (s : State) (eng k : Nat) (e : Engine) (c : Cmd) (v lev : Nat) (s1 : State) (bs : List PByte), s.running eng = some (e, c) ∧ c.coll = true ∧ c.stop = none ∧
    k < c.collOut ∧ k ∉ c.wrote ∧ (c.ownElem k).bind (kget c.rd) = some (v, lev) ∧ isOutside bs = false ∧ (∀ b ∈ bs, lev ≤ b.lev) ∧
    (∀ b ∈ bs, ∃ pa, b.loc = .mem pa) ∧
    s.unitCheckRej c.rejected [.engine eng] (s.cmdWho eng c) 0x11 .store ((c.cdst + collBytes c.ckind * k) % 2 ^ 64) (collBytes c.ckind) = (s1, .ok bs) := by
  obtain ⟨h1, h2, h3⟩ := gatherW_ok _ collBytes_all
  exact ⟨engRun ca, 0, 1, engOf ca, ca, 9, 0, (gatherW (collBytes 2)).1, bytesOf (gatherW (collBytes 2)).2, by decide +kernel, rfl, rfl, by decide, by decide, by decide,
    h2, fun _ _ => Nat.zero_le _, of_inMem h3, Prod.ext rfl h1⟩

/-- The tile context of the box, on the mapped device, with commands of its block's tile 3 posted. -/
def matB : Block := withTile (aBlock true)
def matE (ks : List MCmd) : State := { mapped (box (aWarp true) matB (aLaunch true)) false with mengs := [(0, ⟨ks⟩)] }
def whoT : Who := ⟨0, 0, 768, 0, 1, 0, 0x3F, true⟩
def aCmd (k : MKind) (id : Nat) : MCmd := { MCmd.blank with kind := k, id := id, blk := 1, u := 2, tile := 3, prio := 3 }
def mz : MCmd := aCmd .mzero 5
def mz2 : MCmd := { aCmd .mzero 6 with prio := 2 }
def mm : MCmd := { aCmd .mmac 5 with a := some ⟨aTensor 0, 0, 0⟩, b := some ⟨aTensor 1, 0, 0⟩ }
def fetchT : State × Res := (matE [mm]).unitCheckRej mm.rejected [.fetch 0] whoT 0x14 .load (mm.needs 0 0).get!.1 (mm.needs 0 0).get!.2
def mg : MCmd := { mz with granted := true }
theorem mg_needs (w k : Nat) : (mg.needs w k).isNone = true := by
  simp [MCmd.needs, MCmd.elemAt, MCmd.scaleAt, mg, mz, aCmd, MCmd.blank]
theorem mg_fetched : mg.fetched = true := by
  unfold MCmd.fetched
  simp only [List.all_eq_true]
  exact fun w _ k _ => mg_needs w k
def mp : MCmd := aCmd .mpost 5
def md (sub : List Nat) : MCmd := { aCmd .mdrain 5 with out := { aTensor 4 with base := 0x50000 }, m := 1, n := 1, sub := sub }
def outT : State × List (Nat × Nat × List PByte) × Option (Nat × Res) := (matE [md []]).drainChecks 0 whoT (md []) (md []).outs
theorem outs_in : outT.2.1.all (fun o => !isOutside o.2.2 && o.2.2.all inMem) = true := by decide +kernel
theorem outs_mem : ∀ o ∈ outT.2.1, isOutside o.2.2 = false ∧ ∀ b ∈ o.2.2, ∃ pa, b.loc = .mem pa := by
  intro o ho
  have h := List.all_eq_true.1 outs_in o ho
  simp only [Bool.and_eq_true, Bool.not_eq_true'] at h
  exact ⟨h.1, of_inMem h.2⟩
def ma : MCmd := { md [1] with amax := true, absmax := 0x60000 }
def absT : State × Res := (matE [ma]).unitCheckRej ma.rejected [.cluster 0] whoT 0x14 .atomic ma.absmax 4
def accE : Entry := ⟨0x10000, 1, .waiting (.acalloc 127 2), 0, false, 0x10004⟩
def accW : Warp := { aWarp true with frontier := [accE] }
def accB : Block := { aBlock true with accWait := some 2, tiles := [(0, Tile.fresh)] }
def accS : State := box accW accB (aLaunch true)
/-- Blocks that wait for tiles: the oldest asks for 16 of the 15 that are free; the youngest holds one. -/
def aTile : Tile := { Tile.fresh with data := [(16383, 5)] }
def spillB (bid tiles want : Nat) : Block := { aBlock true with bid := bid, tiles := (List.range tiles).map (fun k => (k, aTile)), accWait := some want, saveBase := 0x50000 }
def overL : Launch := { aLaunch true with lr := { LaunchRec.small true with overcommit := true } }
def spillS : State := { State.reset with launches := [(0, overL)], blocks := [(11, spillB 0 0 16), (12, spillB 1 16 1), (13, spillB 2 16 1), (14, spillB 3 16 1), (15, spillB 4 1 3)] }
def mf : MCmd := { aCmd .acfree 5 with tiles := [3] }
def preB : Block := { aBlock true with preempt := true, preemptAt := 7 }
def preS : State := { box (aWarp true) preB (aLaunch true) with timebase := 2000007 }
theorem witness_matrixEvents_1 :
    ∃ (s : State) (cl : Nat) (k : MCmd), (∀ x ∈ (s.meng cl).table, x.granted = false) ∧ Grantable s cl k ∧ (∀ x, Grantable s cl x → x ≠ k → x.prio <
      k.prio ∨ (x.prio = k.prio ∧ k.id < x.id)) ∧ (∀ x ∈ (s.meng cl).table, x.prio ≤ 7 ∧ x.id < 2 ^ 64) ∧ (∀ x ∈ (s.meng cl).table, x.id = k.id → x =
      k) :=
    ⟨matE [mz, mz2], 0, mz, by decide +kernel, ⟨List.mem_cons_self, by decide +kernel, by decide +kernel, by decide +kernel, of_decide_eq_true (by decide +kernel), ⟨_,
      rfl, rfl⟩⟩, fun x hx hne => (List.mem_cons.1 hx.1).elim (fun h => absurd h hne) (fun h => .inl (by rw [List.mem_singleton.1 h]; decide)),
      by decide +kernel, by decide +kernel⟩
theorem witness_matrixEvents_2 :
    ∃ (s : State) (cl : Nat) (cmd : Nat) (which : Nat) (k : Nat) (c : MCmd) (p : Who) (va : Nat) (n : Nat) (s1 : State) (bs : List PByte), s.mcmd cl
      cmd = some c ∧ c.needs which k = some (va, n) ∧ s.who c.u = some p ∧ c.paused = none ∧ c.kind.isPass = true ∧ s.sess p.part < 3 ∧ isOutside bs
      = false ∧ s.unitCheckRej c.rejected [.fetch cl] p 0x14 .load va n = (s1, .ok bs) :=
    ⟨matE [mm], 0, 5, 0, 0, mm, whoT, (mm.needs 0 0).get!.1, (mm.needs 0 0).get!.2, fetchT.1, bytesOf fetchT.2, by decide +kernel, by decide +kernel,
      by decide +kernel, of_decide_eq_true (by decide +kernel), by decide +kernel, by decide +kernel, by decide +kernel, res_ok (r := fetchT) (by decide +kernel)⟩
theorem witness_matrixEvents_3 :
    ∃ (s : State) (cl : Nat) (sb : Nat) (c : MCmd) (b : Block) (x : Tile), (s.meng cl).table.find? (·.granted) = some c ∧ kget s.blocks c.blk = some
      b ∧ kget b.tiles c.tile = some x ∧ x.spilled = false ∧ c.paused = none ∧ sb < 256 ∧ sb ∉ c.sub ∧ c.fetched = true ∧ c.m ≤ 128 ∧ c.n ≤ 128 :=
    ⟨matE [mg], 0, 255, mg, matB, Tile.fresh, by decide +kernel, by decide +kernel, by decide +kernel, of_decide_eq_true (by decide +kernel), by decide +kernel,
      by decide +kernel, by decide +kernel, mg_fetched, by decide +kernel, by decide +kernel⟩
theorem witness_matrixEvents_4 :
    ∃ (s : State) (cl : Nat) (cmd : Nat) (c : MCmd) (p : Who) (s1 : State), s.mcmd cl cmd = some c ∧ s.who c.u = some p ∧ c.kind = .mpost ∧ c.paused
      = none ∧ s.earlier cl c = [] ∧ s.arriveLev c.rejected [.cluster cl] p c.id c.addr c.cnt c.lev = (s1, none) :=
    ⟨matE [mp], 0, 5, mp, whoT, matE [mp], by decide +kernel, by decide +kernel, by decide +kernel, of_decide_eq_true (by decide +kernel), by decide +kernel, rfl⟩
theorem witness_matrixEvents_5 :
    ∃ (s : State) (cl : Nat) (cmd : Nat) (c : MCmd) (p : Who) (x : Tile) (s1 : State) (os : List (Nat × Nat × List PByte)), s.mcmd cl cmd = some c ∧
      s.who c.u = some p ∧ s.cmdTile c = some x ∧ c.kind = .mdrain ∧ c.paused = none ∧ s.earlier cl c = [] ∧ s.sess p.part < 3 ∧ c.sub = [] ∧
      s.drainLevel cl p c x.level = none ∧ s.drainChecks cl p c c.outs = (s1, os, none) ∧ (∀ o ∈ os, isOutside o.2.2 = false ∧ ∀ b ∈ o.2.2, ∃ pa,
      b.loc = .mem pa) :=
    ⟨matE [md []], 0, 5, md [], whoT, Tile.fresh, outT.1, outT.2.1, by decide +kernel, by decide +kernel, by decide +kernel, of_decide_eq_true (by decide +kernel),
      by decide +kernel, by decide +kernel, by decide +kernel, of_decide_eq_true (by decide +kernel), by decide +kernel, Prod.ext rfl (Prod.ext rfl (by decide +kernel)),
      outs_mem⟩
theorem witness_matrixEvents_6 :
    ∃ (s : State) (cl : Nat) (cmd : Nat) (c : MCmd) (p : Who) (x : Tile), s.mcmd cl cmd = some c ∧ s.who c.u = some p ∧ s.cmdTile c = some x ∧ c.kind
      = .mdrain ∧ c.paused = none ∧ s.earlier cl c = [] ∧ s.sess p.part < 3 ∧ c.sub ≠ [] ∧ 2 ∉ c.sub ∧ s.unitApplied c.id (768 + cl) = true ∧ c.amax
      = false :=
    ⟨matE [md [1]], 0, 5, md [1], whoT, Tile.fresh, by decide +kernel, by decide +kernel, by decide +kernel, of_decide_eq_true (by decide +kernel), by decide +kernel,
      by decide +kernel, by decide +kernel, of_decide_eq_true (by decide +kernel), by decide +kernel, by decide +kernel, by decide +kernel⟩
theorem witness_matrixEvents_7 :
    ∃ (s : State) (cl : Nat) (cmd : Nat) (c : MCmd) (p : Who) (x : Tile) (s1 : State) (bs : List PByte), s.mcmd cl cmd = some c ∧ s.who c.u = some p
      ∧ s.cmdTile c = some x ∧ c.kind = .mdrain ∧ c.paused = none ∧ s.earlier cl c = [] ∧ s.sess p.part < 3 ∧ c.sub ≠ [] ∧ 2 ∉ c.sub ∧ s.unitApplied
      c.id (768 + cl) = true ∧ c.amax = true ∧ c.void = false ∧ s.unitCheckRej c.rejected [.cluster cl] p 0x14 .atomic c.absmax 4 = (s1, .ok bs) ∧
      isOutside bs = false ∧ (∀ b ∈ bs, x.level ≤ b.lev) :=
    ⟨matE [ma], 0, 5, ma, whoT, Tile.fresh, absT.1, bytesOf absT.2, by decide +kernel, by decide +kernel, by decide +kernel, of_decide_eq_true (by decide +kernel),
      by decide +kernel, by decide +kernel, by decide +kernel, of_decide_eq_true (by decide +kernel), by decide +kernel, by decide +kernel, by decide +kernel,
      of_decide_eq_true (by decide +kernel), res_ok (r := absT) (by decide +kernel), by decide +kernel, by decide +kernel⟩
theorem witness_matrixEvents_8 :
    ∃ (s : State) (cl : Nat) (cmd : Nat) (c : MCmd) (p : Who) (x : Tile) (s1 : State), s.mcmd cl cmd = some c ∧ s.who c.u = some p ∧ s.cmdTile c =
      some x ∧ c.kind = .mdrain ∧ c.paused = none ∧ s.earlier cl c = [] ∧ s.sess p.part < 3 ∧ 1 ∈ c.sub ∧ 2 ∈ c.sub ∧ 3 ∉ c.sub ∧ s.unitApplied c.id
      (768 + cl) = true ∧ c.void = false ∧ c.zero = false ∧ s.arriveAt c.rejected [.cluster cl] p c.id c.addr c.cnt = (s1, none) :=
    ⟨matE [md [2, 1]], 0, 5, md [2, 1], whoT, Tile.fresh, matE [md [2, 1]], by decide +kernel, by decide +kernel, by decide +kernel,
      of_decide_eq_true (by decide +kernel), by decide +kernel, by decide +kernel, by decide +kernel, of_decide_eq_true (by decide +kernel), by decide +kernel, by decide +kernel,
      by decide +kernel, of_decide_eq_true (by decide +kernel), by decide +kernel, rfl⟩
theorem witness_matrixEvents_9 :
    ∃ (s : State) (cl : Nat) (blk : Nat) (b : Block) (r : Nat) (n : Nat) (u : Nat) (w : Warp) (f : Nat) (e : Entry), (s.accWaiters cl).head? = some
      (blk, b) ∧ b.reqTiles ≤ s.tilesFree cl ∧ b.accWait = some n ∧ b.tctx = some u ∧ b.freeRun n = some f ∧ kget s.warps u = some w ∧ w.frontier =
      [e] ∧ e.st = .waiting (.acalloc r n) ∧ r < 128 ∧ w.tile = true :=
    ⟨accS, 0, 1, accB, 127, 2, 2, accW, 1, accE, rfl, by decide +kernel, by decide +kernel, by decide +kernel, of_decide_eq_true (by decide +kernel), by decide +kernel⟩
theorem witness_matrixEvents_10 :
    ∃ (s : State) (cl : Nat) (blk : Nat) (b : Block) (b0 : Nat × Block) (k : Nat) (x : Tile), (s.accWaiters cl).head? = some b0 ∧ s.tilesFree cl <
      b0.2.reqTiles ∧ (∀ z ∈ s.blocks, z.2.core / 4 = cl → 0 < s.tilesHeld z.2 → z.2.accWait.isSome = true) ∧ ((s.accWaiters cl).filter (fun z =>
      decide (0 < s.tilesHeld z.2))).getLast? = some (blk, b) ∧ b.tiles = [(k, x)] ∧ (x.data.map (·.1)).Nodup :=
    ⟨spillS, 0, 15, spillB 4 1 3, (11, spillB 0 0 16), 0, aTile, by decide +kernel, by decide +kernel, by decide +kernel, of_decide_eq_true (by decide +kernel),
      by decide +kernel, by decide +kernel⟩
theorem witness_matrixEvents_11 :
    ∃ (s : State) (cl : Nat) (cmd : Nat) (c : MCmd) (b : Block), s.mcmd cl cmd = some c ∧ c.kind = .acfree ∧ kget s.blocks c.blk = some b ∧ (∀ x ∈
      (s.meng cl).table, x.blk = c.blk → x.id < c.id → x.tile ∉ c.tiles) :=
    ⟨matE [mf], 0, 5, mf, matB, by decide +kernel⟩
theorem witness_matrixEvents_12 :
    ∃ (s : State) (blk : Nat) (b : Block) (l : Launch), kget s.blocks blk = some b ∧ kget s.launches b.launch = some l ∧ b.preempt = true ∧ s.sess
      l.part ≠ 2 ∧ (s.sess l.part = 3 ∨ b.preemptAt + 2000000 ≤ s.timebase) ∧ (∀ e ∈ s.mengs, ∀ k ∈ e.2.table, k.blk = blk → k.granted = false) :=
    ⟨preS, 1, preB, aLaunch true, by decide +kernel, by decide +kernel, by decide +kernel, of_decide_eq_true (by decide +kernel), by decide +kernel, by decide +kernel⟩

def aNode : Node := ⟨0x50000, 255, 0, 20, true, false, some [], 0, 0, 0, 0, [], false, false, 0⟩
def reachN : Node := { aNode with running := true, reach := [(0, 0x50000)] }
def queueS (en : Nat) (ring : List Nat) : State := { State.reset.setReg (.q 255 .en) en with rings := [(255, ring)] }
def abortL : Launch := { aLaunch false with diverged := true, node := some 20 }
def abortS (bs : KMap Block) : State := { State.reset with launches := [(0, abortL)], nodes := [(20, aNode)], blocks := bs }
/-- Numbers placed in memory: address, bytes, value. -/
def place (ws : List (Nat × Nat × Nat)) (s : State) : State := ws.foldl (fun s x => s.setHNat x.1 x.2.1 x.2.2) s
/-- A node of a kind with a target, first in its ring. -/
def dispS (kind target : Nat) (ws : List (Nat × Nat × Nat)) : State :=
  { place ([(0x50000, 1, kind), (0x50008, 8, target), (0x5007C, 4, 7)] ++ ws) (mapped State.reset false) with nodes := [(20, aNode)], rings := [(255, [20])] }
/-- The number that the words placed in a record make. -/
def numberAt (base len : Nat) (ws : List (Nat × Nat × Nat)) : Nat := ((ws.filter (fun x => x.1 < base + len)).map (fun x => x.2.2 * 2 ^ (8 * (x.1 - base)))).sum
def nodeV (kind target : Nat) (ws : List (Nat × Nat × Nat)) : Nat := numberAt 0x50000 128 ([(0x50000, 1, kind), (0x50008, 8, target), (0x5007C, 4, 7)] ++ ws)
def nodeN (kind target : Nat) (ws : List (Nat × Nat × Nat)) : Node := let v := nodeV kind target ws
  { aNode with running := true, kind := nodeKind v, target := nodeTarget v, value := nodeValue v, queue := nodeQueue v, ranges := some (aNode.ranges.getD (nodeRanges v)) }
theorem dispatches {k t : Nat} {ws : List (Nat × Nat × Nat)} (h1 : (dispS k t ws).nextNode 0 = some (20, aNode))
    (h2 : (dispS k t ws).readNode 0 ((dispS k t ws).nodeCtx aNode) 0x50000 = .fields (nodeV k t ws)) :
    Dispatches (dispS k t ws) 0 20 aNode (nodeV k t ws) (nodeN k t ws) := ⟨h1, h2, rfl⟩
/-- A launch record of one block of one warp, at 0x6_0000. -/
def launchWs : List (Nat × Nat × Nat) := [(0x60000, 8, 0x10000), (0x60018, 4, 3), (0x60020, 8, 1), (0x60028, 8, 64 + 2 ^ 32), (0x60030, 8, 1 + 2 ^ 33 + 2 ^ 36),
  (0x60060, 8, 1 + 4 * 256), (0x60080, 4, 4096), (0x60088, 2, 16), (0x600A8, 8, 0x20000)]
def collWs : List (Nat × Nat × Nat) := [(0x60004, 2, 2), (0x60008, 8, 0x1000), (0x60010, 8, 0x1000), (0x60018, 8, 1), (0x60020, 8, 0x70000)]
def doneN : Node := { aNode with running := true, finished := true }
def succWs : List (Nat × Nat × Nat) := [(0x50010, 8, 0x50080), (0x50084, 4, 1)]
def doneS (ws : List (Nat × Nat × Nat)) (n : Node) : State := { (place ws (mapped State.reset false)).setReg (.q 0 .en) 1 with nodes := [(20, n)] }
def admL : Launch := { aLaunch false with waitFrom := some 0 }
def admS : State := { mapped State.reset false with
  parts := [(0, { State.reset.mapOne.part 0 with spill := ⟨0x100000, 0x1000⟩, privPool := ⟨0x200000, 0x100000⟩, save := ⟨0x400000, 0x1000⟩ })], launches := [(0, admL)] }
def areaR : Option (State × Area) := admS.takeArea 0 admL.nextBlk
def overB : State := box { aWarp false with frontier := [], ended := true } (aBlock false) (aLaunch false)
def endL : Launch := { aLaunch false with nextBlk := 1, retired := 1 }
def endX (l : Launch) : State := { State.reset with launches := [(0, l)] }
def sigL : Launch := { endL with lr := { LaunchRec.small false with sigaddr := 0x70000, sigval := 9 } }
def sigS : State := { mapped State.reset false with launches := [(0, sigL)] }
def sliceS : State := { ((State.reset.setDreg (.lmPhys 1) 0).setDreg (.lmShared 0) 1) with timebase := 100000, fleet := { State.reset.fleet with inactive := [1] } }
def gateL : Launch := { aLaunch false with gates := [(2, 5, 0, 0x50000)], node := some 20 }
def gateS : State := { State.reset with launches := [(0, gateL)], nodes := [(20, aNode)], timebase := 1000005 }
theorem witness_dispatchEvents_1 :
    ∃ (s : State) (fn : Nat) (q : Nat), s.seesQueue fn q = true ∧ (sget [] s.rings q).length < 1024 ∧ s.qreg q .en = 1 :=
    ⟨queueS 1 [], 0, 255, by decide +kernel, by decide +kernel, by decide +kernel⟩
theorem witness_dispatchEvents_2a :
    ∃ (s : State) (fn : Nat) (q : Nat), s.seesQueue fn q = true ∧ (1024 ≤ (sget [] s.rings q).length ∨ s.qreg q .en ≠ 1) :=
    ⟨queueS 0 [], 0, 255, by decide +kernel, by decide +kernel⟩
theorem witness_dispatchEvents_2b :
    ∃ (s : State) (fn : Nat) (q : Nat), s.seesQueue fn q = true ∧ (1024 ≤ (sget [] s.rings q).length ∨ s.qreg q .en ≠ 1) :=
    ⟨queueS 1 (List.range 1024), 0, 255, by decide +kernel, by decide +kernel⟩
theorem witness_dispatchEvents_3 :
    ∃ (s : State) (fn : Nat) (q : Nat), s.seesQueue fn q = true :=
    ⟨queueS 0 [], 0, 255, by decide +kernel⟩
theorem witness_dispatchEvents_4 :
    ∃ (s : State) (fn : Nat) (q : Nat), s.seesQueue fn q = true :=
    ⟨queueS 0 [], 1, 255, by decide +kernel⟩
theorem witness_dispatchEvents_5 :
    ∃ (s : State) (fn : Nat) (q : Nat) (lid : Nat) (l : Launch) (nid : Nat) (n : Node), s.seesQueue fn q = true ∧ s.launches = [(lid, l)] ∧
      l.diverged = true ∧ l.aborted = false ∧ l.node = some nid ∧ kget s.nodes nid = some n ∧ n.q = q ∧ l.saved = [] :=
    ⟨abortS [(1, aBlock false)], 0, 255, 0, abortL, 20, aNode, by decide +kernel, by decide +kernel, by decide +kernel, of_decide_eq_true (by decide +kernel),
      by decide +kernel⟩
theorem witness_dispatchEvents_9 :
    ∃ (s : State) (p : Nat) (id : Nat) (n0 : Node) (v : Nat) (n : Node), Dispatches s p id n0 v n ∧ nodeOk v = true ∧ n.kind = 4 ∧ bits n.target 11 0
      < 2048 ∧ s.reg (.ntfBase (p + 1)) = 0 :=
    ⟨dispS 4 2047 [], 0, 20, aNode, nodeV 4 2047 [], nodeN 4 2047 [], dispatches (by decide +kernel) (by decide +kernel), by decide +kernel⟩
theorem witness_dispatchEvents_10 :
    ∃ (s : State) (p : Nat) (id : Nat) (n0 : Node) (v : Nat) (n : Node), Dispatches s p id n0 v n ∧ nodeOk v = true ∧ n.kind = 5 ∧ s.qreg n.queue
      .part = p :=
    ⟨dispS 5 0x70000 [(0x50079, 1, 255)], 0, 20, aNode, nodeV 5 0x70000 [(0x50079, 1, 255)], nodeN 5 0x70000 [(0x50079, 1, 255)], dispatches
      (by decide +kernel) (by decide +kernel), by decide +kernel, by decide +kernel, by decide +kernel⟩
theorem witness_dispatchEvents_11 :
    ∃ (s : State) (p : Nat) (id : Nat) (n0 : Node) (v : Nat) (n : Node), Dispatches s p id n0 v n ∧ nodeOk v = false :=
    ⟨dispS 6 0 [], 0, 20, aNode, nodeV 6 0 [], nodeN 6 0 [], dispatches (by decide +kernel) (by decide +kernel), by decide +kernel⟩
theorem witness_dispatchEvents_12 :
    ∃ (s : State) (n : Nat) (x : Node), kget s.nodes n = some x ∧ x.finished = true ∧ x.faulted = false ∧ x.ranges.getD [] = [] ∧ s.succWait x = none
      ∧ s.succs (s.nodePart x) (s.nodeCtx x) 65536 x.addr = [] :=
    ⟨doneS [] doneN, 20, doneN, by decide +kernel, by decide +kernel, by decide +kernel, of_decide_eq_true (by decide +kernel), by decide +kernel, by decide +kernel⟩
theorem witness_dispatchEvents_16 :
    ∃ (y : Node) (k : Nat × Nat) (next : List (Nat × Nat)), y.running = true ∧ k ∈ y.reach ∧ (∀ j, j ∈ y.reach ∨ j ∈ next → j = k) :=
    ⟨reachN, (0, 0x50000), [], by decide +kernel, by decide +kernel, fun j h => h.elim List.mem_singleton.1 (fun h => nomatch h)⟩
theorem witness_dispatchEvents_17 :
    ∃ (y : Node) (k : Nat × Nat) (next : List (Nat × Nat)) (j : Nat × Nat), y.running = true ∧ k ∈ y.reach ∧ (j ∈ y.reach ∨ j ∈ next) ∧ j ≠ k :=
    ⟨reachN, (0, 0x50000), [(0, 0x60000)], (0, 0x60000), by decide +kernel⟩
theorem witness_dispatchEvents_18 :
    ∃ (s : State) (n : Nat) (x : Node), kget s.nodes n = some x ∧ x.finished = true ∧ x.faulted = true ∧ x.ranges.getD [] = [] ∧ x.stopCode ≠ 0 :=
    ⟨doneS [] { doneN with faulted := true, stopCode := 5 }, 20, { doneN with faulted := true, stopCode := 5 }, by decide +kernel⟩
theorem witness_dispatchEvents_19 :
    ∃ (s : State) (l : Nat) (x : Launch) (c : Nat) (s1 : State) (a : Area), kget s.launches l = some x ∧ s.offer l x = some [c] ∧ (∀ h ∈ s.launches,
      h.2.part = x.part → h.2.ahead x = true → s.offer h.1 h.2 = none) ∧ s.takeArea l x.nextBlk = some (s1, a) ∧ s1.nextUid = s.nextUid ∧ s1.warps =
      s.warps ∧ s1.blocks = s.blocks ∧ (∃ y, kget s1.launches l = some y ∧ y.lr = x.lr ∧ y.nextBlk = x.nextBlk) :=
    ⟨admS, 0, admL, 0, (areaR.getD (State.reset, ⟨0, 0, 0, none⟩)).1, (areaR.getD (State.reset, ⟨0, 0, 0, none⟩)).2, by decide +kernel,
      by decide +kernel, by decide +kernel, some_pair (o := areaR) (State.reset, ⟨0, 0, 0, none⟩) (by decide +kernel), by decide +kernel,
      by decide +kernel, by decide +kernel, ⟨_, some_ok admL (by decide +kernel), by decide +kernel, by decide +kernel⟩⟩
theorem witness_dispatchEvents_20 :
    ∃ (s : State) (l : Nat) (core : Nat) (x : Launch) (t0 : Nat), kget s.launches l = some x ∧ s.admissible x = true ∧ x.reserved = none ∧ x.waitFrom
      = some t0 ∧ t0 + 1000000 ≤ s.timebase ∧ core ∈ s.coresOf x.part ∧ s.fits1 x core = true :=
    ⟨{ admS with timebase := 1000000 }, 0, 3, admL, 0, by decide +kernel, by decide +kernel, by decide +kernel, of_decide_eq_true (by decide +kernel), by decide +kernel,
      by decide +kernel, by decide +kernel⟩
theorem witness_dispatchEvents_21 :
    ∃ (s : State) (blk : Nat) (b : Block) (l : Launch), kget s.blocks blk = some b ∧ s.blockOver blk b = true ∧ kget s.launches b.launch = some l ∧
      l.lr.record = false ∧ l.lr.replay = false ∧ l.lr.measure = false ∧ l.diverged = false :=
    ⟨overB, 1, aBlock false, aLaunch false, by decide +kernel, by decide +kernel, by decide +kernel, of_decide_eq_true (by decide +kernel), by decide +kernel,
      by decide +kernel, by decide +kernel⟩
theorem witness_dispatchEvents_22 :
    ∃ (s : State) (l : Nat) (x : Launch), kget s.launches l = some x ∧ s.launchOver l x = true ∧ x.sig.isSome = true :=
    ⟨endX { endL with sig := some 7 }, 0, { endL with sig := some 7 }, by decide +kernel, by decide +kernel, by decide +kernel⟩
theorem witness_dispatchEvents_23 :
    ∃ (s : State) (l : Nat) (x : Launch), kget s.launches l = some x ∧ s.launchOver l x = true ∧ x.sig = none ∧ x.aborted = true :=
    ⟨endX { endL with aborted := true }, 0, { endL with aborted := true }, by decide +kernel⟩
theorem witness_dispatchEvents_24a :
    ∃ (s : State) (l : Nat) (x : Launch), kget s.launches l = some x ∧ s.launchOver l x = true ∧ x.sig = none ∧ x.aborted = false ∧ x.lr.measure =
      false ∧ x.lr.sigaddr = 0 :=
    ⟨endX endL, 0, endL, by decide +kernel, by decide +kernel, by decide +kernel, of_decide_eq_true (by decide +kernel), by decide +kernel, by decide +kernel⟩
theorem witness_dispatchEvents_26 :
    ∃ (s : State) (die : Nat) (phys : Nat) (a : Nat) (b : Nat), (s.servedBy die phys).filter (fun l => !s.fleet.inactive.contains l) = [a] ∧
      (s.servedBy die phys).filter (fun l => s.fleet.inactive.contains l) = [b] ∧ s.dreg (.lmShared a) = 1 ∧ sget 0 s.fleet.sliceAt (192 * die +
      phys) + 100000 ≤ s.timebase ∧ (∀ w ∈ s.warpsOn a, w.2.xw = none) :=
    ⟨sliceS, 0, 0, 0, 1, by decide +kernel⟩
theorem witness_dispatchEvents_27 :
    ∃ (s : State) (l : Nat) (u : Nat) (x : Launch) (since : Nat) (die : Nat) (at_ : Nat) (n : Nat) (nd : Node), kget s.launches l = some x ∧ kget
      x.gates u = some (since, die, at_) ∧ x.lr.measure = false ∧ since + 1000000 ≤ s.timebase ∧ x.diverged = false ∧ x.node = some n ∧ kget s.nodes
      n = some nd :=
    ⟨gateS, 0, 2, gateL, 5, 0, 0x50000, 20, aNode, by decide +kernel, by decide +kernel, by decide +kernel, of_decide_eq_true (by decide +kernel), by decide +kernel,
      by decide +kernel, by decide +kernel⟩

/-- What a reading gave meets a test. -/
def rdIs {α : Type} (r : Rd α) (p : α → Bool) : Bool := match r.2 with
  | .ok a => p a
  | .error _ => false
theorem of_rd {α : Type} {r : Rd α} {p : α → Bool} (h : rdIs r p = true) : ∃ s1 a, r = (s1, .ok a) ∧ p a = true := by
  obtain ⟨s1, e⟩ := r
  cases e with
  | ok a => exact ⟨s1, a, rfl, h⟩
  | error e => cases h
theorem of_none {r : State × Option Res} (h : r.2.isNone = true) : ∃ s1, r = (s1, none) := by
  obtain ⟨s1, e⟩ := r
  cases e with
  | none => exact ⟨s1, rfl⟩
  | some e => cases h
theorem of_rdNat {r : Rd Nat} {v : Nat} (h : rdIs r (· == v) = true) : ∃ s1, r = (s1, .ok v) := by
  obtain ⟨s1, a, h, e⟩ := of_rd h
  exact ⟨s1, (beq_iff_eq.1 e) ▸ h⟩
/-- A kernel node whose record is refused, and one that is taken. -/
theorem witness_dispatchEvents_6 : ∀ bad : Bool, ∃ (s : State) (p id : Nat) (n0 : Node) (v : Nat) (n : Node) (v2 : Nat) (s1 : State), Dispatches s p id n0 v n ∧ nodeOk v = true ∧
    n.kind = 0 ∧ s.readAligned (.walker (s.nodePart n) (s.nodeCtx n)) n.target 256 256 = (s1, .ok v2) ∧
    (s.leaveRing id n).refused (s.nodePart n) (s.nodeCtx n) v2 = bad ∧ (LaunchRec.of v2).measure = false ∧ (LaunchRec.of v2).record = false
  | true => by
    obtain ⟨s1, hr⟩ : ∃ s1, (dispS 0 0x60000 []).readAligned (.walker ((dispS 0 0x60000 []).nodePart (nodeN 0 0x60000 [])) ((dispS 0 0x60000 []).nodeCtx (nodeN 0 0x60000 [])))
      (nodeN 0 0x60000 []).target 256 256 = (s1, .ok 0) := of_rdNat (by decide +kernel)
    exact ⟨_, 0, 20, aNode, _, _, 0, s1, dispatches (by decide +kernel) (by decide +kernel), by decide +kernel, by decide +kernel, hr, by decide +kernel⟩
  | false => by
    obtain ⟨s1, hr⟩ : ∃ s1, (dispS 0 0x60000 launchWs).readAligned (.walker ((dispS 0 0x60000 launchWs).nodePart (nodeN 0 0x60000 launchWs))
      ((dispS 0 0x60000 launchWs).nodeCtx (nodeN 0 0x60000 launchWs))) (nodeN 0 0x60000 launchWs).target 256 256 = (s1, .ok (numberAt 0x60000 256 launchWs)) := of_rdNat (by decide +kernel)
    exact ⟨_, 0, 20, aNode, _, _, _, s1, dispatches (by decide +kernel) (by decide +kernel), by decide +kernel, by decide +kernel, hr, by decide +kernel⟩
theorem witness_dispatchEvents_8 : ∃ (s : State) (p id : Nat) (n0 : Node) (v : Nat) (n : Node) (s1 : State), Dispatches s p id n0 v n ∧ nodeOk v = true ∧ n.kind = 3 ∧
    n.target % 4 = 0 ∧ (s.leaveRing id n).releaseWrite p (s.nodeCtx n0) id n.target (bytesLE 4 n.value) = (s1, none) := by
  obtain ⟨s1, hr⟩ : ∃ s1, ((dispS 3 0x70004 []).leaveRing 20 (nodeN 3 0x70004 [])).releaseWrite 0 ((dispS 3 0x70004 []).nodeCtx aNode) 20 (nodeN 3 0x70004 []).target
    (bytesLE 4 (nodeN 3 0x70004 []).value) = (s1, none) := of_none (by decide +kernel)
  exact ⟨_, 0, 20, aNode, _, _, s1, dispatches (by decide +kernel) (by decide +kernel), by decide +kernel, by decide +kernel, by decide +kernel, hr⟩
/-- A node's command is read, checked and started. -/
def starts (coll : Bool) (s : State) (id : Nat) (n : Node) : Bool :=
  let r := rdThen (if coll then rdThen (s.readColl (.walker (s.nodePart n) (s.nodeCtx n)) n.target) (fun t x => (t, .ok (x, false)))
    else s.readCopy (.walker (s.nodePart n) (s.nodeCtx n)) n.target) (fun t x =>
      rdThen (t.wordChecks (s.walkWho (s.nodePart n) (s.nodeCtx n)) [] x.1.words) (fun t _ => (t, .ok x)))
  match r.2 with
  | .ok x => (s.startCmd ((s.walkWho (s.nodePart n) (s.nodeCtx n)).core / 192)
      { x.1 with part := s.nodePart n, ctx := s.nodeCtx n, core := (s.walkWho (s.nodePart n) (s.nodeCtx n)).core, node := some id } x.2).isSome
  | .error _ => false
theorem of_starts {coll : Bool} {s : State} {id : Nat} {n : Node} (h : starts coll s id n = true) : ∃ (x : Cmd) (lock : Bool) (s1 s2 : State) (k : Nat),
    rdThen (if coll then rdThen (s.readColl (.walker (s.nodePart n) (s.nodeCtx n)) n.target) (fun t x => (t, .ok (x, false)))
      else s.readCopy (.walker (s.nodePart n) (s.nodeCtx n)) n.target) (fun t x =>
        rdThen (t.wordChecks (s.walkWho (s.nodePart n) (s.nodeCtx n)) [] x.1.words) (fun t _ => (t, .ok x))) = (s1, .ok (x, lock)) ∧
    s.startCmd ((s.walkWho (s.nodePart n) (s.nodeCtx n)).core / 192)
      { x with part := s.nodePart n, ctx := s.nodeCtx n, core := (s.walkWho (s.nodePart n) (s.nodeCtx n)).core, node := some id } lock = some (s2, k) := by
  unfold starts at h
  generalize hr : rdThen _ _ = r at h ⊢
  obtain ⟨s1, e⟩ := r
  cases e with
  | error e => cases h
  | ok x =>
    obtain ⟨y, hy⟩ := Option.isSome_iff_exists.1 h
    exact ⟨x.1, x.2, s1, y.1, y.2, rfl, hy⟩
theorem witness_dispatchEvents_7 : ∃ (coll : Bool) (s : State) (p id : Nat) (n0 : Node) (v : Nat) (n : Node) (x : Cmd) (lock : Bool) (s1 s2 : State) (k : Nat),
    Dispatches s p id n0 v n ∧ nodeOk v = true ∧ n.kind = (if coll then 2 else 1) ∧
    rdThen (if coll then rdThen (s.readColl (.walker (s.nodePart n) (s.nodeCtx n)) n.target) (fun t x => (t, .ok (x, false)))
      else s.readCopy (.walker (s.nodePart n) (s.nodeCtx n)) n.target) (fun t x =>
        rdThen (t.wordChecks (s.walkWho (s.nodePart n) (s.nodeCtx n)) [] x.1.words) (fun t _ => (t, .ok x))) = (s1, .ok (x, lock)) ∧
    s.startCmd ((s.walkWho (s.nodePart n) (s.nodeCtx n)).core / 192)
      { x with part := s.nodePart n, ctx := s.nodeCtx n, core := (s.walkWho (s.nodePart n) (s.nodeCtx n)).core, node := some id } lock = some (s2, k) := by
  obtain ⟨x, lock, s1, s2, k, hx, hg⟩ := of_starts (coll := true) (s := dispS 2 0x60000 collWs) (id := 20) (n := nodeN 2 0x60000 collWs) (by decide +kernel)
  exact ⟨true, _, 0, 20, aNode, _, _, x, lock, s1, s2, k, dispatches (by decide +kernel) (by decide +kernel), by decide +kernel, by decide +kernel, hx, hg⟩
/-- A successor's count falls to 0, and its queue takes it. -/
def releases (s : State) (x : Node) (a : Nat) : Bool :=
  match s.unitCheck [] (s.walkWho (s.nodePart x) (s.nodeCtx x)) 0x11 .atomic (a + 4) 4 with
  | (s1, .ok bs) =>
    let r := s1.rmw (s.walkWho (s.nodePart x) (s.nodeCtx x)) 0 4 bs (fun v => if v = 0 then 0 else v - 1)
    decide (r.2 = (1, 0) ∧ r.1.qreg x.queue .part = s.nodePart x ∧ r.1.qreg x.queue .en = 1 ∧ (sget [] r.1.rings x.queue).length < 1024)
  | _ => false
theorem of_releases {s : State} {x : Node} {a : Nat} (h : releases s x a = true) : ∃ (s1 : State) (bs : List PByte) (s2 : State),
    s.unitCheck [] (s.walkWho (s.nodePart x) (s.nodeCtx x)) 0x11 .atomic (a + 4) 4 = (s1, .ok bs) ∧
    s1.rmw (s.walkWho (s.nodePart x) (s.nodeCtx x)) 0 4 bs (fun v => if v = 0 then 0 else v - 1) = (s2, 1, 0) ∧
    s2.qreg x.queue .part = s.nodePart x ∧ s2.qreg x.queue .en = 1 ∧ (sget [] s2.rings x.queue).length < 1024 := by
  unfold releases at h
  split at h
  · rename_i s1 bs hu
    simp only [decide_eq_true_eq] at h
    exact ⟨s1, bs, _, hu, Prod.ext rfl h.1, h.2⟩
  · cases h
theorem witness_dispatchEvents_13 : ∃ (s : State) (n : Nat) (x : Node) (a : Nat) (s1 : State) (bs : List PByte) (s2 : State),
    (kget s.nodes n = some x ∧ x.finished = true ∧ x.faulted = false ∧ x.ranges.getD [] = [] ∧ s.succWait x = none ∧
      s.succs (s.nodePart x) (s.nodeCtx x) 65536 x.addr = [a] ∧ a % 128 = 0 ∧ a < 2 ^ 57) ∧
    s.unitCheck [] (s.walkWho (s.nodePart x) (s.nodeCtx x)) 0x11 .atomic (a + 4) 4 = (s1, .ok bs) ∧
    s1.rmw (s.walkWho (s.nodePart x) (s.nodeCtx x)) 0 4 bs (fun v => if v = 0 then 0 else v - 1) = (s2, 1, 0) ∧
    s2.qreg x.queue .part = s.nodePart x ∧ s2.qreg x.queue .en = 1 ∧ (sget [] s2.rings x.queue).length < 1024 := by
  have h : releases (doneS succWs doneN) doneN 0x50080 = true := by decide +kernel
  obtain ⟨s1, bs, s2, hr⟩ := of_releases h
  exact ⟨doneS succWs doneN, 20, doneN, 0x50080, s1, bs, s2, by decide +kernel, hr⟩
def sigR : State × Option Res := let s1 := (sigS.closeAllChunks 0).flushLaunch 0
  State.releaseWrite { s1 with nextUid := s1.nextUid + 1 } 0 0 s1.nextUid 0x70000 (bytesLE 4 9)
theorem witness_dispatchEvents_24b : ∃ (s : State) (l : Nat) (x : Launch) (s2 : State), kget s.launches l = some x ∧ s.launchOver l x = true ∧ x.sig = none ∧ x.aborted = false ∧ x.lr.measure = false ∧ x.lr.sigaddr ≠ 0 ∧
    let s1 := (s.closeAllChunks l).flushLaunch l
    State.releaseWrite { s1 with nextUid := s1.nextUid + 1 } x.part x.ctx s1.nextUid x.lr.sigaddr (bytesLE 4 x.lr.sigval) = (s2, none) :=
  ⟨sigS, 0, sigL, sigR.1, by decide +kernel, by decide +kernel, by decide +kernel, of_decide_eq_true (by decide +kernel), by decide +kernel, by decide +kernel, Prod.ext rfl (by decide +kernel)⟩
theorem witness_dispatchEvents_25 : ∃ (s : State) (x : Launch) (n : Nat) (y : Node), x.node = some n ∧ kget s.nodes n = some y :=
  ⟨{ State.reset with nodes := [(20, aNode)] }, abortL, 20, aNode, by decide +kernel, by decide +kernel⟩
/-- A measured launch whose pass is over. -/
def measL : Launch := { endL with lr := { LaunchRec.small false with measure := true } }
def measS : State := { (mapped State.reset false).setPreg 0 .nevt 5 with launches := [(0, measL)] }
def measE : State := let s1 := (measS.closeAllChunks 0).writeCounts 0 measL
  (dedup (s1.ms.map (·.pa))).foldl (fun st pa => st.apply pa) s1
theorem witness_dispatchEvents_28 : ∃ (s : State) (l : Nat) (x y : Launch), kget s.launches l = some x ∧ x.lr.measure = true ∧ s.launchOver l x = true ∧ s.lastPass x = false ∧ x.aborted = false ∧
    kget ((dedup (((s.closeAllChunks l).writeCounts l x).ms.map (·.pa))).foldl (fun st pa => st.apply pa) ((s.closeAllChunks l).writeCounts l x)).launches l = some y :=
  ⟨measS, 0, measL, (kget measE.launches 0).getD measL, by decide +kernel, by decide +kernel, by decide +kernel, of_decide_eq_true (by decide +kernel), by decide +kernel,
    some_ok (o := kget measE.launches 0) measL (by decide +kernel)⟩

def aDbgB : Block := aBlock false
/-- The box on the mapped device, its context under hold, DADDR at 0x10_0000, with numbers placed in memory. -/
def dbgS (b : Block) (ws : List (Nat × Nat × Nat)) : State :=
  ((place ws (mapped (box (aWarp false) b (aLaunch false)) false)).setPreg 0 .daddr 0x100000).modPart 0 (fun x => { x with held := [0] })
/-- A warp section with one ready entry for all lanes. -/
def pokeWs : List (Nat × Nat × Nat) := [(0x100100, 8, 0x10000), (0x100108, 8, 2 ^ 64 - 1), (0x100500, 4, 1)]
/-- An image of the launch's block 0, as far as its header says. -/
def imgWs : List (Nat × Nat × Nat) := [(0x100000, 2, 1), (0x100008, 8, 0x40000), (0x100020, 8, 512), (0x1001F8, 8, 2 ^ 63)]
def savedL : Launch := { aLaunch false with saved := [(0, ⟨1, [2], none, []⟩)], areas := [⟨0, 0, 0, some 0⟩] }
def restS (l : Launch) : State := { (place imgWs (mapped State.reset false)).setPreg 0 .daddr 0x100000 with launches := [(0, l)] }
/-- The same with a block number above the one saved. -/
def restB : State := (restS savedL).setHNat 0x100004 4 1
/-- One level bound to the die domain. -/
def dieLr : LaunchRec := { LaunchRec.small false with levels := [⟨1, 0, 0⟩, ⟨64, 1, 0⟩, ⟨1, 2, 1⟩, ⟨1, 4, 1⟩] }
theorem witness_debugEvents_1 :
    ∃ (s : State) (p : Nat), s.preg p .dstate ≠ 1 :=
    ⟨dbgS aDbgB [], 0, by decide +kernel⟩
theorem witness_debugEvents_2 :
    ∃ (s : State) (p : Nat), s.preg p .dstate ≠ 1 ∧ s.preg p .dctx ∈ (s.part p).held :=
    ⟨dbgS aDbgB [], 0, by decide +kernel, by decide +kernel⟩
theorem witness_debugEvents_3 :
    ∃ (s : State) (p : Nat), s.preg p .dstate ≠ 1 :=
    ⟨dbgS aDbgB [], 0, by decide +kernel⟩
theorem witness_debugEvents_4 :
    ∃ (s : State) (p : Nat) (n : Nat) (i : Instr), i ∈ [Instr.step p, .stepall p, .snap p n, .poke p] ∧ s.preg p .dstate ≠ 1 ∧ s.preg p .dctx ∉
      (s.part p).held :=
    ⟨State.reset, 0, 5, .poke 0, by decide +kernel, by decide +kernel, by decide +kernel⟩
theorem witness_debugEvents_5a :
    ∃ (s : State) (p : Nat) (u : Nat) (w : Warp) (q : Who), s.preg p .dstate ≠ 1 ∧ s.preg p .dctx ∈ (s.part p).held ∧ s.dbWarp p = some (u, w) ∧
      s.who u = some q ∧ headOf w.frontier ≠ none ∧ (s.modPart p (fun x => { x with stepping := (headOf w.frontier).toList.map (fun e => (u, e.pc.toNat, 0)), running := x.running.filter (· != s.preg p .dctx) })).mayIssue
      u w q = true :=
    ⟨dbgS aDbgB [], 0, 2, aWarp false, whoW, by decide +kernel, by decide +kernel, by decide +kernel, of_decide_eq_true (by decide +kernel), by decide +kernel,
      by decide +kernel⟩
theorem witness_debugEvents_5b :
    ∃ (s : State) (p : Nat) (u : Nat) (w : Warp) (q : Who), s.preg p .dstate ≠ 1 ∧ s.preg p .dctx ∈ (s.part p).held ∧ s.dbWarp p = some (u, w) ∧
      s.who u = some q ∧ (w.frontier.filter Entry.isReady) ≠ [] ∧ (s.modPart p (fun x => { x with stepping := (w.frontier.filter Entry.isReady).map (fun e => (u, e.pc.toNat, e.mask)), running := x.running.filter (· != s.preg p .dctx) })).mayIssue
      u w q = true :=
    ⟨dbgS aDbgB [], 0, 2, aWarp false, whoW, by decide +kernel, by decide +kernel, by decide +kernel, of_decide_eq_true (by decide +kernel), by decide +kernel,
      by decide +kernel⟩
theorem witness_debugEvents_5c :
    ∃ (s : State) (p : Nat) (u : Nat) (w : Warp) (q : Who), s.preg p .dstate ≠ 1 ∧ s.preg p .dctx ∈ (s.part p).held ∧ s.dbWarp p = some (u, w) ∧
      s.who u = some q ∧ (s.modPart p (fun x => { x with stepping := (w.frontier.filter Entry.isReady).map (fun e => (u, e.pc.toNat, e.mask)), running := x.running.filter (· != s.preg p .dctx) })).mayIssue
      u w q = false :=
    ⟨dbgS { aDbgB with preempt := true } [], 0, 2, aWarp false, whoW, by decide +kernel⟩
theorem witness_debugEvents_6 :
    ∃ (s : State) (p : Nat) (blk : Nat) (b : Block) (l : Launch), s.preg p .dstate ≠ 1 ∧ s.preg p .dctx ∈ (s.part p).held ∧ s.dbBlock p = some (blk,
      b) ∧ kget s.launches b.launch = some l ∧ s.imagePlace p l.ctx (s.preg p .daddr) (l.lr.imageSize b.tiles.length) = false :=
    ⟨(dbgS aDbgB []).setPreg 0 .daddr (2 ^ 40), 0, 1, aDbgB, aLaunch false, by decide +kernel⟩
theorem witness_debugEvents_7 :
    ∃ (s : State) (p : Nat) (blk : Nat) (b : Block) (l : Launch), s.preg p .dstate ≠ 1 ∧ s.preg p .dctx ∈ (s.part p).held ∧ s.dbBlock p = some (blk,
      b) ∧ kget s.launches b.launch = some l ∧ s.imagePlace p l.ctx (s.preg p .daddr) (l.lr.imageSize b.tiles.length) = true ∧ b.units.all
      s.unitQuiet = true ∧ s.betweenPasses blk = true :=
    ⟨dbgS aDbgB [], 0, 1, aDbgB, aLaunch false, by decide +kernel, by decide +kernel, by decide +kernel, of_decide_eq_true (by decide +kernel), by decide +kernel,
      by decide +kernel, by decide +kernel⟩
theorem witness_debugEvents_8a :
    ∃ (s : State) (p : Nat) (blk : Nat) (b : Block) (l : Launch), s.preg p .dstate ≠ 1 ∧ s.preg p .dctx ∈ (s.part p).held ∧ s.dbBlock p = some (blk,
      b) ∧ kget s.launches b.launch = some l ∧ b.tctx = none ∧ (∃ k u w, b.warps[k]? = some u ∧ kget s.warps u = some w ∧ masksOk w.live
      ((s.rawFrontier (s.preg p .daddr + l.lr.warpAt k)).map (·.2)) 0 = false) :=
    ⟨dbgS aDbgB [], 0, 1, aDbgB, aLaunch false, by decide +kernel, by decide +kernel, by decide +kernel, of_decide_eq_true (by decide +kernel), by decide +kernel, ⟨0, 2,
      aWarp false, by decide +kernel⟩⟩
theorem witness_debugEvents_8b :
    ∃ (s : State) (p : Nat) (blk : Nat) (b : Block) (l : Launch), s.preg p .dstate ≠ 1 ∧ s.preg p .dctx ∈ (s.part p).held ∧ s.dbBlock p = some (blk,
      b) ∧ kget s.launches b.launch = some l ∧ b.tctx = none ∧ (∃ u w, b.warps = [u] ∧ kget s.warps u = some w ∧ w.tile = false ∧ s.imagePlace p
      l.ctx (s.preg p .daddr) (l.lr.imageSize 0) = true ∧ masksOk w.live ((s.rawFrontier (s.preg p .daddr + l.lr.warpAt 0)).map (·.2)) 0 = true) :=
    ⟨dbgS aDbgB pokeWs, 0, 1, aDbgB, aLaunch false, by decide +kernel, by decide +kernel, by decide +kernel, of_decide_eq_true (by decide +kernel), by decide +kernel,
      ⟨2, aWarp false, by decide +kernel⟩⟩
theorem witness_debugEvents_9 :
    ∃ (s : State) (p : Nat) (blk : Nat) (b : Block) (l : Launch), s.preg p .dstate ≠ 1 ∧ s.dbBlock p = some (blk, b) ∧ kget s.blocks blk = some b ∧
      kget s.launches b.launch = some l ∧ s.imagePlace p l.ctx (s.preg p .daddr) (l.lr.imageSize b.tiles.length) = true ∧ b.preempt = false :=
    ⟨dbgS aDbgB [], 0, 1, aDbgB, aLaunch false, by decide +kernel, by decide +kernel, by decide +kernel, of_decide_eq_true (by decide +kernel), by decide +kernel,
      by decide +kernel⟩
theorem witness_debugEvents_10 :
    ∃ (s : State) (p : Nat) (blk : Nat) (b : Block) (l : Launch), s.preg p .dstate ≠ 1 ∧ s.dbBlock p = some (blk, b) ∧ kget s.blocks blk = some b ∧
      kget s.launches b.launch = some l ∧ s.imagePlace p l.ctx (s.preg p .daddr) (l.lr.imageSize b.tiles.length) = true ∧ b.preempt = true ∧
      s.saveReady blk b = true :=
    ⟨dbgS { aDbgB with preempt := true } [], 0, 1, { aDbgB with preempt := true }, aLaunch false, by decide +kernel, by decide +kernel,
      by decide +kernel, of_decide_eq_true (by decide +kernel), by decide +kernel, by decide +kernel, by decide +kernel⟩
theorem witness_debugEvents_11a :
    ∃ (s : State) (p : Nat), s.preg p .dstate ≠ 1 ∧ (s.restoreImage false p (s.preg p .daddr)).2 ≠ 0 :=
    ⟨dbgS aDbgB [], 0, by decide +kernel, by decide +kernel⟩
theorem witness_debugEvents_11b :
    ∃ (s : State) (p : Nat), s.preg p .dstate ≠ 1 ∧ (s.restoreImage false p (s.preg p .daddr)).2 = 0 :=
    ⟨restS savedL, 0, by decide +kernel, by decide +kernel⟩
theorem witness_debugEvents_12 :
    ∃ (s : State) (p : Nat) (at_ : Nat), s.imageOk p at_ (s.header at_) = false :=
    ⟨dbgS aDbgB [], 0, 0x100000, by decide +kernel⟩
theorem witness_debugEvents_13 : ∃ (s : State) (p at_ lid : Nat) (l : Launch), s.imageOk p at_ (s.header at_) = true ∧ s.launchOf p (s.header at_) = some (lid, l) ∧
    (∃ x ∈ l.saved, x.1 < (s.header at_).bid) :=
  ⟨restB, 0, 0x100000, 0, savedL, by decide +kernel, by decide +kernel, by decide +kernel⟩
theorem witness_debugEvents_13b : ∃ (s : State) (p at_ lid : Nat) (l : Launch), s.imageOk p at_ (s.header at_) = true ∧ s.launchOf p (s.header at_) = some (lid, l) ∧
    (∀ x ∈ l.saved, (s.header at_).bid ≤ x.1) ∧ s.restoreCore false lid l (s.header at_) = none :=
  ⟨restS { savedL with unitDies := [(0, 3)], lr := dieLr }, 0, 0x100000, 0, { savedL with unitDies := [(0, 3)], lr := dieLr }, by decide +kernel⟩
theorem witness_debugEvents_13c : ∃ (s : State) (p at_ lid : Nat) (l : Launch) (core : Nat) (a : Area) (k : SavedBlk), s.imageOk p at_ (s.header at_) = true ∧ s.launchOf p (s.header at_) = some (lid, l) ∧
    (∀ x ∈ l.saved, (s.header at_).bid ≤ x.1) ∧ s.restoreCore false lid l (s.header at_) = some core ∧ kget s.launches lid = some l ∧
    l.areas.find? (fun a => a.bid == some (s.header at_).bid) = some a ∧ kget l.saved (s.header at_).bid = some k ∧ k.us.Nodup ∧ k.us.length = l.lr.blockWarps ∧ k.tctx.getD 0 ∉ k.us :=
  ⟨restS savedL, 0, 0x100000, 0, savedL, 0, ⟨0, 0, 0, some 0⟩, ⟨1, [2], none, []⟩, by decide +kernel⟩

/-- An aperture of partition 0 at offset 0 that reaches 0x6_0000 for all accesses. -/
def apS : State := ((((((mapped State.reset false).setPreg 0 (.apEn 0) 1).setPreg 0 (.apOlen 0) 0x1000).setPreg 0 (.apPerm 0) 7).setPreg 0 (.apVabase 0) 0x60000))
def apR : State × Res := { apS with nextUid := apS.nextUid + 1 }.unitCheck [] { ({ apS with nextUid := apS.nextUid + 1 }.walkWho 0 (apS.preg 0 (.apCtx 0))) with wid := 1024 } 0x11 .store 0x60008 4
def anInb : Inb := ⟨1, 0, 1, 0, 0, 8, [], 0, some 0, 0⟩
/-- A request of the box's warp to peer 1, to which a route leads. -/
def peerX : ExtReq := ⟨2, 0, none, some 1, false, 0, [], 4, 0, 0, 0, 0, 0, false, none⟩
def extS (x : ExtReq) (now : Nat) : State := { mapped (box (aWarp false) (aBlock false) (aLaunch false)) false with ext := [(0, x)], fabric := { State.reset.fabric with routes := [(1, 0)] }, timebase := now }
def extWho : Who := ((extS peerX 0).who 2).getD whoW
/-- Partition 0 in a session's state, long after its last heartbeat. -/
def sessS (st : Nat) (s : State) : State := { (mapped s false).setPreg 0 .sstate st with timebase := 10 ^ 12 }
/-- A warp with a store posted. -/
def busyW : Warp := { aWarp false with queues := [(0, [drainE ⟨0x50010, none, 1, 0, 0⟩])] }
def brownS (now len : Nat) : State := { State.reset.setDreg .saveLen len with power := { State.reset.power with brownSince := some 0 }, timebase := now }
def emergS (s : State) (len : Nat) : State := { s.setDreg .saveLen len with power := { s.power with emerg := true } }
/-- A swap under way. -/
def swapS (ph : Nat) : State := { (State.reset.setDreg .svcState 1).setDreg .svcCmd 6 with fleet := { State.reset.fleet with swapPhase := ph } }
def mapSwap : State := { swapS 2 with parts := (mapped State.reset false).parts }
theorem witness_hostEvents_1 :
    ∃ (s : State) (pa : Nat) (n : Nat), 0 < n ∧ pa + n ≤ devTop ∧ (∀ k, k < n → s.hostRefused (pa + k) = false) :=
    ⟨mapped State.reset false, 0, 1, by decide +kernel, by decide +kernel, by decide +kernel⟩
theorem witness_hostEvents_2 :
    ∃ (s : State) (pa : Nat) (n : Nat) (k : Nat), pa + n ≤ devTop ∧ k < n ∧ s.hostRefused (pa + k) = true ∧ (∀ j, j < k → s.hostRefused (pa + j) =
      false) :=
    ⟨State.reset, 0, 1, 0, by decide +kernel⟩
theorem witness_hostEvents_3 :
    ∃ (s : State) (port : Nat) (peer : Nat) (off : Nat) (acc : Nat) (n : Nat), s.inboundOpen port = true ∧ 0 < n ∧ acc ≤ 2 ∧ peer ≤ 255 ∧ off < 2 ^
      44 ∧ s.apertureAt off = none ∧ s.preg 0 .iflSize ≠ 0 ∧ (s.preg 0 .iflTail + 1) % s.preg 0 .iflSize ≠ s.preg 0 .iflHead % s.preg 0 .iflSize ∧
      s.ownsRange 0 (s.preg 0 .iflBase + 32 * s.preg 0 .iflTail) 32 = true :=
    ⟨(mapped State.reset false).setPreg 0 .iflSize 4, 0, 1, 0, 0, 8, by decide +kernel, by decide +kernel, by decide +kernel, of_decide_eq_true (by decide +kernel),
      by decide +kernel⟩
theorem witness_hostEvents_4 :
    ∃ (s : State) (port : Nat) (peer : Nat) (off : Nat) (acc : Nat) (n : Nat) (p : Nat) (a : Nat) (s1 : State) (bs : List PByte), s.inboundOpen port
      = true ∧ 0 < n ∧ acc ≤ 2 ∧ peer ≤ 255 ∧ off < 2 ^ 44 ∧ s.apertureAt off = some (p, a) ∧ s.sess p < 2 ∧ s.preg p (.apEn a) = 1 ∧ (s.preg p
      (.apPerm a)).testBit acc = true ∧ off + n ≤ s.preg p (.apObase a) + s.preg p (.apOlen a) ∧ s.preg p (.apVabase a) + (off - s.preg p (.apObase
      a)) + n ≤ 2 ^ 56 ∧ { s with nextUid := s.nextUid + 1 }.unitCheck [] { ({ s with nextUid := s.nextUid + 1 }.walkWho p (s.preg p (.apCtx a))) with wid := 1024 + port }
      0x11 .store (s.preg p (.apVabase a) + (off - s.preg p (.apObase a))) n = (s1, .ok bs) ∧ isOutside bs = false ∧ (∀ y ∈ bs, inMem y = true) ∧
      (s1.part p).allocs = [] ∧ acc = 1 ∧ (∀ b ∈ bs, s.preg p (.apLevel a) ≤ b.lev) :=
    ⟨apS, 0, 1, 8, 1, 4, 0, 0, apR.1, bytesOf apR.2, by decide +kernel, by decide +kernel, by decide +kernel, of_decide_eq_true (by decide +kernel), by decide +kernel,
      by decide +kernel, by decide +kernel, of_decide_eq_true (by decide +kernel), by decide +kernel, by decide +kernel, by decide +kernel, Prod.ext rfl
      (by decide +kernel), by decide +kernel⟩
theorem witness_hostEvents_5 :
    ∃ (s : State) (p : Nat) (k : Nat) (x : Inb), (s.part p).inb[k]? = some x ∧ x.page.isSome = true ∧ x.since + 1000000 ≤ s.timebase ∧ s.preg p
      .iflSize = 0 :=
    ⟨{ (mapped State.reset false).modPart 0 (fun x => { x with inb := [anInb] }) with timebase := 1000000 }, 0, 0, anInb, by decide +kernel⟩
theorem witness_hostEvents_6a :
    ∃ (s : State) (r : Nat) (x : ExtReq) (err : Nat) (bs : List (BitVec 8)) (i : Instr), kget s.ext r = some x ∧ x.open_ = true ∧ x.wr = false ∧
      (s.part x.part).inb = [] ∧ ((i = .remoteTimeout r ∧ x.peer.isSome = true ∧ x.since + s.dreg .fTimeout ≤ s.timebase ∧ err = 2 ∧ bs = []) ∨ (∃ n
      data, i = .peerCompletion r err data ∧ x.peer = some n ∧ (kget s.fabric.routes n).isSome = true ∧ s.timebase < x.since + s.dreg .fTimeout ∧ err
      ≤ 2 ∧ bs = s.opened x ((List.range x.n).map (fun k => data.getD k 0))) ∨ (∃ n data e, i = .peerCompletion r e data ∧ x.peer = some n ∧ kget
      s.fabric.routes n = none ∧ err = 1 ∧ bs = []) ∨ (∃ n data e, i = .peerCompletion r e data ∧ x.peer = some n ∧ (kget s.fabric.routes n).isSome =
      true ∧ x.since + s.dreg .fTimeout ≤ s.timebase ∧ err = 2 ∧ bs = []) ∨ (∃ data, i = .hostCompletion r data ∧ x.peer = none ∧ x.data ≠ [] ∧ err =
      0 ∧ bs = s.opened x ((List.range x.n).map (fun k => data.getD k 0)))) :=
    ⟨extS peerX 10000000000, 0, peerX, 2, [], .remoteTimeout 0, by decide +kernel, by decide +kernel, by decide +kernel, of_decide_eq_true (by decide +kernel), .inl
      ⟨rfl, by decide +kernel, by decide +kernel, rfl, rfl⟩⟩
theorem witness_hostEvents_6b :
    ∃ (s : State) (r : Nat) (x : ExtReq) (err : Nat) (bs : List (BitVec 8)) (i : Instr), kget s.ext r = some x ∧ x.open_ = true ∧ x.wr = false ∧
      (s.part x.part).inb = [] ∧ ((i = .remoteTimeout r ∧ x.peer.isSome = true ∧ x.since + s.dreg .fTimeout ≤ s.timebase ∧ err = 2 ∧ bs = []) ∨ (∃ n
      data, i = .peerCompletion r err data ∧ x.peer = some n ∧ (kget s.fabric.routes n).isSome = true ∧ s.timebase < x.since + s.dreg .fTimeout ∧ err
      ≤ 2 ∧ bs = s.opened x ((List.range x.n).map (fun k => data.getD k 0))) ∨ (∃ n data e, i = .peerCompletion r e data ∧ x.peer = some n ∧ kget
      s.fabric.routes n = none ∧ err = 1 ∧ bs = []) ∨ (∃ n data e, i = .peerCompletion r e data ∧ x.peer = some n ∧ (kget s.fabric.routes n).isSome =
      true ∧ x.since + s.dreg .fTimeout ≤ s.timebase ∧ err = 2 ∧ bs = []) ∨ (∃ data, i = .hostCompletion r data ∧ x.peer = none ∧ x.data ≠ [] ∧ err =
      0 ∧ bs = s.opened x ((List.range x.n).map (fun k => data.getD k 0)))) :=
    ⟨extS peerX 0, 0, peerX, 0, (extS peerX 0).opened peerX ((List.range 4).map (fun k => ([] : List (BitVec 8)).getD k 0)), .peerCompletion 0 0 [],
      by decide +kernel, by decide +kernel, by decide +kernel, of_decide_eq_true (by decide +kernel), .inr (.inl ⟨1, [], rfl, rfl, by decide +kernel, by decide +kernel,
      by decide, rfl⟩)⟩
theorem witness_hostEvents_6c :
    ∃ (s : State) (r : Nat) (x : ExtReq) (err : Nat) (bs : List (BitVec 8)) (i : Instr), kget s.ext r = some x ∧ x.open_ = true ∧ x.wr = false ∧
      (s.part x.part).inb = [] ∧ ((i = .remoteTimeout r ∧ x.peer.isSome = true ∧ x.since + s.dreg .fTimeout ≤ s.timebase ∧ err = 2 ∧ bs = []) ∨ (∃ n
      data, i = .peerCompletion r err data ∧ x.peer = some n ∧ (kget s.fabric.routes n).isSome = true ∧ s.timebase < x.since + s.dreg .fTimeout ∧ err
      ≤ 2 ∧ bs = s.opened x ((List.range x.n).map (fun k => data.getD k 0))) ∨ (∃ n data e, i = .peerCompletion r e data ∧ x.peer = some n ∧ kget
      s.fabric.routes n = none ∧ err = 1 ∧ bs = []) ∨ (∃ n data e, i = .peerCompletion r e data ∧ x.peer = some n ∧ (kget s.fabric.routes n).isSome =
      true ∧ x.since + s.dreg .fTimeout ≤ s.timebase ∧ err = 2 ∧ bs = []) ∨ (∃ data, i = .hostCompletion r data ∧ x.peer = none ∧ x.data ≠ [] ∧ err =
      0 ∧ bs = s.opened x ((List.range x.n).map (fun k => data.getD k 0)))) :=
    ⟨extS { peerX with peer := some 2 } 0, 0, { peerX with peer := some 2 }, 1, [], .peerCompletion 0 0 [], by decide +kernel, by decide +kernel,
      by decide +kernel, of_decide_eq_true (by decide +kernel), .inr (.inr (.inl ⟨2, [], 0, rfl, rfl, by decide +kernel, rfl, rfl⟩))⟩
theorem witness_hostEvents_7 :
    ∃ (s : State) (r : Nat) (x : ExtReq), kget s.ext r = some x ∧ x.open_ = true ∧ x.wr = false ∧ x.peer = none ∧ x.data = [] ∧ (s.part x.part).inb =
      [] :=
    ⟨extS { peerX with peer := none } 0, 0, { peerX with peer := none }, by decide +kernel, by decide +kernel, by decide +kernel, of_decide_eq_true (by decide +kernel),
      by decide +kernel, by decide +kernel⟩
theorem witness_hostEvents_8 :
    ∃ (s : State) (r : Nat) (x : ExtReq) (i : Instr), kget s.ext r = some x ∧ x.open_ = true ∧ x.wr = true ∧ risesFrom none s.ext = true ∧ (∀ e ∈
      s.ext, e.2.u = x.u → e.2.wr = true → e.2.iid = x.iid → e.1 = r) ∧ (∃ n data, i = .peerCompletion r 0 data ∧ x.peer = some n ∧ (kget
      s.fabric.routes n).isSome = true ∧ s.timebase < x.since + s.dreg .fTimeout) :=
    ⟨extS { peerX with wr := true } 0, 0, { peerX with wr := true }, .peerCompletion 0 0 [], by decide +kernel, by decide +kernel, by decide +kernel,
      of_decide_eq_true (by decide +kernel), by decide +kernel, ⟨1, [], rfl, rfl, by decide +kernel, by decide +kernel⟩⟩
theorem witness_hostEvents_9 :
    ∃ (s : State) (r : Nat) (x : ExtReq) (i : Instr), kget s.ext r = some x ∧ x.open_ = true ∧ x.wr = true ∧ risesFrom none s.ext = true ∧ (∀ e ∈
      s.ext, e.2.u = x.u → e.2.wr = true → e.2.iid = x.iid → e.1 = r) ∧ (∃ data, i = .hostCompletion r data ∧ x.peer = none) ∧ (∀ l ∈ s.launches,
      l.2.lr.measure = false) :=
    ⟨extS { peerX with wr := true, peer := none } 0, 0, { peerX with wr := true, peer := none }, .hostCompletion 0 [], by decide +kernel,
      by decide +kernel, by decide +kernel, of_decide_eq_true (by decide +kernel), by decide +kernel, ⟨[], rfl, rfl⟩, by decide +kernel⟩
theorem witness_hostEvents_10 :
    ∃ (s : State) (r : Nat) (x : ExtReq) (i : Instr) (w : Warp) (p : Who) (cause : Nat), kget s.ext r = some x ∧ x.open_ = true ∧ x.wr = true ∧
      risesFrom none s.ext = true ∧ (∀ e ∈ s.ext, e.2.u = x.u → e.2.wr = true → e.2.iid = x.iid → e.1 = r) ∧ kget s.warps x.u = some w ∧ s.who x.u =
      some p ∧ ((i = .remoteTimeout r ∧ x.peer.isSome = true ∧ x.since + s.dreg .fTimeout ≤ s.timebase ∧ cause = 0x18) ∨ (∃ n data e, i =
      .peerCompletion r e data ∧ x.peer = some n ∧ kget s.fabric.routes n = none ∧ cause = 0x17) ∨ (∃ n data e, i = .peerCompletion r e data ∧ x.peer
      = some n ∧ (kget s.fabric.routes n).isSome = true ∧ ((x.since + s.dreg .fTimeout ≤ s.timebase ∧ cause = 0x18) ∨ (s.timebase < x.since + s.dreg
      .fTimeout ∧ 1 ≤ e ∧ cause = if e = 1 then 0x17 else 0x18)))) :=
    ⟨extS { peerX with wr := true } 10000000000, 0, { peerX with wr := true }, .remoteTimeout 0, aWarp false, extWho, 0x18, by decide +kernel,
      by decide +kernel, by decide +kernel, of_decide_eq_true (by decide +kernel), by decide +kernel, by decide +kernel, some_ok whoW (by decide +kernel), .inl ⟨rfl,
      by decide +kernel, by decide +kernel, rfl⟩⟩
theorem witness_hostEvents_14 :
    ∃ (fn : Nat) (off : Nat) (size : Nat), (size ∉ [1, 2, 4, 8] ∨ off % size ≠ 0 ∨ 17 < fn) :=
    ⟨0, 0, 3, by decide +kernel⟩
theorem witness_hostEvents_15 :
    ∃ (s : State) (fn : Nat) (size : Nat), size ∈ [2, 4, 8] ∧ fn ≤ 17 ∧ s.aperturesClash = false :=
    ⟨State.reset, 0, 8, by decide +kernel, by decide +kernel, by decide +kernel⟩
theorem witness_trustEvents_2 :
    ∃ (s : State) (p : Nat), (s.part p).created = true :=
    ⟨mapped State.reset false, 0, by decide +kernel⟩
theorem witness_trustEvents_3 :
    ∃ (s : State), s.fw.session = none :=
    ⟨State.reset, by decide +kernel⟩
theorem witness_trustEvents_4 :
    ∃ (s : State), s.fw.session ≠ none :=
    ⟨{ State.reset with fw := { State.reset.fw with session := some 1 } }, by decide +kernel⟩
theorem witness_trustEvents_5 :
    ∃ (s : State) (p : Nat), p ≠ 16 ∧ (s.part p).created = true ∧ s.preg p .sstate = 0 :=
    ⟨mapped State.reset false, 0, by decide +kernel, by decide +kernel, by decide +kernel⟩
theorem witness_trustEvents_6 :
    ∃ (s : State) (p : Nat), s.preg p .sstate = 1 ∧ s.preg p .lastHb + s.preg p .hbPeriod * 1000000 ≤ s.timebase ∧ s.blocksIn p = [] :=
    ⟨sessS 1 State.reset, 0, by decide +kernel, by decide +kernel, by decide +kernel⟩
theorem witness_trustEvents_7 :
    ∃ (s : State) (p : Nat) (blk : Nat) (b : Block) (x : Block), s.preg p .sstate = 1 ∧ s.preg p .lastHb + s.preg p .hbPeriod * 1000000 ≤ s.timebase
      ∧ s.blocks = [(blk, b)] ∧ b.stopped = false ∧ (kget s.launches b.launch).any (fun l => l.part == p) = true ∧ b.preempt = false ∧ x = { b with preempt := true, preemptAt := s.timebase }
      ∧ ((s.setPreg p .sstate 2).askPreempt blk).saveReady blk x = false :=
    ⟨sessS 1 (box busyW (aBlock false) (aLaunch false)), 0, 1, aBlock false, { aBlock false with preempt := true, preemptAt := 10 ^ 12 },
      by decide +kernel, by decide +kernel, by decide +kernel, of_decide_eq_true (by decide +kernel), by decide +kernel⟩
theorem witness_trustEvents_8 :
    ∃ (s : State) (w : Warp) (q : Who), 2 ≤ s.sess q.part ∧ w.tile = false :=
    ⟨sessS 2 (box (aWarp false) (aBlock false) (aLaunch false)), aWarp false, whoW, by decide +kernel, by decide +kernel⟩
theorem witness_trustEvents_9 :
    ∃ (s : State) (p : Nat), s.preg p .sstate = 2 ∧ s.preg p .lastHb + s.preg p .hbPeriod * 1000000 + s.preg p .hbGrace * 1000000 ≤ s.timebase ∧
      s.blocksIn p = [] :=
    ⟨sessS 2 State.reset, 0, by decide +kernel, by decide +kernel, by decide +kernel⟩
theorem witness_trustEvents_10 :
    ∃ (s : State) (p : Nat), s.preg p .sstate = 3 ∧ s.preg p .lastHb + s.preg p .hbPeriod * 1000000 + 1000 * (s.preg p .hbRetain * 1000000) ≤
      s.timebase :=
    ⟨sessS 3 State.reset, 0, by decide +kernel, by decide +kernel⟩
theorem witness_trustEvents_11 :
    ∃ (s : State) (p : Nat), s.preg p .sstate = 4 :=
    ⟨sessS 4 State.reset, 0, by decide +kernel⟩
theorem witness_trustEvents_15 :
    ∃ (s : State) (x : List (Nat × Nat) × Nat × Nat), s.fw.staged = some x ∧ s.fw.switching = [] :=
    ⟨{ State.reset with fw := { State.reset.fw with staged := some ([(2, 9)], 1, 1) } }, ([(2, 9)], 1, 1), by decide +kernel, by decide +kernel⟩
theorem witness_trustEvents_16 :
    ∃ (s : State) (c : Nat × Nat) (r : List (Nat × Nat)), s.fw.switching = c :: r :=
    ⟨{ State.reset with fw := { State.reset.fw with switching := [(2, 9)] } }, (2, 9), [], by decide +kernel⟩
theorem witness_trustEvents_18 :
    ∃ (s : State) (p : Nat) (rec : Nat) (r : AllocRec), kget (s.part p).allocs rec = some r ∧ r.valid = true :=
    ⟨(mapped State.reset false).modPart 0 (fun x => { x with allocs := [(0, ⟨0, 0x4000, 0, 0, 0, true, 0⟩)] }), 0, 0, ⟨0, 0x4000, 0, 0, 0, true, 0⟩,
      by decide +kernel, by decide +kernel⟩
theorem witness_trustEvents_19 :
    ∃ (s : State) (p : Nat) (who : Nat) (addr : Nat) (level : Nat) (pte : Nat) (sz : Nat) (at_ : Nat), s.preg p .sstate = 1 ∧ s.walk p who addr =
      .leaf pte sz at_ ∧ level < pteLevel pte :=
    ⟨(sessS 1 State.reset).setHNat 0x8000 8 (63 + 5 * 256), 0, 0, 0x50000, 4, 63 + 5 * 256, 36, 0x8000, by decide +kernel, by decide +kernel,
      by decide +kernel⟩
theorem witness_trustEvents_20 :
    ∃ (s : State) (p : Nat) (who : Nat) (addr : Nat) (level : Nat) (b : Block), s.preg p .sstate = 1 ∧ kget s.blocks who = some b ∧ (kget s.launches
      b.launch).any (fun l => l.part == p) = true ∧ level < b.levAt addr :=
    ⟨sessS 1 (box (aWarp false) { aBlock false with spLev0 := 3 } (aLaunch false)), 0, 1, 0, 2, { aBlock false with spLev0 := 3 }, by decide +kernel⟩
theorem witness_trustEvents_21 :
    ∃ (s : State) (p : Nat) (who : Nat) (level : Nat), s.preg p .sstate = 1 ∧ s.ctxExists p who = true ∧ level < s.curLevel p who :=
    ⟨(sessS 1 State.reset).setHNat 0x1000 8 (0x4001 + 5 * 16), 0, 0, 4, by decide +kernel, by decide +kernel, by decide +kernel⟩
theorem witness_trustEvents_22 :
    ∃ (s : State) (p : Nat), s.preg p .sstate ≠ 1 :=
    ⟨State.reset, 0, by decide +kernel⟩
theorem witness_powerEvents_4 :
    ∃ (s : State) (d : Nat) (r : Nat) (h : Nat), (s.rail d r).holdTill = some h ∧ h ≤ s.timebase :=
    ⟨{ State.reset with power := { State.reset.power with rails := [(0, ⟨700, some 5, 0⟩)] }, timebase := 10 }, 0, 0, 5, by decide +kernel,
      by decide +kernel⟩
theorem witness_powerEvents_6 :
    ∃ (s : State) (cl : Nat), ¬ (sget 1 s.power.effRatio cl = s.reg (.ratio cl) ∧ sget 7 s.power.effOp cl = s.clusterOp cl) :=
    ⟨State.reset, 0, by decide +kernel⟩
theorem witness_powerEvents_7 :
    ∃ (s : State), s.power.holdPoint = true :=
    ⟨{ State.reset with power := { State.reset.power with holdPoint := true } }, by decide +kernel⟩
theorem witness_powerEvents_8 :
    ∃ (s : State) (cl : Nat) (p : Nat), s.power.holdPoint = false ∧ s.clusterOwner cl = some p :=
    ⟨mapped State.reset false, 0, 0, by decide +kernel, by decide +kernel⟩
theorem witness_powerEvents_9 :
    ∃ (s : State), s.power.powerAt + 1000000 ≤ s.timebase :=
    ⟨{ State.reset with timebase := 1000000 }, by decide +kernel⟩
theorem witness_powerEvents_11 :
    ∃ (s : State), s.dreg .brownout ≠ 1 :=
    ⟨State.reset, by decide +kernel⟩
theorem witness_powerEvents_12a :
    ∃ (s : State), ((∀ h, s.power.brownSince = some h → s.timebase < h + 20000000) ∨ s.dreg .saveLen = 0) :=
    ⟨brownS 0 0x1000, .inl (fun h e => by have e1 : some 0 = some h := e; cases e1; decide +kernel)⟩
theorem witness_powerEvents_12b :
    ∃ (s : State), ((∀ h, s.power.brownSince = some h → s.timebase < h + 20000000) ∨ s.dreg .saveLen = 0) :=
    ⟨brownS 20000000 0, .inr (by decide +kernel)⟩
theorem witness_powerEvents_13 :
    ∃ (s : State) (h : Nat), s.power.brownSince = some h ∧ h + 20000000 ≤ s.timebase ∧ s.dreg .saveLen ≠ 0 :=
    ⟨brownS 20000000 0x1000, 0, by decide +kernel, by decide +kernel, by decide +kernel⟩
theorem witness_powerEvents_14 :
    ∃ (s : State) (h : Nat), s.power.brownSince = some h ∧ h + 20000000 ≤ s.timebase :=
    ⟨brownS 20000000 0x1000, 0, by decide +kernel, by decide +kernel⟩
theorem witness_powerEvents_16 :
    ∃ (s : State) (d : Nat) (temp : Nat) (i : Instr), i ∈ [Instr.thermalInterval d temp, .thermalCritical d temp] ∧ d < 4 ∧ 105 ≤ temp ∧ temp < 115 ∧
      s.dreg .saveLen ≠ 0 :=
    ⟨brownS 0 0x1000, 0, 105, .thermalInterval 0 105, .head _, by decide +kernel⟩
theorem witness_powerEvents_17 :
    ∃ (d : Nat) (temp : Nat) (i : Instr), i ∈ [Instr.thermalInterval d temp, .thermalCritical d temp, .thermalTrip d temp] ∧ d < 4 ∧ 115 ≤ temp :=
    ⟨0, 115, .thermalTrip 0 115, .tail _ (.tail _ (.head _)), by decide +kernel, by decide +kernel⟩
theorem witness_powerEvents_18 :
    ∃ (s : State), s.power.emerg = true ∧ s.power.halted = false ∧ s.saveOrder = [] :=
    ⟨emergS State.reset 0, by decide +kernel, by decide +kernel, by decide +kernel⟩
theorem witness_powerEvents_19 :
    ∃ (s : State) (blk : Nat) (b : Block) (r : List (Nat × Block)), s.power.emerg = true ∧ s.power.halted = false ∧ s.saveOrder = (blk, b) :: r ∧
      s.power.nextImage + s.sizeOf b ≤ s.dreg .saveLen :=
    ⟨emergS (box (aWarp false) (aBlock false) (aLaunch false)) 0x10000, 1, aBlock false, [], by decide +kernel⟩
theorem witness_powerEvents_20 :
    ∃ (s : State) (blk : Nat) (b : Block) (r : List (Nat × Block)), s.power.emerg = true ∧ s.power.halted = false ∧ s.saveOrder = (blk, b) :: r ∧
      s.dreg .saveLen < s.power.nextImage + s.sizeOf b :=
    ⟨emergS (box (aWarp false) (aBlock false) (aLaunch false)) 8, 1, aBlock false, [], by decide +kernel⟩
theorem witness_powerEvents_21 :
    ∃ (s : State) (blk : Nat) (b : Block) (r : List (Nat × Block)) (l : Launch), s.power.emerg = true ∧ s.power.halted = false ∧ s.saveOrder = (blk,
      b) :: r ∧ s.power.nextImage + s.sizeOf b ≤ s.dreg .saveLen ∧ b.preempt = true ∧ s.saveReady blk b = true ∧ kget s.launches b.launch = some l :=
    ⟨emergS (box (aWarp false) { aBlock false with preempt := true } (aLaunch false)) 0x10000, 1, { aBlock false with preempt := true }, [], aLaunch
      false, by decide +kernel, by decide +kernel, by decide +kernel, of_decide_eq_true (by decide +kernel), by decide +kernel, by decide +kernel, by decide +kernel⟩
theorem witness_powerEvents_22 :
    ∃ (s : State) (p : Nat), sget 0 s.power.energyAt p + s.preg p .ePeriod * 1000000 ≤ s.timebase :=
    ⟨{ State.reset with timebase := 10 ^ 12 }, 0, by decide +kernel⟩
theorem witness_fleetEvents_1 :
    ∃ (s : State), s.fleet.period < s.timebase / 10000 * 10000 :=
    ⟨{ State.reset with timebase := 20000 }, by decide +kernel⟩
theorem witness_fleetEvents_3 :
    ∃ (pa : Nat) (d : Nat), pa < devTop ∧ homeDie pa = some d :=
    ⟨0, 0, by decide +kernel, by decide +kernel⟩
theorem witness_fleetEvents_4 :
    ∃ (s : State) (i : Instr), i ∈ [Instr.retirecore, .sparech, .rowrep, .lanespare, .swapout] ∧ s.dreg .svcState ≠ 1 ∧ s.dreg .testing = 1 :=
    ⟨State.reset.setDreg .testing 1, .rowrep, .tail _ (.tail _ (.head _)), by decide +kernel, by decide +kernel⟩
theorem witness_fleetEvents_5 :
    ∃ (s : State), s.dreg .svcState ≠ 1 ∧ s.dreg .testing ≠ 1 :=
    ⟨State.reset, by decide +kernel, by decide +kernel⟩
theorem witness_fleetEvents_6 :
    ∃ (s : State), s.dreg .svcState ≠ 1 ∧ (∃ e ∈ s.parts, e.2.created = true) :=
    ⟨mapped State.reset false, by decide +kernel, ⟨_, .head _, by decide +kernel⟩⟩
theorem witness_fleetEvents_7 :
    ∃ (s : State), s.dreg .svcState ≠ 1 ∧ (∀ e ∈ s.parts, e.2.created = false) :=
    ⟨State.reset, by decide +kernel, by decide +kernel⟩
theorem witness_fleetEvents_8 :
    ∃ (s : State), s.dreg .testing ≠ 1 ∧ s.dreg .svcArg ≤ 255 ∧ s.dreg .svcState ≠ 1 ∧ s.fleet.swapPhase = 0 :=
    ⟨State.reset, by decide +kernel⟩
theorem witness_fleetEvents_9 :
    ∃ (s : State), s.dreg .testing ≠ 1 ∧ s.dreg .svcNow ≤ 255 ∧ s.dreg .svcState = 1 ∧ s.dreg .svcCmd = 6 ∧ s.fleet.swapPhase = 1 ∧ s.blocks = [] :=
    ⟨swapS 1, by decide +kernel, by decide +kernel, by decide +kernel, of_decide_eq_true (by decide +kernel), by decide +kernel, by decide +kernel⟩
theorem witness_fleetEvents_10 :
    ∃ (s : State) (p : Nat) (x : Part), s.dreg .testing ≠ 1 ∧ s.dreg .svcNow ≤ 255 ∧ s.dreg .svcState = 1 ∧ s.dreg .svcCmd = 6 ∧ s.fleet.swapPhase =
      2 ∧ s.blocks = [] ∧ s.parts = [(p, x)] ∧ x.created = true :=
    ⟨mapSwap, 0, mapSwap.part 0, by decide +kernel, by decide +kernel, by decide +kernel, of_decide_eq_true (by decide +kernel), by decide +kernel⟩
theorem witness_fleetEvents_11 :
    ∃ (s : State), s.dreg .testing = 1 ∧ s.dreg .brownout ≠ 1 ∧ s.power.emerg = false :=
    ⟨State.reset.setDreg .testing 1, by decide +kernel, by decide +kernel, by decide +kernel⟩
theorem witness_registerReads_4 :
    ∃ (fn : Nat) (p : Nat) (o : Nat), p < 16 ∧ o < 0x200 ∧ fn ≠ 0 ∧ fn ≠ p + 1 :=
    ⟨5, 0, 0, by decide +kernel⟩
theorem witness_registerReads_5 :
    ∃ (p : Nat) (fn : Nat), p < 16 ∧ (fn = 0 ∨ fn = p + 1) :=
    ⟨0, 1, by decide +kernel, by decide +kernel⟩

end Sys2Proof.Machine
end

section
/-! The statements of machine and execution (chapter 01): branches, pacing, `join` and `exit`, traps, special registers, the steps of a
unit that are no instruction, the shared checks, and the step that runs an instruction. -/

namespace Sys2Proof.Machine

/-! ### Branches (R199, R200) -/

/-- The mask of a mask's lanes is the mask. -/
theorem maskOf_lanesOf (m : Mask) : maskOf (lanesOf m) = m := by
  apply BitVec.eq_of_getLsbD_eq
  intro l hl
  rw [getLsbD_maskOf _ (fun k hk => (mem_lanesOf.1 hk).1)]
  simp [mem_lanesOf, hl]

/-- What a branch writes before it moves its lanes: the link, where it has one. -/
def State.linked (s : State) (c : Ctx) : Option (BitVec 7) → State
  | none => s
  | some d => s.link c d c.m

/-- A register branch whose targets are all good writes its link and moves every lane of M. -/
theorem regBranch_good {i : Instr} {s : State} {c : Ctx} (h : Issues i s c) (a : BitVec 7) (link : Option (BitVec 7))
    (hg : ∀ l, c.m.getLsbD l = true → (c.rd64 a.toNat l).toNat % 4 = 0 ∧ (c.rd64 a.toNat l).toNat < 2 ^ 57) :
    regBranch a link c (s.setWarp c.u c.w) =
      ((s.setWarp c.u c.w).linked c link).branch c ((lanesOf c.m).map (fun l => (l, c.rd64 a.toNat l))) c.rest := by
  obtain ⟨hgood, hbad⟩ := good_split c a hg _ rfl
  have hmask : maskOf (((lanesOf c.m).map (fun l => (l, c.rd64 a.toNat l))).map Prod.fst) = c.m := by
    rw [List.map_map]
    exact (congrArg maskOf (List.map_id _)).trans (maskOf_lanesOf c.m)
  unfold regBranch
  simp only [hgood, hbad, hmask]
  cases link with
  | none => simp [State.linked, h.alive]
  | some d =>
    obtain ⟨-, w, hw, -, -, hend, -⟩ := link_result h d c.m rfl
    simp [State.linked, hw, hend, h.alive]

/-- A branch that writes its link and moves the lanes of M does what R199 and R200 say. -/
theorem branches_of_linked {i : Instr} {link : Option (BitVec 7)} {good : DWord → Prop} {tgt : Ctx → Nat → DWord}
    (he : ∀ s c, Issues i s c → (∀ l, c.m.getLsbD l = true → good (tgt c l)) →
      exec i s = .next (((s.setWarp c.u c.w).linked c link).branch c ((lanesOf c.m).map (fun l => (l, tgt c l))) c.rest)) :
    Branches i link good tgt := by
  intro s c h hgood
  rw [he s c h hgood]
  cases link with
  | none =>
    obtain ⟨w', hw', hsh, o, hb, hp, hf, hr⟩ :=
      branch_after_link (i := i) (s0 := s.setWarp c.u c.w) (tgt c) (onlyUnit_setWarp _ _ _) c.w (unit_setWarp ..) rfl rfl
    exact ⟨_, w', rfl, o, hw', hsh, hb, hp, hf, hr⟩
  | some d =>
    obtain ⟨o1, w, hw, hsh, hfr, -, hp, hf, hr⟩ := link_result h d c.m rfl
    obtain ⟨w', hw', hsh', o, hb, hp', hf', hr'⟩ := branch_after_link (i := i) (tgt c) o1 w hw hsh hfr
    refine ⟨_, w', rfl, o, hw', hsh', hb, fun p => (hp' p).trans (hp p), fun l => (hf' l).trans (hf l), ?_⟩
    exact ⟨fun j l hj hl => (hr' _ l).trans (hr.1 j l hj hl), fun r l hl ho => (hr' r l).trans (hr.2 r l hl ho)⟩

/-- Settles O16: a direct branch moves all lanes of M at once, and a register branch with good targets is one without lanes that trap. -/
theorem branching : Obligations.Branching := by
  intro i a d
  refine ⟨branches_of_linked fun s c h _ => ?_, branches_of_linked fun s c h _ => ?_, branches_of_linked fun s c h hg => ?_,
    branches_of_linked fun s c h hg => ?_, branches_of_linked fun s c h hg => ?_⟩
  · exact warpOp_next h _ (exec_bra i s)
  · exact warpOp_next h _ (exec_call i d s)
  · exact (warpOp_next h _ (exec_jmp a s)).trans (congrArg _ (regBranch_good h a none hg))
  · exact (warpOp_next h _ (exec_callr a d s)).trans (congrArg _ (regBranch_good h a (some d) hg))
  · exact (warpOp_next h _ (exec_ret a s)).trans (congrArg _ (regBranch_good h a none hg))

/-! ### Pacing (R20, R79, R217) -/

/-- An instruction without an effect of its own only advances. -/
theorem Issues.passes {i : Instr} {s : State} {c : Ctx} (h : Issues i s c) (stay : Mask) :
    Passes s ((s.setWarp c.u c.w).done c stay) c stay :=
  done_passes c.w (onlyUnit_setWarp _ _ _) (unit_setWarp ..) (untouched_rfl c) rfl h.alive stay

/-- A change of the fairness count alone leaves a unit that has advanced as it was. -/
theorem Passes.modFair {s t : State} {c : Ctx} {stay : Mask} (h : Passes s t c stay) (f : Warp → Warp)
    (hf : ∀ w, ∃ n, f w = { w with fair := n }) : Passes s (t.modWarp c.u f) c stay := by
  obtain ⟨w, hw, hu, ha⟩ := h.unit
  refine ⟨h.outside.trans (onlyUnit_modWarp _ _ _), f w, modWarp_get hw f, ?_⟩
  obtain ⟨n, hn⟩ := hf w
  rw [hn]
  exact ⟨hu, ha⟩

/-- The fairness count after `yield` (R217). -/
def Warp.yielded (c : Ctx) (w : Warp) : Warp :=
  if c.w.turn.isNone && decide (1 < (w.frontier.filter Entry.isReady).length) then { w with fair := 64 } else w

theorem yielded_fair (c : Ctx) (w : Warp) : ∃ n, w.yielded c = { w with fair := n } := by
  unfold Warp.yielded
  split
  · exact ⟨64, rfl⟩
  · exact ⟨w.fair, rfl⟩

theorem yielded_full (c : Ctx) (w : Warp) (ht : c.w.turn = none) (hr : 1 < ((w.yielded c).frontier.filter Entry.isReady).length) :
    (w.yielded c).fair = 64 := by
  have hfr : (w.yielded c).frontier = w.frontier := by
    obtain ⟨n, hn⟩ := yielded_fair c w
    rw [hn]
  rw [hfr] at hr
  simp [Warp.yielded, ht, hr]

theorem execYield_passes {s : State} {c : Ctx} (h : Issues .yield s c) : ∃ t, exec .yield s = .next t ∧ Passes s t c c.is.mask ∧
    (c.w.turn = none → ∀ w, kget t.warps c.u = some w → 1 < (w.frontier.filter Entry.isReady).length → w.fair = 64) := by
  refine ⟨_, warpOp_next h _ (exec_yield s), (h.passes c.is.mask).modFair _ (yielded_fair c), fun ht w hw hr => ?_⟩
  obtain ⟨w0, hw0, -, -⟩ := (h.passes c.is.mask).unit
  obtain rfl : Warp.yielded c w0 = w := Option.some.inj ((modWarp_get hw0 _).symm.trans hw)
  exact yielded_full c w0 ht hr

/-- The window base moves, and nothing else of the unit but its place. -/
theorem execWbase_moves {n : BitVec 4} {s : State} {c : Ctx} (h : Issues (.wbase n) s c) (hn : 32 * n.toNat < c.w.space) :
    ∃ t w, exec (.wbase n) s = .next t ∧ OnlyUnit s t c.u ∧ kget t.warps c.u = some w ∧ w.wbase = 32 * n.toNat ∧
      Untouched c { w with wbase := c.w.wbase } ∧ Advances c c.w w c.is.mask := by
  obtain ⟨o, fr, k, tn, x, hw, ha⟩ := mod_done h (fun w => { w with wbase := 32 * n.toNat }) c.is.mask rfl rfl
  refine ⟨_, _, (warpOp_next h _ (exec_wbase n s)).trans (congrArg _ (if_neg (Nat.not_le.2 hn))), o, hw, rfl, ?_, ha⟩
  exact untouched_rfl c

theorem execWbase_overflows {n : BitVec 4} {s : State} {c : Ctx} (h : Issues (.wbase n) s c) (hn : c.w.space ≤ 32 * n.toNat)
    (hte : c.lr.trapentry ≠ 0) (hh : c.w.hlanes = 0) :
    ∃ t, exec (.wbase n) s = .next t ∧ Traps s t c c.is.mask 0 0x04 n.toNat c.is.pc 0 :=
  ⟨_, (warpOp_next h _ (exec_wbase n s)).trans (congrArg _ (if_pos hn)), trapAll_traps h 0x04 n.toNat 0 hte hh⟩

theorem execSleep_waits {n : BitVec 20} {s : State} {c : Ctx} (h : Issues (.sleep n) s c) (hn : n ≠ 0) :
    ∃ t, exec (.sleep n) s = .next t ∧ Waits s t c c.m c.rest (.sleep (s.timebase + s.cyclesNs (c.p.core / 4) n.toNat)) :=
  ⟨_, (warpOp_next h _ (exec_sleep n s)).trans (congrArg _ (if_neg hn)), hold_done h _ c.m c.rest (rest_disj c)⟩

/-- The lineage switch changes the unit's switch, on a warp alone (R79). -/
theorem switchOp_switches {i : Instr} {on : Bool} {s : State} {c : Ctx} (he : exec i s = switchOp i s on) (h : Issues i s c) :
    ∃ t w, exec i s = .next t ∧ OnlyUnit s t c.u ∧ kget t.warps c.u = some w ∧ w.lnOn = (if c.w.tile then c.w.lnOn else on) ∧
      Untouched c { w with lnOn := c.w.lnOn } ∧ Advances c c.w w c.is.mask := by
  obtain ⟨g, hg⟩ : ∃ g : Warp → Warp, g = fun w => if w.tile then w else { w with lnOn := on } := ⟨_, rfl⟩
  have hgw : g c.w = { c.w with lnOn := if c.w.tile then c.w.lnOn else on } := by
    rw [hg]
    dsimp only
    split <;> rfl
  obtain ⟨o, fr, k, tn, x, hw, ha⟩ := mod_done h g c.is.mask (by rw [hgw]) (by rw [hgw])
  rw [hgw] at hw ha
  exact ⟨_, _, (warpOp_next h _ he).trans (by rw [hg]), o, hw, rfl, untouched_rfl c, ha⟩

/-- Settles O17, instruction by instruction. -/
theorem pacing : Obligations.Pacing := by
  refine ⟨fun s c h => ?_, fun n s c h => execWbase_moves h, fun n s c h => execWbase_overflows h, fun s c h => ?_,
    fun n s c h => execSleep_waits h, fun s c h => execYield_passes h, ?_⟩
  · exact ⟨_, warpOp_next h _ (exec_nop s), h.passes _⟩
  · exact ⟨_, (warpOp_next h _ (exec_sleep 0 s)).trans (congrArg _ (if_pos rfl)), h.passes _⟩
  · rintro p (rfl | rfl) s c h
    · exact switchOp_switches (exec_lnon s) h
    · exact switchOp_switches (exec_lnoff s) h

end Sys2Proof.Machine
end

section
namespace Sys2Proof.Machine

/-! ### `join` and `exit` (R28, R29) -/

theorem Kept.trans {a b d : Warp} (h : Kept a b) (k : Kept b d) : Kept a d := by
  obtain ⟨hs, hr, hp, hf⟩ := h
  obtain ⟨ks, kr, kp, kf⟩ := k
  exact ⟨ks.trans hs, fun r l => (kr r l).trans (hr r l), fun p => (kp p).trans (hp p), fun l => (kf l).trans (hf l)⟩

theorem kept_hold (w : Warp) (m : Mask) (pc next : DWord) (k : WaitCause) : Kept w (w.hold m pc next k) := by
  obtain ⟨fr, n, t, e⟩ := hold_eq w m pc next k
  rw [e]
  exact kept_of_frontier ..

theorem Kept.ended {a b : Warp} (h : Kept a b) : b.ended = a.ended := by
  have he := congrArg Warp.ended h.1
  exact he

/-- An instruction that changes its unit and ends: what `done` leaves of the changed unit. -/
theorem Issues.modDone {i : Instr} {s : State} {c : Ctx} (h : Issues i s c) (g : Warp → Warp) (stay : Mask)
    (he : (g c.w).ended = c.w.ended) :
    OnlyUnit s (((s.setWarp c.u c.w).modWarp c.u g).done c stay) c.u ∧ ∃ w,
      kget (((s.setWarp c.u c.w).modWarp c.u g).done c stay).warps c.u = some w ∧
      (∃ fr n t x, w = { g c.w with frontier := fr, fair := n, turn := t, xw := x }) ∧ Advances c (g c.w) w stay := by
  obtain ⟨o, hd⟩ := done_frame ((s.setWarp c.u c.w).modWarp c.u g) c stay
  obtain ⟨fr, n, t, x, hw, ha⟩ := hd _ (modWarp_get (unit_setWarp s c.u c.w) g)
  exact ⟨((onlyUnit_setWarp _ _ _).trans (onlyUnit_modWarp _ _ _)).trans o, _, hw, ⟨fr, n, t, x, rfl⟩, ha (he.trans h.alive)⟩

theorem execJoin_drained {s : State} {c : Ctx} (h : Issues .join s c) (hq : c.w.queues = []) :
    exec .join s = .next (((s.setWarp c.u c.w).modWarp c.u (fun w => (w.hold c.m c.is.pc c.is.npc .join).judgeJoin)).done c c.rest) :=
  (warpOp_next h _ (exec_join s)).trans (congrArg _ (if_pos (drained_nil hq c.m)))

/-- Lanes that arrive at a `join` as all the live lanes go on together (R29). -/
theorem judgeJoin_all (w : Warp) (m : Mask) (pc next : DWord) (hm : m ≠ 0) (hl : m = w.live) (l : Nat) (p : DWord) (q : EntSt) :
    ((w.hold m pc next .join).judgeJoin).stands l p q ↔ m.getLsbD l = true ∧ p = next ∧ q = .ready := by
  obtain ⟨stamp, hfr⟩ := hold_frontier w m pc next .join hm
  have hnone : fRemove m w.frontier = [] := by rw [hl]; exact remove_all w
  rw [hnone] at hfr
  unfold Warp.judgeJoin
  generalize w.hold m pc next .join = v at hfr ⊢
  have hfr : v.frontier = [⟨pc, m, .waiting .join, stamp, false, next⟩] := hfr
  have hlive : v.live = m := by simp [Warp.live, hfr]
  obtain ⟨hout, hin⟩ := woken_wake v (fun e => e.atJoin && e.mask == v.live) (fun _ => True) (by simp [hfr, Entry.atJoin, hlive]) l
  by_cases hml : m.getLsbD l = true
  · rw [hin next (by simpa [hfr] using hml) (by simp [hfr]) p q]
    simp [hml]
  · have hml : m.getLsbD l = false := by simpa using hml
    rw [hout (by simp [hfr, hml]) p q]
    simp [Warp.stands, hfr, standsIn, hml]

/-- While a lane outside M is ready and waits at no `join`, the lanes that arrive wait (R29). -/
theorem judgeJoin_waits (w : Warp) (m : Mask) (pc next : DWord) {k : Nat} {p : DWord} (hk : w.stands k p .ready) (hm : m.getLsbD k = false)
    (hj : ∀ p, ¬ w.stands k p (.waiting .join)) : (w.hold m pc next .join).judgeJoin = w.hold m pc next .join := by
  have hmv := hold_moved w m pc next .join
  unfold Warp.judgeJoin
  generalize w.hold m pc next .join = v at hmv ⊢
  have stay : ∀ p q, v.stands k p q ↔ w.stands k p q := fun p q => by rw [hmv k p q, hm]; simp
  have hlive : v.live.getLsbD k = true := live_of_stands ((stay p .ready).2 hk)
  refine wake_none v _ fun e he => ?_
  rw [Bool.and_eq_false_iff]
  by_cases ha : e.st = .waiting .join
  · right
    rw [beq_eq_false_iff_ne]
    intro hmask
    exact hj e.pc ((stay _ _).1 ⟨e, he, by rw [hmask]; exact hlive, rfl, ha⟩)
  · left
    exact decide_eq_false ha

theorem execJoin_completes {s : State} {c : Ctx} (h : Issues .join s c) (hq : c.w.queues = []) (hl : c.m = c.w.live) (hm : c.is.mask = c.m) :
    ∃ t w, exec .join s = .next t ∧ OnlyUnit s t c.u ∧ kget t.warps c.u = some w ∧ Untouched c w ∧
      ∀ l p q, w.stands l p q ↔ c.m.getLsbD l = true ∧ p = c.is.npc ∧ q = .ready := by
  have kept : Kept c.w ((c.w.hold c.m c.is.pc c.is.npc .join).judgeJoin) := (kept_hold ..).trans (kept_wake ..)
  obtain ⟨o, w, hw, ⟨fr, n, t, x, e⟩, ha⟩ := h.modDone (fun w => (w.hold c.m c.is.pc c.is.npc .join).judgeJoin) c.rest
    kept.ended
  refine ⟨_, w, execJoin_drained h hq, o, hw, ?_, fun l p q => ?_⟩
  · rw [e]
    exact kept
  · rw [rest_zero c hm] at ha
    rw [advances_zero ha l p q]
    exact judgeJoin_all c.w c.m _ _ (hm ▸ h.lanes) hl l p q

theorem execJoin_waits {s : State} {c : Ctx} {k : Nat} {p : DWord} (h : Issues .join s c) (hq : c.w.queues = []) (hk : c.w.stands k p .ready)
    (hm : c.m.getLsbD k = false) (hj : ∀ p, ¬ c.w.stands k p (.waiting .join)) :
    ∃ t, exec .join s = .next t ∧ Waits s t c c.m c.rest .join :=
  ⟨_, execJoin_drained h hq, hold_done' h .join c.m c.rest _ (judgeJoin_waits c.w c.m _ _ hk hm hj) (rest_disj c)⟩

/-- What `exit` and what follows from it may change of a unit beside its live lanes: its place, its lanes in the handler, its lineage. -/
def Thinned (w w' : Warp) : Prop := ∃ fr n t k h li x, w' =
  { w with frontier := fr, fair := n, turn := t, locked := k, hlanes := h, lin := li, xw := x }

theorem Thinned.trans {a b d : Warp} (h : Thinned a b) (k : Thinned b d) : Thinned a d := by
  obtain ⟨f, n, t, b, hl, li, x, rfl⟩ := h
  obtain ⟨f', n', t', b', hl', li', x', rfl⟩ := k
  exact ⟨f', n', t', b', hl', li', x', rfl⟩

theorem Rearranged.thinned {w w' : Warp} (h : Rearranged w w') : Thinned w w' := by
  obtain ⟨⟨fr, n, t, k, rfl⟩, -⟩ := h
  exact ⟨fr, n, t, k, w.hlanes, w.lin, w.xw, rfl⟩

theorem live_setFrontier (w : Warp) (fr : List Entry) (l : Nat) :
    (w.setFrontier fr).live.getLsbD l = true ↔ ∃ p q, standsIn fr l p q := by
  obtain ⟨n, t, e⟩ := setFrontier_eq w fr
  rw [live_iff, e]
  rfl

theorem live_remove (w : Warp) (m : Mask) (l : Nat) :
    (w.setFrontier (fRemove m w.frontier)).live.getLsbD l = true ↔ m.getLsbD l = false ∧ w.live.getLsbD l = true := by
  rw [live_setFrontier, live_iff]
  simp only [standsIn_remove, exists_and_left]
  rfl

/-- A unit whose lanes of a mask have ended (R28): no other lane stops being live. -/
def Warp.without (m : Mask) (w : Warp) : Warp :=
  let w := ((w.setFrontier (fRemove m w.frontier)).leaveHandler m).judgeJoin
  if w.live = 0 then { w with lin := [] } else w

theorem without_spec (w : Warp) (m : Mask) : Thinned w (w.without m) ∧
    ∀ l, (w.without m).live.getLsbD l = true ↔ m.getLsbD l = false ∧ w.live.getLsbD l = true := by
  obtain ⟨n, t, hset⟩ := setFrontier_eq w (fRemove m w.frontier)
  obtain ⟨⟨fr', n', t', k', hleave⟩, hlive⟩ := leaveHandler_live (w.setFrontier (fRemove m w.frontier)) m
  have hwake := wake_rearranged ((w.setFrontier (fRemove m w.frontier)).leaveHandler m)
    (fun e => e.atJoin && e.mask == ((w.setFrontier (fRemove m w.frontier)).leaveHandler m).live)
  have thin : Thinned w (((w.setFrontier (fRemove m w.frontier)).leaveHandler m).judgeJoin) := by
    refine Thinned.trans ?_ hwake.thinned
    rw [hleave, hset]
    exact ⟨_, _, _, _, _, w.lin, w.xw, rfl⟩
  have live : ∀ l, (((w.setFrontier (fRemove m w.frontier)).leaveHandler m).judgeJoin).live.getLsbD l = true ↔
      m.getLsbD l = false ∧ w.live.getLsbD l = true := fun l => by
    rw [← live_remove w m l, ← hlive l, ← hwake.2 l]
    rfl
  unfold Warp.without
  dsimp only
  split
  · exact ⟨thin.trans ⟨_, _, _, _, _, [], _, rfl⟩, live⟩
  · exact ⟨thin, live⟩

/-- A unit that has lost lanes has its core's value store swept, unless it is a tile context. -/
def State.sweptFor (s : State) (w : Warp) : State :=
  (kget s.blocks w.blk).elim s (fun b => if w.tile then s else s.vsSweep b.core)

theorem sweptFor_spec (s : State) (u : Nat) (w : Warp) : OnlyUnit s (s.sweptFor w) u ∧ (s.sweptFor w).warps = s.warps := by
  unfold State.sweptFor
  cases kget s.blocks w.blk with
  | none => exact ⟨.refl _ _, rfl⟩
  | some b =>
    dsimp only [Option.elim]
    split
    · exact ⟨.refl _ _, rfl⟩
    · exact ⟨onlyUnit_vsSweep _ _ _, vsSweep_warps _ _⟩

theorem exitLanes_some {s : State} {u : Nat} {w : Warp} (hw : kget s.warps u = some w) (m : Mask) :
    s.exitLanes u m = ((s.modWarp u (Warp.without m)).sweptFor (w.without m)).barJudgeAll (w.without m).blk := by
  unfold State.exitLanes
  dsimp only
  rw [modWarp_get hw]
  rfl

/-- The end of some lanes of a unit: memory and scratchpads stay, whatever joins and barriers it completes. -/
theorem exitLanes_spec {s : State} {u : Nat} {w : Warp} (hw : kget s.warps u = some w) (m : Mask) :
    (∀ a, (s.exitLanes u m).hByte a = s.hByte a) ∧ (∀ b off, (s.exitLanes u m).spadByte b off = s.spadByte b off) ∧
    ∃ w', kget (s.exitLanes u m).warps u = some w' ∧ Thinned w w' ∧
      ∀ l, w'.live.getLsbD l = true ↔ m.getLsbD l = false ∧ w.live.getLsbD l = true := by
  obtain ⟨thin, live⟩ := without_spec w m
  obtain ⟨swept, hwarps⟩ := sweptFor_spec (s.modWarp u (Warp.without m)) u (w.without m)
  have o := (onlyUnit_modWarp s u (Warp.without m)).trans swept
  have keeps := barJudgeAll_keeps ((s.modWarp u (Warp.without m)).sweptFor (w.without m)) (w.without m).blk
  obtain ⟨w', hw', re⟩ := keeps.units u (w.without m) (by rw [hwarps]; exact modWarp_get hw _)
  rw [exitLanes_some hw]
  exact ⟨fun a => (keeps.memory a).trans (o.memory a), fun b off => (keeps.scratch b off).trans (o.scratch b off), w', hw',
    thin.trans re.thinned, fun l => by rw [re.2 l]; exact live l⟩

theorem tileEnd_none {s : State} {u : Nat} {w : Warp} (hw : kget s.warps u = some w) (hp : w.passFaults = []) : s.tileEnd u = s := by
  unfold State.tileEnd
  rw [hw]
  dsimp only
  rw [hp]

/-- The lanes that stay when an instruction ends are live, and no lane stops being live. -/
theorem live_advances {c : Ctx} {w w' : Warp} {stay : Mask} (h : Advances c w w' stay) (l : Nat) :
    (w.live.getLsbD l = true → w'.live.getLsbD l = true) ∧ (w'.live.getLsbD l = true → stay.getLsbD l = true ∨ w.live.getLsbD l = true) := by
  unfold Advances at h
  split at h
  · have := live_moved h l
    exact ⟨fun k => this.2 (.inr k), this.1⟩
  · have : w'.live = w.live := by unfold Warp.live; rw [h]
    rw [this]
    exact ⟨id, .inr⟩

theorem execExit_ends {s : State} {c : Ctx} (h : Issues .exit s c) (hpf : c.w.passFaults = []) :
    ∃ t w, exec .exit s = .next t ∧ kget t.warps c.u = some w ∧ (∀ a, t.hByte a = s.hByte a) ∧
      (∀ b off, t.spadByte b off = s.spadByte b off) ∧ Thinned c.w w ∧
      ∀ l, (c.m.getLsbD l = false ∧ c.w.live.getLsbD l = true → w.live.getLsbD l = true) ∧
        (w.live.getLsbD l = true → c.rest.getLsbD l = true ∨ c.m.getLsbD l = false ∧ c.w.live.getLsbD l = true) := by
  obtain ⟨hmem, hspad, w1, hw1, thin1, live1⟩ := exitLanes_spec (unit_setWarp s c.u c.w) c.m
  obtain ⟨o, hd⟩ := done_frame ((s.setWarp c.u c.w).exitLanes c.u c.m) c c.rest
  obtain ⟨fr, n, t, x, hw, ha⟩ := hd _ hw1
  have alive : w1.ended = false := by
    obtain ⟨_, _, _, _, _, _, _, rfl⟩ := thin1
    exact h.alive
  have thin : Thinned c.w { w1 with frontier := fr, fair := n, turn := t, xw := x } := thin1.trans ⟨fr, n, t, _, _, _, x, rfl⟩
  have hend := tileEnd_none hw (by obtain ⟨_, _, _, _, _, _, _, e⟩ := thin; rw [e]; exact hpf)
  refine ⟨_, _, (warpOp_next h _ (exec_exit s)).trans (congrArg _ hend), hw, fun a => (o.memory a).trans (hmem a),
    fun b off => (o.scratch b off).trans (hspad b off), thin, fun l => ?_⟩
  obtain ⟨l1, l2⟩ := live_advances (ha alive) l
  rw [live1 l] at l1 l2
  exact ⟨l1, l2⟩

/-- Settles O18. -/
theorem joinAndExit : Obligations.JoinAndExit := by
  refine ⟨fun s c h hq hl hm => execJoin_completes h hq hl hm, fun s c k p h hq hk hm hj => execJoin_waits h hq hk hm hj, fun s c h hpf => ?_⟩
  obtain ⟨t, w, hx, hw, hmem, hspad, ⟨_, _, _, _, _, _, _, rfl⟩, hlive⟩ := execExit_ends h hpf
  refine ⟨t, _, hx, hw, hmem, hspad, rfl, fun l hl => ?_, fun l hl hv => (hlive l).1 ⟨hl, hv⟩, fun l hl => ?_, fun r l => rfl, fun p => rfl,
    fun l => rfl⟩
  · rw [Bool.eq_false_iff]
    intro hv
    rcases (hlive l).2 hv with hr | ⟨hm, -⟩
    · rw [rest_disj c l hl] at hr
      cases hr
    · rw [hl] at hm
      cases hm
  · have hm : c.m.getLsbD l = false := by
      rw [Bool.eq_false_iff]
      intro k
      rw [h.mask_le l k] at hl
      cases hl
    have hr : c.rest.getLsbD l = false := by
      unfold Ctx.rest
      rw [BitVec.getLsbD_and, hl, Bool.false_and]
    rw [Bool.eq_iff_iff]
    exact ⟨fun hv => (((hlive l).2 hv).resolve_left (by rw [hr]; decide)).2, fun hv => (hlive l).1 ⟨hm, hv⟩⟩

/-! ### Traps and returns (R27, R215, R304, R305) -/

/-- An instruction that traps the lanes of M. -/
theorem Issues.traps {i : Instr} {s : State} {c : Ctx} (h : Issues i s c) (hm : c.m ≠ 0) (hte : c.lr.trapentry ≠ 0) (hh : c.w.hlanes = 0)
    (cause info : Nat) : Traps s (((s.setWarp c.u c.w).takeTrap c.u c.m c.is.pc ⟨cause, info, 0, c.is.npc, none⟩).done c c.rest) c c.m c.rest
      cause info c.is.npc 0 :=
  takeTrap_done h (s.setWarp c.u c.w) c.m c.rest ⟨cause, info, 0, c.is.npc, none⟩ (onlyUnit_setWarp _ _ _) h.who_set h.lr_set c.w
    (unit_setWarp ..) ⟨c.w.haz, rfl⟩ hm hte hh rfl (rest_disj c) c.is.pc

theorem takeTrap_zero (s : State) (u : Nat) (at_ : DWord) (t : Trap) : s.takeTrap u 0 at_ t = s := by
  unfold State.takeTrap
  split
  · rw [if_pos (by simp)]
  · rfl

/-- Leaving the handler moves no lane where none parks for it. -/
theorem leaveHandler_stands (w : Warp) (m : Mask) (h : ∀ l p, ¬ w.stands l p (.parked .handler)) (l : Nat) (p : DWord) (q : EntSt) :
    (w.leaveHandler m).stands l p q ↔ w.stands l p q := by
  have empty : ∀ e ∈ w.frontier.filter (fun e => decide (e.st = .parked .handler)), e.mask = 0 := fun e he => by
    obtain ⟨he, hst⟩ := List.mem_filter.1 he
    refine mask_zero fun k => Bool.eq_false_iff.2 fun hk => h k e.pc ⟨e, he, hk, rfl, of_decide_eq_true hst⟩
  unfold Warp.leaveHandler
  dsimp only
  split
  · rw [moves_zero _ (fun e => e.pc) .ready _ empty]
    rfl
  · rfl

/-- What `eret` does to a unit where no lane parks for the handler (R215, R305). -/
theorem eret_spec (w : Warp) (m : Mask) (h : ∀ l p, ¬ w.stands l p (.parked .handler)) :
    (∃ fr n t k, w.eret m = { w with frontier := fr, fair := n, turn := t, locked := k, hlanes := w.hlanes &&& ~~~m }) ∧
    Moved w (w.eret m) m w.resumePc .ready := by
  obtain ⟨v, hv⟩ : ∃ v : Warp, v = { w with locked := true } := ⟨_, rfl⟩
  have hmv : Moved w (v.move m w.resumePc .ready) m w.resumePc .ready := by
    intro l p q
    rw [move_moved v m w.resumePc .ready l p q, hv]
    rfl
  have he : ∃ b, w.eret m = { (v.move m w.resumePc .ready).leaveHandler m with
      frontier := replaceIf b (fun e => { e with bpSkip := true }) ((v.move m w.resumePc .ready).leaveHandler m).frontier } :=
    ⟨_, by rw [hv]; rfl⟩
  obtain ⟨b, he⟩ := he
  obtain ⟨fr, n, t, e1⟩ := move_eq v m w.resumePc .ready
  obtain ⟨⟨fr', n', t', k', e2⟩, -⟩ := leaveHandler_live (v.move m w.resumePc .ready) m
  have hst := leaveHandler_stands (v.move m w.resumePc .ready) m fun l p hs => by
    rw [hmv l p] at hs
    split at hs
    · cases hs.2
    · exact h l p hs
  rw [he]
  refine ⟨⟨_, n', t', k', by rw [e2, e1, hv]⟩, fun l p q => ?_⟩
  rw [← hmv l p q, ← hst l p q]
  exact stands_bp ..

theorem execEret_returns {s : State} {c : Ctx} (h : Issues .eret s c) (hm : c.m ≠ 0)
    (hin : ∀ l, c.m.getLsbD l = true → c.w.hlanes.getLsbD l = true) :
    exec .eret s = .next (((s.setWarp c.u c.w).modWarp c.u (fun w => w.eret c.m)).done c 0) := by
  have hand : c.m &&& c.w.hlanes = c.m := by
    apply BitVec.eq_of_getLsbD_eq
    intro l _
    rw [BitVec.getLsbD_and]
    cases hl : c.m.getLsbD l with
    | false => rfl
    | true => simp [hin l hl]
  refine (warpOp_next h _ (exec_eret s)).trans (congrArg _ ?_)
  dsimp only
  rw [hand, if_neg hm, BitVec.and_not_self]
  unfold State.trapLanes
  rw [takeTrap_zero]

/-- Settles O19: `trap` and `brk` by the rule for a trap of the lanes of M, `eret` by the move of the handler's lanes. -/
theorem trapsAndReturns : Obligations.TrapsAndReturns := by
  refine ⟨fun code s c h hm hte hh => ?_, fun s c h hheld hm hte hh => ?_, fun s c h hm hin hpark => ?_⟩
  · exact ⟨_, warpOp_next h _ (exec_trap code s), h.traps hm hte hh 0x30 code.toNat⟩
  · refine ⟨_, (warpOp_next h _ (exec_brk s)).trans (congrArg _ (if_neg ?_)), h.traps hm hte hh 0x31 4⟩
    rw [show ((s.setWarp c.u c.w).part c.p.part).held.contains c.p.ctx = false from hheld]
    decide
  · obtain ⟨⟨fr, n, t, k, e⟩, hmv⟩ := eret_spec c.w c.m hpark
    obtain ⟨o, w, hw, ⟨fr', n', t', x, rfl⟩, ha⟩ := h.modDone (fun w => w.eret c.m) 0 (by rw [e])
    refine ⟨_, _, execEret_returns h hm hin, o, hw, fun n => ?_, ?_, fun r l => ?_, fun p => ?_, fun l => ?_, fun l p q => ?_⟩
    · rw [e]; rfl
    · rw [e]
    · rw [e]; rfl
    · rw [e]; rfl
    · rw [e]; rfl
    · rw [advances_zero ha l p q]
      exact hmv l p q

end Sys2Proof.Machine
end

section
namespace Sys2Proof.Machine

/-! ### Special registers (R17, R33, R211 to R213) -/

theorem special_mod (s : State) (c : Ctx) {n : Nat} (l : Nat) (h : 64 ≤ n) : s.special c n l = sget 0 c.w.mods n := if_pos h

theorem special_trapReg (s : State) (c : Ctx) {n : Nat} (l : Nat) (h : 34 ≤ n) (h' : n ≤ 43) : s.special c n l = c.w.trapReg n := by
  unfold State.special
  rw [if_neg (by omega), if_pos ⟨h, h'⟩]

theorem special_hsize (s : State) (c : Ctx) {k : Nat} (l : Nat) (h : k < 8) : s.special c (24 + k) l = BitVec.ofNat 32 (c.lr.hsize k) := by
  unfold State.special
  rw [if_neg (by omega), if_neg (by omega), if_pos (by omega), Nat.add_sub_cancel_left]

/-- The coordinate at the innermost level and beyond is 0 (R17). -/
theorem special_hcoord_beyond (s : State) (c : Ctx) {k : Nat} (l : Nat) (h : k < 8) (hk : c.lr.levels.length ≤ k + 1) :
    s.special c (16 + k) l = 0 := by
  have hz : ∀ bid wid lane, c.lr.hcoord bid wid lane k = 0 := fun _ _ _ => if_pos hk
  unfold State.special
  rw [if_neg (by omega), if_neg (by omega), if_neg (by omega), if_pos (by omega), Nat.add_sub_cancel_left, hz]
  exact ite_self _

theorem special_hcoord_tile (s : State) (c : Ctx) (l : Nat) (ht : c.w.tile = true) : s.special c 16 l = 0 ∧ s.special c 17 l = 0 :=
  ⟨if_pos ⟨ht, by decide⟩, if_pos ⟨ht, by decide⟩⟩

theorem extract_low (m : Mask) : m.extractLsb' 0 32 = BitVec.ofNat 32 m.toNat := by
  apply BitVec.eq_of_toNat_eq
  simp

theorem extract_high (m : Mask) : m.extractLsb' 32 32 = BitVec.ofNat 32 (m.toNat / 2 ^ 32) := by
  apply BitVec.eq_of_toNat_eq
  simp [Nat.shiftRight_eq_div_pow]

theorem special_unitKind (s : State) (c : Ctx) (l : Nat) :
    s.special c 0 l = BitVec.ofNat 32 (if c.w.tile then 0 else l) ∧ s.special c 1 l = (if c.w.tile then 1 else 64) ∧
    s.special c 2 l = BitVec.ofNat 32 (if c.w.tile then 0 else c.w.wid) := ⟨rfl, rfl, rfl⟩

/-- Settles O28: register by register. -/
theorem specialValues : Obligations.SpecialValues := by
  intro s c l one
  obtain ⟨h0, h1, h2⟩ := special_unitKind s c l
  refine ⟨fun ht => ?_, fun ht => ?_, rfl, rfl, rfl, rfl, rfl, rfl, rfl, rfl, rfl, rfl, rfl, ?_, ?_, fun k hk x hx => ?_, fun k hk hlen => ?_,
    fun k hk hlen => special_hcoord_beyond s c l hk hlen, ?_, rfl, fun n h h' => special_trapReg s c l h h', rfl, rfl,
    fun n h => special_mod s c l h⟩
  · simp only [ht, Bool.false_eq_true, if_false] at h0 h1 h2
    exact ⟨h0, h1, h2⟩
  · simp only [ht, if_true] at h0 h1 h2
    exact ⟨h0, h1, h2, special_hcoord_tile s c l ht⟩
  · exact extract_low c.is.mask
  · exact extract_high c.is.mask
  · refine (special_hsize s c l hk).trans ?_
    simp [LaunchRec.hsize, hx]
  · refine (special_hsize s c l hk).trans ?_
    simp [LaunchRec.hsize, hlen]
  · show (c.w.flagsOf l).setWidth 32 = _
    apply BitVec.eq_of_toNat_eq
    rw [BitVec.toNat_setWidth, BitVec.toNat_ofNat]

/-! ### `mfs` and `mts` (R211, R212) -/

/-- A unit that has captured the timebase, where `mfs` reads CLKLO (R211). -/
def Ctx.captured (c : Ctx) (n clk : Nat) : Ctx := { c with w := { c.w with clk := if n = 11 ∧ c.m ≠ 0 then clk else c.w.clk } }

theorem captured_eq (c : Ctx) (n clk : Nat) :
    (if n = 11 ∧ c.m ≠ 0 then { c with w := { c.w with clk := clk } } else c) = c.captured n clk := by
  unfold Ctx.captured
  split <;> rfl

theorem execMfs_finishes {i d : BitVec 7} {s : State} {c : Ctx} (h : Issues (.mfs i d) s c) : ∃ root, exec (.mfs i d) s =
    .next ((c.captured i.toNat s.timebase).finishReg (s.setWarp c.u c.w) d.toNat 1 (fun l => ([s.special c i.toNat l], 0)) c.row.cls root) := by
  refine ⟨rootValue i.toNat (s.special c i.toNat c.low), ?_⟩
  rw [exec_mfs, execMfs, front_of_issues h, ← captured_eq]
  rfl

theorem execMfs_reads {i d : BitVec 7} {s : State} {c : Ctx} (h : Issues (.mfs i d) s c) :
    ∃ t w, exec (.mfs i d) s = .next t ∧ OnlyUnit s t c.u ∧ kget t.warps c.u = some w ∧
      RegsWritten c w d.toNat 1 (fun l => [s.special c i.toNat l]) ∧
      w.clk = (if i.toNat = 11 ∧ c.m ≠ 0 then s.timebase else c.w.clk) ∧ { w.shell with clk := 0 } = { c.w.shell with clk := 0 } ∧
      (∀ l, l < 64 → w.flagsOf l = c.w.flagsOf l) ∧ (∀ p, w.pred p = c.w.pred p) ∧ Advances c c.w w c.is.mask := by
  obtain ⟨root, hx⟩ := execMfs_finishes h
  obtain ⟨o, w, hw, hsh, hr, hf, hp, ha⟩ := finishReg_any (s.setWarp c.u c.w) (c.captured i.toNat s.timebase) h.mask_le h.alive d.toNat 1
    (fun l => ([s.special c i.toNat l], 0)) c.row.cls root (fun _ _ => rfl)
  have hclk := congrArg Warp.clk hsh
  have hrest := congrArg (fun x : Warp => { x with clk := 0 }) hsh
  refine ⟨_, w, hx, (onlyUnit_setWarp _ _ _).trans o, hw, hr, hclk, hrest, fun l hl => ?_, hp, ha⟩
  refine (hf l hl).trans ?_
  show (if c.m.getLsbD l = true then c.w.flagsOf l ||| 0#5 else c.w.flagsOf l) = _
  rw [BitVec.or_zero]
  exact ite_self _

/-- The flags of the lanes of a mask, each set. -/
def Warp.setFlags (w : Warp) (m : Mask) (g : Nat → BitVec 5) : Warp :=
  (lanesOf m).foldl (fun w l => { w with flags := sset 0 w.flags l (g l) }) w

theorem foldl_flags (g : Nat → BitVec 5) (ls : List Nat) (w : Warp) :
    (∃ fl, ls.foldl (fun (w : Warp) l => { w with flags := sset 0 w.flags l (g l) }) w = { w with flags := fl }) ∧
    ∀ k, (ls.foldl (fun (w : Warp) l => { w with flags := sset 0 w.flags l (g l) }) w).flagsOf k = if k ∈ ls then g k else w.flagsOf k := by
  induction ls generalizing w with
  | nil => exact ⟨⟨w.flags, rfl⟩, fun k => by simp⟩
  | cons a t ih =>
    obtain ⟨⟨fl, e⟩, hk⟩ := ih { w with flags := sset 0 w.flags a (g a) }
    refine ⟨⟨fl, e⟩, fun k => (hk k).trans ?_⟩
    unfold Warp.flagsOf
    rw [sget_sset]
    by_cases hka : k = a
    · subst hka; simp
    · simp [hka]

theorem setFlags_spec (w : Warp) (m : Mask) (g : Nat → BitVec 5) : (∃ fl, w.setFlags m g = { w with flags := fl }) ∧
    ∀ k, k < 64 → (w.setFlags m g).flagsOf k = if m.getLsbD k = true then g k else w.flagsOf k := by
  obtain ⟨e, h⟩ := foldl_flags g (lanesOf m) w
  refine ⟨e, fun k hk => (h k).trans ?_⟩
  simp [mem_lanesOf, hk]

theorem writeSpecial_mod (w : Warp) {n : Nat} (v : Word) (h : 64 ≤ n) (h' : n < 128) :
    w.writeSpecial n v = { w with mods := sset 0 w.mods n v } := if_pos ⟨h, h'⟩

theorem writeSpecial_trapReg (w : Warp) {n : Nat} (v : Word) (h : 34 ≤ n) (h' : n ≤ 43) :
    w.writeSpecial n v = w.setTrapReg n (if n = 34 then v &&& 0xFF else v) := by
  unfold Warp.writeSpecial
  rw [if_neg (by omega)]
  by_cases hn : n = 34
  · rw [if_pos hn, if_pos hn]
  · rw [if_neg hn, if_neg hn, if_pos (by omega)]

theorem writeSpecial_readOnly (w : Warp) {n : Nat} (v : Word) (h : n < 34 ∨ 43 < n ∧ n < 64) : w.writeSpecial n v = w := by
  unfold Warp.writeSpecial
  rw [if_neg (by omega), if_neg (by omega), if_neg (by omega)]

/-- What `mts` makes of a unit (R212). -/
def Ctx.mtsWarp (c : Ctx) (n a : Nat) : Warp :=
  if c.m = 0 then c.w
  else if n = 32 then c.w.setFlags c.m (fun l => (c.rd a l).extractLsb' 0 5)
  else c.w.writeSpecial n (c.rd a c.low)

theorem execMts_done {i a : BitVec 7} {s : State} {c : Ctx} (h : Issues (.mts i a) s c) :
    exec (.mts i a) s = .next (((s.setWarp c.u c.w).setWarp c.u (c.mtsWarp i.toNat a.toNat)).done c c.is.mask) :=
  warpOp_next h _ (exec_mts i a s)

/-- `mts` writes flags, trap registers and modifiers alone, and of each kind what R212 and R213 give. -/
theorem mtsWarp_spec (c : Ctx) {n : Nat} (a : Nat) (hn : n < 128) :
    (∃ fl tr md, c.mtsWarp n a = { c.w with flags := fl, trap := tr, mods := md }) ∧
    (∀ l, l < 64 → (c.mtsWarp n a).flagsOf l = if n = 32 ∧ c.m.getLsbD l = true then (c.rd a l).extractLsb' 0 5 else c.w.flagsOf l) ∧
    (∀ k, (c.mtsWarp n a).trapReg k = if c.m ≠ 0 ∧ k = n ∧ 34 ≤ k ∧ k ≤ 43 then
      (if k = 34 then c.rd a c.low &&& 0xFF else c.rd a c.low) else c.w.trapReg k) ∧
    (∀ k, sget 0 (c.mtsWarp n a).mods k = if c.m ≠ 0 ∧ k = n ∧ 64 ≤ k then c.rd a c.low else sget 0 c.w.mods k) := by
  unfold Ctx.mtsWarp
  by_cases hm : c.m = 0
  · rw [if_pos hm]
    exact ⟨⟨_, _, _, rfl⟩, fun l _ => by simp [hm], fun k => by simp [hm], fun k => by simp [hm]⟩
  rw [if_neg hm]
  by_cases h32 : n = 32
  · obtain ⟨⟨fl, e⟩, hfl⟩ := setFlags_spec c.w c.m (fun l => (c.rd a l).extractLsb' 0 5)
    rw [if_pos h32]
    refine ⟨⟨fl, _, _, e⟩, fun l hl => by simp [hfl l hl, h32], fun k => ?_, fun k => ?_⟩
    · rw [e, if_neg (by omega)]; rfl
    · rw [e, if_neg (by omega)]
  rw [if_neg h32]
  have flags : ∀ w' : Warp, (∀ l, w'.flagsOf l = c.w.flagsOf l) → ∀ l, l < 64 →
      w'.flagsOf l = if n = 32 ∧ c.m.getLsbD l = true then (c.rd a l).extractLsb' 0 5 else c.w.flagsOf l :=
    fun w' h l _ => by simp [h l, h32]
  by_cases hmod : 64 ≤ n
  · rw [writeSpecial_mod c.w _ hmod hn]
    refine ⟨⟨_, _, _, rfl⟩, flags _ fun _ => rfl, fun k => ?_, fun k => ?_⟩
    · rw [if_neg (by omega)]; rfl
    · rw [sget_sset]
      by_cases hk : k = n
      · rw [if_pos hk, if_pos ⟨hm, hk, by omega⟩]
      · rw [if_neg hk, if_neg fun h => hk h.2.1]
  by_cases htrap : 34 ≤ n ∧ n ≤ 43
  · rw [writeSpecial_trapReg c.w _ htrap.1 htrap.2]
    obtain ⟨v, hv⟩ : ∃ v, v = if n = 34 then c.rd a c.low &&& 0xFF else c.rd a c.low := ⟨_, rfl⟩
    rw [← hv]
    refine ⟨⟨_, _, _, rfl⟩, flags _ fun _ => rfl, fun k => ?_, fun k => ?_⟩
    · rw [trapReg_setTrapReg]
      by_cases hk : k = n
      · rw [if_pos hk, if_pos ⟨hm, hk, by omega⟩, hk, hv]
      · rw [if_neg hk, if_neg fun h => hk h.2.1]
    · rw [if_neg (by omega)]; rfl
  · rw [writeSpecial_readOnly c.w _ (by omega)]
    refine ⟨⟨_, _, _, rfl⟩, flags _ fun _ => rfl, fun k => ?_, fun k => ?_⟩
    · rw [if_neg (by omega)]
    · rw [if_neg (by omega)]

theorem execMts_writes {i a : BitVec 7} {s : State} {c : Ctx} (h : Issues (.mts i a) s c) :
    ∃ t w, exec (.mts i a) s = .next t ∧ OnlyUnit s t c.u ∧ kget t.warps c.u = some w ∧
      (∃ fr n tn x, w = { c.mtsWarp i.toNat a.toNat with frontier := fr, fair := n, turn := tn, xw := x }) ∧ Advances c c.w w c.is.mask := by
  obtain ⟨⟨fl, tr, md, e⟩, -⟩ := mtsWarp_spec c a.toNat i.isLt
  obtain ⟨o, hd⟩ := done_frame ((s.setWarp c.u c.w).setWarp c.u (c.mtsWarp i.toNat a.toNat)) c c.is.mask
  obtain ⟨fr, n, tn, x, hw, ha⟩ := hd _ (unit_setWarp ..)
  refine ⟨_, _, execMts_done h, ((onlyUnit_setWarp _ _ _).trans (onlyUnit_setWarp _ _ _)).trans o, hw, ⟨fr, n, tn, x, rfl⟩, ?_⟩
  exact advances_of (ha (by rw [e]; exact h.alive)) (by rw [e])

/-- Settles O27: `mfs` finishes as a register write of its captured unit, `mts` as a change of flags, trap registers and modifiers. -/
theorem specialRegisters : Obligations.SpecialRegisters := by
  refine ⟨fun i d s c h => ?_, fun i a s c h => ?_⟩
  · have hi : i = 11 ↔ i.toNat = 11 := by bv_omega
    have hval : ∀ l, (if i = 11 then BitVec.ofNat 32 s.timebase else s.special c i.toNat l) = s.special c i.toNat l := fun l => by
      split
      · rename_i h11
        rw [h11]
        rfl
      · rfl
    simp only [hval]
    simp only [hi]
    exact execMfs_reads h
  · obtain ⟨⟨fl, tr, md, e⟩, hfl, htr, hmd⟩ := mtsWarp_spec c a.toNat i.isLt
    obtain ⟨t, _, hx, o, hw, ⟨fr, n, tn, x, rfl⟩, ha⟩ := execMts_writes h
    have hi : i = 32 ↔ i.toNat = 32 := by bv_omega
    simp only [hi]
    refine ⟨t, _, hx, o, hw, hfl, htr, hmd, ?_, fun r l => ?_, fun p => ?_, ha⟩
    · rw [e]; rfl
    · rw [e]; rfl
    · rw [e]; rfl

end Sys2Proof.Machine
end

section
namespace Sys2Proof.Machine

/-! ### The shared checks (R20, R130, R137, R139) -/

/-- Every instruction word is an effect on the whole state behind the shared front end; the events are none. -/
theorem exec_eq_warpOp (i : Instr) (h : i.isWord = true) : ∃ f, ∀ s, exec i s = warpOp i s f := by
  cases i <;> cases h <;> exact ⟨_, fun _ => rfl⟩

/-- What the front end stops at, the instruction comes to. -/
theorem exec_of_stop {i : Instr} {s t : State} (h : i.isWord = true) (hs : front i s = .stop t) : exec i s = .next t := by
  obtain ⟨f, hf⟩ := exec_eq_warpOp i h
  rw [hf, warpOp, hs]

/-- The latched instruction's unit lives, is `c`'s, and has lanes to issue. -/
structure Latched (s : State) (c : Ctx) : Prop where
  latch : s.cur = some c.is
  unit : c.u = c.is.u
  warp : kget s.warps c.u = some c.w
  alive : c.w.ended = false
  owner : s.who c.u = some c.p
  launch : s.lrOf c.p.launch = some c.lr
  lanes : c.is.mask ≠ 0

/-- `c` with the latch's modifiers and an instruction's row, before anything of it has been judged. -/
def Ctx.unjudged (c : Ctx) (i : Instr) (s : State) : Ctx := ⟨c.is.u, c.is, c.w, c.p, c.lr, c.is.px, 0, i.row, [], s.stepNo⟩

theorem Latched.issues_check {s : State} {c : Ctx} (h : Latched s c) : (c.w.ended || c.is.mask == 0) = false := by
  rw [h.alive, Bool.false_or, beq_eq_false_iff_ne]
  exact h.lanes

theorem prefix_check {is : Issue} {r : Row} (h : is.pfx = none ∨ r.accepts is.px = true) : (is.pfx.isSome && !r.accepts is.px) = false := by
  rcases h with h | h
  · rw [h]; rfl
  · rw [h]; exact Bool.and_false _

/-- The operands whose registers an instruction reads, with the lanes that issue. -/
def Ctx.readsOf (c : Ctx) (i : Instr) : List (Nat × Nat × Nat) :=
  readUses i.row c.is.px (execMask c.w c.is.px c.is.mask == -1 || c.w.tile)

/-- The cycle at which an instruction gathers, and what it reads too early (R134, R137). -/
def Ctx.gathers (c : Ctx) (i : Instr) (s : State) : Nat × List Hazard :=
  gatherAt s c.w (c.is.count.isSome && c.is.depth == 0 && !c.w.locked && !s.halfRatio (c.p.core / 4)) (c.readsOf i)
    (predReads i.row c.is.px)

/-- The first shared check that fails: its cause and TRAPINFO (R20, R130, R137, R139). -/
def Ctx.failed (c : Ctx) (i : Instr) (s : State) : Option (Nat × Nat) :=
  if c.is.pfx.isSome && !i.row.accepts c.is.px then some (0x01, (c.is.pfx.getD 0).toNat)
  else if !(i.legalWord c.is.px && i.legalOn c.w.tile) then some (0x01, c.is.word.toNat)
  else
    match windowBad c.w i.row c.is.px with
    | some (pos, f) => some (0x04, f + pos * 2 ^ 7)
    | none =>
      if c.lr.checkstall && !(c.gathers i s).2.isEmpty then
        some (0x03, stallInfo c.w (c.gathers i s).1 (c.gathers i s).2 (c.readsOf i))
      else none

/-- The front end stops with the trap of the first check that fails. -/
theorem front_of_failed {i : Instr} {s : State} {c : Ctx} (h : Latched s c) {k n : Nat} (hf : c.failed i s = some (k, n)) :
    front i s = .stop (s.trapAll (c.unjudged i s) k n 0) := by
  have h1 := h.issues_check
  obtain ⟨hcur, hu, hw, -, hp, hlr, -⟩ := h
  rw [hu] at hw hp
  unfold front
  simp only [hcur, hw, hp, hlr, h1, Bool.false_eq_true, if_false]
  unfold Ctx.failed Ctx.gathers Ctx.readsOf at hf
  by_cases hpfx : (c.is.pfx.isSome && !i.row.accepts c.is.px) = true
  · rw [if_pos hpfx] at hf ⊢
    cases hf
    rfl
  rw [if_neg hpfx] at hf ⊢
  by_cases hleg : (!(i.legalWord c.is.px && i.legalOn c.w.tile)) = true
  · rw [if_pos hleg] at hf ⊢
    cases hf
    rfl
  rw [if_neg hleg] at hf ⊢
  rcases hwin : windowBad c.w i.row c.is.px with _ | ⟨pos, f⟩
  · rw [hwin] at hf
    dsimp only at hf ⊢
    split at hf
    · rename_i hstall
      cases hf
      rw [if_pos hstall]
      rfl
    · cases hf
  · rw [hwin] at hf
    cases hf
    rfl

theorem failed_prefix {c : Ctx} {i : Instr} {s : State} {x : Word} (hx : c.is.pfx = some x) (ha : i.row.accepts c.is.px = false) :
    c.failed i s = some (0x01, x.toNat) := by
  unfold Ctx.failed
  rw [if_pos (by rw [hx, ha]; rfl), hx]
  rfl

theorem failed_illegal {c : Ctx} {i : Instr} {s : State} (hx : c.is.pfx = none ∨ i.row.accepts c.is.px = true)
    (hl : i.legalWord c.is.px = false ∨ i.legalOn c.w.tile = false) : c.failed i s = some (0x01, c.is.word.toNat) := by
  have hill : (!(i.legalWord c.is.px && i.legalOn c.w.tile)) = true := by rcases hl with hl | hl <;> simp [hl]
  unfold Ctx.failed
  rw [prefix_check hx, hill]
  rfl

theorem failed_operands {c : Ctx} {i : Instr} {s : State} (hx : c.is.pfx = none ∨ i.row.accepts c.is.px = true)
    (hl : i.legalWord c.is.px = true) (ht : i.legalOn c.w.tile = true) :
    (∀ pos f, windowBad c.w i.row c.is.px = some (pos, f) → c.failed i s = some (0x04, f + pos * 2 ^ 7)) ∧
    (windowBad c.w i.row c.is.px = none → c.lr.checkstall = true → (c.gathers i s).2 ≠ [] →
      c.failed i s = some (0x03, stallInfo c.w (c.gathers i s).1 (c.gathers i s).2 (c.readsOf i))) := by
  unfold Ctx.failed
  rw [prefix_check hx, hl, ht]
  refine ⟨fun pos f hb => ?_, fun hb hc hg => ?_⟩
  · rw [hb]
    rfl
  · have hearly : (c.lr.checkstall && !(c.gathers i s).2.isEmpty) = true := by simpa [hc] using hg
    rw [hb, hearly]
    rfl

/-- A check that fails traps all the issuing lanes before any effect (R27). -/
theorem takes_of_stop {i : Instr} {s : State} {c : Ctx} (hw : i.isWord = true) (h : Latched s c) (hte : c.lr.trapentry ≠ 0)
    (hh : c.w.hlanes = 0) {k n : Nat} (hs : front i s = .stop (s.trapAll (c.unjudged i s) k n 0)) :
    ∃ t, exec i s = .next t ∧ Traps s t c c.is.mask 0 k n c.is.pc 0 := by
  have he : s.trapAll (c.unjudged i s) k n 0 = s.trapAll c k n 0 := by
    have hu := h.unit
    obtain ⟨u, is, w, p, lr, px, m, row, early, step⟩ := c
    dsimp only at hu
    subst hu
    rfl
  refine ⟨_, exec_of_stop hw (hs.trans (congrArg _ he)), ?_⟩
  exact takeTrap_any h.alive s c.is.mask 0 ⟨k, n, 0, c.is.pc, none⟩ (.refl _ _) h.owner h.launch c.w h.warp ⟨c.w.haz, rfl⟩ h.lanes hte hh rfl
    (fun l _ => BitVec.getLsbD_zero) c.is.pc

/-- Settles O57: each check is the first that fails, and the front end's answer is the instruction's. -/
theorem sharedChecks : Obligations.SharedChecks := by
  intro i s c hw hcur hu hwarp hend hwho hlr hm hte hh px takes
  have h : Latched s c := ⟨hcur, hu, hwarp, hend, hwho, hlr, hm⟩
  have stops : ∀ {k n}, c.failed i s = some (k, n) → takes k n := fun hf => takes_of_stop hw h hte hh (front_of_failed h hf)
  refine ⟨fun x hx ha => stops (failed_prefix hx ha), fun hx hl => stops (failed_illegal hx hl), fun hx hl ht => ?_⟩
  obtain ⟨window, early⟩ := failed_operands (s := s) hx hl ht
  exact ⟨fun pos f hb => stops (window pos f hb), fun hb hc hg => stops (early hb hc hg)⟩

end Sys2Proof.Machine
end

section
namespace Sys2Proof.Machine

/-! ### A step runs the decoded instruction (R22, R32, R41, R130, R133) -/

theorem step_of_issue {s s1 t : State} {u : Nat} {i : Instr} (hp : s.powered = true) (hc : s.choose = (.issue u, s1))
    (hr : s1.prepare u none = .run i t) : step s = exec i t := by
  unfold step
  simp only [hp, hc, hr, if_true]

theorem step_of_event {s s1 : State} {i : Instr} (hp : s.powered = true) (hc : s.choose = (.event i, s1)) (ho : s1.eventOpen i = true) :
    step s = exec i s1 := by
  unfold step
  simp only [hp, hc, ho, if_true]

theorem locs_of_mem (bs : List PByte) (h : ∀ b ∈ bs, ∃ pa, b.loc = .mem pa) : ∃ ps : List Nat, bs.map (·.loc) = ps.map .mem := by
  induction bs with
  | nil => exact ⟨[], rfl⟩
  | cons b t ih =>
    obtain ⟨ps, ht⟩ := ih fun x hx => h x (List.mem_cons_of_mem _ hx)
    obtain ⟨pa, hb⟩ := h b (List.mem_cons_self ..)
    exact ⟨pa :: ps, by simp only [List.map_cons, hb, ht]⟩

/-- The byte of the home view at a location (log 39). -/
def State.homeAt (s : State) : Loc → Byte
  | .mem pa => s.hByte pa
  | _ => 0

/-- A word whose bytes all lie in memory is fetched little-endian from the home view (R41). -/
theorem fetchWord_mem {s s2 : State} {p : Who} {u : Nat} {pc : DWord} {bs : List PByte} (hc : s.checkElem p u 0 .fetch true false 0 pc 4 = (s2, .ok bs))
    {ps : List Nat} (hb : bs.map (·.loc) = ps.map .mem) : s.fetchWord p u pc = (s2, .ok (BitVec.ofNat 32 (natLE (ps.map s2.hByte)))) := by
  have hbytes : bs.map (fun b => s2.homeAt b.loc) = ps.map s2.hByte := by
    calc bs.map (fun b => s2.homeAt b.loc) = (bs.map (·.loc)).map s2.homeAt := by rw [List.map_map]; rfl
      _ = ps.map s2.hByte := by rw [hb, List.map_map]; rfl
  rw [← hbytes]
  unfold State.fetchWord
  rw [hc]
  rfl

/-- A unit that may issue and is its scheduler's pick, with nothing else due to it first (R22, R26, R32, R198, R239, R244, R268, R316). -/
structure Undisturbed (s : State) (u : Nat) (w : Warp) (p : Who) : Prop where
  warp : kget s.warps u = some w
  owner : s.who u = some p
  alive : w.ended = false
  may : s.mayIssue u w p = true
  picked : s.outranked u w p = false
  noRun : w.xw = none
  noRecord : s.sfDue u w = false
  noDrain : w.sdrain = false
  noOverrun : w.overrunDue = false
  noPassFault : w.passDue = false
  noTurn : w.turn = none
  fair : w.fair < 64
  noStep : ∀ x ∈ (s.part p.part).stepping, x.1 ≠ u

theorem setCur_none {s : State} (h : s.cur = none) : s.setCur none = s := by
  unfold State.setCur
  rw [← h]

theorem issueLanes_all {s : State} {u : Nat} {w : Warp} (h : w.sdrain = false) : s.issueLanes u w = -1 := by
  unfold State.issueLanes
  rw [h]
  rfl

/-- The first ready entry, where its lanes may issue, is the first ready entry whose lanes may (R22). -/
theorem headOf_may {fr : List Entry} {e : Entry} {may : Mask} (h : headOf fr = some e) (hm : e.mask &&& may ≠ 0) :
    fr.find? (fun x => x.isReady && (x.mask &&& may) != 0) = some e := by
  unfold headOf at h
  induction fr with
  | nil => cases h
  | cons a t ih =>
    by_cases ha : a.isReady = true
    · rw [List.find?_cons_of_pos ha] at h
      obtain rfl := Option.some.inj h
      exact List.find?_cons_of_pos (by simpa [ha] using hm)
    · rw [List.find?_cons_of_neg ha] at h
      rw [List.find?_cons_of_neg (by simp [ha])]
      exact ih h

/-- An undisturbed unit prepares the head of its frontier (R22). -/
theorem prepare_head {s t : State} {u : Nat} {w : Warp} {p : Who} {e : Entry} {i : Instr} (hcur : s.cur = none) (h : Undisturbed s u w p)
    (he : headOf w.frontier = some e) (hm : e.mask &&& s.issueLanes u w ≠ 0) (hf : s.fetchEntry u p e = .run i t) :
    s.prepare u none = .run i t := by
  obtain ⟨hw, hp, hend, hmay, hpick, hxw, hsf, hsd, hov, hpf, hturn, hfair, hstep⟩ := h
  have hdue : (s.part p.part).stepping.filter (fun x => x.1 == u) = [] :=
    List.filter_eq_nil_iff.2 fun x hx => by simpa using hstep x hx
  have hhead := headOf_may he hm
  have hnot : ¬ 64 ≤ w.fair := Nat.not_le.2 hfair
  have hlanes : ¬ s.issueLanes u w = 0 := fun h0 => hm (by rw [h0]; exact BitVec.and_zero)
  unfold State.prepare
  simp only [setCur_none hcur, hw, hp, hend, hmay, hpick, hxw, hsf, hsd, hov, hpf, hturn, hdue, hnot, hlanes, hhead, hf,
    Bool.true_or, Bool.not_true, Bool.or_self, Bool.and_false, Bool.false_and, Bool.false_eq_true, if_false, decide_false,
    List.find?_nil, Option.map_none, Option.orElse_none, Option.isSome_none]

/-- What a fetched word comes to at an entry where no breakpoint stops it: the instruction, or modifiers for the next word. -/
def State.issueWord (s : State) (u : Nat) (p : Who) (e : Entry) (word : Word) : Prep :=
  let locked := (kget s.warps u).any (·.locked)
  let n := s.countAt p (e.pc.toNat / 4 + 1) e.pc.toNat 0
  let s := s.modWarp u (fun w => w.stampEntry e.mask s.stepNo)
  if isPrefixW word then
    let q := s.fetchWord p u (e.pc + 4)
    match q.2 with
    | .error x => .done (q.1.fetchFault u e.mask e.pc (e.pc + 4) x)
    | .ok next => q.1.latch ⟨u, e.pc, e.pc + 4, e.pc + 8, next, some word, e.mask, n, 0, e.stamp, locked⟩
  else s.latch ⟨u, e.pc, e.pc, e.pc + 4, word, none, e.mask, n, 0, e.stamp, locked⟩

/-- An entry whose word is no stall word and meets no breakpoint issues that word (R133, R315). -/
theorem fetchEntry_word {s s2 : State} {u : Nat} {w : Warp} {p : Who} {e : Entry} {word : Word} (hw : kget s.warps u = some w)
    (hf : s.fetchWord p u e.pc = (s2, .ok word)) (hst : isStallW word = false) (he : w.entryOf e.mask = some e)
    (hbp : e.bpSkip = true ∨ s2.bpMatch p.part p.ctx e.pc = none) : s.fetchEntry u p e = s2.issueWord u p e word := by
  have hent : (kget s2.warps u).bind (fun w => w.entryOf e.mask) = some e := by
    have hm := (fetch_onlyMem s p u e.pc).warps
    rw [hf] at hm
    rw [hm, hw]
    exact he
  have hskip : s.skipStalls p u (top57 / 4) e.pc = (s2, e.pc, .ok word) := by
    rw [show top57 / 4 = (top57 / 4 - 1) + 1 from rfl]
    unfold State.skipStalls
    simp only [hf, hst, Bool.false_and, Bool.false_eq_true, if_false]
  have hhit : (if e.bpSkip || s2.stepped p.part u then none else s2.bpMatch p.part p.ctx e.pc) = none := by
    rcases hbp with hb | hb
    · rw [hb]; rfl
    · rw [hb]; exact ite_self _
  unfold State.fetchEntry
  simp only [hskip, if_true, hent, hhit]
  rfl

theorem issueWord_plain {s : State} {u : Nat} {p : Who} {e : Entry} {word : Word} {i : Instr} (hx : isPrefixW word = false)
    (hd : decode word = .ok i) : s.issueWord u p e word =
      .run i ((s.modWarp u (fun w => w.stampEntry e.mask s.stepNo)).setCur (some ⟨u, e.pc, e.pc, e.pc + 4, word, none, e.mask,
        s.countAt p (e.pc.toNat / 4 + 1) e.pc.toNat 0, 0, e.stamp, (kget s.warps u).any (·.locked)⟩)) := by
  unfold State.issueWord State.latch
  simp only [hx, hd, Bool.false_eq_true, if_false]

theorem issueWord_prefixed {s s4 : State} {u : Nat} {p : Who} {e : Entry} {word next : Word} {i : Instr} (hx : isPrefixW word = true)
    (hf : (s.modWarp u (fun w => w.stampEntry e.mask s.stepNo)).fetchWord p u (e.pc + 4) = (s4, .ok next)) (hd : decode next = .ok i)
    (hrm : (pxFields word.toNat).rm ≤ 4) (hms : (pxFields word.toNat).ms ≤ 6) (hrsv : (pxFields word.toNat).rsv = 0) :
    s.issueWord u p e word = .run i (s4.setCur (some ⟨u, e.pc, e.pc + 4, e.pc + 8, next, some word, e.mask,
      s.countAt p (e.pc.toNat / 4 + 1) e.pc.toNat 0, 0, e.stamp, (kget s.warps u).any (·.locked)⟩)) := by
  obtain ⟨hnp, hns⟩ := decode_plain hd
  unfold State.issueWord
  simp only [hx, hf, if_true]
  exact latch_prefix _ _ word i _ rfl rfl hnp hns hrm hms hrsv hd

/-- Settles O56: the step, the fetch of a word, and the head of the frontier with its plain word or with modifiers and the next word. -/
theorem stepRunsInstruction : Obligations.StepRunsInstruction := by
  refine ⟨fun s u s1 i t hp hc hr => step_of_issue hp hc hr, fun s i s1 hp hc ho => step_of_event hp hc ho, fun s s2 p u pc bs hc hb => ?_, ?_⟩
  · obtain ⟨ps, hps⟩ := locs_of_mem bs hb
    exact ⟨ps, hps, fetchWord_mem hc hps⟩
  · intro s s2 u w p e word hcur hw hp hend hmay hpick hxw hsf hsd hov hpf hturn hfair hstep he hm hf hst hent hbp s3 n locked
    have h : Undisturbed s u w p := ⟨hw, hp, hend, hmay, hpick, hxw, hsf, hsd, hov, hpf, hturn, hfair, hstep⟩
    have runs : ∀ {i t}, s2.issueWord u p e word = .run i t → s.prepare u none = .run i t := fun hr =>
      prepare_head hcur h he hm ((fetchEntry_word hw hf hst hent hbp).trans hr)
    exact ⟨fun hx i hd => runs (issueWord_plain hx hd),
      fun hx s4 next i hf4 hd hrm hms hrsv => runs (issueWord_prefixed hx hf4 hd hrm hms hrsv)⟩

end Sys2Proof.Machine
end

section
namespace Sys2Proof.Machine

/-! ### The steps of a unit that are no instruction (R30, R32, R204, R217, R239, R244, R268, R304, R305) -/

/-- The fairness turn goes to the ready entry that has waited longest, the lower PC on a tie (R32). -/
theorem longestWaiting_of {fr : List Entry} {e : Entry} (he : e ∈ fr) (hr : e.isReady = true)
    (h : ∀ x ∈ fr, x.isReady = true → x ≠ e → e.stamp < x.stamp ∨ (e.stamp = x.stamp ∧ e.pc.toNat < x.pc.toNat)) :
    longestWaiting fr = some e := by
  refine leastBy_strict _ _ e (List.mem_filter.2 ⟨he, hr⟩) fun x hx hne => ?_
  obtain ⟨hx, hxr⟩ := List.mem_filter.1 hx
  have hpc := e.pc.isLt
  have := h x hx hxr hne
  omega

theorem execFairnessTurn_turns {s : State} {u : Nat} {w : Warp} {e : Entry} (hw : kget s.warps u = some w) (hb : s.atBoundary u = true)
    (ht : w.turn = none) (hf : 64 ≤ w.fair) (hl : longestWaiting w.frontier = some e) :
    ∃ t w', exec (.fairnessTurn u) s = .next t ∧ OnlyUnit s t u ∧ kget t.warps u = some w' ∧ Kept w w' ∧ w'.frontier = w.frontier ∧
      w'.turn = some e.mask.toNat := by
  refine ⟨_, _, exec_fairnessTurn u s, onlyUnit_modWarp _ _ _, modWarp_get hw _, ?_⟩
  simp only [hb, ht, hf, Option.isNone_none, decide_true, Bool.and_self, if_true]
  unfold Warp.giveTurn
  rw [hl]
  exact ⟨kept_of_frontier w w.frontier w.fair (some e.mask.toNat), rfl, rfl⟩

/-- Where all entries wait at `join`, the lowest address goes on (R30). -/
theorem joinDeadlock_wakes {w : Warp} {j : Entry} (hlen : 2 ≤ w.frontier.length) (hall : ∀ e ∈ w.frontier, e.st = .waiting .join)
    (hj : j ∈ w.frontier) (hmin : ∀ e ∈ w.frontier, j.pc.toNat ≤ e.pc.toNat) :
    w.joinDeadlock = w.wake (fun e => e.atJoin && e.pc == j.pc) := by
  have hjs : w.frontier.filter Entry.atJoin = w.frontier := List.filter_eq_self.2 fun e he => decide_eq_true (hall e he)
  obtain ⟨k, hk⟩ := leastBy_some (fun e : Entry => e.pc.toNat) w.frontier (List.ne_nil_of_mem hj)
  obtain ⟨hkm, hkmin⟩ := leastBy_mem _ _ _ hk
  have hpc : k.pc = j.pc := BitVec.eq_of_toNat_eq (Nat.le_antisymm (hkmin j hj) (hmin k hkm))
  unfold Warp.joinDeadlock
  simp only [hjs, hk, hlen, hpc, beq_self_eq_true, decide_true, Bool.and_self, if_true]

theorem execJoinDeadlockRelease_wakes {s : State} {u : Nat} {w : Warp} {j : Entry} (hw : kget s.warps u = some w)
    (hlen : 2 ≤ w.frontier.length) (hall : ∀ e ∈ w.frontier, e.st = .waiting .join)
    (hj : j ∈ w.frontier) (hmin : ∀ e ∈ w.frontier, j.pc.toNat ≤ e.pc.toNat) :
    ∃ t w', exec (.joinDeadlockRelease u) s = .next t ∧ OnlyUnit s t u ∧ kget t.warps u = some w' ∧ Kept w w' ∧
      Woken w w' (fun e => e.pc = j.pc) := by
  refine ⟨_, _, exec_joinDeadlockRelease u s, onlyUnit_modWarp _ _ _, modWarp_get hw _, ?_⟩
  rw [joinDeadlock_wakes hlen hall hj hmin]
  exact ⟨kept_wake _ _, woken_wake _ _ _ fun e he => by simp [Entry.atJoin, hall e he]⟩

/-- A sleep whose time has passed, at a PC (R217). -/
theorem execSleepExpiry_wakes {s : State} {u pc : Nat} {w : Warp} (hw : kget s.warps u = some w) :
    ∃ t w', exec (.sleepExpiry u pc) s = .next t ∧ OnlyUnit s t u ∧ kget t.warps u = some w' ∧ Kept w w' ∧
      Woken w w' (fun e => e.pc.toNat = pc ∧ ∃ n, e.st = .waiting (.sleep n) ∧ n ≤ s.timebase) := by
  refine ⟨_, _, exec_sleepExpiry u pc s, onlyUnit_modWarp _ _ _, modWarp_get hw _, kept_wake _ _, woken_wake _ _ _ fun e _ => ?_⟩
  rw [Bool.and_eq_true, beq_iff_eq]
  refine and_congr_right fun _ => ?_
  split
  · rename_i n hst
    simp [hst]
  · rename_i hst
    simp only [Bool.false_eq_true, false_iff]
    rintro ⟨n, hn, -⟩
    exact hst n hn

/-! ### A phase wait (R204, R298) -/

/-- The lanes that go on together: in the `priv` window each lane has a word of its own (R298). -/
def phaseLanes (lane a : Nat) (m : Mask) : Mask :=
  match windowAt a with
  | .priv _ => laneBit lane
  | _ => m

/-- Lanes that go on after a wait, their next instruction interlocked (R136). -/
def Warp.resumed (w : Warp) (m : Mask) (pc : DWord) : Warp := { w.move m pc .ready with locked := true }

theorem resumed_moved (w : Warp) (m : Mask) (pc : DWord) : Moved w (w.resumed m pc) m pc .ready := move_moved w m pc .ready

theorem kept_resumed (w : Warp) (m : Mask) (pc : DWord) : Kept w (w.resumed m pc) := kept_move w m pc .ready

theorem modWarp_eq_setWarp {s : State} {u : Nat} {w : Warp} (hw : kget s.warps u = some w) (f : Warp → Warp) :
    s.modWarp u f = s.setWarp u (f w) := by
  unfold State.modWarp State.setWarp
  rw [kmod_some f hw]

/-- A scratchpad's bytes are read as they stand, by their places alone. -/
theorem pointRead_spadLocs (s : State) (p : Who) (u k : Nat) (bs : List PByte) (os : List Nat) (h : bs.map (·.loc) = os.map (.spad k)) :
    s.pointRead p u .spad bs = (s, os.map (s.spadByte k)) := by
  have hloc : ∀ b ∈ bs, ∃ o, b.loc = .spad k o := fun b hb => by
    obtain ⟨o, -, ho⟩ := List.mem_map.1 (h ▸ List.mem_map_of_mem (f := PByte.loc) hb)
    exact ⟨o, ho.symm⟩
  have hval := congrArg (List.map fun l => match l with
    | .spad k o => s.spadByte k o
    | _ => 0) h
  rw [List.map_map, List.map_map] at hval
  rw [pointRead_spad p u k .spad bs s hloc]
  exact congrArg (Prod.mk s) hval

theorem phaseBytes_spad (s : State) (p : Who) (u k off : Nat) (bs : List PByte)
    (h : bs.map (·.loc) = (List.range 4).map (fun j => .spad k (off + j))) :
    s.phaseBytes p u bs = some (s, (List.range 4).map (fun j => s.spadByte k (off + j))) := by
  have hread := pointRead_spadLocs s p u k bs ((List.range 4).map (off + ·)) (by rw [h, List.map_map]; rfl)
  rw [List.map_map] at hread
  cases bs with
  | nil => cases h
  | cons b t =>
    have hb : b.loc = .spad k off := (List.cons.inj h).1
    unfold State.phaseBytes
    simp only [hb]
    exact congrArg some hread

/-- After the flip the waiting lanes go on and acquire (R204). -/
theorem execPbwaitRelease_flips {s : State} {u lane : Nat} {w : Warp} {p : Who} {e : Entry} {a : Nat} {ph : Bool} {scope : Nat}
    {bs : List PByte} {v : List Byte} (hw : kget s.warps u = some w) (hp : s.who u = some p) (he : w.entryOf (laneBit lane) = some e)
    (hst : e.st = .waiting (.pbwait a ph scope)) (hc : s.checkElem p u lane .load true false 0 (BitVec.ofNat 64 a) 4 = (s, .ok bs))
    (hv : s.phaseBytes p u bs = some (s, v)) (hph : phaseOf v ≠ ph) :
    exec (.pbwaitRelease u lane) s = .next ((s.acquire p.view scope).setWarp u (w.resumed (phaseLanes lane a e.mask) e.next)) := by
  rw [exec_pbwaitRelease, execPbwaitRelease, ← acquire_setWarp, ← modWarp_eq_setWarp hw (fun w => w.resumed (phaseLanes lane a e.mask) e.next)]
  simp only [hw, hp, he, hst, hc, hv, hph, if_false]
  rfl

/-! ### Traps at an instruction boundary (R239, R244, R268) -/

theorem execTransactionOverrunTrap_traps {s : State} {u : Nat} {w : Warp} {p : Who} {lr : LaunchRec} {e : Entry}
    (hw : kget s.warps u = some w) (hb : s.atBoundary u = true) (hp : s.who u = some p) (hlr : s.lrOf p.launch = some lr)
    (hte : lr.trapentry ≠ 0) (hh : w.hlanes = 0) (ho : w.overrunTrap = true) (he : headOf w.frontier = some e) (hm : e.mask ≠ 0) :
    ∃ t, exec (.transactionOverrunTrap u) s = .next t ∧
      BoundaryTrap (s.setWarp u { w with overrunTrap := false }) t u lr { w with overrunTrap := false } e.mask 0x15 lr.ofbudget e.pc 0 none := by
  have hend := boundary_alive hw hb
  have hdue : w.overrunDue = true := by simp [Warp.overrunDue, ho, hh, hend, he]
  refine ⟨_, ?_, takeTrap_boundary _ u p lr _ e.mask e.pc ⟨0x15, lr.ofbudget, 0, e.pc, none⟩ (unit_setWarp ..)
    (who_setWarp hp { w with overrunTrap := false } w hw ⟨rfl, rfl, rfl⟩) hlr hend hh hm hte⟩
  rw [exec_transactionOverrunTrap, execTransactionOverrunTrap, if_pos hb]
  unfold State.overrunTake
  simp only [hw, hp, Option.bind_some, hlr, hdue, he, Bool.not_true, Bool.false_eq_true, if_false]

theorem execPassFaultDelivery_traps {s : State} {u : Nat} {w : Warp} {p : Who} {lr : LaunchRec} {e : Entry} {cause info addr pc : Nat}
    {rest : List (Nat × Nat × Nat × Nat)} (hw : kget s.warps u = some w) (hb : s.atBoundary u = true) (hp : s.who u = some p)
    (hlr : s.lrOf p.launch = some lr) (hte : lr.trapentry ≠ 0) (hh : w.hlanes = 0) (hf : w.passFaults = (cause, info, addr, pc) :: rest)
    (he : headOf w.frontier = some e) (hm : e.mask ≠ 0) :
    ∃ t, exec (.passFaultDelivery u) s = .next t ∧
      BoundaryTrap (s.setWarp u { w with passFaults := rest }) t u lr { w with passFaults := rest } e.mask cause info e.pc addr (some pc) := by
  have hend := boundary_alive hw hb
  have hdue : w.passDue = true := by simp [Warp.passDue, hf, hh, hend, he]
  refine ⟨_, ?_, takeTrap_boundary _ u p lr _ e.mask e.pc ⟨cause, info, addr, e.pc, some pc⟩ (unit_setWarp ..)
    (who_setWarp hp { w with passFaults := rest } w hw ⟨rfl, rfl, rfl⟩) hlr hend hh hm hte⟩
  rw [exec_passFaultDelivery, execPassFaultDelivery, if_pos hb]
  unfold State.passTake
  simp only [hw, hdue, hf, he, Bool.not_true, Bool.false_eq_true, if_false]

theorem andNot_zero (m : Mask) : m &&& ~~~(0 : Mask) = m := by
  have hall : ~~~(0 : Mask) = BitVec.allOnes 64 := rfl
  rw [hall, BitVec.and_allOnes]

/-- The record `r` of a unit comes first in SEQ order, and all its lanes stand in the ready entry `e` (R268). -/
structure FirstRecord (c : Core) (u : Nat) (w : Warp) (r : SfRec) (e : Entry) : Prop where
  listed : r ∈ c.sfq
  unit : r.u = u
  first : ∀ x ∈ c.sfq, x.u = u → x ≠ r → r.seq < x.seq
  lanes : r.lanes ≠ 0
  entry : e ∈ w.frontier
  ready : e.isReady = true
  inside : e.mask &&& r.lanes = r.lanes
  outside : ∀ x ∈ w.frontier, x ≠ e → x.mask &&& r.lanes = 0

theorem takesRecord_of_ready {e : Entry} (h : e.isReady = true) : e.takesRecord = true := by
  unfold Entry.takesRecord
  rw [of_decide_eq_true h]

section
variable {c : Core} {u : Nat} {w : Warp} {r : SfRec} {e : Entry} (h : FirstRecord c u w r e)
include h

theorem FirstRecord.next (hh : w.hlanes = 0) : sfNext c u w = some r := by
  have hdue : w.frontier.any (fun x => x.takesRecord && (x.mask &&& r.lanes &&& ~~~w.hlanes) != 0) = true := by
    refine List.any_eq_true.2 ⟨e, h.entry, ?_⟩
    rw [takesRecord_of_ready h.ready, h.inside, hh, andNot_zero]
    exact bne_iff_ne.2 h.lanes
  refine leastBy_strict _ _ r (List.mem_filter.2 ⟨h.listed, by rw [hdue]; simp [h.unit, hh]⟩) fun x hx hne => ?_
  obtain ⟨hx, hcond⟩ := List.mem_filter.1 hx
  simp only [Bool.and_eq_true, beq_iff_eq] at hcond
  exact h.first x hx hcond.1.1 hne

/-- A lane of the record stands in its entry. -/
theorem FirstRecord.lane_in {l : Nat} (hl : r.lanes.getLsbD l = true) : e.mask.getLsbD l = true := by
  have hin := congrArg (·.getLsbD l) h.inside
  simp only [BitVec.getLsbD_and, hl, Bool.and_true] at hin
  exact hin

/-- And in no other. -/
theorem FirstRecord.lane_only {l : Nat} (hl : r.lanes.getLsbD l = true) {x : Entry} (hx : x ∈ w.frontier) (hxl : x.mask.getLsbD l = true) :
    x = e := by
  by_contra hne
  have hout := congrArg (·.getLsbD l) (h.outside x hx hne)
  simp [hl, hxl] at hout

theorem FirstRecord.live (hh : w.hlanes = 0) : r.lanes &&& w.live &&& ~~~w.hlanes = r.lanes := by
  rw [hh, andNot_zero]
  apply BitVec.eq_of_getLsbD_eq
  intro l _
  rw [BitVec.getLsbD_and]
  cases hr : r.lanes.getLsbD l with
  | false => rfl
  | true => exact entry_live w h.entry (h.lane_in hr)

/-- The lanes of the record that may trap now are all of it. -/
theorem FirstRecord.readyLanes :
    (w.frontier.filter Entry.takesRecord).foldl (fun m x => m ||| (x.mask &&& r.lanes)) (0 : Mask) = r.lanes := by
  apply BitVec.eq_of_getLsbD_eq
  intro l _
  rw [Bool.eq_iff_iff, live_or _ (fun x => x.mask &&& r.lanes)]
  constructor
  · rintro (h0 | ⟨x, -, hx⟩)
    · simp at h0
    · rw [BitVec.getLsbD_and, Bool.and_eq_true] at hx
      exact hx.2
  · intro hr
    refine .inr ⟨e, List.mem_filter.2 ⟨h.entry, takesRecord_of_ready h.ready⟩, ?_⟩
    rw [BitVec.getLsbD_and, hr, h.lane_in hr]
    rfl

/-- The lowest lane of the record stands in its entry. -/
theorem FirstRecord.lowest : ∃ l, lowestLane r.lanes = some l ∧ w.entryOf (laneBit l) = some e := by
  obtain ⟨l, hlow⟩ : ∃ l, lowestLane r.lanes = some l := by
    unfold lowestLane
    cases hl : lanesOf r.lanes with
    | nil =>
      refine absurd (mask_zero fun k => ?_) h.lanes
      by_contra hk
      have hk : r.lanes.getLsbD k = true := by simpa using hk
      have hmem : k ∈ lanesOf r.lanes := mem_lanesOf.2 ⟨BitVec.lt_of_getLsbD hk, hk⟩
      rw [hl] at hmem
      cases hmem
    | cons l t => exact ⟨l, rfl⟩
  obtain ⟨hl64, hrl⟩ := mem_lanesOf.1 (List.mem_of_mem_head? hlow)
  have has : ∀ x : Entry, ((x.mask &&& laneBit l) != 0) = true ↔ x.mask.getLsbD l = true := fun x => by
    rw [bne_iff_ne]
    constructor
    · intro hne
      by_contra hx
      refine hne (mask_zero fun k => ?_)
      rw [BitVec.getLsbD_and, getLsbD_laneBit hl64]
      by_cases hk : k = l
      · subst hk; simp [hx]
      · simp [hk]
    · intro hx h0
      have := congrArg (·.getLsbD l) h0
      simp [hx, getLsbD_laneBit hl64] at this
  refine ⟨l, hlow, ?_⟩
  unfold Warp.entryOf
  cases hf : w.frontier.find? (fun x => (x.mask &&& laneBit l) != 0) with
  | none => exact absurd ((has e).2 (h.lane_in hrl)) (List.find?_eq_none.1 hf e h.entry)
  | some x => rw [h.lane_only hrl (List.mem_of_find?_eq_some hf) ((has x).1 (List.find?_some (p := fun x : Entry => (x.mask &&& laneBit l) != 0) hf))]

/-- The unit's records but this one are those of another SEQ. -/
theorem FirstRecord.rest : c.sfq.filter (fun x => !(x.u == u && x.seq == r.seq)) = c.sfq.filter (fun x => decide (x ≠ r)) := by
  refine List.filter_congr fun x hx => ?_
  by_cases hxr : x = r
  · subst hxr
    simp [h.unit]
  · have : ¬ (x.u = u ∧ x.seq = r.seq) := fun ⟨hu, hs⟩ => by
      have := h.first x hx hu hxr
      omega
    simpa [hxr, ← not_and_or] using this

end

theorem parkForHandler_zero (w : Warp) : w.parkForHandler 0 = w := by
  unfold Warp.parkForHandler
  rw [List.filter_eq_nil_iff.2 fun x _ => by simp]
  rfl

/-- A record whose lanes all stand in one ready entry traps them all, and leaves the queue (R268). -/
theorem sfDeliver_whole {s : State} {u : Nat} {w : Warp} {p : Who} {r : SfRec} {e : Entry} (hw : kget s.warps u = some w)
    (hp : s.who u = some p) (hh : w.hlanes = 0) (h : FirstRecord (s.core p.core) u w r e) :
    s.sfDeliver u = ((s.modCore p.core (fun c => { c with sfq := c.sfq.filter (fun x => decide (x ≠ r)) })).takeTrap u r.lanes e.pc
      ⟨0x20, r.cause, r.va, e.pc, some r.pc.toNat⟩).modWarp u (fun w => w.parkForHandler 0) := by
  obtain ⟨b, l, hb, -, hcore, -⟩ := who_blk hw hp
  obtain ⟨k, hlow, hent⟩ := h.lowest
  have hnext := h.next hh
  have hrest := h.rest
  rw [hcore] at hnext hrest ⊢
  unfold State.sfDeliver
  simp only [hw, hb, Option.bind_some, hnext, h.live hh, h.readyLanes, hlow, hent, h.inside]
  rw [if_neg (by rw [hh]; decide)]
  simp only [BitVec.and_not_self, if_true]
  unfold State.modCore
  dsimp only
  rw [hrest]

theorem modWarp_setWarp_id (s : State) (u : Nat) (v : Warp) (f : Warp → Warp) (hf : f v = v) : (s.setWarp u v).modWarp u f = s.setWarp u v := by
  rw [modWarp_eq_setWarp (unit_setWarp ..) f, hf]
  unfold State.setWarp
  rw [kput_kput]

theorem execStoreFaultDelivery_traps {s : State} {u : Nat} {w : Warp} {p : Who} {lr : LaunchRec} {r : SfRec} {e : Entry}
    (hw : kget s.warps u = some w) (hb : s.atBoundary u = true) (hp : s.who u = some p) (hlr : s.lrOf p.launch = some lr)
    (hte : lr.trapentry ≠ 0) (hh : w.hlanes = 0) (h : FirstRecord (s.core p.core) u w r e) :
    ∃ t, exec (.storeFaultDelivery u) s = .next t ∧
      BoundaryTrap (s.modCore p.core (fun c => { c with sfq := c.sfq.filter (fun x => decide (x ≠ r)) })) t u lr w r.lanes 0x20 r.cause
        e.pc r.va (some r.pc.toNat) := by
  obtain ⟨s1, hs1⟩ : ∃ s1, s1 = s.modCore p.core (fun c => { c with sfq := c.sfq.filter (fun x => decide (x ≠ r)) }) := ⟨_, rfl⟩
  obtain ⟨b, l, hblk, -, hcore, -⟩ := who_blk hw hp
  have hend := boundary_alive hw hb
  have hw1 : kget s1.warps u = some w := by rw [hs1]; exact hw
  have hp1 : s1.who u = some p := by rw [hs1]; exact hp
  have hlr1 : s1.lrOf p.launch = some lr := by rw [hs1]; exact hlr
  have hdue : (kget s.warps u).any (s.sfDue u) = true := by
    have hne : (s.core p.core).sfq.isEmpty = false := by
      rw [List.isEmpty_eq_false_iff]
      exact List.ne_nil_of_mem h.listed
    rw [hw]
    show s.sfDue u w = true
    unfold State.sfDue
    rw [hblk]
    dsimp only
    rw [← hcore, h.next hh, hne, hend]
    rfl
  rw [← hs1]
  refine ⟨s1.takeTrap u r.lanes e.pc ⟨0x20, r.cause, r.va, e.pc, some r.pc.toNat⟩, ?_,
    takeTrap_boundary s1 u p lr w r.lanes e.pc ⟨0x20, r.cause, r.va, e.pc, some r.pc.toNat⟩ hw1 hp1 hlr1 hend hh h.lanes hte⟩
  rw [exec_storeFaultDelivery, execStoreFaultDelivery, hb, hdue, sfDeliver_whole hw hp hh h, ← hs1]
  obtain ⟨v, hv⟩ := takeTrap_set s1 u p lr w r.lanes e.pc ⟨0x20, r.cause, r.va, e.pc, some r.pc.toNat⟩ hw1 hp1 hlr1 hend hh h.lanes hte
  rw [hv, modWarp_setWarp_id _ _ _ _ (parkForHandler_zero v)]
  rfl

/-- Settles O42, event by event; TRAPSPC after a pass fault is the model's choice (log 104). -/
theorem unitEvents : Obligations.UnitEvents := by
  refine ⟨fun s u w e hw hb ht hf he hr hmin => execFairnessTurn_turns hw hb ht hf (longestWaiting_of he hr hmin),
    fun s u w j hw hlen hall hj hmin => execJoinDeadlockRelease_wakes hw hlen hall hj hmin, ?_,
    fun s u pc w hw => execSleepExpiry_wakes hw,
    fun s u w p lr r e hw hb hp hlr hte hh hr hu hfirst hl he hrdy hin hout =>
      execStoreFaultDelivery_traps hw hb hp hlr hte hh ⟨hr, hu, hfirst, hl, he, hrdy, hin, hout⟩,
    fun s u w p lr e hw hb hp hlr hte hh ho he hm => execTransactionOverrunTrap_traps hw hb hp hlr hte hh ho he hm,
    fun s u w p lr e cause info addr pc rest hw hb hp hlr hte hh hf he hm => execPassFaultDelivery_traps hw hb hp hlr hte hh hf he hm⟩
  intro s u lane w p e a ph scope bs k off hw hp he hst hc hbs hph
  refine ⟨_, _, execPbwaitRelease_flips hw hp he hst hc (phaseBytes_spad s p u k off bs hbs) hph, onlyUnit_setWarp _ _ _, unit_setWarp ..,
    kept_resumed .., fun hpriv => ?_, fun k hpriv => ?_⟩
  · have hlanes : phaseLanes lane a e.mask = e.mask := by
      unfold phaseLanes
      split
      · rename_i k hk
        exact absurd hk (hpriv k)
      · rfl
    rw [hlanes]
    exact resumed_moved w _ _
  · have hlanes : phaseLanes lane a e.mask = laneBit lane := by
      unfold phaseLanes
      rw [hpriv]
    rw [hlanes]
    exact resumed_moved w _ _

end Sys2Proof.Machine
end

section
/-! The statements of lineage (chapter 03): the lineage instructions, and the steps of the ordering machine and the order sequencers. -/

namespace Sys2Proof.Machine

/-! ### The lineage of a result (R62, R66) -/

/-- Registers whose mapping is taken away carry no lineage. -/
theorem mapRegs_none_lin (w : Warp) (r n j : Nat) (hj : j < n) : kget (w.mapRegs r n none).lin (r + j) = none := by
  induction n with
  | zero => omega
  | succ n ih =>
    have hstep : (w.mapRegs r (n + 1) none).lin = kdel (w.mapRegs r n none).lin (r + n) := by
      simp [Warp.mapRegs, List.range_succ, List.foldl_append]
    rw [hstep, kget_kdel]
    split
    · rfl
    · exact ih (by omega)

/-- A result that is not looked up leaves the unit's mapping of its registers empty. -/
theorem linResult_none {s : State} {u : Nat} {w : Warp} (hw : kget s.warps u = some w) (core r n : Nat) (fl : KMap (BitVec 5)) :
    kget (s.linResult core u r n fl none).warps u = some (w.mapRegs r n none) := by
  rw [State.linResult, vsSweep_warps]
  exact modWarp_get hw _

/-- A result of class N is not looked up (R62). -/
theorem linUse_unlooked (c : Ctx) (s : State) (lev : Nat) (root : Word) (watch : Option (List Nat × List Nat)) :
    c.linUse s .n lev root watch = none := by
  simp [Ctx.linUse]

/-- An instruction of class N that writes registers leaves them without lineage. -/
theorem finishReg_unmapped (s : State) (c : Ctx) (hm : c.m ≠ 0) (d n : Nat) (f : Nat → List Word × BitVec 5) (root : Word) :
    ∃ w, kget (c.finishReg s d n f .n root).warps c.u = some w ∧ ∀ j, j < n → kget w.lin (c.w.wbase + d + j) = none := by
  unfold Ctx.finishReg
  simp only [linUse_unlooked, hm, decide_false, Bool.false_and, Bool.false_eq_true, if_false]
  obtain ⟨-, hd⟩ := done_frame (State.linResult _ c.p.core c.u (c.w.wbase + d) n _ none) c c.is.mask
  obtain ⟨fr, k, t, x, hw, -⟩ := hd _ (linResult_none (unit_setWarp ..) ..)
  exact ⟨_, hw, fun j hj => mapRegs_none_lin _ _ _ _ hj⟩

theorem execUntag_unmaps {a d : BitVec 7} {s : State} {c : Ctx} (h : Issues (.untag a d) s c) (hm : c.m ≠ 0) :
    ∃ t w, exec (.untag a d) s = .next t ∧ kget t.warps c.u = some w ∧ kget w.lin (c.w.wbase + d.toNat) = none := by
  obtain ⟨e, he⟩ := attached_eq c (s.setWarp c.u c.w) c.row.cls 0
  obtain ⟨w, hw, hl⟩ := finishReg_unmapped (s.setWarp c.u c.w) { c with early := e } hm d.toNat 1
    (fun l => ([Ctx.rd { c with early := e } a.toNat l], 0)) 0
  refine ⟨_, w, ?_, hw, hl 0 Nat.one_pos⟩
  rw [exec_untag, execUntag, regOp, front_of_issues h]
  dsimp only
  rw [he, h.row]
  rfl

theorem execLnq_reports {a d : BitVec 7} {s : State} {c : Ctx} (h : Issues (.lnq a d) s c) : ∃ t, exec (.lnq a d) s = .next t ∧
    RegResult s t c d.toNat 1 (fun _ => [(s.setWarp c.u c.w).lnqOf c a.toNat]) (fun _ => 0) := by
  refine ⟨_, ?_, finishReg_result h d.toNat 1 (fun _ => ([(s.setWarp c.u c.w).lnqOf c a.toNat], 0)) .n 0 (fun _ _ => rfl)⟩
  rw [exec_lnq, execLnq, front_of_issues h]

/-- What `lnq` reports on a tile context (log 26). -/
theorem lnqOf_tile (s : State) (c : Ctx) (a : Nat) (ht : c.w.tile = true) :
    s.lnqOf c a = BitVec.ofNat 32 (0x7F000 + if sget false c.w.written (c.w.wbase + a) then 2 ^ 18 else 0) := by
  rw [State.lnqOf, if_pos ht]

/-- What `lnq` reports of a register without lineage: lowest slot 63, use count 1 (log 28). -/
theorem lnqOf_unmapped (s : State) (c : Ctx) (a : Nat) (ht : c.w.tile = false) (hl : kget c.w.lin (c.w.wbase + a) = none) :
    s.lnqOf c a = BitVec.ofNat 32 (0x3F000 + 2 ^ 18) := by
  have hnone : s.linOf c.p.core c.w (c.w.wbase + a) = none := by rw [State.linOf, hl]
  simp [State.lnqOf, ht, hnone, hl]

/-! ### A purge (R78, R81) -/

/-- The end of an instruction leaves the cores. -/
theorem done_cores (s : State) (c : Ctx) (stay : Mask) : (s.done c stay).cores = s.cores := by
  have hover : ∀ (t : State) (p v pc : Nat) (g : Nat × Nat × Mask → Bool), (t.stepOver p v pc g).cores = t.cores := fun t p v pc g => by
    obtain ⟨r, ps, h⟩ := stepOver_eq t p v pc g
    rw [h]
  obtain ⟨ls, hb⟩ := bumpBy_eq { s with cur := none } c.p.launch c.p.core 0x02 1
  unfold State.done State.bump
  simp only [hb]
  split
  · rfl
  · split
    · exact hover ..
    · split
      · exact hover ..
      · rfl

/-- An entry still in lookup after some are dropped is none of those. -/
theorem dropEntries_lookup (c : Core) (p : VsEntry → Bool) : ∀ e ∈ (c.dropEntries p).vs, e.2.inLookup = true → p e.2 = false := by
  unfold Core.dropEntries
  split
  · rename_i hnil
    intro e he
    rw [List.isEmpty_iff.1 hnil] at he
    cases he
  · intro e he hin
    obtain ⟨x, -, rfl⟩ := List.mem_map.1 he
    by_cases hp : p x.2 = true
    · rw [if_pos hp] at hin
      cases hin
    · rw [if_neg hp]
      exact Bool.eq_false_iff.2 hp

/-- No watch of the context is left on the core. -/
theorem purge_watches (s : State) (core part ctx : Nat) :
    ∀ x ∈ ((s.purge core part ctx).core core).watches, ¬(x.2.part = part ∧ x.2.ctx = ctx) := by
  intro x hx
  unfold State.purge at hx
  split at hx
  · rename_i hnil
    rw [List.isEmpty_iff.1 (Bool.and_eq_true_iff.1 hnil).2] at hx
    cases hx
  · rw [core_modCore_self] at hx
    simpa only [not_and_or, Bool.not_eq_true', Bool.and_eq_false_iff, beq_eq_false_iff_ne] using (List.mem_filter.1 hx).2

/-- No entry of the context is left in the core's lookup. -/
theorem purge_lookup (s : State) (core part ctx : Nat) :
    ∀ x ∈ ((s.purge core part ctx).core core).vs, x.2.inLookup = true → ¬(x.2.key.part = part ∧ x.2.key.ctx = ctx) := by
  intro x hx hin
  unfold State.purge at hx
  split at hx
  · rename_i hnil
    rw [List.isEmpty_iff.1 (Bool.and_eq_true_iff.1 hnil).1] at hx
    cases hx
  · rw [core_modCore_self] at hx
    simpa using dropEntries_lookup (s.core core) _ x hx hin

theorem onlyUnit_purge (s : State) (u core part ctx : Nat) : OnlyUnit s (s.purge core part ctx) u := by
  unfold State.purge
  split
  · exact .refl s u
  · exact onlyUnit_modCore s u core _ (fun c => dropEntries_seen c _)

theorem purge_warps (s : State) (core part ctx : Nat) : (s.purge core part ctx).warps = s.warps := by
  unfold State.purge
  split <;> rfl

theorem execLnkill_idle {i a : BitVec 7} {s : State} {c : Ctx} (h : Issues (.lnkill i a) s c) (hm : c.m = 0 ∨ c.w.tile = true) :
    ∃ t, exec (.lnkill i a) s = .next t ∧ Passes s t c c.is.mask :=
  ⟨_, (warpOp_next h _ (exec_lnkill i a s)).trans (congrArg _ (if_pos hm)), h.passes c.is.mask⟩

theorem execLnkill_purges {a : BitVec 7} {s : State} {c : Ctx} (h : Issues (.lnkill 0 a) s c) (hm : c.m ≠ 0) (ht : c.w.tile = false) :
    exec (.lnkill 0 a) s = .next (((s.setWarp c.u c.w).purge c.p.core c.p.part c.p.ctx).done c c.is.mask) := by
  rw [warpOp_next h _ (exec_lnkill 0 a s), if_neg (not_or.2 ⟨hm, Bool.eq_false_iff.1 ht⟩), if_pos rfl]

/-- Settles O29, instruction by instruction; what `lnq` says on a tile context and of a register without lineage are the model's choices
(logs 26 and 28). -/
theorem lineageInstructions : Obligations.LineageInstructions := by
  refine ⟨fun a d => regOp_word (exec_untag a d) (fun _ _ => rfl), fun a d s c h hm => execUntag_unmaps h hm,
    fun a d s c h => execLnq_reports h, lnqOf_tile, lnqOf_unmapped, fun i a s c h hm => execLnkill_idle h hm, fun a s c h hm ht => ?_⟩
  obtain ⟨o, w, hw, hu, ha⟩ := done_passes c.w ((onlyUnit_setWarp s c.u c.w).trans (onlyUnit_purge _ _ c.p.core c.p.part c.p.ctx))
    (by rw [purge_warps]; exact unit_setWarp ..) (untouched_rfl c) rfl h.alive c.is.mask
  refine ⟨_, w, execLnkill_purges h hm ht, o, hw, hu, ha, fun k x hk => ?_, fun k x hk => ?_⟩
  all_goals rw [State.core, done_cores, ← State.core] at hk
  · exact purge_watches _ _ _ _ _ (kget_mem hk)
  · exact purge_lookup _ _ _ _ _ (kget_mem hk)

end Sys2Proof.Machine
end

section
namespace Sys2Proof.Machine

/-! ### Drain (R109, R115) -/

theorem cv_spadWrite (s : State) (k off : Nat) (x : Byte) (v : Nat) : ((s.spadWrite k off x).core v).cv = (s.core v).cv := by
  unfold State.spadWrite
  split
  · unfold State.killBank
    exact foldl_rel (fun a b => ∀ v, (b.core v).cv = (a.core v).cv) (fun _ _ => rfl) (fun _ _ _ h k v => (k v).trans (h v)) _
      (fun t j => cv_killUnit t _ _) _ _ v
  · rfl

/-- A byte of a scratchpad goes to its bank (R104, R115). -/
theorem drainByte_bank {s : State} {p : Who} {u k off : Nat} {b : QByte} {x : Block} (hl : b.loc = some (.spad k off))
    (hx : kget s.blocks k = some x) :
    (s.drainByte p u none b).ms = s.ms ∧ (∀ v, ((s.drainByte p u none b).core v).cv = (s.core v).cv) ∧
      ∀ j o, (s.drainByte p u none b).spadByte j o = if j = k ∧ o = off then b.val else s.spadByte j o := by
  have hbank : s.drainByte p u none b = s.spadWrite k off b.val := by
    unfold State.drainByte
    rw [hl]
  obtain ⟨⟨⟨bs, cs, he⟩, hother, -⟩, hself⟩ := spadWrite_spec s k off b.val (by rw [hx]; rfl)
  rw [hbank]
  refine ⟨by rw [he], fun v => cv_spadWrite .., fun j o => ?_⟩
  by_cases hj : j = k
  · simp only [hj, hself, true_and]
  · rw [hother j o hj, if_neg (fun h => hj h.1)]

/-- A byte whose class writes through: it goes to the merge stage of its home, and a copy in the view is updated (R109). -/
def QByte.writesThrough (b : QByte) (s : State) (p : Who) (pa : Nat) : Prop :=
  s.classNow p b pa = 3 ∨ (s.classNow p b pa = 1 ∧ homeDie pa ≠ some (viewDie p.view))

/-- A change of a unit leaves what its walks find. -/
theorem walkFrom_setWarp (s : State) (u : Nat) (w : Warp) (p ctx va lev table : Nat) :
    (s.setWarp u w).walkFrom p ctx va lev table = s.walkFrom p ctx va lev table := by
  induction lev generalizing table with
  | zero => rfl
  | succ lev ih =>
    simp only [State.walkFrom, ih]
    rfl

theorem walk_setWarp (s : State) (u : Nat) (w : Warp) (p ctx va : Nat) : (s.setWarp u w).walk p ctx va = s.walk p ctx va := by
  simp only [State.walk, walkFrom_setWarp]
  rfl

theorem leafOf_setWarp (s : State) (u : Nat) (w : Warp) (places : List TlbAt) (p ctx va : Nat) :
    ((s.setWarp u w).leafOf places p ctx va).1 = (s.leafOf places p ctx va).1 := by
  have hfind : (s.setWarp u w).tlbFind places p ctx va = s.tlbFind places p ctx va := rfl
  have hvia : ∀ d, ((s.setWarp u w).walkVia d p ctx va).1 = (s.walkVia d p ctx va).1 := fun d => by
    have hw : (s.setWarp u w).walkFind d p ctx va = s.walkFind d p ctx va := rfl
    unfold State.walkVia
    rw [hw]
    split
    · exact walkFrom_setWarp ..
    · exact walk_setWarp ..
  unfold State.leafOf
  rw [hfind]
  split
  · rfl
  · split
    · exact walk_setWarp ..
    · exact hvia _

theorem classNow_setWarp (s : State) (u : Nat) (w : Warp) (p : Who) (b : QByte) (pa : Nat) :
    (s.setWarp u w).classNow p b pa = s.classNow p b pa := by
  simp only [State.classNow, leafOf_setWarp]

theorem drainByte_home {s : State} {p : Who} {u pa : Nat} {b : QByte} (hl : b.loc = some (.mem pa)) (hpa : pa < devTop) (hc : b.cls ≠ 4) :
    (b.writesThrough s p pa → s.drainByte p u none b =
      (State.cvUpdate { s with ms := s.ms ++ [⟨pa, b.val, p.view, p.wid, b.va, some p.launch, false, b.unit⟩] } p.view pa b.val).killLine
        p.view (pa / lineBytes)) ∧
    (¬b.writesThrough s p pa → s.drainByte p u none b =
      (s.cvPut p.view pa b.val (s.classNow p b pa) p.ctx ⟨some p.launch, p.wid, b.va, b.unit⟩).killLine p.view (pa / lineBytes)) := by
  have hiff : (s.classNow p b pa == 3 || (s.classNow p b pa == 1 && homeDie pa != some (viewDie p.view))) = true ↔ b.writesThrough s p pa := by
    simp [QByte.writesThrough]
  unfold State.drainByte
  rw [hl]
  simp only [if_neg hc, if_neg (Nat.not_le.2 hpa)]
  constructor
  · intro h
    simp [hiff.2 h]
  · intro h
    simp [Bool.eq_false_iff.2 (mt hiff.1 h)]

theorem cvByte_killLine (s : State) (v line k pa : Nat) : (s.killLine v line).cvByte k pa = s.cvByte k pa := by
  unfold State.cvByte
  rw [cv_killLine]

/-- A byte of memory goes to the merge stage of its home, or becomes a dirty byte of the view (R109). -/
theorem drainByte_placed {s : State} {p : Who} {u pa : Nat} {b : QByte} (hl : b.loc = some (.mem pa)) (hpa : pa < devTop) (hc : b.cls ≠ 4) :
    (∀ j o, (s.drainByte p u none b).spadByte j o = s.spadByte j o) ∧
    (b.writesThrough s p pa → (s.drainByte p u none b).ms =
      s.ms ++ [⟨pa, b.val, p.view, p.wid, b.va, some p.launch, false, b.unit⟩]) ∧
    (¬b.writesThrough s p pa → (s.drainByte p u none b).ms = s.ms ∧ (s.drainByte p u none b).cvByte p.view pa = some b.val ∧
      ∃ l, kget ((s.drainByte p u none b).core p.view).cv (pa / 128) = some l ∧ l.dirty.getLsbD (pa % 128) = true) := by
  obtain ⟨hthrough, hkept⟩ := drainByte_home (s := s) (p := p) (u := u) hl hpa hc
  by_cases h : b.writesThrough s p pa
  · obtain ⟨c1, h1⟩ := cvUpdate_frame { s with ms := s.ms ++ [⟨pa, b.val, p.view, p.wid, b.va, some p.launch, false, b.unit⟩] } p.view pa b.val
    obtain ⟨c2, h2⟩ := killLine_frame { s with ms := s.ms ++ [⟨pa, b.val, p.view, p.wid, b.va, some p.launch, false, b.unit⟩], cores := c1 }
      p.view (pa / lineBytes)
    rw [hthrough h, h1, h2]
    exact ⟨fun _ _ => rfl, fun _ => rfl, fun hn => absurd h hn⟩
  · obtain ⟨hbyte, l, hl, hd⟩ := cvPut_get s p.view pa (s.classNow p b pa) p.ctx b.val ⟨some p.launch, p.wid, b.va, b.unit⟩
    rw [hkept h]
    refine ⟨fun j o => ?_, fun hy => absurd hy h, fun _ => ⟨?_, by rw [cvByte_killLine]; exact hbyte, l, by rw [cv_killLine]; exact hl, hd⟩⟩
    all_goals
      obtain ⟨c, hk⟩ := killLine_frame (s.cvPut p.view pa b.val (s.classNow p b pa) p.ctx ⟨some p.launch, p.wid, b.va, b.unit⟩) p.view
        (pa / lineBytes)
      rw [hk]
      rfl

theorem outsideBytes_bank {b : QByte} {k off : Nat} (hl : b.loc = some (.spad k off)) : outsideBytes [b] = [] := by
  simp [outsideBytes, hl]

theorem outsideBytes_home {b : QByte} {pa : Nat} (hl : b.loc = some (.mem pa)) (hpa : pa < devTop) : outsideBytes [b] = [] := by
  simp [outsideBytes, hl, hpa]

/-- The oldest entry of a lane's queue leaves: memory and the other units stay, and the unit keeps the rest of its queues. -/
theorem drain_takes {s : State} {u lane : Nat} {w : Warp} {p : Who} {e : QEntry} {rest : List QEntry} (hw : kget s.warps u = some w)
    (hp : s.who u = some p) (hq : sget [] w.queues lane = e :: rest) (hr : e.rel = none) (hl : ∀ b ∈ e.bytes, b.loc.isSome = true)
    (hb : w.behind lane e = false) :
    (∀ a, (s.drain u lane).hByte a = s.hByte a) ∧ (∀ v, v ≠ u → kget (s.drain u lane).warps v = kget s.warps v) ∧
      kget (s.drain u lane).warps u = some { w with queues := sset [] w.queues lane (e.leaves rest) } := by
  obtain ⟨s1, hs1, ⟨x, n, cs, hd⟩, -⟩ := drain_eq hw hp hq hr hl hb
  obtain ⟨bs, cs', m, txs, hf⟩ := drainFold_frame p u e.firstUnit.1 (s.setWarp u { w with queues := sset [] w.queues lane (e.leaves rest) })
  rw [hd, hs1, hf]
  exact ⟨fun _ => rfl, fun v hv => kget_kput_ne _ _ hv, kget_kput_self ..⟩

/-- A first unit of one byte inside the device reaches its place. -/
theorem drain_one {s : State} {u lane : Nat} {w : Warp} {p : Who} {e : QEntry} {rest : List QEntry} {b : QByte} (hw : kget s.warps u = some w)
    (hp : s.who u = some p) (hq : sget [] w.queues lane = e :: rest) (hr : e.rel = none) (hl : ∀ b ∈ e.bytes, b.loc.isSome = true)
    (hb : w.behind lane e = false) (hone : e.firstUnit.1 = [b]) (hin : outsideBytes [b] = []) :
    s.drain u lane = (s.setWarp u { w with queues := sset [] w.queues lane (e.leaves rest) }).drainByte p u none b := by
  obtain ⟨s1, hs1, -, hd⟩ := drain_eq hw hp hq hr hl hb
  rw [hone] at hs1 hd
  rw [hd hin, hs1]
  rfl

theorem execDrain_drains {s : State} {u lane : Nat} {w : Warp} {p : Who} {e : QEntry} {rest : List QEntry} (hw : kget s.warps u = some w)
    (hp : s.who u = some p) (hq : sget [] w.queues lane = e :: rest) (hr : e.rel = none) (hl : ∀ b ∈ e.bytes, b.loc.isSome = true)
    (hb : w.behind lane e = false) : ∃ t, exec (.drain u lane) s = .next t ∧ (∀ a, t.hByte a = s.hByte a) ∧
      (∀ v, v ≠ u → kget t.warps v = kget s.warps v) ∧ kget t.warps u = some { w with queues := sset [] w.queues lane (e.leaves rest) } ∧
      ∀ b, e.firstUnit.1 = [b] →
        (∀ k off x, b.loc = some (.spad k off) → kget s.blocks k = some x → t.ms = s.ms ∧ (∀ v, (t.core v).cv = (s.core v).cv) ∧
          ∀ j o, t.spadByte j o = if j = k ∧ o = off then b.val else s.spadByte j o) ∧
        (∀ pa, b.loc = some (.mem pa) → pa < devTop → b.cls ≠ 4 → (∀ j o, t.spadByte j o = s.spadByte j o) ∧
          if s.classNow p b pa = 3 ∨ (s.classNow p b pa = 1 ∧ homeDie pa ≠ some (viewDie p.view)) then
            t.ms = s.ms ++ [⟨pa, b.val, p.view, p.wid, b.va, some p.launch, false, b.unit⟩]
          else t.ms = s.ms ∧ t.cvByte p.view pa = some b.val ∧
            ∃ l, kget (t.core p.view).cv (pa / 128) = some l ∧ l.dirty.getLsbD (pa % 128) = true) := by
  obtain ⟨hmem, hothers, hown⟩ := drain_takes hw hp hq hr hl hb
  refine ⟨_, exec_drain u lane s, hmem, hothers, hown, fun b hone => ⟨fun k off x hloc hx => ?_, fun pa hloc hpa hc => ?_⟩⟩
  · rw [drain_one hw hp hq hr hl hb hone (outsideBytes_bank hloc)]
    exact drainByte_bank hloc hx
  · rw [drain_one hw hp hq hr hl hb hone (outsideBytes_home hloc hpa)]
    obtain ⟨hspad, hthrough, hkept⟩ := drainByte_placed (s := s.setWarp u { w with queues := sset [] w.queues lane (e.leaves rest) })
      (p := p) (u := u) hloc hpa hc
    refine ⟨hspad, ?_⟩
    rw [QByte.writesThrough, classNow_setWarp] at hthrough hkept
    split
    · exact hthrough ‹_›
    · exact hkept ‹_›

/-! ### Propagate and refresh (R109) -/

/-- A line put into a view is there, and no other line of a view changes. -/
theorem cv_putLine (s : State) (v line : Nat) (l : CvLine) (k n : Nat) :
    kget ((s.modCore v (fun c => { c with cv := kput c.cv line l })).core k).cv n = if k = v ∧ n = line then some l else kget (s.core k).cv n := by
  by_cases hk : k = v
  · subst hk
    rw [core_modCore_self, kget_kput]
    simp only [true_and]
  · rw [core_modCore_ne _ _ hk, if_neg (fun h => hk h.1)]

theorem cv_putLine_other (s : State) (v line : Nat) (l : CvLine) {k n : Nat} (h : k ≠ v ∨ n ≠ line) :
    kget ((s.modCore v (fun c => { c with cv := kput c.cv line l })).core k).cv n = kget (s.core k).cv n := by
  rw [cv_putLine, if_neg (not_and_or.2 h)]

theorem cv_putLine_self (s : State) (v line : Nat) (l : CvLine) :
    kget ((s.modCore v (fun c => { c with cv := kput c.cv line l })).core v).cv line = some l := by
  rw [cv_putLine, if_pos ⟨rfl, rfl⟩]

theorem propagate_dirty {s : State} {v line : Nat} {l : CvLine} (hl : kget (s.core v).cv line = some l) (hd : l.dirty ≠ 0) :
    s.propagate v line = State.modCore { s with ms := s.ms ++ l.dirtyBytes.map (l.staged v line) } v
      (fun c => { c with cv := kput c.cv line { l with dirty := 0, orig := [] } }) := by
  rw [State.propagate, hl]
  exact if_neg hd

theorem execPropagate_cleans {s : State} {v line : Nat} {l : CvLine} (hl : kget (s.core v).cv line = some l) (hd : l.dirty ≠ 0) :
    ∃ t, exec (.propagate v line) s = .next t ∧
      t = { s with ms := t.ms, cores := t.cores } ∧ kget (t.core v).cv line = some { l with dirty := 0, orig := [] } ∧
      (∀ k n, k ≠ v ∨ n ≠ line → kget (t.core k).cv n = kget (s.core k).cv n) ∧
      t.ms = s.ms ++ l.dirtyBytes.map (l.staged v line) := by
  refine ⟨_, exec_propagate v line s, ?_⟩
  rw [propagate_dirty hl hd]
  exact ⟨rfl, cv_putLine_self .., fun k n h => cv_putLine_other _ _ _ _ h, rfl⟩

theorem execRefresh_drops {s : State} {v line : Nat} {l : CvLine} (hl : kget (s.core v).cv line = some l) (hd : l.dirty = 0) :
    ∃ t, exec (.refresh v line) s = .next t ∧ t = { s with cores := t.cores } ∧ kget (t.core v).cv line = none ∧
      ∀ k n, k ≠ v ∨ n ≠ line → kget (t.core k).cv n = kget (s.core k).cv n := by
  have he : s.refresh v line = s.cvDrop v line := by
    rw [State.refresh, hl]
    exact if_pos hd
  refine ⟨_, (exec_refresh v line s).trans (congrArg Host.Outcome.next he), ?_, cvDrop_self .., fun k n h => cvDrop_other _ _ _ _ _ h⟩
  obtain ⟨cs, hc⟩ := cvDrop_frame s v line
  rw [hc]

theorem execRefresh_keepsDirty {s : State} {v line : Nat} {l : CvLine} (hl : kget (s.core v).cv line = some l) (hd : l.dirty ≠ 0) :
    ∃ t, exec (.refresh v line) s = .next t ∧ t = { s with cores := t.cores } ∧ (l.present &&& ~~~l.dirty = 0 → t = s) ∧
      (l.present &&& ~~~l.dirty ≠ 0 → kget (t.core v).cv line = some { l with present := l.dirty }) := by
  have he : s.refresh v line = if l.present &&& ~~~l.dirty = 0 then s else
      (s.modCore v (fun c => { c with cv := kput c.cv line { l with present := l.dirty } })).killLine v line := by
    rw [State.refresh, hl]
    exact if_neg hd
  obtain ⟨cs, hc⟩ := refresh_frame s v line
  refine ⟨_, exec_refresh v line s, by rw [hc], fun hn => by rw [he, if_pos hn], fun hn => ?_⟩
  rw [he, if_neg hn, cv_killLine]
  exact cv_putLine_self ..

end Sys2Proof.Machine
end

section
namespace Sys2Proof.Machine

/-! ### Apply (R109, R115, R116) -/

/-- The write of highest identifier, the latest of equals, is the one applied (R116). -/
theorem msWinner_split {pa : Nat} {pre post : List MsWrite} {w : MsWrite} (hw : w.pa = pa) (hpre : ∀ x ∈ pre, x.pa = pa → x.wid ≤ w.wid)
    (hpost : ∀ x ∈ post, x.pa = pa → x.wid < w.wid) : msWinner ((pre ++ w :: post).filter (fun x => x.pa == pa)) = some w := by
  rw [List.filter_append, List.filter_cons_of_pos (by simpa using hw)]
  refine msWinner_pre _ _ _ (msWinner_post _ _ fun x hx => ?_) fun x hx => ?_
  · obtain ⟨hm, hp⟩ := List.mem_filter.1 hx
    exact hpost x hm (beq_iff_eq.1 hp)
  · obtain ⟨hm, hp⟩ := List.mem_filter.1 hx
    exact hpre x hm (beq_iff_eq.1 hp)

/-- Without a measured launch nothing is captured (R293). -/
theorem captureBy_unmeasured {s : State} (h : ∀ l ∈ s.launches, l.2.lr.measure = false) (launch : Option Nat) (wid pa : Nat) :
    s.captureBy launch wid pa = s := by
  unfold State.captureBy
  exact if_pos (List.all_eq_true.2 fun l hl => by rw [h l hl]; rfl)

/-- Without a recording launch nothing is logged (R289). -/
theorem logEntry_unrecorded {s : State} (h : ∀ l ∈ s.launches, l.2.lr.record = false) (lid die kind va lcore warp run data : Nat) :
    s.logEntry lid die kind va lcore warp run data = s := by
  unfold State.logEntry
  split
  · rfl
  · rename_i l hl
    have hr : l.lr.record = false := h _ (kget_mem hl)
    rw [if_pos (by rw [hr]; rfl)]

theorem logRace_unrecorded {s : State} (h : ∀ l ∈ s.launches, l.2.lr.record = false) (w : MsWrite) (n : Nat) : s.logRace w n = s := by
  unfold State.logRace
  split
  · split
    · rfl
    · exact logEntry_unrecorded h ..
  · rfl

/-- The merge stage without the writes to a byte. -/
def State.unstage (s : State) (pa : Nat) : State := { s with ms := s.ms.filter (fun x => x.pa != pa) }

@[simp] theorem unstage_ms (s : State) (pa : Nat) : (s.unstage pa).ms = s.ms.filter (fun x => x.pa != pa) := rfl
@[simp] theorem unstage_launches (s : State) (pa : Nat) : (s.unstage pa).launches = s.launches := rfl

/-- Applying the writes to a byte whose winner is no engine's (R109). -/
theorem applyByte_winner {s : State} {pa : Nat} {w : MsWrite} (hw : msWinner (s.ms.filter (fun x => x.pa == pa)) = some w)
    (he : w.eng = false) : s.applyByte pa =
      ((((s.unstage pa).captureBy w.launch w.wid pa).setH pa w.val).rcDrop (pa / lineBytes)).logRace w
        ((s.ms.filter (fun x => x.pa == pa)).length - 1) := by
  unfold State.applyByte
  simp only [hw, he, Bool.false_eq_true, if_false]
  rfl

theorem unitOf_alone {s : State} {pa : Nat} {w : MsWrite} (hw : msWinner (s.ms.filter (fun x => x.pa == pa)) = some w) (hu : w.unit = 0) :
    s.unitOf pa = [pa] := by
  simp only [State.unitOf, hw, hu, if_true]

theorem mem_unitOf {s : State} {pa : Nat} {w : MsWrite} (hw : msWinner (s.ms.filter (fun x => x.pa == pa)) = some w) (hu : w.unit ≠ 0)
    (a : Nat) : a ∈ s.unitOf pa ↔ ∃ y ∈ s.ms, y.unit = w.unit ∧ y.pa = a := by
  simp only [State.unitOf, hw, hu, if_false, dedup_mem, List.mem_map, List.mem_filter, beq_iff_eq, and_assoc]

theorem execApply_alone {s : State} {pa : Nat} {pre post : List MsWrite} {w : MsWrite} (hms : s.ms = pre ++ w :: post) (hw : w.pa = pa)
    (hpre : ∀ x ∈ pre, x.pa = pa → x.wid ≤ w.wid) (hpost : ∀ x ∈ post, x.pa = pa → x.wid < w.wid) (he : w.eng = false) (hu : w.unit = 0)
    (hl : ∀ l ∈ s.launches, l.2.lr.measure = false ∧ l.2.lr.record = false) :
    ∃ t, exec (.apply pa) s = .next t ∧ t = { s with ms := t.ms, rc := t.rc, mem := t.mem } ∧
      (∀ a, t.hByte a = if a = pa then w.val else s.hByte a) ∧ t.ms = s.ms.filter (fun x => decide (x.pa ≠ pa)) ∧
      ∀ d, t.rcLine d (pa / 128) = none := by
  have hwin : msWinner (s.ms.filter (fun x => x.pa == pa)) = some w := by
    rw [hms]
    exact msWinner_split hw hpre hpost
  obtain ⟨r, hr⟩ := rcDrop_frame ((s.unstage pa).setH pa w.val) (pa / lineBytes)
  have happly : s.apply pa = ((s.unstage pa).setH pa w.val).rcDrop (pa / lineBytes) := by
    unfold State.apply
    rw [unitOf_alone hwin hu, List.foldl_cons, List.foldl_nil, applyByte_winner hwin he, captureBy_unmeasured (s := s.unstage pa) fun l h => (hl l h).1]
    exact logRace_unrecorded (fun l h => (hl l (by rw [hr] at h; exact h)).2) _ _
  refine ⟨_, (exec_apply pa s).trans (congrArg Host.Outcome.next happly), ?_, ?_, ?_, fun d => rcDrop_line _ _ _⟩
  · rw [hr]
    rfl
  · intro a
    rw [hr]
    exact sget_sset ..
  · rw [hr]
    exact List.filter_congr fun x _ => by simp [bne, beq_eq_decide]

theorem capture_ms (s : State) (lid pa : Nat) : (s.capture lid pa).ms = s.ms := by
  unfold State.capture
  split
  · rfl
  · dsimp only
    split
    · rfl
    · split
      · rename_i l _ _ _
        obtain ⟨m, h⟩ := setHs_frame ((List.range (2 ^ 14)).map (fun j => s.hByte (pa / 2 ^ 14 * 2 ^ 14 + j))) s
          (s.preg l.part .capBase + 2 ^ 14 * l.captured.length)
        rw [h]
        rfl
      · rfl

theorem captureBy_ms (s : State) (launch : Option Nat) (wid pa : Nat) : (s.captureBy launch wid pa).ms = s.ms := by
  unfold State.captureBy
  split
  · rfl
  · split
    · exact capture_ms ..
    · refine foldl_rel (fun a b => b.ms = a.ms) (fun _ => rfl) (fun _ _ _ h k => k.trans h) _ (fun t l => ?_) _ _
      split
      · exact capture_ms ..
      · rfl

theorem logRace_ms (s : State) (w : MsWrite) (n : Nat) : (s.logRace w n).ms = s.ms := by
  unfold State.logRace
  split
  · split
    · rfl
    · rename_i lid die _ _ _
      obtain ⟨m, ls, h⟩ := logEntry_eq s lid die 2 w.va (if w.wid < 768 then w.wid else 0x3FF) (if w.wid < 768 then w.warp else 0) n w.wid
      rw [h]
  · rfl

theorem msWinner_mem {l : List MsWrite} {w : MsWrite} (h : msWinner l = some w) : w ∈ l := by
  induction l generalizing w with
  | nil => cases h
  | cons a t ih =>
    unfold msWinner at h
    split at h
    · obtain rfl := Option.some.inj h
      exact List.mem_cons_self ..
    · split at h
      · obtain rfl := Option.some.inj h
        exact List.mem_cons_self ..
      · obtain rfl := Option.some.inj h
        exact List.mem_cons_of_mem _ (ih ‹_›)

theorem msWinner_none {l : List MsWrite} (h : msWinner l = none) : l = [] := by
  cases l with
  | nil => rfl
  | cons a t =>
    unfold msWinner at h
    split at h
    · cases h
    · split at h <;> cases h

/-- The writes to a byte leave the merge stage together, where none is an engine's. -/
theorem applyByte_ms {s : State} (he : ∀ x ∈ s.ms, x.eng = false) (pa : Nat) : (s.applyByte pa).ms = s.ms.filter (fun x => x.pa != pa) := by
  cases hw : msWinner (s.ms.filter (fun x => x.pa == pa)) with
  | none =>
    have hnone : s.ms.filter (fun x => x.pa != pa) = s.ms := List.filter_eq_self.2 fun x hx => by
      simpa [bne] using List.filter_eq_nil_iff.1 (msWinner_none hw) x hx
    rw [hnone]
    unfold State.applyByte
    rw [hw]
  | some w =>
    rw [applyByte_winner hw (he w (List.mem_filter.1 (msWinner_mem hw)).1), logRace_ms]
    obtain ⟨r, hr⟩ := rcDrop_frame (((s.unstage pa).captureBy w.launch w.wid pa).setH pa w.val) (pa / lineBytes)
    rw [hr]
    exact captureBy_ms ..

/-- What stays in the merge stage when the writes to some bytes are applied. -/
theorem mem_applyBytes (as : List Nat) {s : State} (he : ∀ x ∈ s.ms, x.eng = false) (x : MsWrite) :
    x ∈ (as.foldl (fun st a => st.applyByte a) s).ms ↔ x ∈ s.ms ∧ x.pa ∉ as := by
  induction as generalizing s with
  | nil => simp
  | cons a t ih =>
    have hms := applyByte_ms he a
    rw [List.foldl_cons, ih (fun y hy => he y (List.mem_filter.1 (hms ▸ hy)).1), hms, List.mem_filter, List.mem_cons, not_or, and_assoc]
    simp

theorem execApply_unit {s : State} {pa : Nat} {pre post : List MsWrite} {w : MsWrite} (hms : s.ms = pre ++ w :: post) (hw : w.pa = pa)
    (hpre : ∀ x ∈ pre, x.pa = pa → x.wid ≤ w.wid) (hpost : ∀ x ∈ post, x.pa = pa → x.wid < w.wid) (hu : w.unit ≠ 0)
    (he : ∀ x ∈ s.ms, x.eng = false) :
    ∃ t, exec (.apply pa) s = .next t ∧ ∀ x, x ∈ t.ms ↔ x ∈ s.ms ∧ ∀ y ∈ s.ms, y.unit = w.unit → y.pa ≠ x.pa := by
  have hwin : msWinner (s.ms.filter (fun x => x.pa == pa)) = some w := by
    rw [hms]
    exact msWinner_split hw hpre hpost
  refine ⟨_, exec_apply pa s, fun x => (mem_applyBytes (s.unitOf pa) he x).trans (and_congr_right fun _ => ?_)⟩
  rw [mem_unitOf hwin hu]
  push Not
  rfl

end Sys2Proof.Machine
end

section
namespace Sys2Proof.Machine

/-! ### The end of a producer (R67, R70) -/

/-- How many registers some entries of a value store hold. -/
def membersOf (m : KMap VsEntry) : Nat := m.foldl (fun n x => n + x.2.members) 0

theorem membersOf_sum (m : KMap VsEntry) : membersOf m = (m.map (fun x => x.2.members)).sum := by
  rw [membersOf, List.sum_eq_foldl, List.foldl_map]

@[simp] theorem membersOf_cons (x : Nat × VsEntry) (m : KMap VsEntry) : membersOf (x :: m) = x.2.members + membersOf m := by
  simp [membersOf_sum]

theorem membersOf_filter_le (m : KMap VsEntry) (p : Nat × VsEntry → Bool) : membersOf (m.filter p) ≤ membersOf m := by
  induction m with
  | nil => exact Nat.le_refl _
  | cons x t ih =>
    by_cases hp : p x = true
    · rw [List.filter_cons_of_pos hp, membersOf_cons, membersOf_cons]
      omega
    · rw [List.filter_cons_of_neg hp, membersOf_cons]
      omega

/-- An entry that is left out counts for nothing. -/
theorem membersOf_filter_add {m : KMap VsEntry} {p : Nat × VsEntry → Bool} {k : Nat} {e : VsEntry} (hk : kget m k = some e)
    (hp : p (k, e) = false) : membersOf (m.filter p) + e.members ≤ membersOf m := by
  obtain ⟨a, b, rfl⟩ := List.append_of_mem (kget_mem hk)
  have ha := membersOf_filter_le a p
  have hb := membersOf_filter_le b p
  rw [List.filter_append, List.filter_cons_of_neg (by simp [hp])]
  simp only [membersOf_sum, List.map_append, List.sum_append, List.map_cons, List.sum_cons] at ha hb ⊢
  omega

/-- The entries no producer runs for. -/
def settled (m : KMap VsEntry) : KMap VsEntry := m.filter (fun x => !x.2.pending)

/-- A producer's end makes no more registers retained than all entries held before. -/
theorem membersOf_complete {m : KMap VsEntry} {k : Nat} {e : VsEntry} (hk : kget m k = some e) (hp : e.pending = true) :
    membersOf (settled (kput m k { e with pending := false })) ≤ membersOf m := by
  induction m with
  | nil => cases hk
  | cons a t ih =>
    obtain ⟨k', v⟩ := a
    have hle := membersOf_filter_le t (fun x => !x.2.pending)
    simp only [kget] at hk
    simp only [kput, settled]
    split at hk
    · rename_i heq
      obtain rfl := Option.some.inj hk
      rw [if_pos heq.symm, List.filter_cons_of_pos rfl, membersOf_cons, membersOf_cons]
      exact Nat.add_le_add_left hle _
    · rename_i hne
      rw [if_neg (Ne.symm hne)]
      split
      · have hadd := membersOf_filter_add (m := (k', v) :: t) (p := fun x => !x.2.pending) (k := k) (e := e)
          (by simp only [kget, if_neg hne, hk]) (by simp [hp])
        rw [List.filter_cons_of_pos rfl, membersOf_cons, Nat.add_comm]
        exact hadd
      · have h := ih hk
        by_cases hv : v.pending = true
        · rw [List.filter_cons_of_neg (by simp [hv]), membersOf_cons]
          exact Nat.le_add_left_of_le h
        · rw [List.filter_cons_of_pos (by simp [hv]), membersOf_cons, membersOf_cons]
          exact Nat.add_le_add_left h _

/-- The first entry under a key stays the first when it passes a filter. -/
theorem kget_filter_kept {α : Type} {m : KMap α} {p : Nat × α → Bool} {k : Nat} {x : α} (hk : kget m k = some x) (hp : p (k, x) = true) :
    kget (m.filter p) k = some x := by
  induction m with
  | nil => cases hk
  | cons a t ih =>
    obtain ⟨k', v⟩ := a
    simp only [kget] at hk
    split at hk
    · rename_i heq
      subst heq
      obtain rfl := Option.some.inj hk
      rw [List.filter_cons_of_pos hp]
      exact if_pos rfl
    · rename_i hne
      by_cases hv : p (k', v) = true
      · rw [List.filter_cons_of_pos hv]
        exact (if_neg hne).trans (ih hk)
      · rw [List.filter_cons_of_neg hv]
        exact ih hk

/-- An entry is the same but for its standing in lookup. -/
structure SameValue (x y : VsEntry) : Prop where
  pending : y.pending = x.pending
  key : y.key = x.key
  members : y.members = x.members
  root : y.root = x.root

theorem SameValue.refl (x : VsEntry) : SameValue x x := ⟨rfl, rfl, rfl, rfl⟩

theorem SameValue.trans {x y z : VsEntry} (h : SameValue x y) (k : SameValue y z) : SameValue x z :=
  ⟨k.pending.trans h.pending, k.key.trans h.key, k.members.trans h.members, k.root.trans h.root⟩

/-- An entry that leaves lookup where a test holds of it. -/
def VsEntry.dropIf (p : VsEntry → Bool) (e : VsEntry) : VsEntry := if p e then { e with inLookup := false } else e

theorem dropIf_same (p : VsEntry → Bool) (e : VsEntry) : SameValue e (e.dropIf p) := by
  unfold VsEntry.dropIf
  split <;> exact ⟨rfl, rfl, rfl, rfl⟩

theorem dropEntries_keeps {c : Core} {k : Nat} {x : VsEntry} (p : VsEntry → Bool) (hx : kget c.vs k = some x) :
    ∃ y, kget (c.dropEntries p).vs k = some y ∧ SameValue x y := by
  have hmap : c.vs.map (fun e => if p e.2 then (e.1, { e.2 with inLookup := false }) else e) =
      c.vs.map (fun e => (e.1, e.2.dropIf p)) :=
    List.map_congr_left fun e _ => by unfold VsEntry.dropIf; split <;> rfl
  unfold Core.dropEntries
  split
  · exact ⟨x, hx, .refl x⟩
  · dsimp only
    rw [hmap, kget_map, hx]
    exact ⟨x.dropIf p, rfl, dropIf_same p x⟩

/-- Reclaiming retained values takes entries out of lookup, and leaves them in the store. -/
theorem vsReclaim_keeps (core n : Nat) {s : State} {k : Nat} {x : VsEntry} (hx : kget (s.core core).vs k = some x) :
    ∃ y, kget ((s.vsReclaim core n).core core).vs k = some y ∧ SameValue x y := by
  induction n generalizing s x with
  | zero => exact ⟨x, hx, .refl x⟩
  | succ n ih =>
    unfold State.vsReclaim
    dsimp only
    split
    · exact ⟨x, hx, .refl x⟩
    · split
      · rename_i v _
        obtain ⟨y, hy, hxy⟩ := dropEntries_keeps (fun e => e.num == v.2.num) hx
        obtain ⟨z, hz, hyz⟩ := ih (s := s.modCore core (fun c => c.dropEntries (fun e => e.num == v.2.num)))
          (by rw [core_modCore_self]; exact hy)
        exact ⟨z, hz, hxy.trans hyz⟩
      · exact ⟨x, hx, .refl x⟩

/-- While the registers suffice nothing is reclaimed (R19, R70). -/
theorem vsReclaim_roomy {s : State} {core : Nat} (n : Nat) (h : membersOf (settled (s.core core).vs) + s.quota core ≤ 4096) :
    s.vsReclaim core n = s := by
  have hle : membersOf ((s.core core).vs.filter (s.retained core)) ≤ membersOf (settled (s.core core).vs) := by
    have hsub : (s.core core).vs.filter (s.retained core) = (settled (s.core core).vs).filter (s.retained core) := by
      rw [settled, List.filter_filter]
      refine List.filter_congr fun x _ => ?_
      unfold State.retained
      cases x.2.inLookup <;> cases x.2.pending <;> simp
    rw [hsub]
    exact membersOf_filter_le _ _
  cases n with
  | zero => rfl
  | succ n =>
    unfold State.vsReclaim
    exact if_pos (Nat.le_trans (Nat.add_le_add_right hle _) h)

/-- The entries of a core's store that a sweep leaves. -/
def State.liveEntries (s : State) (core : Nat) : State :=
  s.modCore core (fun c => { c with vs := c.vs.filter (fun e => e.2.inLookup || e.2.pending || s.linUsed core e.1) })

theorem vsSweep_eq {s : State} {core : Nat} (h : (s.core core).vs ≠ []) :
    s.vsSweep core = ((s.liveEntries core).vsReclaim core (s.core core).vs.length).liveEntries core := by
  unfold State.vsSweep
  exact if_neg (by rw [List.isEmpty_iff]; exact h)

theorem liveEntries_keeps {s : State} {core k : Nat} {x : VsEntry} (hx : kget (s.core core).vs k = some x)
    (h : x.inLookup = true ∨ s.linUsed core k = true) : kget ((s.liveEntries core).core core).vs k = some x := by
  rw [State.liveEntries, core_modCore_self]
  refine kget_filter_kept hx ?_
  rcases h with h | h <;> simp [h]

theorem linUsed_vsReclaim (s : State) (core n k : Nat) : (s.vsReclaim core n).linUsed core k = s.linUsed core k := by
  obtain ⟨cs, h⟩ := Sys2Proof.vsReclaim_frame n s core
  rw [h]
  rfl

/-- A sweep keeps an entry that a register maps to, and one in lookup while the registers suffice (R70). -/
theorem vsSweep_keeps {s : State} {core k : Nat} {x : VsEntry} (hx : kget (s.core core).vs k = some x)
    (h : s.linUsed core k = true ∨ (x.inLookup = true ∧ membersOf (settled (s.core core).vs) + s.quota core ≤ 4096)) :
    ∃ y, kget ((s.vsSweep core).core core).vs k = some y ∧ SameValue x y := by
  rw [vsSweep_eq (fun hn => by rw [hn] at hx; cases hx)]
  rcases h with hu | ⟨hin, hroom⟩
  · obtain ⟨y, hy, hxy⟩ := vsReclaim_keeps core (s.core core).vs.length (liveEntries_keeps hx (.inr hu))
    refine ⟨y, liveEntries_keeps hy (.inr ?_), hxy⟩
    rw [linUsed_vsReclaim]
    exact hu
  · have hlive : membersOf (settled ((s.liveEntries core).core core).vs) ≤ membersOf (settled (s.core core).vs) := by
      rw [State.liveEntries, core_modCore_self, settled, settled, List.filter_comm]
      exact membersOf_filter_le _ _
    rw [vsReclaim_roomy _ (Nat.le_trans (Nat.add_le_add_right hlive _) hroom)]
    exact ⟨x, liveEntries_keeps (liveEntries_keeps hx (.inl hin)) (.inl hin), .refl x⟩

theorem execProducerComplete_settles {s : State} {core eid : Nat} {e : VsEntry} (he : kget (s.core core).vs eid = some e)
    (hp : e.pending = true) : ∃ t, exec (.producerComplete core eid) s = .next t ∧ t = { s with cores := t.cores } ∧
      (∀ v, (t.core v).seen = (s.core v).seen) ∧ (s.linUsed core eid = true ∨ (e.inLookup = true ∧
        (s.core core).vs.foldl (fun n x => n + x.2.members) 0 + s.quota core ≤ 4096) →
        ∃ x, kget (t.core core).vs eid = some x ∧ x.pending = false ∧ x.key = e.key ∧ x.members = e.members ∧ x.root = e.root) := by
  obtain ⟨s1, hs1⟩ : ∃ s1, s1 = s.modCore core (fun c => { c with vs := kput c.vs eid { e with pending := false } }) := ⟨_, rfl⟩
  have hdone : s.producerDone core eid = s1.vsSweep core := by
    rw [hs1, State.producerDone, he]
    exact if_pos hp
  have hput : (s1.core core).vs = kput (s.core core).vs eid { e with pending := false } := by
    rw [hs1, core_modCore_self]
  have honly : OnlyUnit s s1 0 := by
    rw [hs1]
    exact onlyUnit_modCore s 0 core _ (fun _ => rfl)
  refine ⟨_, (exec_producerComplete core eid s).trans (congrArg Host.Outcome.next hdone), ?_,
    (honly.trans (onlyUnit_vsSweep s1 0 core)).core, fun h => ?_⟩
  · obtain ⟨cs, hc⟩ := Sys2Proof.vsSweep_frame s1 core
    rw [hc, hs1]
    rfl
  · have hquota : s1.quota core = s.quota core := by rw [hs1]; rfl
    have hused : s1.linUsed core eid = s.linUsed core eid := by rw [hs1]; rfl
    obtain ⟨x, hx, hpend, hkey, hmem, hroot⟩ := vsSweep_keeps (s := s1) (core := core) (k := eid) (x := { e with pending := false })
      (by rw [hput, kget_kput_self]) (by
        rw [hused, hput, hquota]
        exact h.imp_right fun ⟨hin, hroom⟩ => ⟨hin, Nat.le_trans (Nat.add_le_add_right (membersOf_complete he hp) _) hroom⟩)
    exact ⟨x, hx, hpend, hkey, hmem, hroot⟩

end Sys2Proof.Machine
end

section
namespace Sys2Proof.Machine

/-! ### Arrival and sealing (R234) -/

/-- Outside replay a submission in flight takes the next seat of the open beat. -/
theorem execOrderSequencerArrival_seats {s : State} {h : Nat} {x : Tx} (hx : kget s.txs h = some x) (hst : x.st = .flight)
    (hl : s.txLaunch x = none ∨ ∃ l, s.txLaunch x = some l ∧ l.seatsLogged = false) :
    exec (.orderSequencerArrival h) s = .next (s.seatTx h x) := by
  rw [exec_orderSequencerArrival, execOrderSequencerArrival, hx]
  dsimp only
  rw [if_neg (not_not.2 hst)]
  rcases hl with hl | ⟨l, hl, hlog⟩
  · rw [hl]
  · rw [hl]
    dsimp only
    rw [hlog]
    rfl

/-- The first submission of a beat opens it and has seat 0. -/
theorem seatTx_opens {s : State} {x : Tx} (h : Nat)
    (hnew : sget 0 (s.seq x.die).openAt (beatKey x.part (s.txBeat x)) < s.timebase / s.txBeat x * s.txBeat x) :
    ∃ q b, s.seatTx h x = { s.setSeq x.die q with
      txs := kput s.txs h { x with st := .seated, seat := 0, start := s.timebase / s.txBeat x * s.txBeat x, beat := b } } := by
  unfold State.seatTx
  simp only [gt_iff_lt, hnew, if_true]
  exact ⟨_, _, rfl⟩

theorem execOrderSequencerArrival_opens {s : State} {h : Nat} {x : Tx} (hx : kget s.txs h = some x) (hst : x.st = .flight)
    (hl : s.txLaunch x = none ∨ ∃ l, s.txLaunch x = some l ∧ l.seatsLogged = false)
    (hnew : sget 0 (s.seq x.die).openAt (beatKey x.part (s.txBeat x)) < s.timebase / s.txBeat x * s.txBeat x) :
    ∃ t y, exec (.orderSequencerArrival h) s = .next t ∧ t = { s with seqs := t.seqs, txs := t.txs } ∧
      (∀ k, k ≠ h → kget t.txs k = kget s.txs k) ∧ kget t.txs h = some y ∧ y.st = .seated ∧ y.seat = 0 ∧
      y.start = s.timebase / s.txBeat x * s.txBeat x ∧ y.tag = x.tag ∧ y.wr = x.wr ∧ y.rd = x.rd := by
  obtain ⟨q, b, hseat⟩ := seatTx_opens h hnew
  refine ⟨_, _, (execOrderSequencerArrival_seats hx hst hl).trans (congrArg Host.Outcome.next hseat), rfl, fun k hk => kget_kput_ne _ _ hk,
    kget_kput_self .., rfl, rfl, rfl, rfl, rfl, rfl⟩

theorem sealable_of {s : State} {x : Tx} (die : Nat) (hover : x.start + s.txBeat x ≤ s.timebase)
    (hl : s.txLaunch x = none ∨ ∃ l, s.txLaunch x = some l ∧ (l.seatsLogged = false ∨ s.allSubmitted l die x.beat = true)) :
    s.sealable die x = true := by
  rw [State.sealable, decide_eq_true hover, Bool.true_and]
  rcases hl with hl | ⟨l, hl, hlog | hall⟩
  · rw [hl]
    rfl
  · simp [hl, hlog]
  · simp [hl, hall]

/-- A die that holds one seated transaction, whose beat is over, seals it. -/
theorem execBeatSeal_one {s : State} {h : Nat} {x : Tx} (htx : s.txs = [(h, x)]) (hst : x.st = .seated) (hseal : s.sealable x.die x = true) :
    exec (.beatSeal x.die) s = .next (s.sealTx h x) := by
  have hfilter : s.txs.filter (fun e => e.2.die == x.die && e.2.st == .seated && s.sealable x.die e.2) = [(h, x)] := by
    rw [htx, List.filter_cons_of_pos (by simp [hst, hseal])]
    rfl
  rw [exec_beatSeal, execBeatSeal, hfilter]
  rfl

/-- The unit of a sealed transaction: it has the postmark, and its `ofinfo` goes on (R235). -/
def Warp.postmarked (w : Warp) (n : Nat) : Warp :=
  Warp.wake { w with postmark := some n } (fun e => decide (e.st = .waiting .ofinfo))

theorem postmarked_spec (w : Warp) (n : Nat) : (w.postmarked n).postmark = some n ∧ (∀ r l, (w.postmarked n).reg r l = w.reg r l) ∧
    (∀ p, (w.postmarked n).pred p = w.pred p) ∧ (∀ l, (w.postmarked n).flagsOf l = w.flagsOf l) ∧
    Woken w (w.postmarked n) (fun e => e.st = .waiting .ofinfo) := by
  obtain ⟨f, k, t, b, he⟩ := (wake_rearranged { w with postmark := some n } (fun e => decide (e.st = .waiting .ofinfo))).1
  obtain ⟨-, hr, hp, hf⟩ := kept_wake { w with postmark := some n } (fun e => decide (e.st = .waiting .ofinfo))
  exact ⟨by rw [Warp.postmarked, he], hr, hp, hf, woken_wake { w with postmark := some n } _ _ (fun e _ => decide_eq_true_iff)⟩

/-- Sealing writes the transaction, its batch entry and its unit. -/
theorem sealTx_eq (s : State) (h : Nat) (x : Tx) : ∃ m ls, s.sealTx h x =
    State.modWarp { s with txs := kput s.txs h { x with st := .sealed }, mem := m, launches := ls } x.u (fun w => w.postmarked x.postmark) := by
  obtain ⟨m, ls, hlog⟩ := logEntry_eq { s with txs := kput s.txs h { x with st := .sealed } } x.launch x.die 1 x.decl x.lcore x.wid
    (x.beat % 65536) (x.seat + x.tag % 65536 * 65536)
  refine ⟨m, ls, ?_⟩
  unfold State.sealTx
  dsimp only
  rw [hlog]
  rfl

theorem execBeatSeal_seals {s : State} {h : Nat} {x : Tx} (htx : s.txs = [(h, x)]) (hst : x.st = .seated)
    (hl : s.txLaunch x = none ∨ ∃ l, s.txLaunch x = some l ∧ (l.seatsLogged = false ∨ s.allSubmitted l x.die x.beat = true))
    (hover : x.start + s.txBeat x ≤ s.timebase) : ∃ t, exec (.beatSeal x.die) s = .next t ∧ kget t.txs h = some { x with st := .sealed } ∧
      (∀ v, v ≠ x.u → kget t.warps v = kget s.warps v) ∧ ∀ w, kget s.warps x.u = some w → ∃ w', kget t.warps x.u = some w' ∧
        w'.postmark = some x.postmark ∧ (∀ r l, w'.reg r l = w.reg r l) ∧ (∀ p, w'.pred p = w.pred p) ∧ (∀ l, w'.flagsOf l = w.flagsOf l) ∧
        Woken w w' (fun e => e.st = .waiting .ofinfo) := by
  obtain ⟨m, ls, hseal⟩ := sealTx_eq s h x
  refine ⟨_, (execBeatSeal_one htx hst (sealable_of x.die hover hl)).trans (congrArg Host.Outcome.next hseal), kget_kput_self ..,
    fun v hv => kget_kmod_ne _ _ hv, fun w hw => ⟨_, modWarp_get hw _, postmarked_spec w x.postmark⟩⟩

/-! ### The exchange (R235, R236) -/

/-- A transaction of a beat enters its granules' queues: every die has sealed the beat, and its partition has exchanged every earlier one. -/
def Tx.exchanged (x : Tx) (s : State) (beat : Nat) : Prop :=
  x.st = .sealed ∧ x.start = beat ∧ (∀ d, d < 4 → s.sealable d x = true) ∧
    ∀ y ∈ s.txs, y.2.part = x.part → ¬(y.2.st = .seated ∧ y.2.start ≤ beat) ∧ ¬(y.2.st = .sealed ∧ y.2.start < beat)

/-- A transaction that an exchange of a beat, or of an earlier one, still waits for. -/
def Tx.unexchanged (y : Tx) (beat : Nat) : Bool :=
  (y.st == .seated && decide (y.start ≤ beat)) || (y.st == .sealed && decide (y.start < beat))

/-- The exchange's own test of a transaction. -/
def Tx.moves (x : Tx) (s : State) (beat : Nat) : Bool :=
  x.st == .sealed && x.start == beat && !(s.txs.any (fun y => y.2.part == x.part && y.2.unexchanged beat)) &&
    (List.range 4).all (fun d => s.sealable d x)

theorem moves_iff (x : Tx) (s : State) (beat : Nat) : x.moves s beat = true ↔ x.exchanged s beat := by
  simp only [Tx.moves, Tx.unexchanged, Tx.exchanged, Bool.and_eq_true, beq_iff_eq, Bool.not_eq_true', List.any_eq_false, List.all_eq_true,
    List.mem_range, Bool.or_eq_true, decide_eq_true_eq, not_and, not_or]
  tauto

/-- A transaction after an exchange. -/
def Tx.queueIf (x : Tx) (moves : Bool) : Tx := if moves then { x with st := .queued } else x

theorem execBatchExchange_eq (beat : Nat) (s : State) : exec (.batchExchange beat) s =
    .next (if s.spent 67 || !s.txs.any (fun e => e.2.moves s beat) then s
      else { s.spend 67 (Config.transfers s.stepNo 67) with txs := s.txs.map (fun e => (e.1, e.2.queueIf (e.2.moves s beat))) }) := by
  have hmap : s.txs.map (fun e => if e.2.moves s beat then (e.1, { e.2 with st := .queued }) else e) =
      s.txs.map (fun e => (e.1, e.2.queueIf (e.2.moves s beat))) :=
    List.map_congr_left fun e _ => by unfold Tx.queueIf; split <;> rfl
  rw [← hmap]
  rfl

theorem execBatchExchange_spent {s : State} (beat : Nat) (h : s.spent 67 = true) : exec (.batchExchange beat) s = .next s := by
  rw [execBatchExchange_eq, h]
  rfl

/-- An exchange with budget left moves the transactions that may go, and nothing else but the budget. -/
theorem execBatchExchange_moves {s : State} (beat : Nat) (h : s.spent 67 = false) : ∃ n, exec (.batchExchange beat) s =
    .next { s with txs := s.txs.map (fun e => (e.1, e.2.queueIf (e.2.moves s beat))), fleet := { s.fleet with used := n } } := by
  rw [execBatchExchange_eq, h, Bool.false_or]
  cases hany : s.txs.any (fun e => e.2.moves s beat) with
  | true => exact ⟨_, rfl⟩
  | false =>
    have hnone : s.txs.map (fun e => (e.1, e.2.queueIf (e.2.moves s beat))) = s.txs := by
      refine (List.map_congr_left fun e he => ?_).trans (List.map_id _)
      rw [Bool.eq_false_iff.2 (List.any_eq_false.1 hany e he)]
      rfl
    rw [hnone]
    exact ⟨s.fleet.used, rfl⟩

theorem execBatchExchange_exchanges {s : State} (beat : Nat) (h : s.spent 67 = false) : ∃ t, exec (.batchExchange beat) s = .next t ∧
    t = { s with txs := t.txs, fleet := { s.fleet with used := t.fleet.used } } ∧ ∀ k x, kget s.txs k = some x →
      (x.exchanged s beat → kget t.txs k = some { x with st := .queued }) ∧ (¬x.exchanged s beat → kget t.txs k = some x) := by
  obtain ⟨n, he⟩ := execBatchExchange_moves beat h
  refine ⟨_, he, rfl, fun k x hk => ?_⟩
  have hget : kget (s.txs.map (fun e => (e.1, e.2.queueIf (e.2.moves s beat)))) k = some (x.queueIf (x.moves s beat)) := by
    rw [kget_map s.txs (fun y => y.queueIf (y.moves s beat)), hk]
    rfl
  exact ⟨fun hx => hget.trans (by rw [(moves_iff x s beat).2 hx]; rfl),
    fun hx => hget.trans (by rw [Bool.eq_false_iff.2 (mt (moves_iff x s beat).1 hx)]; rfl)⟩

/-! ### Admission and overrun (R236, R239) -/

/-- The first of the queues has every granule it asks for. -/
theorem granted_first {s : State} {x : Tx} (hfirst : ∀ y ∈ s.txs, y.2.inQueues = true → y.2.before x = false) : s.granted x = true := by
  have hahead : s.ahead x = [] := by
    refine List.filter_eq_nil_iff.2 fun y hy => ?_
    obtain ⟨e, he, rfl⟩ := List.mem_map.1 hy
    intro h
    simp only [Bool.and_eq_true] at h
    obtain ⟨⟨hq, -⟩, hb⟩ := h
    rw [hfirst e he hq] at hb
    cases hb
  rw [State.granted, hahead]
  simp

/-- The first of the queues has its capacity at every slice, when it writes 64 granules at most. -/
theorem reserved_first {s : State} {x : Tx} (hfirst : ∀ y ∈ s.txs, y.2.inQueues = true → y.2.before x = false) (hlen : x.wrP.length ≤ 64) :
    s.reserved x = true := by
  have hnone : (s.txs.map (·.2)).filter (fun y => y.inQueues && y.before x) = [] := by
    refine List.filter_eq_nil_iff.2 fun y hy => ?_
    obtain ⟨e, he, rfl⟩ := List.mem_map.1 hy
    intro h
    obtain ⟨hq, hb⟩ := Bool.and_eq_true_iff.1 h
    rw [hfirst e he hq] at hb
    cases hb
  rw [State.reserved, hnone]
  exact List.all_eq_true.2 fun sl _ => decide_eq_true (Nat.le_trans (List.length_filter_le _ _) hlen)

/-- A measured event leaves who the units are. -/
theorem mild_bump (s : State) (lid core code : Nat) : Mild s (s.bump lid core code) := by
  unfold State.bump State.bumpBy
  split
  · exact .refl s
  · rename_i l hl
    split
    · exact mild_setLaunch s lid l _ hl rfl rfl ⟨rfl, rfl, rfl⟩
    · exact .refl s

/-- A transaction whose granules are granted and whose capacity is reserved is admitted: its unit acquires, and its `ofwait` ends. -/
theorem execTransactionAdmission_admits {s : State} {h : Nat} {x : Tx} {w : Warp} {p : Who} (hx : kget s.txs h = some x) (hst : x.st = .queued)
    (hg : s.granted x = true) (hr : s.reserved x = true) (hw : kget s.warps x.u = some w) (hp : s.who x.u = some p) :
    ∃ t w', exec (.transactionAdmission h) s = .next t ∧ kget t.txs h = some { x with st := .admitted, since := s.timebase } ∧
      (∀ k, k ≠ h → kget t.txs k = kget s.txs k) ∧ (∀ a, t.hByte a = s.hByte a) ∧ (∀ v, v ≠ x.u → kget t.warps v = kget s.warps v) ∧
      kget t.warps x.u = some w' ∧ Kept w w' ∧ Woken w w' (fun e => e.st = .waiting .ofwait) := by
  obtain ⟨s1, hs1⟩ : ∃ s1, s1 = State.bump { s with txs := kput s.txs h { x with st := .admitted, since := s.timebase } } x.launch x.lcore 0x0A :=
    ⟨_, rfl⟩
  obtain ⟨ls, hb⟩ := bumpBy_eq { s with txs := kput s.txs h { x with st := .admitted, since := s.timebase } } x.launch x.lcore 0x0A 1
  have hwho : s1.who x.u = some p := by
    rw [hs1, (mild_bump ..).whoEq]
    exact hp
  obtain ⟨cs, hacq⟩ := acquire_frame s1 p.view 4
  have he : exec (.transactionAdmission h) s =
      .next ((s1.acquire p.view 4).modWarp x.u (fun w => w.wake (fun e => decide (e.st = .waiting .ofwait)))) := by
    rw [exec_transactionAdmission, execTransactionAdmission, hx]
    dsimp only
    rw [if_pos ⟨hst, hg, hr⟩, ← hs1, hwho]
  have hs1' : s1 = { s with txs := kput s.txs h { x with st := .admitted, since := s.timebase }, launches := ls } := by
    rw [hs1]
    exact hb
  rw [hacq, hs1'] at he
  refine ⟨_, _, he, kget_kput_self .., fun k hk => kget_kput_ne _ _ hk, fun _ => rfl, fun v hv => kget_kmod_ne _ _ hv, modWarp_get hw _,
    kept_wake w _, woken_wake w _ _ fun e _ => decide_eq_true_iff⟩

theorem execTransactionOverrun_overruns {s : State} {h : Nat} {x : Tx} {w : Warp} {lr : LaunchRec} (hx : kget s.txs h = some x)
    (hst : x.st = .admitted) (hlr : s.lrOf x.launch = some lr) (hb : lr.ofbudget ≠ 0) (hover : x.since + lr.ofbudget * 1000 ≤ s.timebase)
    (hw : kget s.warps x.u = some w) :
    ∃ t, exec (.transactionOverrun h) s = .next t ∧ t = { s with txs := t.txs, warps := t.warps } ∧
      kget t.txs h = some { x with st := .overrun, trapDue := false } ∧ (∀ k, k ≠ h → kget t.txs k = kget s.txs k) ∧
      (∀ v, v ≠ x.u → kget t.warps v = kget s.warps v) ∧ kget t.warps x.u = some { w with overrunTrap := true } := by
  have he : exec (.transactionOverrun h) s =
      .next (State.modWarp { s with txs := kput s.txs h { x with st := .overrun, trapDue := false } } x.u
        (fun w => { w with overrunTrap := true })) := by
    rw [exec_transactionOverrun, execTransactionOverrun, hx]
    dsimp only
    rw [hlr, Option.elim_some, if_pos ⟨hst, hb, hover⟩, hw]
    rfl
  exact ⟨_, he, rfl, kget_kput_self .., fun k hk => kget_kput_ne _ _ hk, fun v hv => kget_kmod_ne _ _ hv, modWarp_get hw _⟩

/-- Settles O43, event by event; that an exchange waits for its budget is the model's choice (log 85). -/
theorem orderingEvents : Obligations.OrderingEvents := by
  refine ⟨fun s u lane w p e rest hw hp hq hr hl hb => execDrain_drains hw hp hq hr hl hb,
    fun s v line l hl hd => execPropagate_cleans hl hd,
    fun s pa pre w post hms hw hpre hpost he hu hl => execApply_alone hms hw hpre hpost he hu hl,
    fun s pa pre w post hms hw hpre hpost hu he => execApply_unit hms hw hpre hpost hu he,
    fun s v line l hl hd => execRefresh_drops hl hd,
    fun s v line l hl hd => execRefresh_keepsDirty hl hd,
    fun s core eid e he hp => execProducerComplete_settles he hp,
    fun s h x hx hst hl hnew => execOrderSequencerArrival_opens hx hst hl hnew,
    fun s h x htx hst hl hover => execBeatSeal_seals htx hst hl hover,
    fun s beat => ⟨fun h => ⟨s, execBatchExchange_spent beat h, rfl⟩, execBatchExchange_exchanges beat⟩,
    fun s h x w p hx hst hfirst hlen hw hp =>
      execTransactionAdmission_admits hx hst (granted_first hfirst) (reserved_first hfirst hlen) hw hp,
    fun s h x w lr hx hst hlr hb hover hw => execTransactionOverrun_overruns hx hst hlr hb hover hw⟩

end Sys2Proof.Machine
end

section
/-! The statements of arithmetic (chapter 04): floating point, conversions, rounding, reductions and scans, the matrix engines. -/

namespace Sys2Proof.Machine

/-! ### The floating operand forms (R88, R90, R95, R172) -/

theorem fOp1_computes {i : Instr} {a d : BitVec 7} {f : RMode → Bool → Nat → Nat × Flags} (he : ∀ s, exec i s = fOp1 i s a d f) :
    ComputesFloat i d (fun c l => f c.mode c.px.st (c.rd a.toNat l).toNat) :=
  regOp_computes i d 1 _ he (fun _ _ => rfl)

theorem fOp2_computes {i : Instr} {b a d : BitVec 7} {f : RMode → Bool → Nat → Nat → Nat × Flags}
    (he : ∀ s, exec i s = fOp2 i s b a d f) :
    ComputesFloat i d (fun c l => f c.mode c.px.st (c.rd a.toNat l).toNat (c.rd b.toNat l).toNat) :=
  regOp_computes i d 1 _ he (fun _ _ => rfl)

theorem fOp3_computes {i : Instr} {b a d : BitVec 7} {f : RMode → Bool → Nat → Nat → Nat → Nat × Flags}
    (he : ∀ s, exec i s = fOp3 i s b a d f) :
    ComputesFloat i d (fun c l => f c.mode c.px.st (c.rd a.toNat l).toNat (c.rd b.toNat l).toNat (c.fourth d.toNat l).toNat) :=
  regOp_computes i d 1 _ he (fun _ _ => rfl)

/-- An instruction that computes both halves of a word, each by itself. -/
theorem regOp_halves {i : Instr} {d : BitVec 7} {f : Ctx → Nat → Nat → Nat × Flags}
    (he : ∀ s, exec i s = regOp i s d 1 (fun c l => halves (f c l))) : ComputesHalves i d f :=
  regOp_computes i d 1 _ he (fun _ _ => rfl)

theorem hOp2_computes {i : Instr} {b a d : BitVec 7} {f : RMode → Bool → Nat → Nat → Nat × Flags}
    (he : ∀ s, exec i s = hOp2 i s b a d f) :
    ComputesHalves i d (fun c l h => f c.mode c.px.st (halfOf (c.rd a.toNat l) h) (halfOf (c.rd b.toNat l) h)) :=
  regOp_halves he

theorem hOp3_computes {i : Instr} {b a d : BitVec 7} {f : RMode → Bool → Nat → Nat → Nat → Nat × Flags}
    (he : ∀ s, exec i s = hOp3 i s b a d f) :
    ComputesHalves i d (fun c l h =>
      f c.mode c.px.st (halfOf (c.rd a.toNat l) h) (halfOf (c.rd b.toNat l) h) (halfOf (c.fourth d.toNat l) h)) :=
  regOp_halves he

theorem dOp1_computes {i : Instr} {a d : BitVec 7} {f : RMode → Bool → Nat → Nat × Flags} (he : ∀ s, exec i s = dOp1 i s a d f) :
    ComputesDouble i d (fun c l => f c.mode c.px.st (c.rd64 a.toNat l).toNat) :=
  regOp_computes i d 2 _ he (fun _ _ => rfl)

theorem dOp2_computes {i : Instr} {b a d : BitVec 7} {f : RMode → Bool → Nat → Nat → Nat × Flags}
    (he : ∀ s, exec i s = dOp2 i s b a d f) :
    ComputesDouble i d (fun c l => f c.mode c.px.st (c.rd64 a.toNat l).toNat (c.rd64 b.toNat l).toNat) :=
  regOp_computes i d 2 _ he (fun _ _ => rfl)

theorem dOp3_computes {i : Instr} {b a d : BitVec 7} {f : RMode → Bool → Nat → Nat → Nat → Nat × Flags}
    (he : ∀ s, exec i s = dOp3 i s b a d f) :
    ComputesDouble i d (fun c l =>
      f c.mode c.px.st (c.rd64 a.toNat l).toNat (c.rd64 b.toNat l).toNat (c.fourth64 d.toNat l).toNat) :=
  regOp_computes i d 2 _ he (fun _ _ => rfl)

/-! ### binary32, packed halves and binary64 (R165 to R169, R172 to R176) -/

/-- Settles O8: each instruction has its operand form, the arithmetic ones with one rounding by mode and st. -/
theorem floatArithmetic : Obligations.FloatArithmetic := by
  intro b a d
  exact ⟨fOp2_computes (exec_faddF32 b a d), fOp2_computes (exec_fsubF32 b a d), fOp2_computes (exec_fmulF32 b a d),
    fOp3_computes (exec_ffmaF32 b a d), fOp2_computes (exec_fdivF32 b a d), fOp1_computes (exec_fsqrtF32 a d),
    fOp2_computes (exec_fminF32 b a d), fOp2_computes (exec_fmaxF32 b a d), fOp1_computes (exec_frndF32 a d),
    wordOp1_computes (exec_fabsF32 a d) fun _ _ => rfl, wordOp1_computes (exec_fnegF32 a d) fun _ _ => rfl⟩

/-- Settles O9: each half has the operand form of its own format; the dot product is one three-operand form in binary32. -/
theorem halfArithmetic : Obligations.HalfArithmetic := by
  intro b a d
  exact ⟨hOp2_computes (exec_hadd2F16 b a d), hOp2_computes (exec_hmul2F16 b a d), hOp3_computes (exec_hfma2F16 b a d),
    hOp2_computes (exec_hadd2Bf16 b a d), hOp2_computes (exec_hmul2Bf16 b a d), hOp3_computes (exec_hfma2Bf16 b a d),
    hOp2_computes (exec_hmin2Bf16 b a d), hOp2_computes (exec_hmax2Bf16 b a d), fOp3_computes (exec_fdot2Bf16 b a d)⟩

/-- Settles O10: each instruction has its operand form on pairs. -/
theorem doubleArithmetic : Obligations.DoubleArithmetic := by
  intro b a d
  exact ⟨dOp2_computes (exec_dadd b a d), dOp2_computes (exec_dmul b a d), dOp3_computes (exec_dfma b a d),
    dOp2_computes (exec_dmin b a d), dOp2_computes (exec_dmax b a d), dOp2_computes (exec_ddiv b a d),
    dOp1_computes (exec_dsqrt a d)⟩

/-! ### Conversions (R177 to R182) -/

theorem cvtWordOp_computes {i : Instr} {a d : BitVec 7} {lo hi : Int} (he : ∀ s, exec i s = cvtWordOp i s a d lo hi) :
    Computes i d 1 (fun c l => [BitVec.ofInt 32 (cvtIntF lo hi (rmode c.px.rm .rz) (c.rd a.toNat l).toNat).1])
      (fun c l => (cvtIntF lo hi (rmode c.px.rm .rz) (c.rd a.toNat l).toNat).2) :=
  regOp_computes i d 1 _ he (fun _ _ => rfl)

/-- A pack takes its low half from field a, its high half from field b (R178). -/
theorem packOp_computes {i : Instr} {b a d : BitVec 7} {f : Fmt} (he : ∀ s, exec i s = packOp i s b a d f) :
    ComputesHalves i d (fun c l k => cvtF f32 f c.mode c.px.st (c.rd (if k = 0 then a else b).toNat l).toNat) := by
  have hreg : ∀ k : Nat, (if k = 0 then a.toNat else b.toNat) = (if k = 0 then a else b).toNat := fun k => by split <;> rfl
  refine regOp_halves fun s => (he s).trans ?_
  simp only [packOp, hreg, Ctx.sat]

theorem widenOp_computes {ins : Instr} {i a d : BitVec 7} {f : Fmt} (he : ∀ s, exec ins s = widenOp ins s i a d f) :
    ComputesFloat ins d (fun c l => cvtF f f32 .rne false (halfOf (c.rd a.toNat l) i.toNat)) :=
  regOp_computes ins d 1 _ he (fun _ _ => rfl)

/-- Four bytes in little-endian order are the word they make. -/
theorem ofNat_natLE_four (x0 x1 x2 x3 : Byte) : BitVec.ofNat 32 (natLE [x0, x1, x2, x3]) = x3 ++ x2 ++ x1 ++ x0 := by
  apply BitVec.eq_of_toNat_eq
  have h0 := x0.isLt
  have h1 := x1.isLt
  have h2 := x2.isLt
  have h3 := x3.isLt
  simp only [natLE, BitVec.toNat_ofNat, append_toNat]
  omega

/-- The number a byte of a word holds. -/
theorem byteOf_toNat (x : Word) (k : Nat) : (byteOf x k).toNat = x.toNat / 2 ^ (8 * k) % 256 := by
  simp [byteOf, Nat.shiftRight_eq_div_pow]

/-- Quantising packs four bytes, the first lowest, and joins their flags (R181). -/
theorem qpkOp_computes {i : Instr} {b a d : BitVec 7} {f : Fmt} (he : ∀ s, exec i s = qpkOp i s b a d f) :
    let q (c : Ctx) (l k : Nat) := quantF f c.mode (c.rd (a.toNat + k) l).toNat (c.rd b.toNat l).toNat
    Computes i d 1 (fun c l => [BitVec.ofNat 8 (q c l 3).1 ++ BitVec.ofNat 8 (q c l 2).1 ++ BitVec.ofNat 8 (q c l 1).1 ++
      BitVec.ofNat 8 (q c l 0).1]) (fun c l => (q c l 0).2 ||| (q c l 1).2 ||| (q c l 2).2 ||| (q c l 3).2) := by
  refine (regOp_computes i d 1 _ he (fun _ _ => rfl)).congr (fun c l => ?_) (fun c l => ?_)
  · exact congrArg (fun v => [v]) (ofNat_natLE_four ..)
  · simp [List.range_succ]

/-- Dequantising widens four bytes, the first lowest, and joins their flags (R182). -/
theorem dqOp_computes {i : Instr} {b a d : BitVec 7} {f : Fmt} (he : ∀ s, exec i s = dqOp i s b a d f) :
    let q (c : Ctx) (l k : Nat) := dequantF f c.mode c.px.st ((c.rd a.toNat l).toNat / 2 ^ (8 * k) % 256) (c.rd b.toNat l).toNat
    Computes i d 4 (fun c l => [BitVec.ofNat 32 (q c l 0).1, BitVec.ofNat 32 (q c l 1).1, BitVec.ofNat 32 (q c l 2).1,
      BitVec.ofNat 32 (q c l 3).1]) (fun c l => (q c l 0).2 ||| (q c l 1).2 ||| (q c l 2).2 ||| (q c l 3).2) := by
  refine (regOp_computes i d 4 _ he (fun _ _ => rfl)).congr (fun c l => ?_) (fun c l => ?_)
  · simp only [List.range_succ, List.range_zero, List.nil_append, List.cons_append, List.map_cons, List.map_nil, byteOf_toNat,
      Ctx.sat, w32]
  · simp [List.range_succ, byteOf_toNat, Ctx.sat]

/-- The signed number an integer conversion reads is the register's word (R177). -/
theorem execCvtF32Sw_computes (a d : BitVec 7) :
    ComputesFloat (.cvtF32Sw a d) d (fun c l => cvtFromInt c.mode (c.rd a.toNat l).toInt) :=
  (fOp1_computes (exec_cvtF32Sw a d)).congr (fun c l => by simp only [BitVec.ofNat_toNat, BitVec.setWidth_eq])
    (fun c l => by simp only [BitVec.ofNat_toNat, BitVec.setWidth_eq])

/-- Settles O12: integers, packs and widenings by their forms; four bytes of a word are quantised and dequantised one by one. -/
theorem conversions : Obligations.Conversions := by
  intro b a d
  refine ⟨execCvtF32Sw_computes a d, fOp1_computes (exec_cvtF32Uw a d), cvtWordOp_computes (exec_cvtSwF32 a d),
    cvtWordOp_computes (exec_cvtUwF32 a d), packOp_computes (exec_pkF16 b a d), packOp_computes (exec_pkBf16 b a d),
    widenOp_computes (exec_cvtF32F16 b a d), widenOp_computes (exec_cvtF32Bf16 b a d),
    regOp_computes _ d 2 _ (exec_cvtF64F32 a d) fun _ _ => rfl, regOp_computes _ d 1 _ (exec_cvtF32F64 a d) fun _ _ => rfl, ?_, ?_⟩
  · rintro p (rfl | rfl)
    · exact qpkOp_computes (exec_qpkE4m3 b a d)
    · exact qpkOp_computes (exec_qpkE5m2 b a d)
  · rintro p (rfl | rfl)
    · exact dqOp_computes (exec_dqE4m3 b a d)
    · exact dqOp_computes (exec_dqE5m2 b a d)

end Sys2Proof.Machine
end

section
namespace Sys2Proof.Machine

/-! ### Rounding (R84, R86, R89) -/

/-- Sign, exponent and fraction make up an encoding (R84). -/
theorem encoding_parts (f : Fmt) {x : Nat} (h : x < 2 ^ (1 + f.eb + f.fb)) :
    signBit f (x.testBit (f.eb + f.fb)) + (x / 2 ^ f.fb % 2 ^ f.eb * 2 ^ f.fb + x % 2 ^ f.fb) = x := by
  have hlow : x / 2 ^ f.fb % 2 ^ f.eb * 2 ^ f.fb + x % 2 ^ f.fb = x % 2 ^ (f.eb + f.fb) := by
    rw [Nat.add_comm f.eb, Nat.pow_add, Nat.mod_mul]
    ring
  have htop : x / 2 ^ (f.eb + f.fb) < 2 := Nat.div_lt_of_lt_mul (h.trans_eq (by ring))
  have hbit : signBit f (x.testBit (f.eb + f.fb)) = 2 ^ (f.eb + f.fb) * (x / 2 ^ (f.eb + f.fb)) := by
    rw [signBit, Nat.testBit_eq_decide_div_mod_eq, Nat.mod_eq_of_lt htop]
    rcases Nat.lt_succ_iff_lt_or_eq.1 htop with h0 | h1
    · simp [Nat.lt_one_iff.1 h0]
    · simp [h1]
  rw [hlow, hbit, Nat.div_add_mod]

/-- A number whose last place is a step of the format keeps its mantissa and raises nothing (R86). -/
theorem roundFin_of_step {f : Fmt} {m : Nat} {e : Int} (mode : RMode) (neg : Bool)
    (hstep : max ((Nat.log2 m : Int) + e - f.fb) (1 - (f.bias : Int) - f.fb) = e)
    (hfits : m + (e - (1 - (f.bias : Int) - f.fb)).toNat * 2 ^ f.fb ≤ maxBits f) :
    roundFin f mode false neg m e = (signBit f neg + (m + (e - (1 - (f.bias : Int) - f.fb)).toNat * 2 ^ f.fb), 0) := by
  have hexact : roundAt mode neg m e e = (m, false) := by simp [roundAt]
  simp only [roundFin, hstep, hexact, gt_iff_lt, Nat.not_lt.2 hfits, if_false, Bool.false_eq_true]

/-- A subnormal number rounds to itself. -/
theorem roundFin_subnormal {f : Fmt} (hk : f.kind = .ieee) (he : 1 ≤ f.eb) (mode : RMode) (neg : Bool) {fr : Nat} (h0 : fr ≠ 0)
    (hfr : fr < 2 ^ f.fb) : roundFin f mode false neg fr (1 - (f.bias : Int) - f.fb) = (signBit f neg + fr, 0) := by
  have hlog : Nat.log2 fr < f.fb := (Nat.log2_lt h0).2 hfr
  have hfits : fr ≤ maxBits f := by
    have hpow : 2 ^ 1 ≤ 2 ^ f.eb := Nat.pow_le_pow_right two_pos he
    have := Nat.mul_le_mul_right (2 ^ f.fb) (show 1 ≤ 2 ^ f.eb - 1 by omega)
    simp only [maxBits, hk]
    omega
  rw [roundFin_of_step mode neg (by omega) (by simpa using hfits)]
  simp

/-- A normal number rounds to itself. -/
theorem roundFin_normal {f : Fmt} (hk : f.kind = .ieee) (mode : RMode) (neg : Bool) {e fr : Nat} (h0 : e ≠ 0) (he : e < 2 ^ f.eb - 1)
    (hfr : fr < 2 ^ f.fb) :
    roundFin f mode false neg (2 ^ f.fb + fr) ((e : Int) - f.bias - f.fb) = (signBit f neg + (e * 2 ^ f.fb + fr), 0) := by
  have hlog : Nat.log2 (2 ^ f.fb + fr) = f.fb := by
    rw [Nat.log2_eq_iff (by positivity), pow_succ]
    omega
  have hplace : ((e : Int) - f.bias - f.fb - (1 - (f.bias : Int) - f.fb)).toNat = e - 1 := by omega
  have hsum : 2 ^ f.fb + fr + (e - 1) * 2 ^ f.fb = e * 2 ^ f.fb + fr := by
    obtain ⟨k, rfl⟩ := Nat.exists_eq_succ_of_ne_zero h0
    rw [Nat.succ_sub_one, Nat.succ_mul]
    ring
  have hfits : e * 2 ^ f.fb + fr ≤ maxBits f := by
    have := Nat.mul_le_mul_right (2 ^ f.fb) (Nat.succ_le_of_lt he)
    rw [Nat.succ_mul] at this
    simp only [maxBits, hk]
    omega
  rw [roundFin_of_step mode neg (by rw [hlog]; omega) (by rw [hplace, hsum]; exact hfits), hplace, hsum]

/-- Every number of an IEEE format rounds to itself, and raises nothing. -/
theorem roundF_decodeF {f : Fmt} (hk : f.kind = .ieee) (he : 1 ≤ f.eb) (mode : RMode) {x : Nat} (hx : x < 2 ^ (1 + f.eb + f.fb))
    (hn : (decodeF f x).isNaN = false) : roundF f mode false (decodeF f x) = (x, 0) := by
  have hparts := encoding_parts f hx
  have hfr : x % 2 ^ f.fb < 2 ^ f.fb := Nat.mod_lt _ (by positivity)
  have hexp : x / 2 ^ f.fb % 2 ^ f.eb < 2 ^ f.eb := Nat.mod_lt _ (by positivity)
  simp only [decodeF, hk, and_true, false_and, and_false, reduceCtorEq, if_false] at hn ⊢
  generalize x.testBit (f.eb + f.fb) = neg at *
  generalize x / 2 ^ f.fb % 2 ^ f.eb = e at *
  generalize x % 2 ^ f.fb = fr at *
  by_cases hones : e = 2 ^ f.eb - 1
  · have h0 : fr = 0 := by
      by_contra h
      simp [hones, h, FVal.isNaN] at hn
    subst h0
    simpa [hones, roundF, infBits, hk] using hparts
  · rw [if_neg hones]
    by_cases hz : e = 0
    · rw [if_pos hz, roundF]
      split
      · rename_i h0
        simpa [hz, h0] using hparts
      · rename_i h0
        rw [roundFin_subnormal hk he mode neg h0 hfr]
        simpa [hz] using hparts
    · rw [if_neg hz, roundF, if_neg (by positivity), roundFin_normal hk mode neg hz (by omega) hfr, hparts]

/-- A quotient rounded to nearest lies within half a divisor, and is inexact exactly when it is not the quotient (R89). -/
theorem roundShift_nearest (neg : Bool) (m sh : Nat) :
    2 * |((roundShift .rne neg m sh).1 : Int) * 2 ^ sh - m| ≤ 2 ^ sh ∧
      ((roundShift .rne neg m sh).2 = true ↔ (roundShift .rne neg m sh).1 * 2 ^ sh ≠ m) := by
  have hm := Nat.div_add_mod' m (2 ^ sh)
  have hr : m % 2 ^ sh < 2 ^ sh := Nat.mod_lt _ (by positivity)
  have hup : (m / 2 ^ sh + 1) * 2 ^ sh = m / 2 ^ sh * 2 ^ sh + 2 ^ sh := Nat.succ_mul _ _
  have hcast : ∀ k : Nat, (k : Int) * 2 ^ sh - m = ((k * 2 ^ sh : Nat) : Int) - m := fun k => by push_cast; rfl
  have hpow : (2 : Int) ^ sh = ((2 ^ sh : Nat) : Int) := by push_cast; rfl
  rw [hcast, hpow]
  unfold roundShift
  dsimp only
  generalize m / 2 ^ sh = q at *
  generalize m % 2 ^ sh = r at *
  generalize 2 ^ sh = h at *
  have hdown : q * h = m - r := by omega
  by_cases h0 : r = 0
  · simp only [h0, if_true, hdown]
    refine ⟨?_, by simp⟩
    simp
  · simp only [h0, if_false]
    split
    · rw [hup, hdown, abs_of_nonneg (by omega)]
      constructor
      · omega
      · simp only [true_iff]; omega
    · rw [hdown, abs_of_nonpos (by omega)]
      constructor
      · omega
      · simp only [true_iff]; omega

/-- Rounded to nearest, a number lies within half a step (R89). -/
theorem roundAt_nearest (neg : Bool) (m : Nat) (e q : Int) :
    2 * |((roundAt .rne neg m e q).1 : Rat) * 2 ^ q - (m : Rat) * 2 ^ e| ≤ 2 ^ q ∧
      ((roundAt .rne neg m e q).2 = true ↔ ((roundAt .rne neg m e q).1 : Rat) * 2 ^ q ≠ (m : Rat) * 2 ^ e) := by
  unfold roundAt
  split
  · rename_i h
    have he : (2 : Rat) ^ e = 2 ^ (e - q).toNat * 2 ^ q := by
      rw [← zpow_natCast, ← zpow_add₀ two_ne_zero, Int.toNat_of_nonneg (by omega), sub_add_cancel]
    have heq : ((m * 2 ^ (e - q).toNat : Nat) : Rat) * 2 ^ q = (m : Rat) * 2 ^ e := by
      rw [he]; push_cast; ring
    simp only [heq, sub_self, abs_zero, mul_zero]
    exact ⟨by positivity, by simp⟩
  · rename_i h
    obtain ⟨hhalf, hex⟩ := roundShift_nearest neg m (q - e).toNat
    generalize roundShift .rne neg m (q - e).toNat = r at *
    have hq : (2 : Rat) ^ q = 2 ^ (q - e).toNat * 2 ^ e := by
      rw [← zpow_natCast, ← zpow_add₀ two_ne_zero, Int.toNat_of_nonneg (by omega), sub_add_cancel]
    generalize (q - e).toNat = sh at *
    have hpos : (0 : Rat) < 2 ^ e := by positivity
    have hdiff : (r.1 : Rat) * 2 ^ q - m * 2 ^ e = (((r.1 : Int) * 2 ^ sh - m : Int) : Rat) * 2 ^ e := by
      rw [hq]; push_cast; ring
    constructor
    · rw [hdiff, abs_mul, abs_of_pos hpos, hq, ← mul_assoc]
      refine mul_le_mul_of_nonneg_right ?_ hpos.le
      exact_mod_cast hhalf
    · rw [hex, ← sub_ne_zero (a := (r.1 : Rat) * 2 ^ q), hdiff, mul_ne_zero_iff, Int.cast_ne_zero, sub_ne_zero]
      refine ⟨fun h => ⟨fun h' => h (by exact_mod_cast h'), hpos.ne'⟩, fun h h' => h.1 (by exact_mod_cast h')⟩

/-- Settles O13: a number of a format is a multiple of its own step, and to nearest is the nearer multiple. -/
theorem rounding : Obligations.Rounding := by
  refine ⟨fun f hf mode x hx hn => ?_, fun f _ neg m e _ => roundAt_nearest neg m e _⟩
  have hformat : ∀ f ∈ [f16, bf16, f32, f64, e5m2, a40], f.kind = .ieee ∧ 1 ≤ f.eb := by decide
  exact roundF_decodeF (hformat f hf).1 (hformat f hf).2 mode hx hn

end Sys2Proof.Machine
end

section
namespace Sys2Proof.Machine

/-! ### The fixed tree (R97, R98, R188) -/

/-- The flags of `n` neighbours from place `l` up, joined. -/
def flagsFrom (g : Nat → Flags) : Nat → Nat → Flags
  | _, 0 => 0
  | l, n + 1 => g l ||| flagsFrom g (l + 1) n

theorem flagsFrom_succ_place (g : Nat → Flags) (l n : Nat) : flagsFrom g (l + 1) n = flagsFrom (fun k => g (k + 1)) l n := by
  induction n generalizing l with
  | zero => rfl
  | succ n ih => simp only [flagsFrom, ih]

theorem flagsFrom_append (g : Nat → Flags) (l m n : Nat) : flagsFrom g l (m + n) = flagsFrom g l m ||| flagsFrom g (l + m) n := by
  induction m generalizing l with
  | zero => simp [flagsFrom]
  | succ m ih =>
    rw [Nat.succ_add_eq_add_succ, Nat.add_succ, flagsFrom, ih, flagsFrom, BitVec.or_assoc, Nat.succ_add_eq_add_succ l m]

@[simp] theorem comb_none_right (sel : Nat) (mode : RMode) (x : Node1) : comb sel mode x none = (x, 0) := by cases x <;> rfl

/-- The node over two neighbouring leaves. -/
def pairOf (sel : Nat) (mode : RMode) (leaf : Nat → Node1) (k : Nat) : Node1 × Flags :=
  comb sel mode (leaf (2 * k)) (leaf (2 * k + 1))

/-- A tree over leaves is, one level up, a tree over pairs of them; its flags are those of the pairs and of the upper tree. -/
theorem treeNode_pairs (sel : Nat) (mode : RMode) (leaf : Nat → Node1) (j l : Nat) :
    (treeNode sel mode leaf (j + 1) (2 * l)).1 = (treeNode sel mode (fun k => (pairOf sel mode leaf k).1) j l).1 ∧
    (treeNode sel mode leaf (j + 1) (2 * l)).2 =
      flagsFrom (fun k => (pairOf sel mode leaf k).2) l (2 ^ j) ||| (treeNode sel mode (fun k => (pairOf sel mode leaf k).1) j l).2 := by
  induction j generalizing l with
  | zero => simp [treeNode, pairOf, flagsFrom]
  | succ j ih =>
    obtain ⟨hl, hlf⟩ := ih l
    obtain ⟨hr, hrf⟩ := ih (l + 2 ^ j)
    have hmid : 2 * l + 2 ^ (j + 1) = 2 * (l + 2 ^ j) := by ring
    have hwide : 2 ^ (j + 1) = 2 ^ j + 2 ^ j := by ring
    rw [treeNode, hmid]
    dsimp only
    rw [hl, hr, hlf, hrf, hwide, flagsFrom_append, treeNode]
    dsimp only
    exact ⟨rfl, by ac_rfl⟩

/-- One level of the list is the pairs of its elements. -/
theorem combPairs_getD (sel : Nat) (mode : RMode) : ∀ (xs : List Node1) (k : Nat),
    (combPairs sel mode xs).1.getD k none = (pairOf sel mode (fun l => xs.getD l none) k).1
  | [], _ => by simp [combPairs, pairOf]
  | [_], 0 => by simp [combPairs, pairOf]
  | [_], _ + 1 => by simp [combPairs, pairOf]
  | _ :: _ :: _, 0 => rfl
  | _ :: _ :: t, k + 1 => combPairs_getD sel mode t k

/-- The flags of one level are those of its pairs. -/
theorem combPairs_flags (sel : Nat) (mode : RMode) : ∀ (xs : List Node1) (n : Nat), xs.length = 2 * n →
    (combPairs sel mode xs).2 = flagsFrom (fun k => (pairOf sel mode (fun l => xs.getD l none) k).2) 0 n
  | [], 0, _ => rfl
  | [_], n, h => by simp only [List.length_cons, List.length_nil] at h; omega
  | a :: b :: t, n + 1, h => by
    have ht : t.length = 2 * n := by simp only [List.length_cons] at h; omega
    rw [combPairs, flagsFrom, flagsFrom_succ_place]
    exact congrArg ((comb sel mode a b).2 ||| ·) (combPairs_flags sel mode t n ht)

theorem combPairs_length (sel : Nat) (mode : RMode) : ∀ (xs : List Node1) (n : Nat), xs.length = 2 * n →
    (combPairs sel mode xs).1.length = n
  | [], n, h => by simp only [List.length_nil] at h; simp only [combPairs, List.length_nil]; omega
  | [_], n, h => by simp only [List.length_cons, List.length_nil] at h; omega
  | a :: b :: t, 0, h => by simp at h
  | a :: b :: t, n + 1, h => by
    have ht : t.length = 2 * n := by simp only [List.length_cons] at h; omega
    rw [combPairs, List.length_cons, combPairs_length sel mode t n ht]

/-- Level `j` of the levels holds the nodes of that height. -/
theorem combTree_level (sel : Nat) (mode : RMode) {j k : Nat} (h : j ≤ k) (xs : List Node1) (i : Nat) :
    ((combTree sel mode k xs).1.getD j []).getD i none = (treeNode sel mode (fun l => xs.getD l none) j (i * 2 ^ j)).1 := by
  induction j generalizing k xs i with
  | zero => cases k <;> simp [combTree, treeNode]
  | succ j ih =>
    obtain ⟨k, rfl⟩ := Nat.exists_eq_succ_of_ne_zero (Nat.ne_of_gt (Nat.lt_of_lt_of_le j.succ_pos h))
    have hplace : i * 2 ^ (j + 1) = 2 * (i * 2 ^ j) := by ring
    rw [hplace, (treeNode_pairs sel mode _ j (i * 2 ^ j)).1, combTree, List.getD_cons_succ, ih (Nat.le_of_succ_le_succ h)]
    simp only [combPairs_getD]

/-- The flags of all levels are those of the root's tree. -/
theorem combTree_flags (sel : Nat) (mode : RMode) (k : Nat) (xs : List Node1) (h : xs.length = 2 ^ k) :
    (combTree sel mode k xs).2 = (treeNode sel mode (fun l => xs.getD l none) k 0).2 := by
  induction k generalizing xs with
  | zero => rfl
  | succ k ih =>
    have hlen : xs.length = 2 * 2 ^ k := h.trans (by ring)
    rw [combTree, (treeNode_pairs sel mode _ k 0).2]
    dsimp only
    rw [ih _ (combPairs_length sel mode xs _ hlen), combPairs_flags sel mode xs _ hlen]
    simp only [combPairs_getD]

theorem combTree_length (sel : Nat) (mode : RMode) (k : Nat) (xs : List Node1) : (combTree sel mode k xs).1.length = k + 1 := by
  induction k generalizing xs with
  | zero => rfl
  | succ k ih => simp [combTree, ih]

theorem leaves_getD (c : Ctx) (a l : Nat) : (c.leaves a).getD l none = c.leaf a l := by
  unfold Ctx.leaves Ctx.leaf
  by_cases hl : l < 64
  · simp [hl]
  · simp [hl, BitVec.getLsbD_of_ge _ _ (Nat.le_of_not_lt hl)]

/-- A reduction gives the root of the tree over the lanes of M. -/
theorem redRoot_eq (c : Ctx) (sel a : Nat) : c.redRoot sel a = treeNode sel c.mode (c.leaf a) 6 0 := by
  have hlast : (combTree sel c.mode 6 (c.leaves a)).1.getLastD [] = (combTree sel c.mode 6 (c.leaves a)).1.getD 6 [] := by
    rw [List.getLastD_eq_getLast?, List.getLast?_eq_getElem?, combTree_length, List.getD_eq_getElem?_getD]
  have hroot := combTree_level sel c.mode (Nat.le_refl 6) (c.leaves a) 0
  have hflags := combTree_flags sel c.mode 6 (c.leaves a) (by simp [Ctx.leaves])
  simp only [leaves_getD, Nat.zero_mul] at hroot hflags
  unfold Ctx.redRoot
  dsimp only
  refine Prod.ext ?_ hflags
  dsimp only
  rw [hlast, ← hroot]
  cases (combTree sel c.mode 6 (c.leaves a)).1.getD 6 [] <;> rfl

/-- A lane's scan combines the nodes that R98 names: below height `j` each stands at a multiple of its width. -/
theorem scanLane_eq (c : Ctx) (sel a n : Nat) {j pos : Nat} (hj : j ≤ 7) (hpos : 2 ^ j ∣ pos) (acc : Node1 × Flags) :
    scanLane sel c.mode (combTree sel c.mode 6 (c.leaves a)).1 n j pos acc = scanNodes sel c.mode (c.leaf a) n j pos acc := by
  induction j generalizing pos acc with
  | zero => rfl
  | succ j ih =>
    have hdvd : 2 ^ j ∣ pos := (pow_dvd_pow 2 (Nat.le_succ j)).trans hpos
    have hnode : ((combTree sel c.mode 6 (c.leaves a)).1.getD j []).getD (pos / 2 ^ j) none = (treeNode sel c.mode (c.leaf a) j pos).1 := by
      rw [combTree_level sel c.mode (by omega), Nat.div_mul_cancel hdvd]
      simp only [leaves_getD]
    rw [scanLane, scanNodes]
    dsimp only
    rw [hnode, ih (by omega) (hdvd.add (dvd_refl _)), ih (by omega) hdvd]

theorem scanOf_eq (c : Ctx) (sel a l : Nat) : c.scanOf sel a l = scanNodes sel c.mode (c.leaf a) (l + 1) 7 0 (none, 0) :=
  scanLane_eq c sel a (l + 1) (Nat.le_refl 7) (dvd_zero _) (none, 0)

/-- Settles O15: the levels of the list are the tree's; that a scan's combinations raise flags in lanes of M alone is the model's
choice (log 109). -/
theorem reductions : Obligations.Reductions := by
  intro i a d
  refine ⟨?_, ?_, ?_⟩
  · exact (crossOp_crossLane _ d 1 _ _ _ (exec_redx i a d) fun _ _ => rfl).congr
      (fun c _ => by rw [redRoot_eq]; rfl) (fun _ _ => rfl) (fun c => by rw [redRoot_eq])
  · exact (crossOp_crossLane _ d 2 _ _ _ (exec_redxi i a d) fun _ _ => rfl).congr
      (fun c _ => by rw [redRoot_eq]; rfl) (fun _ _ => rfl) (fun c => by rw [redRoot_eq])
  · refine (crossOp_crossLane _ d 1 _ _ _ (exec_scan i a d) fun _ _ => rfl).congr
      (fun c l => by rw [scanOf_eq]; rfl) (fun _ _ => rfl) (fun c => ?_)
    have hroot : (combTree i.toNat c.mode 6 (c.leaves a.toNat)).2 = (treeNode i.toNat c.mode (c.leaf a.toNat) 6 0).2 :=
      congrArg Prod.snd (redRoot_eq c i.toNat a.toNat)
    simp only [hroot, scanOf_eq]

end Sys2Proof.Machine
end

section
namespace Sys2Proof.Machine

/-! ### The reservation table (R244, R245, R247, R287) -/

theorem earlier_eq_nil {s : State} {cl : Nat} {k : MCmd}
    (h : ∀ x ∈ (s.meng cl).table, x.blk = k.blk → x.kind ≠ .acfree → x.tile = k.tile → k.id ≤ x.id) : s.earlier cl k = [] := by
  refine List.filter_eq_nil_iff.2 fun x hx => ?_
  simp only [Bool.and_eq_true, beq_iff_eq, bne_iff_ne, decide_eq_true_eq]
  rintro ⟨⟨⟨hb, hk⟩, ht⟩, hid⟩
  exact Nat.not_lt.2 (h x hx hb hk ht) hid

/-- A pass that may be granted is one that the grant considers, and no other is. -/
theorem grantable_iff {s : State} {cl : Nat} {k : MCmd} : Grantable s cl k ↔
    k ∈ (s.meng cl).table.filter (fun k => k.kind.isPass && k.paused.isNone && (s.earlier cl k).isEmpty && (s.cmdTile k).isSome &&
      (kget s.blocks k.blk).any (fun b => !b.tileStop)) := by
  have hearlier : s.earlier cl k = [] ↔
      ∀ x ∈ (s.meng cl).table, x.blk = k.blk → x.kind ≠ .acfree → x.tile = k.tile → k.id ≤ x.id := by
    refine ⟨fun h x hx hb hk ht => Nat.not_lt.1 fun hid => ?_, earlier_eq_nil⟩
    exact List.filter_eq_nil_iff.1 h x hx (by simp [hb, hk, ht, hid])
  have hstop : (kget s.blocks k.blk).any (fun b => !b.tileStop) = true ↔ ∃ b, kget s.blocks k.blk = some b ∧ b.tileStop = false := by
    cases kget s.blocks k.blk <;> simp
  rw [List.mem_filter, Bool.and_eq_true, Bool.and_eq_true, Bool.and_eq_true, Bool.and_eq_true, Option.isNone_iff_eq_none,
    List.isEmpty_iff, hearlier, hstop, Grantable]
  tauto

/-- The pass of highest priority is granted, of equal ones the oldest (R244, R287). -/
theorem execPassGrant_grants {s : State} {cl : Nat} {k : MCmd} (hfree : ∀ x ∈ (s.meng cl).table, x.granted = false)
    (hk : Grantable s cl k)
    (hfirst : ∀ x, Grantable s cl x → x ≠ k → x.prio < k.prio ∨ (x.prio = k.prio ∧ k.id < x.id))
    (hbound : ∀ x ∈ (s.meng cl).table, x.prio ≤ 7 ∧ x.id < 2 ^ 64) :
    ∃ t, exec (.passGrant cl) s = .next t ∧ TableIs { s with launches := t.launches } t cl { k with granted := true } := by
  have hany : (s.meng cl).table.any (·.granted) = false := List.any_eq_false.2 fun x hx => by simp [hfree x hx]
  have hbest := leastBy_strict (fun k : MCmd => (7 - k.prio) * 2 ^ 64 + k.id) _ k (grantable_iff.1 hk) fun x hx hne => by
    have hx := grantable_iff.2 hx
    have := hbound x hx.1
    have := hbound k hk.1
    rcases hfirst x hx hne with h | h <;> omega
  refine ev_intro _ (exec_passGrant cl s) fun t ht => ?_
  simp only [hany, hbest, Bool.false_eq_true, if_false] at ht
  obtain ⟨ls, hls⟩ := bumpBy_eq (s.putMcmd cl { k with granted := true }) ((kget s.blocks k.blk).elim 0 (·.launch))
    ((kget s.blocks k.blk).elim 0 (·.core)) 0x09 1
  obtain ⟨-, htable, hothers⟩ := tableIs_put s cl { k with granted := true }
  rw [ht, State.bump, hls]
  exact ⟨rfl, htable, hothers⟩

/-- A fetched element is an operand, with the highest level of its bytes (R244, R325). -/
theorem execOperandFetch_fetches {s s1 : State} {cl cmd which k va n : Nat} {c : MCmd} {p : Who} {bs : List PByte}
    (hc : s.mcmd cl cmd = some c) (hneeds : c.needs which k = some (va, n)) (hp : s.who c.u = some p) (hpaused : c.paused = none)
    (hpass : c.kind.isPass = true) (hsess : s.sess p.part < 3) (hin : isOutside bs = false)
    (hcheck : s.unitCheckRej c.rejected [.fetch cl] p 0x14 .load va n = (s1, .ok bs)) :
    ∃ t, exec (.operandFetch cl cmd which k) s = .next t ∧
      TableIs s1 t cl (c.putFetch which k (natLE (engineBytes s1 bs)) (bs.foldl (fun m b => max m b.lev) 0)) := by
  refine ev_intro _ (exec_operandFetch cl cmd which k s) fun t ht => ?_
  have hopen : decide (3 ≤ s.sess p.part) = false := decide_eq_false (by omega)
  simp only [hc, hneeds, hp, hpaused, hpass, hopen, hcheck, unitRead_in _ _ _ _ _ hin, Option.isSome_none, Bool.not_true,
    Bool.or_self, Bool.false_eq_true, if_false] at ht
  rw [ht]
  exact tableIs_put ..

/-- An arrival that has been made ends its command (R247). -/
theorem execMpostArrival_finishes {s s1 : State} {cl cmd : Nat} {c : MCmd} {p : Who} (hc : s.mcmd cl cmd = some c)
    (hp : s.who c.u = some p) (hkind : c.kind = .mpost) (hpaused : c.paused = none) (hearlier : s.earlier cl c = [])
    (harrive : s.arriveLev c.rejected [.cluster cl] p c.id c.addr c.cnt c.lev = (s1, none)) :
    ∃ t, exec (.mpostArrival cl cmd) s = .next t ∧ MFinished s1 t cl c := by
  refine ev_intro _ (exec_mpostArrival cl cmd s) fun t ht => ?_
  simp only [hc, Option.bind_some, hp, hkind, hpaused, hearlier, harrive, ne_eq, not_true_eq_false, Option.isSome_none,
    Bool.false_eq_true, List.isEmpty_nil, Bool.not_true, or_self, if_false] at ht
  rw [ht]
  exact mfinish_spec ..

/-! ### A chunk (R99, R241, R245) -/

/-- One element of a tile takes its chunk; the old one stays for the reads that begin meanwhile. -/
def Tile.chunkStep (f : Nat → Nat → BitVec 40 → BitVec 40) (t : Tile) (x : Nat × Nat) : Tile :=
  { t.set x.1 x.2 (f x.1 x.2 (t.at_ x.1 x.2)) with back := kput t.back (128 * x.1 + x.2) (t.at_ x.1 x.2) }

/-- What a pass makes of an element: +0 for `mzero`, the chunk otherwise (R99, R246). -/
def MCmd.elemAfter (c : MCmd) (i j : Nat) (old : BitVec 40) : BitVec 40 := if c.kind = .mzero then 0 else c.chunk i j old

/-- The elements that a chunk keeps aside are no elements of the tile. -/
theorem chunkSteps_data (f : Nat → Nat → BitVec 40 → BitVec 40) (L : List (Nat × Nat)) {t u : Tile} (h : t.data = u.data) :
    (L.foldl (Tile.chunkStep f) t).data = (L.foldl (fun (t : Tile) x => t.set x.1 x.2 (f x.1 x.2 (t.at_ x.1 x.2))) u).data := by
  induction L generalizing t u with
  | nil => exact h
  | cons x r ih =>
    refine ih ?_
    simp only [Tile.chunkStep, Tile.set, Tile.at_, h]

/-- After the cells of a sub-block have taken their chunk, they hold it and every other element is as it was. -/
theorem chunkSteps_at (f : Nat → Nat → BitVec 40 → BitVec 40) (c : MCmd) {sb : Nat} (hsb : sb < 256) {t x : Tile} (h : t.data = x.data)
    {i j : Nat} (hi : i < 128) (hj : j < 128) :
    ((c.cells sb).foldl (Tile.chunkStep f) t).at_ i j =
      if i / 8 = sb / 16 ∧ j / 8 = sb % 16 ∧ (c.kind = .mzero ∨ (i < c.m ∧ j < c.n)) then f i j (x.at_ i j) else x.at_ i j := by
  obtain ⟨hnodup, hcol⟩ := cells_nodup c sb
  have hat := cells_fold f (c.cells sb) hnodup hcol x i j hj
  simp only [mem_cells c sb i j hi hj hsb] at hat
  rw [← hat]
  exact congrArg (sget 0 · (128 * i + j)) (chunkSteps_data f (c.cells sb) h)

/-- The tile after a sub-block of the granted pass has taken its chunk (R241). -/
def MCmd.chunkTile (c : MCmd) (x : Tile) (sb : Nat) (last : Bool) : Tile :=
  let t := (c.cells sb).foldl (Tile.chunkStep c.elemAfter) (if c.sub.isEmpty then { x with back := [], readers := [] } else x)
  { t with level := if c.kind = .mzero then (if last then 0 else x.level) else max x.level c.lev,
           back := if last && t.readers.isEmpty then [] else t.back }

theorem chunkTile_at (c : MCmd) (x : Tile) {sb : Nat} (hsb : sb < 256) (last : Bool) {i j : Nat} (hi : i < 128) (hj : j < 128) :
    (c.chunkTile x sb last).at_ i j =
      if i / 8 = sb / 16 ∧ j / 8 = sb % 16 ∧ (c.kind = .mzero ∨ (i < c.m ∧ j < c.n))
        then (if c.kind = .mzero then 0 else c.chunk i j (x.at_ i j)) else x.at_ i j :=
  chunkSteps_at c.elemAfter c hsb (by split <;> rfl) hi hj

/-- The chunk of sub-block `sb` is the pass's last: every other one is done or has no element. -/
def MCmd.lastChunk (c : MCmd) (sb : Nat) : Bool := (List.range 256).all (fun k => (sb :: c.sub).contains k || (c.cells k).isEmpty)

theorem lastChunk_iff (c : MCmd) (sb : Nat) : c.lastChunk sb = true ↔ ∀ k, k < 256 → k ≠ sb → k ∉ c.sub → c.cells k = [] := by
  simp only [MCmd.lastChunk, List.all_eq_true, List.mem_range, Bool.or_eq_true, List.contains_iff_mem, List.mem_cons,
    List.isEmpty_iff]
  refine forall₂_congr fun k _ => ?_
  tauto

/-- A sub-block of the granted pass takes its chunk whole; with the last one the pass ends. -/
theorem execChunkApplied_eq {s : State} {cl sb : Nat} {c : MCmd} {b : Block} {x : Tile}
    (hc : (s.meng cl).table.find? (·.granted) = some c) (hb : kget s.blocks c.blk = some b) (hx : kget b.tiles c.tile = some x)
    (hspilled : x.spilled = false) (hpaused : c.paused = none) (hsb : sb < 256) (hnew : sb ∉ c.sub) (hfetched : c.fetched = true) :
    exec (.chunkApplied cl sb) s =
      let s1 := s.modBlock c.blk (fun b => { b with tiles := kput b.tiles c.tile (c.chunkTile x sb (c.lastChunk sb)) })
      .next (if c.lastChunk sb then s1.mfinish cl c else s1.putMcmd cl { c with sub := sb :: c.sub }) := by
  have htile : s.cmdTile c = some x := by simp [State.cmdTile, hb, hx, hspilled]
  have hopen : (c.paused.isSome || decide (sb ≥ 256) || c.sub.contains sb || !c.fetched) = false := by
    simp [hpaused, hsb, hnew, hfetched]
  rw [exec_chunkApplied, execChunkApplied, hc]
  dsimp only
  rw [htile]
  dsimp only
  rw [hopen]
  rfl

/-- The elements of the tile, the other tiles, and the table after a chunk (R241, R245). -/
theorem execChunkApplied_applies {s : State} {cl sb : Nat} {c : MCmd} {b : Block} {x : Tile}
    (hc : (s.meng cl).table.find? (·.granted) = some c) (hb : kget s.blocks c.blk = some b) (hx : kget b.tiles c.tile = some x)
    (hspilled : x.spilled = false) (hpaused : c.paused = none) (hsb : sb < 256) (hnew : sb ∉ c.sub) (hfetched : c.fetched = true) :
    ∃ t b' y, exec (.chunkApplied cl sb) s = .next t ∧ kget t.blocks c.blk = some b' ∧ kget b'.tiles c.tile = some y ∧
      (∀ k, k ≠ c.tile → kget b'.tiles k = kget b.tiles k) ∧
      (∀ i j, i < 128 → j < 128 → y.at_ i j = if i / 8 = sb / 16 ∧ j / 8 = sb % 16 ∧ (c.kind = .mzero ∨ (i < c.m ∧ j < c.n))
        then (if c.kind = .mzero then 0 else c.chunk i j (x.at_ i j)) else x.at_ i j) ∧
      ((∃ k, k < 256 ∧ k ≠ sb ∧ k ∉ c.sub ∧ c.cells k ≠ []) → TableIs { s with blocks := t.blocks } t cl { c with sub := sb :: c.sub }) ∧
      ((∀ k, k < 256 → k ≠ sb → k ∉ c.sub → c.cells k = []) → MFinished { s with blocks := t.blocks } t cl c) := by
  obtain ⟨s1, hs1⟩ : ∃ s1, s1 = s.modBlock c.blk
    (fun b => { b with tiles := kput b.tiles c.tile (c.chunkTile x sb (c.lastChunk sb)) }) := ⟨_, rfl⟩
  have hblock : kget s1.blocks c.blk = some { b with tiles := kput b.tiles c.tile (c.chunkTile x sb (c.lastChunk sb)) } := by
    rw [hs1]
    exact (kget_kmod_self ..).trans (by rw [hb]; rfl)
  have hs1' : { s with blocks := s1.blocks } = s1 := by rw [hs1]; rfl
  have hexec := execChunkApplied_eq hc hb hx hspilled hpaused hsb hnew hfetched
  simp only [← hs1] at hexec
  have htiles := fun k (hk : k ≠ c.tile) => kget_kput_ne b.tiles (c.chunkTile x sb (c.lastChunk sb)) hk
  have hat := fun i j (hi : i < 128) (hj : j < 128) => chunkTile_at c x hsb (c.lastChunk sb) hi hj
  by_cases hlast : c.lastChunk sb = true
  · have hall := (lastChunk_iff c sb).1 hlast
    have hfin := mfinish_spec s1 cl c
    have hblocks : (s1.mfinish cl c).blocks = s1.blocks := by rw [hfin.1]
    rw [if_pos hlast] at hexec
    refine ⟨_, _, _, hexec, hblocks ▸ hblock, kget_kput_self .., htiles, hat, ?_, fun _ => ?_⟩
    · rintro ⟨k, hk, hne, hsub, hcells⟩
      exact absurd (hall k hk hne hsub) hcells
    · rw [hblocks, hs1']
      exact hfin
  · rw [if_neg hlast] at hexec
    refine ⟨_, _, _, hexec, hblock, kget_kput_self .., htiles, hat, fun _ => ?_, fun h => absurd ((lastChunk_iff c sb).2 h) hlast⟩
    show TableIs { s with blocks := s1.blocks } _ cl _
    rw [hs1']
    exact tableIs_put ..

end Sys2Proof.Machine
end

section
namespace Sys2Proof.Machine

/-! ### A drain (R248) -/

/-- Elements written to memory one by one enter the merge stage in their order. -/
theorem unitWrites_mem {p : Who} (id wid : Nat) (l : Option Nat) (f : Nat → Nat → List Byte) (os : List (Nat × Nat × List PByte)) (s : State)
    (hin : ∀ o ∈ os, isOutside o.2.2 = false ∧ ∀ b ∈ o.2.2, ∃ pa, b.loc = .mem pa) :
    os.foldl (fun (st : State) o => st.unitWrite p id (128 * o.1 + o.2.1) wid l o.2.2 (f o.1 o.2.1)) s =
      { s with ms := s.ms ++ os.flatMap (fun o => s.stagedBytes wid l o.2.2 (f o.1 o.2.1)) } := by
  induction os generalizing s with
  | nil => simp
  | cons o r ih =>
    obtain ⟨hout, hmem⟩ := hin o (List.mem_cons_self ..)
    rw [List.foldl_cons, unitWrite_mem _ _ _ _ _ _ _ _ hout hmem, ih _ fun o ho => hin o (List.mem_cons_of_mem _ ho),
      List.flatMap_cons, ← List.append_assoc]
    rfl

/-- A drain with `zero` set zeroes its tile (R248). -/
def State.drainZeroed (s : State) (c : MCmd) : State :=
  if c.zero = true then s.modBlock c.blk (fun b => { b with tiles := kmod b.tiles c.tile (fun t => { t with data := [], level := 0 }) }) else s

/-- A drain that nothing holds: its context and tile are there, it is not paused, it is the first of its block on the tile, and the session's
ports are open (R244, R248, R330). -/
structure Draining (s : State) (cl cmd : Nat) (c : MCmd) (p : Who) (x : Tile) : Prop where
  command : s.mcmd cl cmd = some c
  context : s.who c.u = some p
  tile : s.cmdTile c = some x
  kind : c.kind = .mdrain
  running : c.paused = none
  first : s.earlier cl c = []
  session : s.sess p.part < 3

section
variable {s : State} {cl cmd : Nat} {c : MCmd} {p : Who} {x : Tile}

/-- A drain that nothing holds takes its next step: the writes, the absmax word, or the end. -/
theorem execTileDrain_eq (h : Draining s cl cmd c p x) :
    exec (.tileDrain cl cmd) s = .next (if c.sub.isEmpty then s.drainWrites cl p c x else if !s.unitApplied c.id (768 + cl) then s
      else if !c.sub.contains 2 then s.drainAbsmax cl p c x.level else s.drainEnd cl p c) := by
  have hopen : ¬(c.kind ≠ .mdrain ∨ c.paused.isSome ∨ !(s.earlier cl c).isEmpty ∨ 3 ≤ s.sess p.part) := by
    simp [h.kind, h.running, h.first, Nat.not_le.2 h.session]
  rw [exec_tileDrain, execTileDrain, h.command, Option.bind_some, h.context]
  dsimp only
  rw [h.tile]
  dsimp only
  rw [if_neg hopen]

/-- The writes of a drain whose elements all pass: each goes to the merge stage, and the absmax pattern is kept. -/
theorem drainWrites_stages {s1 : State} {os : List (Nat × Nat × List PByte)} (hlev : s.drainLevel cl p c x.level = none)
    (hchecks : s.drainChecks cl p c c.outs = (s1, os, none))
    (hin : ∀ o ∈ os, isOutside o.2.2 = false ∧ ∀ b ∈ o.2.2, ∃ pa, b.loc = .mem pa) :
    s.drainWrites cl p c x =
      State.putMcmd { s1 with ms := s1.ms ++ os.flatMap (fun o => s1.stagedBytes (768 + cl) ((kget s.blocks c.blk).map (·.launch)) o.2.2
        (bytesLE (fmtSize c.out.fmt) (c.drained (x.at_ o.1 o.2.1)))) } cl
        { c with sub := [1], fa := [(0, absPattern c.out.fmt (os.map (fun o => c.drained (x.at_ o.1 o.2.1))))] } := by
  have hzip : os.zip (os.map (fun o => c.drained (x.at_ o.1 o.2.1))) = os.map (fun o => (o, c.drained (x.at_ o.1 o.2.1))) := by
    simpa using List.zip_map' (f := id) (g := fun o : Nat × Nat × List PByte => c.drained (x.at_ o.1 o.2.1)) (l := os)
  rw [State.drainWrites, hlev]
  dsimp only
  rw [hchecks]
  dsimp only
  rw [hzip, List.foldl_map,
    ← unitWrites_mem c.id (768 + cl) _ (fun i j => bytesLE (fmtSize c.out.fmt) (c.drained (x.at_ i j))) os s1 hin]

/-- The first step of a drain (R248). -/
theorem execTileDrain_writes {s1 : State} {os : List (Nat × Nat × List PByte)} (h : Draining s cl cmd c p x)
    (hsub : c.sub = []) (hlev : s.drainLevel cl p c x.level = none) (hchecks : s.drainChecks cl p c c.outs = (s1, os, none))
    (hin : ∀ o ∈ os, isOutside o.2.2 = false ∧ ∀ b ∈ o.2.2, ∃ pa, b.loc = .mem pa) :
    ∃ t c', exec (.tileDrain cl cmd) s = .next t ∧ TableIs { s1 with ms := t.ms } t cl c' ∧ c' = { c with sub := [1], fa := c'.fa } ∧
      t.ms = s1.ms ++ os.flatMap (fun o => s1.stagedBytes (768 + cl) ((kget s.blocks c.blk).map (·.launch)) o.2.2
        (bytesLE (fmtSize c.out.fmt) (c.drained (x.at_ o.1 o.2.1)))) := by
  have hexec := execTileDrain_eq h
  rw [if_pos (by simp [hsub]), drainWrites_stages hlev hchecks hin] at hexec
  exact ⟨_, _, hexec, tableIs_put .., rfl, rfl⟩

/-- A drain without absmax goes past its second step when its writes are applied. -/
theorem execTileDrain_noAbsmax (h : Draining s cl cmd c p x) (hsub : c.sub ≠ []) (h2 : 2 ∉ c.sub)
    (happlied : s.unitApplied c.id (768 + cl) = true) (hamax : c.amax = false) :
    ∃ t, exec (.tileDrain cl cmd) s = .next t ∧ TableIs s t cl { c with sub := 2 :: c.sub } := by
  have hexec := execTileDrain_eq h
  rw [if_neg (by simpa using hsub), if_neg (by simp [happlied]), if_pos (by simp [h2]), State.drainAbsmax, if_pos (by simp [hamax])] at hexec
  exact ⟨_, hexec, tableIs_put ..⟩

/-- The second step of a drain raises the absmax word (R101, R248). -/
theorem execTileDrain_absmax {s1 : State} {bs : List PByte} (h : Draining s cl cmd c p x) (hsub : c.sub ≠ []) (h2 : 2 ∉ c.sub)
    (happlied : s.unitApplied c.id (768 + cl) = true) (hamax : c.amax = true) (hvoid : c.void = false)
    (hcheck : s.unitCheckRej c.rejected [.cluster cl] p 0x14 .atomic c.absmax 4 = (s1, .ok bs)) (hin : isOutside bs = false)
    (hlev : ∀ b ∈ bs, x.level ≤ b.lev) :
    ∃ t, exec (.tileDrain cl cmd) s = .next t ∧
      TableIs (s1.rmw p c.u c.scope bs (fun old => max old (sget 0 c.fa 0))).1 t cl { c with sub := 2 :: c.sub } := by
  have hlow : bs.find? (fun b => decide (x.level > b.lev)) = none := List.find?_eq_none.2 fun b hb => by simpa using hlev b hb
  have hexec := execTileDrain_eq h
  rw [if_neg (by simpa using hsub), if_neg (by simp [happlied]), if_pos (by simp [h2]), State.drainAbsmax,
    if_neg (by simp [hamax, hvoid])] at hexec
  simp only [hcheck, hlow, hin, Bool.false_eq_true, if_false] at hexec
  exact ⟨_, hexec, tableIs_put ..⟩

/-- The last step of a drain zeroes the tile and arrives (R248). -/
theorem execTileDrain_ends {s1 : State} (h : Draining s cl cmd c p x) (h2 : 2 ∈ c.sub) (h3 : 3 ∉ c.sub)
    (happlied : s.unitApplied c.id (768 + cl) = true) (hvoid : c.void = false)
    (harrive : (s.drainZeroed c).arriveAt c.rejected [.cluster cl] p c.id c.addr c.cnt = (s1, none)) :
    ∃ t, exec (.tileDrain cl cmd) s = .next t ∧ MFinished s1 t cl c := by
  have hexec := execTileDrain_eq h
  have hzero : (c.zero && !c.void && !c.sub.contains 3) = c.zero := by simp [hvoid, h3]
  have hsub : c.sub.isEmpty = false := List.isEmpty_eq_false_iff.2 (List.ne_nil_of_mem h2)
  rw [State.drainZeroed] at harrive
  rw [hsub, if_neg (by decide), if_neg (by simp [happlied]), if_neg (by simp [h2]), State.drainEnd] at hexec
  simp only [hzero, harrive] at hexec
  exact ⟨_, hexec, mfinish_spec s1 cl { c with sub := 3 :: c.sub }⟩

end

/-! ### The allocator (R242, R243) -/

/-- The old tiles of a block whose request is granted return, whole, and the new ones are fresh. -/
theorem unspill_alloc_get (b : Block) (w : Option Nat) (f n k : Nat) :
    kget (Block.allocTiles { b.unspill with accWait := w } f n).tiles k =
      if f ≤ k ∧ k < f + n then some Tile.fresh else (kget b.tiles k).map (fun x => { x with spilled := false }) := by
  have hold := kget_map b.tiles (fun x : Tile => { x with spilled := false }) k
  rw [allocTiles_get]
  exact congrArg _ hold

/-- ACALLOC_GRANT grants the oldest request when its tiles are free (R243). -/
theorem execAcallocGrant_eq {s : State} {cl blk : Nat} {b : Block} (hhead : (s.accWaiters cl).head? = some (blk, b))
    (hfree : b.reqTiles ≤ s.tilesFree cl) : exec (.acallocGrant cl) s = .next (s.grantAcc blk b) := by
  obtain ⟨r, hr⟩ := List.head?_eq_some_iff.1 hhead
  rw [exec_acallocGrant, execAcallocGrant, hr]
  exact congrArg _ (if_pos hfree)

/-- The tile context of a granted request: the destination holds the first local index, and the entry that waited goes on. -/
theorem grant_wakes {w : Warp} {e : Entry} {r n f : Nat} (hfr : w.frontier = [e]) (hst : e.st = .waiting (.acalloc r n)) :
    let w' := (w.setReg r 0 (BitVec.ofNat 32 f)).wake (fun e => decide (e.st = .waiting (.acalloc r n)))
    w'.reg r 0 = BitVec.ofNat 32 f ∧ (∀ q l, l < 64 → q ≠ r ∨ l ≠ 0 → w'.reg q l = w.reg q l) ∧ Woken w w' (fun x => x = e) := by
  obtain ⟨-, hregs, -, -⟩ := kept_wake (w.setReg r 0 (BitVec.ofNat 32 f)) (fun e => decide (e.st = .waiting (.acalloc r n)))
  refine ⟨?_, fun q l hl hne => ?_, ?_⟩
  · rw [hregs, reg_setReg _ _ (by decide) (by decide), if_pos ⟨rfl, rfl⟩]
  · rw [hregs, reg_setReg _ _ (by decide) hl, if_neg (not_and_or.2 hne)]
  · refine woken_wake (w.setReg r 0 (BitVec.ofNat 32 f)) _ _ fun x hx => ?_
    have hxe : x = e := List.mem_singleton.1 (hfr ▸ hx)
    simp [hxe, hst]

/-- A grant of a block's request: its tiles, and the `acalloc` of its tile context ends with the first local index (R243). -/
theorem execAcallocGrant_grants {s : State} {cl blk : Nat} {b : Block} {r n u : Nat} {w : Warp} {f : Nat} {e : Entry}
    (hhead : (s.accWaiters cl).head? = some (blk, b)) (hfree : b.reqTiles ≤ s.tilesFree cl) (hn : b.accWait = some n)
    (hu : b.tctx = some u) (hf : b.freeRun n = some f) (hw : kget s.warps u = some w) (hfr : w.frontier = [e])
    (hst : e.st = .waiting (.acalloc r n)) :
    ∃ t b' w', exec (.acallocGrant cl) s = .next t ∧ t = { s with warps := t.warps, blocks := t.blocks } ∧ kget t.blocks blk = some b' ∧
      b'.accWait = none ∧ (∀ j, j < n → kget b'.tiles (f + j) = some Tile.fresh) ∧
      (∀ k, k < f ∨ f + n ≤ k → kget b'.tiles k = (kget b.tiles k).map (fun x => { x with spilled := false })) ∧
      (∀ v, v ≠ u → kget t.warps v = kget s.warps v) ∧ kget t.warps u = some w' ∧ w'.reg r 0 = BitVec.ofNat 32 f ∧
      (∀ q l, l < 64 → q ≠ r ∨ l ≠ 0 → w'.reg q l = w.reg q l) ∧ Woken w w' (fun x => x = e) := by
  have hexec := execAcallocGrant_eq hhead hfree
  rw [State.grantAcc, hn, hu] at hexec
  dsimp only at hexec
  rw [hf, Option.getD_some] at hexec
  refine ⟨_, _, _, hexec, rfl, kget_kput_self .., rfl, fun j hj => ?_, fun k hk => ?_, fun v hv => kget_kmod_ne _ _ hv,
    (modWarp_get hw _).trans (by simp only [hfr, List.findSome?_cons, hst]), grant_wakes hfr hst⟩
  · rw [unspill_alloc_get, if_pos (by omega)]
  · rw [unspill_alloc_get, if_neg (by omega)]

/-- A table read under a key is the first entry with the key. -/
theorem find_key {α : Type} (m : KMap α) (k : Nat) : m.find? (fun e => e.1 == k) = (kget m k).map (fun v => (k, v)) := by
  induction m with
  | nil => rfl
  | cons e t ih =>
    obtain ⟨j, v⟩ := e
    by_cases h : j = k
    · simp [kget, h]
    · simp [kget, h, ih]

/-- A save area filled with zeros, word by word: they read zero, and no byte beyond has changed. -/
theorem zeroWords_spec (s : State) (base n : Nat) (hn : n ≤ 16384) :
    let z := (List.range n).foldl (fun (st : State) e => st.setHNat (base + 8 * e) 8 0) s
    (∃ m, z = { s with mem := m }) ∧ (∀ e, e < n → z.hNat (base + 8 * e) 8 = 0) ∧
    ∀ a, a < base ∨ base + 131072 ≤ a → z.hByte a = s.hByte a := by
  have hzeros : (List.range n).foldl (fun (st : State) e => st.setHNat (base + 8 * e) 8 0) s =
      ((List.range n).map (fun e => (e, (0 : BitVec 40)))).foldl (fun (st : State) e => st.setHNat (base + 8 * e.1) 8 e.2.toNat) s := by
    rw [List.foldl_map]
    rfl
  have hnodup : (((List.range n).map (fun e => (e, (0 : BitVec 40)))).map (·.1)).Nodup := by
    rw [List.map_map]
    exact (List.map_id _).symm ▸ List.nodup_range
  obtain ⟨hmem, hword, hframe⟩ := save_spec base _ hnodup s
  rw [← hzeros] at hmem hword hframe
  refine ⟨hmem, fun e he => ?_, hframe fun x hx => ?_⟩
  · rw [hword, List.find?_map, find_range_some n e _ he (by simp) fun j hj => by simp; omega]
    rfl
  · obtain ⟨e, he, rfl⟩ := List.mem_map.1 hx
    exact (List.mem_range.1 he).trans_le hn

/-- A save area after its tile has been stored: its words, and no byte beyond it (R87, R243). -/
theorem saveTiles_single (s : State) (b : Block) {k : Nat} {x : Tile} (htiles : b.tiles = [(k, x)]) (hn : (x.data.map (·.1)).Nodup) :
    (∃ m, s.saveTiles b = { s with mem := m }) ∧
    (∀ e, e < 16384 → (s.saveTiles b).hNat (b.saveBase + 8 * e) 8 = (sget 0 x.data e).toNat) ∧
    ((∀ a ∈ x.data, a.1 < 16384) → ∀ a, a < b.saveBase ∨ b.saveBase + 131072 ≤ a → (s.saveTiles b).hByte a = s.hByte a) := by
  have hsave : s.saveTiles b = x.data.foldl (fun st e => st.setHNat (b.saveBase + 8 * e.1) 8 e.2.toNat)
      ((List.range 16384).foldl (fun st e => st.setHNat (b.saveBase + 8 * e) 8 0) s) := by
    rw [State.saveTiles, htiles]
    rfl
  obtain ⟨⟨m0, h0⟩, hzero, hframe0⟩ := zeroWords_spec s b.saveBase 16384 (Nat.le_refl _)
  obtain ⟨⟨m, h⟩, hword, hframe⟩ := save_spec b.saveBase x.data hn
    ((List.range 16384).foldl (fun st e => st.setHNat (b.saveBase + 8 * e) 8 0) s)
  rw [hsave]
  refine ⟨⟨m, by rw [h, h0]⟩, fun e he => ?_, fun hin a ha => (hframe hin a ha).trans (hframe0 a ha)⟩
  rw [hword, hzero e he, find_key, sget]
  cases kget x.data e <;> rfl

/-- A block whose tiles all stand in its save area. -/
def Block.spillTiles (b : Block) : Block := { b with tiles := b.tiles.map (fun (t : Nat × Tile) => (t.1, { t.2 with spilled := true })) }

/-- The oldest request that fits is granted; a spilled block's not before every older one (R243). -/
def State.grantFitting (s : State) (cl : Nat) : State :=
  ((s.accWaiters cl).find? (fun y => decide (y.2.reqTiles ≤ s.tilesFree cl) &&
    (y.2.spilledTiles == 0 || (s.accWaiters cl).head?.any (fun h => h.1 == y.1)))).elim s (fun y => s.grantAcc y.1 y.2)

/-- Where every holder waits and the oldest request does not fit, the youngest waiting holder is stored, and a request that now fits
is granted. -/
theorem execAccumulatorSpill_eq {s : State} {cl blk : Nat} {b : Block} {b0 : Nat × Block}
    (hhead : (s.accWaiters cl).head? = some b0) (hfull : s.tilesFree cl < b0.2.reqTiles)
    (hall : ∀ z ∈ s.blocks, z.2.core / 4 = cl → 0 < s.tilesHeld z.2 → z.2.accWait.isSome = true)
    (hlast : ((s.accWaiters cl).filter (fun z => decide (0 < s.tilesHeld z.2))).getLast? = some (blk, b)) :
    exec (.accumulatorSpill cl) s = .next (((s.saveTiles b).setBlock blk b.spillTiles).grantFitting cl) := by
  have hholders : (s.blocks.filter (fun b => b.2.core / 4 == cl && decide (0 < s.tilesHeld b.2))).all (fun b => b.2.accWait.isSome) = true := by
    refine List.all_eq_true.2 fun z hz => ?_
    obtain ⟨hmem, hz⟩ := List.mem_filter.1 hz
    rw [Bool.and_eq_true, beq_iff_eq, decide_eq_true_eq] at hz
    exact hall z hmem hz.1 hz.2
  have hsome : (s.accWaiters cl).isEmpty = false := by
    obtain ⟨r, hr⟩ := List.head?_eq_some_iff.1 hhead
    rw [hr]
    rfl
  have hopen : ((s.accWaiters cl).isEmpty || !((s.blocks.filter (fun b => b.2.core / 4 == cl && decide (0 < s.tilesHeld b.2))).all
      (fun b => b.2.accWait.isSome)) || (s.accWaiters cl).head?.any (fun b => decide (b.2.reqTiles ≤ s.tilesFree cl))) = false := by
    rw [hholders, hsome, hhead]
    simp [hfull]
  rw [exec_accumulatorSpill, execAccumulatorSpill]
  dsimp only
  rw [hopen, if_neg (by decide), hlast, State.grantFitting, Block.spillTiles]
  dsimp only
  split
  · rename_i y hy
    rw [hy]
    rfl
  · rename_i hy
    rw [hy]
    rfl

/-- What a spill of a block with one tile leaves in memory and of the block (R87, R243). -/
theorem execAccumulatorSpill_spills {s : State} {cl blk : Nat} {b : Block} {b0 : Nat × Block} {k : Nat} {x : Tile}
    (hhead : (s.accWaiters cl).head? = some b0) (hfull : s.tilesFree cl < b0.2.reqTiles)
    (hall : ∀ z ∈ s.blocks, z.2.core / 4 = cl → 0 < s.tilesHeld z.2 → z.2.accWait.isSome = true)
    (hlast : ((s.accWaiters cl).filter (fun z => decide (0 < s.tilesHeld z.2))).getLast? = some (blk, b))
    (htiles : b.tiles = [(k, x)]) (hn : (x.data.map (·.1)).Nodup) :
    ∃ t, ∃ s1 : State, exec (.accumulatorSpill cl) s = .next t ∧
      s1 = { s with mem := s1.mem, blocks := kput s.blocks blk { b with tiles := [(k, { x with spilled := true })] } } ∧
      (∀ e, e < 16384 → s1.hNat (b.saveBase + 8 * e) 8 = (sget 0 x.data e).toNat) ∧
      ((∀ a ∈ x.data, a.1 < 16384) → ∀ a, a < b.saveBase ∨ b.saveBase + 131072 ≤ a → s1.hByte a = s.hByte a) ∧
      t = s1.grantFitting cl := by
  obtain ⟨⟨m, hm⟩, hword, hframe⟩ := saveTiles_single s b htiles hn
  have hspill : b.spillTiles = { b with tiles := [(k, { x with spilled := true })] } := by
    rw [Block.spillTiles, htiles]
    rfl
  refine ⟨_, (s.saveTiles b).setBlock blk b.spillTiles, execAccumulatorSpill_eq hhead hfull hall hlast, ?_,
    fun e he => hword e he, fun hin a ha => hframe hin a ha, rfl⟩
  rw [hm, hspill]
  rfl

/-- An `acfree` with nothing posted earlier on its tiles frees them (R242). -/
theorem execAcfreeEffect_frees {s : State} {cl cmd : Nat} {c : MCmd} {b : Block} (hc : s.mcmd cl cmd = some c) (hkind : c.kind = .acfree)
    (hb : kget s.blocks c.blk = some b)
    (hfirst : ∀ x ∈ (s.meng cl).table, x.blk = c.blk → x.id < c.id → x.tile ∉ c.tiles) :
    ∃ t b', exec (.acfreeEffect cl cmd) s = .next t ∧ t = { s with blocks := t.blocks, mengs := t.mengs } ∧ kget t.blocks c.blk = some b' ∧
      (∀ v, v ≠ c.blk → kget t.blocks v = kget s.blocks v) ∧ (∀ k, kget b'.tiles k = if k ∈ c.tiles then none else kget b.tiles k) ∧
      (t.meng cl).table = (s.meng cl).table.filter (fun x => x.id != cmd) ∧ ∀ d, d ≠ cl → t.meng d = s.meng d := by
  have hid : c.id = cmd := by simpa using List.find?_some hc
  have hany : (s.meng cl).table.any (fun x => x.blk == c.blk && decide (x.id < c.id) && c.tiles.contains x.tile) = false := by
    refine List.any_eq_false.2 fun x hx => ?_
    simp only [Bool.and_eq_true, beq_iff_eq, decide_eq_true_eq, List.contains_iff_mem]
    exact fun h => hfirst x hx h.1.1 h.1.2 h.2
  have hexec := exec_acfreeEffect cl cmd s
  simp only [execAcfreeEffect, hc, hkind, hb, hany, ne_eq, not_true_eq_false, Option.isNone_some, Bool.false_eq_true, or_self,
    if_false] at hexec
  refine ⟨_, _, hexec, rfl, (kget_kmod_self ..).trans (by rw [hb]; rfl), fun v hv => kget_kmod_ne _ _ hv, fun k => kdel_fold .., ?_, fun d hd => ?_⟩
  · rw [meng_setMeng, if_pos rfl, ← hid]
  · rw [meng_setMeng, if_neg hd]
    rfl

/-- A tile context that has not reached a `ppoint` in time is taken between two passes (R249). -/
theorem execPreemptionTimeout_takes {s : State} {blk : Nat} {b : Block} {l : Launch} (hb : kget s.blocks blk = some b)
    (hl : kget s.launches b.launch = some l) (hpreempt : b.preempt = true) (hgrace : s.sess l.part ≠ 2)
    (hdue : s.sess l.part = 3 ∨ b.preemptAt + 2000000 ≤ s.timebase)
    (hbetween : ∀ e ∈ s.mengs, ∀ k ∈ e.2.table, k.blk = blk → k.granted = false) :
    exec (.preemptionTimeout blk) s = .next (s.setBlock blk { b with tileStop := true }) := by
  have hany : s.mengs.any (fun e => e.2.table.any (fun k => k.blk == blk && k.granted)) = false := by
    refine List.any_eq_false.2 fun e he => ?_
    rw [Bool.not_eq_true, List.any_eq_false]
    refine fun k hk => ?_
    simp only [Bool.and_eq_true, beq_iff_eq]
    exact fun h => by simp [hbetween e he k hk h.1] at h
  rw [exec_preemptionTimeout, execPreemptionTimeout, hb]
  dsimp only
  rw [hl]
  dsimp only [Option.elim_some]
  exact congrArg _ (if_pos ⟨hpreempt, hgrace, hdue, by rw [hany]; rfl⟩)

end Sys2Proof.Machine
end

section
namespace Sys2Proof.Machine

/-- Settles O46, step by step; that a drain takes its writes, the absmax word and the end as separate steps, products with constant
matrices, and the tiles a block with OVERCOMMIT holds are the model's choices (log 52, 61, 114). -/
theorem matrixEvents : Obligations.MatrixEvents := by
  exact ⟨fun s cl k hfree hk hfirst hbound _ => execPassGrant_grants hfree hk hfirst hbound,
    fun s cl cmd which k c p va n s1 bs hc hneeds hp hpaused hpass hsess hin hcheck =>
      execOperandFetch_fetches hc hneeds hp hpaused hpass hsess hin hcheck,
    fun s cl sb c b x hc hb hx hspilled hpaused hsb hnew hfetched _ _ =>
      execChunkApplied_applies hc hb hx hspilled hpaused hsb hnew hfetched,
    fun s cl cmd c p s1 hc hp hkind hpaused hearlier harrive => execMpostArrival_finishes hc hp hkind hpaused hearlier harrive,
    fun s cl cmd c p x s1 os hc hp hx hkind hpaused hearlier hsess hsub hlev hchecks hin =>
      execTileDrain_writes ⟨hc, hp, hx, hkind, hpaused, hearlier, hsess⟩ hsub hlev hchecks hin,
    fun s cl cmd c p x hc hp hx hkind hpaused hearlier hsess hsub h2 happlied hamax =>
      execTileDrain_noAbsmax ⟨hc, hp, hx, hkind, hpaused, hearlier, hsess⟩ hsub h2 happlied hamax,
    fun s cl cmd c p x s1 bs hc hp hx hkind hpaused hearlier hsess hsub h2 happlied hamax hvoid hcheck hin hlev =>
      execTileDrain_absmax ⟨hc, hp, hx, hkind, hpaused, hearlier, hsess⟩ hsub h2 happlied hamax hvoid hcheck hin hlev,
    fun s cl cmd c p x s1 hc hp hx hkind hpaused hearlier hsess _ h2 h3 happlied hvoid harrive =>
      execTileDrain_ends ⟨hc, hp, hx, hkind, hpaused, hearlier, hsess⟩ h2 h3 happlied hvoid harrive,
    fun s cl blk b r n u w f e hhead hfree hn hu hf hw hfr hst _ _ => execAcallocGrant_grants hhead hfree hn hu hf hw hfr hst,
    fun s cl blk b b0 k x hhead hfull hall hlast htiles hn => execAccumulatorSpill_spills hhead hfull hall hlast htiles hn,
    fun s cl cmd c b hc hkind hb hfirst => execAcfreeEffect_frees hc hkind hb hfirst,
    fun s blk b l hb hl hpreempt hgrace hdue hbetween =>
      ⟨_, execPreemptionTimeout_takes hb hl hpreempt hgrace hdue hbetween, rfl⟩⟩

end Sys2Proof.Machine
end

section
/-! The statements of the memory model (chapter 05): stores, atomics, prefetches, fences, barriers, and the steps of pages and engines. -/

namespace Sys2Proof.Machine

/-! ### Stores (R109, R117, R189, R191, R193, R194) -/

/-- The data of a store are as many bytes as it is wide: a power of two up to 16. -/
theorem dataOf_length (d : BitVec 7) (j : Fin 5) (c : Ctx) (l : Nat) : (dataOf d (2 ^ j.val) c l).length = 2 ^ j.val := by
  fin_cases j <;> simp [dataOf, List.range_succ, bytesLE_length]

/-- An instruction that stores the low bytes of its data register stores them, and into the own scratchpad without further checks. -/
theorem storeOp_holds {i : Instr} {d : BitVec 7} {n : Nat} {f : StoreForm} (j : Fin 5) (he : ∀ s, exec i s = storeOp i s d n f)
    (hb : f.bytes = 2 ^ j.val) (hf : f.data = dataOf d f.bytes) : Stores i d n f ∧ StoresScratch i d n f := by
  refine ⟨storeOp_stores i d n f he, storeOp_scratch i d n f he ?_ fun c l => ?_⟩
  · exact hb ▸ pow_dvd_pow 2 (by omega)
  · rw [hf, hb]
    exact dataOf_length d j c l

/-- Settles O24, form by form. -/
theorem stores : Obligations.Stores := by
  intro b a d i k sc
  exact ⟨storeOp_holds 0 (exec_stB b a d) rfl rfl, storeOp_holds 1 (exec_stH b a d) rfl rfl, storeOp_holds 2 (exec_stW b a d) rfl rfl,
    storeOp_holds 3 (exec_stD b a d) rfl rfl, storeOp_holds 4 (exec_stQ b a d) rfl rfl, storeOp_holds 2 (exec_stiW i a d) rfl rfl,
    storeOp_holds 3 (exec_stiD i a d) rfl rfl, storeOp_holds 4 (exec_stiQ i a d) rfl rfl, storeOp_holds 2 (exec_stmW k a d) rfl rfl,
    storeOp_holds 3 (exec_stmD k a d) rfl rfl, storeOp_holds 4 (exec_stmQ k a d) rfl rfl, storeOp_holds 2 (exec_strelW sc a d) rfl rfl,
    storeOp_holds 3 (exec_strelD sc a d) rfl rfl⟩

/-! ### Atomics (R114, R195) -/

/-- An instruction that is an atomic on a word or a doubleword performs it, in the own scratchpad unconditionally. -/
theorem atomOp_holds {i : Instr} {b a d : BitVec 7} {n : Nat} {f : AtomForm} (he : ∀ s, exec i s = atomOp i s b a d n f)
    (hb : f.bytes = 4 * n) (hn : n = 1 ∨ n = 2) : Atomics i b a d n f ∧ AtomicsScratch i b a d n f := by
  refine ⟨atomOp_atomics i b a d n f he hb, atomOp_scratch i b a d n f he hb ?_ ?_⟩
  · rw [hb]; rcases hn with rfl | rfl <;> decide
  · omega

theorem minBy_keyS (o v : Word) : minBy keyS o v = if v.slt o then v else o :=
  if_congr BitVec.slt_iff_toInt_lt.symm rfl rfl
theorem minBy_keyU (o v : Word) : minBy keyU o v = if v < o then v else o :=
  if_congr Int.ofNat_lt rfl rfl
theorem maxBy_keyS (o v : Word) : maxBy keyS o v = if o.slt v then v else o :=
  if_congr BitVec.slt_iff_toInt_lt.symm rfl rfl
theorem maxBy_keyU (o v : Word) : maxBy keyU o v = if o < v then v else o :=
  if_congr Int.ofNat_lt rfl rfl

/-- A word atomic on an operation performs every operation that equals it. -/
theorem atomW_holds {i : Instr} {b a d : BitVec 7} {f g : Word → Word → Word} (he : ∀ s, exec i s = atomW i s b a d f)
    (hfg : ∀ o v, f o v = g o v) : 
    let F : AtomForm := ⟨4, fun c l old => (g (BitVec.ofNat 32 old) (c.rd b.toNat l)).toNat, fun _ _ _ => 0, dataOf b 4⟩
    Atomics i b a d 1 F ∧ AtomicsScratch i b a d 1 F := by
  obtain rfl : f = g := funext₂ hfg
  exact atomOp_holds he rfl (.inl rfl)

/-- Settles O25, operation by operation. -/
theorem atomics : Obligations.Atomics := by
  intro b a d
  exact ⟨atomW_holds (exec_atomAddW b a d) fun _ _ => rfl, atomW_holds (exec_atomMinSw b a d) minBy_keyS,
    atomW_holds (exec_atomMinUw b a d) minBy_keyU, atomW_holds (exec_atomMaxSw b a d) maxBy_keyS,
    atomW_holds (exec_atomMaxUw b a d) maxBy_keyU, atomW_holds (exec_atomAndW b a d) fun _ _ => rfl,
    atomW_holds (exec_atomOrW b a d) fun _ _ => rfl, atomW_holds (exec_atomXorW b a d) fun _ _ => rfl,
    atomW_holds (exec_atomExchW b a d) fun _ _ => rfl, atomOp_holds (exec_atomCasW b a d) rfl (.inl rfl),
    atomOp_holds (exec_atomFaddF32 b a d) rfl (.inl rfl), atomOp_holds (exec_atomAddD b a d) rfl (.inr rfl),
    atomOp_holds (exec_atomExchD b a d) rfl (.inr rfl), atomOp_holds (exec_atomCasD b a d) rfl (.inr rfl)⟩

end Sys2Proof.Machine
end

section
namespace Sys2Proof.Machine

/-! ### Prefetches (R120, R196) -/

/-- From `s` to `t` only what caches hold has changed: translations, remote copies, and what the cores hold of memory. -/
def CachesOnly (s t : State) : Prop := t = { s with tlb := t.tlb, rc := t.rc, cores := t.cores }

theorem CachesOnly.refl (s : State) : CachesOnly s s := rfl
theorem CachesOnly.trans {a b c : State} (h : CachesOnly a b) (k : CachesOnly b c) : CachesOnly a c := by
  unfold CachesOnly at *
  rw [k]
  dsimp only
  rw [h]
theorem CachesOnly.foldl {α : Type} {f : State → α → State} (hf : ∀ s a, CachesOnly s (f s a)) (l : List α) (s : State) :
    CachesOnly s (l.foldl f s) := foldl_rel _ .refl (fun _ _ _ => .trans) f hf l s

theorem cachesOnly_tlbFill (s : State) (a : TlbAt) (p ctx va pte sz at_ : Nat) : CachesOnly s (s.tlbFill a p ctx va pte sz at_) := rfl
theorem cachesOnly_translate (s : State) (pl : List TlbAt) (p ctx va : Nat) (acc : Acc) : CachesOnly s (s.translate pl p ctx va acc).1 := by
  unfold State.translate
  split
  · split
    · exact (CachesOnly.foldl (fun st _ => cachesOnly_tlbFill st ..) _ _).trans (.foldl (fun st _ => cachesOnly_tlbFill st ..) _ _)
    · rfl
  · rfl

/-- A result of the checks is a hit of a range lock (R120). -/
def Res.hitsLock (r : Res) : Prop := ∃ i, r = .prog 0x13 i

/-- A walk of an element's pages fills caches alone, and its failures are no hit of a range lock. -/
theorem xlatPages_caches (pl : List TlbAt) (p : Who) (acc : Acc) (post : Bool) (pages : List Nat) (s : State) :
    CachesOnly s (s.xlatPages pl p acc post pages).1 ∧ ∀ e, (s.xlatPages pl p acc post pages).2 = .error e → ¬e.hitsLock := by
  induction pages generalizing s with
  | nil => exact ⟨.refl _, fun _ h => nomatch h⟩
  | cons page rest ih =>
    have ht := cachesOnly_translate s pl p.part p.ctx page acc
    rw [State.xlatPages]
    split
    · exact ⟨.refl _, by rintro _ ⟨⟩ ⟨_, ⟨⟩⟩⟩
    · generalize s.translate pl p.part p.ctx page acc = r at ht
      obtain ⟨s1, walk⟩ := r
      cases walk with
      | driver k => exact ⟨ht, by rintro _ ⟨⟩ ⟨_, ⟨⟩⟩⟩
      | prot => exact ⟨ht, by rintro _ ⟨⟩ ⟨_, ⟨⟩⟩⟩
      | leaf pte sz at_ =>
        dsimp only
        split
        · exact ⟨ht, by rintro _ ⟨⟩ ⟨_, ⟨⟩⟩⟩
        · obtain ⟨hs, he⟩ := ih s1
          generalize s1.xlatPages pl p acc post rest = q at hs he
          obtain ⟨s2, walks⟩ := q
          cases walks with
          | ok ls => exact ⟨ht.trans hs, fun _ h => nomatch h⟩
          | error e => exact ⟨ht.trans hs, fun e' h => he e' h⟩

theorem pageOk_noLock {s : State} {p : Who} {u : Nat} {acc : Acc} {va n : Nat} {l : Nat × Nat × Nat × Nat} {r : Res}
    (h : s.pageOk p u acc va n l = some r) : ¬r.hitsLock := by
  unfold State.pageOk at h
  dsimp only at h
  rintro ⟨i, rfl⟩
  split at h
  · cases h
  · split at h
    · cases h
    · split at h <;> cases h

theorem checkBytes_noLock (s : State) (acc : Acc) (lev : Nat) (bs : List PByte) : ¬(s.checkBytes acc lev bs).hitsLock := by
  rintro ⟨i, h⟩
  unfold State.checkBytes at h
  split at h
  · cases h
  · split at h
    · cases h
    · split at h <;> cases h

/-- A prefetch settles no owner (R107): a page that would need one has failed before. -/
theorem classPages_pf (p : Who) (s : State) (ls : List (Nat × Nat × Nat × Nat))
    (h : ls.any (fun l => pteClass l.2.1 == 0 && (p.tile || pteOwner l.2.1 != p.core)) = false) : (s.classPages p .pf ls).1 = s := by
  induction ls with
  | nil => rfl
  | cons l rest ih =>
    rw [List.any_cons, Bool.or_eq_false_iff] at h
    have hown : s.ownPage p l.2.1 l.2.2.1 l.2.2.2 = (s, pteClass l.2.1) := by
      have := h.1
      unfold State.ownPage
      by_cases hc : pteClass l.2.1 = 0 <;> simp_all
    rw [State.classPages]
    simp [hown, ih h.2]

/-- The checks of a prefetch on translated pages change nothing, and give no hit of a range lock. -/
theorem checkPages_pf (s : State) (p : Who) (u lane lev va n : Nat) (ls : List (Nat × Nat × Nat × Nat)) :
    (s.checkPages p u lane .pf lev va n ls).1 = s ∧ ¬(s.checkPages p u lane .pf lev va n ls).2.hitsLock := by
  unfold State.checkPages
  dsimp only
  split
  · rename_i r hr
    obtain ⟨l, -, hl⟩ := List.exists_of_findSome?_eq_some hr
    exact ⟨rfl, pageOk_noLock hl⟩
  · split
    · rename_i h
      simp at h
    · split
      · exact ⟨rfl, by rintro ⟨_, ⟨⟩⟩⟩
      · rename_i h
        refine ⟨classPages_pf p s ls (by simpa using h), ?_⟩
        dsimp only
        exact checkBytes_noLock _ _ _ _

/-- The checks of a prefetch's element fill caches alone, and without a range lock give no hit of one. -/
theorem checkElem_pf (s : State) (p : Who) (u lane : Nat) (need post : Bool) (lev : Nat) (addr : DWord) (n : Nat) (hrl : s.rl = []) :
    CachesOnly s (s.checkElem p u lane .pf need post lev addr n).1 ∧ ¬(s.checkElem p u lane .pf need post lev addr n).2.hitsLock := by
  have hlock : ((List.range n).map (fun k => addr.toNat + k)).findSome? (s.lockHit p .pf) = none := by
    simp [State.lockHit, hrl]
  have hstale : ∀ s' : State, ∀ ls, s'.stale p .pf ls = false := by
    intro s' ls
    simp [State.stale, swaps]
  unfold State.checkElem
  dsimp only
  split
  · exact ⟨.refl _, by rintro ⟨_, ⟨⟩⟩⟩
  · split
    · exact ⟨.refl _, by rintro ⟨_, ⟨⟩⟩⟩
    · split
      · exact ⟨.refl _, by rintro ⟨_, ⟨⟩⟩⟩
      · rw [hlock]
        dsimp only
        obtain ⟨hs, he⟩ := xlatPages_caches p.places p .pf post (pagesOf addr.toNat n) s
        generalize s.xlatPages p.places p .pf post (pagesOf addr.toNat n) = q at hs he
        obtain ⟨s1, walks⟩ := q
        cases walks with
        | error e => exact ⟨hs, he e rfl⟩
        | ok ls =>
          dsimp only
          rw [hstale, Bool.false_and, if_neg Bool.false_ne_true]
          obtain ⟨h1, h2⟩ := checkPages_pf s1 p u lane lev addr.toNat n ls
          exact ⟨by rw [h1]; exact hs, h2⟩

theorem CachesOnly.rl {s t : State} (h : CachesOnly s t) : t.rl = s.rl := by rw [h]

/-- The checks of a prefetch's lanes fill caches alone, and no lane has a fault that a prefetch reports. -/
theorem checkLanes_pf (c : Ctx) (need post : Bool) (n : Nat) (addr : Nat → DWord) (lev : Nat → Nat) (ls : List Nat) (s : State)
    (hrl : s.rl = []) : CachesOnly s (s.checkLanes c .pf need post n addr lev ls).1 ∧
    (s.checkLanes c .pf need post n addr lev ls).2.filter (fun x => x.cause == some 0x13) = [] := by
  induction ls generalizing s with
  | nil => exact ⟨.refl _, rfl⟩
  | cons l rest ih =>
    obtain ⟨h1, h2⟩ := checkElem_pf s c.p c.u l need post (lev l) (addr l) n hrl
    obtain ⟨h3, h4⟩ := ih _ (h1.rl.trans hrl)
    refine ⟨h1.trans h3, ?_⟩
    rw [State.checkLanes, List.filter_cons_of_neg ?_, h4]
    cases hr : (s.checkElem c.p c.u l .pf need post (lev l) (addr l) n).2 with
    | prog k i =>
      intro hk
      exact h2 ⟨i, by simpa [LaneRes.cause, hr] using hk⟩
    | _ => simp [LaneRes.cause]

theorem cachesOnly_dieLine (s : State) (die line cls : Nat) : CachesOnly s (s.dieLine die line cls).1 := by
  unfold State.dieLine
  split
  · rfl
  · dsimp only
    split
    · split <;> rfl
    · rfl

theorem cachesOnly_readByte (s : State) (v pa cls ctx : Nat) : CachesOnly s (s.readByte v pa cls ctx).1 := by
  unfold State.readByte
  split
  · rfl
  · have h := cachesOnly_dieLine s (viewDie v) (pa / lineBytes) cls
    dsimp only
    split
    · exact h.trans rfl
    · exact h

/-- A prefetch that brings lines into caches alone completes, and nothing but caches and its unit's place changes. -/
theorem pfGo_completes {i : Instr} {bring : State → Ctx → PByte → State} {b a : BitVec 7} (hb : ∀ s c x, CachesOnly s (bring s c x))
    (he : ∀ s, exec i s = warpOp i s (pfGo bring b a)) {s : State} {c : Ctx} (h : Issues i s c) (hrl : s.rl = []) :
    ∃ t w, exec i s = .next t ∧ (∀ x, t.hByte x = s.hByte x) ∧ (∀ x off, t.spadByte x off = s.spadByte x off) ∧
      (∀ v, v ≠ c.u → kget t.warps v = kget s.warps v) ∧ kget t.warps c.u = some w ∧ Untouched c w ∧ Advances c c.w w c.is.mask := by
  obtain ⟨hs, hbad⟩ := checkLanes_pf c false false 1 (addrR b a c) (fun _ => 0) (lanesOf c.m) (s.setWarp c.u c.w) hrl
  obtain ⟨s1, hs1⟩ : ∃ s1, s1 = (((s.setWarp c.u c.w).checkLanes c .pf false false 1 (addrR b a c) (fun _ => 0) (lanesOf c.m)).2.flatMap LaneRes.bytes).foldl
    (fun st x => bring st c x) ((s.setWarp c.u c.w).checkLanes c .pf false false 1 (addrR b a c) (fun _ => 0) (lanesOf c.m)).1 := ⟨_, rfl⟩
  have hco : CachesOnly (s.setWarp c.u c.w) s1 := hs1 ▸ hs.trans (.foldl (fun st x => hb st c x) _ _)
  have hgo : pfGo bring b a c (s.setWarp c.u c.w) = s1.done c c.is.mask := by
    unfold pfGo
    dsimp only
    rw [hbad, ← hs1, settle_nil, mask_all1]
  have hw : kget s1.warps c.u = some c.w := by
    rw [hco]
    exact unit_setWarp ..
  obtain ⟨o, w, hw', hu, ha⟩ := done_passes c.w (OnlyUnit.refl s1 c.u) hw (untouched_rfl c) rfl h.alive c.is.mask
  refine ⟨_, w, (warpOp_next h _ (he s)).trans (congrArg _ hgo), fun x => ?_, fun x off => ?_, fun v hv => ?_, hw', hu, ha⟩
  · rw [o.memory, hco]; rfl
  · rw [o.scratch, hco]; rfl
  · rw [o.others v hv, hco]
    exact kget_kput_ne _ _ hv

/-- Settles O26: both forms fill caches alone. -/
theorem prefetches : Obligations.Prefetches := by
  rintro b a i (rfl | rfl) s c h hrl
  · refine pfGo_completes (fun s c x => ?_) (exec_pfL1 b a) h hrl
    split
    · split
      · exact cachesOnly_readByte ..
      · rfl
    · rfl
  · refine pfGo_completes (fun s c x => ?_) (exec_pfL2 b a) h hrl
    split
    · split
      · exact cachesOnly_dieLine ..
      · rfl
    · rfl

end Sys2Proof.Machine
end

section
namespace Sys2Proof.Machine

/-! ### Fences and store drains (R112, R197, R198) -/

/-- A change of what the cores hold of memory alone, followed by another one. -/
theorem cores_trans {a b c : State} (h : ∃ cs, b = { a with cores := cs }) (k : ∃ cs, c = { b with cores := cs }) :
    ∃ cs, c = { a with cores := cs } := by
  obtain ⟨cs, rfl⟩ := h
  exact k

/-- A release whose condition holds is met; it changes what cores hold of memory alone, and at another scope than a cluster's nothing. -/
theorem relTry_met {s : State} {u v scope : Nat} (h : s.releaseMet u v scope = true) :
    (s.relTry u v scope).2 = true ∧ (∃ cs, (s.relTry u v scope).1 = { s with cores := cs }) ∧ (scope ≠ 2 → (s.relTry u v scope).1 = s) := by
  by_cases hs : scope = 2
  · obtain ⟨s1, hs1⟩ : ∃ s1, s1 = (s.core v).owed.foldl (fun st l =>
        ((st.viewsOf l).filter (fun x => x != v && viewCluster x == viewCluster v)).foldl (fun st x => st.refresh x l) st) s := ⟨_, rfl⟩
    have hc : ∃ cs, s1 = { s with cores := cs } := by
      rw [hs1]
      exact foldl_frame _ (fun st l => foldl_frame _ (fun st x => refresh_frame st x l) _ _) _ _
    have he : s.relTry u v scope =
        (if (s.core v).owed.isEmpty then s1 else s1.modCore v (fun c => { c with owed := [] }), true) := by
      subst hs
      unfold State.relTry
      simp only [h, bne_self_eq_false, Bool.false_eq_true, if_false, if_true]
      rw [hs1]
    rw [he]
    refine ⟨rfl, ?_, fun hn => absurd hs hn⟩
    dsimp only
    split
    · exact hc
    · exact cores_trans hc ⟨_, rfl⟩
  · have he : s.relTry u v scope = (s, true) := by
      unfold State.relTry
      rw [h, if_pos (bne_iff_ne.2 hs)]
    rw [he]
    exact ⟨rfl, ⟨s.cores, rfl⟩, fun _ => rfl⟩

/-- Where a lane mask's queues are empty, a release is tried at once. -/
theorem releaseTry_drained {c : Ctx} {m : Mask} (h : c.w.drained m = true) (s : State) (scope : Nat) :
    s.releaseTry c m scope = s.relTry c.u c.p.view scope := if_pos h

/-- A view's line has no clean byte. -/
def NoClean (s : State) (v line : Nat) : Prop :=
  ∀ x, kget (s.core v).cv line = some x → x.dirty ≠ 0 ∧ x.present &&& ~~~x.dirty = 0

/-- A refresh leaves the views of the other cores (R109). -/
theorem refresh_view (s : State) (v line : Nat) {k : Nat} (hk : k ≠ v) : ((s.refresh v line).core k).cv = (s.core k).cv := by
  unfold State.refresh
  split
  · split
    · rw [cv_kill, if_neg hk]
    · split
      · rfl
      · rw [cv_killLine, core_modCore_ne _ _ hk]
  · rfl

/-- A refresh leaves the other lines of its view (R109). -/
theorem refresh_line (s : State) (v line : Nat) {n : Nat} (hn : n ≠ line) :
    kget ((s.refresh v line).core v).cv n = kget (s.core v).cv n := by
  unfold State.refresh
  split
  · split
    · exact cvDrop_other s v line v n (.inr hn)
    · split
      · rfl
      · rw [cv_killLine]
        exact cv_putLine_other _ _ _ _ (.inr hn)
  · rfl

/-- After a refresh the line has no clean byte (R109). -/
theorem refresh_noClean (s : State) (v line : Nat) : NoClean (s.refresh v line) v line := by
  intro x hx
  unfold State.refresh at hx
  split at hx
  case h_1 l hl =>
    split at hx
    · rw [cvDrop_self] at hx
      cases hx
    next hd =>
      split at hx
      next hp =>
        rw [hl] at hx
        cases hx
        exact ⟨hd, hp⟩
      · rw [cv_killLine, cv_putLine_self] at hx
        cases hx
        exact ⟨hd, BitVec.and_not_self _⟩
  case h_2 hl =>
    rw [hl] at hx
    cases hx

/-- Refreshes of a view leave the views of the other cores. -/
theorem refreshes_view (v : Nat) {k : Nat} (hk : k ≠ v) (ls : List Nat) (s : State) :
    ((ls.foldl (fun st l => st.refresh v l) s).core k).cv = (s.core k).cv := by
  induction ls generalizing s with
  | nil => rfl
  | cons l ls ih => rw [List.foldl_cons, ih, refresh_view _ _ _ hk]

/-- After refreshes of a view each refreshed line has no clean byte, and every other line is as it was. -/
theorem refreshes_line (v n : Nat) (ls : List Nat) (s : State) : NoClean (ls.foldl (fun st l => st.refresh v l) s) v n ∨
    (n ∉ ls ∧ kget ((ls.foldl (fun st l => st.refresh v l) s).core v).cv n = kget (s.core v).cv n) := by
  induction ls generalizing s with
  | nil => exact .inr ⟨List.not_mem_nil, rfl⟩
  | cons l ls ih =>
    rw [List.foldl_cons]
    rcases ih (s.refresh v l) with hnc | ⟨hmem, heq⟩
    · exact .inl hnc
    · by_cases hn : n = l
      · subst hn
        exact .inl fun x hx => refresh_noClean s v n x (heq ▸ hx)
      · exact .inr ⟨by simp [hn, hmem], heq.trans (refresh_line s v l hn)⟩

theorem acquire_narrow (s : State) (v : Nat) {scope : Nat} (h : scope ≤ 2) : s.acquire v scope = s := if_pos h

/-- An acquire leaves the views of the other cores (R112). -/
theorem acquire_view (s : State) (v scope : Nat) {k : Nat} (hk : k ≠ v) : ((s.acquire v scope).core k).cv = (s.core k).cv := by
  unfold State.acquire
  split
  · rfl
  · exact refreshes_view v hk _ _

/-- After an acquire at die scope or wider a shared line of the view has no clean byte (R112). -/
theorem acquire_shared (s : State) (v : Nat) {scope line : Nat} {x : CvLine} (h : 3 ≤ scope)
    (hx : kget ((s.acquire v scope).core v).cv line = some x) (hc : x.cls = 1) : x.dirty ≠ 0 ∧ x.present &&& ~~~x.dirty = 0 := by
  have he : s.acquire v scope = (((s.core v).cv.filter (fun e => e.2.cls == 1)).map (·.1)).foldl (fun st l => st.refresh v l) s :=
    if_neg (by omega)
  rw [he] at hx
  rcases refreshes_line v line (((s.core v).cv.filter (fun e => e.2.cls == 1)).map (·.1)) s with hnc | ⟨hmem, heq⟩
  · exact hnc x hx
  · have hin : (line, x) ∈ (s.core v).cv := kget_mem (heq ▸ hx)
    have hsh : (line, x) ∈ (s.core v).cv.filter (fun e => e.2.cls == 1) := List.mem_filter.2 ⟨hin, beq_iff_eq.2 hc⟩
    exact absurd (List.mem_map.2 ⟨(line, x), hsh, rfl⟩) hmem

/-- After a change of what the cores hold of memory alone, an instruction that ends leaves memory, scratchpads, the other units and, but
for its place, its own. -/
theorem Issues.coresDone {i : Instr} {s s1 : State} {c : Ctx} (h : Issues i s c) (hs1 : ∃ cs, s1 = { s.setWarp c.u c.w with cores := cs })
    (stay : Mask) : Quiet s (s1.done c stay) c.u ∧ ∃ w, kget (s1.done c stay).warps c.u = some w ∧ Untouched c w ∧ Advances c c.w w stay := by
  obtain ⟨cs, rfl⟩ := hs1
  obtain ⟨ho, hunit⟩ := done_passes c.w (OnlyUnit.refl _ c.u) (unit_setWarp s c.u c.w) (untouched_rfl c) rfl h.alive stay
    (s0 := { s.setWarp c.u c.w with cores := cs })
  exact ⟨((onlyUnit_setWarp s c.u c.w).quiet.trans (.cores _ _ cs)).trans ho.quiet, hunit⟩

/-- A fence does not wait for the engines where it does not ask for them, and where the unit's commands have completed (R197). -/
theorem fence_ready {e : BitVec 1} {s : State} {u : Nat} (he : e = 1 → s.enginesDone u = true) (w : Warp) :
    ¬(e = 1 ∧ (!(s.setWarp u w).enginesDone u) = true) := fun ⟨h1, h2⟩ => by
  have hdone : (s.setWarp u w).enginesDone u = true := he h1
  rw [hdone] at h2
  cases h2

/-- A full fence whose release holds acquires and ends. -/
theorem execFence_full {e : BitVec 1} {sc : BitVec 3} {s : State} {c : Ctx} (h : Issues (.fence 0 e sc) s c)
    (he : e = 1 → s.enginesDone c.u = true) (hq : c.w.queues = []) (hr : s.releaseMet c.u c.p.view sc.toNat = true) :
    exec (.fence 0 e sc) s =
      .next ((((s.setWarp c.u c.w).relTry c.u c.p.view sc.toNat).1.acquire c.p.view sc.toNat).done c c.is.mask) := by
  have hmet := (relTry_met (s := s.setWarp c.u c.w) hr).1
  refine (warpOp_next h _ (exec_fence 0 e sc s)).trans (congrArg Host.Outcome.next ?_)
  rw [if_neg (fence_ready he c.w), if_neg (by decide), releaseTry_drained (drained_nil hq _)]
  exact if_pos hmet

theorem execFence_acquires {e : BitVec 1} {sc : BitVec 3} {s : State} {c : Ctx} (h : Issues (.fence 0 e sc) s c)
    (he : e = 1 → s.enginesDone c.u = true) (hq : c.w.queues = []) (hr : s.releaseMet c.u c.p.view sc.toNat = true) :
    ∃ t w, exec (.fence 0 e sc) s = .next t ∧ (∀ a, t.hByte a = s.hByte a) ∧ (∀ b off, t.spadByte b off = s.spadByte b off) ∧
      (∀ v, v ≠ c.u → kget t.warps v = kget s.warps v) ∧ kget t.warps c.u = some w ∧ Untouched c w ∧ Advances c c.w w c.is.mask ∧
      (∀ v, (v ≠ c.p.view ∧ sc.toNat ≠ 2) ∨ sc.toNat < 2 → (t.core v).cv = (s.core v).cv) ∧
      (3 ≤ sc.toNat → ∀ line x, kget (t.core c.p.view).cv line = some x → x.cls = 1 → x.dirty ≠ 0 ∧ x.present &&& ~~~x.dirty = 0) := by
  obtain ⟨-, hcores, hsame⟩ := relTry_met (s := s.setWarp c.u c.w) hr
  obtain ⟨hq, w, hw, hu, ha⟩ := h.coresDone (cores_trans hcores (acquire_frame _ c.p.view sc.toNat)) c.is.mask
  have hdone : ∀ v, ((((((s.setWarp c.u c.w).relTry c.u c.p.view sc.toNat).1.acquire c.p.view sc.toNat).done c c.is.mask).core v).cv) =
      ((((s.setWarp c.u c.w).relTry c.u c.p.view sc.toNat).1.acquire c.p.view sc.toNat).core v).cv := fun v => by
    rw [State.core, done_cores, State.core]
  refine ⟨_, w, execFence_full h he ‹_› hr, hq.memory, hq.scratch, hq.others, hw, hu, ha, fun v hv => ?_, fun hsc line x hx hc => ?_⟩
  · rw [hdone]
    rcases hv with ⟨hv, hsc⟩ | hsc
    · rw [acquire_view _ _ _ hv, hsame hsc]
      rfl
    · rw [acquire_narrow _ _ (by omega), hsame (by omega)]
      rfl
  · rw [hdone] at hx
    exact acquire_shared _ _ hsc hx hc

/-- A fence of stores only queues itself behind each lane's stores. -/
theorem execFence_queues {e : BitVec 1} {sc : BitVec 3} {s : State} {c : Ctx} (h : Issues (.fence 1 e sc) s c)
    (he : e = 1 → s.enginesDone c.u = true) :
    ∃ t w, exec (.fence 1 e sc) s = .next t ∧ (∀ a, t.hByte a = s.hByte a) ∧ (∀ b off, t.spadByte b off = s.spadByte b off) ∧
      (∀ v, v ≠ c.u → kget t.warps v = kget s.warps v) ∧ kget t.warps c.u = some w ∧
      Untouched c { w with queues := c.w.queues } ∧ Advances c c.w w c.is.mask ∧
      (∀ l, l < 64 → sget [] w.queues l = sget [] c.w.queues l ++
        if c.m.getLsbD l then [⟨[], some sc.toNat, none, 0, c.is.pc, 0, 0⟩] else []) := by
  obtain ⟨s1, hs1⟩ : ∃ s1, s1 = if e = 1 then (s.setWarp c.u c.w).acquire c.p.view sc.toNat else s.setWarp c.u c.w := ⟨_, rfl⟩
  have hcores : ∃ cs, s1 = { s.setWarp c.u c.w with cores := cs } := by
    rw [hs1]
    split
    · exact acquire_frame ..
    · exact ⟨_, rfl⟩
  have hex : exec (.fence 1 e sc) s = .next ((s1.modWarp c.u (fun w => w.storesFence c.m sc.toNat c.is.pc)).done c c.is.mask) := by
    refine (warpOp_next h _ (exec_fence 1 e sc s)).trans (congrArg Host.Outcome.next ?_)
    rw [if_neg (fence_ready he c.w), if_pos rfl, hs1]
  have hw1 : kget s1.warps c.u = some c.w := by
    obtain ⟨cs, hc⟩ := hcores
    rw [hc]
    exact unit_setWarp ..
  have hq1 : Quiet s s1 c.u := by
    obtain ⟨cs, hc⟩ := hcores
    rw [hc]
    exact (onlyUnit_setWarp s c.u c.w).quiet.trans (.cores _ _ cs)
  obtain ⟨⟨q, hfence⟩, hqueue⟩ := storesFence_eq c.w c.m sc.toNat c.is.pc
  rw [hfence] at hqueue
  obtain ⟨ho, hunit⟩ := done_frame (s1.modWarp c.u (fun w => w.storesFence c.m sc.toNat c.is.pc)) c c.is.mask
  obtain ⟨fr, n, t, x, hw, ha⟩ := hunit _ ((modWarp_get hw1 _).trans (congrArg some hfence))
  have hqt := hq1.trans ((onlyUnit_modWarp s1 c.u _).trans ho).quiet
  exact ⟨_, _, hex, hqt.memory, hqt.scratch, hqt.others, hw, untouched_rfl c, advances_of (ha h.alive) rfl, hqueue⟩

/-- `sdrain` holds its warp's issue, and nothing else of the unit but its place changes. -/
theorem execSdrain_holds {s : State} {c : Ctx} (h : Issues .sdrain s c) : ∃ t w, exec .sdrain s = .next t ∧ OnlyUnit s t c.u ∧
    kget t.warps c.u = some w ∧ w.sdrain = true ∧ Untouched c { w with sdrain := c.w.sdrain } ∧ Advances c c.w w c.is.mask := by
  obtain ⟨o, fr, n, t, x, hw, ha⟩ := mod_done h (fun w => { w with sdrain := true }) c.is.mask rfl rfl
  exact ⟨_, _, warpOp_next h _ (exec_sdrain s), o, hw, rfl, untouched_rfl c, ha⟩

/-- Settles O20, by the kind of fence. -/
theorem fences : Obligations.Fences :=
  ⟨fun _ _ _ _ h he hq hr => execFence_acquires h he hq hr, fun _ _ _ _ h he => execFence_queues h he, fun _ _ h => execSdrain_holds h⟩

end Sys2Proof.Machine
end

section
namespace Sys2Proof.Machine

/-! ### Phase-bit barriers (R202 to R204) -/

/-- An instruction whose prefix carries no mask predicate executes on its whole sub-group (R131). -/
theorem Issues.unmasked {i : Instr} {s : State} {c : Ctx} (h : Issues i s c) (hp : i.row.px.mask = false) : c.m = c.is.mask := by
  obtain ⟨w, -, -, -, -, hm, -⟩ := h.warp
  have hpx : c.px.mp = 0 ∧ c.px.mn = false := by
    rcases hx : c.is.pfx with _ | x
    · rw [h.pfx, Issue.px, hx]
      exact ⟨rfl, rfl⟩
    · have ha := h.accepted (by rw [hx]; rfl)
      simp only [Row.accepts, hp, Bool.false_or, Bool.and_eq_true, beq_iff_eq, Bool.not_eq_true'] at ha
      tauto
  rw [hm, execMask, hpx.1, hpx.2, pred_zero]
  exact BitVec.and_allOnes

/-- The lowest lane of a mask that is not empty is one of its lanes. -/
theorem Ctx.low_mem {c : Ctx} (h : c.m ≠ 0) : c.low < 64 ∧ c.m.getLsbD c.low = true := by
  rcases hl : lanesOf c.m with _ | ⟨l, ls⟩
  · refine absurd (BitVec.eq_of_getLsbD_eq fun l hl64 => ?_) h
    have hn : l ∉ lanesOf c.m := hl ▸ List.not_mem_nil
    simpa [mem_lanesOf, hl64] using hn
  · have hlow : c.low = l := by rw [Ctx.low, lowestLane, hl]; rfl
    exact mem_lanesOf.1 (by rw [hlow, hl]; exact List.mem_cons_self ..)

/-- The launch of an instruction's unit has its record (R16). -/
theorem Issues.launch_rec {i : Instr} {s : State} {c : Ctx} (h : Issues i s c) (l : Launch) (hl : kget s.launches c.p.launch = some l) :
    l.lr = c.lr := by
  have hlr := h.launch
  rw [State.lrOf, hl] at hlr
  exact Option.some.inj hlr

/-- The update of a `pbarr` on a word of the own scratchpad, after its release. -/
def State.arriveOwn (t : State) (c : Ctx) (va n : Nat) : State × Nat × Nat :=
  ((t.relTry c.u c.p.view (scopeOf c.px 1)).1.killAt c.p va 4).rmw c.p c.u (scopeOf c.px 1) (ownBytes t c.p.blk va 4) (pbArrive n)

/-- A change of what the cores hold of memory is one of a block's scratchpad and watches at most. -/
theorem SpadOnly.cores {s t : State} (h : ∃ cs, t = { s with cores := cs }) (blk : Nat) : SpadOnly s t blk := by
  obtain ⟨cs, rfl⟩ := h
  exact ⟨⟨_, _, rfl⟩, fun _ _ _ => rfl, id⟩

/-- The update of a `pbarr` changes its word alone, by R203. -/
theorem arriveOwn_updates {t : State} {c : Ctx} (va n : Nat) (hr : t.releaseMet c.u c.p.view (scopeOf c.px 1) = true)
    (hb : (kget t.blocks c.p.blk).isSome = true) : SpadOnly t (t.arriveOwn c va n).1 c.p.blk ∧ ∀ o,
    (t.arriveOwn c va n).1.spadByte c.p.blk o = if va % 2 ^ 48 ≤ o ∧ o < va % 2 ^ 48 + 4 then
      (bytesLE 4 (pbArrive n (natLE ((List.range 4).map (fun j => t.spadByte c.p.blk (va % 2 ^ 48 + j)))))).getD (o - va % 2 ^ 48) 0
      else t.spadByte c.p.blk o := by
  have hcores : ∃ cs, (t.relTry c.u c.p.view (scopeOf c.px 1)).1.killAt c.p va 4 = { t with cores := cs } :=
    cores_trans (relTry_met hr).2.1 (killAt_frame _ c.p va 4)
  obtain ⟨t1, ht1⟩ : ∃ t1, t1 = (t.relTry c.u c.p.view (scopeOf c.px 1)).1.killAt c.p va 4 := ⟨_, rfl⟩
  rw [← ht1] at hcores
  have hsame : SpadOnly t t1 c.p.blk := .cores hcores _
  have hbyte : ∀ o, t1.spadByte c.p.blk o = t.spadByte c.p.blk o := fun o => by
    obtain ⟨cs, hcs⟩ := hcores
    rw [hcs]
    rfl
  obtain ⟨honly, -, hword⟩ := rmw_own t t1 c.p c.u (scopeOf c.px 1) va 4 (pbArrive n) (by omega) c.p.blk (hsame.there hb)
  rw [State.arriveOwn, ← ht1]
  refine ⟨hsame.trans honly, fun o => ?_⟩
  rw [hword o, bytesLE_mod]
  simp only [hbyte]

/-- Without record and replay, an atomic that is counted and hashed leaves memory, units and scratchpads (R271, R273). -/
theorem counted_keeps (t : State) (p : Who) (core va : Nat) (bs : List PByte) (xs : List (Option Nat × Nat × List Byte))
    (hl : ∀ l, kget t.launches p.launch = some l → l.lr.record = false ∧ l.lr.replay = false) :
    ((t.countAtomic p va bs).hashAdd p.launch core xs).mem = t.mem ∧ ((t.countAtomic p va bs).hashAdd p.launch core xs).warps = t.warps ∧
      ((t.countAtomic p va bs).hashAdd p.launch core xs).blocks = t.blocks := by
  have hlog := logOnly_countAtomic t p va bs
  obtain ⟨hmem, hlaunch⟩ := hlog.mem hl
  obtain ⟨m, ls, rg, o, heq⟩ := hlog.eq
  obtain ⟨-, hwarps, hblocks, hkeep⟩ := hashAdd_frame (t.countAtomic p va bs) p.launch core xs
  exact ⟨(hkeep hlaunch).1.trans hmem, by rw [hwarps, heq], by rw [hblocks, heq]⟩

section
variable {b a : BitVec 7} {s : State} {c : Ctx} (h : Issues (.pbarr b a) s c) (hq : c.w.queues = [])
  (hr : s.releaseMet c.u c.p.view (scopeOf c.px 1) = true) (hrec : c.lr.record = false) (hrep : c.lr.replay = false) (hrl : s.rl = [])
  (hs : InScratch { c with m := laneBit c.low } (fun l => c.rd64 a.toNat l) 4)
  (hlev : ∀ x, kget s.blocks c.p.blk = some x → ∀ k, k < 4 →
    c.w.regLevel (c.w.wbase + b.toNat) ≤ x.levAt ((c.rd64 a.toNat c.low).toNat % 2 ^ 48 + k))

include h hs hrl hlev in
/-- The word of the barrier passes its checks, in the own scratchpad. -/
theorem pbarr_checked : (s.setWarp c.u c.w).checkElem c.p c.u c.low .atomic true false (c.w.regLevel (c.w.wbase + b.toNat))
    (c.rd64 a.toNat c.low) 4 = (s.setWarp c.u c.w, .ok (ownBytes (s.setWarp c.u c.w) c.p.blk (c.rd64 a.toNat c.low).toNat 4)) := by
  obtain ⟨x, hx, hlr, -, -⟩ := h.block
  have hm : c.m ≠ 0 := h.unmasked rfl ▸ h.lanes
  obtain ⟨hspad, halign, hin⟩ := hs c.low (by rw [getLsbD_laneBit (Ctx.low_mem hm).1]; exact decide_eq_true rfl)
  exact checkElem_own (s.setWarp c.u c.w) c.p c.u c.low .atomic (by decide) true false _ _ 4 c.lr x hx hlr hspad halign (by norm_num)
    hin hrl (fun _ => hlev x hx)

/-- A launch that does not replay passes every gate. -/
theorem gate_noReplay {t : State} {p : Who} (hl : ∀ l, kget t.launches p.launch = some l → l.lr.replay = false) (va : Nat) (bs : List PByte) :
    t.gate p va bs = .pass := by
  unfold State.gate
  split
  · rfl
  · rw [hl _ ‹_›]
    rfl

include h hq hr hrep hrl hs hlev in
/-- `pbarr` on the own scratchpad updates its word, is counted and hashed, and ends. -/
theorem execPbarr_arrives : let va := (c.rd64 a.toNat c.low).toNat
    let t := s.setWarp c.u c.w
    let z := t.arriveOwn c va (c.rd b.toNat c.low).toNat
    exec (.pbarr b a) s = .next (((z.1.countAtomic c.p va (ownBytes t c.p.blk va 4)).hashAdd c.p.launch c.p.core
      [(none, va, bytesLE 4 z.2.2)]).done c c.is.mask) := by
  intro va t z
  have hmet := relTry_met (s := t) hr
  obtain ⟨cs, hcores⟩ := hmet.2.1
  have hm : c.m ≠ 0 := h.unmasked rfl ▸ h.lanes
  have hof : orderFirst (ownBytes t c.p.blk va 4) = false := by
    simp [orderFirst, ownBytes]
  have hgate : (t.relTry c.u c.p.view (scopeOf c.px 1)).1.gate c.p va (ownBytes t c.p.blk va 4) = .pass :=
    gate_noReplay (fun l hl => by
      rw [hcores] at hl
      rw [h.launch_rec l hl, hrep]) _ _
  refine (warpOp_next h _ (exec_pbarr b a s)).trans (congrArg Host.Outcome.next ?_)
  rw [if_neg hm]
  dsimp only
  rw [pbarr_checked h hrl hs hlev]
  dsimp only
  rw [hof, if_neg Bool.false_ne_true, releaseTry_drained (drained_nil hq _), hmet.1]
  simp only [Bool.not_true, Bool.false_eq_true, if_false]
  have hown : ownBytes (s.setWarp c.u c.w) c.p.blk (c.rd64 a.toNat c.low).toNat 4 = ownBytes t c.p.blk va 4 := rfl
  rw [hown]
  split
  case h_1 heq =>
    simp [ownBytes, List.range_succ] at heq
  case h_2 =>
    rw [hgate]
    rfl

include h hq hr hrec hrep hrl hs hlev in
theorem execPbarr_updates : let off := (c.rd64 a.toNat c.low).toNat % 2 ^ 48
    let old := natLE ((List.range 4).map (fun j => s.spadByte c.p.blk (off + j)))
    ∃ t w, exec (.pbarr b a) s = .next t ∧ (∀ y, t.hByte y = s.hByte y) ∧
      (∀ o, t.spadByte c.p.blk o = if off ≤ o ∧ o < off + 4 then
        (bytesLE 4 (pbArrive (c.rd b.toNat c.low).toNat old)).getD (o - off) 0 else s.spadByte c.p.blk o) ∧
      (∀ k o, k ≠ c.p.blk → t.spadByte k o = s.spadByte k o) ∧ (∀ v, v ≠ c.u → kget t.warps v = kget s.warps v) ∧
      kget t.warps c.u = some w ∧ Untouched c w ∧ Advances c c.w w c.is.mask := by
  intro off old
  obtain ⟨x, hx, -⟩ := h.block
  obtain ⟨honly, hword⟩ := arriveOwn_updates (t := s.setWarp c.u c.w) (c.rd64 a.toNat c.low).toNat (c.rd b.toNat c.low).toNat hr
    (by rw [setWarp_blocks, hx]; rfl)
  have hex := execPbarr_arrives h hq hr hrep hrl hs hlev
  obtain ⟨z, hz⟩ : ∃ z, z = (s.setWarp c.u c.w).arriveOwn c (c.rd64 a.toNat c.low).toNat (c.rd b.toNat c.low).toNat := ⟨_, rfl⟩
  rw [← hz] at honly hword
  dsimp only at hex
  rw [← hz] at hex
  obtain ⟨bs, cs, hblocks⟩ := honly.eq
  obtain ⟨hmem, hwarps, hbanks⟩ := counted_keeps z.1 c.p c.p.core (c.rd64 a.toNat c.low).toNat
    (ownBytes (s.setWarp c.u c.w) c.p.blk (c.rd64 a.toNat c.low).toNat 4) [(none, (c.rd64 a.toNat c.low).toNat, bytesLE 4 z.2.2)] fun l hl => by
      rw [hblocks] at hl
      rw [h.launch_rec l hl]
      exact ⟨hrec, hrep⟩
  obtain ⟨t2, ht2⟩ : ∃ t2, t2 = (z.1.countAtomic c.p (c.rd64 a.toNat c.low).toNat
      (ownBytes (s.setWarp c.u c.w) c.p.blk (c.rd64 a.toNat c.low).toNat 4)).hashAdd c.p.launch c.p.core
      [(none, (c.rd64 a.toNat c.low).toNat, bytesLE 4 z.2.2)] := ⟨_, rfl⟩
  rw [← ht2] at hmem hwarps hbanks hex
  have hmem : t2.mem = s.mem := by rw [hmem, hblocks, setWarp_mem]
  have hwarps : t2.warps = (s.setWarp c.u c.w).warps := by rw [hwarps, hblocks]
  have hspad : ∀ k o, t2.spadByte k o = z.1.spadByte k o := fun k o => by rw [State.spadByte, hbanks, State.spadByte]
  obtain ⟨ho, w, hw, hu, ha⟩ := done_passes c.w (OnlyUnit.refl t2 c.u) (hwarps ▸ unit_setWarp s c.u c.w) (untouched_rfl c) rfl h.alive c.is.mask
  refine ⟨_, w, hex, fun y => ?_, fun o => ?_, fun k o hk => ?_, fun v hv => ?_, hw, hu, ha⟩
  · rw [ho.memory, State.hByte, hmem, State.hByte]
  · rw [ho.scratch, hspad, hword]
    rfl
  · rw [ho.scratch, hspad, honly.other k o hk]
    rfl
  · rw [ho.others v hv, hwarps]
    exact kget_kput_ne _ _ hv

end

end Sys2Proof.Machine
end

section
namespace Sys2Proof.Machine

/-! ### `pbwait` (R204) -/

/-- Some lanes start to wait, each for its own cause. -/
def Warp.holdEach (pc next : DWord) (k : Nat → WaitCause) (ls : List Nat) (w : Warp) : Warp :=
  ls.foldl (fun w l => w.hold (laneBit l) pc next (k l)) w

/-- Each lane that starts to wait stands waiting for its cause, and no other lane has moved. -/
theorem holdEach_stands (pc next : DWord) (k : Nat → WaitCause) (ls : List Nat) (hls : ∀ l ∈ ls, l < 64) (w : Warp) (l : Nat) (p : DWord)
    (q : EntSt) : (w.holdEach pc next k ls).stands l p q ↔ if l ∈ ls then p = pc ∧ q = .waiting (k l) else w.stands l p q := by
  induction ls generalizing w with
  | nil => simp [Warp.holdEach]
  | cons x xs ih =>
    have hstep := ih (fun y hy => hls y (List.mem_cons_of_mem _ hy)) (w.hold (laneBit x) pc next (k x))
    have hx := hold_moved w (laneBit x) pc next (k x) l p q
    rw [getLsbD_laneBit (hls x (List.mem_cons_self ..))] at hx
    rw [Warp.holdEach, List.foldl_cons, ← Warp.holdEach, hstep, hx]
    by_cases hlx : l = x
    · subst hlx
      simp
    · simp [hlx]

/-- Lanes that start to wait change the unit's place alone. -/
theorem holdEach_eq (pc next : DWord) (k : Nat → WaitCause) (ls : List Nat) (w : Warp) :
    ∃ fr n t, w.holdEach pc next k ls = { w with frontier := fr, fair := n, turn := t } := by
  induction ls generalizing w with
  | nil => exact ⟨_, _, _, rfl⟩
  | cons x xs ih =>
    obtain ⟨fr, n, t, hx⟩ := hold_eq w (laneBit x) pc next (k x)
    obtain ⟨fr', n', t', hxs⟩ := ih (w.hold (laneBit x) pc next (k x))
    exact ⟨fr', n', t', by rw [Warp.holdEach, List.foldl_cons, ← Warp.holdEach, hxs, hx]⟩

/-- Changes of one unit, one after another, are one change of it. -/
theorem modWarp_foldl {α : Type} (g : α → Warp → Warp) (u : Nat) (xs : List α) {s : State} {w : Warp} (hw : kget s.warps u = some w) :
    kget (xs.foldl (fun st x => st.modWarp u (g x)) s).warps u = some (xs.foldl (fun w x => g x w) w) ∧
      OnlyUnit s (xs.foldl (fun st x => st.modWarp u (g x)) s) u := by
  induction xs generalizing s w with
  | nil => exact ⟨hw, .refl _ _⟩
  | cons x xs ih =>
    obtain ⟨hget, honly⟩ := ih (modWarp_get hw (g x))
    exact ⟨hget, (onlyUnit_modWarp s u (g x)).trans honly⟩

/-- Lanes that have started to wait where they stand, each for its own cause, still wait after the instruction's end, and the lanes that
stay go on. -/
theorem Advances.waiting {c : Ctx} {w1 w : Warp} {stay : Mask} (h : Advances c w1 w stay) {k : Nat → WaitCause} {held : Nat → Prop}
    [DecidablePred held] (hs : ∀ l, held l → stay.getLsbD l = false)
    (hw1 : ∀ l p q, w1.stands l p q ↔ if held l then p = c.is.pc ∧ q = .waiting (k l) else c.w.stands l p q) (l : Nat) (p : DWord) (q : EntSt) :
    w.stands l p q ↔ if held l then p = c.is.pc ∧ q = .waiting (k l)
      else if stay.getLsbD l = true ∧ c.is.depth = 0 then p = c.is.npc ∧ q = .ready else c.w.stands l p q := by
  unfold Advances at h
  split at h
  next hdep =>
    rw [h l p q, hw1 l p q]
    by_cases hl : held l
    · simp [hl, hs l hl]
    · simp [hl, hdep]
  next hdep =>
    rw [if_neg (fun hk => hdep hk.2 : ¬(stay.getLsbD l = true ∧ c.is.depth = 0)), ← hw1 l p q]
    exact iff_of_eq (congrArg (fun fr => standsIn fr l p q) h)

/-- After changes of what the cores hold of memory, lanes that start to wait each for its own cause, and the lanes that stay go on. -/
theorem Issues.holdEachDone {i : Instr} {s s1 t : State} {c : Ctx} (h : Issues i s c) (hs1 : ∃ cs, s1 = { s.setWarp c.u c.w with cores := cs })
    (k : Nat → WaitCause) (ls : List Nat) (stay : Mask) (hls : ∀ l ∈ ls, l < 64 ∧ stay.getLsbD l = false)
    (ht : t = (ls.foldl (fun st l => st.modWarp c.u (fun w => w.hold (laneBit l) c.is.pc c.is.npc (k l))) s1).done c stay) :
    Quiet s t c.u ∧ ∃ w, kget t.warps c.u = some w ∧ Untouched c w ∧ ∀ l p q, w.stands l p q ↔
      if l ∈ ls then p = c.is.pc ∧ q = .waiting (k l)
      else if stay.getLsbD l = true ∧ c.is.depth = 0 then p = c.is.npc ∧ q = .ready else c.w.stands l p q := by
  have hw1 : kget s1.warps c.u = some c.w := by
    obtain ⟨cs, hcs⟩ := hs1
    rw [hcs]
    exact unit_setWarp ..
  have hq1 : Quiet s s1 c.u := by
    obtain ⟨cs, hcs⟩ := hs1
    rw [hcs]
    exact (onlyUnit_setWarp s c.u c.w).quiet.trans (.cores _ _ cs)
  obtain ⟨hget, honly⟩ := modWarp_foldl (fun l w => w.hold (laneBit l) c.is.pc c.is.npc (k l)) c.u ls hw1
  obtain ⟨hdone, hunit⟩ := done_frame (ls.foldl (fun st l => st.modWarp c.u (fun w => w.hold (laneBit l) c.is.pc c.is.npc (k l))) s1) c stay
  obtain ⟨fr0, n0, t0, hheld⟩ := holdEach_eq c.is.pc c.is.npc k ls c.w
  have hstands := holdEach_stands c.is.pc c.is.npc k ls (fun l hl => (hls l hl).1) c.w
  obtain ⟨fr, n, tn, x, hw, hadv⟩ := hunit _ (hget.trans (congrArg some hheld))
  have hadv := hadv h.alive
  rw [hheld] at hstands
  subst ht
  exact ⟨hq1.trans (honly.trans hdone).quiet, _, hw, untouched_rfl c, hadv.waiting (fun l hl => (hls l hl).2) hstands⟩

/-- A lane's access to a word of its own scratchpad that has passed its checks. -/
def State.ownRes (t : State) (c : Ctx) (va : Nat → Nat) (l : Nat) : LaneRes := ⟨l, va l, .ok (ownBytes t c.p.blk (va l) 4)⟩

/-- The bytes of a word of the own scratchpad. -/
def State.ownWord (t : State) (c : Ctx) (va : Nat → Nat) (l : Nat) : List Byte :=
  (List.range 4).map (fun j => t.spadByte c.p.blk (va l % 2 ^ 48 + j))

theorem phaseRead_own (t : State) (c : Ctx) (va : Nat → Nat) (l : Nat) :
    t.phaseRead c (t.ownRes c va l) = (t, .bytes (t.ownWord c va l)) := by
  have hread : t.pointRead c.p c.u .spad (ownBytes t c.p.blk (va l) 4) = (t, t.ownWord c va l) := by
    rw [pointRead_spadLocs t c.p c.u c.p.blk _ ((List.range 4).map (fun j => va l % 2 ^ 48 + j))]
    · rw [State.ownWord, List.map_map]
      rfl
    · simp [ownBytes]
  have hphase : t.phaseRead c (t.ownRes c va l) = ((t.pointRead c.p c.u .spad (ownBytes t c.p.blk (va l) 4)).1,
      .bytes (t.pointRead c.p c.u .spad (ownBytes t c.p.blk (va l) 4)).2) := rfl
  rw [hphase, hread]

theorem phaseReads_own (t : State) (c : Ctx) (va : Nat → Nat) (ls : List Nat) :
    t.phaseReads c (ls.map (t.ownRes c va)) = (t, ls.map (fun l => (t.ownRes c va l, .bytes (t.ownWord c va l)))) := by
  induction ls with
  | nil => rfl
  | cons l ls ih => rw [List.map_cons, State.phaseReads, phaseRead_own, ih, List.map_cons]

theorem maskOfRes_own (t : State) (c : Ctx) (va : Nat → Nat) (ls : List Nat) : maskOfRes (ls.map (t.ownRes c va)) = maskOf ls := by
  rw [maskOfRes, List.map_map]
  exact congrArg maskOf (List.map_id _)

/-- The lanes whose word has the phase asked for. -/
def State.samePhase (t : State) (c : Ctx) (va : Nat → Nat) (ph : Bool) : List Nat :=
  (lanesOf c.m).filter (fun l => phaseOf (t.ownWord c va l) == ph)

/-- The front end leaves whether the unit runs an admitted transaction. -/
theorem Issues.inTx_set {i : Instr} {s : State} {c : Ctx} (h : Issues i s c) : (s.setWarp c.u c.w).inTx c.u = s.inTx c.u := by
  obtain ⟨w, hw, -, -, -, -, g, -, -, hcw⟩ := h.warp
  have htx : c.w.tx = w.tx := by rw [hcw]
  unfold State.inTx State.txOf
  rw [unit_setWarp, hw]
  dsimp only
  rw [htx]
  rfl

section
variable {i a : BitVec 7} {s : State} {c : Ctx} (h : Issues (.pbwait i a) s c) (hx : s.inTx c.u = false) (hrl : s.rl = [])
  (hs : InScratch c (fun l => c.rd64 a.toNat l) 4)

include h hrl hs in
theorem pbwait_checked : (s.setWarp c.u c.w).checkLanes c .load true false 4 (addr0 a c) (fun _ => 0) (lanesOf c.m) =
    (s.setWarp c.u c.w, (lanesOf c.m).map ((s.setWarp c.u c.w).ownRes c (fun l => (c.rd64 a.toNat l).toNat))) := by
  obtain ⟨x, hx, hlr, -, -⟩ := h.block
  exact checkLanes_own (s.setWarp c.u c.w) c .load (by decide) true false 4 (addr0 a c) (fun _ => 0) (lanesOf c.m) x c.lr hx hlr
    (by norm_num) hrl (fun l hl => hs l (mem_lanesOf.1 hl).2) (fun hacc => by simp at hacc)

include h hx hrl hs in
/-- On the own scratchpad the lanes whose word has the phase wait, after the acquire of the others. -/
theorem execPbwait_holds : let t := s.setWarp c.u c.w
    let same := t.samePhase c (fun l => (c.rd64 a.toNat l).toNat) (decide (i.toNat = 1))
    ∃ s1, (∃ cs, s1 = { t with cores := cs }) ∧ exec (.pbwait i a) s = .next ((same.foldl (fun st l => st.modWarp c.u (fun w =>
      w.hold (laneBit l) c.is.pc c.is.npc (.pbwait (c.rd64 a.toNat l).toNat (decide (i.toNat = 1)) (scopeOf c.px 1)))) s1).done c
        (c.is.mask &&& ~~~(maskOf same))) := by
  intro t same
  have hok : ((lanesOf c.m).map (t.ownRes c (fun l => (c.rd64 a.toNat l).toNat))).filter LaneRes.isOk =
      (lanesOf c.m).map (t.ownRes c (fun l => (c.rd64 a.toNat l).toNat)) :=
    List.filter_eq_self.2 fun x hx => by
      obtain ⟨l, -, rfl⟩ := List.mem_map.1 hx
      rfl
  have hbad : ((lanesOf c.m).map (t.ownRes c (fun l => (c.rd64 a.toNat l).toNat))).filter LaneRes.isFault = [] :=
    List.filter_eq_nil_iff.2 fun x hx => by
      obtain ⟨l, -, rfl⟩ := List.mem_map.1 hx
      exact Bool.false_ne_true
  have hnil : maskOfRes ([] : List LaneRes) = 0#64 := rfl
  have hgo := warpOp_next h _ (exec_pbwait i a s)
  rw [h.inTx_set, hx, if_neg Bool.false_ne_true, pbwait_checked h hrl hs] at hgo
  dsimp only at hgo
  rw [hok, hbad, phaseReads_own] at hgo
  have hout : ∀ bs, (Got.bytes bs == Got.outside) = false := fun bs => beq_eq_false_iff_ne.2 (fun he => nomatch he)
  simp only [List.filterMap_map, List.filter_map, List.map_map, Function.comp_def, hout, List.filterMap_none, List.filter_false, List.map_nil,
    List.nil_append, List.foldl_nil, List.foldl_map, settle_nil, hnil, maskOfRes_own, BitVec.zero_or] at hgo
  refine ⟨_, ?_, hgo⟩
  split
  · exact ⟨_, rfl⟩
  · exact acquire_frame ..

include h hx hrl hs in
theorem execPbwait_waits : let same (l : Nat) : Prop :=
      (natLE ((List.range 4).map (fun j => s.spadByte c.p.blk ((c.rd64 a.toNat l).toNat % 2 ^ 48 + j)))).testBit 31 = decide (i = 1)
    ∃ t w, exec (.pbwait i a) s = .next t ∧ (∀ y, t.hByte y = s.hByte y) ∧ (∀ k o, t.spadByte k o = s.spadByte k o) ∧
      (∀ v, v ≠ c.u → kget t.warps v = kget s.warps v) ∧ kget t.warps c.u = some w ∧ Untouched c w ∧
      ∀ l p q, w.stands l p q ↔ if c.m.getLsbD l = true ∧ same l then
          p = c.is.pc ∧ q = .waiting (.pbwait (c.rd64 a.toNat l).toNat (decide (i = 1)) (scopeOf c.px 1))
        else if c.is.mask.getLsbD l = true ∧ c.is.depth = 0 then p = c.is.npc ∧ q = .ready else c.w.stands l p q := by
  intro same
  obtain ⟨s1, hs1, hex⟩ := execPbwait_holds h hx hrl hs
  have hph : decide (i.toNat = 1) = decide (i = 1) := by
    rw [decide_eq_decide]
    exact ⟨fun e => BitVec.eq_of_toNat_eq e, fun e => by rw [e]; rfl⟩
  rw [hph] at hex
  obtain ⟨ls, hls⟩ : ∃ ls, ls = (s.setWarp c.u c.w).samePhase c (fun l => (c.rd64 a.toNat l).toNat) (decide (i = 1)) := ⟨_, rfl⟩
  have hmem : ∀ l, l ∈ ls ↔ c.m.getLsbD l = true ∧ same l := fun l => by
    rw [hls, State.samePhase, List.mem_filter, mem_lanesOf, beq_iff_eq]
    exact ⟨fun ⟨⟨_, hm⟩, hp⟩ => ⟨hm, hp⟩, fun ⟨hm, hp⟩ => ⟨⟨BitVec.lt_of_getLsbD hm, hm⟩, hp⟩⟩
  have hlt : ∀ l ∈ ls, l < 64 := fun l hl => BitVec.lt_of_getLsbD ((hmem l).1 hl).1
  have hstay : ∀ l, (c.is.mask &&& ~~~(maskOf ls)).getLsbD l = (c.is.mask.getLsbD l && !decide (l ∈ ls)) := fun l => by
    rw [BitVec.getLsbD_and, BitVec.getLsbD_not, getLsbD_maskOf _ hlt]
    by_cases hl : l < 64
    · simp [hl]
    · simp [BitVec.getLsbD_of_ge _ _ (Nat.le_of_not_lt hl)]
  rw [← hls] at hex
  obtain ⟨hq, w, hw, hu, hstands⟩ := h.holdEachDone hs1 (fun l => .pbwait (c.rd64 a.toNat l).toNat (decide (i = 1)) (scopeOf c.px 1)) ls
    (c.is.mask &&& ~~~(maskOf ls)) (fun l hl => ⟨hlt l hl, by rw [hstay]; simp [hl]⟩) rfl
  refine ⟨_, w, hex, hq.memory, hq.scratch, hq.others, hw, hu, fun l p q => (hstands l p q).trans ?_⟩
  rw [hstay]
  by_cases hl : l ∈ ls
  · rw [if_pos hl, if_pos ((hmem l).1 hl)]
  · rw [if_neg hl, if_neg (fun hc => hl ((hmem l).2 hc))]
    simp [hl]

end

/-- Settles O33: the word is updated by one read-modify-write after the release, and a lane waits as its word's phase says. -/
theorem phaseBarriers : Obligations.PhaseBarriers :=
  ⟨fun _ _ _ _ h hq hr hrec hrep hrl hs hlev => execPbarr_updates h hq hr hrec hrep hrl hs hlev,
    fun _ _ _ _ h hx hrl hs => execPbwait_waits h hx hrl hs⟩

end Sys2Proof.Machine
end

section
namespace Sys2Proof.Machine

/-! ### Named barriers (R201) -/

/-- No lane of the unit waits for the cause. -/
def Warp.noneWaits (w : Warp) (k : WaitCause) : Prop := ∀ l p, ¬w.stands l p (.waiting k)

/-- A lane that does not stand ready after moves to ready has not moved, and is in no entry moved. -/
theorem moves_unready (es : List Entry) (tgt : Entry → DWord) (w : Warp) {l : Nat} {p : DWord} {q : EntSt} (hq : q ≠ .ready)
    (h : (es.foldl (fun w e => w.move e.mask (tgt e) .ready) w).stands l p q) :
    w.stands l p q ∧ ∀ e ∈ es, e.mask.getLsbD l = false := by
  induction es generalizing w with
  | nil => exact ⟨h, fun e he => by cases he⟩
  | cons x xs ih =>
    obtain ⟨hst, hrest⟩ := ih (w.move x.mask (tgt x) .ready) h
    rw [move_moved w x.mask (tgt x) .ready l p q] at hst
    by_cases hx : x.mask.getLsbD l = true
    · rw [if_pos hx] at hst
      exact absurd hst.2 hq
    · rw [if_neg hx] at hst
      refine ⟨hst, fun e he => ?_⟩
      rcases List.mem_cons.1 he with rfl | he
      · exact Bool.eq_false_iff.2 hx
      · exact hrest e he

/-- After the waits of a cause have ended, no lane waits for it (R26). -/
theorem wake_noneWaits (w : Warp) (k : WaitCause) : (w.wake (fun e => decide (e.st = .waiting k))).noneWaits k := by
  intro l p hst
  obtain ⟨j, hj⟩ := lockedMoves (w.frontier.filter (fun e => decide (e.st = .waiting k))) (fun e => e.next) w
  rw [Warp.wake, hj] at hst
  obtain ⟨⟨e, he, hl, hpc, hk⟩, hmoved⟩ :=
    moves_unready (w.frontier.filter (fun e => decide (e.st = .waiting k))) (fun e => e.next) w EntSt.noConfusion hst
  have hnot := hmoved e (List.mem_filter.2 ⟨he, decide_eq_true hk⟩)
  rw [hl] at hnot
  cases hnot

/-- Every waiter of a barrier among some units goes on (R201). -/
def State.wakeAll (s : State) (us : List Nat) (k : WaitCause) : State :=
  us.foldl (fun st u => st.modWarp u (fun w => w.wake (fun e => decide (e.st = .waiting k)))) s

theorem wakeAll_noneWaits (k : WaitCause) (us : List Nat) (s : State) (u : Nat) (w : Warp)
    (hu : u ∈ us ∨ ∀ v, kget s.warps u = some v → v.noneWaits k) (hw : kget (s.wakeAll us k).warps u = some w) : w.noneWaits k := by
  induction us generalizing s with
  | nil => exact hu.elim (fun h => by cases h) (fun h => h w hw)
  | cons x xs ih =>
    refine ih (s.modWarp x (fun w => w.wake (fun e => decide (e.st = .waiting k)))) ?_ hw
    by_cases hx : u = x
    · subst hx
      refine .inr fun v hv => ?_
      rw [modWarp_warps, kget_kmod_self] at hv
      obtain ⟨v0, -, rfl⟩ := Option.map_eq_some_iff.1 hv
      exact wake_noneWaits v0 k
    · rcases hu with hmem | hnone
      · exact .inl ((List.mem_cons.1 hmem).resolve_left hx)
      · refine .inr fun v hv => ?_
        rw [modWarp_warps, kget_kmod_ne _ _ hx] at hv
        exact hnone v hv

/-- The wakes of a barrier change units alone. -/
theorem wakeAll_eq (k : WaitCause) (us : List Nat) (s : State) : ∃ ws, s.wakeAll us k = { s with warps := ws } := by
  induction us generalizing s with
  | nil => exact ⟨_, rfl⟩
  | cons x xs ih =>
    obtain ⟨ws, h⟩ := ih (s.modWarp x (fun w => w.wake (fun e => decide (e.st = .waiting k))))
    exact ⟨ws, h⟩

section
variable {s : State} {blk id : Nat} {b : Block} {x : Bar} (hb : kget s.blocks blk = some b) (hx : kget b.bars id = some x)

include hb hx in
/-- A phase that is not complete stays as it is (R201). -/
theorem barJudge_open (h : x.arrived < if x.sync then s.liveThreads b else x.expect) : s.barJudge blk id = s := by
  simp only [State.barJudge, hb, hx]
  exact if_neg (Nat.not_le.2 h)

include hb hx in
/-- A complete phase acquires, wakes its waiters and returns to idle (R201). -/
theorem barJudge_complete (h : (if x.sync then s.liveThreads b else x.expect) ≤ x.arrived) : s.barJudge blk id =
    (((s.acquire b.core ((s.lrOf b.launch).elim 0 LaunchRec.blockScope)).wakeAll b.warps (.bar id)).modBlock blk
      (fun b => { b with bars := kdel b.bars id })) := by
  simp only [State.barJudge, hb, hx]
  exact if_pos h

include hb hx in
/-- After a complete phase no lane of the block's units waits on the barrier, which is idle again. -/
theorem barJudge_releases (h : (if x.sync then s.liveThreads b else x.expect) ≤ x.arrived) :
    kget (s.barJudge blk id).blocks blk = some { b with bars := kdel b.bars id } ∧
    ∀ u v, u ∈ b.warps → kget (s.barJudge blk id).warps u = some v → v.noneWaits (.bar id) := by
  obtain ⟨cs, hacq⟩ := acquire_frame s b.core ((s.lrOf b.launch).elim 0 LaunchRec.blockScope)
  obtain ⟨ws, hwake⟩ := wakeAll_eq (.bar id) b.warps (s.acquire b.core ((s.lrOf b.launch).elim 0 LaunchRec.blockScope))
  rw [barJudge_complete hb hx h]
  refine ⟨?_, fun u v hu hv => wakeAll_noneWaits (.bar id) b.warps _ u v (.inl hu) hv⟩
  rw [modBlock_blocks, kget_kmod_self, hwake, hacq]
  exact congrArg (Option.map _) hb

end

/-- A lane that does not stand ready after an instruction's end stood there before. -/
theorem Advances.unready {c : Ctx} {w1 w : Warp} {stay : Mask} (h : Advances c w1 w stay) {l : Nat} {p : DWord} {q : EntSt}
    (hq : q ≠ .ready) (hst : w.stands l p q) : w1.stands l p q := by
  unfold Advances at h
  split at h
  · rw [h l p q] at hst
    split at hst
    · exact absurd hst.2 hq
    · exact hst
  · rwa [Warp.stands, h] at hst

/-- Units with the same live lanes make the same number of live threads. -/
theorem liveThreads_congr {s t : State} {b b' : Block} (hb : b'.warps = b.warps)
    (h : ∀ u, (kget t.warps u).map Warp.live = (kget s.warps u).map Warp.live) : t.liveThreads b' = s.liveThreads b := by
  have hf : ∀ u, (kget t.warps u).elim 0 (fun w => (lanesOf w.live).length) = (kget s.warps u).elim 0 (fun w => (lanesOf w.live).length) :=
    fun u => by
      have hu := h u
      cases ht : kget t.warps u <;> cases hs : kget s.warps u <;> simp_all
  unfold State.liveThreads
  rw [hb]
  simp only [hf]

theorem Rearranged.live {w w' : Warp} (h : Rearranged w w') : w'.live = w.live :=
  BitVec.eq_of_getLsbD_eq fun l _ => h.2 l

theorem Rearranged.untouched {c : Ctx} {w : Warp} (h : Rearranged c.w w) (fr : List Entry) (n : Nat) (t : Option Nat) (x : Option XwRun) :
    Untouched c { w with frontier := fr, fair := n, turn := t, xw := x } := by
  obtain ⟨⟨fr', n', t', k, rfl⟩, -⟩ := h
  exact ⟨rfl, fun _ _ => rfl, fun _ => rfl, fun _ => rfl⟩

/-- Live lanes that start to wait stay live. -/
theorem hold_rearranged (w : Warp) (m : Mask) (pc next : DWord) (k : WaitCause) (h : ∀ l, m.getLsbD l = true → w.live.getLsbD l = true) :
    Rearranged w (w.hold m pc next k) := by
  obtain ⟨fr, n, t, hw⟩ := hold_eq w m pc next k
  refine ⟨⟨fr, n, t, w.locked, hw⟩, fun l => ?_⟩
  rw [Bool.eq_iff_iff, live_moved (hold_moved w m pc next k)]
  exact ⟨fun hl => hl.elim (h l) id, .inr⟩

/-- A block whose barrier some threads have arrived on: the first arrival of a phase fixes its expected count (R201). -/
def Block.arrive (id count n : Nat) (sync : Bool) (b : Block) : Block :=
  let x := (kget b.bars id).getD ⟨0, count, sync⟩
  { b with bars := kput b.bars id { x with arrived := x.arrived + n } }

theorem barArrive_eq (s : State) (blk id count n : Nat) (sync : Bool) :
    s.barArrive blk id count n sync = (s.modBlock blk (Block.arrive id count n sync)).barJudge blk id := rfl

/-- An arrival leaves memory, scratchpads and what units hold but their places. -/
theorem barArrive_keeps (s : State) (blk id count n : Nat) (sync : Bool) : Keeps s (s.barArrive blk id count n sync) :=
  Keeps.trans (b := s.modBlock blk (Block.arrive id count n sync)) ⟨fun _ => rfl, fun k off => spad_modBlock s blk (Block.arrive id count n sync) (fun _ => rfl) k off,
    fun _ w hw => ⟨w, hw, .refl w⟩⟩
    (barJudge_keeps _ blk id)

/-- An arrival on a barrier: a phase that stays open counts it, and a complete one is idle again without waiters (R201). -/
theorem barArrive_arrives {s : State} {blk : Nat} {b : Block} (hb : kget s.blocks blk = some b) (id count n : Nat) (sync : Bool) :
    let x : Bar := (kget b.bars id).getD ⟨0, count, sync⟩
    let need := if x.sync then s.liveThreads b else x.expect
    let t := s.barArrive blk id count n sync
    ∃ b', kget t.blocks blk = some b' ∧ (∀ j, j ≠ id → kget b'.bars j = kget b.bars j) ∧
      (x.arrived + n < need → kget b'.bars id = some { x with arrived := x.arrived + n } ∧ t.warps = s.warps) ∧
      (need ≤ x.arrived + n → kget b'.bars id = none ∧
        ∀ u v, u ∈ b.warps → kget t.warps u = some v → v.noneWaits (.bar id)) := by
  intro x need t
  obtain ⟨b2, hb2⟩ : ∃ b2, b2 = b.arrive id count n sync := ⟨_, rfl⟩
  obtain ⟨s2, hs2⟩ : ∃ s2, s2 = s.modBlock blk (Block.arrive id count n sync) := ⟨_, rfl⟩
  have ht : t = s2.barJudge blk id := by rw [hs2]; exact barArrive_eq ..
  have hblk : kget s2.blocks blk = some b2 := by
    rw [hs2, hb2, modBlock_blocks, kget_kmod_self, hb]
    rfl
  have hbar : kget b2.bars id = some { x with arrived := x.arrived + n } := by rw [hb2]; exact kget_kput_self ..
  have hothers : ∀ j, j ≠ id → kget b2.bars j = kget b.bars j := fun j hj => by rw [hb2]; exact kget_kput_ne _ _ hj
  have hneed : (if x.sync then s2.liveThreads b2 else x.expect) = need := by
    rw [liveThreads_congr (s := s) (b := b) (by rw [hb2]; rfl) (fun u => by rw [hs2]; rfl)]
  have hwarps : b2.warps = b.warps := by rw [hb2]; rfl
  rcases Nat.lt_or_ge (x.arrived + n) need with hlt | hge
  · have hopen : t = s2 := ht.trans (barJudge_open hblk hbar (hneed.symm ▸ hlt))
    rw [hopen]
    exact ⟨b2, hblk, hothers, fun _ => ⟨hbar, by rw [hs2]; rfl⟩, fun hge => absurd hlt (Nat.not_lt.2 hge)⟩
  · obtain ⟨hidle, hnone⟩ := barJudge_releases hblk hbar (hneed.symm ▸ hge)
    rw [← ht] at hidle hnone
    rw [hwarps] at hnone
    refine ⟨_, hidle, fun j hj => ?_, fun hlt => absurd hlt (Nat.not_lt.2 hge), fun _ => ⟨?_, hnone⟩⟩
    · rw [kget_kdel, if_neg hj, hothers j hj]
    · rw [kget_kdel, if_pos rfl]

/-- What a barrier instruction does before it arrives: its release, and the wait of its lanes where it waits. -/
def State.barStaged (s : State) (c : Ctx) (id : Nat) (waits : Bool) : State :=
  let t := (s.relTry c.u c.p.view c.lr.blockScope).1
  if waits then t.modWarp c.u (fun w => w.hold c.m c.is.pc c.is.npc (.bar id)) else t

/-- The count a barrier instruction gives: a register's, or 1. -/
def Ctx.barCount (c : Ctx) (count : Option (BitVec 7)) : Nat := count.elim 1 (fun b => (c.rd b.toNat c.low).toNat)

/-- The effect of a barrier instruction (R201). -/
def barGo (a : BitVec 7) (count : Option (BitVec 7)) (waits : Bool) (c : Ctx) (t : State) : State :=
  let id := (c.rd a.toNat c.low).toNat
  if id ≥ c.lr.bars ∨ c.barCount count = 0 ∨ c.barCount count > 4096 then t.trapAll c 0x01 c.is.word.toNat 0
  else if t.inTx c.u then t.trapAll c 0x16 1 0
  else if (t.releaseTry c c.m c.lr.blockScope).2 then
    ((if waits then (t.releaseTry c c.m c.lr.blockScope).1.modWarp c.u (fun w => w.hold c.m c.is.pc c.is.npc (.bar id))
      else (t.releaseTry c c.m c.lr.blockScope).1).barArrive c.p.blk id (c.barCount count) (lanesOf c.m).length count.isNone).done c
        (if waits then c.rest else c.is.mask)
  else (t.releaseTry c c.m c.lr.blockScope).1.retry

theorem barOp_go (i : Instr) (s : State) (a : BitVec 7) (count : Option (BitVec 7)) (waits : Bool) :
    barOp i s a count waits = warpOp i s (barGo a count waits) := by
  cases count <;> rfl

section
variable {i : Instr} {s : State} {c : Ctx} (h : Issues i s c) (hm : ∀ l, c.m.getLsbD l = true → c.w.stands l c.is.pc .ready)
  (hr : s.releaseMet c.u c.p.view c.lr.blockScope = true)

include hm hr in
theorem barStaged_stages (id : Nat) (waits : Bool) : let t := (s.setWarp c.u c.w).barStaged c id waits
    Quiet s t c.u ∧ t.blocks = s.blocks ∧ ∃ w, kget t.warps c.u = some w ∧ Rearranged c.w w ∧
      if waits then Moved c.w w c.m c.is.pc (.waiting (.bar id)) else w = c.w := by
  obtain ⟨cs, hcores⟩ := (relTry_met (s := s.setWarp c.u c.w) hr).2.1
  have hq : Quiet s { s.setWarp c.u c.w with cores := cs } c.u := (onlyUnit_setWarp s c.u c.w).quiet.trans (.cores _ _ cs)
  dsimp only [State.barStaged]
  rw [hcores]
  cases waits with
  | false => exact ⟨hq, rfl, c.w, unit_setWarp s c.u c.w, .refl _, rfl⟩
  | true =>
    exact ⟨hq.trans (onlyUnit_modWarp _ _ _).quiet, rfl, _,
      modWarp_get (s := { s.setWarp c.u c.w with cores := cs }) (unit_setWarp s c.u c.w) (fun w => w.hold c.m c.is.pc c.is.npc (.bar id)),
      hold_rearranged c.w c.m c.is.pc c.is.npc (.bar id) (fun l hl => live_of_stands (hm l hl)),
      hold_moved c.w c.m c.is.pc c.is.npc (.bar id)⟩

variable {a : BitVec 7} {count : Option (BitVec 7)} {waits : Bool} (he : ∀ s, exec i s = barOp i s a count waits)

include h he in
/-- A legal barrier instruction outside a transaction whose release holds arrives and ends. -/
theorem barOp_arrives (hq : c.w.queues = []) (hr : s.releaseMet c.u c.p.view c.lr.blockScope = true) (hx : s.inTx c.u = false)
    (hid : (c.rd a.toNat c.low).toNat < c.lr.bars) (h1 : 1 ≤ c.barCount count) (h2 : c.barCount count ≤ 4096) :
    exec i s = .next ((((s.setWarp c.u c.w).barStaged c (c.rd a.toNat c.low).toNat waits).barArrive c.p.blk (c.rd a.toNat c.low).toNat
      (c.barCount count) (lanesOf c.m).length count.isNone).done c (if waits then c.rest else c.is.mask)) := by
  have hmet := (relTry_met (s := s.setWarp c.u c.w) hr).1
  have hlegal : ¬((c.rd a.toNat c.low).toNat ≥ c.lr.bars ∨ c.barCount count = 0 ∨ c.barCount count > 4096) := by omega
  refine (warpOp_next h _ ((he s).trans (barOp_go ..))).trans (congrArg Host.Outcome.next ?_)
  unfold barGo
  dsimp only
  rw [if_neg hlegal, h.inTx_set, hx, if_neg Bool.false_ne_true, releaseTry_drained (drained_nil hq _), if_pos hmet]
  rfl

include h he in
/-- A barrier the launch has not, or a count outside 1 to 4,096, is an illegal instruction; inside a transaction too (log 36). -/
theorem barOp_refuses (hte : c.lr.trapentry ≠ 0) (hh : c.w.hlanes = 0)
    (hbad : c.lr.bars ≤ (c.rd a.toNat c.low).toNat ∨ c.barCount count = 0 ∨ 4096 < c.barCount count) :
    ∃ t, exec i s = .next t ∧ Traps s t c c.is.mask 0 0x01 c.is.word.toNat c.is.pc 0 := by
  refine ⟨_, warpOp_next h _ ((he s).trans (barOp_go ..)), ?_⟩
  unfold barGo
  dsimp only
  rw [if_pos hbad]
  exact trapAll_traps h 0x01 c.is.word.toNat 0 hte hh

include h he hm in
theorem barOp_counts {b : Block} (hq : c.w.queues = []) (hr : s.releaseMet c.u c.p.view c.lr.blockScope = true) (hx : s.inTx c.u = false)
    (hb : kget s.blocks c.p.blk = some b) (hid : (c.rd a.toNat c.low).toNat < c.lr.bars) (h1 : 1 ≤ c.barCount count)
    (h2 : c.barCount count ≤ 4096) :
    let id := (c.rd a.toNat c.low).toNat
    let x : Bar := (kget b.bars id).getD ⟨0, c.barCount count, count.isNone⟩
    let arrived := x.arrived + (lanesOf c.m).length
    let need := if x.sync then s.liveThreads b else x.expect
    ∃ t w b', exec i s = .next t ∧ (∀ y, t.hByte y = s.hByte y) ∧
      (∀ k off, t.spadByte k off = s.spadByte k off) ∧ kget t.blocks c.p.blk = some b' ∧ kget t.warps c.u = some w ∧ Untouched c w ∧
      (∀ j, j ≠ id → kget b'.bars j = kget b.bars j) ∧
      (arrived < need → kget b'.bars id = some { x with arrived := arrived } ∧
        if waits then (∀ l p q, w.stands l p q ↔ if c.m.getLsbD l = true then p = c.is.pc ∧ q = .waiting (.bar id)
          else if c.rest.getLsbD l = true ∧ c.is.depth = 0 then p = c.is.npc ∧ q = .ready else c.w.stands l p q)
        else Advances c c.w w c.is.mask) ∧
      (need ≤ arrived → kget b'.bars id = none ∧
        ∀ u v, u ∈ b.warps → kget t.warps u = some v → ∀ l p, ¬v.stands l p (.waiting (.bar id))) := by
  intro id x arrived need
  obtain ⟨hq1, hblocks, w1, hw1, hre, hplace⟩ := barStaged_stages hm hr id waits
  have hex := barOp_arrives h he hq hr hx hid h1 h2
  obtain ⟨s1, hs1⟩ : ∃ s1, s1 = (s.setWarp c.u c.w).barStaged c id waits := ⟨_, rfl⟩
  rw [← hs1] at hq1 hblocks hw1 hex
  have hlive : s1.liveThreads b = s.liveThreads b := liveThreads_congr rfl fun u => by
    by_cases hu : u = c.u
    · obtain ⟨w, hw, -, -, -, -, g, -, -, hcw⟩ := h.warp
      rw [hu, hw1, hw, Option.map_some, Option.map_some, hre.live, hcw]
      rfl
    · rw [hq1.others u hu]
  obtain ⟨b', hb', hothers, hopen, hidle⟩ := barArrive_arrives (hblocks ▸ hb : kget s1.blocks c.p.blk = some b) id (c.barCount count)
    (lanesOf c.m).length count.isNone
  rw [hlive] at hopen hidle
  have hkeep := barArrive_keeps s1 c.p.blk id (c.barCount count) (lanesOf c.m).length count.isNone
  obtain ⟨s2, hs2⟩ : ∃ s2, s2 = s1.barArrive c.p.blk id (c.barCount count) (lanesOf c.m).length count.isNone := ⟨_, rfl⟩
  rw [← hs2] at hb' hopen hidle hkeep hex
  obtain ⟨w2, hw2, hre2⟩ := hkeep.units c.u w1 hw1
  obtain ⟨ho, hunit⟩ := done_frame s2 c (if waits then c.rest else c.is.mask)
  obtain ⟨fr, n, t, xw, hw, hadv⟩ := hunit w2 hw2
  have hre12 := hre.trans hre2
  have hend : w2.ended = false := by
    obtain ⟨⟨fr', n', t', k, hw2eq⟩, -⟩ := hre12
    rw [hw2eq]
    exact h.alive
  have hadv := hadv hend
  have hdone : (s2.done c (if waits then c.rest else c.is.mask)).blocks = s2.blocks := by
    have hrest := congrArg State.blocks ho.rest
    exact hrest
  refine ⟨_, _, b', hex, fun y => ?_, fun k off => ?_, hdone ▸ hb', hw, hre12.untouched fr n t xw, hothers, fun hlt => ?_, fun hge => ?_⟩
  · rw [ho.memory, hkeep.memory, hq1.memory]
  · rw [ho.scratch, hkeep.scratch, hq1.scratch]
  · obtain ⟨hbar, hsame⟩ := hopen hlt
    refine ⟨hbar, ?_⟩
    obtain rfl : w1 = w2 := Option.some.inj (hw1.symm.trans (hsame ▸ hw2))
    cases waits with
    | false => exact advances_of hadv (congrArg Warp.frontier hplace)
    | true => exact hadv.waiting (k := fun _ => .bar id) (held := fun l => c.m.getLsbD l = true) (rest_disj c) hplace
  · obtain ⟨hbar, hnone⟩ := hidle hge
    refine ⟨hbar, fun u v hu hv l p hst => ?_⟩
    by_cases huc : u = c.u
    · subst huc
      obtain rfl := Option.some.inj (hw.symm.trans hv)
      exact hnone c.u w2 hu hw2 l p (hadv.unready EntSt.noConfusion hst)
    · exact hnone u v hu ((ho.others u huc).symm.trans hv) l p hst

end

/-- Settles O30. A barrier's number and count are judged before a transaction's 0x16: the model's choice (log 36). -/
theorem namedBarriers : Obligations.NamedBarriers := fun b a =>
  ⟨fun _ _ _ h hm hq hr hx hb hid h1 h2 => barOp_counts h hm (count := some b) (exec_barArr b a) hq hr hx hb hid h1 h2,
    fun _ _ _ h hm hq hr hx hb hid h1 h2 => barOp_counts h hm (count := some b) (exec_barWait b a) hq hr hx hb hid h1 h2,
    fun _ _ _ h hm hq hr hx hb hid h1 h2 => barOp_counts h hm (count := none) (exec_barSync a) hq hr hx hb hid h1 h2,
    fun _ _ h hte hh hbad => barOp_refuses h (count := some b) (exec_barArr b a) hte hh hbad,
    fun _ _ h hte hh hbad => barOp_refuses h (count := some b) (exec_barWait b a) hte hh hbad,
    fun _ _ h hte hh hbad => barOp_refuses h (count := none) (exec_barSync a) hte hh hbad⟩

end Sys2Proof.Machine
end

section
namespace Sys2Proof.Machine

/-! ### Walks of posted stores (R118, R296) -/

/-- A queue byte after its walk: where its page is now. -/
def QByte.placed (bs : List PByte) (b : QByte) : QByte :=
  (bs.find? (fun y => y.va == b.va)).elim b (fun y => { b with loc := some y.loc, cls := y.cls })

/-- A queue entry after its walk. -/
def QEntry.placed (bs : List PByte) (e : QEntry) : QEntry := { e with walk := none, bytes := e.bytes.map (·.placed bs) }

/-- A walk that its checks pass places the bytes of its entry (R118). -/
theorem placeWalk_one {id lane va : Nat} {bs : List PByte} {e : QEntry} (he : e.walk = some id) :
    placeWalk id ⟨lane, va, .ok bs⟩ [e] = [e.placed bs] := by
  have hmap : ∀ b : QByte, (match bs.find? (fun x => x.va == b.va) with
      | some x => { b with loc := some x.loc, cls := x.cls }
      | none => b) = b.placed bs := fun b => by
    unfold QByte.placed
    cases bs.find? (fun x => x.va == b.va) <;> rfl
  simp only [placeWalk, LaneRes.isOk, LaneRes.bytes, if_true, List.map_cons, List.map_nil, he]
  exact congrArg (fun bytes => [{ e with walk := none, bytes := bytes }]) (List.map_congr_left fun b _ => hmap b)

/-- No lane lies above the only one, so that every byte stays with it (R117). -/
theorem retrim_one {w : Warp} {lane iid : Nat} {e : QEntry} (hq : w.queues = [(lane, [e])]) (he : e.bytes ≠ []) :
    (w.retrim iid).queues = [(lane, [e])] := by
  have hne : e.bytes.isEmpty = false := by simpa using he
  by_cases hid : e.iid = iid
  · subst hid
    simp [Warp.retrim, hq, hne]
  · simp [Warp.retrim, hq, hid]

/-- The walk of a posted store of one lane whose checks pass closes with its bytes placed. -/
theorem closePosted_one {s : State} {u : Nat} {w : Warp} {p : Who} {x : Posted} {lane va : Nat} {e : QEntry} {bs : List PByte}
    (hw : kget s.warps u = some w) (hposted : w.posted = [x]) (hq : w.queues = [(lane, [e])]) (he : e.walk = some x.id) (hne : e.bytes ≠ []) :
    (∀ v, v ≠ u → kget (s.closePosted p u x [⟨lane, va, .ok bs⟩]).warps v = kget s.warps v) ∧
    ∃ w', kget (s.closePosted p u x [⟨lane, va, .ok bs⟩]).warps u = some w' ∧ w'.posted = [] ∧ w'.queues = [(lane, [e.placed bs])] := by
  obtain ⟨w1, hw1⟩ : ∃ w1, w1 = { w with queues := sset [] w.queues lane (placeWalk x.id ⟨lane, va, .ok bs⟩ (sget [] w.queues lane)) } := ⟨_, rfl⟩
  have hq1 : w1.queues = [(lane, [e.placed bs])] := by
    have hget : sget [] w.queues lane = [e] := by simp [hq, sget, kget]
    rw [hw1]
    dsimp only
    rw [hget, placeWalk_one he, hq]
    simp [sset, kput]
  have hne1 : (e.placed bs).bytes ≠ [] := by simpa [QEntry.placed] using hne
  have hq2 := retrim_one (iid := x.id) hq1 hne1
  obtain ⟨s2, hs2⟩ : ∃ s2, s2 = (s.modWarp u (fun w =>
    { w with queues := sset [] w.queues lane (placeWalk x.id ⟨lane, va, .ok bs⟩ (sget [] w.queues lane)) })).modWarp u (·.retrim x.id) := ⟨_, rfl⟩
  have hw2 : kget s2.warps u = some (w1.retrim x.id) := by
    rw [hs2, hw1]
    exact modWarp_get (modWarp_get hw _) _
  have ho2 : OnlyUnit s s2 u := hs2 ▸ (onlyUnit_modWarp _ _ _).trans (onlyUnit_modWarp _ _ _)
  obtain ⟨s3, hs3⟩ : ∃ s3, s3 = s2.hashClose p.launch p.core [(x.id * 64 + lane, true)] := ⟨_, rfl⟩
  have hw3 : s3.warps = s2.warps := hs3 ▸ (hashSet_frame ..).2.1
  have hclose : s.closePosted p u x [⟨lane, va, .ok bs⟩] = s3.modWarp u (fun w => { w with posted := w.posted.filter (fun y => y.id != x.id) }) := by
    rw [hs3, hs2]
    rfl
  have hposted2 : (w1.retrim x.id).posted = [x] := by rw [hw1]; exact hposted
  rw [hclose]
  refine ⟨fun v hv => ?_, _, modWarp_get (hw3 ▸ hw2) _, ?_, hq2⟩
  · rw [modWarp_warps, kget_kmod_ne _ _ hv, hw3, ho2.others v hv]
  · simp [hposted2]

theorem execPageWalk_places {s : State} {u : Nat} {w : Warp} {p : Who} {x : Posted} {lane va : Nat} {e : QEntry} {bs : List PByte}
    (hw : kget s.warps u = some w) (hp : s.who u = some p) (hposted : w.posted = [x]) (hvas : x.vas = [(lane, va)]) (hrej : x.rejected = [])
    (hq : w.queues = [(lane, [e])]) (he : e.walk = some x.id) (hck : (State.checkElem { s with rl := [] } p u lane .store x.need false
      (sget 0 x.level lane) (BitVec.ofNat 64 va) x.width).2 = .ok bs) (hne : e.bytes ≠ []) :
    ∃ t w', exec (.pageWalk u x.id) s = .next t ∧ (∀ v, v ≠ u → kget t.warps v = kget s.warps v) ∧ kget t.warps u = some w' ∧ w'.posted = [] ∧
      sget [] w'.queues lane = [{ e with walk := none, bytes := e.bytes.map (fun b => (bs.find? (fun y => y.va == b.va)).elim b
        (fun y => { b with loc := some y.loc, cls := y.cls })) }] := by
  obtain ⟨r, hr⟩ : ∃ r, r = State.checkElem { s with rl := [] } p u lane .store x.need false (sget 0 x.level lane) (BitVec.ofNat 64 va) x.width :=
    ⟨_, rfl⟩
  have hlanes : s.postedLanes p u x x.vas = ({ r.1 with rl := s.rl }, [⟨lane, va, .ok bs⟩]) := by
    rw [hvas, State.postedLanes, hrej]
    simp only [List.any_nil, Bool.false_eq_true, if_false, State.postedLanes, hck, hr]
  have hwarps : ({ r.1 with rl := s.rl } : State).warps = s.warps := by
    have honly := onlyMem_checkElem { s with rl := [] } p u lane .store x.need false (sget 0 x.level lane) (BitVec.ofNat 64 va) x.width
    rw [← hr] at honly
    exact honly.warps
  have hex : exec (.pageWalk u x.id) s = .next (State.closePosted { r.1 with rl := s.rl } p u x [⟨lane, va, .ok bs⟩]) := by
    rw [exec_pageWalk, execPageWalk, hw, hp]
    simp only [hposted, List.find?_cons, beq_self_eq_true, hlanes, List.findSome?_cons, List.findSome?_nil]
  obtain ⟨hothers, w', hw', hposted', hq'⟩ := closePosted_one (p := p) (va := va) (bs := bs) (hwarps ▸ hw) hposted hq he hne
  refine ⟨_, w', hex, fun v hv => (hothers v hv).trans (by rw [hwarps]), hw', hposted', ?_⟩
  rw [hq']
  simp [sget, kget, QEntry.placed, QByte.placed]

/-! ### The fault queue (R302) -/

/-- The oldest record that waits: the first that is not written. -/
theorem find_unrecorded {pre post : List Outst} {o : Outst} (hpre : ∀ x ∈ pre, x.recorded = true) (ho : o.recorded = false) :
    (pre ++ o :: post).find? (fun o => !o.recorded) = some o := by
  rw [List.find?_append, List.find?_eq_none.2 (fun x hx => by simp [hpre x hx]), Option.none_or, List.find?_cons_of_pos (by simp [ho])]

theorem record_length (o : Outst) (seq : Nat) : (o.record seq).length = 32 := by
  simp [Outst.record, bytesLE_length]

/-- The faults of a page of a context count as recorded. -/
def Part.recordFault (o : Outst) (y : Part) : Part :=
  { y with faultSeq := y.faultSeq + 1, outst := y.outst.map (fun z => if z.ctx = o.ctx ∧ z.page = o.page then { z with recorded := true } else z) }

/-- A partition's fault queue after a record is written (R302). -/
def State.faultRecorded (s : State) (p : Nat) (o : Outst) : State :=
  let t := ((s.setHs (s.preg p .fqBase + 32 * s.preg p .fqTail) (o.record (s.part p).faultSeq)).setPreg p .fqTail
    ((s.preg p .fqTail + 1) % s.preg p .fqSize)).modPart p (Part.recordFault o)
  { t with out := { t.out with msix := t.out.msix ++ [(functionOf p, t.preg p .fqVec)] } }

/-- While the ring has room, the oldest record that waits is written. -/
theorem execFaultRecordWrite_writes {s : State} {p : Nat} {pre post : List Outst} {o : Outst} (hout : (s.part p).outst = pre ++ o :: post)
    (hpre : ∀ x ∈ pre, x.recorded = true) (ho : o.recorded = false) (hsize : s.preg p .fqSize ≠ 0)
    (hown : s.ownsRange p (s.preg p .fqBase + 32 * s.preg p .fqTail) 32 = true)
    (hroom : (s.preg p .fqTail + 1) % s.preg p .fqSize ≠ s.preg p .fqHead % s.preg p .fqSize) :
    exec (.faultRecordWrite p) s = .next (s.faultRecorded p o) := by
  have hfree : ¬(s.preg p .fqSize = 0 ∨ (s.preg p .fqTail + 1) % s.preg p .fqSize = s.preg p .fqHead % s.preg p .fqSize ∨
      (!s.ownsRange p (s.preg p .fqBase + 32 * s.preg p .fqTail) 32) = true) := by
    simp [hsize, hroom, hown]
  rw [exec_faultRecordWrite, execFaultRecordWrite, hout, find_unrecorded hpre ho]
  dsimp only
  rw [if_neg hfree]
  rfl

theorem faultRecorded_eq {s : State} {p : Nat} {o : Outst} {m : List Host.Cell}
    (hm : s.setHs (s.preg p .fqBase + 32 * s.preg p .fqTail) (o.record (s.part p).faultSeq) = { s with mem := m }) :
    s.faultRecorded p o = { s with mem := m, regs := (s.setPreg p .fqTail ((s.preg p .fqTail + 1) % s.preg p .fqSize)).regs,
                                   parts := (s.modPart p (Part.recordFault o)).parts,
                                   out := { s.out with msix := s.out.msix ++ [(functionOf p,
                                     (s.setPreg p .fqTail ((s.preg p .fqTail + 1) % s.preg p .fqSize)).preg p .fqVec)] } } := by
  unfold State.faultRecorded
  rw [hm]
  rfl

/-- A record goes to the ring's tail, the tail moves, the page's faults count as recorded, and the vector of the queue's function is
raised; the function of partition p is p + 1 (log 24). -/
theorem faultRecorded_writes (s : State) (p : Nat) (o : Outst) : let t := s.faultRecorded p o
    let at_ := s.preg p .fqBase + 32 * s.preg p .fqTail
    t = { s with mem := t.mem, regs := t.regs, parts := t.parts, out := t.out } ∧
      (∀ a, t.hByte a = if at_ ≤ a ∧ a < at_ + 32 then (o.record (s.part p).faultSeq).getD (a - at_) 0 else s.hByte a) ∧
      (∀ r, t.reg r = if r = .p p .fqTail then (s.preg p .fqTail + 1) % s.preg p .fqSize else s.reg r) ∧
      (t.part p).faultSeq = (s.part p).faultSeq + 1 ∧ (∀ x ∈ (t.part p).outst, x.ctx = o.ctx → x.page = o.page → x.recorded = true) ∧
      t.out.msix = s.out.msix ++ [(p + 1, s.preg p .fqVec)] := by
  intro t at_
  obtain ⟨m, hm⟩ := setHs_frame (o.record (s.part p).faultSeq) s at_
  have hbyte := hByte_setHs (o.record (s.part p).faultSeq) s at_
  rw [record_length, hm] at hbyte
  have ht := (rfl : t = s.faultRecorded p o).trans (faultRecorded_eq hm)
  have hpart : t.part p = (s.part p).recordFault o := by
    rw [ht]
    exact (part_modPart s p p (Part.recordFault o)).trans (if_pos rfl)
  have hreg : ∀ r, t.reg r = if r = .p p .fqTail then (s.preg p .fqTail + 1) % s.preg p .fqSize else s.reg r := fun r => by
    rw [ht]
    exact reg_setReg_if s (.p p .fqTail) r _
  have hvec : (s.setPreg p .fqTail ((s.preg p .fqTail + 1) % s.preg p .fqSize)).preg p .fqVec = s.preg p .fqVec :=
    reg_setReg_ne (s := s) _ (by simp)
  have hmsix : t.out.msix = s.out.msix ++ [(p + 1, s.preg p .fqVec)] := by
    rw [ht, ← hvec]
    rfl
  refine ⟨by rw [ht], fun a => ?_, hreg, by rw [hpart]; rfl, fun x hx hctx hpage => ?_, hmsix⟩
  · rw [← hbyte a, ht]
    rfl
  · rw [hpart] at hx
    obtain ⟨z, -, rfl⟩ := List.mem_map.1 hx
    by_cases hz : z.ctx = o.ctx ∧ z.page = o.page
    · rw [if_pos hz]
    · rw [if_neg hz] at hctx hpage
      exact absurd ⟨hctx, hpage⟩ hz

/-! ### Collapse, resume and reject (R107, R303) -/

/-- An answer or a collapse that has left units, parts and blocks as they were releases the page: no fault on it is outstanding, and what
was parked on it is ready where it stood (R303). -/
theorem releasePage_readies {s t : State} {p ctx page : Nat} (hwarps : t.warps = s.warps) (hwho : ∀ u, t.who u = s.who u)
    (hpart : t.part p = s.part p) (hblocks : t.blocks = s.blocks) (hb : ∀ b ∈ s.blocks, b.2.errWait = none) (hi : (s.part p).inb = []) :
    (∀ x ∈ ((t.releasePage p ctx page).part p).outst, ¬(x.ctx = ctx ∧ x.page = page)) ∧
    ∀ u w q, kget s.warps u = some w → s.who u = some q → q.part = p → q.ctx = ctx → ∃ w', kget (t.releasePage p ctx page).warps u = some w' ∧
      Kept w w' ∧ Readied w w' (ParkedOn page) (fun e => e.pc) := by
  obtain ⟨-, hout, hunits⟩ := releasePage_spec t p ctx page (hblocks ▸ hb) (hpart ▸ hi)
  exact ⟨hout ▸ filter_outst, fun u w q hu hq hp hc =>
    ⟨_, hunits u w q (hwarps ▸ hu) ((hwho u).trans hq) hp hc, readied_unpark page w⟩⟩

/-- A resumed page is released, and nothing else of memory and registers changes (R303). -/
theorem execFqresResume_readies {s : State} {p page ctx : Nat} {o : Outst} (hctx : ctx = s.preg p .fqrCtx) (ho : o ∈ (s.part p).outst)
    (hoc : o.ctx = ctx) (hop : o.page = page) (hb : ∀ b ∈ s.blocks, b.2.errWait = none) (hi : (s.part p).inb = []) :
    ∃ t, exec (.fqresResume p page) s = .next t ∧ (∀ a, t.hByte a = s.hByte a) ∧ (∀ r, t.reg r = s.reg r) ∧
      (∀ x ∈ (t.part p).outst, ¬(x.ctx = ctx ∧ x.page = page)) ∧
      ∀ u w q, kget s.warps u = some w → s.who u = some q → q.part = p → q.ctx = ctx → ∃ w', kget t.warps u = some w' ∧ Kept w w' ∧
        Readied w w' (ParkedOn page) (fun e => e.pc) := by
  have hex : exec (.fqresResume p page) s = .next (s.releasePage p ctx page) := by
    rw [exec_fqresResume, execFqresResume, ← hctx]
    exact congrArg Host.Outcome.next (if_pos (isOutst_of ho hoc hop))
  obtain ⟨⟨ws, ps, es, ms, heq⟩, -, -⟩ := releasePage_spec s p ctx page hb hi
  obtain ⟨hout, hunits⟩ := releasePage_readies (ctx := ctx) (page := page) rfl (fun _ => rfl) rfl rfl hb hi
  exact ⟨_, hex, fun a => by rw [heq]; rfl, fun r => by rw [heq]; rfl, hout, hunits⟩

/-- The page of a collapse becomes homed: its entry's class goes from 2 to 3, and its translations are gone. -/
def State.collapsed (s : State) (p ctx pte sz at_ : Nat) : State :=
  (((s.spend 64 pageTransfers).dropPage pte sz).setHNat at_ 8 (setBits pte 7 5 3)).tlbDrop p (fun e => e.ctx == ctx && e.pteAt == at_)

theorem collapsed_homes (s : State) {p ctx pte sz at_ : Nat} (hc : pteClass pte = 2) (hlt : pte < 2 ^ 64) :
    let t := s.collapsed p ctx pte sz at_
    t.hNat at_ 8 = pte + 2 ^ 5 ∧ (∀ e ∈ t.tlb, e.part = p → e.ctx = ctx → e.pteAt ≠ at_) ∧
      t.warps = s.warps ∧ t.blocks = s.blocks ∧ t.parts = s.parts ∧ ∀ u, t.who u = s.who u := by
  intro t
  have hmild := mild_dropPage (s.spend 64 pageTransfers) pte sz
  obtain ⟨d, hd⟩ : ∃ d, d = (s.spend 64 pageTransfers).dropPage pte sz := ⟨_, rfl⟩
  rw [← hd] at hmild
  have hnat := hNat_setHNat d at_ 8 (setBits pte 7 5 3)
  obtain ⟨m, hm⟩ := setHs_frame (bytesLE 8 (setBits pte 7 5 3)) d at_
  obtain ⟨cs, hdrop⟩ := tlbDrop_frame (d.setHNat at_ 8 (setBits pte 7 5 3)) p (fun e => e.ctx == ctx && e.pteAt == at_)
  have ht : t = (d.setHNat at_ 8 (setBits pte 7 5 3)).tlbDrop p (fun e => e.ctx == ctx && e.pteAt == at_) := by
    rw [hd]
    rfl
  rw [hdrop] at ht
  have hset : d.setHNat at_ 8 (setBits pte 7 5 3) = { d with mem := m } := hm
  have hparts : d.parts = s.parts := by
    rw [hmild.only]
    rfl
  have hfit : setBits pte 7 5 3 % 2 ^ (8 * 8) = pte + 2 ^ 5 := by
    have hcl : pte / 2 ^ 5 % 2 ^ 3 = 2 := hc
    rw [setBits_class hc]
    omega
  refine ⟨?_, fun e he hp hctx hat => ?_, ?_, ?_, ?_, fun u => ?_⟩
  · rw [← hfit, ← hnat]
    exact hNat_congr (by rw [ht]) at_ 8
  · rw [ht] at he
    have hkeep := (List.mem_filter.1 he).2
    simp [hp, hctx, hat] at hkeep
  · rw [ht, hset]
    exact hmild.only.warps
  · rw [ht, hset]
    exact hmild.only.blocks
  · rw [ht, hset]
    exact hparts
  · have hw := hmild.whoEq u
    rw [ht, hset]
    exact hw

theorem execCollapse_homes {s : State} {p ctx page pte sz at_ : Nat} {o : Outst} (ho : o ∈ (s.part p).outst) (hoc : o.ctx = ctx)
    (hop : o.page = page) (hok : o.kind = 3) (hrec : o.recorded = true) (hspent : s.spent 64 = false)
    (hwalk : s.walk p ctx page = .leaf pte sz at_) (hc : pteClass pte = 2) (hlt : pte < 2 ^ 64)
    (hb : ∀ b ∈ s.blocks, b.2.errWait = none) (hi : (s.part p).inb = []) :
    ∃ t, exec (.collapse p ctx page) s = .next t ∧ t.hNat at_ 8 = pte + 2 ^ 5 ∧ (∀ e ∈ t.tlb, e.part = p → e.ctx = ctx → e.pteAt ≠ at_) ∧
      (∀ x ∈ (t.part p).outst, ¬(x.ctx = ctx ∧ x.page = page)) ∧
      ∀ u w q, kget s.warps u = some w → s.who u = some q → q.part = p → q.ctx = ctx → ∃ w', kget t.warps u = some w' ∧ Kept w w' ∧
        Readied w w' (ParkedOn page) (fun e => e.pc) := by
  obtain ⟨y, hy⟩ : ∃ y, (s.part p).outst.find? (fun o => o.ctx == ctx && o.page == page && o.kind == 3 && o.recorded) = some y :=
    Option.isSome_iff_exists.1 (List.find?_isSome.2 ⟨o, ho, by simp [hoc, hop, hok, hrec]⟩)
  have hwalk' : (s.spend 64 pageTransfers).walk p ctx page = .leaf pte sz at_ := hwalk
  have hex : exec (.collapse p ctx page) s = .next ((s.collapsed p ctx pte sz at_).releasePage p ctx page) := by
    rw [exec_collapse, execCollapse, hy]
    dsimp only
    rw [hspent, if_neg Bool.false_ne_true, hwalk']
    dsimp only
    rw [if_pos hc]
    rfl
  obtain ⟨hnat, htlb, hwarps, hblocks, hparts, hwho⟩ := collapsed_homes s (p := p) (ctx := ctx) (sz := sz) (at_ := at_) hc hlt
  obtain ⟨t, ht⟩ : ∃ t, t = s.collapsed p ctx pte sz at_ := ⟨_, rfl⟩
  rw [← ht] at hex hnat htlb hwarps hblocks hparts hwho
  have hpart : t.part p = s.part p := by rw [State.part, hparts, State.part]
  obtain ⟨⟨ws, ps, es, ms, heq⟩, -, -⟩ := releasePage_spec t p ctx page (hblocks ▸ hb) (hpart ▸ hi)
  obtain ⟨hout, hunits⟩ := releasePage_readies (ctx := ctx) (page := page) hwarps hwho hpart hblocks hb hi
  exact ⟨_, hex, by rw [heq]; exact hnat, by rw [heq]; exact htlb, hout, hunits⟩

/-! ### Shootdown (R300, R301) -/

theorem execShootdown_starts {s : State} {p : Nat} (h : s.preg p .sdBusy ≠ 1) :
    ∃ t, exec (.shootdown p) s = .next t ∧ RegsSet s t [(.p p .sdBusy, 1)] := by
  refine ⟨_, (exec_shootdown p s).trans (congrArg Host.Outcome.next (if_neg h)), ?_⟩
  exact regsSet_setReg s (.p p .sdBusy) 1

/-- The range of a partition's shootdown covers a cached translation (R300). -/
def State.sdCovers (s : State) (p : Nat) (e : TlbEntry) : Bool :=
  s.preg p .sdAll == 1 || decide (e.base < s.preg p .sdVa + s.preg p .sdLen ∧ s.preg p .sdVa < e.base + 2 ^ e.szBits)

/-- A shootdown that is quiet applies dirty lines, drops copies and watches, and then drops the range's translations and ends. -/
theorem execShootdownComplete_ends {s : State} {p : Nat} (hbusy : s.preg p .sdBusy = 1) (hq : s.sdQuiet p (s.preg p .sdCtx) = true) :
    ∃ t, Mild s t ∧ exec (.shootdownComplete p) s =
      .next ((t.tlbDrop p (fun e => e.ctx == s.preg p .sdCtx && t.sdCovers p e)).setPreg p .sdBusy 0) := by
  have hgo : ¬((decide (s.preg p .sdBusy ≠ 1) || !s.sdQuiet p (s.preg p .sdCtx)) = true) := by simp [hbusy, hq]
  refine ⟨_, ?_, (exec_shootdownComplete p s).trans (congrArg Host.Outcome.next (if_neg hgo))⟩
  refine .trans (.trans (.foldl _ (fun s v => .foldl _ (fun s l => ?_) _ _) _ _) (.foldl _ (fun s a => mild_apply s a) _ _)) (.foldl _ (fun s c => ?_) _ _)
  · exact (mild_writeBack s v l.1).trans (mild_cores (refresh_frame _ v l.1))
  · split
    · exact .refl s
    · exact mild_cores ⟨_, rfl⟩

theorem execShootdownComplete_drops {s : State} {p : Nat} (hbusy : s.preg p .sdBusy = 1) (hq : s.sdQuiet p (s.preg p .sdCtx) = true) :
    ∃ t, exec (.shootdownComplete p) s = .next t ∧ t.warps = s.warps ∧ t.preg p .sdBusy = 0 ∧
      ∀ e ∈ t.tlb, e.part = p → e.ctx = s.preg p .sdCtx → s.preg p .sdAll ≠ 1 ∧
        ¬(e.base < s.preg p .sdVa + s.preg p .sdLen ∧ s.preg p .sdVa < e.base + 2 ^ e.szBits) := by
  obtain ⟨t, hmild, hex⟩ := execShootdownComplete_ends hbusy hq
  obtain ⟨cs, hdrop⟩ := tlbDrop_frame t p (fun e => e.ctx == s.preg p .sdCtx && t.sdCovers p e)
  rw [hdrop] at hex
  refine ⟨_, hex, hmild.only.warps, reg_setReg_self _ (.p p .sdBusy) 0, fun e he hp hc => ?_⟩
  have hkeep := (List.mem_filter.1 he).2
  simp only [hp, hc, beq_self_eq_true, Bool.true_and, Bool.not_eq_true', State.sdCovers, Bool.or_eq_false_iff, beq_eq_false_iff_ne,
    decide_eq_false_iff_not] at hkeep
  rw [hmild.regs p .sdAll (by simp), hmild.regs p .sdVa (by simp), hmild.regs p .sdLen (by simp)] at hkeep
  exact hkeep

/-! ### Reject (R303) -/

/-- The one parked entry of a unit takes protection. -/
theorem rejectParked_one {s : State} {u page acc : Nat} {w : Warp} {e : Entry} (hw : kget s.warps u = some w) (hfr : w.frontier = [e])
    (hst : e.st = .parked (.driver page acc)) :
    s.rejectParked u page = s.takeTrap u e.mask e.pc ⟨0x11, accInfo acc, e.next.toNat, e.pc, none⟩ := by
  rw [State.rejectParked, hw]
  simp only [hfr, List.foldl_cons, List.foldl_nil, hst, if_true]

section
variable {s : State} {p page ctx u acc : Nat} {o : Outst} {w : Warp} {q : Who} {lr : LaunchRec} {e : Entry}

/-- The units, engines and matrix commands of a context once a page is refused to them, of which the one unit has one parked entry. -/
def State.pageRefused (s : State) (p ctx page u : Nat) (e : Entry) (acc : Nat) : State :=
  (((s.clearOutst p ctx page).refuseUnits p ctx page).modWarp u (fun w => w.refuse page)).takeTrap u e.mask e.pc
    ⟨0x11, accInfo acc, e.next.toNat, e.pc, none⟩

/-- The refusal of a page traps the parked entry, and leaves partitions but for the page's faults. -/
theorem refused_traps (hw : kget s.warps u = some w) (hwho : s.who u = some q) (hlr : s.lrOf q.launch = some lr) (hte : lr.trapentry ≠ 0)
    (hh : w.hlanes = 0) (hend : w.ended = false) (hm : e.mask ≠ 0) :
    (s.pageRefused p ctx page u e acc).parts = (s.clearOutst p ctx page).parts ∧ (∀ a, (s.pageRefused p ctx page u e acc).hByte a = s.hByte a) ∧
    ∃ w', kget (s.pageRefused p ctx page u e acc).warps u = some w' ∧ TrapTaken w w' 0x11 (accInfo acc) e.pc e.next.toNat e.mask ∧
      (∀ r l, w'.reg r l = w.reg r l) ∧ Moved w w' e.mask (BitVec.ofNat 64 lr.trapentry) .ready := by
  obtain ⟨es, ms, hunits⟩ := refuseUnits_frame (s.clearOutst p ctx page) p ctx page
  obtain ⟨t, ht⟩ : ∃ t, t = ((s.clearOutst p ctx page).refuseUnits p ctx page).modWarp u (fun w => w.refuse page) := ⟨_, rfl⟩
  have hw1 : kget t.warps u = some (w.refuse page) := by
    rw [ht, hunits]
    exact modWarp_get (s := { s.clearOutst p ctx page with engines := es, mengs := ms }) hw _
  have hwho1 : t.who u = some q := by
    rw [ht, who_modWarp _ u u (fun w => w.refuse page) (fun _ => ⟨rfl, rfl, rfl⟩), hunits]
    exact hwho
  have hlr1 : t.lrOf q.launch = some lr := by
    rw [ht, hunits]
    exact hlr
  have hmem : ∀ a, t.hByte a = s.hByte a := fun a => by
    rw [ht, hunits]
    rfl
  have hparts : t.parts = (s.clearOutst p ctx page).parts := by
    rw [ht, hunits]
    rfl
  obtain ⟨v, hv⟩ := takeTrap_set t u q lr (w.refuse page) e.mask e.pc ⟨0x11, accInfo acc, e.next.toNat, e.pc, none⟩ hw1 hwho1 hlr1 hend hh hm hte
  have hb := takeTrap_boundary t u q lr (w.refuse page) e.mask e.pc ⟨0x11, accInfo acc, e.next.toNat, e.pc, none⟩ hw1 hwho1 hlr1 hend hh hm hte
  obtain ⟨w', hw', -, htrap, -, hreg, -, -, -, -, hmoved⟩ := hb.unit
  rw [State.pageRefused, ← ht]
  exact ⟨by rw [hv]; exact hparts, fun a => (hb.outside.memory a).trans (hmem a), w', hw', htrap rfl, hreg, hmoved⟩

theorem execFqresReject_traps (hctx : ctx = s.preg p .fqrCtx) (ho : o ∈ (s.part p).outst) (hoc : o.ctx = ctx) (hop : o.page = page)
    (hb : ∀ b ∈ s.blocks, b.2.errWait = none) (hi : (s.part p).inb = []) (hws : s.warps = [(u, w)]) (hwho : s.who u = some q)
    (hqp : q.part = p) (hqc : q.ctx = ctx) (hlr : s.lrOf q.launch = some lr) (hte : lr.trapentry ≠ 0) (hh : w.hlanes = 0)
    (hend : w.ended = false) (hfr : w.frontier = [e]) (hm : e.mask ≠ 0) (hst : e.st = .parked (.driver page acc)) :
    ∃ t w', exec (.fqresReject p page) s = .next t ∧ (∀ a, t.hByte a = s.hByte a) ∧ (∀ x ∈ (t.part p).outst, ¬(x.ctx = ctx ∧ x.page = page)) ∧
      kget t.warps u = some w' ∧ TrapTaken w w' 0x11 (if acc = 1 ∨ acc = 3 then 1 else if acc = 2 then 2 else 0) e.pc e.next.toNat e.mask ∧
      (∀ r l, w'.reg r l = w.reg r l) ∧ Moved w w' e.mask (BitVec.ofNat 64 lr.trapentry) .ready := by
  have hw : kget s.warps u = some w := by simp [hws, kget]
  obtain ⟨hparts, hmem, w', hw', htrap, hreg, hmoved⟩ :=
    refused_traps (p := p) (ctx := ctx) (page := page) (acc := acc) hw hwho hlr hte hh hend hm
  obtain ⟨t, ht⟩ : ∃ t, t = s.pageRefused p ctx page u e acc := ⟨_, rfl⟩
  rw [← ht] at hparts hmem hw'
  have hpart : t.part p = { s.part p with outst := (s.part p).outst.filter (fun o => !(o.ctx == ctx && o.page == page)) } := by
    rw [State.part, hparts]
    exact (part_modPart s p p _).trans (if_pos rfl)
  have hinb : (t.part p).inb = [] := by
    rw [hpart]
    exact hi
  have hus : (s.warps.map (·.1)).filter (fun u => (s.who u).any (fun q => q.part == p && q.ctx == ctx)) = [u] := by
    simp [hws, hwho, hqp, hqc]
  have hrej : (((s.clearOutst p ctx page).refuseUnits p ctx page).modWarp u (fun w => w.refuse page)).rejectParked u page = t := by
    rw [ht, State.pageRefused]
    obtain ⟨es, ms, hunits⟩ := refuseUnits_frame (s.clearOutst p ctx page) p ctx page
    refine rejectParked_one (w := w.refuse page) ?_ hfr hst
    rw [hunits]
    exact modWarp_get (s := { s.clearOutst p ctx page with engines := es, mengs := ms }) hw _
  have hex : exec (.fqresReject p page) s = .next (t.modPart p (fun y => { y with inb := y.inb.filter (fun x =>
      !(x.page == some page && t.preg p (.apCtx x.ap) == ctx)) })) := by
    rw [exec_fqresReject, execFqresReject, ← hctx]
    dsimp only
    rw [if_pos (isOutst_of ho hoc hop), errWaiters_nil s p ctx page hb, hus]
    simp only [List.foldl_cons, List.foldl_nil, hrej, hinb, List.filter_nil]
  refine ⟨_, w', hex, hmem, fun x hx => ?_, hw', htrap, hreg, hmoved⟩
  rw [part_modPart, if_pos rfl] at hx
  rw [hpart] at hx
  exact filter_outst x hx

end

/-! ### The end of a context (R277) -/

/-- Transactions that are torn down are gone with their handles, and no other change is made to transactions. -/
theorem txDrops (gone : List (Nat × Nat)) (s : State) :
    (∃ ws xs, gone.foldl (fun st t => (st.txDrop t.1).modWarp t.2 (fun w => { w with tx := none })) s = { s with warps := ws, txs := xs }) ∧
    ∀ x ∈ (gone.foldl (fun st t => (st.txDrop t.1).modWarp t.2 (fun w => { w with tx := none })) s).txs, x ∈ s.txs ∧ x.1 ∉ gone.map (·.1) := by
  induction gone generalizing s with
  | nil => exact ⟨⟨_, _, rfl⟩, fun x hx => ⟨hx, List.not_mem_nil⟩⟩
  | cons g gs ih =>
    obtain ⟨⟨ws, xs, heq⟩, hmem⟩ := ih ((s.txDrop g.1).modWarp g.2 (fun w => { w with tx := none }))
    rw [List.foldl_cons]
    refine ⟨⟨ws, xs, heq⟩, fun x hx => ?_⟩
    obtain ⟨hin, hnot⟩ := hmem x hx
    obtain ⟨hin, hne⟩ := mem_kdel' s.txs g.1 x hin
    exact ⟨hin, by simpa [hne] using hnot⟩

/-- A destroyed context's descriptor loses its bit [0], its transactions and allocation records go, and memory keeps every other byte. -/
theorem execContextDestroy_ends {s : State} {p ctx : Nat} (h : ctx < s.preg p .ctxCount) :
    ∃ t, exec (.contextDestroy p ctx) s = .next t ∧ t.ctxExists p ctx = false ∧
    (∀ a, a < s.preg p .ctxTab + 64 * ctx ∨ s.preg p .ctxTab + 64 * ctx + 8 ≤ a → t.hByte a = s.hByte a) ∧ (∀ r, t.reg r = s.reg r) ∧
    (∀ x ∈ t.txs, ¬(x.2.part = p ∧ x.2.ctx = ctx)) ∧ (∀ a ∈ (t.part p).allocs, a.2.ctx ≠ ctx) := by
  obtain ⟨at_, hat⟩ : ∃ at_, at_ = s.preg p .ctxTab + 64 * ctx := ⟨_, rfl⟩
  obtain ⟨v, hv⟩ : ∃ v, v = s.hNat at_ 8 / 2 * 2 := ⟨_, rfl⟩
  obtain ⟨m, hm⟩ := setHs_frame (bytesLE 8 v) s at_
  have hbyte := hByte_setHs (bytesLE 8 v) s at_
  have hnat := hNat_setHNat s at_ 8 v
  rw [State.setHNat, hm] at hnat
  rw [hm, bytesLE_length] at hbyte
  obtain ⟨cs, hcs⟩ := foldl_frame (fun (st : State) (c : Nat × Core) => st.purge c.1 p ctx) (fun st c => purge_frame st c.1 p ctx) s.cores
    { s with mem := m }
  obtain ⟨gone, hgone⟩ : ∃ gone, gone = (s.txs.filter (fun t => t.2.part == p && t.2.ctx == ctx)).map (fun t => (t.1, t.2.u)) := ⟨_, rfl⟩
  obtain ⟨⟨ws, xs, heq⟩, htx⟩ := txDrops gone { s with mem := m, cores := cs }
  have hex : exec (.contextDestroy p ctx) s = .next (State.modPart { s with mem := m, cores := cs, warps := ws, txs := xs } p
      (fun x => { x with allocs := x.allocs.filter (fun a => a.2.ctx != ctx) })) := by
    rw [exec_contextDestroy, execContextDestroy, if_pos h]
    dsimp only
    rw [← hat, ← hv, State.setHNat, hm]
    dsimp only
    rw [hcs]
    dsimp only
    rw [← hgone, heq]
  rw [heq] at htx
  refine ⟨_, hex, ?_, fun a ha => ?_, fun _ => rfl, fun x hx hc => ?_, fun a ha => ?_⟩
  · have hdesc : State.descriptor (State.modPart { s with mem := m, cores := cs, warps := ws, txs := xs } p
        (fun x => { x with allocs := x.allocs.filter (fun a => a.2.ctx != ctx) })) p ctx = v % 2 ^ (8 * 8) := by
      rw [← hnat, hat]
      exact if_pos h
    rw [State.ctxExists, hdesc, Nat.testBit_zero, decide_eq_false_iff_not]
    omega
  · exact (hbyte a).trans (if_neg (by rw [hat]; omega))
  · obtain ⟨hin, hnot⟩ := htx x hx
    refine hnot (List.mem_map.2 ⟨(x.1, x.2.u), ?_, rfl⟩)
    rw [hgone]
    exact List.mem_map.2 ⟨x, List.mem_filter.2 ⟨hin, by simp [hc.1, hc.2]⟩, rfl⟩
  · rw [part_modPart, if_pos rfl] at ha
    simpa using (List.mem_filter.1 ha).2

/-- Settles O44. A page walk, a fault record, a collapse, a shootdown's two steps, the driver's two answers, the end of a context. -/
theorem pageEvents : Obligations.PageEvents :=
  ⟨fun _ _ _ _ _ _ _ _ _ hw hp hposted hvas hrej hq he hck hne => execPageWalk_places hw hp hposted hvas hrej hq he hck hne,
    fun s p _ o _ hout hpre ho hsize hown hroom =>
      ⟨_, execFaultRecordWrite_writes hout hpre ho hsize hown hroom, faultRecorded_writes s p o⟩,
    fun _ _ _ _ _ _ _ _ ho hoc hop hok hrec hspent hwalk hc hlt hb hi => execCollapse_homes ho hoc hop hok hrec hspent hwalk hc hlt hb hi,
    fun _ _ h => execShootdown_starts h, fun _ _ hbusy hq => execShootdownComplete_drops hbusy hq,
    fun _ _ _ _ _ hctx ho hoc hop hb hi => execFqresResume_readies hctx ho hoc hop hb hi,
    fun _ _ _ _ _ _ _ _ _ _ _ hctx ho hoc hop hb hi hws hwho hqp hqc hlr hte hh hend hfr hm hst =>
      execFqresReject_traps hctx ho hoc hop hb hi hws hwho hqp hqc hlr hte hh hend hfr hm hst,
    fun _ _ _ h => execContextDestroy_ends h⟩

end Sys2Proof.Machine
end

section
namespace Sys2Proof.Machine

/-! ### A copy's steps (R226 to R228) -/

theorem execEngineCommandStart_runs {s : State} {eng : Nat} {c : Cmd} {r : List Cmd} (hrun : (s.engine eng).run = none)
    (hq : (s.engine eng).queue = c :: r) (hsess : s.sess c.part < 4) (hh : s.power.halted = false) :
    ∃ t, exec (.engineCommandStart eng) s = .next t ∧ t = { s with engines := t.engines } ∧
      t.engine eng = { s.engine eng with run := some { c with since := s.timebase }, queue := r } ∧ ∀ f, f ≠ eng → t.engine f = s.engine f := by
  have hex : exec (.engineCommandStart eng) s =
      .next (s.setEngine eng { s.engine eng with run := some { c with since := s.timebase }, queue := r }) := by
    rw [exec_engineCommandStart, execEngineCommandStart]
    dsimp only
    rw [hrun, hq]
    exact congrArg Host.Outcome.next (if_pos ⟨hsess, by simp [hh]⟩)
  exact ⟨_, hex, rfl, by rw [engine_setEngine, if_pos rfl], fun f hf => by rw [engine_setEngine, if_neg hf]⟩

section
variable {s : State} {eng : Nat} {e : Engine} {c : Cmd} (hrun : s.running eng = some (e, c))

include hrun in
theorem execScout_scouts {k : Nat} {s1 : State} (hcoll : c.coll = false) (hstop : c.stop = none) (hk : k < c.elems) (hsrc : (c.srcAt k).isSome = true)
    (hw : k ∉ c.wrote) (hbefore : ∀ j < k, c.scoutedTo j = true) (hahead : c.ahead k ≤ c.scout) (hp : ScoutPasses eng c (c.touches k) s s1) :
    ∃ t c', exec (.scout eng k) s = .next t ∧ RunIs s1 t eng c' ∧ (∀ g, g ∈ c'.scouted ↔ g ∈ c.scouted ∨ g ∈ c.pagesAt k) ∧
      c' = { c with scouted := c'.scouted, wrote := if c.mode = 2 then c.wrote ++ [k] else c.wrote } := by
  have hgo : (!c.coll && c.stop.isNone && decide (k < c.elems) && (c.srcAt k).isSome && !c.wrote.contains k &&
      (List.range k).all c.scoutedTo && decide (c.ahead k ≤ c.scout)) = true := by
    simpa [hcoll, hstop, hk, hsrc, hw, hahead] using hbefore
  have hex : exec (.scout eng k) s = .next (s.scoutAll eng c k (c.touches k)) := by
    rw [exec_scout, execScout, hrun]
    exact congrArg Host.Outcome.next (if_pos hgo)
  have hpages : ∀ g, g ∈ dedup (c.scouted ++ c.pagesAt k) ↔ g ∈ c.scouted ∨ g ∈ c.pagesAt k := fun g => by
    rw [mem_dedup, List.mem_append]
  rw [scoutAll_passes eng c k (c.touches k) s s1 hp] at hex
  refine ⟨_, _, hex, runIs_putRun .., ?_⟩
  by_cases hm : c.mode = 2
  · rw [if_pos hm, if_pos hm]
    exact ⟨hpages, rfl⟩
  · rw [if_neg hm, if_neg hm]
    exact ⟨hpages, rfl⟩

include hrun in
/-- A running copy reads by `copyRead`. -/
theorem execEngineRead_copy (k : Nat) (hcoll : c.coll = false) (hstop : c.stop = none) :
    exec (.engineRead eng k) s = .next (s.copyRead eng c k) := by
  rw [exec_engineRead, execEngineRead, hrun]
  simp [hcoll, hstop]

include hrun in
/-- A running copy writes by `copyWrite`. -/
theorem execEngineWrite_copy (k : Nat) (hcoll : c.coll = false) (hstop : c.stop = none) :
    exec (.engineWrite eng k) s = .next (s.copyWrite eng c k) := by
  rw [exec_engineWrite, execEngineWrite, hrun]
  simp [hcoll, hstop]

include hrun in
/-- An element that the source does not hold reads as +0 (R227). -/
theorem execEngineRead_outOfBounds {k : Nat} {x : List Nat} (hcoll : c.coll = false) (hstop : c.stop = none) (hk : k < c.elems)
    (hrd : kget c.rd k = none) (hsc : c.scoutedTo k = true) (hx : c.srcAt k = some x) (hin : c.src.inBounds x = false) :
    ∃ t, exec (.engineRead eng k) s = .next t ∧ RunIs s t eng { c with rd := kput c.rd k (0, 0) } := by
  have hread : s.copyRead eng c k = s.putRun eng { c with rd := kput c.rd k (0, 0) } := by
    rw [State.copyRead]
    simp [hk, hx, hrd, hsc, hin]
  exact ⟨_, (execEngineRead_copy hrun k hcoll hstop).trans (congrArg _ hread), runIs_putRun ..⟩

include hrun in
theorem execEngineRead_element {k : Nat} {x : List Nat} {s1 : State} {bs : List PByte} (hcoll : c.coll = false) (hstop : c.stop = none)
    (hk : k < c.elems) (hrd : kget c.rd k = none) (hsc : c.scoutedTo k = true) (hx : c.srcAt k = some x) (hin : c.src.inBounds x = true)
    (ho : isOutside bs = false)
    (hck : s.unitCheckRej c.rejected [.engine eng] (s.cmdWho eng c) 0x11 .load (c.src.addr x) (fmtSize c.src.fmt) = (s1, .ok bs)) :
    ∃ t, exec (.engineRead eng k) s = .next t ∧
      RunIs s1 t eng { c with rd := kput c.rd k (natLE (engineBytes s1 bs), bs.foldl (fun m b => max m b.lev) 0) } := by
  have hread : s.copyRead eng c k =
      s1.putRun eng { c with rd := kput c.rd k (natLE (engineBytes s1 bs), bs.foldl (fun m b => max m b.lev) 0) } := by
    rw [State.copyRead]
    simp [hk, hx, hrd, hsc, hin, cmdRead_ok s s1 eng c k _ _ bs ho hck]
  exact ⟨_, (execEngineRead_copy hrun k hcoll hstop).trans (congrArg _ hread), runIs_putRun ..⟩

include hrun in
/-- An index row of a copy in gather-rows mode (R227). -/
theorem execEngineRead_row {j : Nat} {s1 : State} {bs : List PByte} (hcoll : c.coll = false) (hstop : c.stop = none) (hm : c.mode = 1)
    (hj : j < cmdExt c 1) (hidx : kget c.idx j = none) (ho : isOutside bs = false)
    (hck : s.unitCheckRej c.rejected [.engine eng] (s.cmdWho eng c) 0x11 .load ((c.gather + 4 * j) % 2 ^ 64) 4 = (s1, .ok bs)) :
    ∃ t, exec (.engineRead eng (c.elems + j)) s = .next t ∧ RunIs s1 t eng { c with idx := kput c.idx j (natLE (engineBytes s1 bs)) } := by
  have hrow : (c.mode != 1 || decide (j ≥ cmdExt c 1) || (kget c.idx j).isSome) = false := by simp [hm, hidx, hj]
  have hread : s.copyRead eng c (c.elems + j) = s1.putRun eng { c with idx := kput c.idx j (natLE (engineBytes s1 bs)) } := by
    rw [State.copyRead]
    dsimp only
    rw [if_neg (by omega), Nat.add_sub_cancel_left, hrow, if_neg Bool.false_ne_true,
      cmdRead_ok s s1 eng c (c.elems + j) ((c.gather + 4 * j) % 2 ^ 64) 4 bs ho hck]
  exact ⟨_, (execEngineRead_copy hrun _ hcoll hstop).trans (congrArg _ hread), runIs_putRun ..⟩

include hrun in
/-- An element that the destination does not hold is done without a write (R227). -/
theorem execEngineWrite_outOfBounds {k v lev : Nat} (hcoll : c.coll = false) (hstop : c.stop = none) (hk : k < c.elems) (hm : c.mode ≠ 2)
    (hw : k ∉ c.wrote) (hsc : c.scoutedTo k = true) (hrd : kget c.rd k = some (v, lev)) (hin : c.dst.inBounds (c.dstAt k) = false) :
    ∃ t, exec (.engineWrite eng k) s = .next t ∧ RunIs s t eng { c with wrote := c.wrote ++ [k] } := by
  have hwrite : s.copyWrite eng c k = s.putRun eng { c with wrote := c.wrote ++ [k] } := by
    rw [State.copyWrite]
    simp [hrd, hk, hm, hw, hsc, hin]
  exact ⟨_, (execEngineWrite_copy hrun k hcoll hstop).trans (congrArg _ hwrite), runIs_putRun ..⟩

include hrun in
/-- An element is written, converted, into the merge stage under the engine's identifier (R226). -/
theorem execEngineWrite_element {k v lev : Nat} {s1 : State} {bs : List PByte} (hcoll : c.coll = false) (hstop : c.stop = none)
    (hk : k < c.elems) (hm : c.mode ≠ 2) (hw : k ∉ c.wrote) (hsc : c.scoutedTo k = true) (hrd : kget c.rd k = some (v, lev))
    (hin : c.dst.inBounds (c.dstAt k) = true) (ho : isOutside bs = false) (hlev : ∀ b ∈ bs, lev ≤ b.lev) (hmem : ∀ b ∈ bs, ∃ pa, b.loc = .mem pa)
    (hck : s.unitCheckRej c.rejected [.engine eng] (s.cmdWho eng c) 0x11 .store (c.dst.addr (c.dstAt k)) (fmtSize c.dst.fmt) = (s1, .ok bs)) :
    ∃ t, exec (.engineWrite eng k) s = .next t ∧ RunIs { s1 with ms := t.ms } t eng { c with wrote := c.wrote ++ [k] } ∧
      t.ms = s1.ms ++ s1.stagedBytes (960 + eng) c.launch bs (bytesLE (fmtSize c.dst.fmt) (convertElem c.src.fmt c.dst.fmt v)) := by
  generalize hdata : bytesLE (fmtSize c.dst.fmt) (convertElem c.src.fmt c.dst.fmt v) = data
  have hlen : data.length = fmtSize c.dst.fmt := by rw [← hdata, bytesLE_length]
  have hput := cmdWrite_ok s s1 eng c k (960 + eng) (c.dst.addr (c.dstAt k)) lev
    ((c.srcAt k).bind (fun x => if c.src.inBounds x then some (c.src.addr x) else none)) data bs ho hlev hmem (by rw [hlen]; exact hck)
  have hgo : (decide (k ≥ c.elems) || decide (c.mode = 2) || c.wrote.contains k || !c.scoutedTo k) = false := by
    simp [hk, hm, hw, hsc]
  have hwrite : s.copyWrite eng c k =
      State.putRun { s1 with ms := s1.ms ++ s1.stagedBytes (960 + eng) c.launch bs data } eng { c with wrote := c.wrote ++ [k] } := by
    rw [State.copyWrite, hrd]
    dsimp only
    rw [hgo, if_neg Bool.false_ne_true, hin, Bool.not_true, if_neg Bool.false_ne_true, hdata, hput]
  exact ⟨_, (execEngineWrite_copy hrun k hcoll hstop).trans (congrArg _ hwrite), putRun_ms .., rfl⟩

/-! ### A collective's steps (R230) -/

include hrun in
/-- An own element of a collective is read, and sent to every other rank. -/
theorem execEngineRead_collective {k : Nat} {s1 : State} {bs : List PByte} (hcoll : c.coll = true) (hstop : c.stop = none) (hk : k < c.count)
    (hsend : c.sends = true) (hrd : kget c.rd k = none) (ho : isOutside bs = false)
    (hlev : bs.foldl (fun m b => max m b.lev) 0 ≤ s.preg c.part .peerLevel) (hsess : s.sess c.part < 2)
    (hck : s.unitCheckRej c.rejected [.engine eng] (s.cmdWho eng c) 0x11 .load ((c.csrc + collBytes c.ckind * k) % 2 ^ 64) (collBytes c.ckind) =
      (s1, .ok bs)) :
    ∃ t, exec (.engineRead eng k) s = .next t ∧
      RunIs { s1 with out := t.out } t eng { c with rd := kput c.rd k (natLE (engineBytes s1 bs), bs.foldl (fun m b => max m b.lev) 0) } ∧
      t.out.peers.map (fun x => (x.1, x.2.1)) = s1.out.peers.map (fun x => (x.1, x.2.1)) ++
        ((List.range c.nranks).filter (· != c.myrank)).map (fun q => (c.group.getD q 0, k)) := by
  have hread := cmdRead_ok s s1 eng c k ((c.csrc + collBytes c.ckind * k) % 2 ^ 64) (collBytes c.ckind) bs ho hck
  have hgo : (decide (k ≥ c.count) || !c.sends || (kget c.rd k).isSome) = false := by simp [hk, hsend, hrd]
  obtain ⟨x, hx⟩ : ∃ x, x = s.sealFrom c (some ((c.csrc + collBytes c.ckind * k) % 2 ^ 64)) (bytesLE (collBytes c.ckind) (natLE (engineBytes s1 bs))) :=
    ⟨_, rfl⟩
  obtain ⟨outs, houts⟩ : ∃ outs, outs = ((List.range c.nranks).filter (· != c.myrank)).map (fun q => (c.group.getD q 0, k, x)) := ⟨_, rfl⟩
  have hcollRead : s.collRead eng c k = State.putRun { s1 with out := { s1.out with peers := s1.out.peers ++ outs } } eng
      { c with rd := kput c.rd k (natLE (engineBytes s1 bs), bs.foldl (fun m b => max m b.lev) 0) } := by
    rw [State.collRead, hgo, if_neg Bool.false_ne_true]
    dsimp only
    rw [hread]
    dsimp only
    rw [if_neg (Nat.not_lt.2 hlev), decide_eq_false (by omega), if_neg Bool.false_ne_true, ← hx, ← houts]
  have hex : exec (.engineRead eng k) s = .next (s.collRead eng c k) := by
    rw [exec_engineRead, execEngineRead, hrun]
    simp [hcoll, hstop]
  rw [hcollRead] at hex
  refine ⟨_, hex, runIs_putRun .., ?_⟩
  have hpeers : (s1.out.peers ++ outs).map (fun x => (x.1, x.2.1)) = s1.out.peers.map (fun x => (x.1, x.2.1)) ++
      ((List.range c.nranks).filter (· != c.myrank)).map (fun q => (c.group.getD q 0, k)) := by
    rw [List.map_append, houts, List.map_map]
    rfl
  exact hpeers

include hrun in
/-- An element of a collective that depends on the rank's own data alone is written by the engine. -/
theorem execEngineWrite_collective {k v lev : Nat} {s1 : State} {bs : List PByte} (hcoll : c.coll = true) (hstop : c.stop = none)
    (hk : k < c.collOut) (hw : k ∉ c.wrote) (hown : (c.ownElem k).bind (kget c.rd) = some (v, lev)) (ho : isOutside bs = false)
    (hlev : ∀ b ∈ bs, lev ≤ b.lev) (hmem : ∀ b ∈ bs, ∃ pa, b.loc = .mem pa)
    (hck : s.unitCheckRej c.rejected [.engine eng] (s.cmdWho eng c) 0x11 .store ((c.cdst + collBytes c.ckind * k) % 2 ^ 64) (collBytes c.ckind) =
      (s1, .ok bs)) :
    ∃ t, exec (.engineWrite eng k) s = .next t ∧ RunIs { s1 with ms := t.ms } t eng { c with wrote := c.wrote ++ [k] } ∧
      t.ms = s1.ms ++ s1.stagedBytes (960 + eng) c.launch bs (bytesLE (collBytes c.ckind) v) := by
  have hex : exec (.engineWrite eng k) s = .next (s.collPut eng c k (960 + eng) v lev) := by
    rw [exec_engineWrite, execEngineWrite, hrun]
    dsimp only
    rw [hstop, Option.isSome_none, if_neg Bool.false_ne_true, hcoll, if_pos rfl, State.collWrite, hown]
    exact congrArg Host.Outcome.next (if_pos ⟨hk, by simp [hw]⟩)
  rw [collPut_ok s s1 eng c k (960 + eng) v lev bs ho hlev hmem hck] at hex
  exact ⟨_, hex, putRun_ms .., rfl⟩

/-- What a rank has sent for an element, as a partition without allocation records receives it: the low bytes. -/
def sentValue (c : Cmd) (vals : List Nat) (q : Nat) : Nat := vals.getD q 0 % 2 ^ (8 * collBytes c.ckind)

theorem sentValue_plain {s : State} {c : Cmd} (hallocs : (s.part c.part).allocs = []) (va : Nat) (vals : List Nat) (q : Nat) :
    (match s.vaToPa c.part c.ctx va with
      | some pa => if pa < devTop then natLE (s.cipher c.part false pa (bytesLE (collBytes c.ckind) (vals.getD q 0)))
        else natLE (bytesLE (collBytes c.ckind) (vals.getD q 0))
      | none => natLE (bytesLE (collBytes c.ckind) (vals.getD q 0))) = sentValue c vals q := by
  simp only [cipher_none s c.part false _ _ hallocs, ite_self, natLE_bytesLE_mod]
  split <;> rfl

include hrun in
/-- An element that is reduced over a port: the sum in ascending rank, under the port's identifier. -/
theorem execCollectiveInboundWrite_sums {port k v own : Nat} {vals : List Nat} {s1 : State} {bs : List PByte} (hcoll : c.coll = true)
    (hstop : c.stop = none) (hk : k < c.collOut) (hw : k ∉ c.wrote) (h2 : c.ckind ≠ 2) (h5 : c.ckind ≠ 5) (hnone : c.ownElem k = none)
    (hport : port < 20) (hdown : port ∉ s.fabric.down) (hallocs : (s.part c.part).allocs = [])
    (hown : own = (if c.ckind = 3 ∨ c.ckind = 4 then c.myrank * (c.count / max c.nranks 1) + k else k))
    (hrd : kget c.rd own = some (v, s.preg c.part .peerLevel)) (ho : isOutside bs = false)
    (hlev : ∀ b ∈ bs, s.preg c.part .peerLevel ≤ b.lev) (hmem : ∀ b ∈ bs, ∃ pa, b.loc = .mem pa)
    (hck : s.unitCheckRej c.rejected [.engine eng] (s.cmdWho eng c) 0x11 .store ((c.cdst + collBytes c.ckind * k) % 2 ^ 64) (collBytes c.ckind) =
      (s1, .ok bs)) :
    ∃ t, exec (.collectiveInboundWrite eng port k vals) s = .next t ∧ RunIs { s1 with ms := t.ms } t eng { c with wrote := c.wrote ++ [k] } ∧
      t.ms = s1.ms ++ s1.stagedBytes (1024 + port) c.launch bs (bytesLE (collBytes c.ckind) (collSum c.ckind
        ((List.range c.nranks).map (fun q => if q = c.myrank then v else vals.getD q 0 % 2 ^ (8 * collBytes c.ckind))))) := by
  have hgo : (!c.coll || c.stop.isSome || decide (k ≥ c.collOut) || c.wrote.contains k || (c.ownElem k).isSome || decide (port ≥ 20) ||
      s.fabric.down.contains port) = false := by
    simp [hcoll, hstop, hk, hw, hnone, hport, hdown]
  have hex : exec (.collectiveInboundWrite eng port k vals) s = .next (s.collPut eng c k (1024 + port) (collSum c.ckind
      ((List.range c.nranks).map (fun q => if q = c.myrank then v else sentValue c vals q))) (s.preg c.part .peerLevel)) := by
    rw [exec_collectiveInboundWrite, execCollectiveInboundWrite, hrun]
    dsimp only
    rw [hgo, if_neg Bool.false_ne_true, if_neg h2, if_neg h5, ← hown, hrd]
    dsimp only
    rw [Nat.max_self]
    refine congrArg (fun xs => Host.Outcome.next (s.collPut eng c k (1024 + port) (collSum c.ckind xs) (s.preg c.part .peerLevel)))
      (List.map_congr_left fun q _ => ?_)
    exact congrArg (fun y => if q = c.myrank then v else y) (sentValue_plain hallocs _ vals q)
  rw [collPut_ok s s1 eng c k (1024 + port) _ _ bs ho hlev hmem hck] at hex
  exact ⟨_, hex, putRun_ms .., rfl⟩

/-! ### The end of a command (R121, R228 to R230) -/

include hrun in
/-- A copy that is done, or has stopped, and whose writes are applied arrives on its DONE word and retires. -/
theorem execCopyCompletion_retires {s1 : State} (hcoll : c.coll = false) (happ : s.unitApplied c.id (960 + eng) = true)
    (hend : c.stop.isSome = true ∨ c.firstLeft = none)
    (harr : (s.unlock c.id).arriveAt c.rejected [.engine eng] ((s.unlock c.id).cmdWho eng c) c.id c.done c.doneCount = (s1, none)) :
    exec (.copyCompletion eng) s = .next (match c.stop with
      | some (cause, addr, info) => s1.retireCmd eng c 2 cause addr info
      | none => s1.retireCmd eng c 1 0 0 0) := by
  have hgo : (c.coll || !(c.stop.isSome || c.firstLeft.isNone) || !s.unitApplied c.id (960 + eng)) = false := by
    rcases hend with h | h <;> simp [hcoll, happ, h]
  rw [exec_copyCompletion, execCopyCompletion, hrun]
  dsimp only
  rw [hgo, if_neg Bool.false_ne_true, harr]
  cases c.stop <;> rfl

include hrun in
theorem execCopyCompletion_ends {s1 : State} (hcoll : c.coll = false) (hstop : c.stop = none) (hleft : c.firstLeft = none)
    (happ : s.unitApplied c.id (960 + eng) = true)
    (harr : (s.unlock c.id).arriveAt c.rejected [.engine eng] ((s.unlock c.id).cmdWho eng c) c.id c.done c.doneCount = (s1, none))
    (hno : NoWaiter s1 c) : ∃ t, exec (.copyCompletion eng) s = .next t ∧ CmdEnded s1 t eng c 1 0 0 0 := by
  have hex := execCopyCompletion_retires hrun hcoll happ (.inr hleft) harr
  rw [hstop] at hex
  exact ⟨_, hex, retire_ended s1 eng c 1 0 0 0 hno⟩

include hrun in
theorem execCopyCompletion_stops {s1 : State} {cause addr info : Nat} (hcoll : c.coll = false) (hstop : c.stop = some (cause, addr, info))
    (happ : s.unitApplied c.id (960 + eng) = true)
    (harr : (s.unlock c.id).arriveAt c.rejected [.engine eng] ((s.unlock c.id).cmdWho eng c) c.id c.done c.doneCount = (s1, none))
    (hno : NoWaiter s1 c) : ∃ t, exec (.copyCompletion eng) s = .next t ∧ CmdEnded s1 t eng c 2 cause addr info := by
  have hex := execCopyCompletion_retires hrun hcoll happ (.inl (by rw [hstop]; rfl)) harr
  rw [hstop] at hex
  exact ⟨_, hex, retire_ended s1 eng c 2 cause addr info hno⟩

/-- The end of a collective whose STATUS is written and whose arrival is made. -/
theorem collEnd_retires {s s1 s2 : State} {eng : Nat} {c : Cmd} {st cause addr info : Nat}
    (hst : (s.unlock c.id).writeStatus eng c (st + cause * 256) = (s1, none))
    (harr : s1.arriveAt c.rejected [.engine eng] (s1.cmdWho eng c) c.id c.done c.doneCount = (s2, none)) :
    s.collEnd eng c st cause addr info = s2.retireCmd eng c st cause addr info := by
  rw [State.collEnd, hst]
  dsimp only
  rw [harr]

include hrun in
/-- A collective ends with its own work done, or stops for a rank whose record differs or for a peer that has not answered in time. -/
theorem execCollectiveCompletion_ends {cause st : Nat} {s1 s2 : State} (hcoll : c.coll = true) (hstop : c.stop = none)
    (happ : s.unitApplied c.id (960 + eng) = true) (hports : ∀ p < 20, ∀ w ∈ s.ms, w.eng = true → w.wid ≠ 1024 + p)
    (hcause : (cause = 0 ∧ c.collDone = true ∧ st = 1) ∨ (cause = 0x17 ∧ st = 2) ∨
      (cause = 0x18 ∧ c.since + s.dreg .fTimeout ≤ s.timebase ∧ st = 2))
    (hst : (s.unlock c.id).writeStatus eng c (st + cause * 256) = (s1, none))
    (harr : s1.arriveAt c.rejected [.engine eng] (s1.cmdWho eng c) c.id c.done c.doneCount = (s2, none)) (hno : NoWaiter s2 c) :
    ∃ t, exec (.collectiveCompletion eng cause) s = .next t ∧ CmdEnded s2 t eng c st cause 0 0 := by
  have hquiet : (List.range 20).any (fun p => s.ms.any (fun w => w.wid == 1024 + p && w.eng)) = false := by
    rw [List.any_eq_false]
    intro p hp
    rw [Bool.not_eq_true, List.any_eq_false]
    intro w hw hk
    rw [Bool.and_eq_true, beq_iff_eq] at hk
    exact hports p (List.mem_range.1 hp) w hw hk.2 hk.1
  have hex : exec (.collectiveCompletion eng cause) s = .next (s.collEnd eng c st cause 0 0) := by
    rw [exec_collectiveCompletion, execCollectiveCompletion, hrun]
    dsimp only
    rw [hcoll, happ, hquiet, hstop]
    rcases hcause with ⟨rfl, hdone, rfl⟩ | ⟨rfl, rfl⟩ | ⟨rfl, htime, rfl⟩
    · simp [hdone]
    · simp
    · simp [htime]
  rw [collEnd_retires hst harr] at hex
  exact ⟨_, hex, retire_ended s2 eng c st cause 0 0 hno⟩

end

/-- Settles O45, step by step. -/
theorem engineEvents : Obligations.EngineEvents :=
  ⟨fun _ _ _ _ hrun hq hsess hh => execEngineCommandStart_runs hrun hq hsess hh,
    fun _ _ _ _ _ _ hrun hcoll hstop hk hsrc hw hbefore hahead hp => execScout_scouts hrun hcoll hstop hk hsrc hw hbefore hahead hp,
    fun _ _ _ _ _ _ hrun hcoll hstop hk hrd hsc hx hin => execEngineRead_outOfBounds hrun hcoll hstop hk hrd hsc hx hin,
    fun _ _ _ _ _ _ _ _ hrun hcoll hstop hk hrd hsc hx hin ho hck => execEngineRead_element hrun hcoll hstop hk hrd hsc hx hin ho hck,
    fun _ _ _ _ _ _ _ hrun hcoll hstop hm hj hidx ho hck => execEngineRead_row hrun hcoll hstop hm hj hidx ho hck,
    fun _ _ _ _ _ _ _ hrun hcoll hstop hk hsend hrd ho hlev hsess hck =>
      execEngineRead_collective hrun hcoll hstop hk hsend hrd ho hlev hsess hck,
    fun _ _ _ _ _ _ _ hrun hcoll hstop hk hm hw hsc hrd hin => execEngineWrite_outOfBounds hrun hcoll hstop hk hm hw hsc hrd hin,
    fun _ _ _ _ _ _ _ _ _ hrun hcoll hstop hk hm hw hsc hrd hin ho hlev hmem hck =>
      execEngineWrite_element hrun hcoll hstop hk hm hw hsc hrd hin ho hlev hmem hck,
    fun _ _ _ _ _ _ _ _ _ hrun hcoll hstop hk hw hown ho hlev hmem hck =>
      execEngineWrite_collective hrun hcoll hstop hk hw hown ho hlev hmem hck,
    fun _ _ _ _ _ _ _ _ _ _ _ hrun hcoll hstop hk hw h2 h5 hnone hport hdown hallocs hown hrd ho hlev hmem hck =>
      execCollectiveInboundWrite_sums hrun hcoll hstop hk hw h2 h5 hnone hport hdown hallocs hown hrd ho hlev hmem hck,
    fun _ _ _ _ _ hrun hcoll hstop hleft happ harr hno => execCopyCompletion_ends hrun hcoll hstop hleft happ harr hno,
    fun _ _ _ _ _ _ _ _ hrun hcoll hstop happ harr hno => execCopyCompletion_stops hrun hcoll hstop happ harr hno,
    fun _ _ _ _ _ _ _ _ hrun hcoll hstop happ hports hcause hst harr hno =>
      execCollectiveCompletion_ends hrun hcoll hstop happ hports hcause hst harr hno⟩

end Sys2Proof.Machine
end

section
/-! The statements of formats and opcode map (chapter 06): a word is put together from its fields again, every opcode of the maps encodes
what it decodes to, and so decoding and encoding are inverse. -/

namespace Sys2Proof.Laws.RoundTrip

/-- Every constructor, in the order of `Instr`. -/
theorem statement_holds (i : Instr) : Statement i :=
  Instr.casesOn (motive := Statement) i
    addW subW addsSw addsUw subsSw subsUw mulW mulhiSw mulhiUw madW minSw minUw maxSw maxUw absSw negW addD subD addwD mulSwd mulUwd
    idot4Sb idot4Ub and or xor andn shl shr sra rotl clz popc brev bfxUw bfxSw bfi perm mov faddF32 fsubF32 fmulF32 ffmaF32 fminF32
    fmaxF32 fabsF32 fnegF32 frcpF32 frsqF32 fsqrtF32 fdivF32 fex2F32 flg2F32 fsinpiF32 fcospiF32 ftanhF32 frndF32 hadd2F16 hmul2F16
    hfma2F16 hadd2Bf16 hmul2Bf16 hfma2Bf16 hmin2Bf16 hmax2Bf16 fdot2Bf16 dadd dmul dfma dmin dmax ddiv dsqrt cvtF32Sw cvtF32Uw
    cvtSwF32 cvtUwF32 pkF16 pkBf16 cvtF32F16 cvtF32Bf16 cvtF64F32 cvtF32F64 qpkE4m3 qpkE5m2 dqE4m3 dqE5m2 shflIdx shflUp shflDn
    shflXor shflRel voteAny voteAll ballot redx redxi scan matchW cmpEqW cmpNeW cmpLtSw cmpLeSw cmpLtUw cmpLeUw fcmpEqF32 fcmpLtF32
    fcmpLeF32 fcmpUnF32 dcmpLt dcmpEq pand por pxor pandn pmovV vmovP pcnt ldSb ldUb ldSh ldUh ldW ldD ldQ stB stH stW stD stQ ldmW
    ldmD ldmQ stmW stmD stmQ ldacqW ldacqD strelW strelD atomAddW atomMinSw atomMinUw atomMaxSw atomMaxUw atomAndW atomOrW atomXorW
    atomExchW atomCasW atomFaddF32 atomAddD atomExchD atomCasD pfL1 pfL2 jmp callr ret barArr barWait barSync pbwait pbarr xw xwp
    untag lnkill mfs mts lnq bcopy coll ewait epoll gpost ofsub ofwait ofcommit ofinfo accrd accwr acalloc acfree mslot mmac mtrans
    mperm mrsum mzero vcnt mwait mpost mdrain ppoint addiW andi ori xori shli shri srai cmpiEq cmpiLtSw cmpiLtUw ldiW stiW ldiD stiD
    ldiQ stiQ bra call movi movu join nop exit trap brk eret fence sdrain wbase sleep yield lnon lnoff bexit fairnessTurn
    storeFaultDelivery transactionOverrunTrap passFaultDelivery producerComplete drain propagate apply refresh engineRead
    engineWrite joinDeadlockRelease pbwaitRelease sleepExpiry pageWalk faultRecordWrite collapse engineCommandStart scout
    copyCompletion collectiveCompletion orderSequencerArrival beatSeal batchExchange transactionAdmission transactionOverrun
    passGrant operandFetch chunkApplied mpostArrival tileDrain accumulatorSpill acallocGrant acfreeEffect preemptionTimeout qpost
    queueResume flush abort nodeDispatch nodeCompletion blockAdmission admissionReservation blockRetirement launchEnd
    latticeTimeslice replayGateTimeout measurementPass contextDestroy shootdown shootdownComplete fqresResume fqresReject halt
    resume step stepall snap poke preempt restore release hostAccess inboundAccess inboundTimeout remoteTimeout peerCompletion
    flitReplay linkRetrain heartbeat sessionBind sessionLapse sessionHalt sessionScrub getMeasurements stage activate
    componentSwitch create partitionRelease handoff allocationRecordWrite levelLower clockSwitch powerInterval droop brownoutWarning
    brownoutClear brownoutTimeout thermalInterval thermalCritical thermalTrip emergencySave emergencyImageWrite opvote
    railHoldExpiry railVoltageReached energyUpdate budgetPeriod patrolScrub uncorrectableError retirecore sparech rowrep lanespare
    tseal swapout transportSelfTest deviceReset registerWrite hostCompletion linkRetrained collectiveInboundWrite

end Sys2Proof.Laws.RoundTrip

namespace Sys2Proof

theorem exists_encode_of_isWord {i : Instr} (h : i.isWord = true) : ∃ w, encode i = some w ∧ decode w = .ok i := by
  obtain ⟨hsome, hdec⟩ := Laws.RoundTrip.statement_holds i
  obtain ⟨w, hw⟩ := Option.isSome_iff_exists.1 (hsome.trans h)
  exact ⟨w, hw, hdec w hw⟩

theorem encode_of_not_isWord {i : Instr} (h : i.isWord = false) : encode i = none :=
  Option.not_isSome_iff_eq_none.1 (by rw [(Laws.RoundTrip.statement_holds i).1, h]; exact Bool.false_ne_true)

/-! ### A word from its fields (R127) -/

/-- Two neighbouring fields are one field. -/
theorem extract_append {len : Nat} (w : BitVec len) (lo n m : Nat) :
    w.extractLsb' (lo + n) m ++ w.extractLsb' lo n = w.extractLsb' lo (m + n) :=
  BitVec.extractLsb'_append_extractLsb'_eq_extractLsb' rfl

theorem encFR_of_fields {w : Word} (h : w.extractLsb' 31 1 = 0#1) :
    encFR (w.extractLsb' 21 10).toNat (w.extractLsb' 14 7) (w.extractLsb' 7 7) (w.extractLsb' 0 7) = w := by
  rw [encFR, BitVec.ofNat_toNat, BitVec.setWidth_eq, ← h, extract_append w 21 10 1, extract_append w 14 7, extract_append w 7 7,
    extract_append w 0 7]
  exact extract_whole w

theorem encFI_of_fields {w : Word} (h : w.extractLsb' 30 2 = 2#2) :
    encFI (w.extractLsb' 26 4).toNat (w.extractLsb' 14 12) (w.extractLsb' 7 7) (w.extractLsb' 0 7) = w := by
  rw [encFI, BitVec.ofNat_toNat, BitVec.setWidth_eq, ← h, extract_append w 26 4, extract_append w 14 12, extract_append w 7 7,
    extract_append w 0 7]
  exact extract_whole w

theorem encFL_of_fields {w : Word} (h : w.extractLsb' 29 3 = 6#3) :
    encFL (w.extractLsb' 25 4).toNat (w.extractLsb' 7 18) (w.extractLsb' 0 7) = w := by
  rw [encFL, BitVec.ofNat_toNat, BitVec.setWidth_eq, ← h, extract_append w 25 4, extract_append w 7 18, extract_append w 0 7]
  exact extract_whole w

theorem encFS_of_fields {w : Word} (h : w.extractLsb' 28 4 = 15#4) : encFS (w.extractLsb' 20 8).toNat (w.extractLsb' 0 20) = w := by
  rw [encFS, BitVec.ofNat_toNat, BitVec.setWidth_eq, ← h, extract_append w 20 8, extract_append w 0 20]
  exact extract_whole w

/-- The leading bits that no other format claims are those of F-S. -/
theorem leading_FS {w : Word} (hR : w.extractLsb' 31 1 ≠ 0) (hI : w.extractLsb' 30 2 ≠ 2) (hL : w.extractLsb' 29 3 ≠ 6)
    (hP : w.extractLsb' 28 4 ≠ 14) : w.extractLsb' 28 4 = 15#4 := by
  have hw := w.isLt
  simp only [BitVec.ofNat_eq_ofNat, ne_eq, ← BitVec.toNat_inj, BitVec.extractLsb'_toNat, BitVec.toNat_ofNat,
    Nat.shiftRight_eq_div_pow] at hR hI hL hP ⊢
  omega

/-! ### Fields shorter than their place (R128) -/

theorem extract_eq_zero {len k m : Nat} {x : BitVec len} (h : x.toNat < 2 ^ k) : 0#m = x.extractLsb' k m := by
  apply BitVec.eq_of_toNat_eq
  simp [Nat.shiftRight_eq_div_pow, Nat.div_eq_of_lt h]

theorem zero_append_low {m k : Nat} (x : BitVec (m + k)) (h : x.toNat < 2 ^ k) : 0#m ++ x.extractLsb' 0 k = x := by
  have hx := extract_append x 0 k m
  rwa [Nat.zero_add, extract_whole, ← extract_eq_zero h] at hx

/-- The acquire bit and the scope of `ldacq`. -/
theorem acquire_fields (b : BitVec 7) (h : b.toNat < 16) : 0#3 ++ b.extractLsb' 3 1 ++ b.extractLsb' 0 3 = b := by
  rw [extract_eq_zero (k := 4) h, extract_append b 3 1, extract_append b 0 3]
  exact extract_whole b

/-- The bits and the scope of `fence`. -/
theorem fence_fields (x : BitVec 20) (h : x.toNat < 32) :
    0#15 ++ x.extractLsb' 4 1 ++ x.extractLsb' 3 1 ++ x.extractLsb' 0 3 = x := by
  rw [extract_eq_zero (k := 5) h, extract_append x 4 1, extract_append x 3 1, extract_append x 0 3]
  exact extract_whole x

/-! ### What one opcode's answer owes its word -/

/-- The word is the encoding of the instruction that the decoder answered, if it answered one. -/
def Encodes (r : Except DecodeErr Instr) (w : Word) : Prop := ∀ i, r = .ok i → encode i = some w

namespace Encodes

variable {i : Instr} {w : Word} {k : Nat}

theorem ok (h : encode i = some w) : Encodes (.ok i) w := fun j hj => by cases hj; exact h

theorem error {e : DecodeErr} : Encodes (.error e) w := fun j hj => by cases hj

/-- Must-be-zero bits: only the words where they are zero decode. -/
theorem guarded {c : Bool} (h : c = true → encode i = some w) : Encodes (mbz c i) w := by
  cases c with
  | false => exact error
  | true => exact ok (h rfl)

theorem zero {x : BitVec k} (h : x = 0 → encode i = some w) : Encodes (mbz (x == 0) i) w :=
  guarded fun hx => h (beq_iff_eq.1 hx)

theorem zero₂ {l : Nat} {x : BitVec k} {y : BitVec l} (h : x = 0 → y = 0 → encode i = some w) :
    Encodes (mbz (x == 0 && y == 0) i) w :=
  guarded fun hxy => by
    obtain ⟨hx, hy⟩ := Bool.and_eq_true_iff.1 hxy
    exact h (beq_iff_eq.1 hx) (beq_iff_eq.1 hy)

theorem zero₃ {x y z : BitVec k} (h : x = 0 → y = 0 → z = 0 → encode i = some w) :
    Encodes (mbz (x == 0 && y == 0 && z == 0) i) w :=
  guarded fun hxyz => by
    obtain ⟨hxy, hz⟩ := Bool.and_eq_true_iff.1 hxyz
    obtain ⟨hx, hy⟩ := Bool.and_eq_true_iff.1 hxy
    exact h (beq_iff_eq.1 hx) (beq_iff_eq.1 hy) (beq_iff_eq.1 hz)

/-- A field of few bits: its higher bits are zero. -/
theorem short {m : Nat} {x : BitVec k} (h : x.toNat < m → encode i = some w) : Encodes (mbz (decide (x.toNat < m)) i) w :=
  guarded fun hx => h (of_decide_eq_true hx)

end Encodes

/-! ### The opcode maps (R140 to R142), block by block; `h_j` is the map's j-th row -/

section
variable (n : Nat) (b a d : BitVec 7)

theorem decFR0_encodes : Encodes (decFR0 n b a d) (encFR (32 * 0 + n) b a d) := by
  unfold decFR0
  split
  case h_15 | h_16 => exact .zero (by rintro rfl; rfl)
  case h_24 => exact .error
  all_goals exact .ok rfl

theorem decFR1_encodes : Encodes (decFR1 n b a d) (encFR (32 * 1 + n) b a d) := by
  unfold decFR1
  split
  case h_9 | h_10 | h_11 | h_16 => exact .zero (by rintro rfl; rfl)
  case h_17 => exact .error
  all_goals exact .ok rfl

theorem decFR2_encodes : Encodes (decFR2 n b a d) (encFR (32 * 2 + n) b a d) := by
  unfold decFR2
  split
  case h_1 | h_2 | h_3 | h_4 | h_5 | h_6 | h_12 => exact .ok rfl
  case h_19 => exact .error
  all_goals exact .zero (by rintro rfl; rfl)

theorem decFR3_encodes : Encodes (decFR3 n b a d) (encFR (32 * 3 + n) b a d) := by
  unfold decFR3
  split
  case h_10 => exact .error
  all_goals exact .ok rfl

theorem decFR4_encodes : Encodes (decFR4 n b a d) (encFR (32 * 4 + n) b a d) := by
  unfold decFR4
  split
  case h_7 => exact .zero (by rintro rfl; rfl)
  case h_8 => exact .error
  all_goals exact .ok rfl

theorem decFR5_encodes : Encodes (decFR5 n b a d) (encFR (32 * 5 + n) b a d) := by
  unfold decFR5
  split
  case h_1 | h_2 | h_3 | h_4 | h_9 | h_10 => exact .zero (by rintro rfl; rfl)
  case h_15 => exact .error
  all_goals exact .ok rfl

theorem decFR6_encodes : Encodes (decFR6 n b a d) (encFR (32 * 6 + n) b a d) := by
  unfold decFR6
  split
  case h_6 | h_7 | h_8 | h_12 => exact .zero (by rintro rfl; rfl)
  case h_13 => exact .error
  all_goals exact .ok rfl

theorem decFR7_encodes : Encodes (decFR7 n b a d) (encFR (32 * 7 + n) b a d) := by
  unfold decFR7
  split
  case h_17 | h_18 | h_19 => exact .zero (by rintro rfl; rfl)
  case h_20 => exact .error
  all_goals exact .ok rfl

theorem decFR8_encodes : Encodes (decFR8 n b a d) (encFR (32 * 8 + n) b a d) := by
  unfold decFR8
  split
  case h_13 | h_14 | h_15 | h_16 | h_17 | h_18 =>
    exact .short fun h => congrArg (fun y => some (encFR _ y a d)) (zero_append_low (m := 3) (k := 4) b h)
  case h_19 | h_20 => exact .short fun h => congrArg (fun y => some (encFR _ y a d)) (acquire_fields b h)
  case h_21 | h_22 => exact .short fun h => congrArg (fun y => some (encFR _ y a d)) (zero_append_low (m := 4) (k := 3) b h)
  case h_23 => exact .error
  all_goals exact .ok rfl

theorem decFR9_encodes : Encodes (decFR9 n b a d) (encFR (32 * 9 + n) b a d) := by
  unfold decFR9
  split
  case h_15 | h_16 => exact .zero (by rintro rfl; rfl)
  case h_17 => exact .error
  all_goals exact .ok rfl

theorem decFR10_encodes : Encodes (decFR10 n b a d) (encFR (32 * 10 + n) b a d) := by
  unfold decFR10
  split
  case h_1 | h_3 | h_6 => exact .zero₂ (by rintro rfl rfl; rfl)
  case h_9 => exact .error
  all_goals exact .zero (by rintro rfl; rfl)

theorem decFR11_encodes : Encodes (decFR11 n b a d) (encFR (32 * 11 + n) b a d) := by
  unfold decFR11
  split
  case h_1 => exact .zero₂ (by rintro rfl rfl; rfl)
  case h_8 => exact .error
  all_goals exact .zero (by rintro rfl; rfl)

theorem decFR12_encodes : Encodes (decFR12 n b a d) (encFR (32 * 12 + n) b a d) := by
  unfold decFR12
  split
  case h_2 | h_3 | h_9 => exact .zero₂ (by rintro rfl rfl; rfl)
  case h_7 | h_8 => exact .zero₃ (by rintro rfl rfl rfl; rfl)
  case h_12 => exact .error
  all_goals exact .zero (by rintro rfl; rfl)

theorem decFR14_encodes : Encodes (decFR14 n b a d) (encFR (32 * 14 + n) b a d) := by
  unfold decFR14
  split
  case h_1 | h_2 | h_5 | h_7 | h_9 | h_12 => exact .zero (by rintro rfl; rfl)
  case h_8 | h_13 => exact .zero₂ (by rintro rfl rfl; rfl)
  case h_10 => exact .zero₃ (by rintro rfl rfl rfl; rfl)
  case h_14 => exact .error
  all_goals exact .ok rfl

theorem decFI_encodes (x : BitVec 12) : Encodes (decFI n x a d) (encFI n x a d) := by
  unfold decFI
  split
  case h_5 | h_6 | h_7 => exact .short fun h => congrArg (fun y => some (encFI _ y a d)) (zero_append_low (m := 7) (k := 5) x h)
  case h_17 => exact .error
  all_goals exact .ok rfl

theorem decFL_encodes (x : BitVec 18) : Encodes (decFL n x d) (encFL n x d) := by
  unfold decFL
  split
  case h_1 => exact .zero (by rintro rfl; rfl)
  case h_5 => exact .zero₂ (by rintro rfl rfl; rfl)
  case h_6 => exact .error
  all_goals exact .ok rfl

theorem decFS_encodes (x : BitVec 20) : Encodes (decFS n x) (encFS n x) := by
  unfold decFS
  split
  case h_3 | h_9 | h_13 => exact .ok rfl
  case h_6 => exact .short fun h => congrArg (fun y => some (encFS _ y)) (fence_fields x h)
  case h_8 => exact .short fun h => congrArg (fun y => some (encFS _ y)) (zero_append_low (m := 16) (k := 4) x h)
  case h_14 | h_15 => exact .error
  all_goals exact .zero (by rintro rfl; rfl)

end

/-- An opcode is the number of its block of 32 and its row within the block. -/
theorem Encodes.of_block {op k : Nat} {b a d : BitVec 7} {r : Except DecodeErr Instr} (hk : op / 32 = k)
    (h : Encodes r (encFR (32 * k + op % 32) b a d)) : Encodes r (encFR op b a d) := by
  rwa [← hk, Nat.div_add_mod] at h

theorem decFR_encodes (op : Nat) (b a d : BitVec 7) : Encodes (decFR op b a d) (encFR op b a d) := by
  unfold decFR
  split
  next h => exact .of_block h (decFR0_encodes _ b a d)
  next h => exact .of_block h (decFR1_encodes _ b a d)
  next h => exact .of_block h (decFR2_encodes _ b a d)
  next h => exact .of_block h (decFR3_encodes _ b a d)
  next h => exact .of_block h (decFR4_encodes _ b a d)
  next h => exact .of_block h (decFR5_encodes _ b a d)
  next h => exact .of_block h (decFR6_encodes _ b a d)
  next h => exact .of_block h (decFR7_encodes _ b a d)
  next h => exact .of_block h (decFR8_encodes _ b a d)
  next h => exact .of_block h (decFR9_encodes _ b a d)
  next h => exact .of_block h (decFR10_encodes _ b a d)
  next h => exact .of_block h (decFR11_encodes _ b a d)
  next h => exact .of_block h (decFR12_encodes _ b a d)
  next h => exact .of_block h (decFR14_encodes _ b a d)
  next => exact .error

/-- A word that decodes is the encoding of what it decodes to (R127). -/
theorem decode_encodes (w : Word) : Encodes (decode w) w := by
  unfold decode
  split_ifs with hR hI hL hP
  · have h := decFR_encodes (w.extractLsb' 21 10).toNat (w.extractLsb' 14 7) (w.extractLsb' 7 7) (w.extractLsb' 0 7)
    rwa [encFR_of_fields hR] at h
  · have h := decFI_encodes (w.extractLsb' 26 4).toNat (w.extractLsb' 7 7) (w.extractLsb' 0 7) (w.extractLsb' 14 12)
    rwa [encFI_of_fields hI] at h
  · have h := decFL_encodes (w.extractLsb' 25 4).toNat (w.extractLsb' 0 7) (w.extractLsb' 7 18)
    rwa [encFL_of_fields hL] at h
  · exact .error
  · have h := decFS_encodes (w.extractLsb' 20 8).toNat (w.extractLsb' 0 20)
    rwa [encFS_of_fields (leading_FS hR hI hL hP)] at h

/-- Settles O55: an instruction's own row of the maps one way, the word's fields and the row of its opcode the other. -/
theorem decodeOfEncode : Obligations.DecodeOfEncode :=
  ⟨fun _ => ⟨exists_encode_of_isWord, encode_of_not_isWord⟩, decode_encodes⟩

/-- Settles O54: each word but that of F-P is put together from its fields, which its format's map decodes. -/
theorem decodedWords : Obligations.DecodedWords :=
  ⟨decode_encFR 0x000 (by decide) 3 2 1, decode_encFR 0x104 (by decide) 5 4 3, decode_encFI 0 (by decide) 0xFFF 2 1,
    decode_encFL 0 (by decide) 5 0, decode_encFS 0x05 (by decide) 0x1D, decode_encFS 0x01 (by decide) 0,
    decode_encFR 0x00E (by decide) 1 2 1, decode_encFR 0x017 (by decide) 0 0 0, by decide, decode_encFS 0x10 (by decide) 0⟩

end Sys2Proof
end

section
/-! The words of a list of instructions (R127, R131, R140 to R142): what every row of a list of one format has, read off the whole list
at once. -/

namespace Sys2Proof.Machine

/-- The instructions of the list have the words of one format, under the opcodes at their side, and accept the same modifiers. -/
structure RowsOf (L : List (Instr × Nat)) (ops : Nat) (enc : Nat → Word) (px : Px) : Prop where
  opcodes : L.all (fun e => decide (e.2 < ops)) = true
  words : L.map (fun e => encode e.1) = L.map (fun e => some (enc e.2))
  modifiers : L.map (fun e => e.1.row.px) = L.map (fun _ => px)

namespace RowsOf

variable {L : List (Instr × Nat)} {ops : Nat} {enc : Nat → Word} {px : Px}

theorem mem (h : RowsOf L ops enc px) {e : Instr × Nat} (he : e ∈ L) :
    e.2 < ops ∧ encode e.1 = some (enc e.2) ∧ e.1.row.px = px :=
  ⟨of_decide_eq_true (List.all_eq_true.1 h.opcodes e he), List.map_inj_left.1 h.words e he, List.map_inj_left.1 h.modifiers e he⟩

theorem written_FR {b a d : BitVec 7} (h : RowsOf L 1024 (fun op => encFR op b a d) px) :
    ∀ e ∈ L, Written e.1 (e.2 * 2 ^ 21 + b.toNat * 2 ^ 14 + a.toNat * 2 ^ 7 + d.toNat) px := fun e he => by
  obtain ⟨hop, hw, hp⟩ := h.mem he
  exact Sys2Proof.written_FR e.1 e.2 b a d px hop hw hp

theorem written_unary {a d : BitVec 7} (h : RowsOf L 1024 (fun op => encFR op 0 a d) px) :
    ∀ e ∈ L, Written e.1 (e.2 * 2 ^ 21 + a.toNat * 2 ^ 7 + d.toNat) px := fun e he => by
  obtain ⟨hop, hw, hp⟩ := h.mem he
  exact Sys2Proof.written_unary e.1 e.2 a d px hop hw hp

theorem written_FI {x : BitVec 12} {a d : BitVec 7} (h : RowsOf L 16 (fun op => encFI op x a d) px) :
    ∀ e ∈ L, Written e.1 (e.2 * 2 ^ 26 + 0x80000000 + x.toNat * 2 ^ 14 + a.toNat * 2 ^ 7 + d.toNat) px := fun e he => by
  obtain ⟨hop, hw, hp⟩ := h.mem he
  exact Sys2Proof.written_FI e.1 e.2 x a d px hop hw hp

theorem written_shift {n : BitVec 5} {a d : BitVec 7} (h : RowsOf L 16 (fun op => encFI op (0#7 ++ n) a d) px) :
    ∀ e ∈ L, Written e.1 (e.2 * 2 ^ 26 + 0x80000000 + n.toNat * 2 ^ 14 + a.toNat * 2 ^ 7 + d.toNat) px := fun e he => by
  obtain ⟨hop, hw, hp⟩ := h.mem he
  exact Sys2Proof.written_shift e.1 e.2 n a d px hop hw hp

theorem written_FL {k : BitVec 18} {d : BitVec 7} (h : RowsOf L 16 (fun op => encFL op k d) px) :
    ∀ e ∈ L, Written e.1 (e.2 * 2 ^ 25 + 0xC0000000 + k.toNat * 2 ^ 7 + d.toNat) px := fun e he => by
  obtain ⟨hop, hw, hp⟩ := h.mem he
  exact Sys2Proof.written_FL e.1 e.2 k d px hop hw hp

end RowsOf

/-- The instructions of a list have one lineage class (R61). -/
theorem cls_of_rows {L : List Instr} {k : Cls} (h : L.map (fun i => i.row.cls) = L.map (fun _ => k)) : ∀ i ∈ L, i.row.cls = k :=
  List.map_inj_left.1 h

/-- A word without immediate limits and fourth operand is legal where its registers are aligned (R128). -/
theorem legalWord_iff_aligned {i : Instr} (hw : i.isWord = true) (hi : ∀ rm, i.immOk rm = true) (hf : i.row.fourth = 0) (x : PxF) :
    i.legalWord x = true ↔ i.row.uses.all Use.aligned = true := by
  simp [Instr.legalWord, hw, hi, hf]

@[simp] theorem aligned_reg (pos f n : Nat) (rd wr : Bool) : (Use.reg pos f n rd wr).aligned = true ↔ f % n = 0 := by
  simp [Use.aligned]

end Sys2Proof.Machine
end

section
/-! The statements of integer arithmetic, logic, bit fields and immediates (chapter 07). -/

namespace Sys2Proof.Machine

/-! ### Saturation and absolute value (R83, R149, R151) -/

theorem satU32_natCast (n : Nat) : satU32 n = BitVec.ofNat 32 (min 4294967295 n) := by
  have h : max (0 : Int) (min 4294967295 n) = ((min 4294967295 n : Nat) : Int) := by omega
  rw [satU32, h, BitVec.ofInt_natCast]

/-- A difference below zero saturates at 0, as the subtraction of natural numbers does. -/
theorem satU32_sub (x y : Word) : satU32 ((x.toNat : Int) - y.toNat) = BitVec.ofNat 32 (x.toNat - y.toNat) := by
  have hx := x.isLt
  have h : max 0 (min 4294967295 ((x.toNat : Int) - y.toNat)) = ((x.toNat - y.toNat : Nat) : Int) := by omega
  rw [satU32, h, BitVec.ofInt_natCast]

theorem ofNat_natAbs (x : Word) : BitVec.ofNat 32 x.toInt.natAbs = if x.msb then -x else x := by
  have hx := x.isLt
  have hi := BitVec.toInt_eq_msb_cond x
  apply BitVec.eq_of_toNat_eq
  split_ifs at hi ⊢ with h
  · rw [hi, BitVec.toNat_ofNat, BitVec.toNat_neg]
    omega
  · rw [hi, BitVec.toNat_ofNat]
    omega

/-- The magnitude of every word but −2^31 is a signed word. -/
theorem natAbs_le_max {x : Word} (h : x ≠ 0x80000000) : x.toInt.natAbs ≤ 2147483647 := by
  have hx := x.isLt
  have hne : x.toNat ≠ 2147483648 := fun he => h (BitVec.eq_of_toNat_eq he)
  rw [BitVec.toInt_eq_toNat_cond]
  split <;> omega

/-- R151: the magnitude, with −2^31 by st. -/
theorem absW_eq (st : Bool) (x : Word) :
    (if x = 0x80000000 then (if st then 0x7FFFFFFF else 0x80000000) else if x.msb then -x else x) =
      if st then BitVec.ofInt 32 (min 2147483647 x.toInt.natAbs) else BitVec.ofNat 32 x.toInt.natAbs := by
  by_cases h : x = 0x80000000
  · subst h
    cases st <;> rfl
  · have hmin : min 2147483647 (x.toInt.natAbs : Int) = x.toInt.natAbs := min_eq_right (by exact_mod_cast natAbs_le_max h)
    rw [if_neg h, hmin, BitVec.ofInt_natCast, ite_self, ofNat_natAbs]

/-- Settles O1: each instruction has its operand form; saturation, extrema and magnitudes are the sums' and words' own. -/
theorem integerArithmetic : Obligations.IntegerArithmetic := by
  intro b a d
  exact ⟨wordOp2_computes (exec_addW b a d) fun _ _ => rfl, wordOp2_computes (exec_subW b a d) fun _ _ => rfl,
    wordOp2_computes (exec_addsSw b a d) fun _ _ => rfl, wordOp2_computes (exec_addsUw b a d) fun _ _ => satU32_natCast _,
    wordOp2_computes (exec_subsSw b a d) fun _ _ => rfl, wordOp2_computes (exec_subsUw b a d) fun _ _ => satU32_sub _ _,
    wordOp2_computes (exec_mulW b a d) fun _ _ => rfl, wordOp2_computes (exec_mulhiSw b a d) fun _ _ => rfl,
    wordOp2_computes (exec_mulhiUw b a d) fun _ _ => rfl, wordOp3_computes (exec_madW b a d) fun _ _ => rfl,
    wordOp2_computes (exec_minSw b a d) fun _ _ => minBy_keyS _ _,
    wordOp2_computes (exec_minUw b a d) fun _ _ => (minBy_keyU _ _).trans (if_congr BitVec.ult_iff_lt.symm rfl rfl),
    wordOp2_computes (exec_maxSw b a d) fun _ _ => maxBy_keyS _ _,
    wordOp2_computes (exec_maxUw b a d) fun _ _ => (maxBy_keyU _ _).trans (if_congr BitVec.ult_iff_lt.symm rfl rfl),
    regOp_word (exec_absSw a d) fun c _ => absW_eq c.px.st _, wordOp1_computes (exec_negW a d) fun _ _ => (BitVec.zero_sub _).symm,
    RowsOf.written_FR ⟨rfl, rfl, rfl⟩, written_FR _ 9 b a d pxMC (by decide) rfl rfl, written_unary _ 14 a d pxMS (by decide) rfl rfl,
    written_unary _ 15 a d pxM (by decide) rfl rfl⟩

/-! ### Pairs and dot products (R152, R153) -/

theorem signExtend_mul (x y : Word) : x.signExtend 64 * y.signExtend 64 = BitVec.ofInt 64 (x.toInt * y.toInt) :=
  (BitVec.ofInt_mul ..).symm

theorem setWidth_mul (x y : Word) : x.setWidth 64 * y.setWidth 64 = BitVec.ofNat 64 (x.toNat * y.toNat) := by
  rw [BitVec.ofNat_mul, BitVec.ofNat_toNat, BitVec.ofNat_toNat]

/-- The four byte products, one by one. -/
theorem idot4_eq (ext : BitVec 8 → Int) (x y z : Word) :
    let p (k : Nat) := ext (byteOf x k) * ext (byteOf y k)
    idot4 ext x y z = BitVec.ofInt 32 (z.toNat + p 0 + p 1 + p 2 + p 3) := rfl

theorem idot4_nat (x y z : Word) :
    let p (k : Nat) := (byteOf x k).toNat * (byteOf y k).toNat
    idot4 (fun v => (v.toNat : Int)) x y z = BitVec.ofNat 32 (z.toNat + p 0 + p 1 + p 2 + p 3) := by
  intro p
  rw [idot4_eq, ← BitVec.ofInt_natCast]
  push_cast [p]
  rfl

/-- The fields an instruction reads and writes as registers are aligned to the registers they name. -/
theorem legalWord_iff_fields {i : Instr} {b a d : BitVec 7} {n m k : Nat} (hw : i.isWord = true) (hi : ∀ rm, i.immOk rm = true)
    (hf : i.row.fourth = 0) (hu : i.row.uses = [.reg 0 a.toNat n true false, .reg 1 b.toNat m true false, .reg 3 d.toNat k false true])
    (x : PxF) : i.legalWord x = true ↔ a.toNat % n = 0 ∧ b.toNat % m = 0 ∧ d.toNat % k = 0 := by
  rw [legalWord_iff_aligned hw hi hf, hu]
  simp

theorem legalWord_pairs (b a d : BitVec 7) :
    ∀ i ∈ [Instr.addD b a d, .subD b a d], ∀ x, i.legalWord x = true ↔ b.toNat % 2 = 0 ∧ a.toNat % 2 = 0 ∧ d.toNat % 2 = 0 :=
  List.forall_mem_cons.2 ⟨fun x => (legalWord_iff_fields rfl (fun _ => rfl) rfl rfl x).trans and_left_comm,
    List.forall_mem_singleton.2 fun x => (legalWord_iff_fields rfl (fun _ => rfl) rfl rfl x).trans and_left_comm⟩

theorem legalWord_addwD (b a d : BitVec 7) (x : PxF) :
    (Instr.addwD b a d).legalWord x = true ↔ a.toNat % 2 = 0 ∧ d.toNat % 2 = 0 := by
  rw [legalWord_iff_fields (b := b) (a := a) (d := d) rfl (fun _ => rfl) rfl rfl x, Nat.mod_one]
  simp

theorem legalWord_products (b a d : BitVec 7) :
    ∀ i ∈ [Instr.mulSwd b a d, .mulUwd b a d], ∀ x, i.legalWord x = true ↔ d.toNat % 2 = 0 := by
  have words (k : Nat) : a.toNat % 1 = 0 ∧ b.toNat % 1 = 0 ∧ k % 2 = 0 ↔ k % 2 = 0 := by simp [Nat.mod_one]
  exact List.forall_mem_cons.2 ⟨fun x => (legalWord_iff_fields rfl (fun _ => rfl) rfl rfl x).trans (words _),
    List.forall_mem_singleton.2 fun x => (legalWord_iff_fields rfl (fun _ => rfl) rfl rfl x).trans (words _)⟩

/-- Settles O2: each instruction has its operand form; its fields are aligned as its row says. -/
theorem pairArithmetic : Obligations.PairArithmetic := by
  intro b a d
  exact ⟨pairOp_computes (exec_addD b a d) fun _ _ => rfl, pairOp_computes (exec_subD b a d) fun _ _ => rfl,
    pairOp_computes (exec_addwD b a d) fun _ _ => rfl, pairOp_computes (exec_mulSwd b a d) fun _ _ => signExtend_mul _ _,
    pairOp_computes (exec_mulUwd b a d) fun _ _ => setWidth_mul _ _, wordOp3_computes (exec_idot4Sb b a d) fun _ _ => idot4_eq _ _ _ _,
    wordOp3_computes (exec_idot4Ub b a d) fun _ _ => idot4_nat _ _ _, RowsOf.written_FR ⟨rfl, rfl, rfl⟩, RowsOf.written_FR ⟨rfl, rfl, rfl⟩,
    legalWord_pairs b a d, legalWord_addwD b a d, legalWord_products b a d⟩

/-! ### Shifts (R155) -/

theorem shlW_eq (x n : Word) : shlW x n = if 32 ≤ n.toNat then 0 else x <<< n.toNat := by
  split_ifs with h
  · exact BitVec.shiftLeft_eq_zero h
  · rfl

theorem shrW_eq (x n : Word) : shrW x n = if 32 ≤ n.toNat then 0 else x >>> n.toNat := by
  split_ifs with h
  · exact BitVec.ushiftRight_eq_zero h
  · rfl

/-- A count of 32 or more leaves copies of the sign. -/
theorem sraW_eq (x n : Word) :
    sraW x n = if 32 ≤ n.toNat then (if x.msb then 0xFFFFFFFF else 0) else x.sshiftRight n.toNat := by
  split_ifs with h hm
  · rw [sraW, BitVec.sshiftRight_eq_of_msb_true hm, BitVec.ushiftRight_eq_zero h]
    rfl
  · rw [sraW, BitVec.sshiftRight_eq_of_msb_false (Bool.eq_false_iff.2 hm)]
    exact BitVec.ushiftRight_eq_zero h
  · rfl

/-- Settles O3: each instruction has its operand form; a long shift count leaves zeros or copies of the sign. -/
theorem logicAndShifts : Obligations.LogicAndShifts := by
  intro b a d
  exact ⟨wordOp2_computes (exec_and b a d) fun _ _ => rfl, wordOp2_computes (exec_or b a d) fun _ _ => rfl,
    wordOp2_computes (exec_xor b a d) fun _ _ => rfl, wordOp2_computes (exec_andn b a d) fun _ _ => rfl,
    wordOp1_computes (exec_mov a d) fun _ _ => rfl, wordOp2_computes (exec_shl b a d) fun _ _ => shlW_eq _ _,
    wordOp2_computes (exec_shr b a d) fun _ _ => shrW_eq _ _, wordOp2_computes (exec_sra b a d) fun _ _ => sraW_eq _ _,
    wordOp2_computes (exec_rotl b a d) fun _ _ => rfl, RowsOf.written_FR ⟨rfl, rfl, rfl⟩,
    written_unary _ 0x2F a d pxM (by decide) rfl rfl, cls_of_rows rfl⟩

/-! ### Bit counts, bit fields and byte permutes (R156 to R158) -/

theorem clzW_eq (x : Word) : clzW x = if x = 0 then 32 else BitVec.ofNat 32 (31 - Nat.log2 x.toNat) := by
  unfold clzW
  split_ifs
  · rfl
  · rfl

theorem popcW_eq (x : Word) : popcW x = BitVec.ofNat 32 ((List.range 32).countP (fun k => x.getLsbD k)) := by
  rw [popcW, List.countP_eq_length_filter]

/-- The field that a word describes: its position and its length, cut at bit 31 (R157). -/
theorem fieldOf_eq (y : Word) : fieldOf y = (y.toNat % 32, min (y.toNat / 256 % 64) (32 - y.toNat % 32)) := by
  simp [fieldOf, bits]

/-- The number that the low `len` bits of `v` hold in two's complement. -/
theorem ofInt_signed {v len : Nat} (hv : v < 2 ^ len) (hlen : len ≠ 0) :
    (if v.testBit (len - 1) then BitVec.ofInt 32 ((v : Int) - (2 ^ len : Nat)) else BitVec.ofNat 32 v) =
      BitVec.ofInt 32 (if 2 ^ (len - 1) ≤ (v : Int) then (v : Int) - 2 ^ len else v) := by
  obtain ⟨k, rfl⟩ := Nat.exists_eq_succ_of_ne_zero hlen
  have hcast : 2 ^ k ≤ (v : Int) ↔ 2 ^ k ≤ v := by exact_mod_cast Iff.rfl
  rw [Nat.succ_sub_one]
  by_cases h : 2 ^ k ≤ v
  · rw [if_pos (Nat.testBit_of_two_pow_le_and_two_pow_add_one_gt h hv), if_pos (hcast.2 h)]
    push_cast
    rfl
  · rw [Nat.testBit_lt_two_pow (Nat.lt_of_not_le h), if_neg Bool.false_ne_true, if_neg (mt hcast.1 h), BitVec.ofInt_natCast]

theorem bfxS_eq (x y : Word) :
    let pos := y.toNat % 32
    let len := min (y.toNat / 256 % 64) (32 - pos)
    let v : Int := x.toNat / 2 ^ pos % 2 ^ len
    bfxS x y = if len = 0 then 0 else BitVec.ofInt 32 (if 2 ^ (len - 1) ≤ v then v - 2 ^ len else v) := by
  intro pos len v
  have hv : v = ((x.toNat / 2 ^ pos % 2 ^ len : Nat) : Int) := by push_cast [v]; rfl
  unfold bfxS
  rw [fieldOf_eq, hv]
  exact if_ctx_congr Iff.rfl (fun _ => rfl) fun hlen => ofInt_signed (Nat.mod_lt _ (Nat.two_pow_pos len)) hlen

/-- A control's byte is a byte of the two words side by side. -/
theorem permByte_source (x y : Word) {k : Nat} (hk : k < 8) :
    (if k < 4 then byteOf x k else byteOf y (k - 4)) = (y ++ x).extractLsb' (8 * k) 8 := by
  split_ifs with h
  · exact (Sys2Proof.extract_low y x (by omega)).symm
  · rw [Sys2Proof.extract_high y x (by omega), byteOf, Nat.mul_sub]

theorem permByte_eq (x y z : Word) (i : Nat) :
    let ctl := z.toNat / 2 ^ (5 * i) % 32
    let v := (y ++ x).extractLsb' (8 * (ctl % 8)) 8
    permByte x y z i = if ctl / 8 = 0 then v else if ctl / 8 = 1 then (if v.msb then 0xFF else 0) else if ctl / 8 = 2 then 0 else 0xFF := by
  intro ctl v
  unfold permByte
  dsimp only
  rw [permByte_source x y (Nat.mod_lt _ (by decide))]
  split
  next h => simp [ctl, v, h]
  next h => simp [ctl, v, h]
  next h => simp [ctl, h]
  next h0 h1 h2 => exact ((if_neg h0).trans ((if_neg h1).trans (if_neg h2))).symm

/-- Settles O4: each instruction has its operand form; the fields and the bytes a word describes are those of R157 and R158. -/
theorem bitFields : Obligations.BitFields := by
  intro b a d
  refine ⟨wordOp1_computes (exec_clz a d) fun _ _ => clzW_eq _, wordOp1_computes (exec_popc a d) fun _ _ => popcW_eq _,
    wordOp1_computes (exec_brev a d) fun _ _ => rfl, wordOp2_computes (exec_bfxUw b a d) fun _ _ => ?_,
    wordOp2_computes (exec_bfxSw b a d) fun _ _ => bfxS_eq _ _, wordOp3_computes (exec_bfi b a d) fun _ _ => ?_,
    wordOp3_computes (exec_perm b a d) fun _ _ => ?_,
    RowsOf.written_unary ⟨rfl, rfl, rfl⟩, RowsOf.written_FR ⟨rfl, rfl, rfl⟩, RowsOf.written_FR ⟨rfl, rfl, rfl⟩⟩
  · rw [bfxU, fieldOf_eq]
  · rw [bfiW, fieldOf_eq]
  · simp only [permW, wordOfBytes, permByte_eq]

/-! ### Immediates (R159, R160) -/

theorem count_toNat (n : BitVec 5) : (n.setWidth 32).toNat = n.toNat := by
  rw [BitVec.toNat_setWidth, Nat.mod_eq_of_lt (by have := n.isLt; omega)]

/-- R160: the constant above the low 14 bits of the old word. -/
theorem movu_word (k : BitVec 18) (x : Word) : k ++ x.extractLsb' 0 14 = (k.setWidth 32 <<< 14) ||| (x &&& 0x3FFF) := by
  have hk := k.isLt
  have high : (k.setWidth 32 <<< 14).toNat = k.toNat <<< 14 := by
    simp only [BitVec.toNat_shiftLeft, BitVec.toNat_setWidth, Nat.shiftLeft_eq]
    omega
  have low : (x &&& 0x3FFF).toNat = (x.extractLsb' 0 14).toNat := by
    rw [BitVec.toNat_and, BitVec.extractLsb'_toNat, Nat.shiftRight_zero]
    exact Nat.and_two_pow_sub_one_eq_mod x.toNat 14
  apply BitVec.eq_of_toNat_eq
  rw [BitVec.toNat_append, BitVec.toNat_or, high, low]

/-- An immediate shift whose bits [11:5] are set does not decode. -/
theorem decode_long_shift (x : BitVec 12) (a d : BitVec 7) : ∀ op ∈ [4, 5, 6], 32 ≤ x.toNat →
    decode (BitVec.ofNat 32 (op * 2 ^ 26 + 0x80000000 + x.toNat * 2 ^ 14 + a.toNat * 2 ^ 7 + d.toNat)) = .error .mustBeZero := by
  intro op hop hx
  have long (i : Instr) : mbz (decide (x.toNat < 32)) i = .error .mustBeZero := by
    rw [decide_eq_false (Nat.not_lt.2 hx)]
    rfl
  have h16 : op < 16 := by
    revert op
    decide
  rw [← encFI_ofNat op h16, decode_encFI op h16]
  revert op
  simp [decFI, long]

/-- Settles O5: each instruction has its operand form with the extended immediate; a shift count has only five bits. -/
theorem immediates : Obligations.Immediates := by
  intro x n k a d
  refine ⟨wordOp1_computes (exec_addiW x a d) fun _ _ => rfl, wordOp1_computes (exec_andi x a d) fun _ _ => rfl,
    wordOp1_computes (exec_ori x a d) fun _ _ => rfl, wordOp1_computes (exec_xori x a d) fun _ _ => rfl,
    wordOp1_computes (exec_shli n a d) fun _ _ => ?_, wordOp1_computes (exec_shri n a d) fun _ _ => ?_,
    wordOp1_computes (exec_srai n a d) fun _ _ => ?_, regOp_word (exec_movi k d) fun _ _ => rfl,
    regOp_word (exec_movu k d) fun _ _ => movu_word k _, RowsOf.written_FI ⟨rfl, rfl, rfl⟩, RowsOf.written_shift ⟨rfl, rfl, rfl⟩,
    decode_long_shift x a d, RowsOf.written_FL ⟨rfl, rfl, rfl⟩, rfl⟩
  · rw [shlW, count_toNat]
  · rw [shrW, count_toNat]
  · rw [sraW, count_toNat]

end Sys2Proof.Machine
end

section
/-! The statements of compares, predicates and special functions (chapter 07). -/

namespace Sys2Proof.Machine

/-! ### Integer compares and predicates (R161, R163, R164) -/

theorem sext12_toInt (x : BitVec 12) : (sext12 x).toInt = x.toInt := BitVec.toInt_signExtend_of_le (by decide)

theorem zext12_toNat (x : BitVec 12) : (zext12 x).toNat = x.toNat := by
  rw [zext12, BitVec.toNat_setWidth, Nat.mod_eq_of_lt (by have := x.isLt; omega)]

/-- The number of lanes of a mask (R164). -/
theorem lanesOf_length (m : Mask) : (lanesOf m).length = (List.range 64).countP (fun k => m.getLsbD k) :=
  List.countP_eq_length_filter.symm

/-- Settles O6: each instruction has its operand form on words or predicates, with the extended immediate where it has one. -/
theorem comparesAndPredicates : Obligations.ComparesAndPredicates := by
  intro x b a d
  refine ⟨cmpOp2_decides (exec_cmpEqW b a d) fun _ _ => rfl, cmpOp2_decides (exec_cmpNeW b a d) fun _ _ => ?_,
    cmpOp2_decides (exec_cmpLtSw b a d) fun _ _ => rfl, cmpOp2_decides (exec_cmpLeSw b a d) fun _ _ => rfl,
    cmpOp2_decides (exec_cmpLtUw b a d) fun _ _ => rfl, cmpOp2_decides (exec_cmpLeUw b a d) fun _ _ => rfl,
    cmpOp1_decides (exec_cmpiEq x a d) fun _ _ => rfl, cmpOp1_decides (exec_cmpiLtSw x a d) fun _ _ => ?_,
    cmpOp1_decides (exec_cmpiLtUw x a d) fun _ _ => ?_, predOp2_decides (exec_pand b a d) fun _ _ => rfl,
    predOp2_decides (exec_por b a d) fun _ _ => rfl, predOp2_decides (exec_pxor b a d) fun _ _ => rfl,
    predOp2_decides (exec_pandn b a d) fun _ _ => rfl, cmpOp1_decides (exec_pmovV a d) fun _ _ => ?_,
    regOp_word (exec_vmovP a d) fun _ _ => rfl, regOp_word (exec_pcnt a d) fun _ _ => congrArg _ (lanesOf_length _),
    RowsOf.written_FR ⟨rfl, rfl, rfl⟩, RowsOf.written_FI ⟨rfl, rfl, rfl⟩, RowsOf.written_unary ⟨rfl, rfl, rfl⟩, cls_of_rows rfl, pred_zero⟩
  · exact (decide_not ..).symm
  · rw [BitVec.slt, sext12_toInt]
  · rw [BitVec.ult, zext12_toNat]
  · exact (decide_not ..).symm

/-! ### Floating compares (R162) -/

/-- A compare holds where no operand is a NaN and the order of the values is in the relation; a signalling NaN raises NV. -/
theorem cmpF_eq (f : Fmt) (rel : Int → Bool) (x y : Nat) : cmpF f rel x y =
    (!(decodeF f x).isNaN && !(decodeF f y).isNaN && rel (cmpV (decodeF f x) (decodeF f y)),
      if (decodeF f x).snan || (decodeF f y).snan then flNV else 0) := by
  unfold cmpF
  dsimp only
  cases (decodeF f x).isNaN <;> cases (decodeF f y).isNaN <;> rfl

/-- An instruction that compares two numbers into a predicate, with their flags. -/
theorem compare_decides {i : Instr} {d : BitVec 7} (x y : Ctx → Nat → Nat) {f : Nat → Nat → Bool × Flags}
    (he : ∀ s, exec i s = predOp i s d (fun c l => f (x c l) (y c l))) {r : Nat → Nat → Bool} {fl : Nat → Nat → BitVec 5}
    (hf : ∀ m n, f m n = (r m n, fl m n)) : Decides i d (fun c l => r (x c l) (y c l)) (fun c l => fl (x c l) (y c l)) :=
  (predOp_decides i d _ he).congr (fun c l => by rw [hf]) (fun c l => by rw [hf])

/-- Settles O7: each compare is that of its format and relation on its words or pairs. -/
theorem floatingCompares : Obligations.FloatingCompares := by
  intro b a d nv ord w p
  exact ⟨compare_decides (w a) (w b) (exec_fcmpEqF32 b a d) (cmpF_eq f32 relEq),
    compare_decides (w a) (w b) (exec_fcmpLtF32 b a d) (cmpF_eq f32 relLt),
    compare_decides (w a) (w b) (exec_fcmpLeF32 b a d) (cmpF_eq f32 relLe),
    compare_decides (w a) (w b) (exec_fcmpUnF32 b a d) fun _ _ => rfl,
    compare_decides (p a) (p b) (exec_dcmpLt b a d) (cmpF_eq f64 relLt),
    compare_decides (p a) (p b) (exec_dcmpEq b a d) (cmpF_eq f64 relEq), RowsOf.written_FR ⟨rfl, rfl, rfl⟩, cls_of_rows rfl⟩

/-! ### Special functions (R170, R171) -/

theorem sfuOpI_computes {i : Instr} {a d : BitVec 7} {op : SfuOp} (he : ∀ s, exec i s = sfuOpI i s a d op) :
    ComputesFloat i d (fun c l => sfuF op c.px.st (c.rd a.toNat l)) :=
  regOp_computes i d 1 _ he (fun _ _ => rfl)

/-- An operand that R171 lists gives the result it lists, clamped where it is infinite and st is set. -/
theorem sfuF_listed {op : SfuOp} {x : Word} {r : Nat × Flags} (sat : Bool) (hx : (decodeF f32 x.toNat).isNaN = false)
    (hr : sfuExact op (decodeF f32 x.toNat) = some r) :
    sfuF op sat x = if sat ∧ r.1 % 2 ^ 31 = 0x7F800000 then (r.1 - 1, r.2 ||| flNX) else r := by
  unfold sfuF
  generalize decodeF f32 x.toNat = v at hx hr
  cases v with
  | nan neg frac fb snan => cases hx
  | inf neg => simp only [hr]
  | fin neg m e => simp only [hr]

/-- R171 lists the infinities of every function. -/
theorem sfuExact_inf (op : SfuOp) (neg : Bool) : sfuExact op (.inf neg) ≠ none := by
  cases op <;> cases neg <;> exact Option.some_ne_none _

/-- An operand that R171 does not list is a finite number, and its result is the device's own (log 8). -/
theorem sfuF_unlisted {op : SfuOp} {x : Word} (hx : (decodeF f32 x.toNat).isNaN = false)
    (hr : sfuExact op (decodeF f32 x.toNat) = none) : ∃ neg m e, sfuF op false x = sfuOther op x neg m e := by
  unfold sfuF
  generalize decodeF f32 x.toNat = v at hx hr
  cases v with
  | nan neg frac fb snan => cases hx
  | inf neg => exact absurd hr (sfuExact_inf op neg)
  | fin neg m e =>
    simp only [hr]
    exact ⟨neg, m, e, if_neg fun h => Bool.false_ne_true h.1⟩

theorem sfuOther_flags (op : SfuOp) (x : Word) (neg : Bool) (m : Nat) (e : Int) : (sfuOther op x neg m e).2 =
    if (sfuOther op x neg m e).1 % 2 ^ 31 < 0x800000 then flUF ||| flNX else flNX := rfl

/-- Settles O11: each instruction has its operand form, and an operand is listed by R171 or not; the value of one that is not is the
device's own (log 8). -/
theorem specialFunctions : Obligations.SpecialFunctions := by
  refine ⟨fun a d => ⟨sfuOpI_computes (exec_frcpF32 a d), sfuOpI_computes (exec_frsqF32 a d), sfuOpI_computes (exec_fex2F32 a d),
    sfuOpI_computes (exec_flg2F32 a d), sfuOpI_computes (exec_fsinpiF32 a d), sfuOpI_computes (exec_fcospiF32 a d),
    sfuOpI_computes (exec_ftanhF32 a d)⟩, fun op x r hx hr hfin sat => ?_, fun op x hx hr => ?_⟩
  · rw [sfuF_listed sat hx hr, if_neg fun h => hfin h.2]
  · obtain ⟨neg, m, e, h⟩ := sfuF_unlisted hx hr
    rw [h]
    exact sfuOther_flags op x neg m e

end Sys2Proof.Machine
end

section
/-! The statements of flow, memory and issue (chapter 08): shuffles and votes, the end of a block, synchronising inside a transaction,
barrier words and the issue register. -/

namespace Sys2Proof.Machine

/-! ### Shuffles, votes and match (R186, R187) -/

/-- A shuffle reads the lane its source gives where that is in range and in M, and its own lane otherwise (R186). -/
theorem shflOp_crossLane {i : Instr} {b a d : BitVec 7} {src : Nat → Nat → Nat → Option Nat} (he : ∀ s, exec i s = shflOp i s b a d src)
    {k : Ctx → Nat → Nat} {ok : Ctx → Nat → Bool}
    (hsrc : ∀ c l, src c.width l (c.rd b.toNat l).toNat = if ok c l then some (k c l) else none) :
    CrossLane i d 1 (fun c l => [if ok c l && c.m.getLsbD (k c l) then c.rd a.toNat (k c l) else c.rd a.toNat l])
      (fun c l => ok c l && c.m.getLsbD (k c l)) (fun _ => 0) := by
  refine (crossOp_crossLane i d 1 _ _ _ he fun _ _ => rfl).congr (fun c l => ?_) (fun c l => ?_) fun _ => rfl
  · dsimp only
    rw [hsrc]
    cases ok c l with
    | false => rfl
    | true => cases hm : c.m.getLsbD (k c l) <;> simp [hm]
  · dsimp only
    rw [hsrc]
    cases ok c l with
    | false => rfl
    | true => cases hm : c.m.getLsbD (k c l) <;> simp [hm]

theorem inWidth_eq (w k : Nat) : inWidth w k = if decide (k < w) then some k else none := by simp [inWidth]

/-- A mask has a lane unless it is empty. -/
theorem any_lane (m : Mask) : (List.range 64).any (fun k => m.getLsbD k) = (m != 0) := by
  rw [Bool.eq_iff_iff, List.any_eq_true, bne_iff_ne]
  refine ⟨fun ⟨k, _, hk⟩ h0 => ?_, fun h => ?_⟩
  · rw [h0] at hk
    simp at hk
  · by_contra hno
    refine h (mask_zero fun l => ?_)
    by_contra hl
    have hl := Bool.of_not_eq_false hl
    exact hno ⟨l, List.mem_range.2 (BitVec.lt_of_getLsbD hl), hl⟩

theorem voteAny_lanes (m p : Mask) : ((m &&& p) != 0) = (List.range 64).any (fun k => m.getLsbD k && p.getLsbD k) := by
  simp only [← any_lane, BitVec.getLsbD_and]

theorem voteAll_lanes (m p : Mask) : ((m &&& ~~~p) == 0) = (List.range 64).all (fun k => !m.getLsbD k || p.getLsbD k) := by
  have hnone : ((m &&& ~~~p) == 0) = !(List.range 64).any (fun k => (m &&& ~~~p).getLsbD k) := by
    rw [any_lane, bne, Bool.not_not]
  rw [hnone, List.not_any_eq_all_not, Bool.eq_iff_iff, List.all_eq_true, List.all_eq_true]
  refine forall₂_congr fun k hk => ?_
  simp [List.mem_range.1 hk]

theorem Votes.congr {i : Instr} {d : BitVec 7} {v u : Ctx → Bool} (h : Votes i d v) (e : ∀ c, v c = u c) : Votes i d u :=
  funext e ▸ h

/-- The lanes of M whose register equals a lane's (R187). -/
def Ctx.matching (c : Ctx) (a l : Nat) : DWord := maskOf ((lanesOf c.m).filter (fun k => c.rd a k == c.rd a l))

theorem matching_lane (c : Ctx) (a l k : Nat) : (c.matching a l).getLsbD k = (c.m.getLsbD k && decide (c.rd a k = c.rd a l)) := by
  rw [Ctx.matching, getLsbD_maskOf _ (fun j hj => (mem_lanesOf.1 (List.mem_filter.1 hj).1).1), Bool.eq_iff_iff, decide_eq_true_iff,
    List.mem_filter, mem_lanesOf, Bool.and_eq_true, beq_iff_eq, decide_eq_true_iff]
  exact ⟨fun ⟨⟨_, hm⟩, he⟩ => ⟨hm, he⟩, fun ⟨hm, he⟩ => ⟨⟨BitVec.lt_of_getLsbD hm, hm⟩, he⟩⟩

/-- Settles O14, source by source; that a vote to p1 with zp = 1 writes false outside M is the model's choice (log 110). -/
theorem shufflesAndVotes : Obligations.ShufflesAndVotes := by
  refine ⟨fun b a d => ⟨?_, ?_, ?_, ?_, ?_⟩,
    fun a d => ⟨?_, ?_, ?_, fun c l => c.matching a.toNat l, ?_, fun c l k => matching_lane c a.toNat l k⟩⟩
  · exact shflOp_crossLane (exec_shflIdx b a d) fun _ _ => inWidth_eq _ _
  · exact shflOp_crossLane (ok := fun c l => decide ((c.rd b.toNat l).toNat ≤ l)) (exec_shflUp b a d) fun c l => by
      by_cases hn : (c.rd b.toNat l).toNat ≤ l <;> simp [hn]
  · exact shflOp_crossLane (exec_shflDn b a d) fun _ _ => inWidth_eq _ _
  · exact shflOp_crossLane (exec_shflXor b a d) fun _ _ => inWidth_eq _ _
  · exact shflOp_crossLane (ok := fun _ _ => true) (exec_shflRel b a d) fun _ _ => rfl
  · exact (voteOp_votes _ a d _ (exec_voteAny a d)).congr fun c => voteAny_lanes c.m (c.w.pred a.toNat)
  · exact (voteOp_votes _ a d _ (exec_voteAll a d)).congr fun c => voteAll_lanes c.m (c.w.pred a.toNat)
  · exact crossOp_crossLane _ d 2 _ _ _ (exec_ballot a d) fun _ _ => rfl
  · exact crossOp_crossLane _ d 2 _ _ _ (exec_matchW a d) fun _ _ => rfl

end Sys2Proof.Machine
end

section
namespace Sys2Proof.Machine

/-! ### The end of a block (R216) -/

/-- Without ERRADDR a `bexit` makes no compare-and-swap. -/
theorem errSwap_none {s : State} {u : Nat} {p : Who} {lr : LaunchRec} (hp : s.who u = some p) (hlr : s.lrOf p.launch = some lr)
    (h0 : lr.erraddr = 0) (code : Nat) : s.errSwap u code = s := by
  obtain ⟨l, hl, rfl⟩ := Option.map_eq_some_iff.1 hlr
  unfold State.errSwap
  rw [hp]
  dsimp only
  rw [hl]
  cases kget s.blocks p.blk with
  | none => rfl
  | some b => exact if_pos h0

/-- What a unit's instruction leaves: the blocks. -/
theorem OnlyUnit.blocks {s t : State} {u : Nat} (h : OnlyUnit s t u) : t.blocks = s.blocks := by
  have hrest := congrArg State.blocks h.rest
  exact hrest

/-- A block that has ended: its named barriers are free and its `acalloc` waits no more. -/
def Block.over (b : Block) : Block := { b with bars := [], stopped := true, accWait := none }

/-- A unit's threads have ended; its queues drain on, and it runs no transaction. -/
structure Warp.Over (w w' : Warp) : Prop where
  frontier : w'.frontier = []
  ended : w'.ended = true
  queues : w'.queues = w.queues
  tx : w'.tx = none

/-- The end of a block ends its units, and then changes the block alone. -/
theorem endBlock_eq {s : State} {blk : Nat} {b : Block} (hb : kget s.blocks blk = some b) :
    ∃ s1 : State, s.endBlock blk = s1.modBlock blk Block.over ∧ s1.mem = s.mem ∧ s1.blocks = s.blocks ∧
      ∀ u w, u ∈ b.warps ++ b.tctx.toList → kget s.warps u = some w → ∃ w', kget s1.warps u = some w' ∧ w.Over w' := by
  obtain ⟨hmem, hblocks, hunits⟩ := endFold (b.warps ++ b.tctx.toList) s
  refine ⟨_, ?_, hmem, hblocks, fun u w hu hw => ?_⟩
  · unfold State.endBlock
    rw [hb]
    rfl
  · obtain ⟨w', hw', hq, hend⟩ := hunits u w hw
    obtain ⟨hfr, hended, htx⟩ := hend (.inl hu)
    exact ⟨w', hw', hfr, hended, hq, htx⟩

theorem endBlock_ends {s : State} {blk : Nat} {b : Block} (hb : kget s.blocks blk = some b) :
    kget (s.endBlock blk).blocks blk = some b.over ∧
    (∀ u w, u ∈ b.warps ++ b.tctx.toList → kget s.warps u = some w → ∃ w', kget (s.endBlock blk).warps u = some w' ∧ w.Over w') ∧
    (∀ a, (s.endBlock blk).hByte a = s.hByte a) ∧ ∀ k off, (s.endBlock blk).spadByte k off = s.spadByte k off := by
  obtain ⟨s1, heq, hmem, hblocks, hunits⟩ := endBlock_eq hb
  rw [heq]
  refine ⟨?_, hunits, fun a => congrArg (fun m => sget 0 m a) hmem, fun k off => ?_⟩
  · rw [modBlock_blocks, kget_kmod_self, hblocks, hb]
    rfl
  · rw [spad_modBlock s1 blk Block.over (fun _ => rfl), State.spadByte, hblocks, State.spadByte]

/-- An attempt that gives its issue back leaves a unit whose threads have ended. -/
theorem retry_over {s : State} {u : Nat} {w0 w : Warp} (hw : kget s.warps u = some w) (h : w0.Over w) :
    ∃ w', kget s.retry.warps u = some w' ∧ w0.Over w' := by
  cases hc : s.cur with
  | none => exact ⟨w, by rw [State.retry, hc]; exact hw, h⟩
  | some is =>
    rw [retry_warps s hc]
    by_cases hu : u = is.u
    · subst hu
      refine ⟨w.unissue is, by rw [kget_kmod_self, hw]; rfl, ?_, h.ended, h.queues, h.tx⟩
      rw [Warp.unissue, h.frontier]
      rfl
    · exact ⟨w, by rw [kget_kmod_ne _ _ hu, hw], h⟩

section
variable {code : BitVec 20} {s : State} {c : Ctx} (h : Issues (.bexit code) s c) (h0 : c.lr.erraddr = 0)

/-- The state in which the block of a `bexit` ends. -/
def State.ending (s : State) (c : Ctx) : State := (s.setWarp c.u c.w).bump c.p.launch c.p.core 0x02

include h h0 in
/-- Without ERRADDR a `bexit` ends the block and nothing of its unit is left to step. -/
theorem execBexit_ends : exec (.bexit code) s = .next ((((s.ending c).endBlock c.p.blk).stepEnd c.p.part c.u c.is.pc.toNat).retry) := by
  have hgate : (s.setWarp c.u c.w).bexitGate c = (.pass, 0, 0) := if_pos (.inl h0)
  have hmild : Mild (s.setWarp c.u c.w) (s.ending c) := mild_bump ..
  have hunit : kget (s.ending c).warps c.u = some c.w := (congrArg (kget · c.u) (bump_warps ..)).trans (unit_setWarp ..)
  have hwho : (s.ending c).who c.u = some c.p := (hmild.whoEq c.u).trans h.who_set
  obtain ⟨-, -, -, -, -, hblk, -⟩ := who_blk hunit hwho
  obtain ⟨l, hl, hlr⟩ := Option.map_eq_some_iff.1 h.lr_set
  obtain ⟨l', hl', hrec, -⟩ := hmild.keep _ l hl
  have hswap := errSwap_none hwho (Option.map_eq_some_iff.2 ⟨l', hl', hrec.trans hlr⟩) h0 code.toNat
  refine (warpOp_next h _ (exec_bexit code s)).trans (congrArg Host.Outcome.next ?_)
  rw [hgate]
  dsimp only
  rw [← State.ending, State.bexit, hunit]
  dsimp only
  rw [hswap, hblk]

end

/-- Before its block ends, a unit's queues are as the `bexit` found them. -/
theorem Issues.ending_unit {i : Instr} {s : State} {c : Ctx} (h : Issues i s c) {u : Nat} {w : Warp} (hw : kget s.warps u = some w) :
    ∃ w1, kget (s.ending c).warps u = some w1 ∧ w1.queues = w.queues := by
  obtain ⟨w0, hw0, -, -, -, -, g, -, -, hcw⟩ := h.warp
  rw [State.ending, bump_warps, setWarp_warps, kget_kput]
  by_cases hu : u = c.u
  · subst hu
    obtain rfl := Option.some.inj (hw0.symm.trans hw)
    exact ⟨c.w, if_pos rfl, by rw [hcw]⟩
  · exact ⟨w, (if_neg hu).trans hw, rfl⟩

/-- Settles O21: what comes before and after the block's end leaves what R216 keeps. That the block keeps its tiles until its matrix
commands are void or done, and its transactions until it ends, are the model's choices (logs 47 and 49). -/
theorem blockEnd : Obligations.BlockEnd := by
  intro code s c b h h0 hb
  have hpre : OnlyUnit s (s.ending c) c.u := (onlyUnit_setWarp _ _ _).trans (onlyUnit_bump ..)
  have hblocks := hpre.blocks
  obtain ⟨hblk, hunits, hmem, hspad⟩ := endBlock_ends (hblocks.symm ▸ hb : kget (s.ending c).blocks c.p.blk = some b)
  have hpost : OnlyUnit ((s.ending c).endBlock c.p.blk) (((s.ending c).endBlock c.p.blk).stepEnd c.p.part c.u c.is.pc.toNat) c.u :=
    onlyUnit_stepOver ..
  refine ⟨_, b.over, execBexit_ends h h0, ?_, rfl, rfl, rfl, fun u w hu hw => ?_, fun a => ?_, fun k off => ?_⟩
  · exact (congrArg (kget · c.p.blk) hpost.blocks).trans hblk
  · obtain ⟨w1, hw1, hq⟩ := h.ending_unit hw
    obtain ⟨w2, hw2, hover⟩ := hunits u w1 hu hw1
    obtain ⟨w', hw', hfr, hended, hqueues, htx⟩ := retry_over ((congrArg (kget · u) (stepEnd_warps ..)).trans hw2) hover
    exact ⟨w', hw', hfr, hended, hqueues.trans hq, htx⟩
  · exact (hpost.memory a).trans ((hmem a).trans (hpre.memory a))
  · exact (hpost.scratch k off).trans ((hspad k off).trans (hpre.scratch k off))

end Sys2Proof.Machine
end

section
namespace Sys2Proof.Machine

/-! ### Synchronising inside a transaction (R205) -/

section
variable {i : Instr} {s : State} {c : Ctx} (h : Issues i s c) (hx : s.inTx c.u = true) (hte : c.lr.trapentry ≠ 0) (hh : c.w.hlanes = 0)

include h hx hte hh in
/-- A legal barrier instruction inside a transaction traps. -/
theorem barOp_inTx {a : BitVec 7} {count : Option (BitVec 7)} {waits : Bool} (he : ∀ s, exec i s = barOp i s a count waits)
    (hok : (c.rd a.toNat c.low).toNat < c.lr.bars ∧ 1 ≤ c.barCount count ∧ c.barCount count ≤ 4096) :
    ∃ t, exec i s = .next t ∧ Traps s t c c.is.mask 0 0x16 1 c.is.pc 0 := by
  have hlegal : ¬((c.rd a.toNat c.low).toNat ≥ c.lr.bars ∨ c.barCount count = 0 ∨ c.barCount count > 4096) := by omega
  refine ⟨_, warpOp_next h _ ((he s).trans (barOp_go ..)), ?_⟩
  unfold barGo
  dsimp only
  rw [if_neg hlegal, h.inTx_set, if_pos hx]
  exact trapAll_traps h 0x16 1 0 hte hh

end

theorem execPbwait_inTx {b a : BitVec 7} {s : State} {c : Ctx} (h : Issues (.pbwait b a) s c) (hx : s.inTx c.u = true)
    (hte : c.lr.trapentry ≠ 0) (hh : c.w.hlanes = 0) :
    ∃ t, exec (.pbwait b a) s = .next t ∧ Traps s t c c.is.mask 0 0x16 2 c.is.pc 0 := by
  refine ⟨_, warpOp_next h _ (exec_pbwait b a s), ?_⟩
  rw [h.inTx_set, if_pos hx]
  exact trapAll_traps h 0x16 2 0 hte hh

/-- Settles O31: the check for a transaction stands before every effect, and `pbarr` makes none. -/
theorem transactionSync : Obligations.TransactionSync := fun b a s c hx hte hh =>
  ⟨fun h hok => barOp_inTx h hx hte hh (count := some b) (exec_barArr b a) hok,
    fun h hok => barOp_inTx h hx hte hh (count := some b) (exec_barWait b a) hok,
    fun h hok => barOp_inTx h hx hte hh (count := none) (exec_barSync a) hok,
    fun h => execPbwait_inTx h hx hte hh,
    fun h hq hr hrec hrep hrl hs hlev => by
      obtain ⟨t, w, hex, -, -, -, -, hw, hu, ha⟩ := execPbarr_updates h hq hr hrec hrep hrl hs hlev
      exact ⟨t, w, hex, hw, hu, ha⟩⟩

end Sys2Proof.Machine
end

section
namespace Sys2Proof.Machine

/-! ### Barrier words (R202, R203) -/

/-- A barrier word of its fields: PEND, OVR, EXPECT and PHASE (R202). -/
def barrierWord (phase ovr : Bool) (expect pend : Nat) : Nat := pend + ovr.toNat * 2 ^ 15 + expect * 2 ^ 16 + phase.toNat * 2 ^ 31

section
variable (phase ovr : Bool) {expect pend : Nat} (he : expect < 2 ^ 15) (hp : pend < 2 ^ 15)

include he hp in
/-- The fields read back. -/
theorem barrierWord_fields : bits (barrierWord phase ovr expect pend) 14 0 = pend ∧ bits (barrierWord phase ovr expect pend) 30 16 = expect ∧
    bits (barrierWord phase ovr expect pend) 31 31 = phase.toNat := by
  cases phase <;> cases ovr <;> simp only [bits, barrierWord, Bool.toNat_true, Bool.toNat_false] <;> omega

include he hp in
theorem setBits_pend (n : Nat) (hn : n < 2 ^ 15) :
    setBits (barrierWord phase ovr expect pend) 14 0 n = barrierWord phase ovr expect n := by
  rw [setBits, (barrierWord_fields phase ovr he hp).1]
  simp only [barrierWord]
  omega

include he hp in
theorem setBits_ovr : setBits (barrierWord phase ovr expect pend) 15 15 1 = barrierWord phase true expect pend := by
  cases phase <;> cases ovr <;> simp only [setBits, bits, barrierWord, Bool.toNat_true, Bool.toNat_false] <;> omega

include he hp in
theorem setBits_phase : setBits (barrierWord phase ovr expect pend) 31 31 (1 - phase.toNat) = barrierWord (!phase) ovr expect pend := by
  rw [setBits, (barrierWord_fields phase ovr he hp).2.2]
  cases phase <;> simp only [barrierWord, Bool.toNat_true, Bool.toNat_false, Bool.not_true, Bool.not_false] <;> omega

include he hp in
/-- A phase that is over: PHASE flips and PEND reloads from EXPECT. -/
theorem barrierWord_flip : setBits (setBits (barrierWord phase ovr expect pend) 31 31 (1 - bits (barrierWord phase ovr expect pend) 31 31)) 14 0
    (bits (barrierWord phase ovr expect pend) 30 16) = barrierWord (!phase) ovr expect expect := by
  obtain ⟨-, hexpect, hphase⟩ := barrierWord_fields phase ovr he hp
  rw [hexpect, hphase, setBits_phase phase ovr he hp, setBits_pend (!phase) ovr he hp expect he]

end

/-- Settles O32, by the count against PEND. -/
theorem phaseArrival : Obligations.PhaseArrival := by
  intro phase ovr expect pend n he hp
  change pbArrive n (barrierWord phase ovr expect pend) = if n = 0 then barrierWord phase ovr expect pend
    else if pend < n then barrierWord (!phase) true expect expect
    else if pend = n then barrierWord (!phase) ovr expect expect
    else barrierWord phase ovr expect (pend - n)
  have hpend := (barrierWord_fields phase ovr he hp).1
  have hleft : pend - n < 2 ^ 15 := by omega
  unfold pbArrive
  dsimp only
  rw [hpend, setBits_pend phase ovr he hp _ hleft, (barrierWord_fields phase ovr he hleft).1, setBits_ovr phase ovr he hp,
    barrierWord_flip phase true he hp, barrierWord_flip phase ovr he hleft]
  by_cases h0 : n = 0
  · rw [if_pos h0, if_pos h0]
  by_cases hover : pend < n
  · rw [if_neg h0, if_neg h0, if_pos hover, if_pos hover]
  rw [if_neg h0, if_neg h0, if_neg hover, if_neg hover]
  exact if_congr (by omega) rfl rfl

end Sys2Proof.Machine
end

section
namespace Sys2Proof.Machine

/-! ### The issue register (R207, R208) -/

/-- Distinct elements come in the order of their first places: before each later one stands an earlier place of the earlier. -/
theorem dedup_first {β : Type} [DecidableEq β] {ws : List (Nat × β)} (hws : ws.Pairwise (fun x y => x.1 < y.1)) :
    (dedup (ws.map (·.2))).Pairwise (fun p q => ∃ l, (l, p) ∈ ws ∧ ∀ k, (k, q) ∈ ws → l < k) := by
  induction ws with
  | nil => exact .nil
  | cons x xs ih =>
    obtain ⟨hx, hxs⟩ := List.pairwise_cons.1 hws
    have hlater : ∀ {k q}, q ≠ x.2 → (k, q) ∈ x :: xs → (k, q) ∈ xs := fun hq hk =>
      (List.mem_cons.1 hk).resolve_left fun he => hq (congrArg Prod.snd he)
    have hne : ∀ {q}, q ∈ (dedup (xs.map (·.2))).filter (· ≠ x.2) → q ≠ x.2 := fun hq => of_decide_eq_true (List.mem_filter.1 hq).2
    refine List.pairwise_cons.2 ⟨fun q hq => ⟨x.1, List.mem_cons_self .., fun k hk => hx _ (hlater (hne hq) hk)⟩, ?_⟩
    exact ((ih hxs).filter _).imp_of_mem fun _ hq ⟨l, hl, hk⟩ =>
      ⟨l, List.mem_cons_of_mem _ hl, fun k hkq => hk k (hlater (hne hq) hkq)⟩

/-- The group of a word and a prefix among lanes. -/
def xwGroupOf (depth : Nat) (ws : List (Nat × Word × Word)) (k : Word × Word) : XwGroup :=
  ⟨k.1, k.2, maskOf ((ws.filter (fun x => x.2 = k)).map (·.1)), depth⟩

theorem xwGroups_eq (depth : Nat) (ws : List (Nat × Word × Word)) :
    xwGroups depth ws = (dedup (ws.map (·.2))).map (xwGroupOf depth ws) := rfl

/-- A group has the lanes of its word and prefix. -/
theorem xwGroupOf_lane (depth : Nat) {ws : List (Nat × Word × Word)} (hws : ∀ x ∈ ws, x.1 < 64) (k : Word × Word) (l : Nat) :
    (xwGroupOf depth ws k).mask.getLsbD l = decide ((l, k) ∈ ws) := by
  rw [xwGroupOf, getLsbD_maskOf]
  · refine decide_eq_decide.2 ⟨fun hl => ?_, fun hl => List.mem_map.2 ⟨(l, k), List.mem_filter.2 ⟨hl, decide_eq_true rfl⟩, rfl⟩⟩
    obtain ⟨x, hx, rfl⟩ := List.mem_map.1 hl
    obtain ⟨hmem, hk⟩ := List.mem_filter.1 hx
    exact of_decide_eq_true hk ▸ hmem
  · intro l hl
    obtain ⟨x, hx, rfl⟩ := List.mem_map.1 hl
    exact hws x (List.mem_filter.1 hx).1

/-- The lanes of M with their words and prefixes. -/
def Ctx.xwWords (c : Ctx) (word pfx : Nat → Word) : List (Nat × Word × Word) := (lanesOf c.m).map (fun l => (l, word l, pfx l))

/-- Those permitted (R208). -/
def Ctx.xwGood (c : Ctx) (word pfx : Nat → Word) : List (Nat × Word × Word) :=
  (c.xwWords word pfx).filter (fun x => c.permitted x.2.1 x.2.2)

/-- Those that are bad. -/
def Ctx.xwBad (c : Ctx) (word pfx : Nat → Word) : List (Nat × Word × Word) :=
  (c.xwWords word pfx).filter (fun x => !c.permitted x.2.1 x.2.2)

section
variable (c : Ctx) (word pfx : Nat → Word)

theorem mem_xwWords {l : Nat} {k : Word × Word} : (l, k) ∈ c.xwWords word pfx ↔ c.m.getLsbD l = true ∧ word l = k.1 ∧ pfx l = k.2 := by
  rw [Ctx.xwWords, List.mem_map]
  constructor
  · rintro ⟨j, hj, he⟩
    cases he
    exact ⟨(mem_lanesOf.1 hj).2, rfl, rfl⟩
  · rintro ⟨hm, hw, hp⟩
    exact ⟨l, mem_lanesOf.2 ⟨BitVec.lt_of_getLsbD hm, hm⟩, by rw [hw, hp]⟩

theorem mem_xwGood {l : Nat} {k : Word × Word} : (l, k) ∈ c.xwGood word pfx ↔
    c.m.getLsbD l = true ∧ c.permitted (word l) (pfx l) = true ∧ word l = k.1 ∧ pfx l = k.2 := by
  rw [Ctx.xwGood, List.mem_filter, mem_xwWords]
  constructor
  · rintro ⟨⟨hm, hw, hp⟩, hok⟩
    exact ⟨hm, by rw [hw, hp]; exact hok, hw, hp⟩
  · rintro ⟨hm, hok, hw, hp⟩
    exact ⟨⟨hm, hw, hp⟩, by rw [hw, hp] at hok; exact hok⟩

theorem xwGood_lt : ∀ x ∈ c.xwGood word pfx, x.1 < 64 := fun _ hx =>
  BitVec.lt_of_getLsbD ((mem_xwGood c word pfx).1 hx).1

theorem xwGood_rises : (c.xwGood word pfx).Pairwise (fun x y => x.1 < y.1) := by
  rw [Ctx.xwGood, Ctx.xwWords]
  exact .filter _ (List.pairwise_map.2 (.filter _ List.pairwise_lt_range))

/-- The bad lanes are the lanes of M without a permitted word. -/
theorem xwBad_lane (l : Nat) : (maskOf ((c.xwBad word pfx).map (·.1))).getLsbD l = (c.m.getLsbD l && !c.permitted (word l) (pfx l)) := by
  have hmem : l ∈ (c.xwBad word pfx).map (·.1) ↔ c.m.getLsbD l = true ∧ (!c.permitted (word l) (pfx l)) = true := by
    simp only [Ctx.xwBad, List.mem_map, List.mem_filter]
    constructor
    · rintro ⟨⟨j, k⟩, ⟨hj, hbad⟩, rfl⟩
      obtain ⟨hm, hw, hp⟩ := (mem_xwWords c word pfx).1 hj
      exact ⟨hm, by rw [hw, hp]; exact hbad⟩
    · rintro ⟨hm, hbad⟩
      exact ⟨(l, word l, pfx l), ⟨(mem_xwWords c word pfx).2 ⟨hm, rfl, rfl⟩, hbad⟩, rfl⟩
  rw [getLsbD_maskOf, Bool.eq_iff_iff, decide_eq_true_iff, hmem, Bool.and_eq_true]
  intro k hk
  obtain ⟨x, hx, rfl⟩ := List.mem_map.1 hk
  exact BitVec.lt_of_getLsbD ((mem_xwWords c word pfx).1 (List.mem_filter.1 hx).1).1

/-- The groups that an instruction forms (R207). -/
def Ctx.xwFormed : List XwGroup := xwGroups (c.is.depth + 1) (c.xwGood word pfx)

theorem xwFormed_lanes : ∀ g ∈ c.xwFormed word pfx, g.depth = c.is.depth + 1 ∧ ∀ l, l < 64 → (g.mask.getLsbD l = true ↔
    c.m.getLsbD l = true ∧ c.permitted (word l) (pfx l) = true ∧ word l = g.word ∧ pfx l = g.pfx) := by
  intro g hg
  rw [Ctx.xwFormed, xwGroups_eq] at hg
  obtain ⟨k, -, rfl⟩ := List.mem_map.1 hg
  refine ⟨rfl, fun l _ => ?_⟩
  rw [xwGroupOf_lane _ (xwGood_lt c word pfx), decide_eq_true_iff]
  exact mem_xwGood c word pfx

theorem xwFormed_covers {l : Nat} (hm : c.m.getLsbD l = true) (hok : c.permitted (word l) (pfx l) = true) :
    ∃ g ∈ c.xwFormed word pfx, g.mask.getLsbD l = true := by
  have hl : (l, word l, pfx l) ∈ c.xwGood word pfx := (mem_xwGood c word pfx).2 ⟨hm, hok, rfl, rfl⟩
  refine ⟨xwGroupOf (c.is.depth + 1) (c.xwGood word pfx) (word l, pfx l),
    List.mem_map_of_mem ((dedup_mem _ _).2 (List.mem_map_of_mem hl)), ?_⟩
  rw [xwGroupOf_lane _ (xwGood_lt c word pfx), decide_eq_true_iff]
  exact hl

/-- The groups come by their lowest lanes. -/
theorem xwFormed_lowest : (c.xwFormed word pfx).Pairwise (fun g h => ∃ l, l < 64 ∧ g.mask.getLsbD l = true ∧
    ∀ k, k ≤ l → h.mask.getLsbD k = false) := by
  rw [Ctx.xwFormed, xwGroups_eq]
  refine List.pairwise_map.2 ((dedup_first (xwGood_rises c word pfx)).imp fun ⟨l, hl, hafter⟩ =>
    ⟨l, xwGood_lt c word pfx _ hl, ?_, fun k hk => ?_⟩)
  · rw [xwGroupOf_lane _ (xwGood_lt c word pfx), decide_eq_true_iff]
    exact hl
  · rw [xwGroupOf_lane _ (xwGood_lt c word pfx), decide_eq_false_iff_not]
    exact fun hq => absurd hk (Nat.not_le.2 (hafter k hq))

end

/-- More bad lanes add to a run's mask and leave its place and its groups. -/
theorem addBad_eq (r : XwRun) (ws : List (Nat × Word × Word)) :
    ∃ bw, r.addBad ws = { r with bad := r.bad ||| maskOf (ws.map (·.1)), badWord := bw } := by
  cases ws with
  | nil => exact ⟨r.badWord, by rw [XwRun.addBad, List.map_nil, show maskOf [] = 0#64 from rfl, BitVec.or_zero]⟩
  | cons x xs => exact ⟨_, rfl⟩

/-- The run an instruction adds to: the one its unit is in, or a new one of its own (R207). -/
def Warp.xwOuter (c : Ctx) (id : Nat) (w : Warp) : XwRun := w.xw.getD ⟨id, c.is.pc, c.is.npc, c.is.mask, [], 0, 0⟩

/-- The unit after an `xw`: the instruction's groups come before the rest of the run's, and its bad lanes add to the run's. -/
def Warp.xwStart (c : Ctx) (id : Nat) (word pfx : Nat → Word) (w : Warp) : Warp :=
  { w with xw := some (XwRun.addBad { w.xwOuter c id with groups := c.xwFormed word pfx ++ (w.xwOuter c id).groups.tail } (c.xwBad word pfx)) }

/-- The prefixes of an `xw` without a prefix register are 0. -/
def Ctx.xwPfx (c : Ctx) (b : Option (BitVec 7)) (l : Nat) : Word := b.elim 0 (fun b => c.rd b.toNat l)

section
variable {i : Instr} {a : BitVec 7} {b : Option (BitVec 7)} (he : ∀ s, exec i s = xwOp i s a b) {s : State} {c : Ctx} (h : Issues i s c)

include he h in
theorem xwOp_next : exec i s = .next (({ s.setWarp c.u c.w with cur := none, nextUid := s.nextUid + 1 } : State).modWarp c.u
    (Warp.xwStart c s.nextUid (fun l => c.rd a.toNat l) (c.xwPfx b))) := by
  refine (warpOp_next h _ (he s)).trans (congrArg Host.Outcome.next (congrArg (State.modWarp _ c.u) (funext fun w => ?_)))
  unfold Warp.xwStart
  cases hx : w.xw with
  | none =>
    have hnew : ∀ gs : List XwGroup, gs ++ (w.xwOuter c s.nextUid).groups.tail = gs := fun gs => by
      rw [Warp.xwOuter, hx]
      exact List.append_nil gs
    rw [hnew, Warp.xwOuter, hx]
    cases b <;> rfl
  | some o =>
    rw [Warp.xwOuter, hx]
    cases b <;> rfl

include he h in
/-- An `xw` changes its unit's run alone: it starts one, or adds to the one under way. -/
theorem xwOp_starts : ∃ t w r, exec i s = .next t ∧ OnlyUnit s t c.u ∧ kget t.warps c.u = some w ∧ w.xw = some r ∧
    { w with xw := c.w.xw } = c.w ∧
    r.groups = c.xwFormed (fun l => c.rd a.toNat l) (c.xwPfx b) ++ (c.w.xwOuter c s.nextUid).groups.tail ∧
    r.pc = (c.w.xwOuter c s.nextUid).pc ∧ r.npc = (c.w.xwOuter c s.nextUid).npc ∧ r.mask = (c.w.xwOuter c s.nextUid).mask ∧
    ∀ l, r.bad.getLsbD l = ((c.w.xwOuter c s.nextUid).bad.getLsbD l ||
      (c.m.getLsbD l && !c.permitted (c.rd a.toNat l) (c.xwPfx b l))) := by
  have honly : OnlyUnit s ({ s.setWarp c.u c.w with cur := none, nextUid := s.nextUid + 1 } : State) c.u :=
    ((onlyUnit_setWarp s c.u c.w).trans (onlyUnit_cur _ c.u none)).trans (onlyUnit_uid _ c.u (s.nextUid + 1))
  obtain ⟨bw, hbad⟩ := addBad_eq { c.w.xwOuter c s.nextUid with
    groups := c.xwFormed (fun l => c.rd a.toNat l) (c.xwPfx b) ++ (c.w.xwOuter c s.nextUid).groups.tail }
    (c.xwBad (fun l => c.rd a.toNat l) (c.xwPfx b))
  refine ⟨_, _, _, xwOp_next he h, honly.trans (onlyUnit_modWarp ..), modWarp_get (unit_setWarp s c.u c.w) _, rfl, rfl, ?_⟩
  rw [hbad]
  exact ⟨rfl, rfl, rfl, rfl, fun l => by rw [BitVec.getLsbD_or, xwBad_lane]⟩

end

/-- Settles O34, by the run the unit is in. -/
theorem issueRegister : Obligations.IssueRegister := by
  unfold Obligations.IssueRegister
  intro Groups Starts b a
  have key : ∀ (i : Instr) (a : BitVec 7) (b : Option (BitVec 7)), (∀ s, exec i s = xwOp i s a b) →
      Starts i (fun c l => c.rd a.toNat l) (fun c l => c.xwPfx b l) := by
    intro i a b he s c h
    obtain ⟨t, w, r, hex, honly, hw, hr, hsame, hgroups, hpc, hnpc, hmask, hbad⟩ := xwOp_starts he h
    refine ⟨t, w, r, c.xwFormed _ _, hex, honly, hw, hr, hsame,
      ⟨xwFormed_lanes c _ _, fun l _ => xwFormed_covers c _ _, xwFormed_lowest c _ _⟩, ?_⟩
    unfold Warp.xwOuter at hgroups hpc hnpc hmask hbad
    cases hx : c.w.xw with
    | none =>
      rw [hx] at hgroups hpc hnpc hmask hbad
      refine ⟨hpc, hnpc, hmask, by simpa using hgroups, fun l _ => by simpa using hbad l⟩
    | some o =>
      rw [hx] at hgroups hpc hnpc hmask hbad
      exact ⟨hpc, hnpc, hmask, hgroups, fun l _ => hbad l⟩
  exact ⟨key _ a none (exec_xw a), key _ a (some b) (exec_xwp b a)⟩

end Sys2Proof.Machine
end

section
/-! The statements of engines and the matrix (chapter 09), the dispatcher (chapter 17) and fleet operation (chapter 21). -/

namespace Sys2Proof.Machine

/-! ### Copies and collectives (R226, R230) -/

section
variable {s s1 s2 s3 : State} {c : Ctx} {x : Cmd} {lock : Bool} {k : Nat}

/-- A record and its completion words that are read and checked in turn are read and checked as a whole. -/
theorem rdThen_words {α : Type} {r : Rd α} {a : α} {p : Who} {pl : List TlbAt} (ws : α → List (Acc × Nat)) (hr : r = (s1, .ok a))
    (hw : s1.wordChecks p pl (ws a) = (s2, .ok ())) :
    rdThen r (fun t a => rdThen (t.wordChecks p pl (ws a)) (fun t _ => (t, .ok a))) = (s2, .ok a) := by
  rw [hr, rdThen_ok, hw, rdThen_ok]

theorem execBcopy_starts {a d : BitVec 7} (h : Issues (.bcopy a d) s c) (hm : c.m ≠ 0) (hq : c.w.queues = [])
    (hr : s.releaseMet c.u c.p.view 4 = true) (hrec : (s.setWarp c.u c.w).readCopy (.warp c) (c.rd64 a.toNat c.low).toNat = (s1, .ok (x, lock)))
    (hw : s1.wordChecks c.p c.p.places x.words = (s2, .ok ()))
    (hgo : (s2.dropAnswers c).startCmd (c.p.core / 192) (c.ownCmd x) lock = some (s3, k)) :
    ∃ t, exec (.bcopy a d) s = .next t ∧ RegResult s3 t c d.toNat 1 (fun _ => [BitVec.ofNat 32 k]) (fun _ => 0) := by
  refine ⟨_, relOp_rel h _ (exec_bcopy a d) hm hq hr,  ?_⟩
  dsimp only
  rw [rdThen_words (fun y : Cmd × Bool => y.1.words) hrec hw]
  dsimp only
  rw [hgo]
  exact finishReg_any s3 c h.mask_le h.alive d.toNat 1 (fun _ => ([BitVec.ofNat 32 k], 0)) c.row.cls 0 (fun _ _ => rfl)

theorem execColl_starts {a : BitVec 7} (h : Issues (.coll a) s c) (hm : c.m ≠ 0) (hq : c.w.queues = [])
    (hr : s.releaseMet c.u c.p.view 4 = true) (hrec : (s.setWarp c.u c.w).readColl (.warp c) (c.rd64 a.toNat c.low).toNat = (s1, .ok x))
    (hw : s1.wordChecks c.p c.p.places x.words = (s2, .ok ()))
    (hgo : (s2.dropAnswers c).startCmd (c.p.core / 192) (c.ownCmd x) false = some (s3, k)) :
    ∃ t, exec (.coll a) s = .next t ∧ Passes s3 t c c.is.mask := by
  have hunit : kget s3.warps c.u = some c.w := by
    have ho : OnlyMem (s.setWarp c.u c.w) s2 := by
      have h1 := onlyMem_readColl (s.setWarp c.u c.w) c (c.rd64 a.toNat c.low).toNat
      have h2 := onlyMem_wordChecks c.p c.p.places x.words s1
      rw [hrec] at h1
      rw [hw] at h2
      exact h1.trans h2
    rw [startCmd_warps _ _ _ _ _ _ hgo]
    exact (unit_onlyMem ho : kget s2.warps c.u = some c.w)
  refine ⟨_, relOp_rel h _ (exec_coll a) hm hq hr, ?_⟩
  dsimp only
  rw [rdThen_words Cmd.words hrec hw]
  dsimp only
  rw [hgo]
  exact done_passes c.w (.refl s3 c.u) hunit (untouched_rfl c) rfl h.alive _

end

/-- Settles O35: the engine is the first of the least loaded, and a record that passes its checks starts its command. -/
theorem engineCommands : Obligations.EngineCommands :=
  ⟨startCmd_spec, fun a d _ _ h hm => relOp_none h _ (exec_bcopy a d) hm, fun a _ _ h hm => relOp_none h _ (exec_coll a) hm,
    fun _ _ _ _ _ _ _ _ _ _ h hm hq hr hrec hw hgo => execBcopy_starts h hm hq hr hrec hw hgo,
    fun _ _ _ _ _ _ _ _ h hm hq hr hrec hw hgo => execColl_starts h hm hq hr hrec hw hgo⟩

/-! ### Tickets (R229) -/

section
variable {s : State} {c : Ctx}

/-- The engines and identities are the same once the unit is latched. -/
theorem ticketStatus_set (s : State) (u : Nat) (w : Warp) (p : Who) (t : Word) : (s.setWarp u w).ticketStatus p t = s.ticketStatus p t := rfl

/-- An acquire after the front end is one before it. -/
theorem Issues.acquired {i : Instr} (h : Issues i s c) (v sc : Nat) :
    Issues i (s.acquire v sc) c ∧ (s.setWarp c.u c.w).acquire v sc = (s.acquire v sc).setWarp c.u c.w := by
  obtain ⟨cs, hcs⟩ := acquire_frame s v sc
  exact ⟨by rw [hcs]; exact issues_cores h cs, acquire_setWarp ..⟩

theorem execEwait_waits {a : BitVec 7} {f : Option Finished} (h : Issues (.ewait a) s c)
    (hst : s.ticketStatus c.p (c.rd a.toNat c.low) = (0, f)) :
    ∃ t, exec (.ewait a) s = .next t ∧ Waits s t c c.m c.rest (.ewait (c.rd a.toNat c.low)) := by
  refine ⟨_, warpOp_next h _ (exec_ewait a s), ?_⟩
  dsimp only
  rw [ticketStatus_set, hst]
  exact hold_done h _ c.m c.rest (rest_disj c)

theorem execEwait_passes {a : BitVec 7} {f : Option Finished} (h : Issues (.ewait a) s c)
    (hst : s.ticketStatus c.p (c.rd a.toNat c.low) = (1, f)) :
    ∃ t, exec (.ewait a) s = .next t ∧ Passes (s.acquire c.p.view 4) t c c.is.mask := by
  refine ⟨_, warpOp_next h _ (exec_ewait a s), ?_⟩
  dsimp only
  rw [ticketStatus_set, hst]
  obtain ⟨hi, he⟩ := h.acquired c.p.view 4
  rw [he]
  exact hi.passes c.is.mask

theorem execEwait_traps {a : BitVec 7} {f : Finished} (h : Issues (.ewait a) s c)
    (hst : s.ticketStatus c.p (c.rd a.toNat c.low) = (2, some f)) (hte : c.lr.trapentry ≠ 0) (hh : c.w.hlanes = 0) :
    ∃ t, exec (.ewait a) s = .next t ∧ Traps (s.acquire c.p.view 4) t c c.is.mask 0 f.cause f.info c.is.pc f.addr := by
  refine ⟨_, warpOp_next h _ (exec_ewait a s), ?_⟩
  dsimp only
  rw [ticketStatus_set, hst]
  obtain ⟨hi, he⟩ := h.acquired c.p.view 4
  rw [he]
  exact trapAll_traps hi _ _ _ hte hh

theorem execEpoll_idle {a d : BitVec 7} (h : Issues (.epoll a d) s c) (hm : c.m = 0) :
    ∃ t, exec (.epoll a d) s = .next t ∧ Passes s t c c.is.mask :=
  ⟨_, (warpOp_next h _ (exec_epoll a d s)).trans (congrArg _ (if_pos hm)), h.passes _⟩

theorem execEpoll_polls {a d : BitVec 7} (h : Issues (.epoll a d) s c) (hm : c.m ≠ 0) :
    let st := (s.ticketStatus c.p (c.rd a.toNat c.low)).1
    ∃ t, exec (.epoll a d) s = .next t ∧ RegResult (if st = 0 then s else s.acquire c.p.view 4) t c d.toNat 1
      (fun _ => [BitVec.ofNat 32 st]) (fun _ => 0) := by
  intro st
  have hex : exec (.epoll a d) s = .next (c.finishReg ((if st = 0 then s else s.acquire c.p.view 4).setWarp c.u c.w) d.toNat 1
      (fun _ => ([BitVec.ofNat 32 st], 0)) c.row.cls 0) := by
    refine (warpOp_next h _ (exec_epoll a d s)).trans ?_
    rw [if_neg hm, ticketStatus_set, acquire_setWarp, apply_ite (fun t : State => t.setWarp c.u c.w)]
  have hi : Issues (.epoll a d) (if st = 0 then s else s.acquire c.p.view 4) c := by
    split
    · exact h
    · exact (h.acquired c.p.view 4).1
  exact ⟨_, hex, finishReg_result hi d.toNat 1 (fun _ => ([BitVec.ofNat 32 st], 0)) c.row.cls 0 (fun _ _ => rfl)⟩

end

/-- Settles O36, by the status of the ticket. -/
theorem engineWaits : Obligations.EngineWaits :=
  ⟨fun _ _ _ _ h hst => execEwait_waits h hst, fun _ _ _ _ h hst => execEwait_passes h hst,
    fun _ _ _ _ h hst hte hh => execEwait_traps h hst hte hh, fun _ _ _ _ h hm => execEpoll_idle h hm, fun _ _ _ _ h hm => execEpoll_polls h hm⟩

end Sys2Proof.Machine
end

section
namespace Sys2Proof.Machine

/-! ### Posted nodes (R231, R276) -/

theorem OnlyUnit.nodes {s t : State} {u : Nat} (h : OnlyUnit s t u) : t.nodes = s.nodes := (congrArg State.nodes h.rest :)
theorem OnlyUnit.rings {s t : State} {u : Nat} (h : OnlyUnit s t u) : t.rings = s.rings := (congrArg State.rings h.rest :)

section
variable {s : State} {c : Ctx} {b a : BitVec 7}

theorem execGpost_eq (h : Issues (.gpost b a) s c) (hm : c.m ≠ 0) (hq : c.w.queues = []) (hr : s.releaseMet c.u c.p.view 4 = true) :
    let q := (c.rd b.toNat c.low).toNat
    exec (.gpost b a) s = .next (if q > 255 ∨ s.reg (.q q .part) ≠ c.p.part ∨ s.reg (.q q .en) ≠ 1 then (s.setWarp c.u c.w).trapAll c 0x11 0 0
      else if s.ringFree q = 0 then (s.setWarp c.u c.w).retry
      else ((s.setWarp c.u c.w).enterNode q (c.rd64 a.toNat c.low).toNat true).done c c.is.mask) :=
  relOp_rel h _ (exec_gpost b a) hm hq hr

theorem execGpost_traps (h : Issues (.gpost b a) s c) (hm : c.m ≠ 0) (hq : c.w.queues = []) (hr : s.releaseMet c.u c.p.view 4 = true)
    {q : Nat} (hqv : q = (c.rd b.toNat c.low).toNat) (hbad : 255 < q ∨ s.reg (.q q .part) ≠ c.p.part ∨ s.reg (.q q .en) ≠ 1)
    (hte : c.lr.trapentry ≠ 0) (hh : c.w.hlanes = 0) :
    ∃ t, exec (.gpost b a) s = .next t ∧ Traps s t c c.is.mask 0 0x11 0 c.is.pc 0 := by
  subst hqv
  exact ⟨_, (execGpost_eq h hm hq hr).trans (congrArg _ (if_pos hbad)), trapAll_traps h _ _ _ hte hh⟩

theorem execGpost_posts {q : Nat} (h : Issues (.gpost b a) s c) (hm : c.m ≠ 0) (hq : c.w.queues = []) (hr : s.releaseMet c.u c.p.view 4 = true)
    (hqv : q = (c.rd b.toNat c.low).toNat) (hlt : q ≤ 255) (hpart : s.reg (.q q .part) = c.p.part) (hen : s.reg (.q q .en) = 1)
    (hfree : (sget [] s.rings q).length < 1024) :
    ∃ t n, exec (.gpost b a) s = .next t ∧ UnitPasses s t c ∧ sget [] t.rings q = sget [] s.rings q ++ [s.nextUid] ∧
      (∀ k, k ≠ q → sget [] t.rings k = sget [] s.rings k) ∧ kget t.nodes s.nextUid = some n ∧
      n.addr = (c.rd64 a.toNat c.low).toNat ∧ n.q = q ∧ n.posted = true ∧ n.running = false ∧
      ∀ k, k ≠ s.nextUid → kget t.nodes k = kget s.nodes k := by
  subst hqv
  have hex := execGpost_eq h hm hq hr
  dsimp only at hex
  have hroom : s.ringFree (c.rd b.toNat c.low).toNat ≠ 0 := by
    unfold State.ringFree
    omega
  rw [if_neg (by rintro (hk | hk | hk) <;> [omega; exact hk hpart; exact hk hen]), if_neg hroom] at hex
  obtain ⟨he, -, hring, hrings, ⟨n, hn, haddr, hnq, hposted, hrun, -, -⟩, hnodes⟩ :=
    entered (s.setWarp c.u c.w) (c.rd b.toNat c.low).toNat (c.rd64 a.toNat c.low).toNat true
  generalize (s.setWarp c.u c.w).enterNode (c.rd b.toNat c.low).toNat (c.rd64 a.toNat c.low).toNat true = s0 at hex he hring hrings hn hnodes
  obtain ⟨ho, -⟩ := done_frame s0 c c.is.mask
  have hw : s0.warps = kput s.warps c.u c.w := by rw [he]; rfl
  refine ⟨_, n, hex, ?_, by rw [ho.rings]; exact hring, fun k hk => by rw [ho.rings]; exact hrings k hk, by rw [ho.nodes]; exact hn, haddr, hnq,
    hposted, hrun, fun k hk => by rw [ho.nodes]; exact hnodes k hk⟩
  refine unitPasses_of c.w (fun x => ?_) (fun k off => ?_) (fun v hv => ?_) (fun v => ?_) ?_ (untouched_rfl c) rfl h.alive
  · rw [he]; rfl
  · rw [he]; rfl
  · rw [hw, kget_kput_ne _ _ hv]
  · rw [he]; rfl
  · rw [hw, kget_kput_self]

end

/-- Settles O37. That a rejected post writes TRAPINFO 0 is the model's choice (log 48). -/
theorem nodePosts : Obligations.NodePosts :=
  ⟨fun b a _ _ h hm => relOp_none h _ (exec_gpost b a) hm, fun _ _ _ _ h hm hq hr =>
    ⟨fun hbad hte hh => execGpost_traps h hm hq hr rfl hbad hte hh,
      fun hlt hpart hen hfree => execGpost_posts h hm hq hr rfl hlt hpart hen hfree⟩⟩

end Sys2Proof.Machine
end

section
namespace Sys2Proof.Machine

/-! ### Order-first transactions (R232 to R238) -/

/-- A release at device scope by a unit whose queues are empty, where nothing is owed, changes nothing. -/
theorem releaseTry_device {s : State} {c : Ctx} (hq : c.w.queues = []) (hr : s.releaseMet c.u c.p.view 4 = true) (m : Mask) :
    s.releaseTry c m 4 = (s, true) := by
  obtain ⟨hmet, -, hsame⟩ := relTry_met hr
  rw [releaseTry_drained (drained_nil hq m)]
  exact Prod.ext (hsame (by decide)) hmet

section
variable {s : State} {c : Ctx} {id : Nat} {x : Tx} {i : Instr}

/-- Lanes start to wait, whatever instruction they go on with. -/
theorem Issues.waits (h : Issues i s c) (k : WaitCause) (m stay : Mask) (next : DWord) (hd : ∀ l, m.getLsbD l = true → stay.getLsbD l = false) :
    Waits s (((s.setWarp c.u c.w).modWarp c.u (fun w => w.hold m c.is.pc next k)).done c stay) c m stay k := by
  obtain ⟨o, w, hw, ⟨fr, n, t, y, rfl⟩, ha⟩ := h.modDone (fun w => w.hold m c.is.pc next k) stay (kept_hold ..).ended
  exact ⟨o, _, hw, kept_hold c.w m c.is.pc next k, ha.waiting (held := fun l => m.getLsbD l = true) hd (hold_moved c.w m c.is.pc next k)⟩

theorem OnlyMem.seq {s t : State} (h : OnlyMem s t) (d : Nat) : t.seq d = s.seq d := by rw [h]; rfl
theorem OnlyMem.nextUid {s t : State} (h : OnlyMem s t) : t.nextUid = s.nextUid := by rw [h]

/-- Every granule of a declaration lies in the global window. -/
def DeclRec.inGlobal (x : DeclRec) : Prop := ∀ g ∈ x.wr ++ x.rd, windowAt (g * 256) = .global

theorem DeclRec.inGlobal.filters {x : DeclRec} (h : x.inGlobal) : x.wr.filter (fun g => windowAt (g * 256) == .global) = x.wr ∧
    x.rd.filter (fun g => windowAt (g * 256) == .global) = x.rd ∧ (x.wr ++ x.rd).find? (fun g => windowAt (g * 256) != .global) = none := by
  refine ⟨List.filter_eq_self.2 fun g hg => ?_, List.filter_eq_self.2 fun g hg => ?_, List.find?_eq_none.2 fun g hg => ?_⟩
  · simp [h g (List.mem_append_left _ hg)]
  · simp [h g (List.mem_append_right _ hg)]
  · simp [h g hg]

/-- The transaction that an `ofsub` submits (R234). -/
def State.submission (s : State) (c : Ctx) (decl : Nat) (x : DeclRec) (wp rp : List Nat) : Tx :=
  { part := c.p.part, ctx := c.p.ctx, launch := c.p.launch, bid := (kget s.blocks c.p.blk).elim 0 (·.bid), wid := c.p.wid, u := c.u,
    lcore := c.p.core, decl := decl, tag := x.tag, wr := x.wr, rd := x.rd, wrP := wp, rdP := rp, die := c.p.core / 192,
    handle := c.p.core / 192 * 2 ^ 30 + (s.seq (c.p.core / 192)).count, seat := 0, beat := 0, start := 0, trapDue := false, acqDue := false,
    st := .flight, since := s.timebase, held := [] }

/-- The state in which a submitted transaction is on its way to its die's sequencer. -/
def State.submit (s : State) (c : Ctx) (y : Tx) : State :=
  { s with nextUid := s.nextUid + 1, txs := kput s.txs s.nextUid y,
           seqs := sset DieSeq.empty s.seqs y.die { s.seq y.die with count := ((s.seq y.die).count + 1) % 2 ^ 30 },
           warps := kput s.warps c.u { c.w with tx := some s.nextUid } }

/-- The instruction whose unit holds the submitted transaction. -/
def Ctx.holdsTx (c : Ctx) (id : Nat) : Ctx := { c with w := { c.w with tx := some id } }

theorem execOfsub_submits {a d : BitVec 7} {y : DeclRec} {wp rp : List Nat} {s1 s2 s3 : State} (h : Issues (.ofsub a d) s c) (hm : c.m ≠ 0)
    (hno : s.openTx c.u = none) (hrec : (s.setWarp c.u c.w).readDecl (.warp c) (c.rd64 a.toNat c.low).toNat = (s1, .ok y))
    (hglob : y.inGlobal) (hw : s1.granules c y.wr = (s2, .ok wp)) (hr : s2.granules c y.rd = (s3, .ok rp)) :
    let s4 := s3.dropAnswers c
    exec (.ofsub a d) s = .next ((c.holdsTx s4.nextUid).finishReg
      (s4.submit c (s4.submission c (c.rd64 a.toNat c.low).toNat y wp rp)) d.toNat 1
      (fun _ => ([BitVec.ofNat 32 (c.p.core / 192 * 2 ^ 30 + (s4.seq (c.p.core / 192)).count)], 0)) c.row.cls 0) := by
  obtain ⟨hfw, hfr, hfind⟩ := hglob.filters
  refine (warpOp_next h _ (exec_ofsub a d s)).trans ?_
  rw [if_neg hm, openTx_set h, hno]
  dsimp only
  rw [hrec, rdThen_ok, hfw, hw, rdThen_ok, hfr, hr, rdThen_ok, hfind]
  rfl

theorem OnlyUnit.txs {s t : State} {u : Nat} (h : OnlyUnit s t u) : t.txs = s.txs := (congrArg State.txs h.rest :)
theorem OnlyUnit.seqs {s t : State} {u : Nat} (h : OnlyUnit s t u) : t.seqs = s.seqs := (congrArg State.seqs h.rest :)

/-- What is in the unit's place after a submission and its results. -/
theorem execOfsub_gives {a d : BitVec 7} {y : DeclRec} {wp rp : List Nat} {s1 s2 s3 : State} (h : Issues (.ofsub a d) s c) (hm : c.m ≠ 0)
    (hno : s.openTx c.u = none) (hrec : (s.setWarp c.u c.w).readDecl (.warp c) (c.rd64 a.toNat c.low).toNat = (s1, .ok y))
    (hglob : y.inGlobal) (hw : s1.granules c y.wr = (s2, .ok wp)) (hr : s2.granules c y.rd = (s3, .ok rp)) :
    let handle := c.p.core / 192 * 2 ^ 30 + (s.seq (c.p.core / 192)).count
    ∃ t w z, exec (.ofsub a d) s = .next t ∧ kget t.warps c.u = some w ∧ w.tx = some s.nextUid ∧ kget t.txs s.nextUid = some z ∧
      z.st = .flight ∧ z.handle = handle ∧ z.tag = y.tag ∧ z.wr = y.wr ∧ z.rd = y.rd ∧ z.held = [] ∧ z.part = c.p.part ∧
      z.ctx = c.p.ctx ∧
      (t.seq (c.p.core / 192)).count = ((s.seq (c.p.core / 192)).count + 1) % 2 ^ 30 ∧
      RegsWritten c w d.toNat 1 (fun _ => [BitVec.ofNat 32 handle]) ∧ Advances c c.w w c.is.mask := by
  have ho : OnlyMem (s.setWarp c.u c.w) s3 := by
    have h1 := onlyMem_readDecl (s.setWarp c.u c.w) c (c.rd64 a.toNat c.low).toNat
    have h2 := onlyMem_granules c y.wr s1
    have h3 := onlyMem_granules c y.rd s2
    rw [hrec] at h1
    rw [hw] at h2
    rw [hr] at h3
    exact (h1.trans h2).trans h3
  have hex := execOfsub_submits h hm hno hrec hglob hw hr
  have huid : (s3.dropAnswers c).nextUid = s.nextUid := ho.nextUid
  have hseq : (s3.dropAnswers c).seq (c.p.core / 192) = s.seq (c.p.core / 192) := ho.seq _
  obtain ⟨z, hz⟩ : ∃ z, z = (s3.dropAnswers c).submission c (c.rd64 a.toNat c.low).toNat y wp rp := ⟨_, rfl⟩
  have hdie : z.die = c.p.core / 192 := by rw [hz]; rfl
  have hhandle : z.handle = c.p.core / 192 * 2 ^ 30 + (s.seq (c.p.core / 192)).count := by rw [hz, ← hseq]; rfl
  dsimp only at hex
  rw [← hz, hseq, huid] at hex
  obtain ⟨houtside, w, hunit, hsh, hregs, -, -, hadv⟩ := finishReg_any ((s3.dropAnswers c).submit c z) (c.holdsTx s.nextUid)
    h.mask_le h.alive d.toNat 1
    (fun _ => ([BitVec.ofNat 32 (c.p.core / 192 * 2 ^ 30 + (s.seq (c.p.core / 192)).count)], 0)) c.row.cls 0 (fun _ _ => rfl)
  refine ⟨_, w, z, hex, hunit, congrArg Warp.tx hsh, ?_, by rw [hz]; rfl, hhandle, by rw [hz]; rfl, by rw [hz]; rfl, by rw [hz]; rfl,
    by rw [hz]; rfl, by rw [hz]; rfl, by rw [hz]; rfl, ?_, hregs, hadv⟩
  · rw [houtside.txs]
    show kget (kput _ (s3.dropAnswers c).nextUid z) s.nextUid = some z
    rw [huid, kget_kput_self]
  · rw [State.seq, houtside.seqs]
    show (sget DieSeq.empty (sset DieSeq.empty _ z.die _) _).count = _
    rw [hdie, sget_sset_self, hseq]

theorem execOfsub_again {a d : BitVec 7} (h : Issues (.ofsub a d) s c) (hm : c.m ≠ 0) (hx : s.openTx c.u = some (id, x))
    (hte : c.lr.trapentry ≠ 0) (hh : c.w.hlanes = 0) :
    ∃ t, exec (.ofsub a d) s = .next t ∧ Traps s t c c.is.mask 0 0x16 (if x.inside then 3 else 4) c.is.pc 0 := by
  refine ⟨_, warpOp_next h _ (exec_ofsub a d s), ?_⟩
  rw [if_neg hm, openTx_set h, hx]
  exact trapAll_traps h _ _ _ hte hh

theorem execOfwait_passes (h : Issues .ofwait s c) (hin : ∀ id x, s.openTx c.u = some (id, x) → x.inside = true) :
    ∃ t, exec .ofwait s = .next t ∧ Passes s t c c.is.mask := by
  refine ⟨_, warpOp_next h _ (exec_ofwait s), ?_⟩
  rw [openTx_set h]
  rcases openTx_none (fun x => x.inside = true) hin with hx | ⟨_, x, hx, hi⟩
  · rw [hx]
    exact h.passes _
  · rw [hx]
    dsimp only
    rw [if_pos hi]
    exact h.passes _

theorem execOfwait_waits (h : Issues .ofwait s c) (hx : s.openTx c.u = some (id, x)) (hi : x.inside = false) :
    ∃ t, exec .ofwait s = .next t ∧ Waits s t c c.m c.rest .ofwait := by
  refine ⟨_, warpOp_next h _ (exec_ofwait s), ?_⟩
  rw [openTx_set h, hx]
  dsimp only
  rw [hi]
  exact h.waits .ofwait c.m c.rest _ (rest_disj c)

theorem execOfcommit_traps (h : Issues .ofcommit s c) (hin : ∀ id x, s.openTx c.u = some (id, x) → x.inside = false)
    (hte : c.lr.trapentry ≠ 0) (hh : c.w.hlanes = 0) :
    ∃ t, exec .ofcommit s = .next t ∧ Traps s t c c.is.mask 0 0x16 5 c.is.pc 0 := by
  refine ⟨_, warpOp_next h _ (exec_ofcommit s), ?_⟩
  rw [openTx_set h]
  rcases openTx_none (fun x => x.inside = false) hin with hx | ⟨_, x, hx, hi⟩
  · rw [hx]
    exact trapAll_traps h _ _ _ hte hh
  · rw [hx]
    dsimp only
    rw [hi]
    exact trapAll_traps h _ _ _ hte hh

/-- A commit writes the held bytes, drops the remote copies of their lines and ends the transaction. -/
theorem commitTx_spec {t : State} (hx : kget t.txs id = some x) (hrise : risesFrom none x.held = true) :
    (∃ m r, t.commitTx id = { t with mem := m, rc := r, txs := kdel t.txs id }) ∧
    ∀ a, (t.commitTx id).hByte a = (kget x.held a).getD (t.hByte a) := by
  obtain ⟨⟨m, r, hfold⟩, hbytes⟩ := commit_fold x.held none hrise t
  have he : t.commitTx id = (x.held.foldl (fun st b => (st.setH b.1 b.2).rcDrop (b.1 / lineBytes)) t).txDrop id := by
    unfold State.commitTx
    rw [hx]
  rw [he]
  refine ⟨⟨m, r, ?_⟩, hbytes⟩
  rw [hfold]
  rfl

theorem openTx_tx {u : Nat} (h : s.openTx u = some (id, x)) : kget s.txs id = some x := by
  obtain ⟨k, -, hk⟩ := Option.bind_eq_some_iff.1 h
  obtain ⟨y, hy, he⟩ := Option.map_eq_some_iff.1 hk
  cases he
  exact hy

theorem execOfcommit_commits (h : Issues .ofcommit s c) (hx : s.openTx c.u = some (id, x)) (hi : x.inside = true) (hq : c.w.queues = [])
    (hr : s.releaseMet c.u c.p.view 4 = true) (hrise : risesFrom none x.held = true) :
    ∃ t w, exec .ofcommit s = .next t ∧ (∀ a, t.hByte a = (kget x.held a).getD (s.hByte a)) ∧ kget t.txs id = none ∧
      (∀ k, k ≠ id → kget t.txs k = kget s.txs k) ∧ (∀ k off, t.spadByte k off = s.spadByte k off) ∧
      (∀ v, v ≠ c.u → kget t.warps v = kget s.warps v) ∧ kget t.warps c.u = some w ∧ w.tx = none ∧
      Untouched c { w with tx := c.w.tx } ∧ Advances c c.w w c.is.mask := by
  have hex : exec .ofcommit s = .next ((((s.setWarp c.u c.w).commitTx id).modWarp c.u (fun w => { w with tx := none })).done c c.is.mask) := by
    refine (warpOp_next h _ (exec_ofcommit s)).trans ?_
    rw [openTx_set h, hx]
    dsimp only
    rw [hi, releaseTry_device (s := s.setWarp c.u c.w) hq hr]
    rfl
  obtain ⟨⟨m, r, he⟩, hbytes⟩ := commitTx_spec (t := s.setWarp c.u c.w) (show kget s.txs id = some x from openTx_tx hx) hrise
  generalize (s.setWarp c.u c.w).commitTx id = s1 at hex he hbytes
  have hunit : kget (s1.modWarp c.u (fun w => { w with tx := none })).warps c.u = some { c.w with tx := none } :=
    modWarp_get (by rw [he]; exact unit_setWarp s c.u c.w) _
  obtain ⟨o, hd⟩ := done_frame (s1.modWarp c.u (fun w => { w with tx := none })) c c.is.mask
  obtain ⟨fr, n, k, y, hw, ha⟩ := hd _ hunit
  have htxs : ∀ j, kget (s1.modWarp c.u (fun w => { w with tx := none })).txs j = if j = id then none else kget s.txs j := fun j => by
    rw [he]
    exact kget_kdel ..
  refine ⟨_, _, hex, fun a => (o.memory a).trans (hbytes a), by rw [o.txs, htxs, if_pos rfl], fun j hj => by rw [o.txs, htxs, if_neg hj],
    fun j off => (o.scratch j off).trans (by rw [he]; rfl), fun v hv => (o.others v hv).trans ?_, hw, rfl, untouched_rfl c, ha h.alive⟩
  rw [he]
  exact (kget_kmod_ne _ _ hv).trans (kget_kput_ne _ _ hv)

theorem execOfinfo_gives {d : BitVec 7} (h : Issues (.ofinfo d) s c) (hx : s.openTx c.u = some (id, x)) (hmark : x.hasMark = true) :
    ∃ t, exec (.ofinfo d) s = .next t ∧ RegResult s t c d.toNat 2
      (fun _ => words64 (BitVec.ofNat 64 (x.beat % 2 ^ 32 * 2 ^ 32 + x.die * 2 ^ 30 + x.seat % 2 ^ 16))) (fun _ => 0) := by
  refine ⟨_, warpOp_next h _ (exec_ofinfo d s), ?_⟩
  dsimp only
  rw [openTx_set h, hx]
  dsimp only
  rw [if_pos hmark]
  exact finishReg_result h d.toNat 2 (fun _ => (words64 (BitVec.ofNat 64 x.postmark), 0)) c.row.cls 0 (fun _ _ => rfl)

theorem execOfinfo_waits {d : BitVec 7} (h : Issues (.ofinfo d) s c) (hx : s.openTx c.u = some (id, x)) (hmark : x.hasMark = false) :
    ∃ t, exec (.ofinfo d) s = .next t ∧ Waits s t c c.m c.rest .ofinfo := by
  refine ⟨_, warpOp_next h _ (exec_ofinfo d s), ?_⟩
  dsimp only
  rw [openTx_set h, hx]
  dsimp only
  rw [hmark]
  exact h.waits .ofinfo c.m c.rest _ (rest_disj c)

theorem execOfinfo_last {d : BitVec 7} (h : Issues (.ofinfo d) s c) (hx : s.openTx c.u = none) :
    ∃ t, exec (.ofinfo d) s = .next t ∧ RegResult s t c d.toNat 2
      (fun _ => words64 (BitVec.ofNat 64 (c.w.postmark.getD (2 ^ 64 - 1)))) (fun _ => 0) := by
  refine ⟨_, warpOp_next h _ (exec_ofinfo d s), ?_⟩
  dsimp only
  rw [openTx_set h, hx]
  exact finishReg_result h d.toNat 2 (fun _ => (words64 (BitVec.ofNat 64 (c.w.postmark.getD (2 ^ 64 - 1))), 0)) c.row.cls 0 (fun _ _ => rfl)

end

end Sys2Proof.Machine

namespace Sys2Proof
open Sys2Proof.Machine

/-- Settles O38, instruction by instruction. -/
theorem orderFirst : Obligations.OrderFirst := by
  refine ⟨fun a d s c h hm => ?_, fun _ _ _ _ _ _ h hm hx hte hh => execOfsub_again h hm hx hte hh,
    fun _ _ _ _ _ _ _ _ _ _ h hm hno hrec hglob hw hr => execOfsub_gives h hm hno hrec hglob hw hr, fun _ _ h hin => execOfwait_passes h hin,
    fun _ _ _ _ h hx hi => execOfwait_waits h hx hi, fun _ _ h hin hte hh => execOfcommit_traps h hin hte hh,
    fun _ _ _ _ h hx hi hq hr hrise => execOfcommit_commits h hx hi hq hr hrise, fun _ _ _ _ _ h hx hmark => execOfinfo_gives h hx hmark,
    fun _ _ _ _ _ h hx hmark => execOfinfo_waits h hx hmark, fun _ _ _ h hx => execOfinfo_last h hx⟩
  exact ⟨_, (warpOp_next h _ (exec_ofsub a d s)).trans (congrArg _ (if_pos hm)), h.passes _⟩

end Sys2Proof
end

section
namespace Sys2Proof.Machine

/-! ### Half-rows of tiles (R240, R241) -/

/-- Registers with a level of their own, written without lineage: the results of a read of a tile. -/
theorem put_result (s : State) (c : Ctx) (hm : ∀ l, c.m.getLsbD l = true → c.is.mask.getLsbD l = true) (hal : c.w.ended = false)
    (d n lev : Nat) (f : Nat → List Word) (fl : Nat → BitVec 5) (hf : ∀ l, c.m.getLsbD l = true → (f l).length = n) :
    RegResult s (((s.setWarp c.u ((c.put d n ((lanesOf c.m).map (fun l => (l, f l))) lev).orLanes ((lanesOf c.m).map (fun l => (l, fl l))))).linResult
      c.p.core c.u (c.w.wbase + d) n [] none).done c c.is.mask) c d n f fl := by
  obtain ⟨m, rl, wr, hz, hput⟩ := put_eq c d n ((lanesOf c.m).map (fun l => (l, f l))) lev
  have hreg := put_written c d n f lev hf hm
  generalize c.put d n ((lanesOf c.m).map (fun l => (l, f l))) lev = w0 at hput hreg ⊢
  obtain ⟨fs, hor⟩ := orLanes_eq w0 ((lanesOf c.m).map (fun l => (l, fl l)))
  have hflags : ∀ k, k < 64 → (w0.orLanes ((lanesOf c.m).map (fun l => (l, fl l)))).flagsOf k =
      if c.m.getLsbD k then w0.flagsOf k ||| fl k else w0.flagsOf k :=
    fun k hk => flags_orMask _ _ _ hk
  generalize w0.orLanes ((lanesOf c.m).map (fun l => (l, fl l))) = w1 at hor hflags ⊢
  obtain ⟨hlin, hlinw⟩ := linResult_frame (s.setWarp c.u w1) c.p.core c.u (c.w.wbase + d) n [] none
  obtain ⟨l, hz2, hw2⟩ := hlinw _ (unit_setWarp ..)
  obtain ⟨hdone, hd⟩ := done_frame ((s.setWarp c.u w1).linResult c.p.core c.u (c.w.wbase + d) n [] none) c c.is.mask
  obtain ⟨fr, k, tn, x, hw3, hadv⟩ := hd _ hw2
  subst hput
  subst hor
  exact ⟨((onlyUnit_setWarp _ _ _).trans hlin).trans hdone, _, hw3, rfl, ⟨fun j l hj hl => hreg.1 j l hj hl, fun r l hl hr => hreg.2 r l hl hr⟩,
    fun k hk => hflags k hk, fun _ => rfl, hadv hal⟩

/-- What has passed from the latched unit has passed from the unit. -/
theorem UnitPasses.latched {s t : State} {c : Ctx} {w : Warp} (h : UnitPasses (s.setWarp c.u w) t c) : UnitPasses s t c :=
  ⟨h.memory, h.scratch, fun v hv => (h.others v hv).trans (kget_kput_ne _ _ hv), h.views, h.unit⟩

section
variable {s : State} {c : Ctx} {b : Block} {x : Tile} {a d : BitVec 7} {i : Instr}

/-- An instruction that changes its block and ends: the unit passes, and the block is as changed. -/
theorem modBlockDone {s1 : State} (hal : c.w.ended = false) (hw : kget s1.warps c.u = some c.w)
    (hb : kget s1.blocks c.p.blk = some b) (f : Block → Block) (hf : ∀ y, (f y).spad = y.spad) :
    UnitPasses s1 ((s1.modBlock c.p.blk f).done c c.is.mask) c ∧ kget ((s1.modBlock c.p.blk f).done c c.is.mask).blocks c.p.blk = some (f b) := by
  refine ⟨passes_blocks _ (fun _ => rfl) (spad_modBlock _ _ _ hf) rfl (fun _ => rfl) hw hal, ?_⟩
  rw [(done_rest _ c _).1]
  show kget (kmod s1.blocks _ _) _ = _
  rw [kget_kmod_self, hb]
  rfl

theorem execAccrd_idle (h : Issues (.accrd a d) s c) (hm : c.m = 0) :
    ∃ t, exec (.accrd a d) s = .next t ∧ RegResult s t c d.toNat 1 (fun _ => []) (fun _ => 0) :=
  ⟨_, (warpOp_next h _ (exec_accrd a d s)).trans (congrArg _ (if_pos hm)),
    finishReg_result h d.toNat 1 (fun _ => ([], 0)) .n 0 fun l hl => by rw [hm] at hl; simp at hl⟩

theorem execAccwr_idle (h : Issues (.accwr a d) s c) (hm : c.m = 0) : ∃ t, exec (.accwr a d) s = .next t ∧ Passes s t c c.is.mask :=
  ⟨_, (warpOp_next h _ (exec_accwr a d s)).trans (congrArg _ (if_pos hm)), h.passes _⟩

/-- A half-row of a tile that is not allocated traps. -/
theorem accOp_traps {wr : Bool} {g : Ctx → State → State} {f : Ctx → State → Tile → Nat → Nat → Nat → State}
    (he : ∀ s, exec i s = accOp i s a wr g f) (h : Issues i s c)
    (hm : c.m ≠ 0) (hb : kget s.blocks c.p.blk = some b) (hnone : kget b.tiles ((c.rd a.toNat c.low).toNat % 16) = none)
    (hte : c.lr.trapentry ≠ 0) (hh : c.w.hlanes = 0) :
    ∃ t, exec i s = .next t ∧ Traps s t c c.is.mask 0 0x11 (if wr then 1 else 0) c.is.pc 0 := by
  have hex := accOp_eq h hb a wr g f he hm
  dsimp only at hex
  rw [hnone] at hex
  exact ⟨_, hex, trapAll_traps h _ _ _ hte hh⟩

/-- A half-row of a tile that is allocated and in accumulator memory is accessed. -/
theorem accOp_accesses {wr : Bool} {g : Ctx → State → State} {f : Ctx → State → Tile → Nat → Nat → Nat → State}
    (he : ∀ s, exec i s = accOp i s a wr g f) (h : Issues i s c)
    (hm : c.m ≠ 0) (hb : kget s.blocks c.p.blk = some b) (hx : kget b.tiles ((c.rd a.toNat c.low).toNat % 16) = some x)
    (hsp : x.spilled = false) : let v := (c.rd a.toNat c.low).toNat
    exec i s = .next (f c (s.setWarp c.u c.w) x (v % 16) (bits v 10 4) (bits v 11 11)) := by
  have hex := accOp_eq h hb a wr g f he hm
  dsimp only at hex
  rw [hx, Option.elim_some, hsp] at hex
  exact hex

theorem execAccrd_reads (h : Issues (.accrd a d) s c) (hm : c.m ≠ 0) (hb : kget s.blocks c.p.blk = some b)
    (hx : kget b.tiles ((c.rd a.toNat c.low).toNat % 16) = some x) (hsp : x.spilled = false)
    (hch : s.inChunk (c.p.core / 4) c.p.blk ((c.rd a.toNat c.low).toNat % 16) = false) (hrd : x.readers.contains (c.u, c.is.stamp) = false) :
    let v := (c.rd a.toNat c.low).toNat
    let e (l : Nat) := cvtF a40 f32 .rne false (x.at_ (bits v 10 4) (64 * bits v 11 11 + l)).toNat
    ∃ t, exec (.accrd a d) s = .next t ∧ RegResult s t c d.toNat 1 (fun l => [BitVec.ofNat 32 (e l).1]) (fun l => (e l).2) := by
  intro v e
  refine ⟨_, accOp_accesses (exec_accrd a d) h hm hb hx hsp, ?_⟩
  have hset : (s.setWarp c.u c.w).inChunk (c.p.core / 4) c.p.blk (v % 16) = false := hch
  dsimp only
  rw [hset, hrd]
  have r := put_result (s.setWarp c.u c.w) c h.mask_le h.alive d.toNat 1 (c.level x.level)
    (fun l => [BitVec.ofNat 32 (e l).1]) (fun l => (e l).2) (fun _ _ => rfl)
  simp only [List.map_map]
  exact ⟨(onlyUnit_setWarp _ _ _).trans r.outside, r.unit⟩

/-- The half-row `h` of row `i` of a tile after an `accwr` of the registers at field `d`: the lanes of M have their elements. -/
def Ctx.rowWritten (c : Ctx) (d i h : Nat) (x : Tile) : Tile :=
  let y := (lanesOf c.m).foldl (fun (x : Tile) l => x.set i (64 * h + l) (BitVec.ofNat 40 (cvtF f32 a40 .rne false (c.rd d l).toNat).1)) x
  { y with level := max y.level (c.w.regLevel (c.w.wbase + d)), back := (lanesOf c.m).foldl (fun m l => kdel m (128 * i + 64 * h + l)) y.back }

theorem rowWritten_at (c : Ctx) (d i h : Nat) (x : Tile) (hh : h < 2) {r j : Nat} (hj : j < 128) :
    (c.rowWritten d i h x).at_ r j = if r = i ∧ j / 64 = h ∧ c.m.getLsbD (j % 64) = true
      then BitVec.ofNat 40 (cvtF f32 a40 .rne false (c.rd d (j % 64)).toNat).1 else x.at_ r j := by
  obtain ⟨-, hat⟩ := setTile_fold i h (fun l => BitVec.ofNat 40 (cvtF f32 a40 .rne false (c.rd d l).toNat).1) (lanesOf c.m)
    (fun l hl => (mem_lanesOf.1 hl).1) hh x
  have hlane : j % 64 ∈ lanesOf c.m ↔ c.m.getLsbD (j % 64) = true := by
    rw [mem_lanesOf, and_iff_right (Nat.mod_lt _ (by decide))]
  exact (hat r j hj).trans (by simp only [hlane])

theorem execAccwr_writes (h : Issues (.accwr a d) s c) (hm : c.m ≠ 0) (hb : kget s.blocks c.p.blk = some b)
    (hx : kget b.tiles ((c.rd a.toNat c.low).toNat % 16) = some x) (hsp : x.spilled = false) :
    let v := (c.rd a.toNat c.low).toNat
    ∃ t b' y, exec (.accwr a d) s = .next t ∧ UnitPasses s t c ∧ kget t.blocks c.p.blk = some b' ∧ kget b'.tiles (v % 16) = some y ∧
      (∀ k, k ≠ v % 16 → kget b'.tiles k = kget b.tiles k) ∧
      ∀ r j, r < 128 → j < 128 → y.at_ r j = if r = bits v 10 4 ∧ j / 64 = bits v 11 11 ∧ c.m.getLsbD (j % 64) = true
        then BitVec.ofNat 40 (cvtF f32 a40 .rne false (c.rd d.toNat (j % 64)).toNat).1 else x.at_ r j := by
  intro v
  obtain ⟨hpass, hblk⟩ := modBlockDone (s1 := s.setWarp c.u c.w) h.alive (unit_setWarp ..) hb
    (fun b => { b with tiles := kput b.tiles (v % 16) (c.rowWritten d.toNat (bits v 10 4) (bits v 11 11) x) }) (fun _ => rfl)
  refine ⟨_, _, _, accOp_accesses (exec_accwr a d) h hm hb hx hsp, hpass.latched, hblk, kget_kput_self .., fun k hk => kget_kput_ne _ _ hk,
    fun r j _ hj => rowWritten_at c d.toNat _ _ x (Nat.mod_lt _ (by decide)) hj⟩

end

/-- Settles O39. That an `accrd` with an empty M and zp=1 still writes zeros (log 95) and that an `accwr` raises no flag (log 111) are the
model's choices. -/
theorem tileRows : Obligations.TileRows := by
  refine ⟨fun _ _ _ _ h hm => execAccrd_idle h hm, fun _ _ _ _ h hm => execAccwr_idle h hm, ?_,
    fun _ _ _ _ _ _ h hm hb hx hsp hch hrd => execAccrd_reads h hm hb hx hsp hch hrd,
    fun _ _ _ _ _ _ h hm hb hx hsp => execAccwr_writes h hm hb hx hsp⟩
  rintro a d i n (⟨rfl, rfl⟩ | ⟨rfl, rfl⟩) s c b h hm hb hnone hte hh
  · exact accOp_traps (exec_accrd a d) h hm hb hnone hte hh
  · exact accOp_traps (exec_accwr a d) h hm hb hnone hte hh

/-! ### Allocation of tiles (R242, R243) -/

/-- The free run that `acalloc` takes is the lowest. -/
theorem freeRun_some {b : Block} {n f : Nat} (hn : 1 ≤ n) (hf : f + n ≤ 16) (hfree : ∀ j, j < n → kget b.tiles (f + j) = none)
    (hlow : ∀ g, g < f → ∃ j, j < n ∧ (kget b.tiles (g + j)).isSome = true) : b.freeRun n = some f := by
  refine find_range_some 16 f _ (by omega) ?_ fun g hg => ?_
  · rw [Bool.and_eq_true, decide_eq_true_eq, List.all_eq_true]
    exact ⟨hf, fun j hj => by rw [hfree j (List.mem_range.1 hj)]; rfl⟩
  · obtain ⟨j, hj, hsome⟩ := hlow g hg
    rw [Bool.and_eq_false_iff, List.all_eq_false]
    exact .inr ⟨j, List.mem_range.2 hj, by simpa [Option.isSome_iff_ne_none] using hsome⟩

section
variable {s : State} {c : Ctx} {b x : Block} {a d : BitVec 7} {n f : Nat}

/-- What `acalloc` does, its count taken from the register. -/
theorem execAcalloc_eq (h : Issues (.acalloc a d) s c) (hb : kget s.blocks c.p.blk = some b) (hn : n = (c.rd a.toNat 0).toNat) :
    exec (.acalloc a d) s = .next (
      let t := s.setWarp c.u c.w
      if n = 0 ∨ n > 16 ∨ b.tiles.length + n > c.lr.accmax then t.trapAll c 0x1A n 0
      else (b.freeRun n).elim (t.trapAll c 0x1A n 0) (fun f =>
        if c.lr.overcommit ∧ ((t.accWaiters (c.p.core / 4)).any (fun x => decide (t.reqAge x.2 < t.reqAge b)) ∨
            t.tilesFree (c.p.core / 4) < n + b.spilledTiles) then
          ((t.modBlock c.p.blk (fun b => { b with accWait := some n })).modWarp c.u (fun w =>
            ({ w with rlev := sset 0 w.rlev (c.w.wbase + d.toNat) (c.level 0), written := sset false w.written (c.w.wbase + d.toNat) true }).hold c.m
              c.is.pc c.is.npc (.acalloc (c.w.wbase + d.toNat) n))).done c 0
        else c.finishReg (t.modBlock c.p.blk (fun b => b.unspill.allocTiles f n)) d.toNat 1 (fun _ => ([BitVec.ofNat 32 f], 0)) c.row.cls 0)) := by
  subst hn
  refine (warpOp_next h _ (exec_acalloc a d s)).trans ?_
  have hblk : (s.setWarp c.u c.w).blockOf c = some b := hb
  dsimp only
  rw [hblk]
  dsimp only
  cases b.freeRun (c.rd a.toNat 0).toNat <;> rfl

theorem execAcalloc_traps (h : Issues (.acalloc a d) s c) (hb : kget s.blocks c.p.blk = some b) (hn : n = (c.rd a.toNat 0).toNat)
    (hbad : n = 0 ∨ 16 < n ∨ c.lr.accmax < b.tiles.length + n ∨ b.freeRun n = none) (hte : c.lr.trapentry ≠ 0) (hh : c.w.hlanes = 0) :
    ∃ t, exec (.acalloc a d) s = .next t ∧ Traps s t c c.is.mask 0 0x1A n c.is.pc 0 := by
  refine ⟨_, (execAcalloc_eq h hb hn).trans (congrArg _ ?_), trapAll_traps h 0x1A n 0 hte hh⟩
  dsimp only
  by_cases hcount : n = 0 ∨ n > 16 ∨ b.tiles.length + n > c.lr.accmax
  · rw [if_pos hcount]
  · have hnone : b.freeRun n = none := by tauto
    rw [if_neg hcount, hnone]
    rfl

/-- A request that need not wait. -/
def Ctx.mayTake (c : Ctx) (s : State) (b : Block) (n : Nat) : Prop := c.lr.overcommit = true →
  n + b.spilledTiles ≤ s.tilesFree (c.p.core / 4) ∧ ∀ x ∈ s.accWaiters (c.p.core / 4), s.reqAge b ≤ s.reqAge x.2

theorem execAcalloc_takes (h : Issues (.acalloc a d) s c) (hb : kget s.blocks c.p.blk = some b) (hnv : n = (c.rd a.toNat 0).toNat) (hn : 1 ≤ n)
    (hn16 : n ≤ 16) (hmax : b.tiles.length + n ≤ c.lr.accmax) (hf : f + n ≤ 16) (hfree : ∀ j, j < n → kget b.tiles (f + j) = none)
    (hlow : ∀ g, g < f → ∃ j, j < n ∧ (kget b.tiles (g + j)).isSome = true) (htake : c.mayTake s b n) :
    ∃ t w b', exec (.acalloc a d) s = .next t ∧ kget t.warps c.u = some w ∧
      RegsWritten c w d.toNat 1 (fun _ => [BitVec.ofNat 32 f]) ∧ Advances c c.w w c.is.mask ∧ kget t.blocks c.p.blk = some b' ∧
      (∀ j, j < n → kget b'.tiles (f + j) = some Tile.fresh) ∧
      ∀ k, k < f ∨ f + n ≤ k → kget b'.tiles k = (kget b.tiles k).map (fun x => { x with spilled := false }) := by
  have hex := execAcalloc_eq h hb hnv
  dsimp only at hex
  have hgo : ¬(c.lr.overcommit = true ∧ (((s.setWarp c.u c.w).accWaiters (c.p.core / 4)).any
      (fun x => decide ((s.setWarp c.u c.w).reqAge x.2 < (s.setWarp c.u c.w).reqAge b)) = true ∨
      (s.setWarp c.u c.w).tilesFree (c.p.core / 4) < n + b.spilledTiles)) := by
    rintro ⟨hover, hold | hfew⟩
    · obtain ⟨y, hy, hage⟩ := List.any_eq_true.1 hold
      exact absurd (of_decide_eq_true hage) (Nat.not_lt.2 ((htake hover).2 y hy))
    · exact absurd hfew (Nat.not_lt.2 (htake hover).1)
  rw [if_neg (by omega), freeRun_some hn hf hfree hlow, Option.elim_some, if_neg hgo] at hex
  obtain ⟨ho, w, hw, -, hregs, -, -, hadv⟩ := finishReg_any ((s.setWarp c.u c.w).modBlock c.p.blk (fun b => b.unspill.allocTiles f n)) c h.mask_le
    h.alive d.toNat 1 (fun _ => ([BitVec.ofNat 32 f], 0)) c.row.cls 0 (fun _ _ => rfl)
  have hget : ∀ k, kget (b.unspill.allocTiles f n).tiles k =
      if f ≤ k ∧ k < f + n then some Tile.fresh else (kget b.tiles k).map (fun x => { x with spilled := false }) :=
    unspill_alloc_get b b.accWait f n
  refine ⟨_, w, b.unspill.allocTiles f n, hex, hw, hregs, hadv, ?_, fun j hj => ?_, fun k hk => ?_⟩
  · rw [ho.blocks]
    show kget (kmod s.blocks _ _) _ = _
    rw [kget_kmod_self, hb]
    rfl
  · rw [hget, if_pos (by omega)]
  · rw [hget, if_neg (by omega)]

/-! ### Tiles set free (R242) -/

/-- A tile that an `acfree` of `n` tiles from `f` frees. -/
def Block.frees (x : Block) (f n k : Nat) : Prop := k < 16 ∧ f ≤ k ∧ k < f + n ∧ x.tileOk k = true

def Block.freed (x : Block) (f n : Nat) : List Nat := (List.range 16).filter (fun k => decide (f ≤ k ∧ k < f + n) && x.tileOk k)

theorem mem_freed {k : Nat} : k ∈ x.freed f n ↔ x.frees f n k := by
  simp [Block.freed, Block.frees, and_assoc]

theorem tileOk_iff {k : Nat} : x.tileOk k = true ↔ ∃ y, kget x.tiles k = some y ∧ y.freeing = false := by
  unfold Block.tileOk
  cases kget x.tiles k <;> simp

/-- What `acfree` does, its range taken from the registers. -/
theorem execAcfree_eq (h : Issues (.acfree d a) s c) (hx : kget s.blocks c.p.blk = some x) (hf : f = (c.rd a.toNat 0).toNat)
    (hn : n = (c.rd d.toNat 0).toNat) :
    exec (.acfree d a) s = .next (
      let t := s.setWarp c.u c.w
      if (x.freed f n).isEmpty then t.done c c.is.mask
      else if (s.meng (c.p.core / 4)).table.any (fun k => k.blk == c.p.blk && (x.freed f n).contains k.tile) then
        ((t.enter c x { MCmd.blank with kind := .acfree, tiles := x.freed f n, tile := 16 }).modBlock c.p.blk (fun b =>
          { b with tiles := (x.freed f n).foldl (fun m k => kmod m k (fun y => { y with freeing := true })) b.tiles })).done c c.is.mask
      else (t.modBlock c.p.blk (fun b => { b with tiles := (x.freed f n).foldl kdel b.tiles })).done c c.is.mask) := by
  subst hf hn
  refine (warpOp_next h _ (exec_acfree d a s)).trans ?_
  have hblk : (s.setWarp c.u c.w).blockOf c = some x := hx
  dsimp only
  rw [hblk]
  rfl

theorem execAcfree_idle (h : Issues (.acfree d a) s c) (hx : kget s.blocks c.p.blk = some x)
    (hnone : ∀ k, ¬x.frees (c.rd a.toNat 0).toNat (c.rd d.toNat 0).toNat k) :
    ∃ t, exec (.acfree d a) s = .next t ∧ Passes s t c c.is.mask := by
  refine ⟨_, (execAcfree_eq h hx rfl rfl).trans (congrArg _ (if_pos ?_)), h.passes _⟩
  exact List.isEmpty_iff.2 (List.eq_nil_iff_forall_not_mem.2 fun k hk => hnone k (mem_freed.1 hk))

/-- Some command of the block stands on a tile that is to be freed. -/
theorem busy_iff {ms : List MCmd} {blk : Nat} : ms.any (fun k => k.blk == blk && (x.freed f n).contains k.tile) = true ↔
    ∃ m ∈ ms, m.blk = blk ∧ x.frees f n m.tile := by
  simp [List.any_eq_true, mem_freed]

theorem execAcfree_frees (h : Issues (.acfree d a) s c) (hx : kget s.blocks c.p.blk = some x) (hf : f = (c.rd a.toNat 0).toNat)
    (hn : n = (c.rd d.toNat 0).toNat) (hsome : ∃ k, x.frees f n k)
    (hidle : ∀ m ∈ (s.meng (c.p.core / 4)).table, m.blk = c.p.blk → ¬x.frees f n m.tile) :
    ∃ t b', exec (.acfree d a) s = .next t ∧ UnitPasses s t c ∧ kget t.blocks c.p.blk = some b' ∧
      ∀ k, (x.frees f n k → kget b'.tiles k = none) ∧ (¬x.frees f n k → kget b'.tiles k = kget x.tiles k) := by
  have hex := execAcfree_eq h hx hf hn
  obtain ⟨k0, hk0⟩ := hsome
  have hne : (x.freed f n).isEmpty = false := List.isEmpty_eq_false_iff.2 (List.ne_nil_of_mem (mem_freed.2 hk0))
  have hbusy : ¬_ := mt busy_iff.1 (by rintro ⟨m, hm, hblk, hfr⟩; exact hidle m hm hblk hfr)
  dsimp only at hex
  rw [hne, if_neg Bool.false_ne_true, if_neg hbusy] at hex
  obtain ⟨hpass, hblk⟩ := modBlockDone (s1 := s.setWarp c.u c.w) h.alive (unit_setWarp ..) hx
    (fun b => { b with tiles := (x.freed f n).foldl kdel b.tiles }) (fun _ => rfl)
  refine ⟨_, _, hex, hpass.latched, hblk, fun k => ⟨fun hk => ?_, fun hk => ?_⟩⟩
  · exact (kdel_fold ..).trans (if_pos (mem_freed.2 hk))
  · exact (kdel_fold ..).trans (if_neg (mt mem_freed.1 hk))

theorem execAcfree_posts (h : Issues (.acfree d a) s c) (hx : kget s.blocks c.p.blk = some x) (hf : f = (c.rd a.toNat 0).toNat)
    (hn : n = (c.rd d.toNat 0).toNat) (hbusy : ∃ m ∈ (s.meng (c.p.core / 4)).table, m.blk = c.p.blk ∧ x.frees f n m.tile) :
    ∃ t b' m, exec (.acfree d a) s = .next t ∧ UnitPasses s t c ∧ kget t.blocks c.p.blk = some b' ∧
      (t.meng (c.p.core / 4)).table = (s.meng (c.p.core / 4)).table ++ [m] ∧ m.kind = .acfree ∧ (∀ k, k ∈ m.tiles ↔ x.frees f n k) ∧
      ∀ k, (x.frees f n k → b'.tileOk k = false ∧ (kget b'.tiles k).isSome = true) ∧
        (¬x.frees f n k → kget b'.tiles k = kget x.tiles k) := by
  have hex := execAcfree_eq h hx hf hn
  obtain ⟨m0, hm0, hblk0, hk0⟩ := hbusy
  have hne : (x.freed f n).isEmpty = false := List.isEmpty_eq_false_iff.2 (List.ne_nil_of_mem (mem_freed.2 hk0))
  dsimp only at hex
  rw [hne, if_neg Bool.false_ne_true, if_pos (busy_iff.2 ⟨m0, hm0, hblk0, hk0⟩)] at hex
  obtain ⟨k1, hk1⟩ : ∃ k1, k1 = { MCmd.blank with kind := .acfree, tiles := x.freed f n, tile := 16 } := ⟨_, rfl⟩
  rw [← hk1] at hex
  obtain ⟨hpass, hblk⟩ := modBlockDone (s1 := (s.setWarp c.u c.w).enter c x k1) h.alive (unit_setWarp ..) hx
    (fun b => { b with tiles := (x.freed f n).foldl (fun m k => kmod m k (fun y => { y with freeing := true })) b.tiles }) (fun _ => rfl)
  refine ⟨_, _, { k1 with id := s.nextUid, blk := c.p.blk, u := c.u, prio := c.lr.prio, pc := c.is.pc, m := x.vm, n := x.vn, k := x.vk },
    hex, ?_, hblk, ?_,
    by rw [hk1], fun k => by rw [hk1]; exact mem_freed, fun k => ?_⟩
  · obtain ⟨hmem, hscr, hoth, hview, hunit⟩ := hpass
    exact UnitPasses.latched (w := c.w) ⟨hmem, hscr, hoth, hview, hunit⟩
  · rw [State.meng, (done_rest _ c _).2]
    refine (congrArg MEngine.table (meng_setMeng _ _ (c.p.core / 4) _)).trans ?_
    rw [if_pos rfl]
    rfl
  · obtain ⟨hout, hin⟩ := freeing_fold (x.freed f n) x.tiles k
    refine ⟨fun hk => ?_, fun hk => hout (mt mem_freed.1 hk)⟩
    have ⟨_, _, _, hok⟩ := hk
    obtain ⟨y, hy, -⟩ := tileOk_iff.1 hok
    obtain ⟨y', hy', hfreeing⟩ := hin y hy
    have htile : kget ({ x with
        tiles := (x.freed f n).foldl (fun m k => kmod m k (fun y => { y with freeing := true })) x.tiles } : Block).tiles k = some y' := hy'
    rw [Block.tileOk, htile]
    simp [hfreeing (.inl (mem_freed.2 hk))]

end

/-- Settles O40. No clause of it is about the wait of `acalloc` with OVERCOMMIT. -/
theorem tileAllocation : Obligations.TileAllocation := by
  refine ⟨fun a d s c b h hb => ⟨fun hbad hte hh => execAcalloc_traps h hb rfl hbad hte hh,
      fun hn hn16 hmax f hf hfree hlow htake => execAcalloc_takes h hb rfl hn hn16 hmax hf hfree hlow htake⟩,
    fun b a s c x h hx => ⟨fun hnone => execAcfree_idle h hx hnone, fun hsome hidle => execAcfree_frees h hx rfl rfl hsome hidle,
      fun hbusy => execAcfree_posts h hx rfl rfl hbusy⟩⟩

end Sys2Proof.Machine
end

section
namespace Sys2Proof.Machine

/-! ### Matrix commands (R244 to R249) -/

section
variable {i : Instr} {s s0 s1 : State} {c : Ctx} {b : Block} {k : MCmd} {slots : KMap Slot} {d : BitVec 7} {pre : Block → Bool}
  {f : Ctx → State → Block → Nat → State}

/-- A command on a tile that passes its checks is what its posting makes it. -/
theorem tileCmd_posts (he : ∀ s, exec i s = tileCmd i s d pre f) (h : Issues i s c) (hb : kget s.blocks c.p.blk = some b)
    (htile : b.tileOk ((c.rd d.toNat 0).toNat % 16) = true) (hpre : pre b = true) (ho : OnlyMem (s.setWarp c.u c.w) s0)
    (hs1 : s1.warps = s0.warps ∧ s1.blocks = s0.blocks) (hfull : (s1.meng (c.p.core / 4)).full = false)
    (hf : f c (s.setWarp c.u c.w) b ((c.rd d.toNat 0).toNat % 16) = s1.postCmd c b k slots) :
    ∃ t, exec i s = .next t ∧ Posts s1 t c b k slots := by
  have hex := tileCmd_eq h hb d pre f he
  rw [hpre, htile, Bool.not_true, if_neg Bool.false_ne_true, if_neg Bool.false_ne_true, hf] at hex
  obtain ⟨hwarps, hblocks⟩ := hs1
  have hw : kget s1.warps c.u = some c.w := by
    rw [hwarps]
    exact unit_onlyMem ho
  have hb1 : kget s1.blocks c.p.blk = some b := by
    rw [hblocks, ho.blocks]
    exact hb
  exact ⟨_, hex, postCmd_posts hw h.alive b hb1 hfull k slots⟩

/-- The checks of a command on a tile are those of its instruction and of its tile. -/
theorem tileCmd_checks (he : ∀ s, exec i s = tileCmd i s d pre f) : TileChecks i d pre :=
  fun s c b h hb hte hh => tileChecks i d pre f he s c b h hb hte hh

theorem mmac_posted (b a d : BitVec 7) : TileCommand (.mmac b a d) d (fun _ s x s1 k slots => ∃ sa sb, kget x.slots a.toNat = some sa ∧
    kget x.slots b.toNat = some sb ∧ mmacFmts sa sb = true ∧ s1 = s ∧ k = { MCmd.blank with kind := .mmac, a := some sa, b := some sb } ∧
    slots = kmod (kmod x.slots a.toNat (fun y => { y with col := y.col + 1 })) b.toNat (fun y => { y with row := y.row + 1 })) := by
  rintro s c x _ _ _ h hb htile hfull ⟨sa, sb, hsa, hsb, hfmt, rfl, rfl, rfl⟩
  refine tileCmd_posts (exec_mmac b a d) h hb htile ?_ (.refl _) ⟨rfl, rfl⟩ hfull ?_
  · rw [hsa, hsb]
    exact hfmt
  · dsimp only
    rw [hsa, hsb]

theorem oneSlot_checks {a : BitVec 7} {kind : MKind} (he : ∀ s, exec i s = oneSlot i s a d kind) :
    TileChecks i d (fun x => (kget x.slots a.toNat).isSome) := tileCmd_checks he

/-- A pass over one slot's tile and a constant matrix. -/
theorem oneSlot_posted {a : BitVec 7} {kind : MKind} (he : ∀ s, exec i s = oneSlot i s a d kind) :
    TileCommand i d (fun _ s x s1 k slots => ∃ sa, kget x.slots a.toNat = some sa ∧ s1 = s ∧
      k = { MCmd.blank with kind := kind, a := some sa } ∧ slots = x.slots) := by
  rintro s c x _ _ _ h hb htile hfull ⟨sa, hsa, rfl, rfl, rfl⟩
  refine tileCmd_posts he h hb htile ?_ (.refl _) ⟨rfl, rfl⟩ hfull ?_
  · rw [hsa, Option.isSome_some]
  · dsimp only
    rw [hsa]

theorem mperm_posted (b a d : BitVec 7) : TileCommand (.mperm b a d) d (fun c s x s1 k slots => ∃ sa s0 v, kget x.slots a.toNat = some sa ∧
    s.readAligned (.warp c) (c.rd64 b.toNat 0).toNat 128 128 = (s0, .ok v) ∧ s1 = s0.dropAnswers c ∧
    k = { MCmd.blank with kind := .mperm, a := some sa, perm := (bytesLE 128 v).map (·.toNat) } ∧ slots = x.slots) := by
  rintro s c x _ _ _ h hb htile hfull ⟨sa, s0, v, hsa, hread, rfl, rfl, rfl⟩
  have ho := onlyMem_readAligned (s.setWarp c.u c.w) c (c.rd64 b.toNat 0).toNat 128 128
  rw [hread] at ho
  refine tileCmd_posts (exec_mperm b a d) h hb htile ?_ ho ⟨rfl, rfl⟩ hfull ?_
  · rw [hsa, Option.isSome_some]
  · dsimp only
    rw [hread, hsa]

theorem mzero_posted (d : BitVec 7) : TileCommand (.mzero d) d (fun _ s x s1 k slots => s1 = s ∧ k = { MCmd.blank with kind := .mzero } ∧
    slots = x.slots) := by
  rintro s c x _ _ _ h hb htile hfull ⟨rfl, rfl, rfl⟩
  exact tileCmd_posts (exec_mzero d) h hb htile rfl (.refl _) ⟨rfl, rfl⟩ hfull rfl

theorem mpost_posted (b a d : BitVec 7) : TileCommand (.mpost b a d) d (fun c s x s1 k slots => wordForm (c.rd64 a.toNat 0).toNat = true ∧
    s.wordCheck c.p c.p.places .atomic (c.rd64 a.toNat 0).toNat = (s1, none) ∧
    k = { MCmd.blank with
      kind := .mpost, addr := (c.rd64 a.toNat 0).toNat, cnt := (c.rd b.toNat 0).toNat,
      lev := c.w.regLevel (c.w.wbase + b.toNat) } ∧ slots = x.slots) := by
  rintro s c x s1 _ _ h hb htile hfull ⟨hform, hcheck, rfl, rfl⟩
  have ho := onlyMem_wordCheck (s.setWarp c.u c.w) c.p c.p.places .atomic (c.rd64 a.toNat 0).toNat
  rw [hcheck] at ho
  refine tileCmd_posts (exec_mpost b a d) h hb htile rfl ho ⟨rfl, rfl⟩ hfull ?_
  dsimp only
  rw [hform, hcheck]
  rfl

theorem mdrain_posted (a d : BitVec 7) : TileCommand (.mdrain a d) d (fun c s x s1 k slots => ∃ s0 s2 y,
    s.readDrain (.warp c) (c.rd64 a.toNat 0).toNat = (s0, .ok y) ∧
    s0.wordChecks c.p c.p.places [(.atomic, y.absmax), (.atomic, y.done)] = (s2, .ok ()) ∧ s1 = s2.dropAnswers c ∧
    k = { MCmd.blank with
      kind := .mdrain, out := y.out, trow := y.trow, tcol := y.tcol, scale := y.scale, amax := y.amax, scope := y.scope,
      zero := y.zero, absmax := y.absmax, addr := y.done, cnt := y.count } ∧ slots = x.slots) := by
  rintro s c x _ _ _ h hb htile hfull ⟨s0, s2, y, hread, hcheck, rfl, rfl, rfl⟩
  have ho := onlyMem_readDrain (s.setWarp c.u c.w) c (c.rd64 a.toNat 0).toNat
  have ho2 := onlyMem_wordChecks c.p c.p.places [(.atomic, y.absmax), (.atomic, y.done)] s0
  rw [hread] at ho
  rw [hcheck] at ho2
  refine tileCmd_posts (exec_mdrain a d) h hb htile rfl (ho.trans ho2) ⟨rfl, rfl⟩ hfull ?_
  dsimp only
  rw [rdThen_words (fun y : DrainRec => [(.atomic, y.absmax), (.atomic, y.done)]) hread hcheck]

/-! ### Slots, counts and waits (R245 to R247, R249) -/

theorem execMslot_binds {b a sl : BitVec 7} {x : Block} {y : Tensor} (h : Issues (.mslot b a sl) s c) (hx : kget s.blocks c.p.blk = some x)
    (hread : (s.setWarp c.u c.w).readTensor (.warp c) .slot (c.rd64 a.toNat 0).toNat = (s1, .ok y)) :
    ∃ t, exec (.mslot b a sl) s = .next t ∧ UnitPasses s1 t c ∧
      let slot : Slot := ⟨y, (c.rd b.toNat 0).toNat % 65536, (c.rd b.toNat 0).toNat / 65536⟩
      kget t.blocks c.p.blk = some { x with slots := kput x.slots sl.toNat slot } := by
  have ho := onlyMem_readTensor (s.setWarp c.u c.w) c .slot (c.rd64 a.toNat 0).toNat
  rw [hread] at ho
  have hw : kget s1.warps c.u = some c.w := unit_onlyMem ho
  have hb : kget (s1.dropAnswers c).blocks c.p.blk = some x := (congrArg (kget · c.p.blk) ho.blocks).trans hx
  obtain ⟨⟨hmem, hscr, hoth, hview, hunit⟩, hblk⟩ := modBlockDone (s1 := s1.dropAnswers c) h.alive hw hb
    (fun b' => { b' with slots := kput b'.slots sl.toNat ⟨y, bits (c.rd b.toNat 0).toNat 15 0, bits (c.rd b.toNat 0).toNat 31 16⟩ })
    (fun _ => rfl)
  refine ⟨_, (warpOp_next h _ (exec_mslot b a sl s)).trans ?_, ⟨hmem, hscr, hoth, hview, hunit⟩, hblk.trans ?_⟩
  · dsimp only
    rw [hread]
  · have hlt := (c.rd b.toNat 0).isLt
    have hlow : bits (c.rd b.toNat 0).toNat 15 0 = (c.rd b.toNat 0).toNat % 65536 := by simp [bits]
    have hhigh : bits (c.rd b.toNat 0).toNat 31 16 = (c.rd b.toNat 0).toNat / 65536 := by
      simp only [bits]
      omega
    rw [hlow, hhigh]

/-- The valid count of the third dimension that `vcnt` gives. -/
def Ctx.depthCount (c : Ctx) : Nat := if c.px.cv then (c.rd c.px.c 0).toNat else 128

/-- The three counts of a `vcnt` may be valid counts. -/
def Ctx.countsOk (c : Ctx) (m n : Nat) : Prop := 1 ≤ m ∧ m ≤ 128 ∧ 1 ≤ n ∧ n ≤ 128 ∧ 1 ≤ c.depthCount ∧ c.depthCount ≤ 128

theorem execVcnt_sets {b a : BitVec 7} {x : Block} (h : Issues (.vcnt b a) s c) (hx : kget s.blocks c.p.blk = some x)
    (hok : c.countsOk (c.rd a.toNat 0).toNat (c.rd b.toNat 0).toNat) :
    ∃ t, exec (.vcnt b a) s = .next t ∧ UnitPasses s t c ∧
      kget t.blocks c.p.blk = some { x with vm := (c.rd a.toNat 0).toNat, vn := (c.rd b.toNat 0).toNat, vk := c.depthCount } := by
  obtain ⟨hm1, hm, hn1, hn, hk1, hk⟩ := hok
  obtain ⟨hpass, hblk⟩ := modBlockDone (s1 := s.setWarp c.u c.w) h.alive (unit_setWarp ..) hx
    (fun b' => { b' with vm := (c.rd a.toNat 0).toNat, vn := (c.rd b.toNat 0).toNat, vk := c.depthCount }) (fun _ => rfl)
  refine ⟨_, (warpOp_next h _ (exec_vcnt b a s)).trans (congrArg _ (if_pos ?_)), hpass.latched, hblk⟩
  simp only [Bool.and_eq_true, decide_eq_true_eq]
  exact ⟨⟨⟨hm1, hm⟩, hn1, hn⟩, hk1, hk⟩

theorem execVcnt_traps {b a : BitVec 7} (h : Issues (.vcnt b a) s c) (hbad : ¬c.countsOk (c.rd a.toNat 0).toNat (c.rd b.toNat 0).toNat)
    (hte : c.lr.trapentry ≠ 0) (hh : c.w.hlanes = 0) :
    ∃ t, exec (.vcnt b a) s = .next t ∧ Traps s t c c.is.mask 0 0x01 c.is.word.toNat c.is.pc 0 := by
  refine ⟨_, (warpOp_next h _ (exec_vcnt b a s)).trans (congrArg _ (if_neg (mt (fun hk => ?_) hbad))), trapAll_traps h _ _ _ hte hh⟩
  simp only [Bool.and_eq_true, decide_eq_true_eq] at hk
  obtain ⟨⟨⟨hm1, hm⟩, hn1, hn⟩, hk1, hk⟩ := hk
  exact ⟨hm1, hm, hn1, hn, hk1, hk⟩

/-- No lane goes on where all of M waits. -/
theorem stays_none (m : Mask) (l : Nat) (_ : m.getLsbD l = true) : (0 : Mask).getLsbD l = false := by simp

theorem execMwait_passes (h : Issues .mwait s c) (hdone : s.postedDone c.u = true) : ∃ t, exec .mwait s = .next t ∧ Passes s t c c.is.mask :=
  ⟨_, (warpOp_next h _ (exec_mwait s)).trans (congrArg _ (if_pos hdone)), h.passes _⟩

theorem execMwait_waits (h : Issues .mwait s c) (hdone : s.postedDone c.u = false) : ∃ t, exec .mwait s = .next t ∧ Waits s t c c.m 0 .mwait :=
  ⟨_, (warpOp_next h _ (exec_mwait s)).trans (congrArg _ (if_neg (Bool.eq_false_iff.1 hdone))), hold_done h .mwait c.m 0 (stays_none c.m)⟩

theorem execPpoint_eq {a : BitVec 7} {x : Block} (h : Issues (.ppoint a) s c) (hx : kget s.blocks c.p.blk = some x) :
    exec (.ppoint a) s = .next (if x.preempt || decide (2 ≤ s.sess c.p.part) then
      ((s.setWarp c.u c.w).modWarp c.u (fun w => w.hold c.m c.is.pc c.is.npc (.ppoint ((c.rd a.toNat 0).toNat % 2 ^ 16)))).done c 0
      else (s.setWarp c.u c.w).done c c.is.mask) := by
  refine (warpOp_next h _ (exec_ppoint a s)).trans ?_
  have hblk : (s.setWarp c.u c.w).blockOf c = some x := hx
  rw [hblk]
  rfl

theorem execPpoint_passes {a : BitVec 7} {x : Block} (h : Issues (.ppoint a) s c) (hx : kget s.blocks c.p.blk = some x) (hp : x.preempt = false)
    (hs : s.sess c.p.part < 2) : ∃ t, exec (.ppoint a) s = .next t ∧ Passes s t c c.is.mask :=
  ⟨_, (execPpoint_eq h hx).trans (congrArg _ (if_neg (by simp [hp, hs]))), h.passes _⟩

theorem execPpoint_waits {a : BitVec 7} {x : Block} (h : Issues (.ppoint a) s c) (hx : kget s.blocks c.p.blk = some x)
    (hp : x.preempt = true ∨ 2 ≤ s.sess c.p.part) :
    ∃ t, exec (.ppoint a) s = .next t ∧ Waits s t c c.m 0 (.ppoint ((c.rd a.toNat 0).toNat % 65536)) :=
  ⟨_, (execPpoint_eq h hx).trans (congrArg _ (if_pos (by simpa using hp))), hold_done h _ c.m 0 (stays_none c.m)⟩

end

/-- Settles O41, command by command. -/
theorem matrixCommands : Obligations.MatrixCommands := fun b a d =>
  ⟨tileCmd_checks (exec_mmac b a d), oneSlot_checks (exec_mtrans a d), oneSlot_checks (exec_mrsum a d), tileCmd_checks (exec_mperm b a d),
    tileCmd_checks (exec_mzero d), tileCmd_checks (exec_mpost b a d), tileCmd_checks (exec_mdrain a d),
    mmac_posted b a d, oneSlot_posted (exec_mtrans a d), oneSlot_posted (exec_mrsum a d), mperm_posted b a d, mzero_posted d, mpost_posted b a d,
    mdrain_posted a d,
    fun _ _ _ _ _ _ h hx hread => execMslot_binds h hx hread,
    fun _ _ _ h hx => ⟨fun hok => execVcnt_sets h hx hok, fun hbad hte hh => execVcnt_traps h hbad hte hh⟩,
    fun _ _ h => ⟨fun hdone => execMwait_passes h hdone, fun hdone => execMwait_waits h hdone⟩,
    fun _ _ _ h hx => ⟨fun hp hs => execPpoint_passes h hx hp hs, fun hp => execPpoint_waits h hx hp⟩⟩

end Sys2Proof.Machine
end

section
namespace Sys2Proof.Machine

/-! ### Launch queues (R276) -/

/-- Registers written in order, each for the first time. -/
theorem regsSet_append {s t : State} {ws : List (Reg × Nat)} (h : RegsSet s t ws) (r : Reg) (v : Nat) (hr : ∀ x ∈ ws, x.1 ≠ r) :
    RegsSet s (t.setReg r v) (ws ++ [(r, v)]) := by
  obtain ⟨hsame, hregs⟩ := h
  refine ⟨by rw [hsame]; rfl, fun q => ?_⟩
  rw [reg_setReg_if, hregs, List.find?_append]
  by_cases hq : q = r
  · subst hq
    rw [List.find?_eq_none.2 fun x hx => by simpa using hr x hx]
    simp
  · have hlast : [(r, v)].find? (fun x => x.1 == q) = none := by simp [Ne.symm hq]
    rw [hlast, Option.or_none, if_neg hq]

section
variable {s : State} {fn q : Nat}

theorem execQpost_enters (node : BitVec 64) (hsee : s.seesQueue fn q = true) (hroom : (sget [] s.rings q).length < 1024) (hen : s.qreg q .en = 1) :
    ∃ t, exec (.qpost fn q 8 node) s = .next t ∧ NodeEntered s t q node.toNat true := by
  have hpost : s.postNode q node.toNat true = s.enterNode q node.toNat true := by
    refine if_neg (not_or.2 ⟨?_, not_not.2 hen⟩)
    unfold State.ringFree
    omega
  refine ⟨_, ?_, entered s q node.toNat true⟩
  rw [exec_qpost, execQpost, hsee, ← hpost]
  rfl

theorem execQpost_overflows (node : BitVec 64) (hsee : s.seesQueue fn q = true) (hfull : 1024 ≤ (sget [] s.rings q).length ∨ s.qreg q .en ≠ 1) :
    ∃ t, exec (.qpost fn q 8 node) s = .next t ∧ RegsSet s t [(.q q .ovf, 1)] := by
  have hpost : s.postNode q node.toNat true = s.setQreg q .ovf 1 := by
    refine if_pos (hfull.imp_left fun h => ?_)
    unfold State.ringFree
    omega
  refine ⟨_, ?_, regsSet_cons (regsSet_nil s) _ _⟩
  rw [exec_qpost, execQpost, hsee]
  exact congrArg _ hpost

theorem execQueueResume_clears (hsee : s.seesQueue fn q = true) :
    ∃ t, exec (.queueResume fn q) s = .next t ∧ RegsSet s t [(.q q .halt, 0), (.q q .qerr, 0), (.q q .qerrNode, 0)] := by
  refine ⟨((s.setQreg q .halt 0).setQreg q .qerr 0).setQreg q .qerrNode 0, ?_, ?_⟩
  · rw [exec_queueResume, execQueueResume, hsee]
    rfl
  · exact regsSet_append (regsSet_append (regsSet_setReg s (.q q .halt) 0) (.q q .qerr) 0 (by simp)) (.q q .qerrNode) 0 (by simp)

theorem execFlush_discards (hsee : s.seesQueue fn q = true) :
    ∃ t, exec (.flush fn q) s = .next t ∧ t = { s with nodes := t.nodes, rings := t.rings } ∧
      sget [] t.rings q = [] ∧ (∀ r, r ≠ q → sget [] t.rings r = sget [] s.rings r) ∧
      ∀ x, x ∈ t.nodes ↔ x ∈ s.nodes ∧ x.1 ∉ sget [] s.rings q := by
  refine ⟨{ s with nodes := s.nodes.filter (fun n => !(sget [] s.rings q).contains n.1), rings := kdel s.rings q },
    ?_, rfl, ?_, fun r hr => ?_, fun x => ?_⟩
  · rw [exec_flush, execFlush, hsee]
    rfl
  · simp [sget]
  · simp [sget, kget_kdel, hr]
  · simp [List.mem_filter]

/-- An abort of the one launch whose end is left to do. -/
def State.abortEnds (s : State) (lid : Nat) : State :=
  ({ s with txs := s.txs.filter (fun x => x.2.launch != lid || (kget s.warps x.2.u).isSome) }).modLaunch lid
    (fun l => { l with aborted := true, saved := [] })

/-- The matrix engines stay where no saved block leaves. -/
theorem mengs_keep (ms : List (Nat × MEngine)) :
    ms.map (fun (e : Nat × MEngine) => (e.1, { table := e.2.table.filter (fun k => !([] : List Nat).contains k.blk) })) = ms := by
  refine (List.map_congr_left fun e _ => ?_).trans (List.map_id ms)
  simp

section
variable {lid nid : Nat} {l : Launch} {n : Node}

/-- The abort of a queue whose one halted launch has no saved block. -/
theorem execAbort_one (hsee : s.seesQueue fn q = true) (hls : s.launches = [(lid, l)]) (hdiv : l.diverged = true) (hab : l.aborted = false)
    (hnode : l.node = some nid) (hn : kget s.nodes nid = some n) (hq : n.q = q) : exec (.abort fn q) s = .next (s.abortLaunch lid l) := by
  have hmine : s.launches.filter (fun l => l.2.diverged && !l.2.aborted && (l.2.node.bind (kget s.nodes)).any (fun n => n.q == q)) = [(lid, l)] := by
    rw [hls]
    simp [hdiv, hab, hnode, hn, hq]
  rw [exec_abort, execAbort, hsee, hmine]
  rfl

/-- The end of one block of an aborted launch, resident or saved. -/
def State.abortBlock (s : State) (l : Launch) (x : Nat × Option Nat) : State := match x.2 with
  | some blk => match (kget s.blocks blk).bind (fun b => (b.warps ++ b.tctx.toList).head?) with
    | some u => s.bexit u 0xFFFFE
    | none => s
  | none => s.errSwapSaved l x.1 0xFFFFE

/-- The blocks of a launch, in the order in which an abort ends them. -/
def State.abortOrder (s : State) (lid : Nat) (l : Launch) : List (Nat × Option Nat) :=
  sortByKey (fun (x : Nat × Option Nat) => x.1)
    ((s.blocks.filter (fun b => b.2.launch == lid)).map (fun b => (b.2.bid, some b.1)) ++ l.saved.map (fun e => (e.1, none)))

theorem abortLaunch_eq (hsaved : l.saved = []) :
    s.abortLaunch lid l = ((s.abortOrder lid l).foldl (fun st x => st.abortBlock l x) s).abortEnds lid := by
  have hsteps : s.abortLaunch lid l =
      let s1 := (s.abortOrder lid l).foldl (fun st x => st.abortBlock l x) s
      State.abortEnds { s1 with mengs := s1.mengs.map (fun (e : Nat × MEngine) =>
        (e.1, { table := e.2.table.filter (fun k => !(l.saved.map (·.2.blk)).contains k.blk) })) } lid := rfl
  rw [hsteps, hsaved]
  dsimp only
  rw [List.map_nil, mengs_keep]

theorem abortLaunch_none (hsaved : l.saved = []) (hno : ∀ b ∈ s.blocks, b.2.launch ≠ lid) : s.abortLaunch lid l = s.abortEnds lid := by
  have hmine : s.blocks.filter (fun b => b.2.launch == lid) = [] := List.filter_eq_nil_iff.2 fun b hb => by simpa using hno b hb
  rw [abortLaunch_eq hsaved, State.abortOrder, hmine, hsaved]
  rfl

theorem abortLaunch_one {blk u : Nat} {b : Block} {r : List Nat} (hsaved : l.saved = []) (hbs : s.blocks = [(blk, b)]) (hb : b.launch = lid)
    (hw : b.warps = u :: r) : s.abortLaunch lid l = (s.bexit u 0xFFFFE).abortEnds lid := by
  have hmine : s.abortOrder lid l = [(b.bid, some blk)] := by
    rw [State.abortOrder, hbs, hsaved]
    simp [hb, sortByKey, insertBy]
  have hget : kget s.blocks blk = some b := by
    rw [hbs]
    simp [kget]
  rw [abortLaunch_eq hsaved, hmine, List.foldl_cons, List.foldl_nil, State.abortBlock]
  dsimp only
  rw [hget, Option.bind_some, hw]
  rfl

end

end

end Sys2Proof.Machine
end

section
namespace Sys2Proof.Machine

/-! ### The graph walker (R280) -/

section
variable {s s1 s2 : State} {p id v v2 k : Nat} {n0 n : Node}

/-- Nothing that a launch record is judged by lies in the rings and nodes. -/
theorem refused_leaveRing (pp ctx : Nat) : (s.leaveRing id n).refused pp ctx v2 = s.refused pp ctx v2 := rfl

theorem dispatchKernel_refused (hread : s.readAligned (.walker (s.nodePart n) (s.nodeCtx n)) n.target 256 256 = (s1, .ok v2))
    (href : s.refused (s.nodePart n) (s.nodeCtx n) v2 = true) : s.dispatchKernel id n = (s.leaveRing id n).completeNode id n 3 := by
  unfold State.dispatchKernel
  dsimp only
  rw [hread]
  dsimp only
  rw [if_pos href]

theorem dispatchKernel_starts (hread : s.readAligned (.walker (s.nodePart n) (s.nodeCtx n)) n.target 256 256 = (s1, .ok v2))
    (href : s.refused (s.nodePart n) (s.nodeCtx n) v2 = false) (hmeas : (LaunchRec.of v2).measure = false) :
    s.dispatchKernel id n = (s.leaveRing id n).startLaunch (s.nodePart n) (s.nodeCtx n) n.target id v2 := by
  unfold State.dispatchKernel
  dsimp only
  rw [hread]
  dsimp only
  rw [href, hmeas]
  rfl

theorem execNodeDispatch_refuses (h : Dispatches s p id n0 v n) (hok : nodeOk v = true) (hk : n.kind = 0)
    (hread : s.readAligned (.walker (s.nodePart n) (s.nodeCtx n)) n.target 256 256 = (s1, .ok v2))
    (href : s.refused (s.nodePart n) (s.nodeCtx n) v2 = true) : exec (.nodeDispatch p) s = .next ((s.leaveRing id n).completeNode id n 3) :=
  (dispatch_head h hok hk).trans (congrArg _ (dispatchKernel_refused hread href))

theorem execNodeDispatch_launches (h : Dispatches s p id n0 v n) (hok : nodeOk v = true) (hk : n.kind = 0)
    (hread : s.readAligned (.walker (s.nodePart n) (s.nodeCtx n)) n.target 256 256 = (s1, .ok v2))
    (href : s.refused (s.nodePart n) (s.nodeCtx n) v2 = false) (hmeas : (LaunchRec.of v2).measure = false) (hrec : (LaunchRec.of v2).record = false) :
    let t0 := s.leaveRing id n
    ∃ t, exec (.nodeDispatch p) s = .next t ∧ t = { t0 with nextUid := s.nextUid + 1, launches := t.launches, parts := t.parts } ∧
      kget t.launches s.nextUid = some { Launch.initial (s.nodePart n) (s.nodeCtx n) n.target (LaunchRec.of v2)
        (s.part (s.nodePart n)).lseq (some id) with beatLen := max (s.preg (s.nodePart n) .beatp * 250) 1, waitFrom := some s.timebase } ∧
      (∀ k, k ≠ s.nextUid → kget t.launches k = kget s.launches k) ∧ (t.part (s.nodePart n)).lseq = (s.part (s.nodePart n)).lseq + 1 :=
  ⟨_, (dispatch_head h hok hk).trans (congrArg _ (dispatchKernel_starts hread href hmeas)),
    startLaunch_spec (s.leaveRing id n) (s.nodePart n) (s.nodeCtx n) n.target id v2 hmeas hrec⟩

theorem dispatchCmd_starts {x : Cmd} {lock coll : Bool}
    (hread : rdThen (if coll then rdThen (s.readColl (.walker (s.nodePart n) (s.nodeCtx n)) n.target)
      (fun t x => (t, .ok (x, false))) else s.readCopy (.walker (s.nodePart n) (s.nodeCtx n)) n.target) (fun t x =>
        rdThen (t.wordChecks (s.walkWho (s.nodePart n) (s.nodeCtx n)) [] x.1.words) (fun t _ => (t, .ok x))) = (s1, .ok (x, lock)))
    (hgo : s.startCmd ((s.walkWho (s.nodePart n) (s.nodeCtx n)).core / 192)
      { x with part := s.nodePart n, ctx := s.nodeCtx n, core := (s.walkWho (s.nodePart n) (s.nodeCtx n)).core, node := some id } lock =
        some (s2, k)) :
    s.dispatchCmd id n coll = s2.leaveRing id n := by
  unfold State.dispatchCmd
  dsimp only
  rw [hread]
  dsimp only
  rw [hgo]

theorem execNodeDispatch_commands {coll : Bool} (h : Dispatches s p id n0 v n) (hok : nodeOk v = true) (hk : n.kind = if coll then 2 else 1)
    (hgo : s.dispatchCmd id n coll = s2.leaveRing id n) : exec (.nodeDispatch p) s = .next (s2.leaveRing id n) := by
  cases coll with
  | false => exact (dispatch_head h hok hk).trans (congrArg _ hgo)
  | true => exact (dispatch_head h hok hk).trans (congrArg _ hgo)

theorem execNodeDispatch_signals (h : Dispatches s p id n0 v n) (hok : nodeOk v = true) (hk : n.kind = 3) (halign : n.target % 4 = 0)
    (hwrite : (s.leaveRing id n).releaseWrite p (s.nodeCtx n0) id n.target (bytesLE 4 n.value) = (s1, none)) :
    exec (.nodeDispatch p) s = .next s1 := by
  refine (dispatch_head h hok hk).trans (congrArg _ ?_)
  dsimp only
  rw [halign, hwrite]
  rfl

theorem execNodeDispatch_notifies (h : Dispatches s p id n0 v n) (hok : nodeOk v = true) (hk : n.kind = 4) (hvec : bits n.target 11 0 < 2048)
    (hbase : s.reg (.ntfBase (p + 1)) = 0) :
    ∃ t, exec (.nodeDispatch p) s = .next t ∧ t = { s with nodes := t.nodes, rings := t.rings, out := t.out } ∧
      t.out.msix = s.out.msix ++ [(p + 1, bits n.target 11 0)] ∧ kget t.nodes id = some { n with finished := true } ∧
      ∀ k, k ≠ id → kget t.nodes k = kget s.nodes k := by
  have hnotify : (s.leaveRing id n).notify (functionOf p) (bits n.target 11 0) n.value =
      { s.leaveRing id n with out := { s.out with msix := s.out.msix ++ [(p + 1, bits n.target 11 0)] } } := by
    unfold State.notify
    dsimp only
    rw [if_pos (show (s.leaveRing id n).reg (.ntfBase (functionOf p)) = 0 from hbase)]
    rfl
  have hex : exec (.nodeDispatch p) s = .next { (s.leaveRing id n).notify (functionOf p) (bits n.target 11 0) n.value with
      nodes := kput (kput s.nodes id n) id { n with finished := true } } := by
    refine (dispatch_head h hok hk).trans (congrArg _ ((if_neg (Nat.not_le.2 hvec)).trans ?_))
    dsimp only
    rw [hnotify]
    rfl
  rw [hnotify] at hex
  exact ⟨_, hex, rfl, rfl, kget_kput_self .., fun k hk => (kget_kput_ne _ _ hk).trans (kget_kput_ne _ _ hk)⟩

theorem execNodeDispatch_graphs (h : Dispatches s p id n0 v n) (hok : nodeOk v = true) (hk : n.kind = 5) (hpart : s.qreg n.queue .part = p) :
    exec (.nodeDispatch p) s = .next (State.postNode { s.leaveRing id n with
      nodes := kput (s.leaveRing id n).nodes id { n with reach := [(s.qreg n.queue .ctx, n.target)] } } n.queue n.target false) :=
  (dispatch_head h hok hk).trans (congrArg _ (if_pos hpart))

theorem execNodeDispatch_faults (h : Dispatches s p id n0 v n) (hbad : nodeOk v = false) :
    exec (.nodeDispatch p) s = .next ((s.leaveRing id n).completeNode id n 2) := by
  obtain ⟨hnext, hread, rfl⟩ := h
  rw [exec_nodeDispatch, execNodeDispatch, hnext]
  dsimp only
  rw [hread]
  dsimp only
  rw [hbad]
  rfl

end

end Sys2Proof.Machine
end

section
namespace Sys2Proof.Machine

/-! ### Completion of nodes (R279, R281) -/

section
variable {s s1 s2 : State} {n : Nat} {x : Node}

/-- A finished node whose successors need no page of the driver completes. -/
theorem execNodeCompletion_completes (hx : kget s.nodes n = some x) (hfin : x.finished = true) (hfault : x.faulted = false)
    (hwait : s.succWait x = none) : exec (.nodeCompletion n) s = .next (s.completeNode n x 0) := by
  rw [exec_nodeCompletion, execNodeCompletion, hx]
  dsimp only
  rw [hfin, hfault, hwait]
  rfl

/-- A faulted node completes with its code. -/
theorem execNodeCompletion_stops (hx : kget s.nodes n = some x) (hfin : x.finished = true) (hfault : x.faulted = true) :
    exec (.nodeCompletion n) s = .next (s.completeNode n x x.stopCode) := by
  rw [exec_nodeCompletion, execNodeCompletion, hx]
  dsimp only
  rw [hfin, hfault]
  rfl

/-- The completion of a node that declares no range, without a fault. -/
theorem completeNode_done (hrange : x.ranges.getD [] = []) {ns : List Nat} (hns : s.succs (s.nodePart x) (s.nodeCtx x) 65536 x.addr = ns) :
    s.completeNode n x 0 =
      let t := ns.foldl (fun st a => st.release1 x (s.nodePart x) (s.nodeCtx x) a) s
      State.reachDone { t with nodes := kdel t.nodes n } (s.nodePart x) (s.nodeCtx x, x.addr) (ns.map (fun a => (t.qreg x.queue .ctx, a))) := by
  subst hns
  unfold State.completeNode
  dsimp only
  rw [hrange, nodeBoundary_nil]
  rfl

/-- The completion of a node that declares no range, with a fault. -/
theorem completeNode_fault (hrange : x.ranges.getD [] = []) {code : Nat} (hcode : code ≠ 0) :
    s.completeNode n x code =
      let t := s.haltQueue x.q code x.addr (s.nodePart x)
      State.reachDone { t with nodes := kdel t.nodes n } (s.nodePart x) (s.nodeCtx x, x.addr) [] := by
  unfold State.completeNode
  dsimp only
  rw [hrange, nodeBoundary_nil, if_neg hcode, if_neg hcode]
  rfl

/-- The nodes after one of them has completed for every sub-graph. -/
theorem reachDone_get (p : Nat) (key : Nat × Nat) (next : List (Nat × Nat)) (k : Nat) :
    kget (s.reachDone p key next).nodes k = (kget s.nodes k).map (fun y => if s.nodePart y = p then y.reached key next else y) :=
  kget_map s.nodes (fun y : Node => if s.nodePart y = p then y.reached key next else y) k

theorem execNodeCompletion_last (hx : kget s.nodes n = some x) (hfin : x.finished = true) (hfault : x.faulted = false)
    (hrange : x.ranges.getD [] = []) (hwait : s.succWait x = none) (hns : s.succs (s.nodePart x) (s.nodeCtx x) 65536 x.addr = []) :
    ∃ t, exec (.nodeCompletion n) s = .next t ∧ t = { s with nodes := t.nodes } ∧ kget t.nodes n = none ∧
      ∀ k y, k ≠ n → kget s.nodes k = some y →
        kget t.nodes k = some (if s.nodePart y = s.nodePart x then y.reached (s.nodeCtx x, x.addr) [] else y) := by
  refine ⟨_, (execNodeCompletion_completes hx hfin hfault hwait).trans (congrArg _ (completeNode_done hrange hns)), rfl, ?_, fun k y hk hy => ?_⟩
  · refine (reachDone_get ..).trans ?_
    rw [List.foldl_nil, kget_kdel_self, Option.map_none]
  · refine (reachDone_get ..).trans ?_
    rw [List.foldl_nil, kget_kdel_ne _ hk, hy]
    rfl

/-- A successor whose PRED falls to 0 enters its queue. -/
theorem release1_enters {p ctx a : Nat} {bs : List PByte} (halign : a % 128 = 0) (htop : a < 2 ^ 57)
    (hcheck : s.unitCheck [] (s.walkWho p ctx) 0x11 .atomic (a + 4) 4 = (s1, .ok bs))
    (hrmw : s1.rmw (s.walkWho p ctx) 0 4 bs (fun v => if v = 0 then 0 else v - 1) = (s2, 1, 0)) (hpart : s2.qreg x.queue .part = p)
    (hen : s2.qreg x.queue .en = 1) (hroom : (sget [] s2.rings x.queue).length < 1024) : s.release1 x p ctx a = s2.enterNode x.queue a false := by
  have hpost : s2.postNode x.queue a false = s2.enterNode x.queue a false := by
    refine if_neg (not_or.2 ⟨?_, not_not.2 hen⟩)
    unfold State.ringFree
    omega
  have hbad : ¬(a % 128 != 0 || decide (a ≥ top57)) = true := by
    have : ¬ a ≥ top57 := Nat.not_le.2 htop
    simp [halign, this]
  unfold State.release1
  rw [if_neg hbad]
  dsimp only
  rw [hcheck]
  dsimp only
  rw [hrmw, ← hpost]
  exact if_pos hpart

theorem execNodeCompletion_releases {a : Nat} (hx : kget s.nodes n = some x) (hfin : x.finished = true) (hfault : x.faulted = false)
    (hrange : x.ranges.getD [] = []) (hwait : s.succWait x = none) (hns : s.succs (s.nodePart x) (s.nodeCtx x) 65536 x.addr = [a])
    (hrel : s.release1 x (s.nodePart x) (s.nodeCtx x) a = s2.enterNode x.queue a false) :
    ∃ t t1, exec (.nodeCompletion n) s = .next t ∧ NodeEntered s2 t1 x.queue a false ∧
      t = State.reachDone { t1 with nodes := kdel t1.nodes n } (s.nodePart x) (s.nodeCtx x, x.addr) [(t1.qreg x.queue .ctx, a)] := by
  refine ⟨_, s2.enterNode x.queue a false, execNodeCompletion_completes hx hfin hfault hwait, entered .., ?_⟩
  rw [completeNode_done hrange hns, List.foldl_cons, List.foldl_nil, hrel]
  rfl

/-- What is left of a sub-graph when a node that it has reached completes. -/
theorem reached_spec {y : Node} {k : Nat × Nat} {next : List (Nat × Nat)} (hrun : y.running = true) (hk : k ∈ y.reach) :
    (∀ j, j ∈ (y.reached k next).reach ↔ (j ∈ y.reach ∨ j ∈ next) ∧ j ≠ k) ∧
    ((∀ j, j ∈ y.reach ∨ j ∈ next → j = k) → (y.reached k next).finished = true) ∧
    ∀ j, j ∈ y.reach ∨ j ∈ next → j ≠ k → (y.reached k next).finished = y.finished := by
  have hr : y.reached k next = { y with
      reach := (dedup (y.reach ++ next)).filter (· != k), finished := y.finished || ((dedup (y.reach ++ next)).filter (· != k)).isEmpty } :=
    if_pos (by simp [hrun, hk])
  have hmem : ∀ j, j ∈ (dedup (y.reach ++ next)).filter (· != k) ↔ (j ∈ y.reach ∨ j ∈ next) ∧ j ≠ k := fun j => by
    simp [List.mem_filter, dedup_mem]
  rw [hr]
  refine ⟨hmem, fun hall => ?_, fun j hj hne => ?_⟩
  · have hnil : (dedup (y.reach ++ next)).filter (· != k) = [] := List.eq_nil_iff_forall_not_mem.2 fun j hj => by
      obtain ⟨hj, hne⟩ := (hmem j).1 hj
      exact hne (hall j hj)
    rw [hnil]
    exact Bool.or_true _
  · have hne : ((dedup (y.reach ++ next)).filter (· != k)).isEmpty = false :=
      List.isEmpty_eq_false_iff.2 (List.ne_nil_of_mem ((hmem j).2 ⟨hj, hne⟩))
    rw [hne]
    exact Bool.or_false _

theorem execNodeCompletion_halts (hx : kget s.nodes n = some x) (hfin : x.finished = true) (hfault : x.faulted = true)
    (hrange : x.ranges.getD [] = []) (hcode : x.stopCode ≠ 0) :
    ∃ t, exec (.nodeCompletion n) s = .next t ∧ t = { s.haltQueue x.q x.stopCode x.addr (s.nodePart x) with nodes := t.nodes } ∧
      kget t.nodes n = none ∧ t.reg (.q x.q .halt) = 1 ∧
      (s.reg (.q x.q .qerr) = 0 → t.reg (.q x.q .qerr) = x.stopCode ∧ t.reg (.q x.q .qerrNode) = x.addr) := by
  obtain ⟨-, hhalt, herr⟩ := haltQueue_regs s x.q x.stopCode x.addr (s.nodePart x)
  refine ⟨_, (execNodeCompletion_stops hx hfin hfault).trans (congrArg _ (completeNode_fault hrange hcode)), rfl, ?_, hhalt, herr⟩
  refine (reachDone_get ..).trans ?_
  rw [kget_kdel_self, Option.map_none]

end

/-! ### Admission (R11, R283, R284) -/

section
variable {s s1 : State} {l c : Nat} {x : Launch} {a : Area}

/-- A launch that no other comes before takes the core it is offered. -/
theorem execBlockAdmission_one (hx : kget s.launches l = some x) (hoffer : s.offer l x = some [c])
    (hfirst : ∀ h ∈ s.launches, h.2.part = x.part → h.2.ahead x = true → s.offer h.1 h.2 = none) :
    exec (.blockAdmission l) s = .next (s.admitBlock l c) := by
  have hnone : s.launches.any (fun h => h.2.part == x.part && h.2.ahead x && (s.offer h.1 h.2).isSome) = false := by
    rw [List.any_eq_false]
    intro h hh
    simp only [Bool.and_eq_true, beq_iff_eq, not_and, Bool.not_eq_true]
    rintro ⟨hp, ha⟩
    rw [hfirst h hh hp ha]
    rfl
  rw [exec_blockAdmission, execBlockAdmission, hx]
  dsimp only
  rw [hnone, hoffer]
  rfl

/-- The state in which an admitted block's windows are cleared and its identities are taken. -/
def State.admitFrom (s : State) (lr : LaunchRec) (a : Area) : State :=
  State.zeroRange { s with nextUid := s.nextUid + 1 + lr.blockWarps + 1 } a.priv lr.privSize

/-- The launch of an admitted block, with one block fewer to admit. -/
def Launch.admitted (l : Launch) (timebase core : Nat) (us : List Nat) (tu : Nat) : Launch :=
  let l := l.bindDie l.nextBlk core
  { l with nextBlk := l.nextBlk + 1, waitFrom := some timebase, reserved := none, beat0 := some (l.beat0.getD (timebase / l.beatLen)),
           units := l.units ++ us ++ [tu] }

theorem admitted_nextBlk (y : Launch) (timebase core : Nat) (us : List Nat) (tu : Nat) :
    (y.admitted timebase core us tu).nextBlk = y.nextBlk + 1 := by
  have hbind : (y.bindDie y.nextBlk core).nextBlk = y.nextBlk := by
    unfold Launch.bindDie
    split
    · rfl
    · split <;> rfl
  exact congrArg (· + 1) hbind

theorem admitBlock_eq (hx : kget s.launches l = some x) (harea : s.takeArea l x.nextBlk = some (s1, a)) :
    let us := (List.range x.lr.blockWarps).map (s1.nextUid + 1 + ·)
    let tu := s1.nextUid + 1 + x.lr.blockWarps
    let t := (s1.admitFrom x.lr a).putBlock l x.nextBlk c s1.nextUid us tu a
    s.admitBlock l c = t.modLaunch l (fun y => y.admitted t.timebase c us tu) := by
  unfold State.admitBlock
  rw [hx]
  dsimp only
  rw [harea]
  rfl

theorem admitBlock_spec (hx : kget s.launches l = some x) (harea : s.takeArea l x.nextBlk = some (s1, a)) (huid : s1.nextUid = s.nextUid)
    (hwarps : s1.warps = s.warps) (hblocks : s1.blocks = s.blocks)
    (hsame : ∃ y, kget s1.launches l = some y ∧ y.lr = x.lr ∧ y.nextBlk = x.nextBlk) :
    Admitted s (s.admitBlock l c) l x c a ∧ ∃ y, kget (s.admitBlock l c).launches l = some y ∧ y.nextBlk = x.nextBlk + 1 := by
  obtain ⟨y0, hy0, hlr0, hnext0⟩ := hsame
  have heq := admitBlock_eq (c := c) hx harea
  obtain ⟨y, hy, hlr, hnext⟩ := zeroRange_lr { s1 with nextUid := s1.nextUid + 1 + x.lr.blockWarps + 1 } a.priv x.lr.privSize l y0 hy0
  have ho : OnlyMem { s1 with nextUid := s1.nextUid + 1 + x.lr.blockWarps + 1 } (s1.admitFrom x.lr a) := zeroRange_frame ..
  have hlrx : y.lr = x.lr := hlr.trans hlr0
  rw [huid] at heq
  dsimp only at heq
  obtain ⟨us, hus⟩ : ∃ us, us = (List.range x.lr.blockWarps).map (s.nextUid + 1 + ·) := ⟨_, rfl⟩
  have hlen : us.length = y.lr.blockWarps := by simp [hus, hlrx]
  have hmem : ∀ v, v ∈ us ↔ s.nextUid + 1 ≤ v ∧ v < s.nextUid + 1 + x.lr.blockWarps := fun v => by
    rw [hus, List.mem_map]
    exact ⟨by rintro ⟨k, hk, rfl⟩; have := List.mem_range.1 hk; omega,
      fun hv => ⟨v - (s.nextUid + 1), List.mem_range.2 (by omega), by omega⟩⟩
  have hnodup : us.Nodup := by
    rw [hus]
    exact List.nodup_range.map fun i j hij => Nat.add_left_cancel hij
  rw [← hus] at heq
  obtain ⟨⟨ws, bs, cs, hframe⟩, hblk, hunits, htile, hothers, hrest⟩ := putBlock_spec (s1.admitFrom x.lr a) l x.nextBlk c s.nextUid us
    (s.nextUid + 1 + x.lr.blockWarps) a y hy hnodup hlen (fun hin => by have := (hmem _).1 hin; omega)
  rw [hlrx] at hblk hunits htile
  generalize (s1.admitFrom x.lr a).putBlock l x.nextBlk c s.nextUid us (s.nextUid + 1 + x.lr.blockWarps) a = t
    at heq hframe hblk hunits htile hothers hrest
  have hwarps0 : (s1.admitFrom x.lr a).warps = s.warps := ho.warps.trans hwarps
  have hblocks0 : (s1.admitFrom x.lr a).blocks = s.blocks := ho.blocks.trans hblocks
  rw [heq]
  refine ⟨⟨?_, fun wid hwid => ?_, htile, fun v hv => ?_, fun v hv => ?_⟩,
    y.admitted t.timebase c us (s.nextUid + 1 + x.lr.blockWarps), ?_, ?_⟩
  · rw [← hus]
    exact hblk
  · obtain ⟨slot, q, hu⟩ := hunits wid (by rw [hlen, hlrx]; exact hwid)
    refine ⟨slot, q, ?_⟩
    have hat : us[wid]'(by rw [hlen, hlrx]; exact hwid) = s.nextUid + 1 + wid := by simp [hus]
    rw [hat] at hu
    exact hu
  · exact (hothers v hv).trans (by rw [hblocks0])
  · exact (hrest v (fun hin => by have := (hmem v).1 hin; omega) (by omega)).trans (by rw [hwarps0])
  · show kget (kmod t.launches l _) l = _
    rw [kget_kmod_self, hframe]
    exact congrArg (Option.map _) hy
  · rw [admitted_nextBlk, hnext, hnext0]

theorem execAdmissionReservation_reserves {core t0 : Nat} (hx : kget s.launches l = some x) (hadm : s.admissible x = true) (hres : x.reserved = none)
    (hwait : x.waitFrom = some t0) (htime : t0 + 1000000 ≤ s.timebase) (hcore : core ∈ s.coresOf x.part) (hfit : s.fits1 x core = true) :
    exec (.admissionReservation l core) s = .next (s.setLaunch l { x with reserved := some core }) := by
  rw [exec_admissionReservation, execAdmissionReservation, hx]
  refine congrArg _ (if_pos ?_)
  simp [hadm, hres, hwait, htime, hcore, hfit]

end

end Sys2Proof.Machine
end

section
namespace Sys2Proof.Machine

/-! ### Retirement of blocks (R264, R288) -/

section
variable {s : State} {blk : Nat} {b : Block} {l : Launch}

/-- No checkpoint is taken and none is compared. -/
theorem checkpoint_none {lid : Nat} (core : Nat) (hl : kget s.launches lid = some l) (hrec : l.lr.record = false) (hrep : l.lr.replay = false) :
    s.checkpoint lid core = s := by
  unfold State.checkpoint
  rw [hl]
  dsimp only
  rw [hrec, hrep]
  rfl

theorem compareOld_none (hl : kget s.launches b.launch = some l) (hmeas : l.lr.measure = false) : s.compareOld b.launch b = s := by
  unfold State.compareOld
  rw [hl]
  dsimp only
  rw [hmeas]
  rfl

/-- What a block that leaves its core leaves. -/
theorem dropBlock_spec (s : State) (blk : Nat) (b : Block) :
    (∃ ws bs ts ms cs, s.dropBlock blk b = { s with warps := ws, blocks := bs, txs := ts, mengs := ms, cores := cs }) ∧
    (s.dropBlock blk b).blocks = kdel s.blocks blk ∧
    (s.dropBlock blk b).warps = s.warps.filter (fun w => !(b.warps ++ b.tctx.toList).contains w.1) := by
  unfold State.dropBlock
  dsimp only
  obtain ⟨cs, hcs⟩ := vsSweep_frame (State.modCore { s with
    warps := s.warps.filter (fun w => !(b.warps ++ b.tctx.toList).contains w.1), blocks := kdel s.blocks blk,
    txs := s.txs.filter (fun t => !(b.warps ++ b.tctx.toList).contains t.2.u),
    mengs := s.mengs.map (fun (e : Nat × MEngine) => (e.1, { table := e.2.table.filter (fun k => k.blk != blk) })) } b.core
      (fun c => { c with sfq := c.sfq.filter (fun r => !(b.warps ++ b.tctx.toList).contains r.u) })) b.core
  rw [hcs]
  exact ⟨⟨_, _, _, _, _, rfl⟩, rfl, rfl⟩

/-- The launch of a block that has retired: one more has, and its areas are kept for the next one. -/
def Launch.retires (l : Launch) (b : Block) : Launch :=
  { l with retired := l.retired + 1,
           areas := l.areas.map (fun a =>
             if a.bid = some b.bid ∧ a.priv = b.privBase ∧ a.save = b.saveBase then { a with bid := none } else a) }

/-- A block retires where nothing is recorded, replayed or measured. -/
theorem execBlockRetirement_eq (hb : kget s.blocks blk = some b) (hover : s.blockOver blk b = true) (hl : kget s.launches b.launch = some l)
    (hrec : l.lr.record = false) (hrep : l.lr.replay = false) (hmeas : l.lr.measure = false) (hdiv : l.diverged = false) :
    exec (.blockRetirement blk) s = .next ((s.dropBlock blk b).modLaunch b.launch (fun l => l.retires b)) := by
  have hgate : b.errGate = none := by
    unfold State.blockOver at hover
    simp only [Bool.and_eq_true, Option.isNone_iff_eq_none] at hover
    exact hover.1.2
  have hret : exec (.blockRetirement blk) s = .next (s.retireBlock blk b) := by
    rw [exec_blockRetirement, execBlockRetirement, hb]
    dsimp only
    rw [hgate]
    exact congrArg _ (if_pos hover)
  rw [hret, State.retireBlock, checkpoint_none b.core hl hrec hrep, hl, compareOld_none hl hmeas, Option.any_some, hdiv]
  rfl

theorem execBlockRetirement_retires (hb : kget s.blocks blk = some b) (hover : s.blockOver blk b = true) (hl : kget s.launches b.launch = some l)
    (hrec : l.lr.record = false) (hrep : l.lr.replay = false) (hmeas : l.lr.measure = false) (hdiv : l.diverged = false) :
    ∃ t l', exec (.blockRetirement blk) s = .next t ∧
      t = { s with warps := t.warps, blocks := t.blocks, txs := t.txs, mengs := t.mengs, cores := t.cores, launches := t.launches } ∧
      kget t.blocks blk = none ∧ (∀ v, v ≠ blk → kget t.blocks v = kget s.blocks v) ∧
      (∀ u ∈ b.warps ++ b.tctx.toList, ∀ w, (u, w) ∉ t.warps) ∧ (∀ x ∈ s.warps, x.1 ∉ b.warps ++ b.tctx.toList → x ∈ t.warps) ∧
      kget t.launches b.launch = some l' ∧ l'.retired = l.retired + 1 := by
  have hex := execBlockRetirement_eq hb hover hl hrec hrep hmeas hdiv
  obtain ⟨⟨ws, bs, ts, ms, cs, hframe⟩, hblocks, hwarps⟩ := dropBlock_spec s blk b
  generalize s.dropBlock blk b = s1 at hex hframe hblocks hwarps
  have hlaunches : s1.launches = s.launches := by rw [hframe]
  refine ⟨_, l.retires b, hex, ?_, ?_, fun v hv => ?_, fun u hu w hw => ?_, fun x hx hne => ?_, ?_, rfl⟩
  · rw [hframe]; rfl
  · show kget s1.blocks blk = none
    rw [hblocks, kget_kdel_self]
  · show kget s1.blocks v = _
    rw [hblocks, kget_kdel_ne _ hv]
  · have hin : (u, w) ∈ s1.warps := hw
    rw [hwarps, List.mem_filter] at hin
    exact absurd hu (by simpa using hin.2)
  · show x ∈ s1.warps
    rw [hwarps, List.mem_filter]
    exact ⟨hx, by simpa using hne⟩
  · show kget (kmod s1.launches b.launch _) b.launch = _
    rw [kget_kmod_self, hlaunches, hl]
    rfl

end

/-! ### The end of a launch (R263, R288, R293) -/

section
variable {s s2 : State} {l : Nat} {x : Launch}

/-- A launch whose signal word was on its way is gone. -/
theorem execLaunchEnd_signalled (hx : kget s.launches l = some x) (hover : s.launchOver l x = true) (hsig : x.sig.isSome = true) :
    exec (.launchEnd l) s = .next (s.launchGone l x) := by
  rw [exec_launchEnd, execLaunchEnd, hx]
  dsimp only
  rw [hover, hsig]
  rfl

/-- An aborted launch closes no chunk and writes no signal. -/
theorem execLaunchEnd_aborted (hx : kget s.launches l = some x) (hover : s.launchOver l x = true) (hsig : x.sig = none) (hab : x.aborted = true) :
    exec (.launchEnd l) s = .next ((s.flushLaunch l).launchGone l x) := by
  rw [exec_launchEnd, execLaunchEnd, hx]
  dsimp only
  rw [hover, hsig, hab]
  rfl

/-- A launch that is not measured has one pass, and no counts to write. -/
theorem lastPass_unmeasured (hmeas : x.lr.measure = false) : s.lastPass x = true := by
  have hp : s.passes x = 1 := by
    unfold State.passes
    rw [hmeas]
    rfl
  unfold State.lastPass
  rw [hp]
  simp

theorem writeCounts_unmeasured (hmeas : x.lr.measure = false) : s.writeCounts l x = s := by
  unfold State.writeCounts
  rw [hmeas]
  rfl

/-- The state in which the chunks of a launch are closed and its lines flushed. -/
def State.launchClosed (s : State) (l : Nat) : State := (s.closeAllChunks l).flushLaunch l

theorem execLaunchEnd_unsigned (hx : kget s.launches l = some x) (hover : s.launchOver l x = true) (hsig : x.sig = none) (hab : x.aborted = false)
    (hmeas : x.lr.measure = false) (hz : x.lr.sigaddr = 0) : exec (.launchEnd l) s = .next ((s.launchClosed l).launchGone l x) := by
  rw [exec_launchEnd, execLaunchEnd, hx]
  dsimp only
  rw [hover, hsig, hab, lastPass_unmeasured hmeas, writeCounts_unmeasured hmeas, hmeas]
  exact congrArg _ (if_pos hz)

/-- The launch's signal word is under way under an identity. -/
def State.signalSent (s : State) (l id : Nat) : State :=
  State.modLaunch { s with ext := s.ext.map (fun (e : Nat × ExtReq) => (e.1, if e.2.u = id then { e.2 with launch := some l } else e.2)) } l
    (fun y => { y with sig := some id })

theorem execLaunchEnd_signals (hx : kget s.launches l = some x) (hover : s.launchOver l x = true) (hsig : x.sig = none) (hab : x.aborted = false)
    (hmeas : x.lr.measure = false) (hz : x.lr.sigaddr ≠ 0) {s1 : State} (hs1 : s.launchClosed l = s1)
    (hwrite : State.releaseWrite { s1 with nextUid := s1.nextUid + 1 } x.part x.ctx s1.nextUid x.lr.sigaddr (bytesLE 4 x.lr.sigval) = (s2, none)) :
    exec (.launchEnd l) s = .next (if s2.ext.any (fun e => e.2.u == s1.nextUid) then s2.signalSent l s1.nextUid else s2.launchGone l x) := by
  subst hs1
  rw [exec_launchEnd, execLaunchEnd, hx]
  dsimp only
  rw [hover, hsig, hab, lastPass_unmeasured hmeas, writeCounts_unmeasured hmeas, hmeas]
  have hsent : (s.launchClosed l).fresh.2.releaseWrite x.part x.ctx (s.launchClosed l).fresh.1 x.lr.sigaddr
    (bytesLE 4 x.lr.sigval) = (s2, none) := hwrite
  rw [State.launchClosed] at hsent
  refine congrArg _ ((if_neg hz).trans ?_)
  rw [if_neg Bool.false_ne_true, hsent]
  rfl

theorem execLaunchEnd_waits {id : Nat} (h : exec (.launchEnd l) s =
      .next (if s2.ext.any (fun e => e.2.u == id) then s2.signalSent l id else s2.launchGone l x)) (hsent : ∃ e ∈ s2.ext, e.2.u = id) :
    ∃ t, exec (.launchEnd l) s = .next t ∧ t = { s2 with ext := t.ext, launches := t.launches } ∧
      kget t.launches l = (kget s2.launches l).map (fun y => { y with sig := some id }) := by
  have hany : s2.ext.any (fun e => e.2.u == id) = true := by simpa using hsent
  rw [if_pos hany] at h
  exact ⟨_, h, rfl, kget_kmod_self ..⟩

theorem execLaunchEnd_sent {id : Nat} (h : exec (.launchEnd l) s =
      .next (if s2.ext.any (fun e => e.2.u == id) then s2.signalSent l id else s2.launchGone l x)) (hsent : ∀ e ∈ s2.ext, e.2.u ≠ id) :
    exec (.launchEnd l) s = .next (s2.launchGone l x) := by
  rwa [if_neg (by simpa using hsent)] at h

/-- A launch that is gone: its record is, and its node is finished. -/
theorem launchGone_spec (s : State) (l : Nat) (x : Launch) :
    kget (s.launchGone l x).launches l = none ∧ (∀ k, k ≠ l → kget (s.launchGone l x).launches k = kget s.launches k) ∧
    ∀ n y, x.node = some n → kget s.nodes n = some y →
      ∃ z, kget (s.launchGone l x).nodes n = some z ∧ z.finished = true ∧ z.faulted = x.aborted := by
  have hlaunches : (s.launchGone l x).launches = kdel s.launches l := by
    unfold State.launchGone
    cases x.node <;> rfl
  refine ⟨by rw [hlaunches, kget_kdel_self], fun k hk => by rw [hlaunches, kget_kdel_ne _ hk], fun n y hn hy => ?_⟩
  refine ⟨{ y with finished := true, faulted := x.aborted, stopCode := if x.aborted then 6 else 0 }, ?_, rfl, rfl⟩
  unfold State.launchGone
  rw [hn]
  show kget (kmod s.nodes n _) n = _
  rw [kget_kmod_self, hy]
  rfl

end

/-! ### The lattice, gates and measured passes (R273, R286, R293) -/

section
variable {s : State}

theorem execLatticeTimeslice_changes {die phys a b : Nat} (ha : (s.servedBy die phys).filter (fun l => !s.fleet.inactive.contains l) = [a])
    (hb : (s.servedBy die phys).filter (fun l => s.fleet.inactive.contains l) = [b]) (hshared : s.dreg (.lmShared a) = 1)
    (htime : sget 0 s.fleet.sliceAt (192 * die + phys) + 100000 ≤ s.timebase) (hwarps : ∀ w ∈ s.warpsOn a, w.2.xw = none) :
    ∃ t, exec (.latticeTimeslice die phys) s = .next t ∧ t = { s with cores := t.cores, fleet := t.fleet } ∧
      (∀ k, k ∈ t.fleet.inactive ↔ k = a ∨ (k ∈ s.fleet.inactive ∧ k ≠ b)) ∧ (t.core a).watches = [] ∧
      sget 0 t.fleet.sliceAt (192 * die + phys) = s.timebase := by
  obtain ⟨t, ht⟩ : ∃ t : State, t = { s.modCore a (fun c => { c.dropEntries (fun _ => true) with watches := [] }) with
    fleet := { s.fleet with inactive := a :: s.fleet.inactive.filter (· != b),
                            sliceAt := kput s.fleet.sliceAt (192 * die + phys) s.timebase } } := ⟨_, rfl⟩
  have hall : (s.warpsOn a).all (fun w => w.2.xw.isNone) = true := List.all_eq_true.2 fun w hw => by rw [hwarps w hw]; rfl
  refine ⟨t, ?_, by rw [ht]; rfl, fun k => by rw [ht]; simp, ?_, ?_⟩
  · rw [exec_latticeTimeslice, execLatticeTimeslice, ha, hb, ht]
    exact congrArg _ (if_pos ⟨hshared, htime, hall⟩)
  · have hcore : t.core a = (s.modCore a (fun c => { c.dropEntries (fun _ => true) with watches := [] })).core a := by rw [ht]; rfl
    rw [hcore, core_modCore_self]
  · rw [ht]
    simp [sget]

theorem execReplayGateTimeout_diverges {l u since die at_ n : Nat} {x : Launch} {nd : Node} (hx : kget s.launches l = some x)
    (hgate : kget x.gates u = some (since, die, at_)) (hmeas : x.lr.measure = false) (htime : since + 1000000 ≤ s.timebase)
    (hdiv : x.diverged = false) (hn : x.node = some n) (hnd : kget s.nodes n = some nd) :
    ∃ t x', exec (.replayGateTimeout l u) s = .next t ∧ kget t.launches l = some x' ∧ x' = { x with diverged := true } ∧
      t.reg (.q nd.q .halt) = 1 ∧ (s.reg (.q nd.q .qerr) = 0 → t.reg (.q nd.q .qerr) = 6 ∧ t.reg (.q nd.q .qerrNode) = nd.addr) := by
  obtain ⟨s1, ⟨m, hs1⟩, hhalts⟩ := diverge_spec s l die n x nd hx hdiv hn hnd
  obtain ⟨hlaunches, hhalt, herr⟩ := haltQueue_regs s1 nd.q 6 nd.addr x.part
  have hex : exec (.replayGateTimeout l u) s = .next (s1.haltQueue nd.q 6 nd.addr x.part) := by
    rw [exec_replayGateTimeout, execReplayGateTimeout, hx]
    dsimp only
    rw [hgate, ← hhalts]
    exact congrArg _ (if_pos ⟨by simp [hmeas], htime⟩)
  refine ⟨_, { x with diverged := true }, hex, ?_, rfl, hhalt, fun hq => herr (by rw [hs1]; exact hq)⟩
  rw [hlaunches, hs1]
  show kget (kmod s.launches l _) l = _
  rw [kget_kmod_self, hx]
  rfl

/-- The next pass of a measured launch. -/
def Launch.nextPass (y : Launch) (timebase : Nat) : Launch :=
  { y with lr := { y.lr with record := false, replay := true }, pass := y.pass + 1, nextBlk := 0, retired := 0,
           waitFrom := some timebase, reserved := none, unitDies := [], cursor := [], gates := [], counters := [], oldHash := [] }

/-- Before the next pass: the captured pages are as they were, and no cache or hash of the launch is left. -/
def State.passReset (s : State) (l : Nat) (y : Launch) : State :=
  let t := (s.restorePages y).dropCaches y.part
  { t with cores := t.cores.map (fun (c : Nat × Core) => (c.1, { c.2 with hashes := kdel c.2.hashes l })) }

theorem execMeasurementPass_next {l : Nat} {x y : Launch} (hx : kget s.launches l = some x) (hmeas : x.lr.measure = true)
    (hover : s.launchOver l x = true) (hlast : s.lastPass x = false) (hab : x.aborted = false) {s1 s2 : State}
    (hs1 : (s.closeAllChunks l).writeCounts l x = s1) (hs2 : (dedup (s1.ms.map (·.pa))).foldl (fun st pa => st.apply pa) s1 = s2)
    (hy : kget s2.launches l = some y) :
    exec (.measurementPass l) s = .next ((s2.passReset l y).setLaunch l (y.nextPass (s2.passReset l y).timebase)) := by
  rw [exec_measurementPass, execMeasurementPass, hx]
  dsimp only
  rw [hmeas, hover, hlast, hab, hs1, hs2, hy]
  rfl

end

/-- Settles O47. The model's choices are that a node's ranges are those its record held when it entered (log 118), that the walker uses the
die of the partition's lowest cluster (log 65), and that a sub-graph's target enters with its own priority while a queue of another
partition is a node error (log 66). -/
theorem dispatchEvents : Obligations.DispatchEvents := by
  refine ⟨fun _ _ _ node hsee hroom hen => execQpost_enters node hsee hroom hen, fun _ _ _ node hsee hfull => execQpost_overflows node hsee hfull,
    fun _ _ _ hsee => execQueueResume_clears hsee, fun _ _ _ hsee => execFlush_discards hsee, ?_, ?_,
    fun _ _ _ _ _ _ _ _ _ _ _ _ h hok hk hread hgo => ⟨_, execNodeDispatch_commands h hok hk (dispatchCmd_starts hread hgo), rfl⟩,
    fun _ _ _ _ _ _ _ h hok hk halign hwrite => ⟨_, execNodeDispatch_signals h hok hk halign hwrite, rfl⟩,
    fun _ _ _ _ _ _ h hok hk hvec hbase => execNodeDispatch_notifies h hok hk hvec hbase,
    fun _ _ _ _ _ _ h hok hk hpart => ⟨_, execNodeDispatch_graphs h hok hk hpart, rfl⟩,
    fun _ _ _ _ _ _ h hbad => ⟨_, execNodeDispatch_faults h hbad, rfl⟩, ?_, fun _ _ _ hrun hk => reached_spec hrun hk,
    fun _ _ _ hx hfin hfault hrange hcode => execNodeCompletion_halts hx hfin hfault hrange hcode,
    fun _ _ _ _ _ _ hx hoffer hfirst harea huid hwarps hblocks hsame =>
      ⟨_, execBlockAdmission_one hx hoffer hfirst, admitBlock_spec hx harea huid hwarps hblocks hsame⟩,
    fun _ _ _ _ _ hx hadm hres hwait htime hcore hfit => ⟨_, execAdmissionReservation_reserves hx hadm hres hwait htime hcore hfit, rfl⟩,
    fun _ _ _ _ hb hover hl hrec hrep hmeas hdiv => execBlockRetirement_retires hb hover hl hrec hrep hmeas hdiv,
    fun _ _ _ hx hover => ⟨fun hsig => ⟨_, execLaunchEnd_signalled hx hover hsig, rfl⟩,
      fun hsig hab => ⟨_, execLaunchEnd_aborted hx hover hsig hab, rfl⟩⟩,
    fun _ _ _ hx hover hsig hab hmeas => ⟨fun hz => ⟨_, execLaunchEnd_unsigned hx hover hsig hab hmeas hz, rfl⟩, fun _ hz hwrite => ?_⟩,
    launchGone_spec, fun _ _ _ _ _ ha hb hshared htime hwarps => execLatticeTimeslice_changes ha hb hshared htime hwarps,
    fun _ _ _ _ _ _ _ _ _ hx hgate hmeas htime hdiv hn hnd => execReplayGateTimeout_diverges hx hgate hmeas htime hdiv hn hnd,
    fun _ _ _ _ hx hmeas hover hlast hab hy => 
      ⟨_, _, execMeasurementPass_next hx hmeas hover hlast hab rfl rfl hy, kget_kput_self .., rfl, rfl, rfl, rfl, rfl, rfl⟩⟩
  · intro s fn q lid l nid n hsee hls hdiv hab hnode hn hq hsaved
    have hex := execAbort_one hsee hls hdiv hab hnode hn hq
    exact ⟨fun hno => ⟨_, hex.trans (congrArg _ (abortLaunch_none hsaved hno)), rfl⟩,
      fun blk b u r hbs hb hw => ⟨_, hex.trans (congrArg _ (abortLaunch_one hsaved hbs hb hw)), rfl⟩⟩
  · intro s p id n0 v n v2 s1 h hok hk hread
    exact ⟨fun href => ⟨_, execNodeDispatch_refuses h hok hk hread ((refused_leaveRing _ _).symm.trans href), rfl⟩,
      fun href hmeas hrec => execNodeDispatch_launches h hok hk hread ((refused_leaveRing _ _).symm.trans href) hmeas hrec⟩
  · intro s n x hx hfin hfault hrange hwait
    exact ⟨fun hns => execNodeCompletion_last hx hfin hfault hrange hwait hns, fun a s1 bs s2 hns halign htop hcheck hrmw hpart hen hroom =>
      execNodeCompletion_releases hx hfin hfault hrange hwait hns (release1_enters halign htop hcheck hrmw hpart hen hroom)⟩
  · have hex := execLaunchEnd_signals hx hover hsig hab hmeas hz rfl hwrite
    exact ⟨fun hnone => ⟨_, execLaunchEnd_sent hex hnone, rfl⟩, fun hsome => execLaunchEnd_waits hex hsome⟩

end Sys2Proof.Machine
end

section
namespace Sys2Proof.Machine

/-! ### Budgets and the patrol scrub (R345 to R348) -/

/-- One stall counter of a partition takes a period in which its budget ran out. -/
def State.stalled (s : State) (out : Bool) (p : Nat) (f : PReg) : State := if out then s.setPreg p f (sat32 (s.preg p f + 1)) else s

theorem stalled_reg (s : State) (out : Bool) (p : Nat) (f : PReg) (r : Reg) :
    (s.stalled out p f).reg r = if r = .p p f ∧ out = true then min (s.reg (.p p f) + 1) (2 ^ 32 - 1) else s.reg r := by
  cases out with
  | false => simp [State.stalled]
  | true =>
    have h := reg_setReg_if s (.p p f) r (sat32 (s.reg (.p p f) + 1))
    simp only [and_true]
    exact h

theorem countStalls_eq (s : State) (p : Nat) : s.countStalls p =
    ((s.stalled (s.ranOut (4 * p)) p .d2dStall).stalled (s.ranOut (4 * p + 1)) p .hylisStall).stalled (s.ranOut (4 * p + 2)) p .hostStall := rfl

/-- A stall counter of a partition. -/
def Reg.isStall (r : Reg) : Prop := ∃ p, r = .p p .d2dStall ∨ r = .p p .hylisStall ∨ r = .p p .hostStall

theorem stalled_keeps (s : State) (out : Bool) {p : Nat} {f : PReg} (hf : (Reg.p p f).isStall) :
    (∃ R, s.stalled out p f = { s with regs := R }) ∧ ∀ r, ¬r.isStall → (s.stalled out p f).reg r = s.reg r := by
  refine ⟨?_, fun r hr => ?_⟩
  · cases out with
    | false => exact ⟨s.regs, rfl⟩
    | true => exact ⟨_, rfl⟩
  · rw [stalled_reg, if_neg]
    rintro ⟨rfl, -⟩
    exact hr hf

theorem countStalls_keeps (s : State) (p : Nat) :
    (∃ R, s.countStalls p = { s with regs := R }) ∧ ∀ r, ¬r.isStall → (s.countStalls p).reg r = s.reg r := by
  rw [countStalls_eq]
  obtain ⟨⟨R1, h1⟩, k1⟩ := stalled_keeps s (s.ranOut (4 * p)) ⟨p, .inl rfl⟩
  generalize s.stalled (s.ranOut (4 * p)) p .d2dStall = s1 at h1 k1
  obtain ⟨⟨R2, h2⟩, k2⟩ := stalled_keeps s1 (s.ranOut (4 * p + 1)) ⟨p, .inr (.inl rfl)⟩
  generalize s1.stalled (s.ranOut (4 * p + 1)) p .hylisStall = s2 at h2 k2
  obtain ⟨⟨R3, h3⟩, k3⟩ := stalled_keeps s2 (s.ranOut (4 * p + 2)) ⟨p, .inr (.inr rfl)⟩
  exact ⟨⟨R3, by rw [h3, h2, h1]⟩, fun r hr => ((k3 r hr).trans (k2 r hr)).trans (k1 r hr)⟩

theorem countStalls_counts (s : State) (p : Nat) (k : Nat × PReg)
    (hk : k ∈ [(4 * p, .d2dStall), (4 * p + 1, .hylisStall), (4 * p + 2, .hostStall)]) :
    (s.countStalls p).reg (.p p k.2) = if s.ranOut k.1 then min (s.reg (.p p k.2) + 1) (2 ^ 32 - 1) else s.reg (.p p k.2) := by
  rw [countStalls_eq]
  simp only [List.mem_cons, List.not_mem_nil, or_false] at hk
  rcases hk with rfl | rfl | rfl <;> simp [stalled_reg]

/-- Counters of corrected errors that rise one after another. -/
theorem corrected_fold (n : Nat → Nat) (ds : List Nat) (hds : ds.Nodup) (s : State) :
    let t := ds.foldl (fun st d => st.setDreg (.ceCount d) (sat64 (st.dreg (.ceCount d) + n d))) s
    (∃ R, t = { s with regs := R }) ∧ (∀ d, d ∈ ds → t.dreg (.ceCount d) = min (s.dreg (.ceCount d) + n d) (2 ^ 64 - 1)) ∧
    ∀ r, (∀ d ∈ ds, r ≠ .d (.ceCount d)) → t.reg r = s.reg r := by
  induction ds generalizing s with
  | nil => exact ⟨⟨s.regs, rfl⟩, by simp, fun _ _ => rfl⟩
  | cons a ds ih =>
    obtain ⟨ha, hds⟩ := List.nodup_cons.1 hds
    obtain ⟨⟨R, hR⟩, hin, hout⟩ := ih hds (s.setDreg (.ceCount a) (sat64 (s.dreg (.ceCount a) + n a)))
    have hset : ∀ r, (s.setDreg (.ceCount a) (sat64 (s.dreg (.ceCount a) + n a))).reg r =
        if r = .d (.ceCount a) then sat64 (s.dreg (.ceCount a) + n a) else s.reg r := fun r => reg_setReg_if ..
    rw [List.foldl_cons]
    refine ⟨⟨R, hR⟩, fun d hd => ?_, fun r hr => ?_⟩
    · rcases List.mem_cons.1 hd with rfl | hd
      · exact (hout _ fun e he h => ha (by cases h; exact he)).trans ((hset _).trans (if_pos rfl))
      · have hne : d ≠ a := fun h => ha (h ▸ hd)
        have hold : (s.setDreg (.ceCount a) (sat64 (s.dreg (.ceCount a) + n a))).dreg (.ceCount d) = s.dreg (.ceCount d) :=
          (hset _).trans (if_neg (by simpa using hne))
        rw [hin d hd, hold]
    · rw [hout r fun e he => hr e (List.mem_cons_of_mem a he), hset, if_neg (hr a (List.mem_cons_self ..))]

/-- The counters of corrected errors rise on every die; no other register changes. -/
theorem countCorrected_spec (s : State) : (∃ R, s.countCorrected = { s with regs := R }) ∧
    (∀ d, d < 4 → s.countCorrected.dreg (.ceCount d) = min (s.dreg (.ceCount d) + Config.corrected s.stepNo d) (2 ^ 64 - 1)) ∧
    ∀ r, (∀ d, r ≠ .d (.ceCount d)) → s.countCorrected.reg r = s.reg r := by
  obtain ⟨hR, hin, hout⟩ := corrected_fold (Config.corrected s.stepNo) (List.range 4) List.nodup_range s
  exact ⟨hR, fun d hd => hin d (List.mem_range.2 hd), fun r hr => hout r fun d _ => hr d⟩

/-- Tables filled key by key, each key with a default of its own. -/
theorem foldl_sset (d v : Nat → Nat) (ks : List Nat) (m : KMap Nat) (k : Nat) :
    sget (d k) (ks.foldl (fun m k => sset (d k) m k (v k)) m) k = if k ∈ ks then v k else sget (d k) m k := by
  induction ks generalizing m with
  | nil => simp
  | cons a t ih =>
    rw [List.foldl_cons, ih]
    by_cases ht : k ∈ t
    · simp [ht]
    · by_cases ha : k = a
      · subst ha
        simp [ht]
      · have hne : sget (d k) (sset (d a) m a (v a)) k = sget (d k) m k := by
          unfold sget sset
          split
          · rw [kget_kdel_ne _ ha]
          · rw [kget_kput_ne _ _ ha]
        simp [ht, ha, hne]

section
variable {s : State}

theorem execBudgetPeriod_begins (hper : s.fleet.period < s.timebase / 10000 * 10000) : ∃ t, exec .budgetPeriod s = .next t ∧
    t = { s with
      regs := t.regs,
      fleet := { s.fleet with period := s.timebase / 10000 * 10000, budgets := t.fleet.budgets, used := t.fleet.used } } ∧
    (∀ k, k < 68 → t.budget k = s.reg (budgetReg k) ∧ sget 0 t.fleet.used k = if s.budget k = noLimit then 0 else s.asked k - s.budget k) ∧
    (∀ p x, s.parts = [(p, x)] → ∀ k : Nat × PReg, k ∈ [(4 * p, .d2dStall), (4 * p + 1, .hylisStall), (4 * p + 2, .hostStall)] →
      t.preg p k.2 = if s.ranOut k.1 then min (s.preg p k.2 + 1) (2 ^ 32 - 1) else s.preg p k.2) ∧
    ∀ r, (∀ p, r ≠ .p p .d2dStall ∧ r ≠ .p p .hylisStall ∧ r ≠ .p p .hostStall) → (∀ d, r ≠ .d (.ceCount d)) → t.reg r = s.reg r := by
  obtain ⟨⟨R, hR⟩, hkeep⟩ := keepRegs_fold (fun r => ¬r.isStall) (fun (st : State) (e : Nat × Part) => st.countStalls e.1)
    (fun st e => countStalls_keeps st e.1) s.parts s
  obtain ⟨s1, hs1⟩ : ∃ s1, s1 = s.parts.foldl (fun st e => st.countStalls e.1) s := ⟨_, rfl⟩
  rw [← hs1] at hR hkeep
  obtain ⟨⟨R2, hR2⟩, -, hkeep2⟩ := countCorrected_spec s1
  have hfleet : s1.countCorrected.fleet = s.fleet := by rw [hR2, hR]
  have hex : exec .budgetPeriod s = .next (s1.countCorrected.setFleet (fun f => { s.newPeriod f with period := s.timebase / 10000 * 10000 })) := by
    rw [exec_budgetPeriod, execBudgetPeriod, hs1]
    exact congrArg _ (if_neg (Nat.not_le.2 hper))
  refine ⟨_, hex, ?_, fun k hk => ⟨?_, ?_⟩, fun p x hp k hk => ?_, fun r hst hce => ?_⟩
  · rw [hR2, hR]; rfl
  · exact (foldl_sset (fun k => (budgetReg k).reset) (fun k => s.reg (budgetReg k)) (List.range 68) [] k).trans (if_pos (List.mem_range.2 hk))
  · exact (foldl_sset (fun _ => 0) (fun k => if s.budget k = noLimit then 0 else s.asked k - s.budget k) (List.range 68) [] k).trans
      (if_pos (List.mem_range.2 hk))
  · have h1 : s1 = s.countStalls p := by rw [hs1, hp]; rfl
    refine (hkeep2 (.p p k.2) (by simp)).trans ?_
    rw [h1]
    exact countStalls_counts s p k hk
  · refine (hkeep2 r hce).trans (hkeep r ?_)
    rintro ⟨p, h | h | h⟩
    · exact (hst p).1 h
    · exact (hst p).2.1 h
    · exact (hst p).2.2 h

/-- A scrub with nothing left of its budget does nothing. -/
theorem execPatrolScrub_spent {n : Nat} (hk : s.scrubLeft n = 0) : exec (.patrolScrub n) s = .next s := by
  rw [exec_patrolScrub, execPatrolScrub]
  exact congrArg _ (if_pos hk)

theorem execPatrolScrub_reads {n k : Nat} (hk : s.scrubLeft n = k) (h0 : k ≠ 0) : ∃ t, exec (.patrolScrub n) s = .next t ∧
    t = { s with
      regs := t.regs,
      fleet := { s.fleet with used := t.fleet.used, scrubAt := (s.fleet.scrubAt + k) % 2 ^ 31 } } ∧
    (∀ j, sget 0 t.fleet.used j = sget 0 s.fleet.used j + if j = 65 then k else 0) ∧
    (∀ d, d < 4 → t.dreg (.ceCount d) = min (s.dreg (.ceCount d) + Config.corrected s.stepNo d) (2 ^ 64 - 1)) ∧
    ∀ r, (∀ d, r ≠ .d (.ceCount d)) → t.reg r = s.reg r := by
  obtain ⟨s1, hs1⟩ : ∃ s1, s1 = (s.spend 65 k).setFleet (fun f => { f with scrubAt := (f.scrubAt + k) % 2 ^ 31 }) := ⟨_, rfl⟩
  obtain ⟨⟨R, hR⟩, hcount, hkeep⟩ := countCorrected_spec s1
  have hregs : s1.regs = s.regs := by rw [hs1]; rfl
  have hex : exec (.patrolScrub n) s = .next s1.countCorrected := by
    rw [exec_patrolScrub, execPatrolScrub, hk, hs1]
    exact congrArg _ (if_neg h0)
  refine ⟨_, hex, by rw [hR, hs1]; rfl, fun j => ?_, fun d hd => ?_, fun r hr => ?_⟩
  · have hused : s1.countCorrected.fleet.used = sset 0 s.fleet.used 65 (sget 0 s.fleet.used 65 + k) := by rw [hR, hs1]; rfl
    rw [hused, sget_sset]
    split
    · next h => rw [h]
    · rfl
  · rw [hcount d hd, hs1]
    rfl
  · rw [hkeep r hr, State.reg, hregs]
    rfl

end

end Sys2Proof.Machine
end

section
namespace Sys2Proof.Machine

/-! ### Errors (R348) -/

section
variable {s : State} {pa : Nat}

/-- The repair that an uncorrectable error's pattern calls for, where a spare is left. -/
def State.errorRepair (s : State) (pattern pa : Nat) : State := match pattern with
  | 1 => (s.repairRow pa).getD s
  | 2 => (s.spareChannel (stackOf pa) (channelOf pa)).getD s
  | _ => s

/-- The line of an uncorrectable error is lost, and counted. -/
def State.lineLost (s : State) (d pa : Nat) : State :=
  (s.setDreg (.ueCount d) (sat64 (s.dreg (.ueCount d) + 1))).setFleet (fun f =>
    { f with lost := if f.lost.contains (pa / lineBytes) then f.lost else (pa / lineBytes) :: f.lost })

theorem execUncorrectableError_eq {d : Nat} (hpa : pa < devTop) (hd : homeDie pa = some d) :
    exec (.uncorrectableError pa) s = .next ((s.lineLost d pa).errorRepair (Config.errorPattern s.stepNo pa) pa) := by
  rw [exec_uncorrectableError, execUncorrectableError, if_pos hpa, hd]
  rfl

theorem lost_mem (l line : Nat) (ls : List Nat) : l ∈ (if ls.contains line then ls else line :: ls) ↔ l = line ∨ l ∈ ls := by
  split
  · next h =>
    have hmem : line ∈ ls := by simpa using h
    exact ⟨.inr, by rintro (rfl | hl); exacts [hmem, hl]⟩
  · exact List.mem_cons

/-- A row's repair, where the stack has one left. -/
theorem repairRow_some (hleft : s.dreg (.rowReps (stackOf pa)) ≠ 0) :
    s.repairRow pa = some ((s.setDreg (.rowReps (stackOf pa)) (s.dreg (.rowReps (stackOf pa)) - 1)).note 3 (stackOf pa) pa) := if_neg hleft

theorem repairRow_none (hleft : s.dreg (.rowReps (stackOf pa)) = 0) : s.repairRow pa = none := if_pos hleft

/-- The state in which a channel of a stack is copied to the stack's next spare. -/
def State.channelSpared (s : State) (a b : Nat) : State :=
  ((s.setDreg (.chSpares a) (s.dreg (.chSpares a) - 1)).note 2 a b).setFleet
    (fun f => { f with moved := kput f.moved (256 * a + b) (160 + (8 - s.dreg (.chSpares a))) })

theorem spareChannel_takes {a b : Nat} (hleft : s.dreg (.chSpares a) ≠ 0) : s.spareChannel a b = some (s.channelSpared a b) := if_neg hleft

theorem spareChannel_none {a b : Nat} (hleft : s.dreg (.chSpares a) = 0) : s.spareChannel a b = none := if_pos hleft

/-- The spares are those that there were before the line was lost. -/
theorem lineLost_dreg {d : Nat} {q : DReg} (hq : ∀ d, q ≠ .ueCount d) : (s.lineLost d pa).dreg q = s.dreg q :=
  reg_setReg_ne s _ (by simpa using hq d)

theorem errorRepair_row : s.errorRepair 1 pa = (s.repairRow pa).getD s := rfl
theorem errorRepair_channel : s.errorRepair 2 pa = (s.spareChannel (stackOf pa) (channelOf pa)).getD s := rfl

theorem errorRepair_other {k : Nat} (h1 : k ≠ 1) (h2 : k ≠ 2) : s.errorRepair k pa = s := by
  unfold State.errorRepair
  split
  · exact absurd rfl h1
  · exact absurd rfl h2
  · rfl

theorem errorRepair_lost (k : Nat) : (s.errorRepair k pa).fleet.lost = s.fleet.lost := by
  by_cases h1 : k = 1
  · subst h1
    rw [errorRepair_row]
    by_cases h0 : s.dreg (.rowReps (stackOf pa)) = 0
    · rw [repairRow_none h0]; rfl
    · rw [repairRow_some h0]; rfl
  · by_cases h2 : k = 2
    · subst h2
      rw [errorRepair_channel]
      by_cases h0 : s.dreg (.chSpares (stackOf pa)) = 0
      · rw [spareChannel_none h0]; rfl
      · rw [spareChannel_takes h0]; rfl
    · rw [errorRepair_other h1 h2]

theorem execUncorrectableError_retires {d : Nat} (hpa : pa < devTop) (hd : homeDie pa = some d) : let k := Config.errorPattern s.stepNo pa
    let rows : DReg := .rowReps (pa / 2 ^ 33 / 8)
    let chans : DReg := .chSpares (pa / 2 ^ 33 / 8)
    ∃ t t1 t2, exec (.uncorrectableError pa) s = .next t ∧ RegsSet s t1 [(.d (.ueCount d), min (s.dreg (.ueCount d) + 1) (2 ^ 64 - 1))] ∧
      t2 = { t1 with fleet := { s.fleet with lost := t.fleet.lost } } ∧ (∀ l, l ∈ t.fleet.lost ↔ l = pa / lineBytes ∨ l ∈ s.fleet.lost) ∧
      (k ≠ 1 → k ≠ 2 → t = t2) ∧ (k = 1 → s.dreg rows = 0 → t = t2) ∧ (k = 2 → s.dreg chans = 0 → t = t2) ∧
      (k = 1 → s.dreg rows ≠ 0 → ∃ t3, RegsSet t2 t3 [(.d rows, s.dreg rows - 1)] ∧
        t = { t3 with fleet := { t2.fleet with repaired := s.fleet.repaired ++ [(3, pa / 2 ^ 33 / 8, pa)] } }) ∧
      (k = 2 → s.dreg chans ≠ 0 → ∃ t3, RegsSet t2 t3 [(.d chans, s.dreg chans - 1)] ∧
        t = { t3 with fleet := { t2.fleet with repaired := s.fleet.repaired ++ [(2, pa / 2 ^ 33 / 8, channelOf pa)], moved := t.fleet.moved } }) := by
  intro k rows chans
  have hrows : (s.lineLost d pa).dreg rows = s.dreg rows := lineLost_dreg (by simp [rows])
  have hchans : (s.lineLost d pa).dreg chans = s.dreg chans := lineLost_dreg (by simp [chans])
  have hex : exec (.uncorrectableError pa) s = .next ((s.lineLost d pa).errorRepair k pa) := execUncorrectableError_eq hpa hd
  clear_value k
  refine ⟨_, s.setDreg (.ueCount d) (sat64 (s.dreg (.ueCount d) + 1)), s.lineLost d pa, hex,
    regsSet_setReg s (.d (.ueCount d)) _, ?_, fun l => ?_, errorRepair_other, ?_, ?_, ?_, ?_⟩
  · rw [errorRepair_lost]
    rfl
  · rw [errorRepair_lost]
    exact lost_mem l (pa / lineBytes) s.fleet.lost
  · rintro rfl h0
    have hleft : (s.lineLost d pa).dreg (.rowReps (stackOf pa)) = 0 := hrows.trans h0
    rw [errorRepair_row, repairRow_none hleft, Option.getD_none]
  · rintro rfl h0
    have hleft : (s.lineLost d pa).dreg (.chSpares (stackOf pa)) = 0 := hchans.trans h0
    rw [errorRepair_channel, spareChannel_none hleft, Option.getD_none]
  · rintro rfl h0
    refine ⟨_, regsSet_setReg (s.lineLost d pa) (.d rows) (s.dreg rows - 1), ?_⟩
    rw [errorRepair_row, repairRow_some (hrows.trans_ne h0), Option.getD_some, ← hrows]
    rfl
  · rintro rfl h0
    refine ⟨_, regsSet_setReg (s.lineLost d pa) (.d chans) (s.dreg chans - 1), ?_⟩
    have hleft : (s.lineLost d pa).dreg (.chSpares (stackOf pa)) ≠ 0 := hchans.trans_ne h0
    rw [errorRepair_channel, spareChannel_takes hleft, Option.getD_some, ← hchans]
    rfl

end

end Sys2Proof.Machine
end

section
namespace Sys2Proof.Machine

/-! ### Repair in service (R349) -/

section
variable {s : State}

/-- The argument of a service command that starts now. -/
theorem svcArg_start (hs : s.dreg .svcState ≠ 1) : s.svcArg = s.dreg .svcArg := if_neg hs

/-- The argument of the service command that runs. -/
theorem svcArg_run (hs : s.dreg .svcState = 1) : s.svcArg = s.dreg .svcNow := if_pos hs

/-- While the device tests itself after transport, a repair command fails with RESULT 4. -/
theorem repair_testing {i : Instr} (hi : i ∈ [Instr.retirecore, .sparech, .rowrep, .lanespare, .swapout]) (hs : s.dreg .svcState ≠ 1)
    (ht : s.dreg .testing = 1) : exec i s = .next (s.svcEnd 4) := by
  have hend : ∀ (c : Nat) (x : State), (if !s.svcOpen c then s else if s.dreg .testing = 1 then s.svcEnd 4 else x) = s.svcEnd 4 := fun c x => by
    rw [if_neg (svcOpen_of hs c), if_pos ht]
  simp only [List.mem_cons, List.not_mem_nil, or_false] at hi
  rcases hi with rfl | rfl | rfl | rfl | rfl
  · exact congrArg Host.Outcome.next (hend 1 _)
  · exact congrArg Host.Outcome.next (hend 2 _)
  · exact congrArg Host.Outcome.next (hend 3 _)
  · exact congrArg Host.Outcome.next (hend 4 _)
  · exact congrArg Host.Outcome.next (hend 6 _)

/-- A row's repair changes the rows left and notes the repair. -/
theorem repairRow_gives {pa : Nat} (hleft : s.dreg (.rowReps (stackOf pa)) ≠ 0) : ∃ t, s.repairRow pa = some t ∧
    t = { s with regs := t.regs, fleet := { s.fleet with repaired := s.fleet.repaired ++ [(3, stackOf pa, pa)] } } ∧
    ∀ r, t.reg r = if r = .d (.rowReps (stackOf pa)) then s.dreg (.rowReps (stackOf pa)) - 1 else s.reg r := by
  refine ⟨_, repairRow_some hleft, rfl, fun r => ?_⟩
  exact reg_setReg_if s (.d (.rowReps (stackOf pa))) r (s.dreg (.rowReps (stackOf pa)) - 1)

variable (hs : s.dreg .svcState ≠ 1) (ht : s.dreg .testing ≠ 1)
include hs ht

theorem execSparech_eq : exec .sparech s = .next (if 160 ≤ s.dreg .svcArg / 8 % 256 then s.svcEnd 2
    else (s.spareChannel (s.dreg .svcArg % 8) (s.dreg .svcArg / 8 % 256)).elim (s.svcEnd 1) (·.svcEnd 0)) := by
  have hch : bits (s.dreg .svcArg) 10 3 = s.dreg .svcArg / 8 % 256 := rfl
  rw [exec_sparech, execSparech, svcArg_start hs]
  rw [if_neg (svcOpen_of hs 2), if_neg ht, bits_low3, hch]
  cases s.spareChannel (s.dreg .svcArg % 8) (s.dreg .svcArg / 8 % 256) <;> rfl

theorem execRowrep_eq : exec .rowrep s = .next (if devTop ≤ s.dreg .svcArg then s.svcEnd 2
    else (s.repairRow (s.dreg .svcArg)).elim (s.svcEnd 1) (·.svcEnd 0)) := by
  rw [exec_rowrep, execRowrep, svcArg_start hs]
  rw [if_neg (svcOpen_of hs 3), if_neg ht]
  cases s.repairRow (s.dreg .svcArg) <;> rfl

theorem execLanespare_eq : exec .lanespare s = .next (if 24 ≤ s.dreg .svcArg % 32 then s.svcEnd 2
    else (s.spareLane (s.dreg .svcArg % 32) (s.dreg .svcArg / 256 % 32)).elim (s.svcEnd 1) (·.svcEnd 0)) := by
  have hlane : bits (s.dreg .svcArg) 12 8 = s.dreg .svcArg / 256 % 32 := rfl
  rw [exec_lanespare, execLanespare, svcArg_start hs]
  rw [if_neg (svcOpen_of hs 4), if_neg ht, bits_low5, hlane]
  cases s.spareLane (s.dreg .svcArg % 32) (s.dreg .svcArg / 256 % 32) <;> rfl

theorem execSparech_refuses (hch : 160 ≤ s.dreg .svcArg / 8 % 256) :
    ∃ t, exec .sparech s = .next t ∧ RegsSet s t [(.d .svcResult, 2), (.d .svcState, 2)] :=
  ⟨_, (execSparech_eq hs ht).trans (congrArg _ (if_pos hch)), regsSet_svcEnd s 2⟩

theorem execSparech_lacks (hch : s.dreg .svcArg / 8 % 256 < 160) (hleft : s.dreg (.chSpares (s.dreg .svcArg % 8)) = 0) :
    ∃ t, exec .sparech s = .next t ∧ RegsSet s t [(.d .svcResult, 1), (.d .svcState, 2)] := by
  refine ⟨_, (execSparech_eq hs ht).trans (congrArg _ ?_), regsSet_svcEnd s 1⟩
  rw [if_neg (Nat.not_le.2 hch), spareChannel_none hleft]
  rfl

theorem execSparech_spares (hch : s.dreg .svcArg / 8 % 256 < 160) (hleft : s.dreg (.chSpares (s.dreg .svcArg % 8)) ≠ 0) :
    let arg := s.dreg .svcArg
    ∃ t, exec .sparech s = .next t ∧
      t = { s with
        regs := t.regs,
        fleet := { s.fleet with repaired := s.fleet.repaired ++ [(2, arg % 8, arg / 8 % 256)], moved := t.fleet.moved } } ∧
      ∀ r, t.reg r = if r = .d .svcResult then 0 else if r = .d .svcState then 2 else
        if r = .d (.chSpares (arg % 8)) then s.dreg (.chSpares (arg % 8)) - 1 else s.reg r := by
  intro arg
  obtain ⟨t, hspare, he, hreg⟩ := spareChannel_some s (arg % 8) (arg / 8 % 256) hleft
  refine ⟨t.svcEnd 0, (execSparech_eq hs ht).trans (congrArg _ ?_), ?_, svcEnd_of s t _ _ hreg⟩
  · rw [if_neg (Nat.not_le.2 hch), hspare]
    rfl
  · rw [svcEnd_eq, he]

theorem execRowrep_refuses (hpa : devTop ≤ s.dreg .svcArg) :
    ∃ t, exec .rowrep s = .next t ∧ RegsSet s t [(.d .svcResult, 2), (.d .svcState, 2)] :=
  ⟨_, (execRowrep_eq hs ht).trans (congrArg _ (if_pos hpa)), regsSet_svcEnd s 2⟩

theorem execRowrep_lacks (hpa : s.dreg .svcArg < devTop) (hleft : s.dreg (.rowReps (s.dreg .svcArg / 2 ^ 33 / 8)) = 0) :
    ∃ t, exec .rowrep s = .next t ∧ RegsSet s t [(.d .svcResult, 1), (.d .svcState, 2)] := by
  refine ⟨_, (execRowrep_eq hs ht).trans (congrArg _ ?_), regsSet_svcEnd s 1⟩
  rw [if_neg (Nat.not_le.2 hpa), repairRow_none hleft]
  rfl

theorem execRowrep_repairs (hpa : s.dreg .svcArg < devTop) (hleft : s.dreg (.rowReps (stackOf (s.dreg .svcArg))) ≠ 0) :
    ∃ t, exec .rowrep s = .next t ∧
      t = { s with regs := t.regs, fleet := { s.fleet with repaired := s.fleet.repaired ++ [(3, stackOf (s.dreg .svcArg), s.dreg .svcArg)] } } ∧
      ∀ r, t.reg r = if r = .d .svcResult then 0 else if r = .d .svcState then 2 else
        if r = .d (.rowReps (stackOf (s.dreg .svcArg))) then s.dreg (.rowReps (stackOf (s.dreg .svcArg))) - 1 else s.reg r := by
  obtain ⟨t, hrow, he, hreg⟩ := repairRow_gives hleft
  refine ⟨t.svcEnd 0, (execRowrep_eq hs ht).trans (congrArg _ ?_), ?_, svcEnd_of s t _ _ hreg⟩
  · rw [if_neg (Nat.not_le.2 hpa), hrow]
    rfl
  · rw [svcEnd_eq, he]

theorem execLanespare_refuses (hlink : 24 ≤ s.dreg .svcArg % 32) :
    ∃ t, exec .lanespare s = .next t ∧ RegsSet s t [(.d .svcResult, 2), (.d .svcState, 2)] :=
  ⟨_, (execLanespare_eq hs ht).trans (congrArg _ (if_pos hlink)), regsSet_svcEnd s 2⟩

theorem execLanespare_lacks (hlink : s.dreg .svcArg % 32 < 24) (hleft : s.dreg (.lanesLeft (s.dreg .svcArg % 32)) = 0) :
    ∃ t, exec .lanespare s = .next t ∧ RegsSet s t [(.d .svcResult, 1), (.d .svcState, 2)] := by
  have hnone : s.spareLane (s.dreg .svcArg % 32) (s.dreg .svcArg / 256 % 32) = none := if_pos hleft
  refine ⟨_, (execLanespare_eq hs ht).trans (congrArg _ ?_), regsSet_svcEnd s 1⟩
  rw [if_neg (Nat.not_le.2 hlink), hnone]
  rfl

theorem execLanespare_boundary (hlow : 20 ≤ s.dreg .svcArg % 32) (hlink : s.dreg .svcArg % 32 < 24)
    (hleft : s.dreg (.lanesLeft (s.dreg .svcArg % 32)) ≠ 0) : let arg := s.dreg .svcArg
    ∃ t, exec .lanespare s = .next t ∧
      t = { s with
        regs := t.regs,
        fleet := { s.fleet with repaired := s.fleet.repaired ++ [(4, arg % 32, arg / 256 % 32)], laneMap := t.fleet.laneMap } } ∧
      ∀ r, t.reg r = if r = .d .svcResult then 0 else if r = .d .svcState then 2 else
        if r = .d (.lanesLeft (arg % 32)) then s.dreg (.lanesLeft (arg % 32)) - 1 else s.reg r := by
  intro arg
  obtain ⟨t, hspare, he, hreg⟩ := spareLane_some s (arg % 32) (arg / 256 % 32) hleft hlow
  refine ⟨t.svcEnd 0, (execLanespare_eq hs ht).trans (congrArg _ ?_), ?_, svcEnd_of s t _ _ hreg⟩
  · rw [if_neg (Nat.not_le.2 hlink), hspare]
    rfl
  · rw [svcEnd_eq, he]

theorem execLanespare_hylis (hlink : s.dreg .svcArg % 32 < 20) (hleft : s.dreg (.lanesLeft (s.dreg .svcArg % 32)) ≠ 0) :
    let arg := s.dreg .svcArg
    ∃ t, exec .lanespare s = .next t ∧ t.dreg (.lanesLeft (arg % 32)) = s.dreg (.lanesLeft (arg % 32)) - 1 ∧
      t.dreg .retrains = min (s.dreg .retrains + 1) (2 ^ 32 - 1) ∧ arg % 32 ∈ t.fabric.down ∧ t.dreg .svcResult = 0 ∧
      t.dreg .svcState = 2 := by
  intro arg
  obtain ⟨t, hspare, hdown, hreg⟩ := spareLane_hylis s (arg % 32) (arg / 256 % 32) hleft hlink
  have hend : ∀ q : DReg, (t.svcEnd 0).dreg q = if q = .svcResult then 0 else if q = .svcState then 2 else t.dreg q := fun q => by
    have h := reg_svcEnd t 0 (.d q)
    simp only [Reg.d.injEq] at h
    exact h
  have hd : ∀ q : DReg, t.dreg q = if q = .retrains then min (s.dreg .retrains + 1) (2 ^ 32 - 1) else
      if q = .lanesLeft (arg % 32) then s.dreg (.lanesLeft (arg % 32)) - 1 else s.dreg q := fun q => by
    have h := hreg (.d q)
    simp only [Reg.d.injEq] at h
    exact h
  refine ⟨t.svcEnd 0, (execLanespare_eq hs ht).trans (congrArg _ ?_), by simp [hend, hd], by simp [hend, hd], hdown,
    by simp [hend], by simp [hend]⟩
  rw [if_neg (Nat.not_le.2 (hlink.trans (by decide))), hspare]
  rfl

end

end Sys2Proof.Machine
end

section
namespace Sys2Proof.Machine

/-! ### A core that leaves service (R286, R349) -/

section
variable {s : State} {die phys l k : Nat}

/-- A physical core of a die that serves nothing and has not left service. -/
def State.isSpare (s : State) (die phys k : Nat) : Bool :=
  (s.servedBy die k).length == 0 && !(k == phys || s.fleet.repaired.contains (1, die, k))

/-- The state in which a logical core has moved to a spare. -/
def State.coreMoved (s : State) (die l k : Nat) : State :=
  (s.setDreg (.lmPhys l) k).setDreg (.coreSpares die) (s.dreg (.coreSpares die) - 1)

theorem moveCore_spare (hleft : s.dreg (.coreSpares die) ≠ 0) (hk : (List.range 192).find? (s.isSpare die phys) = some k) :
    s.moveCore die l phys = some (s.coreMoved die l k) := by
  have hspare : (List.range 192).find? (fun k => (s.servedBy die k).length == 0 && !(k == phys || s.fleet.repaired.contains (1, die, k))) =
    some k := hk
  unfold State.moveCore
  dsimp only
  rw [if_neg hleft, hspare]
  rfl

/-- A physical core that serves one logical core leaves service for a spare. -/
theorem retireCore_spare (hl : s.servedBy die phys = [l]) (hleft : s.dreg (.coreSpares die) ≠ 0)
    (hk : (List.range 192).find? (s.isSpare die phys) = some k) : s.retireCore die phys = some ((s.coreMoved die l k).note 1 die phys) := by
  have hmove := moveCore_spare (l := l) hleft hk
  unfold State.retireCore
  rw [hl, List.foldl_cons, List.foldl_nil, Option.bind_some, hmove, Option.map_some]

variable (hs : s.dreg .svcState ≠ 1) (ht : s.dreg .testing ≠ 1)
include hs ht

theorem execRetirecore_refuses (hret : s.fleet.retiring = [])
    (hbad : 191 < s.dreg .svcArg % 256 ∨ s.servedBy (s.dreg .svcArg / 256 % 4) (s.dreg .svcArg % 256) = []) :
    exec .retirecore s = .next (s.svcEnd 2) := by
  have hdie : bits (s.dreg .svcArg) 9 8 = s.dreg .svcArg / 256 % 4 := rfl
  rw [exec_retirecore, execRetirecore, svcArg_start hs, bits_low, hdie]
  dsimp only
  rw [if_neg (svcOpen_of hs 1), if_neg ht, if_neg (fun h => h.1 hret), if_pos (by simpa using hbad)]

/-- The state in which a retirement has begun. -/
def State.retiringFrom (s : State) (l : Nat) : State := (s.svcRun 1).setFleet (fun f => { f with retiring := [l] })

omit hs ht in
theorem coreMoved_frame : ∃ R, (s.retiringFrom l).coreMoved die l k = { s with regs := R, fleet := { s.fleet with retiring := [l] } } := by
  simp only [State.coreMoved, State.retiringFrom, State.svcRun, State.setFleet, State.setDreg, State.setReg]
  exact ⟨_, rfl⟩

omit hs ht in
theorem blocks_retiringFrom : (s.retiringFrom l).blocks = s.blocks := by
  simp only [State.retiringFrom, State.svcRun, State.setFleet, State.setDreg, State.setReg]

omit ht in
theorem reg_retiringFrom (r : Reg) : (s.retiringFrom l).reg r =
    if r = .d .svcCmd then 1 else if r = .d .svcState then 1 else if r = .d .svcNow then s.dreg .svcArg else s.reg r := by
  show (((s.setReg (.d .svcNow) s.svcArg).setReg (.d .svcState) 1).setReg (.d .svcCmd) 1).reg r = _
  rw [reg_setReg_if, reg_setReg_if, reg_setReg_if, svcArg_start hs]

theorem execRetirecore_moves (hblocks : s.blocks = []) (hnone : s.fleet.retired = []) (hdie : s.dreg .svcArg / 256 % 4 = die)
    (hphys : s.dreg .svcArg % 256 = phys) (hmax : phys ≤ 191) (hl : s.servedBy die phys = [l]) (hleft : s.dreg (.coreSpares die) ≠ 0)
    (hk : (List.range 192).find? (s.isSpare die phys) = some k) :
    ∃ t, exec .retirecore s = .next t ∧
      t = { s with regs := t.regs, fleet := { s.fleet with repaired := s.fleet.repaired ++ [(1, die, phys)], retiring := [] } } ∧
      ∀ r, t.reg r = if r = .d .svcResult then 0 else if r = .d .svcState then 2 else if r = .d .svcCmd then 1 else
        if r = .d .svcNow then s.dreg .svcArg else if r = .d (.coreSpares die) then s.dreg (.coreSpares die) - 1 else
        if r = .d (.lmPhys l) then k else s.reg r := by
  have hbits : bits (s.dreg .svcArg) 9 8 = die := hdie
  have hregs : ∀ q : DReg, q ≠ .svcCmd → q ≠ .svcState → q ≠ .svcNow → (s.retiringFrom l).dreg q = s.dreg q := fun q h1 h2 h3 =>
    (reg_retiringFrom hs (.d q)).trans (by simp [h1, h2, h3]; rfl)
  have hserved : ∀ k, (s.retiringFrom l).servedBy die k = s.servedBy die k := servedBy_of (fun l => hregs _ (by simp) (by simp) (by simp)) die
  have hspares : (s.retiringFrom l).dreg (.coreSpares die) = s.dreg (.coreSpares die) := hregs _ (by simp) (by simp) (by simp)
  have hfind : (List.range 192).find? ((s.retiringFrom l).isSpare die phys) = some k := by
    have hsame : (s.retiringFrom l).isSpare die phys = s.isSpare die phys := funext fun k => by
      unfold State.isSpare
      rw [hserved]
      rfl
    rw [hsame, hk]
  have hretire := retireCore_spare ((hserved phys).trans hl) (hspares.trans_ne hleft) hfind
  have hex : exec .retirecore s = .next (((s.retiringFrom l).coreMoved die l k).note 1 die phys).svcReturn := by
    have hfrom : (s.svcRun 1).setFleet (fun f => { f with retiring := [l] }) = s.retiringFrom l := rfl
    have hnoblock : (s.retiringFrom l).blocks = [] := by rw [blocks_retiringFrom, hblocks]
    have hnotback : ¬(s.fleet.retiring ≠ [] ∧ [l] = []) := by simp
    have hempty : ¬(decide (phys > 191) || [l].isEmpty) = true := by simpa using hmax
    rw [exec_retirecore, execRetirecore, svcArg_start hs, bits_low, hbits, hphys]
    dsimp only
    rw [if_neg (svcOpen_of hs 1), if_neg ht, hl, if_neg hnotback, if_neg hempty, retireCore_spare hl hleft hk, hfrom,
      svcSave_none _ _ hnoblock, hretire, hnoblock]
    rfl
  have hreturn : (((s.retiringFrom l).coreMoved die l k).note 1 die phys).svcReturn =
      State.svcEnd { (s.retiringFrom l).coreMoved die l k with
        fleet := { s.fleet with repaired := s.fleet.repaired ++ [(1, die, phys)], retiring := [] } } 0 := by
    have hretired : (((s.retiringFrom l).coreMoved die l k).note 1 die phys).fleet.retired = [] := hnone
    unfold State.svcReturn
    rw [hretired]
    refine congrArg (State.svcEnd · 0) (congrArg (fun r => { (s.retiringFrom l).coreMoved die l k with
      fleet := { s.fleet with repaired := s.fleet.repaired ++ [(1, die, phys)], retired := r, retiring := [] } }) hnone.symm)
  refine ⟨_, hex.trans (congrArg _ hreturn), ?_, fun r => ?_⟩
  · obtain ⟨R, hR⟩ := coreMoved_frame (s := s) (die := die) (l := l) (k := k)
    rw [hR]
    rfl
  · rw [reg_svcEnd]
    show (if r = .d .svcResult then 0 else if r = .d .svcState then 2 else ((s.retiringFrom l).coreMoved die l k).reg r) = _
    have hmoved : ((s.retiringFrom l).coreMoved die l k).reg r = if r = .d (.coreSpares die) then s.dreg (.coreSpares die) - 1 else
        if r = .d (.lmPhys l) then k else (s.retiringFrom l).reg r := by
      rw [← hspares]
      exact (reg_setReg_if ..).trans (congrArg _ (reg_setReg_if ..))
    rw [hmoved, reg_retiringFrom hs]
    by_cases h1 : r = .d (.coreSpares die)
    · subst h1; simp
    · by_cases h2 : r = .d (.lmPhys l)
      · subst h2; simp
      · by_cases h3 : r = .d .svcState
        · simp [h3]
        · simp [h1, h2, h3]

end

end Sys2Proof.Machine
end

section
namespace Sys2Proof.Machine

/-! ### Transport and hot swap (R350 to R352) -/

section
variable {s : State}

theorem execTseal_refuses (hs : s.dreg .svcState ≠ 1) (hsome : ∃ e ∈ s.parts, e.2.created = true) :
    ∃ t, exec .tseal s = .next t ∧ RegsSet s t [(.d .svcResult, 3), (.d .svcState, 2)] := by
  have hany : s.parts.any (fun e => e.2.created) = true := List.any_eq_true.2 hsome
  refine ⟨_, ?_, regsSet_svcEnd s 3⟩
  rw [exec_tseal, execTseal, if_neg (svcOpen_of hs 5), if_pos hany]

theorem execTseal_seals (hs : s.dreg .svcState ≠ 1) (hnone : ∀ e ∈ s.parts, e.2.created = false) :
    ∃ t t1, exec .tseal s = .next t ∧ RegsSet s t1 [(.d .svcResult, 0), (.d .svcState, 2), (.d .sealed, 1)] ∧
      t = { t1 with fleet := { s.fleet with baseline := some (s.fleet.laneMap, s.fleet.repaired,
        (List.range 768).map (fun l => s.dreg (.lmPhys l) + 256 * s.dreg (.lmShared l))) } } := by
  have hany : s.parts.any (fun e => e.2.created) = false := List.any_eq_false.2 fun e he => by simp [hnone e he]
  have hex : exec .tseal s = .next
      (((s.setFleet (fun f => { f with baseline := some (f.laneMap, f.repaired, s.lattice) })).setDreg .sealed 1).svcEnd 0) := by
    rw [exec_tseal, execTseal, if_neg (svcOpen_of hs 5), hany]
    rfl
  exact ⟨_, (s.setDreg .sealed 1).svcEnd 0, hex, regsSet_cons (regsSet_cons (regsSet_setReg s (.d .sealed) 1) _ _) _ _, rfl⟩

/-- A swap whose command may act and whose destination there is goes on. -/
theorem swapout_goes (ht : s.dreg .testing ≠ 1) (hopen : s.svcOpen 6 = true) {dest : Nat} (hdest : dest ≤ 255) (x : State) :
    (if !s.svcOpen 6 then s else if s.dreg .testing = 1 then s.svcEnd 4 else if 255 < dest then s.svcEnd 2 else x) = x := by
  rw [hopen, Bool.not_true, if_neg Bool.false_ne_true, if_neg ht, if_neg (Nat.not_lt.2 hdest)]

/-- A swap runs, so its command may act. -/
theorem svcOpen_run {c : Nat} (hc : s.dreg .svcCmd = c) : s.svcOpen c = true := by
  unfold State.svcOpen
  rw [hc, beq_self_eq_true, Bool.or_true]

theorem svcOpen_start {c : Nat} (hs : s.dreg .svcState ≠ 1) : s.svcOpen c = true := by
  have h := svcOpen_of hs c
  rwa [Bool.not_eq_true, Bool.not_eq_false'] at h

/-- What leaves for another device is the same once the command has started. -/
theorem partBytes_svcRun (c p : Nat) : (s.svcRun c).partBytes p = s.partBytes p := by
  have henergy : (s.svcRun c).preg p .energy = s.preg p .energy := by
    show (((s.setReg (.d .svcNow) s.svcArg).setReg (.d .svcState) 1).setReg (.d .svcCmd) c).reg (.p p .energy) = _
    rw [reg_setReg_if, reg_setReg_if, reg_setReg_if]
    rfl
  have hmem : (s.svcRun c).mem = s.mem := by simp only [State.svcRun, State.setDreg, State.setReg]
  have hparts : (s.svcRun c).parts = s.parts := by simp only [State.svcRun, State.setDreg, State.setReg]
  unfold State.partBytes State.part
  rw [henergy, hmem, hparts]

theorem execSwapout_copies (ht : s.dreg .testing ≠ 1) (hdest : s.dreg .svcArg ≤ 255) (hs : s.dreg .svcState ≠ 1)
    (hphase : s.fleet.swapPhase = 0) :
    ∃ t t1, exec .swapout s = .next t ∧ RegsSet s t1 [(.d .svcCmd, 6), (.d .svcState, 1), (.d .svcNow, s.dreg .svcArg)] ∧
      t = { t1 with
        fleet := { s.fleet with swapPhase := 1, swapTo := some (s.dreg .svcArg) },
        out := { s.out with bus := s.out.bus ++ (s.parts.filter (fun e => e.2.created)).map (fun e => (s.dreg .svcArg, e.1, s.partBytes e.1)) } } := by
  have hex : exec .swapout s = .next (((s.svcRun 6).sendParts (s.dreg .svcArg)).setFleet (fun f =>
      { f with swapPhase := 1, swapTo := some (s.dreg .svcArg) })) := by
    rw [exec_swapout, execSwapout, svcArg_start hs, hphase]
    exact congrArg _ (swapout_goes ht (svcOpen_start hs) hdest _)
  refine ⟨_, s.svcRun 6, hex, ?_, ?_⟩
  · unfold State.svcRun
    rw [svcArg_start hs]
    exact regsSet_cons (regsSet_cons (regsSet_setReg s (.d .svcNow) _) _ _) _ _
  · unfold State.sendParts
    simp only [partBytes_svcRun]
    rfl

theorem execSwapout_stops (ht : s.dreg .testing ≠ 1) (hdest : s.dreg .svcNow ≤ 255) (hs : s.dreg .svcState = 1) (hcmd : s.dreg .svcCmd = 6)
    (hphase : s.fleet.swapPhase = 1) (hblocks : s.blocks = []) :
    ∃ t, exec .swapout s = .next t ∧ t = { s with fleet := { s.fleet with swapPhase := 2 } } := by
  refine ⟨_, ?_, rfl⟩
  rw [exec_swapout, execSwapout, svcArg_run hs, hphase]
  refine congrArg _ ((swapout_goes ht (svcOpen_run hcmd) hdest _).trans ?_)
  dsimp only
  rw [svcSave_none s _ hblocks]
  rfl

theorem execSwapout_switches {p : Nat} {x : Part} (ht : s.dreg .testing ≠ 1) (hdest : s.dreg .svcNow ≤ 255) (hs : s.dreg .svcState = 1)
    (hcmd : s.dreg .svcCmd = 6) (hphase : s.fleet.swapPhase = 2) (hblocks : s.blocks = []) (hparts : s.parts = [(p, x)]) (hmade : x.created = true) :
    ∃ t t0 t1, exec .swapout s = .next t ∧ t0 = { s with out := { s.out with bus := s.out.bus ++ [(s.dreg .svcNow, p, s.partBytes p)] } } ∧
      Released t0 t1 p ∧ t = { t1 with regs := t.regs, fleet := { t1.fleet with swapPhase := 3, retired := [] } } ∧
      ∀ r, t.reg r = if r = .d .svcResult then 0 else if r = .d .svcState then 2 else t1.reg r := by
  obtain ⟨t0, ht0⟩ : ∃ t0 : State,
    t0 = { s with out := { s.out with bus := s.out.bus ++ [(s.dreg .svcNow, p, s.partBytes p)] } } := ⟨_, rfl⟩
  have hmine : s.parts.filter (fun e => e.2.created) = [(p, x)] := by simp [hparts, hmade]
  have hsent : s.sendParts (s.dreg .svcNow) = t0 := by
    unfold State.sendParts
    rw [hmine, ht0]
    rfl
  have hex : exec .swapout s = .next (((t0.freePart p).setFleet (fun f => { f with swapPhase := 3, retired := [] })).svcEnd 0) := by
    rw [exec_swapout, execSwapout, svcArg_run hs, hphase]
    refine congrArg _ ((swapout_goes ht (svcOpen_run hcmd) hdest _).trans ?_)
    dsimp only
    have hnone : s.blocks.any (fun b => !b.2.stopped) = false := by rw [hblocks, List.any_nil]
    rw [svcSave_none s _ hblocks, hnone, if_neg Bool.false_ne_true, hmine, hsent, List.map_cons, List.map_nil, List.foldl_cons, List.foldl_nil]
    generalize t0.freePart p = s2
    rfl
  have hfree := freePart_spec t0 p
  generalize t0.freePart p = s2 at hex hfree
  exact ⟨_, t0, s2, hex, ht0, hfree, rfl, reg_svcEnd _ 0⟩

theorem execTransportSelfTest_ends (ht : s.dreg .testing = 1) (hb : s.dreg .brownout ≠ 1) (he : s.power.emerg = false) :
    ∃ t, exec (.transportSelfTest [] [] []) s = .next t ∧
      t = { s with regs := t.regs, mem := t.mem, rc := t.rc, fleet := { s.fleet with report := [] } } ∧
      (∀ r, t.reg r = if r = .d .delta then 1 else if r = .d .testing then 0 else if r = .d .sealed then 0 else s.reg r) ∧
      let bs := Config.deltaReport []
      let at_ := hostBase + s.dreg .repBase % hostBase
      ∀ a, t.hByte a = if at_ ≤ a ∧ a < at_ + bs.length then bs.getD (a - at_) 0 else s.hByte a := by
  obtain ⟨⟨m, r, hput⟩, hbytes, -, -⟩ := hostPut_spec (Config.deltaReport []) (s.setFleet (fun f => { f with report := [] }))
    (hostBase + s.dreg .repBase % hostBase)
  obtain ⟨s1, hs1⟩ : ∃ s1, s1 = (s.setFleet (fun f => { f with report := [] })).hostPut (hostBase + s.dreg .repBase % hostBase)
    (Config.deltaReport []) := ⟨_, rfl⟩
  rw [← hs1] at hput hbytes
  have hex : exec (.transportSelfTest [] [] []) s = .next (((s1.setDreg .sealed 0).setDreg .testing 0).setDreg .delta 1) := by
    rw [exec_transportSelfTest, execTransportSelfTest, hs1]
    exact congrArg _ (if_neg (by simp [ht, hb, he]))
  refine ⟨_, hex, by rw [hput]; rfl, fun q => ?_, hbytes⟩
  have hregs : s1.reg q = s.reg q := by rw [hput]; rfl
  refine (reg_setReg_if ..).trans (congrArg _ ((reg_setReg_if ..).trans (congrArg _ ((reg_setReg_if ..).trans ?_))))
  rw [hregs]

/-! ### Reset (R226, R344, R351) -/

/-- The self-test after transport is due at this reset. -/
def State.testDue (s : State) : Prop := s.dreg .sealed = 1 ∧ (s.powered = false ∨ s.dreg .testing = 1)

theorem execDeviceReset_tests (htest : s.testDue) : exec .deviceReset s = .next ((s.wipe true).setDreg .testing 1) := by
  obtain ⟨hsealed, hwhy⟩ := htest
  rw [exec_deviceReset, execDeviceReset]
  exact congrArg _ (if_pos (by simpa [hsealed] using hwhy))

theorem execDeviceReset_resets (htest : ¬s.testDue) : exec .deviceReset s = .next (s.wipe true) := by
  rw [exec_deviceReset, execDeviceReset]
  refine congrArg _ (if_neg fun h => htest ?_)
  simpa [State.testDue] using h

/-- A register that is neither in storage nor held over a reset has its reset value. -/
theorem wipe_resets {r : Reg} (hl : r.lasting = false) (hh : r.held = false) : (s.wipe true).reg r = State.reset.reg r :=
  get_filter_in s.settleRails.regs _ r fun _ => by simp [hl, hh]

/-- The start of the test changes nothing that a reset keeps. -/
theorem wiped_testing {t : State} (h : Wiped s t true) : Wiped s (t.setDreg .testing 1) true := by
  obtain ⟨hpow, hmem, hunits, hparts, htime, hlast, htemps, hrails⟩ := h
  have hreg : ∀ r, r ≠ .d .testing → (t.setDreg .testing 1).reg r = t.reg r := fun r hr => reg_setReg_ne t 1 hr
  refine ⟨hpow, hmem, hunits, hparts, htime, fun r hr => ?_, fun h d => ?_, fun h d r hd hr => ?_⟩
  · rw [hreg r (by rintro rfl; cases hr)]
    exact hlast r hr
  · exact (hreg (.d (.temp d)) (by simp)).trans (htemps h d)
  · refine Eq.trans ?_ (hrails h d r hd hr)
    have hv : (t.setDreg .testing 1).dreg (.railMv (railKey d r)) = t.dreg (.railMv (railKey d r)) := hreg _ (by simp)
    unfold State.railMv State.rail
    rw [hv]
    rfl

theorem execDeviceReset_wipes (s : State) : ∃ t, exec .deviceReset s = .next t ∧ Wiped s t true ∧ (s.testDue → t.dreg .testing = 1) ∧
    (¬s.testDue → ∀ r, Reg.lasting r = false → Reg.held r = false → t.reg r = State.reset.reg r) := by
  by_cases htest : s.testDue
  · exact ⟨_, execDeviceReset_tests htest, wiped_testing (wipe_spec s true), fun _ => reg_setReg_self .., fun h => absurd htest h⟩
  · exact ⟨_, execDeviceReset_resets htest, wipe_spec s true, fun h => absurd h htest, fun _ _ hl hh => wipe_resets hl hh⟩

end

/-- Settles O52. The model's choices are the spare core that a retirement takes (log 22), what a reset keeps (log 23), the widths of the
counters (log 80), how transfers wait for a budget (log 85), the bytes that a swap sends (log 87) and the RESULT codes (log 88). -/
theorem fleetEvents : Obligations.FleetEvents := by
  refine ⟨fun _ hper => execBudgetPeriod_begins hper,
    fun _ _ => ⟨fun hk => ⟨_, execPatrolScrub_spent hk, rfl⟩, fun h0 => execPatrolScrub_reads rfl h0⟩,
    fun _ _ _ hpa hd => execUncorrectableError_retires hpa hd, fun s _ hi hs ht => ⟨_, repair_testing hi hs ht, regsSet_svcEnd s 4⟩,
    fun s hs ht => ?_,
    fun _ hs => ⟨fun hsome => execTseal_refuses hs hsome, fun hnone => execTseal_seals hs hnone⟩,
    fun _ ht => ⟨fun hdest hs hphase => execSwapout_copies ht hdest hs hphase,
      fun hdest hs hcmd hphase hblocks => execSwapout_stops ht hdest hs hcmd hphase hblocks,
      fun _ _ hdest hs hcmd hphase hblocks hparts hmade => execSwapout_switches ht hdest hs hcmd hphase hblocks hparts hmade⟩,
    fun _ ht hb he => execTransportSelfTest_ends ht hb he, execDeviceReset_wipes⟩
  exact ⟨fun hret hbad => ⟨_, execRetirecore_refuses hs ht hret hbad, regsSet_svcEnd s 2⟩,
    fun _ _ hblocks hnone hmax hl hleft hk => execRetirecore_moves hs ht hblocks hnone rfl rfl hmax hl hleft hk,
    fun hch => execSparech_refuses hs ht hch, fun hch hleft => execSparech_lacks hs ht hch hleft, fun hch hleft => execSparech_spares hs ht hch hleft,
    fun hpa => execRowrep_refuses hs ht hpa, fun hpa hleft => execRowrep_lacks hs ht hpa hleft, fun hpa hleft => execRowrep_repairs hs ht hpa hleft,
    fun hlink => execLanespare_refuses hs ht hlink, fun hlink hleft => execLanespare_lacks hs ht hlink hleft,
    fun hlow hlink hleft => execLanespare_boundary hs ht hlow hlink hleft, fun hlink hleft => execLanespare_hylis hs ht hlink hleft⟩

end Sys2Proof.Machine
end

section
/-! The statement of the state after reset. -/

namespace Sys2Proof.Machine

/-! ### The state after reset

No register and no partition is listed after reset, so each register reads the reset value of its rule's table, and each partition is
the one that nobody has created. -/

@[simp] theorem reg_reset (r : Reg) : State.reset.reg r = r.reset := rfl

@[simp] theorem preg_reset (n : Nat) (f : PReg) : State.reset.preg n f = f.reset := reg_reset (.p n f)

@[simp] theorem dreg_reset (f : DReg) : State.reset.dreg f = f.reset := reg_reset (.d f)

@[simp] theorem part_reset (n : Nat) : State.reset.part n = Part.empty := sget_nil Part.empty n

/-- Settles O58: nothing is listed, and the registers read their tables. The values are those of R276 (EN, HALT), R278 (NTFBASE), R291
(BEATP), R313 (DSTATE), R325 (HBPERIOD, HBGRACE, HBRETAIN, SSTATE), R342 (ratio, OPVOTE, EPERIOD), R343 (PLIMIT, GRANTS, PWRCAP) and
R346 (D2D, HYLIS, HOST). Memory that lists nothing reads 0, which is the model's choice (log 1). -/
theorem resetState : Obligations.ResetState := by
  refine ⟨rfl, rfl, rfl, rfl, rfl, fun n => congrArg Part.created (part_reset n), fun cl => reg_reset (.ratio cl),
    fun fn => reg_reset (.ntfBase fn), fun q => ⟨reg_reset (.q q .en), reg_reset (.q q .halt)⟩, fun n => ?_,
    dreg_reset .plimit, dreg_reset .grants, dreg_reset .pwrCap⟩
  simp [PReg.reset]

end Sys2Proof.Machine
end

section
namespace Sys2Proof.Machine

/-! ### Holding and stepping a context (R313, R314, R316) -/

section
variable {s : State} {p : Nat}

theorem dbHeld_iff : s.dbHeld p = true ↔ s.preg p .dctx ∈ (s.part p).held := List.contains_iff_mem

/-- Nothing runs, so every command may act. -/
theorem dbOpen_idle (hidle : s.preg p .dstate ≠ 1) (cmd : Nat) : s.dbOpen p cmd = true := by
  unfold State.dbOpen
  rw [notBusy hidle]
  rfl

/-- An idle service takes the command. -/
theorem ite_idle {α : Type} (hidle : s.preg p .dstate ≠ 1) (x y : α) : (if s.dbBusy p then x else y) = y :=
  if_neg (by rw [notBusy hidle]; exact Bool.false_ne_true)

/-- A context under hold passes the check of STEP, STEPALL, SNAP and POKE. -/
theorem ite_held {α : Type} (hheld : s.preg p .dctx ∈ (s.part p).held) (x y : α) : (if !s.dbHeld p then x else y) = y :=
  if_neg (by simp [dbHeld_iff.2 hheld])

/-- A context that is not under hold fails it. -/
theorem ite_notHeld {α : Type} (hfree : s.preg p .dctx ∉ (s.part p).held) (x y : α) : (if !s.dbHeld p then x else y) = x :=
  if_pos (by simp [mt dbHeld_iff.1 hfree])

/-- A command is open to an idle service. -/
theorem ite_open {α : Type} (hidle : s.preg p .dstate ≠ 1) (cmd : Nat) (x y : α) : (if !s.dbOpen p cmd then x else y) = y :=
  if_neg (by simp [dbOpen_idle hidle cmd])

/-- HALT takes the context under hold and stops it. -/
theorem exec_halt_idle (hidle : s.preg p .dstate ≠ 1) : exec (.halt p) s = .next
    (((s.modPart p (fun x => { x with held := dedup (s.preg p .dctx :: x.held) })).stopContext p (s.preg p .dctx) 1
      (Config.debugValue s.stepNo 1 % 4) (Config.debugValue s.stepNo 2 % 2 ^ 57)).dbEnd p 0) := by
  rw [exec_halt, execHalt, ite_idle hidle]
  rfl

/-- The state after HALT, piece by piece; which values BPIDX and DPC take is open. -/
theorem exec_halt_spec (hidle : s.preg p .dstate ≠ 1) : ∃ t, exec (.halt p) s = .next t ∧
    t = { s with parts := t.parts, regs := t.regs, warps := t.warps } ∧
    t.part p = { s.part p with held := dedup (s.preg p .dctx :: (s.part p).held),
                               running := (s.part p).running.filter (· != s.preg p .dctx) } ∧
    (∀ n, n ≠ p → t.part n = s.part n) ∧
    (∃ idx pc, ∀ q, t.reg q = if q = .p p .dresult then 0 else if q = .p p .dstate then 2 else
      if q = .p p .dpc then pc else if q = .p p .dbpIdx then idx else if q = .p p .dstop then 1 else s.reg q) ∧
    ∀ u, kget t.warps u = (kget s.warps u).map (skipIf s.who p (s.preg p .dctx) u) := by
  have hex := exec_halt_idle hidle
  obtain ⟨s1, hs1⟩ : ∃ s1, s1 = s.modPart p (fun x => { x with held := dedup (s.preg p .dctx :: x.held) }) := ⟨_, rfl⟩
  have hframe : s1 = { s with parts := s1.parts } := by rw [hs1]; exact modPart_frame ..
  have hparts : ∀ n, n ≠ p → s1.part n = s.part n := fun n hn => by rw [hs1, part_modPart, if_neg hn]
  have hreg : ∀ q, s1.reg q = s.reg q := fun q => by rw [hs1, reg_modPart]
  rw [← hs1] at hex
  generalize Config.debugValue s.stepNo 1 % 4 = idx at hex
  generalize Config.debugValue s.stepNo 2 % 2 ^ 57 = pc at hex
  obtain ⟨P, R, W, hstop, hP, hR, hW⟩ := stop_spec s1 p (s.preg p .dctx) 1 idx pc
  rw [hstop] at hex
  refine ⟨_, hex, by rw [hframe]; rfl, (hP p).trans ?_, fun n hn => (hP n).trans ?_, ⟨idx, pc, fun q => (reg_dbEnd _ p 0 q).trans ?_⟩,
    fun u => (hW u).trans ?_⟩
  · rw [if_pos rfl, hs1, part_modPart_self]
  · rw [if_neg hn, hparts n hn]
  · rw [← hreg, ← hR]
    rfl
  · rw [hs1]
    rfl

theorem execHalt_holds (hidle : s.preg p .dstate ≠ 1) :
    ∃ t, exec (.halt p) s = .next t ∧ t = { s with parts := t.parts, regs := t.regs, warps := t.warps } ∧
      t.part p = { s.part p with held := (t.part p).held, running := (t.part p).running } ∧ (∀ n, n ≠ p → t.part n = s.part n) ∧
      (∀ c, c ∈ (t.part p).held ↔ c = s.preg p .dctx ∨ c ∈ (s.part p).held) ∧
      (∀ c, c ∈ (t.part p).running ↔ c ∈ (s.part p).running ∧ c ≠ s.preg p .dctx) ∧
      t.preg p .dstate = 2 ∧ t.preg p .dresult = 0 ∧ t.preg p .dstop = 1 ∧
      (∀ r, r ∉ [Reg.p p .dstate, .p p .dresult, .p p .dstop, .p p .dbpIdx, .p p .dpc] → t.reg r = s.reg r) ∧
      (∀ u, kget t.warps u = (kget s.warps u).map (fun w => if (s.who u).any (fun q => q.part == p && q.ctx == s.preg p .dctx) then
        { w with frontier := w.frontier.map (fun e => { e with bpSkip := true }) } else w)) ∧
      ∀ u w q, q.part = p → q.ctx = s.preg p .dctx → (∀ e ∈ (s.part p).stepping, e.1 ≠ u) → t.mayIssue u w q = false := by
  obtain ⟨t, hex, hframe, hpart, hparts, ⟨idx, pc, hreg⟩, hwarps⟩ := exec_halt_spec hidle
  have hheld : ∀ c, c ∈ (t.part p).held ↔ c = s.preg p .dctx ∨ c ∈ (s.part p).held := fun c => by
    rw [hpart, dedup_mem, List.mem_cons]
  have hrun : ∀ c, c ∈ (t.part p).running ↔ c ∈ (s.part p).running ∧ c ≠ s.preg p .dctx := fun c => by
    rw [hpart, List.mem_filter, bne_iff_ne]
  refine ⟨t, hex, hframe, by rw [hpart], hparts, hheld, hrun, (hreg _).trans (by simp), (hreg _).trans (by simp), (hreg _).trans (by simp),
    fun r hr => ?_, hwarps, fun u w q hp hc hstep => ?_⟩
  · simp only [List.mem_cons, List.not_mem_nil, or_false, not_or] at hr
    obtain ⟨hstate, hresult, hwhy, hidx, hpc⟩ := hr
    rw [hreg, if_neg hresult, if_neg hstate, if_neg hpc, if_neg hidx, if_neg hwhy]
  · refine mayIssue_held ?_ ?_ ?_
    · rw [hp, hc, List.contains_iff_mem]
      exact (hheld _).2 (.inl rfl)
    · rw [hp, hc, Bool.eq_false_iff, Ne, List.contains_iff_mem]
      exact fun h => ((hrun _).1 h).2 rfl
    · rw [hp, hpart, List.any_eq_false]
      exact fun e he => by simpa using hstep e he

theorem execResume_runs (hidle : s.preg p .dstate ≠ 1) (hheld : s.preg p .dctx ∈ (s.part p).held) :
    ∃ t, exec (.resume p) s = .next t ∧ t = { s with parts := t.parts, regs := t.regs } ∧ (∀ n, n ≠ p → t.part n = s.part n) ∧
      t.part p = { s.part p with running := (t.part p).running } ∧
      (∀ c, c ∈ (t.part p).running ↔ c = s.preg p .dctx ∨ c ∈ (s.part p).running) ∧
      ∀ r, t.reg r = if r = .p p .dresult then 0 else if r = .p p .dstate then 2 else s.reg r := by
  obtain ⟨s1, hs1⟩ : ∃ s1, s1 = s.modPart p (fun x => { x with running := dedup (s.preg p .dctx :: x.running) }) := ⟨_, rfl⟩
  have hex : exec (.resume p) s = .next (s1.dbEnd p 0) := by
    rw [exec_resume, execResume, ite_idle hidle, if_pos (dbHeld_iff.2 hheld), hs1]
  have hpart : (s1.dbEnd p 0).part p = { s.part p with running := dedup (s.preg p .dctx :: (s.part p).running) } := by
    rw [part_dbEnd, hs1, part_modPart_self]
  refine ⟨_, hex, by rw [hs1]; rfl, fun n hn => ?_, by rw [hpart], fun c => by rw [hpart, dedup_mem, List.mem_cons], fun r => ?_⟩
  · rw [part_dbEnd, hs1, part_modPart, if_neg hn]
  · rw [reg_dbEnd, hs1, reg_modPart]

theorem execRelease_frees (hidle : s.preg p .dstate ≠ 1) :
    ∃ t, exec (.release p) s = .next t ∧ t = { s with parts := t.parts, regs := t.regs } ∧ (∀ n, n ≠ p → t.part n = s.part n) ∧
      t.part p = { s.part p with held := (t.part p).held, running := (t.part p).running } ∧
      (∀ c, c ∈ (t.part p).held ↔ c ∈ (s.part p).held ∧ c ≠ s.preg p .dctx) ∧
      ∀ r, t.reg r = if r = .p p .dresult then 0 else if r = .p p .dstate then 2 else s.reg r := by
  obtain ⟨s1, hs1⟩ : ∃ s1, s1 = s.modPart p (fun x =>
    { x with held := x.held.filter (· != s.preg p .dctx), running := x.running.filter (· != s.preg p .dctx) }) := ⟨_, rfl⟩
  have hex : exec (.release p) s = .next (s1.dbEnd p 0) := by
    rw [exec_release, execRelease, ite_idle hidle, hs1]
  have hpart : (s1.dbEnd p 0).part p =
      { s.part p with held := (s.part p).held.filter (· != s.preg p .dctx), running := (s.part p).running.filter (· != s.preg p .dctx) } := by
    rw [part_dbEnd, hs1, part_modPart_self]
  refine ⟨_, hex, by rw [hs1]; rfl, fun n hn => ?_, by rw [hpart], fun c => by rw [hpart, List.mem_filter, bne_iff_ne], fun r => ?_⟩
  · rw [part_dbEnd, hs1, part_modPart, if_neg hn]
  · rw [reg_dbEnd, hs1, reg_modPart]

/-- Each command that wants a hold ends with NOTHELD. -/
theorem exec_notHeld (hidle : s.preg p .dstate ≠ 1) (hfree : s.preg p .dctx ∉ (s.part p).held) {n : Nat} {i : Instr}
    (hi : i ∈ [Instr.step p, .stepall p, .snap p n, .poke p]) : exec i s = .next (s.dbEnd p 4) := by
  simp only [List.mem_cons, List.not_mem_nil, or_false] at hi
  rcases hi with rfl | rfl | rfl | rfl
  · rw [exec_step, execStep, ite_idle hidle, ite_notHeld hfree]
  · rw [exec_stepall, execStepall, ite_idle hidle, ite_notHeld hfree]
  · rw [exec_snap, execSnap, ite_open hidle, ite_notHeld hfree]
  · rw [exec_poke, execPoke, ite_idle hidle, ite_notHeld hfree]

/-- The entries that a STEP, or with `all` a STEPALL, of a warp is to issue. -/
def stepEntries (all : Bool) (u : Nat) (w : Warp) : List (Nat × Nat × Mask) :=
  if all then (w.frontier.filter Entry.isReady).map (fun e => (u, e.pc.toNat, e.mask))
  else (headOf w.frontier).toList.map (fun e => (u, e.pc.toNat, 0))

/-- The issues with which it does so. -/
def stepChoices (all : Bool) (u : Nat) (w : Warp) : List Choice :=
  if all then (stepEntries all u w).map (fun e => .issueAt u e.2.1) else [.issue u]

/-- STEP and STEPALL start a step of the warp that DWARP names. -/
theorem exec_step_held (hidle : s.preg p .dstate ≠ 1) (hheld : s.preg p .dctx ∈ (s.part p).held) {u : Nat} {w : Warp}
    (hwarp : s.dbWarp p = some (u, w)) (all : Bool) : exec (if all then .stepall p else .step p) s =
      .next (s.startStep p (if all then 4 else 3) u (stepEntries all u w) (stepChoices all u w)) := by
  cases all with
  | true =>
    rw [if_pos rfl, exec_stepall, execStepall, ite_idle hidle, ite_held hheld, hwarp]
    rfl
  | false =>
    rw [if_neg Bool.false_ne_true, exec_step, execStep, ite_idle hidle, ite_held hheld, hwarp]
    dsimp only [stepChoices, stepEntries]
    cases headOf w.frontier <;> rfl

theorem execStep_starts (hidle : s.preg p .dstate ≠ 1) (hheld : s.preg p .dctx ∈ (s.part p).held) {u : Nat} {w : Warp} {q : Who}
    (hwarp : s.dbWarp p = some (u, w)) (hwho : s.who u = some q) (all : Bool) {s1 : State}
    (hs1 : s1 = s.modPart p (fun x => { x with stepping := stepEntries all u w, running := x.running.filter (· != s.preg p .dctx) }))
    (hsome : stepEntries all u w ≠ []) (hmay : s1.mayIssue u w q = true) :
    ∃ t, exec (if all then .stepall p else .step p) s = .next t ∧ t = { s1 with regs := t.regs, agenda := t.agenda } ∧
      t.agenda = stepChoices all u w ++ s.agenda ∧
      ∀ r, t.reg r = if r = .p p .dstate then 1 else if r = .p p .dcmd then (if all then 4 else 3) else if r = .p p .dseq then 0 else s.reg r := by
  obtain ⟨hstart, -⟩ := startStep_spec s p (if all then 4 else 3) u (stepEntries all u w) (stepChoices all u w) w q (dbWarp_get hwarp) hwho
  obtain ⟨c, hc⟩ : ∃ c, c = if all then 4 else 3 := ⟨_, rfl⟩
  have hex := exec_step_held hidle hheld hwarp all
  rw [← hc] at hstart hex ⊢
  rw [← hs1] at hstart
  obtain ⟨R, hR⟩ : ∃ R, s1.dbRun p c 0 = { s1 with regs := R } := ⟨_, dbRun_frame ..⟩
  have hreg : ∀ r, State.reg { s1 with regs := R } r =
      if r = .p p .dseq then 0 else if r = .p p .dcmd then c else if r = .p p .dstate then 1 else s.reg r := fun r => by
    rw [← hR, reg_dbRun, hs1, reg_modPart]
  rw [hstart hsome hmay, hR] at hex
  refine ⟨_, hex, rfl, rfl, fun r => ?_⟩
  refine (hreg r).trans ?_
  by_cases hseq : r = .p p .dseq
  · subst hseq
    simp
  · rw [if_neg hseq, if_neg hseq]
    by_cases hcmd : r = .p p .dcmd
    · subst hcmd
      simp
    · rw [if_neg hcmd, if_neg hcmd]

theorem execStep_noReady (hidle : s.preg p .dstate ≠ 1) (hheld : s.preg p .dctx ∈ (s.part p).held) {u : Nat} {w : Warp} {q : Who}
    (hwarp : s.dbWarp p = some (u, w)) (hwho : s.who u = some q) (all : Bool) {s1 : State}
    (hs1 : s1 = s.modPart p (fun x => { x with stepping := stepEntries all u w, running := x.running.filter (· != s.preg p .dctx) }))
    (hnone : stepEntries all u w = [] ∨ s1.mayIssue u w q = false) :
    exec (if all then .stepall p else .step p) s = .next (s.dbEnd p 3) := by
  obtain ⟨-, hstart⟩ := startStep_spec s p (if all then 4 else 3) u (stepEntries all u w) (stepChoices all u w) w q (dbWarp_get hwarp) hwho
  subst hs1
  exact (exec_step_held hidle hheld hwarp all).trans (congrArg _ (hstart hnone))

end

end Sys2Proof.Machine
end

section
namespace Sys2Proof.Machine

/-! ### Images of a block that stays on its core (R308, R309, R314) -/

section
variable {s : State} {p blk : Nat} {b : Block} {l : Launch}

theorem onlyMem_dbEnd (s : State) (p r : Nat) : OnlyMem s (s.dbEnd p r) := rfl

theorem hNat_dbEnd (s : State) (p r a n : Nat) : (s.dbEnd p r).hNat a n = s.hNat a n := hNat_congr (s := s) (t := s.dbEnd p r) rfl a n

/-- SNAP, once its block and launch are found, with the sequence number of its own request. -/
theorem exec_snap_block (hidle : s.preg p .dstate ≠ 1) (hheld : s.preg p .dctx ∈ (s.part p).held) (hblk : s.dbBlock p = some (blk, b))
    (hl : kget s.launches b.launch = some l) (n : Nat) : exec (.snap p n) s =
      .next (if !s.imagePlace p l.ctx (s.preg p .daddr) (l.lr.imageSize b.tiles.length) then s.dbEnd p 5
        else if b.units.all s.unitQuiet && s.betweenPasses blk then (s.writeImage b l 2 n (s.preg p .daddr)).dbEnd p 0
        else s.dbRun p 5 n) := by
  rw [exec_snap, execSnap, ite_open hidle, ite_held hheld, hblk]
  dsimp only
  rw [hl, ite_idle hidle]

theorem execSnap_badPlace (hidle : s.preg p .dstate ≠ 1) (hheld : s.preg p .dctx ∈ (s.part p).held) (hblk : s.dbBlock p = some (blk, b))
    (hl : kget s.launches b.launch = some l) (n : Nat)
    (hplace : s.imagePlace p l.ctx (s.preg p .daddr) (l.lr.imageSize b.tiles.length) = false) :
    exec (.snap p n) s = .next (s.dbEnd p 5) := by
  rw [exec_snap_block hidle hheld hblk hl, hplace]
  rfl

theorem execSnap_writes (hidle : s.preg p .dstate ≠ 1) (hheld : s.preg p .dctx ∈ (s.part p).held) (hblk : s.dbBlock p = some (blk, b))
    (hl : kget s.launches b.launch = some l) (n : Nat)
    (hplace : s.imagePlace p l.ctx (s.preg p .daddr) (l.lr.imageSize b.tiles.length) = true)
    (hquiet : b.units.all s.unitQuiet = true) (hbetween : s.betweenPasses blk = true) :
    ∃ t, exec (.snap p n) s = .next t ∧
      t = { s with mem := t.mem, launches := t.launches, regs := t.regs, cores := t.cores, tlb := t.tlb, rc := t.rc, ms := t.ms, out := t.out } ∧
      t.preg p .dstate = 2 ∧ t.preg p .dresult = 0 ∧
      t.hNat (s.preg p .daddr + l.lr.imageSize b.tiles.length - 8) 8 = completeOf n := by
  have hframe : OnlyMem s (s.writeImage b l 2 n (s.preg p .daddr)) := writeImage_frame ..
  have hcomplete := writeImage_complete s b l 2 n (s.preg p .daddr)
  have hex := exec_snap_block hidle hheld hblk hl n
  rw [hplace, Bool.not_true, if_neg Bool.false_ne_true, hquiet, hbetween, Bool.and_self, if_pos rfl] at hex
  generalize s.writeImage b l 2 n (s.preg p .daddr) = s1 at hex hframe hcomplete
  exact ⟨s1.dbEnd p 0, hex, hframe.trans (onlyMem_dbEnd s1 p 0), (reg_dbEnd ..).trans (by simp), (reg_dbEnd ..).trans (by simp),
    (hNat_dbEnd s1 p 0 _ _).trans hcomplete⟩

/-- The units of a block, each with the place of its section in an image. -/
def pokeSections (b : Block) (l : Launch) (at_ : Nat) : List (Nat × Nat) :=
  ((List.range b.warps.length).zip b.warps).map (fun x => (x.2, at_ + l.lr.warpAt x.1)) ++
    b.tctx.toList.map (fun u => (u, at_ + l.lr.tileAt))

/-- POKE into a block without a tile context. -/
theorem exec_poke_block (hidle : s.preg p .dstate ≠ 1) (hheld : s.preg p .dctx ∈ (s.part p).held) (hblk : s.dbBlock p = some (blk, b))
    (hl : kget s.launches b.launch = some l) (htile : b.tctx = none) : exec (.poke p) s =
      .next (if !s.imagePlace p l.ctx (s.preg p .daddr) (l.lr.imageSize 0) ||
          (pokeSections b l (s.preg p .daddr)).any (fun a => !s.pokeOk a.1 a.2) then s.dbEnd p 5
        else (((List.range b.warps.length).zip b.warps).foldl (fun st x =>
          st.pokeUnit l x.2 (s.preg p .daddr + l.lr.warpAt x.1) (l.lr.budgets.getD x.1 32) 64 256) s).dbEnd p 0) := by
  rw [exec_poke, execPoke, ite_idle hidle, ite_held hheld, hblk]
  dsimp only
  unfold pokeSections
  rw [hl, htile]

theorem pokeOk_eq {u : Nat} {w : Warp} (hw : kget s.warps u = some w) (at_ : Nat) : s.pokeOk u at_ =
    (masksOk w.live ((s.rawFrontier at_).map (·.2)) 0 && (!w.tile || ((s.rawFrontier at_).map (·.2)).all (· == 1))) := by
  unfold State.pokeOk
  rw [hw]

theorem execPoke_badMask (hidle : s.preg p .dstate ≠ 1) (hheld : s.preg p .dctx ∈ (s.part p).held) (hblk : s.dbBlock p = some (blk, b))
    (hl : kget s.launches b.launch = some l) (htile : b.tctx = none) {k u : Nat} {w : Warp} (hu : b.warps[k]? = some u)
    (hw : kget s.warps u = some w)
    (hbad : masksOk w.live ((s.rawFrontier (s.preg p .daddr + l.lr.warpAt k)).map (·.2)) 0 = false) :
    exec (.poke p) s = .next (s.dbEnd p 5) := by
  rw [exec_poke_block hidle hheld hblk hl htile]
  obtain ⟨hk, hat⟩ := List.getElem?_eq_some_iff.1 hu
  have hsec : (u, s.preg p .daddr + l.lr.warpAt k) ∈ pokeSections b l (s.preg p .daddr) :=
    List.mem_append_left _ (List.mem_map.2 ⟨(k, u), by rw [← hat]; exact mem_zip_range b.warps k hk, rfl⟩)
  have hany : (pokeSections b l (s.preg p .daddr)).any (fun a => !s.pokeOk a.1 a.2) = true :=
    List.any_eq_true.2 ⟨_, hsec, by rw [pokeOk_eq hw, hbad]; rfl⟩
  rw [hany, Bool.or_true, if_pos rfl]

/-- The entry that POKE makes of a saved one: an entry that stands as the image has it keeps its state. -/
def State.pokeEntry (s : State) (l : Launch) (w x : Warp) (handler : Bool) (e : Nat × Nat) : Entry :=
  let n := s.resumeEntry l.part l.ctx x handler e.1 e.2
  (w.frontier.find? (fun y => y.pc == n.pc && y.mask == n.mask && !y.isReady)).getD n

/-- A warp as POKE leaves it. -/
def State.poked (s : State) (l : Launch) (w : Warp) (at_ nregs lanes stride : Nat) : Warp :=
  let x := s.loadRegs w at_ nregs lanes stride
  { x with frontier := ((s.rawFrontier at_).map (s.pokeEntry l w x (s.hNat (at_ + 0x40C) 4 % 2 == 1))).foldl (fun fr e => fInsert e fr) [],
           hlanes := BitVec.ofNat 64 (s.hNat (at_ + 0x448) 8), lin := [], haz := [], turn := none }

theorem pokeUnit_eq (s : State) (l : Launch) (u at_ nregs lanes stride : Nat) :
    s.pokeUnit l u at_ nregs lanes stride = s.modWarp u (fun w => s.poked l w at_ nregs lanes stride) := rfl

/-- A word of a saved frontier without a state bit is the PC of a ready entry. -/
theorem resumeEntry_ready (s : State) (p ctx : Nat) (x : Warp) (handler : Bool) {v : Nat} (hv : v % 4 = 0) (mask : Nat) :
    s.resumeEntry p ctx x handler v mask =
      { pc := BitVec.ofNat 64 (v % top57), mask := BitVec.ofNat 64 mask, st := .ready, stamp := 0, bpSkip := false,
        next := BitVec.ofNat 64 (v % top57) } := by
  have hpark : ¬ v % 2 = 1 := by omega
  have hwait : ¬ v / 2 % 2 = 1 := by omega
  have hpc : v / 4 * 4 = v := by omega
  unfold State.resumeEntry
  dsimp only
  rw [if_neg hpark, if_neg hwait, hpc]

theorem pokeEntry_place (s : State) (l : Launch) (w x : Warp) (handler : Bool) {e : Nat × Nat} (he : e.1 % 4 = 0) :
    (s.pokeEntry l w x handler e).pc = BitVec.ofNat 64 (e.1 % top57) ∧ (s.pokeEntry l w x handler e).mask = BitVec.ofNat 64 e.2 := by
  unfold State.pokeEntry
  rw [resumeEntry_ready s l.part l.ctx x handler he]
  dsimp only
  cases hfind : w.frontier.find? _ with
  | none => exact ⟨rfl, rfl⟩
  | some y =>
    have hy := List.find?_some hfind
    simp only [Bool.and_eq_true, beq_iff_eq] at hy
    exact hy.1

/-- The lanes of a saved entry without a state bit stand at its PC. -/
theorem poked_stands (s : State) (l : Launch) (w : Warp) (at_ nregs lanes stride : Nat) {e : Nat × Nat} (he : e ∈ s.rawFrontier at_)
    (hpc : e.1 % 4 = 0) {i : Nat} (hlane : e.2.testBit i = true) (hi : i < 64) :
    ∃ q, (s.poked l w at_ nregs lanes stride).stands i (BitVec.ofNat 64 (e.1 % top57)) q := by
  obtain ⟨x, hx⟩ : ∃ x, x = s.loadRegs w at_ nregs lanes stride := ⟨_, rfl⟩
  obtain ⟨handler, hh⟩ : ∃ handler, handler = (s.hNat (at_ + 0x40C) 4 % 2 == 1) := ⟨_, rfl⟩
  obtain ⟨hplace, hmask⟩ := pokeEntry_place s l w x handler hpc
  have hfr : (s.poked l w at_ nregs lanes stride).frontier =
      ((s.rawFrontier at_).map (s.pokeEntry l w x handler)).foldl (fun fr e => fInsert e fr) [] := by
    rw [hx, hh]
    rfl
  refine ⟨(s.pokeEntry l w x handler e).st, ?_⟩
  unfold Warp.stands
  rw [hfr]
  refine (fold_insert _ [] i _ _).2 (.inr ⟨_, List.mem_map_of_mem he, ?_, hplace, rfl⟩)
  rw [hmask, BitVec.getLsbD_ofNat, hlane]
  simpa using hi

theorem execPoke_loads (hidle : s.preg p .dstate ≠ 1) (hheld : s.preg p .dctx ∈ (s.part p).held) (hblk : s.dbBlock p = some (blk, b))
    (hl : kget s.launches b.launch = some l) (htile : b.tctx = none) {u : Nat} {w : Warp} (hus : b.warps = [u]) (hw : kget s.warps u = some w)
    (hwarp : w.tile = false) (hplace : s.imagePlace p l.ctx (s.preg p .daddr) (l.lr.imageSize 0) = true)
    (hmasks : masksOk w.live ((s.rawFrontier (s.preg p .daddr + l.lr.warpAt 0)).map (·.2)) 0 = true) :
    ∃ t, exec (.poke p) s = .next t ∧ t = { s with warps := t.warps, regs := t.regs } ∧
      kget t.warps u = some (s.poked l w (s.preg p .daddr + l.lr.warpAt 0) (l.lr.budgets.getD 0 32) 64 256) ∧
      (∀ v, v ≠ u → kget t.warps v = kget s.warps v) ∧
      ∀ r, t.reg r = if r = .p p .dresult then 0 else if r = .p p .dstate then 2 else s.reg r := by
  have hex := exec_poke_block hidle hheld hblk hl htile
  have hok : s.pokeOk u (s.preg p .daddr + l.lr.warpAt 0) = true := by rw [pokeOk_eq hw, hmasks, hwarp]; rfl
  have hzip : (List.range b.warps.length).zip b.warps = [(0, u)] := by rw [hus]; rfl
  have hany : (pokeSections b l (s.preg p .daddr)).any (fun a => !s.pokeOk a.1 a.2) = false := by
    unfold pokeSections
    rw [hzip, htile]
    simp [hok]
  rw [hplace, hany, hzip, List.foldl_cons, List.foldl_nil, pokeUnit_eq] at hex
  refine ⟨_, hex, rfl, (kget_kmod_self s.warps u _).trans ?_, fun v hv => kget_kmod_ne s.warps _ hv, fun r => reg_dbEnd _ p 0 r⟩
  rw [hw]
  rfl

end

end Sys2Proof.Machine
end

section
namespace Sys2Proof.Machine

/-! ### Pre-emption of a block (R310) -/

section
variable {s : State} {p blk n : Nat} {b : Block} {l : Launch}

/-- PREEMPT, once its block and launch are found. -/
theorem exec_preempt_block (hidle : s.preg p .dstate ≠ 1) (hblk : s.dbBlock p = some (blk, b)) (hl : kget s.launches b.launch = some l)
    (hplace : s.imagePlace p l.ctx (s.preg p .daddr) (l.lr.imageSize b.tiles.length) = true) : exec (.preempt p n) s =
      .next (if b.preempt && s.saveReady blk b then (s.saveBlock blk b 1 n (s.preg p .daddr)).dbEnd p 0
        else (s.askPreempt blk).dbRun p 7 n) := by
  rw [exec_preempt, execPreempt, ite_open hidle, hblk]
  dsimp only
  rw [hl, ite_idle hidle]
  dsimp only
  rw [hplace, Bool.not_true, if_neg Bool.false_ne_true]

theorem execPreempt_asks (hidle : s.preg p .dstate ≠ 1) (hblk : s.dbBlock p = some (blk, b)) (hb : kget s.blocks blk = some b)
    (hl : kget s.launches b.launch = some l) (hplace : s.imagePlace p l.ctx (s.preg p .daddr) (l.lr.imageSize b.tiles.length) = true)
    (hfirst : b.preempt = false) :
    ∃ t b', exec (.preempt p n) s = .next t ∧ t = { s with blocks := t.blocks, regs := t.regs } ∧
      kget t.blocks blk = some b' ∧ b' = { b with preempt := true, preemptAt := s.timebase } ∧
      (∀ k, k ≠ blk → kget t.blocks k = kget s.blocks k) ∧ t.preg p .dstate = 1 ∧ t.preg p .dcmd = 7 ∧ t.preg p .dseq = n := by
  have hex := exec_preempt_block (n := n) hidle hblk hl hplace
  rw [hfirst, Bool.false_and, if_neg Bool.false_ne_true] at hex
  refine ⟨_, _, hex, rfl, (kget_kmod_self s.blocks blk _).trans ?_, rfl, fun k hk => kget_kmod_ne s.blocks _ hk,
    (reg_dbRun ..).trans (by simp), (reg_dbRun ..).trans (by simp), (reg_dbRun ..).trans (by simp)⟩
  rw [hb, Option.map_some, hfirst]
  rfl

theorem execPreempt_saves (hidle : s.preg p .dstate ≠ 1) (hblk : s.dbBlock p = some (blk, b)) (hl : kget s.launches b.launch = some l)
    (hplace : s.imagePlace p l.ctx (s.preg p .daddr) (l.lr.imageSize b.tiles.length) = true)
    (hpending : b.preempt = true) (hready : s.saveReady blk b = true) :
    ∃ t l', exec (.preempt p n) s = .next t ∧ kget t.blocks blk = none ∧
      (∀ u ∈ b.units, ∀ w, (u, w) ∉ t.warps) ∧ (∀ x ∈ s.warps, x.1 ∉ b.units → x ∈ t.warps) ∧ (∀ k, k ≠ blk → kget t.blocks k = kget s.blocks k) ∧
      kget t.launches b.launch = some l' ∧ (∃ k, kget l'.saved b.bid = some k ∧ k.blk = blk ∧ k.us = b.warps ∧ k.tctx = b.tctx) ∧
      t.preg p .dstate = 2 ∧ t.preg p .dresult = 0 ∧
      t.hNat (s.preg p .daddr + l.lr.imageSize (s.keepTiles b).tiles.length - 8) 8 = completeOf n := by
  have hex := exec_preempt_block (n := n) hidle hblk hl hplace
  rw [hpending, hready, Bool.and_self, if_pos rfl] at hex
  obtain ⟨x, hx, hgone, hothers, hunits, hwarps, ⟨l', hl', hsaved⟩, hcomplete, -⟩ := saveBlock_spec s blk b l 1 n (s.preg p .daddr) hl
  rw [hx] at hex
  exact ⟨x.dbEnd p 0, l', hex, hgone, hunits, hwarps, hothers, hl', hsaved, (reg_dbEnd ..).trans (by simp), (reg_dbEnd ..).trans (by simp),
    (hNat_dbEnd x p 0 _ _).trans hcomplete⟩

end

end Sys2Proof.Machine
end

section
namespace Sys2Proof.Machine

/-! ### Restoring a block (R311) -/

section
variable {s : State} {p at_ : Nat}

theorem exec_restore_idle (hidle : s.preg p .dstate ≠ 1) : exec (.restore p) s =
    .next ((s.restoreImage false p (s.preg p .daddr)).1.dbEnd p (s.restoreImage false p (s.preg p .daddr)).2) := by
  rw [exec_restore, execRestore, ite_idle hidle]

/-- A restore that fails leaves everything but the status. -/
theorem execRestore_fails (hidle : s.preg p .dstate ≠ 1) (hfail : (s.restoreImage false p (s.preg p .daddr)).2 ≠ 0) :
    exec (.restore p) s = .next (s.dbEnd p (s.restoreImage false p (s.preg p .daddr)).2) := by
  rw [exec_restore_idle hidle, restoreImage_fail s false p _ hfail]

theorem restoreImage_badImage (own : Bool) (hbad : s.imageOk p at_ (s.header at_) = false) : (s.restoreImage own p at_).2 = 5 := by
  unfold State.restoreImage
  dsimp only
  rw [hbad]
  rfl

/-- A whole image of a launch that is here goes on with that launch. -/
theorem restoreImage_launch (own : Bool) {lid : Nat} {l : Launch} (hok : s.imageOk p at_ (s.header at_) = true)
    (hl : s.launchOf p (s.header at_) = some (lid, l)) :
    s.restoreImage own p at_ = ((s.restoreInto own lid l at_ (s.header at_)).1.getD s, (s.restoreInto own lid l at_ (s.header at_)).2) := by
  unfold State.restoreImage
  dsimp only
  rw [hok, Bool.not_true, if_neg Bool.false_ne_true, hl]

theorem restoreInto_order (own : Bool) (lid : Nat) {l : Launch} {h : Header} (hlower : ∃ x ∈ l.saved, x.1 < h.bid) :
    (s.restoreInto own lid l at_ h).2 = 2 := by
  have hany : l.saved.any (fun b => decide (b.1 < h.bid)) = true := List.any_eq_true.2 (by simpa using hlower)
  unfold State.restoreInto
  rw [hany, if_pos rfl]

/-- No saved block has a lower number than the image's. -/
theorem noneLower {l : Launch} {h : Header} (hfirst : ∀ x ∈ l.saved, h.bid ≤ x.1) : l.saved.any (fun b => decide (b.1 < h.bid)) = false :=
  List.any_eq_false.2 fun x hx => by simpa using hfirst x hx

theorem restoreInto_capacity (own : Bool) (lid : Nat) {l : Launch} {h : Header} (hfirst : ∀ x ∈ l.saved, h.bid ≤ x.1)
    (hcore : s.restoreCore own lid l h = none) : (s.restoreInto own lid l at_ h).2 = 1 := by
  unfold State.restoreInto
  rw [noneLower hfirst, if_neg Bool.false_ne_true, hcore]

/-- A block that is saved here has its area still. -/
theorem restoreArea_kept {lid bid : Nat} {l : Launch} {a : Area} {k : SavedBlk} (hl : kget s.launches lid = some l)
    (hk : kget l.saved bid = some k) (ha : l.areas.find? (fun a => a.bid == some bid) = some a) : s.restoreArea lid bid = some (s, a) := by
  unfold State.restoreArea
  rw [hl, Option.bind_some, hk, Option.isSome_some, if_pos rfl, ha]

/-- A launch after one of its blocks has come back. -/
def Launch.restored (l : Launch) (bid core : Nat) : Launch := { l.bindDie bid core with saved := kdel l.saved bid }

/-- Binding a die leaves what the restore would otherwise count. -/
theorem bindDie_counts (l : Launch) (bid core : Nat) :
    { l.bindDie bid core with saved := kdel l.saved bid, retired := l.retired, units := l.units } = l.restored bid core := by
  unfold Launch.restored Launch.bindDie
  split
  · rfl
  · split <;> rfl

/-- A block that is saved here and fits takes its place, with the identities it had. -/
theorem restoreInto_placed (own : Bool) {lid core : Nat} {l : Launch} {h : Header} {a : Area} {k : SavedBlk}
    (hfirst : ∀ x ∈ l.saved, h.bid ≤ x.1) (hcore : s.restoreCore own lid l h = some core) (hl : kget s.launches lid = some l)
    (ha : l.areas.find? (fun a => a.bid == some h.bid) = some a) (hk : kget l.saved h.bid = some k)
    (hsame : kget (s.loadImage lid l at_ h core a k).launches lid = some l) :
    ∃ t, s.restoreInto own lid l at_ h = (some t, 0) ∧
      t = { s.loadImage lid l at_ h core a k with launches := t.launches } ∧ kget t.launches lid = some (l.restored h.bid core) := by
  have hid : s.identities l h.bid = (k, s) := by
    unfold State.identities
    rw [hk]
  have hplaced : s.restoreInto own lid l at_ h = (some ((s.loadImage lid l at_ h core a k).modLaunch lid (fun x =>
      { x.bindDie h.bid core with saved := kdel x.saved h.bid, retired := x.retired, units := x.units })), 0) := by
    unfold State.restoreInto
    rw [noneLower hfirst, if_neg Bool.false_ne_true, hcore, restoreArea_kept hl hk ha]
    dsimp only
    rw [hid, hk]
    rfl
  refine ⟨_, hplaced, rfl, (kget_kmod_self _ lid _).trans ?_⟩
  rw [hsame, Option.map_some, bindDie_counts]

end

/-! ### Loading an image (R311, R312) -/

section
variable {s : State}

/-- The tile context of a restored block takes its section. -/
def State.loadTile (s : State) (l : Launch) (core at_ : Nat) (k : SavedBlk) : State :=
  match k.tctx with
  | some u => (s.loadUnit l core u (at_ + l.lr.tileAt) 128 1 4).modWarp u (fun w =>
      { w with passFaults := k.passFaults, written := (List.range 128).map (fun r => (r, true)) })
  | none => s

theorem loadTile_frame (s : State) (l : Launch) (core at_ : Nat) (k : SavedBlk) :
    ∃ ws cs xs, s.loadTile l core at_ k = { s with warps := ws, cores := cs, txs := xs } := by
  unfold State.loadTile
  split
  · next u _ =>
    obtain ⟨⟨ws, cs, xs, h⟩, -⟩ := loadUnit_spec s l core u (at_ + l.lr.tileAt) 128 1 4
    rw [h]
    exact ⟨_, cs, xs, rfl⟩
  · exact ⟨s.warps, s.cores, s.txs, rfl⟩

theorem loadTile_others (s : State) (l : Launch) (core at_ : Nat) (k : SavedBlk) {v : Nat} (hv : v ≠ k.tctx.getD 0) :
    kget (s.loadTile l core at_ k).warps v = kget s.warps v := by
  unfold State.loadTile
  split
  · next u hu =>
    have hne : v ≠ u := by simpa [hu] using hv
    obtain ⟨-, hothers, -⟩ := loadUnit_spec s l core u (at_ + l.lr.tileAt) 128 1 4
    exact (kget_kmod_ne _ _ hne).trans (hothers v hne)
  · rfl

/-- The blocks of `t` are those of `s`, but for the tiles of one. -/
def TilesOnly (s t : State) (blk : Nat) : Prop :=
  (∃ bs, t = { s with blocks := bs }) ∧ (∀ v, v ≠ blk → kget t.blocks v = kget s.blocks v) ∧
    ∀ b, kget s.blocks blk = some b → ∃ ts, kget t.blocks blk = some { b with tiles := ts }

/-- Any changes to the tiles of one block, one after another. -/
theorem tilesOnly_foldl {α : Type} (blk : Nat) (f : α → KMap Tile → KMap Tile) (xs : List α) (s : State) :
    TilesOnly s (xs.foldl (fun st x => st.modBlock blk (fun b => { b with tiles := f x b.tiles })) s) blk := by
  induction xs generalizing s with
  | nil => exact ⟨⟨s.blocks, rfl⟩, fun _ _ => rfl, fun b hb => ⟨b.tiles, hb⟩⟩
  | cons x xs ih =>
    obtain ⟨⟨bs, hframe⟩, hothers, htiles⟩ := ih (s.modBlock blk (fun b => { b with tiles := f x b.tiles }))
    rw [List.foldl_cons]
    refine ⟨⟨bs, hframe.trans rfl⟩, fun v hv => (hothers v hv).trans (kget_kmod_ne s.blocks _ hv), fun b hb => ?_⟩
    obtain ⟨ts, hts⟩ := htiles { b with tiles := f x b.tiles } ((kget_kmod_self s.blocks blk _).trans (by rw [hb]; rfl))
    exact ⟨ts, hts⟩

/-- Commands that move change the engines, and the tiles of their block. -/
theorem moveCmds_spec (s : State) (blk cl : Nat) : ∃ ms, TilesOnly { s with mengs := ms } (s.moveCmds blk cl) blk := by
  unfold State.moveCmds
  dsimp only
  exact ⟨_, tilesOnly_foldl blk (fun (k : MCmd) ts => k.tiles.foldl (fun m i => kmod m i (fun y => { y with freeing := true })) ts) _ _⟩

/-- What an image puts into a block leaves its identity and its units. -/
theorem loadBlock_shell (s : State) (l : Launch) (base : Nat) (b : Block) :
    (s.loadBlock l base b).launch = b.launch ∧ (s.loadBlock l base b).bid = b.bid ∧ (s.loadBlock l base b).core = b.core ∧
      (s.loadBlock l base b).warps = b.warps := by
  unfold State.loadBlock
  dsimp only
  split <;> exact ⟨rfl, rfl, rfl, rfl⟩

/-- The state in which a restored block has its place and its units what their sections hold. -/
def State.placeUnits (s : State) (lid : Nat) (l : Launch) (at_ : Nat) (h : Header) (core : Nat) (a : Area) (k : SavedBlk) : State :=
  (((List.range k.us.length).zip k.us).foldl (fun st x =>
    st.loadUnit l core x.2 (at_ + l.lr.warpAt x.1) (l.lr.budgets.getD x.1 32) 64 256)
    (s.putBlock lid h.bid core k.blk k.us (k.tctx.getD 0) a)).loadTile l core at_ k

theorem loadImage_eq (s : State) (lid : Nat) (l : Launch) (at_ : Nat) (h : Header) (core : Nat) (a : Area) (k : SavedBlk) :
    s.loadImage lid l at_ h core a k = (let t := s.placeUnits lid l at_ h core a k
      (t.modBlock k.blk (fun b => t.loadBlock l at_ b)).moveCmds k.blk (core / 4)) := rfl

section
variable {lid : Nat} {l : Launch} (at_ : Nat) (h : Header) (core : Nat) (a : Area) {k : SavedBlk}

/-- The block stands on its core with the identities given, its warps without lineage. -/
theorem placeUnits_spec (hl : kget s.launches lid = some l) (hnodup : k.us.Nodup) (hlen : k.us.length = l.lr.blockWarps)
    (htile : k.tctx.getD 0 ∉ k.us) :
    let t := s.placeUnits lid l at_ h core a k
    (∃ b, kget t.blocks k.blk = some b ∧ b.launch = lid ∧ b.bid = h.bid ∧ b.core = core ∧ b.warps = k.us) ∧
      (∀ v, v ≠ k.blk → kget t.blocks v = kget s.blocks v) ∧
      (∀ j, (hj : j < k.us.length) → ∃ w, kget t.warps k.us[j] = some w ∧ w.lin = [] ∧ w.blk = k.blk ∧ w.wid = j) ∧
      t.launches = s.launches := by
  obtain ⟨⟨ws, bs, cs, hput⟩, ⟨b, hb, hlaunch, hbid, hcore, -, -, -, -, -, hus, -⟩, hinit, -, hothers, -⟩ :=
    putBlock_spec s lid h.bid core k.blk k.us (k.tctx.getD 0) a l hl hnodup hlen htile
  unfold State.placeUnits
  generalize s.putBlock lid h.bid core k.blk k.us (k.tctx.getD 0) a = s1 at hput hb hinit hothers
  obtain ⟨⟨ws2, cs2, xs2, hload⟩, -, hloaded⟩ := loadUnits_spec l core 0 (fun j => at_ + l.lr.warpAt j) (fun j => l.lr.budgets.getD j 32) 64 256
    ((List.range k.us.length).zip k.us) (by rw [zip_range_snd]; exact hnodup) s1
  generalize List.foldl _ s1 ((List.range k.us.length).zip k.us) = s2 at hload hloaded
  obtain ⟨ws3, cs3, xs3, hlast⟩ := loadTile_frame s2 l core at_ k
  have hblocks : (s2.loadTile l core at_ k).blocks = s1.blocks := by rw [hlast, hload]
  have hlaunches : (s2.loadTile l core at_ k).launches = s.launches := by rw [hlast, hload, hput]
  refine ⟨⟨b, (congrArg (kget · k.blk) hblocks).trans hb, hlaunch, hbid, hcore, hus⟩,
    fun v hv => (congrArg (kget · v) hblocks).trans (hothers v hv), fun j hj => ?_, hlaunches⟩
  obtain ⟨slot, q, hfresh⟩ := hinit j hj
  obtain ⟨w, hw, hlin, hblk, hwid⟩ := hloaded _ (mem_zip_range k.us j hj) _ hfresh
  have hne : k.us[j] ≠ k.tctx.getD 0 := fun heq => htile (heq ▸ List.getElem_mem hj)
  exact ⟨w, (loadTile_others s2 l core at_ k hne).trans hw, hlin, hblk, hwid⟩

theorem loadImage_spec (hl : kget s.launches lid = some l) (hnodup : k.us.Nodup) (hlen : k.us.length = l.lr.blockWarps)
    (htile : k.tctx.getD 0 ∉ k.us) :
    let t := s.loadImage lid l at_ h core a k
    (∃ b, kget t.blocks k.blk = some b ∧ b.launch = lid ∧ b.bid = h.bid ∧ b.core = core ∧ b.warps = k.us) ∧
      (∀ v, v ≠ k.blk → kget t.blocks v = kget s.blocks v) ∧
      (∀ j, (hj : j < k.us.length) → ∃ w, kget t.warps k.us[j] = some w ∧ w.lin = [] ∧ w.blk = k.blk ∧ w.wid = j) ∧
      t.launches = s.launches := by
  obtain ⟨⟨b, hb, hlaunch, hbid, hcore, hus⟩, hothers, hunits, hlaunches⟩ := placeUnits_spec at_ h core a hl hnodup hlen htile
  rw [loadImage_eq]
  generalize s.placeUnits lid l at_ h core a k = s1 at hb hothers hunits hlaunches
  obtain ⟨ms, ⟨bs, hframe⟩, hothers2, htiles⟩ := moveCmds_spec (s1.modBlock k.blk (fun b => s1.loadBlock l at_ b)) k.blk (core / 4)
  obtain ⟨ts, hb2⟩ := htiles (s1.loadBlock l at_ b) ((kget_kmod_self s1.blocks k.blk _).trans (by rw [hb]; rfl))
  obtain ⟨hlaunch2, hbid2, hcore2, hus2⟩ := loadBlock_shell s1 l at_ b
  refine ⟨⟨_, hb2, hlaunch2.trans hlaunch, hbid2.trans hbid, hcore2.trans hcore, hus2.trans hus⟩,
    fun v hv => (hothers2 v hv).trans ((kget_kmod_ne s1.blocks _ hv).trans (hothers v hv)), fun j hj => ?_, ?_⟩
  · rw [hframe]
    exact hunits j hj
  · rw [hframe]
    exact hlaunches

end

theorem restoreImage_places {p at_ lid core : Nat} {l : Launch} {a : Area} {k : SavedBlk}
    (hok : s.imageOk p at_ (s.header at_) = true) (hof : s.launchOf p (s.header at_) = some (lid, l))
    (hfirst : ∀ x ∈ l.saved, (s.header at_).bid ≤ x.1) (hcore : s.restoreCore false lid l (s.header at_) = some core)
    (hl : kget s.launches lid = some l) (ha : l.areas.find? (fun a => a.bid == some (s.header at_).bid) = some a)
    (hk : kget l.saved (s.header at_).bid = some k) (hnodup : k.us.Nodup) (hlen : k.us.length = l.lr.blockWarps)
    (htile : k.tctx.getD 0 ∉ k.us) :
    ∃ t b, s.restoreImage false p at_ = (t, 0) ∧ kget t.blocks k.blk = some b ∧ b.launch = lid ∧ b.bid = (s.header at_).bid ∧ b.core = core ∧
      b.warps = k.us ∧ (∀ v, v ≠ k.blk → kget t.blocks v = kget s.blocks v) ∧
      (∀ j, (hj : j < k.us.length) → ∃ w, kget t.warps k.us[j] = some w ∧ w.lin = [] ∧ w.blk = k.blk ∧ w.wid = j) ∧
      kget t.launches lid = some (l.restored (s.header at_).bid core) := by
  obtain ⟨⟨b, hb, hlaunch, hbid, hbcore, hbwarps⟩, hothers, hwarps, hlaunches⟩ :=
    loadImage_spec at_ (s.header at_) core a hl hnodup hlen htile
  obtain ⟨t, hinto, hframe, hl'⟩ := restoreInto_placed (at_ := at_) false hfirst hcore hl ha hk (by rw [hlaunches]; exact hl)
  have himage : s.restoreImage false p at_ = (t, 0) := by
    rw [restoreImage_launch false hok hof, hinto]
    rfl
  generalize s.loadImage lid l at_ (s.header at_) core a k = s1 at hb hothers hwarps hframe
  have hblocks : t.blocks = s1.blocks := by rw [hframe]
  have hunits : t.warps = s1.warps := by rw [hframe]
  rw [← hblocks] at hb hothers
  rw [← hunits] at hwarps
  exact ⟨t, b, himage, hb, hlaunch, hbid, hbcore, hbwarps, hothers, hwarps, hl'⟩

end

/-- Settles O48. The model's choices are the values that nothing states, such as DPC and BPIDX after HALT (log 18), DADDR as a physical
address of the partition, with BADIMAGE where its context may not put an image (log 56), that a step ends the running of a RESUMEd
context (log 76), and that POKE asks for no COMPLETE (log 77). -/
theorem debugEvents : Obligations.DebugEvents := by
  refine ⟨fun _ _ hidle => execHalt_holds hidle, fun _ _ hidle hheld => execResume_runs hidle hheld, fun _ _ hidle => execRelease_frees hidle,
    fun s p _ _ hi hidle hfree => ⟨_, exec_notHeld hidle hfree hi, regsSet_dbEnd s p 4⟩,
    fun s p _ _ _ all hidle hheld hwarp hwho => ⟨fun hsome hmay => execStep_starts hidle hheld hwarp hwho all rfl hsome hmay,
      fun hnone => ⟨_, execStep_noReady hidle hheld hwarp hwho all rfl hnone, regsSet_dbEnd s p 3⟩⟩,
    fun s p n _ _ _ hidle hheld hblk hl => ⟨fun hplace => ⟨_, execSnap_badPlace hidle hheld hblk hl n hplace, regsSet_dbEnd s p 5⟩,
      fun hplace hquiet hbetween => execSnap_writes hidle hheld hblk hl n hplace hquiet hbetween⟩,
    fun s p _ b l hidle hheld hblk hl htile => ⟨fun ⟨_, _, _, hu, hw, hbad⟩ =>
      ⟨_, execPoke_badMask hidle hheld hblk hl htile hu hw hbad, regsSet_dbEnd s p 5⟩, fun u w hus hw hwarp hplace hmasks => ?_⟩,
    fun _ _ _ _ _ _ hidle hblk hb hl hplace => ⟨fun hfirst => execPreempt_asks hidle hblk hb hl hplace hfirst,
      fun hpending hready => execPreempt_saves hidle hblk hl hplace hpending hready⟩,
    fun s p hidle => ⟨fun hfail => ⟨_, execRestore_fails hidle hfail, regsSet_dbEnd s p _⟩, fun hdone => ?_⟩,
    fun _ _ _ hbad => restoreImage_badImage false hbad,
    fun s p at_ lid l hok hof => ⟨fun hlower => ?_, fun hfirst hcore => ?_, fun core a k hfirst hcore hl ha hk hnodup hlen htile => ?_⟩⟩
  · obtain ⟨t, hex, hframe, hwarp', hothers, hregs⟩ := execPoke_loads hidle hheld hblk hl htile hus hw hwarp hplace hmasks
    exact ⟨t, _, hex, hframe, hwarp', hothers, rfl, fun e he hpc i hlane hi => poked_stands s l w _ _ 64 256 he hpc hlane hi, hregs⟩
  · exact ⟨_, exec_restore_idle hidle, dbEnd_frame .., fun q => by rw [reg_dbEnd, hdone]⟩
  · rw [restoreImage_launch false hok hof]
    exact restoreInto_order false lid hlower
  · rw [restoreImage_launch false hok hof]
    exact restoreInto_capacity false lid hfirst hcore
  · obtain ⟨t, b, himage, hb, hlaunch, hbid, hbcore, hbwarps, hothers, hwarps, hl'⟩ :=
      restoreImage_places hok hof hfirst hcore hl ha hk hnodup hlen htile
    exact ⟨t, b, himage, hb, hlaunch, hbid, hbcore, hbwarps, hothers, hwarps, _, hl', rfl⟩

end Sys2Proof.Machine
end

section
/-! The statements of power, clocks and heat (chapter 20). -/

namespace Sys2Proof.Machine

/-! ### Rails (R341, R343) -/

theorem at_falls {x : Rail} {mv now : Nat} (h : x.target ≤ mv) :
    x.at_ mv now = max x.target (mv - (now - x.holdTill.getD x.since) / 1000) := if_pos h

theorem at_rises {x : Rail} {mv now : Nat} (h : mv ≤ x.target) :
    x.at_ mv now = min x.target (mv + (now - x.holdTill.getD x.since) / 1000) := by
  rcases h.lt_or_eq with hlt | heq
  · exact if_neg (Nat.not_le.2 hlt)
  · rw [at_falls heq.ge, heq]
    omega

/-- A rail's voltage rests on its register, its movement and the time. -/
theorem railMv_congr {s t : State} (hmv : ∀ k, t.dreg (.railMv k) = s.dreg (.railMv k)) (hrails : t.power.rails = s.power.rails)
    (htime : t.timebase = s.timebase) (d r : Nat) : t.railMv d r = s.railMv d r := by
  unfold State.railMv State.rail
  rw [hmv, hrails, htime]

theorem regsRails_of_moved {s t : State} (h : RailsMoved s t) : RegsRails s t [] := ⟨h.only, h.regs, h.volts⟩

section
variable {s : State} {d r : Nat}

theorem railMv_slews (s : State) (d r : Nat) :
    (∀ h, (s.rail d r).holdTill = some h → (s.rail d r).target ≤ s.dreg (.railMv (5 * d + r)) →
      s.railMv d r = max (s.rail d r).target (s.dreg (.railMv (5 * d + r)) - (s.timebase - h) / 1000)) ∧
    ((s.rail d r).holdTill = none → (s.rail d r).target ≤ s.dreg (.railMv (5 * d + r)) →
      s.railMv d r = max (s.rail d r).target (s.dreg (.railMv (5 * d + r)) - (s.timebase - (s.rail d r).since) / 1000)) ∧
    ((s.rail d r).holdTill = none → s.dreg (.railMv (5 * d + r)) ≤ (s.rail d r).target →
      s.railMv d r = min (s.rail d r).target (s.dreg (.railMv (5 * d + r)) + (s.timebase - (s.rail d r).since) / 1000)) := by
  refine ⟨fun h hhold hle => (at_falls hle).trans ?_, fun hhold hle => (at_falls hle).trans ?_, fun hhold hle => (at_rises hle).trans ?_⟩
  · rw [hhold]
    rfl
  · rw [hhold]
    rfl
  · rw [hhold]
    rfl

theorem execOpvote_votes (s : State) (p op : Nat) : ∃ t, exec (.opvote p op) s = .next t ∧ RegsRails s t [(.p p .opVote, op % 8)] ∧
    ∀ d r, d < 4 → r < 4 → t.rail d r = ((s.setPreg p .opVote (op % 8)).moveRail d r).rail d r :=
  ⟨_, exec_opvote .., regsRails_move _ s _ (regsSet_setReg ..) (by simp), fun d r => moveRails_rail _ d r⟩

theorem execRailHoldExpiry_slews {h : Nat} (hhold : (s.rail d r).holdTill = some h) (hdue : h ≤ s.timebase) :
    ∃ t, exec (.railHoldExpiry d r) s = .next t ∧ t = { s with power := { s.power with rails := t.power.rails } } ∧
      t.rail d r = { s.rail d r with holdTill := none, since := h } ∧
      ∀ d' r', 5 * d' + r' ≠ 5 * d + r → t.rail d' r' = s.rail d' r' := by
  have hex : exec (.railHoldExpiry d r) s = .next (s.setRail d r { s.rail d r with holdTill := none, since := h }) := by
    rw [exec_railHoldExpiry, execRailHoldExpiry, hhold, Option.any_some, decide_eq_true hdue]
    rfl
  exact ⟨_, hex, rfl, by rw [rail_setRail, if_pos rfl], fun d' r' hne => by rw [rail_setRail, if_neg hne]⟩

theorem execRailVoltageReached_stands (hv : s.railMv d r = (s.rail d r).target) :
    ∃ t, exec (.railVoltageReached d r) s = .next t ∧ RegsRails s t [] ∧ t.dreg (.railMv (5 * d + r)) = (s.rail d r).target ∧
      t.rail d r = ⟨(s.rail d r).target, none, s.timebase⟩ ∧
      ∀ d' r', 5 * d' + r' ≠ 5 * d + r → t.rail d' r' = s.rail d' r' ∧ t.dreg (.railMv (5 * d' + r')) = s.dreg (.railMv (5 * d' + r')) := by
  have hex : exec (.railVoltageReached d r) s = .next (s.startRail d r ⟨(s.rail d r).target, none, s.timebase⟩) :=
    congrArg _ (if_pos hv)
  refine ⟨_, hex, regsRails_of_moved (startRail_moved s d r _ (Nat.le_refl _)), ?_, by rw [rail_startRail, if_pos rfl],
    fun d' r' hne => ⟨by rw [rail_startRail, if_neg hne], reg_setReg_ne s _ (by simpa [railKey] using hne)⟩⟩
  exact (reg_setReg_self s (.d (.railMv (railKey d r))) _).trans hv

end

/-! ### Clocks (R334, R335, R338) -/

section
variable {s : State} {cl : Nat}

theorem clusterOp_held (hhold : s.power.holdPoint = true) : s.clusterOp cl = 0 := if_pos hhold

theorem clusterOp_votes {p : Nat} (hfree : s.power.holdPoint = false) (howner : s.clusterOwner cl = some p) :
    let want := min (s.preg p .opVote) (min (s.dreg (.thCap (cl / 48))) (s.dreg .pwrCap))
    (opMv want ≤ s.railMv (cl / 48) (cl % 48 / 12) → s.clusterOp cl = want) ∧
    (s.railMv (cl / 48) (cl % 48 / 12) < opMv want → s.clusterOp cl = min want (s.runsOp cl)) := by
  intro want
  have hop : s.clusterOp cl = if opMv want ≤ s.railMv (cl / 48) (cl % 48 / 12) then want else min want (s.runsOp cl) := by
    unfold State.clusterOp
    rw [hfree, howner]
    rfl
  exact ⟨fun hle => hop.trans (if_pos hle), fun hlt => hop.trans (if_neg (Nat.not_le.2 hlt))⟩

theorem execClockSwitch_switches (hdue : ¬ (sget 1 s.power.effRatio cl = s.reg (.ratio cl) ∧ sget 7 s.power.effOp cl = s.clusterOp cl)) :
    ∃ t, exec (.clockSwitch cl) s = .next t ∧
      t = { s with power := { s.power with effRatio := t.power.effRatio, effOp := t.power.effOp }, warps := t.warps } ∧
      (∀ k, sget 1 t.power.effRatio k = if k = cl then s.reg (.ratio cl) else sget 1 s.power.effRatio k) ∧
      (∀ k, sget 7 t.power.effOp k = if k = cl then s.clusterOp cl else sget 7 s.power.effOp k) ∧
      ∀ u, kget t.warps u = (kget s.warps u).map (fun w => if (kget s.blocks w.blk).any (fun b => b.core / 4 == cl) then
        w.reclock s.timebase (s.clusterMhz cl) (t.clusterMhz cl) else w) := by
  refine ⟨_, congrArg Host.Outcome.next (if_neg hdue), rfl, fun k => sget_sset .., fun k => sget_sset .., fun u => ?_⟩
  rw [← kget_map]
  dsimp only
  congr 2
  funext w
  split
  · rfl
  · rfl

end

/-! ### Power and its rationing (R336 to R338, R342) -/

section
variable {s : State}

/-- The power of the module has been measured now. -/
def State.metered (s : State) : State := { s with power := { s.power with powerAt := s.timebase } }

theorem execPowerInterval_due {watts : Nat} (hdue : s.power.powerAt + 1000000 ≤ s.timebase) : exec (.powerInterval watts) s = .next (
    if s.dreg .plimit < watts then
      (if 8 < s.dreg .grants then s.metered.setDreg .grants (max 8 (s.dreg .grants - 4))
        else (s.metered.setDreg .pwrCap (s.dreg .pwrCap - 1)).moveRails)
    else if 100 * watts < 95 * s.dreg .plimit then
      (if s.dreg .pwrCap < 7 then (s.metered.setDreg .pwrCap (s.dreg .pwrCap + 1)).moveRails
        else s.metered.setDreg .grants (min 32 (s.dreg .grants + 4)))
    else s.metered) :=
  congrArg _ (if_pos hdue)

theorem regsRails_setDreg {q : DReg} {v : Nat} (hq : ∀ k, q ≠ .railMv k) : RegsRails s (s.setDreg q v).moveRails [(.d q, v)] :=
  regsRails_move _ s _ (regsSet_setReg ..) (by simpa using hq)

theorem execPowerInterval_rations (watts : Nat) (hdue : s.power.powerAt + 1000000 ≤ s.timebase) :
    (s.dreg .plimit < watts → 8 < s.dreg .grants → ∃ t, exec (.powerInterval watts) s = .next t ∧
      RegsSet s.metered t [(.d .grants, max 8 (s.dreg .grants - 4))]) ∧
    (s.dreg .plimit < watts → s.dreg .grants ≤ 8 → ∃ t, exec (.powerInterval watts) s = .next t ∧
      RegsRails s.metered t [(.d .pwrCap, s.dreg .pwrCap - 1)]) ∧
    (100 * watts < 95 * s.dreg .plimit → s.dreg .pwrCap < 7 → ∃ t, exec (.powerInterval watts) s = .next t ∧
      RegsRails s.metered t [(.d .pwrCap, s.dreg .pwrCap + 1)]) ∧
    (100 * watts < 95 * s.dreg .plimit → 7 ≤ s.dreg .pwrCap → ∃ t, exec (.powerInterval watts) s = .next t ∧
      RegsSet s.metered t [(.d .grants, min 32 (s.dreg .grants + 4))]) ∧
    (watts ≤ s.dreg .plimit → 95 * s.dreg .plimit ≤ 100 * watts → ∃ t, exec (.powerInterval watts) s = .next t ∧ t = s.metered) := by
  have hex := execPowerInterval_due (watts := watts) hdue
  refine ⟨fun hover hg => ⟨_, ?_, regsSet_setReg ..⟩, fun hover hg => ⟨_, ?_, regsRails_setDreg (by simp)⟩,
    fun hlow hc => ⟨_, ?_, regsRails_setDreg (by simp)⟩, fun hlow hc => ⟨_, ?_, regsSet_setReg ..⟩, fun hle hnear => ⟨_, ?_, rfl⟩⟩
  · rw [hex, if_pos hover, if_pos hg]
    rfl
  · rw [hex, if_pos hover, if_neg (Nat.not_lt.2 hg)]
  · rw [hex, if_neg (by omega), if_pos hlow, if_pos hc]
  · rw [hex, if_neg (by omega), if_pos hlow, if_neg (Nat.not_lt.2 hc)]
    rfl
  · rw [hex, if_neg (Nat.not_lt.2 hle), if_neg (Nat.not_lt.2 hnear)]

theorem execDroop_counts {cl : Nat} (hcl : cl < 192) :
    ∃ t, exec (.droop cl) s = .next t ∧ RegsSet s t [(.d .droopCnt, min (s.dreg .droopCnt + 1) (2 ^ 32 - 1))] :=
  ⟨_, congrArg Host.Outcome.next (if_pos hcl), regsSet_setReg ..⟩

theorem execEnergyUpdate_counts {p : Nat} (uj : Nat) (hdue : sget 0 s.power.energyAt p + s.preg p .ePeriod * 1000000 ≤ s.timebase) :
    ∃ t t1, exec (.energyUpdate p uj) s = .next t ∧ RegsSet s t1 [(.p p .energy, (s.preg p .energy + uj) % 2 ^ 64)] ∧
      t = { t1 with power := { s.power with energyAt := kput s.power.energyAt p s.timebase } } :=
  ⟨_, _, congrArg Host.Outcome.next (if_pos hdue), regsSet_setReg .., rfl⟩

/-! ### Brown-out (R338) -/

theorem beginSave_starts (hlen : s.dreg .saveLen ≠ 0) : s.beginSave = { s with power := { s.power with emerg := true, holdPoint := true } } :=
  if_neg hlen

theorem beginSave_disabled (hlen : s.dreg .saveLen = 0) : s.beginSave = s := if_pos hlen

theorem longWarning_long {h : Nat} (hs : s.power.brownSince = some h) (hlong : h + 20000000 ≤ s.timebase) : s.longWarning = s.beginSave :=
  if_pos (by rw [hs, Option.any_some, decide_eq_true hlong])

theorem longWarning_short (hshort : (∀ h, s.power.brownSince = some h → s.timebase < h + 20000000) ∨ s.dreg .saveLen = 0) :
    s.longWarning = s := by
  rcases hshort with hshort | hlen
  · unfold State.longWarning
    cases hs : s.power.brownSince with
    | none => exact if_neg Bool.false_ne_true
    | some h => exact if_neg (by rw [Option.any_some, decide_eq_true_eq]; exact Nat.not_le.2 (hshort h hs))
  · unfold State.longWarning
    rw [beginSave_disabled hlen, ite_self]

theorem execBrownoutWarning_holds (hnew : s.dreg .brownout ≠ 1) : ∃ t t1, exec .brownoutWarning s = .next t ∧ RegsSet s t1 [(.d .brownout, 1)] ∧
    t = { t1 with power := { s.power with holdPoint := true, brownSince := some s.timebase } } :=
  ⟨_, _, congrArg Host.Outcome.next (if_neg hnew), regsSet_setReg .., rfl⟩

theorem execBrownoutClear_returns (hshort : (∀ h, s.power.brownSince = some h → s.timebase < h + 20000000) ∨ s.dreg .saveLen = 0) :
    ∃ t t1, exec .brownoutClear s = .next t ∧ RegsSet s t1 [(.d .brownout, 0)] ∧
      t = { t1 with power := { s.power with holdPoint := s.power.emerg, brownSince := none } } := by
  refine ⟨_, _, ?_, regsSet_setReg s _ _, rfl⟩
  rw [exec_brownoutClear, execBrownoutClear, longWarning_short hshort]
  rfl

theorem execBrownoutClear_saves {h : Nat} (hs : s.power.brownSince = some h) (hlong : h + 20000000 ≤ s.timebase) (hlen : s.dreg .saveLen ≠ 0) :
    ∃ t t1, exec .brownoutClear s = .next t ∧ RegsSet s t1 [(.d .brownout, 0)] ∧
      t = { t1 with power := { s.power with emerg := true, holdPoint := true, brownSince := none } } := by
  refine ⟨_, _, ?_, regsSet_setReg s _ _, rfl⟩
  rw [exec_brownoutClear, execBrownoutClear, longWarning_long hs hlong, beginSave_starts hlen]
  rfl

theorem execBrownoutTimeout_saves {h : Nat} (hs : s.power.brownSince = some h) (hlong : h + 20000000 ≤ s.timebase) :
    ∃ t, exec .brownoutTimeout s = .next t ∧
      t = if s.dreg .saveLen = 0 then s else { s with power := { s.power with emerg := true, holdPoint := true } } :=
  ⟨_, congrArg Host.Outcome.next (longWarning_long hs hlong), rfl⟩

end

/-! ### Heat (R339) -/

section
variable {s : State} {d temp : Nat}

/-- A die's reading and its new cap stand in their registers, the controller has noted the time, and the rails follow. -/
def State.recapped (s : State) (d temp cap : Nat) (w : Power) : State :=
  { (s.setDreg (.temp d) temp).setDreg (.thCap d) cap with power := w }.moveRails

theorem recapped_moves (s : State) (d temp cap : Nat) {w : Power} (hw : w.rails = s.power.rails) :
    (∀ r, (∀ k, r ≠ .d (.railMv k)) →
      (s.recapped d temp cap w).reg r = if r = .d (.thCap d) then cap else if r = .d (.temp d) then temp else s.reg r) ∧
    (∀ d' r, (s.recapped d temp cap w).railMv d' r = s.railMv d' r) ∧
    s.recapped d temp cap w =
      { s with regs := (s.recapped d temp cap w).regs, power := { w with rails := (s.recapped d temp cap w).power.rails } } := by
  have hmoved : RailsMoved { (s.setDreg (.temp d) temp).setDreg (.thCap d) cap with power := w } (s.recapped d temp cap w) := moveRails_moved _
  generalize s.recapped d temp cap w = t at hmoved ⊢
  obtain ⟨hsame, hregs, hvolts⟩ := hmoved
  have hset : ∀ r, ((s.setDreg (.temp d) temp).setDreg (.thCap d) cap).reg r =
      if r = .d (.thCap d) then cap else if r = .d (.temp d) then temp else s.reg r :=
    fun r => (reg_setReg_if ..).trans (by rw [State.setDreg, reg_setReg_if])
  refine ⟨fun r hr => (hregs r hr).trans (hset r), fun d' r => (hvolts d' r).trans ?_, hsame⟩
  exact railMv_congr (t := { (s.setDreg (.temp d) temp).setDreg (.thCap d) cap with power := w })
    (fun k => (hset _).trans ((if_neg (by simp)).trans (if_neg (by simp)))) hw rfl d' r

/-- At 95 °C and above the cap falls, once a millisecond has passed since it fell last. -/
theorem thermal_lowers (hhot : 95 ≤ temp) (hlt : temp < 256) (hdue : ∀ h, kget s.power.thermAt d = some h → h + 1000000 ≤ s.timebase) :
    s.thermal d temp = s.recapped d temp (s.dreg (.thCap d) - 1)
      { s.power with cool := kdel s.power.cool d, thermAt := kput s.power.thermAt d s.timebase } := by
  have hall : (kget s.power.thermAt d).all (fun t => decide (t + 1000000 ≤ s.timebase)) = true :=
    (Option.all_eq_true _ _).2 fun h hh => decide_eq_true (hdue h hh)
  have hcap : (s.setDreg (.temp d) temp).dreg (.thCap d) = s.dreg (.thCap d) := reg_setReg_ne s temp (by simp)
  rw [← hcap]
  unfold State.thermal
  rw [Nat.mod_eq_of_lt hlt]
  exact (if_pos hhot).trans (if_pos hall)

/-- Before that it stays. -/
theorem thermal_waits (hhot : 95 ≤ temp) (hlt : temp < 256) (hearly : ¬ ∀ h, kget s.power.thermAt d = some h → h + 1000000 ≤ s.timebase) :
    s.thermal d temp = { s.setDreg (.temp d) temp with power := { s.power with cool := kdel s.power.cool d } } := by
  have hall : ¬ (kget s.power.thermAt d).all (fun t => decide (t + 1000000 ≤ s.timebase)) = true :=
    fun hall => hearly fun h hh => of_decide_eq_true ((Option.all_eq_true _ _).1 hall h hh)
  unfold State.thermal
  rw [Nat.mod_eq_of_lt hlt]
  exact (if_pos hhot).trans (if_neg hall)

/-- Below 90 °C for ten seconds the cap rises. -/
theorem thermal_raises {h : Nat} (hcold : temp < 90) (hcool : kget s.power.cool d = some h) (hdue : h + 10000000 ≤ s.timebase) :
    s.thermal d temp = s.recapped d temp (min 7 (s.dreg (.thCap d) + 1)) { s.power with cool := kput s.power.cool d s.timebase } := by
  have hcap : (s.setDreg (.temp d) temp).dreg (.thCap d) = s.dreg (.thCap d) := reg_setReg_ne s temp (by simp)
  rw [← hcap]
  unfold State.thermal
  rw [Nat.mod_eq_of_lt (show temp < 256 by omega)]
  dsimp only
  rw [if_neg (show ¬ 95 ≤ temp by omega), if_pos hcold, setDreg_power, hcool]
  exact if_pos hdue

theorem thermal_cools (hcold : temp < 90) (hcool : kget s.power.cool d = none) :
    s.thermal d temp = { s.setDreg (.temp d) temp with power := { s.power with cool := kput s.power.cool d s.timebase } } := by
  unfold State.thermal
  rw [Nat.mod_eq_of_lt (show temp < 256 by omega)]
  dsimp only
  rw [if_neg (show ¬ 95 ≤ temp by omega), if_pos hcold, setDreg_power, hcool]
  rfl

theorem thermal_between (hwarm : 90 ≤ temp) (hlt : temp < 95) :
    s.thermal d temp = { s.setDreg (.temp d) temp with power := { s.power with cool := kdel s.power.cool d } } := by
  unfold State.thermal
  rw [Nat.mod_eq_of_lt (show temp < 256 by omega)]
  exact (if_neg (Nat.not_le.2 hlt)).trans (if_neg (Nat.not_lt.2 hwarm))

/-- What a reading of 95 °C or more leaves, whether or not the cap falls. -/
theorem thermal_hot (hhot : 95 ≤ temp) (hlt : temp < 256) :
    s.thermal d temp = { s with regs := (s.thermal d temp).regs, power := (s.thermal d temp).power } ∧
    (s.thermal d temp).dreg (.temp d) = temp ∧ (∀ d' r, (s.thermal d temp).railMv d' r = s.railMv d' r) ∧
    ∀ r, r ≠ .d (.temp d) → r ≠ .d (.thCap d) → (∀ k, r ≠ .d (.railMv k)) → (s.thermal d temp).reg r = s.reg r := by
  by_cases hdue : ∀ h, kget s.power.thermAt d = some h → h + 1000000 ≤ s.timebase
  · rw [thermal_lowers hhot hlt hdue]
    obtain ⟨hregs, hvolts, hsame⟩ := recapped_moves s d temp (s.dreg (.thCap d) - 1)
      (w := { s.power with cool := kdel s.power.cool d, thermAt := kput s.power.thermAt d s.timebase }) rfl
    refine ⟨?_, (hregs _ (by simp)).trans (by simp), hvolts, fun r htemp hcap hr => by rw [hregs r hr, if_neg hcap, if_neg htemp]⟩
    rw [hsame]
  · rw [thermal_waits hhot hlt hdue]
    exact ⟨rfl, reg_setReg_self .., railMv_congr (fun k => reg_setReg_ne s temp (by simp)) rfl rfl, fun r htemp _ _ => reg_setReg_ne s temp htemp⟩

theorem reading_below (hd : d < 4) (hlt : temp < 105) : s.reading d temp = s.thermal d temp := by
  unfold State.reading
  rw [if_neg (Nat.not_le.2 hd), if_neg (by omega), if_neg (Nat.not_le.2 hlt)]

theorem reading_critical (hd : d < 4) (hcrit : 105 ≤ temp) (hlt : temp < 115) : s.reading d temp = (s.thermal d temp).beginSave := by
  unfold State.reading
  rw [if_neg (Nat.not_le.2 hd), if_neg (Nat.not_le.2 hlt), if_pos hcrit]

theorem reading_trips (hd : d < 4) (htrip : 115 ≤ temp) : s.reading d temp = s.wipe false := by
  unfold State.reading
  rw [if_neg (Nat.not_le.2 hd), if_pos htrip]

theorem exec_thermalInterval_below (hd : d < 4) (hlt : temp < 105) : exec (.thermalInterval d temp) s = .next (s.thermal d temp) :=
  congrArg Host.Outcome.next (reading_below hd hlt)

theorem execThermal_critical {i : Instr} (hi : i ∈ [Instr.thermalInterval d temp, .thermalCritical d temp]) (hd : d < 4)
    (hcrit : 105 ≤ temp) (hlt : temp < 115) (hlen : s.dreg .saveLen ≠ 0) : ∃ t, exec i s = .next t ∧ t.power.emerg = true ∧
      t.power.holdPoint = true ∧ t = { s with regs := t.regs, power := t.power } ∧ t.dreg (.temp d) = temp ∧
      (∀ d r, t.railMv d r = s.railMv d r) ∧
      ∀ r, r ≠ .d (.temp d) → r ≠ .d (.thCap d) → (∀ k, r ≠ .d (.railMv k)) → t.reg r = s.reg r := by
  obtain ⟨hsame, htemp, hvolts, hregs⟩ := thermal_hot (s := s) (d := d) (show 95 ≤ temp by omega) (show temp < 256 by omega)
  have hsave : (s.thermal d temp).beginSave =
      { s.thermal d temp with power := { (s.thermal d temp).power with emerg := true, holdPoint := true } } :=
    beginSave_starts (by rw [State.dreg, ← State.reg, hregs _ (by simp) (by simp) (by simp)]; exact hlen)
  have hex : exec i s = .next (s.thermal d temp).beginSave := by
    rw [← reading_critical hd hcrit hlt]
    simp only [List.mem_cons, List.not_mem_nil, or_false] at hi
    rcases hi with rfl | rfl
    · rfl
    · exact congrArg Host.Outcome.next (if_pos hcrit)
  rw [hsave] at hex
  refine ⟨_, hex, rfl, rfl, ?_, htemp, hvolts, hregs⟩
  rw [hsame]

theorem execThermal_trips {i : Instr} (hi : i ∈ [Instr.thermalInterval d temp, .thermalCritical d temp, .thermalTrip d temp]) (hd : d < 4)
    (htrip : 115 ≤ temp) : ∃ t, exec i s = .next t ∧ Wiped s t false := by
  have hex : exec i s = .next (s.reading d temp) := by
    simp only [List.mem_cons, List.not_mem_nil, or_false] at hi
    rcases hi with rfl | rfl | rfl
    · rfl
    · exact congrArg Host.Outcome.next (if_pos (by omega))
    · exact congrArg Host.Outcome.next (if_pos htrip)
  rw [reading_trips hd htrip] at hex
  exact ⟨_, hex, wipe_spec s false⟩

end

/-! ### The emergency save (R340) -/

section
variable {s : State}

/-- An emergency save runs. -/
theorem ite_saving {α : Type} (hemerg : s.power.emerg = true) (hruns : s.power.halted = false) (x y : α) :
    (if !s.power.emerg || s.power.halted then x else y) = y := if_neg (by simp [hemerg, hruns])

theorem execEmergencySave_ends (hemerg : s.power.emerg = true) (hruns : s.power.halted = false) (hnone : s.saveOrder = []) :
    ∃ t t1, exec .emergencySave s = .next t ∧ RegsSet s t1 [(.d .saveDone, 1)] ∧ t = { t1 with power := { s.power with halted := true } } := by
  refine ⟨_, _, ?_, regsSet_setReg s _ _, rfl⟩
  rw [exec_emergencySave, execEmergencySave, ite_saving hemerg hruns, hnone]
  rfl

variable {blk : Nat} {b : Block} {r : List (Nat × Block)}

theorem execEmergencySave_asks (hemerg : s.power.emerg = true) (hruns : s.power.halted = false) (horder : s.saveOrder = (blk, b) :: r)
    (hfits : s.power.nextImage + s.sizeOf b ≤ s.dreg .saveLen) : ∃ t, exec .emergencySave s = .next t ∧ t = { s with blocks := t.blocks } ∧
      ∀ k, kget t.blocks k = if k = blk then
        (kget s.blocks k).map (fun b => if b.preempt then b else { b with preempt := true, preemptAt := s.timebase }) else kget s.blocks k := by
  have hex : exec .emergencySave s = .next (s.askPreempt blk) := by
    rw [exec_emergencySave, execEmergencySave, ite_saving hemerg hruns, horder]
    exact congrArg _ (if_pos hfits)
  refine ⟨_, hex, rfl, fun k => ?_⟩
  split
  · next hk => subst hk; exact kget_kmod_self ..
  · next hk => exact kget_kmod_ne _ _ hk

theorem execEmergencySave_skips (hemerg : s.power.emerg = true) (hruns : s.power.halted = false) (horder : s.saveOrder = (blk, b) :: r)
    (hlong : s.dreg .saveLen < s.power.nextImage + s.sizeOf b) :
    ∃ t, exec .emergencySave s = .next t ∧ t = { s with power := { s.power with skipped := blk :: s.power.skipped } } := by
  refine ⟨_, ?_, rfl⟩
  rw [exec_emergencySave, execEmergencySave, ite_saving hemerg hruns, horder]
  exact congrArg _ (if_neg (Nat.not_le.2 hlong))

theorem execEmergencyImageWrite_saves (n : Nat) {l : Launch} (hemerg : s.power.emerg = true) (hruns : s.power.halted = false)
    (horder : s.saveOrder = (blk, b) :: r) (hfits : s.power.nextImage + s.sizeOf b ≤ s.dreg .saveLen) (hpending : b.preempt = true)
    (hready : s.saveReady blk b = true) (hl : kget s.launches b.launch = some l) :
    ∃ t l', exec (.emergencyImageWrite n) s = .next t ∧ kget t.blocks blk = none ∧ (∀ k, k ≠ blk → kget t.blocks k = kget s.blocks k) ∧
      (∀ u ∈ b.units, ∀ w, (u, w) ∉ t.warps) ∧ kget t.launches b.launch = some l' ∧ (kget l'.saved b.bid).isSome = true ∧
      t.power = { s.power with nextImage := s.power.nextImage + s.sizeOf b } ∧
      t.hNat (hostBase + s.dreg .saveBase % hostBase + s.power.nextImage + s.sizeOf b - 8) 8 = completeOf n := by
  obtain ⟨x, hx, hgone, hothers, hunits, -, ⟨l', hl', k, hk, -⟩, hcomplete, hframe⟩ :=
    saveBlock_spec s blk b l 3 n (hostBase + s.dreg .saveBase % hostBase + s.power.nextImage) hl
  have hpower : x.power = s.power := by rw [hframe]
  have hsize : s.sizeOf b = l.lr.imageSize (s.keepTiles b).tiles.length := by
    unfold State.sizeOf
    rw [hl]
    rfl
  have hex : exec (.emergencyImageWrite n) s = .next { x with power := { x.power with nextImage := x.power.nextImage + s.sizeOf b } } := by
    rw [exec_emergencyImageWrite, execEmergencyImageWrite, ite_saving hemerg hruns, horder]
    dsimp only
    rw [hpending, hready, decide_eq_true hfits, if_pos (by decide), hx, hpower]
  refine ⟨_, l', hex, hgone, hothers, hunits, hl', by rw [hk]; rfl, by rw [hpower], ?_⟩
  rw [hsize]
  exact hcomplete

end

/-- Settles O51. The model's choices are a rail without a voter, which asks for OP 0, and a cluster nobody owns, which has no vote
(log 78), RAILMV in whole millivolts (log 79), DROOPCNT, which stops at 2^32 - 1 (log 80), and SAVELEN 0, which disables the emergency
save (log 81). -/
theorem powerEvents : Obligations.PowerEvents := by
  refine ⟨execOpvote_votes, railMv_slews, fun s d r => ⟨fun _ _ => (moveRail_moved s d r).volts _ _, moveRail_spec s d r⟩,
    fun _ _ _ _ hhold hdue => execRailHoldExpiry_slews hhold hdue, fun _ _ _ => execRailVoltageReached_stands,
    fun _ _ hdue => execClockSwitch_switches hdue, fun _ _ => ⟨clusterOp_held, fun hfree _ howner => clusterOp_votes hfree howner⟩,
    fun _ watts hdue => execPowerInterval_rations watts hdue, fun _ _ hcl => execDroop_counts hcl, fun _ hnew => execBrownoutWarning_holds hnew,
    fun _ hshort => execBrownoutClear_returns hshort, fun _ _ hs hlong hlen => execBrownoutClear_saves hs hlong hlen,
    fun _ _ hs hlong => execBrownoutTimeout_saves hs hlong,
    fun s d temp hd htemp => ⟨fun hhot hlt hdue => ⟨_, exec_thermalInterval_below hd hlt, ?_⟩, fun hcold h hcool hdue =>
      ⟨_, exec_thermalInterval_below hd (by omega), ?_⟩, fun hcold hcool => ⟨_, _, exec_thermalInterval_below hd (by omega),
        regsSet_setReg .., thermal_cools hcold hcool⟩, fun hwarm hlt => ⟨_, _, exec_thermalInterval_below hd (by omega),
        regsSet_setReg .., thermal_between hwarm hlt⟩⟩,
    fun _ _ _ _ hi hd hcrit hlt hlen => execThermal_critical hi hd hcrit hlt hlen, fun _ _ _ _ hi hd htrip => execThermal_trips hi hd htrip,
    fun s hemerg hruns => ⟨execEmergencySave_ends hemerg hruns, fun blk b r horder => ⟨execEmergencySave_asks hemerg hruns horder,
      execEmergencySave_skips hemerg hruns horder, fun n l hfits hpending hready hl =>
        execEmergencyImageWrite_saves n hemerg hruns horder hfits hpending hready hl⟩⟩,
    fun _ _ uj hdue => execEnergyUpdate_counts uj hdue⟩
  · rw [thermal_lowers hhot htemp hdue]
    exact recapped_moves s d temp _ rfl
  · rw [thermal_raises hcold hcool hdue]
    exact recapped_moves s d temp _ rfl

end Sys2Proof.Machine
end

section
/-! The statements of the host, fabric and trust (chapter 19): partitions, allocation records, sessions, levels and firmware. -/

namespace Sys2Proof.Machine

/-! ### What changes registers and partitions alone -/

/-- From `s` to `t` registers and partitions alone have changed. -/
def PartsOnly (s t : State) : Prop := t = { s with regs := t.regs, parts := t.parts }

theorem PartsOnly.refl (s : State) : PartsOnly s s := rfl

section
variable {s t : State} (h : PartsOnly s t)
include h

theorem PartsOnly.setPreg (p : Nat) (f : PReg) (v : Nat) : PartsOnly s (t.setPreg p f v) := by
  have hset : t.setPreg p f v = { t with regs := (t.setPreg p f v).regs } := setReg_frame t (.p p f) v
  unfold PartsOnly at h ⊢
  generalize t.setPreg p f v = x at hset ⊢
  generalize x.regs = regs at hset ⊢
  rw [hset, h]

theorem PartsOnly.setPart (p : Nat) (y : Part) : PartsOnly s (t.setPart p y) := by
  have hset : t.setPart p y = { t with parts := (t.setPart p y).parts } := rfl
  unfold PartsOnly at h ⊢
  generalize t.setPart p y = x at hset ⊢
  generalize x.parts = parts at hset ⊢
  rw [hset, h]

theorem PartsOnly.modPart (p : Nat) (f : Part → Part) : PartsOnly s (t.modPart p f) := h.setPart p (f (t.part p))

/-- The rails follow. -/
theorem PartsOnly.rails {x : State} (hmoved : RailsMoved t x) :
    x = { s with regs := x.regs, parts := x.parts, power := { s.power with rails := x.power.rails } } := by
  have hsame := hmoved.only
  unfold PartsOnly at h
  generalize x.regs = regs at hsame ⊢
  generalize x.power.rails = rails at hsame ⊢
  rw [hsame, h]

end

/-! ### Partitions (R323, R330) -/

section
variable {s : State} {p cl gr : Nat}

/-- What CREATE asks: a number nobody has, and units that neither a partition nor the MSP owns, while no self-test runs. -/
def State.mayCreate (s : State) (p cl gr : Nat) : Prop :=
  p < 16 ∧ (s.part p).created = false ∧ (∀ e ∈ s.parts, e.2.clusters &&& cl = 0 ∧ e.2.groups &&& gr = 0) ∧
    gr &&& Config.protectedGroups = 0 ∧ s.dreg .testing ≠ 1 ∧ cl < 2 ^ 192 ∧ gr < 2 ^ 64

theorem createRefused_iff : (decide (16 ≤ p) || (s.part p).created || (gr &&& Config.protectedGroups != 0 ||
      s.parts.any (fun e => e.2.clusters &&& cl != 0 || e.2.groups &&& gr != 0)) || s.dreg .testing == 1 || decide (2 ^ 192 ≤ cl) ||
      decide (2 ^ 64 ≤ gr)) = true ↔ ¬ s.mayCreate p cl gr := by
  rw [State.mayCreate]
  simp only [Bool.or_eq_true, decide_eq_true_eq, bne_iff_ne, beq_iff_eq, List.any_eq_true, not_and_or, not_forall, exists_prop,
    Nat.not_lt, not_not, Bool.not_eq_false, ne_eq]
  grind only

/-- What a partition holds when it is new. -/
def Part.fresh (p cl gr : Nat) : Part :=
  { Part.empty with
    created := true, clusters := cl, groups := gr, spill := ⟨(Config.pool p 0).1, (Config.pool p 0).2⟩,
    privPool := ⟨(Config.pool p 1).1, (Config.pool p 1).2⟩, save := ⟨(Config.pool p 2).1, (Config.pool p 2).2⟩ }

/-- The partition stands in its table, with CONF and ENERGY. -/
def State.withPart (s : State) (p cl gr : Nat) (conf : Bool) (energy : Nat) : State :=
  ((s.setPart p (.fresh p cl gr)).setPreg p .conf (if conf then 1 else 0)).setPreg p .energy (energy % 2 ^ 64)

theorem withPart_only (conf : Bool) (energy : Nat) : PartsOnly s (s.withPart p cl gr conf energy) :=
  (((PartsOnly.refl s).setPart _ _).setPreg _ _ _).setPreg _ _ _

theorem withPart_part (conf : Bool) (energy n : Nat) : (s.withPart p cl gr conf energy).part n = if n = p then .fresh p cl gr else s.part n :=
  (part_setReg ..).trans ((part_setReg ..).trans (part_setPart ..))

theorem withPart_reg (conf : Bool) (energy : Nat) (r : Reg) : (s.withPart p cl gr conf energy).reg r =
    if r = .p p .conf then (if conf then 1 else 0) else if r = .p p .energy then energy % 2 ^ 64 else s.reg r := by
  have hset : (s.withPart p cl gr conf energy).reg r =
      if r = .p p .energy then energy % 2 ^ 64 else if r = .p p .conf then (if conf then 1 else 0) else s.reg r :=
    (reg_setReg_if ..).trans (by rw [State.setPreg, reg_setReg_if]; rfl)
  rw [hset]
  by_cases hconf : r = .p p .conf
  · rw [if_neg (by rw [hconf]; simp), if_pos hconf, if_pos hconf]
  · rw [if_neg hconf, if_neg hconf]

theorem execCreate_makes (hok : s.mayCreate p cl gr) (conf : Bool) (energy : Nat) : ∃ t, exec (.create p cl gr (conf, energy)) s = .next t ∧
    t = { s with regs := t.regs, parts := t.parts, power := { s.power with rails := t.power.rails } } ∧
    (t.part p).created = true ∧ (t.part p).clusters = cl ∧ (t.part p).groups = gr ∧ (t.part p).key = none ∧ (t.part p).allocs = [] ∧
    (∀ n, n ≠ p → t.part n = s.part n) ∧ (∀ d r, t.railMv d r = s.railMv d r) ∧
    ∀ r, (∀ k, r ≠ .d (.railMv k)) →
      t.reg r = if r = .p p .conf then (if conf then 1 else 0) else if r = .p p .energy then energy % 2 ^ 64 else s.reg r := by
  have hex : exec (.create p cl gr (conf, energy)) s = .next (s.withPart p cl gr conf energy).moveRails :=
    congrArg Host.Outcome.next (if_neg fun hrefused => createRefused_iff.1 hrefused hok)
  have hmoved := moveRails_moved (s.withPart p cl gr conf energy)
  generalize (s.withPart p cl gr conf energy).moveRails = t at hex hmoved
  have hframe := (withPart_only conf energy).rails hmoved
  obtain ⟨hsame, hregs, hvolts⟩ := hmoved
  have hpart : ∀ n, t.part n = if n = p then .fresh p cl gr else s.part n := fun n => by rw [hsame]; exact withPart_part conf energy n
  have hself : t.part p = .fresh p cl gr := (hpart p).trans (if_pos rfl)
  have hmv : ∀ k, (s.withPart p cl gr conf energy).dreg (.railMv k) = s.dreg (.railMv k) :=
    fun k => (withPart_reg ..).trans ((if_neg (by simp)).trans (if_neg (by simp)))
  have hpower : (s.withPart p cl gr conf energy).power = s.power ∧ (s.withPart p cl gr conf energy).timebase = s.timebase := by
    rw [withPart_only conf energy]
    exact ⟨rfl, rfl⟩
  exact ⟨t, hex, hframe, by rw [hself]; rfl, by rw [hself]; rfl, by rw [hself]; rfl, by rw [hself]; rfl, by rw [hself]; rfl,
    fun n hn => (hpart n).trans (if_neg hn),
    fun d r => (hvolts d r).trans (railMv_congr hmv (congrArg Power.rails hpower.1) hpower.2 d r),
    fun r hr => (hregs r hr).trans (withPart_reg ..)⟩

theorem execCreate_refuses (hbad : ¬ s.mayCreate p cl gr) (conf : Bool) (energy : Nat) :
    ∃ t, exec (.create p cl gr (conf, energy)) s = .next t ∧ t = s :=
  ⟨_, congrArg Host.Outcome.next (if_pos (createRefused_iff.2 hbad)), rfl⟩

theorem execPartitionRelease_frees (hmade : (s.part p).created = true) : ∃ t, exec (.partitionRelease p) s = .next t ∧ Released s t p :=
  ⟨_, congrArg Host.Outcome.next (if_pos hmade), freePart_spec s p⟩

end

/-! ### Sessions and the heartbeat (R329, R330) -/

section
variable {s : State} {p : Nat}

theorem execSessionBind_device (key : Nat) :
    (s.fw.session = none → ∃ t, exec (.sessionBind 16 key) s = .next t ∧ t = { s with fw := { s.fw with session := some key } }) ∧
    (s.fw.session ≠ none → ∃ t, exec (.sessionBind 16 key) s = .next t ∧ t = s) :=
  ⟨fun hnone => ⟨_, congrArg Host.Outcome.next (if_pos (Option.isNone_iff_eq_none.2 hnone)), rfl⟩,
    fun hsome => ⟨_, congrArg Host.Outcome.next (if_neg (mt Option.isNone_iff_eq_none.1 hsome)), rfl⟩⟩

/-- The partition has a session of the tenant key. -/
def State.bound (s : State) (p key : Nat) : State :=
  ((s.modPart p (fun x => { x with key := some key, lastCtr := 0 })).setPreg p .sstate 1).setPreg p .lastHb s.timebase

theorem bound_only (key : Nat) : PartsOnly s (s.bound p key) := (((PartsOnly.refl s).modPart _ _).setPreg _ _ _).setPreg _ _ _

theorem bound_part (key n : Nat) : (s.bound p key).part n = if n = p then { s.part p with key := some key, lastCtr := 0 } else s.part n :=
  (part_setReg ..).trans ((part_setReg ..).trans (part_modPart ..))

theorem bound_reg (key : Nat) (r : Reg) : (s.bound p key).reg r =
    if r = .p p .lastHb then s.timebase else if r = .p p .sstate then 1 else s.reg r :=
  (reg_setReg_if ..).trans (by rw [State.setPreg, reg_setReg_if, reg_modPart])

theorem execSessionBind_binds (key : Nat) (hp : p ≠ 16) (hmade : (s.part p).created = true) (hnone : s.preg p .sstate = 0) :
    ∃ t, exec (.sessionBind p key) s = .next t ∧ t = { s with regs := t.regs, parts := t.parts } ∧
      t.part p = { s.part p with key := some key, lastCtr := 0 } ∧ (∀ n, n ≠ p → t.part n = s.part n) ∧
      ∀ r, t.reg r = if r = .p p .lastHb then s.timebase else if r = .p p .sstate then 1 else s.reg r := by
  have hex : exec (.sessionBind p key) s = .next (s.bound p key) :=
    congrArg Host.Outcome.next ((if_neg hp).trans (if_pos ⟨hmade, hnone⟩))
  exact ⟨_, hex, bound_only key, (bound_part key p).trans (if_pos rfl), fun n hn => (bound_part key n).trans (if_neg hn), bound_reg key⟩

theorem blocksIn_congr {t : State} (hblocks : t.blocks = s.blocks) (hlaunches : t.launches = s.launches) (p : Nat) :
    t.blocksIn p = s.blocksIn p := by
  unfold State.blocksIn
  rw [hblocks, hlaunches]

theorem blocksIn_single {blk : Nat} {b : Block} (hblocks : s.blocks = [(blk, b)]) (hruns : b.stopped = false)
    (hpart : (kget s.launches b.launch).any (fun l => l.part == p) = true) : s.blocksIn p = [(blk, b)] := by
  unfold State.blocksIn
  rw [hblocks]
  exact List.filter_eq_self.2 fun e he => by rw [List.mem_singleton.1 he, hruns, hpart]; rfl

/-- No block is left to save. -/
theorem lapseSave_idle (hnone : s.blocksIn p = []) : s.lapseSave p = s := by
  unfold State.lapseSave
  rw [hnone]
  rfl

/-- The one block there is cannot be saved yet. -/
theorem lapseSave_waits {blk : Nat} {x : Block} (hone : s.blocksIn p = [(blk, x)]) (hx : kget s.blocks blk = some x)
    (hbusy : s.saveReady blk x = false) : s.lapseSave p = s := by
  unfold State.lapseSave
  rw [hone, List.foldl_cons, List.foldl_nil]
  dsimp only
  rw [hx]
  cases kget s.launches x.launch with
  | none => rfl
  | some l => exact if_neg (by rw [hbusy, Bool.and_false]; exact Bool.false_ne_true)

theorem askPreempt_single {blk : Nat} {b : Block} (hblocks : s.blocks = [(blk, b)]) (hfirst : b.preempt = false) :
    s.askPreempt blk = { s with blocks := [(blk, { b with preempt := true, preemptAt := s.timebase })] } := by
  have hget : kget s.blocks blk = some b := by rw [hblocks]; exact if_pos rfl
  unfold State.askPreempt State.modBlock
  rw [kmod_some _ hget, hfirst, hblocks]
  simp [kput]

/-- The session lapses at L: every block is to be saved. -/
theorem execSessionLapse_due (hbound : s.preg p .sstate = 1) (hdue : s.preg p .lastHb + s.preg p .hbPeriod * 1000000 ≤ s.timebase) :
    exec (.sessionLapse p) s = .next (((s.blocksIn p).foldl (fun st b => st.askPreempt b.1) (s.setPreg p .sstate 2)).lapseSave p) :=
  congrArg Host.Outcome.next (if_pos ⟨hbound, hdue⟩)

theorem execSessionLapse_idle (hbound : s.preg p .sstate = 1) (hdue : s.preg p .lastHb + s.preg p .hbPeriod * 1000000 ≤ s.timebase)
    (hnone : s.blocksIn p = []) : ∃ t, exec (.sessionLapse p) s = .next t ∧ RegsSet s t [(.p p .sstate, 2)] := by
  have hex := execSessionLapse_due hbound hdue
  rw [hnone, List.foldl_nil, lapseSave_idle (s := s.setPreg p .sstate 2) ((blocksIn_congr rfl rfl p).trans hnone)] at hex
  exact ⟨_, hex, regsSet_setReg ..⟩

/-- The session has lapsed while one block stands in the machine. -/
def State.lapsedWith (s : State) (p blk : Nat) (x : Block) : State := { s.setPreg p .sstate 2 with blocks := [(blk, x)] }

theorem execSessionLapse_asks {blk : Nat} {b x : Block} (hbound : s.preg p .sstate = 1)
    (hdue : s.preg p .lastHb + s.preg p .hbPeriod * 1000000 ≤ s.timebase) (hblocks : s.blocks = [(blk, b)]) (hruns : b.stopped = false)
    (hpart : (kget s.launches b.launch).any (fun l => l.part == p) = true) (hfirst : b.preempt = false)
    (hx : x = { b with preempt := true, preemptAt := s.timebase })
    (hbusy : ((s.setPreg p .sstate 2).askPreempt blk).saveReady blk x = false) : ∃ t, exec (.sessionLapse p) s = .next t ∧
      t = { s with regs := t.regs, blocks := [(blk, x)] } ∧ ∀ r, t.reg r = if r = .p p .sstate then 2 else s.reg r := by
  have hask : (s.setPreg p .sstate 2).askPreempt blk = s.lapsedWith p blk x := by
    rw [hx]
    exact askPreempt_single hblocks hfirst
  have hex := execSessionLapse_due hbound hdue
  rw [blocksIn_single hblocks hruns hpart, List.foldl_cons, List.foldl_nil] at hex
  dsimp only at hex
  rw [hask] at hex hbusy
  have hone : (s.lapsedWith p blk x).blocksIn p = [(blk, x)] :=
    blocksIn_single (s := s.lapsedWith p blk x) rfl (by rw [hx]; exact hruns) (by rw [hx]; exact hpart)
  rw [lapseSave_waits hone (if_pos rfl) hbusy] at hex
  exact ⟨_, hex, rfl, fun r => reg_setReg_if s (.p p .sstate) r 2⟩

theorem mayIssue_lapsed {w : Warp} {q : Who} (u : Nat) (hlapsed : 2 ≤ s.sess q.part) (hwarp : w.tile = false) : s.mayIssue u w q = false := by
  unfold State.mayIssue
  dsimp only
  rw [hwarp, decide_eq_false (Nat.not_lt.2 hlapsed)]
  simp

theorem execSessionHalt_idle (hlapsed : s.preg p .sstate = 2)
    (hdue : s.preg p .lastHb + s.preg p .hbPeriod * 1000000 + s.preg p .hbGrace * 1000000 ≤ s.timebase) (hnone : s.blocksIn p = []) :
    ∃ t, exec (.sessionHalt p) s = .next t ∧ RegsSet s t [(.p p .sstate, 3)] := by
  have hex : exec (.sessionHalt p) s = .next (((s.blocksIn p).foldl (fun st b =>
      if st.betweenPasses b.1 then st.modBlock b.1 (fun x => { x with tileStop := true }) else st) (s.setPreg p .sstate 3)).lapseSave p) :=
    congrArg Host.Outcome.next (if_pos (.inl ⟨hlapsed, hdue⟩))
  rw [hnone, List.foldl_nil, lapseSave_idle (s := s.setPreg p .sstate 3) ((blocksIn_congr rfl rfl p).trans hnone)] at hex
  exact ⟨_, hex, regsSet_setReg ..⟩

theorem execSessionScrub_discards (hhalted : s.preg p .sstate = 3)
    (hdue : s.preg p .lastHb + s.preg p .hbPeriod * 1000000 + 1000 * (s.preg p .hbRetain * 1000000) ≤ s.timebase) :
    ∃ t, exec (.sessionScrub p) s = .next t ∧ t = { s with regs := t.regs, ext := t.ext, engines := t.engines } ∧
      (∀ r, t.reg r = if r = .p p .sstate then 4 else s.reg r) ∧ (∀ x, x ∈ t.ext ↔ x ∈ s.ext ∧ x.2.part ≠ p) ∧
      ∀ e ∈ t.engines, (∀ c ∈ e.2.queue, c.part ≠ p) ∧ (∀ c, e.2.run = some c → c.part ≠ p) := by
  refine ⟨_, congrArg Host.Outcome.next (if_pos ⟨hhalted, hdue⟩), rfl, fun r => reg_setReg_if s (.p p .sstate) r 4, fun x => ?_, fun e he => ?_⟩
  · exact List.mem_filter.trans (and_congr_right fun _ => bne_iff_ne)
  · obtain ⟨y, -, rfl⟩ := List.mem_map.1 he
    exact ⟨fun c hc => bne_iff_ne.1 (List.mem_filter.1 hc).2, fun c hc => bne_iff_ne.1 (Option.filter_eq_some_iff.1 hc).2⟩

theorem execSessionScrub_releases (hscrubbed : s.preg p .sstate = 4) : ∃ t, exec (.sessionScrub p) s = .next t ∧ Released s t p :=
  ⟨_, congrArg Host.Outcome.next ((if_neg fun h => by rw [hscrubbed] at h; exact absurd h.1 (by decide)).trans (if_pos hscrubbed)),
    freePart_spec s p⟩

/-- A heartbeat that is in time with a rising counter, or on a new session before the retention window ends. -/
def State.hbInTime (s : State) (p ctr key : Nat) (fresh : Bool) : Prop :=
  (s.part p).key = some key ∧
    ((s.preg p .sstate = 1 ∧ s.timebase < s.preg p .lastHb + s.preg p .hbPeriod * 1000000 ∧ (fresh = true ∨ (s.part p).lastCtr < ctr)) ∨
      (1 ≤ s.preg p .sstate ∧ s.preg p .sstate ≤ 3 ∧ fresh = true ∧
        s.timebase < s.preg p .lastHb + s.preg p .hbPeriod * 1000000 + 1000 * (s.preg p .hbRetain * 1000000)))

theorem hbValid_iff {ctr key : Nat} {fresh : Bool} : s.hbValid p ctr key fresh = true ↔ s.hbInTime p ctr key fresh := by
  unfold State.hbValid State.hbInTime State.lapseAt msNs
  simp only [Bool.and_eq_true, Bool.or_eq_true, decide_eq_true_eq, beq_iff_eq, and_assoc]

/-- The partition's heartbeat has been accepted. -/
def State.beaten (s : State) (p ctr : Nat) : State :=
  ((s.modPart p (fun x => { x with lastCtr := ctr })).setPreg p .lastHb s.timebase).setPreg p .sstate 1

/-- What the ports held of a partition leaves them. -/
def State.sent (s : State) (p : Nat) : KMap ExtReq :=
  s.ext.map (fun e => if e.2.part = p ∧ e.2.held then (e.1, { e.2 with held := false, since := s.timebase }) else e)

theorem sent_free (hfree : ∀ x ∈ s.ext, x.2.part = p → x.2.held = false) : s.sent p = s.ext := by
  refine (List.map_congr_left fun e he => if_neg ?_).trans (List.map_id _)
  rintro ⟨hpart, hheld⟩
  exact Bool.false_ne_true ((hfree e he hpart).symm.trans hheld)

theorem revive_unstopped (hnone : s.blocksIn p = []) :
    s.revive p = State.lapseRestore { s with ext := s.sent p } p (sortByKey (fun e => e.2) (s.part p).lapseSaved) := by
  unfold State.revive
  rw [hnone, List.foldl_nil]
  rfl

/-- A partition of which nothing was stopped, saved or held goes on as it stands. -/
theorem revive_idle (hnone : s.blocksIn p = []) (hsaved : (s.part p).lapseSaved = []) (hfree : ∀ x ∈ s.ext, x.2.part = p → x.2.held = false) :
    s.revive p = s.modPart p (fun y => { y with lapseSaved := [] }) := by
  rw [revive_unstopped hnone, sent_free hfree, hsaved]
  rfl

theorem beaten_only (ctr : Nat) : PartsOnly s (s.beaten p ctr) := (((PartsOnly.refl s).modPart _ _).setPreg _ _ _).setPreg _ _ _

theorem beaten_part (ctr n : Nat) : (s.beaten p ctr).part n = if n = p then { s.part p with lastCtr := ctr } else s.part n :=
  (part_setReg ..).trans ((part_setReg ..).trans (part_modPart ..))

theorem beaten_reg (ctr : Nat) (r : Reg) : (s.beaten p ctr).reg r =
    if r = .p p .sstate then 1 else if r = .p p .lastHb then s.timebase else s.reg r :=
  (reg_setReg_if ..).trans (by rw [State.setPreg, reg_setReg_if, reg_modPart])

/-- Of the beaten partition too nothing was stopped, saved or held. -/
theorem revive_beaten (ctr : Nat) (hnone : s.blocksIn p = []) (hsaved : (s.part p).lapseSaved = [])
    (hfree : ∀ x ∈ s.ext, x.2.part = p → x.2.held = false) :
    (s.beaten p ctr).revive p = (s.beaten p ctr).modPart p (fun y => { y with lapseSaved := [] }) := by
  have hsaved' : ((s.beaten p ctr).part p).lapseSaved = [] := by rw [beaten_part, if_pos rfl]; exact hsaved
  have honly := beaten_only (s := s) (p := p) ctr
  generalize s.beaten p ctr = t at hsaved' honly ⊢
  have hnone' : t.blocksIn p = [] := by rw [honly]; exact hnone
  have hfree' : ∀ x ∈ t.ext, x.2.part = p → x.2.held = false := by rw [honly]; exact hfree
  exact revive_idle hnone' hsaved' hfree'

theorem execHeartbeat_goesOn {ctr key : Nat} {fresh : Bool} (hvalid : s.hbInTime p ctr key fresh)
    (hidle : s.sess p < 2 ∨ (s.blocksIn p = [] ∧ (s.part p).lapseSaved = [] ∧ ∀ x ∈ s.ext, x.2.part = p → x.2.held = false)) :
    ∃ t, exec (.heartbeat p ctr key fresh) s = .next t ∧ t = { s with regs := t.regs, parts := t.parts } ∧
      t.part p = { s.part p with lastCtr := ctr } ∧ (∀ n, n ≠ p → t.part n = s.part n) ∧
      ∀ r, t.reg r = if r = .p p .sstate then 1 else if r = .p p .lastHb then s.timebase else s.reg r := by
  have hex : exec (.heartbeat p ctr key fresh) s = .next (if 2 ≤ s.sess p then (s.beaten p ctr).revive p else s.beaten p ctr) :=
    congrArg Host.Outcome.next (if_pos (hbValid_iff.2 hvalid))
  have hpart : (s.beaten p ctr).part p = { s.part p with lastCtr := ctr } := (beaten_part ctr p).trans (if_pos rfl)
  have hothers : ∀ n, n ≠ p → (s.beaten p ctr).part n = s.part n := fun n hn => (beaten_part ctr n).trans (if_neg hn)
  by_cases hlapsed : 2 ≤ s.sess p
  · obtain ⟨hnone, hsaved, hfree⟩ := hidle.resolve_left (Nat.not_lt.2 hlapsed)
    rw [if_pos hlapsed, revive_beaten ctr hnone hsaved hfree] at hex
    refine ⟨_, hex, (beaten_only ctr).modPart _ _, (part_modPart ..).trans ?_, fun n hn => (part_modPart ..).trans ?_,
      fun r => (reg_modPart ..).trans (beaten_reg ctr r)⟩
    · rw [if_pos rfl, hpart, ← hsaved]
    · rw [if_neg hn, hothers n hn]
  · rw [if_neg hlapsed] at hex
    exact ⟨_, hex, beaten_only ctr, hpart, hothers, beaten_reg ctr⟩

theorem execHeartbeat_errs {ctr key : Nat} {fresh : Bool} (hbad : ¬ s.hbInTime p ctr key fresh) :
    ∃ t, exec (.heartbeat p ctr key fresh) s = .next t ∧ t = { s with out := { s.out with host := s.out.host ++ [(true, [])] } } :=
  ⟨_, congrArg Host.Outcome.next (if_neg (mt hbValid_iff.1 hbad)), rfl⟩

end

/-! ### Measurements and firmware (R331 to R333) -/

section
variable {s : State}

/-- The blocks that an index of GET_MEASUREMENTS asks for. -/
def measurementsAt (i : Nat) : List Nat := if i = 0xFF then [1, 2, 3, 4, 5, 6, 7, 8, 9] else if i = 0xF0 then [] else [i]

theorem execGetMeasurements_answers {i : Nat} (hi : 1 ≤ i ∧ i ≤ 9 ∨ i = 0xF0 ∨ i = 0xFF) : ∃ t, exec (.getMeasurements i) s = .next t ∧
    t = { s with fw := { s.fw with
      replies := s.fw.replies ++ [(i, (measurementsAt i).map s.measurement, s.fw.actseq, s.stagedDigest)] } } := by
  refine ⟨_, ?_, rfl⟩
  rw [exec_getMeasurements, execGetMeasurements]
  rcases hi with hone | rfl | rfl
  · rw [measurementsAt, if_neg (by omega), if_pos hone, if_neg (by omega), if_neg (by omega)]
    rfl
  · rfl
  · rfl

/-- What STAGE asks of an image. -/
def State.mayStage (s : State) (comps vals : List Nat) (digest secver sig : Nat) : Prop :=
  Config.verifies digest sig = true ∧ s.fw.secver ≤ secver ∧ (∀ c ∈ comps, 2 ≤ c ∧ c ≤ 8) ∧ comps ≠ [] ∧
    comps.length = vals.length ∧ s.fw.switching = []

theorem stages_iff {comps vals : List Nat} {digest secver sig : Nat} :
    (Config.verifies digest sig && decide (s.fw.secver ≤ secver) && comps.all (fun c => decide (2 ≤ c ∧ c ≤ 8)) &&
      !comps.isEmpty && comps.length == vals.length && s.fw.switching.isEmpty) = true ↔ s.mayStage comps vals digest secver sig := by
  unfold State.mayStage
  simp only [Bool.and_eq_true, decide_eq_true_eq, List.all_eq_true, Bool.not_eq_true', List.isEmpty_eq_false_iff, beq_iff_eq,
    List.isEmpty_iff, and_assoc]

theorem execStage_stages {comps vals : List Nat} {digest secver sig : Nat} :
    (s.mayStage comps vals digest secver sig → ∃ t, exec (.stage comps vals digest secver sig) s = .next t ∧
      t = { s with fw := { s.fw with staged := some (comps.zip vals, digest, secver) } }) ∧
    (¬ s.mayStage comps vals digest secver sig → ∃ t, exec (.stage comps vals digest secver sig) s = .next t ∧ t = s) :=
  ⟨fun hok => ⟨_, congrArg Host.Outcome.next (if_pos (stages_iff.2 hok)), rfl⟩,
    fun hbad => ⟨_, congrArg Host.Outcome.next (if_neg (mt stages_iff.1 hbad)), rfl⟩⟩

theorem execActivate_orders {x : List (Nat × Nat) × Nat × Nat} (hstaged : s.fw.staged = some x) (hidle : s.fw.switching = []) :
    ∃ t, exec .activate s = .next t ∧ t = { s with fw := { s.fw with switching := t.fw.switching } } ∧
      t.fw.switching = sortByKey (fun (c : Nat × Nat) => if c.1 = 2 then 16 else c.1) x.1 := by
  refine ⟨{ s with fw := { s.fw with switching := sortByKey (fun (c : Nat × Nat) => if c.1 = 2 then 16 else c.1) x.1 } }, ?_, rfl, rfl⟩
  rw [exec_activate, execActivate, hstaged, hidle]
  rfl

theorem execComponentSwitch_switches {c : Nat × Nat} {r : List (Nat × Nat)} (hnext : s.fw.switching = c :: r) :
    ∃ t, exec .componentSwitch s = .next t ∧ t = { s with fw := t.fw } ∧ t.fw.switching = r ∧
      t.fw.actseq = (s.fw.actseq + 1) % 2 ^ 64 ∧ (∀ k, kget t.fw.running k = if k = c.1 then some c.2 else kget s.fw.running k) ∧
      t.fw.staged = (if r = [] then none else s.fw.staged) ∧ t.fw.replies = s.fw.replies := by
  rw [exec_componentSwitch, execComponentSwitch, hnext]
  cases r with
  | nil => exact ⟨_, rfl, rfl, rfl, rfl, fun k => kget_kput .., rfl, rfl⟩
  | cons c' r => exact ⟨_, rfl, rfl, rfl, rfl, fun k => kget_kput .., (if_neg (List.cons_ne_nil _ _)).symm, rfl⟩

end

/-! ### Allocation records (R326) -/

section
variable {s : State} {p : Nat}

/-- Of one more numbers than there are records, one names none. -/
theorem exists_free (x : Part) : ∃ k, k ≤ x.allocs.length ∧ kget x.allocs k = none := by
  by_contra hfull
  push Not at hfull
  have hsub : List.range (x.allocs.length + 1) ⊆ x.allocs.map (·.1) := fun k hk => by
    obtain ⟨v, hv⟩ := Option.ne_none_iff_exists'.1 (hfull k (Nat.lt_succ_iff.1 (List.mem_range.1 hk)))
    exact List.mem_map_of_mem (kget_mem hv)
  have hlen := (List.subperm_of_subset List.nodup_range hsub).length_le
  rw [List.length_range, List.length_map] at hlen
  omega

/-- A new record takes the lowest free index. -/
theorem freeRec_lowest (x : Part) : kget x.allocs x.freeRec = none ∧ ∀ k, k < x.freeRec → kget x.allocs k ≠ none := by
  obtain ⟨k, hk, hfree⟩ := exists_free x
  have hsome : ((List.range (x.allocs.length + 1)).find? (fun k => (kget x.allocs k).isNone)).isSome = true :=
    List.find?_isSome.2 ⟨k, List.mem_range.2 (by omega), by rw [hfree]; rfl⟩
  obtain ⟨i, hi⟩ := Option.isSome_iff_exists.1 hsome
  have hrec : x.freeRec = i := by rw [Part.freeRec, hi, Option.getD_some]
  obtain ⟨hnone, -, hlower⟩ := List.find?_range_eq_some.1 hi
  rw [hrec]
  exact ⟨Option.isNone_iff_eq_none.1 hnone, fun k hk hfree => by simpa [hfree] using hlower k hk⟩

/-- A new record stands at its index, which the MSP has returned. -/
def State.recorded (s : State) (p : Nat) (a : AllocRec) : State :=
  { s.setPart p { s.part p with allocs := kput (s.part p).allocs (s.part p).freeRec a } with
    out := { s.out with msp := s.out.msp ++ [(s.part p).freeRec] } }

variable {rec base len ctx keyid slevel key : Nat}

/-- A write to the records of a partition that exists. -/
theorem execAllocationRecordWrite_made {valid : Bool} (hmade : (s.part p).created = true) :
    exec (.allocationRecordWrite p rec base len ctx keyid slevel key valid) s = .next (
      if !valid then s.setPart p { s.part p with allocs := kdel (s.part p).allocs rec }
      else if (s.part p).allocs.any (fun a => a.2.valid && decide (base < a.2.base + a.2.len ∧ a.2.base < base + len)) ||
          base % 2 ^ 14 != 0 || len % 2 ^ 14 != 0 || decide (2 ^ 52 ≤ base ∨ 65536 ≤ ctx ∨ 4096 ≤ keyid ∨ 16 ≤ slevel) then s
      else s.recorded p (.mk base len ctx keyid slevel true (if keyid = 0 then 0 else Config.keyWrap p ctx key))) :=
  congrArg Host.Outcome.next (if_neg (by rw [hmade]; exact Bool.false_ne_true))

theorem execAllocationRecordWrite_deletes (hmade : (s.part p).created = true) :
    ∃ t, exec (.allocationRecordWrite p rec base len ctx keyid slevel key false) s = .next t ∧
      t = s.setPart p { s.part p with allocs := kdel (s.part p).allocs rec } := by
  exact ⟨_, execAllocationRecordWrite_made hmade, rfl⟩

/-- A range overlaps a record of the partition. -/
def State.clashes (s : State) (p base len : Nat) : Prop :=
  ∃ a ∈ (s.part p).allocs, a.2.valid = true ∧ base < a.2.base + a.2.len ∧ a.2.base < base + len

theorem clash_iff : (s.part p).allocs.any (fun a => a.2.valid && decide (base < a.2.base + a.2.len ∧ a.2.base < base + len)) = true ↔
    s.clashes p base len := by
  unfold State.clashes
  simp only [List.any_eq_true, Bool.and_eq_true, decide_eq_true_eq]

theorem execAllocationRecordWrite_clashes (hmade : (s.part p).created = true) (hclash : s.clashes p base len) :
    ∃ t, exec (.allocationRecordWrite p rec base len ctx keyid slevel key true) s = .next t ∧ t = s := by
  refine ⟨_, ?_, rfl⟩
  rw [execAllocationRecordWrite_made hmade, clash_iff.2 hclash]
  rfl

theorem execAllocationRecordWrite_enters (hmade : (s.part p).created = true) (hbase : base % 2 ^ 14 = 0) (hlen : len % 2 ^ 14 = 0)
    (hspan : base < 2 ^ 52) (hctx : ctx < 65536) (hkey : keyid < 4096) (hlevel : slevel < 16)
    (hapart : ∀ a ∈ (s.part p).allocs, a.2.valid = true → base + len ≤ a.2.base ∨ a.2.base + a.2.len ≤ base) :
    ∃ t, exec (.allocationRecordWrite p rec base len ctx keyid slevel key true) s = .next t ∧
      t = { s with parts := t.parts, out := { s.out with msp := s.out.msp ++ [(s.part p).freeRec] } } ∧ (∀ n, n ≠ p → t.part n = s.part n) ∧
      ∃ a, t.part p = { s.part p with allocs := kput (s.part p).allocs (s.part p).freeRec a } ∧
        a = AllocRec.mk base len ctx keyid slevel true (if keyid = 0 then 0 else Config.keyWrap p ctx key) := by
  have hfree : ¬ s.clashes p base len := by
    rintro ⟨a, ha, hvalid, hlow, hhigh⟩
    have := hapart a ha hvalid
    omega
  have hbounds : ¬ (2 ^ 52 ≤ base ∨ 65536 ≤ ctx ∨ 4096 ≤ keyid ∨ 16 ≤ slevel) := by omega
  have hex : exec (.allocationRecordWrite p rec base len ctx keyid slevel key true) s =
      .next (s.recorded p (.mk base len ctx keyid slevel true (if keyid = 0 then 0 else Config.keyWrap p ctx key))) := by
    rw [execAllocationRecordWrite_made hmade, hbase, hlen, Bool.eq_false_iff.2 (mt clash_iff.1 hfree), decide_eq_false hbounds]
    rfl
  exact ⟨_, hex, rfl, fun n hn => (part_setPart s p n _).trans (if_neg hn), _, (part_setPart s p p _).trans (if_pos rfl), rfl⟩

end

/-! ### Handoff (R328) -/

section
variable {s : State} {p ctx : Nat}

/-- A block belongs to a context of a partition. -/
def State.owns (s : State) (p ctx blk : Nat) : Prop :=
  ∃ b l, kget s.blocks blk = some b ∧ kget s.launches b.launch = some l ∧ l.part = p ∧ l.ctx = ctx

theorem owns_iff {blk : Nat} : (kget s.blocks blk).any (fun b => (kget s.launches b.launch).any (fun l => l.part == p && l.ctx == ctx)) = true ↔
    s.owns p ctx blk := by
  unfold State.owns
  simp only [Option.any_eq_true, Bool.and_eq_true, beq_iff_eq, exists_and_left]

/-- A command of the owner's context is under way on the range. -/
def State.copies (s : State) (p ctx lo hi : Nat) : Prop :=
  ∃ e ∈ s.engines, ∃ c, c ∈ e.2.queue ++ e.2.run.toList ∧ c.part = p ∧ c.ctx = ctx ∧ s.cmdMeets c lo hi = true

/-- A matrix command of the owner's context is under way on the range. -/
def State.multiplies (s : State) (p ctx lo hi : Nat) : Prop :=
  ∃ e ∈ s.mengs, ∃ k ∈ e.2.table, s.owns p ctx k.blk ∧ s.mcmdMeets p ctx k lo hi = true

/-- A unit of the owner's context has stores whose translation is open. -/
def State.hasPosted (s : State) (p ctx : Nat) : Prop := ∃ u ∈ s.warps, s.owns p ctx u.2.blk ∧ u.2.posted ≠ []

theorem ownerBusy_iff {lo hi : Nat} : s.ownerBusy p ctx lo hi = true ↔
    s.copies p ctx lo hi ∨ s.multiplies p ctx lo hi ∨ s.hasPosted p ctx := by
  unfold State.ownerBusy State.copies State.multiplies State.hasPosted
  simp only [Bool.or_eq_true, List.any_eq_true, Bool.and_eq_true, beq_iff_eq, owns_iff, Bool.not_eq_true', List.isEmpty_eq_false_iff, and_assoc,
    or_assoc]

variable {rec : Nat} {r : AllocRec}

theorem execHandoff_eq (hrec : kget (s.part p).allocs rec = some r) (hvalid : r.valid = true) : exec (.handoff p rec ctx) s =
    .next (if !s.ctxExists p ctx || decide (s.curLevel p ctx < r.slevel) || s.ownerBusy p r.ctx r.base (r.base + r.len) then s
      else s.setPart p { s.part p with allocs := kput (s.part p).allocs rec { r with
        ctx := ctx, wrap := if r.keyid = 0 then 0 else Config.keyWrap p ctx (Config.keyUnwrap p r.ctx r.wrap) } }) := by
  rw [exec_handoff, execHandoff, hrec]
  dsimp only
  rw [hvalid]
  rfl

theorem execHandoff_moves (hrec : kget (s.part p).allocs rec = some r) (hvalid : r.valid = true) (hctx : s.ctxExists p ctx = true)
    (hlevel : r.slevel ≤ s.curLevel p ctx)
    (hcopies : ∀ e ∈ s.engines, ∀ c, c ∈ e.2.queue ++ e.2.run.toList → c.part = p → c.ctx = r.ctx → s.cmdMeets c r.base (r.base + r.len) = false)
    (hmatrix : ∀ e ∈ s.mengs, ∀ k ∈ e.2.table, s.owns p r.ctx k.blk → s.mcmdMeets p r.ctx k r.base (r.base + r.len) = false)
    (hstores : ∀ u ∈ s.warps, s.owns p r.ctx u.2.blk → u.2.posted = []) : ∃ t, exec (.handoff p rec ctx) s = .next t ∧ t = s.setPart p
      { s.part p with allocs := kput (s.part p).allocs rec { r with
        ctx := ctx, wrap := if r.keyid = 0 then 0 else Config.keyWrap p ctx (Config.keyUnwrap p r.ctx r.wrap) } } := by
  have hfree : s.ownerBusy p r.ctx r.base (r.base + r.len) = false := by
    refine Bool.eq_false_iff.2 (mt ownerBusy_iff.1 ?_)
    rintro (⟨e, he, c, hc, hpart, hcctx, hmeets⟩ | ⟨e, he, k, hk, howns, hmeets⟩ | ⟨u, hu, howns, hposted⟩)
    · exact Bool.false_ne_true ((hcopies e he c hc hpart hcctx).symm.trans hmeets)
    · exact Bool.false_ne_true ((hmatrix e he k hk howns).symm.trans hmeets)
    · exact hposted (hstores u hu howns)
  refine ⟨_, ?_, rfl⟩
  rw [execHandoff_eq hrec hvalid, hctx, hfree, decide_eq_false (Nat.not_lt.2 hlevel)]
  rfl

theorem execHandoff_waits (hrec : kget (s.part p).allocs rec = some r) (hvalid : r.valid = true)
    (hbusy : s.curLevel p ctx < r.slevel ∨ s.copies p r.ctx r.base (r.base + r.len) ∨ s.multiplies p r.ctx r.base (r.base + r.len) ∨
      s.hasPosted p r.ctx) : ∃ t, exec (.handoff p rec ctx) s = .next t ∧ t = s := by
  refine ⟨_, ?_, rfl⟩
  rw [execHandoff_eq hrec hvalid]
  refine congrArg _ (if_pos ?_)
  rcases hbusy with hlevel | hbusy
  · rw [decide_eq_true hlevel, Bool.or_true, Bool.true_or]
  · rw [ownerBusy_iff.2 hbusy, Bool.or_true]

end

/-! ### Levels (R325) -/

section
variable {s : State} {p who addr level : Nat}

/-- A word of the home view is written, and nothing else. -/
theorem setHNat_word (s : State) (at_ v : Nat) : s.setHNat at_ 8 v = { s with mem := (s.setHNat at_ 8 v).mem } ∧
    (s.setHNat at_ 8 v).hNat at_ 8 = v % 2 ^ 64 ∧ ∀ a, a < at_ ∨ at_ + 8 ≤ a → (s.setHNat at_ 8 v).hByte a = s.hByte a := by
  obtain ⟨m, hm⟩ := setHs_frame (bytesLE 8 v) s at_
  refine ⟨by rw [State.setHNat, hm], hNat_setHNat s at_ 8 v, fun a ha => ?_⟩
  rw [State.setHNat, hByte_setHs, bytesLE_length, if_neg (by omega)]

theorem execLevelLower_page {pte sz at_ : Nat} (hbound : s.preg p .sstate = 1) (hwalk : s.walk p who addr = .leaf pte sz at_)
    (hlower : level < pteLevel pte) : ∃ t, exec (.levelLower p 0 who addr level) s = .next t ∧
      t = { s with mem := t.mem } ∧ t.hNat at_ 8 = setBits pte 11 8 level % 2 ^ 64 ∧ ∀ a, a < at_ ∨ at_ + 8 ≤ a → t.hByte a = s.hByte a := by
  refine ⟨_, ?_, setHNat_word s at_ (setBits pte 11 8 level)⟩
  rw [exec_levelLower, execLevelLower, if_neg (not_not.2 hbound), hwalk]
  exact congrArg _ (if_pos hlower)

theorem execLevelLower_scratchpad {b : Block} (hbound : s.preg p .sstate = 1) (hb : kget s.blocks who = some b)
    (hpart : (kget s.launches b.launch).any (fun l => l.part == p) = true) (hlower : level < b.levAt addr) :
    ∃ t b', exec (.levelLower p 1 who addr level) s = .next t ∧ t = { s with blocks := t.blocks } ∧ kget t.blocks who = some b' ∧
      (∀ a, b'.levAt a = if a / 256 = addr / 256 then level else b.levAt a) ∧ (∀ k, k ≠ who → kget t.blocks k = kget s.blocks k) := by
  have hex : exec (.levelLower p 1 who addr level) s = .next (s.setBlock who { b with spLev := sset b.spLev0 b.spLev (addr / 256) level }) := by
    rw [exec_levelLower, execLevelLower, if_neg (not_not.2 hbound), hb]
    dsimp only
    rw [hpart, decide_eq_true hlower]
    rfl
  exact ⟨_, _, hex, rfl, kget_kput_self .., fun a => sget_sset .., fun k hk => kget_kput_ne _ _ hk⟩

theorem execLevelLower_context (hbound : s.preg p .sstate = 1) (hctx : s.ctxExists p who = true) (hlower : level < s.curLevel p who) :
    ∃ t, exec (.levelLower p 2 who addr level) s = .next t ∧ t = { s with mem := t.mem } ∧
      t.hNat (s.preg p .ctxTab + 64 * who) 8 = setBits (s.descriptor p who) 7 4 level % 2 ^ 64 ∧
      ∀ a, a < s.preg p .ctxTab + 64 * who ∨ s.preg p .ctxTab + 64 * who + 8 ≤ a → t.hByte a = s.hByte a := by
  refine ⟨_, ?_, setHNat_word s (s.preg p .ctxTab + 64 * who) (setBits (s.descriptor p who) 7 4 level)⟩
  rw [exec_levelLower, execLevelLower, if_neg (not_not.2 hbound)]
  exact congrArg _ (if_pos ⟨hctx, hlower⟩)

theorem execLevelLower_unbound (kind : Nat) (hunbound : s.preg p .sstate ≠ 1) :
    ∃ t, exec (.levelLower p kind who addr level) s = .next t ∧ t = s :=
  ⟨_, congrArg Host.Outcome.next (if_pos hunbound), rfl⟩

end

/-- Settles O50. The model's choices are the registers of a released partition, which stand at their reset values (log 20), the heartbeat
counter 0 at bind (log 89), LEVEL_LOWER, which changes the page-table entry alone (log 90), what a handoff waits for (log 91), the
protected groups (log 121) and the lowest free index for a new record (log 122). -/
theorem trustEvents : Obligations.TrustEvents := by
  refine ⟨fun _ _ _ _ conf energy => ⟨fun hok => execCreate_makes hok conf energy, fun hbad => execCreate_refuses hbad conf energy⟩,
    fun _ _ hmade => execPartitionRelease_frees hmade, fun _ key => execSessionBind_device key,
    fun _ _ key hp hmade hnone => execSessionBind_binds key hp hmade hnone,
    fun _ _ hbound hdue => ⟨fun hnone => execSessionLapse_idle hbound hdue hnone, fun _ _ _ hblocks hruns hpart hfirst hx hbusy =>
      execSessionLapse_asks hbound hdue hblocks hruns hpart hfirst hx hbusy⟩,
    fun _ u _ _ hlapsed hwarp => mayIssue_lapsed u hlapsed hwarp, fun _ _ hlapsed hdue hnone => execSessionHalt_idle hlapsed hdue hnone,
    fun _ _ hhalted hdue => execSessionScrub_discards hhalted hdue, fun _ _ hscrubbed => execSessionScrub_releases hscrubbed,
    fun _ _ _ _ _ => ⟨fun hvalid hidle => execHeartbeat_goesOn hvalid hidle, fun hbad => execHeartbeat_errs hbad⟩,
    fun _ _ hi => execGetMeasurements_answers hi, fun _ _ _ _ _ _ => execStage_stages,
    fun _ _ hstaged hidle => execActivate_orders hstaged hidle, fun _ _ _ hnext => execComponentSwitch_switches hnext,
    fun s p _ _ _ _ _ _ _ hmade => ⟨(freeRec_lowest (s.part p)).1, (freeRec_lowest (s.part p)).2, execAllocationRecordWrite_deletes hmade,
      fun hbase hlen hspan hctx hkey hlevel hapart => execAllocationRecordWrite_enters hmade hbase hlen hspan hctx hkey hlevel hapart,
      fun hclash => execAllocationRecordWrite_clashes hmade hclash⟩,
    fun _ _ _ _ _ hrec hvalid => ⟨fun hctx hlevel hcopies hmatrix hstores =>
      execHandoff_moves hrec hvalid hctx hlevel hcopies hmatrix hstores, fun hbusy => execHandoff_waits hrec hvalid hbusy⟩,
    fun _ _ _ _ _ hbound => ⟨fun _ _ _ hwalk hlower => execLevelLower_page hbound hwalk hlower,
      fun _ hb hpart hlower => execLevelLower_scratchpad hbound hb hpart hlower,
      fun hctx hlower => execLevelLower_context hbound hctx hlower⟩,
    fun _ _ kind _ _ _ hunbound => execLevelLower_unbound kind hunbound⟩

end Sys2Proof.Machine
end
